-- ==== Sys2Proof/Word.lean ====
section
/-!
DEFINITION. The word types of the C7 and the few plain conversions everything else uses (R5 to R10: little-endian, 64-bit words,
48-bit positions, 128-bit table entries).
-/
namespace Sys2Proof

/-- A 64-bit register value (R14, R16, R31). -/
abbrev Word := BitVec 64
/-- One byte of memory, the smallest addressable unit (R6, R69). -/
abbrev Byte := BitVec 8
/-- A slalom position or a 48-bit counter (R28, R298). -/
abbrev Pos := BitVec 48

/-- The `len` bits of the number `w` from bit `lo` up. -/
def bits (w lo len : Nat) : Nat := w / 2 ^ lo % 2 ^ len

/-- One bit of a number, as a truth value. -/
def bitOf (w i : Nat) : Bool := w / 2 ^ i % 2 == 1

/-- The signed value of the low `n` bits of `w`. -/
def sextNat (n w : Nat) : Int :=
  let v := w % 2 ^ n
  if v < 2 ^ (n - 1) then (v : Int) else (v : Int) - (2 ^ n : Nat)

end Sys2Proof
end

