-- ==== Sys2Proof/Config.lean ====
section
/-!
DEFINITION. What an implementation fixes, and the free values: constants without a body, so that nothing in a proof can see what they
are (spec R8). A free value is applied to a plain counter of `State` or to the operands it depends on; each has a row in the
assumption log.
-/
namespace Sys2Proof.Config

/-- A byte the spec leaves undefined: step `n`, address `a` (R8, R274). [DESIGN CHOICE, safe: log entry 4] -/
opaque freeByte : Nat → Nat → Byte
/-- The free contents of a scratchpad byte at job start: window grant `n`, window address `a` (R33). [DESIGN CHOICE, safe: log entry 4] -/
opaque freeWindow : Nat → Nat → Byte
/-- A choice of the machine the spec leaves open (R380: an access may use the old or the new entry), at step `n` for address `a`. [DESIGN CHOICE, safe: log entry 5] -/
opaque freeChoice : Nat → Nat → Bool
/-- A 64-bit value the spec leaves undefined, fresh for every `n` (R8). [DESIGN CHOICE, safe: log entry 4] -/
opaque freeWord : Nat → Word
/-- The P-521 identity signature (r, s) of C-die `die` over the bytes of a report (R443, R444): the secret key is not in the spec.
 [DESIGN CHOICE, safe: log entry 6] -/
opaque identitySign : Nat → List Byte → List Byte
/-- The 132 bytes of the public key of C-die `die` (R443), fixed at manufacture. [DESIGN CHOICE, safe: log entry 6] -/
opaque identityKey : Nat → List Byte

/-- Bytes of the operand of an atomic request, as a power of two below 4, by its data bytes: the spec gives no layout (R412). [DESIGN CHOICE, safe: log entry 12] -/
opaque atomicSize : BitVec 512 → Fin 4
/-- The new value an atomic request writes, by its data bytes and the old value (R412). [DESIGN CHOICE, safe: log entry 12] -/
opaque atomicNew : BitVec 512 → Word → Word
/-- What a register request writes, none for a read, by its data bytes (R412). [DESIGN CHOICE, safe: log entry 12] -/
opaque registerForm : BitVec 512 → Option Word
/-- The error code an error response carries, by its word 1 (R413). [DESIGN CHOICE, safe: log entry 12] -/
opaque errorCode : BitVec 64 → Nat
/-- TAG, BUF and the row that the parts of a token row make, none while parts are missing (R412). [DESIGN CHOICE, safe: log entry 12] -/
opaque rowForm : List (BitVec 512) → Option (Nat × Nat × List Byte)
/-- The stepping a die reports in VERSION (R10, R414). [DESIGN CHOICE, safe: log entry 13] -/
opaque dieVersion : BitVec 16

/-! Figures of R2, R3, R11, R40, R415 and R416. -/

/-- Cores of a C-die (R3). -/
def coresPerDie : Nat := 64
/-- Scratchpad bytes of a cluster, 3,968 KiB (R3). -/
def spadBytes : Nat := 3968 * 1024
/-- Operand slots of a cluster (R11). -/
def slotsPerCluster : Nat := 64
/-- Accumulators of a core (R29). -/
def accsPerCore : Nat := 8
/-- Weight frames of a cluster: 16 arrays of 8 (R184). -/
def framesPerCluster : Nat := 128
/-- Bytes of a tier-1 stack, 48 GiB (R415). -/
def stackBytes : Nat := 48 * 2 ^ 30

end Sys2Proof.Config
end

