-- ==== Sys2Proof/Syntax.lean ====
section
/-!
DEFINITION. The abstract syntax of the C7 (spec chapter 04): one constructor of `Instr` per row of the opcode table. The rows of the S
stream (R90 to R95) have fields of their own; every engine word of classes 00 and 01 carries the one layout of R96, every matrix word
the head and tail of R99, and a row that is an event of the machine (R95's list of steps, not a word of a program) carries what the
event names: a job slot, a unit, a message, an address.
-/
namespace Sys2Proof

/-- The four instruction streams of a job (R11). -/
inductive Stream
  | S | L | X | T
  deriving DecidableEq, Repr

/-- The three engine streams, which share the common words of R102. -/
inductive EStream
  | L | X | T
  deriving DecidableEq, Repr

/-- An engine stream as a stream of the job. -/
def EStream.toStream : EStream → Stream
  | .L => .L
  | .X => .X
  | .T => .T

/-- An 18-bit operand field (R97). -/
structure Operand where
  areg : BitVec 4
  mode : BitVec 2
  off  : BitVec 12
  deriving DecidableEq, Repr

/-- The fields of an engine word other than its class and opcode (R96). -/
structure EWord where
  tok  : BitVec 4
  mask : BitVec 3
  fmt  : BitVec 4
  rm   : BitVec 2
  d    : Operand
  a    : Operand
  b    : Operand
  func : BitVec 19
  deriving DecidableEq, Repr

/-- The fields of a matrix word, head then tail, other than the classes, the opcode and the always-zero bits (R99). -/
structure MWord where
  tok   : BitVec 4
  afmt  : BitVec 4
  rm    : BitVec 2
  w     : Operand
  aslot : BitVec 6
  acc   : BitVec 3
  wfmt  : BitVec 4
  pint  : BitVec 4
  scale : BitVec 2
  func  : BitVec 36
  sc    : Operand
  rows  : BitVec 7
  hold  : BitVec 1
  pin   : BitVec 1
  rep   : BitVec 1
  zacc  : BitVec 1
  deriving DecidableEq, Repr

/-- A message of the fabric protocol without its class and operation, which the row names (R411). `ftag` is FDOM or TAG, `w1` is word 1
(the byte mask of a DAT message; TAG and ADDR otherwise), `data` the 64 data bytes, byte 0 lowest. -/
structure Msg where
  src  : BitVec 5
  dst  : BitVec 5
  ftag : BitVec 12
  seq  : BitVec 32
  w1   : BitVec 64
  data : BitVec 512
  deriving DecidableEq, Repr

/-- The instructions and events of the machine: one constructor per row of the opcode table.
A job operand `j` of an event is a job slot number `256 * die + 4 * core + slot`; a cluster `cl` is `16 * die + cluster`. -/
inductive Instr
  -- S stream: arithmetic (R88, R109 to R112)
  | add (d a b : BitVec 6)
  | sub (d a b : BitVec 6)
  | and (d a b : BitVec 6)
  | or (d a b : BitVec 6)
  | xor (d a b : BitVec 6)
  | shl (d a b : BitVec 6)
  | shr (d a b : BitVec 6)
  | sra (d a b : BitVec 6)
  | mul (d a b : BitVec 6)
  | mulh (d a b : BitVec 6)
  | mulhu (d a b : BitVec 6)
  | div (d a b : BitVec 6)
  | divu (d a b : BitVec 6)
  | rem (d a b : BitVec 6)
  | remu (d a b : BitVec 6)
  | min (d a b : BitVec 6)
  | max (d a b : BitVec 6)
  | minu (d a b : BitVec 6)
  | maxu (d a b : BitVec 6)
  | clz (d a : BitVec 6)
  | popc (d a : BitVec 6)
  | sel (d a b : BitVec 6) (p : BitVec 3)
  | addi (d a : BitVec 6) (i : BitVec 14)
  | andi (d a : BitVec 6) (i : BitVec 14)
  | ori (d a : BitVec 6) (i : BitVec 14)
  | xori (d a : BitVec 6) (i : BitVec 14)
  | shli (d a : BitVec 6) (n : BitVec 6)
  | shri (d a : BitVec 6) (n : BitVec 6)
  | srai (d a : BitVec 6) (n : BitVec 6)
  | movi (d : BitVec 6) (i : BitVec 20)
  | shin (d : BitVec 6) (i : BitVec 20)
  -- compares, predicates, control transfers (R114 to R116)
  | cmp (p c : BitVec 3) (a b : BitVec 6)
  | cmpi (p c : BitVec 3) (a : BitVec 6) (i : BitVec 14)
  | pand (d a b : BitVec 3)
  | por (d a b : BitVec 3)
  | pxor (d a b : BitVec 3)
  | pnot (d a : BitVec 3)
  | b (p : BitVec 3) (n : BitVec 1) (o : BitVec 22)
  | jmp (o : BitVec 26)
  | call (o : BitVec 26)
  | jr (a : BitVec 6)
  -- memory (R126 to R130); `o` of LDM and STM is the offset's bits [10:3]
  | ld (d a : BitVec 6) (w : BitVec 2) (k x : BitVec 1) (o : BitVec 10)
  | st (d a : BitVec 6) (w : BitVec 2) (k : BitVec 1) (o : BitVec 10)
  | ldm (d a : BitVec 6) (n : BitVec 3) (o : BitVec 8)
  | stm (d a : BitVec 6) (n : BitVec 3) (o : BitVec 8)
  | lda (d a : BitVec 6) (w : BitVec 2) (sc : BitVec 3) (o : BitVec 9)
  | stl (d a : BitVec 6) (w : BitVec 2) (sc : BitVec 3) (o : BitVec 9)
  | throw (d a b : BitVec 6) (w : BitVec 2) (sc : BitVec 3)
  | pref (a : BitVec 6) (sc : BitVec 3) (o : BitVec 9)
  -- spill store and queues (R119 to R121)
  | spl (d : BitVec 6) (n : BitVec 9)
  | sps (d : BitVec 6) (n : BitVec 9)
  | qpush (a : BitVec 6) (q : BitVec 6)
  | qpop (d : BitVec 6) (q : BitVec 6)
  | qcnt (d : BitVec 6) (q : BitVec 6)
  -- synchronisation (R131 to R138)
  | fence (sc : BitVec 3) (src dst : BitVec 8) (k : BitVec 2)
  | fenceRetire (j : Nat)
  | waitMemeq (a b : BitVec 6) (sc : BitVec 3)
  | waitMemge (a b : BitVec 6) (sc : BitVec 3)
  | waitNm (a : BitVec 6)
  | waitIngr (a b : BitVec 6)
  | waitReevaluate (j : Nat)
  | rdv (m : BitVec 3)
  | joinComplete (j : Nat)
  | haltRetire (j : Nat)
  | barc (i : BitVec 4)
  | barrierComplete (cl launch id : Nat)
  -- slalom regions (R139 to R141, R307)
  | rbeg (o : BitVec 26)
  | rcom (d : BitVec 6)
  | regionCommit (j : Nat)
  | rabt (c : BitVec 8)
  | rbndLo (d : BitVec 6)
  | rbndHi (d : BitVec 6)
  -- near-memory work, launches, weights, system (R142 to R148)
  | nmgo (d a : BitVec 6)
  | nmwt (d a : BitVec 6)
  | spawn (d a b : BitVec 6)
  | wgen (d a : BitVec 6)
  | csrr (d : BitVec 6) (c : BitVec 12)
  | csrw (a : BitVec 6) (c : BitVec 12)
  | trap (i : BitVec 20)
  | replayEnd (j : Nat)
  | unassignedFirmwareService (i : BitVec 20)
  -- vector words (R149 to R183)
  | vshape (w : EWord)
  | vadd (w : EWord)
  | vsub (w : EWord)
  | vmul (w : EWord)
  | vfma (w : EWord)
  | vmin (w : EWord)
  | vmax (w : EWord)
  | vabs (w : EWord)
  | vneg (w : EWord)
  | vand (w : EWord)
  | vor (w : EWord)
  | vxor (w : EWord)
  | vshl (w : EWord)
  | vshr (w : EWord)
  | vcmp (w : EWord)
  | vsel (w : EWord)
  | vcvt (w : EWord)
  | vqnt (w : EWord)
  | vdq (w : EWord)
  | vexp (w : EWord)
  | vrcp (w : EWord)
  | vrsq (w : EWord)
  | vtanh (w : EWord)
  | vred (w : EWord)
  | vscan (w : EWord)
  | vgmax (w : EWord)
  | vtopk (w : EWord)
  | vnorm (w : EWord)
  | vcopy (w : EWord)
  | vfill (w : EWord)
  | viota (w : EWord)
  | vgath (w : EWord)
  | vscat (w : EWord)
  | vtran (w : EWord)
  | vmskAnd (w : EWord)
  | vmskOr (w : EWord)
  | vmskXor (w : EWord)
  | vmskAndn (w : EWord)
  | vmskNot (w : EWord)
  | vmskFirst (w : EWord)
  | vmskCount (w : EWord)
  | vmskLd (w : EWord)
  | vmskSt (w : EWord)
  | vectorWordRetire (j : Nat)
  -- matrix words (R188 to R216)
  | mshape (w : MWord)
  | mma (w : MWord)
  | mmas (w : MWord)
  | mlda (w : MWord)
  | mclm (w : MWord)
  | mrel (w : MWord)
  | macr (w : MWord)
  | mzero (w : MWord)
  | mfill (w : MWord)
  | mpin (w : MWord)
  | munp (w : MWord)
  | minv (w : MWord)
  | mqry (w : MWord)
  | mrep (w : MWord)
  | mlse (w : MWord)
  | leaseGrant (cl : Nat)
  | leaseBudgetExhausted (cl : Nat)
  | mlrl (w : MWord)
  | mthr (w : MWord)
  | frameFillComplete (cl fr : Nat)
  | frameCopyComplete (cl fr : Nat)
  | hardwareReplica (cl fr : Nat)
  | matrixWordRetire (j : Nat)
  -- copy words (R217 to R232)
  | cpy (w : EWord)
  | cpyg (w : EWord)
  | cpyd (w : EWord)
  | cpym (w : EWord)
  | prel (w : EWord)
  | dgst (w : EWord)
  | cps (w : EWord)
  | acw (w : EWord)
  | acwf (w : EWord)
  | cas (w : EWord)
  | cpst (w : EWord)
  | scat (w : EWord)
  | flsh (w : EWord)
  | invl (w : EWord)
  | engineWordRetire (j : Nat) (e : EStream)
  -- common words (R235 to R238)
  | aq (e : EStream) (w : EWord)
  | aset (e : EStream) (w : EWord)
  | aadd (e : EStream) (w : EWord)
  | ejoin (e : EStream) (w : EWord)
  | enop (e : EStream) (w : EWord)
  | cshape (e : EStream) (w : EWord)
  | loop (e : EStream) (w : EWord)
  -- events: jobs, launches, contexts
  | breakpointStop (j : Nat) (st : Stream) (n : Nat)
  | jobDispatch (die : Nat)
  | walkerSteal (launch die : Nat)
  | tailReread (leaf : Nat)
  | periodBoundary (node : Nat)
  | ageLevelTick (launch : Nat)
  | launchComplete (launch : Nat)
  | preemptionRequest (j : Nat)
  | sliceExpiry (j : Nat)
  | graceExpiry (j : Nat)
  | forcedCut (j : Nat)
  | contextSaveDone (j : Nat)
  | saveDeadlineExpiry (j : Nat)
  | jobResume (launch ticket : Nat)
  | hangWatchdog (j : Nat)
  -- events: near-memory units, memory system
  | nmJobStart (m : Nat)
  | nmJobComplete (m u : Nat)
  | nmWatchdogReset (m u : Nat)
  | activationAlert (m u row share total : Nat)
  | persistentRequest (line core : Nat)
  | pageMoveRemap (f : Nat)
  | freezeStallTimeout (j : Nat) (st : Stream)
  | weightRecheck (f : Nat)
  | patrolScrub (die line : Nat) (bad : Bool)
  -- events: the fabric protocol
  | flitReceive (die module : Nat) (flit : BitVec 2048)
  | linkRetrain (die link : Nat) (rates : BitVec 8) (repaired : Nat)
  | reqReadShared (m : Msg)
  | reqReadOwned (m : Msg)
  | reqWrite (m : Msg)
  | reqAtomic (m : Msg)
  | reqReleasePermission (m : Msg)
  | reqNearMemoryJob (m : Msg)
  | reqWalkerSteal (m : Msg)
  | reqRegisterAccess (m : Msg)
  | rspAck (m : Msg)
  | rspRetry (m : Msg)
  | rspMoved (m : Msg)
  | rspError (m : Msg)
  | rspDataFollows (m : Msg)
  | rspForcedPublishAck (m : Msg)
  | datLine (m : Msg)
  | datPartialLine (m : Msg)
  | datPoisonedLine (m : Msg)
  | snpRecallOwner (m : Msg)
  | snpInvalidate (m : Msg)
  | snpForcedPublish (m : Msg)
  | tokGrantShared (m : Msg)
  | tokGrantOwned (m : Msg)
  | tokRevoke (m : Msg)
  | nrw (m : Msg)
  | pos (m : Msg)
  | ingTokenRow (m : Msg)
  | ingPickRecord (m : Msg)
  | throwDelivery (core line : Nat)
  -- events: the host, registers, boot
  | hostRead (pa : Nat) (n : Nat)
  | hostWrite (pa : Nat) (n : Nat) (data : BitVec 512)
  | hostFetchAdd (pa : Nat) (wide : Bool) (v : Word)
  | hostSwap (pa : Nat) (wide : Bool) (v : Word)
  | hostCompareSwap (pa : Nat) (wide : Bool) (old new : Word)
  | tenRoot (n : BitVec 6) (v : Word)
  | tenKick (n : BitVec 6) (v : Word)
  | domRst (f : BitVec 12) (v : Word)
  | domainResetDone (f : BitVec 12)
  | xlInv (f : BitVec 12) (v : Word)
  | xlMig (f : BitVec 12) (v : Word)
  | errPop (die : BitVec 5) (v : Word)
  | fwinWrite (n : BitVec 4) (r : BitVec 2) (v : Word)
  | registerWrite (pa : Nat) (v : Word)
  | clockStep (die : Nat) (up : Bool)
  | thermalThrottle (die : Nat)
  | thermalStop (die : Nat)
  | copyTrapInFlight (j : Nat) (e : EStream)
  | coherentWindowSnoop (line : Nat) (write : Bool)
  | trHead (f : BitVec 12) (v : Word)
  -- rows and events without operands (R109, R133, R134, R136, R137, R147, R148, R300, R414, R417, R418, R428, R440, R447); an event of the
  -- MGT class acts on the oldest message of its operation that waits
  | nop
  | waitProd
  | trig
  | halt
  | yield
  | openRange
  | closeRange
  | registerBufferGroup
  | resetBufferGroup
  | releaseBufferGroup
  | setContextPool
  | registerWeightTable
  | setWatchpoint
  | replay
  | attestationReport
  | eret
  | positionRebase
  | powerOn
  | discoveryTimeout
  | packageReset
  | mgtDescriptorRequest
  | mgtDescriptor
  | mgtTopology
  | mgtFirmwareReplicaWrite
  | mgtEvent
  deriving DecidableEq, Repr

end Sys2Proof
end

