-- ==== Sys2Proof/Machine/State.lean ====
section
/-!
DEFINITION. The state of a package: everything the spec names, as plain data (chapters 01, 08 to 16, 22 to 31). Tables that the
machine keeps per job, core, cluster, die, domain, line or page are finite maps in one canonical form, `SMap`: keys strictly rising,
and no entry equal to what an absent key reads as. Memory is such a map from addresses to bytes.
-/
namespace Sys2Proof.Machine

/-- A finite map from numbers, keys strictly rising. -/
abbrev SMap (α : Type) := List (Nat × α)

/-- Bytes by address; an unlisted address reads as zero (log entry 2). -/
abbrev Mem := List Host.Cell

/-- A vector clock: how many accesses of each path of each job happen before (R256). A key is `8 * job uid + path bit`. -/
abbrev VC := SMap Nat

/-! ### Faults and refusals -/

/-- Where the machine stops with a fault. [DESIGN CHOICE, safe: log entry 104] -/
inductive Fault
  /-- Raised by the meaning of a stream word when no resident job is the one whose turn it is, so that no job executes the word. Safe:
  the machine itself never issues a word for no job, and no claim about a run is proved from it. -/
  | noJob
  deriving DecidableEq, Repr

/-- Where the machine has no meaning for an instruction. -/
inductive Refusal
  /-- Raised by `exec` for a row that has no meaning in the model yet, by name. Safe: nothing can be proved of such a run. -/
  | notModelled (mnemonic : String)
  deriving DecidableEq, Repr

/-! ### The job (R11 to R39) -/

/-- A loop stack entry (R16): first word address, last word address, remaining count. -/
structure LoopEnt where
  first : Word
  last : Word
  remaining : Nat
  deriving DecidableEq, Repr

/-- A copy shape (R17). -/
structure CShape where
  pstride : BitVec 48
  planes : BitVec 16
  rows : BitVec 24
  rowb : BitVec 24
  deriving DecidableEq, Repr

/-- The vector shape grant VS (R18): element count and format code. [DEDUCED, unsafe: log entry 32] -/
structure VGrant where
  count : Nat
  fmt : BitVec 4
  deriving DecidableEq, Repr

/-- The matrix shape grant MS (R18): rows and promotion interval P. -/
structure MGrant where
  rows : Nat
  p : Nat
  deriving DecidableEq, Repr

/-- An accumulator (R29, R59): elements by `64 * row + col`, unlisted zero; the 24-bit inner values with their step counters, unlisted
zero; elements with an uncorrectable error (R420). -/
structure Acc where
  z : SMap (BitVec 32)
  inner : SMap (Int × Nat)
  bad : List Nat
  deriving DecidableEq, Repr

/-- A claimed operand slot (R196, R197): bytes by `48 * row + byte`, unlisted zero; the slot tag (R65); units of 8 bytes with an
uncorrectable error (R420). -/
structure Slot where
  data : Mem
  tag : Nat
  bad : List Nat
  deriving DecidableEq, Repr

/-- A scratchpad window (R33, R65): size in bytes, base in the cluster's scratchpad, contents by window address, what an unlisted
address reads as (`none`: zero; `some n`: the free contents of grant `n`), granule tags with line numbers, and poisoned bank words
with the mask of bytes written since (R420). -/
structure Window where
  size : Nat
  base : Nat
  bytes : Mem
  free : Option Nat
  tags : SMap (Nat × Nat)
  poison : SMap Nat
  deriving DecidableEq, Repr

/-- What a retiring X word lands (R156, R191): window bytes, granules that lose their tag, a mask register, accumulators, operand slots,
flags, new grants and threshold table, entries for q12, the born stamps of the frames it drops, and the frame on which a matrix word runs (R210,
R250). Of a copy word, `win` holds the window bytes that another stream's unordered access
has made undefined (R154), and `recv` holds what it read at issue: the indices of CPYG, the receivers of CPYM by uid, the 128-bit route
records of SCAT. -/
structure Effect where
  win : List Host.Cell
  mask : Option (Nat × BitVec 2048)
  accs : List (Nat × Acc)
  slots : List (Nat × Option Slot)
  tags : List (Nat × Nat × Nat)
  flags : BitVec 9
  push : List Word
  elogs : List Word
  dropFrames : List Nat
  vs : Option (Option VGrant)
  ms : Option (Option MGrant)
  thr : Option Word
  recv : List Nat
  runs : Option Nat
  reads : List (Int × Nat)
  deriving DecidableEq, Repr

/-- What a copy word in flight has done so far: pieces performed, kept results by unit, flags, bytes of a digest (R221, R234, R382). -/
structure Part where
  done : Nat
  kept : List (Nat × Word)
  fl : BitVec 9
  bytes : List Byte
  deriving DecidableEq, Repr

/-- An engine word that has issued and not retired, and a journal entry (R219, R233, R368): its PC, sequence number, itself, the word's bits
for the journal image, the operand values in the order D, A, B (a matrix word: W, SC), the popped queue values, the copy shape at issue, what
it lands at retirement, what its window accesses come after (R154), and what it has done so far. -/
structure InFlight where
  pc : Word
  seq : Nat
  word : Instr
  bits : Nat
  ops : List Word
  pops : List Word
  shape : CShape
  eff : Effect
  know : VC
  part : Part
  deriving DecidableEq, Repr

/-- An access of window bytes that later ones may be unordered with (R154): the accessor's key and number, first address, length, whether it
wrote. -/
structure WinAcc where
  key : Nat
  num : Nat
  lo : Int
  len : Nat
  write : Bool
  deriving DecidableEq, Repr

/-- One engine stream (R16, R17, R24, R28, R219); `ejoin` is the token field of an EJOIN that waits for its pair (R135). -/
structure Eng where
  pc : Word
  a : Vector Word 16
  loops : List LoopEnt
  seq : Nat
  shape : CShape
  inflight : List InFlight
  journal : List InFlight
  ejoin : Option (BitVec 4)
  ended : Bool
  deriving DecidableEq, Repr

/-- The S register file and PC (R14), and SEQS (R28). -/
structure SRegs where
  pc : Word
  s : Vector Word 64
  p : BitVec 8
  seq : Nat
  deriving DecidableEq, Repr

/-- Queues and token FIFOs (R19 to R25): entries oldest first, reserved places, the status buffer of R23 with its reserved places and
overflow bit. -/
structure Queues where
  q : Vector (List Word) 16
  res : Vector Nat 16
  sbuf : List Word
  sbres : Nat
  ovf : Bool
  tok : Vector Nat 4
  tokres : Vector Nat 4
  tk : SMap (List VC)
  qk : SMap (List VC)
  deriving DecidableEq, Repr

/-- The S join points (R135). -/
inductive JoinKind
  | rdv
  | halt
  | yield
  deriving DecidableEq, Repr

/-- What a waiting S instruction waits for (R124): nothing; parked at a false WAIT or a waiting BARC; a BARC whose generation is complete
waits for the S slot (R239); a fence, with the words (stream code,
sequence number) that must retire first, the clock gathered so far, its scope, masks and kind; a join point; a commit. -/
inductive SPend
  | none
  | parked
  | barc (id : Nat)
  | departed
  | fence (need : List (Nat × Nat)) (clk : SMap VC) (sc src dst kind : Nat)
  | join (mask : Nat) (why : JoinKind)
  | commit (d : BitVec 6)
  deriving DecidableEq, Repr

/-- What an acquire that reads these bytes obtains (R256): where the value stands (a scope copy by level and instance, else none), the releasing
scope, the core, and the clock. -/
structure RelRec where
  addr : Nat
  len : Nat
  copy : Option (Nat × Nat)
  scope : Nat
  core : Nat
  vc : VC
  deriving DecidableEq, Repr

/-- An active slalom region (R139, R301 to R309): abort handler, read and write sets (lines), buffered bytes by physical address, the
bounds as the record holders hold them (RLO and RHI follow when a narrowing arrives, R306), edges by job slot, the id messages name; the
position at which it is frozen, buffered stores to registers (address, bytes, value), and the releases that its loads have read (R310). -/
structure Region where
  hpc : Word
  reads : List Nat
  writes : List Nat
  store : Mem
  lo : Nat
  hi : Nat
  succ : List Nat
  pred : List Nat
  id : Nat
  frozen : Option Nat
  regs : List (Nat × Nat × Nat)
  acq : List RelRec
  deriving DecidableEq, Repr

/-- A SHA-512 context (R225, FIPS 180-4): the hash value after the blocks taken in (empty before the first), the bytes of the block begun, and
how many bytes have entered. -/
structure Digest where
  h : List Word
  part : List Byte
  count : Nat
  deriving DecidableEq, Repr

/-- Nothing has entered. -/
def Digest.reset : Digest := ⟨[], [], 0⟩

/-- The architectural state of a job that a full context keeps (R11, R367). -/
structure JobCore where
  S : SRegs
  L : Eng
  X : Eng
  T : Eng
  Q : Queues
  spill : SMap Word
  vs : Option VGrant
  ms : Option MGrant
  masks : Vector (BitVec 2048) 8
  thr : Word
  flags : BitVec 9
  elog : List Word
  fmt : Vector (BitVec 32) 3
  rlo : Pos
  rhi : Pos
  rstat : Word
  rpos : Pos
  leaseb : Nat
  lease : Option Nat
  accs : SMap Acc
  slots : SMap Slot
  win : Window
  digest : Digest
  wk : SMap VC
  wacc : List WinAcc
  deriving DecidableEq, Repr

/-- The level at which the S stream of a slot runs (R358). -/
inductive Level
  | job
  | handler
  deriving DecidableEq, Repr

/-- Why a job stopped at a cut (R365): the KIND of its cut record. -/
inductive CutKind
  | forced
  | trap
  | breakpoint
  | lite
  deriving DecidableEq, Repr

/-- What a resident job is doing: its streams run, or its context is being saved. -/
inductive Phase
  | running
  | saving (kind : CutKind)
  deriving DecidableEq, Repr

/-- What orders the accesses of one path of a job (R256): the clock of its last access; by scope, what release fences of that scope put before
it, which passes on only within that scope (R276); the clock of its last load and acquire; fence clocks, by scope (5: no limit), that its
later loads and its later stores obtain, each from words numbered above the first component; the scopes at which its later stores are
releases, likewise; the releases that its loads have read: scope, core, clock. -/
structure PathClk where
  all : VC
  lim : SMap VC
  ld : VC
  pl : List (Nat × SMap VC)
  ps : List (Nat × SMap VC)
  rel : List (Nat × Nat)
  seen : List (Nat × Nat × VC)
  deriving DecidableEq, Repr

/-- A replay in progress (R437): the VALUE records not yet used (stream, word number, value, address), the number of the last recorded word
of each stream, the save area, whether a record and an access differed, whether HALT has been reached. -/
structure Replay where
  values : List (Nat × Nat × Word × Word)
  last : List (Nat × Nat)
  area : Word
  diverged : Bool
  ended : Bool
  deriving DecidableEq, Repr

/-- What the matrix word at the head of X has asked of the complex before it issues (R185, R213): the key it has looked up, page and scale length,
whether it runs on an array, and the accumulators and slots it reads; or the lease. -/
inductive Look
  | tile (page len : Nat) (array : Bool) (accs slots : List Nat)
  | lease
  deriving DecidableEq, Repr

/-- A job of a launch, resident or saved (R11, R31, R359 to R374). `uid` is `2^48 * launch + ticket`. `shown` holds, by engine path, the clock
that S knows to have issued, and `posted` that of each entry which engine words have pushed and S has not popped, by queue (R132). -/
structure Job where
  uid : Nat
  launch : Nat
  ticket : Nat
  serial : Nat
  fdom : Nat
  hdr0 : Word
  hdr1 : Word
  epoch : Nat
  core : JobCore
  level : Level
  phase : Phase
  pend : SPend
  trapc : Word
  trapv : Word
  trappc : Word
  trapIn : Bool
  snap : Option JobCore
  region : Option Region
  ctxAddr : Word
  preempt : Option Nat
  dispatched : Nat
  resident : Nat
  watch : Nat
  lastSave : Nat
  lastRestore : Nat
  saveStart : Nat
  triggered : Bool
  nmHandles : List Nat
  stallStart : SMap Nat
  bpSkip : List Nat
  clk : Vector PathClk 7
  shown : SMap PathClk
  posted : SMap (List PathClk)
  replay : Option Replay
  home : Nat
  lookup : Option Look
  deriving DecidableEq, Repr

/-! ### Cores, clusters, dies (R239 to R251, R284 to R296) -/

/-- Per core: CATCHQ and CATCHREF (R31), the S slot holder (R239), by stream code of L, X and T the job slot that the port last served (R240),
caught untouched lines (R296), the lines of each L1 set in LRU order. -/
structure CoreSt where
  catchq : Nat
  catchref : Nat
  holder : Option Nat
  ports : SMap Nat
  caught : List Nat
  lru : List Nat
  deriving DecidableEq, Repr

/-- A weight frame (R184, R185, R204 to R215): key (fault domain, VA[51:12], L), bytes, tag, the stamp of its making, which no other frame of the
cluster ever has, the stamp of its last use, pin, whether a fill or copy is in progress, the stamp of the frame it is copied from, whether MINV
dooms it, a pin the fill asked for, failed units (R420). -/
structure Frame where
  fdom : Nat
  page : Nat
  len : Nat
  data : Mem
  tag : Nat
  born : Nat
  used : Nat
  pinned : Bool
  filling : Bool
  copying : Bool
  src : Nat
  doomed : Bool
  wantPin : Bool
  bad : List Nat
  deriving DecidableEq, Repr

/-- The lease of a cluster (R213 to R215): holder, remaining budget, named frames, least recently named first. -/
structure Lease where
  job : Nat
  budget : Nat
  named : List Nat
  deriving DecidableEq, Repr

/-- A barrier generation (R138): participants by job uid; the arrivals and the waiting jobs outside the set, each with the clock of its arrival. -/
structure Barrier where
  launch : Nat
  id : Nat
  parts : List Nat
  arrived : SMap VC
  later : SMap VC
  deriving DecidableEq, Repr

/-- A partial line of a commutative range (R62, R294): the range's domain and number, its format and operation, the elements by index. -/
structure Partial where
  fdom : Nat
  rng : Nat
  fmt : Nat
  op : Nat
  elems : SMap Nat
  deriving DecidableEq, Repr

/-- Per cluster: frames, lease, its waiting requests, the waiting words with the frame each waits for (R210), the core whose matrix word the arbiter
granted last and the slot it granted last by core (R216), CIMHIT and CIMMISS, barriers, partial lines of commutative ranges in LRU order
(R295), the conflict matrix (R438) and the last snapshot (R439), the scratchpad's last owners (R33). -/
structure Cluster where
  frames : SMap Frame
  lease : Option Lease
  leaseWait : List Nat
  lastLease : Nat
  waitKey : List (Nat × Nat)
  arb : Nat
  arbSlot : SMap Nat
  hit : Nat
  miss : Nat
  barriers : List Barrier
  partials : SMap Partial
  partOrder : List Nat
  conflicts : SMap Nat
  lastSnap : Option Nat
  skipped : Nat
  owners : List (Nat × Nat × Nat)
  clock : Nat
  deriving DecidableEq, Repr

/-- A pick of a row (R327, R329): expert, raw score, dropped at CAP. -/
structure Pick where
  expert : Nat
  score : Nat
  dropped : Bool
  deriving DecidableEq, Repr

/-- A hole (R328): the row's source die and TAG, the (expert, slot) pairs it reserved, its picks. -/
structure Hole where
  src : Nat
  tag : Word
  slots : List (Nat × Nat)
  picks : List Pick
  deriving DecidableEq, Repr

/-- An ingress buffer group (R325 to R330). -/
structure Group where
  fdom : Nat
  db : Nat
  k : Nat
  notify : Bool
  ne : Nat
  ebase : Word
  estride : Word
  cap : Nat
  cntbase : Word
  counts : SMap Nat
  holes : List Hole
  deriving DecidableEq, Repr

/-- Per die: CYCLE, BOOTST, the copy of G (R298), ingress groups and the next SCAT number by source die (R325, R327), the walker's last core (R353),
the error block (R423), junction state of R445 and R447. -/
structure DieSt where
  cycle : Nat
  clk : Nat
  stage : Nat
  result : Nat
  svn : Nat
  image : List Byte
  g : Pos
  groups : SMap Group
  scatSeq : SMap Nat
  lastCore : Nat
  ce : Nat
  ue : Nat
  errlog : List (Nat × Nat × Nat × Nat)
  held : Bool
  clkStep : Nat
  deriving DecidableEq, Repr

/-- A near-memory job (R314 to R321): its handle, its issuer, the issuer's domain and die, the record, the unit that runs it and since when, what
its accesses of memory and of the window come after, and the frozen page at which it waits, since when (R319). -/
structure NmJob where
  handle : Nat
  uid : Nat
  fdom : Nat
  die : Nat
  words : List Word
  unit : Option Nat
  started : Nat
  vc : VC
  know : VC
  stall : Option (Nat × Nat)
  deriving DecidableEq, Repr

/-- A watchpoint comparator (R430). -/
structure Watch where
  base : Word
  lim : Word
  ctl : Word
  cnt : Word
  deriving DecidableEq, Repr

/-- Per M-die: FLOOR and the copy of G (R298, R299), queued and running near-memory jobs, ended handles with their status, code and clock,
serial numbers, comparators, displaced race metadata (R261). -/
structure MDieSt where
  floor : Pos
  g : Pos
  queue : List NmJob
  running : List NmJob
  ended : SMap (Nat × Nat × VC)
  serial : Nat
  watch : Vector Watch 16
  overflow : List Nat
  deriving DecidableEq, Repr

/-! ### Domains, tenants, launches -/

/-- A pool reservation (R360): job uid, address, bytes. -/
structure Reserve where
  uid : Nat
  addr : Nat
  len : Nat
  deriving DecidableEq, Repr

/-- Per fault domain: the context, translation, commutative-range, event, debug, trace and profile registers, PROFCTL, the weight
table, DOM_RST (R31, R292, R359, R379, R385, R402, R426, R434, R436, R438). -/
structure Domain where
  ctxBase : Word
  ctxLim : Word
  ctxCtl : Word
  ctxHnd : Word
  ctxExt : Nat
  ctxLost : Nat
  ctxForced : Nat
  ctxYields : Nat
  reserves : List Reserve
  xlRoot : Word
  xlMdst : Word
  xlMig : Word
  xlMst : Word
  crng : Vector (Word × Word × Word) 8
  evqBase : Word
  evqTail : Word
  evqHead : Word
  evqLost : Word
  hwd : Word
  bpPc : Vector Word 4
  bpCtl : Vector Word 4
  bpHit : Vector Word 4
  trBase : Word
  trCtl : Word
  trTail : Word
  trHead : Word
  trLost : Word
  prBase : Word
  prTail : Word
  prHead : Word
  prLost : Word
  profctl : Word
  wtBase : Word
  wtCount : Nat
  wtInterval : Nat
  wtLast : Nat
  domRst : Nat
  deriving DecidableEq, Repr

/-- A tenant's register block (R399). -/
structure Tenant where
  root : Word
  dom : Word
  irqa : Word
  irqd : Word
  bw : Word
  msgs : Nat
  err : Bool
  run : Bool
  deriving DecidableEq, Repr

/-- A producer of a launch (R348): ended or exited, or a ring position not yet ended. -/
structure Prod where
  leaf : Nat
  idx : Nat
  deriving DecidableEq, Repr

/-- The device side of a launch (R346 to R357). -/
inductive LState
  | waiting
  | ready
  | complete
  | killed
  | lost
  deriving DecidableEq, Repr

/-- What the device keeps of a launch: its ring position, the record and header as read, its domain, tenant and serial; the ticket range of
each die; tickets in all and not yet dispatched; producers; jobs that have triggered and halted; generation
records (R145); DEGRADED (R261); age level, when the level last rose, its place in the order of becoming ready; the step before its first
job, which tells code written since (R89); since when its signal write waits for a frozen page, plus one (R384); clocks of what happens before its jobs, of its triggers, and of its ends (R256). -/
structure Launch where
  leaf : Nat
  idx : Nat
  words : List Word
  hdr0 : Word
  hdr1 : Word
  fdom : Nat
  tenant : Nat
  serial : Nat
  st : LState
  ranges : List (Nat × Nat)
  total : Nat
  undisp : Nat
  prods : List Prod
  trig : Nat
  halted : Nat
  wgens : List (Nat × Nat)
  degraded : Bool
  age : Nat
  ageStart : Nat
  order : Nat
  began : Nat
  stall : Nat
  vc : VC
  vcTrig : VC
  vcEnd : VC
  deriving DecidableEq, Repr

/-- The device side of a region control block (R343 to R345, R397): word 0, PARENT, BUDGET and PERIOD as last read, and for a leaf the
next index to read, the indices at or above HEAD that have ended, the tenant; TIME of the next period boundary; since when a record waits for
its header's frozen page (R384), 0 if none does, else TIME plus 1. -/
structure Leaf where
  w0 : Word
  parent : Nat
  budget : Nat
  period : Nat
  next : Nat
  ended : List Nat
  tenant : Nat
  boundary : Nat
  stall : Nat
  deriving DecidableEq, Repr

/-! ### Memory system -/

/-- The die-level state of a directory entry (R287). -/
inductive DirState
  | shared (dies : Nat) (host : Bool)
  | owned (die : Nat)
  | host
  deriving DecidableEq, Repr

/-- Who holds tokens of a line on a die (R284): cores 0 to 63, the slice of cluster n as 64 + n, the home slice's replica as 80; for a replica
the launch whose read installed it (R286). The home slice holds every other token. -/
structure Holder where
  core : Nat
  tokens : Nat
  owner : Bool
  caught : Bool
  replica : Option Nat
  deriving DecidableEq, Repr

/-- A scope copy (R288): level 0 core, 1 cluster, 2 die; instance number; line; its bytes; the mask of dirty bytes; the jobs that wrote. -/
structure ScopeCopy where
  level : Nat
  inst : Nat
  line : Nat
  bytes : List Byte
  mask : Nat
  fdom : Nat
  launches : List Nat
  deriving DecidableEq, Repr

/-- A recorded ordinary access (R261). -/
structure Acc1 where
  core : Nat
  key : Nat
  time : Nat
  mask : Nat
  write : Bool
  deriving DecidableEq, Repr

/-- The live race metadata of a line for one fault domain (R261): recorded accesses, and the launches that have written. -/
structure RaceMeta where
  accs : List Acc1
  writers : List Nat
  deriving DecidableEq, Repr

/-- A cached table entry that may still be used beside the tables (R380): domain, level, the addresses it covers as their common prefix, the
entry. -/
structure Tlb where
  fdom : Nat
  level : Nat
  pre : Nat
  entry : Word
  deriving DecidableEq, Repr

/-- A page move in progress (R383). -/
structure Move where
  fdom : Nat
  va : Nat
  size : Nat
  oldPa : Nat
  newPa : Nat
  entries : List Nat
  deriving DecidableEq, Repr

/-- A kept once-only result (R234): the tag and, per line or row, the kept values. -/
structure Guard where
  fdom : Nat
  serial : Nat
  ticket : Nat
  stream : Nat
  seq : Nat
  unit : Nat
  value : Word
  deriving DecidableEq, Repr

/-- Memory and everything kept per line or page: home bytes of the device and of the host, bytes dirty in C-dies and not yet at the home,
bytes whose C-die copies are stale after a near-memory write (R274), scope copies, directory (R287), token holders by `2^48 * die +
line` (R284), persistent requests (R285), commit records wpos and rpos (R299), race metadata by `4096 * line + domain`, release records, poisoned
lines with the mask of bytes written since (R422), tags of lines as cached (R64, R67), cached translations, page moves, once-only
guards, throw deliveries on their way (core, line, sender), the bytes that the last change of an address replaced, with its step (R89), failed token requests by `256 * line + core` (R285), the
lines that a committing region has gathered with its slot (R307), the bytes that near-memory units replaced, with the key of the unit's job (R322). -/
structure MemSys where
  mem : Mem
  host : Mem
  dirty : Mem
  stale : Mem
  scopes : List ScopeCopy
  dir : SMap DirState
  tokens : SMap (List Holder)
  persistent : List (Nat × Nat)
  lines : SMap (Nat × Nat)
  race : SMap RaceMeta
  rel : List RelRec
  poison : SMap Nat
  tags : SMap Nat
  tlb : List Tlb
  moves : List Move
  guards : List Guard
  deliveries : List (Nat × Nat × Nat)
  code : SMap (Byte × Nat)
  attempts : SMap Nat
  committing : SMap Nat
  nmOld : SMap (Byte × Nat)
  deriving DecidableEq, Repr

/-! ### Fabric, host, boot -/

/-- A message waiting in the fabric: class, operation, body. -/
structure Pkt where
  cls : Nat
  op : Nat
  msg : Msg
  deriving DecidableEq, Repr

/-- The fabric's per-die state (R410 to R413): messages received or on their way and not yet acted on; expected and next sequence numbers by
`(32 * source + destination) * 16 + class`; credits by `(32 * die + module) * 16 + class`; by `32 * die + module` the next flit number, how
often a flit has been asked for again, and the ACK and NAK of the next flit's header; the parts of a token row by `32 * source +
destination`; the requests not yet answered by `4096 * requester + TAG`: class, operation, address, domain; the pick records awaited by
`2^48 * sender + SCAT number`: domain, TAG. -/
structure Fabric where
  inbox : List Pkt
  expect : SMap Nat
  next : SMap Nat
  credit : SMap Nat
  flit : SMap Nat
  naks : SMap Nat
  header : SMap Nat
  rows : SMap (List Msg)
  out : SMap (Nat × Nat × Nat × Nat)
  picks : SMap (Nat × Nat)
  deriving DecidableEq, Repr

/-- The format windows, the registers of the I/O die (R63, R394, R399), the last answer to the host (0 and the data as little-endian words; 1
error; 2 the access waits for a page move), the interrupt messages sent: tenant, data; and what happens before the host's next access (R274). -/
structure Regs where
  fwin : Vector (Word × Word × Word × Word) 16
  hwMbx : Word
  hwBulk : Word
  hwBsz : Word
  tenants : SMap Tenant
  hostReply : List Word
  irqs : List (Nat × Nat)
  hostClk : VC
  deriving DecidableEq, Repr

/-- The parts of the package as their descriptors report them, and the boot inputs (R2, R414, R440, R441): C-dies, M-dies, I/O dies, their
tier-2 bytes, the primary, STATUS and MODE of the topology table, the table, boot flash, fused key digest and minimum SVN, link entries
by `8c + k`: RATES and REP, whether the I/O die carries CXL, the dies asked for a descriptor and silent so far, the dies that the
package is built of, each with the bytes of memory behind it, and the dies that answered and have no descriptor slot. -/
structure Boot where
  cdies : Nat
  mdies : List Nat
  iodies : List Nat
  tier2 : List Nat
  primary : Nat
  status : Nat
  mode : Nat
  table : List Byte
  flash : List Byte
  keyDigest : List Byte
  minSvn : Nat
  links : SMap (Nat × Nat)
  cxl : Bool
  asked : List Nat
  parts : SMap Nat
  extras : List Nat
  deriving DecidableEq, Repr

/-! ### The whole machine -/

/-- What happens next, chosen by the environment: a word of a job's stream issues, an event occurs, pieces of a copy word in flight are performed
(R219), time passes, a line leaves the
memory-side cache or a cache, storage errs, corrected or not (R8, R420), a die fails its self-test or its image (R440), or firmware raises the
fused minimum SVN (R441). -/
inductive Action
  | run (job : Nat) (st : Stream)
  | event (i : Instr)
  | progress (job : Nat) (st : EStream) (word n : Nat)
  | tick (ns : Nat)
  | displace (line : Nat)
  | corrected (die : Nat)
  | failLine (line : Nat)
  | failState (job : Nat)
  | failBank (job bank : Nat)
  | failSlot (job slot unit : Nat)
  | failFrame (cl frame unit : Nat)
  | failAcc (job acc elem : Nat)
  | failRecord (line : Nat)
  | failRace (line : Nat)
  | failDir (line : Nat)
  | failTag (cl frame : Nat)
  | bootFail (die result : Nat)
  | fuseSvn
  deriving DecidableEq, Repr

/-- The state of the package. -/
structure State where
  agenda : List Action
  turnJob : Nat
  turn : Stream
  fresh : Nat
  time : Nat
  gpos : Pos
  rebasing : Bool
  serial : Nat
  nextLaunch : Nat
  order : Nat
  jobs : SMap Job
  saved : SMap Job
  launches : SMap Launch
  leaves : SMap Leaf
  cores : SMap CoreSt
  clusters : SMap Cluster
  dies : SMap DieSt
  mdies : SMap MDieSt
  domains : SMap Domain
  M : MemSys
  F : Fabric
  R : Regs
  B : Boot
  deriving DecidableEq, Repr

/-! ### Reset -/

/-- A copy shape at job start (R17). -/
def CShape.reset : CShape := ⟨0, 0, 0, 0⟩
/-- An accumulator at grant (R29, R59). -/
def Acc.reset : Acc := ⟨[], [], []⟩
/-- A slot as MCLM leaves it (R196). -/
def Slot.reset : Slot := ⟨[], 0, []⟩
/-- Nothing done yet. -/
def Part.none : Part := ⟨0, [], 0, []⟩
/-- No effect. -/
def Effect.none : Effect := ⟨[], .none, [], [], [], 0, [], [], [], .none, .none, .none, [], .none, []⟩
/-- A core at die reset (R31). [DESIGN CHOICE, unsafe: log entry 111] -/
def CoreSt.reset : CoreSt := ⟨32, 0, none, [], [], []⟩
/-- A cluster at die reset (R31, R187, R438). [DESIGN CHOICE, unsafe: log entry 111] -/
def Cluster.reset : Cluster := ⟨[], none, [], 0, [], 3, [], 0, 0, [], [], [], [], none, 0, [], 0⟩
/-- A die at package reset (R31, R298, R423, R442); the clock register reads 0 until the controller runs. -/
def DieSt.reset : DieSt := ⟨0, 0, 0, 0, 0, [], 1, [], [], 63, 0, 0, [], false, 0⟩
/-- A comparator at reset (R430). -/
def Watch.reset : Watch := ⟨0, 0, 0, 0⟩
/-- An M-die at package boot (R298, R299, R430). -/
def MDieSt.reset : MDieSt := ⟨0, 1, [], [], [], 0, Vector.replicate 16 Watch.reset, []⟩
/-- A domain at package reset (R292, R359, R379, R402, R426, R434, R436, R438). -/
def Domain.reset : Domain :=
  ⟨0, 0, 0, 0, 0, 0, 0, 0, [], 0, 0, 0, 0, Vector.replicate 8 (0, 0, 0), 0, 0, 0, 0, 0, Vector.replicate 4 0, Vector.replicate 4 0,
   Vector.replicate 4 0, 0, 0, 0, 0, 0, 0, 0, 0, 0, 0, 0, 0, 0, 0, 0⟩
/-- A tenant at package reset (R399). -/
def Tenant.reset : Tenant := ⟨0, 0, 0, 0, 1, 0, false, false⟩
/-- Empty memory and empty tables (log entry 2). -/
def MemSys.reset : MemSys := ⟨[], [], [], [], [], [], [], [], [], [], [], [], [], [], [], [], [], [], [], [], []⟩
/-- Nothing in the fabric. -/
def Fabric.reset : Fabric := ⟨[], [], [], [], [], [], [], [], [], []⟩
/-- The registers of the I/O die and the format windows at reset (R63, R394, R399). -/
def Regs.reset : Regs := ⟨Vector.replicate 16 (0, 0, 0, 0), 0, 0, 0, [], [], [], []⟩
/-- The parts of the reference package ZC7P-4H (R1), nothing discovered yet, an empty boot flash and blank fuses (log entry 3). -/
def Boot.reset : Boot :=
  ⟨4, [0, 1, 2, 3, 4, 5, 6, 7, 8, 9, 10, 11], [0, 1], [2 ^ 41, 2 ^ 41], 0, 0, 0, [], [], [], 0, [], false, [],
   (List.range 4).map (fun c => (c, 0)) ++ (List.range 12).map (fun m => (8 + m, Config.stackBytes)) ++ [(24, 2 ^ 41), (25, 2 ^ 41)], []⟩

/-- The package right after reset: no die controller has run, every core is held in reset, memory lists nothing (R298, R417, R440). [DESIGN CHOICE, unsafe: log entry 2; DESIGN CHOICE, unsafe: log entry 3; DESIGN CHOICE, safe: log entry 4; DESIGN CHOICE, unsafe: log entry 11; DEDUCED, unsafe: log entry 103] -/
def State.reset : State :=
  ⟨[], 0, .S, 0, 0, 1, false, 0, 1, 0, [], [], [], [], [], [], [], [], [], MemSys.reset, Fabric.reset, Regs.reset, Boot.reset⟩

end Sys2Proof.Machine
end

