-- ==== Sys2Proof/Machine/Flags.lean ====
section
/-!
DEFINITION. FLAGS (R34, R53): the sticky bits arithmetic sets, and the flag side of integer results (R164, R173).
-/
namespace Sys2Proof.Machine

/-- The bits of FLAGS, as a word's retirement ORs them in. -/
abbrev Fl := BitVec 9

/-- Invalid operation. -/
def flNV : Fl := 1#9
/-- Division of a finite non-zero value by zero. -/
def flDZ : Fl := 2#9
/-- The rounded result exceeds the largest finite magnitude, or an INT32 accumulator wrapped. -/
def flOF : Fl := 4#9
/-- Tiny after rounding and inexact (R52). -/
def flUF : Fl := 8#9
/-- The delivered result differs from the exact one. -/
def flNX : Fl := 16#9
/-- A value was replaced by the largest finite value or by a range limit. -/
def flSAT : Fl := 32#9
/-- An element was replaced by zero after an uncorrectable error, or VNORM took its zero-sum path. -/
def flZE : Fl := 64#9
/-- An inner integer accumulator was promoted early. -/
def flPROMO : Fl := 128#9
/-- Format-tag mismatch (R66). -/
def flTAGM : Fl := 256#9

/-- A flag when a condition holds. -/
def flIf (c : Bool) (f : Fl) : Fl := if c then f else 0

/-- The `w` bits of a signed integer result, wrapped. -/
def wrapBits (w : Nat) (v : Int) : Nat := (v % (2 ^ w : Nat)).toNat

/-- Lowest value of a signed format of `w` bits. -/
def sLo (w : Nat) : Int := -(2 ^ (w - 1) : Nat)
/-- Highest value of a signed format of `w` bits. -/
def sHi (w : Nat) : Int := (2 ^ (w - 1) : Nat) - 1

/-- An integer result wrapped, or with `sat` clamped to the signed range, a clamp setting SAT (R164). -/
def intResult (w : Nat) (sat : Bool) (v : Int) : Nat × Fl :=
  if sat && decide (v < sLo w) then (wrapBits w (sLo w), flSAT)
  else if sat && decide (sHi w < v) then (wrapBits w (sHi w), flSAT)
  else (wrapBits w v, 0)

/-- An INT32 addition that wraps sets OF (R173, R174). -/
def addWrapOF (w : Nat) (a b : Int) : Nat × Fl :=
  (wrapBits w (a + b), flIf (decide (a + b < sLo w) || decide (sHi w < a + b)) flOF)

end Sys2Proof.Machine
end

