-- ==== Sys2Proof/WellFormed.lean ====
section
/-!
DEFINITION. Which instruction words are legal (R87 steps 1 and 2): every field an entry does not use is zero, every used field holds a
legal value, the token bits suit the stream (R24), and the format, rounding and scale combinations fixed by built-in codes are the
entry's (R40, R50, R51, R155). A word that fails raises trap 0x01 when it is next to issue. Checks against the header, the queue map
and resolved formats are not here: they are made when the word executes (R87 steps 3 and 4, R151, R190).
-/
namespace Sys2Proof

/-! ### CSR addresses and firmware services -/

/-- The CSR addresses R31 assigns. -/
def csrAssigned (c : BitVec 12) : Bool :=
  [0x000, 0x001, 0x002, 0x003, 0x010, 0x011, 0x020, 0x021, 0x022, 0x023, 0x030, 0x031, 0x040, 0x041, 0x042, 0x050, 0x051,
   0x052, 0x053, 0x060, 0x061, 0x070, 0x080, 0x081, 0x090, 0x0A0, 0x0F0, 0x0F1, 0x0F2].contains c.toNat

/-- The values of imm20 that name a firmware service of the opcode table (R147, R293, R325, R360, R385, R431, R437, R444). -/
def serviceAssigned (i : BitVec 20) : Bool :=
  [0x100, 0x101, 0x200, 0x201, 0x202, 0x300, 0x400, 0x500, 0x501, 0x600].contains i.toNat

/-! ### Operands -/

/-- A field that must be zero (R87 step 2). -/
def Operand.isZero (o : Operand) : Bool := o.areg == 0 && o.mode == 0 && o.off == 0

/-- An address operand: mode 00, 01 or 10, areg zero in mode 10 (R97). -/
def Operand.isAddr (o : Operand) : Bool := o.mode != 3 && (o.mode != 2 || o.areg == 0)

/-- A value operand: any mode, areg zero in modes 10 and 11 (R97, R217). -/
def Operand.isValue (o : Operand) : Bool := (o.mode != 2 && o.mode != 3) || o.areg == 0

/-- An operand in mode 10 or 11 with areg zero (R158, R195). -/
def Operand.isCount (o : Operand) : Bool := (o.mode == 2 || o.mode == 3) && o.areg == 0

/-- An immediate operand (R97 mode 11). -/
def Operand.isImm (o : Operand) : Bool := o.mode == 3 && o.areg == 0

/-- A mask register operand: areg[2:0] = n, areg[3] = 0, mode 00, offset 0 (R160, R182). -/
def Operand.isMask (o : Operand) : Bool := o.areg.toNat < 8 && o.mode == 0 && o.off == 0

/-- An operand that names a register: mode 00, offset 0 (R217). -/
def Operand.isReg (o : Operand) : Bool := o.mode == 0 && o.off == 0

/-- The signed offset or immediate of an operand (R97). -/
def Operand.imm (o : Operand) : Int := o.off.toInt

/-! ### Tokens and formats -/

/-- The token bits a stream may set (R24): L pops and pushes its next partner only, T its previous partner only. -/
def tokOk (st : EStream) (t : BitVec 4) : Bool :=
  match st with
  | .L => !t.getLsbD 3 && !t.getLsbD 1
  | .X => true
  | .T => !t.getLsbD 2 && !t.getLsbD 0

/-- A format code below 0xC names a built-in format (R40). -/
def builtin (f : BitVec 4) : Bool := f.toNat < 12

/-- A code an entry accepts at decode: one of its built-in codes, or a code that resolves at issue (R155). -/
def fmtIn (l : List Nat) (f : BitVec 4) : Bool := !builtin f || l.contains f.toNat

/-- The built-in floating codes FP64, FP32, BF16 and FP16 to E2M1 (R40). -/
def builtinFloat (f : BitVec 4) : Bool := f.toNat < 9
/-- The built-in integer codes INT8, INT4 and INT32 (R40). -/
def builtinInt (f : BitVec 4) : Bool := f == 9 || f == 10 || f == 11

/-- The accepted built-in codes of the arithmetic words (R161). -/
def arithFmts : List Nat := [0, 1, 2, 3, 9, 11]
/-- Built-in codes with an 8-, 16-, 32- or 64-bit container (R161, R179, R181). -/
def rawFmts : List Nat := [0, 1, 2, 3, 4, 5, 9, 11]

/-- An integer immediate lies in the format's range (R163); floating immediates convert and always do. -/
def immFits (f : BitVec 4) (o : Operand) : Bool :=
  o.mode != 3 || f != 9 || (decide (-128 ≤ o.imm) && decide (o.imm ≤ 127))

/-- The rounding field of a word that rounds only floating formats (R161). -/
def rmFloatOnly (f : BitVec 4) (rm : BitVec 2) : Bool := rm == 0 || !builtinInt f

/-- Column counts 1 to 2,048 (R175). -/
def ncolOk (n : Nat) : Bool := decide (1 ≤ n) && decide (n ≤ 2048)

/-! ### Vector words -/

/-- COND zero and ARS zero: the func bits R160 gives to other opcodes. -/
def ewFunc (w : EWord) (allow : Nat) : Bool := w.func.toNat &&& allow == w.func.toNat

/-- The fields of an element-wise two-source word (R160, R161, R163): `sat` tells whether the opcode allows SAT. -/
def wfElem2 (w : EWord) (fmts : List Nat) (sat round : Bool) : Bool :=
  fmtIn fmts w.fmt && w.d.isAddr && w.a.isAddr && w.b.isValue
    && ewFunc w (if sat then 3 else 2)
    && (!w.func.getLsbD 0 || !builtinFloat w.fmt)
    && (!w.func.getLsbD 1 || w.b.mode != 3)
    && (if round then rmFloatOnly w.fmt w.rm else w.rm == 0)

/-- VABS and VNEG: no B, SAT allowed with integers, no rounding (R160, R161). -/
def wfElem1 (w : EWord) : Bool :=
  fmtIn arithFmts w.fmt && w.d.isAddr && w.a.isAddr && w.b.isZero && ewFunc w 1
    && (!w.func.getLsbD 0 || !builtinFloat w.fmt) && w.rm == 0

/-- VSHL and VSHR (R161, R165): an immediate amount lies below the width. -/
def wfShift (w : EWord) (ars : Bool) : Bool :=
  fmtIn [9, 11] w.fmt && w.d.isAddr && w.a.isAddr && w.b.isValue && ewFunc w (if ars then 6 else 2)
    && (!w.func.getLsbD 1 || w.b.mode != 3) && w.rm == 0
    && (w.b.mode != 3 || !builtin w.fmt
        || (decide (0 ≤ w.b.imm) && decide (w.b.imm < (if w.fmt == 9 then 8 else 32))))

/-- VCMP (R160, R161, R166). -/
def wfVcmp (w : EWord) : Bool :=
  fmtIn [0, 1, 2, 3, 4, 5, 9, 11] w.fmt && w.d.isMask && w.a.isAddr && w.b.isValue && ewFunc w 0x3A
    && (!w.func.getLsbD 1 || w.b.mode != 3) && w.rm == 0 && immFits w.fmt w.b
    && decide (bits w.func.toNat 3 3 ≤ 5) && (bits w.func.toNat 3 3 != 5 || !builtinFloat w.fmt)

/-- VEXP, VRCP, VRSQ and VTANH (R171); only VEXP has a func bit. -/
def wfFunc1 (w : EWord) (b2 : Bool) : Bool :=
  fmtIn [1, 2, 3] w.fmt && w.d.isAddr && w.a.isAddr && w.b.isZero && ewFunc w (if b2 then 1 else 0)

/-- A VMSK word whose operation is `op` (R182). -/
def wfVmsk (w : EWord) (op : Nat) (d a b : Bool) : Bool :=
  w.mask == 0 && w.fmt == 0 && w.rm == 0 && w.func.toNat == op && d && a && b

/-! ### Matrix words -/

/-- Head and tail fields outside an opcode's list are zero (R101). -/
def restZero (w : MWord) (afmt rm wop aslot acc wfmt pint scale func sc rows hold pin rep zacc : Bool) : Bool :=
  (afmt || w.afmt == 0) && (rm || w.rm == 0) && (wop || w.w.isZero) && (aslot || w.aslot == 0) && (acc || w.acc == 0)
    && (wfmt || w.wfmt == 0) && (pint || w.pint == 0) && (scale || w.scale == 0) && (func || w.func == 0)
    && (sc || w.sc.isZero) && (rows || w.rows == 0) && (hold || w.hold == 0) && (pin || w.pin == 0) && (rep || w.rep == 0)
    && (zacc || w.zacc == 0)

/-- Low-precision floating built-in codes of R51's third row. -/
def lowFloat (f : BitVec 4) : Bool := decide (2 ≤ f.toNat) && decide (f.toNat ≤ 8)

/-- R51 for two built-in codes; any code that resolves at issue is left to that check. INT32 is never a matrix format (R40). -/
def pairOk (a w : BitVec 4) : Bool :=
  a != 11 && w != 11 &&
  (!builtin a || !builtin w || (a == 0 && w == 0) || (a == 1 && w == 1) || (lowFloat a && lowFloat w)
    || ((a == 9 || a == 10) && (w == 9 || w == 10)))

/-- The format checks MMA and MMAS share: the pair, pint only with integers, FP64 on an even accumulator (R29, R51, R99). -/
def mmaFmtOk (w : MWord) : Bool :=
  pairOk w.afmt w.wfmt && (w.pint == 0 || !(builtinFloat w.afmt || builtinFloat w.wfmt))
    && (!(w.afmt == 0 || w.wfmt == 0) || !w.acc.getLsbD 0) && w.w.isAddr && decide (w.rows.toNat ≤ 64)

/-- A format that may take block scales (R50): a built-in code of 8 bits or fewer, or one resolved at issue. -/
def scalable (f : BitVec 4) : Bool := !builtin f || (decide (4 ≤ f.toNat) && decide (f.toNat ≤ 8))

/-! ### Copy and common words -/

/-- A legal scope code of a T word (R217): 1 to 4, CPST 1 to 3. -/
def scOk (w : EWord) (hi : Nat) : Bool := decide (1 ≤ bits w.func.toNat 15 3) && decide (bits w.func.toNat 15 3 ≤ hi)

/-- Class 00 words without a format and rounding (R217). -/
def plain00 (w : EWord) : Bool := w.mask == 0 && w.fmt == 0 && w.rm == 0

/-- ACW and ACWF formats, operation and rounding (R230). -/
def acwOk (w : EWord) : Bool :=
  w.mask == 0 && [0, 1, 2, 3, 11].contains w.fmt.toNat && bits w.func.toNat 0 2 != 3
    && (w.rm == 0 || (bits w.func.toNat 0 2 == 0 && w.fmt != 11))

/-! ### Every instruction -/

/-- R87 steps 1 and 2 for every row. Events carry no word and are always well formed. -/
def Instr.wf : Instr → Bool
  | .nop | .add _ _ _ | .sub _ _ _ | .and _ _ _ | .or _ _ _ | .xor _ _ _ | .shl _ _ _ | .shr _ _ _ | .sra _ _ _ => true
  | .mul _ _ _ | .mulh _ _ _ | .mulhu _ _ _ | .div _ _ _ | .divu _ _ _ | .rem _ _ _ | .remu _ _ _ => true
  | .min _ _ _ | .max _ _ _ | .minu _ _ _ | .maxu _ _ _ | .clz _ _ | .popc _ _ | .sel _ _ _ _ => true
  | .addi _ _ _ | .andi _ _ _ | .ori _ _ _ | .xori _ _ _ | .shli _ _ _ | .shri _ _ _ | .srai _ _ _ => true
  | .movi _ _ | .shin _ _ => true
  | .cmp _ c _ _ => decide (c.toNat ≤ 5)
  | .cmpi _ c _ _ => decide (c.toNat ≤ 5)
  | .pand _ _ _ | .por _ _ _ | .pxor _ _ _ | .pnot _ _ | .b _ _ _ | .jmp _ | .call _ | .jr _ => true
  | .ld _ _ w _ x _ => !(w == 3 && x == 1)
  | .st _ _ _ _ _ => true
  | .ldm d _ n _ => decide (d.toNat + n.toNat ≤ 63)
  | .stm d _ n _ => decide (d.toNat + n.toNat ≤ 63)
  | .lda _ _ _ sc _ => decide (sc.toNat ≤ 4)
  | .stl _ _ _ sc _ => decide (sc.toNat ≤ 4)
  | .throw _ _ _ _ sc => decide (1 ≤ sc.toNat) && decide (sc.toNat ≤ 3)
  | .pref _ sc _ => decide (sc.toNat ≤ 3)
  | .spl _ _ | .sps _ _ => true
  | .qpush _ q => decide (q.toNat < 16)
  | .qpop _ q => decide (q.toNat < 16)
  | .qcnt _ q => decide (q.toNat < 16)
  | .fence sc f t k => decide (sc.toNat ≤ 4) && f != 0 && t != 0 && !f.getLsbD 7 && !t.getLsbD 7 && k != 3
  | .fenceRetire _ | .waitProd => true
  | .waitMemeq _ _ sc => decide (sc.toNat ≤ 4)
  | .waitMemge _ _ sc => decide (sc.toNat ≤ 4)
  | .waitNm _ | .waitIngr _ _ | .waitReevaluate _ | .trig => true
  | .rdv m => m != 0
  | .joinComplete _ | .halt | .haltRetire _ | .yield | .barc _ | .barrierComplete _ _ _ => true
  | .rbeg _ | .rcom _ | .regionCommit _ | .rabt _ | .rbndLo _ | .rbndHi _ => true
  | .nmgo _ _ | .nmwt _ _ | .spawn _ _ _ | .wgen _ _ => true
  | .csrr _ c => csrAssigned c
  | .csrw _ c => csrAssigned c
  | .trap i => !serviceAssigned i
  | .openRange | .closeRange | .registerBufferGroup | .resetBufferGroup | .releaseBufferGroup | .setContextPool => true
  | .registerWeightTable | .setWatchpoint | .replay | .replayEnd _ | .attestationReport => true
  | .unassignedFirmwareService _ | .eret => true
  | .vshape w => w.mask == 0 && w.fmt != 15 && w.rm == 0 && w.d.isZero && w.a.isCount && w.b.isZero && ewFunc w 1
  | .vadd w => wfElem2 w arithFmts true true && immFits w.fmt w.b
  | .vsub w => wfElem2 w arithFmts true true && immFits w.fmt w.b
  | .vmul w => wfElem2 w arithFmts true true && immFits w.fmt w.b
  | .vfma w => wfElem2 w arithFmts true true && immFits w.fmt w.b
  | .vmin w => wfElem2 w arithFmts false false && immFits w.fmt w.b
  | .vmax w => wfElem2 w arithFmts false false && immFits w.fmt w.b
  | .vabs w => wfElem1 w
  | .vneg w => wfElem1 w
  | .vand w => wfElem2 w rawFmts false false && immFits w.fmt w.b
  | .vor w => wfElem2 w rawFmts false false && immFits w.fmt w.b
  | .vxor w => wfElem2 w rawFmts false false && immFits w.fmt w.b
  | .vshl w => wfShift w false
  | .vshr w => wfShift w true
  | .vcmp w => wfVcmp w
  | .vsel w => wfElem2 w rawFmts false false && immFits w.fmt w.b
  | .vcvt w => w.fmt != 15 && w.d.isAddr && w.a.isAddr && w.b.isZero && ewFunc w 0xF1
  | .vqnt w => fmtIn [4, 5, 6, 7, 8] w.fmt && fmtIn [1, 2, 3] (BitVec.ofNat 4 (bits w.func.toNat 4 4)) && w.d.isAddr && w.a.isAddr
      && w.b.isAddr && ewFunc w 0x3F0 && bits w.func.toNat 8 2 != 3 && (bits w.func.toNat 8 2 != 0 || !builtin w.fmt)
  | .vdq w => fmtIn [1, 2, 3] w.fmt && fmtIn [4, 5, 6, 7, 8] (BitVec.ofNat 4 (bits w.func.toNat 4 4)) && w.d.isAddr && w.a.isAddr
      && w.b.isValue && (w.b.mode != 3 || w.b.off == 0) && ewFunc w 0x3F1 && bits w.func.toNat 8 2 != 3
      && (bits w.func.toNat 8 2 != 0 || !builtin (BitVec.ofNat 4 (bits w.func.toNat 4 4)))
  | .vexp w => wfFunc1 w true
  | .vrcp w => wfFunc1 w false
  | .vrsq w => wfFunc1 w false
  | .vtanh w => wfFunc1 w false
  | .vred w => fmtIn [0, 1, 2, 3, 11] w.fmt && w.d.isAddr && w.a.isAddr && w.b.isZero && ewFunc w 3 && bits w.func.toNat 0 2 != 3
      && (w.rm == 0 || (bits w.func.toNat 0 2 == 0 && w.fmt != 11))
  | .vscan w => fmtIn [0, 1, 2, 3, 11] w.fmt && w.d.isAddr && w.a.isAddr && w.b.isZero && ewFunc w 0 && rmFloatOnly w.fmt w.rm
  | .vgmax w => fmtIn [1, 2, 3, 9, 11] w.fmt && w.rm == 0 && w.d.isAddr && w.a.isAddr && w.b.isZero && ncolOk (bits w.func.toNat 0 12)
  | .vtopk w => fmtIn [1, 2, 3, 9, 11] w.fmt && w.rm == 0 && w.d.isAddr && w.a.isAddr && w.b.isValue
      && (w.b.mode != 3 || w.b.off == 0) && ncolOk (bits w.func.toNat 0 12)
  | .vnorm w => fmtIn [1, 2, 3] w.fmt && w.d.isAddr && w.a.isAddr && w.b.isZero && ewFunc w 0xFFF && ncolOk (bits w.func.toNat 0 12)
  | .vcopy w => w.rm == 0 && w.d.isAddr && w.a.isAddr && w.b.isZero && ewFunc w 0
  | .vfill w => w.rm == 0 && w.d.isAddr && w.a.isValue && w.b.isZero && ewFunc w 0
      && (w.a.mode != 3 || (fmtIn arithFmts w.fmt && immFits w.fmt w.a))
  | .viota w => fmtIn [1, 2, 3, 9, 11] w.fmt && rmFloatOnly w.fmt w.rm && w.d.isAddr && w.a.isCount && w.b.isImm && ewFunc w 1
  | .vgath w => fmtIn rawFmts w.fmt && w.rm == 0 && w.d.isAddr && w.a.isAddr && w.b.isAddr && ewFunc w 0
  | .vscat w => fmtIn rawFmts w.fmt && w.rm == 0 && w.d.isAddr && w.a.isAddr && w.b.isAddr && ewFunc w 0
  | .vtran w => fmtIn rawFmts w.fmt && w.mask == 0 && w.rm == 0 && w.d.isAddr && w.a.isAddr && w.b.isZero && ewFunc w 0xFFF
      && ncolOk (bits w.func.toNat 0 12)
  | .vmskAnd w => wfVmsk w 0 w.d.isMask w.a.isMask w.b.isMask
  | .vmskOr w => wfVmsk w 1 w.d.isMask w.a.isMask w.b.isMask
  | .vmskXor w => wfVmsk w 2 w.d.isMask w.a.isMask w.b.isMask
  | .vmskAndn w => wfVmsk w 3 w.d.isMask w.a.isMask w.b.isMask
  | .vmskNot w => wfVmsk w 4 w.d.isMask w.a.isMask w.b.isZero
  | .vmskFirst w => wfVmsk w 5 w.d.isMask w.a.isZero (w.b.isCount && (w.b.mode != 3 || decide (0 ≤ w.b.imm)))
  | .vmskCount w => wfVmsk w 6 w.d.isZero w.a.isMask w.b.isZero
  | .vmskLd w => wfVmsk w 7 w.d.isMask w.a.isAddr w.b.isZero
  | .vmskSt w => wfVmsk w 8 w.d.isAddr w.a.isMask w.b.isZero
  | .vectorWordRetire _ => true
  | .mshape w => w.w.isCount && restZero w false false true false false false true false false false false false false false false
  | .mma w => mmaFmtOk w && restZero w true true true true true true true false false false true true true true true
  | .mmas w => mmaFmtOk w && w.scale != 0 && (!w.scale.getLsbD 0 || scalable w.wfmt) && (!w.scale.getLsbD 1 || scalable w.afmt)
      && (if w.scale.getLsbD 1 then w.sc.isAddr else w.sc.isZero)
      && restZero w true true true true true true true true false true true true true true true
  | .mlda w => w.w.isAddr && decide (w.rows.toNat ≤ 64)
      && restZero w false false true true false false false false false false true false false false false
  | .mclm w => restZero w false false false true false false false false false false false false false false false
  | .mrel w => restZero w false false false true false false false false false false false false false false false
  | .macr w => w.w.isAddr && decide (w.rows.toNat ≤ 64) && w.afmt != 15 && (w.afmt != 0 || !w.acc.getLsbD 0)
      && restZero w true true true false true false false false false false true false false false false
  | .mzero w => restZero w false false false false true false false false false false false false false false false
  | .mfill w => w.w.isAddr && w.wfmt != 11
      && restZero w false false true false false true false false false false false false true true false
  | .mpin w => w.w.isAddr && restZero w false false true false false false false false false false false false false false false
  | .munp w => w.w.isAddr && restZero w false false true false false false false false false false false false false false false
  | .minv w => w.w.isAddr && restZero w false false true false false false false false false false false false false false false
  | .mqry w => w.w.isAddr && restZero w false false true false false false false false false false false false false false false
  | .mrep w => w.w.isAddr && restZero w false false true false false false false false false false false false false false false
  | .mlse w => decide (w.func.toNat < 256)
      && restZero w false false false false false false false false true false false false false false false
  | .leaseGrant _ | .leaseBudgetExhausted _ => true
  | .mlrl w => restZero w false false false false false false false false false false false false false false false
  | .mthr w => w.w.isCount && (w.w.mode != 3 || w.w.off == 0)
      && restZero w false false true false false false false false false false false false false false false
  | .frameFillComplete _ _ | .frameCopyComplete _ _ | .hardwareReplica _ _ | .matrixWordRetire _ => true
  | .cpy w => tokOk .L w.tok && plain00 w && w.d.isAddr && w.a.isAddr && w.b.isValue && ewFunc w 0x60000
  | .cpyg w => tokOk .L w.tok && plain00 w && w.d.isAddr && w.a.isAddr && w.b.isAddr && ewFunc w 0x60000
  | .cpyd w => tokOk .L w.tok && plain00 w && w.a.isAddr && w.b.isValue && ewFunc w 0x6000F
      && (if w.func.getLsbD 1 then w.d.isZero else w.d.isAddr)
  | .cpym w => tokOk .L w.tok && plain00 w && w.d.isAddr && w.a.isAddr && w.b.isValue && ewFunc w 0x60000
  | .prel w => tokOk .L w.tok && plain00 w && w.d.isZero && w.a.isAddr && w.b.isValue && ewFunc w 0
  | .dgst w => tokOk .L w.tok && plain00 w && w.d.isZero && w.a.isAddr && w.b.isZero && ewFunc w 0
  | .cps w => tokOk .T w.tok && plain00 w && w.d.isAddr && w.a.isAddr && w.b.isValue && ewFunc w 0x78000 && scOk w 4
  | .acw w => tokOk .T w.tok && acwOk w && w.d.isAddr && w.a.isValue && w.b.isValue && ewFunc w 0x78003 && scOk w 4
  | .acwf w => tokOk .T w.tok && acwOk w && w.d.isAddr && w.a.isValue && w.b.isZero && ewFunc w 0x38003 && scOk w 4
  | .cas w => tokOk .T w.tok && plain00 w && w.d.isAddr && w.a.isValue && w.b.isValue && ewFunc w 0x38003 && scOk w 4
      && decide (2 ≤ bits w.func.toNat 0 2)
  | .cpst w => tokOk .T w.tok && plain00 w && w.d.isAddr && w.a.isAddr && w.b.isValue && ewFunc w 0x78000 && scOk w 3
  | .scat w => tokOk .T w.tok && plain00 w && w.d.isZero && w.a.isAddr && w.b.isAddr && ewFunc w 0
  | .flsh w => tokOk .T w.tok && plain00 w && w.d.isAddr && w.a.isZero && w.b.isValue && ewFunc w 0x78000 && scOk w 4
  | .invl w => tokOk .T w.tok && plain00 w && w.d.isAddr && w.a.isZero && w.b.isValue && ewFunc w 0x78000 && scOk w 4
  | .engineWordRetire _ _ => true
  | .aq e w => tokOk e w.tok && plain00 w && w.d.isReg && w.a.isZero && w.b.isZero && ewFunc w 0xF
  | .aset e w => tokOk e w.tok && plain00 w && w.d.isReg && w.a.isValue && w.b.isZero && ewFunc w 0
  | .aadd e w => tokOk e w.tok && plain00 w && w.d.isReg && w.a.isValue && w.b.isZero && ewFunc w 0
  | .ejoin e w => tokOk e w.tok && plain00 w && w.d.isZero && w.a.isZero && w.b.isZero && ewFunc w 0
  | .enop e w => tokOk e w.tok && plain00 w && w.d.isZero && w.a.isZero && w.b.isZero && ewFunc w 0
  | .cshape e w => tokOk e w.tok && plain00 w && w.d.isZero && w.a.isValue && w.b.isValue && ewFunc w 1 && e != .X
  | .loop e w => tokOk e w.tok && plain00 w && w.d.isZero && w.a.isValue && w.b.isZero && ewFunc w 0xFFFF
      && (w.a.mode != 3 || decide (0 ≤ w.a.imm))
  | .breakpointStop _ _ _ | .jobDispatch _ | .walkerSteal _ _ | .tailReread _ | .periodBoundary _ | .ageLevelTick _ => true
  | .launchComplete _ | .preemptionRequest _ | .sliceExpiry _ | .graceExpiry _ | .forcedCut _ | .contextSaveDone _ => true
  | .saveDeadlineExpiry _ | .jobResume _ _ | .hangWatchdog _ | .nmJobStart _ | .nmJobComplete _ _ | .nmWatchdogReset _ _ => true
  | .activationAlert _ _ _ _ _ | .persistentRequest _ _ | .positionRebase | .pageMoveRemap _ | .freezeStallTimeout _ _ => true
  | .weightRecheck _ | .patrolScrub _ _ _ | .flitReceive _ _ _ | .linkRetrain _ _ _ _ => true
  | .reqReadShared _ | .reqReadOwned _ | .reqWrite _ | .reqAtomic _ | .reqReleasePermission _ | .reqNearMemoryJob _ => true
  | .reqWalkerSteal _ | .reqRegisterAccess _ | .rspAck _ | .rspRetry _ | .rspMoved _ | .rspError _ | .rspDataFollows _ => true
  | .rspForcedPublishAck _ | .datLine _ | .datPartialLine _ | .datPoisonedLine _ | .snpRecallOwner _ | .snpInvalidate _ => true
  | .snpForcedPublish _ | .tokGrantShared _ | .tokGrantOwned _ | .tokRevoke _ | .nrw _ | .pos _ | .ingTokenRow _ => true
  | .ingPickRecord _ | .mgtDescriptorRequest | .mgtDescriptor | .mgtTopology | .mgtFirmwareReplicaWrite => true
  | .mgtEvent | .throwDelivery _ _ | .hostRead _ _ | .hostWrite _ _ _ | .hostFetchAdd _ _ _ | .hostSwap _ _ _ => true
  | .hostCompareSwap _ _ _ _ | .tenRoot _ _ | .tenKick _ _ | .domRst _ _ | .domainResetDone _ | .xlInv _ _ | .xlMig _ _ => true
  | .errPop _ _ | .fwinWrite _ _ _ | .registerWrite _ _ | .powerOn | .discoveryTimeout | .clockStep _ _ => true
  | .thermalThrottle _ | .thermalStop _ | .copyTrapInFlight _ _ | .coherentWindowSnoop _ _ | .trHead _ _ | .packageReset => true

end Sys2Proof
end

