-- ==== Sys2Proof/Decode.lean ====
section
/-!
DEFINITION. Decoding instruction words (R87 steps 1 and 2, R88 to R102) and, after it, the encoder written from the same tables. A word
is a number whose bit 0 is the least significant bit of its first byte (R5, R69). Decoding is total: it answers the instruction or the
reason why the word is none, and every such reason is trap 0x01 (R87). `decode` takes the stream that would execute the word, since
R100 to R102 give most opcodes to one stream only, and the following slot, which a matrix head needs (R99).
-/
namespace Sys2Proof

/-- Why a word is not an instruction; each is trap 0x01 (R87). -/
inductive Reject
  /-- The major opcode, class or opcode is unassigned (R91, R100 to R102). -/
  | unassigned
  /-- The opcode is not legal in this stream (R100 to R102). -/
  | wrongStream
  /-- A head without a tail, or a tail where a word should begin (R99). -/
  | unpaired
  /-- A field the opcode does not use is not zero (R6, R87). -/
  | reservedField
  /-- A used field holds an illegal value (R87). -/
  | illegalField
  deriving DecidableEq, Repr

/-- The field of `n` bits of `w` from bit `lo` up. -/
def fld (n w lo : Nat) : BitVec n := BitVec.ofNat n (w / 2 ^ lo)

/-- Answer `i` when the bits `mask` of `w` are all zero. -/
def zeroIn (w lo len : Nat) (i : Instr) : Except Reject Instr :=
  if bits w lo len = 0 then .ok i else .error .reservedField

/-! ### The S stream -/

/-- The ALU group (R92): fn selects the operation. -/
def decodeAlu (w : Nat) : Except Reject Instr :=
  let d := fld 6 w 20
  let a := fld 6 w 14
  let b := fld 6 w 8
  match bits w 0 8 with
  | 0x0 => .ok (.add d a b)
  | 0x1 => .ok (.sub d a b)
  | 0x2 => .ok (.and d a b)
  | 0x3 => .ok (.or d a b)
  | 0x4 => .ok (.xor d a b)
  | 0x5 => .ok (.shl d a b)
  | 0x6 => .ok (.shr d a b)
  | 0x7 => .ok (.sra d a b)
  | 0x8 => .ok (.mul d a b)
  | 0x9 => .ok (.mulh d a b)
  | 0xA => .ok (.mulhu d a b)
  | 0xB => .ok (.div d a b)
  | 0xC => .ok (.divu d a b)
  | 0xD => .ok (.rem d a b)
  | 0xE => .ok (.remu d a b)
  | 0xF => .ok (.min d a b)
  | 0x10 => .ok (.max d a b)
  | 0x11 => .ok (.minu d a b)
  | 0x12 => .ok (.maxu d a b)
  | 0x13 => zeroIn w 8 6 (.clz d a)
  | 0x14 => zeroIn w 8 6 (.popc d a)
  | fn => if bits fn 3 5 = 4 then .ok (.sel d a b (fld 3 w 0)) else .error .unassigned

/-- Predicate logic (R93). -/
def decodePred (w : Nat) : Except Reject Instr :=
  if bits w 20 3 = 0 ∧ bits w 14 3 = 0 ∧ bits w 8 3 = 0 then
    match bits w 0 8 with
    | 0x00 => .ok (.pand (fld 3 w 23) (fld 3 w 17) (fld 3 w 11))
    | 0x01 => .ok (.por (fld 3 w 23) (fld 3 w 17) (fld 3 w 11))
    | 0x02 => .ok (.pxor (fld 3 w 23) (fld 3 w 17) (fld 3 w 11))
    | 0x03 => zeroIn w 11 3 (.pnot (fld 3 w 23) (fld 3 w 17))
    | _ => .error .unassigned
  else .error .reservedField

/-- WAIT (R94): the kind selects the form and with it the unused fields. -/
def decodeWait (w : Nat) : Except Reject Instr :=
  if bits w 20 3 = 0 then
    match bits w 23 3 with
    | 0 => zeroIn w 0 20 .waitProd
    | 1 => zeroIn w 3 5 (.waitMemeq (fld 6 w 14) (fld 6 w 8) (fld 3 w 0))
    | 2 => zeroIn w 3 5 (.waitMemge (fld 6 w 14) (fld 6 w 8) (fld 3 w 0))
    | 3 => zeroIn w 0 14 (.waitNm (fld 6 w 14))
    | 4 => zeroIn w 0 8 (.waitIngr (fld 6 w 14) (fld 6 w 8))
    | _ => .error .illegalField
  else .error .reservedField

/-- TRAP (R91, R147): the values the opcode table names are the firmware services. -/
def decodeTrap (w : Nat) : Instr :=
  match bits w 0 20 with
  | 0x100 => .openRange
  | 0x101 => .closeRange
  | 0x200 => .registerBufferGroup
  | 0x201 => .resetBufferGroup
  | 0x202 => .releaseBufferGroup
  | 0x300 => .setContextPool
  | 0x400 => .registerWeightTable
  | 0x500 => .setWatchpoint
  | 0x501 => .replay
  | 0x600 => .attestationReport
  | _ => .trap (fld 20 w 0)

/-- Steps 1 and 2 of R87 for an S word, but for the field values `Instr.wf` checks. -/
def decodeS (w : Nat) : Except Reject Instr :=
  let d := fld 6 w 20
  let a := fld 6 w 14
  let b := fld 6 w 8
  match bits w 26 6 with
  | 0x00 => zeroIn w 0 26 .nop
  | 0x01 => decodeAlu w
  | 0x02 => .ok (.addi d a (fld 14 w 0))
  | 0x03 => .ok (.andi d a (fld 14 w 0))
  | 0x04 => .ok (.ori d a (fld 14 w 0))
  | 0x05 => .ok (.xori d a (fld 14 w 0))
  | 0x06 => zeroIn w 6 8 (.shli d a (fld 6 w 0))
  | 0x07 => zeroIn w 6 8 (.shri d a (fld 6 w 0))
  | 0x08 => zeroIn w 6 8 (.srai d a (fld 6 w 0))
  | 0x09 => .ok (.movi d (fld 20 w 0))
  | 0x0A => .ok (.shin d (fld 20 w 0))
  | 0x0B => zeroIn w 0 8 (.cmp (fld 3 w 23) (fld 3 w 20) a b)
  | 0x0C => .ok (.cmpi (fld 3 w 23) (fld 3 w 20) a (fld 14 w 0))
  | 0x0D => decodePred w
  | 0x10 => .ok (.b (fld 3 w 23) (fld 1 w 22) (fld 22 w 0))
  | 0x11 => .ok (.jmp (fld 26 w 0))
  | 0x12 => .ok (.call (fld 26 w 0))
  | 0x13 => if bits w 20 6 = 0 then zeroIn w 0 14 (.jr a) else .error .reservedField
  | 0x18 => .ok (.ld d a (fld 2 w 12) (fld 1 w 11) (fld 1 w 10) (fld 10 w 0))
  | 0x19 => zeroIn w 10 1 (.st d a (fld 2 w 12) (fld 1 w 11) (fld 10 w 0))
  | 0x1A => zeroIn w 0 3 (.ldm d a (fld 3 w 11) (fld 8 w 3))
  | 0x1B => zeroIn w 0 3 (.stm d a (fld 3 w 11) (fld 8 w 3))
  | 0x1C => .ok (.lda d a (fld 2 w 12) (fld 3 w 9) (fld 9 w 0))
  | 0x1D => .ok (.stl d a (fld 2 w 12) (fld 3 w 9) (fld 9 w 0))
  | 0x1E => zeroIn w 0 3 (.throw d a b (fld 2 w 6) (fld 3 w 3))
  | 0x1F => if bits w 12 2 = 3 then zeroIn w 20 6 (.pref a (fld 3 w 9) (fld 9 w 0)) else .error .illegalField
  | 0x20 => zeroIn w 9 11 (.spl d (fld 9 w 0))
  | 0x21 => zeroIn w 9 11 (.sps d (fld 9 w 0))
  | 0x22 => if bits w 20 6 = 0 then zeroIn w 0 8 (.qpush a b) else .error .reservedField
  | 0x23 => if bits w 14 6 = 0 then zeroIn w 0 8 (.qpop d b) else .error .reservedField
  | 0x24 => if bits w 14 6 = 0 then zeroIn w 0 8 (.qcnt d b) else .error .reservedField
  | 0x28 => zeroIn w 0 5 (.fence (fld 3 w 23) (fld 8 w 15) (fld 8 w 7) (fld 2 w 5))
  | 0x29 => decodeWait w
  | 0x2A => zeroIn w 0 26 .trig
  | 0x2B => zeroIn w 0 23 (.rdv (fld 3 w 23))
  | 0x2C => zeroIn w 0 26 .halt
  | 0x2D => zeroIn w 0 26 .yield
  | 0x2E => zeroIn w 4 22 (.barc (fld 4 w 0))
  | 0x30 => .ok (.rbeg (fld 26 w 0))
  | 0x31 => zeroIn w 0 20 (.rcom d)
  | 0x32 => zeroIn w 8 18 (.rabt (fld 8 w 0))
  | 0x33 => if bits w 1 19 = 0 then .ok (if bits w 0 1 = 0 then .rbndLo d else .rbndHi d) else .error .reservedField
  | 0x34 => zeroIn w 0 14 (.nmgo d a)
  | 0x35 => zeroIn w 0 14 (.nmwt d a)
  | 0x36 => zeroIn w 0 8 (.spawn d a b)
  | 0x37 => zeroIn w 0 14 (.wgen d a)
  | 0x38 => zeroIn w 12 8 (.csrr d (fld 12 w 0))
  | 0x39 => if bits w 20 6 = 0 then zeroIn w 12 2 (.csrw a (fld 12 w 0)) else .error .reservedField
  | 0x3A => zeroIn w 20 6 (decodeTrap w)
  | 0x3B => zeroIn w 0 26 .eret
  | _ => .error .unassigned

/-! ### Engine words -/

/-- An operand field (R97). -/
def decodeOperand (w lo : Nat) : Operand := ⟨fld 4 w (lo + 14), fld 2 w (lo + 12), fld 12 w lo⟩

/-- The fields of R96. -/
def decodeEWord (w : Nat) : EWord :=
  ⟨fld 4 w 82, fld 3 w 79, fld 4 w 75, fld 2 w 73, decodeOperand w 55, decodeOperand w 37, decodeOperand w 19, fld 19 w 0⟩

/-- VMSK (R182): func[3:0] selects the operation. -/
def decodeVmsk (w : EWord) : Except Reject Instr :=
  match bits w.func.toNat 0 4 with
  | 0x0 => .ok (.vmskAnd w)
  | 0x1 => .ok (.vmskOr w)
  | 0x2 => .ok (.vmskXor w)
  | 0x3 => .ok (.vmskAndn w)
  | 0x4 => .ok (.vmskNot w)
  | 0x5 => .ok (.vmskFirst w)
  | 0x6 => .ok (.vmskCount w)
  | 0x7 => .ok (.vmskLd w)
  | 0x8 => .ok (.vmskSt w)
  | _ => .error .illegalField

/-- Class 01 (R100). -/
def decodeVector (op : Nat) (w : EWord) : Except Reject Instr :=
  match op with
  | 0x1 => .ok (.vshape w)
  | 0x10 => .ok (.vadd w)
  | 0x11 => .ok (.vsub w)
  | 0x12 => .ok (.vmul w)
  | 0x13 => .ok (.vfma w)
  | 0x14 => .ok (.vmin w)
  | 0x15 => .ok (.vmax w)
  | 0x16 => .ok (.vabs w)
  | 0x17 => .ok (.vneg w)
  | 0x18 => .ok (.vand w)
  | 0x19 => .ok (.vor w)
  | 0x1A => .ok (.vxor w)
  | 0x1B => .ok (.vshl w)
  | 0x1C => .ok (.vshr w)
  | 0x1D => .ok (.vcmp w)
  | 0x1E => .ok (.vsel w)
  | 0x20 => .ok (.vcvt w)
  | 0x21 => .ok (.vqnt w)
  | 0x22 => .ok (.vdq w)
  | 0x28 => .ok (.vexp w)
  | 0x29 => .ok (.vrcp w)
  | 0x2A => .ok (.vrsq w)
  | 0x2B => .ok (.vtanh w)
  | 0x30 => .ok (.vred w)
  | 0x31 => .ok (.vscan w)
  | 0x32 => .ok (.vgmax w)
  | 0x34 => .ok (.vtopk w)
  | 0x35 => .ok (.vnorm w)
  | 0x38 => .ok (.vcopy w)
  | 0x39 => .ok (.vfill w)
  | 0x3A => .ok (.viota w)
  | 0x3B => .ok (.vgath w)
  | 0x3C => .ok (.vscat w)
  | 0x3D => .ok (.vtran w)
  | 0x43 => decodeVmsk w
  | _ => .error .unassigned

/-- Class 00 (R102): the common words carry their stream. -/
def decodeCopy (e : EStream) (op : Nat) (w : EWord) : Except Reject Instr :=
  match op with
  | 0x1 => if e = .L then .ok (.cpy w) else .error .wrongStream
  | 0x2 => if e = .L then .ok (.cpyg w) else .error .wrongStream
  | 0x3 => if e = .L then .ok (.cpyd w) else .error .wrongStream
  | 0x4 => if e = .L then .ok (.cpym w) else .error .wrongStream
  | 0x5 => if e = .L then .ok (.prel w) else .error .wrongStream
  | 0x7 => if e = .L then .ok (.dgst w) else .error .wrongStream
  | 0x10 => if e = .T then .ok (.cps w) else .error .wrongStream
  | 0x11 => if e = .T then .ok (.acw w) else .error .wrongStream
  | 0x12 => if e = .T then .ok (.acwf w) else .error .wrongStream
  | 0x13 => if e = .T then .ok (.cas w) else .error .wrongStream
  | 0x14 => if e = .T then .ok (.cpst w) else .error .wrongStream
  | 0x15 => if e = .T then .ok (.scat w) else .error .wrongStream
  | 0x16 => if e = .T then .ok (.flsh w) else .error .wrongStream
  | 0x17 => if e = .T then .ok (.invl w) else .error .wrongStream
  | 0xF0 => .ok (.aq e w)
  | 0xF1 => .ok (.aset e w)
  | 0xF2 => .ok (.aadd e w)
  | 0xF3 => .ok (.ejoin e w)
  | 0xF4 => .ok (.enop e w)
  | 0xF5 => .ok (.cshape e w)
  | 0xF6 => .ok (.loop e w)
  | _ => .error .unassigned

/-- The head and tail fields of R99. -/
def decodeMWord (h t : Nat) : MWord :=
  ⟨fld 4 h 82, fld 4 h 75, fld 2 h 73, decodeOperand h 55, fld 6 h 49, fld 3 h 46, fld 4 h 42, fld 4 h 38, fld 2 h 36, fld 36 h 0,
   decodeOperand t 64, fld 7 t 57, fld 1 t 56, fld 1 t 55, fld 1 t 54, fld 1 t 53⟩

/-- Class 10 (R101). -/
def decodeMatrixOp (op : Nat) (w : MWord) : Except Reject Instr :=
  match op with
  | 0x1 => .ok (.mshape w)
  | 0x10 => .ok (.mma w)
  | 0x11 => .ok (.mmas w)
  | 0x20 => .ok (.mlda w)
  | 0x21 => .ok (.mclm w)
  | 0x22 => .ok (.mrel w)
  | 0x28 => .ok (.macr w)
  | 0x29 => .ok (.mzero w)
  | 0x30 => .ok (.mfill w)
  | 0x31 => .ok (.mpin w)
  | 0x32 => .ok (.munp w)
  | 0x33 => .ok (.minv w)
  | 0x34 => .ok (.mqry w)
  | 0x35 => .ok (.mrep w)
  | 0x38 => .ok (.mlse w)
  | 0x39 => .ok (.mlrl w)
  | 0x3A => .ok (.mthr w)
  | _ => .error .unassigned

/-- A head and the slot after it (R99): the pairing and the bits neither slot uses. -/
def decodeMatrix (h t : Nat) : Except Reject Instr :=
  if bits t 94 2 = 3 then
    if bits h 79 3 = 0 ∧ bits t 82 12 = 0 ∧ bits t 0 53 = 0 then decodeMatrixOp (bits h 86 8) (decodeMWord h t)
    else match decodeMatrixOp (bits h 86 8) (decodeMWord h t) with
      | .ok _ => .error .reservedField
      | .error e => .error e
  else .error .unpaired

/-- Steps 1 and 2 of R87 for an engine word in stream `e`; `next` is the slot after it. -/
def decodeE (e : EStream) (w next : Nat) : Except Reject Instr :=
  match bits w 94 2 with
  | 0 => decodeCopy e (bits w 86 8) (decodeEWord w)
  | 1 => if e = .X then decodeVector (bits w 86 8) (decodeEWord w) else .error .wrongStream
  | 2 => if e = .X then decodeMatrix w next else .error .wrongStream
  | _ => .error .unpaired

/-- Refuse what the field checks of R87 step 2 refuse. -/
def checkWf : Except Reject Instr → Except Reject Instr
  | .ok i => if i.wf then .ok i else .error .illegalField
  | .error e => .error e

/-- The instruction a word of stream `st` holds, or why there is none (R87 steps 1 and 2). -/
def decode (st : Stream) (w next : Nat) : Except Reject Instr :=
  checkWf (match st with
    | .S => decodeS w
    | .L => decodeE .L w next
    | .X => decodeE .X w next
    | .T => decodeE .T w next)

/-- The bytes a word takes in its section (R69, R99). -/
def Instr.isMatrix : Instr → Bool
  | .mshape _ => true
  | .mma _ => true
  | .mmas _ => true
  | .mlda _ => true
  | .mclm _ => true
  | .mrel _ => true
  | .macr _ => true
  | .mzero _ => true
  | .mfill _ => true
  | .mpin _ => true
  | .munp _ => true
  | .minv _ => true
  | .mqry _ => true
  | .mrep _ => true
  | .mlse _ => true
  | .mlrl _ => true
  | .mthr _ => true
  | _ => false

/-- The stream that executes a decoded word (R100 to R102). Events belong to none and answer S, which no use relies on. -/
def Instr.stream : Instr → Stream
  | .vshape _ => .X
  | .vadd _ => .X
  | .vsub _ => .X
  | .vmul _ => .X
  | .vfma _ => .X
  | .vmin _ => .X
  | .vmax _ => .X
  | .vabs _ => .X
  | .vneg _ => .X
  | .vand _ => .X
  | .vor _ => .X
  | .vxor _ => .X
  | .vshl _ => .X
  | .vshr _ => .X
  | .vcmp _ => .X
  | .vsel _ => .X
  | .vcvt _ => .X
  | .vqnt _ => .X
  | .vdq _ => .X
  | .vexp _ => .X
  | .vrcp _ => .X
  | .vrsq _ => .X
  | .vtanh _ => .X
  | .vred _ => .X
  | .vscan _ => .X
  | .vgmax _ => .X
  | .vtopk _ => .X
  | .vnorm _ => .X
  | .vcopy _ => .X
  | .vfill _ => .X
  | .viota _ => .X
  | .vgath _ => .X
  | .vscat _ => .X
  | .vtran _ => .X
  | .vmskAnd _ => .X
  | .vmskOr _ => .X
  | .vmskXor _ => .X
  | .vmskAndn _ => .X
  | .vmskNot _ => .X
  | .vmskFirst _ => .X
  | .vmskCount _ => .X
  | .vmskLd _ => .X
  | .vmskSt _ => .X
  | .mshape _ => .X
  | .mma _ => .X
  | .mmas _ => .X
  | .mlda _ => .X
  | .mclm _ => .X
  | .mrel _ => .X
  | .macr _ => .X
  | .mzero _ => .X
  | .mfill _ => .X
  | .mpin _ => .X
  | .munp _ => .X
  | .minv _ => .X
  | .mqry _ => .X
  | .mrep _ => .X
  | .mlse _ => .X
  | .mlrl _ => .X
  | .mthr _ => .X
  | .cpy _ => .L
  | .cpyg _ => .L
  | .cpyd _ => .L
  | .cpym _ => .L
  | .prel _ => .L
  | .dgst _ => .L
  | .cps _ => .T
  | .acw _ => .T
  | .acwf _ => .T
  | .cas _ => .T
  | .cpst _ => .T
  | .scat _ => .T
  | .flsh _ => .T
  | .invl _ => .T
  | .aq e _ => e.toStream
  | .aset e _ => e.toStream
  | .aadd e _ => e.toStream
  | .ejoin e _ => e.toStream
  | .enop e _ => e.toStream
  | .cshape e _ => e.toStream
  | .loop e _ => e.toStream
  | _ => .S

/-- An answer as an option. -/
def okOf : Except Reject Instr → Option Instr
  | .ok i => some i
  | .error _ => none

/-- The instruction the decoder reads from a word of `nbits` bits given as the number `w`: 32 bits are an S word, 96 bits a word of the
first of the streams X, L and T that reads one, 192 bits a matrix word; bits above `nbits` are zero. -/
def decodeTableWord (nbits w : Nat) : Option Instr :=
  let v := w % 2 ^ nbits
  if nbits ≤ 32 then okOf (decode .S v 0)
  else
    let h := v % 2 ^ 96
    let t := v / 2 ^ 96 % 2 ^ 96
    match decode .X h t with
    | .ok i => some i
    | .error _ =>
      match decode .L h t with
      | .ok i => some i
      | .error _ => okOf (decode .T h t)

/-! ### The encoder -/

/-- The bits of an operand field (R97). -/
def Operand.enc (o : Operand) : Nat := o.areg.toNat * 2 ^ 14 + o.mode.toNat * 2 ^ 12 + o.off.toNat

/-- The bits of an engine word of class `cls` and opcode `op` (R96). -/
def EWord.enc (cls op : Nat) (w : EWord) : Nat :=
  cls * 2 ^ 94 + op * 2 ^ 86 + w.tok.toNat * 2 ^ 82 + w.mask.toNat * 2 ^ 79 + w.fmt.toNat * 2 ^ 75 + w.rm.toNat * 2 ^ 73
    + w.d.enc * 2 ^ 55 + w.a.enc * 2 ^ 37 + w.b.enc * 2 ^ 19 + w.func.toNat

/-- The head slot of a matrix word (R99). -/
def MWord.encHead (op : Nat) (w : MWord) : Nat :=
  2 * 2 ^ 94 + op * 2 ^ 86 + w.tok.toNat * 2 ^ 82 + w.afmt.toNat * 2 ^ 75 + w.rm.toNat * 2 ^ 73 + w.w.enc * 2 ^ 55
    + w.aslot.toNat * 2 ^ 49 + w.acc.toNat * 2 ^ 46 + w.wfmt.toNat * 2 ^ 42 + w.pint.toNat * 2 ^ 38 + w.scale.toNat * 2 ^ 36
    + w.func.toNat

/-- The tail slot of a matrix word (R99). -/
def MWord.encTail (w : MWord) : Nat :=
  3 * 2 ^ 94 + w.sc.enc * 2 ^ 64 + w.rows.toNat * 2 ^ 57 + w.hold.toNat * 2 ^ 56 + w.pin.toNat * 2 ^ 55 + w.rep.toNat * 2 ^ 54
    + w.zacc.toNat * 2 ^ 53

/-- What an instruction is encoded as: an S word, an engine word of its stream, or a matrix head and tail. -/
inductive Enc
  | s (w : Nat)
  | e (st : EStream) (w : Nat)
  | m (head tail : Nat)
  deriving DecidableEq, Repr

/-- The format SR of R90. -/
def encSR (op d a b fn : Nat) : Nat := op * 2 ^ 26 + d * 2 ^ 20 + a * 2 ^ 14 + b * 2 ^ 8 + fn
/-- The format SI of R90. -/
def encSI (op d a imm : Nat) : Nat := op * 2 ^ 26 + d * 2 ^ 20 + a * 2 ^ 14 + imm
/-- The format SU of R90. -/
def encSU (op d imm : Nat) : Nat := op * 2 ^ 26 + d * 2 ^ 20 + imm
/-- The format SJ of R90. -/
def encSJ (op off : Nat) : Nat := op * 2 ^ 26 + off

/-- The words of an instruction, from the tables of R90 to R102. Events have none. -/
def encode : Instr → Option Enc
  | .nop => some (.s 0)
  | .add d a b => some (.s (encSR 0x01 d.toNat a.toNat b.toNat 0x0))
  | .sub d a b => some (.s (encSR 0x01 d.toNat a.toNat b.toNat 0x1))
  | .and d a b => some (.s (encSR 0x01 d.toNat a.toNat b.toNat 0x2))
  | .or d a b => some (.s (encSR 0x01 d.toNat a.toNat b.toNat 0x3))
  | .xor d a b => some (.s (encSR 0x01 d.toNat a.toNat b.toNat 0x4))
  | .shl d a b => some (.s (encSR 0x01 d.toNat a.toNat b.toNat 0x5))
  | .shr d a b => some (.s (encSR 0x01 d.toNat a.toNat b.toNat 0x6))
  | .sra d a b => some (.s (encSR 0x01 d.toNat a.toNat b.toNat 0x7))
  | .mul d a b => some (.s (encSR 0x01 d.toNat a.toNat b.toNat 0x8))
  | .mulh d a b => some (.s (encSR 0x01 d.toNat a.toNat b.toNat 0x9))
  | .mulhu d a b => some (.s (encSR 0x01 d.toNat a.toNat b.toNat 0xA))
  | .div d a b => some (.s (encSR 0x01 d.toNat a.toNat b.toNat 0xB))
  | .divu d a b => some (.s (encSR 0x01 d.toNat a.toNat b.toNat 0xC))
  | .rem d a b => some (.s (encSR 0x01 d.toNat a.toNat b.toNat 0xD))
  | .remu d a b => some (.s (encSR 0x01 d.toNat a.toNat b.toNat 0xE))
  | .min d a b => some (.s (encSR 0x01 d.toNat a.toNat b.toNat 0xF))
  | .max d a b => some (.s (encSR 0x01 d.toNat a.toNat b.toNat 0x10))
  | .minu d a b => some (.s (encSR 0x01 d.toNat a.toNat b.toNat 0x11))
  | .maxu d a b => some (.s (encSR 0x01 d.toNat a.toNat b.toNat 0x12))
  | .clz d a => some (.s (encSR 0x01 d.toNat a.toNat 0 0x13))
  | .popc d a => some (.s (encSR 0x01 d.toNat a.toNat 0 0x14))
  | .sel d a b p => some (.s (encSR 0x01 d.toNat a.toNat b.toNat (0x20 + p.toNat)))
  | .addi d a i => some (.s (encSI 0x02 d.toNat a.toNat i.toNat))
  | .andi d a i => some (.s (encSI 0x03 d.toNat a.toNat i.toNat))
  | .ori d a i => some (.s (encSI 0x04 d.toNat a.toNat i.toNat))
  | .xori d a i => some (.s (encSI 0x05 d.toNat a.toNat i.toNat))
  | .shli d a n => some (.s (encSI 0x06 d.toNat a.toNat n.toNat))
  | .shri d a n => some (.s (encSI 0x07 d.toNat a.toNat n.toNat))
  | .srai d a n => some (.s (encSI 0x08 d.toNat a.toNat n.toNat))
  | .movi d i => some (.s (encSU 0x09 d.toNat i.toNat))
  | .shin d i => some (.s (encSU 0x0A d.toNat i.toNat))
  | .cmp p c a b => some (.s (encSR 0x0B (p.toNat * 8 + c.toNat) a.toNat b.toNat 0))
  | .cmpi p c a i => some (.s (encSI 0x0C (p.toNat * 8 + c.toNat) a.toNat i.toNat))
  | .pand d a b => some (.s (encSR 0x0D (d.toNat * 8) (a.toNat * 8) (b.toNat * 8) 0))
  | .por d a b => some (.s (encSR 0x0D (d.toNat * 8) (a.toNat * 8) (b.toNat * 8) 1))
  | .pxor d a b => some (.s (encSR 0x0D (d.toNat * 8) (a.toNat * 8) (b.toNat * 8) 2))
  | .pnot d a => some (.s (encSR 0x0D (d.toNat * 8) (a.toNat * 8) 0 3))
  | .b p n o => some (.s (0x10 * 2 ^ 26 + p.toNat * 2 ^ 23 + n.toNat * 2 ^ 22 + o.toNat))
  | .jmp o => some (.s (encSJ 0x11 o.toNat))
  | .call o => some (.s (encSJ 0x12 o.toNat))
  | .jr a => some (.s (encSR 0x13 0 a.toNat 0 0))
  | .ld d a w k x o => some (.s (encSI 0x18 d.toNat a.toNat (w.toNat * 2 ^ 12 + k.toNat * 2 ^ 11 + x.toNat * 2 ^ 10 + o.toNat)))
  | .st d a w k o => some (.s (encSI 0x19 d.toNat a.toNat (w.toNat * 2 ^ 12 + k.toNat * 2 ^ 11 + o.toNat)))
  | .ldm d a n o => some (.s (encSI 0x1A d.toNat a.toNat (n.toNat * 2 ^ 11 + o.toNat * 2 ^ 3)))
  | .stm d a n o => some (.s (encSI 0x1B d.toNat a.toNat (n.toNat * 2 ^ 11 + o.toNat * 2 ^ 3)))
  | .lda d a w sc o => some (.s (encSI 0x1C d.toNat a.toNat (w.toNat * 2 ^ 12 + sc.toNat * 2 ^ 9 + o.toNat)))
  | .stl d a w sc o => some (.s (encSI 0x1D d.toNat a.toNat (w.toNat * 2 ^ 12 + sc.toNat * 2 ^ 9 + o.toNat)))
  | .throw d a b w sc => some (.s (encSR 0x1E d.toNat a.toNat b.toNat (w.toNat * 2 ^ 6 + sc.toNat * 2 ^ 3)))
  | .pref a sc o => some (.s (encSI 0x1F 0 a.toNat (3 * 2 ^ 12 + sc.toNat * 2 ^ 9 + o.toNat)))
  | .spl d n => some (.s (encSU 0x20 d.toNat n.toNat))
  | .sps d n => some (.s (encSU 0x21 d.toNat n.toNat))
  | .qpush a q => some (.s (encSR 0x22 0 a.toNat q.toNat 0))
  | .qpop d q => some (.s (encSR 0x23 d.toNat 0 q.toNat 0))
  | .qcnt d q => some (.s (encSR 0x24 d.toNat 0 q.toNat 0))
  | .fence sc f t k => some (.s (0x28 * 2 ^ 26 + sc.toNat * 2 ^ 23 + f.toNat * 2 ^ 15 + t.toNat * 2 ^ 7 + k.toNat * 2 ^ 5))
  | .waitProd => some (.s (0x29 * 2 ^ 26))
  | .waitMemeq a b sc => some (.s (0x29 * 2 ^ 26 + 1 * 2 ^ 23 + a.toNat * 2 ^ 14 + b.toNat * 2 ^ 8 + sc.toNat))
  | .waitMemge a b sc => some (.s (0x29 * 2 ^ 26 + 2 * 2 ^ 23 + a.toNat * 2 ^ 14 + b.toNat * 2 ^ 8 + sc.toNat))
  | .waitNm a => some (.s (0x29 * 2 ^ 26 + 3 * 2 ^ 23 + a.toNat * 2 ^ 14))
  | .waitIngr a b => some (.s (0x29 * 2 ^ 26 + 4 * 2 ^ 23 + a.toNat * 2 ^ 14 + b.toNat * 2 ^ 8))
  | .trig => some (.s (0x2A * 2 ^ 26))
  | .rdv m => some (.s (0x2B * 2 ^ 26 + m.toNat * 2 ^ 23))
  | .halt => some (.s (0x2C * 2 ^ 26))
  | .yield => some (.s (0x2D * 2 ^ 26))
  | .barc i => some (.s (0x2E * 2 ^ 26 + i.toNat))
  | .rbeg o => some (.s (encSJ 0x30 o.toNat))
  | .rcom d => some (.s (encSU 0x31 d.toNat 0))
  | .rabt c => some (.s (encSU 0x32 0 c.toNat))
  | .rbndLo d => some (.s (encSU 0x33 d.toNat 0))
  | .rbndHi d => some (.s (encSU 0x33 d.toNat 1))
  | .nmgo d a => some (.s (encSR 0x34 d.toNat a.toNat 0 0))
  | .nmwt d a => some (.s (encSR 0x35 d.toNat a.toNat 0 0))
  | .spawn d a b => some (.s (encSR 0x36 d.toNat a.toNat b.toNat 0))
  | .wgen d a => some (.s (encSR 0x37 d.toNat a.toNat 0 0))
  | .csrr d c => some (.s (encSI 0x38 d.toNat 0 c.toNat))
  | .csrw a c => some (.s (encSI 0x39 0 a.toNat c.toNat))
  | .trap i => some (.s (encSU 0x3A 0 i.toNat))
  | .openRange => some (.s (encSU 0x3A 0 0x100))
  | .closeRange => some (.s (encSU 0x3A 0 0x101))
  | .registerBufferGroup => some (.s (encSU 0x3A 0 0x200))
  | .resetBufferGroup => some (.s (encSU 0x3A 0 0x201))
  | .releaseBufferGroup => some (.s (encSU 0x3A 0 0x202))
  | .setContextPool => some (.s (encSU 0x3A 0 0x300))
  | .registerWeightTable => some (.s (encSU 0x3A 0 0x400))
  | .setWatchpoint => some (.s (encSU 0x3A 0 0x500))
  | .replay => some (.s (encSU 0x3A 0 0x501))
  | .attestationReport => some (.s (encSU 0x3A 0 0x600))
  | .eret => some (.s (0x3B * 2 ^ 26))
  | .vshape w => some (.e .X (w.enc 1 0x1))
  | .vadd w => some (.e .X (w.enc 1 0x10))
  | .vsub w => some (.e .X (w.enc 1 0x11))
  | .vmul w => some (.e .X (w.enc 1 0x12))
  | .vfma w => some (.e .X (w.enc 1 0x13))
  | .vmin w => some (.e .X (w.enc 1 0x14))
  | .vmax w => some (.e .X (w.enc 1 0x15))
  | .vabs w => some (.e .X (w.enc 1 0x16))
  | .vneg w => some (.e .X (w.enc 1 0x17))
  | .vand w => some (.e .X (w.enc 1 0x18))
  | .vor w => some (.e .X (w.enc 1 0x19))
  | .vxor w => some (.e .X (w.enc 1 0x1A))
  | .vshl w => some (.e .X (w.enc 1 0x1B))
  | .vshr w => some (.e .X (w.enc 1 0x1C))
  | .vcmp w => some (.e .X (w.enc 1 0x1D))
  | .vsel w => some (.e .X (w.enc 1 0x1E))
  | .vcvt w => some (.e .X (w.enc 1 0x20))
  | .vqnt w => some (.e .X (w.enc 1 0x21))
  | .vdq w => some (.e .X (w.enc 1 0x22))
  | .vexp w => some (.e .X (w.enc 1 0x28))
  | .vrcp w => some (.e .X (w.enc 1 0x29))
  | .vrsq w => some (.e .X (w.enc 1 0x2A))
  | .vtanh w => some (.e .X (w.enc 1 0x2B))
  | .vred w => some (.e .X (w.enc 1 0x30))
  | .vscan w => some (.e .X (w.enc 1 0x31))
  | .vgmax w => some (.e .X (w.enc 1 0x32))
  | .vtopk w => some (.e .X (w.enc 1 0x34))
  | .vnorm w => some (.e .X (w.enc 1 0x35))
  | .vcopy w => some (.e .X (w.enc 1 0x38))
  | .vfill w => some (.e .X (w.enc 1 0x39))
  | .viota w => some (.e .X (w.enc 1 0x3A))
  | .vgath w => some (.e .X (w.enc 1 0x3B))
  | .vscat w => some (.e .X (w.enc 1 0x3C))
  | .vtran w => some (.e .X (w.enc 1 0x3D))
  | .vmskAnd w => some (.e .X (w.enc 1 0x43))
  | .vmskOr w => some (.e .X (w.enc 1 0x43))
  | .vmskXor w => some (.e .X (w.enc 1 0x43))
  | .vmskAndn w => some (.e .X (w.enc 1 0x43))
  | .vmskNot w => some (.e .X (w.enc 1 0x43))
  | .vmskFirst w => some (.e .X (w.enc 1 0x43))
  | .vmskCount w => some (.e .X (w.enc 1 0x43))
  | .vmskLd w => some (.e .X (w.enc 1 0x43))
  | .vmskSt w => some (.e .X (w.enc 1 0x43))
  | .mshape w => some (.m (w.encHead 0x1) w.encTail)
  | .mma w => some (.m (w.encHead 0x10) w.encTail)
  | .mmas w => some (.m (w.encHead 0x11) w.encTail)
  | .mlda w => some (.m (w.encHead 0x20) w.encTail)
  | .mclm w => some (.m (w.encHead 0x21) w.encTail)
  | .mrel w => some (.m (w.encHead 0x22) w.encTail)
  | .macr w => some (.m (w.encHead 0x28) w.encTail)
  | .mzero w => some (.m (w.encHead 0x29) w.encTail)
  | .mfill w => some (.m (w.encHead 0x30) w.encTail)
  | .mpin w => some (.m (w.encHead 0x31) w.encTail)
  | .munp w => some (.m (w.encHead 0x32) w.encTail)
  | .minv w => some (.m (w.encHead 0x33) w.encTail)
  | .mqry w => some (.m (w.encHead 0x34) w.encTail)
  | .mrep w => some (.m (w.encHead 0x35) w.encTail)
  | .mlse w => some (.m (w.encHead 0x38) w.encTail)
  | .mlrl w => some (.m (w.encHead 0x39) w.encTail)
  | .mthr w => some (.m (w.encHead 0x3A) w.encTail)
  | .cpy w => some (.e .L (w.enc 0 0x1))
  | .cpyg w => some (.e .L (w.enc 0 0x2))
  | .cpyd w => some (.e .L (w.enc 0 0x3))
  | .cpym w => some (.e .L (w.enc 0 0x4))
  | .prel w => some (.e .L (w.enc 0 0x5))
  | .dgst w => some (.e .L (w.enc 0 0x7))
  | .cps w => some (.e .T (w.enc 0 0x10))
  | .acw w => some (.e .T (w.enc 0 0x11))
  | .acwf w => some (.e .T (w.enc 0 0x12))
  | .cas w => some (.e .T (w.enc 0 0x13))
  | .cpst w => some (.e .T (w.enc 0 0x14))
  | .scat w => some (.e .T (w.enc 0 0x15))
  | .flsh w => some (.e .T (w.enc 0 0x16))
  | .invl w => some (.e .T (w.enc 0 0x17))
  | .aq e w => some (.e e (w.enc 0 0xF0))
  | .aset e w => some (.e e (w.enc 0 0xF1))
  | .aadd e w => some (.e e (w.enc 0 0xF2))
  | .ejoin e w => some (.e e (w.enc 0 0xF3))
  | .enop e w => some (.e e (w.enc 0 0xF4))
  | .cshape e w => some (.e e (w.enc 0 0xF5))
  | .loop e w => some (.e e (w.enc 0 0xF6))
  | .fenceRetire _ | .waitReevaluate _ | .joinComplete _ | .haltRetire _ | .barrierComplete _ _ _ | .regionCommit _ => none
  | .replayEnd _ | .unassignedFirmwareService _ | .vectorWordRetire _ | .leaseGrant _ | .leaseBudgetExhausted _ | .frameFillComplete _ _ => none
  | .frameCopyComplete _ _ | .hardwareReplica _ _ | .matrixWordRetire _ | .engineWordRetire _ _ | .breakpointStop _ _ _ | .jobDispatch _ => none
  | .walkerSteal _ _ | .tailReread _ | .periodBoundary _ | .ageLevelTick _ | .launchComplete _ | .preemptionRequest _ => none
  | .sliceExpiry _ | .graceExpiry _ | .forcedCut _ | .contextSaveDone _ | .saveDeadlineExpiry _ | .jobResume _ _ => none
  | .hangWatchdog _ | .nmJobStart _ | .nmJobComplete _ _ | .nmWatchdogReset _ _ | .activationAlert _ _ _ _ _ | .persistentRequest _ _ => none
  | .positionRebase | .pageMoveRemap _ | .freezeStallTimeout _ _ | .weightRecheck _ | .patrolScrub _ _ _ | .flitReceive _ _ _ => none
  | .linkRetrain _ _ _ _ | .reqReadShared _ | .reqReadOwned _ | .reqWrite _ | .reqAtomic _ | .reqReleasePermission _ => none
  | .reqNearMemoryJob _ | .reqWalkerSteal _ | .reqRegisterAccess _ | .rspAck _ | .rspRetry _ | .rspMoved _ => none
  | .rspError _ | .rspDataFollows _ | .rspForcedPublishAck _ | .datLine _ | .datPartialLine _ | .datPoisonedLine _ => none
  | .snpRecallOwner _ | .snpInvalidate _ | .snpForcedPublish _ | .tokGrantShared _ | .tokGrantOwned _ | .tokRevoke _ => none
  | .nrw _ | .pos _ | .ingTokenRow _ | .ingPickRecord _ | .mgtDescriptorRequest | .mgtDescriptor => none
  | .mgtTopology | .mgtFirmwareReplicaWrite | .mgtEvent | .throwDelivery _ _ | .hostRead _ _ | .hostWrite _ _ _ => none
  | .hostFetchAdd _ _ _ | .hostSwap _ _ _ | .hostCompareSwap _ _ _ _ | .tenRoot _ _ | .tenKick _ _ | .domRst _ _ => none
  | .domainResetDone _ | .xlInv _ _ | .xlMig _ _ | .errPop _ _ | .fwinWrite _ _ _ | .registerWrite _ _ => none
  | .powerOn | .discoveryTimeout | .clockStep _ _ | .thermalThrottle _ | .thermalStop _ | .copyTrapInFlight _ _ => none
  | .coherentWindowSnoop _ _ | .trHead _ _ | .packageReset => none

/-- Decode what `encode` wrote, in the stream it was written for. -/
def decodeEnc : Enc → Except Reject Instr
  | .s w => decode .S w 0
  | .e st w => decode st.toStream w 0
  | .m h t => decode .X h t

end Sys2Proof
end

