-- ==== Sys2Proof/Machine/Format.lean ====
section
/-!
DEFINITION. Number formats (R40 to R48, R52 to R55): the value an element's bits stand for, and rounding an exact value to a format,
once, with its flags. A value is exact: a NaN, an infinity, or a signed fraction of two naturals; arithmetic on values is exact and the
rounding comes last.
-/
namespace Sys2Proof.Machine

/-! ### Formats -/

/-- The class of a format (R42, R45). -/
inductive NClass
  | ieee | nanOnly | finite | int | fixed
  deriving DecidableEq, Repr

/-- A format to the bit: class, sign bit, exponent and mantissa bits, bias, width, container bits, block size, whether a descriptor. -/
structure NFmt where
  cls : NClass
  sign : Bool
  eb : Nat
  mb : Nat
  bias : Int
  width : Nat
  cont : Nat
  blk : Nat
  desc : Bool
  deriving DecidableEq, Repr

/-- The built-in formats (R40). -/
def builtinFmt : Nat → Option NFmt
  | 0x0 => some ⟨.ieee, true, 11, 52, 1023, 64, 64, 0, false⟩
  | 0x1 => some ⟨.ieee, true, 8, 23, 127, 32, 32, 0, false⟩
  | 0x2 => some ⟨.ieee, true, 8, 7, 127, 16, 16, 0, false⟩
  | 0x3 => some ⟨.ieee, true, 5, 10, 15, 16, 16, 0, false⟩
  | 0x4 => some ⟨.ieee, true, 5, 2, 15, 8, 8, 0, false⟩
  | 0x5 => some ⟨.nanOnly, true, 4, 3, 7, 8, 8, 0, false⟩
  | 0x6 => some ⟨.finite, true, 3, 2, 3, 6, 6, 0, false⟩
  | 0x7 => some ⟨.finite, true, 2, 3, 1, 6, 6, 0, false⟩
  | 0x8 => some ⟨.finite, true, 2, 1, 1, 4, 4, 0, false⟩
  | 0x9 => some ⟨.int, true, 0, 0, 0, 8, 8, 0, false⟩
  | 0xA => some ⟨.int, true, 0, 0, 0, 4, 4, 0, false⟩
  | 0xB => some ⟨.int, true, 0, 0, 0, 32, 32, 0, false⟩
  | _ => none

/-- FP64 (R40). -/
def fp64 : NFmt := ⟨.ieee, true, 11, 52, 1023, 64, 64, 0, false⟩
/-- FP32 (R40). -/
def fp32 : NFmt := ⟨.ieee, true, 8, 23, 127, 32, 32, 0, false⟩

/-- A descriptor's format, none when it is invalid (R30, R44, R45). -/
def descFmt (d : Nat) : Option NFmt :=
  let sg := bits d 0 1
  let eb := bits d 1 3
  let mb := bits d 4 3
  let spec := bits d 15 2
  let blk := bits d 17 2
  let w := sg + eb + mb
  if w < 2 || 8 < w || blk = 3 || spec = 3 || bits d 19 13 != 0 then none
  else if spec = 0 && eb < 2 || spec = 1 && (eb < 1 || mb < 1) || eb = 0 && spec != 2 then none
  else
    let cls := if eb = 0 then NClass.fixed else if spec = 0 then .ieee else if spec = 1 then .nanOnly else .finite
    some ⟨cls, sg == 1, eb, mb, sextNat 8 (bits d 7 8), w, if w ≤ 4 then 4 else if w ≤ 6 then 6 else 8, 16 * blk, true⟩

/-- A floating format. -/
def NFmt.isFloat (f : NFmt) : Bool :=
  match f.cls with
  | .ieee | .nanOnly | .finite => true
  | .int | .fixed => false

/-- Container bytes of a format whose container is whole bytes. -/
def NFmt.bytes (f : NFmt) : Nat := f.cont / 8

/-- K, the elements of a 48-byte row (R40). -/
def NFmt.k (f : NFmt) : Nat := 384 / f.cont

/-! ### Exact values -/

/-- An exact value: a NaN (signalling or quiet), an infinity, or `± num / den`; zero keeps its sign. -/
inductive Num
  | nan (sig : Bool)
  | inf (neg : Bool)
  | fin (neg : Bool) (num den : Nat)
  deriving DecidableEq, Repr

/-- `num / den * 2^k`. -/
def scale2 (num den : Nat) (k : Int) : Nat × Nat :=
  match k with
  | .ofNat n => (num * 2 ^ n, den)
  | .negSucc n => (num, den * 2 ^ (n + 1))

/-- `± m * 2^k`. -/
def Num.dyadic (neg : Bool) (m : Nat) (k : Int) : Num := let r := scale2 m 1 k; .fin neg r.1 r.2

/-- An integer as a value; zero is positive. [DEDUCED, unsafe: log entry 16] -/
def Num.ofInt (v : Int) : Num := .fin (decide (v < 0)) v.natAbs 1

/-- The value is a NaN. -/
def Num.isNan : Num → Bool
  | .nan _ => true
  | _ => false

/-- The value is a signalling NaN. -/
def Num.isSig : Num → Bool
  | .nan s => s
  | _ => false

/-- The value is a zero. -/
def Num.isZero : Num → Bool
  | .fin _ n _ => n == 0
  | _ => false

/-- The sign. -/
def Num.neg : Num → Bool
  | .nan _ => false
  | .inf s => s
  | .fin s _ _ => s

/-- The value with its sign inverted. -/
def Num.flip : Num → Num
  | .nan s => .nan s
  | .inf s => .inf (!s)
  | .fin s n d => .fin (!s) n d

/-- The magnitude. -/
def Num.abs : Num → Num
  | .nan s => .nan s
  | .inf _ => .inf false
  | .fin _ n d => .fin false n d

/-- The value of an element's bits (R41, R42, R45); bits above the width are ignored. A signalling NaN is a NaN of an IEEE-like format
with its top mantissa bit clear. [DEDUCED, unsafe: log entry 19] -/
def NFmt.decode (f : NFmt) (b : Nat) : Num :=
  let b := b % 2 ^ f.width
  match f.cls with
  | .int => .ofInt (sextNat f.width b)
  | .fixed =>
    let n : Int := if f.sign then sextNat f.width b else b
    .dyadic (decide (n < 0)) n.natAbs (-f.bias)
  | _ =>
    let s := f.sign && bitOf b (f.eb + f.mb)
    let e := bits b f.mb f.eb
    let m := bits b 0 f.mb
    let top := decide (e = 2 ^ f.eb - 1)
    if top && f.cls == .ieee && m == 0 then .inf s
    else if top && f.cls == .ieee then .nan (decide (m < 2 ^ (f.mb - 1)))
    else if top && f.cls == .nanOnly && m == 2 ^ f.mb - 1 then .nan false
    else if e = 0 then .dyadic s m (1 - f.bias - f.mb)
    else .dyadic s (2 ^ f.mb + m) (e - f.bias - f.mb)

/-! ### Encodings of special results (R43, R54) -/

/-- The format has a NaN encoding (R43). -/
def NFmt.hasNan (f : NFmt) : Bool :=
  match f.cls with
  | .ieee => decide (0 < f.mb)
  | .nanOnly => true
  | _ => false

/-- The canonical NaN: the quiet bit alone in a built-in IEEE-like format, all ones in E4M3 and descriptors (R43). -/
def NFmt.canonNan (f : NFmt) : Nat :=
  if f.cls = .ieee ∧ f.desc = false then (2 ^ f.eb - 1) * 2 ^ f.mb + 2 ^ (f.mb - 1)
  else (2 ^ f.eb - 1) * 2 ^ f.mb + (2 ^ f.mb - 1)

/-- The sign bit in place. -/
def NFmt.signBit (f : NFmt) (s : Bool) : Nat := if f.sign && s then 2 ^ (f.eb + f.mb) else 0

/-- The infinity's bits. -/
def NFmt.infBits (f : NFmt) (s : Bool) : Nat := f.signBit s + (2 ^ f.eb - 1) * 2 ^ f.mb

/-- Exponent field and mantissa of the largest finite value (R40, R42). -/
def NFmt.maxField (f : NFmt) : Nat × Nat :=
  match f.cls with
  | .ieee => (2 ^ f.eb - 2, 2 ^ f.mb - 1)
  | .nanOnly => (2 ^ f.eb - 1, 2 ^ f.mb - 2)
  | _ => (2 ^ f.eb - 1, 2 ^ f.mb - 1)

/-- The largest finite value's bits. -/
def NFmt.maxBits (f : NFmt) (s : Bool) : Nat := f.signBit s + f.maxField.1 * 2 ^ f.mb + f.maxField.2

/-- The range of an integer or fixed-point format, in units of its last place. -/
def NFmt.range (f : NFmt) : Int × Int :=
  if f.sign then (sLo f.width, sHi f.width) else (0, (2 ^ f.width : Nat) - 1)

/-! ### Rounding (R52) -/

/-- The exponent of the leading bit of `num / den`, `num > 0`. -/
def floorLog2 (num den : Nat) : Int :=
  let e : Int := (Nat.log2 num : Int) - (Nat.log2 den : Int)
  let r := scale2 num den (-e)
  if r.1 < r.2 then e - 1 else e

/-- Round `num / den` to an integer in mode `rm` (0 RNE, 1 RTZ, 2 RUP, 3 RDN); tells whether it was inexact. A tie goes to the even
significand, also where MANT = 0 makes every significand 1: then 1.5 x 2^e rounds up. [DEDUCED, unsafe: log entry 119] -/
def roundNat (neg : Bool) (num den rm : Nat) : Nat × Bool :=
  let q := num / den
  let r := num % den
  let up := match rm with
    | 0 => decide (den < 2 * r) || (decide (2 * r = den) && q % 2 == 1)
    | 1 => false
    | 2 => !neg && decide (0 < r)
    | _ => neg && decide (0 < r)
  (if up then q + 1 else q, decide (r ≠ 0))

/-- Round `num / den` to a multiple of `2^u`. -/
def roundAt (neg : Bool) (num den : Nat) (u : Int) (rm : Nat) : Nat × Bool :=
  let r := scale2 num den (-u)
  roundNat neg r.1 r.2 rm

/-- An overflow of a finite value (R54): infinity, NaN or the largest value, by the class, the mode and the saturate bit. [DEDUCED, unsafe: log entry 17] -/
def NFmt.overflow (f : NFmt) (neg sat : Bool) (rm : Nat) : Nat × Fl :=
  let toInf := rm == 0 || (rm == 2 && !neg) || (rm == 3 && neg)
  let fl := flOF ||| flNX
  if !sat && toInf && f.cls == .ieee then (f.infBits neg, fl)
  else if !sat && toInf && f.cls == .nanOnly then (f.canonNan, fl)
  else (f.maxBits neg, fl ||| flSAT)

/-- Round a positive magnitude to a floating format that can hold its sign (R52, R54). -/
def NFmt.roundMag (f : NFmt) (neg sat : Bool) (num den rm : Nat) : Nat × Fl :=
  let x := floorLog2 num den
  let emin : Int := 1 - f.bias
  let u : Int := (if x < emin then emin else x) - f.mb
  let r := roundAt neg num den u rm
  -- tiny after rounding with an unbounded exponent range
  let t := roundAt neg num den (x - f.mb) rm
  let tv := scale2 t.1 1 (x - f.mb - emin)
  let fl := flIf r.2 flNX ||| flIf (r.2 && decide (tv.1 < tv.2)) flUF
  let up := decide (r.1 = 2 ^ (f.mb + 1))
  let m := if up then 2 ^ f.mb else r.1
  let u := if up then u + 1 else u
  if m < 2 ^ f.mb then (f.signBit neg + m, fl)
  else
    let e := u + f.mb + f.bias
    let mx := f.maxField
    if e > mx.1 || (e = mx.1 && m - 2 ^ f.mb > mx.2) then f.overflow neg sat rm
    else (f.signBit neg + e.toNat * 2 ^ f.mb + (m - 2 ^ f.mb), fl)

/-- Deliver an exact value in a format (R43, R52 to R55): bits and flags. [DEDUCED, unsafe: log entry 18] -/
def NFmt.encode (f : NFmt) (sat : Bool) (rm : Nat) (v : Num) : Nat × Fl :=
  match f.cls with
  | .int | .fixed =>
    match v with
    | .nan _ => (0, flNV)
    | .inf s => (wrapBits f.width (if s then f.range.1 else f.range.2), flNV ||| flSAT)
    | .fin s n d =>
      let r := roundAt s n d (-f.bias) rm
      let i : Int := if s then -(r.1 : Int) else r.1
      if i < f.range.1 then (wrapBits f.width f.range.1, flSAT ||| flNX)
      else if f.range.2 < i then (wrapBits f.width f.range.2, flSAT ||| flNX)
      else (wrapBits f.width i, flIf r.2 flNX)
  | _ =>
    match v with
    | .nan sg => if f.hasNan then (f.canonNan, flIf sg flNV) else (0, flNV)
    | .inf s =>
      if s && !f.sign then (0, flSAT ||| flNV)
      else if f.cls = .ieee then (f.infBits s, 0)
      else if f.cls = .nanOnly && !sat then (f.canonNan, flNV)
      else (f.maxBits s, flSAT ||| flNV)
    | .fin s n d =>
      if n = 0 then (f.signBit s, 0)
      else if s && !f.sign then
        let r := roundMagUnsigned f n d rm
        if r.1 = 0 then r else (0, flSAT ||| flNX)
      else f.roundMag s sat n d rm
where
  /-- The rounded magnitude of a negative value for a format without a sign bit. -/
  roundMagUnsigned (f : NFmt) (n d rm : Nat) : Nat × Fl := f.roundMag true true n d rm

/-! ### Exact arithmetic with the invalid cases (R53, R162) -/

/-- The NV of signalling operands. [DEDUCED, unsafe: log entry 19] -/
def sigNV (a b : Num) : Fl := flIf (a.isSig || b.isSig) flNV

/-- Exact sum. An exact zero is +0, −0 under RDN; a sum of −0 and −0 is −0 (R52). [DEDUCED, unsafe: log entry 15] -/
def Num.add (rm : Nat) (a b : Num) : Num × Fl :=
  match a, b with
  | .nan _, _ | _, .nan _ => (.nan false, sigNV a b)
  | .inf s, .inf t => if s = t then (.inf s, 0) else (.nan false, flNV)
  | .inf s, _ => (.inf s, 0)
  | _, .inf s => (.inf s, 0)
  | .fin s n d, .fin t m e =>
    let x : Int := n * e
    let y : Int := m * d
    let v := (if s then -x else x) + (if t then -y else y)
    if v = 0 then (.fin ((n == 0 && m == 0 && s && t) || rm == 3) 0 1, 0)
    else (.fin (decide (v < 0)) v.natAbs (d * e), 0)

/-- Exact product. -/
def Num.mul (a b : Num) : Num × Fl :=
  match a, b with
  | .nan _, _ | _, .nan _ => (.nan false, sigNV a b)
  | .inf s, y => if y.isZero then (.nan false, flNV) else (.inf (s != y.neg), 0)
  | x, .inf s => if x.isZero then (.nan false, flNV) else (.inf (s != x.neg), 0)
  | .fin s n d, .fin t m e => (.fin (s != t) (n * m) (d * e), 0)

/-- Exact quotient by IEEE rules; a finite non-zero value over zero sets DZ. -/
def Num.div (a b : Num) : Num × Fl :=
  match a, b with
  | .nan _, _ | _, .nan _ => (.nan false, sigNV a b)
  | .inf _, .inf _ => (.nan false, flNV)
  | .inf s, y => (.inf (s != y.neg), 0)
  | x, .inf t => (.fin (x.neg != t) 0 1, 0)
  | .fin s n d, .fin t m e =>
    if m = 0 then if n = 0 then (.nan false, flNV) else (.inf (s != t), flDZ)
    else (.fin (s != t) (n * e) (d * m), 0)

/-- Less than, for values that are not NaN; −0 equals +0. -/
def Num.lt (a b : Num) : Bool :=
  match a, b with
  | .nan _, _ | _, .nan _ => false
  | .inf s, .inf t => s && !t
  | .inf s, _ => s
  | _, .inf t => !t
  | .fin s n d, .fin t m e =>
    let x : Int := n * e
    let y : Int := m * d
    decide ((if s then -x else x) < (if t then -y else y))

/-- Equal, for values that are not NaN. -/
def Num.eqv (a b : Num) : Bool := !a.isNan && !b.isNan && !a.lt b && !b.lt a

/-! ### The S16 block scale (R47, R48) -/

/-- The value of an S16 scale. -/
def s16Value (b : Nat) : Num :=
  let e := bits b 8 8
  let m := bits b 0 8
  if e = 255 then .nan false else if e = 0 then .dyadic false m (-134) else .dyadic false (256 + m) (e - 135)

/-- S16 as a format: 8 exponent and 8 mantissa bits, no sign. -/
def s16Fmt : NFmt := ⟨.ieee, false, 8, 8, 127, 16, 16, 0, false⟩

/-- A value converted to S16: never an infinity (R48). -/
def toS16 (rm : Nat) (v : Num) : Nat × Fl :=
  match v with
  | .nan _ => (0xFF00, flNV)
  | .inf _ => (0xFEFF, flSAT ||| flNV)
  | .fin _ n d => if n = 0 then (0, 0) else s16Fmt.roundMag false true n d rm

/-! ### Packed elements (R41) -/

/-- Bits `[o + c - 1 : o]` of a byte list read as one little-endian number. -/
def bitsAt (byte : Nat → Byte) (base : Int) (o c : Nat) : Nat :=
  let lo := o / 8
  let n := (o % 8 + c + 7) / 8
  bits (leNatF byte (base + (lo : Int)).toNat n) (o % 8) c
where
  /-- `n` bytes from `a` as a number. -/
  leNatF (byte : Nat → Byte) (a : Nat) : Nat → Nat
    | 0 => 0
    | n + 1 => (byte a).toNat + 256 * leNatF byte (a + 1) n

end Sys2Proof.Machine
end

