-- ==== Sys2Proof/Machine/Maps.lean ====
section
/-!
DEFINITION. The finite maps of the state and memory as bytes: reading, writing, and the canonical form every writer keeps (keys strictly
rising; for memory, no entry equal to zero, which an unlisted address reads as). Wider accesses are built from bytes here and nowhere
else, little-endian (R5).
-/
namespace Sys2Proof.Machine

/-- The entry of key `k`. -/
def smGet {α : Type} : SMap α → Nat → Option α
  | [], _ => none
  | (k', v) :: r, k => if k' = k then some v else if k < k' then none else smGet r k

/-- The entry of key `k`, or what an absent key reads as. -/
def smGetD {α : Type} (m : SMap α) (k : Nat) (d : α) : α := (smGet m k).getD d

/-- Write the entry of key `k`. -/
def smSet {α : Type} : SMap α → Nat → α → SMap α
  | [], k, v => [(k, v)]
  | (k', v') :: r, k, v => if k < k' then (k, v) :: (k', v') :: r else if k = k' then (k, v) :: r else (k', v') :: smSet r k v

/-- Remove the entry of key `k`. -/
def smErase {α : Type} : SMap α → Nat → SMap α
  | [], _ => []
  | (k', v') :: r, k => if k < k' then (k', v') :: r else if k = k' then r else (k', v') :: smErase r k

/-- Write the entry of key `k`, keeping the canonical form when it equals what an absent key reads as. -/
def smPut {α : Type} [DecidableEq α] (d : α) (m : SMap α) (k : Nat) (v : α) : SMap α := if v = d then smErase m k else smSet m k v

/-- Keys strictly rising, each above `lo`. -/
def smSorted {α : Type} : Option Nat → SMap α → Bool
  | _, [] => true
  | none, (k, _) :: r => smSorted (some k) r
  | some l, (k, _) :: r => decide (l < k) && smSorted (some k) r

/-! ### Memory -/

/-- The canonical form of memory: addresses strictly rising, no entry zero. -/
def Mem.wf (m : Mem) : Bool := smSorted none m && m.all (fun c => c.2 != 0)

/-- One byte; an unlisted address reads as zero. [DESIGN CHOICE, unsafe: log entry 2] -/
def memRead (m : Mem) (a : Nat) : Byte := smGetD m a 0

/-- Write one byte. -/
def memWrite (m : Mem) (a : Nat) (v : Byte) : Mem := smPut 0 m a v

/-- `n` bytes from `a` up. -/
def memBytes (m : Mem) (a : Nat) : Nat → List Byte
  | 0 => []
  | n + 1 => memRead m a :: memBytes m (a + 1) n

/-- Write a list of bytes from `a` up. -/
def memWriteBytes (m : Mem) (a : Nat) : List Byte → Mem
  | [] => m
  | b :: r => memWriteBytes (memWrite m a b) (a + 1) r

/-- The number a little-endian list of bytes stands for. -/
def leNat : List Byte → Nat
  | [] => 0
  | b :: r => b.toNat + 256 * leNat r

/-- The `n` little-endian bytes of a number. -/
def natLe : Nat → Nat → List Byte
  | 0, _ => []
  | n + 1, v => BitVec.ofNat 8 v :: natLe n (v / 256)

/-- The number a big-endian list of bytes stands for. -/
def beNat (l : List Byte) : Nat := leNat l.reverse

/-- The `n` big-endian bytes of a number. -/
def natBe (n v : Nat) : List Byte := (natLe n v).reverse

/-- Write cells into a map where presence counts (dirty and stale bytes). -/
def cellsSet (m : Mem) (a : Nat) : List Byte → Mem
  | [] => m
  | b :: r => cellsSet (smSet m a b) (a + 1) r

/-- Remove `n` cells from `a` up. -/
def cellsDrop (m : Mem) (a : Nat) : Nat → Mem
  | 0 => m
  | n + 1 => cellsDrop (smErase m a) (a + 1) n

/-! ### Sorting -/

/-- Put `x` before the first entry it may stand before. -/
def insertBy {α : Type} (le : α → α → Bool) (x : α) : List α → List α
  | [] => [x]
  | y :: r => if le x y then x :: y :: r else y :: insertBy le x r

/-- Sort by `le`, keeping the order of equal entries. -/
def sortBy {α : Type} (le : α → α → Bool) : List α → List α
  | [] => []
  | x :: r => insertBy le x (sortBy le r)

/-! ### Vector clocks (R256) -/

/-- The later of two clocks. -/
def vcJoin (a : VC) : VC → VC
  | [] => a
  | (k, t) :: r => vcJoin (smSet a k (Nat.max t (smGetD a k 0))) r

/-- Whether an access at time `t` of `k` is covered. -/
def vcCovers (a : VC) (k t : Nat) : Bool := decide (t ≤ smGetD a k 0)

end Sys2Proof.Machine
end

