-- ==== Sys2Proof/Machine/Phys.lean ====
section
/-!
DEFINITION. Physical memory: the address map of a package (R415, R416), the home of a line, and the bytes as a home, a C-die, a
near-memory unit and the host see them (R254, R274, R287, R394 to R396). A byte written by a C-die is dirty in that die until its line
is written back; a byte of a line that a C-die holds while a near-memory unit writes it is stale for the C-dies until it is invalidated.
-/
namespace Sys2Proof.Machine

/-! ### The package (R2, R415, R416) -/

/-- The number of memory stacks S. -/
def stackCount (s : State) : Nat := 3 * s.B.cdies
/-- Tier-1 bytes T1. -/
def tier1 (s : State) : Nat := Config.stackBytes * stackCount s
/-- The smallest of the tier-2 sizes the I/O dies report. -/
def tier2Min : List Nat → Nat
  | [] => 0
  | [a] => a
  | a :: r => Nat.min a (tier2Min r)
/-- Tier-2 bytes T2: the number of I/O dies times the smallest size, rounded down to 4 KiB, at most 4 TiB. -/
def tier2 (s : State) : Nat := Nat.min (s.B.iodies.length * tier2Min s.B.tier2 / 4096 * 4096) (2 ^ 42)

/-- The ranges of R416. -/
inductive Range
  | tier1 | tier2 | mailbox | bulk | regs | absent
  deriving DecidableEq, Repr

/-- Bytes of the bulk window (R394). -/
def bulkBytes (s : State) : Nat := if s.R.hwBulk.getLsbD 0 then bits s.R.hwBsz.toNat 28 17 * 2 ^ 28 else 0

/-- The range a physical address lies in. -/
def rangeOf (s : State) (pa : Nat) : Range :=
  if pa < tier1 s then .tier1
  else if pa < 2 ^ 44 then .absent
  else if pa < 2 ^ 44 + tier2 s then .tier2
  else if pa < 2 ^ 45 then .absent
  else if pa < 2 ^ 45 + 2 ^ 28 then if s.R.hwMbx.getLsbD 0 then .mailbox else .absent
  else if pa < 2 ^ 45 + 2 ^ 28 + bulkBytes s then .bulk
  else if pa < 0x300000000000 then .absent
  else if pa < 0x400000000000 then .regs
  else .absent

/-- The range holds memory bytes. -/
def Range.isMem : Range → Bool
  | .tier1 | .tier2 | .mailbox | .bulk => true
  | .regs | .absent => false

/-- The M-die that keeps a line's directory entry (R415, R416); host-window lines answer none. -/
def homeMdie (s : State) (pa : Nat) : Option Nat :=
  match rangeOf s pa with
  | .tier1 => some (pa / 4096 % stackCount s)
  | .tier2 => some (pa / 4096 % 2 ^ 32 % stackCount s)
  | _ => none

/-- The fabric id of a line's home (R415). -/
def homeId (s : State) (pa : Nat) : Nat := match homeMdie s pa with | some m => 8 + m | none => 24

/-- The host address a window address maps to (R394). -/
def hostAddr (s : State) (pa : Nat) : Nat :=
  if pa < 2 ^ 45 + 2 ^ 28 then s.R.hwMbx.toNat / 2 ^ 28 * 2 ^ 28 + pa % 2 ^ 28
  else s.R.hwBulk.toNat / 2 ^ 28 * 2 ^ 28 + (pa - (2 ^ 45 + 2 ^ 28))

/-- The 64-byte line of an address, as its number. -/
def lineOf (pa : Nat) : Nat := pa / 64

/-- The lines an access of `n` bytes at `pa` touches. -/
def linesOf (pa n : Nat) : List Nat := List.range' (pa / 64) ((pa + n - 1) / 64 - pa / 64 + 1)

/-! ### Bytes at the home -/

/-- The byte at an address's home: device memory, or host memory behind a window. -/
def homeByte (s : State) (pa : Nat) : Byte :=
  if 2 ^ 45 ≤ pa then memRead s.M.host (hostAddr s pa) else memRead s.M.mem pa

/-- Write a byte at its home. -/
def homeSet (s : State) (pa : Nat) (b : Byte) : State :=
  if 2 ^ 45 ≤ pa then { s with M := { s.M with host := memWrite s.M.host (hostAddr s pa) b } }
  else { s with M := { s.M with mem := memWrite s.M.mem pa b } }

/-- Write bytes at the home from `pa` up. -/
def homeSetBytes (s : State) (pa : Nat) : List Byte → State
  | [] => s
  | b :: r => homeSetBytes (homeSet s pa b) (pa + 1) r

/-! ### Bytes as the C-dies see them -/

/-- The value a coherent read of a C-die returns: a dirty byte, else a free value where the C-dies hold a stale copy (R274), else the
byte at the home. -/
def cByte (s : State) (pa : Nat) : Byte :=
  match smGet s.M.dirty pa with
  | some b => b
  | none => match smGet s.M.stale pa with
    | some _ => Config.freeByte s.fresh pa
    | none => homeByte s pa

/-- `n` bytes as the C-dies see them. -/
def cBytes (s : State) (pa : Nat) : Nat → List Byte
  | 0 => []
  | n + 1 => cByte s pa :: cBytes s (pa + 1) n

/-- The bytes that a write of the bytes from `pa` up replaces stay what a fetch may still see (R89). -/
def noteCode (s : State) (pa : Nat) : List Byte → State
  | [] => s
  | b :: r =>
    let o := cByte s pa
    noteCode (if o = b then s else { s with M := { s.M with code := smSet s.M.code pa (o, s.fresh) } }) (pa + 1) r

/-- Write bytes in a C-die: they are dirty there. -/
def cSetBytes (s : State) (pa : Nat) (l : List Byte) : State :=
  let s := noteCode s pa l
  { s with M := { s.M with dirty := cellsSet s.M.dirty pa l, stale := cellsDrop s.M.stale pa l.length } }

/-- Write back the dirty bytes of `n` bytes from `pa` up: they reach the home and are clean. -/
def writeBackN (s : State) (pa : Nat) : Nat → State
  | 0 => s
  | n + 1 =>
    match smGet s.M.dirty pa with
    | some b => writeBackN (homeSet { s with M := { s.M with dirty := smErase s.M.dirty pa } } pa b) (pa + 1) n
    | none => writeBackN s (pa + 1) n

/-- Whether a line has dirty bytes. -/
def lineDirty (s : State) (line : Nat) : Bool := (List.range' (64 * line) 64).any (fun a => (smGet s.M.dirty a).isSome)

/-- Write back a line. -/
def writeBackLine (s : State) (line : Nat) : State := writeBackN s (64 * line) 64

/-- Drop the C-dies' stale copies of a line, so that the next read fetches the home. -/
def dropStale (s : State) (line : Nat) : State := { s with M := { s.M with stale := cellsDrop s.M.stale (64 * line) 64 } }

/-! ### Bytes as near-memory units, the host and the device's own agents see them -/

/-- A near-memory read sees the home only: where a C-die holds a dirty byte the result is undefined (R274). -/
def nByte (s : State) (pa : Nat) : Byte :=
  match smGet s.M.dirty pa with
  | some _ => Config.freeByte s.fresh pa
  | none => homeByte s pa

/-- `n` bytes as a near-memory unit sees them. -/
def nBytes (s : State) (pa : Nat) : Nat → List Byte
  | 0 => []
  | n + 1 => nByte s pa :: nBytes s (pa + 1) n

/-- A near-memory write reaches the home; clean copies the C-dies hold of the byte become stale (R274). -/
def nSet (s : State) (pa : Nat) (b : Byte) : State :=
  let held := (smGet s.M.dir (lineOf pa)).isSome && (smGet s.M.dirty pa).isNone
  let s := homeSet (noteCode s pa [b]) pa b
  if held then { s with M := { s.M with stale := smSet s.M.stale pa 0 } } else s

/-- Near-memory bytes from `pa` up. -/
def nSetBytes (s : State) (pa : Nat) : List Byte → State
  | [] => s
  | b :: r => nSetBytes (nSet s pa b) (pa + 1) r

/-- A write by an agent at the home that first revokes every C-die's copy: the host, the dispatch hardware, die firmware (R377, R396).
The line's dirty bytes reach the home before it. -/
def agentSetBytes (s : State) (pa : Nat) (l : List Byte) : State :=
  let s := (linesOf pa l.length).foldl (fun s ln => dropStale (writeBackLine s ln) ln) s
  let s := homeSetBytes (noteCode s pa l) pa l
  { s with M := { s.M with dir := (linesOf pa l.length).foldl smErase s.M.dir } }

/-- A read by such an agent: the coherent value (R396). -/
def agentNat (s : State) (pa n : Nat) : Nat := leNat (cBytes s pa n)

/-- The 64-bit word such an agent reads. -/
def agentWord (s : State) (pa : Nat) : Nat := agentNat s pa 8

/-! ### Poison (R420, R422) -/

/-- How many of `n` die ids from `b` up name a die of the package. -/
def partCount (s : State) (b n : Nat) : Nat := ((List.range n).filter (fun i => (smGet s.B.parts (b + i)).isSome)).length

/-- The die id at the far end of link `k` of C-die `c` (R409, R418). The C-dies are shared out to the I/O dies in
order: with four and two, I/O die 0 attaches to C-dies 0 and 1, I/O die 1 to 2 and 3. [DEDUCED, unsafe: log entry 91] -/
def linkFar (s : State) (c k : Nat) : Nat :=
  if k < 3 then 8 + 3 * c + k
  else if k < 6 then ((List.range 4).filter (· != c)).getD (k - 3) 0
  else 24 + c * partCount s 24 8 / partCount s 0 4

/-- A die that no link reaches: every link entry that names it has no module left (R409). -/
def dieLost (s : State) (id : Nat) : Bool :=
  let ls := s.B.links.filter (fun e => linkFar s (e.1 / 8) (e.1 % 8) == id)
  !ls.isEmpty && ls.all (fun e => e.2.1 == 0)

/-- A line whose home no link reaches and that no die holds: its reads are answered poisoned, its writes are lost (R409, R413). [DEDUCED, safe: log entry 92] -/
def unreachable (s : State) (line : Nat) : Bool := dieLost s (homeId s (64 * line)) && (smGet s.M.dir line).isNone

/-- A line is poisoned, or reads as poisoned because its home cannot be reached. -/
def poisoned (s : State) (line : Nat) : Bool := (smGet s.M.poison line).isSome || unreachable s line

/-- Mark a line poisoned, nothing written since. -/
def poisonLine (s : State) (line : Nat) : State := { s with M := { s.M with poison := smSet s.M.poison line 0 } }

/-- The mask of `n` bytes from byte `o` of a line, bytes past the line dropped. -/
def byteMask (o n : Nat) : Nat := (2 ^ n - 1) * 2 ^ o % 2 ^ 64

/-- The bytes of line `ln` that an access of `n` bytes at `pa` covers, as a mask. -/
def maskIn (pa n ln : Nat) : Nat :=
  let lo := Nat.max pa (64 * ln)
  let hi := Nat.min (pa + n) (64 * ln + 64)
  byteMask (lo - 64 * ln) (hi - lo)

/-- A write enters its bytes in the line's mask; the mark is dropped when the mask is full (R422). -/
def poisonWrite (s : State) (pa n : Nat) : State :=
  (linesOf pa n).foldl (fun s ln =>
    match smGet s.M.poison ln with
    | none => s
    | some m =>
      let m' := m ||| maskIn pa n ln
      { s with M := { s.M with poison := if m' = 2 ^ 64 - 1 then smErase s.M.poison ln else smSet s.M.poison ln m' } }) s

/-! ### Tables with a reset default -/

/-- A core's state. -/
def coreSt (s : State) (c : Nat) : CoreSt := smGetD s.cores c CoreSt.reset
/-- Write a core's state. -/
def setCore (s : State) (c : Nat) (v : CoreSt) : State := { s with cores := smSet s.cores c v }
/-- A cluster's state. -/
def clusterSt (s : State) (c : Nat) : Cluster := smGetD s.clusters c Cluster.reset
/-- Write a cluster's state. -/
def setCluster (s : State) (c : Nat) (v : Cluster) : State := { s with clusters := smSet s.clusters c v }
/-- A die's state; M-dies and I/O dies use their fabric ids (R415). -/
def dieSt (s : State) (d : Nat) : DieSt := smGetD s.dies d DieSt.reset
/-- Write a die's state. -/
def setDie (s : State) (d : Nat) (v : DieSt) : State := { s with dies := smSet s.dies d v }
/-- An M-die's state. -/
def mdieSt (s : State) (m : Nat) : MDieSt := smGetD s.mdies m MDieSt.reset
/-- Write an M-die's state. -/
def setMdie (s : State) (m : Nat) (v : MDieSt) : State := { s with mdies := smSet s.mdies m v }
/-- A fault domain's registers. -/
def domainSt (s : State) (f : Nat) : Domain := smGetD s.domains f Domain.reset
/-- Write a fault domain's registers. -/
def setDomain (s : State) (f : Nat) (v : Domain) : State := { s with domains := smSet s.domains f v }
/-- A tenant's registers. -/
def tenantSt (s : State) (n : Nat) : Tenant := smGetD s.R.tenants n Tenant.reset
/-- Write a tenant's registers. -/
def setTenant (s : State) (n : Nat) (v : Tenant) : State :=
  { s with R := { s.R with tenants := smSet s.R.tenants n v } }

/-- Write field bits `[lo + len - 1 : lo]` of a register. -/
def putBits (w : Word) (lo len v : Nat) : Word :=
  BitVec.ofNat 64 (w.toNat - bits w.toNat lo len * 2 ^ lo + v % 2 ^ len * 2 ^ lo)

/-- Add one, saturating at `2^n - 1`. -/
def satInc (n v : Nat) : Nat := Nat.min (v + 1) (2 ^ n - 1)

/-! ### Error log, domain events and interrupt messages (R400, R423, R428) -/

/-- Count and log an error of die `id` (R423): the 17th record replaces the newest. -/
def logError (s : State) (id kind src cls addr : Nat) (ue : Bool) : State :=
  let d := dieSt s id
  let r := (kind, src, cls, addr)
  let l := if d.errlog.length < 16 then d.errlog ++ [r] else d.errlog.take 15 ++ [r]
  setDie s id { d with errlog := l, ue := if ue then satInc 64 d.ue else d.ue }

/-- The tenant whose domain range holds `f` (R399). -/
def tenantOf (s : State) (f : Nat) : Option Nat :=
  (s.R.tenants.find? (fun e => e.2.run && decide (bits e.2.dom.toNat 16 12 ≤ f) && decide (f ≤ bits e.2.dom.toNat 0 12))).map (·.1)

/-- Send an interrupt message: 4 bytes DATA × 4 + cause at the tenant's address in host memory (R400). -/
def sendIrq (s : State) (n cause : Nat) : State :=
  let t := tenantSt s n
  let v := bits t.irqd.toNat 2 30 * 4 + cause
  let s := { s with M := { s.M with host := memWriteBytes s.M.host t.irqa.toNat (natLe 4 v) },
                    R := { s.R with irqs := s.R.irqs ++ [(n, v)] } }
  setTenant s n { t with msgs := satInc 32 t.msgs }

/-- The event ring's size as a power of two, at most 2^16 records (R428). -/
def evqLog (d : Domain) : Nat := Nat.min (bits d.evqBase.toNat 0 5) 16
/-- The event ring is full. -/
def evqFull (d : Domain) : Bool := decide ((d.evqTail.toNat + 2 ^ 32 - d.evqHead.toNat) % 2 ^ 32 = 2 ^ evqLog d)
/-- The address of the next event record. -/
def evqAddr (d : Domain) : Nat := bits d.evqBase.toNat 5 43 * 32 + 32 * (d.evqTail.toNat % 2 ^ evqLog d)
/-- One event more is lost. -/
def evqLose (s : State) (f : Nat) : State :=
  setDomain s f { domainSt s f with evqLost := BitVec.ofNat 64 (satInc 64 (domainSt s f).evqLost.toNat) }
/-- TAIL moves on past a written record. -/
def evqNext (s : State) (f : Nat) : State :=
  setDomain s f { domainSt s f with evqTail := BitVec.ofNat 64 (((domainSt s f).evqTail.toNat + 1) % 2 ^ 32) }

/-- Store an event's record, or count it lost: in a full ring, or in one that cannot be written, which is an error of the primary too. -/
def evqStore (s : State) (f w0 addr aux : Nat) : State :=
  let pa := evqAddr (domainSt s f)
  if evqFull (domainSt s f) then evqLose s f
  else if !(rangeOf s pa).isMem || poisoned s (lineOf pa) then
    logError (evqLose s f) s.B.primary 3 s.B.primary 0 (pa % 2 ^ 47) false
  else evqNext (agentSetBytes s pa (natLe 8 w0 ++ natLe 8 addr ++ natLe 8 aux ++ natLe 8 s.time)) f

/-- The interrupt message of a domain's event, when its tenant asks for one (R400). -/
def evqIrq (s : State) (f : Nat) : State :=
  match tenantOf s f with
  | some n => if (tenantSt s n).irqd.getLsbD 33 then sendIrq s n 2 else s
  | none => s

/-- A domain event (R428): the record, TAIL, or LOST; then the interrupt message. `die` is the fabric id where it arose. -/
def raiseEvent (s : State) (f type code die addr aux : Nat) : State :=
  evqIrq (evqStore s f (type % 256 * 2 ^ 56 + code % 256 * 2 ^ 48 + f % 4096 * 2 ^ 36 + die % 32 * 2 ^ 31) addr aux) f

/-! ### Watchpoints (R430 to R433) -/

/-- Comparator `w` matches a request of class `cls` (0 C, 1 N, 2 H, 3 W), type bit `ty` (1 read, 2 write, 4 atomic), domain `f`. -/
def Watch.sees (w : Watch) (line cls ty f : Nat) : Bool :=
  w.base.getLsbD 0 && decide (bits w.base.toNat 6 42 ≤ line) && decide (line ≤ bits w.lim.toNat 6 42)
    && w.ctl.getLsbD cls && (bits w.ctl.toNat 4 3 &&& ty) != 0 && (cls == 2 || bits w.ctl.toNat 40 12 == f)

/-- Comparator `n` of M-die `m` sees a request from die id `src`. -/
def watchOne (s : State) (m line cls ty f src n : Nat) : State :=
  let w := (mdieSt s m).watch.toList.getD n Watch.reset
  if w.sees line cls ty f then
    let d := mdieSt s m
    let w' := { w with cnt := BitVec.ofNat 64 (satInc 64 w.cnt.toNat) }
    raiseEvent (setMdie s m { d with watch := d.watch.setIfInBounds n w' }) (bits w.ctl.toNat 40 12) 14 (16 * m + n) (8 + m) (64 * line)
      (src * 256 + cls * 16 + ty)
  else s

/-- The comparators of the line's home see a request. -/
def watchHit (s : State) (line cls ty f src : Nat) : State :=
  match homeMdie s (64 * line) with
  | none => s
  | some m => (List.range 16).foldl (fun s n => watchOne s m line cls ty f src n) s

end Sys2Proof.Machine
end

