-- ==== Sys2Proof/Machine/Jobs.lean ====
section
/-!
DEFINITION. Jobs as data: where a job lives, its header's declarations (R37), its registers, queues, token FIFOs, flags and sequence
counters (R14 to R36), the status buffer (R23), trace records (R436), and what a retiring X word lands (R156, R191).
-/
namespace Sys2Proof.Machine

/-! ### Job slots: `256 * die + 4 * core + slot` -/

/-- The C-die of a job slot. -/
def jDie (k : Nat) : Nat := k / 256
/-- The core within the die. -/
def jCore (k : Nat) : Nat := k / 4 % 64
/-- The global core number `64 * die + core`. -/
def jCoreKey (k : Nat) : Nat := k / 4
/-- The global cluster number `16 * die + cluster`. -/
def jCluster (k : Nat) : Nat := k / 16
/-- The slot within the core. -/
def jSlot (k : Nat) : Nat := k % 4

/-- The resident job in a slot. -/
def jobAt (s : State) (k : Nat) : Option Job := smGet s.jobs k
/-- Write the job in a slot. -/
def setJob (s : State) (k : Nat) (j : Job) : State := { s with jobs := smSet s.jobs k j }
/-- The slot is free. -/
def dropJob (s : State) (k : Nat) : State := { s with jobs := smErase s.jobs k }
/-- The slot in which job `uid` is resident. -/
def slotOf (s : State) (uid : Nat) : Option Nat := (s.jobs.find? (fun e => e.2.uid == uid)).map (·.1)

/-! ### Header declarations (R37) -/

def Job.nbpre (j : Job) : Bool := j.hdr0.getLsbD 63
def Job.nSpill (j : Job) : Nat := bits j.hdr0.toNat 53 10
def Job.nSlot (j : Job) : Nat := bits j.hdr0.toNat 46 7
def Job.nAcc (j : Job) : Nat := bits j.hdr0.toNat 42 4
def Job.nBar (j : Job) : Nat := bits j.hdr0.toNat 38 4
/-- QMAP bit n: queue n is used. -/
def Job.qmap (j : Job) (n : Nat) : Bool := j.hdr0.getLsbD (22 + n)
def Job.nSreg (j : Job) : Nat := bits j.hdr0.toNat 0 7
/-- The declared address registers of an engine stream. -/
def Job.nAreg (j : Job) : EStream → Nat
  | .L => bits j.hdr0.toNat 7 5
  | .X => bits j.hdr0.toNat 12 5
  | .T => bits j.hdr0.toNat 17 5
def Job.leaseMax (j : Job) : Nat := bits j.hdr1.toNat 19 8
/-- FMTU bit n: FMTn is used. -/
def Job.fmtu (j : Job) (n : Nat) : Bool := j.hdr1.getLsbD (16 + n)
/-- The engine stream is present (STRM). -/
def Job.has (j : Job) : EStream → Bool
  | .L => j.hdr1.getLsbD 13
  | .X => j.hdr1.getLsbD 14
  | .T => j.hdr1.getLsbD 15
/-- The declared window in bytes. -/
def Job.spad (j : Job) : Nat := bits j.hdr1.toNat 0 12 * 1024

/-! ### S registers and predicates (R14) -/

/-- s0 reads zero. -/
def Job.s (j : Job) (r : BitVec 6) : Word := if r = 0 then 0 else j.core.S.s[r.toNat]
/-- A write to s0 is ignored. -/
def Job.setS (j : Job) (r : BitVec 6) (v : Word) : Job :=
  if r = 0 then j else { j with core := { j.core with S := { j.core.S with s := j.core.S.s.set r.toNat v } } }
/-- p0 reads true. -/
def Job.p (j : Job) (r : BitVec 3) : Bool := r == 0 || j.core.S.p.getLsbD r.toNat
/-- A write to p0 is ignored. -/
def Job.setP (j : Job) (r : BitVec 3) (v : Bool) : Job :=
  if r = 0 then j
  else { j with core := { j.core with S := { j.core.S with
    p := if v then j.core.S.p ||| (1#8 <<< r.toNat) else j.core.S.p &&& ~~~(1#8 <<< r.toNat) } } }
/-- The S PC. -/
def Job.pc (j : Job) : Word := j.core.S.pc
/-- Move the S PC. -/
def Job.setPc (j : Job) (v : Word) : Job := { j with core := { j.core with S := { j.core.S with pc := v } } }
/-- The S PC moves to the next word. -/
def Job.next (j : Job) : Job := j.setPc (j.pc + 4)

/-- R15: an s register the job may name; a handler may name all (R374). -/
def Job.sOk (j : Job) (r : BitVec 6) : Bool := j.level == .handler || r == 63 || decide (r.toNat < j.nSreg)

/-- The first of the named s registers beyond the header. -/
def Job.sBad (j : Job) (rs : List (BitVec 6)) : Option Nat := (rs.find? (fun r => !j.sOk r)).map (·.toNat)

/-! ### FLAGS and ELOG (R34, R35) -/

/-- Set sticky flags: sets OR together. -/
def Job.orFlags (j : Job) (f : BitVec 9) : Job := { j with core := { j.core with flags := j.core.flags ||| f } }
/-- The bit of DZ. -/
def flagDZ : BitVec 9 := 2#9
/-- The bit of ZE. -/
def flagZE : BitVec 9 := 64#9

/-- An operand-error record arrives: a fifth replaces the newest and sets its overflow bit (R35). -/
def elogAdd (l : List Word) (r : Word) : List Word :=
  if l.length < 4 then l ++ [r] else l.take 3 ++ [r ||| (1 <<< 62)]

/-! ### Engine streams (R16, R17) -/

/-- The state of an engine stream. -/
def Job.eng (j : Job) : EStream → Eng
  | .L => j.core.L
  | .X => j.core.X
  | .T => j.core.T
/-- Write the state of an engine stream. -/
def Job.setEng (j : Job) (e : EStream) (v : Eng) : Job :=
  match e with
  | .L => { j with core := { j.core with L := v } }
  | .X => { j with core := { j.core with X := v } }
  | .T => { j with core := { j.core with T := v } }
/-- The sequence counter of a stream (R28). -/
def Job.seq (j : Job) : Stream → Nat
  | .S => j.core.S.seq
  | .L => j.core.L.seq
  | .X => j.core.X.seq
  | .T => j.core.T.seq
/-- The PC of a stream's next word. -/
def Job.pcOf (j : Job) : Stream → Word
  | .S => j.core.S.pc
  | .L => j.core.L.pc
  | .X => j.core.X.pc
  | .T => j.core.T.pc
/-- The code of a stream in TRAPPC, cuts and trace records (R31). -/
def streamCode : Stream → Nat
  | .S => 0
  | .L => 1
  | .X => 2
  | .T => 3
/-- The largest sequence number (R28). -/
def seqMax : Nat := 2 ^ 48 - 1

/-! ### What orders accesses of the window (R154, R227, R321)

Words of L, X and T know which words have retired before them: what tokens, queue entries and joins told their stream. A word's number counts
from the job's first residence on; knowledge of another job's words comes with what S acquires. -/

/-- The key of the words of a stream of a job in a clock; clocks of access paths have keys below 8 (mod 16). -/
def winKey (uid : Nat) (e : EStream) : Nat := 16 * uid + 8 + streamCode e.toStream
/-- The key of a near-memory job of a job. -/
def nmKey (uid h : Nat) : Nat := 16 * (uid + 2 ^ 128 * (h + 1)) + 12
/-- The part of a clock that tells of windows. -/
def winPart (v : VC) : VC := v.filter (fun e => decide (8 ≤ e.1 % 16))
/-- The number of word `n` of a stream over all residences of the job. -/
def Job.winNum (j : Job) (n : Nat) : Nat := 2 ^ 48 * j.epoch + n
/-- What a stream knows. -/
def Job.know (j : Job) (e : EStream) : VC := smGetD j.core.wk (streamCode e.toStream) []
/-- A stream learns. -/
def Job.learnWin (j : Job) (e : EStream) (v : VC) : Job :=
  { j with core := { j.core with wk := smSet j.core.wk (streamCode e.toStream) (vcJoin (j.know e) v) } }
/-- What is known once word `n` of the stream has retired. -/
def Job.knowDone (j : Job) (e : EStream) (n : Nat) : VC := smSet (j.know e) (winKey j.uid e) (j.winNum n)

/-! ### Queues and tokens (R19 to R25) -/

/-- The entries of a queue, oldest first. -/
def Job.queue (j : Job) (n : Nat) : List Word := j.core.Q.q.toList.getD n []
/-- Occupancy for the producer: entries and reserved places (R25). -/
def Job.qFull (j : Job) (n : Nat) : Bool := decide (8 ≤ (j.queue n).length + j.core.Q.res.toList.getD n 0)
/-- Append an entry. -/
def Job.qPush (j : Job) (n : Nat) (v : Word) : Job :=
  { j with core := { j.core with Q := { j.core.Q with q := j.core.Q.q.setIfInBounds n (j.queue n ++ [v]) } } }
/-- Remove the `m` oldest entries, with what they tell their consumer (R154). -/
def Job.qDrop (j : Job) (n m : Nat) : Job :=
  { j with core := { j.core with Q := { j.core.Q with
    q := j.core.Q.q.setIfInBounds n ((j.queue n).drop m), qk := smSet j.core.Q.qk n ((smGetD j.core.Q.qk n []).drop m) } } }
/-- Remove the oldest entry. -/
def Job.qPop (j : Job) (n : Nat) : Job := j.qDrop n 1
/-- Reserve a place (`+ 1`) or give it back (`- 1`). -/
def Job.qRes (j : Job) (n : Nat) (take : Bool) : Job :=
  let v := j.core.Q.res.toList.getD n 0
  { j with core := { j.core with Q := { j.core.Q with res := j.core.Q.res.setIfInBounds n (if take then v + 1 else v - 1) } } }

/-- Token FIFOs by number: lx 0, xl 1, xt 2, tx 3. Which FIFO each token bit of a stream names (R24): pop-prev, pop-next, push-prev,
push-next. -/
def tokFifo (e : EStream) (bit : Nat) : Nat :=
  match e, bit with
  | .L, 2 => 1
  | .L, _ => 0
  | .X, 3 => 0
  | .X, 2 => 3
  | .X, 1 => 1
  | .X, _ => 2
  | .T, 3 => 2
  | .T, _ => 3
/-- Tokens in a FIFO. -/
def Job.tok (j : Job) (f : Nat) : Nat := j.core.Q.tok.toList.getD f 0
/-- Reserved places of a FIFO. -/
def Job.tokRes (j : Job) (f : Nat) : Nat := j.core.Q.tokres.toList.getD f 0
/-- Set tokens and reserved places of a FIFO. -/
def Job.setTok (j : Job) (f n r : Nat) : Job :=
  { j with core := { j.core with Q := { j.core.Q with
    tok := j.core.Q.tok.setIfInBounds f n, tokres := j.core.Q.tokres.setIfInBounds f r } } }
/-- What the tokens of a FIFO tell the word that pops them. -/
def Job.tk (j : Job) (f : Nat) : List VC := smGetD j.core.Q.tk f []
/-- Set them. -/
def Job.setTk (j : Job) (f : Nat) (l : List VC) : Job := { j with core := { j.core with Q := { j.core.Q with tk := smSet j.core.Q.tk f l } } }
/-- The FIFOs a word pops. -/
def tokPops (e : EStream) (t : BitVec 4) : List Nat :=
  (if t.getLsbD 3 then [tokFifo e 3] else []) ++ (if t.getLsbD 2 then [tokFifo e 2] else [])
/-- The FIFOs a word pushes. -/
def tokPushes (e : EStream) (t : BitVec 4) : List Nat :=
  (if t.getLsbD 1 then [tokFifo e 1] else []) ++ (if t.getLsbD 0 then [tokFifo e 0] else [])
/-- Every FIFO the word pops holds a token and every FIFO it pushes has a free place (R25). -/
def Job.tokReady (j : Job) (e : EStream) (t : BitVec 4) : Bool :=
  (tokPops e t).all (fun f => decide (0 < j.tok f)) && (tokPushes e t).all (fun f => decide (j.tok f + j.tokRes f < 8))
/-- At issue: remove the popped tokens and reserve the pushed places (R25). -/
def Job.tokIssue (j : Job) (e : EStream) (t : BitVec 4) : Job :=
  let j := (tokPops e t).foldl (fun (j : Job) f => (j.setTok f (j.tok f - 1) (j.tokRes f)).setTk f ((j.tk f).drop 1)) j
  (tokPushes e t).foldl (fun (j : Job) f => j.setTok f (j.tok f) (j.tokRes f + 1)) j
/-- At retirement of the stream's next word: the reserved places become tokens (R25), which tell what the word comes after, and the word itself. -/
def Job.tokRetire (j : Job) (e : EStream) (t : BitVec 4) : Job :=
  (tokPushes e t).foldl (fun (j : Job) f => (j.setTok f (j.tok f + 1) (j.tokRes f - 1)).setTk f (j.tk f ++ [j.knowDone e (j.seq e.toStream + 1)])) j
/-- A journaled word gives its reserved places back (R364). -/
def Job.tokUnres (j : Job) (e : EStream) (t : BitVec 4) : Job :=
  (tokPushes e t).foldl (fun (j : Job) f => j.setTok f (j.tok f) (j.tokRes f - 1)) j

/-- The engine stream's first inbound queue (R22). -/
def popQueue : EStream → Nat
  | .L => 0
  | .X => 4
  | .T => 8

/-! ### The status buffer and q15 (R23) -/

/-- Places of q15 and the buffer taken or reserved. -/
def Job.statusTaken (j : Job) : Nat := (j.queue 15).length + j.core.Q.sbuf.length + j.core.Q.sbres
/-- Entries leave the buffer for q15 in order while q15 has room. -/
def Job.drainStatus (j : Job) : Job :=
  let room := 8 - (j.queue 15).length
  let mv := j.core.Q.sbuf.take room
  { j with core := { j.core with Q := { j.core.Q with
    q := j.core.Q.q.setIfInBounds 15 (j.queue 15 ++ mv), sbuf := j.core.Q.sbuf.drop room } } }
/-- The entry with EVENT 3 (R332). -/
def lostNotice : Word := BitVec.ofNat 64 (1 * 2 ^ 60 + 3 * 2 ^ 56)
/-- A place has freed: an overflow stores its notice ahead of later ingress entries and clears the bit. -/
def Job.statusFreed (j : Job) : Job :=
  if j.core.Q.ovf && decide (j.statusTaken < 72) then
    { j with core := { j.core with Q := { j.core.Q with sbuf := j.core.Q.sbuf ++ [lostNotice], ovf := false } } }
  else j
/-- Change the queues of the job itself: while its handler runs, they are in the context that the trap saved. -/
def Job.statusMap (j : Job) (f : Queues → Queues) : Job :=
  match j.snap with
  | some c => { j with snap := some { c with Q := f c.Q } }
  | none => { j with core := { j.core with Q := f j.core.Q } }
/-- A near-memory entry fills the place its NMGO reserved. -/
def Job.statusNm (j : Job) (v : Word) : Job := j.statusMap (fun q => { q with sbuf := q.sbuf ++ [v], sbres := q.sbres - 1 })
/-- An ingress entry is stored in a free place, else the overflow bit is set. -/
def Job.statusIngress (j : Job) (v : Word) : Job :=
  j.statusMap (fun q => if (q.q.toList.getD 15 []).length + q.sbuf.length + q.sbres < 72 then { q with sbuf := q.sbuf ++ [v] } else { q with ovf := true })

/-- Change a job wherever it is, resident or saved. A resident job's q15 then takes what fits. -/
def updJob (s : State) (uid : Nat) (f : Job → Job) : State :=
  { s with jobs := s.jobs.map (fun e => if e.2.uid = uid then (e.1, (f e.2).drainStatus) else e),
           saved := s.saved.map (fun e => if e.2.uid = uid then (e.1, f e.2) else e) }

/-! ### Identity (R31) -/

/-- JOBID of a job in slot `k`. -/
def jobid (k : Nat) (j : Job) : Nat :=
  j.fdom % 4096 * 2 ^ 40 + j.serial % 2 ^ 24 * 2 ^ 16 + j.epoch % 16 * 2 ^ 12 + jDie k % 4 * 2 ^ 8 + jCore k * 4 + jSlot k

/-- The launch of a job. -/
def launchAt (s : State) (l : Nat) : Option Launch := smGet s.launches l
/-- Write a launch. -/
def setLaunch (s : State) (l : Nat) (v : Launch) : State := { s with launches := smSet s.launches l v }

/-- The job's domain registers. -/
def jobDomain (s : State) (j : Job) : Domain := domainSt s j.fdom

/-! ### Trace (R436) -/

/-- Tracing is on for a stream of the domain at level `lv` or above. -/
def traceOn (s : State) (f : Nat) (st : Stream) (lv : Nat) : Bool :=
  let d := domainSt s f
  d.trCtl.getLsbD 63 && d.trCtl.getLsbD (4 + streamCode st) && decide (lv ≤ bits d.trCtl.toNat 0 2)

/-- The trace ring is full. -/
def traceFull (d : Domain) : Bool :=
  decide ((d.trTail.toNat + 2 ^ 32 - d.trHead.toNat) % 2 ^ 32 = 2 ^ (bits d.trBase.toNat 0 5))

/-- Write a trace record; a full ring drops it and counts it. A replay writes none. -/
def traceRecord (s : State) (k : Nat) (j : Job) (st : Stream) (kind lv seq w2 w3 : Nat) : State :=
  if j.replay.isSome || !traceOn s j.fdom st lv then s
  else
    let d := domainSt s j.fdom
    if traceFull d then setDomain s j.fdom { d with trLost := BitVec.ofNat 64 (satInc 64 d.trLost.toNat) }
    else
      let pa := bits d.trBase.toNat 5 43 * 32 + 32 * (d.trTail.toNat % 2 ^ bits d.trBase.toNat 0 5)
      let w1 := streamCode st * 2 ^ 62 + kind * 2 ^ 56 + seq % 2 ^ 48
      let s := if (rangeOf s pa).isMem then agentSetBytes s pa (natLe 8 (jobid k j) ++ natLe 8 w1 ++ natLe 8 w2 ++ natLe 8 w3) else s
      setDomain s j.fdom { d with trTail := BitVec.ofNat 64 ((d.trTail.toNat + 1) % 2 ^ 32) }

/-- CYCLE of a job's die. [DESIGN CHOICE, unsafe: log entry 7] -/
def cycleOf (s : State) (k : Nat) : Nat := (dieSt s (jDie k)).cycle

/-- A WORD record at a retirement. -/
def traceWord (s : State) (k : Nat) (j : Job) (st : Stream) (pc : Word) (seq : Nat) : State :=
  traceRecord s k j st 1 1 seq pc.toNat (cycleOf s k)
/-- A FLOW record. -/
def traceFlow (s : State) (k : Nat) (j : Job) (st : Stream) (pc : Word) : State :=
  traceRecord s k j st 2 0 (j.seq st + 1) pc.toNat (cycleOf s k)
/-- A VALUE record of 8 bytes the job took in. [DEDUCED, unsafe: log entry 76] -/
def traceValue (s : State) (k : Nat) (j : Job) (st : Stream) (v at_ : Nat) : State :=
  traceRecord s k j st 3 2 (j.seq st + 1) v at_

/-- The next VALUE record of a stream in a replay. -/
def Replay.take (r : Replay) (st : Stream) : Option (Nat × Word × Word) :=
  (r.values.find? (fun v => v.1 == streamCode st)).map (fun v => v.2)

/-- Drop the next VALUE record of a stream. -/
def Replay.drop (r : Replay) (st : Stream) : Replay :=
  { r with values := r.values.eraseP (fun v => v.1 == streamCode st) }

/-- Eight bytes `v` that the job takes in from `at_`: a VALUE record (R436); in a replay the recorded value instead, and a divergence when
the record's sequence number or address differs (R437). -/
def takeIn (s : State) (k : Nat) (j : Job) (st : Stream) (v at_ : Nat) : State × Job × Nat :=
  let s := traceValue s k j st v at_
  match j.replay with
  | none => (s, j, v)
  | some r =>
    match r.take st with
    | some (n, val, a) =>
      if n = j.seq st + 1 ∧ a.toNat = at_ then (s, { j with replay := some (r.drop st) }, val.toNat)
      else (s, { j with replay := some { r with diverged := true } }, v)
    | none => (s, { j with replay := some { r with diverged := true } }, v)

/-- A level-2 recording stream waits while the ring is full. -/
def traceStall (s : State) (j : Job) (st : Stream) : Bool := j.replay.isNone && traceOn s j.fdom st 2 && traceFull (domainSt s j.fdom)

/-! ### The scratchpad window (R33, R65) -/

/-- A byte of the window. -/
def winByte (w : Window) (a : Nat) : Byte :=
  match smGet w.bytes a with
  | some b => b
  | none => match w.free with
    | none => 0
    | some n => Config.freeWindow n a
/-- `n` bytes of the window. -/
def winBytes (w : Window) (a : Nat) : Nat → List Byte
  | 0 => []
  | n + 1 => winByte w a :: winBytes w (a + 1) n
/-- Write a byte: the canonical form drops what an unlisted byte reads as, where that is known. -/
def winSet (w : Window) (a : Nat) (b : Byte) : Window :=
  { w with bytes := if w.free = none then memWrite w.bytes a b else smSet w.bytes a b }
/-- A written byte enters the mask of its bank word; the poison ends when all 16 bytes have been written (R420). -/
def winUnpoison (w : Window) (a : Nat) : Window :=
  match smGet w.poison (a / 16) with
  | none => w
  | some m =>
    let m' := m ||| 2 ^ (a % 16)
    { w with poison := if m' = 2 ^ 16 - 1 then smErase w.poison (a / 16) else smSet w.poison (a / 16) m' }
/-- Write bytes from `a` up; granule tags are the caller's business. -/
def winWrite (w : Window) (a : Nat) : List Byte → Window
  | [] => w
  | b :: r => winWrite (winUnpoison (winSet w a b) a) (a + 1) r
/-- The granules an access of `n` bytes at `a` touches (R65). -/
def granulesOf (a n : Nat) : List Nat := if n = 0 then [] else List.range' (a / 64) ((a + n - 1) / 64 - a / 64 + 1)
/-- Make granules untagged. -/
def winUntag (w : Window) (gs : List Nat) : Window := { w with tags := gs.foldl smErase w.tags }

/-! ### Unordered accesses of the window (R154) -/

/-- The address a free window byte is named by. -/
def winName (a : Nat) : Nat := 2 ^ 60 + a
/-- Byte `a` lies in a range. -/
def inSpan (a : Nat) (r : Int × Nat) : Bool := decide (r.1 ≤ a) && decide ((a : Int) < r.1 + r.2)
/-- The addresses of two ranges together. -/
def meetCells (r x : Int × Nat) : List Nat :=
  let lo := max 0 (max r.1 x.1)
  let hi := min (r.1 + r.2) (x.1 + x.2)
  if hi ≤ lo then [] else List.range' lo.toNat (hi - lo).toNat
/-- The range of a recorded access. -/
def WinAcc.span (r : WinAcc) : Int × Nat := (r.lo, r.len)
/-- Nothing orders the recorded access before one of accessor `key` that knows `know`. -/
def WinAcc.loose (r : WinAcc) (key : Nat) (know : VC) : Bool := r.key != key && !vcCovers know r.key r.num
/-- The range lies within another. -/
def spanIn (r x : Int × Nat) : Bool := decide (x.1 ≤ r.1) && decide (r.1 + r.2 ≤ x.1 + x.2)
/-- Undefined bits a word in flight may land: number `n` of 64 bits. -/
def blurWord (fresh n : Nat) : Nat := leNat ((List.range 8).map (fun i => Config.freeByte fresh (2 ^ 62 + 8 * n + i)))
/-- What a word lands that has read bytes which became undefined. [DESIGN CHOICE, safe: log entry 51] -/
def Effect.blur (e : Effect) (fresh : Nat) : Effect :=
  let acc : Acc := ⟨(List.range 4096).foldl (fun (m : SMap (BitVec 32)) i => smPut 0 m i (BitVec.ofNat 32 (blurWord fresh (128 + i)))) [], [], []⟩
  let data : Mem := memWriteBytes [] 0 ((List.range 3072).map (fun i => Config.freeByte fresh (2 ^ 63 + i)))
  { e with win := e.win.map (fun c => (c.1, Config.freeByte fresh (winName c.1)))
           mask := e.mask.map (fun m => (m.1, BitVec.ofNat 2048 ((List.range 32).foldl (fun v i => v * 2 ^ 64 + blurWord fresh i) 0)))
           accs := e.accs.map (fun a => (a.1, acc))
           slots := e.slots.map (fun t => (t.1, t.2.map (fun t => { t with data := data })))
           flags := e.flags ||| BitVec.ofNat 9 (blurWord fresh 33)
           push := e.push.map (fun _ => BitVec.ofNat 64 (blurWord fresh 34)) }
/-- Accessor `key` with number `num` accesses window ranges: bytes that an unordered access shares, one of the two a write, are left undefined, in
the window and for a word of X in flight that has read them. [DESIGN CHOICE, safe: log entry 51] -/
def Job.winTouch (j : Job) (fresh key num : Nat) (know : VC) (spans : List (Int × Nat)) (write : Bool) : Job :=
  let hit := j.core.wacc.filter (fun r => r.loose key know && (write || r.write))
  let cells := fun (r : WinAcc) => (spans.map (meetCells r.span)).flatten
  let win := hit.foldl (fun w r => (cells r).foldl (fun w a => winSet w a (Config.freeByte fresh (winName a))) w) j.core.win
  let gone := fun (r : WinAcc) => !r.loose key know && (write || !r.write) && spans.any (spanIn r.span)
  let acc := j.core.wacc.filter (fun r => !gone r) ++ (spans.filter (fun x => x.2 != 0)).map (fun x => ⟨key, num, x.1, x.2, write⟩)
  let late := fun (i : InFlight) => hit.any (fun r => r.key == winKey j.uid .X && r.num == j.winNum i.seq && !(cells r).isEmpty)
  let fl := j.core.X.inflight.map (fun i => if late i then { i with eff := i.eff.blur fresh } else i)
  { j with core := { j.core with win := win, wacc := acc, X := { j.core.X with inflight := fl } } }
/-- A word of the job's own stream `e` accesses window ranges. -/
def Job.winUse (j : Job) (fresh : Nat) (e : EStream) (seq : Nat) (know : VC) (spans : List (Int × Nat)) (write : Bool) : Job :=
  j.winTouch fresh (winKey j.uid e) (j.winNum seq) know spans write
/-- Adjacent cells as ranges. -/
def cellSpans : List Nat → List (Int × Nat)
  | [] => []
  | a :: r => match cellSpans r with
    | (x, n) :: t => if (a : Int) + 1 = x then ((a : Int), n + 1) :: t else ((a : Int), 1) :: (x, n) :: t
    | [] => [((a : Int), 1)]

/-! ### What an X word lands at retirement (R156, R191) -/

/-- Write single cells and untag their granules (R154). -/
def winCells (w : Window) : List Host.Cell → Window
  | [] => w
  | (a, b) :: r => winCells (winUntag (winUnpoison (winSet w a b) a) [a / 64]) r

/-- The effect of a vector or matrix word on its job. -/
def Job.land (j : Job) (e : Effect) : Job :=
  let c := j.core
  let c := { c with win := winCells c.win e.win }
  let c := { c with win := { c.win with tags := e.tags.foldl (fun m (t : Nat × Nat × Nat) => smSet m t.1 (t.2.1, t.2.2)) c.win.tags } }
  let c := match e.mask with
    | some (n, v) => if n = 0 then c else { c with masks := c.masks.setIfInBounds n v }
    | none => c
  let c := { c with accs := e.accs.foldl (fun m (a : Nat × Acc) => smPut Acc.reset m a.1 a.2) c.accs }
  let c := { c with slots := e.slots.foldl (fun m (a : Nat × Option Slot) => match a.2 with | some v => smSet m a.1 v | none => smErase m a.1) c.slots }
  let c := { c with flags := c.flags ||| e.flags, elog := e.elogs.foldl elogAdd c.elog,
                    vs := e.vs.getD c.vs, ms := e.ms.getD c.ms, thr := e.thr.getD c.thr }
  { j with core := c }

end Sys2Proof.Machine
end

