-- ==== Sys2Proof/Machine/Start.lean ====
section
/-!
DEFINITION. A job as it starts (R11 to R14, R31, R33): every register at its job-start value.
-/
namespace Sys2Proof.Machine

/-- An engine stream at job start: PC at the entry address, all else empty (R11). -/
def newEng (pc : Word) : Eng := ⟨pc, Vector.replicate 16 0, [], 0, CShape.reset, [], [], none, false⟩

/-- Queues and token FIFOs at job start: empty (R11). -/
def newQueues : Queues := ⟨Vector.replicate 16 [], Vector.replicate 16 0, [], 0, false, Vector.replicate 4 0, Vector.replicate 4 0, [], []⟩

/-- The s registers at job start (R14): indices in s1 to s5, the ticket in s6, the argument pointer in s7. -/
def newS (idx : List Nat) (ticket : Nat) (argp : Word) : Vector Word 64 :=
  let v : Vector Word 64 := Vector.replicate 64 0
  let v := ((List.range 5).foldl (fun (v : Vector Word 64) i => v.setIfInBounds (1 + i) (BitVec.ofNat 64 (idx.getD i 0))) v)
  (v.setIfInBounds 6 (BitVec.ofNat 64 (ticket % 2 ^ 48))).setIfInBounds 7 argp

/-- The default threshold table (R193). -/
def thrDefault : Word := 0x0340022001100008

/-- The architectural state at job start: entry addresses in S, L, X, T order, the window granted, LEASEB (R31). -/
def newCore (entry : List Word) (s : Vector Word 64) (lease : Nat) (win : Window) : JobCore :=
  let e := fun i => entry.getD i 0
  { S := ⟨e 0, s, 1, 0⟩, L := newEng (e 1), X := newEng (e 2), T := newEng (e 3), Q := newQueues, spill := [], vs := none, ms := none,
    masks := Vector.ofFn (fun (i : Fin 8) => if i.val = 0 then BitVec.allOnes 2048 else 0), thr := thrDefault, flags := 0, elog := [],
    fmt := Vector.replicate 3 0, rlo := 0, rhi := 0, rstat := 0, rpos := 0, leaseb := Nat.min 32 lease, lease := none,
    accs := [], slots := [], win := win, digest := Digest.reset, wk := [], wacc := [] }

/-- A window of `size` bytes at `base`, contents zero or the free contents of a grant (R33). -/
def newWindow (size base : Nat) (free : Option Nat) : Window := ⟨size, base, [], free, [], []⟩

/-- The clocks of a path that has made no access: what happens before the launch's jobs (R256). -/
def newClk (vc : VC) : PathClk := ⟨vc, [], vc, [], [], [], []⟩

/-- A job placed in a slot. [DEDUCED, unsafe: log entry 103] -/
def newJob (launch ticket serial fdom : Nat) (hdr0 hdr1 : Word) (core : JobCore) (ctx : Word) (order time : Nat) (vc : VC) : Job :=
  { uid := 2 ^ 48 * launch + ticket, launch := launch, ticket := ticket, serial := serial, fdom := fdom, hdr0 := hdr0, hdr1 := hdr1,
    epoch := 0, core := core, level := .job, phase := .running, pend := .none, trapc := 0, trapv := 0, trappc := 0, trapIn := false,
    snap := none, region := none, ctxAddr := ctx, preempt := none, dispatched := order, resident := time, watch := time, lastSave := 0,
    lastRestore := 0, saveStart := 0, triggered := false, nmHandles := [], stallStart := [], bpSkip := [],
    clk := Vector.replicate 7 (newClk vc), shown := [], posted := [], replay := none, home := 0, lookup := none }

end Sys2Proof.Machine
end

