-- ==== Sys2Proof/Machine/Order.lean ====
section
/-!
DEFINITION. Happens-before and races (R252 to R262): the clock of each access path of a job, fences and releases, acquires of what a
location's release left, and the race metadata of a line. An access of path `p` whose clock entry is `t` happens before another one
when the other's clock covers `t`.
-/
namespace Sys2Proof.Machine

/-- Whether the instance of scope `sc` that holds core `c` contains core `d` (R254). Numbers from `deviceAgent` up stand for agents that
only the device instance contains. -/
def inInst (sc c d : Nat) : Bool :=
  match sc with
  | 0 => c == d
  | 1 => c / 4 == d / 4
  | 2 => c / 64 == d / 64
  | _ => true

/-- The dispatch hardware as an agent (R355). -/
def deviceAgent : Nat := 2 ^ 32

/-- Both instances contain both agents (R256). -/
def edgeOk (rsc rcore asc acore : Nat) : Bool := inInst rsc rcore acore && inInst asc acore rcore

/-! ### Clocks of paths -/

/-- The clock of a path. -/
def Job.clkOf (j : Job) (p : Nat) : PathClk := j.clk.toList.getD p (newClk [])
/-- Write the clock of a path. -/
def Job.setClk (j : Job) (p : Nat) (c : PathClk) : Job := { j with clk := j.clk.setIfInBounds p c }
/-- The key of a path of a job in a vector clock. -/
def clkKey (j : Job) (p : Nat) : Nat := 16 * j.uid + p

/-- Clocks by scope together. -/
def limJoin (a : SMap VC) (b : SMap VC) : SMap VC := b.foldl (fun (m : SMap VC) e => smSet m e.1 (vcJoin (smGetD m e.1 []) e.2)) a
/-- Everything that clocks by scope hold for scope `sc`. -/
def limAt (m : SMap VC) (sc : Nat) : VC := m.foldl (fun (v : VC) e => if sc ≤ e.1 then vcJoin v e.2 else v) []
/-- The scope key of a clock that passes on everywhere. -/
def noLimit : Nat := 5

/-- The fence clocks in force for word number `n`. -/
def inForce (n : Nat) (l : List (Nat × SMap VC)) : SMap VC := l.foldl (fun (c : SMap VC) e => if e.1 < n then limJoin c e.2 else c) []
/-- The fence clocks not yet in force. -/
def notYet (n : Nat) (l : List (Nat × SMap VC)) : List (Nat × SMap VC) := l.filter (fun e => !decide (e.1 < n))

/-- The fence clocks that an access of word number `n` of a path has before it. -/
def PathClk.fences (c : PathClk) (n : Nat) (load store : Bool) : SMap VC :=
  let v := if load then limJoin c.lim (inForce n c.pl) else c.lim
  if store then limJoin v (inForce n c.ps) else v

/-- What happens before an access of word number `n` of path `p`. -/
def Job.clkBefore (j : Job) (p n : Nat) (load store : Bool) : VC :=
  let c := j.clkOf p
  vcJoin c.all (limAt (c.fences n load store) 0)

/-- What a release of the S path at scope `sc` that is no store carries (R134, R136, R138, R144, R276): its past, with the fences to S before it. -/
def Job.relClk (j : Job) (sc : Nat) : VC :=
  let c := j.clkOf 0
  vcJoin c.all (limAt (c.fences 1 false true) sc)

/-- The access's own time. -/
def Job.clkTime (j : Job) (p : Nat) : Nat := smGetD (j.clkOf p).all (clkKey j p) 0 + 1

/-- The path after the access. -/
def Job.clkAfter (j : Job) (p n : Nat) (load store : Bool) : Job :=
  let c := j.clkOf p
  let f := c.fences n load store
  let v := smSet (vcJoin c.all (smGetD f noLimit [])) (clkKey j p) (j.clkTime p)
  let lim := smErase f noLimit
  let c := { c with all := v, lim := lim, ld := if load then vcJoin v (limAt lim 0) else c.ld, pl := if load then notYet n c.pl else c.pl,
                    ps := if store then notYet n c.ps else c.ps }
  j.setClk p c

/-- The scope at which a store of word number `n` is a release (R256): the widest a fence gave the path. -/
def Job.relScope (j : Job) (p n : Nat) : Option Nat :=
  (j.clkOf p).rel.foldl (fun (a : Option Nat) e => if e.1 < n then some (Nat.max e.2 (a.getD 0)) else a) none

/-- A path obtains a clock by an acquire: of a release, a barrier, a trigger, a completion. -/
def Job.clkJoin (j : Job) (p : Nat) (v : VC) : Job := let c := j.clkOf p; j.setClk p { c with all := vcJoin c.all v, ld := vcJoin c.ld v }

/-! ### Engine words that S can show to have issued (R132) -/

/-- A path on which a fence counts only the words that S can show to have issued. -/
def enginePath (p : Nat) : Bool := decide (1 ≤ p) && decide (p ≤ 3)

/-- The clock of a path's accesses that a fence has on its from side. -/
def Job.fromClk (j : Job) (p : Nat) : PathClk := if enginePath p then smGetD j.shown p (newClk []) else j.clkOf p

/-- The engine stream of a path, if it is one. -/
def pathStream : Nat → Option EStream
  | 1 => some .L
  | 2 => some .T
  | 3 => some .X
  | _ => none

/-- Queue entries tell their consumer (R154). -/
def Job.tellQ (j : Job) (q : Nat) (v : VC) : Job :=
  { j with core := { j.core with Q := { j.core.Q with qk := smSet j.core.Q.qk q (smGetD j.core.Q.qk q [] ++ [v]) } } }

/-- What S knows of windows (R154, R227). -/
def Job.sKnow (j : Job) : VC := winPart (j.relClk 0)

/-- The retiring word of path `p` has pushed an entry into queue `q`. -/
def Job.post (j : Job) (q p : Nat) : Job :=
  let j := { j with posted := smSet j.posted q (smGetD j.posted q [] ++ [j.clkOf p]) }
  match pathStream p with
  | some e => j.tellQ q (j.knowDone e (j.seq e.toStream + 1))
  | none => j

/-- The path of the words that push queue `q`. -/
def queuePath (q : Nat) : Nat := match q with | 12 => 3 | 13 => 2 | _ => 1

/-- S pops an entry of queue `q`: the word that pushed it, and those before it, have issued. -/
def Job.popShows (j : Job) (q : Nat) : Job :=
  let j := j.clkJoin 0 ((smGetD j.core.Q.qk q []).headD [])
  match smGetD j.posted q [] with
  | c :: r => { j with posted := smSet j.posted q r, shown := smSet j.shown (queuePath q) c }
  | [] => j

/-- S has joined the streams of these paths: every word of theirs has issued; the streams know what S knows, and S what they know (R154). -/
def Job.joinShows (j : Job) (ps : List Nat) : Job :=
  let j := { j with shown := ps.foldl (fun (m : SMap PathClk) p => smSet m p (j.clkOf p)) j.shown }
  let es := ps.filterMap pathStream
  let j := es.foldl (fun (j : Job) e => j.clkJoin 0 (j.knowDone e (j.seq e.toStream))) j
  es.foldl (fun (j : Job) e => j.learnWin e j.sKnow) j

/-- A release seen by a load of a path. -/
def seenAdd (l : List (Nat × Nat × VC)) (sc core : Nat) (v : VC) : List (Nat × Nat × VC) :=
  if l.any (fun e => e.1 == sc && e.2.1 == core) then
    l.map (fun e => if e.1 == sc && e.2.1 == core then (sc, core, vcJoin e.2.2 v) else e)
  else l ++ [(sc, core, v)]

/-! ### Fences (R132) -/

/-- Kinds of fence (R131): 0 full, 1 acquire, 2 release. -/
def fenceLoads (kind : Nat) : Bool := kind == 1

/-- The releases that loads have read and a fence at scope `sc` of core `core` acquires. -/
def PathClk.seenAt (c : PathClk) (sc core : Nat) : VC :=
  c.seen.foldl (fun (v : VC) e => if edgeOk e.1 e.2.1 sc core then vcJoin v e.2.2 else v) []

/-- What the from side of path `p` contributes to a fence at scope `sc` by core `core`, by the scope within which it passes on (R276). -/
def Job.fenceFrom (j : Job) (p kind sc core : Nat) : SMap VC :=
  let c := j.fromClk p
  let own := if fenceLoads kind then [(noLimit, c.ld)] else limJoin [(sc, c.all)] (c.lim.map (fun e => (Nat.min sc e.1, e.2)))
  if kind = 2 then own else limJoin own [(noLimit, c.seenAt sc core)]

/-- An acquire or full fence makes the releases that the path's loads read happen before the path's later accesses. -/
def Job.fenceSeen (j : Job) (p sc core : Nat) : Job :=
  let v := (j.fromClk p).seenAt sc core
  let c := j.clkOf p
  j.setClk p { c with all := vcJoin c.all v, ld := vcJoin c.ld v }

/-- The to side of path `p`: words numbered above `thr` obtain the clock. -/
def Job.fenceTo (j : Job) (p kind sc thr : Nat) (v : SMap VC) : Job :=
  let c := j.clkOf p
  let rel := if kind = 1 || c.rel.any (fun e => decide (e.1 ≤ thr) && decide (sc ≤ e.2)) then c.rel else c.rel ++ [(thr, sc)]
  j.setClk p { c with pl := if kind = 2 then c.pl else c.pl ++ [(thr, v)], ps := c.ps ++ [(thr, v)], rel := rel }

/-! ### Releases at a location -/

/-- Take bytes out of the release records of values that stand in `cp`. -/
def relTrim (l : List RelRec) (cp : Option (Nat × Nat)) (pa n : Nat) : List RelRec :=
  (l.map (fun r =>
    if r.copy ≠ cp ∨ r.addr + r.len ≤ pa ∨ pa + n ≤ r.addr then [r]
    else
      (if r.addr < pa then [{ r with len := pa - r.addr }] else []) ++
      (if pa + n < r.addr + r.len then [{ r with addr := pa + n, len := r.addr + r.len - (pa + n) }] else []))).flatten

/-- The releases whose value a read of these bytes in `cp` returns. -/
def relAt (s : State) (cp : Option (Nat × Nat)) (pa n : Nat) : List RelRec :=
  s.M.rel.filter (fun r => r.copy == cp && decide (pa < r.addr + r.len) && decide (r.addr < pa + n))

/-- A write in `cp`: a read-modify-write keeps the earlier releases (R256), every other write replaces them; a releasing store enters its own. -/
def relWrite (s : State) (cp : Option (Nat × Nat)) (pa n : Nat) (rmw : Bool) (rel : List RelRec) : State :=
  { s with M := { s.M with rel := (if rmw then s.M.rel else relTrim s.M.rel cp pa n) ++ rel } }

/-- A scope copy is made of a line that stands in `src`: the releases of its value are read in it too. -/
def relClone (s : State) (line : Nat) (src cp : Option (Nat × Nat)) : State :=
  let l := (relAt s src (64 * line) 64).map (fun r => { r with copy := cp })
  { s with M := { s.M with rel := s.M.rel.filter (fun r => !(r.copy == cp && decide (64 * line ≤ r.addr) && decide (r.addr < 64 * line + 64))) ++ l } }

/-- The records of the bytes of `mask` of a line, a byte each. -/
def relBytes (l : List RelRec) (line mask : Nat) : List RelRec :=
  (l.map (fun r => ((List.range 64).filter (fun i => bitOf mask i && decide (r.addr ≤ 64 * line + i) && decide (64 * line + i < r.addr + r.len))).map
    (fun i => { r with addr := 64 * line + i, len := 1 }))).flatten

/-- A copy of a line leaves with its release records, which are answered. -/
def relTake (s : State) (line : Nat) (cp : Option (Nat × Nat)) : State × List RelRec :=
  let l := relAt s cp (64 * line) 64
  ({ s with M := { s.M with rel := s.M.rel.filter (fun r => !l.contains r) } }, l)

/-- The bytes of `mask` of a line are published into `cp` with their records. -/
def relPut (s : State) (line mask : Nat) (l : List RelRec) (cp : Option (Nat × Nat)) : State :=
  let kept := (List.range 64).foldl (fun (m : List RelRec) i => if bitOf mask i then relTrim m cp (64 * line + i) 1 else m) s.M.rel
  { s with M := { s.M with rel := kept ++ (relBytes l line mask).map (fun r => { r with copy := cp }) } }

/-- A load of path `p` notes the releases it read. -/
def Job.note (j : Job) (p : Nat) (rs : List RelRec) : Job :=
  let c := j.clkOf p
  j.setClk p { c with seen := rs.foldl (fun l r => seenAdd l r.scope r.core r.vc) c.seen }

/-- An acquire of core `core` at scope `sc` obtains the releases it read. -/
def Job.acquire (j : Job) (p sc core : Nat) (rs : List RelRec) : Job :=
  rs.foldl (fun (j : Job) r => if edgeOk r.scope r.core sc core then j.clkJoin p r.vc else j) j

/-! ### Race metadata (R257 to R262) -/

/-- The key of a line's metadata for a fault domain. -/
def raceKey (f line : Nat) : Nat := 4096 * line + f

/-- The bits of `m` outside `n`. -/
def maskMinus (m n : Nat) : Nat := m ^^^ (m &&& n)

/-- An ordinary access by core `core` with the past `v` races with a recorded one. [DEDUCED, unsafe: log entry 28] -/
def raceHit (s : State) (f line core mask : Nat) (write : Bool) (v : VC) : Bool :=
  match smGet s.M.race (raceKey f line) with
  | none => false
  | some m => m.accs.any (fun a => a.core != core && (a.mask &&& mask) != 0 && (write || a.write) && !vcCovers v a.key a.time)

/-- Record an ordinary access: a write makes the metadata live and takes the place of what it covers; a read is recorded when the
metadata is live. -/
def raceNote (s : State) (f line launch : Nat) (a : Acc1) : State :=
  let m := smGet s.M.race (raceKey f line)
  match a.write, m with
  | true, _ =>
    let m := m.getD ⟨[], []⟩
    let old := (m.accs.map (fun b => { b with mask := maskMinus b.mask a.mask })).filter (fun b => b.mask != 0)
    let w := if m.writers.contains launch then m.writers else m.writers ++ [launch]
    { s with M := { s.M with race := smSet s.M.race (raceKey f line) ⟨old ++ [a], w⟩ } }
  | false, none => s
  | false, some m =>
    let old := m.accs.filter (fun b => b.write || b.key != a.key || (maskMinus b.mask a.mask != 0))
    { s with M := { s.M with race := smSet s.M.race (raceKey f line) { m with accs := old ++ [a] } } }

/-- The bytes that a fetch may still see when a launch has ended: those replaced since a launch with a job left became ready (R89). -/
def codeKept (s : State) (launch : Nat) : SMap (Byte × Nat) :=
  let ls := ((s.jobs ++ s.saved).map (fun e => e.2.launch)).filter (· != launch)
  s.M.code.filter (fun e => ls.any (fun l => ((launchAt s l).map (fun v => decide (v.began ≤ e.2.2))).getD true))

/-- A launch ends its hold on race metadata (R261, R355) and on replaced code. -/
def raceEnd (s : State) (launch : Nat) : State :=
  let r := s.M.race.filterMap (fun e =>
    let w := e.2.writers.filter (· != launch)
    if w.isEmpty then none else some (e.1, { e.2 with writers := w }))
  let live := fun (line : Nat) => r.any (fun e => e.1 / 4096 == line)
  let old := s.M.nmOld.filter (fun e => e.2.2 / 16 % 2 ^ 128 / 2 ^ 48 != launch)
  { s with M := { s.M with race := r, nmOld := old, code := codeKept s launch }, mdies := s.mdies.map (fun e => (e.1, { e.2 with overflow := e.2.overflow.filter live })) }

end Sys2Proof.Machine
end

