-- ==== Sys2Proof/Machine/Memory.lean ====
section
/-!
DEFINITION. Memory accesses of C-dies: combining partial lines of commutative ranges (R62, R294), commit records and the narrowing of
active slalom regions by writes outside any region (R299, R305, R306), scope copies and publishing (R288 to R291), thrown lines on their
way (R296, R297), and coherent reads and writes at a scope. Every access is performed at its step.
-/
namespace Sys2Proof.Machine

/-! ### Tokens and L1 sets (R284, R296, R449) -/

/-- The set of a line in every L1: PA[13:6] (R449). -/
def l1Set (line : Nat) : Nat := line % 256

/-- Key of a line's token table on a die. -/
def tokKey (die line : Nat) : Nat := 2 ^ 48 * die + line

/-- Write the holders of a line on a die. -/
def setHolders (s : State) (die line : Nat) (hs : List Holder) : State := { s with M := { s.M with tokens := smPut [] s.M.tokens (tokKey die line) hs } }

/-- The holders of a line on a die. -/
def holders (s : State) (die line : Nat) : List Holder := smGetD s.M.tokens (tokKey die line) []

/-- The tokens that agents other than the home slice hold. -/
def tokHeld (hs : List Holder) : Nat := hs.foldl (fun (n : Nat) h => n + h.tokens) 0

/-- Drop every copy of a line in the L1s of a die, caught lines included (R284). -/
def dropCopies (s : State) (die line except : Nat) : State :=
  let upd := s.cores.map (fun e =>
    if e.1 / 64 = die ∧ e.1 % 64 ≠ except then (e.1, { e.2 with caught := e.2.caught.filter (· != line), lru := e.2.lru.filter (· != line) })
    else e)
  { s with cores := upd }

/-- A line leaves a core's L1: its tokens return to the home slice, with the data when it is the owner (R284, R296). -/
def tokReturn (s : State) (core line : Nat) : State :=
  setHolders s (core / 64) line ((holders s (core / 64) line).filter (fun h => h.core != core % 64))

/-- A core's L1 takes a line: to the front of the LRU order; a ninth line of a set evicts an untouched caught line, else the least
recently used line outside `keep` (R296). -/
def l1Touch (s : State) (core line : Nat) (keep : List Nat) : State :=
  let c := coreSt s core
  let others := c.lru.filter (· != line)
  let inSet := others.filter (fun l => l1Set l == l1Set line && !keep.contains l)
  let setAll := others.filter (fun l => l1Set l == l1Set line)
  let victim :=
    if setAll.length < 8 then none
    else match inSet.reverse.find? (fun l => c.caught.contains l) with
      | some v => some v
      | none => inSet.getLast?
  let s := match victim with | some v => tokReturn s core v | none => s
  let lru := line :: (match victim with | some v => others.filter (· != v) | none => others)
  let caught := match victim with | some v => c.caught.filter (· != v) | none => c.caught
  setCore s core { c with lru := lru, caught := caught.filter (· != line) }

/-- One token more is free at the home slice: from a holder of several, else a holder of one that is not the owner gives its copy up. -/
def tokFree (hs : List Holder) : List Holder :=
  if tokHeld hs < 64 then hs
  else match hs.find? (fun h => 2 ≤ h.tokens) with
    | some h => hs.map (fun x => if x.core = h.core then { x with tokens := x.tokens - 1 } else x)
    | none => match hs.find? (fun h => !h.owner) with
      | some h => hs.filter (fun x => x.core != h.core)
      | none => hs

/-- A read by a core takes one token of the line (R284). -/
def tokRead (s : State) (die line core : Nat) : State :=
  let hs := holders s die line
  if hs.any (fun h => h.core == core) then setHolders s die line (hs.map (fun h => if h.core == core then { h with caught := false } else h))
  else setHolders s die line (tokFree hs ++ [⟨core, 1, false, false, none⟩])

/-- A write by an agent collects all 64 tokens (R284); 80 stands for the home slice itself. -/
def tokWrite (s : State) (die line agent : Nat) : State :=
  setHolders s die line (if agent = 80 then [] else [⟨agent, 64, true, false, none⟩])

/-- No agent of the die holds tokens any more (R284). -/
def tokDrop (s : State) (die line : Nat) : State := { s with M := { s.M with tokens := smErase s.M.tokens (tokKey die line) } }

/-- The home slice collects the owner token (R287). -/
def tokYield (s : State) (die line : Nat) : State :=
  setHolders s die line (((holders s die line).map (fun h => if h.owner then { h with owner := false, tokens := h.tokens - 1 } else h)).filter (fun h => h.tokens != 0))

/-- A replica is installed in a slice when a token is free at the home slice (R286). -/
def tokReplica (s : State) (die line agent launch : Nat) : State :=
  let hs := holders s die line
  if hs.any (fun h => h.core == agent) || decide (64 ≤ tokHeld hs) then s else setHolders s die line (hs ++ [⟨agent, 1, false, false, some launch⟩])

/-- The read-only replicas of a line, or of a launch, are dropped and their tokens returned. -/
def dropReplicas (s : State) (p : Nat → Nat → Bool) : State :=
  let t := s.M.tokens.filterMap (fun e =>
    let hs := e.2.filter (fun h => match h.replica with | some l => !p (e.1 % 2 ^ 48) l | none => true)
    if hs.isEmpty then none else some (e.1, hs))
  { s with M := { s.M with tokens := t } }

/-! ### Persistent requests (R285) -/

/-- The persistent table's entries of a line on a die: core, wave 0 (being served) or 1. -/
def persistOf (s : State) (die line : Nat) : List (Nat × Nat) :=
  (s.M.persistent.filter (fun e => e.1 == line && e.2 % 2 ^ 20 / 64 == die)).map (fun e => (e.2 % 2 ^ 20, e.2 / 2 ^ 20))

/-- The core that is served first: the lowest of the current wave. -/
def persistFirst (s : State) (die line : Nat) : Option Nat :=
  ((persistOf s die line).filter (fun e => e.2 == 0)).foldl (fun (m : Option Nat) e =>
    match m with | none => some e.1 | some x => some (Nat.min x e.1)) none

/-- Replace a die's entries of a line. -/
def setPersist (s : State) (die line : Nat) (l : List (Nat × Nat)) : State :=
  let rest := s.M.persistent.filter (fun e => !(e.1 == line && e.2 % 2 ^ 20 / 64 == die))
  { s with M := { s.M with persistent := rest ++ l.map (fun e => (line, e.1 + 2 ^ 20 * e.2)) } }

/-- The served core's entry is cleared; when its wave is empty the waiting entries are the next wave. -/
def persistClear (l : List (Nat × Nat)) (core : Nat) : List (Nat × Nat) :=
  let r := l.filter (fun e => e.1 != core)
  if r.any (fun e => e.2 == 0) then r else r.map (fun e => (e.1, 0))

/-- The key of a core's failed attempts for a line. -/
def attemptKey (core line : Nat) : Nat := 256 * line + core

/-- A core has performed its access: its entry and its failed attempts are cleared. -/
def persistServed (s : State) (core line : Nat) : State :=
  if s.M.persistent.isEmpty && s.M.attempts.isEmpty then s
  else
    let s := { s with M := { s.M with attempts := smErase s.M.attempts (attemptKey core line) } }
    setPersist s (core / 64) line (persistClear (persistOf s (core / 64) line) core)

/-- An access of a core to the line waits for another core's persistent request. -/
def persistBars (s : State) (core line : Nat) : Bool :=
  match persistFirst s (core / 64) line with
  | some c => c != core
  | none => false

/-! ### Lines a core holds: throws on their way (R296, R297) -/

/-- Lines in the footprint of a region of the core. -/
def footLines (s : State) (core : Nat) : List Nat :=
  (s.jobs.map (fun e => if jCoreKey e.1 = core then (match e.2.region with | some r => r.reads ++ r.writes | none => []) else [])).flatten

/-- Untouched caught lines of the core. -/
def untouched (s : State) (core : Nat) : Nat := (coreSt s core).caught.length

/-- A delivery arrives at its target (R129, R296): caught when the quota and the set allow it, else refused and counted. A target that has read
the line since holds it already (R297). [DEDUCED, unsafe: log entry 52] -/
def deliver (s : State) (core line : Nat) : State :=
  let c := coreSt s core
  if c.lru.contains line then s else
  let foot := footLines s core
  let ways := c.lru.filter (fun l => l1Set l == l1Set line && l != line)
  let open_ := ways.filter (fun l => !c.caught.contains l && !foot.contains l)
  if untouched s core < c.catchq ∧ (ways.length < 8 ∨ open_ ≠ []) then
    let lru := if ways.length < 8 then c.lru else match open_.getLast? with | some v => c.lru.filter (· != v) | none => c.lru
    let s := if ways.length < 8 then s else match open_.getLast? with | some v => tokReturn s core v | none => s
    let s := setCore s core { c with lru := line :: lru.filter (· != line), caught := line :: c.caught.filter (· != line) }
    let hs := (holders s (core / 64) line).filter (fun h => h.core != core % 64)
    setHolders s (core / 64) line (tokFree hs ++ [⟨core % 64, 1, false, true, none⟩])
  else setCore s core { c with catchref := satInc 32 c.catchref }

/-- Deliveries of a line that are on their way on a die arrive before a writer collects the line's tokens (R297). -/
def landThrows (s : State) (die line : Nat) : State :=
  let d := s.M.deliveries.filter (fun e => e.2.1 == line && e.1 / 64 == die)
  let s := d.foldl (fun s e => deliver s e.1 e.2.1) s
  { s with M := { s.M with deliveries := s.M.deliveries.filter (fun e => !(e.2.1 == line && e.1 / 64 == die)) } }

/-- The job has no throw on its way (R129). -/
def throwsDone (s : State) (uid : Nat) : Bool := !s.M.deliveries.any (fun e => e.2.2 == uid)

/-- Deliveries of a line that are on their way on any die arrive (R297). -/
def landAllThrows (s : State) (line : Nat) : State := (List.range 4).foldl (fun s d => landThrows s d line) s

/-! ### The directory (R287) -/

/-- The dies of a bit set. -/
def diesOf (v : Nat) : List Nat := (List.range 4).filter (fun d => bitOf v d)

/-- Die `d` holds a permission for the line. -/
def dirHas (s : State) (d line : Nat) : Bool :=
  match smGet s.M.dir line with
  | some (.shared v _) => bitOf v d
  | some (.owned o) => o == d
  | _ => false

/-- Die `d` holds Owned permission. -/
def dirOwned (s : State) (d line : Nat) : Bool :=
  match smGet s.M.dir line with
  | some (.owned o) => o == d
  | _ => false

/-- Set a directory entry. -/
def setDir (s : State) (line : Nat) (e : DirState) : State := { s with M := { s.M with dir := smSet s.M.dir line e } }

/-- A line of the bulk window that the host does not snoop (R398, R403): its dirty bytes reach host memory at system scope only (R274). -/
def bulkLine (s : State) (line : Nat) : Bool := rangeOf s (64 * line) == .bulk && !s.B.cxl

/-- Dirty bytes of a line leave an owner as a write-back request (class W, R432); those of the bulk window stay in the device. -/
def recallLine (s : State) (line f d : Nat) : State :=
  if lineDirty s line && !bulkLine s line then watchHit (writeBackLine s line) line 3 2 f d else s

/-- A line leaves the dies: deliveries on their way arrive, dirty bytes reach the home as write-back requests (class W), all copies and tokens
are dropped (R287, R297, R432). -/
def dirRevoke (s : State) (line f : Nat) (except : Option Nat) : State :=
  let held := match smGet s.M.dir line with
    | some (.shared v _) => (diesOf v).filter (fun d => some d != except)
    | some (.owned o) => if some o = except then [] else [o]
    | _ => []
  held.foldl (fun s d =>
    let s := landThrows s d line
    let s := if dirOwned s d line then recallLine s line f d else s
    tokDrop (dropCopies s d line 64) d line) s

/-- The owner of a line gives up the owner token and writes its dirty bytes back (R287). -/
def dirYield (s : State) (o line f : Nat) : State :=
  recallLine (tokYield s o line) line f o

/-- A read of die `d` reaches the line (R287): an owner writes its dirty bytes back and both dies share; the request is seen at the home
when the die held no permission. -/
def dirRead (s : State) (d line f : Nat) : State :=
  if dirHas s d line then s
  else
    let s := watchHit s line 0 1 f d
    match smGet s.M.dir line with
    | some (.owned o) => setDir (dirYield s o line f) line (.shared (2 ^ o ||| 2 ^ d) false)
    | some (.shared v h) => setDir s line (.shared (v ||| 2 ^ d) h)
    | some .host => setDir s line (.shared (2 ^ d) true)
    | none => setDir s line (.shared (2 ^ d) false)

/-- A write of die `d` (type bit `ty`: 2 write, 4 atomic): every other holder gives the line up; the die owns it. -/
def dirWrite (s : State) (d line f ty : Nat) : State :=
  if dirOwned s d line then s
  else
    let s := watchHit s line 0 ty f d
    setDir (dirRevoke s line f (some d)) line (.owned d)

/-- The host takes the line (R396): every die gives it up. -/
def dirHostWrite (s : State) (line : Nat) : State :=
  let s := dirRevoke s line 0 none
  { s with M := { s.M with dir := smErase s.M.dir line } }

/-- The host reads the line (R396): an owner's dirty bytes reach the home and it keeps Shared permission; the host bit is used for the mailbox
window only (R287). -/
def dirHostRead (s : State) (line : Nat) : State :=
  match smGet s.M.dir line with
  | some (.owned o) => setDir (dirYield s o line 0) line (.shared (2 ^ o) (rangeOf s (64 * line) == .mailbox))
  | _ => s

/-! ### Commit positions (R298, R299, R305, R306) -/

/-- The record of a line: its own, or FLOOR of its home twice. -/
def lineRec (s : State) (line : Nat) : Nat × Nat :=
  match smGet s.M.lines line with
  | some r => r
  | none => let f := (mdieSt s ((homeMdie s (64 * line)).getD 0)).floor.toNat; (f, f)

/-- Write a line's record. -/
def setLineRec (s : State) (line : Nat) (r : Nat × Nat) : State := { s with M := { s.M with lines := smSet s.M.lines line r } }

/-- The die whose home slice holds the line's record: the writing die when it holds permission, else the first that does (R299). -/
def recordDie (s : State) (line : Nat) (die : Option Nat) : Option Nat :=
  match die.filter (fun d => dirHas s d line) with
  | some d => some d
  | none => (List.range 4).find? (fun d => dirHas s d line)

/-- The record holder's copy of G: of that die, else of the home (R305). -/
def holderG (s : State) (line : Nat) (die : Option Nat) : Nat :=
  match recordDie s line die with
  | some d => (dieSt s d).g.toNat
  | none => (mdieSt s ((homeMdie s (64 * line)).getD 0)).g.toNat

/-- A narrowing on its way to the core of a region (R306). [DEDUCED, unsafe: log entry 44] -/
def nrwPkt (k id lo hi : Nat) : Pkt := ⟨6, 0, ⟨0, BitVec.ofNat 5 (jDie k), 0, 0, 0, BitVec.ofNat 512 (id + lo * 2 ^ 64 + hi * 2 ^ 128)⟩⟩

/-- Change the region of slot `k` at the record holder; a frozen region does not change (R309). -/
def narrowQuiet (s : State) (k : Nat) (f : Region → Region) : State :=
  match jobAt s k with
  | none => s
  | some j => setJob s k { j with region := j.region.map (fun r => if r.frozen.isSome then r else f r) }

/-- Narrow the region of slot `k` at the record holder; a change is sent to its core. -/
def narrow (s : State) (k : Nat) (f : Region → Region) : State :=
  match (jobAt s k).bind (·.region) with
  | none => s
  | some r =>
    let r' := if r.frozen.isSome then r else f r
    let s := narrowQuiet s k f
    if r'.lo = r.lo ∧ r'.hi = r.hi then s
    else { s with F := { s.F with inbox := s.F.inbox ++ [nrwPkt k r'.id r'.lo r'.hi] } }

/-- A write outside any region takes position w and narrows the active regions (R305). [DEDUCED, unsafe: log entry 41] -/
def slWrite (s : State) (line : Nat) (die : Option Nat) : State :=
  let r := lineRec s line
  let w := Nat.max (holderG s line die) (Nat.max (r.1 + 1) (r.2 + 1))
  let s := setLineRec s line (w, r.2)
  s.jobs.foldl (fun s e =>
    match e.2.region with
    | none => s
    | some g =>
      if g.reads.contains line || g.writes.contains line then
        narrow s e.1 (fun g =>
          let g := if g.reads.contains line then { g with hi := Nat.min g.hi (w - 1) } else g
          if g.writes.contains line then { g with lo := Nat.max g.lo (w + 1) } else g)
      else s) s

/-! ### Commutative ranges (R62, R292 to R295) -/

/-- The bits of an element of a range's format. -/
def rangeBits (fmt : Nat) : Nat := match fmt with | 0 => 64 | 1 => 32 | 11 => 32 | _ => 16

/-- One operation of a range, rounded in its format with RNE; NaN only when both are NaN; −0 is below +0 (R62). -/
def rangeOp (fmt op a b : Nat) : Nat :=
  if fmt = 11 then
    let x := (BitVec.ofNat 32 a).toInt
    let y := (BitVec.ofNat 32 b).toInt
    match op with
    | 0 => wrapBits 32 (x + y)
    | 1 => if x ≤ y then a else b
    | _ => if x ≤ y then b else a
  else
    match builtinFmt fmt with
    | none => a
    | some f =>
      let x := f.decode a
      let y := f.decode b
      match op with
      | 0 => (f.encode false 0 (x.add 0 y).1).1
      | o =>
        if x.isNan then (if y.isNan then f.canonNan else b)
        else if y.isNan then a
        else
          let less := x.lt y || (x.eqv y && bitOf a (f.width - 1) && !bitOf b (f.width - 1))
          if less == (o == 1) then a else b

/-- The clusters that hold a partial of a line, ascending. -/
def partialsOf (s : State) (line : Nat) : List (Nat × Partial) :=
  s.clusters.filterMap (fun e => (smGet e.2.partials line).map (fun p => (e.1, p)))

/-- Combine one partial into the home. -/
def combinePart (s : State) (line : Nat) (p : Partial) : State :=
  let n := rangeBits p.fmt / 8
  let s := p.elems.foldl (fun s e =>
    let pa := 64 * line + n * e.1
    agentSetBytes s pa (natLe n (rangeOp p.fmt p.op (agentNat s pa n) e.2))) s
  slWrite s line none

/-- Remove the partial a cluster holds of a line. -/
def dropPartial (s : State) (cl line : Nat) : State :=
  let c := clusterSt s cl
  setCluster s cl { c with partials := smErase c.partials line, partOrder := c.partOrder.filter (· != line) }

/-- Combine a line at its home: the partials of every cluster in ascending order. -/
def combineLine (s : State) (line : Nat) : State :=
  (partialsOf s line).foldl (fun s e => dropPartial (combinePart s line e.2) e.1 line) s

/-- Absorb one element into the cluster's slice; a line past the 16,384th sends the least recently absorbed line home (R295). -/
def absorb (s : State) (cl line f rng fmt op idx v : Nat) : State :=
  let c := clusterSt s cl
  let s := match smGet c.partials line, c.partOrder with
    | none, old :: _ =>
      if c.partOrder.length < 16384 then s
      else match smGet c.partials old with
        | some p => dropPartial (combinePart s old p) cl old
        | none => s
    | _, _ => s
  let c := clusterSt s cl
  let p := (smGet c.partials line).getD ⟨f, rng, fmt, op, []⟩
  let x := match smGet p.elems idx with | some o => rangeOp fmt op o v | none => v
  setCluster s cl { c with partials := smSet c.partials line { p with elems := smSet p.elems idx x },
                           partOrder := c.partOrder.filter (· != line) ++ [line] }

/-- The open range of domain `f` that holds virtual line address `va`: its number, format and operation. -/
def rangeAt (s : State) (f va : Nat) : Option (Nat × Nat × Nat) :=
  ((List.range 8).filterMap (fun n =>
    let r := (domainSt s f).crng.toList.getD n (0, 0, 0)
    if r.1.getLsbD 0 && decide (bits r.1.toNat 6 46 ≤ va / 64) && decide (va / 64 ≤ bits r.2.1.toNat 6 46) then
      some (n, bits r.2.2.toNat 4 4, bits r.2.2.toNat 0 2)
    else none)).head?

/-! ### Coherent accesses -/

/-- The line's tag as read from memory (R64). -/
def windowTag (s : State) (line : Nat) : Nat :=
  let page := line / 64
  ((List.range 16).filterMap (fun n =>
    let w := s.R.fwin.toList.getD n (0, 0, 0, 0)
    if w.1.getLsbD 0 && decide (bits w.1.toNat 12 36 ≤ page) && decide (page ≤ bits w.2.1.toNat 12 36) then
      let code := bits w.2.2.1.toNat 32 4
      some (if code = 12 then 16 + n else code + 1)
    else none)).headD 0

/-- The line's tag: as cached, else as read from memory (R65, R67). -/
def tagOf (s : State) (line : Nat) : Nat := smGetD s.M.tags line (windowTag s line)

/-- A cached line keeps the tag it was read with. -/
def noteTag (s : State) (line : Nat) : State :=
  match smGet s.M.tags line with
  | some _ => s
  | none => { s with M := { s.M with tags := smSet s.M.tags line (windowTag s line) } }

/-- A coherent read reaches the line for core `core`. -/
def cohRead (s : State) (core line f : Nat) : State :=
  persistServed (noteTag (tokRead (dirRead s (core / 64) line f) (core / 64) line (core % 64)) line) core line

/-- Write the bytes of a line that `mask` names. -/
def cSetMasked (s : State) (line mask : Nat) : Nat → List Byte → State
  | _, [] => s
  | i, b :: r => cSetMasked (if bitOf mask i then cSetBytes s (64 * line + i) [b] else s) line mask (i + 1) r

/-- Enter the bytes of `mask` into the line's written mask (R422). -/
def poisonMask (s : State) (line mask : Nat) : State :=
  match smGet s.M.poison line with
  | none => s
  | some m =>
    let m' := m ||| mask
    { s with M := { s.M with poison := if m' = 2 ^ 64 - 1 then smErase s.M.poison line else smSet s.M.poison line m' } }

/-- Bytes of a line are written again: what a near-memory unit replaced there is gone. -/
def nmForget (s : State) (line mask : Nat) : State :=
  { s with M := { s.M with nmOld := s.M.nmOld.filter (fun e => !(e.1 / 64 == line && bitOf mask (e.1 % 64))) } }

/-- A coherent write of an agent of a die (type bit `ty`: 2 write, 4 atomic): all tokens, Owned permission, the bytes (R284, R287). Agents are
cores, 64 + n the slice of cluster n, 80 the home slice. -/
def diePut (s : State) (d agent line f ty mask : Nat) (bytes : List Byte) : State :=
  if unreachable s line then raiseEvent s f 12 ((Config.freeWord s.fresh).toNat % 256) d (64 * line) ((Config.freeWord (s.fresh + 1)).toNat % 4096)
  else
  let s := landThrows s d line
  let s := tokWrite (dropCopies (dirWrite s d line f ty) d line agent) d line agent
  let c := 64 * d + agent
  let s := if agent < 64 then setCore s c { coreSt s c with caught := (coreSt s c).caught.filter (· != line) } else s
  let s := nmForget (noteTag s line) line mask
  poisonMask (cSetMasked s line mask 0 bytes) line mask

/-- A coherent write of core `core`. -/
def cohPut (s : State) (core line f ty mask : Nat) (bytes : List Byte) : State :=
  persistServed (diePut s (core / 64) (core % 64) line f ty mask bytes) core line

/-- A coherent write outside any region, which takes a position (R305). [DEDUCED, unsafe: log entry 41] -/
def cohWrite (s : State) (core line f ty mask : Nat) (bytes : List Byte) : State :=
  slWrite (cohPut s core line f ty mask bytes) line (some (core / 64))

/-- The agent that performs a coherent write at level `l` for core `core`: the core, its cluster's slice, the home slice. -/
def levelAgent (l core : Nat) : Nat := match l with | 0 => core % 64 | 1 => 64 + core / 4 % 16 | _ => 80

/-- A coherent write at level `l` of bytes that a copy published. -/
def pubWrite (s : State) (core l : Nat) (c : ScopeCopy) : State :=
  slWrite (diePut s (core / 64) (levelAgent l core) c.line c.fdom 2 c.mask c.bytes) c.line (some (core / 64))

/-! ### Scope copies (R288 to R291) -/

/-- The instance number of scope `l` that holds core `c`. -/
def instNo (l c : Nat) : Nat := match l with | 0 => c | 1 => c / 4 | _ => c / 64
/-- A core of an instance. -/
def instCore (l i : Nat) : Nat := match l with | 0 => i | 1 => 4 * i | _ => 64 * i

/-- The scope copy at level `l` for a core. -/
def copyAt (s : State) (l core line : Nat) : Option ScopeCopy :=
  s.M.scopes.find? (fun c => c.level == l && c.inst == instNo l core && c.line == line)

/-- Remove a copy. -/
def dropCopy (s : State) (c : ScopeCopy) : State :=
  { s with M := { s.M with scopes := s.M.scopes.filter (fun d => !(d.level == c.level && d.inst == c.inst && d.line == c.line)) } }

/-- Add or replace a copy. -/
def putCopy (s : State) (c : ScopeCopy) : State :=
  { s with M := { s.M with scopes := (dropCopy s c).M.scopes ++ [c] } }

/-- An access at level `l` is coherent there (R288). -/
def coherentAt (s : State) (l core line : Nat) : Bool :=
  dirOwned s (core / 64) line && (l != 1 || core / 4 % 16 == line % 16)

/-- The line as it reads at the levels `l` and further out: the first copy, else the coherent value. [DEDUCED, unsafe: log entry 42] -/
def lineFrom (s : State) (core line : Nat) : Nat → Nat → List Byte
  | 0, _ => cBytes s (64 * line) 64
  | n + 1, l =>
    if 3 ≤ l then cBytes s (64 * line) 64
    else match copyAt s l core line with
      | some c => c.bytes
      | none => lineFrom s core line n (l + 1)

/-- Bytes of `a` where `mask` names them, else of `b`. -/
def mixBytes (mask : Nat) (a b : List Byte) : List Byte :=
  (List.range 64).map (fun i => if bitOf mask i then a.getD i 0 else b.getD i 0)

/-- Union of two lists. -/
def unionNat (a b : List Nat) : List Nat := a ++ b.filter (fun x => !a.contains x)

/-- A copy with another's dirty bytes. -/
def ScopeCopy.take (d c : ScopeCopy) : ScopeCopy :=
  { d with bytes := mixBytes c.mask c.bytes d.bytes, mask := d.mask ||| c.mask, launches := unionNat d.launches c.launches }

/-- Where the line as `lineFrom` reads it stands: a scope copy, or none for the coherent value. -/
def standsAt (s : State) (core line : Nat) : Nat → Nat → Option (Nat × Nat)
  | 0, _ => none
  | n + 1, l =>
    if 3 ≤ l then none
    else match copyAt s l core line with
      | some c => some (c.level, c.inst)
      | none => standsAt s core line n (l + 1)

/-- A scope copy at level `l` of what the next level out holds, with the releases of that value (R288). -/
def newCopy (s : State) (l core line f : Nat) : State × ScopeCopy :=
  let c : ScopeCopy := ⟨l, instNo l core, line, lineFrom s core line 4 (l + 1), 0, f, []⟩
  (relClone s line (standsAt s core line 4 (l + 1)) (some (l, instNo l core)), c)

/-- Carry a copy's dirty bytes and their release records outward from level `l` to the scope point of `t` (R289). -/
def pubOut (s : State) (c : ScopeCopy) (rs : List RelRec) (core t : Nat) : Nat → Nat → State
  | 0, _ => s
  | n + 1, l =>
    if 3 ≤ l then relPut (pubWrite s core 2 c) c.line c.mask rs none
    else match copyAt s l core c.line with
      | some d => relPut (putCopy s (d.take c)) c.line c.mask rs (some (d.level, d.inst))
      | none =>
        if coherentAt s l core c.line then relPut (pubWrite s core l c) c.line c.mask rs none
        else if t ≤ l then
          let d := newCopy s l core c.line c.fdom
          relPut (putCopy d.1 (d.2.take c)) c.line c.mask rs (some (d.2.level, d.2.inst))
        else pubOut s c rs core t n (l + 1)

/-- Publish one copy to the scope point of `t`: the copy is dropped, its dirty bytes go outward. -/
def publish1 (s : State) (c : ScopeCopy) (t : Nat) : State :=
  let r := relTake (dropCopy s c) c.line (some (c.level, c.inst))
  if c.mask = 0 then r.1 else pubOut r.1 c r.2 (instCore c.level c.inst) t 4 (c.level + 1)

/-- Publish the copies `sel` names at level `l`, in ascending order of their instance. -/
def publishLevel (s : State) (sel : ScopeCopy → Bool) (t l : Nat) : State :=
  let cs := s.M.scopes.filter (fun c => c.level == l && sel c)
  let ord := sortBy (fun a b => decide (a.inst ≤ b.inst)) cs
  ord.foldl (fun s c => publish1 s c t) s

/-- Publish the copies `sel` names below the scope point of `t`, the narrowest level first. -/
def publishSel (s : State) (sel : ScopeCopy → Bool) (t : Nat) : State :=
  (List.range (Nat.min t 3)).foldl (fun s l => publishLevel s sel t l) s

/-- A release at scope `t` by core `core` (R289). -/
def publishOwn (s : State) (core t : Nat) : State := publishSel s (fun c => c.inst == instNo c.level core) t

/-- A committing region has gathered the line (R307). -/
def gathered (s : State) (line : Nat) : Bool := (smGet s.M.committing line).isSome

/-- What stands before an access of core `core` at scope `t` to a line (R285, R289, R290, R294, R307): a persistent request of another core
and a commit under way hold it back; partials are combined, the job's own narrower copies are published, and copies held elsewhere in the
access's instance are published, or, in mode 1, hold the access back. -/
def memPrep (s : State) (core t line : Nat) : State × Bool :=
  if persistBars s core line || gathered s line then (s, false)
  else
  let s := combineLine s line
  let s := publishSel s (fun c => c.line == line && c.inst == instNo c.level core) t
  let outside := fun (c : ScopeCopy) => c.line == line && decide (c.level < t) && inInst t core (instCore c.level c.inst)
  if s.M.scopes.any outside then
    if s.B.mode = 1 then (s, false) else (publishSel s outside t, true)
  else (s, true)

/-- The package as a strong read at device scope of a line by the device's own hardware finds it (R290, R294, R377): partials are combined and
scope copies published; in mode 1 scope copies, and a commit under way, hold the read back. -/
def strongView (s : State) (line : Nat) : Option State :=
  let s := combineLine s line
  if (smGet s.M.committing line).isSome then none
  else if s.M.scopes.any (fun c => c.line == line) then if s.B.mode = 1 then none else some (publishSel s (fun c => c.line == line) 3)
  else some s

/-- What such a read of `n` bytes within one line answers, if nothing holds it back. -/
def strongNat (s : State) (pa n : Nat) : Option Nat := (strongView s (lineOf pa)).map (fun t => agentNat t pa n)

/-- A word of the device's own records, which its hardware reads so. In mode 1 the model's read does not wait for a scope copy. [DEDUCED, unsafe: log entry 42] -/
def recordWord (s : State) (pa : Nat) : Nat := (strongNat s pa 8).getD (agentWord (combineLine s (lineOf pa)) pa)

/-! ### Writes by agents at the home (R274, R290, R305, R396) -/

/-- A strong write at the home that sees no scope copy: every die gives the line up; `rel` are the releases it leaves. -/
def homeStore (s : State) (pa : Nat) (l : List Byte) (rel : List RelRec) : State :=
  let s := (linesOf pa l.length).foldl (fun s ln => slWrite (dirHostWrite (combineLine s ln) ln) ln none) s
  let s := relWrite s none pa l.length false rel
  let s := (linesOf pa l.length).foldl (fun s ln => nmForget s ln (maskIn pa l.length ln)) s
  poisonWrite (agentSetBytes s pa l) pa l.length

/-- A strong write by the device's own hardware: scope copies are published first, or, in mode 1, were waited for by the caller. -/
def deviceWrite (s : State) (pa : Nat) (l : List Byte) : State :=
  homeStore ((linesOf pa l.length).foldl (fun s ln => (strongView s ln).getD s) s) pa l []

/-- The copy an access at scope `t` uses: the narrowest from its level outward (R288). -/
def copyFor (s : State) (core line : Nat) : Nat → Nat → Option ScopeCopy
  | 0, _ => none
  | n + 1, l => if 3 ≤ l then none else match copyAt s l core line with | some c => some c | none => copyFor s core line n (l + 1)

/-- Where an access of core `core` at scope `t` finds the line: a scope copy, or none for the coherent value. -/
def copyKey (s : State) (core line t : Nat) : Option (Nat × Nat) :=
  if 3 ≤ t then none else (copyFor s core line 4 t).map (fun c => (c.level, c.inst))

/-- The line as an access of core `core` at scope `t` reads it, after `memPrep`: coherent, or in a scope copy that is made if none is there. [DEDUCED, unsafe: log entry 42] -/
def scopeRead (s : State) (core t line f : Nat) : State × List Byte :=
  if 3 ≤ t then let s := cohRead s core line f; (s, cBytes s (64 * line) 64)
  else match copyFor s core line 4 t with
    | some c => (s, c.bytes)
    | none =>
      if coherentAt s t core line then let s := cohRead s core line f; (s, cBytes s (64 * line) 64)
      else
        let c := newCopy s t core line f
        (putCopy c.1 c.2, c.2.bytes)

/-- Write the bytes of `mask` of a line at scope `t`. -/
def scopeWrite (s : State) (core t line f ty launch mask : Nat) (bytes : List Byte) : State :=
  if 3 ≤ t then cohWrite s core line f ty mask bytes
  else
    let upd := fun (c : ScopeCopy) =>
      ({ c with bytes := mixBytes mask bytes c.bytes, mask := c.mask ||| mask, launches := unionNat c.launches [launch] } : ScopeCopy)
    match copyFor s core line 4 t with
    | some c => putCopy s (upd c)
    | none =>
      if coherentAt s t core line then cohWrite s core line f ty mask bytes
      else let c := newCopy s t core line f; putCopy c.1 (upd c.2)

/-- The scope at which code `sc` is performed for an address: system scope is device scope but for the mailbox window (R127, R254). [DEDUCED, unsafe: log entry 40] -/
def effScope (sc : Nat) : Nat := Nat.min sc 3

/-! ### Accesses within one line -/

/-- Who makes an access: the job slot, the path, the number of the word, whether a handler makes it. -/
structure Who where
  k : Nat
  path : Nat
  num : Nat
  deriving DecidableEq, Repr

/-- Place `n` bytes at offset `o` of a line image. -/
def placeAt (o : Nat) (l : List Byte) : List Byte := List.replicate o 0 ++ l

/-- Change the job in a slot. -/
def modJob (s : State) (k : Nat) (f : Job → Job) : State := match jobAt s k with | some j => setJob s k (f j) | none => s

/-- The access enters the path's clock and, when ordinary and outside handlers and regions, the race metadata. -/
def noteAccess (s : State) (w : Who) (pa n : Nat) (load store ordinary : Bool) : State :=
  match jobAt s w.k with
  | none => s
  | some j =>
    let t := j.clkTime w.path
    let s := setJob s w.k (j.clkAfter w.path w.num load store)
    if ordinary && j.level == .job then
      raceNote s j.fdom (lineOf pa) j.launch ⟨jCoreKey w.k, clkKey j w.path, t, maskIn pa n (lineOf pa), store⟩
    else s

/-- An ordinary access would race (R260). -/
def racing (s : State) (w : Who) (pa n : Nat) (load store : Bool) : Bool :=
  match jobAt s w.k with
  | none => false
  | some j => j.level == .job &&
      raceHit s j.fdom (lineOf pa) (jCoreKey w.k) (maskIn pa n (lineOf pa)) store (j.clkBefore w.path w.num load store)

/-- Whether the access can be performed now; what stands before it is done. -/
def memReady (s : State) (w : Who) (sc pa : Nat) : State × Bool := memPrep s (jCoreKey w.k) (effScope sc) (lineOf pa)

/-- A byte that a near-memory unit has replaced, as a load reads it that the unit's job does not happen before: the old or the new one (R253, R322). -/
def nmSeen (s : State) (past : VC) (a : Nat) (b : Byte) : Byte :=
  match smGet s.M.nmOld a with
  | some (o, key) => if !vcCovers past key 1 && Config.freeChoice s.fresh a then o else b
  | none => b

/-- Load `n` bytes within one line, after `memReady`. [DESIGN CHOICE, unsafe: log entry 14; DEDUCED, unsafe: log entry 123] -/
def memLoad (s : State) (w : Who) (sc pa n : Nat) (ordinary : Bool) : State × List Byte :=
  match jobAt s w.k with
  | none => (s, [])
  | some j =>
    let r := scopeRead s (jCoreKey w.k) (effScope sc) (lineOf pa) j.fdom
    let rs := relAt r.1 (copyKey r.1 (jCoreKey w.k) (lineOf pa) (effScope sc)) pa n
    let l := (r.2.drop (pa % 64)).take n
    let past := j.clkBefore w.path w.num true false
    let s := noteAccess r.1 w pa n true false ordinary
    let s := modJob s w.k (fun j => j.note w.path rs)
    (s, (List.range l.length).map (fun i => nmSeen s past (pa + i) (l.getD i 0)))

/-- The release records of a store: an STL's own scope, or the scope of a fence that names the path; what a narrower fence put before it passes
on within that fence's scope only (R256, R276). -/
def relRecs (j : Job) (w : Who) (cp : Option (Nat × Nat)) (pa n : Nat) (rel : Option Nat) : List RelRec :=
  match rel, j.relScope w.path w.num with
  | none, none => []
  | a, b =>
    let sc := Nat.max (a.getD 0) (b.getD 0)
    let c := j.clkOf w.path
    ⟨pa, n, cp, sc, jCoreKey w.k, c.all⟩ :: c.lim.map (fun e => ⟨pa, n, cp, Nat.min sc e.1, jCoreKey w.k, e.2⟩)

/-- The releases that an access would read now. -/
def relSeen (s : State) (core sc pa n : Nat) : List RelRec := relAt s (copyKey s core (lineOf pa) (effScope sc)) pa n

/-- Store bytes within one line, after `memReady`. `rel` is the scope at which the store itself is a release. [DESIGN CHOICE, unsafe: log entry 14; DEDUCED, unsafe: log entry 123] -/
def memStore (s : State) (w : Who) (sc pa : Nat) (l : List Byte) (ordinary : Bool) (rel : Option Nat) : State :=
  match jobAt s w.k with
  | none => s
  | some j =>
    let n := l.length
    let s := scopeWrite s (jCoreKey w.k) (effScope sc) (lineOf pa) j.fdom 2 j.launch (maskIn pa n (lineOf pa)) (placeAt (pa % 64) l)
    let cp := copyKey s (jCoreKey w.k) (lineOf pa) (effScope sc)
    let s := noteAccess s w pa n false true ordinary
    match jobAt s w.k with
    | some j => relWrite s cp pa n false (relRecs j w cp pa n rel)
    | none => s

/-- A read-modify-write of `n` bytes within one line, after `memReady`: the new bytes from the old ones; the old ones are answered. -/
def memRmw (s : State) (w : Who) (sc pa n : Nat) (f : List Byte → List Byte) : State × List Byte :=
  match jobAt s w.k with
  | none => (s, [])
  | some j =>
    let core := jCoreKey w.k
    let r := scopeRead s core (effScope sc) (lineOf pa) j.fdom
    let old := (r.2.drop (pa % 64)).take n
    let s := scopeWrite r.1 core (effScope sc) (lineOf pa) j.fdom 4 j.launch (maskIn pa n (lineOf pa)) (placeAt (pa % 64) (f old))
    let cp := copyKey s core (lineOf pa) (effScope sc)
    let rs := relAt s cp pa n
    let s := noteAccess s w pa n true true false
    let s := modJob s w.k (fun j => j.note w.path rs)
    match jobAt s w.k with
    | some j => (relWrite s cp pa n true (relRecs j w cp pa n none), old)
    | none => (s, old)

/-- A core's load or copy read touches a caught line (R296) and, for S, uses the L1. -/
def l1Read (s : State) (core line : Nat) (fill : Bool) : State :=
  let c := coreSt s core
  let s := setCore s core { c with caught := c.caught.filter (· != line) }
  if fill then l1Touch s core line (footLines s core) else s

end Sys2Proof.Machine
end

