-- ==== Sys2Proof/Machine/Xlate.lean ====
section
/-!
DEFINITION. Address translation (R375 to R384): the walk of a domain's tables, the checks of R378 in their order, frozen pages, and
cached entries that may still be used after a table entry changed (R380).
-/
namespace Sys2Proof.Machine

/-- What an access asks of a page: a read, a write, a read-modify-write (both permissions), a fetch (R378). -/
inductive AKind
  | read | write | rmw | fetch
  deriving DecidableEq, Repr

/-- The trap for a translation failure (R125, R378): 0x05 for writes and read-modify-writes, 0x04 otherwise. -/
def AKind.failCode : AKind → Nat
  | .write | .rmw => 0x05
  | .read | .fetch => 0x04

/-- A valid leaf found by a walk: the entry, its level, its physical address. -/
structure LeafRef where
  entry : Word
  level : Nat
  addr : Nat
  deriving DecidableEq, Repr

/-- What a walk finds: a leaf, a failure, or a table line whose read is held back (R290). -/
inductive Walk
  | leaf (r : LeafRef)
  | fail
  | wait
  deriving DecidableEq, Repr

/-- Reserved bits of a non-leaf entry (R376). -/
def nonLeafReserved (e : Nat) : Bool :=
  bits e 48 16 != 0 || bits e 7 5 != 0 || bits e 1 5 != 0
/-- Reserved bits of a leaf entry at `level` (R376): SZ64 belongs to level 0 only. -/
def leafReserved (e level : Nat) : Bool :=
  bits e 60 4 != 0 || bits e 55 3 != 0 || bits e 48 4 != 0 || bits e 8 4 != 0 || bits e 1 5 != 0 || (bitOf e 7 && level != 0)

/-- The bytes a leaf maps (R375). -/
def leafSize (e level : Nat) : Nat :=
  match level with
  | 2 => 2 ^ 30
  | 1 => 2 ^ 21
  | _ => if bitOf e 7 then 2 ^ 16 else 2 ^ 12

/-- The page base of an entry (R376). -/
def entryPa (e : Nat) : Nat := bits e 12 36 * 4096

/-- The index of a virtual address at a level (R375). -/
def vaIndex (va level : Nat) : Nat :=
  match level with
  | 3 => bits va 39 13
  | 2 => bits va 30 9
  | 1 => bits va 21 9
  | _ => bits va 12 9

/-- The 16 entries of the group of the level-0 entry at `ea`, when one of them is a member of a 64 KiB group and they disagree (R375). -/
def badGroup (s : State) (ea : Nat) : Option (List Nat) :=
  let as := (List.range 16).map (fun i => ea / 128 * 128 + 8 * i)
  if as.any (fun a => agentNat s a 1 &&& 0xC1 == 0xC1) then
    let es := as.map (agentWord s)
    if es.all (fun e => e == es.headD 0) then none else some es
  else none

/-- What the entry `e`, found at `ea`, gives at `level` (R376, R378); `below` walks the next table. -/
def entryWalk (s : State) (e ea level : Nat) (below : Nat → Walk) : Walk :=
  if !bitOf e 0 then .fail
  else if bitOf e 6 then
    if level = 3 || leafReserved e level || entryPa e % leafSize e level != 0 then .fail
    else
      let r := rangeOf s (entryPa e)
      if r.isMem || r == .regs then .leaf ⟨BitVec.ofNat 64 e, level, ea⟩ else .fail
  else if level = 0 || nonLeafReserved e then .fail
  else below (entryPa e)

/-- The entry the walk reads at `ea` (R377): a strong read at device scope. Where the entries of a 64 KiB group disagree, its translations
are undefined (R8, R375): any one of the 16. [DESIGN CHOICE, safe: log entry 5] -/
def readEntry (s : State) (ea level : Nat) : Option Nat :=
  (strongView s (lineOf ea)).map (fun t =>
    match if level = 0 then badGroup t ea else none with
    | some es => es.getD ((Config.freeWord (s.fresh + ea)).toNat % 16) 0
    | none => agentWord t ea)

/-- One level of the walk (R375, R376, R378): what the entry gives, or a failure of the read. -/
def walkStep (s : State) (va table level : Nat) (below : Nat → Walk) : Walk :=
  let ea := table + 8 * vaIndex va level
  if !(rangeOf s ea).isMem || poisoned s (lineOf ea) then .fail
  else match readEntry s ea level with
    | none => .wait
    | some e => entryWalk s e ea level below

/-- Walk from the table at `table`, at the given level and below. -/
def walkFrom (s : State) (va table : Nat) : Nat → Walk
  | 0 => walkStep s va table 0 (fun _ => .fail)
  | l + 1 => walkStep s va table (l + 1) (fun t => walkFrom s va t l)

/-- The walk below an entry found at `level`. -/
def walkBelow (s : State) (va : Nat) : Nat → Nat → Walk
  | 0, _ => .fail
  | l + 1, t => walkFrom s va t l

/-- The walk of a domain's tables (R375, R379). -/
def walk (s : State) (f va : Nat) : Walk :=
  let root := (domainSt s f).xlRoot.toNat
  if bitOf root 0 then walkFrom s va (bits root 16 32 * 2 ^ 16) 3 else .fail

/-- The valid entries that the walk reads, with their levels. -/
def walkPath (s : State) (va table : Nat) : Nat → List (Nat × Nat)
  | 0 => pathStep s va table 0 (fun _ => [])
  | l + 1 => pathStep s va table (l + 1) (fun t => walkPath s va t l)
where
  /-- The entry of one level and those below it. -/
  pathStep (s : State) (va table level : Nat) (below : Nat → List (Nat × Nat)) : List (Nat × Nat) :=
    let ea := table + 8 * vaIndex va level
    if !(rangeOf s ea).isMem || poisoned s (lineOf ea) then []
    else match readEntry s ea level with
      | none => []
      | some e => if bitOf e 0 then (level, e) :: (if bitOf e 6 then [] else below (entryPa e)) else []

/-! ### Cached entries (R380, R381) -/

/-- The address bits below an entry's prefix. -/
def entryShift (e level : Nat) : Nat :=
  match level with
  | 3 => 39
  | 2 => 30
  | 1 => 21
  | _ => if bitOf e 6 && bitOf e 7 then 16 else 12

/-- The entry covers an address. -/
def Tlb.covers (t : Tlb) (f va : Nat) : Bool := t.fdom == f && t.pre == va / 2 ^ entryShift t.entry.toNat t.level

/-- What a translation that starts from a cached entry finds. -/
def Tlb.result (s : State) (va : Nat) (t : Tlb) : Walk := entryWalk s t.entry.toNat 0 t.level (walkBelow s va t.level)

/-- The results agree but for where the leaf stands. -/
def Walk.same : Walk → Walk → Bool
  | .leaf a, .leaf b => a.entry == b.entry && a.level == b.level
  | .fail, .fail => true
  | .wait, .wait => true
  | _, _ => false

/-- What an access uses: the walk's result, or, where one that starts from a cached entry differs from it, either one (R380). [DESIGN CHOICE, safe: log entry 5] -/
def usedWalk (s : State) (f va : Nat) : Walk :=
  let w := walk s f va
  let c := (s.M.tlb.filter (fun t => t.covers f va)).map (fun t => (t.level, t.result s va))
  ((c.filter (fun x => !x.2.same w)).find? (fun x => Config.freeChoice s.fresh (4 * va + x.1))).elim w (fun x => x.2)

/-- The entries an access used stay cached until a shootdown (R380). -/
def noteTlb (s : State) (f va : Nat) : State :=
  let root := (domainSt s f).xlRoot.toNat
  let es := if bitOf root 0 then walkPath s va (bits root 16 32 * 2 ^ 16) 3 else []
  let new := (es.map (fun e => Tlb.mk f e.1 (va / 2 ^ entryShift e.2 e.1) (BitVec.ofNat 64 e.2))).filter (fun t => !s.M.tlb.contains t)
  { s with M := { s.M with tlb := s.M.tlb ++ new } }

/-- The answer of a translation: a physical address, a trap code, or a frozen page (R384). -/
inductive XRes
  | ok (pa : Nat)
  | fail (code : Nat)
  | frozen
  deriving DecidableEq, Repr

/-- The permission a leaf lacks (R378): RD, WR, XE, and HO against job level. -/
def permOk (e : Nat) (k : AKind) (handler : Bool) : Bool :=
  (match k with
    | .read => bitOf e 52
    | .write => bitOf e 53
    | .rmw => bitOf e 52 && bitOf e 53
    | .fetch => bitOf e 54) && (!bitOf e 58 || handler)

/-- Translate an address (R125 checks 2 to 4, R378); a page that is frozen, by its entry or at its homes, makes the access wait (R384). -/
def translate (s : State) (f : Nat) (handler : Bool) (va : Nat) (k : AKind) : XRes :=
  if 2 ^ 52 ≤ va then .fail k.failCode
  else match usedWalk s f va with
    | .fail => .fail k.failCode
    | .wait => .frozen
    | .leaf w =>
      let e := w.entry.toNat
      let pa := entryPa e + va % leafSize e w.level
      if bitOf e 59 then .frozen
      else if !permOk e k handler then .fail 0x06
      else if s.M.moves.any (fun m => decide (m.oldPa ≤ pa) && decide (pa < m.oldPa + m.size)) then .frozen
      else .ok pa

/-- Translate an address for an access to memory: registers are refused as a permission failure, or are absent (R275). -/
def translateMem (s : State) (f : Nat) (handler : Bool) (va : Nat) (k : AKind) : XRes :=
  match translate s f handler va k with
  | .ok pa =>
    match rangeOf s pa with
    | .regs => .fail 0x06
    | .absent => .fail k.failCode
    | _ => .ok pa
  | r => r

/-! ### Waiting for a frozen page (R384) -/

/-- The stream waits at a frozen page: when it began. An expired wait is marked 0. -/
def Job.stallAt (j : Job) (st : Stream) : Option Nat := smGet j.stallStart (streamCode st)

/-- Translate for a stream of a job: an expired wait ends as the failure its kind gives. -/
def streamXlate (s : State) (j : Job) (st : Stream) (va : Nat) (k : AKind) (regs : Bool) : XRes :=
  let h := j.level == .handler
  match if regs then translate s j.fdom h va k else translateMem s j.fdom h va k with
  | .frozen => if j.stallAt st = some 0 then .fail k.failCode else .frozen
  | r => r

/-- Note that a stream waits at a frozen page, from the first attempt on. -/
def Job.stallNote (s : State) (j : Job) (st : Stream) : Job :=
  match j.stallAt st with
  | some _ => j
  | none => { j with stallStart := smSet j.stallStart (streamCode st) (s.time + 1) }

/-- The stream no longer waits. -/
def Job.stallEnd (j : Job) (st : Stream) : Job := { j with stallStart := smErase j.stallStart (streamCode st) }

/-! ### Shootdown (R381) -/

/-- Drop cached entries of pages `[lo, hi]` of a domain (R381): leaves of any of the pages, non-leaf entries with every page under them in
the range (R380). -/
def shootdown (s : State) (f lo hi : Nat) : State :=
  let gone := fun (t : Tlb) =>
    let n := 2 ^ (entryShift t.entry.toNat t.level - 12)
    let a := t.pre * n
    let b := a + n - 1
    t.fdom == f && (if t.entry.getLsbD 6 then decide (a ≤ hi) && decide (lo ≤ b) else decide (lo ≤ a) && decide (b ≤ hi))
  { s with M := { s.M with tlb := s.M.tlb.filter (fun t => !gone t) } }

/-- Whether any access to the page in `f` is in a move (R383). -/
def frozenPage (s : State) (f va : Nat) : Bool := translate s f true va .read == .frozen

end Sys2Proof.Machine
end

