-- ==== Sys2Proof/Machine/Context.lean ====
section
/-!
DEFINITION. Context records (R365 to R369, R450): the sections of a full context and their bytes, the lite context, and reading the
sections a handler may edit back (R374). The spec fixes no layout inside the digest section, the slot tags and claim map, the granule tags
and the status buffer: those bytes are in a layout of the model's own (log entry 8).
-/
namespace Sys2Proof.Machine

/-- Round up to 64 bytes. -/
def up64 (n : Nat) : Nat := (n + 63) / 64 * 64

/-- The sections of a full context after the cut record, with their bytes (R367). -/
inductive Sec
  | control | sregs | aregs | loops (e : EStream) | masks | queue (n : Nat) | spill | digest | accs | slots | window | journal (e : EStream)
  deriving DecidableEq, Repr

/-- The engine streams a header names. -/
def Job.present (j : Job) : List EStream := [EStream.L, .X, .T].filter j.has

/-- The sections present, in order. -/
def Job.secs (j : Job) : List Sec :=
  [.control, .sregs]
    ++ (if j.nAreg .L + j.nAreg .X + j.nAreg .T = 0 then [] else [.aregs])
    ++ (j.present.map Sec.loops)
    ++ (if j.has .X then [.masks] else [])
    ++ (((List.range 16).filter j.qmap).map Sec.queue)
    ++ (if j.nSpill = 0 then [] else [.spill])
    ++ (if j.has .L then [.digest] else [])
    ++ (if j.nAcc = 0 then [] else [.accs])
    ++ (if j.nSlot = 0 then [] else [.slots])
    ++ (if j.spad = 0 then [] else [.window])
    ++ (([EStream.L, .T].filter j.has).map Sec.journal)

/-- The bytes of a section. -/
def Job.secLen (j : Job) : Sec → Nat
  | .control => 256
  | .sregs => 8 * j.nSreg + 8
  | .aregs => 8 * (j.nAreg .L + j.nAreg .X + j.nAreg .T)
  | .loops _ => 104
  | .masks => 1792
  | .queue _ => 64
  | .spill => 8 * j.nSpill
  | .digest => 256
  | .accs => 16384 * j.nAcc
  | .slots => 64 + 3072 * j.nSlot
  | .window => j.spad / 8 + j.spad
  | .journal _ => 96 * 16

/-- Where each section starts, given where the first does. -/
def secOffsets (j : Job) : Nat → List Sec → List (Sec × Nat)
  | _, [] => []
  | o, c :: r => (c, o) :: secOffsets j (up64 (o + j.secLen c)) r

/-- The size of a full context, cut record included (R367). -/
def Job.ctxLen (j : Job) : Nat := j.secs.foldl (fun o c => up64 o + j.secLen c) 128

/-- The reserved area: the full context rounded up to 64 bytes and 512 bytes of status buffer (R360). -/
def Job.reserveLen (j : Job) : Nat := up64 j.ctxLen + 512

/-- A word as 8 bytes. -/
def w8 (v : Nat) : List Byte := natLe 8 v

/-- A copy shape as 128 bits (R17). -/
def CShape.enc (c : CShape) : Nat := c.pstride.toNat * 2 ^ 80 + c.planes.toNat * 2 ^ 64 + c.rows.toNat * 2 ^ 24 + c.rowb.toNat
/-- A copy shape from 128 bits. -/
def CShape.dec (n : Nat) : CShape := ⟨fld 48 n 80, fld 16 n 64, fld 24 n 24, fld 24 n 0⟩

/-- The control section (R450). -/
def controlBytes (c : JobCore) : List Byte :=
  w8 (c.S.p.toNat ||| 1) ++ w8 c.flags.toNat
    ++ (c.fmt.toList.map (fun f => w8 f.toNat)).flatten
    ++ w8 c.rlo.toNat ++ w8 c.rhi.toNat ++ w8 c.rstat.toNat ++ w8 c.rpos.toNat ++ w8 c.leaseb
    ++ w8 (match c.lease with | some b => 2 ^ 63 + b | none => 0)
    ++ w8 (match c.vs with | some g => 2 ^ 63 + g.fmt.toNat * 2 ^ 12 + g.count | none => 0)
    ++ w8 (match c.ms with | some g => 2 ^ 63 + (g.p - 1) * 2 ^ 8 + g.rows | none => 0)
    ++ w8 c.thr.toNat
    ++ natLe 16 c.L.shape.enc ++ natLe 16 c.T.shape.enc ++ natLe 112 0

/-- A loop stack (R367): depth, then four entries. -/
def loopBytes (l : List LoopEnt) : List Byte :=
  let e := (l.reverse.map (fun x => w8 x.first.toNat ++ w8 x.last.toNat ++ w8 x.remaining)).flatten
  w8 l.length ++ e ++ natLe (96 - e.length) 0

/-- An engine stream in a core. -/
def JobCore.eng (c : JobCore) : EStream → Eng
  | .L => c.L
  | .X => c.X
  | .T => c.T

/-- Which of D, A and B an engine word of L or T has as operands (R217). -/
def opUse : Instr → Bool × Bool × Bool
  | .cpy _ | .cpyg _ | .cpym _ | .cps _ | .acw _ | .cas _ | .cpst _ => (true, true, true)
  | .cpyd w => (!w.func.getLsbD 1, true, true)
  | .prel _ | .scat _ | .cshape _ _ => (false, true, true)
  | .dgst _ | .loop _ _ => (false, true, false)
  | .acwf _ | .aset _ _ | .aadd _ _ => (true, true, false)
  | .flsh _ | .invl _ => (true, false, true)
  | .aq _ _ => (true, false, false)
  | _ => (false, false, false)

/-- Operand values in the order D, A, B, zero for one the word does not have. -/
def spread (u : Bool × Bool × Bool) (v : List Word) : List Word :=
  let d := if u.1 then v.take 1 else [0]
  let v := if u.1 then v.drop 1 else v
  let a := if u.2.1 then v.take 1 else [0]
  let v := if u.2.1 then v.drop 1 else v
  d ++ a ++ (if u.2.2 then v.take 1 else [0])

/-- A journal entry (R368). -/
def journalBytes (st : Nat) (i : InFlight) : List Byte :=
  w8 i.pc.toNat ++ w8 (st * 2 ^ 62 + i.pops.length * 2 ^ 48 + i.seq % 2 ^ 48) ++ natLe 16 i.bits
    ++ ((spread (opUse i.word) i.ops).map (fun (v : Word) => w8 v.toNat)).flatten
    ++ (((i.pops ++ [0, 0, 0]).take 3).map (fun (v : Word) => w8 v.toNat)).flatten ++ natLe 16 i.shape.enc

/-- An accumulator's 4,096 elements (R29). -/
def accBytes (a : Acc) : List Byte := ((List.range 4096).map (fun i => natLe 4 (smGetD a.z i 0).toNat)).flatten

/-- A digest context as bytes: the hash value, the bytes of the block begun, the count. [DESIGN CHOICE, unsafe: log entry 8] -/
def digestBytes (d : Digest) : List Byte :=
  ((List.range 8).map (fun i => w8 (d.h.getD i 0).toNat)).flatten ++ d.part ++ natLe (128 - d.part.length) 0 ++ natLe 16 d.count ++ natLe 48 0

/-- A granule's tag as a word: present, format, line number. [DESIGN CHOICE, unsafe: log entry 8] -/
def granuleWord (t : Option (Nat × Nat)) : Nat :=
  match t with
  | some t => 2 ^ 63 + t.1 % 128 * 2 ^ 56 + t.2 % 2 ^ 56
  | none => 0

/-- The bytes of a section; the digest, the granule tags and the slot map are the model's own layout. [DESIGN CHOICE, unsafe: log entry 8] -/
def secBytes (j : Job) (c : JobCore) : Sec → List Byte
  | .control => controlBytes c
  | .sregs => ((c.S.s.toList.take j.nSreg).map (fun v => w8 v.toNat)).flatten ++ w8 (c.S.s.toList.getD 63 0).toNat
  | .aregs => (j.present.map (fun e => (((c.eng e).a.toList.take (j.nAreg e)).map (fun v => w8 v.toNat)).flatten)).flatten
  | .loops e => loopBytes (c.eng e).loops
  | .masks => ((c.masks.toList.drop 1).map (fun m => natLe 256 m.toNat)).flatten
  | .queue n => let q := (c.Q.q.toList.getD n []).map (fun v => w8 v.toNat); let b := q.flatten; b ++ natLe (64 - b.length) 0
  | .spill => ((List.range j.nSpill).map (fun i => w8 (smGetD c.spill i 0).toNat)).flatten
  | .digest => digestBytes c.digest
  | .accs => ((List.range j.nAcc).map (fun i => accBytes (smGetD c.accs i Acc.reset))).flatten
  | .slots =>
    ((List.range 64).map (fun i => match smGet c.slots i with | some t => BitVec.ofNat 8 (128 + t.tag) | none => 0))
      ++ ((List.range j.nSlot).map (fun i => match smGet c.slots i with | some t => memBytes t.data 0 3072 | none => natLe 3072 0)).flatten
  | .window =>
    ((List.range (j.spad / 64)).map (fun g => w8 (granuleWord (smGet c.win.tags g)))).flatten
      ++ winBytes c.win 0 j.spad
  | .journal e => ((c.eng e).journal.map (journalBytes (streamCode e.toStream))).flatten

/-- KIND of a cut record (R365). -/
def CutKind.code : CutKind → Nat
  | .forced => 0
  | .trap => 1
  | .breakpoint => 2
  | .lite => 3

/-- The cut record of a full context (R365); a forced cut records CAUSE 0x0F with TRAPV 0 (R32). [DEDUCED, unsafe: log entry 83] -/
def cutBytes (k : Nat) (j : Job) (c : JobCore) (kind : CutKind) : List Byte :=
  let tok := fun i => c.Q.tok.toList.getD i 0
  let cause := match kind with | .forced => 0x0F | _ => j.trapc.toNat % 256
  w8 (jobid k j) ++ w8 c.S.seq ++ w8 c.L.seq ++ w8 c.X.seq ++ w8 c.T.seq
    ++ w8 (tok 0 + tok 1 * 16 + tok 2 * 256 + tok 3 * 4096)
    ++ w8 (((List.range 16).map (fun n => (c.Q.q.toList.getD n []).length * 16 ^ n)).foldl (· + ·) 0)
    ++ w8 (kind.code * 2 ^ 26 + (if kind = .forced then 0 else j.trappc.toNat / 2 ^ 62) * 2 ^ 24 + cause * 2 ^ 16
            + c.T.journal.length * 2 ^ 8 + c.L.journal.length)
    ++ w8 c.S.pc.toNat ++ w8 c.L.pc.toNat ++ w8 c.X.pc.toNat ++ w8 c.T.pc.toNat
    ++ w8 (if kind = .forced then 0 else j.trapv.toNat) ++ w8 j.trappc.toNat ++ w8 j.ctxLen ++ w8 0

/-- A lite save: cut record of KIND 3, then the S PC and s1 to s15 (R369). -/
def liteBytes (k : Nat) (j : Job) (c : JobCore) : List Byte :=
  w8 (jobid k j) ++ w8 c.S.seq ++ w8 c.L.seq ++ w8 c.X.seq ++ w8 c.T.seq ++ w8 0 ++ w8 0 ++ w8 (3 * 2 ^ 26)
    ++ w8 c.S.pc.toNat ++ w8 c.L.pc.toNat ++ w8 c.X.pc.toNat ++ w8 c.T.pc.toNat ++ w8 0 ++ w8 0 ++ w8 256 ++ w8 0
    ++ w8 c.S.pc.toNat ++ (((c.S.s.toList.drop 1).take 15).map (fun v => w8 v.toNat)).flatten

/-! ### Writing and reading through the domain's pages -/

/-- Split `n` bytes at `va` into pieces within a page. -/
def pieces (va : Nat) : Nat → Nat → List (Nat × Nat)
  | 0, _ => []
  | _, 0 => []
  | fuel + 1, n =>
    let m := Nat.min n (4096 - va % 4096)
    (va, m) :: pieces (va + m) fuel (n - m)

/-- The pieces of an access. -/
def pagePieces (va n : Nat) : List (Nat × Nat) := pieces va (n / 4096 + 2) n

/-- What the pages of an area answer to an access of the device for a domain: all translate; or the first that does not is in a move, where the
access waits (R384), or fails. -/
inductive Pages
  | ok | moving | bad
  deriving DecidableEq, Repr

/-- What the pages of `n` bytes at `va` answer. -/
def areaPages (s : State) (f va n : Nat) (a : AKind) : Pages :=
  ((pagePieces va n).findSome? (fun p => match translateMem s f true p.1 a with
    | .ok _ => none
    | .frozen => some Pages.moving
    | .fail _ => some Pages.bad)).getD .ok

/-- The access waits at a page in a move. -/
def areaMoves (s : State) (f va n : Nat) (a : AKind) : Bool := areaPages s f va n a == .moving

/-- Every page of `n` bytes at `va` can be written by the device for domain `f`. -/
def canWrite (s : State) (f va n : Nat) : Bool := areaPages s f va n .write == .ok

/-- The device can read `n` bytes at a virtual address for domain `f`. -/
def canRead (s : State) (f va n : Nat) : Bool :=
  (pagePieces va n).all (fun p => match translateMem s f true p.1 .read with
    | .ok pa => (linesOf pa p.2).all (fun l => !poisoned s l)
    | _ => false)

/-- Write bytes at a virtual address for domain `f`; pages that do not translate are skipped (the caller checks `canWrite`). -/
def virtWrite (s : State) (f va : Nat) (l : List Byte) : State :=
  ((pagePieces va l.length).foldl (fun (a : State × List Byte) p =>
    match translateMem s f true p.1 .write with
    | .ok pa => (agentSetBytes (poisonWrite a.1 pa p.2) pa (a.2.take p.2), a.2.drop p.2)
    | _ => (a.1, a.2.drop p.2)) (s, l)).1

/-- Read bytes at a virtual address for domain `f`; a page that does not translate reads as zeros. -/
def virtBytes (s : State) (f va n : Nat) : List Byte :=
  ((pagePieces va n).map (fun p =>
    match translateMem s f true p.1 .read with
    | .ok pa => cBytes s pa p.2
    | _ => natLe p.2 0)).flatten

/-- The instruction word at a virtual address, a page in a move included. -/
def codeWord (s : State) (f va : Nat) : Nat :=
  match usedWalk s f va with
  | .leaf w => leNat (cBytes s (entryPa w.entry.toNat + va % leafSize w.entry.toNat w.level) 4)
  | _ => 0

/-- A word read so. -/
def virtWord (s : State) (f va : Nat) : Nat := leNat (virtBytes s f va 8)

/-- Write the full context of job `j` with state `c` at `va` (R367). -/
def writeContext (s : State) (k : Nat) (j : Job) (c : JobCore) (kind : CutKind) (va : Nat) : State :=
  (secOffsets j 128 j.secs).foldl (fun s p => virtWrite s j.fdom (va + p.2) (secBytes j c p.1))
    (virtWrite s j.fdom va (cutBytes k j c kind))

/-! ### What a record must keep (R374, R450) -/

/-- Entry `i` of a threshold table. -/
def thrEntry (t i : Nat) : Nat := bits t (16 * i) 16
/-- The shape of an entry: 8, 16, 32 or 64 rows. -/
def thrRows (e : Nat) : Nat := 8 * 2 ^ bits e 8 2
/-- R193. -/
def thrValid (t : Nat) : Bool :=
  (List.range 4).all (fun i =>
    let e := thrEntry t i
    bits e 10 6 == 0 && !bitOf e 7 && decide (1 ≤ bits e 0 7) && decide (bits e 0 7 ≤ thrRows e)
      && (i == 0 || (decide (bits (thrEntry t (i - 1)) 0 7 ≤ bits e 0 7) && decide (bits (thrEntry t (i - 1)) 8 2 ≤ bits e 8 2))))

/-- A control section keeps its registers' rules (R450): reserved bits, formats, positions, lease, granted shapes, thresholds, copy shapes. -/
def controlOk (j : Job) (l : List Byte) : Bool :=
  let g := fun i => leNat ((l.drop (8 * i)).take 8)
  decide (g 0 < 2 ^ 8) && decide (g 1 < 2 ^ 9) && decide (g 2 < 2 ^ 32) && decide (g 3 < 2 ^ 32) && decide (g 4 < 2 ^ 32)
    && decide (g 5 < 2 ^ 48) && decide (g 6 < 2 ^ 48) && bits (g 7) 16 48 == 0 && bits (g 7) 4 4 == 0 && decide (g 8 < 2 ^ 48)
    && decide (g 9 ≤ j.leaseMax) && (decide (1 ≤ g 9) || j.leaseMax == 0)
    && (if bitOf (g 10) 63 then bits (g 10) 8 55 == 0 && decide (1 ≤ bits (g 10) 0 8) && decide (bits (g 10) 0 8 ≤ j.leaseMax) else g 10 == 0)
    && (if bitOf (g 11) 63 then bits (g 11) 16 47 == 0 && decide (1 ≤ bits (g 11) 0 12)
          && decide (bits (g 11) 0 12 ≤ Nat.min 2048 (65536 / ((vsFmt g (bits (g 11) 12 4)).map NFmt.cont).getD 8)) else g 11 == 0)
    && (if bitOf (g 12) 63 then bits (g 12) 12 51 == 0 && bits (g 12) 7 1 == 0 && [8, 16, 32, 64].contains (bits (g 12) 0 7) else g 12 == 0)
    && thrValid (g 13) && (List.range 14).all (fun i => g (18 + i) == 0)
    && (j.has .L || (g 14 == 0 && g 15 == 0)) && (j.has .T || (g 16 == 0 && g 17 == 0))
    && decide (g 15 < 2 ^ 64) && CShape.enc (CShape.dec (g 14 + g 15 * 2 ^ 64)) == g 14 + g 15 * 2 ^ 64
    && CShape.enc (CShape.dec (g 16 + g 17 * 2 ^ 64)) == g 16 + g 17 * 2 ^ 64
where
  /-- The format of a granted shape's code, a descriptor out of the section. -/
  vsFmt (g : Nat → Nat) (c : Nat) : Option NFmt := if 12 ≤ c ∧ c ≤ 14 then descFmt (g (c - 10)) else builtinFmt c

/-- Bytes of the cut record that nothing may change: all but STRM, CAUSE and KIND, TRAPV and TRAPPC. -/
def cutFixed (l : List Byte) : List Byte := l.take 58 ++ (l.drop 64).take 32 ++ l.drop 112

/-- The sections that a handler may not edit stand as they were written, and the control section keeps its rules (R374, R450). -/
def recordKept (s : State) (k : Nat) (j : Job) (c : JobCore) (va : Nat) : Bool :=
  cutFixed (virtBytes s j.fdom va 128) == cutFixed (cutBytes k j c .trap)
    && (secOffsets j 128 j.secs).all (fun p =>
      let l := virtBytes s j.fdom (va + p.2) (j.secLen p.1)
      match p.1 with
      | .control => controlOk j l
      | .queue _ => l == secBytes j c p.1
      | .journal _ => let b := secBytes j c p.1; l.take b.length == b
      | _ => true)

/-- An undefined value of a job: number `i` of the step. -/
def looseWord (s : State) (i : Nat) : Word := Config.freeWord (2 ^ 64 * (s.fresh + 1) + i)

/-- The results of a job are undefined (R8, R374, R450): its registers, queue entries and spill store are free values. [DESIGN CHOICE, unsafe: log entry 114] -/
def looseCore (s : State) (c : JobCore) : JobCore :=
  let eng := fun (n : Nat) (e : Eng) => { e with a := Vector.ofFn (fun (i : Fin 16) => looseWord s (64 * n + i.val)) }
  { c with
    S := { c.S with s := Vector.ofFn (fun (i : Fin 64) => if i.val = 0 then 0 else looseWord s i.val), p := BitVec.ofNat 8 ((looseWord s 512).toNat ||| 1) }
    L := eng 1 c.L
    X := eng 2 c.X
    T := eng 3 c.T
    Q := { c.Q with q := Vector.ofFn (fun (n : Fin 16) =>
      (List.range (c.Q.q.toList.getD n.val []).length).map (fun i => looseWord s (1024 + 16 * n.val + i))) }
    spill := c.spill.map (fun e => (e.1, looseWord s (2048 + e.1))) }

/-! ### Reading the editable sections back (R374, R450) -/

/-- The words of a byte list. -/
def wordsOf (l : List Byte) : Nat → List Word
  | 0 => []
  | n + 1 => BitVec.ofNat 64 (leNat (l.take 8)) :: wordsOf (l.drop 8) n

/-- Overwrite the first elements of a vector. -/
def vecFrom {n : Nat} (v : Vector Word n) (l : List Word) : Vector Word n :=
  (l.foldl (fun (a : Vector Word n × Nat) w => (a.1.setIfInBounds a.2 w, a.2 + 1)) (v, 0)).1

/-- The control section. -/
def readControl (c : JobCore) (l : List Byte) : JobCore :=
  let w := wordsOf l 18
  let g := fun i => (w.getD i 0).toNat
  let L := { c.L with shape := CShape.dec (g 14 + g 15 * 2 ^ 64) }
  let T := { c.T with shape := CShape.dec (g 16 + g 17 * 2 ^ 64) }
  { c with
    S := { c.S with p := BitVec.ofNat 8 (g 0 ||| 1) }
    flags := BitVec.ofNat 9 (g 1)
    fmt := #v[BitVec.ofNat 32 (g 2), BitVec.ofNat 32 (g 3), BitVec.ofNat 32 (g 4)]
    rlo := BitVec.ofNat 48 (g 5)
    rhi := BitVec.ofNat 48 (g 6)
    rstat := BitVec.ofNat 64 (bits (g 7) 8 8 * 256 + bits (g 7) 0 3)
    rpos := BitVec.ofNat 48 (g 8)
    leaseb := g 9 % 256
    lease := if bitOf (g 10) 63 then some (g 10 % 256) else none
    vs := if bitOf (g 11) 63 then some ⟨bits (g 11) 0 12, BitVec.ofNat 4 (bits (g 11) 12 4)⟩ else none
    ms := if bitOf (g 12) 63 then some ⟨bits (g 12) 0 7, bits (g 12) 8 4 + 1⟩ else none
    thr := BitVec.ofNat 64 (g 13)
    L := L
    T := T }

/-- A loop stack. -/
def readLoops (l : List Byte) : List LoopEnt :=
  let w := wordsOf l 13
  let n := Nat.min (w.getD 0 0).toNat 4
  ((List.range n).map (fun i => LoopEnt.mk (w.getD (1 + 3 * i) 0) (w.getD (2 + 3 * i) 0) (w.getD (3 + 3 * i) 0).toNat)).reverse

/-- Write an engine stream in a core. -/
def JobCore.setEng (c : JobCore) (e : EStream) (v : Eng) : JobCore :=
  match e with
  | .L => { c with L := v }
  | .X => { c with X := v }
  | .T => { c with T := v }

/-- An accumulator from its bytes. -/
def readAcc (l : List Byte) : Nat → SMap (BitVec 32) → SMap (BitVec 32)
  | 0, m => m
  | n + 1, m => smPut 0 (readAcc l n m) n (BitVec.ofNat 32 (leNat ((l.drop (4 * n)).take 4)))

/-- A digest context from its bytes. [DESIGN CHOICE, unsafe: log entry 8] -/
def readDigest (l : List Byte) : Digest :=
  let n := leNat ((l.drop 192).take 16)
  ⟨if n < 128 then [] else wordsOf l 8, (l.drop 64).take (n % 128), n⟩

/-- The claimed slots from their tags and bytes; units that had failed stay so (R420). [DESIGN CHOICE, unsafe: log entry 8] -/
def readSlots (c : JobCore) (l : List Byte) : SMap Slot :=
  (List.range 64).filterMap (fun i =>
    let b := (l.getD i 0).toNat
    if 128 ≤ b then some (i, ⟨memWriteBytes [] 0 ((l.drop (64 + 3072 * i)).take 3072), b - 128, ((smGet c.slots i).map Slot.bad).getD []⟩) else none)

/-- The granule tags of `n` granules. [DESIGN CHOICE, unsafe: log entry 8] -/
def readTags (l : List Byte) (n : Nat) : SMap (Nat × Nat) :=
  (List.range n).filterMap (fun g =>
    let v := leNat ((l.drop (8 * g)).take 8)
    if bitOf v 63 then some (g, (bits v 56 7, v % 2 ^ 56)) else none)

/-- A section's bytes back into the state; queue and journal sections are not editable (R374). -/
def readSec (j : Job) (c : JobCore) (l : List Byte) : Sec → JobCore
  | .control => readControl c l
  | .sregs =>
    let w := wordsOf l (j.nSreg + 1)
    { c with S := { c.S with s := (vecFrom c.S.s (w.take j.nSreg)).setIfInBounds 63 (w.getD j.nSreg 0) } }
  | .aregs =>
    (j.present.foldl (fun (a : JobCore × List Byte) e =>
      let n := j.nAreg e
      (a.1.setEng e { a.1.eng e with a := vecFrom (a.1.eng e).a (wordsOf a.2 n) }, a.2.drop (8 * n))) (c, l)).1
  | .loops e => c.setEng e { c.eng e with loops := readLoops l }
  | .masks =>
    let ms := (List.range 7).map (fun i => BitVec.ofNat 2048 (leNat ((l.drop (256 * i)).take 256)))
    { c with masks := (ms.foldl (fun (a : Vector (BitVec 2048) 8 × Nat) m => (a.1.setIfInBounds a.2 m, a.2 + 1)) (c.masks, 1)).1 }
  | .queue _ => c
  | .spill =>
    let w := wordsOf l j.nSpill
    { c with spill := (w.foldl (fun (a : SMap Word × Nat) v => (smPut 0 a.1 a.2 v, a.2 + 1)) ([], 0)).1 }
  | .digest => { c with digest := readDigest l }
  | .accs =>
    { c with accs := (List.range j.nAcc).foldl (fun m i =>
        smPut Acc.reset m i ⟨readAcc (l.drop (16384 * i)) 4096 [], [], []⟩) [] }
  | .slots => { c with slots := readSlots c l }
  | .window =>
    { c with win := { c.win with free := none, bytes := memWriteBytes [] 0 ((l.drop (j.spad / 8)).take j.spad), tags := readTags l (j.spad / 64) } }
  | .journal _ => c

/-- The state a full context at `va` holds, over the saved state `c` (R371, R374). -/
def readContext (s : State) (j : Job) (c : JobCore) (va : Nat) : JobCore :=
  (secOffsets j 128 j.secs).foldl (fun c p => readSec j c (virtBytes s j.fdom (va + p.2) (j.secLen p.1)) p.1) c

/-- What a restore from the record of a job in slot `k` gives; an edit that R374 or R450 does not admit makes the job's results undefined. -/
def restoreContext (s : State) (k : Nat) (j : Job) (c : JobCore) : JobCore :=
  let va := j.ctxAddr.toNat
  let r := readContext s j c va
  if recordKept s k j c va then r else looseCore s r

/-- What a lite resume takes from its record (R13, R369): the engine PCs, the S PC, s1 to s15. -/
def readLite (s : State) (j : Job) (c : JobCore) : JobCore :=
  let w := wordsOf (virtBytes s j.fdom j.ctxAddr.toNat 256) 32
  let g := fun i => w.getD i 0
  { c with
    S := { c.S with pc := g 16, s := (List.range 15).foldl (fun (v : Vector Word 64) i => v.setIfInBounds (i + 1) (g (17 + i))) c.S.s }
    L := { c.L with pc := g 9 }
    X := { c.X with pc := g 10 }
    T := { c.T with pc := g 11 } }

/-- The job holds an area in its domain's save pool (R360). -/
def hasArea (s : State) (j : Job) : Bool := (domainSt s j.fdom).reserves.any (fun r => r.uid == j.uid)

/-- The entries that wait for a job are written to its status buffer, oldest first (R23, R360). [DESIGN CHOICE, unsafe: log entry 8] -/
def keepStatus (s : State) (uid : Nat) : State :=
  match (s.jobs ++ s.saved).find? (fun e => e.2.uid == uid) with
  | none => s
  | some (_, j) =>
    let q := (j.snap.getD j.core).Q.sbuf
    if hasArea s j then virtWrite s j.fdom (j.ctxAddr.toNat + up64 j.ctxLen) ((q.map (fun v => w8 v.toNat)).flatten) else s

end Sys2Proof.Machine
end

