-- ==== Sys2Proof/Machine/Ops.lean ====
section
/-!
DEFINITION. What ends, stops and restarts a job: retiring X words, aborting a region, the cut (R364), abandoning a context (R372), the S
slot (R239), leases at a stop (R215), barrier sets (R138); taking a trap (R373) and returning from one (R148, R374) as one operation
each; and the frame in which every S instruction executes (R87, R104, R106, R124, R374).
-/
namespace Sys2Proof.Machine

/-- An answer of the machine. -/
abbrev Out := Host.Outcome State Fault Refusal

/-! ### The S slot (R239) -/

/-- The job's S could issue if it held the slot. -/
def Job.sReady (j : Job) : Bool := j.phase == .running && j.pend != .parked && (match j.pend with | .barc _ => false | _ => true)

/-- The slot passes from job `k` to the next job in slot order whose S is ready, else it is idle. -/
def passSlot (s : State) (k : Nat) : State :=
  let c := coreSt s (jCoreKey k)
  if c.holder = some k || c.holder = none then
    let next := ([1, 2, 3, 4].map (fun i => k / 4 * 4 + (k % 4 + i) % 4)).find? (fun x =>
      match jobAt s x with | some j => j.sReady | none => false)
    setCore s (jCoreKey k) { c with holder := next }
  else s

/-- The S of job `k` has become ready: an idle slot is its (R239). -/
def wakeSlot (s : State) (k : Nat) : State :=
  let c := coreSt s (jCoreKey k)
  let free := match c.holder with
    | none => true
    | some h => match jobAt s h with | some j => !j.sReady | none => true
  if free && ((jobAt s k).map Job.sReady).getD false then setCore s (jCoreKey k) { c with holder := some k } else s

/-- Job `k` holds the slot, or takes it because no S that is ready does. -/
def takeSlot (s : State) (k : Nat) : Option State :=
  let c := coreSt s (jCoreKey k)
  match c.holder with
  | none => some (setCore s (jCoreKey k) { c with holder := some k })
  | some h =>
    if h = k then some s
    else match jobAt s h with
      | some j => if j.sReady then none else some (setCore s (jCoreKey k) { c with holder := some k })
      | none => some (setCore s (jCoreKey k) { c with holder := some k })

/-! ### Leases and barriers at the end of a stay -/

/-- The remaining budget when job `k` holds its cluster's lease (R215). -/
def leaseOf (s : State) (k : Nat) : Option Nat :=
  match (clusterSt s (jCluster k)).lease with
  | some l => if l.job = k ∧ 0 < l.budget then some l.budget else none
  | none => none

/-- The job's looked-up word no longer waits for a frame (R210). -/
def leaveFrames (s : State) (k : Nat) : State :=
  let c := clusterSt s (jCluster k)
  setCluster s (jCluster k) { c with waitKey := c.waitKey.filter (fun w => w.1 != k) }

/-- The job's lease ends; a waiting request of the job is withdrawn (R213, R215). A request is `256 * slot + budget`. -/
def leaseEnd (s : State) (k : Nat) : State :=
  let c := clusterSt s (jCluster k)
  let c := { c with leaseWait := c.leaseWait.filter (fun w => w / 256 != k) }
  match c.lease with
  | some l => setCluster s (jCluster k) (if l.job = k then { c with lease := none, lastLease := jCore k } else c)
  | none => setCluster s (jCluster k) c

/-- A job leaves the barrier sets it has not arrived at (R138). -/
def barrierLeave (s : State) (uid : Nat) : State :=
  { s with clusters := s.clusters.map (fun e =>
      (e.1, { e.2 with barriers := e.2.barriers.map (fun b =>
        if (smGet b.arrived uid).isSome then b else { b with parts := b.parts.filter (· != uid) }) })) }

/-! ### Slalom: abort (R139, R311) -/

/-- RSTAT with ACTIVE clear and the cause set. -/
def rstatAbort (r : Word) (cause : Nat) : Word := BitVec.ofNat 64 (r.toNat / 256 * 256 + cause)

/-- The edges of slot `k`'s region are dropped without narrowing anyone, and the lines it has gathered are released (R304, R307). -/
def dropEdges (s : State) (k : Nat) : State :=
  { s with
    jobs := s.jobs.map (fun e => (e.1, { e.2 with region := e.2.region.map (fun q =>
      { q with succ := q.succ.filter (· != k), pred := q.pred.filter (· != k) }) }))
    M := { s.M with committing := s.M.committing.filter (fun e => e.2 != k) } }

/-- The abort action (R139): stores discarded, edges dropped without narrowing anyone, ACTIVE clear, CAUSE set, PC at the handler. -/
def abortRegion (s : State) (k : Nat) (j : Job) (cause : Nat) : State × Job :=
  match j.region with
  | none => (s, j)
  | some r =>
    let s := dropEdges s k
    let j := { j with region := none, core := { j.core with rstat := rstatAbort j.core.rstat cause } }
    (s, j.setPc r.hpc)

/-! ### Retiring X words and the cut (R157, R191, R233, R364) -/

/-- The queue in which a copy word holds a place while it is in flight (R218). -/
def wordQueue : Instr → Option Nat
  | .cpy w | .cpyg w | .cpyd w | .cpym w => if w.func.getLsbD 18 then some 14 else none
  | .dgst _ => some 14
  | .cps w | .acw w | .cpst w | .flsh w | .invl w => if w.func.getLsbD 18 then some 13 else none
  | .acwf _ | .cas _ | .scat _ => some 13
  | _ => none

/-- The queue in which a word in flight holds a place. -/
def statusQueue (i : InFlight) : Option Nat := wordQueue i.word

/-- The token bits of an engine word. -/
def tokBits : Instr → BitVec 4
  | .cpy w | .cpyg w | .cpyd w | .cpym w | .prel w | .dgst w => w.tok
  | .cps w | .acw w | .acwf w | .cas w | .cpst w | .scat w | .flsh w | .invl w => w.tok
  | .aq _ w | .aset _ w | .aadd _ w | .ejoin _ w | .enop _ w | .cshape _ w | .loop _ w => w.tok
  | .mshape w | .mma w | .mmas w | .mlda w | .mclm w | .mrel w | .macr w | .mzero w | .mfill w | .mpin w | .munp w | .minv w => w.tok
  | .mqry w | .mrep w | .mlse w | .mlrl w | .mthr w => w.tok
  | .vshape w | .vadd w | .vsub w | .vmul w | .vfma w | .vmin w | .vmax w | .vabs w | .vneg w | .vand w | .vor w | .vxor w => w.tok
  | .vshl w | .vshr w | .vcmp w | .vsel w | .vcvt w | .vqnt w | .vdq w | .vexp w | .vrcp w | .vrsq w | .vtanh w | .vred w => w.tok
  | .vscan w | .vgmax w | .vtopk w | .vnorm w | .vcopy w | .vfill w | .viota w | .vgath w | .vscat w | .vtran w => w.tok
  | .vmskAnd w | .vmskOr w | .vmskXor w | .vmskAndn w | .vmskNot w | .vmskFirst w | .vmskCount w | .vmskLd w | .vmskSt w => w.tok
  | _ => 0

/-- Frames leave the cluster; a lease no longer protects them (R215). -/
def eraseFrames (c : Cluster) (p : Nat → Frame → Bool) : Cluster :=
  let gone := (c.frames.filter (fun e => p e.1 e.2)).map (fun e => e.1)
  { c with frames := c.frames.filter (fun e => !p e.1 e.2),
           lease := c.lease.map (fun l => { l with named := l.named.filter (fun x => !gone.contains x) }) }

/-- The frames, by the stamp of their making, that returned a failed element are dropped after the word (R200). -/
def dropFrames (s : State) (cl : Nat) (fs : List Nat) : State :=
  if fs.isEmpty then s else setCluster s cl (eraseFrames (clusterSt s cl) (fun _ f => fs.contains f.born))

/-- A word of X retires: what it lands, its q12 entries, its tokens, SEQX (R28, R156, R191). -/
def Job.retireX (fresh : Nat) (j : Job) (i : InFlight) : Job :=
  let j := (j.land i.eff).winUse fresh .X i.seq i.know (cellSpans (i.eff.win.map (fun c => c.1))) true
  let j := i.eff.push.foldl (fun (j : Job) v => ((j.qRes 12 false).qPush 12 v).post 12 3) j
  let j := j.tokRetire .X (tokBits i.word)
  { j with core := { j.core with X := { j.core.X with seq := j.core.X.seq + 1, inflight := j.core.X.inflight.drop 1 } } }

/-- Every issued vector and matrix word retires whole (R364). -/
def landAll (s : State) (k : Nat) (j : Job) : State × Job :=
  j.core.X.inflight.foldl (fun (a : State × Job) i =>
    (traceWord (dropFrames a.1 (jCluster k) i.eff.dropFrames) k a.2 .X i.pc i.seq, a.2.retireX s.fresh i)) (s, j)

/-- An L or T word gives back the places it holds (R364). -/
def Job.unplace (e : EStream) (j : Job) (i : InFlight) : Job :=
  let j := j.tokUnres e (tokBits i.word)
  match statusQueue i with
  | some q => j.qRes q false
  | none => j

/-- A replayed L or T word takes its places again (R371). -/
def Job.place (e : EStream) (j : Job) (i : InFlight) : Job :=
  let j := (tokPushes e (tokBits i.word)).foldl (fun (j : Job) f => j.setTok f (j.tok f) (j.tokRes f + 1)) j
  match statusQueue i with
  | some q => j.qRes q true
  | none => j

/-- The word carries a once-only guard (R234). -/
def guarded : Instr → Bool
  | .acw _ | .acwf _ | .cas _ | .scat _ => true
  | _ => false

/-- The guard of a unit of a word of the job. -/
def Guard.names (g : Guard) (j : Job) (seq : Nat) : Bool :=
  g.fdom == j.fdom && g.serial == j.serial && g.ticket == j.ticket && g.stream == 3 && g.seq == seq

/-- The once-only result a port keeps for a unit of the word (R234). [DEDUCED, unsafe: log entry 75] -/
def guardOf (s : State) (j : Job) (seq u : Nat) : Option Word := (s.M.guards.find? (fun g => g.names j seq && g.unit == u)).map (·.value)

/-- A port frees the tags of a retired word (R234). -/
def dropGuards (s : State) (j : Job) (seq : Nat) : State := { s with M := { s.M with guards := s.M.guards.filter (fun g => !g.names j seq) } }

/-- The ports keep what a guarded word that stops has applied. [DEDUCED, unsafe: log entry 75] -/
def keepGuards (s : State) (j : Job) (i : InFlight) (kept : List (Nat × Word)) : State :=
  if guarded i.word then
    let new := (kept.filter (fun x => (guardOf s j i.seq x.1).isNone)).map (fun x => Guard.mk j.fdom j.serial j.ticket 3 i.seq x.1 x.2)
    { s with M := { s.M with guards := s.M.guards ++ new } }
  else s

/-- Issued and unretired L or T words are cancelled and journaled (R233). -/
def Job.journalAll (j : Job) (e : EStream) : Job :=
  let fl := (j.eng e).inflight.map (fun i => { i with part := Part.none })
  let j := fl.foldl (Job.unplace e) j
  j.setEng e { j.eng e with journal := fl ++ (j.eng e).journal, inflight := [] }

/-- Replay the journal: its words are in flight again, in order (R371). -/
def Job.replayAll (j : Job) (e : EStream) : Job :=
  let fl := (j.eng e).journal
  let j := fl.foldl (Job.place e) j
  j.setEng e { j.eng e with inflight := fl, journal := [] }

/-- wrap32 of an accumulator element plus a value, and whether it wrapped (R59). -/
def wrap32 (z : BitVec 32) (v : Int) : BitVec 32 × Bool :=
  let r := z.toInt + v
  (BitVec.ofInt 32 r, decide (r < -2 ^ 31) || decide (2 ^ 31 ≤ r))

/-- Promote every pending inner value of an accumulator (R59). [DEDUCED, unsafe: log entry 20] -/
def Acc.promote (a : Acc) : Acc × Bool :=
  a.inner.foldl (fun (r : Acc × Bool) e =>
    let w := wrap32 (smGetD r.1.z e.1 0) e.2.1
    ({ r.1 with z := smPut 0 r.1.z e.1 w.1 }, r.2 || w.2)) ({ a with inner := [] }, false)

/-- Promote all accumulators, before a full-context save (R59). -/
def Job.promoteAll (j : Job) : Job :=
  let r := j.core.accs.foldl (fun (r : SMap Acc × Bool) e =>
    let p := e.2.promote
    (smPut Acc.reset r.1 e.1 p.1, r.2 || p.2)) ([], false)
  let j := { j with core := { j.core with accs := r.1 } }
  if r.2 then j.orFlags 4#9 else j

/-- A job whose BARC waits has not arrived: its BARC issues again after the resume, and a participant stays in the set (R124, R138). [DEDUCED, unsafe: log entry 78] -/
def barrierUndo (s : State) (cl uid : Nat) : State :=
  let c := clusterSt s cl
  let b := c.barriers.map (fun b => { b with arrived := smErase b.arrived uid, later := smErase b.later uid })
  setCluster s cl { c with barriers := b.filter (fun b => !b.parts.isEmpty || !b.later.isEmpty) }

/-- A BARC whose generation is complete retires, at the latest where its job stops. [DEDUCED, unsafe: log entry 78] -/
def Job.departed (j : Job) : Job :=
  if j.pend = .departed then
    { j.next with pend := .none, core := { j.next.core with S := { j.next.core.S with seq := j.core.S.seq + 1 } } }
  else j

/-- The tokens and places that a word took at issue are put back. -/
def Job.tokUndo (j : Job) (e : EStream) (t : BitVec 4) : Job :=
  (tokPops e t).foldl (fun (j : Job) f => (j.setTok f (j.tok f + 1) (j.tokRes f)).setTk f (j.know e :: j.tk f)) (j.tokUnres e t)

/-- An EJOIN that waits for its pair issues again after the stop; its token and place are put back. [DEDUCED, unsafe: log entry 78] -/
def Job.unjoin (j : Job) : Job :=
  [EStream.L, .X, .T].foldl (fun (j : Job) e =>
    match (j.eng e).ejoin with
    | some t => (j.tokUndo e t).setEng e { j.eng e with ejoin := none }
    | none => j) j

/-- Stop a job at a cut (R312, R364): the region aborts with MISUSE, X words retire whole, L and T words are journaled, the lease ends
with its budget kept for the context, but for a grant whose MLSE has not issued (R213); no stream waits at a frozen page. -/
def stopJob (s : State) (k : Nat) (j : Job) : State × Job :=
  let a := abortRegion s k j 3
  let a := landAll a.1 k a.2
  let s := match j.pend with | .barc _ => barrierUndo a.1 (jCluster k) j.uid | _ => a.1
  let s := a.2.core.T.inflight.foldl (fun s i => keepGuards s j i i.part.kept) s
  let j := ((a.2.departed.journalAll .L).journalAll .T).unjoin
  let keep := if j.lookup = some .lease then j.core.lease else match leaseOf s k with | some b => some b | none => j.core.lease
  let j := { j with core := { j.core with lease := keep }, pend := .none, lookup := none, stallStart := [] }
  (leaveFrames (leaseEnd s k) k, j)

/-! ### The end of a stay -/

/-- The job's slot, pools, lease and S slot return (R12, R248); its window's bytes last belonged to its domain (R33). -/
def freeSlot (s : State) (k : Nat) (j : Job) : State :=
  let s := leaseEnd s k
  let c := clusterSt s (jCluster k)
  let b := j.core.win.base
  let e := b + j.core.win.size
  let own := c.owners.filter (fun o => decide (o.1 + o.2.1 ≤ b) || decide (e ≤ o.1))
  let s := setCluster s (jCluster k) { c with owners := if j.core.win.size = 0 then c.owners else own ++ [(b, j.core.win.size, j.fdom)] }
  passSlot (dropJob (if j.region.isSome then dropEdges s k else s) k) k

/-- The reservation of a job in its domain's pool is freed (R360). -/
def freeReserve (s : State) (f uid : Nat) : State :=
  let d := domainSt s f
  setDomain s f { d with reserves := d.reserves.filter (fun r => r.uid != uid) }

/-- A job ends as lost (R372): its launch makes no signal write and counts as exited; undispatched tickets are discarded. -/
def launchLost (s : State) (l : Nat) : State :=
  match launchAt s l with
  | some v =>
    setLaunch s l { v with halted := v.halted + 1, total := v.total - v.undisp, undisp := 0,
                           ranges := v.ranges.map (fun r => (r.1, r.1)), st := if v.st = .ready then .lost else v.st }
  | none => s

/-- Abandon the context of job `k` (R372): resources and reservation freed, LOST rises, one event of the given type, lost halt line. [DEDUCED, unsafe: log entry 82] -/
def abandon (s : State) (k : Nat) (j : Job) (type code addr aux : Nat) : State :=
  let s := barrierLeave (freeReserve (freeSlot s k j) j.fdom j.uid) j.uid
  let d := domainSt s j.fdom
  let s := setDomain s j.fdom { d with ctxLost := satInc 16 d.ctxLost }
  raiseEvent (launchLost s j.launch) j.fdom type code (jDie k) addr aux

/-- A stop whose context cannot be kept or handled: the event names TRAPC, TRAPV and JOBID (R360, R373). [DEDUCED, unsafe: log entry 34] -/
def abandonTrap (s : State) (k : Nat) (j : Job) : State :=
  abandon s k j 4 (j.trapc.toNat % 256) j.trapv.toNat (jobid k j)

/-! ### Taking a trap (R32, R373) -/

/-- TRAPPC: the stream and the word's PC (R31). -/
def trapPc (st : Stream) (pc : Word) : Word := BitVec.ofNat 64 (streamCode st * 2 ^ 62 + pc.toNat % 2 ^ 62)

/-- The domain has a save pool (R360). -/
def hasPool (s : State) (f : Nat) : Bool := (domainSt s f).ctxBase.getLsbD 0

/-- A job stops: STOP records in its streams, the context is saved when the job has an area, else abandoned (R360, R373, R436). -/
def enterSave (s : State) (k : Nat) (j : Job) (kind : CutKind) : State :=
  let s := [Stream.S, .L, .X, .T].foldl (fun s st =>
    traceRecord s k j st 4 0 (j.seq st) (j.pcOf st).toNat (cycleOf s k)) s
  if hasArea s j || j.replay.isSome then
    passSlot (setJob s k { j with phase := .saving kind, saveStart := s.time }) k
  else abandonTrap s k j

/-- Take a trap in stream `st` with cause `code` and TRAPV `v` (R32, R373). `pc` is the trapping word's PC when it had issued and is
journaled (R221); otherwise the stream's next PC after the stop, which for S inside a region is the abort handler's (R125, R312). A
fault at handler level ends the handler (R374); for an illegal instruction the event's faulting address is the PC. [DEDUCED, unsafe: log entry 34] -/
def takeTrapAt (s : State) (k : Nat) (st : Stream) (pc : Option Word) (code v : Nat) (kind : CutKind) : State :=
  match jobAt s k with
  | none => s
  | some j =>
    if j.level = .handler then abandon s k j 5 code (if code = 0x01 then j.pc.toNat else v) (jobid k j)
    else
      let a := stopJob s k j
      let j := { a.2 with trapc := BitVec.ofNat 64 code, trapv := BitVec.ofNat 64 v,
                          trappc := trapPc st (pc.getD (a.2.pcOf st)), trapIn := pc.isSome }
      enterSave a.1 k j kind

/-- Take a trap at the next word of a stream. -/
def takeTrap (s : State) (k : Nat) (st : Stream) (code v : Nat) : State := takeTrapAt s k st none code v .trap

/-- The handler starts in the job's slot (R373): PC at HND, s1 the context record's address, all else zero. -/
def enterHandler (s : State) (k : Nat) (j : Job) : State :=
  let regs := (Vector.replicate 64 (0 : Word)).set 1 j.ctxAddr
  let S : SRegs := ⟨(domainSt s j.fdom).ctxHnd, regs, 1, j.core.S.seq⟩
  wakeSlot (setJob s k { j with snap := some j.core, core := { j.core with S := S }, level := .handler, phase := .running, pend := .none }) k

/-! ### Returning from a trap (R148, R371, R374) -/

/-- The stream TRAPPC names restarts at TRAPPC, unless its trapping word is replayed from the journal (R148). [DEDUCED, unsafe: log entry 79] -/
def restartAt (c : JobCore) (trappc : Word) (journaled : Bool) : JobCore :=
  let pc := BitVec.ofNat 64 (trappc.toNat % 2 ^ 62)
  if journaled then c
  else match trappc.toNat / 2 ^ 62 with
    | 0 => { c with S := { c.S with pc := pc } }
    | 1 => { c with L := { c.L with pc := pc } }
    | 2 => { c with X := { c.X with pc := pc } }
    | _ => { c with T := { c.T with pc := pc } }

/-- A full-context resume (R371): a kept lease budget is requested again, waiting status entries are delivered, journals replay. [DEDUCED, unsafe: log entry 79; DEDUCED, unsafe: log entry 81] -/
def resumeJob (s : State) (k : Nat) (j : Job) : State :=
  let j := ((j.replayAll .L).replayAll .T).drainStatus
  let s := match j.core.lease with
    | some b =>
      let c := clusterSt s (jCluster k)
      setCluster s (jCluster k) { c with leaseWait := c.leaseWait.filter (fun w => w / 256 != k) ++ [256 * k + b % 256] }
    | none => s
  let s := [Stream.S, .L, .X, .T].foldl (fun s st =>
    traceRecord s k j st 5 0 (j.seq st) j.ctxAddr.toNat (cycleOf s k)) s
  wakeSlot (setJob s k { j with phase := .running, pend := .none }) k

/-- The mark that the next word of the stream with code `n` passes its breakpoints once (R435): the stream and the word's number. -/
def bpMarkOf (c : JobCore) (n : Nat) : Nat :=
  let p := fun (e : Eng) => e.seq + e.inflight.length + e.journal.length
  n + 4 * (match n with | 0 => c.S.seq | 1 => p c.L | 2 => p c.X | _ => p c.T)

/-- The measured time of a save or restore that takes one step (R363). [DESIGN CHOICE, safe: log entry 122] -/
def freeTime (s : State) : Nat := (looseWord s 4096).toNat % 2 ^ 32

/-- ERET (R148, R374): the context is restored from its record, with what the handler edited; ELOG, which no section holds, is as the handler
leaves it. A request for pre-emption then counts its grace from here (R362), and the hang watchdog restarts (R424). A record that cannot
be read is a lost context. [DEDUCED, unsafe: log entry 81] -/
def returnFromTrap (s : State) (k : Nat) (j : Job) : State :=
  match j.snap with
  | none => s
  | some c =>
    if !canRead s j.fdom j.ctxAddr.toNat j.ctxLen then abandon s k j 3 0 j.ctxAddr.toNat (jobid k j) else
    let c := restartAt { restoreContext s k j c with elog := j.core.elog } j.trappc j.trapIn
    resumeJob s k { j with core := c, snap := none, level := .job, watch := s.time, lastRestore := freeTime s,
                           preempt := j.preempt.map (fun _ => s.time),
                           bpSkip := if j.trapc = 0 then [bpMarkOf c (j.trappc.toNat / 2 ^ 62)] else j.bpSkip }

/-! ### The frame of every S instruction (R87, R104, R106, R124) -/

/-- What an S instruction does: it retires with a new state and job (the job's PC already moved), it has not issued and waits, or it
traps. The job it answers is stored by the frame. -/
inductive SRes
  | retire (s : State) (j : Job)
  | wait (s : State) (j : Job)
  | trap (code v : Nat)
  | done (s : State)
  deriving Repr

/-- The class of an S instruction for R124, R107 and R374: whether it is refused inside a region, and whether a handler may run it. -/
structure SClass where
  misuse : Bool
  handler : Bool
  deriving DecidableEq, Repr

/-- Runs everywhere: ALU, branches, plain loads and stores. -/
def sAny : SClass := ⟨false, true⟩
/-- Runs in a handler, MISUSE inside a region. [DEDUCED, unsafe: log entry 33] -/
def sHnd : SClass := ⟨true, true⟩
/-- Job level only, MISUSE inside a region. -/
def sJob : SClass := ⟨true, false⟩
/-- Job level only, allowed inside a region. -/
def sReg : SClass := ⟨false, false⟩

/-- Answer of an S instruction put into the state: retirement counts SEQS, and a count past 2^48 - 1 traps instead (R28). -/
def sFinish (s : State) (k : Nat) (j : Job) : SRes → State
  | .retire s' j' =>
    if j.core.S.seq ≥ seqMax then takeTrap s k .S 0x0E 2
    else
      let j' := { j' with core := { j'.core with S := { j'.core.S with seq := j.core.S.seq + 1 } }, pend := .none }
      setJob (traceWord s' k j .S j.pc (j.core.S.seq + 1)) k j'
  | .wait s' j' => setJob s' k j'
  | .trap c v => takeTrap s k .S c v
  | .done s' => s'

/-- Steps 3 and 4 of R87: queue misuse, then the header's bounds, registers first. [DEDUCED, unsafe: log entry 22] -/
def sDecode (j : Job) (regs : List (BitVec 6)) (dec : Job → Option (Nat × Nat)) : Option (Nat × Nat) :=
  match dec j with
  | some (0x0A, v) => some (0x0A, v)
  | r => match j.sBad regs with
    | some n => some (0x02, n)
    | none => r

/-- Execute an S instruction of the job whose turn it is. `regs` are the s registers it names (R15, step 4 of R87); `dec` is a further
decode check (queue misuse and header bounds) answering the trap. At handler level an instruction outside R374's list ends the
handler; inside a region an instruction of R124's MISUSE rows aborts it before it takes effect. [DEDUCED, unsafe: log entry 33; DESIGN CHOICE, safe: log entry 104] -/
def sExec (s : State) (cls : SClass) (regs : List (BitVec 6)) (dec : Job → Option (Nat × Nat)) (f : Nat → Job → SRes) : Out :=
  match jobAt s s.turnJob with
  | none => .fault .noJob
  | some j =>
    let k := s.turnJob
    if j.level = .handler ∧ cls.handler = false then .next (abandon s k j 5 0x01 j.pc.toNat (jobid k j))
    else match sDecode j regs dec with
      | some t => .next (takeTrap s k .S t.1 t.2)
      | none =>
          if cls.misuse = true ∧ j.region.isSome = true then
            let a := abortRegion s k j 3
            .next (setJob a.1 k a.2)
          else .next (sFinish s k j (f k j))

/-- No further decode check. -/
def noDec (_ : Job) : Option (Nat × Nat) := none

/-- An instruction that changes only the job's registers and moves to the next word. -/
def sPure (s : State) (regs : List (BitVec 6)) (f : Job → Job) : Out :=
  sExec s sAny regs noDec (fun _ j => .retire s (f j).next)

end Sys2Proof.Machine
end

