-- ==== Sys2Proof/Machine/Alu.lean ====
section
/-!
DEFINITION. Scalar arithmetic (R88, R104, R108 to R112): the ALU group, the immediate operations and the constants. One meaning per
instruction, each a value computed from source registers and written to the destination as the PC moves on.
-/
namespace Sys2Proof.Machine

/-! ### Values (R109, R110) -/

/-- Bits [127:64] of the signed product. -/
def mulHighS (x y : Word) : Word := BitVec.ofInt 64 (x.toInt * y.toInt / (2 ^ 64 : Nat))
/-- Bits [127:64] of the unsigned product. -/
def mulHighU (x y : Word) : Word := BitVec.ofNat 64 (x.toNat * y.toNat / 2 ^ 64)

/-- Signed quotient, truncated toward zero; all ones for a zero divisor; −2^63 by −1 gives −2^63. -/
def divS (x y : Word) : Word := if y = 0 then BitVec.allOnes 64 else BitVec.ofInt 64 (x.toInt.tdiv y.toInt)
/-- Signed remainder, with the dividend's sign; the dividend for a zero divisor. -/
def remS (x y : Word) : Word := if y = 0 then x else BitVec.ofInt 64 (x.toInt.tmod y.toInt)
/-- Unsigned quotient. -/
def divU (x y : Word) : Word := if y = 0 then BitVec.allOnes 64 else BitVec.ofNat 64 (x.toNat / y.toNat)
/-- Unsigned remainder. -/
def remU (x y : Word) : Word := if y = 0 then x else BitVec.ofNat 64 (x.toNat % y.toNat)

/-- Leading zero bits of the low `n` bits. -/
def clzGo (x : Nat) : Nat → Nat
  | 0 => 0
  | n + 1 => if bitOf x n then 0 else clzGo x n + 1
/-- Leading zero bits; 64 for zero. -/
def clz64 (x : Word) : Word := BitVec.ofNat 64 (clzGo x.toNat 64)

/-- One bits among the low `n` bits. -/
def popGo (x : Nat) : Nat → Nat
  | 0 => 0
  | n + 1 => popGo x n + (if bitOf x n then 1 else 0)
/-- One bits. -/
def pop64 (x : Word) : Word := BitVec.ofNat 64 (popGo x.toNat 64)

/-- The shift amount of R109: bits [5:0]. -/
def shAmt (y : Word) : Nat := y.toNat % 64
/-- A signed immediate (R111, R112). -/
def immS {n : Nat} (i : BitVec n) : Word := BitVec.signExtend 64 i

/-! ### Shared forms -/

/-- Two sources, one destination. -/
def alu3 (s : State) (d a b : BitVec 6) (f : Word → Word → Word) : Out :=
  sPure s [d, a, b] (fun j => j.setS d (f (j.s a) (j.s b)))

/-- A division: DZ is set when the divisor is zero, whatever the destination (R104, R110). -/
def alu3Div (s : State) (d a b : BitVec 6) (f : Word → Word → Word) : Out :=
  sPure s [d, a, b] (fun j => (j.setS d (f (j.s a) (j.s b))).orFlags (flIf (j.s b == 0) flDZ))

/-- One source, one destination. -/
def alu2 (s : State) (d a : BitVec 6) (f : Word → Word) : Out :=
  sPure s [d, a] (fun j => j.setS d (f (j.s a)))

/-! ### The ALU group -/

/-- NOP only moves on (R88); R374 does not list it at handler level. -/
def execNop (s : State) : Out := sExec s sReg [] noDec (fun _ j => .retire s j.next)
def execAdd (d a b : BitVec 6) (s : State) : Out := alu3 s d a b (fun x y => x + y)
def execSub (d a b : BitVec 6) (s : State) : Out := alu3 s d a b (fun x y => x - y)
def execAnd (d a b : BitVec 6) (s : State) : Out := alu3 s d a b (fun x y => x &&& y)
def execOr (d a b : BitVec 6) (s : State) : Out := alu3 s d a b (fun x y => x ||| y)
def execXor (d a b : BitVec 6) (s : State) : Out := alu3 s d a b (fun x y => x ^^^ y)
def execShl (d a b : BitVec 6) (s : State) : Out := alu3 s d a b (fun x y => x <<< shAmt y)
def execShr (d a b : BitVec 6) (s : State) : Out := alu3 s d a b (fun x y => x >>> shAmt y)
def execSra (d a b : BitVec 6) (s : State) : Out := alu3 s d a b (fun x y => x.sshiftRight (shAmt y))
def execMul (d a b : BitVec 6) (s : State) : Out := alu3 s d a b (fun x y => x * y)
def execMulh (d a b : BitVec 6) (s : State) : Out := alu3 s d a b mulHighS
def execMulhu (d a b : BitVec 6) (s : State) : Out := alu3 s d a b mulHighU
def execDiv (d a b : BitVec 6) (s : State) : Out := alu3Div s d a b divS
def execDivu (d a b : BitVec 6) (s : State) : Out := alu3Div s d a b divU
def execRem (d a b : BitVec 6) (s : State) : Out := alu3Div s d a b remS
def execRemu (d a b : BitVec 6) (s : State) : Out := alu3Div s d a b remU
def execMin (d a b : BitVec 6) (s : State) : Out := alu3 s d a b (fun x y => if x.slt y then x else y)
def execMax (d a b : BitVec 6) (s : State) : Out := alu3 s d a b (fun x y => if x.slt y then y else x)
def execMinu (d a b : BitVec 6) (s : State) : Out := alu3 s d a b (fun x y => if x.ult y then x else y)
def execMaxu (d a b : BitVec 6) (s : State) : Out := alu3 s d a b (fun x y => if x.ult y then y else x)
def execClz (d a : BitVec 6) (s : State) : Out := alu2 s d a clz64
def execPopc (d a : BitVec 6) (s : State) : Out := alu2 s d a pop64
/-- SEL gives x when the predicate is true, else y. -/
def execSel (d a b : BitVec 6) (p : BitVec 3) (s : State) : Out :=
  sPure s [d, a, b] (fun j => j.setS d (if j.p p then j.s a else j.s b))

/-! ### Immediate operations (R111) -/

def execAddi (d a : BitVec 6) (i : BitVec 14) (s : State) : Out := alu2 s d a (fun x => x + immS i)
def execAndi (d a : BitVec 6) (i : BitVec 14) (s : State) : Out := alu2 s d a (fun x => x &&& immS i)
def execOri (d a : BitVec 6) (i : BitVec 14) (s : State) : Out := alu2 s d a (fun x => x ||| immS i)
def execXori (d a : BitVec 6) (i : BitVec 14) (s : State) : Out := alu2 s d a (fun x => x ^^^ immS i)
def execShli (d a : BitVec 6) (n : BitVec 6) (s : State) : Out := alu2 s d a (fun x => x <<< n.toNat)
def execShri (d a : BitVec 6) (n : BitVec 6) (s : State) : Out := alu2 s d a (fun x => x >>> n.toNat)
def execSrai (d a : BitVec 6) (n : BitVec 6) (s : State) : Out := alu2 s d a (fun x => x.sshiftRight n.toNat)

/-! ### Constants (R112) -/

def execMovi (d : BitVec 6) (i : BitVec 20) (s : State) : Out := sPure s [d] (fun j => j.setS d (immS i))
/-- SHIN shifts the old value up by 20 bits and enters the immediate. -/
def execShin (d : BitVec 6) (i : BitVec 20) (s : State) : Out :=
  sPure s [d] (fun j => j.setS d (j.s d <<< (20 : Nat) ||| i.setWidth 64))

end Sys2Proof.Machine
end

