-- ==== Sys2Proof/Machine/Operands.lean ====
section
/-!
DEFINITION. Operands of engine words (R22, R97, R98, R217): what each mode delivers, which registers and queues a word names, the pops
and the post-increments. Offsets of a weight address count 4 KiB units (R99), all others bytes; `unit` is that factor.
-/
namespace Sys2Proof.Machine

/-- An operand field with the unit of its offset. -/
structure OpIn where
  o : Operand
  unit : Nat
  deriving DecidableEq, Repr

/-- An operand whose offset counts bytes. -/
def opB (o : Operand) : OpIn := ⟨o, 1⟩
/-- A weight-address operand (R99). -/
def opW (o : Operand) : OpIn := ⟨o, 4096⟩

/-- The operand pops an entry of the stream's first inbound queue (R22). -/
def OpIn.pops (x : OpIn) : Bool := x.o.mode == 2
/-- The operand names an address register. -/
def OpIn.names (x : OpIn) : Bool := x.o.mode == 0 || x.o.mode == 1

/-- The signed offset or stride in bytes. -/
def OpIn.off (x : OpIn) : Word := BitVec.ofInt 64 (x.o.off.toInt * x.unit)

/-- The queue entries a word pops, oldest first, as many as it has mode-10 operands. -/
def popCount (xs : List OpIn) : Nat := (xs.filter OpIn.pops).length

/-- An address register. -/
def Eng.areg (e : Eng) (n : BitVec 4) : Word := e.a[n.toNat]
/-- Write an address register. -/
def Eng.setAreg (e : Eng) (n : BitVec 4) (v : Word) : Eng := { e with a := e.a.set n.toNat v }

/-- What the operands deliver, given the popped entries (R97, R98): every operand reads the registers as they were before the word. -/
def opVals (e : Eng) : List OpIn → List Word → List Word
  | [], _ => []
  | x :: r, ps =>
    match x.o.mode with
    | 0 => (e.areg x.o.areg + x.off) :: opVals e r ps
    | 1 => e.areg x.o.areg :: opVals e r ps
    | 2 => (ps.headD 0 + x.off) :: opVals e r (ps.drop 1)
    | _ => x.off :: opVals e r ps

/-- The post-increments: all strides are added (R98). -/
def postInc (e : Eng) (xs : List OpIn) : Eng :=
  xs.foldl (fun (e : Eng) x => if x.o.mode = 1 then e.setAreg x.o.areg (e.areg x.o.areg + x.off) else e) e

/-- The first header violation of the operands in order (R16, R20, R97): a register at or above the stream's count, or the first inbound
queue not in QMAP. The answer is TRAPV. [DEDUCED, unsafe: log entry 22] -/
def opBound (j : Job) (e : EStream) (xs : List OpIn) : Option Nat :=
  (xs.filterMap (fun x =>
    if x.names then if j.nAreg e ≤ x.o.areg.toNat then some x.o.areg.toNat else none
    else if x.pops && !j.qmap (popQueue e) then some (popQueue e) else none)).head?

/-- The first FMT register used but not declared (R30); TRAPV is its index. [DEDUCED, unsafe: log entry 22] -/
def fmtBound (j : Job) (cs : List (BitVec 4)) : Option Nat :=
  (cs.filterMap (fun c => if 12 ≤ c.toNat && c.toNat ≤ 14 && !j.fmtu (c.toNat - 12) then some (c.toNat - 12) else none)).head?

end Sys2Proof.Machine
end

