-- ==== Sys2Proof/Machine/Engine.lean ====
section
/-!
DEFINITION. The frame in which every engine word executes (R16, R20 to R25, R28, R87, R98, R99, R219, R238): decode checks against the
header, the wait for tokens, queue entries and places, the checks a word makes at issue, then pops, post-increments, the hardware loop
and the place in flight or the retirement at issue. Also the profile snapshot at a loop exit (R438, R439).
-/
namespace Sys2Proof.Machine

/-! ### Profile snapshots (R439) -/

/-- The 2,688 bytes of a snapshot. -/
def snapBytes (s : State) (k : Nat) (j : Job) (st : Stream) (seq : Nat) (pc : Word) : List Byte :=
  let c := clusterSt s (jCluster k)
  natLe 8 (jobid k j) ++ natLe 8 (streamCode st * 2 ^ 62 + seq % 2 ^ 48) ++ natLe 8 pc.toNat ++ natLe 8 (cycleOf s k)
    ++ natLe 8 (c.skipped % 2 ^ 32 * 2 ^ 32 + jCluster k % 2 ^ 16) ++ natLe 24 0
    ++ ((List.range 651).map (fun i => natLe 4 (smGetD c.conflicts i 0))).flatten ++ natLe 20 0

/-- At most one snapshot per 1,024 cycles of a cluster; exits between are counted; a full ring counts LOST. -/
def profileSnapshot (s : State) (k : Nat) (j : Job) (st : Stream) (seq : Nat) (pc : Word) : State :=
  let d := domainSt s j.fdom
  if !d.profctl.getLsbD 0 then s
  else
    let c := clusterSt s (jCluster k)
    let soon := match c.lastSnap with | some t => decide (cycleOf s k < t + 1024) | none => false
    if soon then setCluster s (jCluster k) { c with skipped := c.skipped + 1 }
    else
      let log := bits d.prBase.toNat 0 5
      if (d.prTail.toNat + 2 ^ 32 - d.prHead.toNat) % 2 ^ 32 = 2 ^ log then
        setDomain s j.fdom { d with prLost := BitVec.ofNat 64 (satInc 64 d.prLost.toNat) }
      else
        let pa := bits d.prBase.toNat 7 41 * 128 + 2688 * (d.prTail.toNat % 2 ^ log)
        let s := if (rangeOf s pa).isMem then agentSetBytes s pa (snapBytes s k j st seq pc) else s
        let s := setCluster s (jCluster k) { clusterSt s (jCluster k) with lastSnap := some (cycleOf s k), skipped := 0 }
        setDomain s j.fdom { d with prTail := BitVec.ofNat 64 ((d.prTail.toNat + 1) % 2 ^ 32) }

/-! ### Hardware loops (R238, R244) -/

/-- After a word whose last slot is `last`: each loop that ends there counts down and goes back, or exits. The answer is the stream's
state and how many loops exited. `pc` is where the stream goes when none holds it. [DEDUCED, unsafe: log entry 35] -/
def loopEnd (e : Eng) (last pc : Word) : Nat → Eng × Nat
  | 0 => ({ e with pc := pc }, 0)
  | n + 1 =>
    match e.loops with
    | t :: r =>
      if t.last = last then
        if 1 < t.remaining then ({ e with pc := t.first, loops := { t with remaining := t.remaining - 1 } :: r }, 0)
        else
          let x := loopEnd { e with loops := r } last pc n
          (x.1, x.2 + 1)
      else ({ e with pc := pc }, 0)
    | [] => ({ e with pc := pc }, 0)

/-- Move stream `e` past a word at `wpc` whose last slot is `last`, going to `pc` when no loop takes it: loop exits take snapshots, a
loop-back writes a FLOW record. -/
def advance (s : State) (k : Nat) (j : Job) (e : EStream) (wpc last pc : Word) (seq : Nat) : State × Job :=
  let x := loopEnd (j.eng e) last pc 4
  let s := (List.range x.2).foldl (fun s _ => profileSnapshot s k j e.toStream seq wpc) s
  let s := if x.1.pc = pc then s else traceFlow s k j e.toStream wpc
  (s, j.setEng e x.1)

/-! ### Words of X in flight (R153, R191, R240, R241) -/

/-- The word's bits for the journal image and for TRAPV. -/
def wordBits (i : Instr) : Nat :=
  match encode i with
  | some (.s w) => w
  | some (.e _ w) => w
  | some (.m h _) => h
  | none => 0

/-- A vector word: class 01 (R96). -/
def isVector (i : Instr) : Bool := wordBits i / 2 ^ 94 == 1

/-- The job as the words of X in flight will leave it: what the next word of X sees of grants, slots and accumulators. -/
def Job.ahead (j : Job) : Job := j.core.X.inflight.foldl (fun (j : Job) i => j.land i.eff) j

/-- A word of X in flight writes one of these accumulators or slots: a matrix word that reads it waits (R191). -/
def Job.xPending (j : Job) (accs slots : List Nat) : Bool :=
  j.core.X.inflight.any (fun i => i.eff.accs.any (fun a => accs.contains a.1) || i.eff.slots.any (fun a => slots.contains a.1))

/-- A word of X in flight has window writes to land, or is a vector word: a later word's window accesses follow it (R153). -/
def Job.xWindow (j : Job) : Bool := j.core.X.inflight.any (fun i => isVector i.word || !i.eff.win.isEmpty)

/-- The core's vector unit is free: no vector word of any of its jobs is in flight (R240, R241). -/
def vectorFree (s : State) (k : Nat) : Bool :=
  s.jobs.all (fun e => jCoreKey e.1 != jCoreKey k || !e.2.core.X.inflight.any (fun i => isVector i.word))

/-- A vector word may issue. -/
def vectorGo (s : State) (k : Nat) (j : Job) (i : Instr) : Bool := !isVector i || (vectorFree s k && !j.xWindow)

/-! ### The frame -/

/-- What an engine word names for its decode checks (R87 steps 3 and 4): its operands in D, A, B order, format codes, the queue it pushes
when it retires, and further checks. -/
structure EDec where
  ops : List OpIn
  fmts : List (BitVec 4)
  push : Option Nat
  extra : Job → Option (Nat × Nat)

/-- No further check. -/
def noExtra (_ : Job) : Option (Nat × Nat) := none

/-- What a word does when it issues. -/
inductive IRes
  /-- A condition of its own is not met: it has not issued. -/
  | wait
  /-- An issue check fails: nothing of the word happens. -/
  | trap (code v : Nat)
  /-- A check fails after a lookup was counted (R209). -/
  | trapIn (s : State) (code v : Nat)
  /-- It is in flight; what it lands when it retires. -/
  | fly (s : State) (eff : Effect)
  /-- It retires at issue with this change of the job. -/
  | now (g : Job → Job)
  /-- It retires at issue and moves the stream itself: the last slot that counts as issued, and where the stream goes. -/
  | jump (g : Job → Job) (last pc : Word)
  /-- It stays pending in a changed state: an EJOIN, a matrix word that has looked up. -/
  | pend (s : State) (j : Job)

/-- What the frame needs to know of a word: its decode checks, whether it takes two slots, whether it issues only when nothing of its stream
is in flight, and what it does when it issues, given the values of its operands. -/
structure EPlan where
  d : EDec
  mat : Bool
  alone : Bool
  f : State → Nat → Job → List Word → IRes

/-- The decode checks: misuse first, then header bounds in the order format, operands, destination queue. [DEDUCED, unsafe: log entry 22] -/
def eDecode (j : Job) (e : EStream) (d : EDec) : Option (Nat × Nat) :=
  match d.extra j with
  | some t => some t
  | none => match fmtBound j d.fmts with
    | some n => some (0x02, n)
    | none => match opBound j e d.ops with
      | some n => some (0x02, n)
      | none => match d.push with
        | some q => if j.qmap q then none else some (0x02, q)
        | none => none

/-- Tokens, entries and places for issue (R22, R25, R218). -/
def eReady (j : Job) (e : EStream) (tok : BitVec 4) (d : EDec) : Bool :=
  j.tokReady e tok && decide (popCount d.ops ≤ (j.queue (popQueue e)).length) && (match d.push with | some q => !j.qFull q | none => true)

/-- The stream learns what the tokens and entries tell that the word pops (R154). -/
def Job.issueKnow (j : Job) (e : EStream) (tok : BitVec 4) (n : Nat) : Job :=
  ((tokPops e tok).map (fun f => (j.tk f).headD []) ++ (smGetD j.core.Q.qk (popQueue e) []).take n).foldl (fun (j : Job) v => j.learnWin e v) j

/-- Issue the word: pops, tokens, places, post-increments. -/
def eIssue (j : Job) (e : EStream) (tok : BitVec 4) (d : EDec) : Job :=
  let j := j.issueKnow e tok (popCount d.ops)
  let j := j.qDrop (popQueue e) (popCount d.ops)
  let j := j.tokIssue e tok
  let j := match d.push with | some q => j.qRes q true | none => j
  j.setEng e (postInc (j.eng e) d.ops)

/-- Execute engine word `i` with the plan `p` in stream `e` of the job whose turn it is. `now` words and PREL issue only when nothing of
the stream is in flight, so that words retire in order (R219); a vector word needs the core's vector unit (R240); a matrix head at the end of
a loop's body traps when it issues (R238). -/
def eExec (s : State) (e : EStream) (i : Instr) (tok : BitVec 4) (p : EPlan) : Out :=
  let d := p.d
  match jobAt s s.turnJob with
  | none => .fault .noJob
  | some j =>
    let k := s.turnJob
    let st := e.toStream
    let g := j.eng e
    let last := if p.mat then g.pc + 12 else g.pc
    if j.level = .handler then .next (abandon s k j 5 0x01 j.pc.toNat (jobid k j))
    else match eDecode j e d with
      | some t => .next (takeTrap s k st t.1 t.2)
      | none =>
        if !eReady j e tok d || (p.alone && !g.inflight.isEmpty) || !vectorGo s k j i then .next s
        else if p.mat && (match g.loops with | t :: _ => t.last == g.pc | [] => false) then .next (takeTrap s k st 0x01 (wordBits i % 2 ^ 64))
        else
          let pops := (j.queue (popQueue e)).take (popCount d.ops)
          let ops := opVals g d.ops pops
          let seq := g.seq + g.inflight.length + 1
          match p.f s k (j.issueKnow e tok (popCount d.ops)) ops with
          | .wait => .next s
          | .trap c v => .next (takeTrap s k st c v)
          | .trapIn s' c v => .next (takeTrap s' k st c v)
          | .pend s' j' => .next (setJob s' k j')
          | .fly s' eff =>
            if seqMax < seq then .next (takeTrap s k st 0x0E 2)
            else
              let j := eIssue ((jobAt s' k).getD j) e tok d
              let fl : InFlight := ⟨g.pc, seq, i, wordBits i, ops, pops, g.shape, eff, j.know e, Part.none⟩
              let j := j.winUse s.fresh e seq fl.know eff.reads false
              let j := j.setEng e { j.eng e with inflight := (j.eng e).inflight ++ [fl] }
              let a := advance s' k j e g.pc last (last + 12) seq
              .next (setJob a.1 k a.2)
          | .now h =>
            if seqMax < seq then .next (takeTrap s k st 0x0E 2)
            else
              let j := h (eIssue j e tok d)
              .next (eRetireNow s k j e tok g.pc last (last + 12) seq)
          | .jump h last' pc' =>
            if seqMax < seq then .next (takeTrap s k st 0x0E 2)
            else
              let j := h (eIssue j e tok d)
              .next (eRetireNow s k j e tok g.pc last' pc' seq)
where
  /-- Retire at issue. -/
  eRetireNow (s : State) (k : Nat) (j : Job) (e : EStream) (tok : BitVec 4) (wpc last pc : Word) (seq : Nat) : State :=
    let j := j.tokRetire e tok
    let j := j.setEng e { j.eng e with seq := seq }
    let s := traceWord s k j e.toStream wpc seq
    let a := advance s k j e wpc last pc seq
    setJob a.1 k a.2

end Sys2Proof.Machine
end

