-- ==== Sys2Proof/Machine/Common.lean ====
section
/-!
DEFINITION. The common words of L, X and T (R16, R17, R135, R235 to R238): address registers, joins, shapes and hardware loops. They retire
when they issue, once every earlier word of the stream has retired.
-/
namespace Sys2Proof.Machine

/-! ### The scratchpad's banks (R246, R438) -/

/-- An X word of the matrix side that uses the banks. -/
def bankMatrix : Instr → Bool
  | .mlda _ | .macr _ | .mmas _ => true
  | _ => false

/-- A copy word that writes other windows. -/
def isCpym : Instr → Bool
  | .cpym _ => true
  | _ => false

/-- The requesters of a cluster that a job in slot `k` has at work. -/
def jobUsers (s : State) (k : Nat) (j : Job) : List Nat :=
  let c := 4 * (jCore k % 4)
  let X := j.core.X.inflight
  (if j.core.L.inflight.isEmpty then [] else [c]) ++ (if j.core.T.inflight.isEmpty then [] else [c + 1])
    ++ (if X.any (fun i => !bankMatrix i.word) then [c + 2] else []) ++ (if X.any (fun i => bankMatrix i.word) then [c + 3] else [])
    ++ (if j.phase == .running then [] else [16])
    ++ (if s.mdies.any (fun e => e.2.running.any (fun n => n.uid == j.uid && (n.words.headD 0).getLsbD 7)) then [18] else [])
    ++ (if s.jobs.any (fun e => e.2.core.L.inflight.any (fun i => isCpym i.word && i.eff.recv.contains j.uid)) then [19] else [])

/-- The requesters of a cluster at work. -/
def bankUsers (s : State) (cl : Nat) : List Nat := ((s.jobs.filter (fun e => jCluster e.1 == cl)).map (fun e => jobUsers s e.1 e.2)).flatten

/-- Requester `r` accesses the banks: where others are at work, how often each of them waits for a bank is a matter of cycles, and the counters rise
by free values. [DESIGN CHOICE, safe: log entry 59] -/
def bankShare (s : State) (cl r : Nat) : State :=
  let us := (r :: bankUsers s cl).eraseDups
  if us.length ≤ 1 then s
  else
    let c := clusterSt s cl
    let m := us.foldl (fun m u => (List.range 31).foldl (fun m b =>
      let i := 31 * u + b
      smPut 0 m i ((smGetD m i 0 + (Config.freeWord (2 ^ 64 * (s.fresh + 1) + 8192 + i)).toNat) % 2 ^ 32)) m) c.conflicts
    setCluster s cl { c with conflicts := m }

/-- The requester of a copy word's stream. -/
def copyUser (k : Nat) (e : EStream) : Nat := 4 * (jCore k % 4) + (if e = .L then 0 else 1)

/-! ### The common words -/

/-- The queues a stream may name in AQ (R235): the four from its first inbound queue. -/
def inbound (e : EStream) (q : Nat) : Bool := q / 4 == popQueue e / 4

/-- A word that names D, A and B as values and nothing else. -/
def plainDec (ops : List Operand) : EDec := ⟨ops.map opB, [], none, noExtra⟩

/-- Write an address register of a stream. -/
def Job.setA (j : Job) (e : EStream) (n : BitVec 4) (v : Word) : Job := j.setEng e ((j.eng e).setAreg n v)

/-- The checks of AQ: misuse, the register, QMAP. -/
def aqExtra (e : EStream) (w : EWord) (j : Job) : Option (Nat × Nat) :=
  let q := w.func.toNat % 16
  if !inbound e q then some (0x0A, q)
  else match opBound j e [opB w.d] with
    | some n => some (0x02, n)
    | none => if j.qmap q then none else some (0x02, q)

/-- AQ pops a queue into a register; it waits for an entry. -/
def planAq (e : EStream) (w : EWord) : EPlan :=
  EPlan.mk ⟨[opB w.d], [], none, aqExtra e w⟩ false true (fun _ _ j _ =>
    let q := w.func.toNat % 16
    match j.queue q with
    | [] => .wait
    | v :: _ => .now (fun j => ((j.learnWin e ((smGetD j.core.Q.qk q []).headD [])).qPop q).setA e w.d.areg v))
def execAq (e : EStream) (w : EWord) (s : State) : Out := eExec s e (.aq e w) w.tok (planAq e w)

/-- ASET sets a register to the A value. -/
def planAset (e : EStream) (w : EWord) : EPlan :=
  EPlan.mk (plainDec [w.d, w.a]) false true (fun _ _ _ v => .now (fun j => j.setA e w.d.areg (v.getD 1 0)))
def execAset (e : EStream) (w : EWord) (s : State) : Out := eExec s e (.aset e w) w.tok (planAset e w)

/-- AADD adds the A value, modulo 2^64; the write of D follows the increments. -/
def planAadd (e : EStream) (w : EWord) : EPlan :=
  EPlan.mk (plainDec [w.d, w.a]) false true (fun _ _ _ v =>
    .now (fun j => j.setA e w.d.areg (v.getD 0 0 + v.getD 1 0)))
def execAadd (e : EStream) (w : EWord) (s : State) : Out := eExec s e (.aadd e w) w.tok (planAadd e w)

/-- EJOIN issues, taking its token and its place (R25), and holds its stream until the join point it pairs with retires (R135). -/
def planEjoin (e : EStream) (w : EWord) : EPlan :=
  EPlan.mk (plainDec []) false false (fun s _ j _ =>
    let j := j.tokIssue e w.tok
    .pend s (j.setEng e { j.eng e with ejoin := some w.tok }))
def execEjoin (e : EStream) (w : EWord) (s : State) : Out := eExec s e (.ejoin e w) w.tok (planEjoin e w)

/-- ENOP counts and moves tokens. -/
def planEnop (_ : EStream) (_ : EWord) : EPlan :=
  EPlan.mk (plainDec []) false true (fun _ _ _ _ => .now id)
def execEnop (e : EStream) (w : EWord) (s : State) : Out := eExec s e (.enop e w) w.tok (planEnop e w)

/-- The new shape, or the value that does not fit its field (R237). -/
def newShape (c : CShape) (sel : Bool) (a b : Word) : CShape ⊕ Word :=
  if sel then
    if 2 ^ 16 ≤ a.toNat then .inr a
    else if b.toInt < -2 ^ 47 ∨ 2 ^ 47 ≤ b.toInt then .inr b
    else .inl { c with planes := a.setWidth 16, pstride := b.setWidth 48 }
  else if 2 ^ 24 ≤ a.toNat then .inr a
  else if 2 ^ 24 ≤ b.toNat then .inr b
  else .inl { c with rowb := a.setWidth 24, rows := b.setWidth 24 }

/-- CSHAPE writes half of the copy shape. -/
def planCshape (e : EStream) (w : EWord) : EPlan :=
  EPlan.mk (plainDec [w.a, w.b]) false true (fun _ _ j v =>
    match newShape (j.eng e).shape (w.func.getLsbD 0) (v.getD 0 0) (v.getD 1 0) with
    | .inr x => .trap 0x01 x.toNat
    | .inl c => .now (fun j => j.setEng e { j.eng e with shape := c }))
def execCshape (e : EStream) (w : EWord) (s : State) : Out := eExec s e (.cshape e w) w.tok (planCshape e w)

/-- A negative immediate count is refused at decode. -/
def loopExtra (i : Instr) (w : EWord) (_ : Job) : Option (Nat × Nat) :=
  if w.a.mode = 3 ∧ w.a.off.toInt < 0 then some (0x01, wordBits i % 2 ^ 64) else none

/-- A LOOP of count 0 goes past its body (R238). Its own slot and the last slot of its body both count as issued: a loop that ends at the
LOOP itself counts down first. -/
def skipBody (e : EStream) (g : Eng) (last : Word) : IRes :=
  let out := fun (t : LoopEnt) => t.last == g.pc && decide (t.remaining ≤ 1)
  let rest := g.loops.dropWhile out
  if (rest.head?.map (fun t => t.last)) = some g.pc then .jump id g.pc (last + 12)
  else .jump (fun j => j.setEng e { j.eng e with loops := (g.loops.takeWhile out).map (fun t => { t with last := last }) ++ rest }) last (last + 12)

/-- LOOP pushes a loop, or skips its body when the count is 0 (R238). [DEDUCED, unsafe: log entry 35] -/
def planLoop (e : EStream) (w : EWord) : EPlan :=
  let i := Instr.loop e w
  EPlan.mk ⟨[opB w.a], [], none, loopExtra i w⟩ false true (fun _ _ j v =>
    let g := j.eng e
    let c := (v.headD 0).toNat
    let last := g.pc + BitVec.ofNat 64 (12 * (w.func.toNat % 65536 + 1))
    if 2 ^ 32 ≤ c then .trap 0x01 (wordBits i % 2 ^ 64)
    else if c = 0 then skipBody e g last
    else if 4 ≤ g.loops.length then .trap 0x01 (wordBits i % 2 ^ 64)
    else if (match g.loops with | t :: _ => decide (t.last.toNat < last.toNat) | [] => false) then .trap 0x01 (wordBits i % 2 ^ 64)
    else .now (fun j => j.setEng e { j.eng e with loops := ⟨g.pc + 12, last, c⟩ :: (j.eng e).loops }))
def execLoop (e : EStream) (w : EWord) (s : State) : Out := eExec s e (.loop e w) w.tok (planLoop e w)

/-! ### The end of a join (R135) -/

/-- The EJOIN of stream `e` of job `k` retires; the stream ends there when a HALT joined it. [DEDUCED, unsafe: log entry 78] -/
def ejoinRetire (s : State) (k : Nat) (e : EStream) (ends : Bool) : State :=
  match jobAt s k with
  | none => s
  | some j =>
    match (j.eng e).ejoin with
    | none => s
    | some t =>
      let g := j.eng e
      let j := j.tokRetire e t
      let seq := g.seq + 1
      let j := j.setEng e { j.eng e with ejoin := none, ended := ends, seq := seq }
      let s := traceWord s k j e.toStream g.pc seq
      let a := advance s k j e g.pc g.pc (g.pc + 12) seq
      setJob a.1 k a.2

/-- The engine streams of a join mask: [0] L, [1] X, [2] T (R91). -/
def maskStreams (m : Nat) : List EStream :=
  (if bitOf m 0 then [EStream.L] else []) ++ (if bitOf m 1 then [EStream.X] else []) ++ (if bitOf m 2 then [EStream.T] else [])

/-- The first stream, engines before S, whose counter the join would take past its end (R28). -/
def Job.joinOver (j : Job) (m : Nat) : Option Stream :=
  (((maskStreams m).map EStream.toStream) ++ [Stream.S]).find? (fun st => decide (seqMax ≤ j.seq st))

/-- Every stream of the mask waits at its EJOIN, all its words retired. -/
def Job.joined (j : Job) (m : Nat) : Bool := (maskStreams m).all (fun e => (j.eng e).ejoin.isSome && (j.eng e).inflight.isEmpty)

/-- The mask of the streams present. -/
def Job.presentMask (j : Job) : Nat := (if j.has .L then 1 else 0) + (if j.has .X then 2 else 0) + (if j.has .T then 4 else 0)

end Sys2Proof.Machine
end

