-- ==== Sys2Proof/Machine/Fetch.lean ====
section
/-!
DEFINITION. How a word comes to execute (R86, R87, R118, R434, R435): which stream may issue, the breakpoint check, fetching the word's
bytes through the domain's translation, and decoding it. `Plan` is what a step will do: execute an instruction on a state, or only
move to a state.
-/
namespace Sys2Proof.Machine

/-- What a step does. -/
inductive Plan
  | run (i : Instr) (s : State)
  | stay (s : State)
  deriving Repr

/-- The engine stream of a stream. -/
def Stream.toEng : Stream → Option EStream
  | .S => none
  | .L => some .L
  | .X => some .X
  | .T => some .T

/-- The words of a stream that have issued, retired or not: the next word's number less one (R28, R364). -/
def Job.issuePos (j : Job) (st : Stream) : Nat :=
  match Stream.toEng st with
  | none => j.core.S.seq
  | some e => (j.eng e).seq + (j.eng e).inflight.length + (j.eng e).journal.length

/-! ### Breakpoints (R434, R435) -/

/-- Breakpoint `n` of the job's domain matches the stream's next word; a handler's words match none. [DEDUCED, unsafe: log entry 84] -/
def bpMatch (s : State) (j : Job) (st : Stream) (n : Nat) : Bool :=
  let d := jobDomain s j
  let pc := (d.bpPc.toList.getD n 0).toNat
  let ctl := (d.bpCtl.toList.getD n 0).toNat
  j.level == .job && bitOf ctl 63 && decide (pc / 2 ^ 62 = streamCode st) && decide (pc % 2 ^ 62 = (j.pcOf st).toNat % 2 ^ 62)
    && (!bitOf ctl 40 || decide (bits ctl 16 24 = j.serial % 2 ^ 24))

/-- The mark that the stream's next word has passed its breakpoints. -/
def bpMark (j : Job) (st : Stream) : Nat := streamCode st + 4 * j.issuePos st

/-- SKIP of breakpoint `n` counts down (R435). -/
def bpCount (s : State) (f n : Nat) : State :=
  let d := domainSt s f
  setDomain s f { d with bpCtl := d.bpCtl.setIfInBounds n (d.bpCtl.toList.getD n 0 - 1) }

/-- The matching breakpoints in number order: each with SKIP left counts down; the first with none stops the job. The word's passing is
noted, so that a word that waits to issue counts once. -/
def bpCheck (s : State) (k : Nat) (j : Job) (st : Stream) : State × Option Nat :=
  if j.bpSkip.contains (bpMark j st) then (s, none)
  else
    let r := (List.range 4).foldl (fun (a : State × Option Nat) n =>
      match a.2 with
      | some _ => a
      | none =>
        if !bpMatch a.1 j st n then a
        else if bits ((domainSt a.1 j.fdom).bpCtl.toList.getD n 0).toNat 0 16 = 0 then (a.1, some n)
        else (bpCount a.1 j.fdom n, none)) (s, none)
    match r.2 with
    | some n => (r.1, some n)
    | none =>
      if (List.range 4).any (bpMatch s j st) then
        (setJob r.1 k { j with bpSkip := bpMark j st :: j.bpSkip.filter (fun m => m % 4 != streamCode st) }, none)
      else (r.1, none)

/-! ### Fetching (R86, R89, R118, R378, R420) -/

/-- The step before the job's launch became ready: bytes replaced since are code written during the launch (R89). -/
def Job.began (s : State) (j : Job) : Nat := ((launchAt s j.launch).map (·.began)).getD 0

/-- The byte a fetch of the old or of the new word returns: what the last write during the launch replaced, or what is there (R89). -/
def fetchByte (s : State) (began : Nat) (old : Bool) (pa : Nat) : Byte :=
  match smGet s.M.code pa with
  | some (b, t) => if old && decide (began ≤ t) then b else cByte s pa
  | none => cByte s pa

/-- The result of a fetch: the bytes, a trap with its TRAPV, or a wait for a frozen page. -/
inductive Fetched
  | ok (bytes : List Byte)
  | trap (code v : Nat)
  | frozen
  deriving DecidableEq, Repr

/-- The first poisoned line of `n` bytes at `pa`. -/
def firstPoison (s : State) (pa n : Nat) : Option Nat := (linesOf pa n).find? (poisoned s)

/-- Fetch `n` bytes at `va` for a job: all of the old word or all of the new one (R89); partials of commutative ranges are combined first
(R294). [DESIGN CHOICE, safe: log entry 5] -/
def fetchBytes (s : State) (j : Job) (va n : Nat) : Fetched :=
  (pagePieces va n).foldl (fun (a : Fetched) p =>
    match a with
    | .ok l =>
      match translateMem s j.fdom (j.level == .handler) p.1 .fetch with
      | .fail c => .trap c p.1
      | .frozen => .frozen
      | .ok pa =>
        match firstPoison s pa p.2 with
        | some ln => .trap 0x0C (p.1 + (Nat.max pa (64 * ln) - pa))
        | none =>
          let t := (linesOf pa p.2).foldl combineLine s
          .ok (l ++ (List.range p.2).map (fun i => fetchByte t (j.began s) (Config.freeChoice s.fresh (2 ^ 60 + va)) (pa + i)))
    | r => r) (.ok [])

/-- Fetch the next word of a stream at `va`: 4 bytes for S, a slot of 12 bytes for an engine, and for X the second slot of a matrix word too
(R96, R101). -/
def fetchWord (s : State) (j : Job) (st : Stream) (va : Nat) : Fetched :=
  if st = .S then fetchBytes s j va 4
  else match fetchBytes s j va 12 with
    | .ok l =>
      if st = .X ∧ bits (leNat l) 94 2 = 2 then
        match fetchBytes s j (va + 12) 12 with
        | .ok t => .ok (l ++ t)
        | r => r
      else .ok l
    | r => r

/-- The instruction that fetched bytes hold. -/
def decodeBytes (st : Stream) (l : List Byte) : Except Reject Instr :=
  if st = .S then decode .S (leNat l) 0 else decode st (leNat (l.take 12)) (leNat (l.drop 12))

/-- The instruction of a stream's next word, when it can be fetched and is one. -/
def nextWord (s : State) (j : Job) (st : Stream) : Option Instr :=
  match fetchWord s j st (j.pcOf st).toNat with
  | .ok l => match decodeBytes st l with | .ok i => some i | .error _ => none
  | _ => none

/-- What a fetch leaves: the entries it used are cached, partials of its lines are combined, and the stream waits at no frozen page. -/
def noteFetch (s : State) (k : Nat) (j : Job) (st : Stream) (va n : Nat) : State :=
  let s := (pagePieces va n).foldl (fun s p =>
    match translateMem s j.fdom (j.level == .handler) p.1 .fetch with
    | .ok pa => noteTlb ((linesOf pa p.2).foldl combineLine s) j.fdom p.1
    | _ => s) s
  modJob s k (fun j => { j with stallStart := smErase j.stallStart (4 + streamCode st) })

/-! ### May the stream issue? -/

/-- The stream's next word may be looked at: the job runs, the stream exists, nothing before the word holds it back. -/
def Job.mayIssue (j : Job) (st : Stream) : Bool :=
  j.phase == .running &&
  match Stream.toEng st with
  | none => j.pend == .none || j.pend == .departed
  | some e =>
    j.level == .job && j.has e && !(j.eng e).ended && (j.eng e).ejoin.isNone &&
      decide ((j.eng e).inflight.length < 16) && (e != .X || j.core.lease.isNone)

/-- The word's bits as TRAPV reports them (R32). -/
def trapWord (w : Nat) : Nat := w % 2 ^ 64

/-- A fetch waits at a frozen page, and traps with 0x04 when 50 µs have passed (R384): no rule names the fault of a fetch. [DEDUCED, unsafe: log entry 110] -/
def fetchStall (s : State) (k : Nat) (j : Job) (st : Stream) (va : Nat) : State :=
  match smGet j.stallStart (4 + streamCode st) with
  | some 0 => takeTrap s k st 0x04 va
  | some _ => s
  | none => setJob s k { j with stallStart := smSet j.stallStart (4 + streamCode st) (s.time + 1) }

/-- Fetch and decode the next word of stream `st` of job `k`; a word that is no instruction traps. [DESIGN CHOICE, safe: log entry 105] -/
def planFetch (s : State) (k : Nat) (j : Job) (st : Stream) : Plan :=
  let va := (j.pcOf st).toNat
  match fetchWord s j st va with
  | .frozen => .stay (fetchStall s k j st va)
  | .trap c v => .stay (takeTrap s k st c v)
  | .ok l =>
    let s := noteFetch s k j st va l.length
    match decodeBytes st l with
    | .ok i => .run i s
    | .error _ => .stay (takeTrap s k st 0x01 (trapWord (leNat l)))

/-- A replay issues no word past the last one recorded of its stream (R437). [DEDUCED, unsafe: log entry 89] -/
def Job.replayPast (j : Job) (st : Stream) : Bool :=
  match j.replay with
  | none => false
  | some r => r.last.any (fun x => x.1 == streamCode st && decide (x.2 ≤ j.issuePos st))

end Sys2Proof.Machine
end

