-- ==== Sys2Proof/Machine/Launch.lean ====
section
/-!
DEFINITION. The tree of region control blocks and launches (R343 to R354, R397): effective values, reading records, refusals, readiness,
and SPAWN's append (R144, R345). The dispatch hardware reads and writes device memory as the home's own agent.
-/
namespace Sys2Proof.Machine

/-! ### Region control blocks (R343, R344) -/

/-- Word `i` of a 128-byte record at a physical address. -/
def recWord (s : State) (pa i : Nat) : Nat := recordWord s (pa + 8 * i)

/-- Write a word there. -/
def setRecWord (s : State) (pa i v : Nat) : State := agentSetBytes s (pa + 8 * i) (natLe 8 v)

/-- A valid RCB in memory: aligned, VALID, no reserved bit set. No rule names what a reserved bit does here: the node is not read, and nothing
reports it. [DESIGN CHOICE, unsafe: log entry 113] -/
def rcbOk (s : State) (a : Nat) : Bool :=
  a != 0 && a % 128 == 0 && (rangeOf s a).isMem && !poisoned s (lineOf a) && !poisoned s (lineOf a + 1) &&
    (let w := recWord s a 0
     bitOf w 63 && bits w 52 9 == 0 && bits w 35 1 == 0 && bits w 0 32 == 0 && bits (recWord s a 2) 48 16 == 0
       && bits (recWord s a 3) 32 32 == 0 && bits (recWord s a 4) 48 16 == 0 && bits (recWord s a 6) 5 59 == 0 && decide (recWord s a 6 ≤ 16)
       && bits (recWord s a 7) 32 32 == 0 && bits (recWord s a 8) 32 32 == 0 && bits (recWord s a 9) 40 24 == 0
       && (List.range' 11 5).all (fun i => recWord s a i == 0))

/-- A valid leaf. -/
def leafOk (s : State) (a : Nat) : Bool := rcbOk s a && bitOf (recWord s a 0) 62 && recWord s a 5 % 128 == 0

/-- A node as the device reads it (R344). When it has become valid, its USED, RCAUSE, RIDX and RCNT start at zero (R343) and the indices in the
ring at HEAD. -/
def readNode (s : State) (a : Nat) : State :=
  let old := smGet s.leaves a
  let s := if old.isSome then s else [4, 9, 10].foldl (fun s i => setRecWord s a i 0) s
  let n : Leaf :=
    { w0 := BitVec.ofNat 64 (recWord s a 0), parent := recWord s a 1, budget := bits (recWord s a 2) 0 48, period := bits (recWord s a 3) 0 32,
      next := (old.map (·.next)).getD (bits (recWord s a 8) 0 32), ended := (old.map (·.ended)).getD [],
      tenant := (old.map (·.tenant)).getD 0, boundary := (old.map (·.boundary)).getD 0, stall := (old.map (·.stall)).getD 0 }
  { s with leaves := smSet s.leaves a n }

/-- The addresses of a node and its ancestors by PARENT, at most `n`; none when the chain does not end or meets no valid RCB. -/
def rcbChain (s : State) : Nat → Nat → Option (List Nat)
  | 0, _ => none
  | n + 1, a =>
    if !rcbOk s a then none
    else
      let p := recWord s a 1
      if p = 0 then some [a] else (rcbChain s n p).map (a :: ·)

/-- More nodes than a chain can have: the places for an RCB in the address space. A chain that comes back to a node of its own has no root. [DEDUCED, safe: log entry 48] -/
def chainMax : Nat := 2 ^ 41

/-- The nodes as last read, at most `n`, from a node to its root. -/
def chainFrom (s : State) : Nat → Nat → List (Nat × Leaf)
  | 0, _ => []
  | n + 1, a => match smGet s.leaves a with
    | some l => (a, l) :: (if l.parent = 0 then [] else chainFrom s n l.parent)
    | none => []

/-- The nodes as last read, from a node to its root. [DEDUCED, safe: log entry 48] -/
def nodeChain (s : State) (a : Nat) : List (Nat × Leaf) := chainFrom s (s.leaves.length + 1) a

/-- The first node of a chain whose OVR bit `b` is set. -/
def ovrNode (c : List (Nat × Leaf)) (b : Nat) : Option Leaf := (c.find? (fun e => e.2.w0.getLsbD (48 + b))).map (·.2)

/-- Effective PRIO. -/
def effPrio (s : State) (a : Nat) : Nat := ((ovrNode (nodeChain s a) 0).map (fun l => bits l.w0.toNat 32 3)).getD 0
/-- Effective BUDGET of a node. -/
def effBudget (s : State) (a : Nat) : Nat := ((ovrNode (nodeChain s a) 1).map (·.budget)).getD 0
/-- Effective PERIOD in nanoseconds. -/
def effPeriod (s : State) (a : Nat) : Nat :=
  let p := ((ovrNode (nodeChain s a) 2).map (·.period)).getD 0
  (if p = 0 then 1000 else p) * 1000
/-- Every node's next period boundary, by its effective PERIOD (R351); one that has come stays due. -/
def fixBoundaries (s : State) : State :=
  let l := s.leaves.map (fun e =>
    let ns := effPeriod s e.1
    (e.1, if e.2.boundary ≠ 0 ∧ e.2.boundary ≤ s.time then e.2 else { e.2 with boundary := (s.time / ns + 1) * ns }))
  { s with leaves := l }

/-- Effective FDOM. -/
def effFdom (s : State) (a : Nat) : Nat := ((ovrNode (nodeChain s a) 3).map (fun l => bits l.w0.toNat 36 12)).getD 0
/-- The root sets all four OVR bits. -/
def rootOk (s : State) (a : Nat) : Bool := ((nodeChain s a).getLast?.map (fun e => bits e.2.w0.toNat 48 4 == 15)).getD false

/-- USED of a node, as the device keeps it in memory. -/
def usedOf (s : State) (a : Nat) : Nat := bits (recWord s a 4) 0 48

/-- A leaf's subtree has budget (R351). -/
def hasBudget (s : State) (leaf : Nat) : Bool :=
  (nodeChain s leaf).all (fun e => let b := effBudget s e.1; b == 0 || decide (usedOf s e.1 < b))

/-- The running tenant whose root is `r`. -/
def tenantAt (s : State) (r : Nat) : Option Nat :=
  (s.R.tenants.find? (fun e => e.2.run && bits e.2.root.toNat 7 41 * 128 == r)).map (·.1)

/-! ### Launches by ring position (R345, R348) -/

/-- `a` lies before `b` in the numbers modulo 2^32. -/
def before32 (a b : Nat) : Bool := let d := (b + 2 ^ 32 - a % 2 ^ 32) % 2 ^ 32; d != 0 && decide (d < 2 ^ 31)

/-- HEAD and TAIL of a leaf. -/
def leafHead (s : State) (a : Nat) : Nat := bits (recWord s a 8) 0 32
def leafTail (s : State) (a : Nat) : Nat := bits (recWord s a 7) 0 32

/-- The launch read from a ring position. -/
def findLaunch (s : State) (leaf idx : Nat) : Option (Nat × Launch) := s.launches.reverse.find? (fun e => e.2.leaf == leaf && e.2.idx == idx)

/-- Ended: complete, killed or lost. -/
def LState.ended : LState → Bool
  | .complete | .killed | .lost => true
  | .waiting | .ready => false

/-- A ring position has exited: it lies below HEAD, was refused, or its launch has ended. -/
def exited (s : State) (leaf idx : Nat) : Bool :=
  before32 idx (leafHead s leaf) || ((smGet s.leaves leaf).map (fun l => l.ended.contains idx)).getD false
    || ((findLaunch s leaf idx).map (fun e => e.2.st.ended)).getD false

/-- The full index a producer reference's IDX names (R348). -/
def resolveIdx (s : State) (leaf idx : Nat) : Nat :=
  let lo := leafTail s leaf + 2 ^ 32 - 2 ^ 22
  (lo + (idx + 2 ^ 32 - lo % 2 ^ 23) % 2 ^ 23) % 2 ^ 32

/-- A launch has triggered: each of its jobs has executed TRIG or HALT (R134). -/
def Launch.triggered (v : Launch) : Bool := decide (v.total ≤ v.trig)

/-- Every producer of a launch has triggered or exited (R133). -/
def prodsDone (s : State) (v : Launch) : Bool :=
  v.prods.all (fun p => exited s p.leaf p.idx || ((findLaunch s p.leaf p.idx).map (fun e => e.2.triggered)).getD false)

/-- HEAD advances past every ended index (R345). -/
def advanceHead (s : State) (leaf : Nat) : Nat → State
  | 0 => s
  | n + 1 =>
    let h := leafHead s leaf
    match smGet s.leaves leaf with
    | some l =>
      if l.ended.contains h then
        let s := setRecWord s leaf 8 ((h + 1) % 2 ^ 32)
        advanceHead { s with leaves := smSet s.leaves leaf { l with ended := l.ended.filter (· != h) } } leaf n
      else s
    | none => s

/-- A ring position has ended. -/
def endIndex (s : State) (leaf idx : Nat) : State :=
  match smGet s.leaves leaf with
  | some l =>
    let s := { s with leaves := smSet s.leaves leaf { l with ended := l.ended ++ [idx] } }
    advanceHead s leaf (l.ended.length + 1)
  | none => s

/-! ### Refusal (R350) -/

/-- Refuse the record at an index: RCAUSE, RIDX, RCNT, the REFUSAL event, the index ended. -/
def refuse (s : State) (leaf idx cause : Nat) : State :=
  let s := setRecWord s leaf 9 (cause * 2 ^ 32 + idx % 2 ^ 32)
  let s := setRecWord s leaf 10 (satInc 64 (recWord s leaf 10))
  let s := raiseEvent s (effFdom s leaf) 1 cause s.B.primary leaf idx
  endIndex s leaf idx

/-- Count of level `l` in a record's words. -/
def recCount (w : List Nat) (l : Nat) : Nat :=
  let g := fun i => w.getD i 0
  match l with
  | 0 => bits (g 5) 0 32
  | 1 => bits (g 5) 32 32
  | 2 => bits (g 6) 0 32
  | 3 => bits (g 6) 32 32
  | _ => bits (g 7) 0 32
/-- DEPTH. -/
def recDepth (w : List Nat) : Nat := bits (w.getD 7 0) 32 3
/-- ORDER field `k`. -/
def recOrder (w : List Nat) (k : Nat) : Nat := bits (w.getD 7 0) (35 + 3 * k) 3
/-- The level that varies `k`-th fastest: all zeros with DEPTH above 1 means ascending. -/
def recLevel (w : List Nat) (k : Nat) : Nat := if bits (w.getD 7 0) 35 15 = 0 then k else recOrder w k
/-- The ticket count N. -/
def recTickets (w : List Nat) : Nat := ((List.range (recDepth w)).map (recCount w)).foldl (· * ·) 1

/-- ORDER is all zeros, or a permutation below DEPTH and zero above. -/
def orderOk (w : List Nat) : Bool :=
  let d := recDepth w
  let f := (List.range d).map (recOrder w)
  bits (w.getD 7 0) 35 15 == 0 ||
    ((List.range d).all (fun l => f.contains l) && ((List.range 5).drop d).all (fun k => recOrder w k == 0))

/-- Cause 1: reserved bits, DEPTH, counts, ORDER, N, REPL, alignment (R346). -/
def recordOk (w : List Nat) : Bool :=
  let g := fun i => w.getD i 0
  let d := recDepth w
  bits (g 7) 50 14 == 0 && bits (g 15) 5 59 == 0 && !bitOf (g 15) 1 && decide (1 ≤ d) && decide (d ≤ 5)
    && (List.range 5).all (fun l => (recCount w l == 0) == decide (d ≤ l)) && orderOk w
    && decide (recTickets w ≤ 2 ^ 48) && bits (g 15) 3 2 != 3 && g 0 % 16 == 0 && g 9 % 8 == 0
    && (List.range 4).all (fun i => g (1 + i) % 4 == 0)

/-- The header keeps R37 and R38. -/
def headerOk (h0 h1 : Nat) : Bool :=
  let st := fun i => bitOf h1 (12 + i)
  let q := fun n => bitOf h0 (22 + n)
  bits h1 27 37 == 0 && st 0 && decide (bits h0 53 10 ≤ 512) && decide (bits h0 46 7 ≤ 64) && decide (bits h0 42 4 ≤ 8)
    && decide (bits h0 7 5 ≤ 16) && decide (bits h0 12 5 ≤ 16) && decide (bits h0 17 5 ≤ 16)
    && decide (8 ≤ bits h0 0 7) && decide (bits h0 0 7 ≤ 64) && decide (bits h1 0 12 ≤ 3968)
    && (List.range 15).all (fun n => !q n || st (match n / 4 with | 0 => 1 | 1 => 2 | 2 => 3 | _ => match n with | 12 => 2 | 13 => 3 | _ => 1))
    && (st 1 || bits h0 7 5 == 0) && (st 2 || bits h0 12 5 == 0) && (st 3 || bits h0 17 5 == 0)
    && (st 2 || (bits h0 42 4 == 0 && bits h0 46 7 == 0))

/-- The entry addresses agree with STRM. -/
def entriesOk (w : List Nat) (h1 : Nat) : Bool := (List.range 4).all (fun i => (w.getD (1 + i) 0 != 0) == bitOf h1 (12 + i))

/-- Producer references of a record that are not 0: leaf address and IDX. -/
def recProds (w : List Nat) : List (Nat × Nat) :=
  (((w.drop 11).take 4).filter (· != 0)).map (fun v => (bits v 0 41 * 128, bits v 41 23))

/-- A producer reference names a valid leaf of the same domain. -/
def prodOk (s : State) (f : Nat) (p : Nat × Nat) : Bool :=
  let w0 := fun (a : Nat) => match smGet s.leaves a with | some l => l.w0.toNat | none => recWord s a 0
  leafOk s p.1 && (match rcbChain s chainMax p.1 with
    | none => false
    | some c => match c.find? (fun a => bitOf (w0 a) 51) with
      | some a => bits (w0 a) 36 12 == f
      | none => false)

/-- The two header words: none when they cannot be read, and not yet while their page is frozen and the wait has not expired (R384). -/
inductive HdrRes
  | ok (h0 h1 : Nat)
  | fail
  | wait

/-- Read the header. -/
def readHeader (s : State) (f va : Nat) (expired : Bool) : HdrRes :=
  match translateMem s f true va .read with
  | .ok pa => if poisoned s (lineOf pa) then .fail else .ok (recordWord s pa) (recordWord s (pa + 8))
  | .frozen => if expired then .fail else .wait
  | .fail _ => .fail

/-- The wait of a leaf for the frozen page of a header has lasted 50 µs. -/
def headerExpired (s : State) (leaf : Nat) : Bool :=
  ((smGet s.leaves leaf).map (fun l => l.stall != 0 && decide (l.stall + 50000 ≤ s.time + 1))).getD false

/-- Change what the device keeps of a leaf. -/
def modLeaf (s : State) (a : Nat) (f : Leaf → Leaf) : State := match smGet s.leaves a with | some l => { s with leaves := smSet s.leaves a (f l) } | none => s

/-- The device reads and checks the record at an index of a leaf (R346 to R350); none while its header's page is frozen. [DESIGN CHOICE, unsafe: log entry 47] -/
def readRecord (s : State) (leaf idx tenant : Nat) (vc : VC) : Option State :=
  let log := recWord s leaf 6 % 32
  let pa := recWord s leaf 5 + 128 * (idx % 2 ^ log)
  let w := (List.range 16).map (fun i => recWord s pa i)
  let f := effFdom s leaf
  let t := tenantSt s tenant
  if !rootOk s leaf || !recordOk w || decide (f < bits t.dom.toNat 16 12) || decide (bits t.dom.toNat 0 12 < f) then some (refuse s leaf idx 1)
  else match readHeader s f (w.getD 0 0) (headerExpired s leaf) with
    | .wait => none
    | .fail => some (refuse s leaf idx 5)
    | .ok h0 h1 =>
      if !headerOk h0 h1 then some (refuse s leaf idx 2)
      else if !entriesOk w h1 then some (refuse s leaf idx 3)
      else if !(recProds w).all (prodOk s f) then some (refuse s leaf idx 4)
      else
        let prods := (recProds w).map (fun p => Prod.mk p.1 (resolveIdx s p.1 p.2))
        let n := recTickets w
        let killed := (domainSt s f).domRst = 1
        let v : Launch :=
          { leaf := leaf, idx := idx, words := w.map (BitVec.ofNat 64), hdr0 := BitVec.ofNat 64 h0, hdr1 := BitVec.ofNat 64 h1,
            fdom := f, tenant := tenant, serial := 0, st := if killed then .killed else .waiting, ranges := [], total := n,
            undisp := if killed then 0 else n, prods := prods, trig := 0, halted := 0, wgens := [],
            degraded := false, age := 0, ageStart := s.time, order := 0, began := s.fresh, stall := 0, vc := vc, vcTrig := [], vcEnd := [] }
        let s := { s with launches := smSet s.launches s.nextLaunch v, nextLaunch := s.nextLaunch + 1 }
        some (if killed then endIndex s leaf idx else s)

/-! ### Readiness (R349, R353, R354) -/

/-- A producer holds its dependent back no longer: all its tickets are dispatched, or it has exited. -/
def prodDispatched (s : State) (p : Prod) : Bool :=
  exited s p.leaf p.idx || ((findLaunch s p.leaf p.idx).map (fun e => e.2.undisp == 0)).getD false

/-- Ticket ranges of the dies present (R353). -/
def splitTickets (n dies : Nat) : List (Nat × Nat) := (List.range dies).map (fun k => (k * n / dies, (k + 1) * n / dies))

/-- Waiting launches whose conditions hold become ready, each with the next serial; those of one step became ready at once (R352). -/
def updateReady (s : State) : State :=
  s.launches.foldl (fun s e =>
    match launchAt s e.1 with
    | none => s
    | some v =>
      if v.st = .waiting ∧ v.prods.all (prodDispatched s) = true then
        let s := setLaunch s e.1 { v with st := .ready, serial := s.serial % 2 ^ 24, ranges := splitTickets v.total s.B.cdies,
                                          ageStart := s.time, order := s.fresh, began := s.fresh }
        { s with serial := (s.serial + 1) % 2 ^ 24 }
      else s) s

/-! ### Reading TAIL (R345, R397) -/

/-- Read the records between `next` and TAIL; those past the ring that `head` leaves full are refused with cause 6. A record whose header's page is
frozen is read later (R384). -/
def readUpTo (s : State) (leaf tenant log head tail : Nat) (vc : VC) : Nat → State
  | 0 => s
  | n + 1 =>
    match smGet s.leaves leaf with
    | none => s
    | some l =>
      if l.next = tail then s
      else
        let i := l.next
        let full := decide (2 ^ log ≤ (i + 2 ^ 32 - head) % 2 ^ 32)
        match if full then some (refuse s leaf i 6) else readRecord s leaf i tenant vc with
        | none => modLeaf s leaf (fun l => { l with stall := if l.stall = 0 then s.time + 1 else l.stall })
        | some s => readUpTo (modLeaf s leaf (fun l => { l with next := (i + 1) % 2 ^ 32, stall := 0 })) leaf tenant log head tail vc n

/-- A node that the device finds invalid is no node any more, once no launch of it is left. -/
def forgetNode (s : State) (a : Nat) : State :=
  if bitOf (recWord s a 0) 63 || s.launches.any (fun e => !e.2.st.ended && (nodeChain s e.2.leaf).any (fun n => n.1 == a)) then s
  else { s with leaves := smErase s.leaves a }

/-- The dispatch hardware reads a leaf's TAIL and the new records of a running tenant's tree; reading a launch reads the nodes above it
(R344). -/
def tailRead (s : State) (leaf : Nat) (vc : VC) : State :=
  if !leafOk s leaf then forgetNode s leaf
  else match rcbChain s chainMax leaf with
    | none => s
    | some c => match tenantAt s (c.getLast?.getD 0) with
      | none => s
      | some t =>
        let new := ((smGet s.leaves leaf).map (fun l => l.next != leafTail s leaf)).getD true
        let s := c.foldl (fun s a => if new || (smGet s.leaves a).isNone then readNode s a else s) s
        let s := match smGet s.leaves leaf with
          | some l => { s with leaves := smSet s.leaves leaf { l with tenant := t } }
          | none => s
        let tail := leafTail s leaf
        let n := (tail + 2 ^ 32 - ((smGet s.leaves leaf).map (·.next)).getD tail) % 2 ^ 32
        updateReady (readUpTo (fixBoundaries s) leaf t (recWord s leaf 6 % 32) (leafHead s leaf) tail vc n)

/-- A host write to TEN_KICK: the TAILs of the tenant's leaves are read again (R397, R399); what the host knows comes before the launches (R256). -/
def kickTenant (s : State) (n : Nat) : State :=
  s.leaves.foldl (fun s e => if e.2.tenant == n && e.2.w0.getLsbD 62 && !e.2.w0.getLsbD 61 then tailRead s e.1 s.R.hostClk else s) s

/-! ### SPAWN (R144, R345) -/

/-- Append a record to a device-fed leaf for a job of launch `l`: the status, and the new launch read at once; none while its header's
page is frozen and the wait has not `expired`. `w` holds the 16 words. [DEDUCED, unsafe: log entry 50] -/
def spawnAppend (s : State) (l leaf : Nat) (w : List Nat) (vc : VC) (expired : Bool) : Option (State × Nat) :=
  match launchAt s l with
  | none => some (s, 1)
  | some v =>
    if !leafOk s leaf || !bitOf (recWord s leaf 0) 61 then some (s, 1)
    else
      let root := ((rcbChain s chainMax v.leaf).bind (fun c => c.getLast?)).getD 0
      match rcbChain s chainMax leaf with
      | none => some (s, 2)
      | some c =>
        let dom := (c.find? (fun a => bitOf (recWord s a 0) 51)).map (fun a => bits (recWord s a 0) 36 12)
        if c.getLast? ≠ some root ∨ dom ≠ some v.fdom then some (s, 2)
        else if !recordOk w then some (s, 3)
        else match readHeader s v.fdom (w.getD 0 0) expired with
          | .wait => none
          | .fail => some (s, 3)
          | .ok h0 h1 =>
            if !headerOk h0 h1 || !entriesOk w h1 || !(recProds w).all (prodOk s v.fdom)
                || bits (recWord s (c.getLast?.getD 0) 0) 48 4 != 15 then some (s, 3)
            else
              let log := recWord s leaf 6 % 32
              let tail := leafTail s leaf
              if (tail + 2 ^ 32 - leafHead s leaf) % 2 ^ 32 = 2 ^ log then some (s, 4)
              else
                let pa := recWord s leaf 5 + 128 * (tail % 2 ^ log)
                let s := agentSetBytes s pa ((w.map (natLe 8)).flatten)
                let s := setRecWord s leaf 7 (recWord s leaf 7 / 2 ^ 32 * 2 ^ 32 + (tail + 1) % 2 ^ 32)
                some (tailRead s leaf vc, 0)

end Sys2Proof.Machine
end

