-- ==== Sys2Proof/Machine/PageMove.lean ====
section
/-!
DEFINITION. Moving a page (R383, R384): the freeze and drain that a write to XL_MIG starts, then the copy and the remap.
-/
namespace Sys2Proof.Machine

/-- The bytes of a page of SIZE code `z`. -/
def moveSize (z : Nat) : Nat := match z with | 0 => 2 ^ 12 | 1 => 2 ^ 16 | _ => 2 ^ 21

/-- The addresses of the entries of the leaf at `va`: one, or the 16 of a 64 KiB group. -/
def leafEntries (w : LeafRef) : List Nat :=
  if bitOf w.entry.toNat 7 && w.level == 0 then (List.range 16).map (fun i => w.addr / 128 * 128 + 8 * i) else [w.addr]

/-- XL_MST with a state and a code. -/
def mstWord (state code : Nat) : Word := BitVec.ofNat 64 (code * 16 + state)

/-- A line is in a page. -/
def inPage (pa size line : Nat) : Bool := decide (pa ≤ 64 * line) && decide (64 * line < pa + size)

/-- Step 2: dirty copies reach the old homes, partials are combined, caught lines and replicas are dropped, regions that hold a line of
the page are emptied. -/
def drainPage (s : State) (f pa size : Nat) : State :=
  let parts := (s.clusters.map (fun e => e.2.partials.map (fun p => p.1))).flatten
  let s := (parts.filter (inPage pa size)).foldl combineLine s
  let s := publishSel s (fun c => inPage pa size c.line) 3
  let lines := (s.M.dir.map (fun e => e.1)).filter (inPage pa size)
  let s := lines.foldl (fun s l => dirRevoke s l f none) s
  let s := { s with M := { s.M with
    dir := s.M.dir.filter (fun e => !inPage pa size e.1)
    stale := s.M.stale.filter (fun c => !(decide (pa ≤ c.1) && decide (c.1 < pa + size)))
    tags := s.M.tags.filter (fun e => !inPage pa size e.1) } }
  s.jobs.foldl (fun s e =>
    match e.2.region with
    | none => s
    | some g => if (g.reads ++ g.writes).any (inPage pa size) then narrow s e.1 (fun g => { g with hi := g.lo - 1 }) else s) s

/-- Move the entries of a map whose keys lie in `[a, a + n)` to `b`. -/
def shiftKeys {α : Type} (m : SMap α) (a n b : Nat) : SMap α :=
  let inside := m.filter (fun e => decide (a ≤ e.1) && decide (e.1 < a + n))
  let rest := m.filter (fun e => !(decide (a ≤ e.1) && decide (e.1 < a + n)) && !(decide (b ≤ e.1) && decide (e.1 < b + n)))
  inside.foldl (fun m e => smSet m (e.1 - a + b) e.2) rest

/-- Copy the bytes of a range of home memory, source and destination in device memory. -/
def copyKeys (m : Mem) (a n b : Nat) : Mem :=
  let inside := m.filter (fun e => decide (a ≤ e.1) && decide (e.1 < a + n))
  let rest := m.filter (fun e => !(decide (b ≤ e.1) && decide (e.1 < b + n)))
  inside.foldl (fun m e => smSet m (e.1 - a + b) e.2) rest

/-- What the package holds of the lines of a page beside its home's bytes is dropped: the new page's copies, which the copied bytes replace. -/
def dropPage (s : State) (pa size : Nat) : State :=
  let here := inPage pa size
  let bytes := fun (m : Mem) => m.filter (fun c => !(decide (pa ≤ c.1) && decide (c.1 < pa + size)))
  { s with
    cores := s.cores.map (fun e => (e.1, { e.2 with caught := e.2.caught.filter (!here ·), lru := e.2.lru.filter (!here ·) }))
    clusters := s.clusters.map (fun e => (e.1, { e.2 with partials := e.2.partials.filter (fun p => !here p.1),
                                                          partOrder := e.2.partOrder.filter (!here ·) }))
    M := { s.M with
      dirty := bytes s.M.dirty
      stale := bytes s.M.stale
      scopes := s.M.scopes.filter (fun c => !here c.line)
      dir := s.M.dir.filter (fun e => !here e.1)
      tokens := s.M.tokens.filter (fun e => !here (e.1 % 2 ^ 48))
      tags := s.M.tags.filter (fun e => !here e.1)
      deliveries := s.M.deliveries.filter (fun e => !here e.2.1) } }

/-- Each line of a page takes the commit record of the line it is moved from, its own or FLOOR of the old home (R299). -/
def copyRecords (s : State) (old n new : Nat) : State :=
  (List.range n).foldl (fun t i =>
    let r := lineRec s (old + i)
    if lineRec { t with M := { t.M with lines := smErase t.M.lines (new + i) } } (new + i) = r
    then { t with M := { t.M with lines := smErase t.M.lines (new + i) } }
    else setLineRec t (new + i) r) s

/-- Step 3: the bytes, race metadata, commit records, poison marks and release records go to the new page; once-only guards are kept by
tag and need no copy. -/
def copyPage (s : State) (old size new : Nat) : State :=
  let s := copyRecords (dropPage s new size) (old / 64) (size / 64) (new / 64)
  let m := if 2 ^ 45 ≤ old then
      (s.M.host.filter (fun e => decide (hostAddr s old ≤ e.1) && decide (e.1 < hostAddr s old + size))).foldl
        (fun (m : Mem) e => smSet m (e.1 - hostAddr s old + new) e.2)
        (s.M.mem.filter (fun e => !(decide (new ≤ e.1) && decide (e.1 < new + size))))
    else copyKeys s.M.mem old size new
  { s with M := { s.M with
    mem := m
    race := shiftKeys s.M.race (4096 * (old / 64)) (4096 * (size / 64)) (4096 * (new / 64))
    lines := s.M.lines.filter (fun e => !inPage old size e.1)
    code := shiftKeys s.M.code old size new
    nmOld := shiftKeys s.M.nmOld old size new
    poison := shiftKeys s.M.poison (old / 64) (size / 64) (new / 64)
    rel := s.M.rel.map (fun r => if decide (old ≤ r.addr) && decide (r.addr < old + size) then { r with addr := r.addr - old + new } else r) } }

/-- A write to XL_MIG (R379, R383): ignored while a move is in progress; refused moves leave STATE 3 and a code; else the page is frozen and
drained. [DESIGN CHOICE, unsafe: log entry 46; DESIGN CHOICE, unsafe: log entry 47] -/
def startMove (s : State) (f : Nat) (v : Word) : State :=
  let d := domainSt s f
  if bits d.xlMst.toNat 0 2 = 1 then s
  else
    let z := bits v.toNat 0 2
    let va := bits v.toNat 12 40 * 4096
    let s := setDomain s f { d with xlMig := BitVec.ofNat 64 (va + z) }
    let fail := fun c => setDomain s f { domainSt s f with xlMst := mstWord 3 c }
    let size := moveSize z
    let new := bits d.xlMdst.toNat 12 36 * 4096
    if z = 3 then fail 4
    else match walk s f va with
      | .fail | .wait => fail 1
      | .leaf w =>
        let e := w.entry.toNat
        if leafSize e w.level ≠ size ∨ bitOf e 59 then fail 1
        else if new % size ≠ 0 then fail 2
        else if !((rangeOf s new == .tier1 && rangeOf s (new + size - 1) == .tier1)
            || (rangeOf s new == .tier2 && rangeOf s (new + size - 1) == .tier2)) then fail 3
        else
          let base := va / size * size
          let old := entryPa e
          let es := leafEntries w
          let s := es.foldl (fun s a => deviceWrite s a (natLe 8 (agentWord s a + 2 ^ 59))) s
          let s := shootdown s f (base / 4096) (base / 4096 + size / 4096 - 1)
          let s := drainPage s f old size
          let s := { s with M := { s.M with moves := s.M.moves ++ [⟨f, base, size, old, new, es⟩] } }
          setDomain s f { domainSt s f with xlMst := mstWord 1 0 }

/-- A commit under way has gathered a line of the page: the drain waits (R307, R383). -/
def moveWaits (s : State) (m : Move) : Bool := s.M.committing.any (fun e => inPage m.oldPa m.size e.1)

/-- Steps 3 and 4: the copy; the new address and FRZ = 0 in one strong write per entry, the home marks cleared, STATE 2. [DESIGN CHOICE, unsafe: log entry 46] -/
def finishMove (s : State) (m : Move) : State :=
  let s := copyPage (drainPage s m.fdom m.oldPa m.size) m.oldPa m.size m.newPa
  let s := { s with M := { s.M with moves := s.M.moves.filter (fun x => x != m) } }
  let s := m.entries.foldl (fun s a =>
    let e := agentWord s a
    deviceWrite s a (natLe 8 (e - bits e 59 1 * 2 ^ 59 - entryPa e + m.newPa))) s
  setDomain s m.fdom { domainSt s m.fdom with xlMst := mstWord 2 0 }

end Sys2Proof.Machine
end

