-- ==== Sys2Proof/Machine/Regs.lean ====
section
/-!
DEFINITION. Device registers (R63, R275, R292, R359, R379, R394, R399, R402, R418, R423, R426, R430, R434, R436, R438, R442, R443): which
register an address names, who may read and write it, its value, and what a write does. A register takes the bits its fields have;
reserved bits are ignored and read zero (R6).
-/
namespace Sys2Proof.Machine

/-- A register by its block, and its number in the block. -/
inductive Reg
  | fwin (n r : Nat)
  | topo (w : Nat)
  | ctx (f r : Nat)
  | xl (f r : Nat)
  | ten (n r : Nat)
  | domRst (f : Nat)
  | hw (r : Nat)
  | evq (f r : Nat)
  | err (die r : Nat)
  | wp (m n r : Nat)
  | bp (f n r : Nat)
  | tr (f r : Nat)
  | pr (f r : Nat)
  | bootst (die : Nat)
  | ikey (die w : Nat)
  | crng (f n r : Nat)
  deriving DecidableEq, Repr

/-- Who makes a register access. -/
inductive Agent
  | job (f : Nat)
  | handler (f : Nat)
  | host
  | firmware
  deriving DecidableEq, Repr

/-- The die ids present (R415). -/
def diesPresent (s : State) : List Nat := List.range s.B.cdies ++ s.B.mdies.map (· + 8) ++ s.B.iodies.map (· + 24)

/-- The register at an 8-byte aligned physical address; none when the address names no register. -/
def regAt (s : State) (pa : Nat) : Option Reg :=
  let o := pa % 2 ^ 24
  let blk := fun (base size : Nat) => decide (base ≤ o) && decide (o < base + size)
  let some_ := fun (c : Bool) (r : Reg) => if c then some r else none
  if o % 8 ≠ 0 ∨ pa / 2 ^ 24 ≠ 0x300000 then none
  else if blk 0x20000 0x200 then let x := o - 0x20000; some (.fwin (x / 32) (x % 32 / 8))
  else if blk 0x100000 4096 then some (.topo ((o - 0x100000) / 8))
  else if blk 0x200000 (0x40 * 4096) then let x := o - 0x200000; some_ (x % 64 / 8 < 5) (.ctx (x / 64) (x % 64 / 8))
  else if blk 0x300000 (0x40 * 4096) then let x := o - 0x300000; some_ (x % 64 / 8 < 5) (.xl (x / 64) (x % 64 / 8))
  else if blk 0x400000 (0x40 * 64) then let x := o - 0x400000; some_ (x % 64 / 8 < 7) (.ten (x / 64) (x % 64 / 8))
  else if blk 0x440000 (8 * 4096) then some (.domRst ((o - 0x440000) / 8))
  else if blk 0x480000 24 then some (.hw ((o - 0x480000) / 8))
  else if blk 0x500000 (0x40 * 4096) then let x := o - 0x500000; some_ (x % 64 / 8 < 5) (.evq (x / 64) (x % 64 / 8))
  else if blk 0x600000 (0x1000 * 32) then
    let x := o - 0x600000; some_ ((diesPresent s).contains (x / 4096) && x % 4096 / 8 < 4) (.err (x / 4096) (x % 4096 / 8))
  else if blk 0x700000 (0x1000 * 16) then
    let x := o - 0x700000
    some_ (s.B.mdies.contains (x / 4096) && x % 4096 / 32 < 16 && x % 32 / 8 < 4) (.wp (x / 4096) (x % 4096 / 32) (x % 32 / 8))
  else if blk 0x800000 (0x100 * 4096) then
    let x := o - 0x800000
    let y := x % 256
    if y < 0x80 then some_ (y % 32 / 8 < 3) (.bp (x / 256) (y / 32) (y % 32 / 8))
    else if y < 0xA8 then some (.tr (x / 256) ((y - 0x80) / 8))
    else if 0xC0 ≤ y ∧ y < 0xE0 then some (.pr (x / 256) ((y - 0xC0) / 8))
    else none
  else if blk 0x900000 (0x1000 * 32) then
    let x := o - 0x900000
    if x % 4096 = 0 then some_ ((diesPresent s).contains (x / 4096)) (.bootst (x / 4096))
    else some_ (decide (x / 4096 < s.B.cdies) && decide (0x100 ≤ x % 4096) && decide (x % 4096 < 0x188)) (.ikey (x / 4096) ((x % 4096 - 0x100) / 8))
  else if blk 0xA00000 (0x100 * 4096) then let x := o - 0xA00000; some (.crng (x / 256) (x % 256 / 32) (x % 32 / 8))
  else none

/-! ### Access (the Access columns of the register tables) -/

/-- The agent is the domain's handler. -/
def Agent.hnd (a : Agent) (f : Nat) : Bool := a == .handler f
/-- The host or die firmware. -/
def Agent.out (a : Agent) : Bool := a == .host || a == .firmware

/-- The agent may read the register. -/
def Reg.mayRead (r : Reg) (a : Agent) : Bool :=
  match r with
  | .fwin _ _ => a.out
  | .topo _ => true
  | .ctx f _ => a.hnd f || a == .firmware
  | .xl f _ => a.hnd f || a.out
  | .ten _ _ | .domRst _ | .hw _ | .evq _ _ | .err _ _ | .wp _ _ _ => a.out
  | .bp f _ _ | .tr f _ | .pr f _ => a.hnd f || a.out
  | .bootst _ | .ikey _ _ => true
  | .crng f _ _ => a.out || a.hnd f || a == .job f

/-- The agent may write the register. -/
def Reg.mayWrite (r : Reg) (a : Agent) : Bool :=
  match r with
  | .fwin _ _ => a == .firmware
  | .topo _ => false
  | .ctx _ n => a == .firmware && n != 4
  | .xl f n => match n with | 0 => a == .firmware | 4 => false | _ => a.hnd f || a.out
  | .ten _ n => a.out && n != 6
  | .domRst _ | .hw _ => a.out
  | .evq _ n => a.out && (n == 0 || n == 2 || n == 4)
  | .err _ n => a.out && n == 3
  | .wp _ _ n => a.out && n != 3
  | .bp f _ n => (a.hnd f || a.out) && n != 2
  | .tr f n => (a.hnd f || a.out) && n != 2 && n != 4
  | .pr f n => (a.hnd f || a.out) && n != 1 && n != 3
  | .bootst _ | .ikey _ _ => false
  | .crng _ _ n => a == .firmware && n != 3

/-! ### Values -/

/-- BOOTST (R442). -/
def bootWord (d : DieSt) : Nat := d.svn % 2 ^ 32 * 2 ^ 32 + d.clk % 256 * 256 + d.result % 16 * 16 + d.stage % 16

/-- CTX_STAT (R359). -/
def ctxStat (d : Domain) : Nat := d.ctxExt * 2 ^ 48 + d.ctxLost * 2 ^ 32 + d.ctxForced * 2 ^ 16 + d.ctxYields

/-- The oldest record of the error log (R423). -/
def errWord (d : DieSt) : Nat :=
  match d.errlog with
  | [] => 0
  | (kind, src, cls, addr) :: _ => kind % 256 * 2 ^ 56 + src % 32 * 2 ^ 51 + cls % 16 * 2 ^ 47 + addr % 2 ^ 47

/-- A word of a byte list. -/
def listWord (l : List Byte) (i : Nat) : Nat := leNat ((l.drop (8 * i)).take 8)

/-- The value of a register. -/
def regRead (s : State) : Reg → Nat
  | .fwin n r =>
    let w := s.R.fwin.toList.getD n (0, 0, 0, 0)
    (match r with | 0 => w.1 | 1 => w.2.1 | 2 => w.2.2.1 | _ => w.2.2.2).toNat
  | .topo w => listWord s.B.table w
  | .ctx f r =>
    let d := domainSt s f
    match r with | 0 => d.ctxBase.toNat | 1 => d.ctxLim.toNat | 2 => d.ctxCtl.toNat | 3 => d.ctxHnd.toNat | _ => ctxStat d
  | .xl f r =>
    let d := domainSt s f
    match r with | 0 => d.xlRoot.toNat | 1 => 0 | 2 => d.xlMdst.toNat | 3 => d.xlMig.toNat | _ => d.xlMst.toNat
  | .ten n r =>
    let t := tenantSt s n
    match r with
    | 0 => t.root.toNat | 1 => t.dom.toNat | 2 => t.irqa.toNat | 3 => t.irqd.toNat | 4 => t.bw.toNat | 5 => 0
    | _ => t.msgs * 2 ^ 32 + (if t.err then 2 else 0) + (if t.run then 1 else 0)
  | .domRst f => (domainSt s f).domRst
  | .hw r => (match r with | 0 => s.R.hwMbx | 1 => s.R.hwBulk | _ => s.R.hwBsz).toNat
  | .evq f r =>
    let d := domainSt s f
    (match r with | 0 => d.evqBase | 1 => d.evqTail | 2 => d.evqHead | 3 => d.evqLost | _ => d.hwd).toNat
  | .err die r =>
    let d := dieSt s die
    match r with | 0 => d.ce | 1 => d.ue | 2 => errWord d | _ => 0
  | .wp m n r =>
    let w := (mdieSt s m).watch.toList.getD n Watch.reset
    (match r with | 0 => w.base | 1 => w.lim | 2 => w.ctl | _ => w.cnt).toNat
  | .bp f n r =>
    let d := domainSt s f
    ((match r with | 0 => d.bpPc | 1 => d.bpCtl | _ => d.bpHit).toList.getD n 0).toNat
  | .tr f r =>
    let d := domainSt s f
    (match r with | 0 => d.trBase | 1 => d.trCtl | 2 => d.trTail | 3 => d.trHead | _ => d.trLost).toNat
  | .pr f r =>
    let d := domainSt s f
    (match r with | 0 => d.prBase | 1 => d.prTail | 2 => d.prHead | _ => d.prLost).toNat
  | .bootst die => bootWord (dieSt s die)
  | .ikey die w => listWord (Config.identityKey die) w
  | .crng f n r =>
    let w := (domainSt s f).crng.toList.getD n (0, 0, 0)
    match r with | 0 => w.1.toNat | 1 => w.2.1.toNat | 2 => w.2.2.toNat | _ => 0

/-! ### Writes -/

/-- Keep the fields given as (lowest bit, width). -/
def keep (v : Word) (fs : List (Nat × Nat)) : Word := BitVec.ofNat 64 ((fs.map (fun f => bits v.toNat f.1 f.2 * 2 ^ f.1)).foldl (· + ·) 0)

/-- A write to a format window by firmware (R63): an enable with LIM < BASE, a CODE of 0xD to 0xF or an invalid descriptor is refused. -/
def writeFwin (s : State) (n r : Nat) (v : Word) : State :=
  let w := s.R.fwin.toList.getD n (0, 0, 0, 0)
  let w := match r with
    | 0 => (keep v [(12, 36), (0, 1)], w.2)
    | 1 => (w.1, keep v [(12, 36)], w.2.2)
    | 2 => (w.1, w.2.1, keep v [(32, 4), (0, 32)], w.2.2.2)
    | _ => (w.1, w.2.1, w.2.2.1, keep v [(1, 47)])
  let code := bits w.2.2.1.toNat 32 4
  let bad := w.1.getLsbD 0 && (decide (bits w.2.1.toNat 12 36 < bits w.1.toNat 12 36) || decide (12 < code)
    || (code == 12 && (descFmt (bits w.2.2.1.toNat 0 32)).isNone))
  if bad then s else { s with R := { s.R with fwin := s.R.fwin.setIfInBounds n w } }

/-- A write to TEN_ROOT (R399): EN = 1 is refused when LAST < FIRST, the range overlaps another running tenant's, or ROOT is 0. [DESIGN CHOICE, unsafe: log entry 107] -/
def writeTenRoot (s : State) (n : Nat) (v : Word) : State :=
  let t := { tenantSt s n with root := keep v [(7, 41), (0, 1)] }
  let first := bits t.dom.toNat 16 12
  let last := bits t.dom.toNat 0 12
  let clash := s.R.tenants.any (fun e => e.1 != n && e.2.run && decide (bits e.2.dom.toNat 16 12 ≤ last) && decide (first ≤ bits e.2.dom.toNat 0 12))
  if v.getLsbD 0 then
    if last < first ∨ clash = true ∨ bits v.toNat 7 41 = 0 then setTenant s n { t with run := false, err := true }
    else setTenant s n { t with run := true, err := false }
  else setTenant s n { t with run := false }

/-- A store to XL_INV (R379, R381). -/
def writeXlInv (s : State) (f : Nat) (v : Word) : State :=
  if v.getLsbD 63 then { s with M := { s.M with tlb := s.M.tlb.filter (fun t => t.fdom != f) } }
  else let p := bits v.toNat 12 40; shootdown s f p (p + bits v.toNat 0 12)

/-- A write to DOM_RST (R402): bit 0 starts a reset unless one is running. -/
def writeDomRst (s : State) (f : Nat) (v : Word) : State :=
  let d := domainSt s f
  if v.getLsbD 0 && d.domRst != 1 then setDomain s f { d with domRst := 1 } else s

/-- Dirty bytes of host-window lines reach their host before the windows move (R394). [DEDUCED, unsafe: log entry 38] -/
def flushWindows (s : State) : State :=
  ((s.M.dirty.filter (fun c => decide (2 ^ 45 ≤ c.1))).map (fun c => c.1)).foldl (fun s a => writeBackN s a 1) s

/-- A write to a host-window register (R394). [DEDUCED, unsafe: log entry 38] -/
def writeHw (s : State) (r : Nat) (v : Word) : State :=
  let s := flushWindows s
  match r with
  | 0 => { s with R := { s.R with hwMbx := keep v [(28, 36), (0, 1)] } }
  | 1 => { s with R := { s.R with hwBulk := keep v [(28, 36), (0, 1)] } }
  | _ => { s with R := { s.R with hwBsz := keep v [(28, 17)] } }

/-- FMT and OP that CRNGn_CTL takes; other codes are refused (R292). -/
def rangeCtlOk (v : Nat) : Bool := [0, 1, 2, 3, 0xB].contains (bits v 4 4) && bits v 0 2 != 3

/-- Write a register; who may do so is checked by the caller. -/
def regWrite (s : State) (r : Reg) (v : Word) : State :=
  match r with
  | .fwin n r => writeFwin s n r v
  | .topo _ | .bootst _ | .ikey _ _ => s
  | .ctx f r =>
    let d := domainSt s f
    setDomain s f (match r with
      | 0 => { d with ctxBase := keep v [(12, 36), (0, 1)] }
      | 1 => { d with ctxLim := keep v [(12, 36)] }
      | 2 => { d with ctxCtl := keep v [(32, 32), (0, 16)] }
      | 3 => { d with ctxHnd := v }
      | _ => d)
  | .xl f r =>
    let d := domainSt s f
    match r with
    | 0 => setDomain s f { d with xlRoot := keep v [(16, 32), (0, 1)] }
    | 1 => writeXlInv s f v
    | 2 => setDomain s f { d with xlMdst := keep v [(12, 36)] }
    | 3 => startMove s f v
    | _ => s
  | .ten n r =>
    let t := tenantSt s n
    match r with
    | 0 => writeTenRoot s n v
    | 1 => setTenant s n { t with dom := keep v [(16, 12), (0, 12)] }
    | 2 => setTenant s n { t with irqa := v }
    | 3 => setTenant s n { t with irqd := keep v [(32, 2), (2, 30)] }
    | 4 => setTenant s n { t with bw := keep v [(0, 8)] }
    | 5 => kickTenant s n
    | _ => s
  | .domRst f => writeDomRst s f v
  | .hw r => writeHw s r v
  | .evq f r =>
    let d := domainSt s f
    setDomain s f (match r with
      | 0 => { d with evqBase := keep v [(5, 43), (0, 5)] }
      | 2 => { d with evqHead := keep v [(0, 32)] }
      | 4 => { d with hwd := keep v [(0, 32)] }
      | _ => d)
  | .err die r => if r = 3 then let d := dieSt s die; setDie s die { d with errlog := d.errlog.drop 1 } else s
  | .wp m n r =>
    let d := mdieSt s m
    let w := d.watch.toList.getD n Watch.reset
    let w := match r with
      | 0 => { w with base := keep v [(6, 42), (0, 1)] }
      | 1 => { w with lim := keep v [(6, 42)] }
      | 2 => { w with ctl := keep v [(40, 12), (0, 7)] }
      | _ => w
    setMdie s m { d with watch := d.watch.setIfInBounds n w }
  | .bp f n r =>
    let d := domainSt s f
    setDomain s f (match r with
      | 0 => { d with bpPc := d.bpPc.setIfInBounds n v }
      | 1 => { d with bpCtl := d.bpCtl.setIfInBounds n (keep v [(63, 1), (16, 25), (0, 16)]) }
      | _ => d)
  | .tr f r =>
    let d := domainSt s f
    setDomain s f (match r with
      | 0 => { d with trBase := keep v [(5, 43), (0, 5)] }
      | 1 => if bits v.toNat 0 2 = 3 then d else { d with trCtl := keep v [(63, 1), (4, 4), (0, 2)] }
      | 3 => { d with trHead := keep v [(0, 32)] }
      | _ => d)
  | .pr f r =>
    let d := domainSt s f
    setDomain s f (match r with
      | 0 => { d with prBase := keep v [(7, 41), (0, 5)] }
      | 2 => { d with prHead := keep v [(0, 32)] }
      | _ => d)
  | .crng f n r =>
    let d := domainSt s f
    let w := d.crng.toList.getD n (0, 0, 0)
    let ctl := keep v [(4, 4), (0, 2)]
    let w := match r with
      | 0 => (keep v [(6, 46), (0, 1)], w.2)
      | 1 => (w.1, keep v [(6, 46)], w.2.2)
      | 2 => (w.1, w.2.1, if rangeCtlOk ctl.toNat then ctl else w.2.2)
      | _ => w
    setDomain s f { d with crng := d.crng.setIfInBounds n w }

/-! ### Accesses of 1, 2, 4 or 8 bytes -/

/-- The answer of a register access. -/
inductive RegAns
  | ok (v : Nat)
  | perm
  | absent
  deriving DecidableEq, Repr

/-- Read `n` bytes of the register range: the bytes of the register the address lies in. [DEDUCED, unsafe: log entry 36] -/
def readRegs (s : State) (a : Agent) (pa n : Nat) : RegAns :=
  match regAt s (pa / 8 * 8) with
  | none => .absent
  | some r => if r.mayRead a then .ok (regRead s r / 2 ^ (8 * (pa % 8)) % 2 ^ (8 * n)) else .perm

/-- Whether a write is accepted. -/
def canWriteRegs (s : State) (a : Agent) (pa : Nat) : RegAns :=
  match regAt s (pa / 8 * 8) with
  | none => .absent
  | some r => if r.mayWrite a then .ok 0 else .perm

/-- Write `n` bytes of the register range: the other bytes of the register are written as they read. [DEDUCED, unsafe: log entry 36] -/
def writeRegs (s : State) (pa n v : Nat) : State :=
  match regAt s (pa / 8 * 8) with
  | none => s
  | some r =>
    let w := if n = 8 then BitVec.ofNat 64 v else putBits (BitVec.ofNat 64 (regRead s r)) (8 * (pa % 8)) (8 * n) v
    regWrite s r w

/-- The agent a job's S stream acts as. -/
def Job.agent (j : Job) : Agent := if j.level = .handler then .handler j.fdom else .job j.fdom

end Sys2Proof.Machine
end

