-- ==== Sys2Proof/Machine/Region.lean ====
section
/-!
DEFINITION. Slalom regions (R298 to R313): loads and stores inside a region with their narrowing and edges, RBEG, RCOM, RABT and RBND
(R139 to R141), the commit in its steps, narrowing and position messages, the rebase.
-/
namespace Sys2Proof.Machine

/-! ### Bounds at the core (R306) -/

/-- RLO and RHI take new values. -/
def Job.setBounds (j : Job) (lo hi : Nat) : Job :=
  { j with core := { j.core with rlo := BitVec.ofNat 48 lo, rhi := BitVec.ofNat 48 hi } }

/-- The core learns bounds: they only ever narrow. -/
def Job.learn (j : Job) (lo hi : Nat) : Job := j.setBounds (Nat.max j.core.rlo.toNat lo) (Nat.min j.core.rhi.toNat hi)

/-- The core's bounds have crossed. -/
def Job.crossed (j : Job) : Bool := decide (j.core.rhi.toNat < j.core.rlo.toNat)

/-- Abort the region of slot `k` (R139, R311). -/
def abortAt (s : State) (k cause : Nat) : State :=
  match jobAt s k with
  | none => s
  | some j => if j.region.isSome then let a := abortRegion s k j cause; setJob a.1 k { a.2 with pend := .none } else s

/-- The core of slot `k` learns bounds, and the region aborts with cause EMPTY when they cross. -/
def learnAt (s : State) (k lo hi : Nat) : State :=
  match jobAt s k with
  | none => s
  | some j =>
    if j.region.isNone then s
    else
      let j := j.learn lo hi
      let s := setJob s k j
      if j.crossed then abortAt s k 1 else s

/-- The core of slot `k` learns the bounds its record holders hold. -/
def learnOwn (s : State) (k : Nat) : State :=
  match (jobAt s k).bind (·.region) with
  | none => s
  | some r => learnAt s k r.lo r.hi

/-! ### Edges (R304) -/

/-- The region of a slot. -/
def regionAt (s : State) (k : Nat) : Option Region := (jobAt s k).bind (·.region)

/-- The distinct partners of a region. -/
def Region.partners (r : Region) : List Nat := unionNat r.succ r.pred

/-- Record the edge `p → q`: once, each side narrowed, against a frozen region's position (R309); a thirty-third partner aborts the region whose list is full with CAPACITY. -/
def addEdge (s : State) (p q : Nat) : State :=
  match regionAt s p, regionAt s q with
  | some a, some b =>
    if a.succ.contains q then s
    else
      let fullP := decide (32 ≤ a.partners.length) && !a.partners.contains q
      let fullQ := decide (32 ≤ b.partners.length) && !b.partners.contains p
      if fullP || fullQ then
        let s := if fullP then abortAt s p 2 else s
        if fullQ then abortAt s q 2 else s
      else
        let s := narrow s p (fun r => { r with succ := r.succ ++ [q], hi := Nat.min r.hi (b.frozen.getD b.hi - 1) })
        narrow s q (fun r => { r with pred := r.pred ++ [p], lo := Nat.max r.lo (a.frozen.getD a.lo + 1) })
  | _, _ => s

/-- The other active regions that hold a line. -/
def holdersOf (s : State) (k line : Nat) : List Nat :=
  (s.jobs.filter (fun e => e.1 != k && (match e.2.region with | some r => r.reads.contains line || r.writes.contains line | none => false))).map (·.1)

/-- The set of the core's L1 that the line maps to has no way left for a new footprint line (R301). -/
def setFull (s : State) (core line : Nat) : Bool :=
  let foot := (footLines s core).filter (fun l => l1Set l == l1Set line)
  !foot.contains line && decide (8 ≤ foot.eraseDups.length)

/-- A capacity limit forbids the line to join a set of the region (R301). -/
def overCapacity (s : State) (k line : Nat) (r : Region) (store : Bool) : Bool :=
  (if store then !r.writes.contains line && decide (32 ≤ r.writes.length) else !r.reads.contains line && decide (64 ≤ r.reads.length))
    || setFull s (jCoreKey k) line
    || (!r.reads.contains line && !r.writes.contains line && decide (8 ≤ (holdersOf s k line).length))

/-! ### Accesses inside a region (R302 to R304) -/

/-- The answer of an access inside a region: done; the line's other holders have not published yet; the region has aborted. -/
inductive RegRes
  | ok (s : State) (v : List Byte)
  | stall (s : State)
  | gone (s : State)
  deriving Repr

/-- Narrow against the line's record, then record the edges with the regions that hold the line. -/
def touchLine (s : State) (k line : Nat) (store : Bool) : State :=
  match regionAt s k with
  | none => s
  | some r =>
    let c := lineRec s line
    let lo := if store then Nat.max r.lo (Nat.max (c.1 + 1) (c.2 + 1)) else if r.writes.contains line then r.lo else Nat.max r.lo (c.1 + 1)
    let reads := if store then r.reads else unionNat r.reads [line]
    let writes := if store then unionNat r.writes [line] else r.writes
    let s := narrow s k (fun r => { r with lo := lo, reads := reads, writes := writes })
    (holdersOf s k line).foldl (fun s p =>
      match regionAt s p with
      | none => s
      | some q =>
        if store then (if q.reads.contains line || (q.writes.contains line && !r.writes.contains line) then addEdge s p k else s)
        else (if q.writes.contains line then addEdge s k p else s)) s

/-- Bytes of the region's own stores over the committed bytes. -/
def overlay (m : Mem) (pa : Nat) : List Byte → List Byte
  | [] => []
  | b :: r => (match smGet m pa with | some v => v | none => b) :: overlay m (pa + 1) r

/-- The region has stored every one of `n` bytes. -/
def ownBytes (m : Mem) (pa n : Nat) : Bool := (List.range' pa n).all (fun a => (smGet m a).isSome)

/-- A load inside the region of slot `k`, within one line. -/
def regionLoad (s : State) (k pa n : Nat) : RegRes :=
  match jobAt s k, regionAt s k with
  | some j, some r =>
    let line := lineOf pa
    if ownBytes r.store pa n then .ok s (overlay r.store pa (List.replicate n 0))
    else
      let p := memPrep s (jCoreKey k) 3 line
      if !p.2 then .stall p.1
      else if overCapacity p.1 k line r false then .gone (abortAt p.1 k 2)
      else
        let s := l1Read (cohRead p.1 (jCoreKey k) line j.fdom) (jCoreKey k) line true
        let s := touchLine s k line false
        if (regionAt s k).isNone then .gone s
        else
          let s := noteAccess s ⟨k, 0, 1⟩ pa n true false false
          let s := narrowQuiet s k (fun r => { r with acq := r.acq ++ relAt s none pa n })
          .ok s (overlay r.store pa (cBytes s pa n))
  | _, _ => .gone s

/-- Enter bytes into a region's buffer. -/
def storeSet (m : Mem) (pa : Nat) (l : List Byte) : Mem := cellsSet m pa l

/-- A store inside the region of slot `k`, within one line. -/
def regionStore (s : State) (k pa : Nat) (l : List Byte) : RegRes :=
  match regionAt s k with
  | some r =>
    let line := lineOf pa
    let p := memPrep s (jCoreKey k) 3 line
    if !p.2 then .stall p.1
    else if overCapacity p.1 k line r true then .gone (abortAt p.1 k 2)
    else
      let s := touchLine p.1 k line true
      if (regionAt s k).isNone then .gone s
      else
        let s := l1Touch s (jCoreKey k) line (footLines s (jCoreKey k))
        .ok (narrowQuiet s k (fun r => { r with store := storeSet r.store pa l })) []
  | none => .gone s

/-- A store to a register inside the region is buffered like any other (R302). -/
def regionRegStore (s : State) (k pa n v : Nat) : State := narrowQuiet s k (fun r => { r with regs := r.regs ++ [(pa, n, v)] })

/-- What a load of a register inside the region returns: its own last store that holds all the bytes, else the register. -/
def Region.regLoad (r : Region) (pa n v : Nat) : Nat :=
  match r.regs.reverse.find? (fun x => decide (x.1 ≤ pa) && decide (pa + n ≤ x.1 + x.2.1)) with
  | some x => x.2.2 / 256 ^ (pa - x.1) % 256 ^ n
  | none => v

/-! ### RBEG, RCOM, RABT, RBND -/

/-- RSTAT of a region just begun. -/
def rstatActive : Word := 8

/-- G has passed 2^47 (R300). -/
def rebaseDue (s : State) : Bool := decide (2 ^ 47 < s.gpos.toNat)

/-- RBEG (R139): opens a region at the die's copy of G, once every earlier S store has been performed at device scope. It waits while positions
are to be rebased (R300). [DEDUCED, unsafe: log entry 44] -/
def execRbeg (o : BitVec 26) (s : State) : Out :=
  sExec s sJob [] noDec (fun k j =>
    if s.rebasing || rebaseDue s then .wait s j
    else
      let s := publishOwn s (jCoreKey k) 3
      let j := (jobAt s k).getD j
      let hpc := j.pc + BitVec.signExtend 64 o * 4
      let g := (dieSt s (jDie k)).g.toNat
      let j := { j with region := some ⟨hpc, [], [], [], g, 2 ^ 48 - 1, [], [], s.fresh, none, [], []⟩,
                        core := { j.core with rstat := rstatActive } }
      .retire s (j.setBounds g (2 ^ 48 - 1)).next)

/-- RCOM (R140): outside a region trap 0x10; narrowings on their way arrive; an empty interval aborts; else it stalls for the commit. -/
def execRcom (d : BitVec 6) (s : State) : Out :=
  sExec s sReg [d] noDec (fun k j =>
    if j.region.isNone then .trap 0x10 0
    else
      let s := learnOwn s k
      match regionAt s k with
      | none => .done s
      | some _ => .wait s { (jobAt s k).getD j with pend := .commit d })

/-- RABT (R141). -/
def execRabt (c : BitVec 8) (s : State) : Out :=
  sExec s sReg [] noDec (fun k j =>
    if j.region.isNone then .trap 0x10 0
    else
      let a := abortRegion s k j 4
      let j := { a.2 with core := { a.2.core with rstat := BitVec.ofNat 64 (c.toNat * 256 + 4) } }
      .retire a.1 j)

/-- RBND.lo (R141). -/
def execRbndLo (d : BitVec 6) (s : State) : Out :=
  sExec s sReg [d] noDec (fun _ j => .retire s (j.setS d (j.core.rlo.setWidth 64)).next)
/-- RBND.hi (R141). -/
def execRbndHi (d : BitVec 6) (s : State) : Out :=
  sExec s sReg [d] noDec (fun _ j => .retire s (j.setS d (j.core.rhi.setWidth 64)).next)

/-! ### Commit (R307, R308) -/

/-- The lines of a set in ascending order. -/
def sortedLines (l : List Nat) : List Nat := sortBy (fun a b => decide (a ≤ b)) l

/-- Gather (R307): Owned permission, all 64 tokens and the committing mark for every line of the write set, in ascending order, as far as
nothing holds a line back. -/
def gather (s : State) (k f : Nat) : List Nat → State
  | [] => s
  | l :: r =>
    if smGet s.M.committing l = some k then gather s k f r
    else
      let p := memPrep s (jCoreKey k) 3 l
      if !p.2 then p.1
      else
        let s := cohPut p.1 (jCoreKey k) l f 2 0 []
        gather { s with M := { s.M with committing := smSet s.M.committing l k } } k f r

/-- Every line of the write set is gathered. -/
def allGathered (s : State) (k : Nat) (r : Region) : Bool := r.writes.all (fun l => smGet s.M.committing l == some k)

/-- The mask of a line's bytes in a buffer, and those bytes as a line image. -/
def bufMask (m : Mem) (line : Nat) : Nat :=
  ((List.range 64).map (fun i => if (smGet m (64 * line + i)).isSome then 2 ^ i else 0)).foldl (· + ·) 0
def bufLine (m : Mem) (line : Nat) : List Byte := (List.range 64).map (fun i => (smGet m (64 * line + i)).getD 0)

/-- A final position on its way to a die (R308). -/
def posPkt (src dst p g : Nat) : Pkt := ⟨7, 0, ⟨BitVec.ofNat 5 src, BitVec.ofNat 5 dst, 0, 0, 0, BitVec.ofNat 512 (p + g * 2 ^ 64)⟩⟩

/-- Advance a die's copy of G; ids of M-dies start at 8 (R415). -/
def learnG (s : State) (id g : Nat) : State :=
  if id < 8 then
    let d := dieSt s id
    setDie s id { d with g := BitVec.ofNat 48 (Nat.max d.g.toNat g) }
  else
    let d := mdieSt s (id - 8)
    setMdie s (id - 8) { d with g := BitVec.ofNat 48 (Nat.max d.g.toNat g) }

/-- Freeze and record (R307): the bounds stop changing, an empty interval aborts, and the lines take position p = RLO. -/
def freezeRegion (s : State) (k : Nat) (r : Region) : State :=
  let p := r.lo
  let s := r.writes.foldl (fun s l => let c := lineRec s l; setLineRec s l (Nat.max c.1 p, c.2)) s
  let s := r.reads.foldl (fun s l => let c := lineRec s l; setLineRec s l (c.1, Nat.max c.2 p)) s
  narrowQuiet s k (fun r => { r with frozen := some p })

/-- Publish and finish (R307, R308): the stores appear together and the marks are cleared, partners and dies learn position `p`, RCOM
retires. [DESIGN CHOICE, unsafe: log entry 45] -/
def commitRegion (s : State) (k p : Nat) (j : Job) (r : Region) (d : BitVec 6) : State :=
  let core := jCoreKey k
  let s := (sortedLines r.writes).foldl (fun s l => cohPut s core l j.fdom 2 (bufMask r.store l) (bufLine r.store l)) s
  let s := r.regs.foldl (fun s x => writeRegs s x.1 x.2.1 x.2.2) s
  let s := modJob s k (fun j => (j.acquire 0 3 core r.acq).clkAfter 0 1 false true)
  let vc := ((jobAt s k).getD j).relClk 3
  let s := r.store.foldl (fun s c => relWrite s none c.1 1 false [⟨c.1, 1, none, 3, core, vc⟩]) s
  let s := { s with M := { s.M with committing := s.M.committing.filter (fun e => e.2 != k) } }
  let s := r.succ.foldl (fun s q => narrowQuiet s q (fun g => { g with lo := Nat.max g.lo (p + 1), pred := g.pred.filter (· != k) })) s
  let s := r.pred.foldl (fun s q => narrowQuiet s q (fun g => { g with hi := Nat.min g.hi (p - 1), succ := g.succ.filter (· != k) })) s
  let g := Nat.max (dieSt s (jDie k)).g.toNat (p + 1)
  let s := learnG { s with gpos := BitVec.ofNat 48 (Nat.max s.gpos.toNat (p + 1)) } (jDie k) (p + 1)
  let dies := (List.range s.B.cdies).filter (· != jDie k) ++ s.B.mdies.map (· + 8)
  let s := { s with F := { s.F with inbox := s.F.inbox ++ dies.map (fun x => posPkt (jDie k) x p g) } }
  let s := (r.succ ++ r.pred).foldl (fun s q => if jDie q = jDie k then learnOwn s q else s) s
  match jobAt s k with
  | none => s
  | some j =>
    let c := { j.core with rpos := BitVec.ofNat 48 p, rlo := BitVec.ofNat 48 p, rstat := 0 }
    let j' := ({ j with region := none, core := c } : Job).setS d (BitVec.ofNat 64 p)
    sFinish s k j (.retire s j'.next)

/-- REGION_COMMIT: the next step of the job's RCOM (R307): gather, after its own narrow stores have reached device scope; freeze and
record, where an empty interval aborts; publish and finish. In a replay nothing is written (R437). [DESIGN CHOICE, unsafe: log entry 45] -/
def execRegionCommit (k : Nat) (s : State) : Out :=
  match jobAt s k with
  | none => .next s
  | some j =>
    match j.pend, j.region with
    | .commit d, some r =>
      if j.replay.isSome then
        let c := { j.core with rpos := BitVec.ofNat 48 r.lo, rlo := BitVec.ofNat 48 r.lo, rstat := 0 }
        .next (sFinish s k j (.retire s ((({ j with region := none, core := c } : Job).setS d (BitVec.ofNat 64 r.lo)).next)))
      else match r.frozen with
        | some p => .next (commitRegion s k p j r d)
        | none =>
          if !allGathered s k r then .next (gather (publishOwn s (jCoreKey k) 3) k j.fdom (sortedLines r.writes))
          else
            let s := learnOwn s k
            match regionAt s k with
            | none => .next s
            | some r => .next (freezeRegion s k r)
    | _, _ => .next s

/-! ### Messages and the rebase (R300, R306, R308) -/

/-- A waiting message of a class and operation with the given body leaves the inbox. -/
def takePkt (s : State) (cls op : Nat) (m : Msg) : Option State :=
  if s.F.inbox.any (fun p => p.cls == cls && p.op == op && p.msg == m) then
    some { s with F := { s.F with inbox := s.F.inbox.eraseP (fun p => p.cls == cls && p.op == op && p.msg == m) } }
  else none

/-- Bytes `[8 i + 7 : 8 i]` of a message's data. -/
def msgWord (m : Msg) (i : Nat) : Nat := bits m.data.toNat (64 * i) 64

/-- A narrowing message arrives: RLO and RHI of the region it names (R306). -/
def execNrw (m : Msg) (s : State) : Out :=
  match takePkt s 6 0 m with
  | none => .next s
  | some s =>
    match s.jobs.find? (fun e => (e.2.region.map (·.id)) == some (msgWord m 0)) with
    | none => .next s
    | some e => .next (learnAt s e.1 (msgWord m 1) (msgWord m 2))

/-- A position message arrives at a die (R308): its copy of G, and the partners there. -/
def execPos (m : Msg) (s : State) : Out :=
  match takePkt s 7 0 m with
  | none => .next s
  | some s =>
    let s := learnG s m.dst.toNat (Nat.max (msgWord m 1) (msgWord m 0 + 1))
    if m.dst.toNat < 8 then .next ((s.jobs.map (fun e => e.1)).foldl (fun s k => if jDie k = m.dst.toNat then learnOwn s k else s) s)
    else .next s

/-- POSITION_REBASE: with G past 2^47 and no active region, FLOOR and every copy of G is reset, and every line's
record with them: a line without a record reads FLOOR, which is 0. Positions on their way are dropped. -/
def execPositionRebase (s : State) : Out :=
  if !rebaseDue s then .next s
  else if s.jobs.any (fun e => e.2.region.isSome) then .next { s with rebasing := true }
  else
    let s : State := { s with gpos := 1, rebasing := false, M := { s.M with lines := [] },
                              F := { s.F with inbox := s.F.inbox.filter (fun p => p.cls != 7) } }
    let s := s.dies.foldl (fun s e => setDie s e.1 { e.2 with g := 1 }) s
    .next (s.mdies.foldl (fun s e => setMdie s e.1 { e.2 with g := 1, floor := 0 }) s)

end Sys2Proof.Machine
end

