-- ==== Sys2Proof/Machine/ScalarMem.lean ====
section
/-!
DEFINITION. Loads and stores of S (R124 to R130): the checks of R125 in their order, accesses to memory, to the register range (R275) and
inside a region, and LD, ST, LDM, STM, LDA, STL, THROW and PREF.
-/
namespace Sys2Proof.Machine

/-! ### The checks of R125 -/

/-- What the checks answer: the physical address, a trap with its TRAPV, or a wait for a frozen page. -/
inductive SChk
  | ok (pa : Nat)
  | trap (code v : Nat)
  | stall
  deriving DecidableEq, Repr

/-- An S access as the checks see it: its width, its kind, whether it may reach registers, whether it is ordinary. -/
structure SAcc where
  n : Nat
  kind : AKind
  regs : Bool
  ordinary : Bool
  deriving DecidableEq, Repr

/-- The access writes. -/
def SAcc.store (a : SAcc) : Bool := a.kind == .write || a.kind == .rmw

/-- The range part of check 3 and the access rules of a register. -/
def regCheck (s : State) (j : Job) (a : SAcc) (ea pa : Nat) : SChk :=
  match (if a.store then canWriteRegs s j.agent pa else readRegs s j.agent pa a.n) with
  | .ok _ => .ok pa
  | .perm => .trap 0x06 ea
  | .absent => .trap a.kind.failCode ea

/-- Checks 5 and 6: a race, outside regions and for ordinary accesses only; poison, reads only. -/
def lateCheck (s : State) (k : Nat) (j : Job) (a : SAcc) (ea pa : Nat) : SChk :=
  if a.ordinary && j.region.isNone && racing s ⟨k, 0, 1⟩ pa a.n (!a.store) a.store then .trap 0x08 ea
  else if a.kind == .read && poisoned s (lineOf pa) then .trap 0x0C ea
  else .ok pa

/-- The leaf of an address maps it to no memory and no register: check 3 fails before the page's permissions are looked at (R275, R416). -/
def mapsNothing (s : State) (j : Job) (a : SAcc) (ea : Nat) : Bool :=
  match usedWalk s j.fdom ea with
  | .leaf w =>
    let pa := entryPa w.entry.toNat + ea % leafSize w.entry.toNat w.level
    match rangeOf s pa with
    | .absent => true
    | .regs => a.regs && (match (if a.store then canWriteRegs s j.agent pa else readRegs s j.agent pa a.n) with | .absent => true | _ => false)
    | _ => false
  | _ => false

/-- All checks of an access at `ea`. -/
def sCheck (s : State) (k : Nat) (j : Job) (a : SAcc) (ea : Nat) : SChk :=
  if ea % a.n ≠ 0 then .trap 0x03 ea
  else match streamXlate s j .S ea a.kind a.regs with
    | .fail c => .trap (if c = 0x06 ∧ mapsNothing s j a ea = true then a.kind.failCode else c) ea
    | .frozen => .stall
    | .ok pa =>
      match rangeOf s pa with
      | .absent => .trap a.kind.failCode ea
      | .regs => regCheck s j a ea pa
      | _ => lateCheck s k j a ea pa

/-- Check accesses in order; the first failure ends it. The answer pairs each address with its physical address. -/
def sCheckAll (s : State) (k : Nat) (j : Job) (a : SAcc) : List Nat → Except SChk (List (Nat × Nat))
  | [] => .ok []
  | ea :: r =>
    match sCheck s k j a ea with
    | .ok pa => match sCheckAll s k j a r with
      | .ok l => .ok ((ea, pa) :: l)
      | .error e => .error e
    | e => .error e

/-! ### One access -/

/-- The answer of accesses: done with the values read; the access stalls; the job's region has aborted. -/
inductive ARes
  | ok (s : State) (v : List Nat)
  | stall (s : State)
  | gone (s : State)
  deriving Repr

/-- The job in a slot, or a given one. -/
def curJob (s : State) (k : Nat) (j : Job) : Job := (jobAt s k).getD j

/-- The job takes a loaded value in (R436, R437). [DEDUCED, unsafe: log entry 49] -/
def takeLoad (s : State) (k ea v : Nat) (j : Job) : ARes :=
  let t := takeIn s k (curJob s k j) .S v ea
  .ok (setJob t.1 k t.2.1) [t.2.2]

/-- Load one beat. A register access follows every earlier S store at device scope (R275). -/
def sLoad1 (s : State) (k ea pa n sc : Nat) (ordinary : Bool) : ARes :=
  match jobAt s k with
  | none => .gone s
  | some j =>
    let s := noteTlb s j.fdom ea
    if j.replay.isSome then takeLoad s k ea 0 j
    else if rangeOf s pa == .regs then
      let s := publishOwn s (jCoreKey k) 3
      let v := match readRegs s j.agent pa n with | .ok v => v | _ => 0
      takeLoad s k ea (match j.region with | some r => r.regLoad pa n v | none => v) j
    else if j.region.isSome then
      match regionLoad s k pa n with
      | .ok s v => takeLoad s k ea (leNat v) j
      | .stall s => .stall s
      | .gone s => .gone s
    else
      let p := memReady s ⟨k, 0, 1⟩ sc pa
      if !p.2 then .stall p.1
      else
        let r := memLoad p.1 ⟨k, 0, 1⟩ sc pa n ordinary
        takeLoad (l1Read r.1 (jCoreKey k) (lineOf pa) true) k ea (leNat r.2) j

/-- Store one beat. -/
def sStore1 (s : State) (k ea pa n v sc : Nat) (ordinary : Bool) (rel : Option Nat) : ARes :=
  match jobAt s k with
  | none => .gone s
  | some j =>
    let s := noteTlb s j.fdom ea
    if j.replay.isSome then .ok s []
    else if rangeOf s pa == .regs then
      .ok (if j.region.isSome then regionRegStore s k pa n v else writeRegs (publishOwn s (jCoreKey k) 3) pa n v) []
    else if j.region.isSome then
      match regionStore s k pa (natLe n v) with
      | .ok s _ => .ok s []
      | .stall s => .stall s
      | .gone s => .gone s
    else
      let p := memReady s ⟨k, 0, 1⟩ sc pa
      if !p.2 then .stall p.1
      else .ok (l1Read (memStore p.1 ⟨k, 0, 1⟩ sc pa (natLe n v) ordinary rel) (jCoreKey k) (lineOf pa) true) []

/-- Load beats in order. [DEDUCED, unsafe: log entry 49] -/
def sLoads (s : State) (k n sc : Nat) (ordinary : Bool) : List (Nat × Nat) → ARes
  | [] => .ok s []
  | (ea, pa) :: r =>
    match sLoad1 s k ea pa n sc ordinary with
    | .ok s v => match sLoads s k n sc ordinary r with
      | .ok s l => .ok s (v ++ l)
      | e => e
    | e => e

/-- Store beats in order. -/
def sStores (s : State) (k n sc : Nat) (ordinary : Bool) (rel : Option Nat) : List ((Nat × Nat) × Nat) → ARes
  | [] => .ok s []
  | ((ea, pa), v) :: r =>
    match sStore1 s k ea pa n v sc ordinary rel with
    | .ok s _ => sStores s k n sc ordinary rel r
    | e => e

/-! ### The frame of a memory instruction -/

/-- A failed check ends the instruction: a trap, or a wait. -/
def sFail (s : State) (j : Job) : SChk → SRes
  | .trap c v => .trap c v
  | _ => .wait s (j.stallNote s .S)

/-- Finish: the instruction retires; a region whose bounds its own access crossed then aborts with cause EMPTY (R139). -/
def sDone (s : State) (k : Nat) (j : Job) : SRes :=
  let j := j.next.stallEnd .S
  if j.region.isSome then
    match j.region with
    | some r =>
      let j := j.learn r.lo r.hi
      if j.crossed then let a := abortRegion s k j 1; .retire a.1 a.2 else .retire s j
    | none => .retire s j
  else .retire s j

/-- What stands before each beat is done before any is performed (R128). -/
def sPrep (s : State) (k sc : Nat) : List (Nat × Nat) → State × Bool
  | [] => (s, true)
  | (_, pa) :: r =>
    if rangeOf s pa == .regs then sPrep s k sc r
    else
      let p := memReady s ⟨k, 0, 1⟩ sc pa
      if p.2 then sPrep p.1 k sc r else (p.1, false)

/-- The beats may be performed now; a replay performs none. -/
def sReadyAll (s : State) (k : Nat) (j : Job) (sc : Nat) (l : List (Nat × Nat)) : State × Bool :=
  if j.replay.isSome then (s, true) else sPrep s k (if j.region.isSome then 3 else sc) l

/-- Load `eas` and give the values to `put`. -/
def loadInstr (s : State) (k : Nat) (j : Job) (a : SAcc) (sc : Nat) (eas : List Nat) (put : State → Job → List Nat → Job) : SRes :=
  match sCheckAll s k j a eas with
  | .error e => sFail s j e
  | .ok l =>
    let p := sReadyAll s k j sc l
    if !p.2 then .wait p.1 (curJob p.1 k j)
    else match sLoads p.1 k a.n sc a.ordinary l with
    | .stall s => .wait s (curJob s k j)
    | .gone s => .done s
    | .ok s' vs => sDone s' k (put s (curJob s' k j) vs)

/-- Store values to `eas`. -/
def storeInstr (s : State) (k : Nat) (j : Job) (a : SAcc) (sc : Nat) (rel : Option Nat) (eas vs : List Nat) : SRes :=
  match sCheckAll s k j a eas with
  | .error e => sFail s j e
  | .ok l =>
    let s := match rel with | some t => publishOwn s (jCoreKey k) (effScope t) | none => s
    let p := sReadyAll s k (curJob s k j) sc l
    if !p.2 then .wait p.1 (curJob p.1 k j)
    else match sStores p.1 k a.n sc a.ordinary rel (l.zip vs) with
    | .stall s => .wait s (curJob s k j)
    | .gone s => .done s
    | .ok s' _ => sDone s' k (curJob s' k j)

/-! ### Addresses (R126 to R129) -/

/-- The bytes of a width code. -/
def widthBytes (w : BitVec 2) : Nat := 2 ^ w.toNat

/-- The effective address: the base and a signed offset in units of `n` bytes, wrapping. -/
def effAddr {m : Nat} (j : Job) (a : BitVec 6) (o : BitVec m) (n : Nat) : Nat := (j.s a + BitVec.ofInt 64 (o.toInt * n)).toNat

/-- A loaded value narrowed and extended. -/
def extend (v n : Nat) (signed : Bool) : Word := if signed then BitVec.ofInt 64 (sextNat (8 * n) v) else BitVec.ofNat 64 (v % 2 ^ (8 * n))

/-- The beats of LDM and STM. -/
def beats (ea cnt : Nat) : List Nat := (List.range cnt).map (fun i => (ea + 8 * i) % 2 ^ 64)

/-! ### LD, ST, LDM, STM, LDA, STL -/

def execLd (d a : BitVec 6) (w : BitVec 2) (k x : BitVec 1) (o : BitVec 10) (s : State) : Out :=
  sExec s sAny [d, a] noDec (fun c j =>
    let n := widthBytes w
    loadInstr s c j ⟨n, .read, true, k == 0⟩ 3 [effAddr j a o n] (fun _ j v => j.setS d (extend (v.headD 0) n (x == 1))))

def execSt (d a : BitVec 6) (w : BitVec 2) (k : BitVec 1) (o : BitVec 10) (s : State) : Out :=
  sExec s sAny [d, a] noDec (fun c j =>
    let n := widthBytes w
    storeInstr s c j ⟨n, .write, true, k == 0⟩ 3 none [effAddr j a o n] [(j.s d).toNat % 2 ^ (8 * n)])

/-- The registers of LDM and STM (R128). -/
def multiRegs (d : BitVec 6) (n : BitVec 3) : List (BitVec 6) := (List.range (n.toNat + 1)).map (fun i => d + BitVec.ofNat 6 i)

/-- Every register of LDM and STM lies within SREG, s63 too (R128). -/
def multiDec (d : BitVec 6) (n : BitVec 3) (j : Job) : Option (Nat × Nat) :=
  if j.level = .handler then none else ((multiRegs d n).find? (fun r => decide (j.nSreg ≤ r.toNat))).map (fun r => (0x02, r.toNat))

/-- Write the beats of LDM together. -/
def putAll (j : Job) (d : BitVec 6) (vs : List Nat) : Job :=
  (vs.foldl (fun (a : Job × BitVec 6) v => (a.1.setS a.2 (BitVec.ofNat 64 v), a.2 + 1)) (j, d)).1

def execLdm (d a : BitVec 6) (n : BitVec 3) (o : BitVec 8) (s : State) : Out :=
  sExec s sAny (multiRegs d n ++ [a]) (multiDec d n) (fun c j =>
    loadInstr s c j ⟨8, .read, true, true⟩ 3 (beats (effAddr j a o 8) (n.toNat + 1)) (fun _ j v => putAll j d v))

def execStm (d a : BitVec 6) (n : BitVec 3) (o : BitVec 8) (s : State) : Out :=
  sExec s sAny (multiRegs d n ++ [a]) (multiDec d n) (fun c j =>
    storeInstr s c j ⟨8, .write, true, true⟩ 3 none (beats (effAddr j a o 8) (n.toNat + 1)) ((multiRegs d n).map (fun r => (j.s r).toNat)))

/-- The releases a load of `n` bytes at `ea` reads at scope `sc`. -/
def relSeenVa (s : State) (k : Nat) (j : Job) (sc ea n : Nat) : List RelRec :=
  match translate s j.fdom (j.level == .handler) ea .read with
  | .ok pa => relSeen (memReady s ⟨k, 0, 1⟩ sc pa).1 (jCoreKey k) sc pa n
  | _ => []

/-- LDA: a strong load and an acquire at scope `sc` (R127). -/
def execLda (d a : BitVec 6) (w : BitVec 2) (sc : BitVec 3) (o : BitVec 9) (s : State) : Out :=
  sExec s sHnd [d, a] noDec (fun c j =>
    let n := widthBytes w
    let ea := effAddr j a o n
    let rs := relSeenVa s c j sc.toNat ea n
    loadInstr s c j ⟨n, .read, true, false⟩ sc.toNat [ea] (fun _ j v =>
      (j.acquire 0 sc.toNat (jCoreKey c) rs).setS d (extend (v.headD 0) n false)))

/-- STL: a strong store and a release at scope `sc`; it waits for the job's throws (R127). -/
def execStl (d a : BitVec 6) (w : BitVec 2) (sc : BitVec 3) (o : BitVec 9) (s : State) : Out :=
  sExec s sHnd [d, a] noDec (fun c j =>
    let n := widthBytes w
    if !throwsDone s j.uid then .wait s j
    else
      storeInstr s c j ⟨n, .write, true, false⟩ sc.toNat (some sc.toNat) [effAddr j a o n] [(j.s d).toNat % 2 ^ (8 * n)])

/-! ### THROW and PREF -/

/-- The cores a throw of core `c` delivers to: the mask's cores of the die, without its own, within the cluster for scope 1 (R129). -/
def throwTargets (c sc : Nat) (mask : Word) : List Nat :=
  ((List.range 64).filter (fun t => mask.getLsbD t && t != c % 64 && (sc != 1 || t / 4 == c % 64 / 4))).map (fun t => c / 64 * 64 + t)

/-- A line is on its way to cores. [DEDUCED, unsafe: log entry 52] -/
def sendThrows (s : State) (uid line : Nat) (cores : List Nat) : State :=
  { s with M := { s.M with deliveries := s.M.deliveries ++ cores.map (fun c => (c, line, uid)) } }

/-- THROW (R129): a strong store at device scope, then the deliveries. -/
def execThrow (d a b : BitVec 6) (w : BitVec 2) (sc : BitVec 3) (s : State) : Out :=
  sExec s sJob [d, a, b] noDec (fun c j =>
    let n := widthBytes w
    let ea := (j.s a).toNat
    match sCheck s c j ⟨n, .write, false, false⟩ ea with
    | .trap t v => .trap t v
    | .stall => .wait s (j.stallNote s .S)
    | .ok pa =>
      match sStore1 s c ea pa n ((j.s d).toNat % 2 ^ (8 * n)) 3 false none with
      | .stall s => .wait s (curJob s c j)
      | .gone s => .done s
      | .ok s' _ =>
        let s' := if j.replay.isSome then s' else sendThrows s' j.uid (lineOf pa) (throwTargets (jCoreKey c) sc.toNat (j.s b))
        sDone s' c (curJob s' c j))

/-- PREF changes nothing (R130). -/
def execPref (a : BitVec 6) (_sc : BitVec 3) (_o : BitVec 9) (s : State) : Out :=
  sExec s sJob [a] noDec (fun _ j => .retire s j.next)

/-- THROW_DELIVERY: a thrown line arrives at its target (R296), in the order in which its sender threw there; nothing happens when none is on
its way or one goes before it. -/
def execThrowDelivery (core line : Nat) (s : State) : Out :=
  let first := fun (uid : Nat) => s.M.deliveries.find? (fun e => e.1 == core && e.2.2 == uid)
  match s.M.deliveries.find? (fun e => e.1 == core && e.2.1 == line && first e.2.2 == some e) with
  | none => .next s
  | some e => .next (deliver { s with M := { s.M with deliveries := s.M.deliveries.erase e } } core line)

end Sys2Proof.Machine
end

