-- ==== Sys2Proof/Machine/Sync.lean ====
section
/-!
DEFINITION. Fences, waits, triggers, joins, ends and barriers of S (R131 to R138), and the events that complete them.
-/
namespace Sys2Proof.Machine

/-! ### Paths of a job (R252) -/

/-- The path bit of an engine stream. -/
def pathOf : EStream → Nat
  | .L => 1
  | .T => 2
  | .X => 3

/-- The paths of a mask. -/
def maskPaths (m : Nat) : List Nat := (List.range 7).filter (bitOf m)

/-- The words of an engine path that have issued; other paths have no numbers. -/
def issuedOn (j : Job) (p : Nat) : Nat := match pathStream p with | some e => j.issuePos e.toStream | none => 0

/-! ### FENCE (R131, R132) -/

/-- The words that must retire before the fence: those in flight on from-side engine paths. -/
def fenceNeed (j : Job) (src : Nat) : List (Nat × Nat) :=
  (maskPaths src).filterMap (fun p => match pathStream p with
    | some e => if (j.eng e).inflight.isEmpty then none else some (p, j.issuePos e.toStream)
    | none => none)

/-- What the from-side paths contribute: of an engine path, the words that S can show to have issued (R132). -/
def fenceGather (j : Job) (ps : List Nat) (kind sc core : Nat) : SMap VC :=
  ps.foldl (fun (v : SMap VC) p => limJoin v (j.fenceFrom p kind sc core)) []

/-- The fence retires: a release publishes, an acquire takes what its loads read, the to side obtains the clock. -/
def fenceDone (s : State) (k : Nat) (j : Job) (clk : SMap VC) (sc src dst kind : Nat) : State × Job :=
  let core := jCoreKey k
  let s := if kind = 1 then s else publishOwn s core sc
  let j := curJob s k j
  let j := if kind = 2 then j else (maskPaths src).foldl (fun (j : Job) p => j.fenceSeen p sc core) j
  (s, (maskPaths dst).foldl (fun (j : Job) p => j.fenceTo p kind sc (issuedOn j p) clk) j)

/-- FENCE. In a handler only S-only masks run (R374). -/
def execFence (sc : BitVec 3) (src dst : BitVec 8) (k : BitVec 2) (s : State) : Out :=
  sExec s (if src ||| dst = 1 then sHnd else sJob) [] noDec (fun c j =>
    let kind := k.toNat
    let t := sc.toNat
    if src.getLsbD 0 && kind != 1 && !throwsDone s j.uid then .wait s j
    else
      let need := fenceNeed j src.toNat
      let clk := fenceGather j (maskPaths src.toNat) kind t (jCoreKey c)
      if need.isEmpty then let r := fenceDone s c j clk t src.toNat dst.toNat kind; .retire r.1 r.2.next
      else .wait s { j with pend := .fence need clk t src.toNat dst.toNat kind })

/-- A word of an engine path retires: a fence waits for it no longer. -/
def fenceNote (j : Job) (e : EStream) : Job :=
  match j.pend with
  | .fence need clk sc src dst kind =>
    let p := pathOf e
    if need.any (fun n => n.1 == p && decide (n.2 ≤ j.seq e.toStream)) then
      { j with pend := .fence (need.filter (fun n => n.1 != p)) clk sc src dst kind }
    else j
  | _ => j

/-- FENCE_RETIRE: every ordered from-side access has been performed. -/
def execFenceRetire (k : Nat) (s : State) : Out :=
  match jobAt s k with
  | none => .next s
  | some j =>
    match j.pend with
    | .fence need clk sc src dst kind =>
      if !need.isEmpty then .next s
      else
        let r := fenceDone s k { j with pend := .none } clk sc src dst kind
        .next (sFinish s k j (.retire r.1 r.2.next))
    | _ => .next s

/-! ### WAIT (R133) -/

/-- A false condition parks the job's S, and the slot passes (R239). -/
def park (s : State) (k : Nat) (j : Job) : SRes := .done (passSlot (setJob s k { j with pend := .parked }) k)

/-- WAIT.prod: every producer has triggered or ended; an acquire of their triggers. -/
def execWaitProd (s : State) : Out :=
  sExec s sJob [] noDec (fun k j =>
    match launchAt s j.launch with
    | none => .retire s j.next
    | some v =>
      if j.replay.isSome then .retire s j.next
      else if prodsDone s v then
        let j := v.prods.foldl (fun (j : Job) p => match findLaunch s p.leaf p.idx with
          | some e => j.clkJoin 0 (vcJoin e.2.vcTrig e.2.vcEnd)
          | none => j) j
        .retire s j.next
      else park s k j)

/-- The reads of WAIT.memeq and WAIT.memge. -/
def waitMem (s : State) (a b : BitVec 6) (sc : BitVec 3) (ok : Nat → Nat → Bool) : Out :=
  sExec s sJob [a, b] noDec (fun k j =>
    let ea := (j.s a).toNat
    let want := (j.s b).toNat
    match sCheck s k j ⟨8, .read, true, false⟩ ea with
    | .trap c v => .trap c v
    | .stall => .wait s (j.stallNote s .S)
    | .ok pa =>
      let core := jCoreKey k
      let retire := fun (s : State) (j : Job) (v : Nat) =>
        let x := takeIn s k j .S v ea
        SRes.retire x.1 (x.2.1.next.stallEnd .S)
      let s := noteTlb s j.fdom ea
      if j.replay.isSome then retire s j want
      else if rangeOf s pa == .regs then
        match readRegs s j.agent pa 8 with
        | .ok v => if ok v want then retire s j v else park s k (j.stallEnd .S)
        | _ => park s k (j.stallEnd .S)
      else
        let p := memReady s ⟨k, 0, 1⟩ sc.toNat pa
        if !p.2 then .wait p.1 (curJob p.1 k j)
        else
          let rs := relSeen p.1 core sc.toNat pa 8
          let r := memLoad p.1 ⟨k, 0, 1⟩ sc.toNat pa 8 false
          let s := l1Read r.1 core (lineOf pa) true
          let j := curJob s k j
          if ok (leNat r.2) want then retire s (j.acquire 0 sc.toNat core rs) (leNat r.2) else park s k (j.stallEnd .S))

def execWaitMemeq (a b : BitVec 6) (sc : BitVec 3) (s : State) : Out := waitMem s a b sc (fun v w => v == w)
def execWaitMemge (a b : BitVec 6) (sc : BitVec 3) (s : State) : Out := waitMem s a b sc (fun v w => decide (w ≤ v))

/-- The state of a near-memory handle (R143): 0 queued, 1 running, 2 complete, 3 failed, 4 not a handle of this job; and the clock. -/
def nmStatus (s : State) (j : Job) (h : Nat) : Nat × VC :=
  if !j.nmHandles.contains h then (4, [])
  else
    let d := mdieSt s (bits h 44 4)
    match smGet d.ended h with
    | some e => (e.1, e.2.2)
    | none => if d.running.any (fun x => x.handle == h) then (1, []) else (0, [])

/-- The job has seen a near-memory job complete (R132, R256). [DESIGN CHOICE, safe: log entry 4] -/
def Job.sawNm (j : Job) (v : VC) : Job := (j.clkJoin 0 v).clkJoin 4 v

/-- WAIT.nm: a failed or foreign handle traps. A replay, in which the recorded WAIT retired, goes on. -/
def execWaitNm (a : BitVec 6) (s : State) : Out :=
  sExec s sJob [a] noDec (fun k j =>
    let h := (j.s a).toNat
    let x := if j.replay.isSome then (2, []) else nmStatus s j h
    match x.1 with
    | 2 => .retire s (j.sawNm x.2).next
    | 3 | 4 => .trap 0x11 h
    | _ => park s k j)

/-- The buffer operand of WAIT.ingr names a group of the job's die and domain and one of its experts (R330). [DEDUCED, unsafe: log entry 70] -/
def ingrGroup (s : State) (k : Nat) (j : Job) (v : Nat) : Option (Group × Nat) :=
  if v / 2 ^ 24 ≠ 0 ∨ bits v 6 2 ≠ 0 then none
  else match smGet (dieSt s (jDie k)).groups (v / 256) with
    | some g => if g.fdom = j.fdom ∧ v % 64 < g.ne then some (g, v % 64) else none
    | none => none

/-- The count is reached and no slot below it is a hole. -/
def ingrReady (g : Group) (e n : Nat) : Bool :=
  decide (n ≤ smGetD g.counts e 0) && g.holes.all (fun h => h.slots.all (fun x => x.1 != e || decide (n ≤ x.2)))

/-- WAIT.ingr. [DEDUCED, unsafe: log entry 70] -/
def execWaitIngr (a b : BitVec 6) (s : State) : Out :=
  sExec s sJob [a, b] noDec (fun k j =>
    match ingrGroup s k j (j.s a).toNat with
    | none => .trap 0x12 (j.s a).toNat
    | some g => if j.replay.isSome || ingrReady g.1 g.2 (j.s b).toNat then .retire s j.next else park s k j)

/-- The condition of a WAIT of memory as its unit sees it: a WAIT that would trap is as good as true, one that would stall is not. -/
def memHolds (s : State) (k : Nat) (j : Job) (a b : BitVec 6) (sc : BitVec 3) (ok : Nat → Nat → Bool) : Bool :=
  let want := (j.s b).toNat
  match sCheck s k j ⟨8, .read, true, false⟩ (j.s a).toNat with
  | .trap _ _ => true
  | .stall => false
  | .ok pa =>
    if rangeOf s pa == .regs then (match readRegs s j.agent pa 8 with | .ok v => ok v want | _ => false)
    else
      let p := memReady s ⟨k, 0, 1⟩ sc.toNat pa
      p.2 && ok (leNat (memLoad p.1 ⟨k, 0, 1⟩ sc.toNat pa 8 false).2) want

/-- The condition of the WAIT at which a job's S is parked (R133); a word that is no WAIT is evaluated by issuing it. -/
def waitHolds (s : State) (k : Nat) (j : Job) : Instr → Bool
  | .waitProd => ((launchAt s j.launch).map (prodsDone s)).getD true
  | .waitMemeq a b sc => memHolds s k j a b sc (fun v w => v == w)
  | .waitMemge a b sc => memHolds s k j a b sc (fun v w => decide (w ≤ v))
  | .waitNm a => decide (2 ≤ (nmStatus s j (j.s a).toNat).1)
  | .waitIngr a b => ((ingrGroup s k j (j.s a).toNat).map (fun g => ingrReady g.1 g.2 (j.s b).toNat)).getD true
  | _ => true

/-- WAIT_REEVALUATE: the condition of a parked WAIT is looked at again; when it holds the job's S is ready, and takes an idle slot. The WAIT
is evaluated anew when its S holds the slot (R133, R239). -/
def execWaitReevaluate (k : Nat) (s : State) : Out :=
  match jobAt s k with
  | none => .next s
  | some j =>
    if j.pend = .parked ∧ ((nextWord s j .S).map (waitHolds s k j)).getD true = true then .next (wakeSlot (setJob s k { j with pend := .none }) k)
    else .next s

/-! ### TRIG (R134) -/

/-- The job counts as triggered in its launch, once; the clock of its S path joins the launch's triggers. -/
def markTriggered (s : State) (j : Job) : State :=
  match launchAt s j.launch with
  | none => s
  | some v => if j.replay.isSome then s else setLaunch s j.launch { v with trig := if j.triggered then v.trig else v.trig + 1, vcTrig := vcJoin v.vcTrig (j.relClk 3) }

/-- TRIG: a release at device scope; it waits for the job's throws. -/
def execTrig (s : State) : Out :=
  sExec s sJob [] noDec (fun k j =>
    if !throwsDone s j.uid then .wait s j
    else
      let s := publishOwn s (jCoreKey k) 3
      let j := curJob s k j
      .retire (markTriggered s j) { j with triggered := true }.next)

/-! ### Joins (R135 to R137) -/

/-- The EJOINs of a mask retire. -/
def retireJoins (s : State) (k m : Nat) (ends : Bool) : State := (maskStreams m).foldl (fun s e => ejoinRetire s k e ends) s

/-- RDV retires with its EJOINs; a count past its end traps instead (R28). -/
def rdvDone (s : State) (k m : Nat) : State :=
  match jobAt s k with
  | none => s
  | some j =>
    match j.joinOver m with
    | some st => takeTrap s k st 0x0E 2
    | none =>
      let s' := retireJoins s k m false
      sFinish s k j (.retire s' ((curJob s' k j).joinShows ((maskStreams m).map pathOf)).next)

/-- A near-memory job of `uid` in window mode is queued or running (R321). -/
def windowNm (s : State) (uid : Nat) : Bool :=
  s.mdies.any (fun e => (e.2.queue ++ e.2.running).any (fun n => n.uid == uid && (n.words.headD 0).getLsbD 7))

/-- A near-memory job of `uid` is queued or running. -/
def nmBusy (s : State) (uid : Nat) : Bool := s.mdies.any (fun e => (e.2.queue ++ e.2.running).any (fun n => n.uid == uid))

/-- The job is node-boundary pre-emptible (R347). -/
def nodePreempt (s : State) (j : Job) : Bool :=
  j.nbpre && ((launchAt s j.launch).map (fun v => (v.words.getD 15 0).getLsbD 0)).getD false

/-- The job-start state that a lite save leaves (R13, R28, R369): the PCs and s registers of the record, the rest as at job start with the
counters at zero; status entries wait in the buffer (R23). -/
def liteCore (j : Job) : JobCore :=
  let c := j.core
  let z : Vector Word 64 := Vector.replicate 64 0
  let s := (List.range 16).foldl (fun (v : Vector Word 64) i => v.setIfInBounds i (c.S.s.toList.getD i 0)) z
  let q := { newQueues with sbuf := (c.Q.q.toList.getD 15 []) ++ c.Q.sbuf, sbres := c.Q.sbres, ovf := c.Q.ovf }
  { newCore [c.S.pc, c.L.pc, c.X.pc, c.T.pc] s j.leaseMax (newWindow 0 0 none) with Q := q }

/-- The fence thresholds of a path whose word numbers start again at zero. -/
def PathClk.renumber (c : PathClk) : PathClk :=
  { c with pl := c.pl.map (fun e => (0, e.2)), ps := c.ps.map (fun e => (0, e.2)), rel := c.rel.map (fun e => (0, e.2)) }

/-- Add one, saturating at 16 bits, to a counter of the domain. -/
def countYield (s : State) (f : Nat) : State := let d := domainSt s f; setDomain s f { d with ctxYields := satInc 16 d.ctxYields }

/-- The lite save (R137, R369): the record at the start of the job's area, then the slot is free. TRAPC, TRAPV and TRAPPC, which R11 does not
list, keep their values. [DESIGN CHOICE, unsafe: log entry 115; DESIGN CHOICE, safe: log entry 122] -/
def liteSave (s : State) (k : Nat) (j : Job) : State :=
  let s := [Stream.S, .L, .X, .T].foldl (fun s st => traceRecord s k j st 4 0 (j.seq st) (j.pcOf st).toNat (cycleOf s k)) s
  if !canWrite s j.fdom j.ctxAddr.toNat 256 then abandon s k j 3 0 j.ctxAddr.toNat (jobid k j)
  else
    let s := virtWrite s j.fdom j.ctxAddr.toNat (liteBytes k j j.core)
    let s := countYield s j.fdom
    let s := barrierLeave (freeSlot s k j) j.uid
    let j := { j with core := liteCore j, pend := .none, preempt := none, phase := .saving .lite, home := k, lastSave := freeTime s, bpSkip := [], posted := [],
                       clk := j.clk.map PathClk.renumber }
    { s with saved := smSet s.saved j.uid j }

/-- YIELD's join is complete: the lease ends (R215); a pending request saves the job, else YIELD retires. -/
def yieldDone (s : State) (k : Nat) : State :=
  match jobAt s k with
  | none => s
  | some j =>
    match j.joinOver j.presentMask with
    | some st => takeTrap s k st 0x0E 2
    | none =>
      let s' := leaseEnd (retireJoins s k j.presentMask false) k
      let j' := ((curJob s' k j).joinShows ((maskStreams j.presentMask).map pathOf)).next
      if nodePreempt s j && j.preempt.isSome && hasArea s j && !windowNm s j.uid && decide (j.core.S.seq < seqMax) then
        if areaMoves s j.fdom j.ctxAddr.toNat 256 .write then setJob s k { j with pend := .join j.presentMask .yield } else
        let t := sFinish s k j (.retire s' j')
        match jobAt t k with
        | some j => liteSave t k j
        | none => t
      else sFinish s k j (.retire s' j')

/-- What HALT waits for beside its joins (R136). -/
def haltReady (s : State) (j : Job) : Bool := j.joined j.presentMask && throwsDone s j.uid && !nmBusy s j.uid

/-- The launch learns that a job has halted. -/
def markHalted (s : State) (j : Job) : State :=
  match launchAt s j.launch with
  | none => s
  | some v =>
    let clk := j.clk.toList.foldl (fun (v : VC) c => vcJoin (vcJoin v c.all) (limAt c.lim 0)) []
    setLaunch s j.launch { v with trig := if j.triggered then v.trig else v.trig + 1, halted := v.halted + 1,
                                  vcTrig := vcJoin v.vcTrig (j.relClk 3), vcEnd := vcJoin v.vcEnd clk }

/-- HALT retires (a replay ends there instead): joins, publishing to device scope, trace, the slot and the reservation returned, the halt line. -/
def haltDone (s : State) (k : Nat) : State :=
  match jobAt s k with
  | none => s
  | some j =>
    match j.replay with
    | some r => setJob s k { j with replay := some { r with ended := true } }
    | none =>
    match j.joinOver j.presentMask with
    | some st => takeTrap s k st 0x0E 2
    | none =>
    let s := retireJoins s k j.presentMask true
    let s := publishOwn s (jCoreKey k) 3
    let j := curJob s k j
    let s := traceFlow s k j .S j.pc
    let s := traceWord s k j .S j.pc (j.core.S.seq + 1)
    let s := barrierLeave (freeReserve (freeSlot s k j) j.fdom j.uid) j.uid
    updateReady (markHalted s j)

/-- The lines of the scope copies in a job's own instances. -/
def haltCopies (s : State) (k : Nat) : List Nat := ((s.M.scopes.filter (fun c => c.inst == instNo c.level (jCoreKey k))).map (·.line)).eraseDups

/-- HALT goes on: it publishes the scope copies of its instances line by line, in an order of the machine's own, and retires when none is left (R136, R289). -/
def haltGo (s : State) (k : Nat) : State :=
  match haltCopies s k with
  | [] => haltDone s k
  | ls =>
    let ln := ls.getD ((Config.freeWord s.fresh).toNat % ls.length) 0
    publishSel s (fun c => c.line == ln && c.inst == instNo c.level (jCoreKey k)) 3

/-- A join point issues: it retires at once when everything it waits for holds, else S stalls. -/
def joinIssue (s : State) (k : Nat) (j : Job) (m : Nat) (why : JoinKind) : SRes :=
  if !j.joined m then .wait s { j with pend := .join m why }
  else match why with
    | .rdv => .done (rdvDone s k m)
    | .yield => .done (yieldDone s k)
    | .halt => if haltReady s j && (haltCopies s k).isEmpty then .done (haltDone s k) else .wait s { j with pend := .join m why }

/-- RDV names absent streams: trap 0x02 with their mask (R91). -/
def rdvDec (m : BitVec 3) (j : Job) : Option (Nat × Nat) :=
  let absent := m.toNat - (m.toNat &&& j.presentMask)
  if absent = 0 then none else some (0x02, absent)

def execRdv (m : BitVec 3) (s : State) : Out := sExec s sJob [] (rdvDec m) (fun k j => joinIssue s k j m.toNat .rdv)
def execHalt (s : State) : Out := sExec s sJob [] noDec (fun k j => joinIssue s k j j.presentMask .halt)
def execYield (s : State) : Out := sExec s sJob [] noDec (fun k j => joinIssue s k j j.presentMask .yield)

/-- JOIN_COMPLETE: RDV or YIELD and its EJOINs retire together. -/
def execJoinComplete (k : Nat) (s : State) : Out :=
  match jobAt s k with
  | none => .next s
  | some j =>
    match j.pend with
    | .join m .rdv => .next (if j.joined m then rdvDone s k m else s)
    | .join m .yield => .next (if j.joined m then yieldDone s k else s)
    | _ => .next s

/-- HALT_RETIRE. -/
def execHaltRetire (k : Nat) (s : State) : Out :=
  match jobAt s k with
  | none => .next s
  | some j =>
    match j.pend with
    | .join _ .halt => .next (if haltReady s j then haltGo s k else s)
    | _ => .next s

/-! ### BARC (R138) -/

/-- The barrier of a launch and id in a cluster. -/
def barrierAt (s : State) (cl launch id : Nat) : Option Barrier :=
  (clusterSt s cl).barriers.find? (fun b => b.launch == launch && b.id == id)

/-- Write, add or remove a barrier. -/
def setBarrier (s : State) (cl launch id : Nat) (b : Option Barrier) : State :=
  let c := clusterSt s cl
  let rest := c.barriers.filter (fun b => !(b.launch == launch && b.id == id))
  setCluster s cl { c with barriers := match b with | some b => rest ++ [b] | none => rest }

/-- The jobs of a launch resident in a cluster, by uid. -/
def launchJobs (s : State) (cl launch : Nat) : List Nat :=
  (s.jobs.filter (fun e => jCluster e.1 == cl && e.2.launch == launch)).map (fun e => e.2.uid)

/-- A job arrives: it opens a generation, joins the one it belongs to, or waits for the next. -/
def arrive (s : State) (k : Nat) (j : Job) (id : Nat) : State :=
  let cl := jCluster k
  let clk := j.relClk 1
  match barrierAt s cl j.launch id with
  | none => setBarrier s cl j.launch id (some ⟨j.launch, id, launchJobs s cl j.launch, [(j.uid, clk)], []⟩)
  | some b =>
    if b.parts.contains j.uid then setBarrier s cl j.launch id (some { b with arrived := smSet b.arrived j.uid clk })
    else setBarrier s cl j.launch id (some { b with later := smSet b.later j.uid clk })

/-- BARC: a release at cluster scope; the job parks until its generation completes. -/
def execBarc (i : BitVec 4) (s : State) : Out :=
  sExec s sJob [] (fun j => if i.toNat < j.nBar then none else some (0x02, i.toNat)) (fun k j =>
    if j.replay.isSome then .retire s j.next
    else
    let s := publishOwn s (jCoreKey k) 1
    let j := curJob s k j
    let s := arrive s k j i.toNat
    .done (passSlot (setJob s k { j with pend := .barc i.toNat }) k))

/-- A waiting job departs with an acquire; its BARC retires when its S holds the slot (R239). -/
def depart (s : State) (uid : Nat) (v : VC) : State :=
  match slotOf s uid with
  | none => s
  | some k => match jobAt s k with
    | none => s
    | some j => match j.pend with
      | .barc _ => wakeSlot (setJob s k { j.clkJoin 0 v with pend := .departed }) k
      | _ => s

/-- The releases of the arrivals together. -/
def Barrier.vc (b : Barrier) : VC := b.arrived.foldl (fun (v : VC) e => vcJoin v e.2) []

/-- A job that arrived for the next generation arrives in it. -/
def rearrive (s : State) (uid id : Nat) : State :=
  match slotOf s uid with
  | some k => match jobAt s k with | some j => arrive s k j id | none => s
  | none => s

/-- BARRIER_COMPLETE: every remaining participant has arrived; the waiting jobs depart, and jobs outside the set open the next generation;
they open it too when no participant remains. -/
def execBarrierComplete (cl launch id : Nat) (s : State) : Out :=
  match barrierAt s cl launch id with
  | none => .next s
  | some b =>
    if b.parts.all (fun u => (smGet b.arrived u).isSome) then
      let s := setBarrier s cl launch id none
      let s := b.arrived.foldl (fun s e => depart s e.1 b.vc) s
      .next (b.later.foldl (fun s e => rearrive s e.1 id) s)
    else .next s

end Sys2Proof.Machine
end

