-- ==== Sys2Proof/Machine/NearMem.lean ====
section
/-!
DEFINITION. Near-memory units (R314 to R321, R425, R427): the nest record and its refusals, NMGO and NMWT (R142, R143), the walk, and the
events of a unit. A unit's whole walk is performed when its job completes.
-/
namespace Sys2Proof.Machine

/-! ### The nest record (R314) -/

/-- A level of a nest: strides of A, B and C, count less one, padding, origin, bounds. -/
structure NLevel where
  sa : Int
  sb : Int
  sc : Int
  cnt : Nat
  pad : Nat
  org : Int
  hi : Int
  lo : Int
  deriving DecidableEq, Repr

/-- A nest record as its fields. -/
structure Nest where
  mdie : Nat
  wbl : Nat
  depth : Nat
  win : Bool
  notify : Bool
  cz : Bool
  bcast : Bool
  bfmt : Nat
  abase : Nat
  bbase : Nat
  cbase : Nat
  lv : List NLevel
  deriving DecidableEq, Repr

/-- A level descriptor. -/
def nestLevel (w0 w1 : Nat) : NLevel :=
  ⟨sextNat 24 (bits w0 40 24), sextNat 24 (bits w0 16 24), sextNat 24 (bits w1 40 24), bits w0 0 16, bits w1 38 2,
   sextNat 12 (bits w1 24 12), sextNat 12 (bits w1 12 12), sextNat 12 (bits w1 0 12)⟩

/-- The fields of a record's sixteen words. -/
def nestOf (w : List Nat) : Nest :=
  let c := w.getD 0 0
  let d := bits c 8 3
  ⟨bits c 16 4, bits c 12 3, d, bitOf c 7, bitOf c 6, bitOf c 5, bitOf c 4, bits c 0 4, w.getD 1 0, w.getD 2 0, w.getD 3 0,
   (List.range d).map (fun l => nestLevel (w.getD (4 + 2 * l) 0) (w.getD (5 + 2 * l) 0))⟩

/-- The body formats. -/
def nestFmt (b : Nat) : Bool := b == 2 || b == 3 || b == 4 || b == 5 || b == 9
/-- Bytes of an element of a body format. -/
def nestElem (b : Nat) : Nat := if b = 2 ∨ b = 3 then 2 else 1
/-- Bytes of the A vector. -/
def Nest.aBytes (n : Nest) : Nat := if n.bcast then nestElem n.bfmt else 32 * nestElem n.bfmt
/-- Bytes of the B vector. -/
def Nest.bBytes (n : Nest) : Nat := 32 * nestElem n.bfmt

/-- The sum of a stride over levels `from` up at the extreme counters: the lowest and highest group address offsets. -/
def Nest.cLow (n : Nest) : Int := ((n.lv.drop (n.wbl + 1)).map (fun l => if l.sc < 0 then l.sc * (l.cnt : Int) else 0)).foldl (· + ·) 0
def Nest.cHigh (n : Nest) : Int := ((n.lv.drop (n.wbl + 1)).map (fun l => if 0 < l.sc then l.sc * (l.cnt : Int) else 0)).foldl (· + ·) 0

/-- Every group address of window mode lies in a window of `size` bytes. -/
def Nest.inWindow (n : Nest) (size : Nat) : Bool :=
  decide (n.cbase < 2 ^ 32) && decide (0 ≤ n.cbase + n.cLow) && decide (n.cbase + n.cHigh + 128 ≤ size)

/-- Alignments of R315. -/
def Nest.aligned (n : Nest) : Bool :=
  decide (n.abase % n.aBytes = 0) && decide (n.bbase % n.bBytes = 0) && decide (n.cbase % 128 = 0) &&
    n.lv.all (fun l => decide (l.sa % n.aBytes = 0) && decide (l.sb % n.bBytes = 0) && decide (l.sc % 128 = 0))

/-- A record that NMGO accepts (R315); `size` is the issuing job's declared window. -/
def nestOk (s : State) (size : Nat) (w : List Nat) : Bool :=
  let c := w.getD 0 0
  let n := nestOf w
  bits c 20 44 == 0 && !bitOf c 15 && !bitOf c 11 && w.getD 14 0 == 0 && w.getD 15 0 == 0
    && (List.range 5).all (fun l =>
        bits (w.getD (5 + 2 * l) 0) 36 2 == 0 && (decide (l < n.depth) || (w.getD (4 + 2 * l) 0 == 0 && w.getD (5 + 2 * l) 0 == 0)))
    && nestFmt n.bfmt && decide (1 ≤ n.depth) && decide (n.depth ≤ 5) && decide (n.wbl < n.depth)
    && n.lv.all (fun l => l.pad != 3) && s.B.mdies.contains n.mdie && (!n.win || n.inWindow size)
    && (n.lv.take (n.wbl + 1)).all (fun l => l.sc == 0) && n.aligned

/-! ### NMGO, NMWT (R142, R143) -/

/-- The record's addresses, word by word. [DEDUCED, unsafe: log entry 49] -/
def recordBeats (ea : Nat) : List Nat := (List.range 16).map (fun i => (ea + 8 * i) % 2 ^ 64)

/-- Queue a near-memory job: its handle, its clock, its reserved status place. [DEDUCED, unsafe: log entry 50] -/
def nmQueue (s : State) (k : Nat) (j : Job) (n : Nest) (w : List Nat) : State × Job × Nat :=
  let d := mdieSt s n.mdie
  let h := n.mdie * 2 ^ 44 + (d.serial + 1)
  let vc := j.clkBefore 4 1 true true
  let e : NmJob := ⟨h, j.uid, j.fdom, jDie k, w.map (BitVec.ofNat 64), none, 0, vc, j.sKnow, none⟩
  let s := setMdie s n.mdie { d with serial := d.serial + 1, queue := d.queue ++ [e] }
  let j := { j.clkAfter 4 1 true true with nmHandles := j.nmHandles ++ [h] }
  let j := if n.notify then { j with core := { j.core with Q := { j.core.Q with sbres := j.core.Q.sbres + 1 } } } else j
  (s, j, h)

/-- NMGO reads the record at issue, refuses it, waits for a place, or starts the job. A replay performs nothing (R437). A poisoned second line
gives its own 8-byte beat's address in TRAPV. [DEDUCED, unsafe: log entry 50; DEDUCED, unsafe: log entry 121] -/
def execNmgo (d a : BitVec 6) (s : State) : Out :=
  sExec s sJob [d, a] noDec (fun k j =>
    let ea := (j.s a).toNat
    if ea % 128 ≠ 0 then .trap 0x03 ea
    else match sCheckAll s k j ⟨8, .read, false, false⟩ (recordBeats ea) with
      | .error e => sFail s j e
      | .ok l =>
        match sLoads s k 8 3 false l with
        | .stall s => .wait s (curJob s k j)
        | .gone s => .done s
        | .ok s' w =>
          let n := nestOf w
          let j' := curJob s' k j
          if !nestOk s' j.spad w then .trap 0x11 ea
          else if n.notify && !j.qmap 15 then .trap 0x02 15
          else if j.replay.isSome then .retire s' (j'.setS d (Config.freeWord s.fresh)).next
          else if 64 ≤ (mdieSt s' n.mdie).queue.length ∨ (n.notify ∧ 72 ≤ j'.statusTaken) then .wait s j
          else
            let q := nmQueue s' k j' n w
            .retire q.1 ((q.2.1.setS d (BitVec.ofNat 64 q.2.2)).next.stallEnd .S))

/-- NMWT: the status of a handle; status 2 is an acquire. -/
def execNmwt (d a : BitVec 6) (s : State) : Out :=
  sExec s sJob [d, a] noDec (fun _ j =>
    if j.replay.isSome then .retire s (j.setS d (Config.freeWord s.fresh)).next
    else
      let x := nmStatus s j (j.s a).toNat
      let j := if x.1 = 2 then j.sawNm x.2 else j
      .retire s (j.setS d (BitVec.ofNat 64 x.1)).next)

/-! ### The walk (R316 to R319) -/

/-- A failure: a code of R319 and the failing address; 7 stands for a frozen page, at which the unit waits. -/
structure NmFail where
  code : Nat
  addr : Nat
  deriving DecidableEq, Repr

/-- A walk in progress: memory and the window, the bytes it has written, the lanes, their flags, the group address, a failure. -/
structure NmRun where
  s : State
  win : Window
  own : Mem
  acc : List Nat
  fl : Fl
  caddr : Nat
  fail : Option NmFail
  deriving Repr

/-- Where a unit's access goes: the page's translation for the domain, homed on the M-die (R319); the register range is refused (R275). [DEDUCED, unsafe: log entry 55] -/
def nmXlate (s : State) (f mdie va : Nat) (k : AKind) : Except NmFail Nat :=
  match translate s f false va k with
  | .fail 0x06 => .error ⟨2, va⟩
  | .fail _ => .error ⟨1, va⟩
  | .frozen => .error ⟨7, va⟩
  | .ok pa =>
    if rangeOf s pa = .regs then .error ⟨2, va⟩
    else if rangeOf s pa = .tier1 ∧ homeMdie s pa = some mdie then .ok pa else .error ⟨3, va⟩

/-- The unit's access to lines, as the home's comparators see it (R430), partial lines combined before it (R294). -/
def nmTouch (s : State) (f mdie pa n ty : Nat) : State :=
  (linesOf pa n).foldl (fun s ln => watchHit (combineLine s ln) ln 1 ty f (8 + mdie)) s

/-- A write of a C-die to the byte that nothing orders before the job's accesses (R253, R322). -/
def nmLoose (s : State) (f : Nat) (vc : VC) (a : Nat) : Bool :=
  match smGet s.M.race (raceKey f (lineOf a)) with
  | some m => m.accs.any (fun x => x.write && bitOf x.mask (a % 64) && !vcCovers vc x.key x.time)
  | none => false

/-- Bytes a unit reads: what it wrote itself, else what its home sees; undefined where a C-die's write is unordered with it (R322). [DESIGN CHOICE, unsafe: log entry 54] -/
def nmBytes (s : State) (j : NmJob) (own : Mem) (pa n : Nat) : List Byte :=
  (List.range' pa n).map (fun a => match smGet own a with
    | some b => b
    | none => if nmLoose s j.fdom j.vc a then Config.freeByte s.fresh a else nByte s a)

/-- Read `n` bytes of memory. [DEDUCED, unsafe: log entry 55] -/
def nmRead (r : NmRun) (j : NmJob) (mdie va n : Nat) : NmRun × List Byte :=
  match nmXlate r.s j.fdom mdie va .read with
  | .error e => ({ r with fail := some e }, [])
  | .ok pa =>
    if (linesOf pa n).any (poisoned r.s) then ({ r with fail := some ⟨4, va⟩ }, [])
    else
      let s := nmTouch (noteTlb r.s j.fdom va) j.fdom mdie pa n 1
      ({ r with s := s }, nmBytes s j r.own pa n)

/-- The bytes that the job's unit replaces: an access that its completion does not come before may still read them (R253, R322). -/
def nmReplace (s : State) (j : NmJob) (pa : Nat) (l : List Byte) : State :=
  let old := (List.range l.length).foldl (fun (m : SMap (Byte × Nat)) i => smSet m (pa + i) (cByte s (pa + i), nmKey j.uid j.handle)) s.M.nmOld
  { s with M := { s.M with nmOld := old } }

/-- A 128-byte writeback to memory: N writes that take positions (R305, R318); undefined bytes where a C-die's write is unordered with it (R322). -/
def nmWrite (r : NmRun) (j : NmJob) (mdie va : Nat) (l : List Byte) : NmRun :=
  match nmXlate r.s j.fdom mdie va .write with
  | .error e => { r with fail := some e }
  | .ok pa =>
    let s := nmTouch (noteTlb r.s j.fdom va) j.fdom mdie pa l.length 2
    let s := (linesOf pa l.length).foldl (fun s ln => slWrite s ln none) s
    let v := (List.range l.length).map (fun i => if nmLoose s j.fdom j.vc (pa + i) then Config.freeByte s.fresh (pa + i) else l.getD i 0)
    let s := nmReplace s j pa v
    let s := poisonWrite (relWrite (nSetBytes s pa v) none pa v.length false []) pa v.length
    { r with s := s, own := cellsSet r.own pa v }

/-- Signed arithmetic on addresses, modulo 2^64. -/
def addrPlus (base : Nat) (o : Int) : Nat := (BitVec.ofInt 64 (base + o)).toNat

/-- The sum of strides times values over levels. -/
def dot (f : NLevel → Int) (lv : List NLevel) (xs : List Int) : Int := ((lv.zip xs).map (fun p => f p.1 * p.2)).foldl (· + ·) 0

/-- The group address. -/
def Nest.group (n : Nest) (i : List Nat) : Nat :=
  addrPlus n.cbase (dot NLevel.sc (n.lv.drop (n.wbl + 1)) ((i.drop (n.wbl + 1)).map Int.ofNat))

/-- The lanes of a 128-byte vector of 4-byte elements. -/
def lanesOf (l : List Byte) : List Nat := (List.range 32).map (fun i => leNat ((l.drop (4 * i)).take 4))

/-- A group starts: its address, and the lanes from zero, from memory or from the window. -/
def groupStart (n : Nest) (j : NmJob) (i : List Nat) (r : NmRun) : NmRun :=
  let c := n.group i
  let r := { r with caddr := c }
  if n.cz then { r with acc := List.replicate 32 0 }
  else if n.win then
    if (List.range 8).any (fun b => (smGet r.win.poison (c / 16 + b)).isSome) then { r with fail := some ⟨4, c⟩ }
    else { r with acc := lanesOf (winBytes r.win c 128) }
  else
    let x := nmRead r j n.mdie c 128
    { x.1 with acc := lanesOf x.2 }

/-- A group ends: the lanes are written back. -/
def groupEnd (n : Nest) (j : NmJob) (r : NmRun) : NmRun :=
  let l := (r.acc.map (natLe 4)).flatten
  if n.win then { r with win := winUntag (winWrite r.win r.caddr l) (granulesOf r.caddr 128), own := cellsSet r.own (winName r.caddr) l }
  else nmWrite r j n.mdie r.caddr l

/-- Padding (R316): whether the body is skipped, whether A is zero, and A's coordinates. -/
def padOf (lv : List NLevel) (i : List Nat) : Bool × Bool × List Int :=
  (lv.zip i).foldl (fun (a : Bool × Bool × List Int) p =>
    let l := p.1
    let x : Int := l.org + (p.2 : Int)
    if x < l.lo ∨ l.hi < x then
      match l.pad with
      | 2 => (true, a.2.1, a.2.2 ++ [x])
      | 0 => (a.1, true, a.2.2 ++ [x])
      | _ => (a.1, a.2.1, a.2.2 ++ [if x < l.lo then l.lo else l.hi])
    else (a.1, a.2.1, a.2.2 ++ [x])) (false, false, [])

/-- One lane of the body (R317). -/
def bodyLane (bfmt a b acc : Nat) : Nat × Fl :=
  if bfmt = 9 then
    let v := sextNat 8 a * sextNat 8 b
    let r := wrap32 (BitVec.ofNat 32 acc) v
    (r.1.toNat, flIf r.2 flOF)
  else
    match builtinFmt bfmt with
    | none => (acc, 0)
    | some f =>
      let p := (f.decode a).mul (f.decode b)
      let t := (fp32.decode acc).add 0 p.1
      let r := fp32.encode false 0 t.1
      (r.1, p.2 ||| t.2 ||| r.2)

/-- Element `i` of a vector of `c`-byte elements. -/
def elemOf (l : List Byte) (c i : Nat) : Nat := leNat ((l.drop (c * i)).take c)

/-- The body on all lanes. -/
def bodyAll (n : Nest) (a b : List Byte) (r : NmRun) : NmRun :=
  let c := nestElem n.bfmt
  let x := (r.acc.zip (List.range 32)).map (fun p => bodyLane n.bfmt (elemOf a c (if n.bcast then 0 else p.2)) (elemOf b c p.2) p.1)
  { r with acc := x.map (fun p => p.1), fl := x.foldl (fun f p => f ||| p.2) r.fl }

/-- The reads and the body of one step. -/
def nestBody (n : Nest) (j : NmJob) (i : List Nat) (r : NmRun) : NmRun :=
  let p := padOf n.lv i
  if p.1 then r
  else
    let xa := if p.2.1 then (r, List.replicate n.aBytes 0)
      else nmRead r j n.mdie (addrPlus n.abase (dot NLevel.sa n.lv p.2.2)) n.aBytes
    if xa.1.fail.isSome then xa.1
    else
      let xb := nmRead xa.1 j n.mdie (addrPlus n.bbase (dot NLevel.sb n.lv (i.map Int.ofNat))) n.bBytes
      if xb.1.fail.isSome then xb.1 else bodyAll n xa.2 xb.2 xb.1

/-- One step of the nest at counters `i`. -/
def nestStep (n : Nest) (j : NmJob) (i : List Nat) (r : NmRun) : NmRun :=
  let first := (i.take (n.wbl + 1)).all (· == 0)
  let last := ((n.lv.zip i).take (n.wbl + 1)).all (fun p => p.2 == p.1.cnt)
  let r := if first then groupStart n j i r else r
  if r.fail.isSome then r
  else
    let r := nestBody n j i r
    if r.fail.isSome then r else if last then groupEnd n j r else r

/-- The next counters, level 0 fastest. -/
def nextIdx : List NLevel → List Nat → List Nat
  | l :: r, i :: is => if i < l.cnt then (i + 1) :: is else 0 :: nextIdx r is
  | _, _ => []

/-- Walk `m` steps from counters `i`; a failure ends the walk. [DESIGN CHOICE, unsafe: log entry 54] -/
def nestWalk (n : Nest) (j : NmJob) : Nat → List Nat → NmRun → NmRun
  | 0, _, r => r
  | m + 1, i, r =>
    let r := nestStep n j i r
    if r.fail.isSome then r else nestWalk n j m (nextIdx n.lv i) r

/-- The number of steps. -/
def Nest.steps (n : Nest) : Nat := (n.lv.map (fun l => l.cnt + 1)).foldl (· * ·) 1

/-! ### The end of a near-memory job (R319, R425) -/

/-- Undefined bytes of C after a failure (R8, R319): group by group, every byte not written back, where the job could have written. -/
def nestScramble (n : Nest) (j : NmJob) : Nat → List Nat → NmRun → NmRun
  | 0, _, r => r
  | m + 1, i, r =>
    let c := n.group i
    let free := (List.range 128).filter (fun o => (smGet r.own (winName (c + o))).isNone)
    let r :=
      if n.win then { r with win := winUntag (free.foldl (fun w o => winSet w (c + o) (Config.freeByte r.s.fresh (winName (c + o)))) r.win) (granulesOf c 128) }
      else match nmXlate r.s j.fdom n.mdie c .write with
        | .error _ => r
        | .ok pa =>
          let hid := (List.range' pa 128).filter (fun a => (smGet r.own a).isNone)
          { r with s := hid.foldl (fun s a => nSet s a (Config.freeByte s.fresh a)) r.s }
    nestScramble n j m (nextIdx (n.lv.drop (n.wbl + 1)) (i.drop (n.wbl + 1)) |> (List.replicate (n.wbl + 1) 0 ++ ·)) r

/-- The number of groups. -/
def Nest.groups (n : Nest) : Nat := ((n.lv.drop (n.wbl + 1)).map (fun l => l.cnt + 1)).foldl (· * ·) 1

/-- The zero counters. -/
def Nest.zero (n : Nest) : List Nat := n.lv.map (fun _ => 0)

/-- FL of a completion entry. -/
def nmFlags (f : Fl) : Nat :=
  (if f.getLsbD 0 then 8 else 0) + (if f.getLsbD 2 then 4 else 0) + (if f.getLsbD 3 then 2 else 0) + (if f.getLsbD 4 then 1 else 0)

/-- A completion entry of q15. -/
def nmEntry (st code fl h : Nat) : Word := BitVec.ofNat 64 (2 * 2 ^ 60 + st * 2 ^ 56 + code * 2 ^ 52 + fl * 2 ^ 48 + h % 2 ^ 48)

/-- The job leaves its unit: the handle's status, the q15 entry, the event of a failure; the deadline of a save that waited for a window-mode
job starts (R321). -/
def nmEnd (s : State) (m : Nat) (j : NmJob) (code addr : Nat) (fl : Fl) : State :=
  let d := mdieSt s m
  let st := if code = 0 then 2 else 3
  let s := setMdie s m { d with running := d.running.filter (fun x => x.handle != j.handle),
                                queue := d.queue.filter (fun x => x.handle != j.handle),
                                ended := smSet d.ended j.handle (st, code, smSet j.vc (nmKey j.uid j.handle) 1) }
  let s := if (nestOf (j.words.map BitVec.toNat)).notify then keepStatus (updJob s j.uid (fun x => x.statusNm (nmEntry st code (nmFlags fl) j.handle))) j.uid else s
  let s := if (nestOf (j.words.map BitVec.toNat)).win then updJob s j.uid (fun x => { x with saveStart := s.time }) else s
  if code = 0 then s else raiseEvent s j.fdom 6 code (8 + m) addr j.handle

/-- The window a window-mode job writes: the issuing job is resident. -/
def nmWindow (s : State) (uid : Nat) : Window :=
  match (slotOf s uid).bind (jobAt s) with
  | some j => j.core.win
  | none => ⟨0, 0, [], none, [], []⟩

/-- The group addresses of a nest, from the first group on. -/
def Nest.groupList (n : Nest) : List Nat :=
  ((n.lv.drop (n.wbl + 1)).foldr (fun (l : NLevel) (as : List Int) =>
    (as.map (fun a => (List.range (l.cnt + 1)).map (fun (i : Nat) => a + l.sc * (i : Int)))).flatten) [(n.cbase : Int)]).map Int.toNat

/-- Put the window back into which a job has written its groups: words of X, L and T that no chain orders after it find them undefined (R321). -/
def nmSetWindow (s : State) (n : Nest) (j : NmJob) (w : Window) : State :=
  let s := match slotOf s j.uid with | some k => bankShare s (jCluster k) 18 | none => s
  updJob s j.uid (fun x => ({ x with core := { x.core with win := w } } : Job).winTouch s.fresh (nmKey j.uid j.handle) 1 j.know
    (n.groupList.map (fun (a : Nat) => ((a : Int), (128 : Nat)))) true)

/-- The job of a unit. -/
def unitJob (s : State) (m u : Nat) : Option NmJob := (mdieSt s m).running.find? (fun x => x.unit == some u)

/-- A walk about to start. -/
def nmStartRun (s : State) (j : NmJob) : NmRun := ⟨s, nmWindow s j.uid, [], List.replicate 32 0, 0, 0, none⟩

/-- Finish a walk that failed with a code. -/
def nmFailRun (r : NmRun) (m : Nat) (j : NmJob) (n : Nest) (code addr : Nat) : State :=
  let r := nestScramble n j n.groups n.zero { r with fail := none }
  let s := if n.win then nmSetWindow r.s n j r.win else r.s
  nmEnd s m j code addr r.fl

/-- The unit waits at a frozen page from now on (R319). -/
def nmStall (s : State) (m : Nat) (j : NmJob) (a : Nat) : State :=
  let d := mdieSt s m
  setMdie s m { d with running := d.running.map (fun x => if x.handle = j.handle then { x with stall := some (a / 4096, s.time) } else x) }

/-- NM_JOB_COMPLETE: unit `u` of M-die `m` has walked its nest; at a frozen page it waits up to 50 µs (R319). [DESIGN CHOICE, unsafe: log entry 54] -/
def execNmJobComplete (m u : Nat) (s : State) : Out :=
  match unitJob s m u with
  | none => .next s
  | some j =>
    let n := nestOf (j.words.map BitVec.toNat)
    let r := nestWalk n j n.steps n.zero (nmStartRun s j)
    match r.fail with
    | none => .next (nmEnd (if n.win then nmSetWindow r.s n j r.win else r.s) m j 0 0 r.fl)
    | some ⟨7, a⟩ =>
      match j.stall with
      | some (p, t) =>
        if p ≠ a / 4096 then .next (nmStall s m j a)
        else if t + 50000 ≤ s.time then .next (nmFailRun r m j n 6 a) else .next s
      | none => .next (nmStall s m j a)
    | some f => .next (nmFailRun r m j n f.code f.addr)

/-- The lowest unit of an M-die that runs nothing. -/
def freeUnit (d : MDieSt) : Option Nat := (List.range 32).find? (fun u => !d.running.any (fun x => x.unit == some u))

/-- NM_JOB_START: the oldest queued job starts on a free unit (R320). -/
def execNmJobStart (m : Nat) (s : State) : Out :=
  let d := mdieSt s m
  match d.queue, freeUnit d with
  | j :: r, some u => .next (setMdie s m { d with queue := r, running := d.running ++ [{ j with unit := some u, started := s.time }] })
  | _, _ => .next s

/-- NM_WATCHDOG_RESET: a unit made no progress for 100 µs; its job fails with CODE 5 (R425). -/
def execNmWatchdogReset (m u : Nat) (s : State) : Out :=
  match unitJob s m u with
  | none => .next s
  | some j =>
    if s.time < j.started + 100000 then .next s
    else
      let n := nestOf (j.words.map BitVec.toNat)
      .next (nmFailRun (nmStartRun s j) m j n 5 0)

/-- ACTIVATION_ALERT: row `row` reached the threshold; unit `u` made `share` of its `total` activations (R427). At half or more its job's
domain is told; the command and the pause change nothing a program sees. -/
def execActivationAlert (m u row share total : Nat) (s : State) : Out :=
  match unitJob s m u with
  | none => .next s
  | some j => if total ≤ 2 * share then .next (raiseEvent s j.fdom 11 u (8 + m) row j.handle) else .next s

end Sys2Proof.Machine
end

