-- ==== Sys2Proof/Machine/Foot.lean ====
section
/-!
DEFINITION. Footprints of copy words (R222, R224, R232), and what becomes of window bytes that two streams access with nothing to order
them (R154, R227, R321): while one word is in flight, another stream's access to the same bytes, one of them a write, makes them
undefined.
-/
namespace Sys2Proof.Machine

/-! ### Footprints -/

/-- ROWB, ROWS, PLANES and PSTRIDE as numbers. -/
def CShape.rb (c : CShape) : Nat := c.rowb.toNat
def CShape.nr (c : CShape) : Nat := c.rows.toNat
def CShape.np (c : CShape) : Nat := c.planes.toNat
def CShape.ps (c : CShape) : Int := c.pstride.toInt

/-- The rows of a shaped copy in copy order: memory address, window offset (R222). -/
def copyRows (c : CShape) (mem : Nat) (rs : Int) : List (Nat × Nat) :=
  ((List.range c.np).map (fun (p : Nat) => (List.range c.nr).map (fun (i : Nat) =>
    (addrPlus mem ((p : Int) * c.ps + (i : Int) * rs), (p * c.nr + i) * c.rb)))).flatten

/-- The bytes of a shaped word on the window side. -/
def CShape.total (c : CShape) : Nat := c.np * c.nr * c.rb

/-- Operand values of a word in flight. -/
def InFlight.vals (i : InFlight) : List Word := spread (opUse i.word) i.ops
def InFlight.d (i : InFlight) : Word := i.vals.getD 0 0
def InFlight.a (i : InFlight) : Word := i.vals.getD 1 0
def InFlight.b (i : InFlight) : Word := i.vals.getD 2 0

/-- The window bytes a copy word accesses while in flight: first address, length, whether it writes them. The index array of CPYG and
the route records of SCAT are read at issue. -/
def InFlight.window (i : InFlight) : Option (Int × Nat × Bool) :=
  let n := i.shape.total
  match i.word with
  | .cpy _ => some (i.d.toInt, n, true)
  | .cpyd w => if w.func.getLsbD 1 then none else some (i.d.toInt, n, true)
  | .cpyg _ => some (i.d.toInt, i.shape.nr * i.shape.rb, true)
  | .cps _ | .cpst _ => some (i.a.toInt, n, false)
  | .acw w => if w.a.mode = 3 then none else some (i.a.toInt, n, false)
  | .scat _ => some (i.a.toInt, i.shape.nr * i.shape.rb, false)
  | _ => none

/-! ### Unordered accesses (R154) -/

/-- The ranges that words in flight of L write; a CPYM writes the sender's window when it receives too (R227). -/
def Job.flyWrites (j : Job) (me : EStream) : List (Int × Nat) :=
  if me = .L then [] else j.core.L.inflight.filterMap (fun i =>
    match i.word with
    | .cpym _ => if i.eff.recv.contains j.uid then some (i.d.toInt, i.shape.total) else none
    | _ => match i.window with | some (a, n, true) => some (a, n) | _ => none)

/-- The window bytes that queued and running window-mode near-memory jobs of a job write (R321). -/
def nmWrites (s : State) (uid : Nat) : List (Int × Nat) :=
  (s.mdies.map (fun e => ((e.2.queue ++ e.2.running).filterMap (fun x =>
    let n := nestOf (x.words.map BitVec.toNat)
    if x.uid = uid ∧ n.win = true then some (n.groupList.map (fun (a : Nat) => ((a : Int), (128 : Nat)))) else none)).flatten)).flatten

/-- The cells that vector and matrix words in flight write. -/
def Job.flyCells (j : Job) (me : EStream) : List Nat :=
  if me = .X then [] else (j.core.X.inflight.map (fun i => i.eff.win.map (fun c => c.1))).flatten

/-- The window ranges that CPYM words in flight of other jobs write in this one (R227). -/
def cpymWrites (s : State) (j : Job) : List (Int × Nat) :=
  (s.jobs.map (fun e => e.2.core.L.inflight.filterMap (fun i => match i.word with
    | .cpym _ => if e.2.uid != j.uid && i.eff.recv.contains j.uid && decide (i.d.toNat + i.shape.total ≤ j.core.win.size) then some (i.d.toInt, i.shape.total) else none
    | _ => none))).flatten

/-- The window as a word of stream `me` reads it that knows `know`: a byte that an unordered word has written or is writing is free (R154, R227,
R321). [DESIGN CHOICE, safe: log entry 51] -/
def winSeen (s : State) (j : Job) (me : EStream) (know : VC) : Nat → Byte :=
  let rs := j.flyWrites me ++ cpymWrites s j ++ nmWrites s j.uid ++ ((j.core.wacc.filter (fun r => r.write && r.loose (winKey j.uid me) know)).map WinAcc.span)
  let cs := j.flyCells me
  fun a => if rs.any (inSpan a) || cs.contains a then Config.freeByte s.fresh (winName a) else winByte j.core.win a

/-! ### Bytes taken in (R436, R437) -/

/-- Take bytes in, eight at a time from `va` up. -/
def takeGroups (s : State) (k : Nat) (st : Stream) (va : Nat) : Nat → List Byte → State × List Byte
  | 0, _ => (s, [])
  | _, [] => (s, [])
  | n + 1, l =>
    match jobAt s k with
    | none => (s, l)
    | some j =>
      let t := takeIn s k j st (leNat (l.take 8)) va
      let r := takeGroups (setJob t.1 k t.2.1) k st (va + 8) n (l.drop 8)
      (r.1, natLe (l.take 8).length t.2.2 ++ r.2)

/-- The bytes a copy or a fill reads at `va`: VALUE records while they are recorded, recorded values in a replay. [DEDUCED, safe: log entry 77] -/
def takeBytes (s : State) (k : Nat) (st : Stream) (va : Nat) (l : List Byte) : State × List Byte :=
  match jobAt s k with
  | none => (s, l)
  | some j => if traceOn s j.fdom st 2 || j.replay.isSome then takeGroups s k st va l.length l else (s, l)

end Sys2Proof.Machine
end

