-- ==== Sys2Proof/Machine/Transcend.lean ====
section
/-!
DEFINITION. The functions of R171 and R172. Each is computed far beyond the result's precision with integers, in units of 2^-460, and
handed on as a fraction that lies strictly between the same two representable neighbours as the exact value, so that the one rounding
of `NFmt.encode` is the correct rounding. Reciprocals are exact; a square root is an exact floor with a sticky bit.
-/
namespace Sys2Proof.Machine

/-- The unit of the fixed-point series. -/
def fxP : Nat := 460
/-- One in these units. -/
def fxOne : Nat := 2 ^ fxP

/-- `sum of 2^P / (k 2^k)` for k from 1 to n: ln 2. -/
def fxLn2Sum : Nat → Nat
  | 0 => 0
  | k + 1 => fxLn2Sum k + fxOne / ((k + 1) * 2 ^ (k + 1))
/-- ln 2 in units of 2^-460. -/
def fxLn2 : Nat := fxLn2Sum 470

/-- The exponential series of `r` in [0, 1): the sum so far, the current term, its number. -/
def fxSeries (r : Nat) : Nat → Nat → Nat → Nat → Nat
  | 0, sum, _, _ => sum
  | n + 1, sum, term, k =>
    let t := term * r / (k * fxOne)
    fxSeries r n (sum + t) t (k + 1)
/-- e^r in units of 2^-460, for r in [0, 1). -/
def fxExp (r : Nat) : Nat := fxSeries r 120 fxOne fxOne 1

/-- `± num / den` in units of 2^-460, rounded down. -/
def fxOf (neg : Bool) (num den : Nat) : Int :=
  let v : Int := (num * fxOne / den : Nat)
  if neg then -v else v

/-- A value a little above `m * 2^(n - 460)`: inexact for certain. -/
def stickyVal (m : Nat) (n : Int) : Num := .dyadic false (2 * m + 1) (n - fxP - 1)

/-- A magnitude beyond every overflow. -/
def hugeVal : Num := .dyadic false 1 500
/-- A magnitude below every subnormal. -/
def tinyVal : Num := .dyadic false 1 (-500)

/-- e^x for a finite non-zero x. -/
def expVal (neg : Bool) (num den : Nat) : Num :=
  if 512 * den ≤ num then (if neg then tinyVal else hugeVal)
  else
    let x := fxOf neg num den
    let n := x / (fxLn2 : Int)
    stickyVal (fxExp (x - n * fxLn2).toNat) n

/-- 2^x for a finite non-zero x: exact for an integer x. -/
def exp2Val (neg : Bool) (num den : Nat) : Num :=
  if 512 * den ≤ num then (if neg then tinyVal else hugeVal)
  else
    let x := fxOf neg num den
    let n := x / (fxOne : Int)
    let f := (x - n * fxOne).toNat
    if f = 0 then .dyadic false 1 n else stickyVal (fxExp (f * fxLn2 / fxOne)) n

/-- The integer square root, bit by bit. -/
def isqrtGo (n : Nat) : Nat → Nat → Nat
  | 0, r => if (r + 1) * (r + 1) ≤ n then r + 1 else r
  | i + 1, r => isqrtGo n i (if (r + 2 ^ (i + 1)) * (r + 2 ^ (i + 1)) ≤ n then r + 2 ^ (i + 1) else r)
/-- The integer square root. -/
def isqrt (n : Nat) : Nat := isqrtGo n (Nat.log2 n / 2 + 1) 0

/-- 1 / √(num / den). -/
def rsqVal (num den : Nat) : Num :=
  let v := den * 2 ^ 400
  let s := isqrt (v / num)
  if s * s * num = v then .fin false s (2 ^ 200) else .fin false (2 * s + 1) (2 ^ 201)

/-- tanh of a finite non-zero magnitude: near zero a value just below x, far out one just below 1, between them (E − 1) / (E + 1) with
E = e^(2x). -/
def tanhVal (neg : Bool) (num den : Nat) : Num :=
  if 64 * den ≤ num then .fin neg (2 ^ 190 - 1) (2 ^ 190)
  else if num * 2 ^ 64 < den then .fin neg (num * (2 ^ 100 - 1)) (den * 2 ^ 100)
  else
    let x := fxOf false (2 * num) den
    let n := x / (fxLn2 : Int)
    let e := fxExp (x - n * fxLn2).toNat * 2 ^ n.toNat
    .fin neg (e - fxOne) (e + fxOne)

/-- The functions. -/
inductive VFn
  | exp | exp2 | rcp | rsq | tanh
  deriving DecidableEq, Repr

/-- The exact value, or one that rounds as it does, and the flags of the special inputs (R172). -/
def VFn.val (k : VFn) (x : Num) : Num × Fl :=
  match x with
  | .nan s => (.nan false, flIf s flNV)
  | .inf s =>
    match k with
    | .exp | .exp2 => (if s then .fin false 0 1 else .inf false, 0)
    | .rcp => (.fin s 0 1, 0)
    | .rsq => if s then (.nan false, flNV) else (.fin false 0 1, 0)
    | .tanh => (.fin s 1 1, 0)
  | .fin s n d =>
    if n = 0 then
      match k with
      | .exp | .exp2 => (.fin false 1 1, 0)
      | .rcp | .rsq => (.inf s, flDZ)
      | .tanh => (.fin s 0 1, 0)
    else
      match k with
      | .exp => (expVal s n d, 0)
      | .exp2 => (exp2Val s n d, 0)
      | .rcp => (.fin s d n, 0)
      | .rsq => if s then (.nan false, flNV) else (rsqVal n d, 0)
      | .tanh => (tanhVal s n d, 0)

end Sys2Proof.Machine
end

