-- ==== Sys2Proof/Machine/VecOps.lean ====
section
/-!
DEFINITION. What every vector word shares (R46, R64 to R66, R149 to R157): resolving formats, selected elements, reading packed elements,
the access checks, scale reads of a tagged source, and the frame of a word: its results are computed when it issues and land when it
retires.
-/
namespace Sys2Proof.Machine

/-! ### Formats (R46, R66, R155) -/

/-- The format of a non-zero tag; none for an invalid descriptor of a window. -/
def tagFmt (s : State) (t : Nat) : Option NFmt :=
  if t < 13 then builtinFmt (t - 1) else if t < 16 then none else descFmt (s.R.fwin.toList.getD (t - 16) (0, 0, 0, 0)).2.2.1.toNat

/-- The format of an explicit code; none for an invalid descriptor. -/
def codeFmt (j : Job) (c : Nat) : Option NFmt :=
  if c < 12 then builtinFmt c else if c < 15 then descFmt (j.core.fmt.toList.getD (c - 12) 0).toNat else none

/-- What a word accepts: built-in codes, and which descriptors. -/
inductive DescOk
  | none | byte | floating | any
  deriving DecidableEq, Repr

/-- The word accepts a format. -/
def accepts (l : List Nat) (d : DescOk) (f : NFmt) : Bool :=
  if f.desc then (match d with | .none => false | .byte => f.cont == 8 | .floating => f.isFloat | .any => true)
  else l.any (fun c => builtinFmt c == some f)

/-- A floating format as against an integer or fixed-point one. -/
def NFmt.isInt (f : NFmt) : Bool := f.cls == .int

/-- Built-in codes, all of them. -/
def allFmts : List Nat := List.range 12

/-! ### Spans of packed elements (R41, R150) -/

/-- The bytes of element `i` of an operand at `b`, containers of `c` bits. -/
def elSpan (b : Int) (c i : Nat) : Int × Nat := (b + ((i * c / 8 : Nat) : Int), (i * c % 8 + c + 7) / 8)

/-- The alignment of an operand of elements. -/
def elAlign (c : Nat) : Nat := if 16 ≤ c then c / 8 else 1

/-- The lowest of a list of integers. -/
def lowest : List Int → Option Int
  | [] => none
  | a :: r => match lowest r with | some b => some (if a ≤ b then a else b) | none => some a

/-- An address as TRAPV holds it. -/
def addrWord (a : Int) : Nat := (BitVec.ofInt 64 a).toNat

/-- The access checks (R151) in the table's order: alignment, the window's end, its start. [DEDUCED, unsafe: log entry 26] -/
def winBounds (size : Nat) (al : List (Int × Nat)) (sp : List (Int × Nat)) : Option (Nat × Nat) :=
  match al.find? (fun x => x.1 % (x.2 : Int) != 0) with
  | some x => some (0x03, addrWord x.1)
  | none =>
    match lowest ((sp.filter (fun x => decide (0 < x.2) && decide ((size : Int) < x.1 + x.2))).map (fun (x : Int × Nat) => if x.1 < (size : Int) then (size : Int) else x.1)) with
    | some a => some (0x02, addrWord a)
    | none => match lowest ((sp.filter (fun x => decide (0 < x.2) && decide (x.1 < 0))).map (fun x => x.1)) with
      | some a => some (0x07, addrWord a)
      | none => none

/-- The lowest byte of the spans in a poisoned bank word (R420). -/
def winPoison (w : Window) (sp : List (Int × Nat)) : Option Nat :=
  if w.poison.isEmpty then none
  else (lowest ((sp.map (fun x => ((List.range x.2).map (fun (o : Nat) => x.1 + (o : Int))).filter (fun a => (smGet w.poison (a.toNat / 16)).isSome))).flatten)).map addrWord

/-! ### The word in hand -/

/-- An element to be written: operand address, container bits, index, bits. -/
structure VElem where
  base : Int
  cont : Nat
  idx : Nat
  val : Nat
  deriving DecidableEq, Repr

/-- A vector word at issue: E, destination and source formats, operand values as addresses, the window as it reads it, the selected
elements. -/
structure VCtx where
  s : State
  j : Job
  w : EWord
  e : Nat
  f : NFmt
  sf : NFmt
  d : Int
  a : Int
  b : Int
  seen : Nat → Byte
  sel : List Nat

/-- What a word's beats access (R247): the elements, the bytes of a beat, the widest container in bits; operand arrays with their containers, which
advance with the elements; accesses that stand apart, each with the element it goes with. -/
structure Beats where
  count : Nat
  step : Nat
  wide : Nat
  arr : List (Int × Nat)
  apart : List (Nat × Int × Nat)

/-- A word that accesses nothing. -/
def Beats.none : Beats := ⟨0, 128, 8, [], []⟩

/-- What a word reads and does: alignments, bytes read, written elements, a mask, flags, q12 entries, the VS grant; what its beats access. -/
structure VOut where
  al : List (Int × Nat)
  rd : List (Int × Nat)
  out : List VElem
  mask : Option (Nat × BitVec 2048)
  fl : Fl
  push : List Word
  vs : Option (Option VGrant)
  beats : Beats

/-- A word that does nothing yet. -/
def VOut.none : VOut := ⟨[], [], [], .none, 0, [], .none, Beats.none⟩

/-- The container bits of element `i` of an operand. -/
def VCtx.raw (c : VCtx) (base : Int) (cont i : Nat) : Nat := bitsAt c.seen base (i * cont) cont
/-- The value of element `i` in a format. -/
def VCtx.num (c : VCtx) (base : Int) (f : NFmt) (i : Nat) : Num := f.decode (c.raw base f.cont i)
/-- Rounding field. -/
def VCtx.rm (c : VCtx) : Nat := c.w.rm.toNat
/-- func[0], SAT or .b2. -/
def VCtx.bit0 (c : VCtx) : Bool := c.w.func.getLsbD 0
/-- func[11:0]. -/
def VCtx.ncol (c : VCtx) : Nat := c.w.func.toNat % 4096
/-- func[18:12] + 1. -/
def VCtx.high (c : VCtx) : Nat := c.w.func.toNat / 4096 + 1
/-- Spans of elements of an operand. -/
def spansOf (b : Int) (c : Nat) (is : List Nat) : List (Int × Nat) := is.map (elSpan b c)
/-- Spans of written elements. -/
def VOut.wr (o : VOut) : List (Int × Nat) := o.out.map (fun x => elSpan x.base x.cont x.idx)

/-! ### Bytes a word writes -/

/-- Replace `c` bits at bit `o` of a byte string's number. -/
def putField (v o c x : Nat) : Nat := v - bits v o c * 2 ^ o + x % 2 ^ c * 2 ^ o

/-- A written element as bytes over what the bytes held. -/
def elemCells (seen : Nat → Byte) (m : Mem) (x : VElem) : Mem :=
  let sp := elSpan x.base x.cont x.idx
  let a := sp.1.toNat
  let old := leNat ((List.range' a sp.2).map (fun p => match smGet m p with | some b => b | none => seen p))
  cellsSet m a (natLe sp.2 (putField old (x.idx * x.cont % 8) x.cont x.val))

/-- The cells a word writes, later elements last. Containers of whole bytes need no merging. -/
def vCells (seen : Nat → Byte) (out : List VElem) : List Host.Cell :=
  if out.any (fun x => x.cont % 8 != 0) then out.foldl (elemCells seen) []
  else
    (out.map (fun x => let a := (elSpan x.base x.cont x.idx).1.toNat; (List.range' a (x.cont / 8)).zip (natLe (x.cont / 8) x.val))).flatten

/-! ### Tags (R65, R66) -/

/-- The tag of a granule. -/
def granTag (w : Window) (g : Nat) : Nat := ((smGet w.tags g).map (·.1)).getD 0
/-- The granules of spans; bytes below the window lie in none. -/
def granulesIn (sp : List (Int × Nat)) : List Nat :=
  (sp.map (fun x => let n := (x.1 + (x.2 : Int)).toNat - x.1.toNat; if n = 0 then [] else granulesOf x.1.toNat n)).flatten

/-- Resolve code 0xF by everything the operands read: the tag all those granules carry, found as one under whose format they do. -/
def resolveTag (s : State) (w : Window) (rd : NFmt → List (Int × Nat)) : Option NFmt :=
  ((List.range 32).filterMap (fun t =>
    match (if t = 0 then none else tagFmt s t) with
    | none => none
    | some f =>
      let g := granulesIn (rd f)
      if !g.isEmpty && g.all (fun x => granTag w x == t) then some f else none)).head?

/-- TAGM: PROFCTL[1] is set and a non-zero tag of the granules names another format. -/
def tagMiss (s : State) (j : Job) (f : NFmt) (sp : List (Int × Nat)) : Fl :=
  flIf ((jobDomain s j).profctl.getLsbD 1 && (granulesIn sp).any (fun g =>
    let t := granTag j.core.win g
    t != 0 && tagFmt s t != some f)) flTAGM

/-! ### The frame -/

/-- Where a word's codes stand: the formats of destination and source, what it accepts, which operands 0xF resolves through. -/
structure VFmt where
  df : Option (BitVec 4)
  sf : Option (BitVec 4)
  dl : List Nat
  dd : DescOk
  sl : List Nat
  sd : DescOk

/-- A word with one format. -/
def VFmt.one (w : EWord) (l : List Nat) (d : DescOk) : VFmt := ⟨some w.fmt, none, l, d, [], .none⟩
/-- A word with a destination and a source format. -/
def VFmt.two (w : EWord) (l : List Nat) (d : DescOk) (sl : List Nat) (sd : DescOk) : VFmt :=
  ⟨some w.fmt, some (BitVec.ofNat 4 (bits w.func.toNat 4 4)), l, d, sl, sd⟩
/-- A word without formats. -/
def VFmt.no : VFmt := ⟨none, none, [], .none, [], .none⟩

/-- The codes the header check sees. -/
def VFmt.codes (v : VFmt) : List (BitVec 4) := v.df.toList ++ v.sf.toList

/-- An explicit code is valid and accepted; 0xF is resolved later. [DEDUCED, unsafe: log entry 25] -/
def explicitOk (j : Job) (c : Option (BitVec 4)) (l : List Nat) (d : DescOk) : Bool :=
  match c with
  | none => true
  | some c => c == 15 || (match codeFmt j c.toNat with | some f => accepts l d f | none => false)

/-- The resolved format. `rd` are the bytes the operands of that format read. [DEDUCED, unsafe: log entry 24; DEDUCED, unsafe: log entry 27] -/
def resolveCode (s : State) (j : Job) (c : Option (BitVec 4)) (l : List Nat) (d : DescOk) (dflt : NFmt) (rd : NFmt → List (Int × Nat)) : Option NFmt :=
  match c with
  | none => some dflt
  | some c =>
    if c = 15 then
      if (rd dflt).isEmpty then some dflt
      else match resolveTag s j.core.win rd with
        | some f => if accepts l d f then some f else none
        | none => none
    else codeFmt j c.toNat

/-- Selected elements below E of a mask register. -/
def selOf (m : BitVec 2048) (e : Nat) : List Nat := (List.range e).filter (fun i => m.getLsbD i)

/-- The governing mask register. -/
def Job.maskReg (j : Job) (n : Nat) : BitVec 2048 := j.core.masks.toList.getD n 0

/-- The answer of a word: a trap, its results, or its results once the scales at the given physical addresses have been read (R66). -/
inductive VAns
  | trap (code v : Nat)
  | ok (o : VOut)
  | scaled (o : VOut) (at_ : List Nat) (fin : List Nat → List VElem × Fl)

/-- The checks of a scale read. -/
def scaleCheck (s : State) (pa : Nat) : Option (Nat × Nat) :=
  if !(rangeOf s pa).isMem then some (0x04, pa) else if poisoned s (lineOf pa) then some (0x0C, pa) else none

/-- Perform the scale reads of X word number `n` in order: the state and the values; none when a line is held back. -/
def readScales (s : State) (k n : Nat) : List Nat → Option (State × List Nat)
  | [] => some (s, [])
  | pa :: r =>
    let p := memReady s ⟨k, 3, n⟩ 3 pa
    if !p.2 then none
    else
      let x := memLoad p.1 ⟨k, 3, n⟩ 3 pa 2 false
      (readScales x.1 k n r).map (fun t => (t.1, leNat x.2 :: t.2))

/-! ### Lost cycles at the banks (R245 to R247, R438) -/

/-- The bank words of a span. -/
def bankWords (lo : Int) (n : Nat) : List Nat := if n = 0 then [] else List.range' (lo.toNat / 16) ((lo.toNat + n - 1) / 16 - lo.toNat / 16 + 1)

/-- How many beats the elements take. -/
def Beats.num (x : Beats) : Nat := (x.count * x.wide + 8 * x.step - 1) / (8 * x.step)

/-- The bank words that beat `b` presents of an operand array: `step` bytes of the widest operand, of another one its share. [DESIGN CHOICE, unsafe: log entry 61] -/
def Beats.part (x : Beats) (b : Nat) (a : Int × Nat) : List Nat :=
  let tot := (x.count * a.2 + 7) / 8
  let lo := x.step * b * a.2 / x.wide
  let hi := Nat.min tot ((x.step * (b + 1) * a.2 + x.wide - 1) / x.wide)
  bankWords (a.1 + (lo : Int)) (hi - lo)

/-- The bank words that beat `b` presents. -/
def Beats.words (x : Beats) (b : Nat) : List Nat :=
  (x.arr.map (x.part b)).flatten ++
    ((x.apart.filter (fun p => p.1 * x.wide / (8 * x.step) == b)).map (fun p => bankWords p.2.1 p.2.2)).flatten

/-- Requester `r` loses a cycle at a bank for every access of a beat that finds the bank taken by an earlier one of the beat. [DESIGN CHOICE, unsafe: log entry 61] -/
def loseCycles (m : SMap Nat) (r : Nat) (banks : List Nat) : SMap Nat :=
  (List.range 31).foldl (fun m b =>
    let c := (banks.filter (fun x => x % 31 == b)).length
    if 1 < c then smPut 0 m (31 * r + b) ((smGetD m (31 * r + b) 0 + (c - 1)) % 2 ^ 32) else m) m

/-- The counters after a vector word of job `k`: what its own beats lose, and what the requesters of the cluster lose to each other (R246). [DESIGN CHOICE, unsafe: log entry 61] -/
def countConflicts (s : State) (k : Nat) (o : VOut) : State :=
  if o.beats.arr.isEmpty && o.beats.apart.isEmpty then s
  else
    let r := 4 * (jCore k % 4) + 2
    let c := clusterSt s (jCluster k)
    let m := (List.range o.beats.num).foldl (fun m b => loseCycles m r (o.beats.words b)) c.conflicts
    bankShare (setCluster s (jCluster k) { c with conflicts := m }) (jCluster k) r

/-- The effect of an X word that passed its checks. -/
def vLand (s : State) (k : Nat) (seen : Nat → Byte) (o : VOut) (extra : Fl) : IRes :=
  let cells := vCells seen o.out
  .fly (countConflicts s k o) { Effect.none with win := cells, mask := o.mask, flags := o.fl ||| extra, push := o.push, vs := o.vs, reads := o.rd }

/-- The access checks of a word's results (R151, R420). [DEDUCED, unsafe: log entry 26] -/
def vCheck (j : Job) (o : VOut) : Option (Nat × Nat) :=
  match winBounds j.core.win.size o.al (o.rd ++ o.wr) with
  | some t => some t
  | none => (winPoison j.core.win o.rd).map (fun a => (0x0C, a))

/-- Issue an X word's results: access checks, scale reads, then the effect that lands at its retirement. [DEDUCED, unsafe: log entry 25; DEDUCED, unsafe: log entry 32] -/
def vIssue (s : State) (k : Nat) (j : Job) (seen : Nat → Byte) (a : VAns) (extra : Fl) : IRes :=
  match a with
  | .trap c v => .trap c v
  | .ok o =>
    match vCheck j o with
    | some t => .trap t.1 t.2
    | none => vLand s k seen o extra
  | .scaled o pas fin =>
    match vCheck j o with
    | some t => .trap t.1 t.2
    | none =>
      match (pas.filterMap (scaleCheck s)).head? with
      | some t => .trap t.1 t.2
      | none =>
        match readScales s k (j.core.X.seq + 1) pas with
        | none => .wait
        | some (s', vs) =>
          let r := fin vs
          vLand s' k seen { o with out := r.1, fl := o.fl ||| r.2 } extra

/-- A vector word beside its fields: which of D, A and B are operands, the queue it pushes, its formats, the bytes that operands of the
source format read (of the one format, when there is one), and what it computes or its trap. -/
structure VWord where
  use : Bool × Bool × Bool
  push : Option Nat
  fmt : VFmt
  srcs : VCtx → NFmt → List (Int × Nat)
  ans : VCtx → VAns

/-- The context of a word at issue with E elements and resolved formats, given the values of D, A and B. -/
def vCtx (s : State) (j : Job) (w : EWord) (use : Bool × Bool × Bool) (vals : List Word) (e : Nat) (f sf : NFmt) : VCtx :=
  let x := spread use vals
  ⟨s, j, w, e, f, sf, (x.getD 0 0).toInt, (x.getD 1 0).toInt, (x.getD 2 0).toInt, winSeen s j .X (j.know .X), selOf (j.maskReg w.mask.toNat) e⟩

/-- TAGM of a word that names its source format with an explicit code. -/
def vTagMiss (s : State) (j : Job) (x : VWord) (c : VCtx) : Fl :=
  let src := if x.fmt.sf.isSome then c.sf else c.f
  let code := if x.fmt.sf.isSome then x.fmt.sf else x.fmt.df
  if code.isSome && code != some 15 then tagMiss s j src (x.srcs c src) else 0

/-- Execute a vector word. -/
def vPlan (i : Instr) (w : EWord) (x : VWord) : EPlan :=
  let use := x.use
  let v := x.fmt
  let ops := (if use.1 then [w.d] else []) ++ (if use.2.1 then [w.a] else []) ++ (if use.2.2 then [w.b] else [])
  EPlan.mk ⟨ops.map opB, v.codes, x.push, noExtra⟩ false false (fun s k j vals =>
    if !explicitOk j v.df v.dl v.dd || !explicitOk j v.sf v.sl v.sd then .trap 0x09 0
    else match j.core.vs with
      | none => .trap 0x01 (wordBits i % 2 ^ 64)
      | some g =>
        match codeFmt j g.fmt.toNat with
        | none => .trap 0x09 0
        | some vf =>
          let c := vCtx s j w use vals g.count vf vf
          let dres := if v.sf.isSome && v.df == some 15 then none else resolveCode s j v.df v.dl v.dd vf (x.srcs c)
          match dres, resolveCode s j v.sf v.sl v.sd vf (x.srcs c) with
          | some df, some sf =>
            if vf.cont < df.cont || vf.cont < sf.cont then .trap 0x09 0
            else
              let c := vCtx s j w use vals g.count df sf
              vIssue s k j c.seen (x.ans c) (vTagMiss s j x c)
          | _, _ => .trap 0x09 0)

/-! ### Scale reads of a tagged block-scaled source (R66) -/

/-- The S16 scale of element `i` of a source at `base` by its granule's line number: physical address of the scale. -/
def scaleAddr (s : State) (w : Window) (base : Int) (f : NFmt) (i : Nat) : Nat :=
  let bit := (base * 8 + ((i * f.cont : Nat) : Int)).toNat
  let g := bit / 512
  match smGet w.tags g with
  | none => 0
  | some (t, line) =>
    let x := (512 * line + bit % 512) / f.cont
    bits (s.R.fwin.toList.getD (t - 16) (0, 0, 0, 0)).2.2.2.toNat 1 47 * 2 + 2 * (x / f.blk)

end Sys2Proof.Machine
end

