-- ==== Sys2Proof/Machine/Vector.lean ====
section
/-!
DEFINITION. The vector words (R158 to R183). Each reads its sources as they are when it issues, checks its footprint, and lands its results
when it retires.
-/
namespace Sys2Proof.Machine

/-! ### Elements -/

/-- A result element of D in the destination format: container bits above the width are written as zero (R41). -/
def VCtx.dst (c : VCtx) (i v : Nat) : VElem := ⟨c.d, c.f.cont, i, v % 2 ^ c.f.width⟩
/-- The signed value of an integer element. -/
def VCtx.int (c : VCtx) (v : Nat) : Int := sextNat c.f.width v

/-- B is an immediate. [DEDUCED, unsafe: log entry 23] -/
def VCtx.immB (c : VCtx) : Bool := c.w.b.mode == 3
/-- The element of B that element `i` uses (R163). -/
def VCtx.bAt (c : VCtx) (i : Nat) : Nat := if c.w.func.getLsbD 1 then 0 else i
/-- An immediate in a format (R163). [DEDUCED, unsafe: log entry 23] -/
def immBits (f : NFmt) (e : Int) : Nat := if f.isInt then wrapBits f.cont e else (f.encode false 0 (.ofInt e)).1
/-- The B bits of element `i`; `raw` words sign-extend an immediate to the container. -/
def VCtx.bBits (c : VCtx) (raw : Bool) (i : Nat) : Nat :=
  if c.immB then (if raw then wrapBits c.f.cont c.b else immBits c.f c.b) else c.raw c.b c.f.cont (c.bAt i)
/-- The elements of B that the elements `is` use. -/
def VCtx.bUse (c : VCtx) (is : List Nat) : List Nat :=
  if c.immB then [] else if c.w.func.getLsbD 1 then (if is.isEmpty then [] else [0]) else is

/-- A resolved format keeps the rules that a built-in code is held to at decode: rounding and SAT by class, immediates by range. [DEDUCED, unsafe: log entry 24] -/
def VCtx.late (c : VCtx) (sat imm : Bool) : Bool :=
  (c.w.rm == 0 || !c.f.isInt) && (!sat || !c.bit0 || c.f.isInt) && (!imm || !c.immB || !c.f.isInt || (decide (c.f.range.1 ≤ c.b) && decide (c.b ≤ c.f.range.2)))

/-- A word with operand arrays in 128-byte beats, its widest container of `n` bits. -/
def VOut.over (o : VOut) (c : VCtx) (n : Nat) (arr : List (Int × Nat)) : VOut := { o with beats := ⟨c.e, 128, n, arr, []⟩ }
/-- A word that works in beats of 64 bytes (R157), with accesses apart. [DESIGN CHOICE, unsafe: log entry 61] -/
def VOut.half (o : VOut) (c : VCtx) (n : Nat) (arr : List (Int × Nat)) (apart : List (Nat × Int × Nat)) : VOut :=
  { o with beats := ⟨c.e, 64, n, arr, apart⟩ }
/-- Accesses apart beside those of the arrays. -/
def VOut.also (o : VOut) (apart : List (Nat × Int × Nat)) : VOut := { o with beats := { o.beats with apart := o.beats.apart ++ apart } }

/-! ### Element-wise operations (R160 to R167) -/

/-- An operation on bits in a format: rounding mode, saturate bit, x, y, D; the result and its flags. -/
abbrev EwOp := NFmt → Nat → Bool → Nat → Nat → Nat → Nat × Fl

/-- Integer operands, exact result. -/
def ewInt (g : Int → Int → Int → Int) (f : NFmt) (sat : Bool) (x y d : Nat) : Nat × Fl :=
  intResult f.width sat (g (sextNat f.width x) (sextNat f.width y) (sextNat f.width d))

/-- Deliver a rounded result with the flags of the operation. -/
def roundTo (f : NFmt) (rm : Nat) (r : Num × Fl) : Nat × Fl := let e := f.encode false rm r.1; (e.1, e.2 ||| r.2)

/-- Sum. -/
def ewAdd : EwOp := fun f rm sat x y d =>
  if f.isInt then ewInt (fun x y _ => x + y) f sat x y d else roundTo f rm ((f.decode x).add rm (f.decode y))
/-- Difference. -/
def ewSub : EwOp := fun f rm sat x y d =>
  if f.isInt then ewInt (fun x y _ => x - y) f sat x y d else roundTo f rm ((f.decode x).add rm (f.decode y).flip)
/-- Product. -/
def ewMul : EwOp := fun f rm sat x y d =>
  if f.isInt then ewInt (fun x y _ => x * y) f sat x y d else roundTo f rm ((f.decode x).mul (f.decode y))
/-- Product plus D with one rounding. -/
def ewFma : EwOp := fun f rm sat x y d =>
  if f.isInt then ewInt (fun x y d => x * y + d) f sat x y d
  else
    let p := (f.decode x).mul (f.decode y)
    let r := p.1.add rm (f.decode d)
    roundTo f rm (r.1, r.2 ||| p.2)

/-- Minimum (`big` false) or maximum (R164). -/
def pick (big : Bool) (f : NFmt) (x y : Nat) : Nat × Fl :=
  if f.isInt then
    let less := decide (sextNat f.width x < sextNat f.width y)
    (if less == big then y else x, 0)
  else
    let a := f.decode x
    let b := f.decode y
    let fl := sigNV a b
    if a.isNan then (if b.isNan then f.canonNan else y, fl)
    else if b.isNan then (x, fl)
    else
      let less := a.lt b || (a.eqv b && a.neg && !b.neg)
      (if less == big then y else x, fl)

def ewMin : EwOp := fun f _ _ x y _ => pick false f x y
def ewMax : EwOp := fun f _ _ x y _ => pick true f x y

/-- The sign bit changed; a NaN becomes canonical. -/
def signOp (g : Bool → Bool) (f : NFmt) (x : Nat) : Nat × Fl :=
  let v := f.decode x
  if v.isNan then (f.canonNan, flIf v.isSig flNV)
  else (x % 2 ^ (f.width - 1) + (if g (bitOf x (f.width - 1)) then 2 ^ (f.width - 1) else 0), 0)

def ewAbs : EwOp := fun f _ sat x y d => if f.isInt then ewInt (fun x _ _ => x.natAbs) f sat x y d else signOp (fun _ => false) f x
def ewNeg : EwOp := fun f _ sat x y d => if f.isInt then ewInt (fun x _ _ => -x) f sat x y d else signOp (fun s => !s) f x
def ewAnd : EwOp := fun _ _ _ x y _ => (x &&& y, 0)
def ewOr : EwOp := fun _ _ _ x y _ => (x ||| y, 0)
def ewXor : EwOp := fun _ _ _ x y _ => (x ^^^ y, 0)
/-- Left shift; an amount at or above the width gives zero. -/
def ewShl : EwOp := fun f _ _ x y _ => (if f.width ≤ y then 0 else x * 2 ^ y % 2 ^ f.width, 0)
/-- Right shift. -/
def ewShr : EwOp := fun _ _ _ x y _ => (x / 2 ^ y, 0)
/-- Arithmetic right shift. -/
def ewSar : EwOp := fun f _ _ x y _ => (wrapBits f.width (sextNat f.width x / ((2 ^ Nat.min y f.width : Nat) : Int)), 0)

/-- The results of an element-wise word: `hasB`, `readD`, `raw` (logic words). -/
def ewOut (op : EwOp) (hasB readD raw : Bool) (c : VCtx) : VOut :=
  let n := c.f.cont
  let r := c.sel.map (fun i =>
    let x := op c.f c.rm c.bit0 (c.raw c.a n i) (if hasB then c.bBits raw i else 0) (if readD then c.raw c.d n i else 0)
    (c.dst i x.1, x.2))
  let bArr := if hasB && !c.immB && !c.w.func.getLsbD 1 then [(c.b, n)] else []
  { VOut.none.over c n ([(c.d, n), (c.a, n)] ++ bArr ++ (if readD then [(c.d, n)] else [])) with
    al := [(c.d, elAlign n), (c.a, elAlign n)] ++ (if hasB && !c.immB then [(c.b, elAlign n)] else [])
    rd := spansOf c.a n c.sel ++ (if hasB then spansOf c.b n (c.bUse c.sel) else []) ++ (if readD then spansOf c.d n c.sel else [])
    out := r.map (fun x => x.1)
    fl := r.foldl (fun f x => f ||| x.2) 0 }

/-- The bytes an element-wise word reads in a format. -/
def ewSrc (hasB readD : Bool) (c : VCtx) (f : NFmt) : List (Int × Nat) :=
  spansOf c.a f.cont c.sel ++ (if hasB then spansOf c.b f.cont (c.bUse c.sel) else []) ++ (if readD then spansOf c.d f.cont c.sel else [])

/-- An element-wise word. -/
def vElem (w : EWord) (l : List Nat) (d : DescOk) (op : EwOp) (hasB readD raw sat : Bool) : VWord :=
  ⟨(true, true, hasB), none, .one w l d, ewSrc hasB readD, fun c =>
    if c.late sat hasB then .ok (ewOut op hasB readD raw c) else .trap 0x09 0⟩

def wordVadd (w : EWord) : VWord := vElem w arithFmts .none ewAdd true false false true
def planVadd (w : EWord) : EPlan := vPlan (.vadd w) w (wordVadd w)
def execVadd (w : EWord) (s : State) : Out := eExec s .X (.vadd w) w.tok (planVadd w)

def wordVsub (w : EWord) : VWord := vElem w arithFmts .none ewSub true false false true
def planVsub (w : EWord) : EPlan := vPlan (.vsub w) w (wordVsub w)
def execVsub (w : EWord) (s : State) : Out := eExec s .X (.vsub w) w.tok (planVsub w)

def wordVmul (w : EWord) : VWord := vElem w arithFmts .none ewMul true false false true
def planVmul (w : EWord) : EPlan := vPlan (.vmul w) w (wordVmul w)
def execVmul (w : EWord) (s : State) : Out := eExec s .X (.vmul w) w.tok (planVmul w)

def wordVfma (w : EWord) : VWord := vElem w arithFmts .none ewFma true true false true
def planVfma (w : EWord) : EPlan := vPlan (.vfma w) w (wordVfma w)
def execVfma (w : EWord) (s : State) : Out := eExec s .X (.vfma w) w.tok (planVfma w)

def wordVmin (w : EWord) : VWord := vElem w arithFmts .none ewMin true false false false
def planVmin (w : EWord) : EPlan := vPlan (.vmin w) w (wordVmin w)
def execVmin (w : EWord) (s : State) : Out := eExec s .X (.vmin w) w.tok (planVmin w)

def wordVmax (w : EWord) : VWord := vElem w arithFmts .none ewMax true false false false
def planVmax (w : EWord) : EPlan := vPlan (.vmax w) w (wordVmax w)
def execVmax (w : EWord) (s : State) : Out := eExec s .X (.vmax w) w.tok (planVmax w)

def wordVabs (w : EWord) : VWord := vElem w arithFmts .none ewAbs false false false true
def planVabs (w : EWord) : EPlan := vPlan (.vabs w) w (wordVabs w)
def execVabs (w : EWord) (s : State) : Out := eExec s .X (.vabs w) w.tok (planVabs w)

def wordVneg (w : EWord) : VWord := vElem w arithFmts .none ewNeg false false false true
def planVneg (w : EWord) : EPlan := vPlan (.vneg w) w (wordVneg w)
def execVneg (w : EWord) (s : State) : Out := eExec s .X (.vneg w) w.tok (planVneg w)

def wordVand (w : EWord) : VWord := vElem w rawFmts .byte ewAnd true false true false
def planVand (w : EWord) : EPlan := vPlan (.vand w) w (wordVand w)
def execVand (w : EWord) (s : State) : Out := eExec s .X (.vand w) w.tok (planVand w)

def wordVor (w : EWord) : VWord := vElem w rawFmts .byte ewOr true false true false
def planVor (w : EWord) : EPlan := vPlan (.vor w) w (wordVor w)
def execVor (w : EWord) (s : State) : Out := eExec s .X (.vor w) w.tok (planVor w)

def wordVxor (w : EWord) : VWord := vElem w rawFmts .byte ewXor true false true false
def planVxor (w : EWord) : EPlan := vPlan (.vxor w) w (wordVxor w)
def execVxor (w : EWord) (s : State) : Out := eExec s .X (.vxor w) w.tok (planVxor w)

/-- Shifts: an immediate amount below the width (R165). -/
def vShift (w : EWord) (op : EwOp) : VWord :=
  ⟨(true, true, true), none, .one w [9, 11] .none, ewSrc true false, fun c =>
    if c.immB && (decide (c.b < 0) || decide ((c.f.width : Int) ≤ c.b)) then .trap 0x09 0 else .ok (ewOut op true false true c)⟩

def wordVshl (w : EWord) : VWord := vShift w ewShl
def planVshl (w : EWord) : EPlan := vPlan (.vshl w) w (wordVshl w)
def execVshl (w : EWord) (s : State) : Out := eExec s .X (.vshl w) w.tok (planVshl w)

def wordVshr (w : EWord) : VWord := vShift w (if w.func.getLsbD 2 then ewSar else ewShr)
def planVshr (w : EWord) : EPlan := vPlan (.vshr w) w (wordVshr w)
def execVshr (w : EWord) (s : State) : Out := eExec s .X (.vshr w) w.tok (planVshr w)

/-! ### VCMP and VSEL (R166, R167) -/

/-- The number of a mask operand. -/
def maskNo (o : Operand) : Nat := o.areg.toNat % 8

/-- A condition on two elements, with its flags. -/
def cmpElem (f : NFmt) (cond x y : Nat) : Bool × Fl :=
  if f.isInt then
    let a := sextNat f.width x
    let b := sextNat f.width y
    (match cond with
      | 0 => a == b | 1 => a != b | 2 => decide (a < b) | 3 => decide (a ≤ b) | 4 => false
      | _ => decide (x % 2 ^ f.width < y % 2 ^ f.width), 0)
  else
    let a := f.decode x
    let b := f.decode y
    let nan := a.isNan || b.isNan
    match cond with
    | 0 => (a.eqv b, sigNV a b)
    | 1 => (!a.eqv b, sigNV a b)
    | 2 => (a.lt b, flIf nan flNV)
    | 3 => (!nan && !b.lt a, flIf nan flNV)
    | _ => (nan, sigNV a b)

/-- Set a bit of a mask. -/
def setBit (m : BitVec 2048) (i : Nat) (v : Bool) : BitVec 2048 := if v then m ||| (1#2048 <<< i) else m &&& ~~~(1#2048 <<< i)

def wordVcmp (w : EWord) : VWord :=
  ⟨(false, true, true), none, .one w [0, 1, 2, 3, 4, 5, 9, 11] .none, ewSrc true false, fun c =>
    let cond := bits w.func.toNat 3 3
    if !c.late false true || (cond == 5 && !c.f.isInt) then .trap 0x09 0
    else
      let n := c.f.cont
      let r := c.sel.map (fun i => (i, cmpElem c.f cond (c.raw c.a n i) (c.bBits false i)))
      let m := r.foldl (fun m x => setBit m x.1 x.2.1) (c.j.maskReg (maskNo w.d))
      .ok { VOut.none.over c n ([(c.a, n)] ++ (if c.immB || c.w.func.getLsbD 1 then [] else [(c.b, n)])) with
        al := [(c.a, elAlign n)] ++ (if c.immB then [] else [(c.b, elAlign n)])
        rd := spansOf c.a n c.sel ++ spansOf c.b n (c.bUse c.sel)
        mask := some (maskNo w.d, m)
        fl := r.foldl (fun f x => f ||| x.2.2) 0 }⟩
def planVcmp (w : EWord) : EPlan := vPlan (.vcmp w) w (wordVcmp w)
def execVcmp (w : EWord) (s : State) : Out := eExec s .X (.vcmp w) w.tok (planVcmp w)

/-- The elements of B that VSEL takes. -/
def VCtx.unsel (c : VCtx) : List Nat := (List.range c.e).filter (fun i => !(c.j.maskReg c.w.mask.toNat).getLsbD i)

def wordVsel (w : EWord) : VWord :=
  ⟨(true, true, true), none, .one w rawFmts .byte, fun c f => spansOf c.a f.cont c.sel ++ spansOf c.b f.cont (c.bUse c.unsel), fun c =>
    let n := c.f.cont
    if !c.late false true then .trap 0x09 0
    else
      let m := c.j.maskReg w.mask.toNat
      .ok { VOut.none.over c n ([(c.d, n), (c.a, n)] ++ (if c.immB || c.w.func.getLsbD 1 then [] else [(c.b, n)])) with
        al := [(c.d, elAlign n), (c.a, elAlign n)] ++ (if c.immB then [] else [(c.b, elAlign n)])
        rd := spansOf c.a n c.sel ++ spansOf c.b n (c.bUse c.unsel)
        out := (List.range c.e).map (fun i => c.dst i (if m.getLsbD i then c.raw c.a n i else c.bBits true i)) }⟩
def planVsel (w : EWord) : EPlan := vPlan (.vsel w) w (wordVsel w)
def execVsel (w : EWord) (s : State) : Out := eExec s .X (.vsel w) w.tok (planVsel w)

/-! ### Conversions and block scales (R168 to R170) -/

/-- The source spans of a word that reads A in its source format. -/
def srcA (c : VCtx) (f : NFmt) : List (Int × Nat) := spansOf c.a f.cont c.sel

/-- Convert the selected elements, each times a scale value. -/
def convAll (c : VCtx) (sat : Bool) (scale : Nat → Option Num) : List VElem × Fl :=
  c.sel.foldl (fun (r : List VElem × Fl) i =>
    let x := c.num c.a c.sf i
    let p := match scale i with | some v => x.mul v | none => (x, 0)
    let e := c.f.encode sat c.rm p.1
    (r.1 ++ [c.dst i e.1], r.2 ||| e.2 ||| p.2)) ([], 0)

/-- A source whose scales come from its window (R66). -/
def VCtx.windowScaled (c : VCtx) : Bool := bits c.w.func.toNat 4 4 == 15 && c.sf.desc && c.sf.blk != 0 && !c.sel.isEmpty

/-- Results that take their scales from the window. [DEDUCED, unsafe: log entry 31] -/
def scaledAns (c : VCtx) (o : VOut) : VAns :=
  let at_ := c.sel.map (scaleAddr c.s c.j.core.win c.a c.sf)
  .scaled { o with out := c.sel.map (fun i => c.dst i 0) } at_ (fun vs =>
    convAll c c.bit0 (fun i => some (s16Value (((c.sel.zip vs).find? (fun p => p.1 == i)).map (·.2) |>.getD 0))))

/-- The footprint of a conversion. -/
def convOut (c : VCtx) : VOut :=
  { VOut.none.over c (Nat.max c.f.cont c.sf.cont) [(c.d, c.f.cont), (c.a, c.sf.cont)] with
    al := [(c.d, elAlign c.f.cont), (c.a, elAlign c.sf.cont)], rd := srcA c c.sf }

def wordVcvt (w : EWord) : VWord :=
  ⟨(true, true, false), none, .two w allFmts .any allFmts .any, srcA, fun c =>
    if c.windowScaled then scaledAns c (convOut c)
    else
      let r := convAll c c.bit0 (fun _ => none)
      .ok { convOut c with out := r.1, fl := r.2 }⟩
def planVcvt (w : EWord) : EPlan := vPlan (.vcvt w) w (wordVcvt w)
def execVcvt (w : EWord) (s : State) : Out := eExec s .X (.vcvt w) w.tok (planVcvt w)

/-- Elements of a block: func[9:8], else the descriptor's. -/
def blockSize (w : EWord) (f : NFmt) : Nat := match bits w.func.toNat 8 2 with | 1 => 16 | 2 => 32 | _ => f.blk

/-- The largest magnitude, NaN if any is. -/
def amaxOf (l : List Num) : Num :=
  l.foldl (fun m x => if m.isNan || x.isNan then .nan false else if m.lt x.abs then x.abs else m) (.fin false 0 1)

/-- An element divided by the scale `sv` of its block (R169). [DEDUCED, unsafe: log entry 29] -/
def quantElem (f : NFmt) (rm sv : Nat) (x : Num) : Nat × Fl :=
  let v := s16Value sv
  if v.isZero then
    if x.isZero then (f.signBit x.neg, 0)
    else if x.neg && !f.sign then (0, flSAT)
    else (f.maxBits x.neg, flSAT)
  else if v.isNan then f.encode true rm (.nan false)
  else
    let q := x.div v
    let e := f.encode true rm q.1
    (e.1, e.2 ||| q.2)

/-- The scale of a block and its flags. -/
def blockScale (f : NFmt) (rm : Nat) (l : List Num) : Nat × Fl :=
  let m := amaxOf l
  if m.isZero then (0x7F00, 0) else toS16 rm (m.div (f.decode (f.maxBits false))).1

def wordVqnt (w : EWord) : VWord :=
  ⟨(true, true, true), none, .two w [4, 5, 6, 7, 8] .floating [1, 2, 3] .none, srcA, fun c =>
    let bs := blockSize w c.f
    if bs = 0 then .trap 0x09 0
    else
      let js := (List.range ((c.e + bs - 1) / bs)).filter (fun b => c.sel.any (fun i => i / bs == b))
      let r := js.map (fun b =>
        let is := c.sel.filter (fun i => i / bs == b)
        let sv := blockScale c.f c.rm (is.map (c.num c.a c.sf))
        let es := is.map (fun i => (i, quantElem c.f c.rm sv.1 (c.num c.a c.sf i)))
        (VElem.mk c.b 16 b sv.1, es.map (fun x => c.dst x.1 x.2.1), es.foldl (fun f x => f ||| x.2.2) sv.2))
      .ok { (convOut c).also (js.map (fun b => (bs * b, elSpan c.b 16 b))) with
        al := [(c.d, elAlign c.f.cont), (c.a, elAlign c.sf.cont), (c.b, 2)]
        rd := srcA c c.sf
        out := (r.map (fun x => x.1 :: x.2.1)).flatten
        fl := r.foldl (fun f x => f ||| x.2.2) 0 }⟩
def planVqnt (w : EWord) : EPlan := vPlan (.vqnt w) w (wordVqnt w)
def execVqnt (w : EWord) (s : State) : Out := eExec s .X (.vqnt w) w.tok (planVqnt w)

def wordVdq (w : EWord) : VWord :=
  ⟨(true, true, true), none, .two w [1, 2, 3] .none [4, 5, 6, 7, 8] .floating, srcA, fun c =>
    let bs := blockSize w c.sf
    if bs = 0 then .trap 0x09 0
    else if c.immB then
      if c.windowScaled then scaledAns c (convOut c)
      else
        let r := convAll c c.bit0 (fun _ => none)
        .ok { convOut c with out := r.1, fl := r.2 }
    else
      let js := (List.range ((c.e + bs - 1) / bs)).filter (fun b => c.sel.any (fun i => i / bs == b))
      let r := convAll c c.bit0 (fun i => some (s16Value (c.raw c.b 16 (i / bs))))
      let o := (convOut c).also (js.map (fun b => (bs * b, elSpan c.b 16 b)))
      .ok { o with al := o.al ++ [(c.b, 2)], rd := o.rd ++ spansOf c.b 16 js, out := r.1, fl := r.2 }⟩
def planVdq (w : EWord) : EPlan := vPlan (.vdq w) w (wordVdq w)
def execVdq (w : EWord) (s : State) : Out := eExec s .X (.vdq w) w.tok (planVdq w)

/-! ### Functions (R171, R172) -/

/-- A function word. -/
def vFunc (w : EWord) (fn : VFn) : VWord :=
  ⟨(true, true, false), none, .one w [1, 2, 3] .none, srcA, fun c =>
    let r := c.sel.map (fun i => (i, roundTo c.f c.rm (fn.val (c.num c.a c.f i))))
    .ok { convOut { c with sf := c.f } with out := r.map (fun x => c.dst x.1 x.2.1), fl := r.foldl (fun f x => f ||| x.2.2) 0 }⟩

def wordVexp (w : EWord) : VWord := vFunc w (if w.func.getLsbD 0 then .exp2 else .exp)
def planVexp (w : EWord) : EPlan := vPlan (.vexp w) w (wordVexp w)
def execVexp (w : EWord) (s : State) : Out := eExec s .X (.vexp w) w.tok (planVexp w)

def wordVrcp (w : EWord) : VWord := vFunc w .rcp
def planVrcp (w : EWord) : EPlan := vPlan (.vrcp w) w (wordVrcp w)
def execVrcp (w : EWord) (s : State) : Out := eExec s .X (.vrcp w) w.tok (planVrcp w)

def wordVrsq (w : EWord) : VWord := vFunc w .rsq
def planVrsq (w : EWord) : EPlan := vPlan (.vrsq w) w (wordVrsq w)
def execVrsq (w : EWord) (s : State) : Out := eExec s .X (.vrsq w) w.tok (planVrsq w)

def wordVtanh (w : EWord) : VWord := vFunc w .tanh
def planVtanh (w : EWord) : EPlan := vPlan (.vtanh w) w (wordVtanh w)
def execVtanh (w : EWord) (s : State) : Out := eExec s .X (.vtanh w) w.tok (planVtanh w)

/-! ### Reductions and scans (R60, R61, R173, R174) -/

/-- One combination of two elements. -/
abbrev Comb := Nat → Nat → Nat × Fl

/-- An addition rounded to the format; INT32 wraps and sets OF. -/
def addComb (f : NFmt) (rm : Nat) : Comb := fun x y =>
  if f.isInt then addWrapOF f.width (sextNat f.width x) (sextNat f.width y)
  else roundTo f rm ((f.decode x).add rm (f.decode y))

/-- One level of the pairwise tree. -/
def treeLevel (g : Comb) : List Nat → List Nat × Fl
  | a :: b :: r => let v := g a b; let t := treeLevel g r; (v.1 :: t.1, v.2 ||| t.2)
  | l => (l, 0)

/-- The pairwise tree; `n` levels suffice for 2^n elements. -/
def tree (g : Comb) : Nat → List Nat → Option Nat × Fl
  | 0, l => (l.head?, 0)
  | n + 1, l => if l.length ≤ 1 then (l.head?, 0) else let t := treeLevel g l; let r := tree g n t.1; (r.1, t.2 ||| r.2)

/-- The lowest and highest values of a format: infinities, or the signed limits. -/
def NFmt.bottom (f : NFmt) : Nat := if f.isInt then wrapBits f.width (sLo f.width) else f.infBits true
def NFmt.top (f : NFmt) : Nat := if f.isInt then wrapBits f.width (sHi f.width) else f.infBits false

/-- [DEDUCED, unsafe: log entry 31] -/
def wordVred (w : EWord) : VWord :=
  ⟨(true, true, false), none, .one w [0, 1, 2, 3, 11] .none, srcA, fun c =>
    let op := bits w.func.toNat 0 2
    if !c.late false false then .trap 0x09 0
    else
      let n := c.f.cont
      let g : Comb := match op with | 0 => addComb c.f c.rm | 1 => pick true c.f | _ => pick false c.f
      let r := tree g 12 (c.sel.map (c.raw c.a n))
      let v := r.1.getD (match op with | 0 => 0 | 1 => c.f.bottom | _ => c.f.top)
      .ok { convOut { c with sf := c.f } with out := [c.dst 0 v], fl := r.2, beats := ⟨c.e, 128, n, [(c.a, n)], [(c.e - 1, elSpan c.d n 0)]⟩ }⟩
def planVred (w : EWord) : EPlan := vPlan (.vred w) w (wordVred w)
def execVred (w : EWord) (s : State) : Out := eExec s .X (.vred w) w.tok (planVred w)

/-- Running sums. -/
def scanGo (g : Comb) : Nat → List (Nat × Nat) → List (Nat × Nat × Fl)
  | _, [] => []
  | acc, (i, x) :: r => let v := g acc x; (i, v.1, v.2) :: scanGo g v.1 r

/-- The first element passes; later ones are added. -/
def scanAll (g : Comb) : List (Nat × Nat) → List (Nat × Nat × Fl)
  | [] => []
  | (i, x) :: r => (i, x, 0) :: scanGo g x r

/-- [DEDUCED, unsafe: log entry 31] -/
def wordVscan (w : EWord) : VWord :=
  ⟨(true, true, false), none, .one w [0, 1, 2, 3, 11] .none, srcA, fun c =>
    if !c.late false false then .trap 0x09 0
    else
      let r := scanAll (addComb c.f c.rm) (c.sel.map (fun i => (i, c.raw c.a c.f.cont i)))
      .ok { convOut { c with sf := c.f } with out := r.map (fun x => c.dst x.1 x.2.1), fl := r.foldl (fun f x => f ||| x.2.2) 0 }⟩
def planVscan (w : EWord) : EPlan := vPlan (.vscan w) w (wordVscan w)
def execVscan (w : EWord) (s : State) : Out := eExec s .X (.vscan w) w.tok (planVscan w)

/-! ### Rows and columns (R175 to R179) -/

/-- nrow. -/
def VCtx.nrow (c : VCtx) : Nat := c.e / c.ncol
/-- Selected elements inside the matrix. -/
def VCtx.selM (c : VCtx) : List Nat := c.sel.filter (fun i => decide (i < c.nrow * c.ncol))
/-- The bytes read of the matrix. -/
def srcM (c : VCtx) (f : NFmt) : List (Int × Nat) := spansOf c.a f.cont c.selM

/-- The maximum of one element: a NaN becomes canonical, a signalling one sets NV (R43, R164). -/
def loneMax (f : NFmt) (x : Nat) : Nat × Fl :=
  let v := f.decode x
  if !f.isInt && v.isNan then (f.canonNan, flIf v.isSig flNV) else (x, 0)

/-- [DEDUCED, unsafe: log entry 30] -/
def wordVgmax (w : EWord) : VWord :=
  ⟨(true, true, false), none, .one w [1, 2, 3, 9, 11] .none, srcM, fun c =>
    let n := c.f.cont
    let g := c.high
    let ng := (c.ncol + g - 1) / g
    let sel := c.selM
    let r := (List.range (c.nrow * ng)).map (fun o =>
      let row := o / ng
      let lo := o % ng * g
      let is := sel.filter (fun i => i / c.ncol == row && decide (lo ≤ i % c.ncol) && decide (i % c.ncol < lo + g))
      let x := is.foldl (fun (a : Option Nat × Fl) i =>
        match a.1 with
        | none => let q := loneMax c.f (c.raw c.a n i); (some q.1, a.2 ||| q.2)
        | some v => let p := pick true c.f v (c.raw c.a n i); (some p.1, a.2 ||| p.2)) (none, 0)
      (c.dst o (x.1.getD c.f.bottom), x.2))
    .ok { (VOut.none.over c n [(c.a, n)]).also ((List.range (c.nrow * ng)).map (fun o =>
        (o / ng * c.ncol + Nat.min c.ncol (o % ng * g + g) - 1, elSpan c.d n o))) with
      al := [(c.d, elAlign n), (c.a, elAlign n)]
      rd := srcM c c.f
      out := r.map (fun x => x.1)
      fl := r.foldl (fun f x => f ||| x.2) 0 }⟩
def planVgmax (w : EWord) : EPlan := vPlan (.vgmax w) w (wordVgmax w)
def execVgmax (w : EWord) (s : State) : Out := eExec s .X (.vgmax w) w.tok (planVgmax w)

/-- The ranking of R177: whether candidate `x` stands before `y`; ties keep their order. -/
def topBefore (f : NFmt) (x y : Nat) : Bool :=
  if f.isInt then decide (sextNat f.width y ≤ sextNat f.width x)
  else
    let a := f.decode x
    let b := f.decode y
    b.isNan || (!a.isNan && !a.lt b)

/-- What fills a slot without a candidate. -/
def NFmt.noValue (f : NFmt) : Nat := if f.isInt then f.bottom else f.canonNan

/-- [DEDUCED, unsafe: log entry 30] -/
def wordVtopk (w : EWord) : VWord :=
  ⟨(true, true, true), none, .one w [1, 2, 3, 9, 11] .none, srcM, fun c =>
    let n := c.f.cont
    let k := c.high
    let sel := c.selM
    let cols := if c.nrow = 0 then [] else List.range c.ncol
    let r := (cols.map (fun col =>
      let cand := (sel.filter (fun i => i % c.ncol == col)).map (fun i => (i / c.ncol, c.raw c.a n i))
      let ord := sortBy (fun x y => topBefore c.f x.2 y.2) cand
      (List.range k).map (fun slot => (slot * c.ncol + col, ord.getD slot (0xFFFFFFFF, c.f.noValue))))).flatten
    .ok { VOut.none.half c (Nat.max n 32) [(c.a, n)]
          (r.map (fun x => (x.1, elSpan c.d 32 x.1)) ++ (if c.immB then [] else r.map (fun x => (x.1, elSpan c.b n x.1)))) with
      al := [(c.d, 4), (c.a, elAlign n)] ++ (if c.immB then [] else [(c.b, elAlign n)])
      rd := srcM c c.f
      out := r.map (fun x => ⟨c.d, 32, x.1, x.2.1⟩) ++ (if c.immB then [] else r.map (fun x => ⟨c.b, n, x.1, x.2.2⟩)) }⟩
def planVtopk (w : EWord) : EPlan := vPlan (.vtopk w) w (wordVtopk w)
def execVtopk (w : EWord) (s : State) : Out := eExec s .X (.vtopk w) w.tok (planVtopk w)

/-- One row of VNORM. -/
def normRow (c : VCtx) (is : List Nat) : List (VElem × Fl) :=
  let n := c.f.cont
  let t := tree (addComb c.f c.rm) 12 (is.map (c.raw c.a n))
  let sum := c.f.decode (t.1.getD 0)
  is.map (fun i =>
    if sum.isZero then
      let e := c.f.encode false c.rm (.fin false 1 is.length)
      (c.dst i e.1, e.2 ||| flZE ||| t.2)
    else
      let e := roundTo c.f c.rm ((c.num c.a c.f i).div sum)
      (c.dst i e.1, e.2 ||| t.2))

def wordVnorm (w : EWord) : VWord :=
  ⟨(true, true, false), none, .one w [1, 2, 3] .none, srcM, fun c =>
    let n := c.f.cont
    let sel := c.selM
    let r := ((List.range c.nrow).map (fun row => normRow c (sel.filter (fun i => i / c.ncol == row)))).flatten
    .ok { VOut.none.half c n [(c.d, n), (c.a, n)] [] with
      al := [(c.d, elAlign n), (c.a, elAlign n)]
      rd := srcM c c.f
      out := r.map (fun x => x.1)
      fl := r.foldl (fun f x => f ||| x.2) 0 }⟩
def planVnorm (w : EWord) : EPlan := vPlan (.vnorm w) w (wordVnorm w)
def execVnorm (w : EWord) (s : State) : Out := eExec s .X (.vnorm w) w.tok (planVnorm w)

/-- Every element of the matrix. -/
def srcAll (c : VCtx) (f : NFmt) : List (Int × Nat) := spansOf c.a f.cont (List.range (c.nrow * c.ncol))

def wordVtran (w : EWord) : VWord :=
  ⟨(true, true, false), none, .one w rawFmts .byte, srcAll, fun c =>
    let n := c.f.cont
    .ok { VOut.none.half c n [(c.d, n), (c.a, n)] [] with
      al := [(c.d, elAlign n), (c.a, elAlign n)]
      rd := srcAll c c.f
      out := (List.range (c.nrow * c.ncol)).map (fun i => c.dst (i % c.ncol * c.nrow + i / c.ncol) (c.raw c.a n i)) }⟩
def planVtran (w : EWord) : EPlan := vPlan (.vtran w) w (wordVtran w)
def execVtran (w : EWord) (s : State) : Out := eExec s .X (.vtran w) w.tok (planVtran w)

/-! ### Data movement (R180, R181) -/

/-- The element's bits are unchanged; container bits above the width are written as zero (R41). -/
def wordVcopy (w : EWord) : VWord :=
  ⟨(true, true, false), none, .one w allFmts .any, srcA, fun c =>
    .ok { convOut { c with sf := c.f } with out := c.sel.map (fun i => c.dst i (c.raw c.a c.f.cont i)) }⟩
def planVcopy (w : EWord) : EPlan := vPlan (.vcopy w) w (wordVcopy w)
def execVcopy (w : EWord) (s : State) : Out := eExec s .X (.vcopy w) w.tok (planVcopy w)

/-- A is an immediate. -/
def VCtx.immA (c : VCtx) : Bool := c.w.a.mode == 3
/-- Element 0 of A, when it is an address and something is selected. -/
def srcFill (c : VCtx) (f : NFmt) : List (Int × Nat) := if c.immA || c.sel.isEmpty then [] else spansOf c.a f.cont [0]

def wordVfill (w : EWord) : VWord :=
  ⟨(true, true, false), none, .one w allFmts .any, srcFill, fun c =>
    let n := c.f.cont
    if c.immA && decide (12 ≤ w.fmt.toNat) then .trap 0x09 0
    else
      let v := if c.immA then immBits c.f c.a else c.raw c.a n 0
      .ok { VOut.none.over c n [(c.d, n)] with
        al := [(c.d, elAlign n)] ++ (if c.immA then [] else [(c.a, elAlign n)])
        rd := srcFill c c.f
        out := c.sel.map (fun i => c.dst i v) }⟩
def planVfill (w : EWord) : EPlan := vPlan (.vfill w) w (wordVfill w)
def execVfill (w : EWord) (s : State) : Out := eExec s .X (.vfill w) w.tok (planVfill w)

/-- The sum start + i × st as a value: an exact zero is −0 under RDN (R52). -/
def iotaNum (rm : Nat) (x : Int) : Num := if x = 0 then .fin (rm == 3) 0 1 else .ofInt x

/-- SAT does nothing to a floating format. [DEDUCED, unsafe: log entry 27; DEDUCED, unsafe: log entry 116] -/
def wordViota (w : EWord) : VWord :=
  ⟨(true, true, true), none, .one w [1, 2, 3, 9, 11] .none, fun _ _ => [], fun c =>
    if !c.late false false || w.fmt == 15 then .trap 0x09 0
    else
      let r := c.sel.map (fun (i : Nat) =>
        let x := c.a + (i : Int) * c.b
        (i, if c.f.isInt then intResult c.f.width c.bit0 x else c.f.encode false c.rm (iotaNum c.rm x)))
      .ok { VOut.none.over c c.f.cont [(c.d, c.f.cont)] with
        al := [(c.d, elAlign c.f.cont)]
        out := r.map (fun x => c.dst x.1 x.2.1)
        fl := r.foldl (fun f x => f ||| x.2.2) 0 }⟩
def planViota (w : EWord) : EPlan := vPlan (.viota w) w (wordViota w)
def execViota (w : EWord) (s : State) : Out := eExec s .X (.viota w) w.tok (planViota w)

/-- The signed index of element `i`. -/
def VCtx.index (c : VCtx) (i : Nat) : Int := sextNat 32 (c.raw c.b 32 i)
/-- The span of table element `idx`. -/
def tableSpan (base : Int) (f : NFmt) (idx : Int) : Int × Nat := (base + idx * (f.bytes : Int), f.bytes)
/-- The table bytes VGATH reads. -/
def srcTable (c : VCtx) (f : NFmt) : List (Int × Nat) := c.sel.map (fun i => tableSpan c.a f (c.index i))

def wordVgath (w : EWord) : VWord :=
  ⟨(true, true, true), none, .one w rawFmts .byte, srcTable, fun c =>
    let n := c.f.cont
    .ok { VOut.none.half c (Nat.max n 32) [(c.d, n), (c.b, 32)] (c.sel.zip (srcTable c c.f)) with
      al := [(c.d, elAlign n), (c.a, elAlign n), (c.b, 4)]
      rd := spansOf c.b 32 c.sel ++ srcTable c c.f
      out := c.sel.map (fun i => c.dst i (bitsAt c.seen (tableSpan c.a c.f (c.index i)).1 0 n)) }⟩
def planVgath (w : EWord) : EPlan := vPlan (.vgath w) w (wordVgath w)
def execVgath (w : EWord) (s : State) : Out := eExec s .X (.vgath w) w.tok (planVgath w)

def wordVscat (w : EWord) : VWord :=
  ⟨(true, true, true), none, .one w rawFmts .byte, srcA, fun c =>
    let n := c.f.cont
    .ok { VOut.none.half c (Nat.max n 32) [(c.a, n), (c.b, 32)] (c.sel.map (fun i => (i, tableSpan c.d c.f (c.index i)))) with
      al := [(c.d, elAlign n), (c.a, elAlign n), (c.b, 4)]
      rd := spansOf c.b 32 c.sel ++ srcA c c.f
      out := c.sel.map (fun i => ⟨(tableSpan c.d c.f (c.index i)).1, n, 0, c.raw c.a n i % 2 ^ c.f.width⟩) }⟩
def planVscat (w : EWord) : EPlan := vPlan (.vscat w) w (wordVscat w)
def execVscat (w : EWord) (s : State) : Out := eExec s .X (.vscat w) w.tok (planVscat w)

/-! ### Mask logic (R182) -/

/-- Bits 0 to E − 1 of a mask from `v`, the rest kept. -/
def maskMerge (old v : BitVec 2048) (e : Nat) : BitVec 2048 :=
  let m := BitVec.ofNat 2048 (2 ^ e - 1)
  (old &&& ~~~m) ||| (v &&& m)

/-- A mask word that computes a mask. -/
def vMask (w : EWord) (use : Bool × Bool × Bool) (f : VCtx → BitVec 2048 × List (Int × Nat)) : VWord :=
  ⟨use, none, .no, fun _ _ => [], fun c =>
    let r := f c
    .ok { VOut.none with rd := r.2, beats := ⟨(c.e + 7) / 8, 128, 8, r.2.map (fun x => (x.1, 8)), []⟩, mask := some (maskNo w.d, maskMerge (c.j.maskReg (maskNo w.d)) r.1 c.e) }⟩

/-- A logic word on two masks. -/
def vMask2 (w : EWord) (g : BitVec 2048 → BitVec 2048 → BitVec 2048) : VWord :=
  vMask w (false, false, false) (fun c => (g (c.j.maskReg (maskNo w.a)) (c.j.maskReg (maskNo w.b)), []))

def wordVmskAnd (w : EWord) : VWord := vMask2 w (fun a b => a &&& b)
def planVmskAnd (w : EWord) : EPlan := vPlan (.vmskAnd w) w (wordVmskAnd w)
def execVmskAnd (w : EWord) (s : State) : Out := eExec s .X (.vmskAnd w) w.tok (planVmskAnd w)

def wordVmskOr (w : EWord) : VWord := vMask2 w (fun a b => a ||| b)
def planVmskOr (w : EWord) : EPlan := vPlan (.vmskOr w) w (wordVmskOr w)
def execVmskOr (w : EWord) (s : State) : Out := eExec s .X (.vmskOr w) w.tok (planVmskOr w)

def wordVmskXor (w : EWord) : VWord := vMask2 w (fun a b => a ^^^ b)
def planVmskXor (w : EWord) : EPlan := vPlan (.vmskXor w) w (wordVmskXor w)
def execVmskXor (w : EWord) (s : State) : Out := eExec s .X (.vmskXor w) w.tok (planVmskXor w)

def wordVmskAndn (w : EWord) : VWord := vMask2 w (fun a b => a &&& ~~~b)
def planVmskAndn (w : EWord) : EPlan := vPlan (.vmskAndn w) w (wordVmskAndn w)
def execVmskAndn (w : EWord) (s : State) : Out := eExec s .X (.vmskAndn w) w.tok (planVmskAndn w)

def wordVmskNot (w : EWord) : VWord := vMask2 w (fun a _ => ~~~a)
def planVmskNot (w : EWord) : EPlan := vPlan (.vmskNot w) w (wordVmskNot w)
def execVmskNot (w : EWord) (s : State) : Out := eExec s .X (.vmskNot w) w.tok (planVmskNot w)

def wordVmskFirst (w : EWord) : VWord := vMask w (false, false, true) (fun c => (BitVec.ofNat 2048 (2 ^ Nat.min 2048 (addrWord c.b) - 1), []))
def planVmskFirst (w : EWord) : EPlan := vPlan (.vmskFirst w) w (wordVmskFirst w)
def execVmskFirst (w : EWord) (s : State) : Out := eExec s .X (.vmskFirst w) w.tok (planVmskFirst w)

def wordVmskLd (w : EWord) : VWord :=
  vMask w (false, true, false) (fun c =>
    (BitVec.ofNat 2048 (leNat ((List.range ((c.e + 7) / 8)).map (fun i => c.seen (c.a.toNat + i)))), [(c.a, (c.e + 7) / 8)]))
def planVmskLd (w : EWord) : EPlan := vPlan (.vmskLd w) w (wordVmskLd w)
def execVmskLd (w : EWord) (s : State) : Out := eExec s .X (.vmskLd w) w.tok (planVmskLd w)

def wordVmskSt (w : EWord) : VWord :=
  ⟨(true, false, false), none, .no, fun _ _ => [], fun c =>
    let v := (c.j.maskReg (maskNo w.a)).toNat % 2 ^ c.e
    .ok { VOut.none with beats := ⟨(c.e + 7) / 8, 128, 8, [(c.d, 8)], []⟩, out := (List.range ((c.e + 7) / 8)).map (fun i => ⟨c.d, 8, i, bits v (8 * i) 8⟩) }⟩
def planVmskSt (w : EWord) : EPlan := vPlan (.vmskSt w) w (wordVmskSt w)
def execVmskSt (w : EWord) (s : State) : Out := eExec s .X (.vmskSt w) w.tok (planVmskSt w)

def wordVmskCount (w : EWord) : VWord :=
  ⟨(false, false, false), some 12, .no, fun _ _ => [], fun c =>
    .ok { VOut.none with push := [BitVec.ofNat 64 (2 * 2 ^ 60 + (selOf (c.j.maskReg (maskNo w.a)) c.e).length)] }⟩
def planVmskCount (w : EWord) : EPlan := vPlan (.vmskCount w) w (wordVmskCount w)
def execVmskCount (w : EWord) (s : State) : Out := eExec s .X (.vmskCount w) w.tok (planVmskCount w)

/-! ### VSHAPE (R158, R159) -/

/-- The grant a request for `req` elements gets. -/
def shapeGrant (c : BitVec 4) (f : NFmt) (req : Nat) : Option VGrant :=
  if req = 0 then none else some ⟨Nat.min req (Nat.min 2048 (65536 / f.cont)), c⟩

/-- The q12 entry of a grant. -/
def grantEntry (g : Option VGrant) : Word :=
  BitVec.ofNat 64 (2 ^ 60 + (match g with | some g => g.fmt.toNat * 2 ^ 12 + g.count | none => 0))

def planVshape (w : EWord) : EPlan :=
  let q := w.func.getLsbD 0
  EPlan.mk ⟨[opB w.a], [w.fmt], if q then some 12 else none, noExtra⟩ false false (fun s _ j vals =>
    match codeFmt j w.fmt.toNat with
    | none => .trap 0x09 0
    | some f =>
      let g := shapeGrant w.fmt f (vals.headD 0).toNat
      .fly s { Effect.none with vs := some g, push := if q then [grantEntry g] else [] })
def execVshape (w : EWord) (s : State) : Out := eExec s .X (.vshape w) w.tok (planVshape w)

/-! ### Retirement (R156, R157) -/

/-- The oldest word of X in flight retires: what it lands, its q12 entries, tokens, SEQX, its trace record. -/
def retireXWord (s : State) (k : Nat) : State :=
  match jobAt s k with
  | none => s
  | some j =>
    match j.core.X.inflight with
    | [] => s
    | i :: _ =>
      let s := dropFrames s (jCluster k) i.eff.dropFrames
      let s := if bankMatrix i.word then bankShare s (jCluster k) (4 * (jCore k % 4) + 3) else s
      let j := fenceNote (j.retireX s.fresh i) .X
      setJob (traceWord s k j .X i.pc i.seq) k j

/-- The oldest word of X is a vector word. -/
def vectorHead (j : Job) : Bool :=
  match j.core.X.inflight with
  | [] => false
  | i :: _ => isVector i.word

/-- VECTOR_WORD_RETIRE. -/
def execVectorWordRetire (k : Nat) (s : State) : Out :=
  match jobAt s k with
  | none => .next s
  | some j => .next (if j.phase = .running ∧ vectorHead j = true then retireXWord s k else s)

end Sys2Proof.Machine
end

