-- ==== Sys2Proof/Machine/Frames.lean ====
section
/-!
DEFINITION. The weight frames of a cluster (R184 to R187, R199, R203 to R216): keys, lookups and fills, victims, pins, replicas, leases,
and the events of the matrix complex. Frame `8 * array + n` of a cluster is one number below 128.
-/
namespace Sys2Proof.Machine

/-! ### Keys (R184) -/

/-- Bytes of the scale plane of a weight format (R49, R184). -/
def scaleLen (f : NFmt) : Nat := if !f.isFloat then 0 else match f.cont with | 8 => 384 | 6 => 512 | 4 => 768 | _ => 0

/-- The frames of a cluster that hold, or will hold, a key; doomed frames are no longer found. -/
def keyFrames (c : Cluster) (f page len : Nat) : List (Nat × Frame) :=
  c.frames.filter (fun e => e.2.fdom == f && e.2.page == page && e.2.len == len && !e.2.doomed)

/-- The frames of an address, of every key. -/
def addrFrames (c : Cluster) (f page : Nat) : List (Nat × Frame) :=
  c.frames.filter (fun e => e.2.fdom == f && e.2.page == page && !e.2.doomed)

/-- The frame is neither being filled nor copied. -/
def Frame.filled (f : Frame) : Bool := !f.filling && !f.copying

/-- The scale lengths of the keys of an address. -/
def addrLens (c : Cluster) (f page : Nat) : List Nat := ((addrFrames c f page).map (fun e => e.2.len)).eraseDups

/-- Pinned frames of the cluster. -/
def pinCount (c : Cluster) : Nat := (c.frames.filter (fun e => e.2.pinned)).length

/-- The oldest frame of a list. -/
def oldest : List (Nat × Frame) → Option (Nat × Frame)
  | [] => none
  | a :: r => match oldest r with | some b => if b.2.born < a.2.born then some b else some a | none => some a

/-! ### Leases (R213 to R215) -/

/-- The live lease of a cluster. -/
def liveLease (c : Cluster) : Option Lease := match c.lease with | some l => if 0 < l.budget then some l else none | none => none

/-- The frame is protected by a lease of another job than `k`; `k = none` asks for any job's. -/
def leased (c : Cluster) (k : Option Nat) (fr : Nat) : Bool :=
  match liveLease c with
  | some l => some l.job != k && l.named.contains fr
  | none => false

/-- A frame the lease holder's word names is protected; of 65 the least recently named loses its protection (R215, R251). -/
def leaseName (c : Cluster) (k fr : Nat) : Cluster :=
  match liveLease c with
  | some l =>
    let n := l.named.filter (· != fr) ++ [fr]
    if l.job = k then { c with lease := some { l with named := n.drop (n.length - 64) } } else c
  | none => c

/-- A counted word of the holder takes one from the budget. -/
def leaseSpend (s : State) (k : Nat) : State :=
  let c := clusterSt s (jCluster k)
  match liveLease c with
  | some l => if l.job = k then setCluster s (jCluster k) { c with lease := some { l with budget := l.budget - 1 } } else s
  | none => s

/-! ### Arrays and victims (R210, R211, R249, R250) -/

/-- The frames on which words of the cluster's jobs run. -/
def runningOn (s : State) (cl : Nat) : List Nat :=
  ((s.jobs.filter (fun e => jCluster e.1 == cl)).map (fun e => e.2.core.X.inflight.filterMap (fun i => i.eff.runs))).flatten

/-- The array of a frame runs no word; an array runs one word at a time, whichever of its frames the word uses (R250). -/
def arrayIdle (run : List Nat) (fr : Nat) : Bool := !run.any (fun x => x / 8 == fr / 8)

/-- Being filled or copied, the source of a copy, or with a word that runs on it or waits for it (R210). -/
def frameBusy (c : Cluster) (run : List Nat) (fr : Nat) (f : Frame) : Bool :=
  !f.filled || run.contains fr || c.waitKey.any (fun w => w.2 == fr) || c.frames.any (fun e => e.2.copying && e.2.src == f.born)

/-- A frame may be chosen: an empty one, or one not busy, not pinned and not leased by another job. -/
def mayEvict (c : Cluster) (run : List Nat) (k : Option Nat) (fr : Nat) : Bool :=
  match smGet c.frames fr with
  | none => !run.contains fr
  | some f => !frameBusy c run fr f && !f.pinned && !leased c k fr

/-- The victim among the frames of some arrays: an empty one of the array with the fewest filled frames
first, else the least recently used (R249). -/
def victim (c : Cluster) (run : List Nat) (k : Option Nat) (array : Nat → Bool) : Option Nat :=
  let cand := (List.range 128).filter (fun fr => array (fr / 8) && mayEvict c run k fr)
  let full := fun (fr : Nat) => (c.frames.filter (fun e => e.1 / 8 == fr / 8)).length
  let best := (cand.filter (fun fr => (smGet c.frames fr).isNone)).foldl (fun (b : Option Nat) fr =>
    match b with
    | none => some fr
    | some x => if full fr < full x then some fr else b) none
  match best with
  | some fr => some fr
  | none =>
    cand.foldl (fun (b : Option Nat) fr =>
      match b with
      | none => some fr
      | some x => if (((smGet c.frames fr).map (·.used)).getD 0) < (((smGet c.frames x).map (·.used)).getD 0) then some fr else b) none

/-! ### The arbiter (R208, R216) -/

/-- The copy of a key a lookup takes: a filled one in an idle array, else a filled one, else one being filled or copied. -/
def bestFrame (c : Cluster) (run : List Nat) (f page len : Nat) : Option Nat :=
  let fs := keyFrames c f page len
  match fs.find? (fun e => e.2.filled && arrayIdle run e.1) with
  | some e => some e.1
  | none => match fs.find? (fun e => e.2.filled) with
    | some e => some e.1
    | none => (fs.head?).map (·.1)

/-- The word of job `j` has looked up, a filled copy of its key stands in an idle array (where it runs on one), and nothing of its own stream holds it back. -/
def tileReady (s : State) (c : Cluster) (run : List Nat) (j : Job) : Bool :=
  match j.lookup with
  | some (.tile page len array accs slots) =>
    j.phase == .running && j.core.lease.isNone && !traceStall s j .X && !j.xPending accs slots &&
      (keyFrames c j.fdom page len).any (fun e => e.2.filled && (!array || arrayIdle run e.1))
  | _ => false

/-- How far job slot `k` stands from its turn: cores in turn after the core granted last, the jobs of a core in slot order after the one granted
last. -/
def turnDist (c : Cluster) (k : Nat) : Nat :=
  (jCore k % 4 + 7 - c.arb % 4) % 4 * 4 + (jSlot k + 7 - smGetD c.arbSlot (jCore k % 4) 3) % 4

/-- The complex grants job `k` a ready word: the lease holder first, then the others in turn (R216). -/
def granted (s : State) (k : Nat) : Bool :=
  let cl := jCluster k
  let c := clusterSt s cl
  let run := runningOn s cl
  let holds := fun (x : Nat) => ((liveLease c).map (fun l => l.job)) == some x
  holds k || (s.jobs.filter (fun e => jCluster e.1 == cl && e.1 != k && tileReady s c run e.2)).all (fun e =>
    !holds e.1 && decide (turnDist c k < turnDist c e.1))

/-- The grant is noted. -/
def noteGrant (c : Cluster) (k : Nat) : Cluster := { c with arb := jCore k % 4, arbSlot := smSet c.arbSlot (jCore k % 4) (jSlot k) }

/-! ### Fills (R185, R186, R190 check 7) -/

/-- The lines of a tile image at `pa`. -/
def tileLines (pa len : Nat) : List Nat := linesOf pa (3072 + len)

/-- The tag that lines share, else untagged (R65). [DEDUCED, unsafe: log entry 57] -/
def sharedTag (s : State) (lines : List Nat) : Nat :=
  match lines with
  | [] => 0
  | l :: r => if r.all (fun x => tagOf s x == tagOf s l) then tagOf s l else 0

/-- The answer of a lookup. -/
inductive LkRes
  /-- The word has a filled frame. -/
  | have_ (s : State) (fr : Nat)
  /-- The word has looked up and waits; the job may have changed. -/
  | wait (s : State)
  /-- Nothing has happened: a line is held back. -/
  | stall
  | trap (s : State) (code v : Nat)

/-- The checks of a fill at `ea`: where it reads. -/
def fillCheck (s : State) (j : Job) (ea len : Nat) : Except (Option (Nat × Nat)) Nat :=
  match streamXlate s j .X ea .read false with
  | .fail c => .error (some (c, ea))
  | .frozen => .error none
  | .ok pa =>
    match firstPoison s pa (3072 + len) with
    | some ln => .error (some (0x0C, ea + (64 * ln - pa)))
    | none => .ok pa

/-- The bytes of a tile, line by line, each read once (R186). [DESIGN CHOICE, unsafe: log entry 58] -/
def tileRead (s : State) (w : Who) : List Nat → Option (State × List Byte)
  | [] => some (s, [])
  | ln :: r =>
    let p := memReady s w 3 (64 * ln)
    if !p.2 then none
    else
      let x := memLoad p.1 w 3 (64 * ln) 64 false
      (tileRead x.1 w r).map (fun t => (t.1, x.2 ++ t.2))

/-- Start a fill of key (domain, page, len) for job `k`: the frame waits for FRAME_FILL_COMPLETE. [DESIGN CHOICE, unsafe: log entry 58] -/
def startFill (s : State) (k : Nat) (j : Job) (ea len : Nat) (pin : Bool) : LkRes :=
  let cl := jCluster k
  let place : Except (Option (Nat × Nat)) (Option Nat) := match fillCheck s j ea len with | .error t => if j.replay.isSome then .ok none else .error t | .ok pa => .ok (some pa)
  match place with
  | .error (some t) => .trap s t.1 t.2
  | .error none => .wait (modJob s k (fun j => j.stallNote s .X))
  | .ok at_ =>
    match victim (clusterSt s cl) (runningOn s cl) (some k) (fun _ => true) with
    | none => .wait s
    | some fr =>
      let got := match at_ with
        | some pa => tileRead (noteTlb s j.fdom ea) ⟨k, 3, j.core.X.seq + 1⟩ (tileLines pa len)
        | none => some (s, natLe (3072 + len) 0)
      match got with
      | none => .stall
      | some (s, bytes) =>
        let t := takeBytes s k .X ea (bytes.take (3072 + len))
        let s := t.1
        let bytes := t.2
        let pa := at_.getD 0
        let c := clusterSt s cl
        let f : Frame :=
          { fdom := j.fdom, page := ea / 4096, len := len, data := memWriteBytes [] 0 bytes, tag := sharedTag s (linesOf pa 3072),
            born := c.clock, used := c.clock, pinned := false, filling := true, copying := false, src := 0, doomed := false, wantPin := pin, bad := [] }
        let c := eraseFrames c (fun x _ => x == fr)
        let c := { c with frames := smSet c.frames fr f, clock := c.clock + 1, waitKey := c.waitKey.filter (fun w => w.1 != k) ++ [(k, fr)] }
        let s := setCluster s cl (leaseName c k fr)
        .wait (modJob s k (fun j => j.stallEnd .X))

/-- Count a lookup (R209). -/
def countLookup (s : State) (cl : Nat) (counted hit : Bool) : State :=
  let c := clusterSt s cl
  if !counted then s else setCluster s cl (if hit then { c with hit := c.hit + 1 } else { c with miss := c.miss + 1 })

/-- A lookup of the key (domain, `lk`'s page and length) for the word at the head of X (R185): the first one counts and moves the frame to the young end
of the LRU order (R209, R211). The word has its frame when a filled copy stands in an idle array, no earlier word of X still writes what it
reads (R191), and the arbiter grants it (R216). -/
def lookup (s : State) (k : Nat) (j : Job) (ea len : Nat) (counted pin array : Bool) (accs slots : List Nat) : LkRes :=
  let cl := jCluster k
  let c := clusterSt s cl
  let run := runningOn s cl
  let fresh := j.lookup.isNone
  let mark := fun (s : State) => modJob s k (fun j => { j with lookup := some (.tile (ea / 4096) len array accs slots) })
  match bestFrame c run j.fdom (ea / 4096) len with
  | some fr =>
    let s := if fresh then countLookup s cl counted true else s
    let c := clusterSt s cl
    let c := { c with frames := match smGet c.frames fr with | some f => if fresh then smSet c.frames fr { f with used := c.clock } else c.frames | none => c.frames,
                      clock := c.clock + 1, waitKey := c.waitKey.filter (fun w => w.1 != k) ++ [(k, fr)] }
    let s := mark (setCluster s cl (leaseName c k fr))
    if ((smGet c.frames fr).map Frame.filled).getD false && (!array || arrayIdle run fr) && !j.xPending accs slots && granted s k then
      .have_ (setCluster s cl (noteGrant (clusterSt s cl) k)) fr
    else .wait s
  | none =>
    -- A fault of the fill is taken with the count made; so is the wait for a victim.
    let s1 := mark (if fresh then countLookup s cl counted false else s)
    match startFill s1 k j ea len pin with
    | .stall => .wait s1
    | r => r

/-! ### Replicas (R199, R207) -/

/-- Add one copy of a key, in an array that holds none, if fewer than 4 exist and a victim is free; no pinned and no leased frame is one
(R207). The answer is false while a copy still has to be made. [DEDUCED, unsafe: log entry 64] -/
def addReplica (s : State) (cl f page len : Nat) : State × Bool :=
  let c := clusterSt s cl
  let fs := keyFrames c f page len
  if 4 ≤ fs.length then (s, true)
  else match fs.find? (fun e => e.2.filled), victim c (runningOn s cl) none (fun a => !fs.any (fun e => e.1 / 8 == a)) with
    | some src, some fr =>
      let d := { src.2 with born := c.clock, used := c.clock, pinned := false, copying := true, src := src.2.born, wantPin := false }
      let c := eraseFrames c (fun x _ => x == fr)
      (setCluster s cl { c with frames := smSet c.frames fr d, clock := c.clock + 1 }, true)
    | _, _ => (s, false)

/-! ### Events -/

/-- Pin a frame when the limit allows (R204). [DEDUCED, unsafe: log entry 60] -/
def pinFrame (c : Cluster) (fr : Nat) : Cluster :=
  match smGet c.frames fr with
  | some f => if pinCount c < 32 then { c with frames := smSet c.frames fr { f with pinned := true } } else c
  | none => c

/-- FRAME_FILL_COMPLETE: the frame is filled; a pin the word asked for is set; an MINV that came in between drops it. -/
def execFrameFillComplete (cl fr : Nat) (s : State) : Out :=
  let c := clusterSt s cl
  match smGet c.frames fr with
  | none => .next s
  | some f =>
    if !f.filling then .next s
    else if f.doomed then .next (setCluster s cl (eraseFrames c (fun x _ => x == fr)))
    else
      let c := { c with frames := smSet c.frames fr { f with filling := false, wantPin := false } }
      .next (setCluster s cl (if f.wantPin then pinFrame c fr else c))

/-- FRAME_COPY_COMPLETE: the copy can be used; an MINV that came in between drops it. -/
def execFrameCopyComplete (cl fr : Nat) (s : State) : Out :=
  let c := clusterSt s cl
  match smGet c.frames fr with
  | none => .next s
  | some f =>
    if !f.copying then .next s
    else .next (setCluster s cl (if f.doomed then eraseFrames c (fun x _ => x == fr) else { c with frames := smSet c.frames fr { f with copying := false } }))

/-- The jobs whose looked-up word waits for a key in the cluster. -/
def waitingFor (s : State) (cl f page len : Nat) : Nat :=
  (s.jobs.filter (fun e => jCluster e.1 == cl && e.2.fdom == f && (match e.2.lookup with | some (.tile p l _ _ _) => p == page && l == len | _ => false))).length

/-- HARDWARE_REPLICA: when 8 or more looked-up words wait for the key of frame `fr` and fewer than 4 copies exist, one is added. [DEDUCED, unsafe: log entry 64] -/
def execHardwareReplica (cl fr : Nat) (s : State) : Out :=
  match smGet (clusterSt s cl).frames fr with
  | none => .next s
  | some f => if waitingFor s cl f.fdom f.page f.len < 8 then .next s else .next (addReplica s cl f.fdom f.page f.len).1

/-- LEASE_GRANT: with no live lease, the first waiting request in core order after the last holder's core is granted (R213). -/
def execLeaseGrant (cl : Nat) (s : State) : Out :=
  let c := clusterSt s cl
  match liveLease c with
  | some _ => .next s
  | none =>
    let last := match c.lease with | some l => jCore l.job | none => c.lastLease
    let dist := fun (w : Nat) => (jCore (w / 256) + 4 - last % 4 + 3) % 4 * 4 + jSlot (w / 256)
    match sortBy (fun a b => decide (dist a ≤ dist b)) c.leaseWait with
    | [] => .next s
    | w :: _ =>
      let s := setCluster s cl { c with lease := some ⟨w / 256, w % 256, []⟩, lastLease := last, leaseWait := c.leaseWait.filter (· != w) }
      .next (modJob s (w / 256) (fun j => { j with core := { j.core with lease := none } }))

/-- LEASE_BUDGET_EXHAUSTED: a lease whose budget is spent ends (R215). -/
def execLeaseBudgetExhausted (cl : Nat) (s : State) : Out :=
  let c := clusterSt s cl
  match c.lease with
  | some l => if l.budget = 0 then .next (setCluster s cl { c with lease := none, lastLease := jCore l.job }) else .next s
  | none => .next s

end Sys2Proof.Machine
end

