-- ==== Sys2Proof/Machine/Ingress.lean ====
section
/-!
DEFINITION. The ingress unit of a C-die (R324 to R332): placing a token row in its group's expert buffers, holes, pick records, and the
notices that parked jobs receive.
-/
namespace Sys2Proof.Machine

/-! ### Writes at die scope (R274) -/

/-- Scope copies below the die's scope point hold the unit's write back in mode 1 (R290), and so does a commit under way (R307). -/
def ingHeld (s : State) (die pa : Nat) : Bool :=
  gathered s (lineOf pa) ||
    (s.B.mode == 1 && s.M.scopes.any (fun c => c.line == lineOf pa && decide (c.level < 2) && instCore c.level c.inst / 64 == die))

/-- A write of the die's ingress unit within one line: at die scope, outside every region. Copies held below the die's scope point are
published there first. [DEDUCED, unsafe: log entry 68] -/
def ingWrite (s : State) (die f launch pa : Nat) (l : List Byte) : State :=
  let line := lineOf pa
  let core := 64 * die
  let s := combineLine s line
  let s := publishSel s (fun c => c.line == line && decide (c.level < 2) && instCore c.level c.inst / 64 == die) 2
  let s := scopeWrite s core 2 line f 2 launch (maskIn pa l.length line) (placeAt (pa % 64) l)
  relWrite s (copyKey s core line 2) pa l.length false []

/-- Bytes in pieces that each lie in one line: address, piece. -/
def linePieces (a : Nat) : Nat → List Byte → List (Nat × List Byte)
  | 0, _ => []
  | _, [] => []
  | n + 1, l =>
    let m := 64 - a % 64
    (a, l.take m) :: linePieces (a + m) n (l.drop m)

/-- Write bytes at a virtual address of the group's domain; every page has been translated. [DEDUCED, unsafe: log entry 68] -/
def ingWriteVa (s : State) (die f launch va : Nat) (l : List Byte) : State :=
  (linePieces va (l.length + 1) l).foldl (fun s p =>
    match translateMem s f true p.1 .write with
    | .ok pa => ingWrite (noteTlb s f p.1) die f launch pa p.2
    | _ => s) s

/-- The first address of `n` bytes at `va` whose page the unit cannot write. -/
def ingFault (s : State) (f va n : Nat) : Option Nat :=
  (pagePieces va n).findSome? (fun p => match translateMem s f true p.1 .write with | .fail _ => some p.1 | _ => none)

/-- The write of `n` bytes at `va` stalls: at a frozen page (R384), or at a line that is held back. [DEDUCED, unsafe: log entry 65] -/
def ingStalls (s : State) (die f va n : Nat) : Bool :=
  (linePieces va (n + 1) (List.replicate n 0)).any (fun p =>
    match translateMem s f true p.1 .write with
    | .ok pa => ingHeld s die pa
    | .frozen => true
    | .fail _ => false)

/-! ### Placement (R327, R328) -/

/-- The address of slot `t` of expert `e`. -/
def Group.slotVa (g : Group) (e t : Nat) : Nat := (g.ebase + BitVec.ofNat 64 (e * g.estride.toNat + t * g.db)).toNat

/-- The scores of a row. -/
def Group.scores (g : Group) (row : List Byte) : List Nat := (List.range g.ne).map (fun e => leNat ((row.drop (g.db + 4 * e)).take 4))

/-- The experts of a row in the ranking of R177, the best K. -/
def Group.best (g : Group) (row : List Byte) : List (Nat × Nat) :=
  match builtinFmt 1 with
  | none => []
  | some f => (sortBy (fun x y => topBefore f x.2 y.2) ((List.range g.ne).zip (g.scores row))).take g.k

/-- The picks of a row and the slots it takes: an expert whose count is CAP drops the pick. -/
def Group.pick (g : Group) (row : List Byte) : List Pick × List (Nat × Nat) :=
  let ps := (g.best row).map (fun e => Pick.mk e.1 e.2 (g.cap ≤ smGetD g.counts e.1 0))
  (ps, (ps.filter (fun p => !p.dropped)).map (fun p => (p.expert, smGetD g.counts p.expert 0)))

/-- Counts after the slots are taken. -/
def Group.take (g : Group) (sl : List (Nat × Nat)) : Group :=
  { g with counts := sl.foldl (fun m x => smPut 0 m x.1 (x.2 + 1)) g.counts }

/-- The first faulting address of the row's slots and of the counts. [DEDUCED, unsafe: log entry 65] -/
def Group.fault (s : State) (g : Group) (sl : List (Nat × Nat)) : Option (Nat × Nat) :=
  match sl.findSome? (fun x => (ingFault s g.fdom (g.slotVa x.1 x.2) g.db).map (fun a => (a, x.1))) with
  | some r => some r
  | none => (ingFault s g.fdom g.cntbase.toNat (4 * g.ne)).map (fun a => (a, (sl.headD (0, 0)).1))

/-- The data of a row in its slots, then the count words. [DEDUCED, unsafe: log entry 65; DEDUCED, unsafe: log entry 66] -/
def Group.write (s : State) (die launch : Nat) (g : Group) (sl : List (Nat × Nat)) (row : List Byte) : State :=
  let s := sl.foldl (fun s x => ingWriteVa s die g.fdom launch (g.slotVa x.1 x.2) (row.take g.db)) s
  ingWriteVa s die g.fdom launch g.cntbase.toNat (((List.range g.ne).map (fun e => natLe 4 (smGetD g.counts e 0))).flatten)

/-! ### Notices (R332) -/

/-- The WAIT.ingr at which a parked job waits: its group's BUF, its expert, its target. -/
def parkedIngr (s : State) (j : Job) : Option (Nat × Nat × Nat) :=
  if j.pend ≠ .parked then none
  else match decode .S (codeWord s j.fdom j.pc.toNat) 0 with
    | .ok (.waitIngr a b) => some ((j.s a).toNat / 256, (j.s a).toNat % 64, (j.s b).toNat)
    | _ => none

/-- A notice: EVENT, EXP, BUF, SLOT, DIE. -/
def ingrNotice (ev e buf t src : Nat) : Word :=
  BitVec.ofNat 64 (2 ^ 60 + ev * 2 ^ 56 + e % 256 * 2 ^ 48 + buf % 2 ^ 16 * 2 ^ 32 + t % 2 ^ 24 * 2 ^ 8 + src % 4)

/-- Notices of a hole recorded (1) or filled (2), to the jobs of the die that wait for more of that expert. [DEDUCED, unsafe: log entry 67] -/
def notify (s : State) (die buf : Nat) (g : Group) (ev src : Nat) (sl : List (Nat × Nat)) : State :=
  if !g.notify then s
  else sl.foldl (fun s x =>
    s.jobs.foldl (fun s e =>
      match parkedIngr s e.2 with
      | some (b, x', n) =>
        if jDie e.1 = die ∧ b = buf ∧ x' = x.1 ∧ x.2 < n ∧ e.2.fdom = g.fdom ∧ e.2.qmap 15 = true then
          keepStatus (updJob s e.2.uid (fun j => j.statusIngress (ingrNotice ev x.1 buf x.2 src))) e.2.uid
        else s
      | none => s) s) s

/-! ### Pick records (R329) -/

/-- The 64 bytes of a pick record. -/
def pickBytes (buf st cause : Nat) (ps : List Pick) : List Byte :=
  let field := fun (i : Nat) => match ps[i]? with | some p => p.expert + (if p.dropped then 0x8000 else 0) | none => 0xFFFF
  natLe 8 (buf % 2 ^ 16 * 2 ^ 48 + st * 2 ^ 32 + cause * 2 ^ 24 + ps.length * 2 ^ 16)
    ++ ((List.range 8).map (fun i => natLe 2 (field i))).flatten
    ++ ((List.range 8).map (fun i => natLe 4 ((ps[i]?.map (·.score)).getD 0))).flatten ++ natLe 8 0

/-- Write a group of a die. -/
def setGroup (s : State) (die buf : Nat) (g : Group) : State :=
  let d := dieSt s die
  setDie s die { d with groups := smSet d.groups buf g }

/-- The hole a row fills: the oldest of its source die and TAG. -/
def Group.holeOf (g : Group) (src tag : Nat) : Option Hole := g.holes.find? (fun h => h.src == src && h.tag.toNat == tag)

/-- The slots that the group's holes reserve (R328). -/
def Group.held (g : Group) : Nat := g.holes.foldl (fun (n : Nat) h => n + h.slots.length) 0

/-- The slots that a row takes: those of the hole it fills, else its picks'. -/
def Group.slotsOf (g : Group) (src tag : Nat) (row : List Byte) : List (Nat × Nat) :=
  match g.holeOf src tag with
  | some h => h.slots
  | none => (g.pick row).2

/-- A row that the unit takes waits for a page or a line before it is placed. -/
def ingWaits (s : State) (die src f tag buf : Nat) (row : List Byte) : Bool :=
  match smGet (dieSt s die).groups buf with
  | none => false
  | some g =>
    let sl := g.slotsOf src tag row
    g.fdom == f && row.length == g.db + 4 * g.ne && (g.fault s sl).isNone &&
      (sl.any (fun x => ingStalls s die g.fdom (g.slotVa x.1 x.2) g.db) || ingStalls s die g.fdom g.cntbase.toNat (4 * g.ne))

/-- A refused row: nothing is placed; the answer is STATE and the pick record. [DEDUCED, unsafe: log entry 67] -/
def ingRefuse (s : State) (buf cause : Nat) : State × Nat × List Byte := (s, 2, pickBytes buf 2 cause [])

/-- A row arrives at the ingress unit of `die` from die `src` (R327): the new state, the STATE of its pick record, and the record. -/
def ingest (s : State) (die src f launch tag buf : Nat) (row : List Byte) : State × Nat × List Byte :=
  match smGet (dieSt s die).groups buf with
  | none => ingRefuse s buf 1
  | some g =>
    if g.fdom ≠ f then ingRefuse s buf 1
    else if row.length ≠ g.db + 4 * g.ne then ingRefuse s buf 2
    else match g.holeOf src tag with
      | some h =>
        match g.fault s h.slots with
        | some x => (raiseEvent s g.fdom 7 1 die x.1 (buf * 256 + x.2), 1, pickBytes buf 1 0 h.picks)
        | none =>
          let g' := { g with holes := g.holes.erase h }
          let s := setGroup (g'.write s die launch h.slots row) die buf g'
          (notify s die buf g' 2 src h.slots, 0, pickBytes buf 0 0 h.picks)
      | none =>
        let p := g.pick row
        match g.fault s p.2 with
        | none =>
          let g' := g.take p.2
          (setGroup (g'.write s die launch p.2 row) die buf g', 0, pickBytes buf 0 0 p.1)
        | some x =>
          let s := raiseEvent s g.fdom 7 1 die x.1 (buf * 256 + x.2)
          if 64 < g.held + p.2.length then ingRefuse s buf 3
          else
            let g' := g.take p.2
            let g' := { g' with holes := g'.holes ++ [⟨src, BitVec.ofNat 64 tag, p.2, p.1⟩] }
            (notify (setGroup s die buf g') die buf g' 1 src p.2, 1, pickBytes buf 1 0 p.1)

end Sys2Proof.Machine
end

