-- ==== Sys2Proof/Machine/Sha512.lean ====
section
/-!
DEFINITION. SHA-512 (FIPS 180-4), which R225, R226, R389, R440, R441 and R444 name. Its constants are the first 64 fraction bits of square
and cube roots of primes, computed here from integer roots.
-/
namespace Sys2Proof.Machine

/-- The largest `r < 2^b * (start ...)` with `r^k ≤ n`, bit by bit from `b - 1` down. -/
def rootGo (k n : Nat) : Nat → Nat → Nat
  | 0, r => r
  | b + 1, r => let r' := r + 2 ^ b; rootGo k n b (if r' ^ k ≤ n then r' else r)

/-- The first 80 primes. -/
def primes80 : List Nat :=
  [2, 3, 5, 7, 11, 13, 17, 19, 23, 29, 31, 37, 41, 43, 47, 53, 59, 61, 67, 71, 73, 79, 83, 89, 97, 101, 103, 107, 109, 113]
    ++ [127, 131, 137, 139, 149, 151, 157, 163, 167, 173, 179, 181, 191, 193, 197, 199, 211, 223, 227, 229, 233, 239, 241, 251, 257]
    ++ [263, 269, 271, 277, 281, 283, 293, 307, 311, 313, 317, 331, 337, 347, 349, 353, 359, 367, 373, 379, 383, 389, 397, 401, 409]

/-- The initial hash value: fraction bits of the square roots of the first 8 primes. -/
def shaInit : List Word := (primes80.take 8).map (fun p => BitVec.ofNat 64 (rootGo 2 (p * 2 ^ 128) 72 0))

/-- The round constants: fraction bits of the cube roots. -/
def shaK : List Word := primes80.map (fun p => BitVec.ofNat 64 (rootGo 3 (p * 2 ^ 192) 72 0))

/-- The small and big sigma functions. -/
def shaSig (r1 r2 : Nat) (last : Word → Word) (x : Word) : Word := x.rotateRight r1 ^^^ x.rotateRight r2 ^^^ last x
def sig0 : Word → Word := shaSig 1 8 (fun x => x >>> (7 : Nat))
def sig1 : Word → Word := shaSig 19 61 (fun x => x >>> (6 : Nat))
def Sig0 : Word → Word := shaSig 28 34 (fun x => x.rotateRight 39)
def Sig1 : Word → Word := shaSig 14 18 (fun x => x.rotateRight 41)

/-- The eight working variables. -/
structure ShaVars where
  a : Word
  b : Word
  c : Word
  d : Word
  e : Word
  f : Word
  g : Word
  h : Word
  deriving DecidableEq, Repr

/-- The next schedule word from the last sixteen, oldest first. -/
def shaNext (w : List Word) : Word := sig1 (w.getD 14 0) + w.getD 9 0 + sig0 (w.getD 1 0) + w.getD 0 0

/-- One round. -/
def shaRound (v : ShaVars) (k w : Word) : ShaVars :=
  let t1 := v.h + Sig1 v.e + ((v.e &&& v.f) ^^^ (~~~v.e &&& v.g)) + k + w
  let t2 := Sig0 v.a + ((v.a &&& v.b) ^^^ (v.a &&& v.c) ^^^ (v.b &&& v.c))
  ⟨t1 + t2, v.a, v.b, v.c, v.d + t1, v.e, v.f, v.g⟩

/-- The rounds, the window of schedule words sliding. -/
def shaRounds : List Word → List Word → ShaVars → ShaVars
  | [], _, v => v
  | k :: ks, w, v => shaRounds ks (w.drop 1 ++ [shaNext w]) (shaRound v k (w.headD 0))

/-- The sixteen big-endian words of a block. -/
def blockWords (l : List Byte) : List Word := (List.range 16).map (fun i => BitVec.ofNat 64 (beNat ((l.drop (8 * i)).take 8)))

/-- One block. -/
def shaBlock (ks : List Word) (h : List Word) (l : List Byte) : List Word :=
  let g := fun i => h.getD i 0
  let v := shaRounds ks (blockWords l) ⟨g 0, g 1, g 2, g 3, g 4, g 5, g 6, g 7⟩
  [g 0 + v.a, g 1 + v.b, g 2 + v.c, g 3 + v.d, g 4 + v.e, g 5 + v.f, g 6 + v.g, g 7 + v.h]

/-- The end of a message of `n` bytes, of which `l` are left: padded to whole blocks. -/
def shaPad (n : Nat) (l : List Byte) : List Byte :=
  l ++ [0x80] ++ List.replicate ((128 - (l.length + 17) % 128) % 128) 0 ++ natBe 16 (8 * n)

/-- `n` blocks of a message. -/
def shaBlocks (ks : List Word) : Nat → List Word → List Byte → List Word
  | 0, h, _ => h
  | n + 1, h, l => shaBlocks ks n (shaBlock ks h (l.take 128)) (l.drop 128)

/-- The hash value so far. -/
def Digest.value (d : Digest) : List Word := if d.h.isEmpty then shaInit else d.h

/-- Bytes enter a context: whole blocks are taken in. -/
def Digest.feed (d : Digest) (l : List Byte) : Digest :=
  let p := d.part ++ l
  let n := p.length / 128
  ⟨if n = 0 then d.h else shaBlocks shaK n d.value p, p.drop (128 * n), d.count + l.length⟩

/-- The 64 bytes of the digest of what has entered. [PRESUMED, unsafe: log entry 102] -/
def Digest.final (d : Digest) : List Byte :=
  let p := shaPad d.count d.part
  ((shaBlocks shaK (p.length / 128) d.value p).map (fun w => natBe 8 w.toNat)).flatten

/-- The digest of a message. -/
def sha512 (l : List Byte) : List Byte := (Digest.reset.feed l).final

end Sys2Proof.Machine
end

