-- ==== Sys2Proof/Machine/Copy.lean ====
section
/-!
DEFINITION. The copy words of L and T (R217 to R234): what they check at issue, what each line, element or row of their footprint does when
the word is performed at its retirement, and the trap of a word that meets a failure in flight.
-/
namespace Sys2Proof.Machine

/-! ### Fields -/

/-- SC, the scope code of a T word. -/
def wordSc (w : EWord) : Nat := bits w.func.toNat 15 3
/-- RH, the replica hint. -/
def wordRh (w : EWord) : Bool := w.func.getLsbD 17
/-- The low two bits of func: OP of ACW and ACWF, W of CAS. -/
def wordLow (w : EWord) : Nat := bits w.func.toNat 0 2
/-- TRIM of CPYD. -/
def wordTrim (w : EWord) : Nat := bits w.func.toNat 2 2
/-- The format of ACW and ACWF; decode admits only built-in codes. -/
def acwFormat (w : EWord) : NFmt := (builtinFmt w.fmt.toNat).getD fp32
/-- The bytes that CAS compares. -/
def casWidth (w : EWord) : Nat := if (wordLow w) = 2 then 4 else 8
/-- A signed 64-bit value as its bits. -/
def intWord (v : Int) : Nat := (BitVec.ofInt 64 v).toNat

/-! ### The footprint in memory (R222) -/

/-- A piece of a shaped copy: memory address, window offset from the operand, bytes; all within one line. -/
structure Piece where
  va : Nat
  off : Nat
  n : Nat
  deriving DecidableEq, Repr

/-- Split a row at the lines of memory. -/
def splitRow (va off : Nat) : Nat → Nat → List Piece
  | 0, _ => []
  | _, 0 => []
  | fuel + 1, n =>
    let m := Nat.min n (64 - va % 64)
    ⟨va, off, m⟩ :: splitRow (va + m) (off + m) fuel (n - m)

/-- The pieces of rows of `n` bytes. -/
def rowPieces (rows : List (Nat × Nat)) (n : Nat) : List Piece := (rows.map (fun r => splitRow r.1 r.2 (n / 4 + 2) n)).flatten

/-- The pieces of CPYG: a row of zeros for an index of all ones, else the row's lines (R224). -/
def cpygPieces (i : InFlight) : List (Bool × Piece) :=
  let c := i.shape
  (((List.range i.eff.recv.length).zip i.eff.recv).map (fun x =>
    let off := x.1 * c.rb
    if x.2 = 2 ^ 32 - 1 then [(true, ⟨0, off, c.rb⟩)]
    else (splitRow (addrPlus i.a.toNat (sextNat 32 x.2 * c.ps)) off (c.rb / 4 + 2) c.rb).map (fun p => (false, p)))).flatten

/-- The memory addresses of the pieces of a word. -/
def wordVas (i : InFlight) : List Nat :=
  let c := i.shape
  let rows := fun (mem : Nat) (rs : Int) => if c.rb == 0 || c.nr == 0 then [] else (rowPieces (copyRows c mem rs) c.rb).map (fun p => p.va)
  match i.word with
  | .cpy _ | .cpyd _ => rows i.a.toNat i.b.toInt
  | .cpyg _ => (cpygPieces i).filterMap (fun x => if x.1 then none else some x.2.va)
  | .cpym _ => rows i.a.toNat c.rb
  | .dgst _ => [i.a.toNat]
  | .cps _ | .acw _ | .flsh _ | .invl _ => rows i.d.toNat i.b.toInt
  | .cpst _ => rows i.d.toNat c.rb
  | .acwf _ | .cas _ => [i.d.toNat]
  | .scat _ => i.eff.recv.map (fun r => bits r 64 64)
  | _ => []

/-- The pages that a copy word at its piece `n` translates ahead, at most 16, in copy order (R382). -/
def pagesAhead (i : InFlight) (n : Nat) : List Nat := (((wordVas i).drop n).map (· / 4096)).eraseDups.take 16

/-- Those translations stay cached (R380). -/
def prefetch (s : State) (f : Nat) (i : InFlight) : State := (pagesAhead i i.part.done).foldl (fun s p => noteTlb s f (4096 * p)) s

/-! ### Issue (R221) -/

/-- The operands that a copy word has, in the order D, A, B. -/
def copyOps (i : Instr) (w : EWord) : List OpIn :=
  let u := opUse i
  (if u.1 then [opB w.d] else []) ++ (if u.2.1 then [opB w.a] else []) ++ (if u.2.2 then [opB w.b] else [])

/-- The decode checks of a copy word. -/
def copyDec (i : Instr) (w : EWord) : EDec := ⟨copyOps i w, [], wordQueue i, noExtra⟩

/-- The first misaligned item. -/
def alignFirst (l : List (Nat × Nat)) : Option Nat := (l.find? (fun x => x.1 % x.2 != 0)).map (·.1)

/-- The checks of R221 in their order: alignment, the window's bounds, the memory address. -/
def copyChecks (size : Nat) (al : List (Nat × Nat)) (sp : List (Int × Nat)) (mem code : Nat) (go : IRes) : IRes :=
  match alignFirst al with
  | some v => .trap 0x03 v
  | none => match winBounds size [] sp with
    | some t => .trap t.1 t.2
    | none => if 2 ^ 52 ≤ mem then .trap code mem else go

/-- A copy word issues: `f` has the state, the slot, the job, the shape, and D, A, B. It starts translating its pages (R382). -/
def copyPlan (e : EStream) (i : Instr) (w : EWord) (alone : Bool)
    (f : State → Nat → Job → CShape → Word → Word → Word → IRes) : EPlan :=
  EPlan.mk (copyDec i w) false alone (fun s k j v =>
    let x := spread (opUse i) v
    match f s k j (j.eng e).shape (x.getD 0 0) (x.getD 1 0) (x.getD 2 0) with
    | .fly s t => .fly (prefetch s j.fdom ⟨0, 0, i, 0, v, [], (j.eng e).shape, t, [], Part.none⟩) t
    | r => r)

/-- ROWB and PSTRIDE with the row stride between them, each a multiple of `n`. -/
def shapeAl (c : CShape) (n m : Nat) (rs : Option Word) : List (Nat × Nat) :=
  [(c.rb, m)] ++ (match rs with | some r => [(r.toNat, n)] | none => []) ++ [(intWord c.ps, n)]

/-- The word is in flight. -/
def fly (s : State) : IRes := .fly s Effect.none

def planCpy (w : EWord) : EPlan :=
  copyPlan .L (.cpy w) w false (fun s _ j c d a b =>
    copyChecks j.core.win.size ([(d.toNat, 4), (a.toNat, 4)] ++ shapeAl c 4 4 (some b)) [(d.toInt, c.total)] a.toNat 0x04 (fly s))
def execCpy (w : EWord) (s : State) : Out := eExec s .L (.cpy w) w.tok (planCpy w)

/-- CPYG reads its indices when it issues (R224). [DEDUCED, unsafe: log entry 72] -/
def planCpyg (w : EWord) : EPlan :=
  copyPlan .L (.cpyg w) w false (fun s _ j c d a b =>
    let seen := winSeen s j .L (j.know .L)
    let idx := (List.range c.nr).map (fun i => leNat ((List.range 4).map (fun x => seen (b.toNat + 4 * i + x))))
    copyChecks j.core.win.size ([(d.toNat, 4), (a.toNat, 4), (b.toNat, 4)] ++ shapeAl c 4 4 none)
      [(d.toInt, c.nr * c.rb), (b.toInt, 4 * c.nr)] a.toNat 0x04
      (match winPoison j.core.win [(b.toInt, 4 * c.nr)] with
        | some v => .trap 0x0C v
        | none => .fly s { Effect.none with recv := idx, reads := [(b.toInt, 4 * c.nr)] }))
def execCpyg (w : EWord) (s : State) : Out := eExec s .L (.cpyg w) w.tok (planCpyg w)

/-- CPYD: TRIM needs a longer row (R225). [DEDUCED, unsafe: log entry 71] -/
def planCpyd (w : EWord) : EPlan :=
  copyPlan .L (.cpyd w) w false (fun s _ j c d a b =>
    if (wordTrim w) ≠ 0 ∧ c.rb ≤ (wordTrim w) then .trap 0x01 c.rb
    else
      let nw := w.func.getLsbD 1
      copyChecks j.core.win.size ((if nw then [] else [(d.toNat, 4)]) ++ [(a.toNat, 4)] ++ shapeAl c 4 4 (some b))
        (if nw then [] else [(d.toInt, c.total)]) a.toNat 0x04 (fly s))
def execCpyd (w : EWord) (s : State) : Out := eExec s .L (.cpyd w) w.tok (planCpyd w)

/-- The jobs of the launch resident in a cluster that the mask names (R227). -/
def receivers (s : State) (launch : Nat) (mask : Word) : List Nat :=
  (s.jobs.filter (fun e => e.2.launch == launch && mask.getLsbD (jCluster e.1))).map (fun e => e.2.uid)

/-- CPYM: receivers with too small a window are skipped, not refused (R227). A replay writes only its own window, when the mask names the
cluster of the recording. -/
def planCpym (w : EWord) : EPlan :=
  copyPlan .L (.cpym w) w false (fun s _ j c d a b =>
    let sp := if d.toInt < 0 then [(d.toInt, Nat.min c.total (-d.toInt).toNat)] else []
    copyChecks j.core.win.size ([(d.toNat, 4), (a.toNat, 4)] ++ shapeAl c 4 4 none) sp a.toNat 0x04
      (.fly s { Effect.none with recv :=
        if j.replay.isSome then (if b.getLsbD (jCluster j.home) then [j.uid] else []) else receivers s j.launch b }))
def execCpym (w : EWord) (s : State) : Out := eExec s .L (.cpym w) w.tok (planCpym w)

/-- PREL changes nothing; only its alignment is checked (R228). -/
def planPrel (w : EWord) : EPlan :=
  copyPlan .L (.prel w) w true (fun _ _ _ c _ a b =>
    match alignFirst ([(a.toNat, 4)] ++ shapeAl c 4 4 (some b)) with
    | some v => .trap 0x03 v
    | none => .now id)
def execPrel (w : EWord) (s : State) : Out := eExec s .L (.prel w) w.tok (planPrel w)

/-- DGST waits for every earlier word of L (R226). -/
def planDgst (w : EWord) : EPlan :=
  copyPlan .L (.dgst w) w true (fun s _ j _ _ a _ => copyChecks j.core.win.size [(a.toNat, 64)] [] a.toNat 0x04 (fly s))
def execDgst (w : EWord) (s : State) : Out := eExec s .L (.dgst w) w.tok (planDgst w)

def planCps (w : EWord) : EPlan :=
  copyPlan .T (.cps w) w false (fun s _ j c d a b =>
    copyChecks j.core.win.size ([(d.toNat, 4), (a.toNat, 4)] ++ shapeAl c 4 4 (some b)) [(a.toInt, c.total)] d.toNat 0x05 (fly s))
def execCps (w : EWord) (s : State) : Out := eExec s .T (.cps w) w.tok (planCps w)

/-- The rows of an ACW whose elements lie in an open range that the word does not match (R230). -/
def rangeClash (s : State) (f : Nat) (w : EWord) (rows : List (Nat × Nat)) (rb : Nat) : Bool :=
  rows.any (fun r => (List.range ((r.1 % 64 + rb + 63) / 64)).any (fun i =>
    match rangeAt s f (r.1 / 64 * 64 + 64 * i) with
    | some g => g.2.1 != w.fmt.toNat || g.2.2 != (wordLow w)
    | none => false))

/-- ACW: an element in an open commutative range of another format or operation refuses the word (R230); a source tagged with another format is
noted (R66). -/
def planAcw (w : EWord) : EPlan :=
  copyPlan .T (.acw w) w false (fun s _ j c d a b =>
    let n := (acwFormat w).bytes
    let imm := w.a.mode == 3
    copyChecks j.core.win.size ([(d.toNat, n)] ++ (if imm then [] else [(a.toNat, n)]) ++ shapeAl c n n (some b))
      (if imm then [] else [(a.toInt, c.total)]) d.toNat 0x05
      (if c.rb = 0 then fly s
        else if rangeClash s j.fdom w (copyRows c d.toNat b.toInt) c.rb then .trap 0x09 0
        else .fly s { Effect.none with flags := if imm then 0 else tagMiss s j (acwFormat w) [(a.toInt, c.total)] }))
def execAcw (w : EWord) (s : State) : Out := eExec s .T (.acw w) w.tok (planAcw w)

def planAcwf (w : EWord) : EPlan :=
  copyPlan .T (.acwf w) w false (fun s _ j _ d _ _ => copyChecks j.core.win.size [(d.toNat, (acwFormat w).bytes)] [] d.toNat 0x05 (fly s))
def execAcwf (w : EWord) (s : State) : Out := eExec s .T (.acwf w) w.tok (planAcwf w)

def planCas (w : EWord) : EPlan :=
  copyPlan .T (.cas w) w false (fun s _ j _ d _ _ => copyChecks j.core.win.size [(d.toNat, (casWidth w))] [] d.toNat 0x05 (fly s))
def execCas (w : EWord) (s : State) : Out := eExec s .T (.cas w) w.tok (planCas w)

/-- [DEDUCED, unsafe: log entry 72] -/
def planCpst (w : EWord) : EPlan :=
  copyPlan .T (.cpst w) w false (fun s _ j c d a _ =>
    copyChecks j.core.win.size ([(d.toNat, 64), (a.toNat, 4)] ++ shapeAl c 4 64 none) [(a.toInt, c.total)] d.toNat 0x05 (fly s))
def execCpst (w : EWord) (s : State) : Out := eExec s .T (.cpst w) w.tok (planCpst w)

/-- A route record (R232): the destination die, BUF and TAG, or none for an absent die or a reserved bit. [DEDUCED, unsafe: log entry 69] -/
def routeOk (s : State) (r : Nat) : Bool := bits r 2 14 == 0 && bits r 32 32 == 0 && decide (bits r 0 2 < s.B.cdies)

/-- SCAT reads its route records when it issues (R232). With ROWB 0, which moves nothing (R17), it neither reads nor checks them.
 [DEDUCED, unsafe: log entry 117] -/
def planScat (w : EWord) : EPlan :=
  copyPlan .T (.scat w) w false (fun s _ j c _ a b =>
    let seen := winSeen s j .T (j.know .T)
    let n := if c.rb = 0 then 0 else c.nr
    let recs := (List.range n).map (fun i => leNat ((List.range 16).map (fun x => seen (b.toNat + 16 * i + x))))
    copyChecks j.core.win.size [(a.toNat, 4), (b.toNat, 4), (c.rb, 4)] [(a.toInt, c.nr * c.rb), (b.toInt, 16 * n)] 0 0x05
      (match winPoison j.core.win [(b.toInt, 16 * n)] with
        | some v => .trap 0x0C v
        | none => match recs.findIdx? (fun r => !routeOk s r) with
          | some i => .trap 0x06 (b.toNat + 16 * i)
          | none => .fly s { Effect.none with recv := recs, reads := [(b.toInt, 16 * n)] }))
def execScat (w : EWord) (s : State) : Out := eExec s .T (.scat w) w.tok (planScat w)

/-- The issue of FLSH and INVL. -/
def flushPlan (i : Instr) (w : EWord) : EPlan :=
  copyPlan .T i w false (fun s _ j c d _ b =>
    copyChecks j.core.win.size ([(d.toNat, 4)] ++ shapeAl c 4 4 (some b)) [] d.toNat 0x04 (fly s))
def planFlsh (w : EWord) : EPlan := flushPlan (.flsh w) w
def execFlsh (w : EWord) (s : State) : Out := eExec s .T (.flsh w) w.tok (planFlsh w)
def planInvl (w : EWord) : EPlan := flushPlan (.invl w) w
def execInvl (w : EWord) (s : State) : Out := eExec s .T (.invl w) w.tok (planInvl w)

/-! ### Performing a footprint -/

/-- What performing has done so far: the state, pieces done, kept results by unit, the flags, the bytes of a digest; the number of pieces at which
it pauses. -/
structure CRun where
  s : State
  done : Nat
  kept : List (Nat × Word)
  fl : Fl
  bytes : List Byte
  pause : Option Nat
  deriving DecidableEq, Repr

/-- The answer of a piece: done, held back, or a failure with its address. -/
inductive CRes
  | ok (r : CRun)
  | wait (r : CRun)
  | trap (r : CRun) (code v : Nat)

/-- Perform pieces in copy order. -/
def piecesFrom {α : Type} (f : CRun → α → CRes) : CRun → List α → CRes
  | r, [] => .ok r
  | r, p :: ps =>
    if r.pause = some r.done then .wait r
    else match f r p with
      | .ok r => piecesFrom f { r with done := r.done + 1 } ps
      | e => e

/-- Perform those pieces of a word that are not done yet (R382). -/
def runPieces {α : Type} (f : CRun → α → CRes) (r : CRun) (ps : List α) : CRes := piecesFrom f r (ps.drop r.done)

/-- An access of a copy word: its stream, its kind, whether it is ordinary, whether poison stops it. -/
structure CAcc where
  e : EStream
  kind : AKind
  ordinary : Bool
  poison : Bool
  deriving DecidableEq, Repr

/-- The checks of R221 on one piece. -/
def cCheck (s : State) (j : Job) (w : Who) (a : CAcc) (va n : Nat) : Except (Option (Nat × Nat)) Nat :=
  match streamXlate s j a.e.toStream va a.kind false with
  | .fail c => .error (some (c, va))
  | .frozen => .error none
  | .ok pa =>
    let store := a.kind == .write || a.kind == .rmw
    if a.ordinary && racing s w pa n (!store) store then .error (some (0x08, va))
    else if a.poison && poisoned s (lineOf pa) then .error (some (0x0C, va))
    else .ok pa

/-- Run `f` at the physical address of a piece that passes its checks. -/
def atPiece (r : CRun) (w : Who) (a : CAcc) (va n : Nat) (f : State → Job → Nat → CRes) : CRes :=
  match jobAt r.s w.k with
  | none => .wait r
  | some j =>
    match cCheck r.s j w a va n with
    | .error (some t) => .trap r t.1 t.2
    | .error none => .wait r
    | .ok pa => f (noteTlb r.s j.fdom va) j pa

/-! ### L words -/

/-- The tag and line number of a granule filled from a line (R65). -/
def granFrom (s : State) (pa : Nat) : Nat × Nat :=
  let t := tagOf s (lineOf pa)
  if 16 ≤ t then (t, (pa - bits ((s.R.fwin.toList.getD (t - 16) (0, 0, 0, 0)).1.toNat) 12 36 * 4096) / 64) else (t, 0)

/-- Bytes that word `i` of L of the job in slot `from_` copies land in the window of slot `k`: a whole granule takes the tag, a part makes its
granules untagged (R65). -/
def putWindow (s : State) (from_ k : Nat) (i : InFlight) (a : Nat) (l : List Byte) (tag : Nat × Nat) : State :=
  match jobAt s from_, jobAt s k with
  | some o, some j =>
    let win := winWrite j.core.win a l
    let win := if l.length = 64 ∧ a % 64 = 0 ∧ tag.1 ≠ 0 then { win with tags := smSet win.tags (a / 64) tag } else winUntag win (granulesOf a l.length)
    setJob s k (({ j with core := { j.core with win := win } } : Job).winTouch s.fresh (winKey o.uid .L) (o.winNum i.seq) i.know [((a : Int), l.length)] true)
  | _, _ => s

/-- Note a replica that the read asked for (R223): in the slice of the cluster, or in the home slice of the die. -/
def noteReplica (s : State) (k : Nat) (j : Job) (w : EWord) (pa : Nat) : State :=
  if !wordRh w then s
  else match ((launchAt s j.launch).map (fun v => bits (v.words.getD 15 0).toNat 3 2)).getD 0 with
    | 0 => s
    | 1 => tokReplica s (jDie k) (lineOf pa) (64 + jCluster k % 16) j.launch
    | _ => tokReplica s (jDie k) (lineOf pa) 80 j.launch

/-- Read one piece on path L: the bytes, or what stops it. [DEDUCED, unsafe: log entry 76] -/
def lRead (r : CRun) (k : Nat) (i : InFlight) (ordinary : Bool) (p : Piece) (f : State → List Byte → Nat × Nat → CRes) : CRes :=
  match jobAt r.s k with
  | none => .wait r
  | some j =>
    if j.replay.isSome then let t := takeBytes r.s k .L p.va (natLe p.n 0); f t.1 t.2 (0, 0)
    else
      let w : Who := ⟨k, 1, i.seq⟩
      atPiece r w ⟨.L, .read, ordinary, true⟩ p.va p.n (fun s _ pa =>
        let q := memReady s w 3 pa
        if !q.2 then .wait r
        else
          let m := memLoad q.1 w 3 pa p.n ordinary
          let t := takeBytes (l1Read m.1 (jCoreKey k) (lineOf pa) false) k .L p.va m.2
          f t.1 t.2 (granFrom t.1 pa))

/-- A piece of CPY, CPYG and CPYD. -/
def cpyPiece (k : Nat) (i : InFlight) (w : EWord) (win : Option Nat) (r : CRun) (p : Piece) : CRes :=
  lRead r k i true p (fun s l tag =>
    let s := match win with | some d => putWindow s k k i (d + p.off) l tag | none => s
    let s := match jobAt s k, translateMem s (((jobAt s k).map (·.fdom)).getD 0) false p.va .read with
      | some j, .ok pa => noteReplica s k j w pa
      | _, _ => s
    .ok { r with s := s, bytes := r.bytes ++ l })

/-- A piece of CPYG. -/
def cpygPiece (k : Nat) (i : InFlight) (w : EWord) (r : CRun) (x : Bool × Piece) : CRes :=
  if x.1 then .ok { r with s := putWindow r.s k k i (i.d.toNat + x.2.off) (natLe x.2.n 0) (0, 0) }
  else cpyPiece k i w (some i.d.toNat) r x.2

/-- The receivers of CPYM whose windows are large enough. -/
def fitting (s : State) (i : InFlight) : List Nat :=
  i.eff.recv.filterMap (fun u => match slotOf s u with
    | some k => match jobAt s k with
      | some j => if i.d.toNat + i.shape.total ≤ j.core.win.size then some k else none
      | none => none
    | none => none)

/-- The receivers skipped for their window's size. [DEDUCED, unsafe: log entry 72] -/
def skipped (s : State) (i : InFlight) : Nat :=
  (i.eff.recv.filter (fun u => match slotOf s u with
    | some k => match jobAt s k with
      | some j => decide (j.core.win.size < i.d.toNat + i.shape.total)
      | none => false
    | none => false)).length

/-- A piece of CPYM: one read, a write in each receiver's window (R227). -/
def cpymPiece (k : Nat) (i : InFlight) (w : EWord) (r : CRun) (p : Piece) : CRes :=
  lRead r k i true p (fun s l tag =>
    let s := (fitting s i).foldl (fun s r => putWindow s k r i (i.d.toNat + p.off) l tag) s
    let s := match jobAt s k, translateMem s (((jobAt s k).map (·.fdom)).getD 0) false p.va .read with
      | some j, .ok pa => noteReplica s k j w pa
      | _, _ => s
    .ok { r with s := s })

/-- The digest context after CPYD's bytes (R225). [DEDUCED, unsafe: log entry 71] -/
def digestAdd (w : EWord) (d : Digest) (l : List Byte) : Digest :=
  (if w.func.getLsbD 0 then Digest.reset else d).feed (l.take (l.length - wordTrim w))

/-- The verdict entry of DGST (R218, R226). -/
def verdict (d : Digest) (expect : List Byte) : Word :=
  let code := if d.count = 0 then 2 else if d.final = expect then 0 else 1
  BitVec.ofNat 64 (7 * 2 ^ 60 + code * 2 ^ 56 + Nat.min d.count (2 ^ 56 - 1))

/-! ### T words -/

/-- Bytes of the window as a T word reads them. -/
def tWindow (seen : Nat → Byte) (a n : Nat) : List Byte := (List.range n).map (fun x => seen (a + x))

/-- A poisoned bank word among `n` bytes at `a` stops the word (R420). -/
def tPoison (r : CRun) (k a n : Nat) (go : CRes) : CRes :=
  match (jobAt r.s k).bind (fun j => winPoison j.core.win [((a : Int), n)]) with
  | some v => .trap r 0x0C v
  | none => go

/-- A piece of CPS and CPST. -/
def cpsPiece (k : Nat) (i : InFlight) (seen : Nat → Byte) (sc : Nat) (ordinary : Bool) (r : CRun) (p : Piece) : CRes :=
  let a := i.a.toNat + p.off
  let w : Who := ⟨k, 2, i.seq⟩
  tPoison r k a p.n (atPiece r w ⟨.T, .write, ordinary, false⟩ p.va p.n (fun s _ pa =>
    let q := memReady s w sc pa
    if !q.2 then .wait r else .ok { r with s := memStore q.1 w sc pa (tWindow seen a p.n) ordinary none }))

/-- CPST delivers each line once to the cores of its mask (R129, R229). -/
def throwLines (s : State) (k : Nat) (sc : Nat) (mask : Word) (vas : List Nat) : State :=
  match jobAt s k with
  | none => s
  | some j =>
    let lines := (vas.filterMap (fun va => match translateMem s j.fdom false va .write with | .ok pa => some (lineOf pa) | _ => none)).eraseDups
    lines.foldl (fun s ln => (throwTargets (jCoreKey k) sc mask).foldl (fun s c => deliver s c ln) s) s

/-- One element operation of ACW and ACWF (R230). -/
def acwOp (w : EWord) (rm : Nat) : Comb :=
  match (wordLow w) with
  | 0 => addComb (acwFormat w) rm
  | 1 => pick false (acwFormat w)
  | _ => pick true (acwFormat w)

/-- Elements by number: memory address, window offset. -/
def elemList (rows : List (Nat × Nat)) (rb n : Nat) : List (Nat × Nat) :=
  (rows.map (fun r => (List.range (rb / n)).map (fun i => (r.1 + n * i, r.2 + n * i)))).flatten

/-- The element bits of an ACW or ACWF operand value: an immediate is converted, another value gives its low bits. -/
def acwValue (w : EWord) (v : Word) : Nat := if w.a.mode = 3 then immBits (acwFormat w) v.toInt else v.toNat % 2 ^ (acwFormat w).width

/-- One element of ACW: absorbed by an open range, else an atomic read-modify-write at its scope point. -/
def acwElem (k : Nat) (i : InFlight) (seen : Nat → Byte) (w : EWord) (r : CRun) (x : Nat × Nat × Nat) : CRes :=
  match jobAt r.s k with
  | none => .wait r
  | some j =>
    match guardOf r.s j i.seq x.1 with
    | some v => .ok { r with fl := r.fl ||| v.setWidth 9, kept := r.kept ++ [(x.1, v)] }
    | none =>
      let n := (acwFormat w).bytes
      let who : Who := ⟨k, 2, i.seq⟩
      let a := i.a.toNat + x.2.2
      let go := atPiece r who ⟨.T, .rmw, false, true⟩ x.2.1 n (fun s j pa =>
        let v := if w.a.mode = 3 then acwValue w i.a else leNat (tWindow seen a n)
        match (rangeAt s j.fdom (x.2.1 / 64 * 64)).filter (fun g => g.2.1 == w.fmt.toNat && g.2.2 == wordLow w) with
        | some g =>
          let s := absorb s (jCluster k) (lineOf pa) j.fdom g.1 g.2.1 g.2.2 (pa % 64 / n) v
          .ok { r with s := noteAccess s who pa n true true false, kept := r.kept ++ [(x.1, 0)] }
        | none =>
          let q := memReady s who (wordSc w) pa
          if !q.2 then .wait r
          else
            let g := acwOp w w.rm.toNat
            let m := memRmw q.1 who (wordSc w) pa n (fun old => natLe n (g (leNat old) v).1)
            let fl := (g (leNat m.2) v).2
            .ok { r with s := m.1, fl := r.fl ||| fl, kept := r.kept ++ [(x.1, fl.setWidth 64)] })
      if w.a.mode = 3 then go else tPoison r k a n go

/-- A word of one element is not applied again when a port kept its result (R234): `flags` are those of the kept old value. -/
def onceOnly (k : Nat) (i : InFlight) (r : CRun) (flags : Word → Fl) (go : CRes) : CRes :=
  match (jobAt r.s k).bind (fun j => guardOf r.s j i.seq 0) with
  | some v => .ok { r with fl := r.fl ||| flags v, kept := [(0, v)] }
  | none => go

/-- ACWF: the old value goes to q13. -/
def acwfOne (k : Nat) (i : InFlight) (w : EWord) (r : CRun) : CRes :=
  let n := (acwFormat w).bytes
  let who : Who := ⟨k, 2, i.seq⟩
  onceOnly k i r (fun v => (acwOp w w.rm.toNat v.toNat (acwValue w i.a)).2) <| atPiece r who ⟨.T, .rmw, false, true⟩ i.d.toNat n (fun s _ pa =>
    let q := memReady s who (wordSc w) pa
    if !q.2 then .wait r
    else
      let g := acwOp w w.rm.toNat
      let m := memRmw q.1 who (wordSc w) pa n (fun old => natLe n (g (leNat old) (acwValue w i.a)).1)
      .ok { r with s := m.1, fl := r.fl ||| (g (leNat m.2) (acwValue w i.a)).2, kept := [(0, BitVec.ofNat 64 (leNat m.2))] })

/-- CAS: nothing is written when the comparison fails (R231). [DEDUCED, unsafe: log entry 74] -/
def casOne (k : Nat) (i : InFlight) (w : EWord) (r : CRun) : CRes :=
  let n := (casWidth w)
  let who : Who := ⟨k, 2, i.seq⟩
  onceOnly k i r (fun _ => 0) <| atPiece r who ⟨.T, .rmw, false, true⟩ i.d.toNat n (fun s j pa =>
    let q := memReady s who (wordSc w) pa
    if !q.2 then .wait r
    else
      let old := ((scopeRead q.1 (jCoreKey k) (effScope (wordSc w)) (lineOf pa) j.fdom).2.drop (pa % 64)).take n
      let m := if leNat old = i.a.toNat % 2 ^ (8 * n) then memRmw q.1 who (wordSc w) pa n (fun _ => natLe n i.b.toNat)
        else memLoad q.1 who (wordSc w) pa n false
      .ok { r with s := m.1, kept := [(0, BitVec.ofNat 64 (leNat m.2))] })

/-- A row of SCAT takes the next number from its die to the receiver, which places rows in that order (R325, R327). -/
def scatNumber (s : State) (die src : Nat) : State :=
  let d := dieSt s die
  setDie s die { d with scatSeq := smSet d.scatSeq src ((smGetD d.scatSeq src 0 + 1) % 2 ^ 48) }

/-- One row of SCAT: its pick record's place is checked before it leaves; the record is written on path T (R324, R327, R329). [DEDUCED, unsafe: log entry 69] -/
def scatRow (k : Nat) (i : InFlight) (seen : Nat → Byte) (r : CRun) (x : Nat × Nat) : CRes :=
  match jobAt r.s k with
  | none => .wait r
  | some j =>
    match guardOf r.s j i.seq x.1 with
    | some v => .ok { r with kept := r.kept ++ [(x.1, v)] }
    | none =>
      let n := i.shape.rb
      let a := i.a.toNat + x.1 * n
      let tag := bits x.2 64 64
      let who : Who := ⟨k, 2, i.seq⟩
      if tag % 64 ≠ 0 then .trap r 0x03 tag
      else
        tPoison r k a n (atPiece r who ⟨.T, .write, false, false⟩ tag 64 (fun s j pa =>
          let q := memReady s who 3 pa
          let die := bits x.2 0 2
          let row := tWindow seen a n
          if !q.2 || ingWaits q.1 die (jDie k) j.fdom tag (bits x.2 16 16) row then .wait r
          else
            let p := ingest (scatNumber q.1 die (jDie k)) die (jDie k) j.fdom j.launch tag (bits x.2 16 16) row
            let m := memReady p.1 who 3 pa
            .ok { r with s := memStore m.1 who 3 pa p.2.2 false none, kept := r.kept ++ [(x.1, BitVec.ofNat 64 p.2.1)] }))

/-! ### FLSH and INVL (R229) -/

/-- The L1s of a scope instance, and for die scope the slices of its clusters, drop the lines and replicas they hold below its point. [DEDUCED, unsafe: log entry 43] -/
def dropBelow (s : State) (core sc line : Nat) : State :=
  let cores := s.cores.map (fun e =>
    if inInst sc core e.1 then (e.1, { e.2 with caught := e.2.caught.filter (· != line), lru := e.2.lru.filter (· != line) }) else e)
  let below := fun (h : Holder) => if h.core < 64 then inInst sc core (core / 64 * 64 + h.core) else sc == 2 && h.core != 80
  setHolders { s with cores := cores } (core / 64) line ((holders s (core / 64) line).filter (fun h => !below h))

/-- The scope copies of a line below the scope point of `t` in its instance. -/
def copiesBelow (s : State) (core t line : Nat) : List ScopeCopy :=
  s.M.scopes.filter (fun c => c.line == line && decide (c.level < t) && inInst t core (instCore c.level c.inst))

/-- The dirty copies of a line below the scope point go there; `keep` leaves the copies where they are, clean. -/
def publishBelow (s : State) (core t line : Nat) (keep : Bool) : State :=
  let cs := (copiesBelow s core t line).filter (fun c => !keep || c.mask != 0)
  let s := publishSel s (fun c => cs.contains c || (!keep && c.line == line && decide (c.level < t) && inInst t core (instCore c.level c.inst))) t
  if keep then cs.foldl (fun s c =>
    let o := instCore c.level c.inst
    let s := relClone s line (standsAt s o line 4 (c.level + 1)) (some (c.level, c.inst))
    putCopy s { c with bytes := lineFrom s o line 4 (c.level + 1), mask := 0, launches := [] }) s
  else s

/-- FLSH and INVL of a line at scope `sc`: dirty copies below the scope point go there; at device scope they reach the home, but host memory behind
the bulk window only at system scope (R274); `drop` drops every copy below the point. -/
def flushLine (s : State) (core f sc line : Nat) (drop : Bool) : State :=
  let t := effScope sc
  let s := publishBelow (combineLine s line) core t line (!drop)
  let home := decide (3 ≤ t) && (sc == 4 || !bulkLine s line)
  let s := if home && lineDirty s line then watchHit (writeBackLine s line) line 3 2 f (core / 64) else s
  if !drop then s
  else if 3 ≤ t then
    let s := dirRevoke s line f none
    let s := if home then dropStale s line else s
    dropReplicas { s with M := { s.M with dir := smErase s.M.dir line, tags := smErase s.M.tags line } } (fun ln _ => ln == line)
  else if t = 0 then s
  else dropBelow s core t line

/-- A piece of FLSH or INVL. [DEDUCED, unsafe: log entry 43] -/
def flushPiece (k : Nat) (i : InFlight) (sc : Nat) (drop : Bool) (r : CRun) (p : Piece) : CRes :=
  atPiece r ⟨k, 2, i.seq⟩ ⟨.T, .read, false, false⟩ p.va p.n (fun s j pa =>
    .ok { r with s := flushLine s (jCoreKey k) j.fdom sc (lineOf pa) drop })

/-! ### Retirement -/

/-- Number the members of a list. -/
def numbered {α : Type} (l : List α) : List (Nat × α) := (List.range l.length).zip l

/-- The word's reads of the window are made. -/
def readsWindow (s : State) (k : Nat) (j : Job) (i : InFlight) : State :=
  match i.window with
  | some (a, n, false) => setJob s k (j.winUse s.fresh .T i.seq i.know [(a, n)] false)
  | _ => s

/-- Perform what is left of the footprint of a word in flight, up to the piece `pause`. [DEDUCED, unsafe: log entry 73] -/
def performTo (pause : Option Nat) (s : State) (k : Nat) (j : Job) (i : InFlight) : CRes :=
  let r : CRun := ⟨prefetch (readsWindow s k j i) j.fdom i, i.part.done, i.part.kept, i.part.fl, i.part.bytes, pause⟩
  let c := i.shape
  let empty := c.rb == 0 || c.nr == 0
  let rows := fun (mem : Nat) (rs : Int) => if empty then [] else rowPieces (copyRows c mem rs) c.rb
  let quiet := j.replay.isSome
  let seen := winSeen s j .T i.know
  match i.word with
  | .cpy w => runPieces (cpyPiece k i w (some i.d.toNat)) r (rows i.a.toNat i.b.toInt)
  | .cpyg w => if empty then .ok r else runPieces (cpygPiece k i w) r (cpygPieces i)
  | .cpyd w => runPieces (cpyPiece k i w (if w.func.getLsbD 1 then none else some i.d.toNat)) r (rows i.a.toNat i.b.toInt)
  | .cpym w => runPieces (cpymPiece k i w) r (rows i.a.toNat c.rb)
  | .dgst _ => one r (fun r => lRead r k i false ⟨i.a.toNat, 0, 64⟩ (fun s l _ => .ok { r with s := s, bytes := l }))
  | .cps w => if quiet then .ok r else runPieces (cpsPiece k i seen (wordSc w) true) r (rows i.d.toNat i.b.toInt)
  | .cpst w =>
    if quiet then .ok r
    else
      let ps := rows i.d.toNat c.rb
      runPieces (fun r (p : Option Piece) => match p with
        | some p => cpsPiece k i seen 3 false r p
        | none => .ok { r with s := throwLines r.s k (wordSc w) i.b (ps.map (fun p => p.va)) }) r (ps.map some ++ [none])
  | .acw w => if quiet || empty then .ok r
    else runPieces (acwElem k i seen w) r (numbered (elemList (copyRows c i.d.toNat i.b.toInt) c.rb (acwFormat w).bytes))
  | .acwf w => if quiet then .ok { r with kept := [(0, Config.freeWord s.fresh)] } else one r (acwfOne k i w)
  | .cas w => if quiet then .ok { r with kept := [(0, Config.freeWord s.fresh)] } else one r (casOne k i w)
  | .scat _ => if quiet then .ok r else runPieces (scatRow k i seen) r (numbered i.eff.recv)
  | .flsh w => if quiet then .ok r else runPieces (flushPiece k i (wordSc w) false) r (rows i.d.toNat i.b.toInt)
  | .invl w => if quiet then .ok r else runPieces (flushPiece k i (wordSc w) true) r (rows i.d.toNat i.b.toInt)
  | _ => .ok r
where
  /-- A word of one piece. -/
  one (r : CRun) (f : CRun → CRes) : CRes := runPieces (fun r (_ : Unit) => f r) r [()]

/-- Perform what is left of it. -/
def perform (s : State) (k : Nat) (j : Job) (i : InFlight) : CRes := performTo none s k j i

/-! ### Progress before retirement (R219, R220, R233) -/

/-- The lines that a word accesses. -/
def wordLines (s : State) (j : Job) (i : InFlight) : List Nat :=
  (wordVas i).filterMap (fun va => match translateMem s j.fdom false va .read with | .ok pa => some (lineOf pa) | _ => none)

/-- Nothing of the word is left to perform. -/
def performed (s : State) (k : Nat) (j : Job) (i : InFlight) : Bool :=
  match performTo (some i.part.done) s k j i with
  | .ok _ => true
  | _ => false

/-- Words that send rows keep their order too (R232). -/
def sendsRows : Instr → Bool
  | .scat _ => true
  | _ => false

/-- A later word of the stream may go on beside an earlier one: that one is performed, or shares no line with it (R220). -/
def passes (s : State) (k : Nat) (j : Job) (i e : InFlight) : Bool :=
  performed s k j e || (!(sendsRows i.word && sendsRows e.word) && (wordLines s j e).all (fun l => !(wordLines s j i).contains l))

/-- Up to `n` more pieces of word `w` in flight of a stream are performed; it does not retire by that, and stays as it is where it meets a
failure (R219, R221, R233). -/
def progressWord (s : State) (k : Nat) (e : EStream) (w n : Nat) : State :=
  match jobAt s k with
  | none => s
  | some j =>
    let fl := (j.eng e).inflight
    match fl[w]? with
    | none => s
    | some i =>
      if j.phase != .running || j.level != .job || e == .X || traceStall s j e.toStream || !(fl.take w).all (passes s k j i) then s
      else match performTo (some (i.part.done + n)) s k j i with
        | .ok r | .wait r => modJob (bankShare r.s (jCluster k) (copyUser k e)) k (fun j =>
            j.setEng e { j.eng e with inflight := (j.eng e).inflight.set w { i with part := ⟨r.done, r.kept, r.fl, r.bytes⟩ } })
        | .trap _ _ _ => s

/-- A copy status entry (R218). -/
def copyStatus (i : InFlight) (code count : Nat) : Word :=
  BitVec.ofNat 64 (6 * 2 ^ 60 + code * 2 ^ 56 + Nat.min count 65535 * 2 ^ 40 + i.seq % 2 ^ 40)

/-- The entry the word pushes. -/
def copyEntry (s : State) (j : Job) (i : InFlight) (r : CRun) : Word :=
  match i.word with
  | .acwf _ | .cas _ => ((r.kept.head?).map (·.2)).getD 0
  | .dgst _ => verdict j.core.digest r.bytes
  | .scat _ => let n := (r.kept.filter (fun x => x.2 != 0)).length; copyStatus i (if n = 0 then 0 else 1) n
  | .cpym _ => let n := if i.shape.total = 0 then 0 else skipped s i; copyStatus i (if n = 0 then 0 else 2) n
  | _ => copyStatus i 0 0

/-- The job's digest context after the word. -/
def digestAfter (j : Job) (i : InFlight) (r : CRun) : Digest :=
  match i.word with
  | .cpyd w => digestAdd w j.core.digest r.bytes
  | .dgst _ => Digest.reset
  | _ => j.core.digest

/-- The word retires: its entry, its tokens, its number, its flags (R25, R28, R219). [DEDUCED, unsafe: log entry 73] -/
def copyRetire (k : Nat) (e : EStream) (i : InFlight) (r : CRun) : State :=
  match jobAt r.s k with
  | none => r.s
  | some j =>
    let v := copyEntry r.s j i r
    let d := digestAfter j i r
    let j := match statusQueue i with | some q => ((j.qRes q false).qPush q v).post q (queuePath q) | none => j
    let j := (j.tokRetire e (tokBits i.word)).orFlags (r.fl ||| i.eff.flags)
    let j := { j with core := { j.core with digest := d } }
    let j := j.setEng e { j.eng e with seq := i.seq, inflight := (j.eng e).inflight.drop 1 }
    let s := traceWord (dropGuards r.s j i.seq) k j e.toStream i.pc i.seq
    let s := bankShare s (jCluster k) (copyUser k e)
    setJob s k (fenceNote (j.stallEnd e.toStream) e)

/-- The oldest word in flight of a running job's L or T stream. -/
def headWord (j : Job) (e : EStream) : Option InFlight :=
  if j.phase == .running && j.level == .job && e != .X then (j.eng e).inflight.head? else none

/-- The word stops where it failed: what it moved stays, the trap names the address, the word is journaled first (R221). -/
def copyStop (k : Nat) (e : EStream) (j : Job) (i : InFlight) (r : CRun) (code v : Nat) : State :=
  let s := keepGuards r.s j i r.kept
  let s := modJob s k (fun j => j.stallEnd e.toStream)
  takeTrapAt s k e.toStream (some i.pc) code v .trap

/-- The word waits where a line is held back or a page is frozen; what it has done stays done (R221, R382). -/
def copyWait (k : Nat) (e : EStream) (r : CRun) : State :=
  modJob r.s k (fun j =>
    let fl := match (j.eng e).inflight with
      | i :: l => { i with part := ⟨r.done, r.kept, r.fl, r.bytes⟩ } :: l
      | [] => []
    (j.setEng e { j.eng e with inflight := fl }).stallNote r.s e.toStream)

/-- ENGINE_WORD_RETIRE: the oldest word in flight of L or T is performed and retires; it stays in flight while a line is held back or a
page is frozen, and traps where its footprint fails. -/
def execEngineWordRetire (k : Nat) (e : EStream) (s : State) : Out :=
  match jobAt s k with
  | none => .next s
  | some j =>
    match headWord j e with
    | none => .next s
    | some i =>
      if traceStall s j e.toStream then .next s
      else match perform s k j i with
        | .ok r => .next (copyRetire k e i r)
        | .wait r => .next (copyWait k e r)
        | .trap r c v => .next (copyStop k e j i r c v)

/-- COPY_TRAP_IN_FLIGHT: the oldest word in flight of L or T meets a failure; nothing happens when it meets none. -/
def execCopyTrapInFlight (k : Nat) (e : EStream) (s : State) : Out :=
  match jobAt s k with
  | none => .next s
  | some j =>
    match headWord j e with
    | none => .next s
    | some i =>
      match perform s k j i with
      | .trap r c v => .next (copyStop k e j i r c v)
      | _ => .next s

end Sys2Proof.Machine
end

