-- ==== Sys2Proof/Machine/Weights.lean ====
section
/-!
DEFINITION. Weight sets (R145, R385 to R391): the table of a domain, usable generations, the reference WGEN takes, its release and the
freeing of a generation. The device reads and writes the table through the domain's pages.
-/
namespace Sys2Proof.Machine

/-- An address lies on an entry of the domain's table (R385). -/
def inTable (s : State) (f entry : Nat) : Bool :=
  let d := domainSt s f
  let b := d.wtBase.toNat
  decide (b ≤ entry) && decide (entry < b + 64 * d.wtCount) && (entry - b) % 64 == 0

/-- The entry keeps R385: GBASE 64-byte aligned, GLOG at most 8, reserved bits zero (R6). -/
def entryOk (s : State) (f entry : Nat) : Bool :=
  inTable s f entry && virtWord s f (entry + 16) % 64 == 0 && decide (virtWord s f (entry + 24) ≤ 8)
    && decide (virtWord s f entry < 2 ^ 32) && decide (virtWord s f (entry + 8) < 2 ^ 32)
    && [32, 40, 48, 56].all (fun o => virtWord s f (entry + o) == 0)

/-- CUR of an entry. -/
def wtCur (s : State) (f entry : Nat) : Nat := virtWord s f entry % 2 ^ 32
/-- LIVE of an entry. -/
def wtLive (s : State) (f entry : Nat) : Nat := virtWord s f (entry + 8) % 2 ^ 32
/-- The descriptor of generation `g` (R386). -/
def genAddr (s : State) (f entry g : Nat) : Nat := virtWord s f (entry + 16) + 64 * (g % 2 ^ (virtWord s f (entry + 24) % 16))
/-- STATE of a descriptor. -/
def genState (s : State) (f d : Nat) : Nat := bits (virtWord s f d) 32 8
/-- HOLD of a descriptor. -/
def genHold (s : State) (f d : Nat) : Bool := bitOf (virtWord s f d) 40
/-- REFCNT of a descriptor. -/
def genRef (s : State) (f d : Nat) : Nat := virtWord s f (d + 32) % 2 ^ 32

/-- Generation `g` of an entry is usable (R390). -/
def genUsable (s : State) (f entry g : Nat) : Bool :=
  let d := genAddr s f entry g
  g != 0 && virtWord s f d % 2 ^ 32 == g && genState s f d == 2

/-- The entry, or the descriptors it names, are in a page move (R384). -/
def weightMoves (s : State) (f entry : Nat) : Bool :=
  areaMoves s f entry 64 .write
    || (decide (virtWord s f (entry + 24) ≤ 8) && areaMoves s f (virtWord s f (entry + 16)) (64 * 2 ^ (virtWord s f (entry + 24) % 16)) .write)

/-- The shard records of a generation, or the shards, are in a page move. -/
def shardsMove (s : State) (f entry g : Nat) : Bool :=
  let d := genAddr s f entry g
  let n := virtWord s f (d + 24) % 4096 + 1
  areaMoves s f (virtWord s f (d + 16)) (128 * n) .write
    || (List.range n).any (fun i =>
      let r := virtWord s f (d + 16) + 128 * i
      areaMoves s f (virtWord s f r) (bits (virtWord s f (r + 8)) 0 31) .read)

/-- Memory that the references of a launch are kept in is in a page move. -/
def gensMove (s : State) (v : Launch) : Bool := v.wgens.any (fun g => weightMoves s v.fdom g.1)

/-- Write a field of `n` bytes for the device. -/
def wtPut (s : State) (f va n v : Nat) : State := virtWrite s f va (natLe n v)

/-- free_check (R391): an unreferenced generation that nothing names becomes free. -/
def freeCheck (s : State) (f entry g : Nat) : State :=
  let d := genAddr s f entry g
  if genRef s f d = 0 ∧ g ≠ wtCur s f entry ∧ g ≠ wtLive s f entry ∧ genHold s f d = false ∧ (genState s f d = 2 ∨ genState s f d = 3)
      ∧ virtWord s f d % 2 ^ 32 = g then
    raiseEvent (wtPut s f (d + 4) 1 4) f 9 0 s.B.primary entry g
  else s

/-- A reference on a generation is taken. -/
def genTake (s : State) (f entry g : Nat) : State :=
  let d := genAddr s f entry g
  wtPut s f (d + 32) 4 (genRef s f d + 1)

/-- A reference is released (R391). -/
def genRelease (s : State) (f entry g : Nat) : State :=
  let d := genAddr s f entry g
  freeCheck (wtPut s f (d + 32) 4 (genRef s f d - 1)) f entry g

/-- A launch's references are released. -/
def releaseGens (s : State) (l : Nat) : State :=
  match launchAt s l with
  | none => s
  | some v => setLaunch (v.wgens.foldl (fun s g => genRelease s v.fdom g.1 g.2) s) l { v with wgens := [] }

/-- The value WGEN returns for an entry that is out of the table or breaks R385. -/
def wgenBadEntry : Nat := 0xFFFFFFFFFFFFFFFD
/-- For no usable generation. -/
def wgenNone : Nat := 0xFFFFFFFFFFFFFFFE
/-- For a seventeenth entry. -/
def wgenFull : Nat := 0xFFFFFFFFFFFFFFFF

/-- The generation a WGEN step chooses (R390): CUR, else LIVE with SWITCH_REFUSED. -/
def chooseGen (s : State) (f entry die : Nat) : State × Option Nat :=
  let g := wtCur s f entry
  if genUsable s f entry g then (s, some g)
  else
    let s := if g = 0 then s else raiseEvent s f 10 0 die entry g
    let l := wtLive s f entry
    if genUsable s f entry l then (s, some l) else (s, none)

/-- WGEN on an entry by a job of launch `l` (R145, R390). A launch with 16 entries is told so before the new entry is looked at, so no
SWITCH_REFUSED is raised. [DEDUCED, unsafe: log entry 120] -/
def wgenStep (s : State) (l f entry die : Nat) : State × Nat :=
  match launchAt s l with
  | none => (s, wgenNone)
  | some v =>
    match v.wgens.find? (fun g => g.1 == entry) with
    | some g => (s, g.2)
    | none =>
      if !entryOk s f entry then (s, wgenBadEntry)
      else if 16 ≤ v.wgens.length then (s, wgenFull)
      else
        let c := chooseGen s f entry die
        match c.2 with
        | none => (c.1, wgenNone)
        | some g =>
          let old := wtLive c.1 f entry
          let s := wtPut (genTake c.1 f entry g) f (entry + 8) 4 g
          let s := setLaunch s l { v with wgens := v.wgens ++ [(entry, g)] }
          (if old = 0 ∨ old = g then s else freeCheck s f entry old, g)

end Sys2Proof.Machine
end

