-- ==== Sys2Proof/Machine/System.lean ====
section
/-!
DEFINITION. SPAWN and WGEN (R144, R145), CSRR and CSRW (R31, R146), TRAP and the firmware services a handler calls with it (R147, R293,
R325, R360, R385, R431, R444), ERET (R148).
-/
namespace Sys2Proof.Machine

/-! ### SPAWN, WGEN -/

/-- SPAWN: a release at device scope, the record read at issue, then the append. A replay appends nothing (R437).
 [DEDUCED, unsafe: log entry 50; DEDUCED, unsafe: log entry 121] -/
def execSpawn (d a b : BitVec 6) (s : State) : Out :=
  sExec s sJob [d, a, b] noDec (fun k j =>
    let leaf := (j.s a).toNat
    let ea := (j.s b).toNat
    if leaf % 128 ≠ 0 then .trap 0x03 leaf
    else if ea % 128 ≠ 0 then .trap 0x03 ea
    else if !throwsDone s j.uid then .wait s j
    else match sCheckAll s k j ⟨8, .read, false, false⟩ (recordBeats ea) with
      | .error e => sFail s j e
      | .ok l =>
        match sLoads (publishOwn s (jCoreKey k) 3) k 8 3 false l with
        | .stall s => .wait s (curJob s k j)
        | .gone s => .done s
        | .ok s' w =>
          let j' := curJob s' k j
          if j.replay.isSome then .retire s' (j'.setS d (Config.freeWord s.fresh)).next
          else
            match spawnAppend s' j'.launch leaf w (j'.relClk 3) (j'.stallAt .S == some 0) with
            | none => .wait s' (j'.stallNote s' .S)
            | some r => .retire r.1 (((curJob r.1 k j').setS d (BitVec.ofNat 64 r.2)).next.stallEnd .S))

/-- The launch has recorded a generation for the entry. -/
def genRecorded (s : State) (l entry : Nat) : Bool := ((launchAt s l).map (fun v => v.wgens.any (fun g => g.1 == entry))).getD false

/-- WGEN: the first on an entry reads CUR with an acquire at device scope and takes a reference. A replay takes the recorded value. -/
def execWgen (d a : BitVec 6) (s : State) : Out :=
  sExec s sJob [d, a] noDec (fun k j =>
    let ea := (j.s a).toNat
    if ea % 64 ≠ 0 then .trap 0x03 ea
    else match sCheck s k j ⟨8, .read, false, false⟩ ea with
      | .trap c v => .trap c v
      | .stall => .wait s (j.stallNote s .S)
      | .ok pa =>
        let fin := fun (s : State) (j : Job) (v : Nat) =>
          let x := takeIn s k j .S v ea
          SRes.retire x.1 ((x.2.1.setS d (BitVec.ofNat 64 x.2.2)).next.stallEnd .S)
        if j.replay.isSome then fin s j 0
        else if weightMoves s j.fdom ea then .wait s (j.stallNote s .S)
        else if genRecorded s j.launch ea then
          let r := wgenStep s j.launch j.fdom ea (jDie k)
          fin r.1 (curJob r.1 k j) r.2
        else
          let p := memReady s ⟨k, 0, 1⟩ 3 pa
          if !p.2 then .wait p.1 (curJob p.1 k j)
          else
            let rs := relSeen p.1 (jCoreKey k) 3 pa 8
            let m := memLoad p.1 ⟨k, 0, 1⟩ 3 pa 8 false
            let s := setJob m.1 k ((curJob m.1 k j).acquire 0 3 (jCoreKey k) rs)
            let r := wgenStep s j.launch j.fdom ea (jDie k)
            fin r.1 (curJob r.1 k j) r.2)

/-! ### Control and status registers (R31, R146) -/

/-- Read-only CSRs. -/
def csrRo (c : Nat) : Bool :=
  [0x000, 0x001, 0x002, 0x003, 0x010, 0x011, 0x020, 0x021, 0x022, 0x023, 0x050, 0x051, 0x052, 0x053, 0x080, 0x081, 0x090].contains c
/-- CSRs that only a handler writes. -/
def csrH (c : Nat) : Bool := [0x060, 0x061, 0x0A0, 0x0F0, 0x0F1, 0x0F2].contains c

/-- The value of a CSR. -/
def csrRead (s : State) (k : Nat) (j : Job) (c : Nat) : Nat :=
  let core := coreSt s (jCoreKey k)
  let cl := clusterSt s (jCluster k)
  match c with
  | 0x000 => jobid k j
  | 0x001 => jCore k
  | 0x002 => jCore k / 4
  | 0x003 => jDie k
  | 0x010 => cycleOf s k
  | 0x011 => s.time
  | 0x020 => j.core.S.seq
  | 0x021 => j.core.L.seq
  | 0x022 => j.core.X.seq
  | 0x023 => j.core.T.seq
  | 0x030 => j.core.flags.toNat
  | 0x031 => (j.core.elog.headD 0).toNat
  | 0x040 => j.core.fmt[0].toNat
  | 0x041 => j.core.fmt[1].toNat
  | 0x042 => j.core.fmt[2].toNat
  | 0x050 => j.core.rlo.toNat
  | 0x051 => j.core.rhi.toNat
  | 0x052 => j.core.rstat.toNat
  | 0x053 => j.core.rpos.toNat
  | 0x060 => core.catchq
  | 0x061 => core.catchref
  | 0x070 => j.core.leaseb
  | 0x080 => cl.hit % 2 ^ 48
  | 0x081 => cl.miss % 2 ^ 48
  | 0x090 => (if s.B.mode = 1 then 2 else 0) + (if ((launchAt s j.launch).map (·.degraded)).getD false then 1 else 0)
  | 0x0A0 => (domainSt s j.fdom).profctl.toNat
  | 0x0F0 => j.trapc.toNat % 256
  | 0x0F1 => j.trapv.toNat
  | 0x0F2 => j.trappc.toNat
  | _ => 0

/-- CSRR; its result is a VALUE record (R436). -/
def execCsrr (d : BitVec 6) (c : BitVec 12) (s : State) : Out :=
  sExec s sAny [d] noDec (fun k j =>
    let x := takeIn s k j .S (csrRead s k j c.toNat) c.toNat
    .retire x.1 (x.2.1.setS d (BitVec.ofNat 64 x.2.2)).next)

/-- What a write of `v` to a CSR of the job does to the job. A write of FMT0 to FMT2 keeps reserved bits 31 to 19, a read returns them and a word
that uses the register traps (R44), where R6 has a CSR ignore them. R31 bounds LEASEB for job-level writes
only: a handler's write stores the low 8 bits unchecked. [DEDUCED, unsafe: log entry 112; DEDUCED, unsafe: log entry 118] -/
def csrJob (j : Job) (c : Nat) (v : Word) : Job :=
  match c with
  | 0x030 => { j with core := { j.core with flags := v.setWidth 9 } }
  | 0x031 => { j with core := { j.core with elog := j.core.elog.drop 1 } }
  | 0x040 => { j with core := { j.core with fmt := j.core.fmt.set 0 (v.setWidth 32) } }
  | 0x041 => { j with core := { j.core with fmt := j.core.fmt.set 1 (v.setWidth 32) } }
  | 0x042 => { j with core := { j.core with fmt := j.core.fmt.set 2 (v.setWidth 32) } }
  | 0x070 => { j with core := { j.core with leaseb := v.toNat % 256 } }
  | 0x0F0 => { j with trapc := BitVec.ofNat 64 (v.toNat % 256) }
  | 0x0F1 => { j with trapv := v }
  | 0x0F2 => { j with trappc := v }
  | _ => j

/-- What it does to a CSR of the core or the domain. [DEDUCED, unsafe: log entry 39] -/
def csrShared (s : State) (k : Nat) (j : Job) (c : Nat) (v : Word) : State :=
  match c with
  | 0x060 => setCore s (jCoreKey k) { coreSt s (jCoreKey k) with catchq := Nat.min v.toNat 64 }
  | 0x061 => setCore s (jCoreKey k) { coreSt s (jCoreKey k) with catchref := v.toNat % 2 ^ 32 }
  | 0x0A0 => setDomain s j.fdom { domainSt s j.fdom with profctl := keep v [(0, 2)] }
  | _ => s

/-- CSRW: permission, then the budget bound of LEASEB (R146). -/
def execCsrw (a : BitVec 6) (c : BitVec 12) (s : State) : Out :=
  sExec s sHnd [a] noDec (fun k j =>
    let v := j.s a
    let n := c.toNat
    if csrRo n || (csrH n && j.level == .job) then .trap 0x06 n
    else if n = 0x070 ∧ j.level = .job ∧ (v = 0 ∨ j.leaseMax < v.toNat) then .trap 0x02 v.toNat
    else .retire (csrShared s k j n v) (csrJob j n v).next)

/-! ### TRAP and firmware services (R147) -/

/-- s8 and so on: the arguments of a service. -/
def Job.arg (j : Job) (n : Nat) : Nat := (j.s (BitVec.ofNat 6 n)).toNat

/-- A firmware service: at job level TRAP stops the job; at handler level the firmware performs `f` and returns s8, when it has one. It waits while
memory it works on is in a page move (R384). -/
def serviceHold (s : State) (imm : Nat) (hold : Job → Bool) (f : Nat → Job → State × Option Nat) : Out :=
  sExec s sHnd [] noDec (fun k j =>
    if j.level = .job then .trap 0x0D imm
    else if hold j then .wait s j
    else
      let r := f k j
      let j' := curJob r.1 k j
      .retire r.1 (match r.2 with | some v => j'.setS 8 (BitVec.ofNat 64 v) | none => j').next)

/-- A service that works on no memory of the caller. -/
def service (s : State) (imm : Nat) (f : Nat → Job → State × Option Nat) : Out := serviceHold s imm (fun _ => false) f

/-- No assigned service: all ones in s8. -/
def noService (_ : Nat) (_ : Job) (s : State) : State × Option Nat := (s, some (2 ^ 64 - 1))

/-- TRAP. -/
def execTrap (i : BitVec 20) (s : State) : Out := service s i.toNat (fun k j => noService k j s)

/-- UNASSIGNED_FIRMWARE_SERVICE: the firmware's answer to a TRAP of value `i` that names no service. -/
def execUnassignedFirmwareService (i : BitVec 20) (s : State) : Out := service s i.toNat (fun k j => noService k j s)

/-- A release and an acquire at device scope of the handler's S accesses. -/
def serviceFence (s : State) (k : Nat) : State :=
  match jobAt s k with
  | none => s
  | some j =>
    let r := fenceDone s k j (fenceGather j [0] 0 3 (jCoreKey k)) 3 1 1 0
    setJob r.1 k r.2

/-- Ranges of virtual lines overlap. -/
def lapLines (a b c d : Nat) : Bool := decide (a ≤ d) && decide (c ≤ b)

/-- OPEN_RANGE (R293): the status and the descriptor. [DEDUCED, unsafe: log entry 90] -/
def openRange (s : State) (f i base last ctl : Nat) : State × Nat :=
  let d := domainSt s f
  if 7 < i ∨ base % 64 ≠ 0 ∨ 2 ^ 52 ≤ base ∨ 2 ^ 52 ≤ last ∨ last / 64 < base / 64 ∨ bits ctl 8 56 ≠ 0 ∨ bits ctl 2 2 ≠ 0 ∨ rangeCtlOk ctl = false then (s, 1)
  else
    let r := d.crng.toList
    if (List.range 8).any (fun n =>
        let w := r.getD n (0, 0, 0)
        n != i && w.1.getLsbD 0 && lapLines (base / 64) (last / 64) (bits w.1.toNat 6 46) (bits w.2.1.toNat 6 46)) then (s, 2)
    else if (r.getD i (0, 0, 0)).1.getLsbD 0 then (s, 3)
    else (setDomain s f { d with crng := d.crng.setIfInBounds i (BitVec.ofNat 64 (base + 1), BitVec.ofNat 64 (last / 64 * 64), BitVec.ofNat 64 ctl) }, 0)

/-- Every line of a range is combined at its home (R293). -/
def combineRange (s : State) (f n : Nat) : State :=
  let ls := (s.clusters.map (fun e => (e.2.partials.filter (fun p => p.2.fdom == f && p.2.rng == n)).map (fun p => p.1))).flatten
  ls.foldl combineLine s

/-- CLOSE_RANGE (R293). -/
def closeRange (s : State) (f i : Nat) : State × Nat :=
  let d := domainSt s f
  let w := d.crng.toList.getD i (0, 0, 0)
  if w.1.getLsbD 0 then
    let s := combineRange s f i
    let d := domainSt s f
    (setDomain s f { d with crng := d.crng.setIfInBounds i (w.1 - 1, w.2) }, 0)
  else (s, 1)

def execOpenRange (s : State) : Out :=
  service s 0x100 (fun k j => let r := openRange (serviceFence s k) j.fdom (j.arg 8) (j.arg 9) (j.arg 10) (j.arg 11); (r.1, some r.2))
def execCloseRange (s : State) : Out :=
  service s 0x101 (fun k j => let r := closeRange (serviceFence s k) j.fdom (j.arg 8); (r.1, some r.2))

/-- The group a descriptor describes, unless a field is refused (R326); its BUF first. -/
def groupOf (f : Nat) (w : List Nat) : Option (Nat × Group) :=
  let g := fun i => w.getD i 0
  let db := bits (g 0) 32 16
  let kk := bits (g 0) 16 4
  let ne := bits (g 0) 0 6 + 1
  let cap := bits (g 3) 0 24
  if bits (g 0) 20 12 ≠ 0 ∨ bits (g 0) 6 9 ≠ 0 ∨ bits (g 3) 24 40 ≠ 0 ∨ g 5 ≠ 0 ∨ g 6 ≠ 0 ∨ g 7 ≠ 0
      ∨ db % 64 ≠ 0 ∨ db < 64 ∨ 16320 < db ∨ kk < 1 ∨ 8 < kk ∨ ne < kk ∨ g 1 % 64 ≠ 0 ∨ g 2 % 64 ≠ 0 ∨ cap < 1 ∨ g 2 < cap * db
      ∨ g 4 % 64 ≠ 0 then none
  else some (bits (g 0) 48 16, ⟨f, db, kk, bitOf (g 0) 15, ne, BitVec.ofNat 64 (g 1), BitVec.ofNat 64 (g 2), cap, BitVec.ofNat 64 (g 4), [], []⟩)

/-- REGISTER (R325). -/
def registerGroup (s : State) (k : Nat) (f va : Nat) : State × Nat :=
  let d := dieSt s (jDie k)
  if va % 64 ≠ 0 ∨ canRead s f va 64 = false then (s, 1)
  else match groupOf f ((wordsOf (virtBytes s f va 64) 8).map BitVec.toNat) with
    | none => (s, 1)
    | some (b, g) =>
      if (smGet d.groups b).isSome then (s, 2)
      else if 256 ≤ d.groups.length then (s, 3)
      else (setDie s (jDie k) { d with groups := smSet d.groups b g }, 0)

/-- A group of the caller's domain and die. -/
def ownGroup (s : State) (k f b : Nat) : Option Group :=
  match smGet (dieSt s (jDie k)).groups b with
  | some g => if g.fdom = f then some g else none
  | none => none

/-- RESET (R325). -/
def resetGroup (s : State) (k f b : Nat) : State × Nat :=
  match ownGroup s k f b with
  | none => (s, 1)
  | some g =>
    let d := dieSt s (jDie k)
    (setDie s (jDie k) { d with groups := smSet d.groups b { g with counts := [], holes := [] } }, 0)

/-- RELEASE (R325). -/
def releaseGroup (s : State) (k f b : Nat) : State × Nat :=
  match ownGroup s k f b with
  | none => (s, 1)
  | some _ =>
    let d := dieSt s (jDie k)
    (setDie s (jDie k) { d with groups := smErase d.groups b }, 0)

def execRegisterBufferGroup (s : State) : Out := serviceHold s 0x200 (fun j => areaMoves s j.fdom (j.arg 8) 64 .read) (fun k j => let r := registerGroup s k j.fdom (j.arg 8); (r.1, some r.2))
def execResetBufferGroup (s : State) : Out := service s 0x201 (fun k j => let r := resetGroup s k j.fdom (j.arg 8); (r.1, some r.2))
def execReleaseBufferGroup (s : State) : Out := service s 0x202 (fun k j => let r := releaseGroup s k j.fdom (j.arg 8); (r.1, some r.2))

/-- SET_CONTEXT_POOL (R359, R360). [DEDUCED, unsafe: log entry 90] -/
def setPool (s : State) (f base last ctl hnd : Nat) : State × Nat :=
  let d := domainSt s f
  if base % 4096 ≠ 0 ∨ 2 ^ 48 ≤ base ∨ 2 ^ 48 ≤ last ∨ last / 4096 < base / 4096 ∨ bits ctl 16 16 ≠ 0 ∨ hnd % 4 ≠ 0 then (s, 1)
  else if !d.reserves.isEmpty then (s, 2)
  else (setDomain s f { d with ctxBase := BitVec.ofNat 64 (base + 1), ctxLim := BitVec.ofNat 64 (last / 4096 * 4096),
                               ctxCtl := BitVec.ofNat 64 ctl, ctxHnd := BitVec.ofNat 64 hnd }, 0)

def execSetContextPool (s : State) : Out :=
  service s 0x300 (fun _ j => let r := setPool s j.fdom (j.arg 8) (j.arg 9) (j.arg 10) (j.arg 11); (r.1, some r.2))

/-- REGISTER_WEIGHT_TABLE (R385). [DEDUCED, unsafe: log entry 90] -/
def setTable (s : State) (f base n iv : Nat) : State × Nat :=
  if base % 64 ≠ 0 ∨ n < 1 ∨ 4096 < n then (s, 1)
  else if s.launches.any (fun e => e.2.fdom == f && !e.2.wgens.isEmpty) then (s, 2)
  else (setDomain s f { domainSt s f with wtBase := BitVec.ofNat 64 base, wtCount := n, wtInterval := if iv = 0 then 600 else iv, wtLast := s.time }, 0)

def execRegisterWeightTable (s : State) : Out :=
  service s 0x400 (fun _ j => let r := setTable s j.fdom (j.arg 8) (j.arg 9) (j.arg 10); (r.1, some r.2))

/-- SET_WATCHPOINT (R431). [DEDUCED, unsafe: log entry 53; DEDUCED, unsafe: log entry 90] -/
def setWatch (s : State) (f n first last ctl : Nat) : State × Nat :=
  if 15 < n ∨ first / 4096 ≠ last / 4096 ∨ last < first ∨ 128 ≤ ctl then (s, 1)
  else match translate s f true first .read with
    | .ok pa =>
      match homeMdie s pa with
      | none => (s, 2)
      | some m =>
        let d := mdieSt s m
        let w := d.watch.toList.getD n Watch.reset
        if w.base.getLsbD 0 && bits w.ctl.toNat 40 12 != f then (s, 3)
        else
          let w := if ctl = 0 then { w with base := 0, lim := 0, ctl := 0 }
            else { w with base := BitVec.ofNat 64 (pa / 64 * 64 + 1), lim := BitVec.ofNat 64 ((pa + (last - first)) / 64 * 64),
                          ctl := BitVec.ofNat 64 (f * 2 ^ 40 + ctl) }
          (setMdie s m { d with watch := d.watch.setIfInBounds n w }, 0)
    | _ => (s, 2)

def execSetWatchpoint (s : State) : Out :=
  serviceHold s 0x500 (fun j => frozenPage s j.fdom (j.arg 9)) (fun _ j => let r := setWatch s j.fdom (j.arg 8) (j.arg 9) (j.arg 10) (j.arg 11); (r.1, some r.2))

/-! ### Attestation (R444) -/

/-- SHARDS and the number of shards of a generation's descriptor. -/
def shardList (s : State) (f d : Nat) : Nat × Nat := (virtWord s f (d + 16), virtWord s f (d + 24) % 4096 + 1)

/-- Every shard is verified. -/
def shardsOk (s : State) (f : Nat) (l : Nat × Nat) : Bool := (List.range l.2).all (fun i => bits (virtWord s f (l.1 + 128 * i + 8)) 32 8 == 1)

/-- The DIGEST fields of the shards in order. -/
def shardDigests (s : State) (f : Nat) (l : Nat × Nat) : List Byte :=
  ((List.range l.2).map (fun i => virtBytes s f (l.1 + 128 * i + 64) 64)).flatten

/-- The topology table's 4 KiB. -/
def tableBytes (s : State) : List Byte := s.B.table ++ List.replicate (4096 - s.B.table.length) 0

/-- The 488 bytes that are signed. -/
def reportBody (s : State) (f : Nat) (nonce : List Byte) (w : Option (Nat × Nat × (Nat × Nat))) : List Byte :=
  natLe 8 0x5A43415400000001
    ++ natLe 8 ((if w.isSome then 1 else 0) + s.B.cdies % 16 * 16 + f % 4096 * 256)
    ++ nonce
    ++ ((List.range 4).map (fun d => if d < s.B.cdies then sha512 (dieSt s d).image else List.replicate 64 0)).flatten
    ++ sha512 (tableBytes s)
    ++ (match w with
      | none => List.replicate 80 0
      | some (e, g, l) => natLe 8 e ++ natLe 8 (g * 2 ^ 32 + (l.2 - 1)) ++ sha512 (shardDigests s f l))
    ++ natLe 8 s.time

/-- Write the report: signed by the primary C-die. [DESIGN CHOICE, safe: log entry 6] -/
def writeReport (s : State) (f buf : Nat) (body : List Byte) : State :=
  virtWrite s f buf (body ++ ((Config.identitySign s.B.primary body ++ List.replicate 132 0).take 132) ++ List.replicate 20 0)

/-- ATTESTATION_REPORT. -/
def attest (s : State) (f nonce buf opt entry : Nat) : State × Nat :=
  if buf % 64 ≠ 0 ∨ 1 < opt ∨ canRead s f nonce 64 = false ∨ canWrite s f buf 640 = false then (s, 1)
  else if opt = 0 then (writeReport s f buf (reportBody s f (virtBytes s f nonce 64) none), 0)
  else
    let g := wtCur s f entry
    if !entryOk s f entry || !genUsable s f entry g then (s, 2)
    else
      let l := shardList s f (genAddr s f entry g)
      if !shardsOk s f l then (s, 3)
      else (writeReport s f buf (reportBody s f (virtBytes s f nonce 64) (some (entry, g, l))), 0)

/-- The memory an attestation works on is in a page move. -/
def attestMoves (s : State) (f nonce buf opt entry : Nat) : Bool :=
  areaMoves s f nonce 64 .read || areaMoves s f buf 640 .write || (opt == 1 && (weightMoves s f entry || shardsMove s f entry (wtCur s f entry)))

def execAttestationReport (s : State) : Out :=
  serviceHold s 0x600 (fun j => attestMoves s j.fdom (j.arg 8) (j.arg 9) (j.arg 10) (j.arg 11)) (fun _ j => let r := attest s j.fdom (j.arg 8) (j.arg 9) (j.arg 10) (j.arg 11); (r.1, some r.2))

/-! ### ERET (R148) -/

/-- ERET: at job level trap 0x06; a handler returns to the stopped job. -/
def execEret (s : State) : Out :=
  sExec s sHnd [] noDec (fun k j => if j.level = .job then .trap 0x06 0xEC000000
    else if areaMoves s j.fdom j.ctxAddr.toNat j.ctxLen .read then .wait s j
    else .done (returnFromTrap s k j))

end Sys2Proof.Machine
end

