-- ==== Sys2Proof/Machine/Walker.lean ====
section
/-!
DEFINITION. The dispatch hardware (R11, R33, R248, R351 to R357): placing jobs in free slots, the walkers' ticket ranges, budgets, ageing,
and the completion of a launch; and the passing of time.
-/
namespace Sys2Proof.Machine

/-! ### Room for a job (R11, R33, R248, R360) -/

/-- Accumulators of a core that resident jobs hold. -/
def accsUsed (s : State) (core : Nat) : Nat := s.jobs.foldl (fun (n : Nat) e => if jCoreKey e.1 = core then n + e.2.nAcc else n) 0

/-- Operand slots of a cluster that resident jobs hold. -/
def slotsUsed (s : State) (cl : Nat) : Nat := s.jobs.foldl (fun (n : Nat) e => if jCluster e.1 = cl then n + e.2.nSlot else n) 0

/-- Whether `[b, b + n)` meets none of the spans. -/
def spanFree (l : List (Nat × Nat)) (b n : Nat) : Bool := l.all (fun x => decide (b + n ≤ x.1) || decide (x.1 + x.2 ≤ b))

/-- The lowest multiple of `g` at or above `lo` where `n` units fit below `hi` beside the spans. -/
def firstFit (l : List (Nat × Nat)) (g lo hi n : Nat) : Option Nat :=
  let up := fun v => (v + g - 1) / g * g
  let cand := (up lo :: l.map (fun x => up (x.1 + x.2))).filter (fun b => decide (up lo ≤ b) && decide (b + n ≤ hi) && spanFree l b n)
  cand.foldl (fun (m : Option Nat) b => match m with | none => some b | some x => some (Nat.min x b)) none

/-- Where a window of `n` bytes goes in a cluster's scratchpad: a multiple of 496 bytes. -/
def windowFit (s : State) (cl n : Nat) : Option Nat :=
  if n = 0 then some 0
  else
    let l := s.jobs.filterMap (fun e => if jCluster e.1 = cl ∧ 0 < e.2.core.win.size then some (e.2.core.win.base, e.2.core.win.size) else none)
    firstFit l 496 0 Config.spadBytes n

/-- Where `n` bytes fit in a domain's save pool; 0 without a pool. -/
def reserveFit (s : State) (f n : Nat) : Option Nat :=
  let d := domainSt s f
  if !hasPool s f then some 0
  else firstFit (d.reserves.map (fun r => (r.addr, r.len))) 64 (bits d.ctxBase.toNat 12 36 * 4096) (bits d.ctxLim.toNat 12 36 * 4096 + 4096) n

/-- The resources of slot `k` can meet the header of `j`: the window's base. -/
def slotFits (s : State) (j : Job) (k : Nat) : Option Nat :=
  if (jobAt s k).isSome || decide (Config.accsPerCore < accsUsed s (jCoreKey k) + j.nAcc)
      || decide (Config.slotsPerCluster < slotsUsed s (jCluster k) + j.nSlot) then none
  else windowFit s (jCluster k) j.spad

/-- The first free slot of a core that fits. -/
def coreFits (s : State) (j : Job) (core : Nat) : Option (Nat × Nat) :=
  (List.range 4).findSome? (fun i => (slotFits s j (4 * core + i)).map (fun b => (4 * core + i, b)))

/-- The die takes jobs: it is present, the package has booted and the die is not held in reset. -/
def dieRuns (s : State) (die : Nat) : Bool := decide (die < s.B.cdies) && s.B.status == 1 && !(dieSt s die).held

/-- The slot that serves a job on a die, cores in order after the core last served (R353). -/
def dieFits (s : State) (j : Job) (die : Nat) : Option (Nat × Nat) :=
  (List.range 64).findSome? (fun i => coreFits s j (64 * die + ((dieSt s die).lastCore + 1 + i) % 64))

/-- The job a ticket of a launch would be, not yet placed. -/
def ticketJob (l : Nat) (v : Launch) (ticket : Nat) (core : JobCore) (ctx order time : Nat) : Job :=
  newJob l ticket v.serial v.fdom v.hdr0 v.hdr1 core (BitVec.ofNat 64 ctx) order time v.vc

/-- A core with nothing in it, for the questions a header answers. -/
def blankCore : JobCore := newCore [] (newS [] 0 0) 0 (newWindow 0 0 none)

/-- The job of a launch's header. -/
def headerJob (l : Nat) (v : Launch) : Job := ticketJob l v 0 blankCore 0 0 0

/-! ### Windows and indices at job start (R14, R33, R354) -/

/-- The contents of a new window: zero when any of its bytes last belonged to another domain, else undefined. -/
def windowStart (s : State) (cl f base size : Nat) : Window :=
  let other := (clusterSt s cl).owners.any (fun o => o.2.2 != f && decide (o.1 < base + size) && decide (base < o.1 + o.2.1))
  newWindow size base (if other || size == 0 then none else some s.fresh)

/-- The indices of a ticket, level by level in ORDER. -/
def ticketIdx (w : List Nat) (ticket : Nat) : List Nat :=
  let r := (List.range (recDepth w)).foldl (fun (a : List (Nat × Nat) × Nat) k =>
    let l := recLevel w k
    let c := recCount w l
    (a.1 ++ [(l, a.2 % c)], a.2 / c)) ([], ticket)
  (List.range 5).map (fun l => ((r.1.find? (fun x => x.1 == l)).map (·.2)).getD 0)

/-! ### Dispatch (R352, R353) -/

/-- The ticket range of a die. -/
def rangeOfDie (v : Launch) (die : Nat) : Nat × Nat := v.ranges.getD die (0, 0)

/-- A launch's priority. -/
def launchPrio (s : State) (v : Launch) : Nat := Nat.min 7 (effPrio s v.leaf + v.age)

/-- Of two launches, the one the device considers first. -/
def earlier (s : State) (a b : Nat × Launch) : Bool :=
  let p := launchPrio s a.2
  let q := launchPrio s b.2
  if p ≠ q then decide (q < p)
  else if a.2.order ≠ b.2.order then decide (a.2.order < b.2.order)
  else if a.2.leaf ≠ b.2.leaf then decide (a.2.leaf < b.2.leaf)
  else decide (a.2.idx ≤ b.2.idx)

/-- Ready launches with budget, first considered first; a saved job is ready as part of its launch, a lost one too (R352, R370, R372). -/
def readyList (s : State) : List (Nat × Launch) :=
  sortBy (earlier s) (s.launches.filter (fun e =>
    (e.2.st == .ready || s.saved.any (fun x => x.2.launch == e.1)) && (domainSt s e.2.fdom).domRst != 1 && hasBudget s e.2.leaf))

/-- Where a saved job can resume on its die: the same core, then the same cluster, then any core (R370). [DESIGN CHOICE, unsafe: log entry 80] -/
def resumeFit (s : State) (j : Job) : Option (Nat × Nat) :=
  let die := jDie j.home
  let inBarrier := s.clusters.any (fun e => e.2.barriers.any (fun b => b.parts.contains j.uid))
  let cl := jCluster j.home
  let cores := jCoreKey j.home :: (List.range 4).map (fun i => 4 * cl + i) ++ (if inBarrier then [] else (List.range 64).map (fun i => 64 * die + i))
  if !dieRuns s die then none else cores.findSome? (coreFits s j)

/-- The saved job of the launch that resumes next on the die. -/
def savedNext (s : State) (l die : Nat) : Option Nat :=
  (s.saved.find? (fun e => e.2.launch == l && jDie e.2.home == die && (resumeFit s e.2).isSome)).map (·.1)

/-- A saved job of the launch can resume on the die; it goes before the launch's tickets (R370). -/
def savedWaits (s : State) (l die : Nat) : Bool := (savedNext s l die).isSome

/-- Place ticket `lo` of a launch in slot `k`. -/
def placeTicket (s : State) (l : Nat) (v : Launch) (die k base ctx : Nat) : State :=
  let w := v.words.map BitVec.toNat
  let r := rangeOfDie v die
  let h := headerJob l v
  let regs := newS (ticketIdx w r.1) r.1 (BitVec.ofNat 64 (w.getD 8 0))
  let entry := (List.range 4).map (fun i => BitVec.ofNat 64 (w.getD (1 + i) 0))
  let core := newCore entry regs h.leaseMax (windowStart s (jCluster k) v.fdom base h.spad)
  let j := ticketJob l v r.1 core ctx s.order s.time
  let d := domainSt s v.fdom
  let s := if hasPool s v.fdom then setDomain s v.fdom { d with reserves := d.reserves ++ [⟨j.uid, ctx, h.reserveLen⟩] } else s
  let s := setLaunch s l { v with ranges := v.ranges.set die (r.1 + 1, r.2), undisp := v.undisp - 1, age := 0, ageStart := s.time }
  let s := setDie s die { dieSt s die with lastCore := jCore k }
  updateReady (wakeSlot (bankShare { setJob s k { j with home := k } with order := s.order + 1 } (jCluster k) 16) k)

/-- The slot, window base and save area of the next ticket of a launch on a die. -/
def ticketFit (s : State) (l : Nat) (v : Launch) (die : Nat) : Option (Nat × Nat × Nat) :=
  let r := rangeOfDie v die
  let h := headerJob l v
  if r.2 ≤ r.1 then none
  else match dieFits s h die, reserveFit s v.fdom h.reserveLen with
    | some p, some a => some (p.1, p.2, a)
    | _, _ => none

/-- The launch that takes a free slot of a die next: the first with a saved job or a ticket that fits (R352, R370). -/
def taker (s : State) (die : Nat) : Option (Nat × Launch) :=
  (readyList s).find? (fun e => savedWaits s e.1 die || (e.2.st == .ready && (ticketFit s e.1 e.2 die).isSome))

/-- It is the saved job's turn on its die. -/
def savedTurn (s : State) (j : Job) : Bool :=
  (taker s (jDie j.home)).map (·.1) == some j.launch && savedNext s j.launch (jDie j.home) == some j.uid

/-- JOB_DISPATCH: a free slot of a die takes a ticket of the first launch that fits, unless a saved job goes first. -/
def execJobDispatch (die : Nat) (s : State) : Out :=
  if !dieRuns s die then .next s
  else match taker s die with
    | none => .next s
    | some e =>
      if savedWaits s e.1 die then .next s
      else match ticketFit s e.1 e.2 die with
        | none => .next s
        | some p => .next (placeTicket s e.1 e.2 die p.1 p.2.1 p.2.2)

/-- WALKER_STEAL: a walker whose range is empty takes half of the largest other range (R353). -/
def execWalkerSteal (l die : Nat) (s : State) : Out :=
  match launchAt s l with
  | none => .next s
  | some v =>
    let mine := rangeOfDie v die
    if v.st ≠ .ready ∨ v.ranges.length ≤ die ∨ mine.1 < mine.2 then .next s
    else
      let left := fun (i : Nat) => (rangeOfDie v i).2 - (rangeOfDie v i).1
      let best := (List.range v.ranges.length).foldl (fun (b : Nat) i => if i ≠ die ∧ left b < left i then i else b) (if die = 0 then 1 else 0)
      let c := left best
      if c < 2 then .next s
      else
        let r := rangeOfDie v best
        let cut := r.2 - c / 2
        .next (setLaunch s l { v with ranges := (v.ranges.set best (r.1, cut)).set die (cut, r.2) })

/-! ### The tree (R344, R345, R351, R352, R397) -/

/-- TAIL_REREAD: the dispatch hardware reads a leaf's TAIL, an acquire at system scope of what the host knows (R256, R397). -/
def execTailReread (leaf : Nat) (s : State) : Out := .next (tailRead s leaf s.R.hostClk)

/-- PERIOD_BOUNDARY: USED starts at 0, the node's fields are read again, and so is the TAIL of a host-fed leaf outside the mailbox window. -/
def execPeriodBoundary (node : Nat) (s : State) : Out :=
  match smGet s.leaves node with
  | none => .next s
  | some l =>
    if s.time < l.boundary then .next s
    else
      let s := setRecWord s node 4 0
      let s := if rcbOk s node then readNode s node else forgetNode s node
      let s := fixBoundaries (modLeaf s node (fun l => { l with boundary := 0 }))
      .next (if l.w0.getLsbD 62 && !l.w0.getLsbD 61 && rangeOf s node != .mailbox then tailRead s node s.R.hostClk else s)

/-- AGE_LEVEL_TICK: a ready launch with budget has waited another 10 ms without a dispatch. -/
def execAgeLevelTick (l : Nat) (s : State) : Out :=
  match launchAt s l with
  | none => .next s
  | some v =>
    if v.st ≠ .ready ∨ v.undisp = 0 then .next s
    else if !hasBudget s v.leaf then .next (setLaunch s l { v with ageStart := s.time })
    else if s.time < v.ageStart + 10000000 then .next s
    else .next (setLaunch s l { v with age := Nat.min 7 (v.age + 1), ageStart := v.ageStart + 10000000 })

/-! ### Completion (R355 to R357) -/

/-- The signal write: a 64-bit strong store and a release of everything the launch did; at system scope the bytes of the host windows reach
the host first (R355, R398). [DEDUCED, unsafe: log entry 85] -/
def signalWrite (s : State) (v : Launch) : State :=
  let w := fun i => (v.words.getD i 0).toNat
  let va := w 9
  if va = 0 then s
  else
    let fault := fun (s : State) c => raiseEvent s v.fdom 2 c s.B.primary va v.serial
    match translateMem s v.fdom false va .write with
    | .fail c => fault s c
    | .frozen => fault s 0x05
    | .ok pa =>
      let sys := bitOf (w 15) 2
      let s := if sys then flushWindows s else s
      let s := deviceWrite s pa (natLe 8 (w 10))
      let s := relWrite s none pa 8 false [⟨pa, 8, none, if sys then 4 else 3, deviceAgent, v.vcEnd⟩]
      let t := tenantSt s v.tenant
      if sys && t.run && t.irqd.getLsbD 32 then sendIrq s v.tenant 1 else s

/-- The signal write of launch `l` waits: for 50 µs at a frozen page (R384), and for scope copies that hold it back in mode 1 (R290). [DEDUCED, unsafe: log entry 85] -/
def signalHeld (s : State) (l : Nat) (v : Launch) : Bool :=
  let va := (v.words.getD 9 0).toNat
  if va = 0 then false
  else
    let s := publishSel s (fun c => c.launches.contains l) 3
    match translateMem s v.fdom false va .write with
    | .frozen => v.stall == 0 || decide (s.time + 1 < v.stall + 50000)
    | .ok pa => (strongView s (lineOf pa)).isNone
    | .fail _ => false

/-- No job of the launch is resident or saved. [DEDUCED, unsafe: log entry 86] -/
def noJobs (s : State) (l : Nat) : Bool := !s.jobs.any (fun e => e.2.launch == l) && !s.saved.any (fun e => e.2.launch == l)

/-- What the launch held ends: scope copies, replicas, race metadata, DEGRADED, weight references. -/
def closeLaunch (s : State) (l : Nat) (v : Launch) (signal : Bool) : State :=
  let s := publishSel s (fun c => c.launches.contains l) 3
  let s := if signal then signalWrite s v else s
  let s := dropReplicas s (fun _ x => x == l)
  let s := releaseGens (raceEnd s l) l
  match launchAt s l with
  | some v => setLaunch s l { v with degraded := false, st := if signal then .complete else v.st }
  | none => s

/-- The index of a launch has ended already. -/
def indexEnded (s : State) (v : Launch) : Bool :=
  before32 v.idx (leafHead s v.leaf) || ((smGet s.leaves v.leaf).map (fun x => x.ended.contains v.idx)).getD false

/-- LAUNCH_COMPLETE: every job has halted; a reset of its domain under way will kill it (R357). A launch that ended lost or killed counts as exited at once and closes without a signal. [DEDUCED, unsafe: log entry 86] -/
def execLaunchComplete (l : Nat) (s : State) : Out :=
  match launchAt s l with
  | none => .next s
  | some v =>
    let end_ := fun (s : State) => if indexEnded s v then s else endIndex s v.leaf v.idx
    match v.st with
    | .ready =>
      if v.undisp ≠ 0 ∨ v.halted < v.total ∨ (domainSt s v.fdom).domRst = 1 ∨ gensMove s v = true then .next s
      else if signalHeld s l v then .next (setLaunch s l { v with stall := if v.stall = 0 then s.time + 1 else v.stall })
      else .next (updateReady (end_ (closeLaunch s l v true)))
    | .lost | .killed => .next (updateReady (end_ (if noJobs s l && !gensMove s v then closeLaunch s l v false else s)))
    | _ => .next s

/-! ### Time (R31, R351, R445) -/

/-- Cycles of a die's main clock in `ns` nanoseconds from now. [DESIGN CHOICE, unsafe: log entry 7] -/
def cyclesIn (s : State) (die ns : Nat) : Nat :=
  let c := (dieSt s die).clk * 25
  (s.time + ns) * c / 1000 - s.time * c / 1000

/-- Charge core-cycles to a leaf and its ancestors. -/
def charge (s : State) (leaf n : Nat) : State :=
  (nodeChain s leaf).foldl (fun s e => setRecWord s e.1 4 (Nat.min (usedOf s e.1 + n) (2 ^ 48 - 1))) s

/-- Time passes: TIME, each die's CYCLE, and the charge of every resident job. [DESIGN CHOICE, unsafe: log entry 7] -/
def passTime (s : State) (ns : Nat) : State :=
  let ch := s.jobs.map (fun e => (((launchAt s e.2.launch).map (·.leaf)).getD 0, cyclesIn s (jDie e.1) ns))
  let ds := (List.range s.B.cdies).map (fun d => (d, cyclesIn s d ns))
  let s := ds.foldl (fun s x => if x.2 = 0 then s else setDie s x.1 { dieSt s x.1 with cycle := (dieSt s x.1).cycle + x.2 }) s
  let s := ch.foldl (fun s x => if x.2 = 0 then s else charge s x.1 x.2) s
  { s with time := s.time + ns }

end Sys2Proof.Machine
end

