-- ==== Sys2Proof/Machine/Preempt.lean ====
section
/-!
DEFINITION. Pre-emption, saves and resumes (R358 to R374), the hang watchdog (R424), breakpoint stops (R435), and the end of a replay (R437).
-/
namespace Sys2Proof.Machine

/-! ### Requests (R361 to R363) -/

/-- A context can be asked of the job: it runs, it has an area in a save pool, nothing is pending. -/
def mayAsk (s : State) (j : Job) : Bool := j.phase == .running && j.preempt.isNone && hasArea s j && j.replay.isNone

/-- The launches that a launch waits for, directly or through further references. -/
def prodTree (s : State) : Nat → List Prod → List Nat
  | 0, _ => []
  | n + 1, ps =>
    let ls := ps.filterMap (fun p => findLaunch s p.leaf p.idx)
    ls.map (·.1) ++ prodTree s n ((ls.map (fun e => e.2.prods)).flatten)

/-- The job belongs to an untriggered producer of the launch. -/
def feeds (s : State) (j : Job) (v : Launch) : Bool :=
  (prodTree s (s.launches.length + 1) v.prods).contains j.launch && !((launchAt s j.launch).map Launch.triggered).getD true

/-- The launch has a saved job that waits for a slot of the die. -/
def savedHere (s : State) (l die : Nat) : Bool := s.saved.any (fun e => e.2.launch == l && jDie e.2.home == die)

/-- The next job of a launch on a die, a saved one first, fits a free slot (R370). -/
def launchFits (s : State) (e : Nat × Launch) (die : Nat) : Bool :=
  if savedHere s e.1 die then savedWaits s e.1 die else (ticketFit s e.1 e.2 die).isSome

/-- A ready launch has a saved job or tickets on the die and fits no free slot of it. -/
def starved (s : State) (e : Nat × Launch) (die : Nat) : Bool :=
  (savedHere s e.1 die || (e.2.st == .ready && decide ((rangeOfDie e.2 die).1 < (rangeOfDie e.2 die).2))) && !launchFits s e die

/-- The priority of a job's launch. -/
def jobPrio (s : State) (j : Job) : Nat := ((launchAt s j.launch).map (launchPrio s)).getD 0

/-- Releasing the job makes room for the launch, which has a higher priority and does not depend on it. -/
def helps (s : State) (e : Nat × Launch) (x : Nat × Job) : Bool :=
  mayAsk s x.2 && decide (jobPrio s x.2 < launchPrio s e.2) && !feeds s x.2 e.2
    && launchFits (dropJob s x.1) e (jDie x.1)

/-- Of two jobs, the one to be asked first: lower priority, then later dispatch. -/
def sooner (s : State) (a b : Nat × Job) : Bool :=
  let p := jobPrio s a.2
  let q := jobPrio s b.2
  if p ≠ q then decide (p < q) else decide (b.2.dispatched ≤ a.2.dispatched)

/-- The jobs of a die. -/
def dieJobs (s : State) (die : Nat) : List (Nat × Job) := s.jobs.filter (fun e => jDie e.1 == die)

/-- The job that a launch's priority asks out of a die. [DESIGN CHOICE, unsafe: log entry 80] -/
def prioVictim (s : State) (die : Nat) : Option Nat :=
  (readyList s).findSome? (fun e =>
    if !starved s e die then none
    else (sortBy (sooner s) ((dieJobs s die).filter (helps s e))).head?.map (·.1))

/-- The job parked in WAIT.prod that gives way to a saved producer job (R361). -/
def restoreVictim (s : State) (die : Nat) : Option Nat :=
  s.saved.findSome? (fun e =>
    if jDie e.2.home ≠ die ∨ (resumeFit s e.2).isSome = true then none
    else
      let cand := (dieJobs s die).filter (fun x => mayAsk s x.2 && x.2.pend == .parked
        && (match decode .S (codeWord s x.2.fdom x.2.pc.toNat) 0 with | .ok .waitProd => true | _ => false)
        && (((launchAt s x.2.launch).map (fun v => v.prods)).getD []).any (fun p => (findLaunch s p.leaf p.idx).map (·.1) == some e.2.launch))
      (sortBy (fun a b => decide (b.2.dispatched ≤ a.2.dispatched)) cand).head?.map (·.1))

/-- A request is made. [DESIGN CHOICE, unsafe: log entry 87] -/
def ask (s : State) (k : Nat) (j : Job) : State := setJob s k { j with preempt := some s.time }

/-- PREEMPTION_REQUEST: for a launch of higher priority, or for a saved producer job. [DESIGN CHOICE, unsafe: log entry 87] -/
def execPreemptionRequest (k : Nat) (s : State) : Out :=
  match jobAt s k with
  | none => .next s
  | some j =>
    .next (if mayAsk s j && (prioVictim s (jDie k) == some k || restoreVictim s (jDie k) == some k) then ask s k j else s)

/-- T_sw of a job: its last save plus its last restore. [DESIGN CHOICE, unsafe: log entry 80] -/
def Job.tsw (j : Job) : Nat := j.lastSave + j.lastRestore

/-- SLICE of a domain in nanoseconds, 0 for none. -/
def sliceNs (s : State) (f : Nat) : Nat := bits (domainSt s f).ctxCtl.toNat 32 32 * 1000
/-- GRACE of a domain in nanoseconds. -/
def graceNs (s : State) (f : Nat) : Nat := let g := bits (domainSt s f).ctxCtl.toNat 0 16; (if g = 0 then 200 else g) * 1000

/-- SLICE_EXPIRY: the job has had its slice, extended to 2 T_sw, and a launch of its priority or above fits no free slot. -/
def execSliceExpiry (k : Nat) (s : State) : Out :=
  match jobAt s k with
  | none => .next s
  | some j =>
    let sl := sliceNs s j.fdom
    let eff := Nat.max sl (2 * j.tsw)
    let wanted := (readyList s).any (fun e => decide (jobPrio s j ≤ launchPrio s e.2) && starved s e (jDie k))
    if sl = 0 ∨ mayAsk s j = false ∨ s.time < j.resident + eff ∨ wanted = false then .next s
    else
      let d := domainSt s j.fdom
      let s := if sl < 2 * j.tsw then setDomain s j.fdom { d with ctxExt := satInc 16 d.ctxExt } else s
      .next (ask s k j)

/-! ### Forced cuts (R362 to R364) -/

/-- A pending request may force the job out: job level, resident long enough. -/
def mayForce (s : State) (j : Job) : Bool :=
  j.phase == .running && j.level == .job && j.preempt.isSome && decide (j.resident + 2 * j.tsw ≤ s.time)

/-- The forced cut: FORCED counts, the job stops, its context is saved; TRAPC, TRAPV and TRAPPC keep the last trap (R32). [DEDUCED, unsafe: log entry 83] -/
def forceCut (s : State) (k : Nat) (j : Job) : State :=
  let d := domainSt s j.fdom
  let s := setDomain s j.fdom { d with ctxForced := satInc 16 d.ctxForced }
  let a := stopJob s k j
  enterSave a.1 k { a.2 with trapIn := false } .forced

/-- FORCED_CUT: at once, for a job that is not node-boundary pre-emptible and is outside regions. -/
def execForcedCut (k : Nat) (s : State) : Out :=
  match jobAt s k with
  | none => .next s
  | some j => .next (if mayForce s j && !nodePreempt s j && j.region.isNone then forceCut s k j else s)

/-- GRACE_EXPIRY: no YIELD, commit or abort within GRACE of the request. -/
def execGraceExpiry (k : Nat) (s : State) : Out :=
  match jobAt s k with
  | none => .next s
  | some j =>
    match j.preempt with
    | none => .next s
    | some t => .next (if mayForce s j && decide (t + graceNs s j.fdom ≤ s.time) then forceCut s k j else s)

/-! ### The end of a replay (R437) -/

/-- The replayed job saves a full context to the caller's area, the REPLAY_END event is raised, and the slot is free. [DEDUCED, unsafe: log entry 89] -/
def endReplay (s : State) (k : Nat) (j : Job) (r : Replay) (code : Nat) : State :=
  let a := stopJob s k j
  let j := (a.2.promoteAll : Job)
  let s := writeContext a.1 k j j.core .forced r.area.toNat
  raiseEvent (freeSlot s k j) j.fdom 15 code (jDie k) r.area.toNat (jobid k j)

/-! ### Saves (R360, R365 to R367, R372, R373) -/

/-- The save is done: the slot and its pools return, the job waits to resume. -/
def parkSaved (s : State) (k : Nat) (j : Job) : State :=
  let s := barrierUndo s (jCluster k) j.uid
  let s := freeSlot s k j
  { s with saved := smSet s.saved j.uid { j with home := k, preempt := none, pend := .none, bpSkip := [] } }

/-- CONTEXT_SAVE_DONE: the full context is in its area. A forced cut leaves the slot; a trap or breakpoint enters the handler. [DEDUCED, unsafe: log entry 82] -/
def execContextSaveDone (k : Nat) (s : State) : Out :=
  match jobAt s k with
  | none => .next s
  | some j =>
    match j.phase with
    | .running => .next s
    | .saving kind =>
      match j.replay with
      | some r => .next (if areaMoves s j.fdom r.area.toNat j.ctxLen .write then s else endReplay s k j r (if r.diverged then 2 else 0))
      | none =>
      if windowNm s j.uid || areaMoves s j.fdom j.ctxAddr.toNat j.ctxLen .write then .next s
      else
        let j := (j.promoteAll : Job)
        let va := j.ctxAddr.toNat
        if !canWrite s j.fdom va j.ctxLen then .next (abandon (setJob s k j) k j 3 0 va (jobid k j))
        else
          let s := bankShare (writeContext s k j j.core kind va) (jCluster k) 16
          let j := { j with lastSave := s.time - j.saveStart }
          match kind with
          | .forced | .lite => .next (parkSaved (setJob s k j) k j)
          | .trap | .breakpoint =>
            if (domainSt s j.fdom).ctxHnd = 0 then .next (abandonTrap (setJob s k j) k j)
            else .next (enterHandler s k j)

/-- The deadline of a save (R372): four times the last save, or of LEN / 64 fabric cycles and 2 µs. [DEDUCED, unsafe: log entry 82] -/
def saveLimit (j : Job) : Nat := 4 * (if j.lastSave = 0 then j.ctxLen / 128 + 2000 else j.lastSave)

/-- SAVE_DEADLINE_EXPIRY: the context is abandoned. [DEDUCED, unsafe: log entry 82] -/
def execSaveDeadlineExpiry (k : Nat) (s : State) : Out :=
  match jobAt s k with
  | none => .next s
  | some j =>
    match j.phase with
    | .running => .next s
    | .saving _ =>
      .next (if windowNm s j.uid = false ∧ j.saveStart + saveLimit j ≤ s.time then abandon s k j 3 0 j.ctxAddr.toNat (jobid k j) else s)

/-! ### Resumes (R13, R369 to R371) -/

/-- Scope copies of the instances a job leaves are published (R370). -/
def leaveInstances (s : State) (old new : Nat) : State :=
  let s := if jCoreKey old = jCoreKey new then s else publishSel s (fun c => c.level == 0 && c.inst == jCoreKey old) 3
  if jCluster old = jCluster new then s else publishSel s (fun c => c.level == 1 && c.inst == jCluster old) 3

/-- The state a saved job resumes with: after a lite save job-start state beside what the record keeps, else what the record restores. -/
def resumeCore (s : State) (k : Nat) (j : Job) (base : Nat) : JobCore :=
  if j.phase == .saving .lite then
    { readLite s j j.core with win := windowStart s (jCluster k) j.fdom base j.spad, leaseb := Nat.min 32 j.leaseMax }
  else
    let c := restoreContext s j.home j j.core
    { c with win := { c.win with base := base } }

/-- The bytes of a saved job's record. -/
def recordLen (j : Job) : Nat := if j.phase == .saving .lite then 256 else j.ctxLen

/-- JOB_RESUME: a saved job takes a slot again, when its launch's turn has come (R352, R370). It waits for a record in a page move; a record that
cannot be read is a lost context (LOST of R359 names R371). [DEDUCED, unsafe: log entry 81] -/
def execJobResume (l t : Nat) (s : State) : Out :=
  let uid := 2 ^ 48 * l + t
  match smGet s.saved uid with
  | none => .next s
  | some j =>
    let va := j.ctxAddr.toNat
    if (domainSt s j.fdom).domRst = 1 ∨ savedTurn s j = false ∨ areaMoves s j.fdom va (recordLen j) .read = true then .next s
    else match resumeFit s j with
      | none => .next s
      | some (k, base) =>
        let s := leaveInstances { s with saved := smErase s.saved uid } j.home k
        if !canRead s j.fdom va (recordLen j) then .next (abandon (setJob s k j) k j 3 0 va (jobid j.home j))
        else
          let j := { j with core := resumeCore s k j base, epoch := (j.epoch + 1) % 16, home := k, resident := s.time, watch := s.time,
                            lastRestore := freeTime s, level := .job, trapIn := false, dispatched := s.order }
          .next (resumeJob (bankShare { s with order := s.order + 1 } (jCluster k) 16) k j)

/-! ### The hang watchdog and breakpoints (R424, R435) -/

/-- HANG_WATCHDOG: the job's residence has reached its domain's limit. -/
def execHangWatchdog (k : Nat) (s : State) : Out :=
  match jobAt s k with
  | none => .next s
  | some j =>
    let lim := bits (domainSt s j.fdom).hwd.toNat 0 32
    let ns := (if lim = 0 then 1000000 else lim) * 1000
    .next (if j.phase == .running && j.level == .job && decide (j.watch + ns ≤ s.time) then takeTrap s k .S 0x0E 1 else s)

/-- BP_HIT rises by one. -/
def countHit (s : State) (f n : Nat) : State :=
  let d := domainSt s f
  setDomain s f { d with bpHit := d.bpHit.setIfInBounds n (BitVec.ofNat 64 (satInc 64 (d.bpHit.toList.getD n 0).toNat)) }

/-! ### REPLAY_END and BREAKPOINT_STOP -/

/-- The sequence counter of the stream with a code. -/
def recSeq (j : Job) (c : Nat) : Nat := match c with | 0 => j.core.S.seq | 1 => j.core.L.seq | 2 => j.core.X.seq | _ => j.core.T.seq

/-- REPLAY_END: no record is left, or a record and an access differ. -/
def execReplayEnd (k : Nat) (s : State) : Out :=
  match jobAt s k with
  | none => .next s
  | some j =>
    match j.replay with
    | none => .next s
    | some r =>
      if areaMoves s j.fdom r.area.toNat j.ctxLen .write then .next s
      else if r.diverged then .next (endReplay s k j r 2)
      else if r.ended || r.last.all (fun x => decide (x.2 ≤ recSeq j x.1)) then .next (endReplay s k j r 0)
      else .next s

/-- BREAKPOINT_STOP: breakpoint `n` matches the next word of the stream with no SKIP left; the job stops before it issues. -/
def execBreakpointStop (k : Nat) (st : Stream) (n : Nat) (s : State) : Out :=
  match jobAt s k with
  | none => .next s
  | some j =>
    if !bpMatch s j st n || j.phase != .running || (match j.replay with
      | some r => areaMoves s j.fdom r.area.toNat j.ctxLen .write
      | none => false) then .next s
    else
      let s := countHit s j.fdom n
      match j.replay with
      | some r => .next (endReplay s k j r 1)
      | none => .next (takeTrapAt s k st none 0x00 n .breakpoint)

end Sys2Proof.Machine
end

