-- ==== Sys2Proof/Machine/Errors.lean ====
section
/-!
DEFINITION. Storage errors and recovery (R261, R285, R299, R383, R384, R389, R420 to R423): displaced lines, uncorrectable errors by
structure, the patrol scrub, the weight recheck, persistent token requests, the remap of a page move and the end of a stall.
-/
namespace Sys2Proof.Machine

/-! ### Persistent requests (R285) -/

/-- PERSISTENT_REQUEST: a core's request for a line's tokens came back with too few. The eighth failed attempt enters it in the home slice's
table, which has one entry per core, behind a wave under way; an entered request that is first is served: every holder forwards its tokens to
the core, which performs its access (R285). -/
def execPersistentRequest (line core : Nat) (s : State) : Out :=
  let die := core / 64
  let l := persistOf s die line
  if l.any (fun e => e.1 == core) then
    if persistFirst s die line ≠ some core then .next s
    else
      let s := tokWrite (dropCopies (landThrows s die line) die line (core % 64)) die line (core % 64)
      .next (persistServed s core line)
  else
    let n := smGetD s.M.attempts (attemptKey core line) 0 + 1
    let busy := s.M.persistent.any (fun e => e.2 % 2 ^ 20 == core && e.1 % 16 == line % 16)
    if n < 8 ∨ busy = true then .next { s with M := { s.M with attempts := smSet s.M.attempts (attemptKey core line) n } }
    else .next (setPersist { s with M := { s.M with attempts := smErase s.M.attempts (attemptKey core line) } } die line
      (l ++ [(core, if l.isEmpty then 0 else 1)]))

/-! ### The remap of a page move and the end of a stall (R383, R384) -/

/-- PAGE_MOVE_REMAP: the domain's move ends, once no commit holds a line of the page. -/
def execPageMoveRemap (f : Nat) (s : State) : Out :=
  match s.M.moves.find? (fun m => m.fdom == f) with
  | none => .next s
  | some m => .next (if moveWaits s m then s else finishMove s m)

/-- FREEZE_STALL_TIMEOUT: the stream, or its fetch, has stalled at a frozen page for 50 µs; the access ends with the failure of its kind when it is next
tried. -/
def execFreezeStallTimeout (j : Nat) (st : Stream) (s : State) : Out :=
  match jobAt s j with
  | none => .next s
  | some x =>
    let late := fun (e : Nat × Nat) => e.1 % 4 == streamCode st && e.2 != 0 && decide (e.2 + 50000 ≤ s.time + 1)
    .next (setJob s j { x with stallStart := x.stallStart.map (fun e => if late e then (e.1, 0) else e) })

/-! ### The weight recheck (R389) -/

/-- A shard's bytes match its DIGEST; bytes that cannot be read do not. -/
def shardGood (s : State) (f rec : Nat) : Bool :=
  let n := bits (virtWord s f (rec + 8)) 0 31
  canRead s f (virtWord s f rec) n && sha512 (virtBytes s f (virtWord s f rec) n) == virtBytes s f (rec + 64) 64

/-- Recheck one shard of generation `g` whose descriptor is `d`. -/
def recheckShard (s : State) (f entry g d rec : Nat) : State :=
  let s := if shardGood s f rec then s
    else
      let s := wtPut (wtPut s f (rec + 12) 1 2) f (d + 4) 1 3
      raiseEvent s f 8 0 s.B.primary entry g
  wtPut s f (rec + 16) 8 s.time

/-- Recheck one generation descriptor when its STATE is 2. -/
def recheckGen (s : State) (f entry i : Nat) : State :=
  let d := virtWord s f (entry + 16) + 64 * i
  let g := virtWord s f d % 2 ^ 32
  if genState s f d ≠ 2 then s
  else (List.range (bits (virtWord s f (d + 24)) 0 12 + 1)).foldl (fun s n => recheckShard s f entry g d (virtWord s f (d + 16) + 128 * n)) s

/-- What the recheck of a generation works on is in a page move. -/
def recheckMoves (s : State) (f entry i : Nat) : Bool :=
  let g := virtWord s f (virtWord s f (entry + 16) + 64 * i) % 2 ^ 32
  genState s f (virtWord s f (entry + 16) + 64 * i) == 2 && shardsMove s f entry g

/-- The recheck of a domain's table waits for a page move (R384). -/
def recheckWaits (s : State) (f : Nat) : Bool :=
  let d := domainSt s f
  (List.range d.wtCount).any (fun i =>
    let e := d.wtBase.toNat + 64 * i
    weightMoves s f e || (entryOk s f e && (List.range (2 ^ virtWord s f (e + 24))).any (recheckMoves s f e)))

/-- WEIGHT_RECHECK: once per interval, every shard of every ready generation of the domain's table. -/
def execWeightRecheck (f : Nat) (s : State) : Out :=
  let d := domainSt s f
  if d.wtCount = 0 ∨ s.time < d.wtLast + d.wtInterval * 1000000000 ∨ recheckWaits s f = true then .next s
  else
    let s := (List.range d.wtCount).foldl (fun s i =>
      let e := d.wtBase.toNat + 64 * i
      if entryOk s f e then (List.range (2 ^ virtWord s f (e + 24))).foldl (fun s n => recheckGen s f e n) s else s) s
    .next (setDomain s f { domainSt s f with wtLast := s.time })

/-! ### Uncorrectable errors (R420 to R423) -/

/-- A corrected error of a die. -/
def countCe (s : State) (id : Nat) : State := let d := dieSt s id; setDie s id { d with ce := satInc 64 d.ce }

/-- An uncorrectable error of a line in the die `id`: a clean cached line is refetched; otherwise the line is poisoned. -/
def failLineAt (s : State) (id line : Nat) : State :=
  let s := logError s id 1 id 0 (64 * line % 2 ^ 47) true
  if id < 8 ∧ lineDirty s line = false then s else poisonLine s line

/-- PATROL_SCRUB: a C-die's L2 or an M-die's or I/O die's memory and arrays read a line; a line found uncorrectable is poisoned. -/
def execPatrolScrub (die line : Nat) (bad : Bool) (s : State) : Out := .next (if bad then failLineAt s die line else s)

/-- Launches that wrote a line whose race metadata is lost are DEGRADED (R261). -/
def degradeLine (s : State) (line : Nat) : State :=
  let ms := s.M.race.filter (fun e => e.1 / 4096 == line)
  let s := (ms.map (fun e => e.2.writers)).flatten.foldl (fun s l =>
    match launchAt s l with | some v => setLaunch s l { v with degraded := true } | none => s) s
  { s with M := { s.M with race := s.M.race.filter (fun e => e.1 / 4096 != line) } }

/-- A commit record is dropped: its M-die's FLOOR becomes the larger of itself and the copy of G (R420). -/
def failRecord (s : State) (line : Nat) : State :=
  let m := (homeMdie s (64 * line)).getD 0
  let d := mdieSt s m
  setMdie { s with M := { s.M with lines := smErase s.M.lines line } } m { d with floor := BitVec.ofNat 48 (Nat.max d.floor.toNat d.g.toNat) }

/-- A line leaves the memory-side cache (R261, R287, R299): every holder gives it up, its tag is read anew
with it (R67), its record goes into FLOOR, live race metadata into
the overflow table of its M-die. -/
def displace (s : State) (line : Nat) : State :=
  let m := (homeMdie s (64 * line)).getD 0
  let s := dirRevoke s line 0 none
  let s := { s with M := { s.M with dir := smErase s.M.dir line, stale := cellsDrop s.M.stale (64 * line) 64, tags := smErase s.M.tags line } }
  let r := lineRec s line
  let d := mdieSt s m
  let s := setMdie { s with M := { s.M with lines := smErase s.M.lines line } } m
    { d with floor := BitVec.ofNat 48 (Nat.max d.floor.toNat (Nat.max r.1 r.2)) }
  if !s.M.race.any (fun e => e.1 / 4096 == line) || (mdieSt s m).overflow.contains line then s
  else
    let d := mdieSt s m
    if d.overflow.length < 8192 then setMdie s m { d with overflow := d.overflow ++ [line] } else degradeLine s line

/-- A register, queue, spill, mask or CSR of a job is lost: the context is abandoned and UE_STATE raised. -/
def failState (s : State) (k : Nat) : State :=
  match jobAt s k with
  | none => s
  | some j => abandon (logError s (jDie k) 1 (jDie k) 0 0 true) k j 13 0 0 (jobid k j)

/-- A bank word of the job's window is poisoned. -/
def failBank (s : State) (k bank : Nat) : State :=
  modJob (logError s (jDie k) 1 (jDie k) 0 0 true) k (fun j =>
    { j with core := { j.core with win := { j.core.win with poison := smSet j.core.win.poison bank 0 } } })

/-- A unit of a claimed operand slot fails. -/
def failSlot (s : State) (k slot unit : Nat) : State :=
  modJob (logError s (jDie k) 1 (jDie k) 0 0 true) k (fun j =>
    match smGet j.core.slots slot with
    | some v => { j with core := { j.core with slots := smSet j.core.slots slot { v with bad := unionNat v.bad [unit] } } }
    | none => j)

/-- An element of an accumulator fails. -/
def failAcc (s : State) (k acc elem : Nat) : State :=
  modJob (logError s (jDie k) 1 (jDie k) 0 0 true) k (fun j =>
    let v := smGetD j.core.accs acc Acc.reset
    { j with core := { j.core with accs := smPut Acc.reset j.core.accs acc { v with bad := unionNat v.bad [elem] } } })

/-- A unit of a weight frame fails. -/
def failFrame (s : State) (cl fr unit : Nat) : State :=
  let s := logError s (cl / 16) 1 (cl / 16) 0 0 true
  let c := clusterSt s cl
  match smGet c.frames fr with
  | some v => setCluster s cl { c with frames := smSet c.frames fr { v with bad := unionNat v.bad [unit] } }
  | none => s

/-- A cache tag or directory entry of a line fails: the line is poisoned at its home and every die gives it up (R420). -/
def failDir (s : State) (line : Nat) : State :=
  let id := homeId s (64 * line)
  let s := dirRevoke (logError s id 1 id 0 (64 * line % 2 ^ 47) true) line 0 none
  poisonLine { s with M := { s.M with dir := smErase s.M.dir line } } line

/-- A frame tag fails its parity: the entry is dropped, so its next lookup misses (R420). A frame that a fill or a copy is filling stays. -/
def failTag (s : State) (cl fr : Nat) : State :=
  let c := clusterSt s cl
  match smGet c.frames fr with
  | some v => if v.filling || v.copying then s else setCluster s cl (eraseFrames c (fun x _ => x == fr))
  | none => s

/-- The storage that holds a line at its home fails. [DEDUCED, safe: log entry 92] -/
def failHome (s : State) (line : Nat) : State := failLineAt s (homeId s (64 * line)) line

end Sys2Proof.Machine
end

