-- ==== Sys2Proof/Machine/Host.lean ====
section
/-!
DEFINITION. The host boundary (R393 to R403): reads, posted writes and atomics of the host, writes to the registers that have an event of
their own, register writes by die firmware, coherent-window snoops, and the steps of a fault domain's reset.
-/
namespace Sys2Proof.Machine

/-! ### Answers -/

/-- The die id of the I/O die that carries the host port (R415). -/
def hostDie : Nat := 24

/-- Answer the host. -/
def hostAnswer (s : State) (l : List Word) : State := { s with R := { s.R with hostReply := l } }

/-- An error response; the I/O die logs the address (R393, R423). -/
def hostError (s : State) (pa : Nat) : State := hostAnswer (logError s hostDie 3 hostDie 0 (pa % 2 ^ 47) false) [1]

/-- Bytes as little-endian words. -/
def hostWords : Nat → List Byte → List Word
  | 0, _ => []
  | _, [] => []
  | n + 1, l => BitVec.ofNat 64 (leNat (l.take 8)) :: hostWords n (l.drop 8)

/-- The answer that carries data. -/
def hostData (s : State) (l : List Byte) : State := hostAnswer s (0 :: hostWords l.length l)

/-- The package accepts host accesses outside the register range (R417). -/
def hostOpen (s : State) : Bool := s.B.status == 1

/-- The page of an address is being moved: the access waits for the remap (R384). [DEDUCED, unsafe: log entry 99] -/
def moving (s : State) (pa n : Nat) : Bool := s.M.moves.any (fun m => decide (pa < m.oldPa + m.size) && decide (m.oldPa < pa + n))

/-- The range of both ends of an access of `n` bytes, when it is one range. -/
def rangeSpan (s : State) (pa n : Nat) : Range := if rangeOf s pa = rangeOf s (pa + n - 1) then rangeOf s pa else .absent

/-! ### Registers (R275, R393) -/

/-- The bytes of `n` register bytes as the host reads them. [DEDUCED, unsafe: log entry 99] -/
def hostRegBytes (s : State) (pa : Nat) : Nat → Option (List Byte)
  | 0 => some []
  | n + 1 =>
    match readRegs s .host pa 1, hostRegBytes s (pa + 1) n with
    | .ok v, some l => some (BitVec.ofNat 8 v :: l)
    | _, _ => none

/-- The pieces of a register write that each lie in one register. -/
def regPieces (pa : Nat) : Nat → List Byte → List (Nat × List Byte)
  | 0, _ => []
  | _, [] => []
  | n + 1, l => let m := 8 - pa % 8; (pa, l.take m) :: regPieces (pa + m) n (l.drop m)

/-- A write by an agent to the register range: performed when every register takes it. [DEDUCED, unsafe: log entry 37] -/
def agentRegWrite (s : State) (a : Agent) (pa : Nat) (l : List Byte) : Option State :=
  let ps := regPieces pa l.length l
  if ps.all (fun p => canWriteRegs s a p.1 == .ok 0) then some (ps.foldl (fun s p => writeRegs s p.1 p.2.length (leNat p.2)) s) else none

/-! ### Host memory accesses (R395, R396, R398) -/

/-- The window an address lies in is coherent at system scope: the mailbox window, and with CXL both (R395, R403). [DESIGN CHOICE, unsafe: log entry 107] -/
def coherentWindow (s : State) (pa : Nat) : Bool := rangeOf s pa == .mailbox || s.B.cxl

/-- A home line is read by the host: partial lines are combined, the owner's bytes are recalled. -/
def hostReadLine (s : State) (line : Nat) : State := dirHostRead (watchHit (combineLine s line) line 2 1 0 hostDie) line

/-- The bytes the host reads at the home. -/
def homeBytes (s : State) (pa : Nat) : Nat → List Byte
  | 0 => []
  | n + 1 => homeByte s pa :: homeBytes s (pa + 1) n

/-- The host as an agent (R256). -/
def hostAgent : Nat := deviceAgent + 1

/-- The host reads bytes: it acquires the releases it reads, of system scope in a coherent window, of device scope at a home (R256, R274, R396). -/
def hostAcquire (s : State) (pa n sc : Nat) : State :=
  let rs := (relAt s none pa n).filter (fun r => decide (sc ≤ r.scope))
  { s with R := { s.R with hostClk := rs.foldl (fun (v : VC) r => vcJoin v r.vc) s.R.hostClk } }

/-- What the host's write leaves: in a coherent window, a release at system scope. -/
def hostRelease (s : State) (pa n : Nat) : List RelRec := if coherentWindow s pa then [⟨pa, n, none, 4, hostAgent, s.R.hostClk⟩] else []

/-- A host access waits: a page on the move (R384), a line of a commit under way (R307), in a coherent window a scope copy in mode 1 (R290). -/
def hostWaits (s : State) (pa n : Nat) : Bool :=
  moving s pa n || (linesOf pa n).any (fun ln => gathered s ln || (coherentWindow s pa && (strongView s ln).isNone))

/-- Scope copies of a coherent window's lines are published before a host access (R290); a home's lines are accessed without them (R396). -/
def hostPrep (s : State) (pa n : Nat) : State :=
  if coherentWindow s pa then (linesOf pa n).foldl (fun s ln => (strongView s ln).getD s) s else s

/-- HOST_READ of `n` bytes: the register range, tier 1 and tier 2; in a window it is the host's own read of its memory. -/
def execHostRead (pa n : Nat) (s : State) : Out :=
  match rangeSpan s pa n with
  | .regs => .next (match hostRegBytes s pa n with | some l => hostData s l | none => hostError s pa)
  | .absent => .next (hostError s pa)
  | r =>
    if !hostOpen s then .next (hostError s pa)
    else if hostWaits s pa n then .next (hostAnswer s [2])
    else if r == .tier1 || r == .tier2 then
      if (linesOf pa n).any (poisoned s) then .next (hostError s pa)
      else let s := hostAcquire ((linesOf pa n).foldl hostReadLine s) pa n 3; .next (hostData s (homeBytes s pa n))
    else if coherentWindow s pa then
      let s := hostAcquire ((linesOf pa n).foldl (fun s ln => dirHostRead (combineLine s ln) ln) (hostPrep s pa n)) pa n 4
      .next (hostData s (homeBytes s pa n))
    else .next (hostData s (homeBytes s pa n))

/-- A byte of TAIL of a device-fed leaf of a tree: a host write to it is ignored (R345). [DEDUCED, safe: log entry 108] -/
def tailKept (s : State) (a : Nat) : Bool :=
  let b := a / 128 * 128
  decide (56 ≤ a % 128) && decide (a % 128 < 60) && leafOk s b && bitOf (recWord s b 0) 61 && (rcbChain s chainMax b).isSome

/-- The bytes a host write leaves: those of such a TAIL stay as they are. -/
def keepTails (s : State) (pa : Nat) : List Byte → List Byte
  | [] => []
  | x :: r => (if tailKept s pa then cByte s pa else x) :: keepTails s (pa + 1) r

/-- Seen by the comparators as class H (R432). -/
def hostWatch (s : State) (pa n ty : Nat) : State := (linesOf pa n).foldl (fun s ln => watchHit s ln 2 ty 0 hostDie) s

/-- The host writes its memory behind the bulk window: copies the device holds become stale until they are invalidated (R398). [DEDUCED, unsafe: log entry 99] -/
def bulkWrite (s : State) (pa : Nat) (l : List Byte) : State := nSetBytes s pa l

/-- The bytes of a posted write. -/
def hostBytes (n : Nat) (data : BitVec 512) : List Byte := natLe n data.toNat

/-- HOST_WRITE of `n` bytes: every die's permission is revoked first. -/
def execHostWrite (pa n : Nat) (data : BitVec 512) (s : State) : Out :=
  let l := keepTails s pa (hostBytes n data)
  match rangeSpan s pa n with
  | .regs => .next (match agentRegWrite s .host pa (hostBytes n data) with | some s => hostAnswer s [0] | none => hostError s pa)
  | .absent => .next (hostError s pa)
  | r =>
    if !hostOpen s then .next (hostError s pa)
    else if hostWaits s pa n then .next (hostAnswer s [2])
    else if r == .tier1 || r == .tier2 then
      if (linesOf pa n).any (unreachable s) then .next (hostError s pa)
      else .next (hostAnswer (homeStore (hostWatch s pa n 2) pa l []) [0])
    else .next (hostAnswer (if coherentWindow s pa then homeStore (hostPrep s pa n) pa l (hostRelease s pa n) else bulkWrite s pa l) [0])

/-- A host atomic of 4 or 8 bytes at the home, as one strong read-modify-write (R393): the old value is answered. [DEDUCED, unsafe: log entry 99] -/
def hostAtomic (s : State) (pa : Nat) (wide : Bool) (f : Nat → Nat) : State :=
  let n := if wide then 8 else 4
  let r := rangeOf s pa
  if !(r == .tier1 || r == .tier2) || pa % n != 0 || !hostOpen s || poisoned s (lineOf pa) then hostError s pa
  else if hostWaits s pa n then hostAnswer s [2]
  else
    let s := watchHit (combineLine s (lineOf pa)) (lineOf pa) 2 4 0 hostDie
    let s := hostAcquire (dirHostWrite s (lineOf pa)) pa n 3
    let rel := s.M.rel
    let old := leNat (homeBytes s pa n)
    let s := homeStore s pa (keepTails s pa (natLe n (f old))) []
    hostAnswer { s with M := { s.M with rel := rel } } [0, BitVec.ofNat 64 old]

/-- HOST_FETCH_ADD. -/
def execHostFetchAdd (pa : Nat) (wide : Bool) (v : Word) (s : State) : Out := .next (hostAtomic s pa wide (fun o => o + v.toNat))
/-- HOST_SWAP. -/
def execHostSwap (pa : Nat) (wide : Bool) (v : Word) (s : State) : Out := .next (hostAtomic s pa wide (fun _ => v.toNat))
/-- HOST_COMPARE_SWAP. -/
def execHostCompareSwap (pa : Nat) (wide : Bool) (old new : Word) (s : State) : Out :=
  .next (hostAtomic s pa wide (fun o => if o = old.toNat % 2 ^ (if wide then 64 else 32) then new.toNat else o))

/-- COHERENT_WINDOW_SNOOP: the host takes (write) or reads a line of a coherent window that the device holds: every copy is invalidated, or
the owner's bytes are answered from its home slice and it keeps a shared copy. -/
def execCoherentWindowSnoop (line : Nat) (write : Bool) (s : State) : Out :=
  let pa := 64 * line
  let r := rangeOf s pa
  if !((r == .mailbox || r == .bulk) && coherentWindow s pa) then .next s
  else
    let s := (strongView s line).getD (combineLine s line)
    .next (if write then dropStale (dirHostWrite s line) line else dirHostRead s line)

/-! ### Registers with an event of their own -/

/-- TEN_ROOT of tenant `n` (R399). -/
def execTenRoot (n : BitVec 6) (v : Word) (s : State) : Out := .next (regWrite s (.ten n.toNat 0) v)
/-- TEN_KICK of tenant `n` (R397). -/
def execTenKick (n : BitVec 6) (v : Word) (s : State) : Out := .next (regWrite s (.ten n.toNat 5) v)
/-- DOM_RST of domain `f` (R402). -/
def execDomRst (f : BitVec 12) (v : Word) (s : State) : Out := .next (regWrite s (.domRst f.toNat) v)
/-- XL_INV of domain `f` (R381). -/
def execXlInv (f : BitVec 12) (v : Word) (s : State) : Out := .next (regWrite s (.xl f.toNat 1) v)
/-- XL_MIG of domain `f` (R383). -/
def execXlMig (f : BitVec 12) (v : Word) (s : State) : Out := .next (regWrite s (.xl f.toNat 3) v)
/-- ERR_POP of a die (R423). -/
def execErrPop (die : BitVec 5) (v : Word) (s : State) : Out :=
  .next (if (diesPresent s).contains die.toNat then regWrite s (.err die.toNat 3) v else hostError s (0x300000600000 + 0x1000 * die.toNat + 0x18))
/-- A format window register (R63). -/
def execFwinWrite (n : BitVec 4) (r : BitVec 2) (v : Word) (s : State) : Out := .next (regWrite s (.fwin n.toNat r.toNat) v)
/-- TR_HEAD of domain `f` (R436): places of the ring are free again. -/
def execTrHead (f : BitVec 12) (v : Word) (s : State) : Out := .next (regWrite s (.tr f.toNat 3) v)

/-- REGISTER_WRITE: die firmware's write of 8 bytes (R275); an address that names no register, or a register firmware may not write, is
refused. [DEDUCED, unsafe: log entry 37] -/
def execRegisterWrite (pa : Nat) (v : Word) (s : State) : Out :=
  match regAt s pa with
  | none => .next (hostError s pa)
  | some r => .next (if r.mayWrite .firmware then regWrite s r v else hostError s pa)

/-! ### The reset of a fault domain (R402) -/

/-- Step 1: the domain's launches that have not ended are killed; their undispatched tickets are discarded (R357). -/
def killLaunches (s : State) (f : Nat) : State :=
  { s with launches := s.launches.map (fun e =>
      if e.2.fdom = f ∧ e.2.st.ended = false then
        (e.1, { e.2 with st := .killed, total := e.2.total - e.2.undisp, undisp := 0, ranges := e.2.ranges.map (fun r => (r.1, r.1)) })
      else e) }

/-- A resident job of the domain is discarded: its region without any narrowing, its words in flight, its context. -/
def discardJob (s : State) (k : Nat) (j : Job) : State :=
  let a := abortRegion s k j 3
  barrierLeave (leaveFrames (freeSlot a.1 k a.2) k) j.uid

/-- Step 2: every resident and saved job of the domain is discarded, and its reservation. -/
def killJobs (s : State) (f : Nat) : State :=
  let s := (s.jobs.filter (fun e => e.2.fdom == f)).foldl (fun s e => discardJob s e.1 e.2) s
  let s := (s.saved.filter (fun e => e.2.fdom == f)).foldl (fun s e => barrierLeave s e.2.uid) s
  let s := { s with saved := s.saved.filter (fun e => e.2.fdom != f) }
  setDomain s f { domainSt s f with reserves := [] }

/-- Step 3: near-memory jobs, scope copies, partials and open ranges, guards, buffer groups. [DEDUCED, unsafe: log entry 88] -/
def dropDomain (s : State) (f : Nat) : State :=
  let s := { s with
    mdies := s.mdies.map (fun e => (e.1, { e.2 with queue := e.2.queue.filter (fun j => j.fdom != f),
                                                    running := e.2.running.filter (fun j => j.fdom != f) }))
    clusters := s.clusters.map (fun e =>
      let keep := e.2.partials.filter (fun p => p.2.fdom != f)
      (e.1, { e.2 with partials := keep, partOrder := e.2.partOrder.filter (fun l => keep.any (fun p => p.1 == l)) }))
    dies := s.dies.map (fun e => (e.1, { e.2 with groups := e.2.groups.filter (fun g => g.2.fdom != f) }))
    M := { s.M with scopes := s.M.scopes.filter (fun c => c.fdom != f), guards := s.M.guards.filter (fun g => g.fdom != f) } }
  setDomain s f { domainSt s f with crng := (domainSt s f).crng.map (fun r => (BitVec.ofNat 64 (r.1.toNat / 2 * 2), r.2)) }

/-- Step 4: frames and pins of the domain, its barriers, its weight references. -/
def dropFramesOf (s : State) (f : Nat) : State :=
  let ls := (s.launches.filter (fun e => e.2.fdom == f)).map (fun e => e.1)
  let s := { s with clusters := s.clusters.map (fun e =>
      (e.1, { eraseFrames e.2 (fun _ x => x.fdom == f) with barriers := e.2.barriers.filter (fun b => !ls.contains b.launch) })) }
  ls.foldl releaseGens s

/-- DOMAIN_RESET_DONE: the steps of a reset under way are done; the state reads 2. [DEDUCED, unsafe: log entry 88] -/
def execDomainResetDone (f : BitVec 12) (s : State) : Out :=
  let f := f.toNat
  if (domainSt s f).domRst ≠ 1 then .next s
  else
    let s := dropFramesOf (dropDomain (killJobs (killLaunches s f) f) f) f
    .next (setDomain s f { domainSt s f with domRst := 2 })

end Sys2Proof.Machine
end

