-- ==== Sys2Proof/Machine/Discovery.lean ====
section
/-!
DEFINITION. Discovery (R2, R409, R414 to R418): die descriptors and their check, link entries, the topology table, and the messages that
carry them. Messages between dies of the package pass through `Fabric.inbox` in the order they are sent.
-/
namespace Sys2Proof.Machine

/-! ### CRCs -/

/-- One bit of a CRC that takes the lowest bit first, with the reversed polynomial. -/
def crc32Bit (c : Nat) : Nat := if c % 2 = 1 then (c / 2) ^^^ 0xEDB88320 else c / 2
/-- One byte. -/
def crc32Byte (c : Nat) (b : Byte) : Nat := (List.range 8).foldl (fun c _ => crc32Bit c) (c ^^^ b.toNat)
/-- CRC-32 of IEEE 802.3. -/
def crc32 (l : List Byte) : Nat := (l.foldl crc32Byte 0xFFFFFFFF) ^^^ 0xFFFFFFFF

/-- One bit of the ECMA-182 CRC, highest bit first. -/
def crc64Bit (c : Nat) : Nat := if c / 2 ^ 63 % 2 = 1 then (c * 2 % 2 ^ 64) ^^^ 0x42F0E1EBA9EA3693 else c * 2 % 2 ^ 64
/-- One byte. [DEDUCED, unsafe: log entry 98] -/
def crc64Byte (c : Nat) (b : Byte) : Nat := (List.range 8).foldl (fun c _ => crc64Bit c) (c ^^^ (b.toNat * 2 ^ 56))
/-- CRC-64 of ECMA-182, initial value all ones (R410). [DEDUCED, unsafe: log entry 98] -/
def crc64 (l : List Byte) : Nat := l.foldl crc64Byte (2 ^ 64 - 1)

/-! ### Sending messages (R411 to R413) -/

/-- The key of a sequence counter. -/
def seqKey (src dst cls : Nat) : Nat := (32 * src + dst) * 16 + cls

/-- A message of the package's own dies: it takes the next sequence number and arrives in order. [DESIGN CHOICE, unsafe: log entry 101] -/
def sendMsg (s : State) (src dst cls op ftag w1 : Nat) (data : BitVec 512) : State :=
  let k := seqKey src dst cls
  let n := smGetD s.F.next k 0
  let m : Msg := ⟨BitVec.ofNat 5 src, BitVec.ofNat 5 dst, BitVec.ofNat 12 ftag, BitVec.ofNat 32 n, BitVec.ofNat 64 w1, data⟩
  let e := (n + 1) % 2 ^ 32
  { s with F := { s.F with inbox := s.F.inbox ++ [⟨cls, op, m⟩], next := smSet s.F.next k e, expect := smSet s.F.expect k e } }

/-- Bytes as the data of a message. -/
def msgData (l : List Byte) : BitVec 512 := BitVec.ofNat 512 (leNat l)
/-- The data bytes of a message. -/
def dataBytes (d : BitVec 512) : List Byte := natLe 64 d.toNat

/-! ### Descriptors (R414) -/

/-- CAP of a die by its id. -/
def capOf (s : State) (id : Nat) : Nat :=
  if id < 8 then (if id = s.B.primary then 2 ^ 9 else 0)
  else if id < 24 then 0x1F
  else 2 ^ 3 + 2 ^ 5 + (if s.B.cxl then 2 ^ 7 else 2 ^ 6) + 2 ^ 8

/-- The 56 bytes of words 0 to 6 of a die of the package. -/
def descWords (s : State) (id : Nat) : List Byte :=
  let type := if id < 8 then 1 else if id < 24 then 2 else 3
  let m := id - 8
  let w0 := type * 2 ^ 56 + 0x5A43 * 2 ^ 40 + Config.dieVersion.toNat * 2 ^ 24 + 2 ^ 16
  let w3 := (if type = 2 then 256 * 2 ^ 32 + 32 * 2 ^ 24 + 16 * 2 ^ 16 else 0) + (if type = 1 then 0 else 16 * 2 ^ 8)
  let w4 := if type = 1 then id else if type = 2 then m % 3 + m / 3 * 16 else (id - 24) * 2 * 16
  let w5 := if type = 1 then 4 else if type = 2 then (if m % 3 = 2 then 2 else 3) else 2
  natLe 8 w0 ++ natLe 8 (capOf s id) ++ natLe 8 (smGetD s.B.parts id 0) ++ natLe 8 w3 ++ natLe 8 w4 ++ natLe 8 w5 ++ natLe 8 0

/-- The 64-byte descriptor. -/
def descOf (s : State) (id : Nat) : List Byte := let l := descWords s id; l ++ natLe 8 (crc32 l)

/-- A descriptor is accepted: CHK, MFPV and the reserved bits. -/
def descOk (l : List Byte) : Bool :=
  let w := fun i => leNat ((l.drop (8 * i)).take 8)
  bits (w 0) 16 8 == 1 && bits (w 0) 0 16 == 0 && bits (w 1) 10 54 == 0 && bits (w 2) 48 16 == 0 && bits (w 3) 0 8 == 0
    && bits (w 4) 8 56 == 0 && bits (w 5) 16 48 == 0 && w 6 == 0 && bits (w 7) 32 32 == 0 && bits (w 7) 0 32 == crc32 (l.take 56)

/-! ### Links (R409, R418) -/

/-- The modules of link `k`. -/
def linkModules (k : Nat) : Nat := match k with | 0 | 1 => 3 | 2 => 2 | 3 | 4 | 5 => 4 | 6 => 2 | _ => 0
/-- The first module of link `k`. -/
def linkFirst (k : Nat) : Nat := match k with | 0 => 0 | 1 => 3 | 2 => 6 | 3 => 8 | 4 => 12 | 5 => 16 | _ => 20

/-- RATES limited to the link's modules, the value that is not produced read as down. -/
def cleanRates (k rates : Nat) : Nat :=
  ((List.range (linkModules k)).map (fun j => let r := bits rates (2 * j) 2; (if r = 3 then 0 else r) * 4 ^ j)).foldl (· + ·) 0

/-- The rate fields of a link's modules. -/
def rateList (k rates : Nat) : List Nat := (List.range (linkModules k)).map (fun j => bits rates (2 * j) 2)

/-- The link entry of link `k` of C-die `c`. -/
def linkWord (s : State) (c k : Nat) : Nat :=
  match smGet s.B.links (8 * c + k) with
  | none => 0
  | some (rates, rep) =>
    let up := (rateList k rates).filter (· != 0)
    let rate := if up.isEmpty then 0 else if up.all (· == 1) then 1 else if up.all (· == 2) then 2 else 3
    rates % 256 * 2 ^ 32 + rep % 256 * 2 ^ 16 + c * 2 ^ 11 + linkFar s c k * 2 ^ 6 + rate * 2 ^ 4 + up.length

/-- The links that train at power-on, every module at 32 GT/s: those whose far die is in the package. -/
def trainLinks (s : State) : State :=
  let cs := (List.range 4).filter (fun c => (smGet s.B.parts c).isSome)
  let es := (cs.map (fun c => ((List.range 7).filter (fun k => (smGet s.B.parts (linkFar s c k)).isSome)).map (fun k =>
    (8 * c + k, ((List.range (linkModules k)).map (fun j => 2 * 4 ^ j)).foldl (· + ·) 0)))).flatten
  { s with B := { s.B with links := es.foldl (fun m e => smSet m e.1 (e.2, 0)) [] } }

/-! ### The topology table (R418) -/

/-- Replace bytes of a list from `o` up. -/
def putBytes (l : List Byte) (o : Nat) (b : List Byte) : List Byte := l.take o ++ b ++ l.drop (o + b.length)

/-- The descriptor slot of a die id. -/
def slotOfDie (id : Nat) : Nat := if id < 8 then id else if id < 24 then id - 8 + 4 else id - 24 + 16

/-- The die id has a descriptor slot: C-dies 0 to 3, M-dies 0 to 11, I/O dies 0 and 1. -/
def hasSlot (id : Nat) : Bool := decide (id < 4) || (decide (8 ≤ id) && decide (id < 20)) || id == 24 || id == 25

/-- An all-zero table. -/
def blankTable : List Byte := List.replicate 4096 0

/-- Enter a descriptor; a die that has no slot is kept as one that no composition has. -/
def putDesc (s : State) (id : Nat) (d : List Byte) : State :=
  let t := if s.B.table.isEmpty then blankTable else s.B.table
  if hasSlot id then { s with B := { s.B with table := putBytes t (64 + 64 * slotOfDie id) d } }
  else { s with B := { s.B with table := t, extras := s.B.extras ++ [id] } }

/-- The descriptor in a slot. -/
def slotDesc (s : State) (i : Nat) : List Byte := (s.B.table.drop (64 + 64 * i)).take 64
/-- The TYPE in a slot; 0 when it is empty. -/
def slotType (s : State) (i : Nat) : Nat := bits (leNat ((slotDesc s i).take 8)) 56 8

/-- Exactly the first `n` of `m` slots from `b` up hold a die of a type. -/
def slotsAre (s : State) (b m n type : Nat) : Bool := (List.range m).all (fun i => slotType s (b + i) == if i < n then type else 0)

/-- How many slots from `b` up are filled. -/
def slotCount (s : State) (b m : Nat) : Nat := ((List.range m).filter (fun i => slotType s (b + i) != 0)).length

/-- Link `k` of C-die `c` is one of a package of `nc` C-dies: an M-die port, the mesh group of a C-die that is there, or the I/O die link. -/
def linkNamed (s : State) (nc c k : Nat) : Bool := decide (k < 3) || k == 6 || decide (linkFar s c k < nc)

/-- A link runs on one module at least (R409). -/
def linkUp (s : State) (c k : Nat) : Bool :=
  match smGet s.B.links (8 * c + k) with
  | none => false
  | some (rates, _) => (rateList k rates).any (· != 0)

/-- Every link of a package of `nc` C-dies runs (R409): one with no module leaves its far die unreachable. -/
def linksUp (s : State) (nc : Nat) : Bool :=
  (List.range nc).all (fun c => (List.range 7).all (fun k => !linkNamed s nc c k || linkUp s c k))

/-- Every die is linked by UCIe advanced package (R2, LINK of R414). -/
def linksUcie (s : State) : Bool := (List.range 18).all (fun i => bits (leNat (((slotDesc s i).drop 40).take 8)) 8 8 == 0)

/-- The composition is one of R2: its dies, no die beyond them, and every link running. [DEDUCED, unsafe: log entry 91] -/
def composition (s : State) : Bool :=
  let nc := slotCount s 0 4
  let ni := slotCount s 16 2
  decide (1 ≤ nc) && slotsAre s 0 4 nc 1 && slotsAre s 4 12 (3 * nc) 2 && decide (1 ≤ ni) && slotsAre s 16 2 ni 3
    && s.B.extras.isEmpty && linksUcie s && linksUp s nc

/-- The header and link entries of the table. [DEDUCED, unsafe: log entry 97] -/
def writeTable (s : State) (status nc ni : Nat) : State :=
  let mode := if 3 ≤ nc then 1 else 0
  let w0 := 0x4D465054 * 2 ^ 32 + status * 2 ^ 24 + nc * 2 ^ 20 + 3 * nc * 2 ^ 12 + ni * 2 ^ 8 + s.B.primary % 4 * 2 ^ 6 + mode * 2 ^ 5
  let hdr := natLe 8 w0 ++ natLe 8 (tier1 s) ++ natLe 8 (tier2 s)
  let ls := ((List.range 32).map (fun i => natLe 8 (if i / 8 < nc then linkWord s (i / 8) (i % 8) else 0))).flatten
  { s with B := { s.B with table := putBytes (putBytes s.B.table 0 hdr) 1216 ls } }

/-- Step 3 of R417: the primary checks R2, sets the scope mode, writes the table and sends it to every die; cores leave reset. -/
def finishDiscovery (s : State) : State :=
  let nc := slotCount s 0 4
  let ni := slotCount s 16 2
  let s := { s with B := { s.B with asked := [] } }
  let p := s.B.primary
  if !composition s then
    let s := writeTable { s with B := { s.B with status := 2 } } 2 nc ni
    setDie s p { dieSt s p with result := 5 }
  else
    let t2 := (List.range ni).map (fun i => leNat (((slotDesc s (16 + i)).drop 16).take 8))
    let mode := if 3 ≤ nc then 1 else 0
    let ms := List.range (3 * nc)
    let ios := List.range ni
    let s := { s with B := { s.B with status := 1, mode := mode, cdies := nc, mdies := ms, iodies := ios, tier2 := t2 } }
    let s := writeTable s 1 nc ni
    let s := setDie s p { dieSt s p with stage := 5 }
    ((diesPresent s).filter (· != p)).foldl (fun s d => sendMsg s p d 9 2 0 0x300000100000 0) s

/-- An accepted or refused descriptor of die `id` has come in; when none is awaited the table is written. -/
def answered (s : State) (id : Nat) : State :=
  let s := { s with B := { s.B with asked := s.B.asked.filter (· != id) } }
  if s.B.asked.isEmpty then finishDiscovery s else s

end Sys2Proof.Machine
end

