-- ==== Sys2Proof/Machine/Boot.lean ====
section
/-!
DEFINITION. Boot (R417, R440 to R442): the check of a firmware image with ECDSA over P-521 and SHA-512 (R441, FIPS 186-5), power-on, the end
of discovery; the clock and thermal rules of a C-die (R445, R447), and the package reset.
-/
namespace Sys2Proof.Machine

/-! ### P-521 (FIPS 186-5) -/

/-- The field prime. -/
def p521 : Nat := 2 ^ 521 - 1
/-- The order of the group. -/
def n521 : Nat := 2 ^ 521 - 2 ^ 260 + 0xA51868783BF2F966B7FCC0148F709A5D03BB5C9B8899C47AEBB6FB71E91386409
/-- The coefficient b of y² = x³ − 3x + b. -/
def b521 : Nat :=
  0x51953EB9618E1C9A1F929A21A0B68540EEA2DA725B99B315F3B8B489918EF109E156193951EC7E937B1652C0BD3BB1BF073573DF883D2C34F1EF451FD46B503F00
/-- The base point. -/
def g521 : Nat × Nat :=
  (0xC6858E06B70404E9CD9E3ECB662395B4429C648139053FB521F828AF606B4D3DBAA14B5E77EFE75928FE1DC127A2FFA8DE3348B3C1856A429BF97E7E31C2E5BD66,
   0x11839296A789A3BC0045C8A5FB42C7D1BD998F54449579B446817AFBD17273E662C97EE72995EF42640C550B9013FAD0761353C7086A272C24088BE94769FD16650)

/-- `a ^ e` modulo `m`, over the lowest `k` bits of `e`. -/
def powMod (m : Nat) : Nat → Nat → Nat → Nat
  | 0, _, _ => 1 % m
  | k + 1, a, e =>
    let r := powMod m k (a * a % m) (e / 2)
    if e % 2 = 1 then r * a % m else r

/-- The inverse modulo a prime. -/
def invMod (m a : Nat) : Nat := powMod m 522 (a % m) (m - 2)

/-- The sum of two points; none is the point at infinity. -/
def ecAdd : Option (Nat × Nat) → Option (Nat × Nat) → Option (Nat × Nat)
  | none, q => q
  | p, none => p
  | some (x, y), some (u, v) =>
    let sub := fun a b => (a + p521 - b % p521) % p521
    if x = u ∧ (y + v) % p521 = 0 then none
    else
      let l := if x = u then sub (3 * x * x) 3 * invMod p521 (2 * y) % p521 else sub v y * invMod p521 (sub u x) % p521
      let z := sub (sub (l * l) x) u
      some (z, sub (l * sub x z) y)

/-- The multiple of a point, over the lowest `k` bits of the number. -/
def ecMul : Nat → Nat → Option (Nat × Nat) → Option (Nat × Nat)
  | 0, _, _ => none
  | k + 1, n, q =>
    let r := ecMul k (n / 2) (ecAdd q q)
    if n % 2 = 1 then ecAdd r q else r

/-- A point of the curve. [PRESUMED, unsafe: log entry 102] -/
def onCurve (q : Nat × Nat) : Bool :=
  decide (q.1 < p521) && decide (q.2 < p521) && q.2 * q.2 % p521 == (q.1 * q.1 * q.1 + (p521 - 3) * q.1 + b521) % p521

/-- The signature (r, s) of a digest verifies under a key. [PRESUMED, unsafe: log entry 102] -/
def ecdsaOk (key : Nat × Nat) (r s : Nat) (digest : List Byte) : Bool :=
  if r = 0 ∨ n521 ≤ r ∨ s = 0 ∨ n521 ≤ s ∨ onCurve key = false then false
  else
    let w := invMod n521 s
    let u := beNat digest * w % n521
    let v := r * w % n521
    match ecAdd (ecMul 521 u (some g521)) (ecMul 521 v (some key)) with
    | none => false
    | some q => q.1 % n521 == r

/-! ### The firmware image (R441) -/

/-- LEN of an image. -/
def imageLen (l : List Byte) : Nat := leNat ((l.drop 12).take 4)
/-- SVN of an image. -/
def imageSvn (l : List Byte) : Nat := leNat ((l.drop 8).take 4)

/-- The image is in the flash: header, body and signature. -/
def imageThere (l : List Byte) : Bool := decide (256 ≤ l.length) && decide (256 + imageLen l + 132 ≤ l.length)

/-- RESULT of a boot with the image in the flash: 0, or 2 to 4 (R440, R441). -/
def checkImage (s : State) : Nat :=
  let l := s.B.flash
  if !imageThere l then 2
  else
    let n := imageLen l
    let hdr := l.take 256
    let body := (l.drop 256).take n
    let key := (hdr.drop 80).take 132
    let sig := (l.drop (256 + n)).take 132
    if leNat (hdr.take 8) ≠ 0x5A434657494D4731 ∨ (hdr.drop 212).all (· == 0) = false ∨ n % 64 ≠ 0 ∨ n < 64 ∨ 2 ^ 24 < n
        ∨ sha512 key ≠ s.B.keyDigest then 3
    else if imageSvn l < s.B.minSvn then 4
    else if sha512 body ≠ (hdr.drop 16).take 64 then 3
    else if ecdsaOk (beNat (key.take 66), beNat (key.drop 66)) (beNat (sig.take 66)) (beNat (sig.drop 66)) (sha512 (hdr ++ body)) then 0
    else 3

/-! ### Power-on (R417, R440) -/

/-- The C-dies of the package whose boot ROM has not stopped. -/
def partDies (s : State) : List Nat := (List.range 4).filter (fun c => (smGet s.B.parts c).isSome && (dieSt s c).result == 0)

/-- A die of the package fails at stage 1 to 3, before it starts its firmware: it is absent (R440). -/
def bootFail (s : State) (die r : Nat) : State :=
  if (smGet s.B.parts die).isSome ∧ (dieSt s die).stage = 0 ∧ 1 ≤ r ∧ r ≤ 4 then
    setDie s die { dieSt s die with stage := Nat.min r 3, result := r }
  else s

/-- The running firmware raises the fused minimum to its own SVN (R441). -/
def fuseSvn (s : State) : State :=
  let d := dieSt s s.B.primary
  if 4 ≤ d.stage then { s with B := { s.B with minSvn := Nat.max s.B.minSvn d.svn } } else s

/-- A die stops in the stage in which it failed. -/
def bootFails (s : State) (d r : Nat) : State := setDie s d { dieSt s d with stage := if r = 2 then 2 else 3, result := r }

/-- A die whose image verified starts its firmware at 1.5 GHz. -/
def bootStarts (s : State) (d : Nat) : State :=
  let l := s.B.flash
  setDie s d { dieSt s d with stage := 4, result := 0, svn := imageSvn l, clk := 60, image := l.take (256 + imageLen l + 132) }

/-- Step 1 and 2 of R417: links train; every die is asked for its descriptor; the primary knows its own. -/
def startDiscovery (s : State) : State :=
  let p := s.B.primary
  let others := (s.B.parts.map (fun e => e.1)).filter (· != p)
  let s := putDesc (trainLinks s) p (descOf s p)
  let s := { s with B := { s.B with asked := others } }
  others.foldl (fun s d => sendMsg s p d 9 0 0 0 0) s

/-- POWER_ON: each C-die's boot ROM verifies the image. The others fetch it from the primary, so that its failure is theirs (RESULT 2). -/
def execPowerOn (s : State) : Out :=
  if s.B.status ≠ 0 ∨ (dieSt s s.B.primary).stage ≠ 0 then .next s
  else
    let r := checkImage s
    if r = 0 then .next (startDiscovery ((partDies s).foldl bootStarts s))
    else .next ((partDies s).foldl (fun s d => bootFails s d (if d = s.B.primary then r else 2)) s)

/-- DISCOVERY_TIMEOUT: 100 ms after power-on the dies that have not answered are absent. -/
def execDiscoveryTimeout (s : State) : Out :=
  if s.B.status ≠ 0 ∨ s.B.asked.isEmpty = true ∨ s.time < 100000000 then .next s else .next (finishDiscovery s)

/-! ### Clock and temperature (R445, R447) -/

/-- CLOCK_STEP: one step of 25 MHz, at most one in 10 µs, never above 1.5 GHz. [DESIGN CHOICE, safe: log entry 106] -/
def execClockStep (die : Nat) (up : Bool) (s : State) : Out :=
  let d := dieSt s die
  if s.time < d.clkStep ∨ d.clk = 0 then .next s
  else .next (setDie s die { d with clk := if up then Nat.min 60 (d.clk + 1) else Nat.max 1 (d.clk - 1), clkStep := s.time + 10000 })

/-- THERMAL_THROTTLE: 1.0 GHz at once. [DESIGN CHOICE, safe: log entry 106] -/
def execThermalThrottle (die : Nat) (s : State) : Out :=
  let d := dieSt s die
  .next (if d.clk = 0 then s else setDie s die { d with clk := Nat.min d.clk 40 })

/-- A job of a stopped die: its cut, and its context lost. -/
def loseJob (s : State) (k : Nat) (j : Job) : State :=
  let a := stopJob s k j
  abandon a.1 k a.2 3 0 a.2.ctxAddr.toNat (jobid k a.2)

/-- THERMAL_STOP: every core of the die stops at a cut, the contexts are lost, and the die is held in reset. [DESIGN CHOICE, safe: log entry 106] -/
def execThermalStop (die : Nat) (s : State) : Out :=
  let ks := (s.jobs.filter (fun e => jDie e.1 == die)).map (fun e => e.1)
  let s := ks.foldl (fun s k => match jobAt s k with | some j => loseJob s k j | none => s) s
  .next (setDie s die { dieSt s die with held := true })

/-- PACKAGE_RESET: everything is as after power-on but what stands outside the package and what its parts and fuses fix. [DESIGN CHOICE, unsafe: log entry 3; DEDUCED, unsafe: log entry 100] -/
def execPackageReset (s : State) : Out :=
  let b := { Boot.reset with flash := s.B.flash, keyDigest := s.B.keyDigest, minSvn := s.B.minSvn, cxl := s.B.cxl, parts := s.B.parts,
                             primary := s.B.primary }
  .next { State.reset with agenda := s.agenda, fresh := s.fresh, M := { MemSys.reset with host := s.M.host }, B := b }

end Sys2Proof.Machine
end

