-- ==== Sys2Proof/Machine/Control.lean ====
section
/-!
DEFINITION. Compares, predicate logic, control transfers, the spill store and the queue instructions of S (R107, R114 to R123).
-/
namespace Sys2Proof.Machine

/-- The compare conditions (R114). -/
def cmpCond (c : BitVec 3) (x y : Word) : Bool :=
  match c with
  | 0 => x == y
  | 1 => x != y
  | 2 => x.slt y
  | 3 => x.ult y
  | 4 => !x.slt y
  | _ => !x.ult y

def execCmp (p c : BitVec 3) (a b : BitVec 6) (s : State) : Out :=
  sPure s [a, b] (fun j => j.setP p (cmpCond c (j.s a) (j.s b)))
def execCmpi (p c : BitVec 3) (a : BitVec 6) (i : BitVec 14) (s : State) : Out :=
  sPure s [a] (fun j => j.setP p (cmpCond c (j.s a) (immS i)))

def execPand (d a b : BitVec 3) (s : State) : Out := sPure s [] (fun j => j.setP d (j.p a && j.p b))
def execPor (d a b : BitVec 3) (s : State) : Out := sPure s [] (fun j => j.setP d (j.p a || j.p b))
def execPxor (d a b : BitVec 3) (s : State) : Out := sPure s [] (fun j => j.setP d (j.p a != j.p b))
def execPnot (d a : BitVec 3) (s : State) : Out := sPure s [] (fun j => j.setP d (!j.p a))

/-! ### Control transfers (R116 to R118) -/

/-- The target `PC + 4 × off`. -/
def relTarget {n : Nat} (pc : Word) (o : BitVec n) : Word := pc + immS o * 4

/-- A taken transfer: the job goes to `t`, with a FLOW record (R436). -/
def goTo (s : State) (k : Nat) (j : Job) (t : Word) : SRes := .retire (traceFlow s k j .S j.pc) (j.setPc t)

def execB (p : BitVec 3) (n : BitVec 1) (o : BitVec 22) (s : State) : Out :=
  sExec s sAny [] noDec (fun k j => if j.p p != (n == 1) then goTo s k j (relTarget j.pc o) else .retire s j.next)
def execJmp (o : BitVec 26) (s : State) : Out := sExec s sAny [] noDec (fun k j => goTo s k j (relTarget j.pc o))
def execCall (o : BitVec 26) (s : State) : Out :=
  sExec s sAny [] noDec (fun k j => goTo s k (j.setS 63 (j.pc + 4)) (relTarget j.pc o))
/-- JR: a target that is not a multiple of 4 raises trap 0x03 at the JR (R118). -/
def execJr (a : BitVec 6) (s : State) : Out :=
  sExec s sAny [a] noDec (fun k j => if (j.s a).toNat % 4 ≠ 0 then .trap 0x03 (j.s a).toNat else goTo s k j (j.s a))

/-! ### Spill store (R27, R119) -/

/-- The header's bound on the slot. -/
def spillDec (n : BitVec 9) (j : Job) : Option (Nat × Nat) := if n.toNat < j.nSpill then none else some (0x02, n.toNat)

def execSpl (d : BitVec 6) (n : BitVec 9) (s : State) : Out :=
  sExec s sReg [d] (spillDec n) (fun _ j => .retire s (j.setS d (smGetD j.core.spill n.toNat 0)).next)
def execSps (d : BitVec 6) (n : BitVec 9) (s : State) : Out :=
  sExec s sJob [d] (spillDec n) (fun _ j =>
    .retire s ({ j with core := { j.core with spill := smSet j.core.spill n.toNat (j.s d) } } : Job).next)

/-! ### Queues (R20, R21, R120, R121) -/

/-- Producer, consumer and QMAP checks of a queue instruction: `ok` tells the queues S may name. -/
def queueDec (ok : Nat → Bool) (q : BitVec 6) (j : Job) : Option (Nat × Nat) :=
  if !ok q.toNat then some (0x0A, q.toNat) else if !j.qmap q.toNat then some (0x02, q.toNat) else none

/-- QPUSH waits for a place, its value read at issue. -/
def execQpush (a : BitVec 6) (q : BitVec 6) (s : State) : Out :=
  sExec s sJob [a] (queueDec (fun n => n < 12) q) (fun _ j =>
    if j.qFull q.toNat then .wait s j else .retire s ((j.qPush q.toNat (j.s a)).tellQ q.toNat j.sKnow).next)
/-- QPOP waits for an entry; a pop of q15 lets waiting status in (R23). Pops of q13 to q15 are VALUE records (R436); a replay, to which no
unit sends status, takes q15's from its records. -/
def execQpop (d : BitVec 6) (q : BitVec 6) (s : State) : Out :=
  sExec s sJob [d] (queueDec (fun n => 12 ≤ n) q) (fun k j =>
    let l := j.queue q.toNat
    if l.isEmpty && (q != 15 || j.replay.isNone) then .wait s j
    else
        let v := l.headD 0
        let x := if 13 ≤ q.toNat then takeIn s k j .S v.toNat q.toNat else (s, j, v.toNat)
        let j := (x.2.1.popShows q.toNat).qPop q.toNat
        let j := if q = 15 then j.statusFreed.drainStatus else j
        .retire x.1 (j.setS d (BitVec.ofNat 64 x.2.2)).next)
/-- QCNT reads the occupancy for S: entries of a queue it consumes; entries not yet popped of a queue it fills. -/
def execQcnt (d : BitVec 6) (q : BitVec 6) (s : State) : Out :=
  sExec s sReg [d] (queueDec (fun _ => true) q) (fun k j =>
    let x := takeIn s k j .S (j.queue q.toNat).length q.toNat
    .retire x.1 (x.2.1.setS d (BitVec.ofNat 64 x.2.2)).next)

end Sys2Proof.Machine
end

