-- ==== Sys2Proof/Machine/Fabric.lean ====
section
/-!
DEFINITION. The fabric protocol (R287, R290, R327, R353, R384, R410 to R413): a flit as it arrives, the sequence checks of its messages,
and what a die does with each class and operation. An access of a core acts on the home in its own step; the messages here are those
that arrive from a link. A message that is not waiting at its destination has no effect.
-/
namespace Sys2Proof.Machine

/-! ### Parts of a message (R411) -/

/-- ADDR of a message. -/
def msgAddr (m : Msg) : Nat := bits m.w1.toNat 0 48
/-- TAG of a request. -/
def msgTag (m : Msg) : Nat := bits m.w1.toNat 52 12
/-- The line of a message. -/
def msgLine (m : Msg) : Nat := msgAddr m / 64
/-- The key of an outstanding request of die `d`. -/
def outKey (d tag : Nat) : Nat := 4096 * d + tag

/-! ### Reception (R410 to R413) -/

/-- Operations of a class. -/
def opsOf (cls : Nat) : Nat := match cls with | 1 => 8 | 2 => 6 | 3 => 3 | 4 => 3 | 5 => 3 | 6 => 1 | 7 => 1 | 8 => 2 | 9 => 5 | _ => 0

/-- A class or operation that the die refuses with code 4. -/
def refusedClass (die cls op : Nat) : Bool := decide (opsOf cls ≤ op) || (cls == 8 && decide (8 ≤ die))

/-- ADDR lies in the map of the die that receives the message. -/
def addrMapped (s : State) (die cls op : Nat) (m : Msg) : Bool :=
  let a := msgAddr m
  match cls, op with
  | 1, 5 => (rangeOf s a).isMem
  | 1, 6 => true
  | 1, 7 => (regAt s (a / 8 * 8)).isSome
  | 1, _ => (rangeOf s a).isMem && homeId s a == die
  | 4, _ | 5, _ => (rangeOf s a).isMem
  | _, _ => true

/-- An error response with a code, and its log record. -/
def errorAnswer (s : State) (die cls : Nat) (m : Msg) (code : Nat) : State :=
  let a := if cls = 2 ∨ cls = 3 then m.seq.toNat else msgAddr m
  let s := logError s die 2 m.src.toNat cls (a % 2 ^ 47) false
  let tag := if cls = 2 ∨ cls = 3 then m.ftag.toNat else msgTag m
  sendMsg s die m.src.toNat 2 3 tag (tag * 2 ^ 52 + code) 0

/-- A message arrives at its destination: refused class, sequence, address, else it waits to be acted on. -/
def receive (s : State) (cls op : Nat) (m : Msg) : State :=
  let die := m.dst.toNat
  if cls = 0 then s
  else if refusedClass die cls op then errorAnswer s die cls m 4
  else
    let k := seqKey m.src.toNat die cls
    let d := (m.seq.toNat + 2 ^ 32 - smGetD s.F.expect k 0) % 2 ^ 32
    if 2 ^ 31 ≤ d then errorAnswer s die cls m 2
    else
      let s := { s with F := { s.F with expect := smSet s.F.expect k ((m.seq.toNat + 1) % 2 ^ 32) } }
      if d ≠ 0 then errorAnswer s die cls m 1
      else if !addrMapped s die cls op m then errorAnswer s die cls m 3
      else { s with F := { s.F with inbox := s.F.inbox ++ [⟨cls, op, m⟩] } }

/-- The message of a slot: 16 header bytes, 64 data bytes; its class and operation. -/
def slotMsg (l : List Byte) : Nat × Nat × Msg :=
  let w0 := leNat (l.take 8)
  let w1 := leNat ((l.drop 8).take 8)
  (bits w0 60 4, bits w0 54 6,
   ⟨BitVec.ofNat 5 (bits w0 49 5), BitVec.ofNat 5 (bits w0 44 5), BitVec.ofNat 12 (bits w0 32 12), BitVec.ofNat 32 (bits w0 0 32),
    BitVec.ofNat 64 w1, msgData ((l.drop 16).take 64)⟩)

/-- Deliver a slot; one whose 80 bytes are zero is empty. -/
def slotArrives (s : State) (l : List Byte) : State :=
  if l.all (· == 0) then s else let m := slotMsg l; receive s m.1 m.2.1 m.2.2

/-- The key of a module. -/
def moduleKey (die module : Nat) : Nat := 32 * die + module

/-- The ACK and NAK of the next flit's header. -/
def setHeader (s : State) (k ack : Nat) (nak : Bool) : State :=
  { s with F := { s.F with header := smSet s.F.header k (ack % 4096 + (if nak then 4096 else 0)) } }

/-- Credits that a flit returns (R410, R412). [DESIGN CHOICE, unsafe: log entry 101] -/
def takeCredits (s : State) (k hdr : Nat) : State :=
  let c := (List.range 9).foldl (fun (c : SMap Nat) i =>
    let key := k * 16 + (i + 1)
    smPut 0 c key (smGetD c key 0 + bits hdr (4 * i) 4)) s.F.credit
  { s with F := { s.F with credit := c } }

/-- How often in a row the far end has asked for the same flit again. -/
def countNak (s : State) (k : Nat) (nak : Bool) : State :=
  { s with F := { s.F with naks := smSet s.F.naks k (if nak then smGetD s.F.naks k 0 + 1 else 0) } }

/-- FLIT_RECEIVE: a flit of 256 bytes arrives on a module of a die. [DEDUCED, unsafe: log entry 98] -/
def execFlitReceive (die module : Nat) (flit : BitVec 2048) (s : State) : Out :=
  let l := natLe 256 flit.toNat
  let k := moduleKey die module
  let e := smGetD s.F.flit k 0
  let hdr := leNat (l.take 8)
  let fseq := bits hdr 52 12
  if crc64 (l.take 248) ≠ leNat (l.drop 248) then .next (setHeader s k (e + 4095) true)
  else if fseq ≠ e then .next (setHeader s k (e + 4095) (decide ((fseq + 4096 - e) % 4096 < 2048)))
  else
    let s := setHeader { s with F := { s.F with flit := smSet s.F.flit k ((e + 1) % 4096) } } k fseq false
    let s := takeCredits (countNak s k (bitOf hdr 39)) k hdr
    .next ((List.range 3).foldl (fun s i => slotArrives s ((l.drop (8 + 80 * i)).take 80)) s)

/-- LINK_RETRAIN of link `link` of C-die `die`: after 8 replays on one of its modules, or before the package has booted, it trains again;
`rates` are the modules' rates, `repaired` the lanes repaired. Messages wait and none is lost. [DEDUCED, unsafe: log entry 97] -/
def execLinkRetrain (die link : Nat) (rates : BitVec 8) (repaired : Nat) (s : State) : Out :=
  let ks := (List.range (linkModules link)).map (fun j => moduleKey die (linkFirst link + j))
  let i := 8 * die + link
  if 7 ≤ link ∨ (s.B.status = 1 ∧ ks.all (fun k => decide (smGetD s.F.naks k 0 < 8)) = true) then .next s
  else match smGet s.B.links i with
    | none => .next s
    | some (_, rep) =>
      .next { s with B := { s.B with links := smSet s.B.links i (cleanRates link rates.toNat, Nat.min 255 (rep + repaired)) },
                     F := { s.F with naks := ks.foldl smErase s.F.naks } }

/-! ### Acting on a message -/

/-- Act on a message that waits. -/
def onMsg (s : State) (cls op : Nat) (m : Msg) (f : State → State) : Out :=
  match takePkt s cls op m with
  | none => .next s
  | some s => .next (f s)

/-- A request or snoop is outstanding until it is answered. -/
def noteOut (s : State) (cls op : Nat) (m : Msg) : State :=
  { s with F := { s.F with out := smSet s.F.out (outKey m.src.toNat (msgTag m)) (cls, op, msgAddr m, m.ftag.toNat) } }

/-- What an answer answers. -/
def outOf (s : State) (m : Msg) : Option (Nat × Nat × Nat × Nat) := smGet s.F.out (outKey m.dst.toNat m.ftag.toNat)

/-- The request is answered. -/
def closeOut (s : State) (m : Msg) : State := { s with F := { s.F with out := smErase s.F.out (outKey m.dst.toNat m.ftag.toNat) } }

/-- Answer a message: class 2 or 3. -/
def reply (s : State) (m : Msg) (cls op w1 : Nat) (data : BitVec 512) : State :=
  sendMsg s m.dst.toNat m.src.toNat cls op (msgTag m) w1 data

/-- A response without data. -/
def respond (s : State) (m : Msg) (op : Nat) : State := reply s m 2 op (msgTag m * 2 ^ 52 + msgAddr m) 0

/-- The line's bytes at the home as data: whole, or poisoned. -/
def replyLine (s : State) (m : Msg) : State :=
  let line := msgLine m
  let s := respond s m 4
  if poisoned s line then reply s m 3 2 (2 ^ 64 - 1) 0 else reply s m 3 0 (2 ^ 64 - 1) (msgData (homeBytes s (64 * line) 64))

/-- What stands before a request at the home (R290, R294, R384): partial lines are combined; a moved page answers 2; scope copies are
published, or in mode 1 the request answers 1. -/
def homePrep (s : State) (line : Nat) : State × Option Nat :=
  let s := combineLine s line
  if moving s (64 * line) 64 then (s, some 2)
  else if s.M.scopes.any (fun c => c.line == line) then
    if s.B.mode = 1 then (s, some 1) else (publishSel s (fun c => c.line == line) 3, none)
  else (s, none)

/-- A request for a line at its home. -/
def atHome (s : State) (m : Msg) (op : Nat) (f : State → State) : Out :=
  onMsg s 1 op m (fun s =>
    let s := noteOut s 1 op m
    let p := homePrep s (msgLine m)
    match p.2 with
    | some r => respond p.1 m r
    | none => f p.1)

/-- Die `d` gives the line up: all tokens, dirty bytes to the home, all copies (R287). -/
def dieGivesUp (s : State) (d line f : Nat) : State :=
  let s := landThrows s d line
  let s := if dirOwned s d line then recallLine s line f d else s
  let s := tokDrop (dropCopies s d line 64) d line
  match smGet s.M.dir line with
  | some (.owned o) => if o = d then { s with M := { s.M with dir := smErase s.M.dir line } } else s
  | some (.shared v h) =>
    let v' := if bitOf v d then v - 2 ^ d else v
    if v' = 0 then { s with M := { s.M with dir := if h then smSet s.M.dir line .host else smErase s.M.dir line } }
    else setDir s line (.shared v' h)
  | _ => s

/-- The requester is a C-die. -/
def fromCore (m : Msg) : Bool := decide (m.src.toNat < 4)

/-- Read permission for the requester. -/
def homeRead (s : State) (m : Msg) : State :=
  if fromCore m then dirRead s m.src.toNat (msgLine m) m.ftag.toNat else dirHostRead s (msgLine m)
/-- Write permission for the requester. -/
def homeOwn (s : State) (m : Msg) (ty : Nat) : State :=
  if fromCore m then dirWrite s m.src.toNat (msgLine m) m.ftag.toNat ty else dirHostWrite s (msgLine m)
/-- A permission granted (TOK). -/
def grant (s : State) (m : Msg) (op : Nat) : State :=
  if fromCore m then sendMsg s m.dst.toNat m.src.toNat 5 op m.ftag.toNat (msgTag m * 2 ^ 52 + msgAddr m) 0 else s

/-! ### REQ -/

/-- Read shared: the owner's bytes reach the home; both share; data follows. -/
def execReqReadShared (m : Msg) (s : State) : Out := atHome s m 0 (fun s => replyLine (grant (homeRead s m) m 0) m)
/-- Read owned: every other holder gives the line up; data follows. -/
def execReqReadOwned (m : Msg) (s : State) : Out := atHome s m 1 (fun s => replyLine (grant (homeOwn s m 2) m 1) m)
/-- Write: every other holder gives the line up. -/
def execReqWrite (m : Msg) (s : State) : Out := atHome s m 2 (fun s => respond (grant (homeOwn s m 2) m 1) m 0)

/-- Atomic: one strong read-modify-write at the home; the old value is the answer. -/
def execReqAtomic (m : Msg) (s : State) : Out :=
  atHome s m 3 (fun s =>
    let n := 2 ^ (Config.atomicSize m.data).val
    let pa := msgAddr m / n * n
    let line := msgLine m
    if poisoned s line then reply s m 3 2 (2 ^ 64 - 1) 0
    else
      let s := watchHit s line 0 4 m.ftag.toNat m.src.toNat
      let s := dirHostWrite s line
      let rel := s.M.rel
      let old := leNat (homeBytes s pa n)
      let s := deviceWrite s pa (natLe n (Config.atomicNew m.data (BitVec.ofNat 64 old)).toNat)
      let s := respond { s with M := { s.M with rel := rel } } m 4
      reply s m 3 1 (maskIn pa n line) (msgData (placeAt (pa % 64) (natLe n old))))

/-- Release of permission: the die leaves the sharer vector. -/
def execReqReleasePermission (m : Msg) (s : State) : Out :=
  atHome s m 4 (fun s => respond (if fromCore m then dieGivesUp s m.src.toNat (msgLine m) m.ftag.toNat else s) m 0)

/-- A near-memory job whose record lies at ADDR joins the queue of the M-die; a full queue answers retry, a refused record an error. [DEDUCED, unsafe: log entry 56] -/
def execReqNearMemoryJob (m : Msg) (s : State) : Out :=
  onMsg s 1 5 m (fun s =>
    let s := noteOut s 1 5 m
    let md := m.dst.toNat - 8
    let w := (List.range 16).map (fun i => recWord s (msgAddr m) i)
    let d := mdieSt s md
    if !nestOk s 0 w || m.dst.toNat < 8 || (nestOf w).mdie != md then respond s m 3
    else if 64 ≤ d.queue.length then respond s m 1
    else
      let h := md * 2 ^ 44 + (d.serial + 1)
      let e : NmJob := ⟨h, 0, m.ftag.toNat, m.src.toNat, w.map (BitVec.ofNat 64), none, 0, [], [], none⟩
      respond (setMdie s md { d with serial := d.serial + 1, queue := d.queue ++ [e] }) m 0)

/-- A walker's steal request, serialised at the walker it is sent to (R353): ADDR names the launch. [DEDUCED, unsafe: log entry 94] -/
def execReqWalkerSteal (m : Msg) (s : State) : Out :=
  onMsg s 1 6 m (fun s =>
    let s := noteOut s 1 6 m
    let l := msgAddr m
    match launchAt s l with
    | none => respond s m 0
    | some v =>
      let own := rangeOfDie v m.dst.toNat
      let his := rangeOfDie v m.src.toNat
      let c := own.2 - own.1
      if v.st ≠ .ready ∨ c < 2 ∨ his.1 < his.2 ∨ v.ranges.length ≤ m.src.toNat then respond s m 0
      else
        let cut := own.2 - c / 2
        respond (setLaunch s l { v with ranges := (v.ranges.set m.dst.toNat (own.1, cut)).set m.src.toNat (cut, own.2) }) m 0)

/-- The agent of a register request: the host's from an I/O die, else die firmware's. [DEDUCED, unsafe: log entry 37] -/
def msgAgent (m : Msg) : Agent := if 24 ≤ m.src.toNat then .host else .firmware

/-- A register access on a remote die. -/
def execReqRegisterAccess (m : Msg) (s : State) : Out :=
  onMsg s 1 7 m (fun s =>
    let s := noteOut s 1 7 m
    match regAt s (msgAddr m / 8 * 8), Config.registerForm m.data with
    | none, _ => errorAnswer s m.dst.toNat 1 m 3
    | some r, none =>
      if r.mayRead (msgAgent m) then reply (respond s m 4) m 3 1 255 (BitVec.ofNat 512 (regRead s r)) else errorAnswer s m.dst.toNat 1 m 3
    | some r, some v => if r.mayWrite (msgAgent m) then respond (regWrite s r v) m 0 else errorAnswer s m.dst.toNat 1 m 3)

/-! ### RSP -/

/-- Acknowledgement: the request is complete. -/
def execRspAck (m : Msg) (s : State) : Out := onMsg s 2 0 m (fun s => closeOut s m)

/-- Retry: the request stays outstanding, its access stalls and is tried again. -/
def execRspRetry (m : Msg) (s : State) : Out := onMsg s 2 1 m (fun s => s)

/-- Moved: the requester drops its cached translations of the domain and translates again (R384). -/
def execRspMoved (m : Msg) (s : State) : Out :=
  onMsg s 2 2 m (fun s =>
    match outOf s m with
    | none => s
    | some (_, _, _, f) => { closeOut s m with M := { s.M with tlb := s.M.tlb.filter (fun t => t.fdom != f) } })

/-- Error: a read returns a poisoned line; a write or atomic was not performed and its domain is told (R413). [DEDUCED, unsafe: log entry 93] -/
def execRspError (m : Msg) (s : State) : Out :=
  onMsg s 2 3 m (fun s =>
    match outOf s m with
    | none => s
    | some (cls, op, a, f) =>
      let s := closeOut s m
      if cls ≠ 1 then s
      else if op < 2 then poisonLine s (lineOf a)
      else if op < 4 then raiseEvent s f 12 (Config.errorCode m.w1) m.dst.toNat a m.ftag.toNat
      else s)

/-- Data follows: the request stays outstanding until its data message. -/
def execRspDataFollows (m : Msg) (s : State) : Out := onMsg s 2 4 m (fun s => s)

/-- A forced publish is done. -/
def execRspForcedPublishAck (m : Msg) (s : State) : Out := onMsg s 2 5 m (fun s => closeOut s m)

/-! ### DAT -/

/-- Bytes of a line that a C-die still holds dirty reach the home as the message carries them. -/
def backBytes (s : State) (line mask : Nat) : Nat → List Byte → State
  | _, [] => s
  | i, b :: r =>
    let pa := 64 * line + i
    let s := if bitOf mask i && (smGet s.M.dirty pa).isSome then homeSet { s with M := { s.M with dirty := smErase s.M.dirty pa } } pa b else s
    backBytes s line mask (i + 1) r

/-- Data arrives: at a home, a write-back; at a C-die, the line it asked for, which keeps the tag it was read with. [DEDUCED, unsafe: log entry 96] -/
def dataArrives (s : State) (m : Msg) (mask : Nat) : State :=
  match outOf s m with
  | none => s
  | some (_, _, a, f) =>
    let s := closeOut s m
    let line := lineOf a
    if m.dst.toNat < 8 then (if (rangeOf s a).isMem then noteTag s line else s)
    else
      let s := if lineDirty s line then watchHit s line 3 2 f m.src.toNat else s
      backBytes s line mask 0 (dataBytes m.data)

/-- A full line. -/
def execDatLine (m : Msg) (s : State) : Out := onMsg s 3 0 m (fun s => dataArrives s m (2 ^ 64 - 1))
/-- A partial line under the mask of word 1. -/
def execDatPartialLine (m : Msg) (s : State) : Out := onMsg s 3 1 m (fun s => dataArrives s m m.w1.toNat)
/-- A poisoned line: the mark travels with it. -/
def execDatPoisonedLine (m : Msg) (s : State) : Out :=
  onMsg s 3 2 m (fun s =>
    match outOf s m with
    | none => s
    | some (_, _, a, _) => let s := closeOut s m; if (smGet s.M.poison (lineOf a)).isSome then s else poisonLine s (lineOf a))

/-! ### SNP -/

/-- The mask of the dirty bytes of a line. -/
def dirtyMask (s : State) (line : Nat) : Nat :=
  ((List.range 64).map (fun i => if (smGet s.M.dirty (64 * line + i)).isSome then 2 ^ i else 0)).foldl (· + ·) 0

/-- Recall: the owner's home slice collects the owner token, answers with its dirty bytes, which reach the home, and keeps Shared. -/
def execSnpRecallOwner (m : Msg) (s : State) : Out :=
  onMsg s 4 0 m (fun s =>
    let s := noteOut s 4 0 m
    let d := m.dst.toNat
    let line := msgLine m
    if !dirOwned s d line then respond s m 0
    else
      let mask := dirtyMask s line
      let data := msgData (cBytes s (64 * line) 64)
      let s := dirYield s d line m.ftag.toNat
      let s := setDir s line (.shared (2 ^ d) false)
      if mask = 0 then respond s m 0
      else if poisoned s line then reply s m 3 2 mask 0
      else reply s m 3 (if mask = 2 ^ 64 - 1 then 0 else 1) mask data)

/-- Invalidate: the die gives the line up and acknowledges. -/
def execSnpInvalidate (m : Msg) (s : State) : Out :=
  onMsg s 4 1 m (fun s => respond (dieGivesUp (noteOut s 4 1 m) m.dst.toNat (msgLine m) m.ftag.toNat) m 0)

/-- Forced publish: the die's scope copies of the line are published to device scope. -/
def execSnpForcedPublish (m : Msg) (s : State) : Out :=
  onMsg s 4 2 m (fun s =>
    let s := noteOut s 4 2 m
    let d := m.dst.toNat
    respond (publishSel s (fun c => c.line == msgLine m && instCore c.level c.inst / 64 == d) 3) m 5)

/-! ### TOK -/

/-- Shared permission is granted to the die; it is entered where the directory does not already say so. [DEDUCED, unsafe: log entry 96] -/
def execTokGrantShared (m : Msg) (s : State) : Out :=
  onMsg s 5 0 m (fun s =>
    let d := m.dst.toNat
    let line := msgLine m
    match smGet s.M.dir line with
    | none => setDir s line (.shared (2 ^ d) false)
    | some (.shared v h) => if bitOf v d then s else setDir s line (.shared (v + 2 ^ d) h)
    | _ => s)

/-- Owned permission is granted to the die. [DEDUCED, unsafe: log entry 96] -/
def execTokGrantOwned (m : Msg) (s : State) : Out :=
  onMsg s 5 1 m (fun s =>
    let d := m.dst.toNat
    let line := msgLine m
    match smGet s.M.dir line with
    | none => setDir s line (.owned d)
    | some (.shared v false) => if v = 2 ^ d then setDir s line (.owned d) else s
    | _ => s)

/-- Permission is revoked: the die gives the line up and acknowledges. -/
def execTokRevoke (m : Msg) (s : State) : Out :=
  onMsg s 5 2 m (fun s => respond (dieGivesUp s m.dst.toNat (msgLine m) m.ftag.toNat) m 0)

/-! ### ING (R327, R329) -/

/-- A row is placed; its pick record goes back to the sender, who awaits it under the row's SCAT number. -/
def rowPlaced (s : State) (m : Msg) (n tag buf : Nat) (row : List Byte) : State :=
  let p := ingest s m.dst.toNat m.src.toNat m.ftag.toNat 0 tag buf row
  let s := p.1
  let s := { s with F := { s.F with picks := smSet s.F.picks (2 ^ 48 * m.src.toNat + n) (m.ftag.toNat, tag) } }
  sendMsg s m.dst.toNat m.src.toNat 8 1 m.ftag.toNat (msgTag m * 2 ^ 52 + n) (msgData p.2.2)

/-- Rows whose parts are complete are placed in ascending SCAT number; a row that is early waits. -/
def placeRows (s : State) (m : Msg) : Nat → State
  | 0 => s
  | k + 1 =>
    let key := 32 * m.src.toNat + m.dst.toNat
    let parts := smGetD s.F.rows key []
    let d := dieSt s m.dst.toNat
    let n := smGetD d.scatSeq m.src.toNat 0
    let now := parts.filter (fun x => msgAddr x == n)
    match Config.rowForm (now.map (fun x => x.data)) with
    | none => s
    | some (tag, buf, row) =>
      if ingWaits s m.dst.toNat m.src.toNat m.ftag.toNat tag buf row then s else
      let s := { s with F := { s.F with rows := smSet s.F.rows key (parts.filter (fun x => msgAddr x != n)) } }
      let s := setDie s m.dst.toNat { d with scatSeq := smSet d.scatSeq m.src.toNat ((n + 1) % 2 ^ 48) }
      placeRows (rowPlaced s m n tag buf row) m k

/-- The row that is next in number would wait for a page or a line. -/
def rowWaits (s : State) (m : Msg) (parts : List Msg) : Bool :=
  let n := smGetD (dieSt s m.dst.toNat).scatSeq m.src.toNat 0
  match Config.rowForm ((parts.filter (fun x => msgAddr x == n)).map (fun x => x.data)) with
  | none => false
  | some (tag, buf, row) => ingWaits s m.dst.toNat m.src.toNat m.ftag.toNat tag buf row

/-- A part of a token row arrives at the ingress unit of a C-die; it waits while its row cannot be placed (R384). -/
def execIngTokenRow (m : Msg) (s : State) : Out :=
  if rowWaits s m (smGetD s.F.rows (32 * m.src.toNat + m.dst.toNat) [] ++ [m]) then .next s
  else onMsg s 8 0 m (fun s =>
    let key := 32 * m.src.toNat + m.dst.toNat
    let parts := smGetD s.F.rows key [] ++ [m]
    placeRows { s with F := { s.F with rows := smSet s.F.rows key parts } } m parts.length)

/-- A device-scope write of a message's data at a virtual address; pages that do not translate are skipped. -/
def virtStore (s : State) (f va : Nat) (l : List Byte) : State :=
  ((pagePieces va l.length).foldl (fun (a : State × List Byte) p =>
    match translateMem s f true p.1 .write with
    | .ok pa => (deviceWrite a.1 pa (a.2.take p.2), a.2.drop p.2)
    | _ => (a.1, a.2.drop p.2)) (s, l)).1

/-- A pick record comes back: the sender's T path writes it at TAG (R305, R324, R329); it waits for a frozen page (R384). -/
def execIngPickRecord (m : Msg) (s : State) : Out :=
  match smGet s.F.picks (2 ^ 48 * m.dst.toNat + msgAddr m) with
  | some (f, va) => if translateMem s f true va .write = .frozen then .next s else pickArrives m s
  | none => pickArrives m s
where
  /-- The record is written. -/
  pickArrives (m : Msg) (s : State) : Out := onMsg s 8 1 m (fun s =>
    let k := 2 ^ 48 * m.dst.toNat + msgAddr m
    match smGet s.F.picks k with
    | none => s
    | some (f, va) => virtStore { s with F := { s.F with picks := smErase s.F.picks k } } f va (dataBytes m.data))

/-! ### MGT -/

/-- Act on the oldest waiting message of an MGT operation. -/
def onMgt (s : State) (op : Nat) (f : State → Msg → State) : Out :=
  match s.F.inbox.find? (fun p => p.cls == 9 && p.op == op) with
  | none => .next s
  | some p => onMsg s 9 op p.msg (fun s => f s p.msg)

/-- A descriptor is asked for: it goes to the die that asked. A die that failed its boot, or that is not in the package, does not answer. -/
def execMgtDescriptorRequest (s : State) : Out :=
  onMgt s 0 (fun s m =>
    let d := m.dst.toNat
    if (smGet s.B.parts d).isNone ∨ (dieSt s d).result ≠ 0 then s else sendMsg s d m.src.toNat 9 1 0 0 (msgData (descOf s d)))

/-- A descriptor arrives at the primary: entered in the table, or refused, and the die is then absent (R414). -/
def execMgtDescriptor (s : State) : Out :=
  onMgt s 1 (fun s m =>
    let id := m.src.toNat
    let l := dataBytes m.data
    if m.dst.toNat ≠ s.B.primary ∨ s.B.asked.contains id = false then s
    else answered (if descOk l then putDesc s id l else s) id)

/-- The topology table reaches a die: STATUS 1 takes its cores out of reset (R417). -/
def execMgtTopology (s : State) : Out :=
  onMgt s 2 (fun s m =>
    let d := m.dst.toNat
    if s.B.status = 1 then setDie s d { dieSt s d with stage := 5 } else s)

/-- A format window write of die firmware reaches a replica (R63). -/
def execMgtFirmwareReplicaWrite (s : State) : Out :=
  onMgt s 3 (fun s m =>
    match regAt s (msgAddr m) with
    | some (.fwin n r) => respond (regWrite s (.fwin n r) (BitVec.ofNat 64 (bits m.data.toNat 0 64))) m 0
    | _ => errorAnswer s m.dst.toNat 9 m 3)

/-- An event reaches the die controller of the primary C-die, which writes its record (R428): the data carry the record's words. [DEDUCED, unsafe: log entry 95] -/
def execMgtEvent (s : State) : Out :=
  onMgt s 4 (fun s m =>
    let w := fun i => bits m.data.toNat (64 * i) 64
    if m.dst.toNat ≠ s.B.primary then s
    else raiseEvent s (bits (w 0) 36 12) (bits (w 0) 56 8) (bits (w 0) 48 8) (bits (w 0) 31 5) (w 1) (w 2))

end Sys2Proof.Machine
end

