-- ==== Sys2Proof/Machine/Matrix.lean ====
section
/-!
DEFINITION. The matrix words (R188 to R215): shapes and thresholds, operand slots, MMA and MMAS with the arithmetic of a step (R51, R56 to
R59), accumulator words, frame management, leases.
-/
namespace Sys2Proof.Machine

/-! ### The frame of a matrix word -/

/-- Head and tail as `eExec` takes them: the operands, codes, destination queue and the accumulator and slot bounds (R39). -/
def mDec (ops : List OpIn) (fmts : List (BitVec 4)) (push : Option Nat) (extra : Job → Option (Nat × Nat)) : EDec := ⟨ops, fmts, push, extra⟩

/-- The accumulator is declared. [DEDUCED, unsafe: log entry 22] -/
def accBound (n : Nat) (j : Job) : Option (Nat × Nat) := if n < j.nAcc then none else some (0x02, n)
/-- The slot name is declared: MCLM alone checks this (R39). -/
def slotBound (n : Nat) (j : Job) : Option (Nat × Nat) := if n < j.nSlot then none else some (0x02, n)
/-- The first of two bounds. [DEDUCED, unsafe: log entry 22] -/
def bothBounds (f g : Job → Option (Nat × Nat)) (j : Job) : Option (Nat × Nat) := match f j with | some t => some t | none => g j

/-- A matrix word: W and perhaps SC as operands. -/
def mPlan (d : EDec) (f : State → Nat → Job → List Word → IRes) : EPlan := ⟨d, true, false, f⟩

/-- The matrix grant, as the words of X in flight leave it, or trap 0x01 (R190 check 1). -/
def needMs (i : Instr) (j : Job) (f : MGrant → IRes) : IRes :=
  match j.ahead.core.ms with | none => .trap 0x01 (wordBits i % 2 ^ 64) | some g => f g

/-- n_rows (R189). -/
def nRows (w : MWord) (g : MGrant) : Nat := if w.rows = 0 then g.rows else w.rows.toNat

/-- The job as it is in a state, stored there already: the word waits. -/
def keepWaiting (s : State) (k : Nat) (j : Job) : IRes := .pend s ((jobAt s k).getD j)

/-- The word waits while its page is being moved (R384). -/
def frozenWait (s : State) (k : Nat) (j : Job) : IRes := keepWaiting (modJob s k (fun j => j.stallNote s .X)) k j

/-- Check 5: a tile address is a multiple of 4,096 below 2^52. -/
def tileAddr (ea : Nat) : Option (Nat × Nat) := if ea % 4096 ≠ 0 then some (0x03, ea) else if 2 ^ 52 ≤ ea then some (0x04, ea) else none

/-- The word has its frame; it issues and no longer waits. -/
def issued (s : State) (k : Nat) : State := modJob (leaveFrames s k) k (fun j => { j with lookup := none })

/-! ### Shapes (R193 to R195) -/

/-- MTHR sets the threshold table. -/
def planMthr (w : MWord) : EPlan :=
  mPlan (mDec [opB w.w] [] none noExtra) (fun s _ _ v =>
    let t := if w.w.mode = 3 then thrDefault else v.headD 0
    if thrValid t.toNat then .fly s { Effect.none with thr := some t } else .trap 0x01 t.toNat)
def execMthr (w : MWord) (s : State) : Out := eExec s .X (.mthr w) w.tok (planMthr w)

/-- Rows granted for a request (R195). -/
def shapeRows (t c : Nat) : Nat :=
  match (List.range 4).find? (fun i => decide (c ≤ bits (thrEntry t i) 0 7)) with
  | some i => thrRows (thrEntry t i)
  | none => 64

/-- MSHAPE grants a row shape and reports it in q12. -/
def planMshape (w : MWord) : EPlan :=
  mPlan (mDec [opB w.w] [] (some 12) noExtra) (fun s _ j v =>
    let c := (v.headD 0).toNat
    let rows := if c = 0 then 0 else shapeRows j.ahead.core.thr.toNat c
    let ms : Option MGrant := if c = 0 then none else some ⟨rows, w.pint.toNat + 1⟩
    let e := 3 * 2 ^ 60 + Nat.min c 4095 * 2 ^ 16 + w.pint.toNat * 2 ^ 12 + rows
    .fly s { Effect.none with ms := some ms, push := [BitVec.ofNat 64 e] })
def execMshape (w : MWord) (s : State) : Out := eExec s .X (.mshape w) w.tok (planMshape w)

/-! ### Slots (R196, R197) -/

/-- MCLM claims a slot name; its rows are zero and untagged. -/
def planMclm (w : MWord) : EPlan :=
  mPlan (mDec [] [] none (slotBound w.aslot.toNat)) (fun s _ _ _ =>
    .fly s { Effect.none with slots := [(w.aslot.toNat, some Slot.reset)] })
def execMclm (w : MWord) (s : State) : Out := eExec s .X (.mclm w) w.tok (planMclm w)

/-- MREL unbinds a slot name; an unclaimed name has nothing to lose (R196). -/
def planMrel (w : MWord) : EPlan :=
  mPlan (mDec [] [] none noExtra) (fun s _ _ _ =>
    .fly s { Effect.none with slots := [(w.aslot.toNat, none)] })
def execMrel (w : MWord) (s : State) : Out := eExec s .X (.mrel w) w.tok (planMrel w)

/-- The tag that granules share, else untagged. -/
def sharedGran (w : Window) (gs : List Nat) : Nat :=
  match gs with
  | [] => 0
  | g :: r => if r.all (fun x => granTag w x == granTag w g) then granTag w g else 0

/-- The claimed slot, as the words of X in flight leave it, or trap 0x01 with its number (R190 check 2). -/
def needSlot (w : MWord) (j : Job) (f : Slot → IRes) : IRes :=
  match smGet j.ahead.core.slots w.aslot.toNat with | none => .trap 0x01 w.aslot.toNat | some t => f t

/-- MLDA loads a slot from the window. -/
def planMlda (w : MWord) : EPlan :=
  let i := Instr.mlda w
  mPlan (mDec [opB w.w] [] none noExtra) (fun s _ j v =>
    needMs i j (fun g => needSlot w j (fun _ =>
      let a := (v.headD 0).toInt
      let n := 48 * nRows w g
      match winBounds j.core.win.size [(a, 16)] [(a, n)] with
      | some t => .trap t.1 t.2
      | none =>
        if j.xWindow then .wait
        else match winPoison j.core.win [(a, n)] with
        | some p => .trap 0x0C p
        | none =>
          let seen := winSeen s j .X (j.know .X)
          let d := memWriteBytes [] 0 ((List.range n).map (fun o => seen (a.toNat + o)))
          .fly s { Effect.none with slots := [(w.aslot.toNat, some ⟨d, sharedGran j.core.win (granulesOf a.toNat n), []⟩)], reads := [(a, n)] })))
def execMlda (w : MWord) (s : State) : Out := eExec s .X (.mlda w) w.tok (planMlda w)

/-! ### Formats of a matrix word (R50, R51, R66) -/

/-- A floating format of 8 bits or fewer. -/
def lowScale (f : NFmt) : Bool := f.isFloat && decide (f.cont ≤ 8)
/-- BF16, FP16 and everything floating below them. -/
def midFloat (f : NFmt) : Bool := f.isFloat && decide (f.cont ≤ 16)
/-- INT8 or INT4. -/
def smallInt (f : NFmt) : Bool := f.isInt && decide (f.cont ≤ 8)

/-- The kind of a pair (R51). -/
inductive PairKind
  | f64 | float | int
  deriving DecidableEq, Repr

/-- R51 for resolved formats. -/
def pairKind (a w : NFmt) : Option PairKind :=
  if a = fp64 ∧ w = fp64 then some .f64
  else if a = fp32 ∧ w = fp32 then some .float
  else if midFloat a && midFloat w then some .float
  else if smallInt a && smallInt w then some .int
  else none

/-- K of a pair: 384 bits over the wider container. -/
def pairK (a w : NFmt) : Nat := 384 / Nat.max a.cont w.cont

/-- A code resolved through one tag. -/
def oneTag (s : State) (j : Job) (c tag : Nat) : Option NFmt := if c = 15 then (if tag = 0 then none else tagFmt s tag) else codeFmt j c

/-- The weight format of a tile word, or the trap with its TRAPV, or a wait for a page that is being moved: 0xF takes the tag of a resident frame of
the address whose scale length agrees, else the tag that the tile's lines carry (R65, R66), for which the tile is translated as for a fill
(R190 checks 5 and 7). [DEDUCED, unsafe: log entry 57] -/
def weightFmt (s : State) (k : Nat) (j : Job) (c ea : Nat) : Except (Option (Nat × Nat)) NFmt :=
  let known : Option NFmt → Except (Option (Nat × Nat)) NFmt := fun f => match f with | some f => .ok f | none => .error (some (0x09, 0))
  if c ≠ 15 then known (codeFmt j c)
  else
    let fs := (addrFrames (clusterSt s (jCluster k)) j.fdom (ea / 4096)).filterMap (fun e =>
      match oneTag s j 15 e.2.tag with | some f => if scaleLen f = e.2.len then some f else none | none => none)
    match fs.head? with
    | some f => .ok f
    | none => match tileAddr ea with
      | some t => .error (some t)
      | none => match streamXlate s j .X ea .read false with
        | .ok pa => known (oneTag s j 15 (sharedTag s (linesOf pa 3072)))
        | .frozen => .error none
        | .fail c => .error (some (c, ea))

/-! ### The arithmetic of a step (R56 to R59) -/

/-- An exact sum in progress: numerator and denominator (a power of two), whether a product was NaN, infinities met by sign, whether
every product was −0, flags. -/
structure StepSum where
  num : Int
  den : Nat
  nan : Bool
  pos : Bool
  neg : Bool
  negZero : Bool
  fl : Fl

/-- Add a product. [DEDUCED, unsafe: log entry 19] -/
def StepSum.add (t : StepSum) (p : Num × Fl) : StepSum :=
  let t := { t with fl := t.fl ||| p.2 }
  match p.1 with
  | .nan _ => { t with nan := true }
  | .inf s => if s then { t with neg := true } else { t with pos := true }
  | .fin s n d =>
    let x : Int := if s then -(n : Int) else n
    let z := t.negZero && n == 0 && s
    if d ≤ t.den then { t with num := t.num + x * ((t.den / d : Nat) : Int), negZero := z }
    else { t with num := t.num * ((d / t.den : Nat) : Int) + x, den := d, negZero := z }

/-- The value of the sum and its flags (R57). -/
def StepSum.value (t : StepSum) (rm : Nat) : Num × Fl :=
  if t.nan || (t.pos && t.neg) then (.nan false, t.fl ||| flIf (t.pos && t.neg) flNV)
  else if t.pos then (.inf false, t.fl)
  else if t.neg then (.inf true, t.fl)
  else if t.num = 0 then (.fin (t.negZero || rm == 3) 0 1, t.fl)
  else (.fin (decide (t.num < 0)) t.num.natAbs t.den, t.fl)

/-- One floating step into an FP32 element: products in k order, one rounding of the sum, one of the addition. -/
def floatStep (rm : Nat) (ps : List (Num × Fl)) (z : Nat) : Nat × Fl :=
  let s := (ps.foldl StepSum.add ⟨0, 1, false, false, false, true, 0⟩).value rm
  let t := fp32.encode false rm s.1
  let a := (fp32.decode z).add 0 (fp32.decode t.1)
  let r := fp32.encode false 0 a.1
  (r.1, s.2 ||| t.2 ||| a.2 ||| r.2)

/-- The FP64 chain. -/
def doubleStep (rm : Nat) (ps : List (Num × Fl)) (z : Nat) : Nat × Fl :=
  ps.foldl (fun (r : Nat × Fl) p =>
    let a := p.1.add rm (fp64.decode r.1)
    let e := fp64.encode false rm a.1
    (e.1, r.2 ||| p.2 ||| a.2 ||| e.2)) (z, 0)

/-- An integer step: element, inner value and counter. [DEDUCED, unsafe: log entry 20] -/
def intStep (p : Nat) (q : Int) (z : BitVec 32) (inner : Int) (steps : Nat) : BitVec 32 × Int × Nat × Fl :=
  let early := decide (inner + q < -2 ^ 23) || decide (2 ^ 23 - 1 < inner + q)
  let w := wrap32 z inner
  let z1 := if early then w.1 else z
  let fl := if early then flPROMO ||| flIf w.2 flOF else 0
  let inner := (if early then 0 else inner) + q
  if p ≤ steps + 1 then let v := wrap32 z1 inner; (v.1, 0, 0, fl ||| flIf v.2 flOF) else (z1, inner, steps + 1, fl)

/-! ### Operands of an MMA -/

/-- Elements of a packed row of `cont` bits, an element with a bit in a failed 8-byte unit replaced by zero (R200). -/
def rowElems (byte : Nat → Byte) (row cont n : Nat) (bad : Nat → Bool) : List Nat :=
  (List.range n).map (fun i =>
    let lo := i * cont
    if bad (lo / 64) || bad ((lo + cont - 1) / 64) then 0 else bitsAt byte ((48 * row : Nat) : Int) lo cont)

/-- The units of a row that hold the first `n` elements. -/
def rowUnits (cont n : Nat) : List Nat := List.range ((n * cont + 63) / 64)

/-- An operand-error record (R35). [DEDUCED, unsafe: log entry 63] -/
def elogWord (fr row col kind cyc : Nat) : Word :=
  BitVec.ofNat 64 (2 ^ 63 + fr / 8 % 16 * 2 ^ 58 + fr % 8 * 2 ^ 55 + row % 64 * 2 ^ 49 + col % 64 * 2 ^ 43 + kind * 2 ^ 40 + cyc % 2 ^ 32)

/-- What an MMA works on. -/
structure MmaCtx where
  kind : PairKind
  af : NFmt
  wf : NFmt
  kk : Nat
  rows : Nat
  rm : Nat
  p : Nat
  slot : Slot
  frame : Frame
  sa : Nat → Nat → Option Num
  sw : Bool

/-- The weight elements of a column with their scales applied. -/
def weightCol (c : MmaCtx) (byte : Nat → Byte) (n : Nat) : List (Num × Fl) :=
  let es := rowElems byte n c.wf.cont c.kk (fun u => c.frame.bad.contains (6 * n + u))
  (es.zip (List.range c.kk)).map (fun x =>
    let v := c.wf.decode x.1
    if c.sw then v.mul (s16Value (leNat [byte (3072 + 2 * (64 * (x.2 / 16) + n)), byte (3073 + 2 * (64 * (x.2 / 16) + n))])) else (v, 0))

/-- The A elements of a row with their scales applied. -/
def aRow (c : MmaCtx) (byte : Nat → Byte) (r : Nat) : List (Num × Fl) :=
  let es := rowElems byte r c.af.cont c.kk (fun u => c.slot.bad.contains (6 * r + u))
  (es.zip (List.range c.kk)).map (fun x =>
    let v := c.af.decode x.1
    match c.sa r (x.2 / 16) with | some m => v.mul m | none => (v, 0))

/-- The products of a row and a column. -/
def products (a w : List (Num × Fl)) : List (Num × Fl) :=
  (a.zip w).map (fun x => let p := x.1.1.mul x.2.1; (p.1, p.2 ||| x.1.2 ||| x.2.2))

/-- The exact integer sum of a row and a column. -/
def intSum (a w : List (Num × Fl)) : Int :=
  (a.zip w).foldl (fun (t : Int) x =>
    match x.1.1, x.2.1 with
    | .fin s n _, .fin u m _ => let v : Int := n * m; t + (if s = u then v else -v)
    | _, _ => t) 0

/-- An element of an accumulator, zero when it has failed (R200). -/
def Acc.elem (a : Acc) (i : Nat) : BitVec 32 := if a.bad.contains i then 0 else smGetD a.z i 0
/-- Write an element. -/
def Acc.put (a : Acc) (i : Nat) (v : BitVec 32) : Acc := { a with z := smPut 0 a.z i v, bad := a.bad.filter (· != i) }

/-- One element of the accumulator after a step. -/
def mmaElem (c : MmaCtx) (av wv : List (Num × Fl)) (i : Nat) (z : Acc × Acc × Fl) : Acc × Acc × Fl :=
  match c.kind with
  | .float =>
    let r := floatStep c.rm (products av wv) (z.1.elem i).toNat
    (z.1.put i (BitVec.ofNat 32 r.1), z.2.1, z.2.2 ||| r.2)
  | .f64 =>
    let r := doubleStep c.rm (products av wv) ((z.1.elem i).toNat + 2 ^ 32 * (z.2.1.elem i).toNat)
    (z.1.put i (BitVec.ofNat 32 r.1), z.2.1.put i (BitVec.ofNat 32 (r.1 / 2 ^ 32)), z.2.2 ||| r.2)
  | .int =>
    let st := smGetD z.1.inner i (0, 0)
    let r := intStep c.p (intSum av wv) (z.1.elem i) st.1 st.2
    ({ z.1.put i r.1 with inner := smPut ((0 : Int), 0) z.1.inner i (r.2.1, r.2.2.1) }, z.2.1, z.2.2 ||| r.2.2.2)

/-- The accumulators after the word: rows ascending, every column. -/
def mmaRun (c : MmaCtx) (z0 z1 : Acc) : Acc × Acc × Fl :=
  let wb := (memBytes c.frame.data 0 3840).toArray
  let sb := (memBytes c.slot.data 0 3072).toArray
  let cols := (List.range 64).map (weightCol c (fun i => wb.getD i 0))
  (List.range c.rows).foldl (fun (z : Acc × Acc × Fl) r =>
    let av := aRow c (fun i => sb.getD i 0) r
    (cols.zip (List.range 64)).foldl (fun z x => mmaElem c av x.1 (64 * r + x.2) z) z) (z0, z1, 0)

/-- The failed units an MMA reads: (kind, row, column) for slot, frame and accumulator. -/
def mmaFails (c : MmaCtx) (z0 z1 : Acc) (zacc : Bool) : List (Nat × Nat × Nat) :=
  let su := (List.range c.rows).map (fun r => ((rowUnits c.af.cont c.kk).filter (fun u => c.slot.bad.contains (6 * r + u))).map (fun u => (0, r, u)))
  let fu := (List.range 64).map (fun n => ((rowUnits c.wf.cont c.kk).filter (fun u => c.frame.bad.contains (6 * n + u))).map (fun u => (1, u, n)))
  let bad := z0.bad ++ (if c.kind = .f64 then z1.bad else [])
  let au := if zacc then [] else (bad.filter (fun i => decide (i < 64 * c.rows))).map (fun i => (2, i / 64, i % 64))
  su.flatten ++ fu.flatten ++ au

/-- Pending inner values are promoted before a floating word (R59). -/
def floatReady (kind : PairKind) (a : Acc) : Acc × Fl :=
  if kind = .int then (a, 0) else let p := a.promote; (p.1, flIf p.2 flOF)

/-- TAGM of an explicit code on data that carries another format's tag (R66). -/
def codeMiss (s : State) (j : Job) (code : BitVec 4) (tag : Nat) (f : NFmt) : Fl :=
  flIf (code != 15 && (jobDomain s j).profctl.getLsbD 1 && tag != 0 && tagFmt s tag != some f) flTAGM

/-- What an MMA lands, given its frame. -/
def mmaEffect (s : State) (k : Nat) (j : Job) (w : MWord) (c : MmaCtx) (fr : Nat) : Effect :=
  let n := w.acc.toNat
  let old := fun i => if w.zacc = 1 then Acc.reset else smGetD j.core.accs i Acc.reset
  let p0 := floatReady c.kind (old n)
  let p1 := if c.kind = .f64 then floatReady c.kind (old (n + 1)) else (Acc.reset, 0)
  let r := mmaRun c p0.1 p1.1
  let fails := mmaFails c p0.1 p1.1 (w.zacc == 1)
  let cyc := cycleOf s k
  { Effect.none with
    accs := [(n, r.1)] ++ (if c.kind = .f64 then [(n + 1, r.2.1)] else [])
    flags := r.2.2 ||| p0.2 ||| p1.2 ||| flIf (!fails.isEmpty) flZE ||| codeMiss s j w.afmt c.slot.tag c.af ||| codeMiss s j w.wfmt c.frame.tag c.wf
    elogs := fails.map (fun f => elogWord fr f.2.1 f.2.2 f.1 cyc)
    dropFrames := if fails.any (fun f => f.1 == 1) then [c.frame.born] else []
    runs := some fr }

/-! ### MMA and MMAS (R198, R199) -/

/-- The bounds of an MMA: its accumulator, and the odd half of a pair that a built-in FP64 code names (R29, R39). -/
def mmaExtra (w : MWord) : Job → Option (Nat × Nat) :=
  bothBounds (accBound w.acc.toNat) (fun j => if w.afmt = 0 ∨ w.wfmt = 0 then accBound (w.acc.toNat + 1) j else none)

/-- FP64 that only tags name: an odd accumulator is trap 0x01, an undeclared odd half trap 0x02 (R29, R39). -/
def pairBound (i : Instr) (w : MWord) (j : Job) : Option (Nat × Nat) :=
  if w.acc.getLsbD 0 then some (0x01, wordBits i % 2 ^ 64) else accBound (w.acc.toNat + 1) j

/-- The formats of an MMA resolve and keep R50 and R51. -/
def mmaFormats (s : State) (k : Nat) (j : Job) (i : Instr) (w : MWord) (tag ea : Nat) : Except (Option (Nat × Nat)) (NFmt × NFmt × PairKind) :=
  match oneTag s j w.afmt.toNat tag, weightFmt s k j w.wfmt.toNat ea with
  | none, _ => .error (some (0x09, 0))
  | some _, .error t => .error t
  | some a, .ok f =>
    match pairKind a f with
    | none => .error (some (0x09, 0))
    | some kd =>
      if (w.scale.getLsbD 0 && !lowScale f) || (w.scale.getLsbD 1 && !lowScale a) || (w.pint != 0 && kd != .int) then .error (some (0x09, 0))
      else if kd = .f64 then match pairBound i w j with | some t => .error (some t) | none => .ok (a, f, kd)
      else .ok (a, f, kd)

/-- The A-side scale plane: bytes needed. -/
def saBytes (rows kk : Nat) : Nat := 2 * rows * kk / 16

/-- The A-side scales read from the window (R49). [DEDUCED, unsafe: log entry 21] -/
def saRead (seen : Nat → Byte) (base kk r jj : Nat) : Num :=
  let a := base + 2 * (r * kk / 16 + jj)
  s16Value (leNat [seen a, seen (a + 1)])

/-- The checks of the scale operand. -/
def saCheck (j : Job) (w : MWord) (sc : Int) (n : Nat) : Option (Nat × Nat) :=
  if !w.scale.getLsbD 1 then none
  else match winBounds j.core.win.size [(sc, 2)] [(sc, n)] with
    | some t => some t
    | none => (winPoison j.core.win [(sc, n)]).map (fun a => (0x0C, a))

/-- The .rep hint: one copy more if it can be made at once. -/
def repHint (s : State) (k : Nat) (j : Job) (w : MWord) (page len : Nat) : State :=
  if w.rep = 1 then (addReplica s (jCluster k) j.fdom page len).1 else s

/-- The accumulators a word of a kind reads and writes. -/
def mmaAccs (w : MWord) (kd : PairKind) : List Nat := w.acc.toNat :: (if kd = .f64 then [w.acc.toNat + 1] else [])

/-- MMA or MMAS. -/
def mmaPlan (i : Instr) (w : MWord) : EPlan :=
  let ops := opW w.w :: (if w.scale.getLsbD 1 then [opB w.sc] else [])
  mPlan (mDec ops [w.afmt, w.wfmt] none (mmaExtra w)) (fun s k j v =>
    needMs i j (fun g => needSlot w j (fun slot =>
      let ea := (v.headD 0).toNat
      if w.hold = 1 ∧ leaseOf s k = none then .trap 0x0B 0
      else match mmaFormats s k j i w slot.tag ea with
        | .error none => frozenWait s k j
        | .error (some t) => .trap t.1 t.2
        | .ok (af, wf, kd) =>
          let rows := nRows w g
          let kk := pairK af wf
          let sc := (v.getD 1 0).toInt
          match tileAddr ea with
          | some t => .trap t.1 t.2
          | none =>
            if w.scale.getLsbD 1 && j.xWindow then .wait
            else match saCheck j w sc (saBytes rows kk) with
            | some t => .trap t.1 t.2
            | none =>
              match lookup s k j ea (scaleLen wf) true (w.pin == 1) true (mmaAccs w kd) [w.aslot.toNat] with
              | .trap s c v => .trapIn s c v
              | .stall => .wait
              | .wait s => keepWaiting s k j
              | .have_ s fr =>
                match smGet (clusterSt s (jCluster k)).frames fr with
                | none => .wait
                | some frame =>
                  if w.wfmt = 15 ∧ oneTag s j 15 frame.tag ≠ some wf then .trapIn s 0x09 0
                  else
                    let seen := winSeen s j .X (j.know .X)
                    let sa := fun r jj => if w.scale.getLsbD 1 then some (saRead seen sc.toNat kk r jj) else none
                    let c : MmaCtx := ⟨kd, af, wf, kk, rows, w.rm.toNat, Nat.min (w.pint.toNat + 1) g.p, slot, frame, sa, w.scale.getLsbD 0⟩
                    let s := repHint (leaseSpend (issued s k) k) k j w (ea / 4096) (scaleLen wf)
                    .fly s { mmaEffect s k j w c fr with reads := if w.scale.getLsbD 1 then [(sc, saBytes rows kk)] else [] })))

def planMma (w : MWord) : EPlan := mmaPlan (.mma w) w
def execMma (w : MWord) (s : State) : Out := eExec s .X (.mma w) w.tok (planMma w)
def planMmas (w : MWord) : EPlan := mmaPlan (.mmas w) w
def execMmas (w : MWord) (s : State) : Out := eExec s .X (.mmas w) w.tok (planMmas w)

/-! ### Accumulator words (R201, R202) -/

/-- The formats MACR writes. -/
def macrFmt (j : Job) (c : Nat) : Option NFmt := match codeFmt j c with | some f => if f.cls = .fixed then none else some f | none => none

/-- One element as MACR writes it. [DEDUCED, unsafe: log entry 63] -/
def macrElem (f : NFmt) (rm : Nat) (z0 z1 : Acc) (i : Nat) : Nat × Fl :=
  if f = fp64 then ((z0.elem i).toNat + 2 ^ 32 * (z1.elem i).toNat, 0)
  else if f.isInt then f.encode false rm (.ofInt (z0.elem i).toInt)
  else f.encode false rm (fp32.decode (z0.elem i).toNat)

/-- MACR's bounds. -/
def macrExtra (w : MWord) : Job → Option (Nat × Nat) :=
  bothBounds (accBound w.acc.toNat) (fun j => if w.afmt = 0 then accBound (w.acc.toNat + 1) j else none)

/-- MACR writes rows of an accumulator to the window. -/
def planMacr (w : MWord) : EPlan :=
  let i := Instr.macr w
  mPlan (mDec [opB w.w] [w.afmt] none (macrExtra w)) (fun s k j v =>
    needMs i j (fun g =>
      match macrFmt j w.afmt.toNat with
      | none => .trap 0x09 0
      | some f =>
        let a := (v.headD 0).toInt
        let n := 64 * nRows w g
        match winBounds j.core.win.size [(a, if 16 ≤ f.cont then f.cont / 8 else 16)] [(a, (n * f.cont + 7) / 8)] with
        | some t => .trap t.1 t.2
        | none =>
          if j.xWindow || j.xPending (w.acc.toNat :: (if f = fp64 then [w.acc.toNat + 1] else [])) [] then .wait else
          let acc := w.acc.toNat
          let p0 := (smGetD j.core.accs acc Acc.reset).promote
          let p1 := if f = fp64 then (smGetD j.core.accs (acc + 1) Acc.reset).promote else (Acc.reset, false)
          let r := (List.range n).map (fun i => (i, macrElem f w.rm.toNat p0.1 p1.1 i))
          let fails := (p0.1.bad ++ p1.1.bad).filter (fun i => decide (i < n))
          let seen := winSeen s j .X (j.know .X)
          let cells := vCells seen (r.map (fun x => ⟨a, f.cont, x.1, x.2.1⟩))
          .fly s { Effect.none with
            win := cells
            accs := [(acc, p0.1)] ++ (if f = fp64 then [(acc + 1, p1.1)] else [])
            flags := r.foldl (fun f x => f ||| x.2.2) (flIf (p0.2 || p1.2) flOF ||| flIf (!fails.isEmpty) flZE)
            elogs := fails.map (fun i => elogWord 0 (i / 64) (i % 64) 2 (cycleOf s k)) }))
def execMacr (w : MWord) (s : State) : Out := eExec s .X (.macr w) w.tok (planMacr w)

/-- MZERO zeroes an accumulator. -/
def planMzero (w : MWord) : EPlan :=
  let i := Instr.mzero w
  mPlan (mDec [] [] none (accBound w.acc.toNat)) (fun s _ j _ =>
    needMs i j (fun _ => .fly s { Effect.none with accs := [(w.acc.toNat, Acc.reset)] }))
def execMzero (w : MWord) (s : State) : Out := eExec s .X (.mzero w) w.tok (planMzero w)

/-! ### Frame management (R203 to R207) -/

/-- A word that names a tile, after checks 1 and 5. -/
def tilePlan (i : Instr) (w : MWord) (fmts : List (BitVec 4)) (push : Option Nat) (early : State → Nat → Job → Nat → Option (Nat × Nat))
    (f : State → Nat → Job → Nat → IRes) : EPlan :=
  mPlan (mDec [opW w.w] fmts push noExtra) (fun s k j v =>
    needMs i j (fun _ =>
      let ea := (v.headD 0).toNat
      match early s k j ea with
      | some t => .trap t.1 t.2
      | none => match tileAddr ea with
        | some t => .trap t.1 t.2
        | none => f s k j ea))

/-- No earlier check. -/
def noEarly (_ : State) (_ : Nat) (_ : Job) (_ : Nat) : Option (Nat × Nat) := none

/-- The weight format of MFILL resolves (check 4). -/
def mfillEarly (w : MWord) (s : State) (k : Nat) (j : Job) (ea : Nat) : Option (Nat × Nat) :=
  match weightFmt s k j w.wfmt.toNat ea with
  | .ok f => if f.cls = .fixed ∨ f.cont = 32 ∧ f.isInt = true then some (0x09, 0) else none
  | .error (some t) => some t
  | .error none => none

/-- MFILL makes a key resident. -/
def planMfill (w : MWord) : EPlan :=
  tilePlan (.mfill w) w [w.wfmt] none (mfillEarly w) (fun s k j ea =>
    match weightFmt s k j w.wfmt.toNat ea with
    | .error none => frozenWait s k j
    | .error (some t) => .trap t.1 t.2
    | .ok f =>
      match lookup s k j ea (scaleLen f) false (w.pin == 1) false [] [] with
      | .trap s c v => .trapIn s c v
      | .stall => .wait
      | .wait s => keepWaiting s k j
      | .have_ s _ => .fly (repHint (leaseSpend (issued s k) k) k j w (ea / 4096) (scaleLen f)) Effect.none)
def execMfill (w : MWord) (s : State) : Out := eExec s .X (.mfill w) w.tok (planMfill w)

/-- A lookup of every resident key of an address moves the frame it hits to the young end of the LRU order (R211). -/
def touchAll (s : State) (k f page : Nat) : State :=
  let c := clusterSt s (jCluster k)
  let hit := (addrLens c f page).filterMap (fun len => ((keyFrames c f page len).find? (fun e => e.2.filled)).map (fun e => e.1))
  setCluster s (jCluster k) { c with clock := c.clock + 1, frames := c.frames.map (fun e => if hit.contains e.1 then (e.1, { e.2 with used := c.clock }) else e) }

/-- The word waits while a key of its address is being filled; with no key resident it fills one of length 0. [DEDUCED, unsafe: log entry 60] -/
def anyKey (s : State) (k : Nat) (j : Job) (ea : Nat) (f : State → IRes) : IRes :=
  let fs := addrFrames (clusterSt s (jCluster k)) j.fdom (ea / 4096)
  match fs.find? (fun e => e.2.filled) with
  | some _ => f (touchAll s k j.fdom (ea / 4096))
  | none =>
    match lookup s k j ea ((fs.map (fun e => e.2.len)).headD 0) false false false [] [] with
    | .trap s c v => .trapIn s c v
    | .stall => .wait
    | .wait s => keepWaiting s k j
    | .have_ s _ => f s

/-- A q12 entry of kind 5. -/
def pinEntry (st : Nat) (c : Cluster) : Word := BitVec.ofNat 64 (5 * 2 ^ 60 + st * 2 ^ 8 + pinCount c)

/-- Pin the oldest frame of each resident key: the cluster, whether it pinned one, whether the limit left one. -/
def pinKeys (c : Cluster) (f page : Nat) : Cluster × Bool × Bool :=
  (addrLens c f page).foldl (fun (a : Cluster × Bool × Bool) len =>
    let fs := (keyFrames a.1 f page len).filter (fun e => e.2.filled)
    if fs.isEmpty || fs.any (fun e => e.2.pinned) then a
    else match oldest fs with
      | none => a
      | some e => if pinCount a.1 < 32 then (pinFrame a.1 e.1, true, a.2.2) else (a.1, a.2.1, true)) (c, false, false)

/-- Frames a lease holder's word has named. -/
def nameAll (c : Cluster) (k f page : Nat) : Cluster := (addrFrames c f page).foldl (fun c e => leaseName c k e.1) c

/-- MPIN pins the oldest frame of each resident key. [DEDUCED, unsafe: log entry 62] -/
def planMpin (w : MWord) : EPlan :=
  tilePlan (.mpin w) w [] (some 12) noEarly (fun s k j ea =>
    anyKey s k j ea (fun s =>
      let r := pinKeys (nameAll (clusterSt s (jCluster k)) k j.fdom (ea / 4096)) j.fdom (ea / 4096)
      let st := if r.2.2 then 2 else if r.2.1 then 0 else 1
      .fly (leaseSpend (issued (setCluster s (jCluster k) r.1) k) k) { Effect.none with push := [pinEntry st r.1] }))
def execMpin (w : MWord) (s : State) : Out := eExec s .X (.mpin w) w.tok (planMpin w)

/-- MUNP clears the pins of the address. [DEDUCED, unsafe: log entry 62] -/
def planMunp (w : MWord) : EPlan :=
  tilePlan (.munp w) w [] none noEarly (fun s k j ea =>
    let c := clusterSt s (jCluster k)
    let c := { c with frames := c.frames.map (fun e => if e.2.fdom == j.fdom && e.2.page == ea / 4096 then (e.1, { e.2 with pinned := false }) else e) }
    .fly (setCluster s (jCluster k) c) Effect.none)
def execMunp (w : MWord) (s : State) : Out := eExec s .X (.munp w) w.tok (planMunp w)

/-- Drop every frame of an address: fills and copies in progress are doomed, lookups of its keys that have not issued are lost (R206). -/
def dropTile (s : State) (cl f page : Nat) : State :=
  let c := clusterSt s cl
  let mine := fun (e : Frame) => e.fdom == f && e.page == page
  let lost := (c.frames.filter (fun e => mine e.2)).map (fun e => e.1)
  let c := eraseFrames c (fun _ e => mine e && e.filled)
  let s := setCluster s cl { c with
    frames := c.frames.map (fun e => if mine e.2 then (e.1, { e.2 with doomed := true, pinned := false, wantPin := false }) else e),
    waitKey := c.waitKey.filter (fun w => !lost.contains w.2) }
  { s with jobs := s.jobs.map (fun e =>
      if jCluster e.1 == cl && e.2.fdom == f && (match e.2.lookup with | some (.tile p _ _ _ _) => p == page | _ => false) then (e.1, { e.2 with lookup := none }) else e) }

/-- MINV drops every frame of the address in the cluster. [DEDUCED, unsafe: log entry 62] -/
def planMinv (w : MWord) : EPlan :=
  tilePlan (.minv w) w [] none noEarly (fun s k j ea => .fly (dropTile s (jCluster k) j.fdom (ea / 4096)) Effect.none)
def execMinv (w : MWord) (s : State) : Out := eExec s .X (.minv w) w.tok (planMinv w)

/-- The residency report of an address (R205). -/
def residency (c : Cluster) (f page : Nat) : Word :=
  let fs := addrFrames c f page
  let st := if fs.any (fun e => e.2.filled) then 2 else if fs.isEmpty then 0 else 1
  let n := (addrLens c f page).foldl (fun m l => Nat.max m (keyFrames c f page l).length) 0
  BitVec.ofNat 64 (4 * 2 ^ 60 + st * 2 ^ 14 + (n - 1) * 2 ^ 12 + (if fs.any (fun e => e.2.pinned) then 2 ^ 11 else 0)
    + (if fs.any (fun e => leased c none e.1) then 2 ^ 10 else 0) + pinCount c)

/-- MQRY reports residency. -/
def planMqry (w : MWord) : EPlan :=
  tilePlan (.mqry w) w [] (some 12) noEarly (fun s k j ea =>
    .fly s { Effect.none with push := [residency (clusterSt s (jCluster k)) j.fdom (ea / 4096)] })
def execMqry (w : MWord) (s : State) : Out := eExec s .X (.mqry w) w.tok (planMqry w)

/-- MREP adds a copy of each resident key. -/
def planMrep (w : MWord) : EPlan :=
  tilePlan (.mrep w) w [] none noEarly (fun s k j ea =>
    anyKey s k j ea (fun s =>
      let c := nameAll (clusterSt s (jCluster k)) k j.fdom (ea / 4096)
      let lens := (addrLens c j.fdom (ea / 4096)).filter (fun len => (keyFrames c j.fdom (ea / 4096) len).any (fun e => e.2.filled))
      let r := lens.foldl (fun (a : State × Bool) len =>
        let x := addReplica a.1 (jCluster k) j.fdom (ea / 4096) len
        (x.1, a.2 && x.2)) (setCluster s (jCluster k) c, true)
      if r.2 then .fly (leaseSpend (issued r.1 k) k) Effect.none else keepWaiting (issued s k) k j))
def execMrep (w : MWord) (s : State) : Out := eExec s .X (.mrep w) w.tok (planMrep w)

/-! ### Leases (R213, R214) -/

/-- The effective budget of MLSE. -/
def mlseBudget (w : MWord) (j : Job) : Nat := if w.func.toNat % 256 = 0 then j.core.leaseb else w.func.toNat % 256

/-- The budget check. -/
def mlseExtra (w : MWord) (j : Job) : Option (Nat × Nat) :=
  let b := mlseBudget w j
  if b = 0 ∨ j.leaseMax < b then some (0x02, b) else none

/-- MLSE requests the lease and issues once it is granted. -/
def planMlse (w : MWord) : EPlan :=
  mPlan (mDec [] [] none (mlseExtra w)) (fun s k j _ =>
    if j.lookup = some .lease then
      if (leaseOf s k).isSome then .fly (issued s k) Effect.none else .wait
    else if (leaseOf s k).isSome then .trap 0x0B 0
    else
      let c := clusterSt s (jCluster k)
      let s := setCluster s (jCluster k) { c with leaseWait := c.leaseWait.filter (fun x => x / 256 != k) ++ [256 * k + mlseBudget w j] }
      .pend s { j with lookup := some .lease })
def execMlse (w : MWord) (s : State) : Out := eExec s .X (.mlse w) w.tok (planMlse w)

/-- MLRL ends the lease. -/
def planMlrl (_ : MWord) : EPlan :=
  mPlan (mDec [] [] none noExtra) (fun s k _ _ => .fly (leaseEnd s k) Effect.none)
def execMlrl (w : MWord) (s : State) : Out := eExec s .X (.mlrl w) w.tok (planMlrl w)

/-! ### Retirement (R191) -/

/-- The copies an MREP started are complete. -/
def copiesDone (s : State) (k : Nat) (j : Job) (i : InFlight) : Bool :=
  match i.word with
  | .mrep _ => !(clusterSt s (jCluster k)).frames.any (fun e => e.2.copying && e.2.fdom == j.fdom && e.2.page == (i.ops.headD 0).toNat / 4096)
  | _ => true

/-- MATRIX_WORD_RETIRE. -/
def execMatrixWordRetire (k : Nat) (s : State) : Out :=
  match jobAt s k with
  | none => .next s
  | some j =>
    match j.core.X.inflight with
    | [] => .next s
    | i :: _ => .next (if j.phase = .running ∧ vectorHead j = false ∧ copiesDone s k j i = true then retireXWord s k else s)

end Sys2Proof.Machine
end

