-- ==== Sys2Proof/Machine/Replay.lean ====
section
/-!
DEFINITION. Starting a replay (R437): the firmware call `TRAP 0x501` reads a full context and the trace records of its job, and places the
job in a free slot of the caller's die.
-/
namespace Sys2Proof.Machine

/-! ### A context as bytes (R365 to R368) -/

/-- Eight words at an offset of a section, or any number of them. -/
def wordAt (l : List Byte) (i : Nat) : Nat := leNat ((l.drop (8 * i)).take 8)

/-- The engine word of journal bits; bits that decode to none are a no-operation. -/
def journalWord (e : EStream) (b : Nat) : Instr := match decode e.toStream b 0 with | .ok i => i | .error _ => .nop

/-- The operand values of a word out of D, A and B. -/
def unspread (u : Bool × Bool × Bool) (d a b : Word) : List Word :=
  (if u.1 then [d] else []) ++ (if u.2.1 then [a] else []) ++ (if u.2.2 then [b] else [])

/-- A journal entry. -/
def readJournal (e : EStream) (l : List Byte) : InFlight :=
  let w := fun i => wordAt l i
  let i := journalWord e (w 2 + w 3 * 2 ^ 64)
  let v := fun n => BitVec.ofNat 64 (w n)
  { pc := v 0, seq := bits (w 1) 0 48, word := i, bits := w 2 + w 3 * 2 ^ 64, ops := unspread (opUse i) (v 4) (v 5) (v 6),
    pops := [v 7, v 8, v 9].take (bits (w 1) 48 3), shape := CShape.dec (w 10 + w 11 * 2 ^ 64), eff := Effect.none, know := [], part := Part.none }

/-- The sections a handler may not edit. -/
def readRest (cut : List Byte) (c : JobCore) (l : List Byte) : Sec → JobCore
  | .queue n =>
    let k := bits (wordAt cut 6) (4 * n) 4
    { c with Q := { c.Q with q := c.Q.q.setIfInBounds n ((wordsOf l 8).take k) } }
  | .journal e =>
    let n := match e with | .L => bits (wordAt cut 7) 0 5 | _ => bits (wordAt cut 7) 8 5
    c.setEng e { c.eng e with journal := (List.range n).map (fun i => readJournal e ((l.drop (96 * i)).take 96)) }
  | _ => c

/-- The state a full context describes. -/
def readAll (s : State) (j : Job) (va : Nat) : JobCore :=
  let cut := virtBytes s j.fdom va 128
  let w := fun i => wordAt cut i
  let pc := fun i => BitVec.ofNat 64 (w i)
  let c := newCore [pc 8, pc 9, pc 10, pc 11] (newS [] 0 0) 0 (newWindow j.spad 0 none)
  let c := (secOffsets j 128 j.secs).foldl (fun c p => readRest cut c (virtBytes s j.fdom (va + p.2) (j.secLen p.1)) p.1) c
  let c := readContext s j c va
  let tok := #v[bits (w 5) 0 4, bits (w 5) 4 4, bits (w 5) 8 4, bits (w 5) 12 4]
  { c with
    S := { c.S with seq := w 1 }
    L := { c.L with seq := w 2 }
    X := { c.X with seq := w 3 }
    T := { c.T with seq := w 4 }
    Q := { c.Q with tok := tok } }

/-! ### Trace records (R436) -/

/-- The records of the replayed job: those of the JOBID that the first one names. -/
def traceList (s : State) (f va n : Nat) : List (List Nat) :=
  let l := (List.range n).map (fun i => (wordsOf (virtBytes s f (va + 32 * i) 32) 4).map BitVec.toNat)
  l.filter (fun r => r.getD 0 0 == (l.headD []).getD 0 0)

/-- What the records say: the VALUE records, and the last number of each stream that retires words in them. -/
def replayOf (l : List (List Nat)) (area : Word) : Replay :=
  let st := fun (r : List Nat) => bits (r.getD 1 0) 62 2
  let kind := fun (r : List Nat) => bits (r.getD 1 0) 56 6
  let seq := fun (r : List Nat) => bits (r.getD 1 0) 0 48
  let vals := (l.filter (fun r => kind r == 3)).map (fun r => (st r, seq r, BitVec.ofNat 64 (r.getD 2 0), BitVec.ofNat 64 (r.getD 3 0)))
  let last := [0, 1, 2, 3].filterMap (fun x =>
    let q := (l.filter (fun r => st r == x && (kind r == 1 || kind r == 2 || kind r == 3))).map seq
    if q.isEmpty then none else some (x, q.foldl Nat.max 0))
  ⟨vals, last, area, false, false⟩

/-! ### The call -/

/-- The launch a context's JOBID names, in the caller's domain. -/
def contextLaunch (s : State) (f id : Nat) : Option (Nat × Launch) :=
  s.launches.reverse.find? (fun e => e.2.fdom == f && e.2.serial == bits id 16 24 && e.2.st != .waiting)

/-- The indices of CPYG words in the journal, read from the restored window (R224). -/
def replayRecv (j : Job) (i : InFlight) : InFlight :=
  match i.word with
  | .cpyg _ => { i with eff := { i.eff with recv := (List.range i.shape.nr).map (fun x => leNat (winBytes j.core.win (i.b.toNat + 4 * x) 4)) } }
  | .cpym _ => { i with eff := { i.eff with recv := if i.b.getLsbD (jCluster j.home) then [j.uid] else [] } }
  | _ => i

/-- The replayed job, not yet placed: no launch of the device owns it. [DEDUCED, unsafe: log entry 89] -/
def replayJob (s : State) (f va first n area : Nat) : Option Job :=
  let id := leNat (virtBytes s f va 8)
  match contextLaunch s f id with
  | none => none
  | some e =>
    let h := headerJob e.1 e.2
    let home := bits id 8 2 * 256 + bits id 2 6 * 4 + bits id 0 2
    let c := readAll s h va
    let j := { h with uid := 2 ^ 100 + s.fresh, launch := 0, core := c, home := home, epoch := bits id 12 4,
                      replay := some (replayOf (traceList s f first n) (BitVec.ofNat 64 area)) }
    some (j.setEng .L { j.core.L with journal := j.core.L.journal.map (replayRecv j) })

/-- The context or the records are in a page move. -/
def replayMoves (s : State) (f va first n : Nat) : Bool :=
  areaMoves s f va 128 .read || areaMoves s f first (32 * n) .read
    || (match contextLaunch s f (leNat (virtBytes s f va 8)) with
      | some e => areaMoves s f va (headerJob e.1 e.2).ctxLen .read
      | none => false)

/-- REPLAY: the call waits for a free slot of the caller's die; a context of no known launch ends at once as a divergence. [DEDUCED, unsafe: log entry 89] -/
def execReplay (s : State) : Out :=
  sExec s sHnd [] noDec (fun k j =>
    if j.level = .job then .trap 0x0D 0x501
    else if replayMoves s j.fdom (j.arg 8) (j.arg 9) (j.arg 10) then .wait s j
    else match replayJob s j.fdom (j.arg 8) (j.arg 9) (j.arg 10) (j.arg 11) with
      | none => .retire (raiseEvent s j.fdom 15 2 (jDie k) (j.arg 11) (leNat (virtBytes s j.fdom (j.arg 8) 8))) j.next
      | some r =>
        match dieFits s r (jDie k) with
        | none => .wait s j
        | some p =>
          let c := { r.core with win := { r.core.win with base := p.2 } }
          let s := resumeJob s p.1 { r with core := c, resident := s.time, watch := s.time, dispatched := s.order }
          .retire { s with order := s.order + 1 } j.next)

end Sys2Proof.Machine
end

