-- ==== Sys2Proof/Machine/Dispatch.lean ====
section
/-!
DEFINITION. The meaning of every instruction and event: one arm per row of the opcode table, one call of its meaning.
-/
namespace Sys2Proof.Machine

def exec (i : Instr) (s : State) : Host.Outcome State Fault Refusal :=
  match i with
  | .nop => Sys2Proof.Machine.execNop s
  | .add d a b => Sys2Proof.Machine.execAdd d a b s
  | .sub d a b => Sys2Proof.Machine.execSub d a b s
  | .and d a b => Sys2Proof.Machine.execAnd d a b s
  | .or d a b => Sys2Proof.Machine.execOr d a b s
  | .xor d a b => Sys2Proof.Machine.execXor d a b s
  | .shl d a b => Sys2Proof.Machine.execShl d a b s
  | .shr d a b => Sys2Proof.Machine.execShr d a b s
  | .sra d a b => Sys2Proof.Machine.execSra d a b s
  | .mul d a b => Sys2Proof.Machine.execMul d a b s
  | .mulh d a b => Sys2Proof.Machine.execMulh d a b s
  | .mulhu d a b => Sys2Proof.Machine.execMulhu d a b s
  | .div d a b => Sys2Proof.Machine.execDiv d a b s
  | .divu d a b => Sys2Proof.Machine.execDivu d a b s
  | .rem d a b => Sys2Proof.Machine.execRem d a b s
  | .remu d a b => Sys2Proof.Machine.execRemu d a b s
  | .min d a b => Sys2Proof.Machine.execMin d a b s
  | .max d a b => Sys2Proof.Machine.execMax d a b s
  | .minu d a b => Sys2Proof.Machine.execMinu d a b s
  | .maxu d a b => Sys2Proof.Machine.execMaxu d a b s
  | .clz d a => Sys2Proof.Machine.execClz d a s
  | .popc d a => Sys2Proof.Machine.execPopc d a s
  | .sel d a b p => Sys2Proof.Machine.execSel d a b p s
  | .addi d a i_ => Sys2Proof.Machine.execAddi d a i_ s
  | .andi d a i_ => Sys2Proof.Machine.execAndi d a i_ s
  | .ori d a i_ => Sys2Proof.Machine.execOri d a i_ s
  | .xori d a i_ => Sys2Proof.Machine.execXori d a i_ s
  | .shli d a n => Sys2Proof.Machine.execShli d a n s
  | .shri d a n => Sys2Proof.Machine.execShri d a n s
  | .srai d a n => Sys2Proof.Machine.execSrai d a n s
  | .movi d i_ => Sys2Proof.Machine.execMovi d i_ s
  | .shin d i_ => Sys2Proof.Machine.execShin d i_ s
  | .cmp p c a b => Sys2Proof.Machine.execCmp p c a b s
  | .cmpi p c a i_ => Sys2Proof.Machine.execCmpi p c a i_ s
  | .pand d a b => Sys2Proof.Machine.execPand d a b s
  | .por d a b => Sys2Proof.Machine.execPor d a b s
  | .pxor d a b => Sys2Proof.Machine.execPxor d a b s
  | .pnot d a => Sys2Proof.Machine.execPnot d a s
  | .b p n o => Sys2Proof.Machine.execB p n o s
  | .jmp o => Sys2Proof.Machine.execJmp o s
  | .call o => Sys2Proof.Machine.execCall o s
  | .jr a => Sys2Proof.Machine.execJr a s
  | .ld d a w k x o => Sys2Proof.Machine.execLd d a w k x o s
  | .st d a w k o => Sys2Proof.Machine.execSt d a w k o s
  | .ldm d a n o => Sys2Proof.Machine.execLdm d a n o s
  | .stm d a n o => Sys2Proof.Machine.execStm d a n o s
  | .lda d a w sc o => Sys2Proof.Machine.execLda d a w sc o s
  | .stl d a w sc o => Sys2Proof.Machine.execStl d a w sc o s
  | .throw d a b w sc => Sys2Proof.Machine.execThrow d a b w sc s
  | .pref a sc o => Sys2Proof.Machine.execPref a sc o s
  | .spl d n => Sys2Proof.Machine.execSpl d n s
  | .sps d n => Sys2Proof.Machine.execSps d n s
  | .qpush a q => Sys2Proof.Machine.execQpush a q s
  | .qpop d q => Sys2Proof.Machine.execQpop d q s
  | .qcnt d q => Sys2Proof.Machine.execQcnt d q s
  | .fence sc src dst k => Sys2Proof.Machine.execFence sc src dst k s
  | .fenceRetire j => Sys2Proof.Machine.execFenceRetire j s
  | .waitProd => Sys2Proof.Machine.execWaitProd s
  | .waitMemeq a b sc => Sys2Proof.Machine.execWaitMemeq a b sc s
  | .waitMemge a b sc => Sys2Proof.Machine.execWaitMemge a b sc s
  | .waitNm a => Sys2Proof.Machine.execWaitNm a s
  | .waitIngr a b => Sys2Proof.Machine.execWaitIngr a b s
  | .waitReevaluate j => Sys2Proof.Machine.execWaitReevaluate j s
  | .trig => Sys2Proof.Machine.execTrig s
  | .rdv m => Sys2Proof.Machine.execRdv m s
  | .joinComplete j => Sys2Proof.Machine.execJoinComplete j s
  | .halt => Sys2Proof.Machine.execHalt s
  | .haltRetire j => Sys2Proof.Machine.execHaltRetire j s
  | .yield => Sys2Proof.Machine.execYield s
  | .barc i_ => Sys2Proof.Machine.execBarc i_ s
  | .barrierComplete cl launch id => Sys2Proof.Machine.execBarrierComplete cl launch id s
  | .rbeg o => Sys2Proof.Machine.execRbeg o s
  | .rcom d => Sys2Proof.Machine.execRcom d s
  | .regionCommit j => Sys2Proof.Machine.execRegionCommit j s
  | .rabt c => Sys2Proof.Machine.execRabt c s
  | .rbndLo d => Sys2Proof.Machine.execRbndLo d s
  | .rbndHi d => Sys2Proof.Machine.execRbndHi d s
  | .nmgo d a => Sys2Proof.Machine.execNmgo d a s
  | .nmwt d a => Sys2Proof.Machine.execNmwt d a s
  | .spawn d a b => Sys2Proof.Machine.execSpawn d a b s
  | .wgen d a => Sys2Proof.Machine.execWgen d a s
  | .csrr d c => Sys2Proof.Machine.execCsrr d c s
  | .csrw a c => Sys2Proof.Machine.execCsrw a c s
  | .trap i_ => Sys2Proof.Machine.execTrap i_ s
  | .openRange => Sys2Proof.Machine.execOpenRange s
  | .closeRange => Sys2Proof.Machine.execCloseRange s
  | .registerBufferGroup => Sys2Proof.Machine.execRegisterBufferGroup s
  | .resetBufferGroup => Sys2Proof.Machine.execResetBufferGroup s
  | .releaseBufferGroup => Sys2Proof.Machine.execReleaseBufferGroup s
  | .setContextPool => Sys2Proof.Machine.execSetContextPool s
  | .registerWeightTable => Sys2Proof.Machine.execRegisterWeightTable s
  | .setWatchpoint => Sys2Proof.Machine.execSetWatchpoint s
  | .replay => Sys2Proof.Machine.execReplay s
  | .replayEnd j => Sys2Proof.Machine.execReplayEnd j s
  | .attestationReport => Sys2Proof.Machine.execAttestationReport s
  | .unassignedFirmwareService i_ => Sys2Proof.Machine.execUnassignedFirmwareService i_ s
  | .eret => Sys2Proof.Machine.execEret s
  | .vshape w => Sys2Proof.Machine.execVshape w s
  | .vadd w => Sys2Proof.Machine.execVadd w s
  | .vsub w => Sys2Proof.Machine.execVsub w s
  | .vmul w => Sys2Proof.Machine.execVmul w s
  | .vfma w => Sys2Proof.Machine.execVfma w s
  | .vmin w => Sys2Proof.Machine.execVmin w s
  | .vmax w => Sys2Proof.Machine.execVmax w s
  | .vabs w => Sys2Proof.Machine.execVabs w s
  | .vneg w => Sys2Proof.Machine.execVneg w s
  | .vand w => Sys2Proof.Machine.execVand w s
  | .vor w => Sys2Proof.Machine.execVor w s
  | .vxor w => Sys2Proof.Machine.execVxor w s
  | .vshl w => Sys2Proof.Machine.execVshl w s
  | .vshr w => Sys2Proof.Machine.execVshr w s
  | .vcmp w => Sys2Proof.Machine.execVcmp w s
  | .vsel w => Sys2Proof.Machine.execVsel w s
  | .vcvt w => Sys2Proof.Machine.execVcvt w s
  | .vqnt w => Sys2Proof.Machine.execVqnt w s
  | .vdq w => Sys2Proof.Machine.execVdq w s
  | .vexp w => Sys2Proof.Machine.execVexp w s
  | .vrcp w => Sys2Proof.Machine.execVrcp w s
  | .vrsq w => Sys2Proof.Machine.execVrsq w s
  | .vtanh w => Sys2Proof.Machine.execVtanh w s
  | .vred w => Sys2Proof.Machine.execVred w s
  | .vscan w => Sys2Proof.Machine.execVscan w s
  | .vgmax w => Sys2Proof.Machine.execVgmax w s
  | .vtopk w => Sys2Proof.Machine.execVtopk w s
  | .vnorm w => Sys2Proof.Machine.execVnorm w s
  | .vcopy w => Sys2Proof.Machine.execVcopy w s
  | .vfill w => Sys2Proof.Machine.execVfill w s
  | .viota w => Sys2Proof.Machine.execViota w s
  | .vgath w => Sys2Proof.Machine.execVgath w s
  | .vscat w => Sys2Proof.Machine.execVscat w s
  | .vtran w => Sys2Proof.Machine.execVtran w s
  | .vmskAnd w => Sys2Proof.Machine.execVmskAnd w s
  | .vmskOr w => Sys2Proof.Machine.execVmskOr w s
  | .vmskXor w => Sys2Proof.Machine.execVmskXor w s
  | .vmskAndn w => Sys2Proof.Machine.execVmskAndn w s
  | .vmskNot w => Sys2Proof.Machine.execVmskNot w s
  | .vmskFirst w => Sys2Proof.Machine.execVmskFirst w s
  | .vmskCount w => Sys2Proof.Machine.execVmskCount w s
  | .vmskLd w => Sys2Proof.Machine.execVmskLd w s
  | .vmskSt w => Sys2Proof.Machine.execVmskSt w s
  | .vectorWordRetire j => Sys2Proof.Machine.execVectorWordRetire j s
  | .mshape w => Sys2Proof.Machine.execMshape w s
  | .mma w => Sys2Proof.Machine.execMma w s
  | .mmas w => Sys2Proof.Machine.execMmas w s
  | .mlda w => Sys2Proof.Machine.execMlda w s
  | .mclm w => Sys2Proof.Machine.execMclm w s
  | .mrel w => Sys2Proof.Machine.execMrel w s
  | .macr w => Sys2Proof.Machine.execMacr w s
  | .mzero w => Sys2Proof.Machine.execMzero w s
  | .mfill w => Sys2Proof.Machine.execMfill w s
  | .mpin w => Sys2Proof.Machine.execMpin w s
  | .munp w => Sys2Proof.Machine.execMunp w s
  | .minv w => Sys2Proof.Machine.execMinv w s
  | .mqry w => Sys2Proof.Machine.execMqry w s
  | .mrep w => Sys2Proof.Machine.execMrep w s
  | .mlse w => Sys2Proof.Machine.execMlse w s
  | .leaseGrant cl => Sys2Proof.Machine.execLeaseGrant cl s
  | .leaseBudgetExhausted cl => Sys2Proof.Machine.execLeaseBudgetExhausted cl s
  | .mlrl w => Sys2Proof.Machine.execMlrl w s
  | .mthr w => Sys2Proof.Machine.execMthr w s
  | .frameFillComplete cl fr => Sys2Proof.Machine.execFrameFillComplete cl fr s
  | .frameCopyComplete cl fr => Sys2Proof.Machine.execFrameCopyComplete cl fr s
  | .hardwareReplica cl fr => Sys2Proof.Machine.execHardwareReplica cl fr s
  | .matrixWordRetire j => Sys2Proof.Machine.execMatrixWordRetire j s
  | .cpy w => Sys2Proof.Machine.execCpy w s
  | .cpyg w => Sys2Proof.Machine.execCpyg w s
  | .cpyd w => Sys2Proof.Machine.execCpyd w s
  | .cpym w => Sys2Proof.Machine.execCpym w s
  | .prel w => Sys2Proof.Machine.execPrel w s
  | .dgst w => Sys2Proof.Machine.execDgst w s
  | .cps w => Sys2Proof.Machine.execCps w s
  | .acw w => Sys2Proof.Machine.execAcw w s
  | .acwf w => Sys2Proof.Machine.execAcwf w s
  | .cas w => Sys2Proof.Machine.execCas w s
  | .cpst w => Sys2Proof.Machine.execCpst w s
  | .scat w => Sys2Proof.Machine.execScat w s
  | .flsh w => Sys2Proof.Machine.execFlsh w s
  | .invl w => Sys2Proof.Machine.execInvl w s
  | .engineWordRetire j e => Sys2Proof.Machine.execEngineWordRetire j e s
  | .aq e w => Sys2Proof.Machine.execAq e w s
  | .aset e w => Sys2Proof.Machine.execAset e w s
  | .aadd e w => Sys2Proof.Machine.execAadd e w s
  | .ejoin e w => Sys2Proof.Machine.execEjoin e w s
  | .enop e w => Sys2Proof.Machine.execEnop e w s
  | .cshape e w => Sys2Proof.Machine.execCshape e w s
  | .loop e w => Sys2Proof.Machine.execLoop e w s
  | .breakpointStop j st n => Sys2Proof.Machine.execBreakpointStop j st n s
  | .jobDispatch die => Sys2Proof.Machine.execJobDispatch die s
  | .walkerSteal launch die => Sys2Proof.Machine.execWalkerSteal launch die s
  | .tailReread leaf => Sys2Proof.Machine.execTailReread leaf s
  | .periodBoundary node => Sys2Proof.Machine.execPeriodBoundary node s
  | .ageLevelTick launch => Sys2Proof.Machine.execAgeLevelTick launch s
  | .launchComplete launch => Sys2Proof.Machine.execLaunchComplete launch s
  | .preemptionRequest j => Sys2Proof.Machine.execPreemptionRequest j s
  | .sliceExpiry j => Sys2Proof.Machine.execSliceExpiry j s
  | .graceExpiry j => Sys2Proof.Machine.execGraceExpiry j s
  | .forcedCut j => Sys2Proof.Machine.execForcedCut j s
  | .contextSaveDone j => Sys2Proof.Machine.execContextSaveDone j s
  | .saveDeadlineExpiry j => Sys2Proof.Machine.execSaveDeadlineExpiry j s
  | .jobResume launch ticket => Sys2Proof.Machine.execJobResume launch ticket s
  | .hangWatchdog j => Sys2Proof.Machine.execHangWatchdog j s
  | .nmJobStart m => Sys2Proof.Machine.execNmJobStart m s
  | .nmJobComplete m u => Sys2Proof.Machine.execNmJobComplete m u s
  | .nmWatchdogReset m u => Sys2Proof.Machine.execNmWatchdogReset m u s
  | .activationAlert m u row share total => Sys2Proof.Machine.execActivationAlert m u row share total s
  | .persistentRequest line core => Sys2Proof.Machine.execPersistentRequest line core s
  | .positionRebase => Sys2Proof.Machine.execPositionRebase s
  | .pageMoveRemap f => Sys2Proof.Machine.execPageMoveRemap f s
  | .freezeStallTimeout j st => Sys2Proof.Machine.execFreezeStallTimeout j st s
  | .weightRecheck f => Sys2Proof.Machine.execWeightRecheck f s
  | .patrolScrub die line bad => Sys2Proof.Machine.execPatrolScrub die line bad s
  | .flitReceive die module flit => Sys2Proof.Machine.execFlitReceive die module flit s
  | .linkRetrain die link rates repaired => Sys2Proof.Machine.execLinkRetrain die link rates repaired s
  | .reqReadShared m => Sys2Proof.Machine.execReqReadShared m s
  | .reqReadOwned m => Sys2Proof.Machine.execReqReadOwned m s
  | .reqWrite m => Sys2Proof.Machine.execReqWrite m s
  | .reqAtomic m => Sys2Proof.Machine.execReqAtomic m s
  | .reqReleasePermission m => Sys2Proof.Machine.execReqReleasePermission m s
  | .reqNearMemoryJob m => Sys2Proof.Machine.execReqNearMemoryJob m s
  | .reqWalkerSteal m => Sys2Proof.Machine.execReqWalkerSteal m s
  | .reqRegisterAccess m => Sys2Proof.Machine.execReqRegisterAccess m s
  | .rspAck m => Sys2Proof.Machine.execRspAck m s
  | .rspRetry m => Sys2Proof.Machine.execRspRetry m s
  | .rspMoved m => Sys2Proof.Machine.execRspMoved m s
  | .rspError m => Sys2Proof.Machine.execRspError m s
  | .rspDataFollows m => Sys2Proof.Machine.execRspDataFollows m s
  | .rspForcedPublishAck m => Sys2Proof.Machine.execRspForcedPublishAck m s
  | .datLine m => Sys2Proof.Machine.execDatLine m s
  | .datPartialLine m => Sys2Proof.Machine.execDatPartialLine m s
  | .datPoisonedLine m => Sys2Proof.Machine.execDatPoisonedLine m s
  | .snpRecallOwner m => Sys2Proof.Machine.execSnpRecallOwner m s
  | .snpInvalidate m => Sys2Proof.Machine.execSnpInvalidate m s
  | .snpForcedPublish m => Sys2Proof.Machine.execSnpForcedPublish m s
  | .tokGrantShared m => Sys2Proof.Machine.execTokGrantShared m s
  | .tokGrantOwned m => Sys2Proof.Machine.execTokGrantOwned m s
  | .tokRevoke m => Sys2Proof.Machine.execTokRevoke m s
  | .nrw m => Sys2Proof.Machine.execNrw m s
  | .pos m => Sys2Proof.Machine.execPos m s
  | .ingTokenRow m => Sys2Proof.Machine.execIngTokenRow m s
  | .ingPickRecord m => Sys2Proof.Machine.execIngPickRecord m s
  | .mgtDescriptorRequest => Sys2Proof.Machine.execMgtDescriptorRequest s
  | .mgtDescriptor => Sys2Proof.Machine.execMgtDescriptor s
  | .mgtTopology => Sys2Proof.Machine.execMgtTopology s
  | .mgtFirmwareReplicaWrite => Sys2Proof.Machine.execMgtFirmwareReplicaWrite s
  | .mgtEvent => Sys2Proof.Machine.execMgtEvent s
  | .throwDelivery core line => Sys2Proof.Machine.execThrowDelivery core line s
  | .hostRead pa n => Sys2Proof.Machine.execHostRead pa n s
  | .hostWrite pa n data => Sys2Proof.Machine.execHostWrite pa n data s
  | .hostFetchAdd pa wide v => Sys2Proof.Machine.execHostFetchAdd pa wide v s
  | .hostSwap pa wide v => Sys2Proof.Machine.execHostSwap pa wide v s
  | .hostCompareSwap pa wide old new => Sys2Proof.Machine.execHostCompareSwap pa wide old new s
  | .tenRoot n v => Sys2Proof.Machine.execTenRoot n v s
  | .tenKick n v => Sys2Proof.Machine.execTenKick n v s
  | .domRst f v => Sys2Proof.Machine.execDomRst f v s
  | .domainResetDone f => Sys2Proof.Machine.execDomainResetDone f s
  | .xlInv f v => Sys2Proof.Machine.execXlInv f v s
  | .xlMig f v => Sys2Proof.Machine.execXlMig f v s
  | .errPop die v => Sys2Proof.Machine.execErrPop die v s
  | .fwinWrite n r v => Sys2Proof.Machine.execFwinWrite n r v s
  | .registerWrite pa v => Sys2Proof.Machine.execRegisterWrite pa v s
  | .powerOn => Sys2Proof.Machine.execPowerOn s
  | .discoveryTimeout => Sys2Proof.Machine.execDiscoveryTimeout s
  | .clockStep die up => Sys2Proof.Machine.execClockStep die up s
  | .thermalThrottle die => Sys2Proof.Machine.execThermalThrottle die s
  | .thermalStop die => Sys2Proof.Machine.execThermalStop die s
  | .copyTrapInFlight j e => Sys2Proof.Machine.execCopyTrapInFlight j e s
  | .coherentWindowSnoop line write => Sys2Proof.Machine.execCoherentWindowSnoop line write s
  | .trHead f v => Sys2Proof.Machine.execTrHead f v s
  | .packageReset => Sys2Proof.Machine.execPackageReset s

end Sys2Proof.Machine
end

