-- ==== Sys2Proof/Machine/Place.lean ====
section
/-!
DEFINITION. A machine whose next step runs one given instruction (log entry 9): a package that has booted, a page table with one code
page, a launch's job resident in slot 0 of core 0 of C-die 0 with every header declaration at its maximum, and the word at the entry
address of the stream that executes it.
-/
namespace Sys2Proof.Machine

/-- The virtual page of the code. -/
def placeVa : Nat := 0x100000
/-- The physical page of the code. -/
def placePa : Nat := 0x23000

/-- The four tables of the walk and the leaf: a level-0 page that may be read and executed (R375, R376). [DESIGN CHOICE, unsafe: log entry 9] -/
def placeTables (m : Mem) : Mem :=
  let m := memWriteBytes m 0x10000 (natLe 8 (0x20000 + 1))
  let m := memWriteBytes m 0x20000 (natLe 8 (0x21000 + 1))
  let m := memWriteBytes m 0x21000 (natLe 8 (0x22000 + 1))
  memWriteBytes m (0x22000 + 8 * 0x100) (natLe 8 (2 ^ 54 + 2 ^ 52 + placePa + 2 ^ 6 + 1))

/-- The header with every declaration at its maximum (R37). -/
def placeHdr0 : Word := BitVec.ofNat 64 (2 ^ 63 + 512 * 2 ^ 53 + 64 * 2 ^ 46 + 8 * 2 ^ 42 + 15 * 2 ^ 38 + 65535 * 2 ^ 22 + 16 * 2 ^ 17 + 16 * 2 ^ 12 + 16 * 2 ^ 7 + 64)
/-- Its second word. -/
def placeHdr1 : Word := BitVec.ofNat 64 (255 * 2 ^ 19 + 7 * 2 ^ 16 + 15 * 2 ^ 12 + 3968)

/-- The stream that runs a table word: S for 32 bits, else the first of X, L, T whose decoder reads it. -/
def placeStream (nbits w : Nat) : Stream :=
  if nbits ≤ 32 then .S
  else
    let h := w % 2 ^ 96
    let t := w / 2 ^ 96 % 2 ^ 96
    match okOf (decode .X h t), okOf (decode .L h t) with
    | some _, _ => .X
    | none, some _ => .L
    | none, none => .T

/-- The job that runs it. [DESIGN CHOICE, unsafe: log entry 9] -/
def placeJob : Job :=
  let pc := BitVec.ofNat 64 placeVa
  newJob 0 0 0 0 placeHdr0 placeHdr1
    (newCore [pc, pc, pc, pc] (newS [] 0 0) 255 (newWindow (3968 * 1024) 0 none)) 0 0 0 []

/-- The machine with the instruction placed. [DESIGN CHOICE, unsafe: log entry 9] -/
def placeWord (s : State) (nbits w : Nat) : State :=
  let v := w % 2 ^ nbits
  let m := memWriteBytes (placeTables s.M.mem) placePa (natLe 24 v)
  let s := { s with M := { s.M with mem := m, dirty := cellsDrop s.M.dirty placePa 24, stale := cellsDrop s.M.stale placePa 24 } }
  let s := { s with B := { s.B with status := 1, mode := if s.B.cdies ≤ 2 then 0 else 1 } }
  let s := setDomain s 0 { domainSt s 0 with xlRoot := BitVec.ofNat 64 (2 ^ 16 + 1) }
  let s := setCore s 0 { coreSt s 0 with holder := some 0 }
  { setJob s 0 placeJob with agenda := [.run 0 (placeStream nbits v)] }

end Sys2Proof.Machine
end

