-- ==== Sys2Proof/Machine/Issue.lean ====
section
/-!
DEFINITION. Which stream's word issues (R86, R239, R240, R435): the engine ports, which serve one ready stream of a core at a time, and a
stream's chance to fetch, decode and execute its next word.
-/
namespace Sys2Proof.Machine

/-! ### The engine ports (R240) -/

/-- What the frame of the engine words needs to know of a word, by its instruction. -/
def planOf : Instr → Option EPlan
  | .aq e w => some (planAq e w)
  | .aset e w => some (planAset e w)
  | .aadd e w => some (planAadd e w)
  | .ejoin e w => some (planEjoin e w)
  | .enop e w => some (planEnop e w)
  | .cshape e w => some (planCshape e w)
  | .loop e w => some (planLoop e w)
  | .cpy w => some (planCpy w)
  | .cpyg w => some (planCpyg w)
  | .cpyd w => some (planCpyd w)
  | .cpym w => some (planCpym w)
  | .prel w => some (planPrel w)
  | .dgst w => some (planDgst w)
  | .cps w => some (planCps w)
  | .acw w => some (planAcw w)
  | .acwf w => some (planAcwf w)
  | .cas w => some (planCas w)
  | .cpst w => some (planCpst w)
  | .scat w => some (planScat w)
  | .flsh w => some (planFlsh w)
  | .invl w => some (planInvl w)
  | .mthr w => some (planMthr w)
  | .mshape w => some (planMshape w)
  | .mclm w => some (planMclm w)
  | .mrel w => some (planMrel w)
  | .mlda w => some (planMlda w)
  | .mma w => some (planMma w)
  | .mmas w => some (planMmas w)
  | .macr w => some (planMacr w)
  | .mzero w => some (planMzero w)
  | .mfill w => some (planMfill w)
  | .mpin w => some (planMpin w)
  | .munp w => some (planMunp w)
  | .minv w => some (planMinv w)
  | .mqry w => some (planMqry w)
  | .mrep w => some (planMrep w)
  | .mlse w => some (planMlse w)
  | .mlrl w => some (planMlrl w)
  | .vadd w => some (planVadd w)
  | .vsub w => some (planVsub w)
  | .vmul w => some (planVmul w)
  | .vfma w => some (planVfma w)
  | .vmin w => some (planVmin w)
  | .vmax w => some (planVmax w)
  | .vabs w => some (planVabs w)
  | .vneg w => some (planVneg w)
  | .vand w => some (planVand w)
  | .vor w => some (planVor w)
  | .vxor w => some (planVxor w)
  | .vshl w => some (planVshl w)
  | .vshr w => some (planVshr w)
  | .vcmp w => some (planVcmp w)
  | .vsel w => some (planVsel w)
  | .vcvt w => some (planVcvt w)
  | .vqnt w => some (planVqnt w)
  | .vdq w => some (planVdq w)
  | .vexp w => some (planVexp w)
  | .vrcp w => some (planVrcp w)
  | .vrsq w => some (planVrsq w)
  | .vtanh w => some (planVtanh w)
  | .vred w => some (planVred w)
  | .vscan w => some (planVscan w)
  | .vgmax w => some (planVgmax w)
  | .vtopk w => some (planVtopk w)
  | .vnorm w => some (planVnorm w)
  | .vtran w => some (planVtran w)
  | .vcopy w => some (planVcopy w)
  | .vfill w => some (planVfill w)
  | .viota w => some (planViota w)
  | .vgath w => some (planVgath w)
  | .vscat w => some (planVscat w)
  | .vmskAnd w => some (planVmskAnd w)
  | .vmskOr w => some (planVmskOr w)
  | .vmskXor w => some (planVmskXor w)
  | .vmskAndn w => some (planVmskAndn w)
  | .vmskNot w => some (planVmskNot w)
  | .vmskFirst w => some (planVmskFirst w)
  | .vmskLd w => some (planVmskLd w)
  | .vmskSt w => some (planVmskSt w)
  | .vmskCount w => some (planVmskCount w)
  | .vshape w => some (planVshape w)
  | _ => none

/-- The queue of an AQ holds an entry; other words have all their entries by the frame's check (R235). -/
def aqReady (j : Job) : Instr → Bool
  | .aq _ w => !(j.queue (w.func.toNat % 16)).isEmpty
  | _ => true

/-- The word meets every issue condition that the port looks at (R240): tokens, queue entries and places, its turn in its stream, the core's
vector unit. -/
def wordReady (s : State) (k : Nat) (j : Job) (e : EStream) (i : Instr) : Bool :=
  match planOf i with
  | none => false
  | some p => (eDecode j e p.d).isNone && eReady j e (tokBits i) p.d && (!p.alone || (j.eng e).inflight.isEmpty) && aqReady j i && vectorGo s k j i

/-- Stream `e` of job slot `k` is ready for its port. -/
def portReady (s : State) (k : Nat) (e : EStream) : Bool :=
  match jobAt s k with
  | none => false
  | some j =>
    j.mayIssue e.toStream && !(e == .X && j.lookup.isSome) && !traceStall s j e.toStream && !j.replayPast e.toStream &&
      ((nextWord s j e.toStream).map (wordReady s k j e)).getD false

/-- The job slots of a core in the order in which the port of stream code `n` serves them next. -/
def portOrder (s : State) (core n : Nat) : List Nat :=
  let last := smGetD (coreSt s core).ports n 3
  (List.range 4).map (fun i => 4 * core + (last + 1 + i) % 4)

/-- The port's turn: a ready stream is served when no ready stream comes before it, and the port notes it; a stream that is not ready, or
whose matrix word has left the port, goes by without it. [DESIGN CHOICE, unsafe: log entry 111] -/
def takePort (s : State) (k : Nat) (e : EStream) : Option State :=
  if !portReady s k e then some s
  else if (portOrder s (jCoreKey k) (streamCode e.toStream)).find? (fun x => portReady s x e) = some k then
    let c := coreSt s (jCoreKey k)
    some (setCore s (jCoreKey k) { c with ports := smPut 3 c.ports (streamCode e.toStream) (jSlot k) })
  else none

/-- The stream's turn at the S slot or at its port. -/
def takeTurn (s : State) (k : Nat) (st : Stream) : Option State :=
  match Stream.toEng st with
  | none => takeSlot s k
  | some e => takePort s k e

/-! ### A chance for a stream -/

/-- A stream of a job gets a chance to issue its next word. A BARC whose generation is complete retires when its S holds the slot (R138, R239). -/
def planStream (s : State) (k : Nat) (st : Stream) : Plan :=
  let s := { s with turnJob := k, turn := st }
  match jobAt s k with
  | none => .stay s
  | some j =>
    if !j.mayIssue st || traceStall s j st || j.replayPast st then .stay s
    else match takeTurn s k st with
      | none => .stay s
      | some s =>
        if st = .S ∧ j.pend = .departed then .stay (sFinish s k j (.retire s j.next))
        else
          let b := bpCheck s k j st
          match b.2 with
          | some n => .run (.breakpointStop k st n) b.1
          | none => match jobAt b.1 k with
            | none => .stay b.1
            | some j => planFetch b.1 k j st

end Sys2Proof.Machine
end

