-- ==== Sys2Proof/Machine/Schedule.lean ====
section
/-!
DEFINITION. What happens next. The agenda names it: the environment's inputs, time, and the order in which streams and units act. When the
agenda is empty the machine's own fair order fills it for one round (log entry 10): every waiting message, every stream of every resident
job and the completion of what it has in flight, the units, the dispatch hardware, and time.
-/
namespace Sys2Proof.Machine

/-- The event in which a waiting message is acted on. -/
def pktEvent (p : Pkt) : Option Instr :=
  match p.cls, p.op with
  | 1, 0 => some (.reqReadShared p.msg)
  | 1, 1 => some (.reqReadOwned p.msg)
  | 1, 2 => some (.reqWrite p.msg)
  | 1, 3 => some (.reqAtomic p.msg)
  | 1, 4 => some (.reqReleasePermission p.msg)
  | 1, 5 => some (.reqNearMemoryJob p.msg)
  | 1, 6 => some (.reqWalkerSteal p.msg)
  | 1, 7 => some (.reqRegisterAccess p.msg)
  | 2, 0 => some (.rspAck p.msg)
  | 2, 1 => some (.rspRetry p.msg)
  | 2, 2 => some (.rspMoved p.msg)
  | 2, 3 => some (.rspError p.msg)
  | 2, 4 => some (.rspDataFollows p.msg)
  | 2, 5 => some (.rspForcedPublishAck p.msg)
  | 3, 0 => some (.datLine p.msg)
  | 3, 1 => some (.datPartialLine p.msg)
  | 3, 2 => some (.datPoisonedLine p.msg)
  | 4, 0 => some (.snpRecallOwner p.msg)
  | 4, 1 => some (.snpInvalidate p.msg)
  | 4, 2 => some (.snpForcedPublish p.msg)
  | 5, 0 => some (.tokGrantShared p.msg)
  | 5, 1 => some (.tokGrantOwned p.msg)
  | 5, 2 => some (.tokRevoke p.msg)
  | 6, 0 => some (.nrw p.msg)
  | 7, 0 => some (.pos p.msg)
  | 8, 0 => some (.ingTokenRow p.msg)
  | 8, 1 => some (.ingPickRecord p.msg)
  | 9, 0 => some .mgtDescriptorRequest
  | 9, 1 => some .mgtDescriptor
  | 9, 2 => some .mgtTopology
  | 9, 3 => some .mgtFirmwareReplicaWrite
  | 9, 4 => some .mgtEvent
  | _, _ => none

/-- The completion of the S instruction that waits. -/
def pendEvents (k : Nat) : SPend → List Instr
  | .none | .barc _ | .departed => []
  | .parked => [.waitReevaluate k]
  | .fence .. => [.fenceRetire k]
  | .join _ .halt => [.haltRetire k]
  | .join _ _ => [.joinComplete k]
  | .commit _ => [.regionCommit k]

/-- The completions of an engine stream's words in flight. -/
def wordEvents (k : Nat) (j : Job) : List Instr :=
  (if j.core.L.inflight.isEmpty then [] else [.engineWordRetire k .L, .copyTrapInFlight k .L]) ++
  (if j.core.X.inflight.isEmpty then [] else [.vectorWordRetire k, .matrixWordRetire k]) ++
  (if j.core.T.inflight.isEmpty then [] else [.engineWordRetire k .T, .copyTrapInFlight k .T])

/-- What may happen to a resident job. -/
def jobEvents (k : Nat) (j : Job) : List Instr :=
  pendEvents k j.pend ++ wordEvents k j ++
  (match j.phase with | .running => [] | .saving _ => [.contextSaveDone k, .saveDeadlineExpiry k]) ++
  (match j.preempt with | none => [.preemptionRequest k, .sliceExpiry k] | some _ => [.forcedCut k, .graceExpiry k]) ++
  (if j.replay.isSome then [.replayEnd k] else [.hangWatchdog k]) ++ (j.stallStart.map (fun e =>
    .freezeStallTimeout k (match e.1 % 4 with | 0 => .S | 1 => .L | 2 => .X | _ => .T)))

/-- The actions of a resident job in one round. -/
def jobActions (k : Nat) (j : Job) : List Action :=
  [.run k .S, .run k .L, .run k .X, .run k .T] ++ (jobEvents k j).map .event

/-- What may happen in a cluster. -/
def clusterEvents (s : State) (cl : Nat) (c : Cluster) : List Instr :=
  (c.frames.filterMap (fun f => if f.2.filling then some (.frameFillComplete cl f.1) else none)) ++
  (c.frames.filterMap (fun f => if f.2.copying then some (.frameCopyComplete cl f.1) else none)) ++
  (c.frames.filterMap (fun f => if f.2.filled && decide (8 ≤ waitingFor s cl f.2.fdom f.2.page f.2.len) then some (.hardwareReplica cl f.1) else none)) ++
  (if c.leaseWait.isEmpty then [] else [.leaseBudgetExhausted cl, .leaseGrant cl]) ++
  c.barriers.map (fun b => .barrierComplete cl b.launch b.id)

/-- What may happen at an M-die. -/
def mdieEvents (m : Nat) (d : MDieSt) : List Instr :=
  (if d.queue.isEmpty then [] else [.nmJobStart m]) ++ d.running.filterMap (fun x => x.unit.map (fun u => .nmJobComplete m u))

/-- What may happen to a launch. -/
def launchEvents (s : State) (l : Nat) (v : Launch) : List Instr :=
  match v.st with
  | .waiting | .complete => []
  | .killed | .lost => [.launchComplete l]
  | .ready => (List.range s.B.cdies).map (.walkerSteal l) ++ [.ageLevelTick l, .launchComplete l]

/-- What the dispatch hardware may do. -/
def dispatchEvents (s : State) : List Instr :=
  (s.launches.map (fun e => launchEvents s e.1 e.2)).flatten ++ s.saved.map (fun e => .jobResume e.2.launch e.2.ticket) ++
  (List.replicate 64 ((List.range s.B.cdies).map .jobDispatch)).flatten ++
  (s.leaves.map (fun e => (if (rangeOf s e.1 == .mailbox && e.2.w0.getLsbD 62) || e.2.stall != 0 then [.tailReread e.1] else []) ++ [.periodBoundary e.1])).flatten

/-- What may happen to a domain. -/
def domainEvents (f : Nat) (d : Domain) : List Instr :=
  (if d.domRst = 1 then [.domainResetDone (BitVec.ofNat 12 f)] else []) ++ (if d.wtCount = 0 then [] else [.weightRecheck f])

/-- What the units and the dispatch hardware may do. -/
def unitEvents (s : State) : List Instr :=
  (s.clusters.map (fun e => clusterEvents s e.1 e.2)).flatten ++ (s.mdies.map (fun e => mdieEvents e.1 e.2)).flatten ++ dispatchEvents s ++
  (s.domains.map (fun e => domainEvents e.1 e.2)).flatten ++ s.M.moves.map (fun m => .pageMoveRemap m.fdom) ++
  (if rebaseDue s then [.positionRebase] else [])

/-- One round of a package that has booted. [DESIGN CHOICE, unsafe: log entry 10] -/
def roundActions (s : State) : List Action :=
  ((s.F.inbox.filterMap pktEvent).map .event) ++ s.M.deliveries.map (fun e => .event (.throwDelivery e.1 e.2.1)) ++
  (s.jobs.map (fun e => jobActions e.1 e.2)).flatten ++
  (unitEvents s).map .event

/-- One round before the topology table reads STATUS 1. -/
def bootActions (s : State) : List Action :=
  if s.B.status = 0 ∧ (dieSt s s.B.primary).stage = 0 then [.event .powerOn]
  else (s.F.inbox.filterMap pktEvent).map .event ++ [.event .discoveryTimeout]

/-- The machine's own order for one round; it ends with the passing of a microsecond. [DESIGN CHOICE, unsafe: log entry 10] -/
def ownOrder (s : State) : List Action := (if s.B.status = 1 then roundActions s else bootActions s) ++ [.tick 1000]

/-- The action a step performs, and the state without it. [DESIGN CHOICE, unsafe: log entry 1] -/
def takeAction (s : State) : Action × State :=
  let s := { s with fresh := s.fresh + 1 }
  match s.agenda with
  | a :: r => (a, { s with agenda := r })
  | [] =>
    match ownOrder s with
    | a :: r => (a, { s with agenda := r })
    | [] => (.tick 1000, s)

/-- What an action does. -/
def planAction (s : State) : Action → Plan
  | .run k st => planStream s k st
  | .event (.unassignedFirmwareService _) => .stay s
  | .event i => if (encode i).isNone then .run i s else .stay s
  | .progress k e w n => .stay (progressWord s k e w n)
  | .tick ns => .stay (passTime s ns)
  | .displace line => .stay (displace s line)
  | .corrected die => .stay (countCe s die)
  | .failLine line => .stay (failHome s line)
  | .failState k => .stay (failState s k)
  | .failBank k b => .stay (failBank s k b)
  | .failSlot k sl u => .stay (failSlot s k sl u)
  | .failFrame cl fr u => .stay (failFrame s cl fr u)
  | .failAcc k a e => .stay (failAcc s k a e)
  | .failRecord line => .stay (failRecord s line)
  | .failRace line => .stay (degradeLine s line)
  | .failDir line => .stay (failDir s line)
  | .failTag cl fr => .stay (failTag s cl fr)
  | .bootFail die r => .stay (bootFail s die r)
  | .fuseSvn => .stay (fuseSvn s)

/-- What the next step does. [DESIGN CHOICE, unsafe: log entry 1] -/
def planStep (s : State) : Plan :=
  let a := takeAction s
  planAction a.2 a.1

end Sys2Proof.Machine
end

