-- ==== Sys2Proof/Machine/Step.lean ====
section
/-!
DEFINITION. One step of the package: the next action of the agenda, or of the machine's own order, and its meaning. `withFetchWord` gives
the machine in which the next step runs one given instruction (log entry 9).
-/
namespace Sys2Proof.Machine

/-- One step: a word of a stream that the step fetches and decodes, an event, or an input of the environment. -/
def step (s : State) : Host.Outcome State Fault Refusal :=
  match planStep s with
  | .run i t => exec i t
  | .stay t => .next t

/-- `s` with the instruction whose bits are `w` placed where the next step fetches it. [DESIGN CHOICE, unsafe: log entry 9] -/
def State.withFetchWord (s : State) (nbits w : Nat) : State := placeWord s nbits w

end Sys2Proof.Machine
end

