-- ==== Sys2Proof/Safety.lean ====
section
/-!
DEFINITION. The words in which statements speak of a run: whose turn it is, when an instruction is admitted, what retiring leaves, and what
counts as a safe run. A run is safe when no step of it stops: the machine takes traps and loses contexts, but it goes on.
-/
namespace Sys2Proof.Machine

/-! ### Runs -/

/-- Instruction `i` takes `s` to `t`. -/
def Runs (i : Instr) (s t : State) : Prop := exec i s = .next t

/-- A step goes on: it neither faults nor refuses. -/
def Continues (s : State) : Prop := ∃ t, step s = .next t

/-- Memory is in canonical form: that of the device and that of the host. -/
def MemOk (s : State) : Prop := s.M.mem.wf = true ∧ s.M.host.wf = true

/-- The resident jobs are listed by rising slot, one per slot. -/
def SlotsOk (s : State) : Prop := smSorted none s.jobs = true

/-! ### The turn -/

/-- Job `j` is resident in slot `k` and it is its turn. -/
structure Turn (s : State) (k : Nat) (j : Job) : Prop where
  turn : s.turnJob = k
  here : jobAt s k = some j

/-- An S instruction of class `cls` that names the registers `regs` meets none of the conditions that keep it from its own effect (R15, R28,
R124, R374): the level may run it, no region forbids it, its registers are declared, SEQS can count it. -/
structure SReady (s : State) (k : Nat) (j : Job) (cls : SClass) (regs : List (BitVec 6)) : Prop where
  turn : s.turnJob = k
  here : jobAt s k = some j
  level : j.level = .job ∨ cls.handler = true
  region : j.region = none ∨ cls.misuse = false
  named : ∀ r ∈ regs, j.sOk r = true
  count : j.core.S.seq < seqMax

/-! ### Retiring -/

/-- `s'` after the S instruction of slot `k`, whose job was `j`, retires and leaves job `j'`: SEQS counts, the stream's WORD record is
written when the domain traces words (R28, R436). -/
def retired (s' : State) (k : Nat) (j j' : Job) : State :=
  setJob (traceWord s' k j .S j.pc (j.core.S.seq + 1)) k
    { j' with core := { j'.core with S := { j'.core.S with seq := j.core.S.seq + 1 } }, pend := .none }

/-- `i` retires at the next PC with `v` in register `d`, and nothing else. -/
def Writes (i : Instr) (s : State) (k : Nat) (j : Job) (d : BitVec 6) (v : Word) : Prop := Runs i s (retired s k j (j.setS d v).next)

/-- `i` retires at the next PC with `v` in predicate `d`, and nothing else. -/
def WritesP (i : Instr) (s : State) (k : Nat) (j : Job) (d : BitVec 3) (v : Bool) : Prop := Runs i s (retired s k j (j.setP d v).next)

/-- `i` is a taken transfer to `t` of job `j'`: a FLOW record, when the domain traces, and the WORD record (R116, R436). -/
def Jumps (i : Instr) (s : State) (k : Nat) (j j' : Job) (t : Word) : Prop := Runs i s (retired (traceFlow s k j' .S j.pc) k j (j'.setPc t))

/-- Tracing is off in a domain (R436). -/
def TraceOff (s : State) (f : Nat) : Prop := (domainSt s f).trCtl.getLsbD 63 = false

/-! ### S instructions by shape -/

/-- The s registers an arithmetic instruction names, its destination first. -/
def aluRegs : Instr → Option (List (BitVec 6))
  | .add d a b | .sub d a b | .and d a b | .or d a b | .xor d a b | .shl d a b | .shr d a b | .sra d a b => some [d, a, b]
  | .mul d a b | .mulh d a b | .mulhu d a b | .div d a b | .divu d a b | .rem d a b | .remu d a b => some [d, a, b]
  | .min d a b | .max d a b | .minu d a b | .maxu d a b | .sel d a b _ => some [d, a, b]
  | .clz d a | .popc d a | .addi d a _ | .andi d a _ | .ori d a _ | .xori d a _ | .shli d a _ | .shri d a _ | .srai d a _ => some [d, a]
  | .movi d _ | .shin d _ => some [d]
  | _ => none

/-- The divisions, which alone of them may set DZ (R110). -/
def isDivision : Instr → Bool
  | .div .. | .divu .. | .rem .. | .remu .. => true
  | _ => false

/-! ### Memory -/

/-- No C-die holds a scope copy or a partial line of the line, no region that commits has gathered it and no core has a persistent request for
it, so that nothing stands before an access to it (R285, R289, R290, R294, R307). -/
structure LineClear (s : State) (line : Nat) : Prop where
  partials : partialsOf s line = []
  scopes : s.M.scopes.all (fun c => c.line != line) = true
  commits : gathered s line = false
  persistent : s.M.persistent.all (fun e => e.1 != line) = true

/-- An S access at `ea` passes the checks of R125 and reaches the memory at `pa`: outside a region, not in a replay. -/
structure SPlain (s : State) (k : Nat) (j : Job) (a : SAcc) (ea pa : Nat) : Prop where
  check : sCheck s k j a ea = .ok pa
  memory : (rangeOf s pa).isMem = true
  outside : j.region = none
  live : j.replay = none
  clear : LineClear s (lineOf pa)

/-- An access at each address of `eas` so passes and reaches the address of `pas` beside it. -/
def SBeats (s : State) (k : Nat) (j : Job) (a : SAcc) (eas pas : List Nat) : Prop :=
  pas.length = eas.length ∧ ∀ x ∈ eas.zip pas, SPlain s k j a x.1 x.2

/-- What a load of S of `n` bytes at `pa`, at scope `sc` and outside regions, returns: the coherent bytes, once the die has the permission that a
load at device scope takes (R287, R288); where a near-memory job has replaced a byte and does not happen before the load, the old or
the new one (R253, R322). -/
def loaded (s : State) (k : Nat) (j : Job) (sc pa n : Nat) : Nat :=
  let t := if 3 ≤ sc then dirRead s (jDie k) (lineOf pa) j.fdom else s
  leNat ((List.range n).map (fun i => nmSeen s (j.clkBefore 0 1 true false) (pa + i) (cByte t (pa + i))))

/-- The job after an S instruction: its S stream is `q`'s but for the count, which has moved on, and nothing waits. -/
def SDone (t : State) (k : Nat) (j q j' : Job) : Prop :=
  jobAt t k = some j' ∧ j'.pend = .none ∧ j'.core.S = { q.core.S with seq := j.core.S.seq + 1 }

/-- The bytes of `l` stand at `pa` in `t`, and every other byte of memory reads as in `s`. -/
def Stored (s t : State) (pa : Nat) (l : List Byte) : Prop :=
  (∀ i, i < l.length → cByte t (pa + i) = l.getD i 0) ∧ ∀ b, b < pa ∨ pa + l.length ≤ b → cByte t b = cByte s b

/-- The bytes at these addresses are read as they stand: the die of slot `k` holds a permission for their lines, and no near-memory job has
replaced a byte of the eight at each. -/
def Held (s : State) (k : Nat) (pas : List Nat) : Prop :=
  ∀ p ∈ pas, dirHas s (jDie k) (lineOf p) = true ∧ ∀ i, i < 8 → smGet s.M.nmOld (p + i) = none

/-- The 64-bit words at these addresses. -/
def wordsAt (s : State) (pas : List Nat) : List Nat := pas.map (fun p => leNat (cBytes s p 8))

/-- SPAWN's append of the record `w` to a leaf by a job of launch `v` meets none of the conditions for a status other than 0 (R144, R345, R346). -/
structure SpawnOk (s : State) (v : Launch) (leaf : Nat) (w : List Nat) (expired : Bool) : Prop where
  fed : leafOk s leaf = true ∧ bitOf (recWord s leaf 0) 61 = true
  root : ∃ c, rcbChain s chainMax leaf = some c ∧ c.getLast? = some (((rcbChain s chainMax v.leaf).bind (fun c => c.getLast?)).getD 0) ∧
    (c.find? (fun a => bitOf (recWord s a 0) 51)).map (fun a => bits (recWord s a 0) 36 12) = some v.fdom ∧
    bits (recWord s (c.getLast?.getD 0) 0) 48 4 = 15
  record : recordOk w = true ∧ (recProds w).all (prodOk s v.fdom) = true
  header : ∃ h0 h1, readHeader s v.fdom (w.getD 0 0) expired = .ok h0 h1 ∧ headerOk h0 h1 = true ∧ entriesOk w h1 = true
  room : (leafTail s leaf + 2 ^ 32 - leafHead s leaf) % 2 ^ 32 ≠ 2 ^ (recWord s leaf 6 % 32)

/-- The record `w` stands at TAIL of the leaf's ring, and TAIL has moved on (R345). -/
def appended (s : State) (leaf : Nat) (w : List Nat) : State :=
  let t := agentSetBytes s (recWord s leaf 5 + 128 * (leafTail s leaf % 2 ^ (recWord s leaf 6 % 32))) ((w.map (natLe 8)).flatten)
  setRecWord t leaf 7 (recWord t leaf 7 / 2 ^ 32 * 2 ^ 32 + (leafTail s leaf + 1) % 2 ^ 32)

/-- A fence retires: a release publishes at its scope, the words of every to-side path that come after it obtain the from side's clock `clk`, for
stores always and for loads unless it is a release, and, unless it is an acquire, are releases of at least its scope (R132, R256). -/
def Fenced (s t : State) (k : Nat) (j : Job) (clk : SMap VC) (sc dst kind : Nat) : Prop :=
  ∃ q : Job, t = retired (if kind = 1 then s else publishOwn s (jCoreKey k) sc) k j q.next ∧ q.core = j.core ∧
    ∀ p ∈ maskPaths dst, (issuedOn j p, clk) ∈ (q.clkOf p).ps ∧ (kind ≠ 2 → (issuedOn j p, clk) ∈ (q.clkOf p).pl) ∧
      (kind ≠ 1 → ∃ e ∈ (q.clkOf p).rel, e.1 ≤ issuedOn j p ∧ sc ≤ e.2)

/-- The innermost loop of a stream does not end at the slot `last` (R238). -/
def NoLoopEnd (g : Eng) (last : Word) : Prop := ∀ t r, g.loops = t :: r → t.last ≠ last

/-- A firmware service at handler level returns (R147): s8 holds `v`, the handler goes on at the next word, and `s'` is what the service leaves. -/
def Serves (i : Instr) (s : State) (k : Nat) (j : Job) (s' : State) (v : Nat) : Prop :=
  Runs i s (retired s' k j ((curJob s' k j).setS 8 (BitVec.ofNat 64 v)).next)

/-- A join point of the streams of mask `m` has retired with their EJOINs (R135): S goes on at the next word, its registers as before, and each
stream counts its EJOIN and goes on past it. -/
structure JoinDone (t : State) (k : Nat) (j : Job) (m : Nat) (j' : Job) : Prop where
  here : jobAt t k = some j'
  pend : j'.pend = .none
  S : j'.core.S = { j.next.core.S with seq := j.core.S.seq + 1 }
  streams : ∀ e ∈ maskStreams m, (j'.eng e).ejoin = none ∧ (j'.eng e).ended = false ∧ (j'.eng e).seq = (j.eng e).seq + 1 ∧
    (NoLoopEnd (j.eng e) (j.eng e).pc → (j'.eng e).pc = (j.eng e).pc + 12)

/-- A job has ended by HALT (R136): its slot is free, its launch counts it. -/
def HaltDone (s t : State) (k : Nat) (j : Job) : Prop :=
  (SlotsOk s → jobAt t k = none) ∧
  ∀ v, launchAt s j.launch = some v → ∃ v', launchAt t j.launch = some v' ∧ v'.halted = v.halted + 1 ∧
    v'.trig = (if j.triggered then v.trig else v.trig + 1)

/-! ### Engine words -/

/-- The values of an engine word's operands (R97). -/
def wordOps (j : Job) (e : EStream) (p : EPlan) : List Word := opVals (j.eng e) p.d.ops ((j.queue (popQueue e)).take (popCount p.d.ops))

/-- The last slot of the next word: a matrix word takes two (R99). -/
def lastSlot (j : Job) (e : EStream) (p : EPlan) : Word := if p.mat then (j.eng e).pc + 12 else (j.eng e).pc

/-- The number of the next word of an engine stream (R28). -/
def nextSeq (j : Job) (e : EStream) : Nat := (j.eng e).seq + (j.eng e).inflight.length + 1

/-- An engine word with plan `p` meets none of the conditions that keep it from its own effect (R20 to R25, R87, R98, R219): it is a job's,
the header declares what it names, its tokens, queue entries and places are there, its stream can count it, and a loop does not end
inside it. -/
structure EReady (s : State) (k : Nat) (j : Job) (e : EStream) (tok : BitVec 4) (p : EPlan) : Prop where
  turn : s.turnJob = k
  here : jobAt s k = some j
  level : j.level = .job
  named : eDecode j e p.d = none
  ready : eReady j e tok p.d = true
  alone : p.alone = true → (j.eng e).inflight = []
  whole : p.mat = true → NoLoopEnd (j.eng e) (j.eng e).pc
  count : nextSeq j e ≤ seqMax

/-- The job as a word's issue finds it: the stream knows what the tokens and entries the word pops tell it (R154). -/
def issuing (j : Job) (e : EStream) (tok : BitVec 4) (p : EPlan) : Job := j.issueKnow e tok (popCount p.d.ops)

/-- The word as it is in flight; `know` is what its window accesses come after (R154). -/
def flying (i : Instr) (j : Job) (e : EStream) (p : EPlan) (eff : Effect) (know : VC) : InFlight :=
  ⟨(j.eng e).pc, nextSeq j e, i, wordBits i, wordOps j e p, (j.queue (popQueue e)).take (popCount p.d.ops), (j.eng e).shape, eff, know, Part.none⟩

/-- The job after a word has issued: pops, tokens, places and increments are made, the window bytes it has read are noted (R154), the word is
the newest in flight (R22, R98). `j'` is the job as the word's own issue left it, `fresh` the name of the step. -/
def afterIssue (fresh : Nat) (i : Instr) (j j' : Job) (e : EStream) (tok : BitVec 4) (p : EPlan) (eff : Effect) : Job :=
  let q := eIssue j' e tok p.d
  let f := flying i j e p eff (q.know e)
  let q := q.winUse fresh e (nextSeq j e) f.know eff.reads false
  q.setEng e { q.eng e with inflight := (q.eng e).inflight ++ [f] }

/-- Engine word `i` issues: it is the newest word in flight and will land `eff`. `s'` is what issuing leaves elsewhere; no loop taking the
stream back, it goes to the next word and nothing else changes. -/
def Flies (i : Instr) (s : State) (k : Nat) (j : Job) (e : EStream) (tok : BitVec 4) (p : EPlan) (s' : State) (eff : Effect) : Prop :=
  ∃ t j' v, Runs i s t ∧ jobAt t k = some j' ∧ (j'.eng e).inflight = ((jobAt s' k).getD j |>.eng e).inflight ++ [flying i j e p eff v] ∧
    (j'.eng e).seq = ((jobAt s' k).getD j |>.eng e).seq ∧
    (NoLoopEnd ((jobAt s' k).getD j |>.eng e) (lastSlot j e p) →
      let q := afterIssue s.fresh i j ((jobAt s' k).getD j) e tok p eff
      t = setJob s' k (q.setEng e { q.eng e with pc := lastSlot j e p + 12 }))

/-- Engine word `i` retires as it issues, with `h` done to the job: it counts, and no loop ending at `last`, the stream goes to `pc` and,
with tracing off, nothing else changes (R219, R238). -/
def RetiresNow (i : Instr) (s : State) (k : Nat) (j : Job) (e : EStream) (tok : BitVec 4) (p : EPlan) (h : Job → Job) (last pc : Word) : Prop :=
  ∃ t j', Runs i s t ∧ jobAt t k = some j' ∧ (j'.eng e).seq = nextSeq j e ∧
    (NoLoopEnd ((h (eIssue j e tok p.d)).eng e) last →
      let q := (h (eIssue j e tok p.d)).tokRetire e tok
      j' = q.setEng e { q.eng e with seq := nextSeq j e, pc := pc } ∧ (TraceOff s j'.fdom → t = setJob s k j'))

/-! ### Vector words -/

/-- The formats of a vector word resolve and fit the grant `g` of VSHAPE (R46, R66, R155, R159): `df` and `sf` are what it works in. -/
structure VFits (s : State) (j : Job) (w : EWord) (x : VWord) (ops : List Word) (g : VGrant) (df sf : NFmt) : Prop where
  codes : explicitOk j x.fmt.df x.fmt.dl x.fmt.dd = true ∧ explicitOk j x.fmt.sf x.fmt.sl x.fmt.sd = true
  grant : j.core.vs = some g
  direct : (x.fmt.sf.isSome && x.fmt.df == some 15) = false
  resolve : ∃ vf, codeFmt j g.fmt.toNat = some vf ∧ df.cont ≤ vf.cont ∧ sf.cont ≤ vf.cont ∧
    resolveCode s j x.fmt.df x.fmt.dl x.fmt.dd vf (x.srcs (vCtx s j w x.use ops g.count vf vf)) = some df ∧
    resolveCode s j x.fmt.sf x.fmt.sl x.fmt.sd vf (x.srcs (vCtx s j w x.use ops g.count vf vf)) = some sf

/-- What a vector word lands whose results are `o`. -/
def vEffect (c : VCtx) (o : VOut) (extra : Fl) : Effect :=
  { Effect.none with win := vCells c.seen o.out, mask := o.mask, flags := o.fl ||| extra, push := o.push, vs := o.vs, reads := o.rd }

/-- Vector word `i`, whose formats resolve and whose accesses pass their checks (R151, R420), issues with the results its meaning computes
from its operands, once the core's vector unit is free (R240, R241); an access check that fails is its trap, and so is a missing grant (R159).
Cycles it loses at the scratchpad's banks are counted (R438). A source with scales (R66) reads them first. -/
def VIssues (i : Instr) (w : EWord) (x : VWord) : Prop :=
  ∀ (s : State) (k : Nat) (j : Job) (g : VGrant) (df sf : NFmt), EReady s k j .X w.tok (vPlan i w x) → vectorGo s k j i = true →
    let r := issuing j .X w.tok (vPlan i w x)
    (explicitOk j x.fmt.df x.fmt.dl x.fmt.dd = true → explicitOk j x.fmt.sf x.fmt.sl x.fmt.sd = true → j.core.vs = none →
      Runs i s (takeTrap s k .X 0x01 (wordBits i % 2 ^ 64))) ∧
    (VFits s r w x (wordOps j .X (vPlan i w x)) g df sf →
    let c := vCtx s r w x.use (wordOps j .X (vPlan i w x)) g.count df sf
    (∀ o, x.ans c = .ok o → vCheck j o = none →
      Flies i s k j .X w.tok (vPlan i w x) (countConflicts s k o) (vEffect c o (vTagMiss s r x c))) ∧
    (∀ o at_ fin s' vs, x.ans c = .scaled o at_ fin → vCheck j o = none → (at_.filterMap (scaleCheck s)) = [] →
      readScales s k (j.core.X.seq + 1) at_ = some (s', vs) →
      let o' := { o with out := (fin vs).1, fl := o.fl ||| (fin vs).2 }
      Flies i s k j .X w.tok (vPlan i w x) (countConflicts s' k o') (vEffect c o' (vTagMiss s r x c))) ∧
    (∀ o c' v, x.ans c = .ok o → vCheck j o = some (c', v) → Runs i s (takeTrap s k .X c' v)) ∧
    (∀ o at_ fin c' v, x.ans c = .scaled o at_ fin → vCheck j o = some (c', v) → Runs i s (takeTrap s k .X c' v)) ∧
    (∀ o at_ fin c' v, x.ans c = .scaled o at_ fin → vCheck j o = none → (at_.filterMap (scaleCheck s)).head? = some (c', v) →
      Runs i s (takeTrap s k .X c' v)) ∧
    (∀ c' v, x.ans c = .trap c' v → Runs i s (takeTrap s k .X c' v)))

/-! ### Copy words -/

/-- The checks of R221 on a copy word at issue: alignment, the window's bounds, the memory address. -/
def CopyOk (j : Job) (al : List (Nat × Nat)) (sp : List (Int × Nat)) (mem : Nat) : Prop :=
  alignFirst al = none ∧ winBounds j.core.win.size [] sp = none ∧ mem < 2 ^ 52

/-- Copy word `i` issues and translates its pages ahead, which leaves nothing but cached translations (R382). -/
def CopyFlies (i : Instr) (s : State) (k : Nat) (j : Job) (e : EStream) (tok : BitVec 4) (p : EPlan) (eff : Effect) : Prop :=
  ∃ l, Flies i s k j e tok p { s with M := { s.M with tlb := s.M.tlb ++ l } } eff

/-- A copy word under the checks of R221: `go` when they pass, else the trap of the first that fails, its address or value in TRAPV. -/
def CopyChecked (i : Instr) (s : State) (k : Nat) (j : Job) (st : Stream) (al : List (Nat × Nat)) (sp : List (Int × Nat)) (mem code : Nat) (go : Prop) :
    Prop :=
  (CopyOk j al sp mem → go) ∧
  (∀ v, alignFirst al = some v → Runs i s (takeTrap s k st 0x03 v)) ∧
  (∀ c v, alignFirst al = none → winBounds j.core.win.size [] sp = some (c, v) → Runs i s (takeTrap s k st c v)) ∧
  (alignFirst al = none → winBounds j.core.win.size [] sp = none → 2 ^ 52 ≤ mem → Runs i s (takeTrap s k st code mem))

/-! ### Messages -/

/-- A message waits to be acted on. -/
def Waits (s : State) (cls op : Nat) (m : Msg) : Prop := ⟨cls, op, m⟩ ∈ s.F.inbox

/-- The state without that message. -/
def took (s : State) (cls op : Nat) (m : Msg) : State :=
  { s with F := { s.F with inbox := s.F.inbox.eraseP (fun p => p.cls == cls && p.op == op && p.msg == m) } }

/-- A request at its home is noted as outstanding and what stands before it is done (R290, R294, R384). -/
def atHomeOf (s : State) (op : Nat) (m : Msg) : State × Option Nat := homePrep (noteOut (took s 1 op m) 1 op m) (msgLine m)

end Sys2Proof.Machine
end

