-- ==== Sys2Proof/Certificates/Slice0/Obligations.lean ====
section
/-!
DEFINITION. The statements for the provers, rule by rule of the spec: encodings, steps, the S stream, the engine streams, the events of
the machine, traps, and what every step keeps.
-/
open Sys2Proof Sys2Proof.Machine

/-! ### Encodings -/

/-- Decode and encode agree on the S stream: every well-formed S instruction, with every operand at every value its encoding admits, is read
back by the decoder from the word the encoder writes, whatever follows the word. -/
def Obligations.ScalarDecodeEncode : Prop :=
  ∀ (i : Instr) (w n : Nat), i.wf = true → encode i = some (.s w) → w < 2 ^ 32 ∧ decode .S w n = .ok i

/-- Decode and encode agree on the engine streams: every well-formed copy, vector, common and matrix word is read back by the decoder of its
stream from the word (for a matrix word the head and the tail) that the encoder writes. -/
def Obligations.EngineDecodeEncode : Prop :=
  (∀ (i : Instr) (e : EStream) (w n : Nat), i.wf = true → encode i = some (.e e w) → w < 2 ^ 96 ∧ decode e.toStream w n = .ok i) ∧
  (∀ (i : Instr) (h t : Nat), i.wf = true → encode i = some (.m h t) → h < 2 ^ 96 ∧ t < 2 ^ 96 ∧ decode .X h t = .ok i)

/-- Each S word has one meaning: when the S decoder reads an instruction from a 32-bit word, the instruction is well-formed and the encoder
writes that very word for it, so no bit of the word is dropped or read twice. -/
def Obligations.ScalarEncodeDecode : Prop :=
  ∀ (i : Instr) (w n : Nat), w < 2 ^ 32 → decode .S w n = .ok i → i.wf = true ∧ encode i = some (.s w)

/-- Words written out from the encoding tables decode to the instructions they stand for: one of each kind of S word, and the VSHAPE, EJOIN
and MMA words that the chapters give as examples; a word whose reserved bits are set, or whose major opcode no instruction has, is refused. -/
def Obligations.WordsDecode : Prop :=
  decode .S 0x04108300 0 = .ok (.add 1 2 3) ∧
  decode .S 0x04820100 0 = .ok (.add 8 8 1) ∧
  decode .S 0x2D20C400 0 = .ok (.cmp 2 2 3 4) ∧
  decode .S 0x40FFFFFD 0 = .ok (.b 1 1 (BitVec.ofInt 22 (-3))) ∧
  decode .S 0x6081F000 0 = .ok (.ld 8 7 3 0 0 0) ∧
  decode .S 0x64827000 0 = .ok (.st 8 9 3 0 0) ∧
  decode .S 0xA1808440 0 = .ok (.fence 3 1 2 1) ∧
  decode .S 0xB0000000 0 = .ok .halt ∧
  decode .S 0xE1400010 0 = .ok (.csrr 20 0x010) ∧
  decode .S 0xE4020060 0 = .ok (.csrw 8 0x060) ∧
  decode .S 0xAF800000 0 = .ok (.rdv 7) ∧
  decode .X 0x404008000006200000000000 0 = .ok (.vshape ⟨0, 0, 1, 0, ⟨0, 0, 0⟩, ⟨0, 3, 256⟩, ⟨0, 0, 0⟩, 0⟩) ∧
  decode .X 0x3CC000000000000000000000 0 = .ok (.ejoin .X ⟨0, 0, 0, 0, ⟨0, 0, 0⟩, ⟨0, 0, 0⟩, ⟨0, 0, 0⟩, 0⟩) ∧
  (∃ w : MWord, decode .X 0x84001040008A080000000000 0xC00000000420000000000000 = .ok (.mma w)) ∧
  (∃ r, decode .S 0x6081F400 0 = .error r) ∧
  ∀ (w n : Nat), w < 2 ^ 32 →
    (w / 2 ^ 26) ∈ [0x0E, 0x0F, 0x14, 0x15, 0x16, 0x17, 0x25, 0x26, 0x27, 0x2F, 0x3C, 0x3D, 0x3E, 0x3F] →
    ∃ r, decode .S w n = .error r

/-! ### Steps -/

/-- A step runs the decoded instruction: when a stream of a resident job is given the next step, may issue, has its turn at the S slot or at its
port, and no breakpoint, trace stall or replay limit holds it back, and the bytes at its PC decode to an instruction (four bytes for S,
a slot of twelve for L, X and T, two slots for a matrix word of X), the step is that instruction's execution with the job's turn and
what the fetch leaves noted. -/
def Obligations.StepRunsDecodedInstruction : Prop :=
  ∀ (s s0 s2 : State) (k : Nat) (st : Stream) (j : Job) (l : List Byte) (i : Instr),
    takeAction s = (.run k st, s0) → takeTurn { s0 with turnJob := k, turn := st } k st = some s2 →
    jobAt s0 k = some j → j.mayIssue st = true → (st = .S → j.pend ≠ .departed) → j.replayPast st = false →
    traceStall { s0 with turnJob := k, turn := st } j st = false → (∀ n ∈ List.range 4, bpMatch s2 j st n = false) →
    (st = .S → fetchBytes s2 j (j.pcOf st).toNat 4 = .ok l → decode .S (leNat l) 0 = .ok i →
      step s = exec i (noteFetch s2 k j st (j.pcOf st).toNat 4)) ∧
    (st ≠ .S → fetchBytes s2 j (j.pcOf st).toNat 12 = .ok l → ¬ (st = .X ∧ bits (leNat l) 94 2 = 2) → decode st (leNat l) 0 = .ok i →
      step s = exec i (noteFetch s2 k j st (j.pcOf st).toNat 12)) ∧
    (st = .X → ∀ tail, fetchBytes s2 j (j.pcOf st).toNat 12 = .ok l → bits (leNat l) 94 2 = 2 →
      fetchBytes s2 j ((j.pcOf st).toNat + 12) 12 = .ok tail → decode .X (leNat l) (leNat tail) = .ok i →
      step s = exec i (noteFetch s2 k j st (j.pcOf st).toNat 24))

/-- A word of a stream that is no instruction raises trap 0x01 in its stream, with the word's low 64 bits in TRAPV; a fetch that fails raises
the trap of its failure; one that meets a page being moved waits, and after 50 µs raises trap 0x04 (the model's choice for a fetch,
log entry 110). -/
def Obligations.StepTrapsUndecodableWord : Prop :=
  ∀ (s s0 s2 : State) (k : Nat) (st : Stream) (j : Job),
    takeAction s = (.run k st, s0) → takeTurn { s0 with turnJob := k, turn := st } k st = some s2 →
    jobAt s0 k = some j → j.mayIssue st = true → (st = .S → j.pend ≠ .departed) → j.replayPast st = false →
    traceStall { s0 with turnJob := k, turn := st } j st = false → (∀ n ∈ List.range 4, bpMatch s2 j st n = false) →
    (∀ l r, fetchWord s2 j st (j.pcOf st).toNat = .ok l → decodeBytes st l = .error r →
      step s = .next (takeTrap (noteFetch s2 k j st (j.pcOf st).toNat l.length) k st 0x01 (leNat l % 2 ^ 64))) ∧
    (∀ c v, fetchWord s2 j st (j.pcOf st).toNat = .trap c v → step s = .next (takeTrap s2 k st c v)) ∧
    (fetchWord s2 j st (j.pcOf st).toNat = .frozen →
      (smGet j.stallStart (4 + streamCode st) = none →
        step s = .next (setJob s2 k { j with stallStart := smSet j.stallStart (4 + streamCode st) (s2.time + 1) })) ∧
      (smGet j.stallStart (4 + streamCode st) = some 0 → step s = .next (takeTrap s2 k st 0x04 (j.pcOf st).toNat)))

/-- No step of the machine stops: from every state, whatever the next action is (a word of any stream, an event, an input), the step answers a
next state; it never faults and never refuses. -/
def Obligations.EveryStepContinues : Prop := ∀ s : State, Continues s

/-- Every step keeps the memory of the device and of the host in canonical form (addresses strictly rising, no listed byte zero) and the
table of resident jobs with one job per slot, slots rising. -/
def Obligations.EveryStepKeepsCanonicalForms : Prop :=
  ∀ s t : State, step s = .next t → (MemOk s → MemOk t) ∧ (SlotsOk s → SlotsOk t)

/-- What reset leaves: no job, launch or message; every core, cluster and domain at its reset registers; the copies of G at 1; CATCHQ 32; the
memory of the device and the host in canonical form, with nothing listed. Zero for an unlisted byte is the model's choice (log entry 2). -/
def Obligations.ResetState : Prop :=
  MemOk State.reset ∧ SlotsOk State.reset ∧ State.reset.jobs = [] ∧ State.reset.launches = [] ∧ State.reset.F.inbox = [] ∧ State.reset.gpos = 1 ∧
    (∀ c, (coreSt State.reset c).catchq = 32 ∧ (coreSt State.reset c).catchref = 0 ∧ (coreSt State.reset c).holder = none) ∧
    (∀ c, (clusterSt State.reset c).hit = 0 ∧ (clusterSt State.reset c).miss = 0 ∧ (clusterSt State.reset c).frames = []) ∧
    (∀ d, (dieSt State.reset d).g = 1 ∧ (dieSt State.reset d).cycle = 0) ∧
    (∀ m, (mdieSt State.reset m).floor = 0 ∧ (mdieSt State.reset m).g = 1) ∧
    (∀ f, (domainSt State.reset f).ctxBase = 0 ∧ (domainSt State.reset f).xlRoot = 0 ∧ (domainSt State.reset f).evqTail = 0)

/-! ### S: arithmetic, predicates, control -/

/-- The three-register arithmetic of S, NOP and SEL: each retires at the next PC with its result in d (a write of s0 is ignored) and changes
nothing else: addition and subtraction modulo 2^64, bitwise operations, shifts by bits [5:0] of s[b], the low product, bits [127:64] of the
signed and of the unsigned product, signed and unsigned minimum and maximum, and selection by a predicate. -/
def Obligations.AluResults : Prop :=
  ∀ (s : State) (k : Nat) (j : Job) (d a b : BitVec 6) (p : BitVec 3), SReady s k j sAny [d, a, b] →
    Writes (.add d a b) s k j d (j.s a + j.s b) ∧
    Writes (.sub d a b) s k j d (j.s a - j.s b) ∧
    Writes (.and d a b) s k j d (j.s a &&& j.s b) ∧
    Writes (.or d a b) s k j d (j.s a ||| j.s b) ∧
    Writes (.xor d a b) s k j d (j.s a ^^^ j.s b) ∧
    Writes (.shl d a b) s k j d (j.s a <<< ((j.s b).toNat % 64)) ∧
    Writes (.shr d a b) s k j d (j.s a >>> ((j.s b).toNat % 64)) ∧
    Writes (.sra d a b) s k j d ((j.s a).sshiftRight ((j.s b).toNat % 64)) ∧
    Writes (.mul d a b) s k j d (j.s a * j.s b) ∧
    Writes (.mulh d a b) s k j d (((j.s a).signExtend 128 * (j.s b).signExtend 128).extractLsb' 64 64) ∧
    Writes (.mulhu d a b) s k j d (((j.s a).setWidth 128 * (j.s b).setWidth 128).extractLsb' 64 64) ∧
    Writes (.min d a b) s k j d (if (j.s a).toInt < (j.s b).toInt then j.s a else j.s b) ∧
    Writes (.max d a b) s k j d (if (j.s a).toInt < (j.s b).toInt then j.s b else j.s a) ∧
    Writes (.minu d a b) s k j d (if (j.s a).toNat < (j.s b).toNat then j.s a else j.s b) ∧
    Writes (.maxu d a b) s k j d (if (j.s a).toNat < (j.s b).toNat then j.s b else j.s a) ∧
    Writes (.sel d a b p) s k j d (if j.p p then j.s a else j.s b) ∧
    (j.level = .job → Runs .nop s (retired s k j j.next))

/-- Division: DIV and REM truncate toward zero, DIVU and REMU are unsigned; a zero divisor gives all ones as quotient and the dividend as
remainder, sets the sticky flag DZ, and the instruction completes; the most negative number divided by −1 is itself, remainder 0; otherwise
the dividend is quotient times divisor plus remainder, which has the dividend's sign. -/
def Obligations.DivisionResults : Prop :=
  ∀ (s : State) (k : Nat) (j : Job) (d a b : BitVec 6), SReady s k j sAny [d, a, b] →
    (j.s b ≠ 0 →
      Writes (.div d a b) s k j d ((j.s a).sdiv (j.s b)) ∧ Writes (.divu d a b) s k j d (j.s a / j.s b) ∧
      Writes (.rem d a b) s k j d ((j.s a).srem (j.s b)) ∧ Writes (.remu d a b) s k j d (j.s a % j.s b)) ∧
    (j.s b = 0 →
      Runs (.div d a b) s (retired s k j ((j.setS d (BitVec.allOnes 64)).orFlags flagDZ).next) ∧
      Runs (.divu d a b) s (retired s k j ((j.setS d (BitVec.allOnes 64)).orFlags flagDZ).next) ∧
      Runs (.rem d a b) s (retired s k j ((j.setS d (j.s a)).orFlags flagDZ).next) ∧
      Runs (.remu d a b) s (retired s k j ((j.setS d (j.s a)).orFlags flagDZ).next)) ∧
    (j.s a = BitVec.intMin 64 → j.s b = BitVec.allOnes 64 →
      Writes (.div d a b) s k j d (BitVec.intMin 64) ∧ Writes (.rem d a b) s k j d 0) ∧
    (j.s b ≠ 0 → j.s a = (j.s a).sdiv (j.s b) * j.s b + (j.s a).srem (j.s b) ∧ j.s a = j.s a / j.s b * j.s b + j.s a % j.s b ∧
      ((j.s a).srem (j.s b) = 0 ∨ (((j.s a).srem (j.s b)).msb = (j.s a).msb)))

/-- CLZ writes the number of leading zero bits, which is 64 for zero; POPC the number of one bits. -/
def Obligations.BitCounts : Prop :=
  ∀ (s : State) (k : Nat) (j : Job) (d a : BitVec 6), SReady s k j sAny [d, a] →
    (∃ n : Nat, n ≤ 64 ∧ (∀ i, 64 - n ≤ i → i < 64 → (j.s a).getLsbD i = false) ∧ (n < 64 → (j.s a).getLsbD (63 - n) = true) ∧
      Writes (.clz d a) s k j d (BitVec.ofNat 64 n)) ∧
    Writes (.popc d a) s k j d (BitVec.ofNat 64 ((List.range 64).countP (fun i => (j.s a).getLsbD i)))

/-- Immediate operations and constants: imm14 and imm20 are sign-extended, shift amounts are six bits, SHIN shifts the old value of d up by
twenty bits and enters the immediate. -/
def Obligations.ImmediateResults : Prop :=
  ∀ (s : State) (k : Nat) (j : Job) (d a n : BitVec 6) (i : BitVec 14) (c : BitVec 20), SReady s k j sAny [d, a] →
    Writes (.addi d a i) s k j d (j.s a + i.signExtend 64) ∧
    Writes (.andi d a i) s k j d (j.s a &&& i.signExtend 64) ∧
    Writes (.ori d a i) s k j d (j.s a ||| i.signExtend 64) ∧
    Writes (.xori d a i) s k j d (j.s a ^^^ i.signExtend 64) ∧
    Writes (.shli d a n) s k j d (j.s a <<< n.toNat) ∧
    Writes (.shri d a n) s k j d (j.s a >>> n.toNat) ∧
    Writes (.srai d a n) s k j d ((j.s a).sshiftRight n.toNat) ∧
    Writes (.movi d c) s k j d (c.signExtend 64) ∧
    Writes (.shin d c) s k j d ((j.s d <<< (20 : Nat)) ||| c.setWidth 64)

/-- Compares and predicate logic: CMP and CMPI write the outcome of their condition (EQ, NE, LT, LTU, GE, GEU) to a predicate, PAND, POR, PXOR
and PNOT theirs; a write of p0 is ignored, and nothing else changes. -/
def Obligations.PredicateResults : Prop :=
  ∀ (s : State) (k : Nat) (j : Job) (p q r : BitVec 3) (a b : BitVec 6) (i : BitVec 14), SReady s k j sAny [a, b] →
    WritesP (.cmp p 0 a b) s k j p (j.s a == j.s b) ∧
    WritesP (.cmp p 1 a b) s k j p (j.s a != j.s b) ∧
    WritesP (.cmp p 2 a b) s k j p (decide ((j.s a).toInt < (j.s b).toInt)) ∧
    WritesP (.cmp p 3 a b) s k j p (decide ((j.s a).toNat < (j.s b).toNat)) ∧
    WritesP (.cmp p 4 a b) s k j p (decide ((j.s b).toInt ≤ (j.s a).toInt)) ∧
    WritesP (.cmp p 5 a b) s k j p (decide ((j.s b).toNat ≤ (j.s a).toNat)) ∧
    WritesP (.cmpi p 0 a i) s k j p (j.s a == i.signExtend 64) ∧
    WritesP (.cmpi p 1 a i) s k j p (j.s a != i.signExtend 64) ∧
    WritesP (.cmpi p 2 a i) s k j p (decide ((j.s a).toInt < (i.signExtend 64).toInt)) ∧
    WritesP (.cmpi p 3 a i) s k j p (decide ((j.s a).toNat < (i.signExtend 64).toNat)) ∧
    WritesP (.cmpi p 4 a i) s k j p (decide ((i.signExtend 64).toInt ≤ (j.s a).toInt)) ∧
    WritesP (.cmpi p 5 a i) s k j p (decide ((i.signExtend 64).toNat ≤ (j.s a).toNat)) ∧
    WritesP (.pand p q r) s k j p (j.p q && j.p r) ∧
    WritesP (.por p q r) s k j p (j.p q || j.p r) ∧
    WritesP (.pxor p q r) s k j p (j.p q ^^ j.p r) ∧
    WritesP (.pnot p q) s k j p (!j.p q)

/-- Control transfers, with their words: B goes to PC + 4 × off22 when its predicate, or its complement, holds, else to the next word; JMP and CALL go to PC + 4
× off26, CALL with the address of the next word in s63; JR goes to s[a] when that is a multiple of 4, and raises trap 0x03 with the target
in TRAPV otherwise. -/
def Obligations.ControlTransfers : Prop :=
  (∀ (p : BitVec 3) (n : BitVec 1) (o : BitVec 22) (f : BitVec 26) (a : BitVec 6) (t : Nat),
    decode .S (0x10 * 2 ^ 26 + p.toNat * 2 ^ 23 + n.toNat * 2 ^ 22 + o.toNat) t = .ok (.b p n o) ∧
    decode .S (0x11 * 2 ^ 26 + f.toNat) t = .ok (.jmp f) ∧ decode .S (0x12 * 2 ^ 26 + f.toNat) t = .ok (.call f) ∧
    decode .S (0x13 * 2 ^ 26 + a.toNat * 2 ^ 14) t = .ok (.jr a)) ∧
  ∀ (s : State) (k : Nat) (j : Job) (p : BitVec 3) (n : BitVec 1) (o : BitVec 22) (f : BitVec 26) (a : BitVec 6), SReady s k j sAny [a] →
    ((j.p p ^^ (n == 1)) = true → Jumps (.b p n o) s k j j (j.pc + o.signExtend 64 * 4)) ∧
    ((j.p p ^^ (n == 1)) = false → Runs (.b p n o) s (retired s k j j.next)) ∧
    Jumps (.jmp f) s k j j (j.pc + f.signExtend 64 * 4) ∧
    Jumps (.call f) s k j (j.setS 63 (j.pc + 4)) (j.pc + f.signExtend 64 * 4) ∧
    ((j.s a).toNat % 4 = 0 → Jumps (.jr a) s k j j (j.s a)) ∧
    ((j.s a).toNat % 4 ≠ 0 → Runs (.jr a) s (takeTrap s k .S 0x03 (j.s a).toNat))

/-- The frame of S arithmetic: when one of its 31 instructions that compute from registers retires, the destination is the only register that may change, no predicate
changes, only a division may change a flag, and that only DZ; every other part of the job, every other job and, with tracing off, all the
rest of the state, memory included, is as before. -/
def Obligations.ArithmeticFrame : Prop :=
  ∀ (i : Instr) (d : BitVec 6) (rest : List (BitVec 6)) (s t : State) (k : Nat) (j : Job),
    aluRegs i = some (d :: rest) → SReady s k j sAny (d :: rest) → j.pend = .none → TraceOff s j.fdom → exec i s = .next t →
    ∃ j', jobAt t k = some j' ∧ (∀ r, r ≠ d → j'.s r = j.s r) ∧ (∀ p, j'.p p = j.p p) ∧ j'.pc = j.pc + 4 ∧
      j'.core.S.seq = j.core.S.seq + 1 ∧
      (isDivision i = false → j'.core.flags = j.core.flags) ∧ (j'.core.flags = j.core.flags ∨ j'.core.flags = j.core.flags ||| flagDZ) ∧
      { j' with core := { j'.core with S := j.core.S, flags := j.core.flags } } = j ∧
      (∀ k', k' ≠ k → jobAt t k' = jobAt s k') ∧ { t with jobs := s.jobs } = s

/-- s0 reads as zero and p0 as true in every job, and an instruction that names s0 as destination retires without changing a register. -/
def Obligations.HardwiredZeroAndTrue : Prop :=
  (∀ j : Job, j.s 0 = 0 ∧ j.p 0 = true) ∧
  ∀ (s : State) (k : Nat) (j : Job) (a b : BitVec 6) (i : BitVec 14), SReady s k j sAny [0, a, b] →
    Runs (.add 0 a b) s (retired s k j j.next) ∧ Runs (.cmp 0 0 a b) s (retired s k j j.next) ∧ Runs (.addi 0 a i) s (retired s k j j.next)

/-- An S instruction that names a register the header does not declare raises trap 0x02 with the register's number in TRAPV and has no
other effect of its own; a handler may name every register. -/
def Obligations.UndeclaredRegisterTraps : Prop :=
  ∀ (s : State) (k : Nat) (j : Job) (d a b : BitVec 6), Turn s k j → j.level = .job →
    (j.sOk d = false → Runs (.add d a b) s (takeTrap s k .S 0x02 d.toNat)) ∧
    (j.sOk d = true → j.sOk a = false → Runs (.add d a b) s (takeTrap s k .S 0x02 a.toNat)) ∧
    (j.sOk d = true → j.sOk a = true → j.sOk b = false → Runs (.add d a b) s (takeTrap s k .S 0x02 b.toNat)) ∧
    (j.sOk d = (d == 63 || decide (d.toNat < j.nSreg)))

/-! ### S: spill store, queues, memory -/

/-- SPL reads a spill slot, SPS writes one and leaves every other slot alone; a slot beyond the header raises trap 0x02. -/
def Obligations.SpillStore : Prop :=
  ∀ (s : State) (k : Nat) (j : Job) (d : BitVec 6) (n : BitVec 9),
    (SReady s k j sReg [d] → n.toNat < j.nSpill → Writes (.spl d n) s k j d (smGetD j.core.spill n.toNat 0)) ∧
    (SReady s k j sJob [d] → n.toNat < j.nSpill →
      ∃ t j', Runs (.sps d n) s t ∧ jobAt t k = some j' ∧ j'.pc = j.pc + 4 ∧ j'.core.S.seq = j.core.S.seq + 1 ∧
        (∀ m, smGetD j'.core.spill m 0 = if m = n.toNat then j.s d else smGetD j.core.spill m 0) ∧ (∀ r, j'.s r = j.s r)) ∧
    (SReady s k j sReg [d] → j.nSpill ≤ n.toNat → Runs (.spl d n) s (takeTrap s k .S 0x02 n.toNat)) ∧
    (SReady s k j sJob [d] → j.nSpill ≤ n.toNat → Runs (.sps d n) s (takeTrap s k .S 0x02 n.toNat))

/-- Queues of S: QPUSH appends s[a] to a queue that S fills and that has room, and waits without effect while it is full; QPOP takes the
oldest entry of a queue that S empties, q15's status buffer then moving up, and waits while there is none; QCNT writes the occupancy; a
queue of the other direction raises trap 0x0A, one not in QMAP trap 0x02. Here outside a replay and with tracing off. -/
def Obligations.QueueInstructions : Prop :=
  ∀ (s : State) (k : Nat) (j : Job) (r q : BitVec 6), SReady s k j sJob [r] → TraceOff s j.fdom → j.replay = none →
    (q.toNat < 12 → j.qmap q.toNat = true → j.qFull q.toNat = false →
      Runs (.qpush r q) s (retired s k j ((j.qPush q.toNat (j.s r)).tellQ q.toNat j.sKnow).next) ∧
      ((j.qPush q.toNat (j.s r)).tellQ q.toNat j.sKnow).queue q.toNat = j.queue q.toNat ++ [j.s r]) ∧
    (q.toNat < 12 → j.qmap q.toNat = true → j.qFull q.toNat = true → Runs (.qpush r q) s s) ∧
    (∀ v l, 12 ≤ q.toNat → q.toNat < 15 → j.qmap q.toNat = true → j.queue q.toNat = v :: l →
      Runs (.qpop r q) s (retired s k j (((j.popShows q.toNat).qPop q.toNat).setS r v).next) ∧
      ((j.popShows q.toNat).qPop q.toNat).queue q.toNat = l) ∧
    (∀ v l, q = 15 → j.qmap 15 = true → j.queue 15 = v :: l →
      Runs (.qpop r q) s (retired s k j (((j.popShows 15).qPop 15).statusFreed.drainStatus.setS r v).next) ∧
      ((j.popShows 15).qPop 15).queue 15 = l) ∧
    (12 ≤ q.toNat → q.toNat < 16 → j.qmap q.toNat = true → j.queue q.toNat = [] → Runs (.qpop r q) s s) ∧
    (q.toNat < 16 → j.qmap q.toNat = true → Writes (.qcnt r q) s k j r (BitVec.ofNat 64 (j.queue q.toNat).length)) ∧
    (12 ≤ q.toNat → q.toNat < 16 → Runs (.qpush r q) s (takeTrap s k .S 0x0A q.toNat)) ∧
    (q.toNat < 12 → Runs (.qpop r q) s (takeTrap s k .S 0x0A q.toNat)) ∧
    (q.toNat < 12 → j.qmap q.toNat = false → Runs (.qpush r q) s (takeTrap s k .S 0x02 q.toNat)) ∧
    (12 ≤ q.toNat → q.toNat < 16 → j.qmap q.toNat = false → Runs (.qpop r q) s (takeTrap s k .S 0x02 q.toNat)) ∧
    (j.qmap q.toNat = false → Runs (.qcnt r q) s (takeTrap s k .S 0x02 q.toNat))

/-- Loads: an LD that passes its checks and reaches memory outside a region retires at the next PC with the loaded value, narrowed to its width
and sign- or zero-extended, in d, and no other register changed; LDA does the same as a strong load at its scope, zero-extended. When the
die holds a permission for the line and no near-memory job has replaced the bytes, the value is the little-endian number of the coherent
bytes. A failed check is a trap with its cause and address, and nothing of the load happens. -/
def Obligations.Loads : Prop :=
  ∀ (s : State) (k : Nat) (j : Job) (d a : BitVec 6) (w : BitVec 2) (kk x : BitVec 1) (sc : BitVec 3) (o : BitVec 10) (o' : BitVec 9) (pa : Nat),
    (SReady s k j sAny [d, a] → SPlain s k j ⟨widthBytes w, .read, true, kk == 0⟩ (effAddr j a o (widthBytes w)) pa →
      ∃ t j', Runs (.ld d a w kk x o) s t ∧
        SDone t k j (j.setS d (extend (loaded s k j 3 pa (widthBytes w)) (widthBytes w) (x == 1))).next j') ∧
    (SReady s k j sHnd [d, a] → SPlain s k j ⟨widthBytes w, .read, true, false⟩ (effAddr j a o' (widthBytes w)) pa →
      ∃ t j', Runs (.lda d a w sc o') s t ∧
        SDone t k j (j.setS d (extend (loaded s k j sc.toNat pa (widthBytes w)) (widthBytes w) false)).next j') ∧
    (dirHas s (jDie k) (lineOf pa) = true → (∀ i, i < widthBytes w → smGet s.M.nmOld (pa + i) = none) →
      loaded s k j sc.toNat pa (widthBytes w) = leNat (cBytes s pa (widthBytes w))) ∧
    (SReady s k j sAny [d, a] → ∀ c v, sCheck s k j ⟨widthBytes w, .read, true, kk == 0⟩ (effAddr j a o (widthBytes w)) = .trap c v →
      Runs (.ld d a w kk x o) s (takeTrap s k .S c v)) ∧
    (SReady s k j sHnd [d, a] → ∀ c v, sCheck s k j ⟨widthBytes w, .read, true, false⟩ (effAddr j a o' (widthBytes w)) = .trap c v →
      Runs (.lda d a w sc o') s (takeTrap s k .S c v))

/-- Stores: an ST that passes its checks and reaches memory outside a region retires at the next PC with no register changed; when the die owns
the line and tracing is off, the bytes of s[d] at the physical address are stored, little-endian, and every other byte of memory reads as
before. STL, once the job's throws have landed, publishes at its scope what its core and the instances around it hold, then does the same
at that scope, where the stored bytes read back, and leaves a release of at least that scope at the location; at device scope they are the
coherent bytes. A failed check is a trap, and nothing of the store happens. -/
def Obligations.Stores : Prop :=
  ∀ (s : State) (k : Nat) (j : Job) (d a : BitVec 6) (w : BitVec 2) (kk : BitVec 1) (o : BitVec 10) (pa : Nat),
    (SReady s k j sAny [d, a] → SPlain s k j ⟨widthBytes w, .write, true, kk == 0⟩ (effAddr j a o (widthBytes w)) pa →
      ∃ t j', Runs (.st d a w kk o) s t ∧ SDone t k j j.next j' ∧
        (dirOwned s (jDie k) (lineOf pa) = true → TraceOff s j.fdom → Stored s t pa (natLe (widthBytes w) (j.s d).toNat))) ∧
    (SReady s k j sAny [d, a] → ∀ c v, sCheck s k j ⟨widthBytes w, .write, true, kk == 0⟩ (effAddr j a o (widthBytes w)) = .trap c v →
      Runs (.st d a w kk o) s (takeTrap s k .S c v)) ∧
    (∀ (sc : BitVec 3) (o' : BitVec 9), SReady s k j sHnd [d, a] → throwsDone s j.uid = true →
      (SPlain s k j ⟨widthBytes w, .write, true, false⟩ (effAddr j a o' (widthBytes w)) pa →
        let s' := publishOwn s (jCoreKey k) (effScope sc.toNat)
        LineClear s' (lineOf pa) →
        ∃ t j', Runs (.stl d a w sc o') s t ∧ SDone t k j j.next j' ∧
          (dirOwned s' (jDie k) (lineOf pa) = true → TraceOff s j.fdom →
            (∀ i, i < widthBytes w →
              (scopeRead t (jCoreKey k) (effScope sc.toNat) (lineOf pa) j.fdom).2.getD (pa % 64 + i) 0 = (natLe (widthBytes w) (j.s d).toNat).getD i 0) ∧
            (3 ≤ sc.toNat → Stored s' t pa (natLe (widthBytes w) (j.s d).toNat)) ∧
            (∀ b, b < pa ∨ pa + widthBytes w ≤ b → cByte t b = cByte s' b) ∧
            ∃ r ∈ t.M.rel, r.addr = pa ∧ r.len = widthBytes w ∧ r.core = jCoreKey k ∧ sc.toNat ≤ r.scope)) ∧
      ∀ c v, sCheck s k j ⟨widthBytes w, .write, true, false⟩ (effAddr j a o' (widthBytes w)) = .trap c v →
        Runs (.stl d a w sc o') s (takeTrap s k .S c v))

/-- The memory words of several beats, THROW and PREF retire at the next PC once their checks pass and their beats reach memory outside a
region: LDM with one 64-bit value per beat in d, d+1, …, STM with the registers' values stored, THROW with its value stored and the line on its
way to every core its mask names, PREF without any effect. With tracing off, LDM's values are the coherent bytes where the die holds the
lines and no near-memory job has replaced bytes, and STM and THROW store their bytes and no others where the die owns the lines. -/
def Obligations.MultiBeatAndStrongStores : Prop :=
  ∀ (s : State) (k : Nat) (j : Job) (d a b : BitVec 6) (w : BitVec 2) (n sc : BitVec 3) (o : BitVec 8) (o' : BitVec 9) (pa : Nat),
    let pas := (List.range (n.toNat + 1)).map (fun i => pa + 8 * i)
    (SReady s k j sAny (multiRegs d n ++ [a]) → multiDec d n j = none →
      SBeats s k j ⟨8, .read, true, true⟩ (beats (effAddr j a o 8) (n.toNat + 1)) pas →
      ∃ t j' vs, Runs (.ldm d a n o) s t ∧ vs.length = n.toNat + 1 ∧ SDone t k j (putAll j d vs).next j' ∧
        (TraceOff s j.fdom → (∀ p ∈ pas, dirHas s (jDie k) (lineOf p) = true ∧ ∀ i, i < 8 → smGet s.M.nmOld (p + i) = none) →
          vs = pas.map (fun p => leNat (cBytes s p 8)))) ∧
    (SReady s k j sAny (multiRegs d n ++ [a]) → multiDec d n j = none →
      SBeats s k j ⟨8, .write, true, true⟩ (beats (effAddr j a o 8) (n.toNat + 1)) pas →
      ∃ t j', Runs (.stm d a n o) s t ∧ SDone t k j j.next j' ∧
        (TraceOff s j.fdom → (∀ p ∈ pas, dirOwned s (jDie k) (lineOf p) = true) →
          Stored s t pa ((multiRegs d n).map (fun r => natLe 8 (j.s r).toNat)).flatten)) ∧
    (SReady s k j sJob [d, a, b] → SPlain s k j ⟨widthBytes w, .write, false, false⟩ (j.s a).toNat pa →
      ∃ t j', Runs (.throw d a b w sc) s t ∧ SDone t k j j.next j' ∧
        (∀ c ∈ throwTargets (jCoreKey k) sc.toNat (j.s b), (c, lineOf pa, j.uid) ∈ t.M.deliveries) ∧
        (dirOwned s (jDie k) (lineOf pa) = true → TraceOff s j.fdom → Stored s t pa (natLe (widthBytes w) (j.s d).toNat))) ∧
    (SReady s k j sJob [a] → Runs (.pref a sc o') s (retired s k j j.next))

/-- A misaligned access of an S load, store or memory wait raises trap 0x03 with its address in TRAPV before any other check, and nothing of the
instruction happens. -/
def Obligations.MisalignedAccessTraps : Prop :=
  ∀ (s : State) (k : Nat) (j : Job) (d a b : BitVec 6) (w : BitVec 2) (kk x : BitVec 1) (n sc : BitVec 3) (o : BitVec 10) (o' : BitVec 9) (o'' : BitVec 8),
    (SReady s k j sAny [d, a] → effAddr j a o (widthBytes w) % widthBytes w ≠ 0 →
      Runs (.ld d a w kk x o) s (takeTrap s k .S 0x03 (effAddr j a o (widthBytes w))) ∧
      Runs (.st d a w kk o) s (takeTrap s k .S 0x03 (effAddr j a o (widthBytes w)))) ∧
    (SReady s k j sHnd [d, a] → effAddr j a o' (widthBytes w) % widthBytes w ≠ 0 →
      Runs (.lda d a w sc o') s (takeTrap s k .S 0x03 (effAddr j a o' (widthBytes w))) ∧
      (throwsDone s j.uid = true → Runs (.stl d a w sc o') s (takeTrap s k .S 0x03 (effAddr j a o' (widthBytes w))))) ∧
    (SReady s k j sAny (multiRegs d n ++ [a]) → multiDec d n j = none → effAddr j a o'' 8 % 8 ≠ 0 →
      Runs (.ldm d a n o'') s (takeTrap s k .S 0x03 (effAddr j a o'' 8)) ∧ Runs (.stm d a n o'') s (takeTrap s k .S 0x03 (effAddr j a o'' 8))) ∧
    (SReady s k j sJob [d, a, b] → (j.s a).toNat % widthBytes w ≠ 0 → Runs (.throw d a b w sc) s (takeTrap s k .S 0x03 (j.s a).toNat)) ∧
    (SReady s k j sJob [a, b] → (j.s a).toNat % 8 ≠ 0 →
      Runs (.waitMemeq a b sc) s (takeTrap s k .S 0x03 (j.s a).toNat) ∧ Runs (.waitMemge a b sc) s (takeTrap s k .S 0x03 (j.s a).toNat))

/-! ### S: synchronisation -/

/-- FENCE retires when no word of a from-side engine stream is in flight and, unless it is an acquire or S is not on its from side, the job's
throws have landed; else it waits for the throws, or for the words then in flight, and FENCE_RETIRE completes it once they have retired.
A fence that retires goes on at the next PC, publishes at its scope unless it is an acquire, and gives the to-side paths of its mask
the clock of the from-side paths. In a handler only masks of S alone run. -/
def Obligations.FencesRetire : Prop :=
  (∀ (s : State) (k : Nat) (j : Job) (sc : BitVec 3) (src dst : BitVec 8) (kind : BitVec 2),
    SReady s k j (if src ||| dst = 1 then sHnd else sJob) [] →
    let clk := fenceGather j (maskPaths src.toNat) kind.toNat sc.toNat (jCoreKey k)
    (src.getLsbD 0 = true → kind ≠ 1 → throwsDone s j.uid = false → Runs (.fence sc src dst kind) s s) ∧
    ((src.getLsbD 0 = true → kind ≠ 1 → throwsDone s j.uid = true) →
      (fenceNeed j src.toNat = [] → ∃ t, Runs (.fence sc src dst kind) s t ∧ Fenced s t k j clk sc.toNat dst.toNat kind.toNat) ∧
      (fenceNeed j src.toNat ≠ [] → Runs (.fence sc src dst kind) s
        (setJob s k { j with pend := .fence (fenceNeed j src.toNat) clk sc.toNat src.toNat dst.toNat kind.toNat })))) ∧
  (∀ (s : State) (k : Nat) (j : Job) (need : List (Nat × Nat)) (clk : SMap VC) (sc src dst kind : Nat), jobAt s k = some j →
    j.pend = .fence need clk sc src dst kind →
    (need = [] → j.core.S.seq < seqMax → ∃ t, Runs (.fenceRetire k) s t ∧ Fenced s t k j clk sc dst kind) ∧
    (need ≠ [] → Runs (.fenceRetire k) s s))

/-- What a fence orders: its clock covers everything that happened before the from-side accesses (for an acquire: before the loads), and
after it the clock with which a to-side path performs its later accesses covers everything that the fence's clock covers, for stores always
and for loads unless the fence is a release. -/
def Obligations.FenceOrdersPaths : Prop :=
  (∀ (j : Job) (ps : List Nat) (p kind sc core key t : Nat), p ∈ ps →
    (kind ≠ 1 → vcCovers (j.fromClk p).all key t = true →
      ∃ w, smGet (fenceGather j ps kind sc core) sc = some w ∧ vcCovers w key t = true) ∧
    (kind = 1 → vcCovers (j.fromClk p).ld key t = true →
      ∃ w, smGet (fenceGather j ps kind sc core) noLimit = some w ∧ vcCovers w key t = true)) ∧
  ∀ (j : Job) (p kind sc thr n key t e : Nat) (v : SMap VC) (w : VC), p < 7 → thr < n → smGet v e = some w → vcCovers w key t = true →
    vcCovers ((j.fenceTo p kind sc thr v).clkBefore p n false true) key t = true ∧
    (kind ≠ 2 → vcCovers ((j.fenceTo p kind sc thr v).clkBefore p n true false) key t = true)

/-- WAITs retire when their condition holds: WAIT.prod when every producer of the launch has triggered or ended, with an acquire of what each
released; WAIT.nm when the near-memory job of the handle is complete, with an acquire of it; WAIT.ingr when the expert's count is reached and
no slot below it is a hole; else they park the job, whose S slot passes on. WAIT.nm traps on a failed or foreign handle, WAIT.ingr on a
buffer that is not its own. WAIT_REEVALUATE lets a parked WAIT whose condition holds issue again, and leaves one whose condition does not hold. -/
def Obligations.WaitsRetireOrPark : Prop :=
  (∀ (s : State) (k : Nat) (j : Job) (a b : BitVec 6), SReady s k j sJob [a, b] → j.replay = none →
    let park := passSlot (setJob s k { j with pend := .parked }) k
    (∀ v, launchAt s j.launch = some v →
      (prodsDone s v = true → Runs .waitProd s (retired s k j (v.prods.foldl (fun (q : Job) p =>
        match findLaunch s p.leaf p.idx with
        | some e => q.clkJoin 0 (vcJoin e.2.vcTrig e.2.vcEnd)
        | none => q) j).next)) ∧
      (prodsDone s v = false → Runs .waitProd s park)) ∧
    ((nmStatus s j (j.s a).toNat).1 = 2 → Runs (.waitNm a) s (retired s k j (j.sawNm (nmStatus s j (j.s a).toNat).2).next)) ∧
    ((nmStatus s j (j.s a).toNat).1 < 2 → Runs (.waitNm a) s park) ∧
    (3 ≤ (nmStatus s j (j.s a).toNat).1 → (nmStatus s j (j.s a).toNat).1 ≤ 4 → Runs (.waitNm a) s (takeTrap s k .S 0x11 (j.s a).toNat)) ∧
    (∀ g e, ingrGroup s k j (j.s a).toNat = some (g, e) →
      (ingrReady g e (j.s b).toNat = true → Runs (.waitIngr a b) s (retired s k j j.next)) ∧
      (ingrReady g e (j.s b).toNat = false → Runs (.waitIngr a b) s park)) ∧
    (ingrGroup s k j (j.s a).toNat = none → Runs (.waitIngr a b) s (takeTrap s k .S 0x12 (j.s a).toNat))) ∧
  ∀ (s : State) (k : Nat) (j : Job) (i : Instr), jobAt s k = some j → j.pend = .parked → nextWord s j .S = some i →
    (waitHolds s k j i = true → Runs (.waitReevaluate k) s (wakeSlot (setJob s k { j with pend := .none }) k)) ∧
    (waitHolds s k j i = false → Runs (.waitReevaluate k) s s)

/-- WAIT.memeq and WAIT.memge read 64 bits with a strong load at their scope, here from memory with nothing before the access, and retire at
the next PC when the value equals, or is not below, s[b]; else they park the job, whose S stays at the WAIT. -/
def Obligations.WaitsOnMemory : Prop :=
  ∀ (s : State) (k : Nat) (j : Job) (a b : BitVec 6) (sc : BitVec 3) (pa : Nat), SReady s k j sJob [a, b] →
    SPlain s k j ⟨8, .read, true, false⟩ (j.s a).toNat pa →
    let v := loaded s k j sc.toNat pa 8
    (v = (j.s b).toNat → ∃ t j', Runs (.waitMemeq a b sc) s t ∧ SDone t k j j.next j') ∧
    (v ≠ (j.s b).toNat → ∃ t j', Runs (.waitMemeq a b sc) s t ∧ jobAt t k = some j' ∧ j'.pend = .parked ∧ j'.core.S = j.core.S) ∧
    ((j.s b).toNat ≤ v → ∃ t j', Runs (.waitMemge a b sc) s t ∧ SDone t k j j.next j') ∧
    (v < (j.s b).toNat → ∃ t j', Runs (.waitMemge a b sc) s t ∧ jobAt t k = some j' ∧ j'.pend = .parked ∧ j'.core.S = j.core.S)

/-- TRIG waits for the job's throws; then it publishes at device scope, releases the S path's clock to the launch's triggers, and the job counts
as triggered, once however often it triggers. -/
def Obligations.TrigCountsOnce : Prop :=
  ∀ (s : State) (k : Nat) (j : Job) (v : Launch), SReady s k j sJob [] → j.replay = none → launchAt s j.launch = some v →
    (throwsDone s j.uid = false → Runs .trig s s) ∧
    (throwsDone s j.uid = true →
      let v' := { v with trig := if j.triggered then v.trig else v.trig + 1, vcTrig := vcJoin v.vcTrig (j.relClk 3) }
      Runs .trig s (retired (setLaunch (publishOwn s (jCoreKey k) 3) j.launch v') k j { j.next with triggered := true }))

/-- Join points: RDV, YIELD and HALT wait at issue until every stream of their mask waits at its EJOIN with all its words retired; then the
EJOINs and the join point retire together, at issue or by JOIN_COMPLETE; YIELD (here with no pre-emption to act on) ends the job's lease.
HALT, once no throw, no near-memory job and no scope copy of the job's instances is left, ends the job, at issue or by HALT_RETIRE, which
publishes the copies line by line before. RDV of an absent stream raises trap 0x02 with the absent mask. -/
def Obligations.JoinPoints : Prop :=
  (∀ (s : State) (k : Nat) (j : Job) (m : BitVec 3), SReady s k j sJob [] →
    (rdvDec m j = none → j.joined m.toNat = false → Runs (.rdv m) s (setJob s k { j with pend := .join m.toNat .rdv })) ∧
    (rdvDec m j = none → j.joined m.toNat = true → j.joinOver m.toNat = none → ∃ t j', Runs (.rdv m) s t ∧ JoinDone t k j m.toNat j') ∧
    (∀ v, rdvDec m j = some (0x02, v) → Runs (.rdv m) s (takeTrap s k .S 0x02 v)) ∧
    (j.joined j.presentMask = false →
      Runs .yield s (setJob s k { j with pend := .join j.presentMask .yield }) ∧ Runs .halt s (setJob s k { j with pend := .join j.presentMask .halt })) ∧
    (j.joined j.presentMask = true → j.joinOver j.presentMask = none →
      (j.preempt = none ∨ nodePreempt s j = false → ∃ t j', Runs .yield s t ∧ JoinDone t k j j.presentMask j' ∧ leaseOf t k = none) ∧
      (haltReady s j = true → haltCopies s k = [] → j.replay = none → ∃ t, Runs .halt s t ∧ HaltDone s t k j) ∧
      (haltReady s j = false ∨ haltCopies s k ≠ [] → Runs .halt s (setJob s k { j with pend := .join j.presentMask .halt })))) ∧
  ∀ (s : State) (k : Nat) (j : Job) (n : Nat), jobAt s k = some j → j.core.S.seq < seqMax →
    (j.pend = .join n .rdv →
      (j.joined n = true → j.joinOver n = none → ∃ t j', Runs (.joinComplete k) s t ∧ JoinDone t k j n j') ∧
      (j.joined n = false → Runs (.joinComplete k) s s)) ∧
    (j.pend = .join n .yield → n = j.presentMask → j.joined n = true → j.joinOver n = none → j.preempt = none ∨ nodePreempt s j = false →
      ∃ t j', Runs (.joinComplete k) s t ∧ JoinDone t k j n j' ∧ leaseOf t k = none) ∧
    (j.pend = .join n .halt →
      (haltReady s j = false → Runs (.haltRetire k) s s) ∧
      (haltReady s j = true → haltCopies s k ≠ [] → ∃ ln ∈ haltCopies s k,
        Runs (.haltRetire k) s (publishSel s (fun c => c.line == ln && c.inst == instNo c.level (jCoreKey k)) 3)) ∧
      (haltReady s j = true → haltCopies s k = [] → j.joinOver j.presentMask = none → j.replay = none →
        ∃ t, Runs (.haltRetire k) s t ∧ HaltDone s t k j))

/-- BARC publishes at cluster scope, arrives at its barrier and parks its job: the first arrival opens a generation of the launch's jobs in the
cluster, a participant arrives in it, another job waits for the next. BARRIER_COMPLETE, once every participant that is left has arrived,
lets the waiting jobs depart with an acquire of every arrival, and waits before that; a departed BARC retires at the next PC when its S has
the slot. An undeclared barrier raises trap 0x02. -/
def Obligations.BarrierArrivesAndCompletes : Prop :=
  (∀ (s : State) (k : Nat) (j : Job) (i : BitVec 4), SReady s k j sJob [] →
    (j.nBar ≤ i.toNat → Runs (.barc i) s (takeTrap s k .S 0x02 i.toNat)) ∧
    (i.toNat < j.nBar → j.replay = none → ∃ t, Runs (.barc i) s t ∧ jobAt t k = some { j with pend := .barc i.toNat } ∧
      match barrierAt s (jCluster k) j.launch i.toNat with
      | none => barrierAt t (jCluster k) j.launch i.toNat = some ⟨j.launch, i.toNat, launchJobs s (jCluster k) j.launch, [(j.uid, j.relClk 1)], []⟩
      | some b => barrierAt t (jCluster k) j.launch i.toNat = some (if b.parts.contains j.uid then { b with arrived := smSet b.arrived j.uid (j.relClk 1) }
          else { b with later := smSet b.later j.uid (j.relClk 1) }))) ∧
  (∀ (s : State) (cl launch id : Nat) (b : Barrier), barrierAt s cl launch id = some b →
    (b.parts.all (fun u => (smGet b.arrived u).isSome) = false → Runs (.barrierComplete cl launch id) s s) ∧
    (b.parts.all (fun u => (smGet b.arrived u).isSome) = true → ∃ t, Runs (.barrierComplete cl launch id) s t ∧
      (b.later = [] → barrierAt t cl launch id = none) ∧
      ∀ e ∈ b.arrived, ∀ k j n, slotOf s e.1 = some k → jobAt s k = some j → j.pend = .barc n →
        jobAt t k = some { j.clkJoin 0 b.vc with pend := .departed })) ∧
  ∀ (s s0 s2 : State) (k : Nat) (j : Job), takeAction s = (.run k .S, s0) → takeSlot { s0 with turnJob := k, turn := .S } k = some s2 →
    jobAt s0 k = some j → j.phase = .running → j.pend = .departed → j.replayPast .S = false →
    traceStall { s0 with turnJob := k, turn := .S } j .S = false → j.core.S.seq < seqMax → step s = .next (retired s2 k j j.next)

/-! ### S: slalom regions -/

/-- RBEG, once what its core's instances hold is published, opens a region at the die's copy of G, with no bound above, RSTAT active and the
abort handler at PC + 4 × off26; it waits while positions are to be rebased. RABT ends the region with the program's cause and goes to the
handler, no edge of it left; RBND reads the bounds; RCOM waits for the commit, or, its interval being empty, aborts with cause 1; outside a region RCOM
and RABT raise trap 0x10. -/
def Obligations.RegionInstructions : Prop :=
  ∀ (s : State) (k : Nat) (j : Job) (o : BitVec 26) (c : BitVec 8) (d : BitVec 6),
    (SReady s k j sJob [] → s.rebasing = false → rebaseDue s = false →
      ∃ t j' r, Runs (.rbeg o) s t ∧ jobAt t k = some j' ∧ j'.region = some r ∧ r.hpc = j.pc + o.signExtend 64 * 4 ∧
        r.reads = [] ∧ r.writes = [] ∧ r.store = [] ∧ r.regs = [] ∧ r.succ = [] ∧ r.pred = [] ∧ r.frozen = none ∧
        r.lo = (dieSt s (jDie k)).g.toNat ∧ r.hi = 2 ^ 48 - 1 ∧
        j'.core.rlo = (dieSt s (jDie k)).g ∧ j'.core.rhi = BitVec.allOnes 48 ∧ j'.core.rstat = 8 ∧
        SDone t k j j.next j') ∧
    (SReady s k j sJob [] → s.rebasing = true ∨ rebaseDue s = true → Runs (.rbeg o) s s) ∧
    (SReady s k j sReg [] → ∀ r, j.region = some r →
      ∃ t j', Runs (.rabt c) s t ∧ jobAt t k = some j' ∧ j'.region = none ∧ j'.pc = r.hpc ∧
        j'.core.rstat = BitVec.ofNat 64 (c.toNat * 256 + 4) ∧ j'.core.S.seq = j.core.S.seq + 1 ∧ (∀ x, j'.s x = j.s x) ∧
        ∀ k' q r', k' ≠ k → jobAt t k' = some q → q.region = some r' → k ∉ r'.succ ∧ k ∉ r'.pred) ∧
    (SReady s k j sReg [d] → Writes (.rbndLo d) s k j d (j.core.rlo.setWidth 64) ∧ Writes (.rbndHi d) s k j d (j.core.rhi.setWidth 64)) ∧
    (SReady s k j sReg [d] → ∀ r, j.region = some r → j.core.rlo.toNat ≤ r.lo → r.hi ≤ j.core.rhi.toNat → r.lo < 2 ^ 48 → r.hi < 2 ^ 48 →
      (r.lo ≤ r.hi → ∃ t j', Runs (.rcom d) s t ∧ jobAt t k = some j' ∧ j'.pend = .commit d ∧ j'.core.S = j.core.S ∧ j'.region = some r) ∧
      (r.hi < r.lo → ∃ t j', Runs (.rcom d) s t ∧ jobAt t k = some j' ∧ j'.pend = .none ∧ j'.region = none ∧ j'.pc = r.hpc ∧
        j'.core.rstat = rstatAbort j.core.rstat 1)) ∧
    (SReady s k j sReg [d] → j.region = none →
      Runs (.rcom d) s (takeTrap s k .S 0x10 0) ∧ Runs (.rabt c) s (takeTrap s k .S 0x10 0))

/-- REGION_COMMIT carries a waiting RCOM on: with every line of the write set gathered it freezes the region at its lower bound, and the lines
it wrote and read take that position; then it publishes: RPOS and d take the position, RSTAT clears, the region ends, RCOM retires, the
package's position passes it. With tracing off and the written lines owned, every byte the region stored appears, and no other byte of memory changes. -/
def Obligations.RegionCommitsAtLowerBound : Prop :=
  ∀ (s : State) (k : Nat) (j : Job) (r : Region) (d : BitVec 6), jobAt s k = some j → j.region = some r → j.pend = .commit d → j.replay = none →
    (r.frozen = none → allGathered s k r = true → j.core.rlo.toNat ≤ r.lo → r.hi ≤ j.core.rhi.toNat → r.lo ≤ r.hi → r.hi < 2 ^ 48 →
      ∃ t j', Runs (.regionCommit k) s t ∧ jobAt t k = some j' ∧ j'.region = some { r with frozen := some r.lo } ∧ j'.pend = .commit d ∧
        (∀ l ∈ r.writes, r.lo ≤ (lineRec t l).1) ∧ ∀ l ∈ r.reads, r.lo ≤ (lineRec t l).2) ∧
    (∀ p, r.frozen = some p → k ∉ r.succ → k ∉ r.pred → r.regs = [] → j.core.S.seq < seqMax →
      ∃ t j', Runs (.regionCommit k) s t ∧ jobAt t k = some j' ∧ j'.region = none ∧ j'.pend = .none ∧ j'.core.rpos = BitVec.ofNat 48 p ∧
        j'.core.rstat = 0 ∧ (d ≠ 0 → j'.s d = BitVec.ofNat 64 p) ∧ (∀ x, x ≠ d → j'.s x = j.s x) ∧ j'.pc = j.pc + 4 ∧
        j'.core.S.seq = j.core.S.seq + 1 ∧ (p + 1 < 2 ^ 48 → p < t.gpos.toNat) ∧
        (TraceOff s j.fdom → (∀ l ∈ r.writes, dirOwned s (jDie k) l = true) → (∀ c ∈ r.store, lineOf c.1 ∈ r.writes) → smSorted none r.store = true →
          ∀ a, cByte t a = (smGet r.store a).getD (cByte s a)))

/-! ### S: near-memory work, launches, system -/

/-- NMGO reads a 128-byte record, queues it at its unit's die as a job of its own with a fresh handle, which it writes to d, and reserves the
status place of a job that notifies; a record that breaks a rule raises trap 0x11. NMWT writes the status of a handle. SPAWN publishes,
reads its record and appends it to the leaf, whose new launch is read at once, and writes status 0; a leaf it may not append to gives
status 1. WGEN writes the generation that its launch has recorded for the entry, or takes and records the usable current one. Records of
NMGO, SPAWN and WGEN that are misaligned raise trap 0x03. Here outside a replay and with tracing off. -/
def Obligations.NearMemoryAndLaunchWords : Prop :=
  ∀ (s : State) (k : Nat) (j : Job) (d a b : BitVec 6), j.replay = none → TraceOff s j.fdom →
    (∀ pas, SReady s k j sJob [d, a] → (j.s a).toNat % 128 = 0 → SBeats s k j ⟨8, .read, false, false⟩ (recordBeats (j.s a).toNat) pas → Held s k pas →
      let w := wordsAt s pas
      let n := nestOf w
      (nestOk s j.spad w = true → (n.notify = true → j.qmap 15 = true ∧ j.statusTaken < 72) → (mdieSt s n.mdie).queue.length < 64 →
        let h := n.mdie * 2 ^ 44 + ((mdieSt s n.mdie).serial + 1)
        ∃ t j' e, Runs (.nmgo d a) s t ∧ SDone t k j (j.setS d (BitVec.ofNat 64 h)).next j' ∧ j'.nmHandles = j.nmHandles ++ [h] ∧
          (mdieSt t n.mdie).queue = (mdieSt s n.mdie).queue ++ [e] ∧ e.handle = h ∧ e.uid = j.uid ∧ e.fdom = j.fdom ∧ e.unit = none ∧
          e.words = w.map (BitVec.ofNat 64) ∧ j'.core.Q.sbres = j.core.Q.sbres + (if n.notify then 1 else 0)) ∧
      (nestOk s j.spad w = false → Runs (.nmgo d a) s (takeTrap s k .S 0x11 (j.s a).toNat))) ∧
    (SReady s k j sJob [d, a] → ∃ t j', Runs (.nmwt d a) s t ∧ SDone t k j (j.setS d (BitVec.ofNat 64 (nmStatus s j (j.s a).toNat).1)).next j') ∧
    (∀ s' l w, SReady s k j sJob [d, a, b] → (j.s a).toNat % 128 = 0 → (j.s b).toNat % 128 = 0 → throwsDone s j.uid = true →
      sCheckAll s k j ⟨8, .read, false, false⟩ (recordBeats (j.s b).toNat) = .ok l →
      sLoads (publishOwn s (jCoreKey k) 3) k 8 3 false l = .ok s' w →
      let q := curJob s' k j
      ∀ v, launchAt s' q.launch = some v →
        (SpawnOk s' v (j.s a).toNat w (q.stallAt .S == some 0) →
          let t := tailRead (appended s' (j.s a).toNat w) (j.s a).toNat (q.relClk 3)
          Runs (.spawn d a b) s (retired t k j (((curJob t k q).setS d 0).next.stallEnd .S))) ∧
        (leafOk s' (j.s a).toNat = false ∨ bitOf (recWord s' (j.s a).toNat 0) 61 = false →
          Runs (.spawn d a b) s (retired s' k j (((curJob s' k q).setS d 1).next.stallEnd .S)))) ∧
    (∀ pa v, SReady s k j sJob [d, a] → (j.s a).toNat % 64 = 0 → sCheck s k j ⟨8, .read, false, false⟩ (j.s a).toNat = .ok pa →
      weightMoves s j.fdom (j.s a).toNat = false → launchAt s j.launch = some v →
      (∀ g, v.wgens.find? (fun e => e.1 == (j.s a).toNat) = some g →
        Runs (.wgen d a) s (retired s k j ((j.setS d (BitVec.ofNat 64 g.2)).next.stallEnd .S))) ∧
      (v.wgens.find? (fun e => e.1 == (j.s a).toNat) = none → LineClear s (lineOf pa) →
        let m := memLoad s ⟨k, 0, 1⟩ 3 pa 8 false
        let s' := setJob m.1 k ((curJob m.1 k j).acquire 0 3 (jCoreKey k) (relSeen s (jCoreKey k) 3 pa 8))
        let g := wtCur s' j.fdom (j.s a).toNat
        entryOk s' j.fdom (j.s a).toNat = true → v.wgens.length < 16 → genUsable s' j.fdom (j.s a).toNat g = true →
        ∃ t j', Runs (.wgen d a) s t ∧ SDone t k j (j.setS d (BitVec.ofNat 64 g)).next j' ∧
          launchAt t j.launch = some { v with wgens := v.wgens ++ [((j.s a).toNat, g)] })) ∧
    (SReady s k j sJob [d, a, b] → ((j.s a).toNat % 128 ≠ 0 → Runs (.nmgo d a) s (takeTrap s k .S 0x03 (j.s a).toNat)) ∧
      ((j.s a).toNat % 128 ≠ 0 → Runs (.spawn d a b) s (takeTrap s k .S 0x03 (j.s a).toNat)) ∧
      ((j.s a).toNat % 64 ≠ 0 → Runs (.wgen d a) s (takeTrap s k .S 0x03 (j.s a).toNat)))

/-- CSRR writes the control and status register to d, here with tracing off; CSRW writes one, of the job or shared; a write of a read-only
register, or at job level of one that only a handler writes, raises trap 0x06 with the address in TRAPV, and at job level a LEASEB value of
0 or beyond the header's bound trap 0x02. -/
def Obligations.ControlRegisters : Prop :=
  ∀ (s : State) (k : Nat) (j : Job) (d a : BitVec 6) (c : BitVec 12),
    (SReady s k j sAny [d] → TraceOff s j.fdom → j.replay = none → Writes (.csrr d c) s k j d (BitVec.ofNat 64 (csrRead s k j c.toNat))) ∧
    (SReady s k j sHnd [a] → csrRo c.toNat = false → (csrH c.toNat = true → j.level = .handler) →
      (c.toNat = 0x070 → j.level = .job → j.s a ≠ 0 ∧ (j.s a).toNat ≤ j.leaseMax) →
      Runs (.csrw a c) s (retired (csrShared s k j c.toNat (j.s a)) k j (csrJob j c.toNat (j.s a)).next)) ∧
    (SReady s k j sHnd [a] → csrRo c.toNat = true ∨ (csrH c.toNat = true ∧ j.level = .job) →
      Runs (.csrw a c) s (takeTrap s k .S 0x06 c.toNat)) ∧
    (SReady s k j sHnd [a] → j.level = .job → j.s a = 0 ∨ j.leaseMax < (j.s a).toNat →
      Runs (.csrw a 0x070) s (takeTrap s k .S 0x02 (j.s a).toNat)) ∧
    csrRead s k j 0x000 = jobid k j ∧ csrRead s k j 0x010 = cycleOf s k ∧ csrRead s k j 0x011 = s.time ∧
    csrRead s k j 0x020 = j.core.S.seq ∧ csrRead s k j 0x030 = j.core.flags.toNat ∧
    (∀ v, (csrJob j 0x030 v).core.flags = v.setWidth 9 ∧ (csrJob j 0x031 v).core.elog = j.core.elog.drop 1 ∧
      (csrJob j 0x070 v).core.leaseb = v.toNat % 256 ∧ (coreSt (csrShared s k j 0x060 v) (jCoreKey k)).catchq = Nat.min v.toNat 64)

/-- TRAP at job level, whatever its value, is trap 0x0D with the value in TRAPV; so is every firmware service of the table. ERET at job level
is trap 0x06. -/
def Obligations.TrapsAtJobLevel : Prop :=
  ∀ (s : State) (k : Nat) (j : Job) (i : BitVec 20), SReady s k j sHnd [] → j.level = .job →
    Runs (.trap i) s (takeTrap s k .S 0x0D i.toNat) ∧
    Runs .openRange s (takeTrap s k .S 0x0D 0x100) ∧ Runs .closeRange s (takeTrap s k .S 0x0D 0x101) ∧
    Runs .registerBufferGroup s (takeTrap s k .S 0x0D 0x200) ∧ Runs .resetBufferGroup s (takeTrap s k .S 0x0D 0x201) ∧
    Runs .releaseBufferGroup s (takeTrap s k .S 0x0D 0x202) ∧ Runs .setContextPool s (takeTrap s k .S 0x0D 0x300) ∧
    Runs .registerWeightTable s (takeTrap s k .S 0x0D 0x400) ∧ Runs .setWatchpoint s (takeTrap s k .S 0x0D 0x500) ∧
    Runs .replay s (takeTrap s k .S 0x0D 0x501) ∧ Runs .attestationReport s (takeTrap s k .S 0x0D 0x600) ∧
    Runs .eret s (takeTrap s k .S 0x06 0xEC000000)

/-! ### Engine words: common, vector, matrix, copy -/

/-- The common words of L, X and T. AQ takes the oldest entry of its queue into an address register, with what the entry tells, and waits while there is
none; ASET sets a register to the A value; AADD adds it; ENOP changes nothing; CSHAPE writes half of the copy shape when both values fit
their fields, else traps 0x01 with the first that does not: each of these retires as it issues. EJOIN issues, its token taken, and holds the stream
at its join. -/
def Obligations.CommonWords : Prop :=
  ∀ (e : EStream) (w : EWord) (s : State) (k : Nat) (j : Job),
    (∀ v r, EReady s k j e w.tok (planAq e w) → j.queue (w.func.toNat % 16) = v :: r →
      RetiresNow (.aq e w) s k j e w.tok (planAq e w)
        (fun q => ((q.learnWin e ((smGetD q.core.Q.qk (w.func.toNat % 16) []).headD [])).qPop (w.func.toNat % 16)).setA e w.d.areg v)
        (j.eng e).pc ((j.eng e).pc + 12)) ∧
    (EReady s k j e w.tok (planAq e w) → j.queue (w.func.toNat % 16) = [] → Runs (.aq e w) s s) ∧
    (∀ x v, EReady s k j e w.tok (planAset e w) → wordOps j e (planAset e w) = [x, v] →
      RetiresNow (.aset e w) s k j e w.tok (planAset e w) (fun q => q.setA e w.d.areg v) (j.eng e).pc ((j.eng e).pc + 12)) ∧
    (∀ x v, EReady s k j e w.tok (planAadd e w) → wordOps j e (planAadd e w) = [x, v] →
      RetiresNow (.aadd e w) s k j e w.tok (planAadd e w) (fun q => q.setA e w.d.areg (x + v)) (j.eng e).pc ((j.eng e).pc + 12)) ∧
    (EReady s k j e w.tok (planEnop e w) →
      RetiresNow (.enop e w) s k j e w.tok (planEnop e w) id (j.eng e).pc ((j.eng e).pc + 12)) ∧
    (EReady s k j e w.tok (planEjoin e w) →
      let q := (issuing j e w.tok (planEjoin e w)).tokIssue e w.tok
      Runs (.ejoin e w) s (setJob s k (q.setEng e { q.eng e with ejoin := some w.tok }))) ∧
    (∀ a b, EReady s k j e w.tok (planCshape e w) → wordOps j e (planCshape e w) = [a, b] →
      (w.func.getLsbD 0 = false → a.toNat < 2 ^ 24 → b.toNat < 2 ^ 24 →
        RetiresNow (.cshape e w) s k j e w.tok (planCshape e w)
          (fun q => q.setEng e { q.eng e with shape := { (j.eng e).shape with rowb := a.setWidth 24, rows := b.setWidth 24 } }) (j.eng e).pc ((j.eng e).pc + 12)) ∧
      (w.func.getLsbD 0 = true → a.toNat < 2 ^ 16 → -2 ^ 47 ≤ b.toInt → b.toInt < 2 ^ 47 →
        RetiresNow (.cshape e w) s k j e w.tok (planCshape e w)
          (fun q => q.setEng e { q.eng e with shape := { (j.eng e).shape with planes := a.setWidth 16, pstride := b.setWidth 48 } }) (j.eng e).pc ((j.eng e).pc + 12)) ∧
      (w.func.getLsbD 0 = false → 2 ^ 24 ≤ a.toNat → Runs (.cshape e w) s (takeTrap s k e.toStream 0x01 a.toNat)) ∧
      (w.func.getLsbD 0 = false → a.toNat < 2 ^ 24 → 2 ^ 24 ≤ b.toNat → Runs (.cshape e w) s (takeTrap s k e.toStream 0x01 b.toNat)) ∧
      (w.func.getLsbD 0 = true → 2 ^ 16 ≤ a.toNat → Runs (.cshape e w) s (takeTrap s k e.toStream 0x01 a.toNat)) ∧
      (w.func.getLsbD 0 = true → a.toNat < 2 ^ 16 → b.toInt < -2 ^ 47 ∨ 2 ^ 47 ≤ b.toInt →
        Runs (.cshape e w) s (takeTrap s k e.toStream 0x01 b.toNat)))

/-- Hardware loops. LOOP with a count from 1 to 2^32 − 1 pushes a loop of its body; with 0 it skips the body (but where it stands itself at the
end of the enclosing loop, which goes on, that loop counts down and goes back); with a greater count, as a fifth loop, or with a body that ends
after the enclosing loop's it traps 0x01. A loop whose last slot has issued counts down and goes back to its first; the last pass goes on. -/
def Obligations.HardwareLoops : Prop :=
  (∀ (e : EStream) (w : EWord) (s : State) (k : Nat) (j : Job) (c : Word), EReady s k j e w.tok (planLoop e w) →
    wordOps j e (planLoop e w) = [c] →
    let pc := (j.eng e).pc
    let last := pc + BitVec.ofNat 64 (12 * (w.func.toNat % 65536 + 1))
    (0 < c.toNat → c.toNat < 2 ^ 32 → (j.eng e).loops.length < 4 → (∀ t r, (j.eng e).loops = t :: r → last.toNat ≤ t.last.toNat) →
      RetiresNow (.loop e w) s k j e w.tok (planLoop e w)
        (fun q => q.setEng e { q.eng e with loops := ⟨pc + 12, last, c.toNat⟩ :: (q.eng e).loops }) pc (pc + 12)) ∧
    (c = 0 → NoLoopEnd (j.eng e) pc → RetiresNow (.loop e w) s k j e w.tok (planLoop e w) id last (last + 12)) ∧
    (∀ t r, c = 0 → (j.eng e).loops = t :: r → t.last = pc → 1 < t.remaining →
      ∃ s' j', Runs (.loop e w) s s' ∧ jobAt s' k = some j' ∧ (j'.eng e).seq = nextSeq j e ∧ (j'.eng e).pc = t.first ∧
        (j'.eng e).loops = { t with remaining := t.remaining - 1 } :: r) ∧
    (∀ t r, c = 0 → (j.eng e).loops = t :: r → t.last = pc → t.remaining ≤ 1 → NoLoopEnd { j.eng e with loops := r } pc →
      NoLoopEnd { j.eng e with loops := r } last →
      ∃ s' j', Runs (.loop e w) s s' ∧ jobAt s' k = some j' ∧ (j'.eng e).seq = nextSeq j e ∧ (j'.eng e).pc = last + 12 ∧ (j'.eng e).loops = r) ∧
    (2 ^ 32 ≤ c.toNat → Runs (.loop e w) s (takeTrap s k e.toStream 0x01 (wordBits (.loop e w) % 2 ^ 64))) ∧
    (0 < c.toNat → c.toNat < 2 ^ 32 → 4 ≤ (j.eng e).loops.length →
      Runs (.loop e w) s (takeTrap s k e.toStream 0x01 (wordBits (.loop e w) % 2 ^ 64))) ∧
    (∀ t r, 0 < c.toNat → c.toNat < 2 ^ 32 → (j.eng e).loops = t :: r → t.last.toNat < last.toNat →
      Runs (.loop e w) s (takeTrap s k e.toStream 0x01 (wordBits (.loop e w) % 2 ^ 64)))) ∧
  (∀ (g : Eng) (t : LoopEnt) (r : List LoopEnt) (pc : Word) (n : Nat), g.loops = t :: r → 1 < t.remaining →
    loopEnd g t.last pc (n + 1) = ({ g with pc := t.first, loops := { t with remaining := t.remaining - 1 } :: r }, 0)) ∧
  (∀ (g : Eng) (t : LoopEnt) (r : List LoopEnt) (pc : Word) (n : Nat), g.loops = t :: r → t.remaining ≤ 1 → NoLoopEnd { g with loops := r } t.last →
    loopEnd g t.last pc (n + 1) = ({ g with pc := pc, loops := r }, 1))

/-- Vector words issue: VSHAPE with its grant, min(request, 2048, 65,536 / container bits) elements, and every other vector word with the
results its meaning computes from operands whose formats resolve and whose accesses pass; a failed check is its trap. -/
def Obligations.VectorWordsIssue : Prop :=
  (∀ (w : EWord) (s : State) (k : Nat) (j : Job) (r : Word) (f : NFmt), EReady s k j .X w.tok (planVshape w) →
    wordOps j .X (planVshape w) = [r] → codeFmt j w.fmt.toNat = some f →
    let g : Option VGrant := if r = 0 then none else some ⟨Nat.min r.toNat (Nat.min 2048 (65536 / f.cont)), w.fmt⟩
    Flies (.vshape w) s k j .X w.tok (planVshape w) s
      { Effect.none with vs := some g, push := if w.func.getLsbD 0 then [grantEntry g] else [] }) ∧
  ∀ w : EWord,
    VIssues (.vadd w) w (wordVadd w) ∧ VIssues (.vsub w) w (wordVsub w) ∧ VIssues (.vmul w) w (wordVmul w) ∧ VIssues (.vfma w) w (wordVfma w) ∧
    VIssues (.vmin w) w (wordVmin w) ∧ VIssues (.vmax w) w (wordVmax w) ∧ VIssues (.vabs w) w (wordVabs w) ∧ VIssues (.vneg w) w (wordVneg w) ∧
    VIssues (.vand w) w (wordVand w) ∧ VIssues (.vor w) w (wordVor w) ∧ VIssues (.vxor w) w (wordVxor w) ∧ VIssues (.vshl w) w (wordVshl w) ∧
    VIssues (.vshr w) w (wordVshr w) ∧ VIssues (.vcmp w) w (wordVcmp w) ∧ VIssues (.vsel w) w (wordVsel w) ∧ VIssues (.vcvt w) w (wordVcvt w) ∧
    VIssues (.vqnt w) w (wordVqnt w) ∧ VIssues (.vdq w) w (wordVdq w) ∧ VIssues (.vexp w) w (wordVexp w) ∧ VIssues (.vrcp w) w (wordVrcp w) ∧
    VIssues (.vrsq w) w (wordVrsq w) ∧ VIssues (.vtanh w) w (wordVtanh w) ∧ VIssues (.vred w) w (wordVred w) ∧ VIssues (.vscan w) w (wordVscan w) ∧
    VIssues (.vgmax w) w (wordVgmax w) ∧ VIssues (.vtopk w) w (wordVtopk w) ∧ VIssues (.vnorm w) w (wordVnorm w) ∧ VIssues (.vcopy w) w (wordVcopy w) ∧
    VIssues (.vfill w) w (wordVfill w) ∧ VIssues (.viota w) w (wordViota w) ∧ VIssues (.vgath w) w (wordVgath w) ∧ VIssues (.vscat w) w (wordVscat w) ∧
    VIssues (.vtran w) w (wordVtran w) ∧ VIssues (.vmskAnd w) w (wordVmskAnd w) ∧ VIssues (.vmskOr w) w (wordVmskOr w) ∧
    VIssues (.vmskXor w) w (wordVmskXor w) ∧ VIssues (.vmskAndn w) w (wordVmskAndn w) ∧ VIssues (.vmskNot w) w (wordVmskNot w) ∧
    VIssues (.vmskFirst w) w (wordVmskFirst w) ∧ VIssues (.vmskCount w) w (wordVmskCount w) ∧ VIssues (.vmskLd w) w (wordVmskLd w) ∧
    VIssues (.vmskSt w) w (wordVmskSt w)

/-- Integer elements of vector words and the integer step of an MMA: sums, differences, products, negations and magnitudes are exact, then wrap to the format's width, or
with the saturate bit clamp to its signed range; minimum and maximum are signed; a left shift by the width or more gives zero. With a promotion interval of one the exact dot product is
added into the 32-bit element; else it joins the inner sum, which is promoted early, setting PROMO, when it leaves 24 bits. -/
def Obligations.IntegerElements : Prop :=
  (∀ (f : NFmt) (rm x y d : Nat), f.isInt = true → 0 < f.width →
    let X := sextNat f.width x
    let Y := sextNat f.width y
    let clamp : Int → Int := fun v => max (-2 ^ (f.width - 1)) (min v (2 ^ (f.width - 1) - 1))
    (((ewAdd f rm false x y d).1 : Int) = (X + Y) % 2 ^ f.width) ∧
    (((ewSub f rm false x y d).1 : Int) = (X - Y) % 2 ^ f.width) ∧
    (((ewMul f rm false x y d).1 : Int) = (X * Y) % 2 ^ f.width) ∧
    (((ewFma f rm false x y d).1 : Int) = (X * Y + sextNat f.width d) % 2 ^ f.width) ∧
    (((ewNeg f rm false x y d).1 : Int) = (-X) % 2 ^ f.width) ∧
    (((ewAbs f rm false x y d).1 : Int) = (X.natAbs : Int) % 2 ^ f.width) ∧
    sextNat f.width (ewAdd f rm true x y d).1 = clamp (X + Y) ∧
    sextNat f.width (ewSub f rm true x y d).1 = clamp (X - Y) ∧
    sextNat f.width (ewMul f rm true x y d).1 = clamp (X * Y) ∧
    (ewMin f rm false x y d).1 = (if X < Y then x else y) ∧
    (ewMax f rm false x y d).1 = (if X < Y then y else x) ∧
    (f.width ≤ y → (ewShl f rm false x y d).1 = 0)) ∧
  ∀ (q inner : Int) (z : BitVec 32) (steps p : Nat),
    ((intStep 1 q z 0 0).1 = z + BitVec.ofInt 32 q ∧ (intStep 1 q z 0 0).2.1 = 0 ∧ (intStep 1 q z 0 0).2.2.1 = 0) ∧
    (steps + 1 < p → -2 ^ 23 ≤ inner + q → inner + q ≤ 2 ^ 23 - 1 → intStep p q z inner steps = (z, inner + q, steps + 1, 0)) ∧
    (steps + 1 < p → inner + q < -2 ^ 23 ∨ 2 ^ 23 - 1 < inner + q →
      (intStep p q z inner steps).1 = z + BitVec.ofInt 32 inner ∧ (intStep p q z inner steps).2.1 = q ∧
      (intStep p q z inner steps).2.2.1 = steps + 1 ∧ (intStep p q z inner steps).2.2.2 &&& flPROMO = flPROMO)

/-- VECTOR_WORD_RETIRE and MATRIX_WORD_RETIRE retire the oldest X word of a running job, an MREP once its copies are made: what it computed has landed
(mask, accumulators, slots, grants, threshold table, and, where no unordered access shares its window bytes, the window), its flags are
ORed in, its entries stand in q12, SEQX counts, it is no longer in flight; S and the SPILL slots are as they were. -/
def Obligations.XWordsLand : Prop :=
  ∀ (s : State) (k : Nat) (j : Job) (x : InFlight) (r : List InFlight), jobAt s k = some j → j.phase = .running → j.core.X.inflight = x :: r →
    let lands : State → Prop := fun t => ∃ j', jobAt t k = some j' ∧ j'.core.X.seq = j.core.X.seq + 1 ∧ j'.core.X.inflight = r ∧
      j'.core.flags = j.core.flags ||| x.eff.flags ∧ j'.queue 12 = j.queue 12 ++ x.eff.push ∧ j'.core.masks = (j.land x.eff).core.masks ∧
      ((∀ y ∈ j.core.wacc, y.loose (winKey j.uid .X) x.know = false) → j'.core.win = (j.land x.eff).core.win) ∧
      (∀ n v, x.eff.mask = some (n, v) → 0 < n → n < 8 → j'.core.masks.toList.getD n 0 = v) ∧
      j'.core.accs = x.eff.accs.foldl (fun m a => smPut Acc.reset m a.1 a.2) j.core.accs ∧ j'.core.slots = (j.land x.eff).core.slots ∧
      j'.core.vs = x.eff.vs.getD j.core.vs ∧ j'.core.ms = x.eff.ms.getD j.core.ms ∧ j'.core.thr = x.eff.thr.getD j.core.thr ∧
      j'.core.S = j.core.S ∧ j'.core.spill = j.core.spill
    (vectorHead j = true → ∃ t, Runs (.vectorWordRetire k) s t ∧ lands t) ∧
    (vectorHead j = false → copiesDone s k j x = true → ∃ t, Runs (.matrixWordRetire k) s t ∧ lands t)

/-- Matrix words that name no tile issue with their effects: MTHR a valid threshold table, MSHAPE a row grant and its report, MCLM and MREL
a slot bound and unbound, MLDA a slot loaded from the window, MZERO an accumulator of zeros, MACR rows of an accumulator in a format. Grants
and slots are those that the earlier words of X leave; MLDA and MACR wait for earlier words that write what they read. An invalid table, a missing
grant and an unclaimed slot trap 0x01. -/
def Obligations.MatrixRegisterWords : Prop :=
  ∀ (w : MWord) (s : State) (k : Nat) (j : Job),
    (∀ v, EReady s k j .X w.tok (planMthr w) → wordOps j .X (planMthr w) = [v] →
      let t := if w.w.mode = 3 then (0x0340022001100008 : Word) else v
      (thrValid t.toNat = true → Flies (.mthr w) s k j .X w.tok (planMthr w) s { Effect.none with thr := some t }) ∧
      (thrValid t.toNat = false → Runs (.mthr w) s (takeTrap s k .X 0x01 t.toNat))) ∧
    (∀ c, EReady s k j .X w.tok (planMshape w) → wordOps j .X (planMshape w) = [c] →
      let rows := if c = 0 then 0 else shapeRows j.ahead.core.thr.toNat c.toNat
      Flies (.mshape w) s k j .X w.tok (planMshape w) s
        { Effect.none with ms := some (if c = 0 then none else some ⟨rows, w.pint.toNat + 1⟩),
                           push := [BitVec.ofNat 64 (3 * 2 ^ 60 + Nat.min c.toNat 4095 * 2 ^ 16 + w.pint.toNat * 2 ^ 12 + rows)] }) ∧
    (EReady s k j .X w.tok (planMclm w) →
      Flies (.mclm w) s k j .X w.tok (planMclm w) s { Effect.none with slots := [(w.aslot.toNat, some Slot.reset)] }) ∧
    (EReady s k j .X w.tok (planMrel w) →
      Flies (.mrel w) s k j .X w.tok (planMrel w) s { Effect.none with slots := [(w.aslot.toNat, none)] }) ∧
    (∀ g t v, EReady s k j .X w.tok (planMlda w) → wordOps j .X (planMlda w) = [v] → j.ahead.core.ms = some g →
      smGet j.ahead.core.slots w.aslot.toNat = some t → v.toInt % 16 = 0 → 0 ≤ v.toInt → v.toInt + (48 * nRows w g : Nat) ≤ (j.core.win.size : Int) →
      (j.xWindow = true → Runs (.mlda w) s s) ∧
      (j.xWindow = false → winPoison j.core.win [(v.toInt, 48 * nRows w g)] = none →
        let seen := winSeen s j .X ((issuing j .X w.tok (planMlda w)).know .X)
        Flies (.mlda w) s k j .X w.tok (planMlda w) s
          { Effect.none with slots := [(w.aslot.toNat, some ⟨memWriteBytes [] 0 ((List.range (48 * nRows w g)).map (fun o => seen (v.toNat + o))),
              sharedGran j.core.win (granulesOf v.toNat (48 * nRows w g)), []⟩)], reads := [(v.toInt, 48 * nRows w g)] })) ∧
    (∀ g, EReady s k j .X w.tok (planMzero w) → j.ahead.core.ms = some g →
      Flies (.mzero w) s k j .X w.tok (planMzero w) s { Effect.none with accs := [(w.acc.toNat, Acc.reset)] }) ∧
    (∀ g f v, EReady s k j .X w.tok (planMacr w) → wordOps j .X (planMacr w) = [v] → j.ahead.core.ms = some g → macrFmt j w.afmt.toNat = some f →
      winBounds j.core.win.size [(v.toInt, if 16 ≤ f.cont then f.cont / 8 else 16)] [(v.toInt, (64 * nRows w g * f.cont + 7) / 8)] = none →
      let own := w.acc.toNat :: (if f = fp64 then [w.acc.toNat + 1] else [])
      let p0 := (smGetD j.core.accs w.acc.toNat Acc.reset).promote.1
      let p1 := if f = fp64 then (smGetD j.core.accs (w.acc.toNat + 1) Acc.reset).promote.1 else Acc.reset
      let seen := winSeen s j .X ((issuing j .X w.tok (planMacr w)).know .X)
      (j.xWindow = true ∨ j.xPending own [] = true → Runs (.macr w) s s) ∧
      (j.xWindow = false → j.xPending own [] = false →
        ∃ eff, Flies (.macr w) s k j .X w.tok (planMacr w) s eff ∧
          eff.win = vCells seen ((List.range (64 * nRows w g)).map (fun i => ⟨v.toInt, f.cont, i, (macrElem f w.rm.toNat p0 p1 i).1⟩)) ∧
          eff.accs = [(w.acc.toNat, p0)] ++ (if f = fp64 then [(w.acc.toNat + 1, p1)] else []) ∧ eff.slots = [] ∧ eff.mask = none ∧ eff.vs = none)) ∧
    (∀ v, EReady s k j .X w.tok (planMlda w) → wordOps j .X (planMlda w) = [v] →
      (j.ahead.core.ms = none → Runs (.mlda w) s (takeTrap s k .X 0x01 (wordBits (.mlda w) % 2 ^ 64))) ∧
      (j.ahead.core.ms.isSome = true → smGet j.ahead.core.slots w.aslot.toNat = none → Runs (.mlda w) s (takeTrap s k .X 0x01 w.aslot.toNat)))

/-- Matrix words that name a tile, with a grant. MMA and MMAS issue once a filled copy of their key stands in an idle array, no earlier word of X still
writes what they read and the complex grants them: the lookup is counted a hit, and they land the products of slot rows and frame columns added into the
accumulator. MFILL issues once its key is resident, MPIN with its pins and its report, MREP with its copies; MUNP, MINV and MQRY
issue at once. A word with the hold bit and no lease traps 0x0B, a tile address that is no multiple of 4,096 traps 0x03. -/
def Obligations.MatrixTileWords : Prop :=
  ∀ (w : MWord) (s : State) (k : Nat) (j : Job) (g : MGrant) (v : Word), j.ahead.core.ms = some g → v.toNat % 4096 = 0 → v.toNat < 2 ^ 52 →
    let cl := jCluster k
    let c := clusterSt s cl
    let run := runningOn s cl
    let page := v.toNat / 4096
    let done : State → Prop := fun s' => s'.M = s.M ∧ jobAt s' k = some { j with lookup := none }
    (∀ (i : Instr) (ops : List Word) (slot : Slot), i = .mma w ∨ i = .mmas w → EReady s k j .X w.tok (mmaPlan i w) →
      wordOps j .X (mmaPlan i w) = v :: ops → smGet j.ahead.core.slots w.aslot.toNat = some slot →
      let q := issuing j .X w.tok (mmaPlan i w)
      let sc := (ops.getD 0 0).toInt
      (w.hold = 1 → leaseOf s k = none → Runs i s (takeTrap s k .X 0x0B 0)) ∧
      (∀ af wf kd fr frame, (w.hold = 1 → leaseOf s k ≠ none) → mmaFormats s k q i w slot.tag v.toNat = .ok (af, wf, kd) →
        (w.scale.getLsbD 1 = true → j.xWindow = false) → saCheck j w sc (saBytes (nRows w g) (pairK af wf)) = none →
        bestFrame c run j.fdom page (scaleLen wf) = some fr → smGet c.frames fr = some frame → frame.filled = true → arrayIdle run fr = true →
        (w.wfmt = 15 → oneTag s j 15 frame.tag = some wf) → j.xPending (mmaAccs w kd) [w.aslot.toNat] = false → granted s k = true →
        let sa := fun r jj => if w.scale.getLsbD 1 then some (saRead (winSeen s q .X (q.know .X)) sc.toNat (pairK af wf) r jj) else none
        ∃ s' m, Flies i s k j .X w.tok (mmaPlan i w) s'
            { mmaEffect s k q w m fr with reads := if w.scale.getLsbD 1 then [(sc, saBytes (nRows w g) (pairK af wf))] else [] } ∧
          m.kind = kd ∧ m.af = af ∧ m.wf = wf ∧ m.kk = pairK af wf ∧ m.rows = nRows w g ∧ m.rm = w.rm.toNat ∧ m.p = Nat.min (w.pint.toNat + 1) g.p ∧
          m.slot = slot ∧ m.frame.data = frame.data ∧ m.frame.bad = frame.bad ∧ m.sa = sa ∧ m.sw = w.scale.getLsbD 0 ∧
          done s' ∧ (clusterSt s' cl).hit = c.hit + (if j.lookup.isNone then 1 else 0))) ∧
    (∀ wf fr frame, EReady s k j .X w.tok (planMfill w) → wordOps j .X (planMfill w) = [v] →
      weightFmt s k (issuing j .X w.tok (planMfill w)) w.wfmt.toNat v.toNat = .ok wf → wf.cls ≠ .fixed → ¬ (wf.cont = 32 ∧ wf.isInt = true) →
      bestFrame c run j.fdom page (scaleLen wf) = some fr → smGet c.frames fr = some frame → frame.filled = true → granted s k = true →
      ∃ s', Flies (.mfill w) s k j .X w.tok (planMfill w) s' Effect.none ∧ done s') ∧
    ((addrFrames c j.fdom page).any (fun e => e.2.filled) = true →
      let c1 := nameAll (clusterSt (touchAll s k j.fdom page) cl) k j.fdom page
      (EReady s k j .X w.tok (planMpin w) → wordOps j .X (planMpin w) = [v] →
        let r := pinKeys c1 j.fdom page
        ∃ s', Flies (.mpin w) s k j .X w.tok (planMpin w) s'
            { Effect.none with push := [BitVec.ofNat 64 (5 * 2 ^ 60 + (if r.2.2 then 2 else if r.2.1 then 0 else 1) * 2 ^ 8 + pinCount r.1)] } ∧
          (clusterSt s' cl).frames = r.1.frames ∧ done s') ∧
      (EReady s k j .X w.tok (planMrep w) → wordOps j .X (planMrep w) = [v] →
        ((∀ len ∈ addrLens c1 j.fdom page, 4 ≤ (keyFrames c1 j.fdom page len).length) →
          ∃ s', Flies (.mrep w) s k j .X w.tok (planMrep w) s' Effect.none ∧ (clusterSt s' cl).frames = c1.frames ∧ done s') ∧
        (∀ len src fr, addrLens c1 j.fdom page = [len] → (keyFrames c1 j.fdom page len).length < 4 →
          (keyFrames c1 j.fdom page len).find? (fun e => e.2.filled) = some src →
          victim c1 run none (fun a => !(keyFrames c1 j.fdom page len).any (fun e => e.1 / 8 == a)) = some fr →
          ∃ s' d, Flies (.mrep w) s k j .X w.tok (planMrep w) s' Effect.none ∧ done s' ∧ smGet (clusterSt s' cl).frames fr = some d ∧
            d.copying = true ∧ d.data = src.2.data ∧ d.page = src.2.page ∧ d.fdom = src.2.fdom ∧ d.len = src.2.len ∧ d.pinned = false))) ∧
    (EReady s k j .X w.tok (planMunp w) → wordOps j .X (planMunp w) = [v] →
      ∃ s', Flies (.munp w) s k j .X w.tok (planMunp w) s' Effect.none ∧ s'.M = s.M ∧
        (clusterSt s' cl).frames.map (fun e => { e.2 with pinned := false }) = c.frames.map (fun e => { e.2 with pinned := false }) ∧
        (∀ e ∈ (clusterSt s' cl).frames, e.2.fdom = j.fdom → e.2.page = page → e.2.pinned = false)) ∧
    (EReady s k j .X w.tok (planMinv w) → wordOps j .X (planMinv w) = [v] →
      ∃ s', Flies (.minv w) s k j .X w.tok (planMinv w) s' Effect.none ∧ s'.M = s.M ∧ addrFrames (clusterSt s' cl) j.fdom page = [] ∧
        ∀ e, e ∈ c.frames → (e.2.fdom = j.fdom → e.2.page ≠ page) → e ∈ (clusterSt s' cl).frames) ∧
    (EReady s k j .X w.tok (planMqry w) → wordOps j .X (planMqry w) = [v] →
      Flies (.mqry w) s k j .X w.tok (planMqry w) s { Effect.none with push := [residency c j.fdom page] }) ∧
    (∀ u : Word, u.toNat % 4096 ≠ 0 →
      (EReady s k j .X w.tok (planMpin w) → wordOps j .X (planMpin w) = [u] → Runs (.mpin w) s (takeTrap s k .X 0x03 u.toNat)) ∧
      (EReady s k j .X w.tok (planMrep w) → wordOps j .X (planMrep w) = [u] → Runs (.mrep w) s (takeTrap s k .X 0x03 u.toNat)) ∧
      (EReady s k j .X w.tok (planMunp w) → wordOps j .X (planMunp w) = [u] → Runs (.munp w) s (takeTrap s k .X 0x03 u.toNat)) ∧
      (EReady s k j .X w.tok (planMinv w) → wordOps j .X (planMinv w) = [u] → Runs (.minv w) s (takeTrap s k .X 0x03 u.toNat)) ∧
      (EReady s k j .X w.tok (planMqry w) → wordOps j .X (planMqry w) = [u] → Runs (.mqry w) s (takeTrap s k .X 0x03 u.toNat)))

/-- Leases and frames. MLSE asks for the cluster's lease, issues once it is granted, and traps 0x0B when the job holds one; MLRL ends it. LEASE_GRANT, with no
live lease, gives it to a waiting request, in turn after the last holder's core; LEASE_BUDGET_EXHAUSTED ends a spent one. FRAME_FILL_COMPLETE and
FRAME_COPY_COMPLETE make a frame usable, or drop one that an MINV doomed; HARDWARE_REPLICA adds a copy of a key that eight words wait for. -/
def Obligations.LeasesAndFrames : Prop :=
  (∀ (w : MWord) (s : State) (k : Nat) (j : Job),
    (EReady s k j .X w.tok (planMlse w) → j.lookup ≠ some .lease → leaseOf s k = none →
      Runs (.mlse w) s (setJob (setCluster s (jCluster k) { clusterSt s (jCluster k) with
        leaseWait := (clusterSt s (jCluster k)).leaseWait.filter (fun x => x / 256 != k) ++ [256 * k + mlseBudget w j] }) k
        { issuing j .X w.tok (planMlse w) with lookup := some .lease })) ∧
    (EReady s k j .X w.tok (planMlse w) → j.lookup = some .lease → leaseOf s k ≠ none →
      ∃ s', Flies (.mlse w) s k j .X w.tok (planMlse w) s' Effect.none ∧ jobAt s' k = some { j with lookup := none } ∧ s'.M = s.M ∧
        leaseOf s' k = leaseOf s k) ∧
    (EReady s k j .X w.tok (planMlse w) → j.lookup = some .lease → leaseOf s k = none → Runs (.mlse w) s s) ∧
    (EReady s k j .X w.tok (planMlse w) → j.lookup ≠ some .lease → leaseOf s k ≠ none → Runs (.mlse w) s (takeTrap s k .X 0x0B 0)) ∧
    (EReady s k j .X w.tok (planMlrl w) →
      ∃ s', Flies (.mlrl w) s k j .X w.tok (planMlrl w) s' Effect.none ∧ leaseOf s' k = none ∧ s'.jobs = s.jobs ∧ s'.M = s.M ∧
        (clusterSt s' (jCluster k)).frames = (clusterSt s (jCluster k)).frames)) ∧
  ∀ (s : State) (cl fr : Nat),
    let c := clusterSt s cl
    (liveLease c = none → c.leaseWait ≠ [] →
      ∃ t w, Runs (.leaseGrant cl) s t ∧ w ∈ c.leaseWait ∧ (clusterSt t cl).lease = some ⟨w / 256, w % 256, []⟩ ∧
        (clusterSt t cl).leaseWait = c.leaseWait.filter (· != w) ∧
        let last := match c.lease with | some l => jCore l.job | none => c.lastLease
        ∀ x ∈ c.leaseWait, (jCore (w / 256) + 4 - last % 4 + 3) % 4 ≤ (jCore (x / 256) + 4 - last % 4 + 3) % 4) ∧
    (∀ l, c.lease = some l → l.budget = 0 → Runs (.leaseBudgetExhausted cl) s (setCluster s cl { c with lease := none, lastLease := jCore l.job })) ∧
    (∀ f, smGet c.frames fr = some f → f.filling = true → f.doomed = false →
      ∃ t f', Runs (.frameFillComplete cl fr) s t ∧ smGet (clusterSt t cl).frames fr = some f' ∧ f'.filling = false ∧ f'.data = f.data ∧ f'.page = f.page ∧
        f'.fdom = f.fdom ∧ f'.len = f.len ∧ f'.tag = f.tag ∧ (f.wantPin = false → f'.pinned = f.pinned) ∧ (f.wantPin = true → pinCount c < 32 → f'.pinned = true)) ∧
    (∀ f, smGet c.frames fr = some f → f.filling = true → f.doomed = true →
      ∃ t, Runs (.frameFillComplete cl fr) s t ∧ (clusterSt t cl).frames = c.frames.filter (fun e => e.1 != fr)) ∧
    (∀ f, smGet c.frames fr = some f → f.copying = true → f.doomed = false →
      Runs (.frameCopyComplete cl fr) s (setCluster s cl { c with frames := smSet c.frames fr { f with copying := false } })) ∧
    (∀ f, smGet c.frames fr = some f → f.copying = true → f.doomed = true →
      ∃ t, Runs (.frameCopyComplete cl fr) s t ∧ (clusterSt t cl).frames = c.frames.filter (fun e => e.1 != fr)) ∧
    (∀ f src v, smGet c.frames fr = some f → 8 ≤ waitingFor s cl f.fdom f.page f.len →
      let fs := keyFrames c f.fdom f.page f.len
      fs.length < 4 → fs.find? (fun e => e.2.filled) = some src → victim c (runningOn s cl) none (fun a => !fs.any (fun e => e.1 / 8 == a)) = some v →
      ∃ t d, Runs (.hardwareReplica cl fr) s t ∧ smGet (clusterSt t cl).frames v = some d ∧ d.copying = true ∧ d.data = src.2.data ∧
        d.page = src.2.page ∧ d.fdom = src.2.fdom ∧ d.len = src.2.len ∧ d.pinned = false)

/-- Copy words issue when alignment, window bounds and addresses pass: each is then in flight (CPYG and SCAT with what they read of the window, CPYM
with its receivers, ACW with the mark of a source tagged otherwise), its pages translated ahead, and PREL retires at once. A failed check is its
trap: 0x03 misaligned, 0x02 or 0x07 outside the window, 0x04 or 0x05 beyond the address space, 0x0C poison, 0x06 a bad route record, 0x09 a commutative range of another
kind, 0x01 a TRIM no shorter than the row. -/
def Obligations.CopyWordsIssue : Prop :=
  ∀ (w : EWord) (s : State) (k : Nat) (j : Job) (d a b : Word),
    let cl := j.core.L.shape
    let ct := j.core.T.shape
    let four := fun (c : CShape) => ([(d.toNat, 4), (a.toNat, 4)] : List (Nat × Nat)) ++ shapeAl c 4 4 (some b)
    (EReady s k j .L w.tok (planCpy w) → wordOps j .L (planCpy w) = [d, a, b] →
      CopyChecked (.cpy w) s k j .L (four cl) [(d.toInt, cl.total)] a.toNat 0x04 (CopyFlies (.cpy w) s k j .L w.tok (planCpy w) Effect.none)) ∧
    (EReady s k j .L w.tok (planCpyg w) → wordOps j .L (planCpyg w) = [d, a, b] →
      let seen := winSeen s j .L ((issuing j .L w.tok (planCpyg w)).know .L)
      CopyChecked (.cpyg w) s k j .L ([(d.toNat, 4), (a.toNat, 4), (b.toNat, 4)] ++ shapeAl cl 4 4 none) [(d.toInt, cl.nr * cl.rb), (b.toInt, 4 * cl.nr)] a.toNat 0x04
        ((winPoison j.core.win [(b.toInt, 4 * cl.nr)] = none →
          CopyFlies (.cpyg w) s k j .L w.tok (planCpyg w)
            { Effect.none with recv := (List.range cl.nr).map (fun i => leNat ((List.range 4).map (fun x => seen (b.toNat + 4 * i + x)))),
                               reads := [(b.toInt, 4 * cl.nr)] }) ∧
          ∀ v, winPoison j.core.win [(b.toInt, 4 * cl.nr)] = some v → Runs (.cpyg w) s (takeTrap s k .L 0x0C v))) ∧
    (EReady s k j .L w.tok (planCpyd w) →
      (wordTrim w = 0 ∨ wordTrim w < cl.rb →
        (w.func.getLsbD 1 = false → wordOps j .L (planCpyd w) = [d, a, b] →
          CopyChecked (.cpyd w) s k j .L (four cl) [(d.toInt, cl.total)] a.toNat 0x04 (CopyFlies (.cpyd w) s k j .L w.tok (planCpyd w) Effect.none)) ∧
        (w.func.getLsbD 1 = true → wordOps j .L (planCpyd w) = [a, b] →
          CopyChecked (.cpyd w) s k j .L ([(a.toNat, 4)] ++ shapeAl cl 4 4 (some b)) [] a.toNat 0x04
            (CopyFlies (.cpyd w) s k j .L w.tok (planCpyd w) Effect.none))) ∧
      (wordTrim w ≠ 0 → cl.rb ≤ wordTrim w → Runs (.cpyd w) s (takeTrap s k .L 0x01 cl.rb))) ∧
    (EReady s k j .L w.tok (planCpym w) → wordOps j .L (planCpym w) = [d, a, b] → j.replay = none →
      CopyChecked (.cpym w) s k j .L ([(d.toNat, 4), (a.toNat, 4)] ++ shapeAl cl 4 4 none)
        (if d.toInt < 0 then [(d.toInt, Nat.min cl.total (-d.toInt).toNat)] else []) a.toNat 0x04
        (CopyFlies (.cpym w) s k j .L w.tok (planCpym w) { Effect.none with recv := receivers s j.launch b })) ∧
    (EReady s k j .L w.tok (planPrel w) → wordOps j .L (planPrel w) = [a, b] →
      (alignFirst ([(a.toNat, 4)] ++ shapeAl cl 4 4 (some b)) = none →
        RetiresNow (.prel w) s k j .L w.tok (planPrel w) id j.core.L.pc (j.core.L.pc + 12)) ∧
      ∀ v, alignFirst ([(a.toNat, 4)] ++ shapeAl cl 4 4 (some b)) = some v → Runs (.prel w) s (takeTrap s k .L 0x03 v)) ∧
    (EReady s k j .L w.tok (planDgst w) → wordOps j .L (planDgst w) = [a] →
      CopyChecked (.dgst w) s k j .L [(a.toNat, 64)] [] a.toNat 0x04 (CopyFlies (.dgst w) s k j .L w.tok (planDgst w) Effect.none)) ∧
    (EReady s k j .T w.tok (planCps w) → wordOps j .T (planCps w) = [d, a, b] →
      CopyChecked (.cps w) s k j .T (four ct) [(a.toInt, ct.total)] d.toNat 0x05 (CopyFlies (.cps w) s k j .T w.tok (planCps w) Effect.none)) ∧
    (EReady s k j .T w.tok (planAcw w) → wordOps j .T (planAcw w) = [d, a, b] →
      let n := (acwFormat w).bytes
      let imm := w.a.mode == 3
      CopyChecked (.acw w) s k j .T ([(d.toNat, n)] ++ (if imm then [] else [(a.toNat, n)]) ++ shapeAl ct n n (some b))
        (if imm then [] else [(a.toInt, ct.total)]) d.toNat 0x05
        ((ct.rb = 0 → CopyFlies (.acw w) s k j .T w.tok (planAcw w) Effect.none) ∧
          (ct.rb ≠ 0 → rangeClash s j.fdom w (copyRows ct d.toNat b.toInt) ct.rb = false →
            CopyFlies (.acw w) s k j .T w.tok (planAcw w)
              { Effect.none with flags := if imm then 0 else tagMiss s j (acwFormat w) [(a.toInt, ct.total)] }) ∧
          (ct.rb ≠ 0 → rangeClash s j.fdom w (copyRows ct d.toNat b.toInt) ct.rb = true → Runs (.acw w) s (takeTrap s k .T 0x09 0)))) ∧
    (EReady s k j .T w.tok (planAcwf w) → wordOps j .T (planAcwf w) = [d, a] →
      CopyChecked (.acwf w) s k j .T [(d.toNat, (acwFormat w).bytes)] [] d.toNat 0x05 (CopyFlies (.acwf w) s k j .T w.tok (planAcwf w) Effect.none)) ∧
    (EReady s k j .T w.tok (planCas w) → wordOps j .T (planCas w) = [d, a, b] →
      CopyChecked (.cas w) s k j .T [(d.toNat, casWidth w)] [] d.toNat 0x05 (CopyFlies (.cas w) s k j .T w.tok (planCas w) Effect.none)) ∧
    (EReady s k j .T w.tok (planCpst w) → wordOps j .T (planCpst w) = [d, a, b] →
      CopyChecked (.cpst w) s k j .T ([(d.toNat, 64), (a.toNat, 4)] ++ shapeAl ct 4 64 none) [(a.toInt, ct.total)] d.toNat 0x05
        (CopyFlies (.cpst w) s k j .T w.tok (planCpst w) Effect.none)) ∧
    (EReady s k j .T w.tok (planScat w) → wordOps j .T (planScat w) = [a, b] →
      let seen := winSeen s j .T ((issuing j .T w.tok (planScat w)).know .T)
      let n := if ct.rb = 0 then 0 else ct.nr
      let recs := (List.range n).map (fun i => leNat ((List.range 16).map (fun x => seen (b.toNat + 16 * i + x))))
      CopyChecked (.scat w) s k j .T [(a.toNat, 4), (b.toNat, 4), (ct.rb, 4)] [(a.toInt, ct.nr * ct.rb), (b.toInt, 16 * n)] 0 0x05
        ((winPoison j.core.win [(b.toInt, 16 * n)] = none →
          ((∀ r ∈ recs, routeOk s r = true) →
            CopyFlies (.scat w) s k j .T w.tok (planScat w) { Effect.none with recv := recs, reads := [(b.toInt, 16 * n)] }) ∧
          (∀ i, recs.findIdx? (fun r => !routeOk s r) = some i → Runs (.scat w) s (takeTrap s k .T 0x06 (b.toNat + 16 * i)))) ∧
          ∀ v, winPoison j.core.win [(b.toInt, 16 * n)] = some v → Runs (.scat w) s (takeTrap s k .T 0x0C v))) ∧
    (EReady s k j .T w.tok (planFlsh w) → wordOps j .T (planFlsh w) = [d, b] →
      CopyChecked (.flsh w) s k j .T ([(d.toNat, 4)] ++ shapeAl ct 4 4 (some b)) [] d.toNat 0x04
        (CopyFlies (.flsh w) s k j .T w.tok (planFlsh w) Effect.none)) ∧
    (EReady s k j .T w.tok (planInvl w) → wordOps j .T (planInvl w) = [d, b] →
      CopyChecked (.invl w) s k j .T ([(d.toNat, 4)] ++ shapeAl ct 4 4 (some b)) [] d.toNat 0x04
        (CopyFlies (.invl w) s k j .T w.tok (planInvl w) Effect.none))

/-- ENGINE_WORD_RETIRE performs what is left of the oldest copy word in flight of a running job and retires it: its status entry is in its queue, its
stream's counter takes its number, its flags are ORed in, the digest context follows CPYD and DGST. Held back, the word stays in flight with what it has
done. Where its footprint fails, ENGINE_WORD_RETIRE and COPY_TRAP_IN_FLIGHT take the trap at the word's PC, and what it moved before stays. A word of
an empty footprint moves nothing and reports status 0. -/
def Obligations.CopyWordsRetire : Prop :=
  ∀ (s : State) (k : Nat) (e : EStream) (j : Job) (i : InFlight), jobAt s k = some j → headWord j e = some i →
    (∀ r j', traceStall s j e.toStream = false → perform s k j i = .ok r → jobAt r.s k = some j' →
      ∃ t q, Runs (.engineWordRetire k e) s t ∧ jobAt t k = some q ∧ (q.eng e).seq = i.seq ∧ (q.eng e).inflight = (j'.eng e).inflight.drop 1 ∧
        (q.eng e).pc = (j'.eng e).pc ∧ q.core.flags = j'.core.flags ||| (r.fl ||| i.eff.flags) ∧ q.core.S = j'.core.S ∧ q.core.win = j'.core.win ∧
        q.core.digest = digestAfter j' i r ∧ (∀ n, statusQueue i = some n → q.queue n = j'.queue n ++ [copyEntry r.s j' i r]) ∧
        (TraceOff r.s j'.fdom → ∀ a, cByte t a = cByte r.s a)) ∧
    (∀ r j' x l, traceStall s j e.toStream = false → perform s k j i = .wait r → jobAt r.s k = some j' → (j'.eng e).inflight = x :: l →
      ∃ t q, Runs (.engineWordRetire k e) s t ∧ jobAt t k = some q ∧ (q.eng e).seq = (j'.eng e).seq ∧
        (q.eng e).inflight = { x with part := ⟨r.done, r.kept, r.fl, r.bytes⟩ } :: l ∧ q.core.win = j'.core.win ∧ t.M = r.s.M) ∧
    (∀ r c v, perform s k j i = .trap r c v →
      let t := takeTrapAt (modJob (keepGuards r.s j i r.kept) k (fun q => q.stallEnd e.toStream)) k e.toStream (some i.pc) c v .trap
      Runs (.copyTrapInFlight k e) s t ∧ (traceStall s j e.toStream = false → Runs (.engineWordRetire k e) s t)) ∧
    (∀ w, (i.word = .cpy w ∨ i.word = .cpyd w ∨ i.word = .cpym w ∨ i.word = .cps w ∨ i.word = .acw w ∨ i.word = .cpst w ∨ i.word = .flsh w ∨ i.word = .invl w) →
      i.shape.total = 0 → traceStall s j e.toStream = false → TraceOff s j.fdom →
      ∃ t q, Runs (.engineWordRetire k e) s t ∧ jobAt t k = some q ∧ (q.eng e).seq = i.seq ∧ (q.eng e).inflight = (j.eng e).inflight.drop 1 ∧
        q.core.flags = j.core.flags ||| (i.part.fl ||| i.eff.flags) ∧ (∀ n, statusQueue i = some n → q.queue n = j.queue n ++ [copyStatus i 0 0]) ∧
        ∀ a, cByte t a = cByte s a)

/-! ### Traps, handlers, firmware services -/

/-- Taking a trap stops the job at a cut: TRAPC and TRAPV take the cause and its value, TRAPPC the stream and its next PC, an open region is
aborted to its handler with cause MISUSE, X words in flight retire, L and T words are journaled, and a job with an area in its domain's save pool
begins its context save; one without leaves its slot. A fault at handler level ends the handler's job. -/
def Obligations.TakingATrap : Prop :=
  ∀ (s : State) (k : Nat) (st : Stream) (c v : Nat) (j : Job), jobAt s k = some j →
    (j.level = .job → hasArea s j = true →
      ∃ j', jobAt (takeTrap s k st c v) k = some j' ∧ j'.trapc = BitVec.ofNat 64 c ∧ j'.trapv = BitVec.ofNat 64 v ∧
        (j.region = none → j.pend ≠ .departed → j'.trappc = trapPc st (j.pcOf st) ∧ j'.core.S = j.core.S) ∧
        (∀ r, j.region = some r → j.pend ≠ .departed → j'.pc = r.hpc ∧ j'.core.rstat = rstatAbort j.core.rstat 3 ∧
          (st = .S → j'.trappc = trapPc .S r.hpc)) ∧ j'.region = none ∧
        j'.phase = .saving .trap ∧ j'.level = .job ∧ j'.core.X.inflight = [] ∧ j'.core.L.inflight = [] ∧ j'.core.T.inflight = [] ∧
        j'.core.L.journal = j.core.L.inflight.map (fun i => { i with part := Machine.Part.none }) ++ j.core.L.journal ∧
        j'.core.T.journal = j.core.T.inflight.map (fun i => { i with part := Machine.Part.none }) ++ j.core.T.journal ∧
        j'.core.X.seq = j.core.X.seq + j.core.X.inflight.length) ∧
    (SlotsOk s → j.level = .handler → jobAt (takeTrap s k st c v) k = none) ∧
    (SlotsOk s → j.level = .job → hasArea s j = false → j.replay = none → jobAt (takeTrap s k st c v) k = none)

/-- Context saves and resumes. CONTEXT_SAVE_DONE starts the handler of a trapped job (PC at CTX_HND, s1 the record's address, all other
registers 0) or parks a job that was forced out; it waits for a page in a move; a record that cannot be written, or a save past its deadline, abandons the
context. YIELD of a node-boundary pre-emptible job with a request pending is a lite save: PCs and s1 to s15 are kept. JOB_RESUME places a saved job
again when its launch's turn has come, its epoch one higher, its registers out of the record; one whose record cannot be read is abandoned. -/
def Obligations.ContextEvents : Prop :=
  ∀ (s : State) (k : Nat) (j : Job),
    (jobAt s k = some j → j.phase = .saving .trap ∨ j.phase = .saving .breakpoint → j.replay = none → windowNm s j.uid = false →
      canWrite s j.fdom j.ctxAddr.toNat j.ctxLen = true →
      (domainSt s j.fdom).ctxHnd ≠ 0 →
      ∃ t j', Runs (.contextSaveDone k) s t ∧ jobAt t k = some j' ∧ j'.level = .handler ∧ j'.phase = .running ∧
        j'.pc = (domainSt s j.fdom).ctxHnd ∧ j'.s 1 = j.ctxAddr ∧ (∀ r, r ≠ 1 → j'.s r = 0) ∧ (∀ p, p ≠ 0 → j'.p p = false) ∧ j'.snap.isSome = true) ∧
    (jobAt s k = some j → (∃ kind, j.phase = .saving kind) → j.replay = none → windowNm s j.uid = false →
      (areaMoves s j.fdom j.ctxAddr.toNat j.ctxLen .write = true → Runs (.contextSaveDone k) s s) ∧
      (areaMoves s j.fdom j.ctxAddr.toNat j.ctxLen .write = false → canWrite s j.fdom j.ctxAddr.toNat j.ctxLen = false →
        Runs (.contextSaveDone k) s (abandon (setJob s k j.promoteAll) k j.promoteAll 3 0 j.ctxAddr.toNat (jobid k j)))) ∧
    (jobAt s k = some j → j.phase = .saving .forced → j.replay = none → windowNm s j.uid = false →
      canWrite s j.fdom j.ctxAddr.toNat j.ctxLen = true →
      ∃ t j', Runs (.contextSaveDone k) s t ∧ smGet t.saved j.uid = some j' ∧ j'.home = k ∧ j'.preempt = none ∧ j'.core = j.promoteAll.core ∧
        j'.phase = .saving .forced ∧ (SlotsOk s → jobAt t k = none)) ∧
    (∀ kind, jobAt s k = some j → j.phase = .saving kind → windowNm s j.uid = false → j.saveStart + saveLimit j ≤ s.time →
      Runs (.saveDeadlineExpiry k) s (abandon s k j 3 0 j.ctxAddr.toNat (jobid k j))) ∧
    (SReady s k j sJob [] → j.joined j.presentMask = true → j.joinOver j.presentMask = none → nodePreempt s j = true → j.preempt.isSome = true →
      hasArea s j = true → windowNm s j.uid = false → TraceOff s j.fdom → (∀ e ∈ maskStreams j.presentMask, NoLoopEnd (j.eng e) (j.eng e).pc) →
      canWrite s j.fdom j.ctxAddr.toNat 256 = true →
      ∃ t q, Runs .yield s t ∧ smGet t.saved j.uid = some q ∧ q.phase = .saving .lite ∧ q.home = k ∧ q.preempt = none ∧ q.pc = j.pc + 4 ∧
        (∀ r, r.toNat < 16 → q.s r = j.s r) ∧ (∀ e ∈ maskStreams j.presentMask, (q.eng e).pc = (j.eng e).pc + 12) ∧ (SlotsOk s → jobAt t k = none)) ∧
    (∀ l n k' base, smGet s.saved (2 ^ 48 * l + n) = some j → (domainSt s j.fdom).domRst ≠ 1 → savedTurn s j = true → resumeFit s j = some (k', base) →
      areaMoves s j.fdom j.ctxAddr.toNat (recordLen j) .read = false →
      let s1 := leaveInstances { s with saved := smErase s.saved (2 ^ 48 * l + n) } j.home k'
      (canRead s1 j.fdom j.ctxAddr.toNat (recordLen j) = true →
        ∃ t j', Runs (.jobResume l n) s t ∧ jobAt t k' = some j' ∧ j'.phase = .running ∧ j'.level = .job ∧ j'.epoch = (j.epoch + 1) % 16 ∧
          j'.home = k' ∧ j'.resident = s.time ∧ j'.uid = j.uid ∧ j'.core.S = (resumeCore s1 k' j base).S) ∧
      (canRead s1 j.fdom j.ctxAddr.toNat (recordLen j) = false →
        Runs (.jobResume l n) s (abandon (setJob s1 k' j) k' j 3 0 j.ctxAddr.toNat (jobid j.home j))))

/-- Pre-emption and stops by event: PREEMPTION_REQUEST and SLICE_EXPIRY ask the job that gives way, SLICE_EXPIRY counting EXT where SLICE is below
2 T_sw; FORCED_CUT and GRACE_EXPIRY force out a job that has been asked; the hang watchdog raises trap 0x0E value 1 after its limit, which is
1,000,000 µs where HWD holds 0; a breakpoint stops the job before its word, and ends a replay with code 1; a replay ends with code 2 where an access
differed and with code 0 where its records are used up. A replay's end waits while its area is in a page move. -/
def Obligations.StopEvents : Prop :=
  ∀ (s : State) (k : Nat) (j : Job), jobAt s k = some j →
    (mayAsk s j = true → prioVictim s (jDie k) = some k ∨ restoreVictim s (jDie k) = some k →
      Runs (.preemptionRequest k) s (setJob s k { j with preempt := some s.time })) ∧
    (mayAsk s j = true → 0 < sliceNs s j.fdom → j.resident + Nat.max (sliceNs s j.fdom) (2 * j.tsw) ≤ s.time →
      (readyList s).any (fun e => decide (jobPrio s j ≤ launchPrio s e.2) && starved s e (jDie k)) = true →
      (2 * j.tsw ≤ sliceNs s j.fdom → Runs (.sliceExpiry k) s (setJob s k { j with preempt := some s.time })) ∧
      (sliceNs s j.fdom < 2 * j.tsw → ∃ t, Runs (.sliceExpiry k) s t ∧ jobAt t k = some { j with preempt := some s.time } ∧
        (domainSt t j.fdom).ctxExt = satInc 16 (domainSt s j.fdom).ctxExt)) ∧
    (j.phase = .running → j.level = .job → j.preempt.isSome = true → j.resident + 2 * j.tsw ≤ s.time → nodePreempt s j = false → j.region = none →
      Runs (.forcedCut k) s (forceCut s k j)) ∧
    (∀ t, j.phase = .running → j.level = .job → j.preempt = some t → j.resident + 2 * j.tsw ≤ s.time → t + graceNs s j.fdom ≤ s.time →
      Runs (.graceExpiry k) s (forceCut s k j)) ∧
    (let lim := bits (domainSt s j.fdom).hwd.toNat 0 32;
      j.phase = .running → j.level = .job → j.watch + (if lim = 0 then 1000000 else lim) * 1000 ≤ s.time →
      Runs (.hangWatchdog k) s (takeTrap s k .S 0x0E 1)) ∧
    (∀ st n, bpMatch s j st n = true → j.phase = .running →
      (j.replay = none → Runs (.breakpointStop k st n) s (takeTrapAt (countHit s j.fdom n) k st none 0x00 n .breakpoint)) ∧
      (∀ r, j.replay = some r → areaMoves s j.fdom r.area.toNat j.ctxLen .write = false →
        Runs (.breakpointStop k st n) s (endReplay (countHit s j.fdom n) k j r 1))) ∧
    (∀ r, j.replay = some r → areaMoves s j.fdom r.area.toNat j.ctxLen .write = false →
      (r.diverged = true → Runs (.replayEnd k) s (endReplay s k j r 2)) ∧
      (r.diverged = false → r.ended = true ∨ (∀ x ∈ r.last, x.2 ≤ recSeq j x.1) → Runs (.replayEnd k) s (endReplay s k j r 0)))

/-- At handler level TRAP calls the firmware: a value that names no service answers all ones in s8 and the handler goes on at the next word; a service
waits while memory it works on is in a page move. SET_WATCHPOINT sets a free comparator of a page's home, ATTESTATION_REPORT writes a signed report, or answers why not.
REPLAY waits for a free slot and places the replayed job, or raises an event for a context of no known launch. ERET restores the job from its
record at job level, running, with the stream that TRAPPC names at the PC that TRAPPC holds. -/
def Obligations.HandlerServices : Prop :=
  ∀ (s : State) (k : Nat) (j : Job) (i : BitVec 20), SReady s k j sHnd [] → j.level = .handler →
    let f := j.fdom
    Serves (.trap i) s k j s (2 ^ 64 - 1) ∧ Serves (.unassignedFirmwareService i) s k j s (2 ^ 64 - 1) ∧
    (frozenPage s f (j.arg 9) = true → Runs .setWatchpoint s s) ∧
    (frozenPage s f (j.arg 9) = false →
      (15 < j.arg 8 ∨ j.arg 9 / 4096 ≠ j.arg 10 / 4096 ∨ j.arg 10 < j.arg 9 ∨ 128 ≤ j.arg 11 → Serves .setWatchpoint s k j s 1) ∧
      (∀ c, j.arg 8 ≤ 15 → j.arg 9 / 4096 = j.arg 10 / 4096 → j.arg 9 ≤ j.arg 10 → j.arg 11 < 128 → translate s f true (j.arg 9) .read = .fail c →
        Serves .setWatchpoint s k j s 2) ∧
      (∀ pa m, j.arg 8 ≤ 15 → j.arg 9 / 4096 = j.arg 10 / 4096 → j.arg 9 ≤ j.arg 10 → j.arg 11 < 128 → translate s f true (j.arg 9) .read = .ok pa →
        homeMdie s pa = some m →
        let w := (mdieSt s m).watch.toList.getD (j.arg 8) Watch.reset
        (w.base.getLsbD 0 = true ∧ bits w.ctl.toNat 40 12 ≠ f → Serves .setWatchpoint s k j s 3) ∧
        (w.base.getLsbD 0 = false ∨ bits w.ctl.toNat 40 12 = f → TraceOff s f →
          ∃ t j', Runs .setWatchpoint s t ∧ SDone t k j (j.setS 8 0).next j' ∧
            (j.arg 11 = 0 → (mdieSt t m).watch.toList.getD (j.arg 8) Watch.reset = { w with base := 0, lim := 0, ctl := 0 }) ∧
            (j.arg 11 ≠ 0 → (mdieSt t m).watch.toList.getD (j.arg 8) Watch.reset = { w with
              base := BitVec.ofNat 64 (pa / 64 * 64 + 1), lim := BitVec.ofNat 64 ((pa + (j.arg 10 - j.arg 9)) / 64 * 64), ctl := BitVec.ofNat 64 (f * 2 ^ 40 + j.arg 11) })))) ∧
    (attestMoves s f (j.arg 8) (j.arg 9) (j.arg 10) (j.arg 11) = true → Runs .attestationReport s s) ∧
    (attestMoves s f (j.arg 8) (j.arg 9) (j.arg 10) (j.arg 11) = false →
      (j.arg 9 % 64 ≠ 0 ∨ 1 < j.arg 10 ∨ canRead s f (j.arg 8) 64 = false ∨ canWrite s f (j.arg 9) 640 = false → Serves .attestationReport s k j s 1) ∧
      (j.arg 9 % 64 = 0 → canRead s f (j.arg 8) 64 = true → canWrite s f (j.arg 9) 640 = true →
        (j.arg 10 = 0 → Serves .attestationReport s k j (writeReport s f (j.arg 9) (reportBody s f (virtBytes s f (j.arg 8) 64) none)) 0) ∧
        (j.arg 10 = 1 →
          let g := wtCur s f (j.arg 11)
          let l := shardList s f (genAddr s f (j.arg 11) g)
          (entryOk s f (j.arg 11) = false ∨ genUsable s f (j.arg 11) g = false → Serves .attestationReport s k j s 2) ∧
          (entryOk s f (j.arg 11) = true → genUsable s f (j.arg 11) g = true →
            (shardsOk s f l = false → Serves .attestationReport s k j s 3) ∧
            (shardsOk s f l = true → Serves .attestationReport s k j
              (writeReport s f (j.arg 9) (reportBody s f (virtBytes s f (j.arg 8) 64) (some (j.arg 11, g, l)))) 0))))) ∧
    (replayMoves s f (j.arg 8) (j.arg 9) (j.arg 10) = true → Runs .replay s s) ∧
    (replayMoves s f (j.arg 8) (j.arg 9) (j.arg 10) = false →
      (replayJob s f (j.arg 8) (j.arg 9) (j.arg 10) (j.arg 11) = none →
        Runs .replay s (retired (raiseEvent s f 15 2 (jDie k) (j.arg 11) (leNat (virtBytes s f (j.arg 8) 8))) k j j.next)) ∧
      (∀ r, replayJob s f (j.arg 8) (j.arg 9) (j.arg 10) (j.arg 11) = some r →
        (dieFits s r (jDie k) = none → Runs .replay s s) ∧
        (∀ p, dieFits s r (jDie k) = some p →
          ∃ t j', Runs .replay s t ∧ jobAt t k = some j' ∧ j'.pc = j.pc + 4 ∧ j'.level = .handler ∧
            (p.1 ≠ k → ∃ r', jobAt t p.1 = some r' ∧ r'.phase = .running ∧ r'.replay = r.replay ∧ r'.level = .job)))) ∧
    (∀ c, j.snap = some c → areaMoves s f j.ctxAddr.toNat j.ctxLen .read = false →
      (canRead s f j.ctxAddr.toNat j.ctxLen = true →
        ∃ t j', Runs .eret s t ∧ jobAt t k = some j' ∧ j'.level = .job ∧ j'.phase = .running ∧ j'.snap = none ∧
          j'.core.S.s = (restoreContext s k j c).S.s ∧ j'.core.flags = (restoreContext s k j c).flags ∧
          (j.trapIn = false → j.trappc.toNat < 2 ^ 62 → j'.pc = j.trappc)) ∧
      (canRead s f j.ctxAddr.toNat j.ctxLen = false → Runs .eret s (abandon s k j 3 0 j.ctxAddr.toNat (jobid k j)))) ∧
    (areaMoves s f j.ctxAddr.toNat j.ctxLen .read = true → Runs .eret s s)

/-- What the firmware services do that a handler calls. OPEN_RANGE enters a range (1 for bad arguments, 2 where it overlaps an open one, 3 where its
own is open), CLOSE_RANGE closes it, or answers 1. A buffer group is registered (1 bad, 2 taken, 3 full), and reset and released only by its own
domain, else 1. SET_CONTEXT_POOL and REGISTER_WEIGHT_TABLE set their registers, refuse bad arguments with 1 and a pool or table in
use with 2. The answer is in s8 and the handler goes on. -/
def Obligations.ServiceResults : Prop :=
  (∀ (s : State) (k : Nat) (j : Job), SReady s k j sHnd [] → j.level = .handler →
    let f := j.fdom
    let d := domainSt s f
    let ends : Instr → Nat → (State → Prop) → Prop := fun i v P => ∃ t j', Runs i s t ∧ SDone t k j (j.setS 8 (BitVec.ofNat 64 v)).next j' ∧ P t
    let bad := 7 < j.arg 8 ∨ j.arg 9 % 64 ≠ 0 ∨ 2 ^ 52 ≤ j.arg 9 ∨ 2 ^ 52 ≤ j.arg 10 ∨ j.arg 10 / 64 < j.arg 9 / 64 ∨ bits (j.arg 11) 8 56 ≠ 0 ∨
      bits (j.arg 11) 2 2 ≠ 0 ∨ ¬ bits (j.arg 11) 4 4 ∈ [0, 1, 2, 3, 11] ∨ bits (j.arg 11) 0 2 = 3
    let laps := ∃ n, n < 8 ∧ n ≠ j.arg 8 ∧ (d.crng.toList.getD n (0, 0, 0)).1.getLsbD 0 = true ∧
      j.arg 9 / 64 ≤ bits (d.crng.toList.getD n (0, 0, 0)).2.1.toNat 6 46 ∧ bits (d.crng.toList.getD n (0, 0, 0)).1.toNat 6 46 ≤ j.arg 10 / 64
    let opened := (d.crng.toList.getD (j.arg 8) (0, 0, 0)).1.getLsbD 0
    (bad → ends .openRange 1 (fun t => (domainSt t f).crng = d.crng)) ∧
    (¬ bad → laps → ends .openRange 2 (fun t => (domainSt t f).crng = d.crng)) ∧
    (¬ bad → ¬ laps → opened = true → ends .openRange 3 (fun t => (domainSt t f).crng = d.crng)) ∧
    (¬ bad → ¬ laps → opened = false → ends .openRange 0 (fun t => (domainSt t f).crng =
      d.crng.setIfInBounds (j.arg 8) (BitVec.ofNat 64 (j.arg 9 + 1), BitVec.ofNat 64 (j.arg 10 / 64 * 64), BitVec.ofNat 64 (j.arg 11)))) ∧
    (opened = false → ends .closeRange 1 (fun t => (domainSt t f).crng = d.crng)) ∧
    (opened = true → ends .closeRange 0 (fun t => (domainSt t f).crng =
      d.crng.setIfInBounds (j.arg 8) ((d.crng.toList.getD (j.arg 8) (0, 0, 0)).1 - 1, (d.crng.toList.getD (j.arg 8) (0, 0, 0)).2))) ∧
    (areaMoves s f (j.arg 8) 64 .read = true → Runs .registerBufferGroup s s) ∧
    (j.arg 8 % 64 ≠ 0 → areaMoves s f (j.arg 8) 64 .read = false → Serves .registerBufferGroup s k j s 1) ∧
    (j.arg 8 % 64 = 0 → canRead s f (j.arg 8) 64 = true →
      let o := groupOf f ((wordsOf (virtBytes s f (j.arg 8) 64) 8).map BitVec.toNat)
      let gs := (dieSt s (jDie k)).groups
      (o = none → Serves .registerBufferGroup s k j s 1) ∧
      (∀ b g, o = some (b, g) →
        ((smGet gs b).isSome = true → Serves .registerBufferGroup s k j s 2) ∧
        (smGet gs b = none → 256 ≤ gs.length → Serves .registerBufferGroup s k j s 3) ∧
        (smGet gs b = none → gs.length < 256 →
          Serves .registerBufferGroup s k j (setDie s (jDie k) { dieSt s (jDie k) with groups := smSet gs b g }) 0))) ∧
    (∀ g, smGet (dieSt s (jDie k)).groups (j.arg 8) = some g → g.fdom = f →
      Serves .resetBufferGroup s k j (setDie s (jDie k) { dieSt s (jDie k) with
        groups := smSet (dieSt s (jDie k)).groups (j.arg 8) { g with counts := [], holes := [] } }) 0 ∧
      Serves .releaseBufferGroup s k j (setDie s (jDie k) { dieSt s (jDie k) with groups := smErase (dieSt s (jDie k)).groups (j.arg 8) }) 0) ∧
    ((∀ g, smGet (dieSt s (jDie k)).groups (j.arg 8) = some g → g.fdom ≠ f) →
      Serves .resetBufferGroup s k j s 1 ∧ Serves .releaseBufferGroup s k j s 1) ∧
    (let wrong := j.arg 8 % 4096 ≠ 0 ∨ 2 ^ 48 ≤ j.arg 8 ∨ 2 ^ 48 ≤ j.arg 9 ∨ j.arg 9 / 4096 < j.arg 8 / 4096 ∨ bits (j.arg 10) 16 16 ≠ 0 ∨ j.arg 11 % 4 ≠ 0;
      (wrong → Serves .setContextPool s k j s 1) ∧ (¬ wrong → d.reserves ≠ [] → Serves .setContextPool s k j s 2) ∧
      (¬ wrong → d.reserves = [] → Serves .setContextPool s k j (setDomain s f { d with
        ctxBase := BitVec.ofNat 64 (j.arg 8 + 1), ctxLim := BitVec.ofNat 64 (j.arg 9 / 4096 * 4096), ctxCtl := BitVec.ofNat 64 (j.arg 10), ctxHnd := BitVec.ofNat 64 (j.arg 11) }) 0)) ∧
    (let wrong := j.arg 8 % 64 ≠ 0 ∨ j.arg 9 = 0 ∨ 4096 < j.arg 9;
      let inUse := s.launches.any (fun e => e.2.fdom == f && !e.2.wgens.isEmpty);
      (wrong → Serves .registerWeightTable s k j s 1) ∧ (¬ wrong → inUse = true → Serves .registerWeightTable s k j s 2) ∧
      (¬ wrong → inUse = false → Serves .registerWeightTable s k j (setDomain s f { d with
        wtBase := BitVec.ofNat 64 (j.arg 8), wtCount := j.arg 9, wtInterval := if j.arg 10 = 0 then 600 else j.arg 10, wtLast := s.time }) 0))) ∧
  ∀ (s : State) (f base last ctl hnd n iv i : Nat) (k b : Nat),
    (base % 4096 = 0 → base < 2 ^ 48 → last < 2 ^ 48 → base / 4096 ≤ last / 4096 → bits ctl 16 16 = 0 → hnd % 4 = 0 → (domainSt s f).reserves = [] →
      (setPool s f base last ctl hnd).2 = 0 ∧
      domainSt (setPool s f base last ctl hnd).1 f = { domainSt s f with
        ctxBase := BitVec.ofNat 64 (base + 1), ctxLim := BitVec.ofNat 64 (last / 4096 * 4096), ctxCtl := BitVec.ofNat 64 ctl, ctxHnd := BitVec.ofNat 64 hnd }) ∧
    (base % 4096 ≠ 0 → setPool s f base last ctl hnd = (s, 1)) ∧
    (base % 64 = 0 → 1 ≤ n → n ≤ 4096 → s.launches.any (fun e => e.2.fdom == f && !e.2.wgens.isEmpty) = false →
      (setTable s f base n iv).2 = 0 ∧
      domainSt (setTable s f base n iv).1 f = { domainSt s f with
        wtBase := BitVec.ofNat 64 base, wtCount := n, wtInterval := if iv = 0 then 600 else iv, wtLast := s.time }) ∧
    (n = 0 ∨ 4096 < n → setTable s f base n iv = (s, 1)) ∧
    (7 < i → openRange s f i base last ctl = (s, 1)) ∧
    (((domainSt s f).crng.toList.getD i (0, 0, 0)).1.getLsbD 0 = false → closeRange s f i = (s, 1)) ∧
    (∀ g, smGet (dieSt s (jDie k)).groups b = some g → g.fdom = f →
      releaseGroup s k f b = (setDie s (jDie k) { dieSt s (jDie k) with groups := smErase (dieSt s (jDie k)).groups b }, 0) ∧
      (resetGroup s k f b).2 = 0 ∧ smGet (dieSt (resetGroup s k f b).1 (jDie k)).groups b = some { g with counts := [], holes := [] }) ∧
    ((∀ g, smGet (dieSt s (jDie k)).groups b = some g → g.fdom ≠ f) → releaseGroup s k f b = (s, 1) ∧ resetGroup s k f b = (s, 1))

/-! ### Events of launches, units and storage -/

/-- The dispatch hardware. JOB_DISPATCH places the next ticket of the first ready launch that fits, at its entry address and with fresh counters;
WALKER_STEAL gives an empty walker half of the largest other range; AGE_LEVEL_TICK raises a waiting launch's age after 10 ms; TAIL_REREAD reads a leaf's new records
after what the host knows; PERIOD_BOUNDARY clears a node's USED and starts its next period; LAUNCH_COMPLETE ends a launch whose jobs have all halted,
once its signal write is not held back, and closes a lost one. -/
def Obligations.DispatchEvents : Prop :=
  ∀ (s : State) (die l : Nat) (v : Launch),
    (∀ k base ctx, dieRuns s die = true → taker s die = some (l, v) → savedWaits s l die = false → ticketFit s l v die = some (k, base, ctx) →
      ∃ t j', Runs (.jobDispatch die) s t ∧ jobAt t k = some j' ∧ j'.launch = l ∧ j'.ticket = (rangeOfDie v die).1 ∧ j'.fdom = v.fdom ∧
        j'.level = .job ∧ j'.phase = .running ∧ j'.pc = BitVec.ofNat 64 ((v.words.map BitVec.toNat).getD 1 0) ∧
        j'.core.S.seq = 0 ∧ j'.core.flags = 0 ∧ j'.home = k ∧ j'.resident = s.time) ∧
    (launchAt s l = some v → v.st = .ready → die < v.ranges.length → 2 ≤ v.ranges.length → (rangeOfDie v die).2 ≤ (rangeOfDie v die).1 →
      let left := fun i => (rangeOfDie v i).2 - (rangeOfDie v i).1
      ∃ b, b < v.ranges.length ∧ b ≠ die ∧ (∀ i, i < v.ranges.length → i ≠ die → left i ≤ left b) ∧
        (2 ≤ left b → Runs (.walkerSteal l die) s (setLaunch s l { v with
          ranges := (v.ranges.set b ((rangeOfDie v b).1, (rangeOfDie v b).2 - left b / 2)).set die ((rangeOfDie v b).2 - left b / 2, (rangeOfDie v b).2) })) ∧
        (left b < 2 → Runs (.walkerSteal l die) s s)) ∧
    (launchAt s l = some v → v.st = .ready → v.undisp ≠ 0 → hasBudget s v.leaf = true → v.ageStart + 10000000 ≤ s.time →
      Runs (.ageLevelTick l) s (setLaunch s l { v with age := Nat.min 7 (v.age + 1), ageStart := v.ageStart + 10000000 })) ∧
    (∀ leaf, Runs (.tailReread leaf) s (tailRead s leaf s.R.hostClk)) ∧
    (∀ node x, smGet s.leaves node = some x → x.boundary ≤ s.time → x.w0.getLsbD 62 = false → rcbOk (setRecWord s node 4 0) node = true →
      ∃ t x', Runs (.periodBoundary node) s t ∧ smGet t.leaves node = some x' ∧ t.time < x'.boundary ∧ x'.next = x.next ∧
        ∀ i, i < 8 → cByte t (node + 32 + i) = 0) ∧
    (launchAt s l = some v → v.st = .ready → v.undisp = 0 → v.total ≤ v.halted → (domainSt s v.fdom).domRst ≠ 1 → gensMove s v = false →
      (signalHeld s l v = false →
        Runs (.launchComplete l) s (updateReady (if indexEnded (closeLaunch s l v true) v then closeLaunch s l v true
          else endIndex (closeLaunch s l v true) v.leaf v.idx)) ∧
        ∃ t v', Runs (.launchComplete l) s t ∧ launchAt t l = some v' ∧ v'.st = .complete ∧ v'.degraded = false) ∧
      (signalHeld s l v = true →
        Runs (.launchComplete l) s (setLaunch s l { v with stall := if v.stall = 0 then s.time + 1 else v.stall }))) ∧
    (launchAt s l = some v → v.st = .lost → noJobs s l = true → gensMove s v = false → indexEnded (closeLaunch s l v false) v = false →
      Runs (.launchComplete l) s (updateReady (endIndex (closeLaunch s l v false) v.leaf v.idx)))

/-- Near-memory units: NM_JOB_START gives the oldest queued job to the lowest free unit; NM_JOB_COMPLETE ends a job whose nest was walked with
status 2, what it wrote and its flags, or with status 3 and the code of its failure; at a frozen page the unit waits, and 50 µs after the wait began
the job fails with code 6; a job that made no progress for 100 µs fails with code 5; an alert tells the domain of a unit that made half of a row's
activations, and of another nothing. -/
def Obligations.NearMemoryEvents : Prop :=
  ∀ (s : State) (m u : Nat),
    (∀ j r, (mdieSt s m).queue = j :: r → freeUnit (mdieSt s m) = some u →
      Runs (.nmJobStart m) s (setMdie s m { mdieSt s m with queue := r, running := (mdieSt s m).running ++ [{ j with unit := some u, started := s.time }] })) ∧
    (∀ j, unitJob s m u = some j →
      let n := nestOf (j.words.map BitVec.toNat)
      let r := nestWalk n j n.steps n.zero (nmStartRun s j)
      (r.fail = none → Runs (.nmJobComplete m u) s (nmEnd (if n.win then nmSetWindow r.s n j r.win else r.s) m j 0 0 r.fl) ∧
        (n.notify = false → ∃ t, Runs (.nmJobComplete m u) s t ∧ (∃ vc, smGet (mdieSt t m).ended j.handle = some (2, 0, vc)) ∧
          (∀ x ∈ (mdieSt t m).running, x.handle ≠ j.handle))) ∧
      (∀ f, r.fail = some f → f.code ≠ 7 → Runs (.nmJobComplete m u) s (nmFailRun r m j n f.code f.addr)) ∧
      (∀ a, r.fail = some ⟨7, a⟩ →
        ((∀ p t, j.stall = some (p, t) → p ≠ a / 4096) → Runs (.nmJobComplete m u) s (nmStall s m j a)) ∧
        (∀ t, j.stall = some (a / 4096, t) → s.time < t + 50000 → Runs (.nmJobComplete m u) s s) ∧
        (∀ t, j.stall = some (a / 4096, t) → t + 50000 ≤ s.time → Runs (.nmJobComplete m u) s (nmFailRun r m j n 6 a))) ∧
      (j.started + 100000 ≤ s.time → Runs (.nmWatchdogReset m u) s (nmFailRun (nmStartRun s j) m j n 5 0)) ∧
      (∀ row share total, total ≤ 2 * share → Runs (.activationAlert m u row share total) s (raiseEvent s j.fdom 11 u (8 + m) row j.handle)) ∧
      (∀ row share total, 2 * share < total → Runs (.activationAlert m u row share total) s s))

/-- Storage and time: a core's failed attempt for a line's tokens is counted, the eighth enters its persistent request, and the request that is first
collects the tokens and is cleared; a page move whose page no commit holds ends with XL_MST 2; a stall of 50 µs at a frozen page is marked as over, and
only such a stall; a due weight recheck examines every ready generation and notes its time; a scrub that finds a line bad acts on it; a throw arrives at
its core, a sender's throws in their order, and is put in the target's L1 within CATCHQ or counted in CATCHREF; with G past 2^47 and no region open every
position is reset and positions on their way are dropped, and with one open the rebase waits. -/
def Obligations.StorageEvents : Prop :=
  ∀ (s : State) (line core f k : Nat) (st : Stream) (die : Nat) (bad : Bool),
    (let l := persistOf s (core / 64) line;
     let n := smGetD s.M.attempts (attemptKey core line) 0 + 1;
     let busy := s.M.persistent.any (fun e => e.2 % 2 ^ 20 == core && e.1 % 16 == line % 16);
      (l.any (fun e => e.1 == core) = false → n < 8 ∨ busy = true →
        Runs (.persistentRequest line core) s { s with M := { s.M with attempts := smSet s.M.attempts (attemptKey core line) n } }) ∧
      (l.any (fun e => e.1 == core) = false → 8 ≤ n → busy = false →
        Runs (.persistentRequest line core) s (setPersist { s with M := { s.M with attempts := smErase s.M.attempts (attemptKey core line) } } (core / 64) line
          (l ++ [(core, if l.isEmpty then 0 else 1)]))) ∧
      (l.any (fun e => e.1 == core) = true → persistFirst s (core / 64) line = some core →
        Runs (.persistentRequest line core) s (persistServed
          (tokWrite (dropCopies (landThrows s (core / 64) line) (core / 64) line (core % 64)) (core / 64) line (core % 64)) core line))) ∧
    (∀ m, s.M.moves.find? (fun x => x.fdom == f) = some m →
      (moveWaits s m = false → Runs (.pageMoveRemap f) s (finishMove s m) ∧ ∃ t, Runs (.pageMoveRemap f) s t ∧ (domainSt t f).xlMst = mstWord 2 0) ∧
      (moveWaits s m = true → Runs (.pageMoveRemap f) s s)) ∧
    (∀ j, jobAt s k = some j → ∃ j', Runs (.freezeStallTimeout k st) s (setJob s k j') ∧ ∀ c,
      (∀ t, smGet j.stallStart c = some (t + 1) → c % 4 = streamCode st → t + 50000 ≤ s.time → smGet j'.stallStart c = some 0) ∧
      ((∀ t, smGet j.stallStart c = some (t + 1) → c % 4 = streamCode st → s.time < t + 50000) → smGet j'.stallStart c = smGet j.stallStart c)) ∧
    (let d := domainSt s f;
      d.wtCount ≠ 0 → d.wtLast + d.wtInterval * 1000000000 ≤ s.time → recheckWaits s f = false →
      let t := (List.range d.wtCount).foldl (fun s i =>
        let e := d.wtBase.toNat + 64 * i
        if entryOk s f e then (List.range (2 ^ virtWord s f (e + 24))).foldl (fun s n => recheckGen s f e n) s else s) s
      Runs (.weightRecheck f) s (setDomain t f { domainSt t f with wtLast := s.time })) ∧
    Runs (.patrolScrub die line bad) s (if bad then failLineAt s die line else s) ∧
    (∀ pre uid post, s.M.deliveries = pre ++ (core, line, uid) :: post → (∀ x ∈ pre, x.1 = core → x.2.1 ≠ line ∧ x.2.2 ≠ uid) →
      let s' := { s with M := { s.M with deliveries := pre ++ post } }
      let c := coreSt s core
      Runs (.throwDelivery core line) s (deliver s' core line) ∧
      (c.lru.contains line = false → c.catchq ≤ untouched s' core →
        Runs (.throwDelivery core line) s (setCore s' core { c with catchref := satInc 32 c.catchref })) ∧
      (c.lru.contains line = false → untouched s' core < c.catchq → (c.lru.filter (fun l => l1Set l == l1Set line && l != line)).length < 8 →
        ∃ t, Runs (.throwDelivery core line) s t ∧ (coreSt t core).lru.head? = some line ∧ (coreSt t core).caught.head? = some line ∧
          (coreSt t core).catchref = c.catchref)) ∧
    (2 ^ 47 < s.gpos.toNat → s.jobs.any (fun e => e.2.region.isSome) = false →
      ∃ t, Runs .positionRebase s t ∧ t.gpos = 1 ∧ t.rebasing = false ∧ t.M.lines = [] ∧ t.M.mem = s.M.mem ∧ t.jobs = s.jobs ∧
        (∀ p ∈ t.F.inbox, p.cls ≠ 7) ∧ ((∃ a, smGet s.dies die = some a) → (dieSt t die).g = 1) ∧
        ((∃ a, smGet s.mdies die = some a) → (mdieSt t die).g = 1 ∧ (mdieSt t die).floor = 0)) ∧
    (2 ^ 47 < s.gpos.toNat → s.jobs.any (fun e => e.2.region.isSome) = true → Runs .positionRebase s { s with rebasing := true })

/-! ### Fabric messages -/

/-- Requests, snoops and grants that wait at their destination are acted on and leave the inbox: reads and writes take the line's permission
at its home and answer with data or an acknowledgement, or say that the page moved or to try again; an atomic performs one strong read-modify-write
and answers the old value, or the poison; a near-memory job joins the queue of its M-die, finds it full or is refused; a steal request cuts the
larger half off a walker's range; a register access is performed or refused; snoops give copies up, with dirty bytes as data; grants are entered in the
directory where it does not say so already. -/
def Obligations.FabricRequests : Prop :=
  ∀ (s : State) (m : Msg),
    (∀ r op, (atHomeOf s op m).2 = some r →
      (op = 0 → Waits s 1 0 m → Runs (.reqReadShared m) s (respond (atHomeOf s 0 m).1 m r)) ∧
      (op = 1 → Waits s 1 1 m → Runs (.reqReadOwned m) s (respond (atHomeOf s 1 m).1 m r)) ∧
      (op = 2 → Waits s 1 2 m → Runs (.reqWrite m) s (respond (atHomeOf s 2 m).1 m r)) ∧
      (op = 3 → Waits s 1 3 m → Runs (.reqAtomic m) s (respond (atHomeOf s 3 m).1 m r)) ∧
      (op = 4 → Waits s 1 4 m → Runs (.reqReleasePermission m) s (respond (atHomeOf s 4 m).1 m r))) ∧
    (Waits s 1 0 m → (atHomeOf s 0 m).2 = none →
      Runs (.reqReadShared m) s (replyLine (grant (homeRead (atHomeOf s 0 m).1 m) m 0) m)) ∧
    (Waits s 1 1 m → (atHomeOf s 1 m).2 = none →
      Runs (.reqReadOwned m) s (replyLine (grant (homeOwn (atHomeOf s 1 m).1 m 2) m 1) m)) ∧
    (Waits s 1 2 m → (atHomeOf s 2 m).2 = none →
      Runs (.reqWrite m) s (respond (grant (homeOwn (atHomeOf s 2 m).1 m 2) m 1) m 0)) ∧
    (Waits s 1 3 m → (atHomeOf s 3 m).2 = none → poisoned (atHomeOf s 3 m).1 (msgLine m) = true →
      Runs (.reqAtomic m) s (reply (atHomeOf s 3 m).1 m 3 2 (2 ^ 64 - 1) 0)) ∧
    (Waits s 1 3 m → (atHomeOf s 3 m).2 = none → poisoned (atHomeOf s 3 m).1 (msgLine m) = false →
      let n := 2 ^ (Config.atomicSize m.data).val
      let pa := msgAddr m / n * n
      let s1 := dirHostWrite (watchHit (atHomeOf s 3 m).1 (msgLine m) 0 4 m.ftag.toNat m.src.toNat) (msgLine m)
      let old := leNat (homeBytes s1 pa n)
      let s2 := deviceWrite s1 pa (natLe n (Config.atomicNew m.data (BitVec.ofNat 64 old)).toNat)
      Runs (.reqAtomic m) s (reply (respond { s2 with M := { s2.M with rel := s1.M.rel } } m 4) m 3 1 (maskIn pa n (msgLine m))
        (msgData (placeAt (pa % 64) (natLe n old))))) ∧
    (Waits s 1 4 m → (atHomeOf s 4 m).2 = none →
      (m.src.toNat < 4 → Runs (.reqReleasePermission m) s (respond (dieGivesUp (atHomeOf s 4 m).1 m.src.toNat (msgLine m) m.ftag.toNat) m 0)) ∧
      (4 ≤ m.src.toNat → Runs (.reqReleasePermission m) s (respond (atHomeOf s 4 m).1 m 0))) ∧
    (Waits s 1 5 m →
      let q := noteOut (took s 1 5 m) 1 5 m
      let w := (List.range 16).map (fun i => recWord q (msgAddr m) i)
      let md := m.dst.toNat - 8
      let d := mdieSt q md
      let ok := nestOk q 0 w = true ∧ 8 ≤ m.dst.toNat ∧ (nestOf w).mdie = md
      (¬ok → Runs (.reqNearMemoryJob m) s (respond q m 3)) ∧
      (ok → 64 ≤ d.queue.length → Runs (.reqNearMemoryJob m) s (respond q m 1)) ∧
      (ok → d.queue.length < 64 → Runs (.reqNearMemoryJob m) s (respond (setMdie q md { d with serial := d.serial + 1, queue := d.queue ++
        [⟨md * 2 ^ 44 + (d.serial + 1), 0, m.ftag.toNat, m.src.toNat, w.map (BitVec.ofNat 64), none, 0, [], [], none⟩] }) m 0))) ∧
    (Waits s 1 6 m →
      let q := noteOut (took s 1 6 m) 1 6 m
      (∀ v, launchAt s (msgAddr m) = some v → v.st = .ready → m.src.toNat < v.ranges.length →
        (rangeOfDie v m.src.toNat).2 ≤ (rangeOfDie v m.src.toNat).1 → 2 ≤ (rangeOfDie v m.dst.toNat).2 - (rangeOfDie v m.dst.toNat).1 →
        let own := rangeOfDie v m.dst.toNat
        let cut := own.2 - (own.2 - own.1) / 2
        Runs (.reqWalkerSteal m) s (respond (setLaunch q (msgAddr m) { v with
          ranges := (v.ranges.set m.dst.toNat (own.1, cut)).set m.src.toNat (cut, own.2) }) m 0)) ∧
      (∀ v, launchAt s (msgAddr m) = some v → v.st ≠ .ready ∨ (rangeOfDie v m.dst.toNat).2 - (rangeOfDie v m.dst.toNat).1 < 2 ∨
          (rangeOfDie v m.src.toNat).1 < (rangeOfDie v m.src.toNat).2 →
        Runs (.reqWalkerSteal m) s (respond q m 0)) ∧
      (launchAt s (msgAddr m) = none → Runs (.reqWalkerSteal m) s (respond q m 0))) ∧
    (Waits s 1 7 m →
      let q := noteOut (took s 1 7 m) 1 7 m
      (regAt q (msgAddr m / 8 * 8) = none → Runs (.reqRegisterAccess m) s (errorAnswer q m.dst.toNat 1 m 3)) ∧
      (∀ r, regAt q (msgAddr m / 8 * 8) = some r →
        match Config.registerForm m.data with
        | some v => Runs (.reqRegisterAccess m) s (if r.mayWrite (msgAgent m) then respond (regWrite q r v) m 0 else errorAnswer q m.dst.toNat 1 m 3)
        | none => Runs (.reqRegisterAccess m) s (if r.mayRead (msgAgent m) then
            reply (respond q m 4) m 3 1 255 (BitVec.ofNat 512 (regRead q r)) else errorAnswer q m.dst.toNat 1 m 3))) ∧
    (Waits s 4 0 m →
      let q := noteOut (took s 4 0 m) 4 0 m
      let mask := dirtyMask q (msgLine m)
      let t := setDir (dirYield q m.dst.toNat (msgLine m) m.ftag.toNat) (msgLine m) (.shared (2 ^ m.dst.toNat) false)
      (dirOwned q m.dst.toNat (msgLine m) = false → Runs (.snpRecallOwner m) s (respond q m 0)) ∧
      (dirOwned q m.dst.toNat (msgLine m) = true → mask = 0 → Runs (.snpRecallOwner m) s (respond t m 0)) ∧
      (dirOwned q m.dst.toNat (msgLine m) = true → mask ≠ 0 → poisoned t (msgLine m) = true → Runs (.snpRecallOwner m) s (reply t m 3 2 mask 0)) ∧
      (dirOwned q m.dst.toNat (msgLine m) = true → mask ≠ 0 → poisoned t (msgLine m) = false →
        Runs (.snpRecallOwner m) s (reply t m 3 (if mask = 2 ^ 64 - 1 then 0 else 1) mask (msgData (cBytes q (64 * msgLine m) 64))))) ∧
    (Waits s 4 1 m → Runs (.snpInvalidate m) s (respond (dieGivesUp (noteOut (took s 4 1 m) 4 1 m) m.dst.toNat (msgLine m) m.ftag.toNat) m 0)) ∧
    (Waits s 4 2 m → Runs (.snpForcedPublish m) s (respond (publishSel (noteOut (took s 4 2 m) 4 2 m)
      (fun c => c.line == msgLine m && instCore c.level c.inst / 64 == m.dst.toNat) 3) m 5)) ∧
    (Waits s 5 0 m →
      (smGet s.M.dir (msgLine m) = none → Runs (.tokGrantShared m) s (setDir (took s 5 0 m) (msgLine m) (.shared (2 ^ m.dst.toNat) false))) ∧
      (∀ v h, smGet s.M.dir (msgLine m) = some (.shared v h) → bitOf v m.dst.toNat = false →
        Runs (.tokGrantShared m) s (setDir (took s 5 0 m) (msgLine m) (.shared (v + 2 ^ m.dst.toNat) h))) ∧
      (∀ v h, smGet s.M.dir (msgLine m) = some (.shared v h) → bitOf v m.dst.toNat = true → Runs (.tokGrantShared m) s (took s 5 0 m))) ∧
    (Waits s 5 1 m → smGet s.M.dir (msgLine m) = none ∨ smGet s.M.dir (msgLine m) = some (.shared (2 ^ m.dst.toNat) false) →
      Runs (.tokGrantOwned m) s (setDir (took s 5 1 m) (msgLine m) (.owned m.dst.toNat))) ∧
    (Waits s 5 2 m → Runs (.tokRevoke m) s (respond (dieGivesUp (took s 5 2 m) m.dst.toNat (msgLine m) m.ftag.toNat) m 0))

/-- Answers and other messages that wait are acted on: responses close their request, keep it, or poison or report it; data reach their die;
positions and narrowings are learnt; a row that is next in number is placed once nothing it writes waits; a pick record is written at its row's TAG, once the
page is not frozen; management messages are answered: a descriptor is sent, entered or refused, a table takes the cores out of reset, a replica is
written or refused, and an event's record is written. -/
def Obligations.FabricAnswers : Prop :=
  ∀ (s : State) (m : Msg),
    (Waits s 2 0 m → Runs (.rspAck m) s (closeOut (took s 2 0 m) m)) ∧
    (Waits s 2 1 m → Runs (.rspRetry m) s (took s 2 1 m)) ∧
    (∀ c o a f, Waits s 2 2 m → outOf s m = some (c, o, a, f) →
      let q := closeOut (took s 2 2 m) m
      Runs (.rspMoved m) s { q with M := { q.M with tlb := s.M.tlb.filter (fun x => x.fdom != f) } }) ∧
    (∀ o a f, Waits s 2 3 m → outOf s m = some (1, o, a, f) →
      (o < 2 → Runs (.rspError m) s (poisonLine (closeOut (took s 2 3 m) m) (lineOf a))) ∧
      (2 ≤ o → o < 4 → Runs (.rspError m) s (raiseEvent (closeOut (took s 2 3 m) m) f 12 (Config.errorCode m.w1) m.dst.toNat a m.ftag.toNat)) ∧
      (4 ≤ o → Runs (.rspError m) s (closeOut (took s 2 3 m) m))) ∧
    (∀ c o a f, Waits s 2 3 m → outOf s m = some (c, o, a, f) → c ≠ 1 → Runs (.rspError m) s (closeOut (took s 2 3 m) m)) ∧
    (Waits s 2 4 m → Runs (.rspDataFollows m) s (took s 2 4 m)) ∧
    (Waits s 2 5 m → Runs (.rspForcedPublishAck m) s (closeOut (took s 2 5 m) m)) ∧
    (Waits s 3 0 m → Runs (.datLine m) s (dataArrives (took s 3 0 m) m (2 ^ 64 - 1))) ∧
    (Waits s 3 1 m → Runs (.datPartialLine m) s (dataArrives (took s 3 1 m) m m.w1.toNat)) ∧
    (∀ c o a f, Waits s 3 2 m → outOf s m = some (c, o, a, f) → (smGet s.M.poison (lineOf a)).isSome = false →
      Runs (.datPoisonedLine m) s (poisonLine (closeOut (took s 3 2 m) m) (lineOf a))) ∧
    (∀ c o a f, Waits s 3 2 m → outOf s m = some (c, o, a, f) → (smGet s.M.poison (lineOf a)).isSome = true →
      Runs (.datPoisonedLine m) s (closeOut (took s 3 2 m) m)) ∧
    (∀ e, Waits s 6 0 m → s.jobs.find? (fun x => (x.2.region.map (·.id)) == some (msgWord m 0)) = some e →
      Runs (.nrw m) s (learnAt (took s 6 0 m) e.1 (msgWord m 1) (msgWord m 2))) ∧
    (Waits s 7 0 m → 8 ≤ m.dst.toNat →
      ∃ t, Runs (.pos m) s t ∧ (mdieSt t (m.dst.toNat - 8)).g.toNat = Nat.max (mdieSt s (m.dst.toNat - 8)).g.toNat (Nat.max (msgWord m 1) (msgWord m 0 + 1)) % 2 ^ 48) ∧
    (let key := 32 * m.src.toNat + m.dst.toNat;
     let d := dieSt s m.dst.toNat;
     let n := smGetD d.scatSeq m.src.toNat 0;
     let put : List Msg → State := fun l => { took s 8 0 m with F := { (took s 8 0 m).F with rows := smSet s.F.rows key l } };
      Waits s 8 0 m → smGetD s.F.rows key [] = [] →
      (msgAddr m ≠ n → Config.rowForm [] = none → Runs (.ingTokenRow m) s (put [m])) ∧
      (msgAddr m = n → Config.rowForm [m.data] = none → Runs (.ingTokenRow m) s (put [m])) ∧
      (∀ tag buf row, msgAddr m = n → Config.rowForm [m.data] = some (tag, buf, row) →
        (rowWaits s m [m] = true → Runs (.ingTokenRow m) s s) ∧
        (rowWaits s m [m] = false → ingWaits (put [m]) m.dst.toNat m.src.toNat m.ftag.toNat tag buf row = false →
          Runs (.ingTokenRow m) s (rowPlaced (setDie { put [m] with F := { (put [m]).F with rows := smSet (put [m]).F.rows key [] } } m.dst.toNat
            { d with scatSeq := smSet d.scatSeq m.src.toNat ((n + 1) % 2 ^ 48) }) m n tag buf row)))) ∧
    (∀ f va, Waits s 8 1 m → smGet s.F.picks (2 ^ 48 * m.dst.toNat + msgAddr m) = some (f, va) →
      (translateMem s f true va .write ≠ .frozen →
        let q := took s 8 1 m
        Runs (.ingPickRecord m) s (virtStore { q with F := { q.F with picks := smErase s.F.picks (2 ^ 48 * m.dst.toNat + msgAddr m) } } f va (dataBytes m.data))) ∧
      (translateMem s f true va .write = .frozen → Runs (.ingPickRecord m) s s)) ∧
    (∀ op, s.F.inbox.find? (fun p => p.cls == 9 && p.op == op) = some ⟨9, op, m⟩ →
      (op = 0 → (smGet s.B.parts m.dst.toNat).isSome = true → (dieSt s m.dst.toNat).result = 0 → Runs .mgtDescriptorRequest s (sendMsg (took s 9 0 m) m.dst.toNat m.src.toNat 9 1 0 0 (msgData (descOf (took s 9 0 m) m.dst.toNat)))) ∧
      (op = 1 → m.dst.toNat = s.B.primary → s.B.asked.contains m.src.toNat = true →
        Runs .mgtDescriptor s (answered (if descOk (dataBytes m.data) then putDesc (took s 9 1 m) m.src.toNat (dataBytes m.data) else took s 9 1 m) m.src.toNat)) ∧
      (op = 2 → s.B.status = 1 → Runs .mgtTopology s (setDie (took s 9 2 m) m.dst.toNat { dieSt (took s 9 2 m) m.dst.toNat with stage := 5 })) ∧
      (op = 3 →
        (∀ n r, regAt (took s 9 3 m) (msgAddr m) = some (.fwin n r) →
          Runs .mgtFirmwareReplicaWrite s (respond (regWrite (took s 9 3 m) (.fwin n r) (BitVec.ofNat 64 (bits m.data.toNat 0 64))) m 0)) ∧
        ((∀ n r, regAt (took s 9 3 m) (msgAddr m) ≠ some (.fwin n r)) → Runs .mgtFirmwareReplicaWrite s (errorAnswer (took s 9 3 m) m.dst.toNat 9 m 3))) ∧
      (op = 4 → m.dst.toNat = s.B.primary → Runs .mgtEvent s (raiseEvent (took s 9 4 m) (bits m.data.toNat 36 12) (bits m.data.toNat 56 8)
        (bits m.data.toNat 48 8) (bits m.data.toNat 31 5) (bits m.data.toNat 64 64) (bits m.data.toNat 128 64))))

/-- Flits and links: a flit whose CRC fails, or whose number is ahead, is answered NAK and changes nothing else, an earlier one is acknowledged again;
one whose CRC and number are right counts, returns its credits, and the messages of its three slots arrive; a link trains again before boot and after
eight requests in a row for the same flit. -/
def Obligations.FlitsAndLinks : Prop :=
  ∀ (s : State) (die module : Nat) (flit : BitVec 2048),
    let l := natLe 256 flit.toNat
    let k := moduleKey die module
    let e := smGetD s.F.flit k 0
    let hdr := leNat (l.take 8)
    (crc64 (l.take 248) ≠ leNat (l.drop 248) → Runs (.flitReceive die module flit) s (setHeader s k (e + 4095) true)) ∧
    (crc64 (l.take 248) = leNat (l.drop 248) → bits hdr 52 12 ≠ e →
      Runs (.flitReceive die module flit) s (setHeader s k (e + 4095) (decide ((bits hdr 52 12 + 4096 - e) % 4096 < 2048)))) ∧
    (crc64 (l.take 248) = leNat (l.drop 248) → bits hdr 52 12 = e →
      (∃ q : State, Runs (.flitReceive die module flit) s ((List.range 3).foldl (fun s i => slotArrives s ((l.drop (8 + 80 * i)).take 80)) q) ∧
        q.F.flit = smSet s.F.flit k ((e + 1) % 4096) ∧ q.F.inbox = s.F.inbox ∧ q.F.header = smSet s.F.header k (e % 4096) ∧ q.M = s.M ∧ q.jobs = s.jobs ∧
        smGetD q.F.naks k 0 = (if bitOf hdr 39 then smGetD s.F.naks k 0 + 1 else 0) ∧
        ∀ i, i < 9 → smSorted none s.F.credit = true → smGetD q.F.credit (k * 16 + (i + 1)) 0 = smGetD s.F.credit (k * 16 + (i + 1)) 0 + bits hdr (4 * i) 4) ∧
      ((l.drop 8).take 240 = List.replicate 240 0 → ∃ t, Runs (.flitReceive die module flit) s t ∧ smGetD t.F.flit k 0 = (e + 1) % 4096 ∧
        t.F.inbox = s.F.inbox ∧ t.M = s.M ∧ t.jobs = s.jobs)) ∧
    (∀ link rates repaired r rep, link < 7 → smGet s.B.links (8 * die + link) = some (r, rep) →
      s.B.status ≠ 1 ∨ (∃ i, i < linkModules link ∧ 8 ≤ smGetD s.F.naks (moduleKey die (linkFirst link + i)) 0) →
      ∃ t, Runs (.linkRetrain die link rates repaired) s t ∧ smGet t.B.links (8 * die + link) = some (cleanRates link rates.toNat, Nat.min 255 (rep + repaired)) ∧
        t.F.inbox = s.F.inbox)

/-! ### The host, registers, boot -/

/-- Host accesses: reads and posted writes of the register range are performed register by register; of a booted package they act at the home, in a
coherent window after what stands before them (R290), and behind the bulk window on host memory alone; an access outside every range, before boot or to a
poisoned or unreachable line gets an error response, one that must wait is answered 2; atomics answer the old value and are refused where they do not
lie aligned in device memory; a snoop of a coherent window takes or shares the line. -/
def Obligations.HostAccesses : Prop :=
  ∀ (s : State) (pa n : Nat) (data : BitVec 512),
    (rangeSpan s pa n = .absent → Runs (.hostRead pa n) s (hostError s pa) ∧ Runs (.hostWrite pa n data) s (hostError s pa)) ∧
    (rangeSpan s pa n = .regs →
      (∀ l, hostRegBytes s pa n = some l → Runs (.hostRead pa n) s (hostData s l)) ∧
      (hostRegBytes s pa n = none → Runs (.hostRead pa n) s (hostError s pa)) ∧
      (∀ t, agentRegWrite s .host pa (hostBytes n data) = some t → Runs (.hostWrite pa n data) s (hostAnswer t [0])) ∧
      (agentRegWrite s .host pa (hostBytes n data) = none → Runs (.hostWrite pa n data) s (hostError s pa))) ∧
    (rangeSpan s pa n ≠ .absent → rangeSpan s pa n ≠ .regs →
      (hostOpen s = false → Runs (.hostRead pa n) s (hostError s pa) ∧ Runs (.hostWrite pa n data) s (hostError s pa)) ∧
      (hostOpen s = true → hostWaits s pa n = true → Runs (.hostRead pa n) s (hostAnswer s [2]) ∧ Runs (.hostWrite pa n data) s (hostAnswer s [2]))) ∧
    (rangeSpan s pa n = .tier1 ∨ rangeSpan s pa n = .tier2 → hostOpen s = true → hostWaits s pa n = false →
      ((linesOf pa n).any (poisoned s) = false → let t := hostAcquire ((linesOf pa n).foldl hostReadLine s) pa n 3;
        Runs (.hostRead pa n) s (hostData t (homeBytes t pa n))) ∧
      ((linesOf pa n).any (poisoned s) = true → Runs (.hostRead pa n) s (hostError s pa)) ∧
      ((linesOf pa n).any (unreachable s) = false →
        Runs (.hostWrite pa n data) s (hostAnswer (homeStore (hostWatch s pa n 2) pa (keepTails s pa (hostBytes n data)) []) [0])) ∧
      ((linesOf pa n).any (unreachable s) = true → Runs (.hostWrite pa n data) s (hostError s pa))) ∧
    (rangeSpan s pa n = .mailbox ∨ rangeSpan s pa n = .bulk → hostOpen s = true → hostWaits s pa n = false →
      (coherentWindow s pa = true →
        (let t := hostAcquire ((linesOf pa n).foldl (fun s ln => dirHostRead (combineLine s ln) ln) (hostPrep s pa n)) pa n 4;
          Runs (.hostRead pa n) s (hostData t (homeBytes t pa n))) ∧
        Runs (.hostWrite pa n data) s (hostAnswer (homeStore (hostPrep s pa n) pa (keepTails s pa (hostBytes n data)) (hostRelease s pa n)) [0])) ∧
      (coherentWindow s pa = false → Runs (.hostRead pa n) s (hostData s (homeBytes s pa n)) ∧
        Runs (.hostWrite pa n data) s (hostAnswer (bulkWrite s pa (keepTails s pa (hostBytes n data))) [0]))) ∧
    (∀ (wide : Bool) (v w : Word),
      let z := if wide then 8 else 4
      let ok := (rangeOf s pa = .tier1 ∨ rangeOf s pa = .tier2) ∧ pa % z = 0 ∧ hostOpen s = true ∧ poisoned s (lineOf pa) = false
      let s1 := hostAcquire (dirHostWrite (watchHit (combineLine s (lineOf pa)) (lineOf pa) 2 4 0 hostDie) (lineOf pa)) pa z 3
      let old := leNat (homeBytes s1 pa z)
      let new : Nat → State := fun x =>
        let q := homeStore s1 pa (keepTails s1 pa (natLe z x)) []
        hostAnswer { q with M := { q.M with rel := s1.M.rel } } [0, BitVec.ofNat 64 old]
      (ok → hostWaits s pa z = false →
        Runs (.hostFetchAdd pa wide v) s (new (old + v.toNat)) ∧ Runs (.hostSwap pa wide v) s (new v.toNat) ∧
        Runs (.hostCompareSwap pa wide v w) s (new (if old = v.toNat % 2 ^ (if wide then 64 else 32) then w.toNat else old))) ∧
      (ok → hostWaits s pa z = true → Runs (.hostFetchAdd pa wide v) s (hostAnswer s [2]) ∧ Runs (.hostSwap pa wide v) s (hostAnswer s [2]) ∧
        Runs (.hostCompareSwap pa wide v w) s (hostAnswer s [2])) ∧
      (¬ok → Runs (.hostFetchAdd pa wide v) s (hostError s pa) ∧ Runs (.hostSwap pa wide v) s (hostError s pa) ∧
        Runs (.hostCompareSwap pa wide v w) s (hostError s pa))) ∧
    (∀ line, rangeOf s (64 * line) = .mailbox ∨ (rangeOf s (64 * line) = .bulk ∧ s.B.cxl = true) →
      let q := (strongView s line).getD (combineLine s line)
      Runs (.coherentWindowSnoop line true) s (dropStale (dirHostWrite q line) line) ∧ Runs (.coherentWindowSnoop line false) s (dirHostRead q line))

/-- Writes of registers that have an event of their own: TEN_ROOT starts, refuses or stops a tenant, TEN_KICK reads its tails again, DOM_RST starts a
reset, XL_INV drops translations of all pages or of a range, XL_MIG is ignored during a move and refused with codes 1 to 4, and otherwise freezes the
page, ERR_POP drops the oldest log record and is refused for an absent die, a format window takes a valid setting and refuses another, TR_HEAD frees
places of the trace ring; a register that firmware may not write is refused. -/
def Obligations.RegisterWrites : Prop :=
  ∀ (s : State) (v : Word) (n : BitVec 6) (f : BitVec 12) (die : BitVec 5) (w : BitVec 4) (r : BitVec 2) (pa : Nat),
    (v.getLsbD 0 = false → ∃ t, Runs (.tenRoot n v) s t ∧ (tenantSt t n.toNat).run = false ∧ (tenantSt t n.toNat).root = keep v [(7, 41), (0, 1)]) ∧
    (let dom := (tenantSt s n.toNat).dom.toNat;
     let bad := bits v.toNat 7 41 = 0 ∨ bits dom 0 12 < bits dom 16 12 ∨ s.R.tenants.any (fun e => e.1 != n.toNat && e.2.run &&
        decide (bits e.2.dom.toNat 16 12 ≤ bits dom 0 12) && decide (bits dom 16 12 ≤ bits e.2.dom.toNat 0 12)) = true;
      v.getLsbD 0 = true → ∃ t, Runs (.tenRoot n v) s t ∧ (tenantSt t n.toNat).root = keep v [(7, 41), (0, 1)] ∧
        (bad → (tenantSt t n.toNat).run = false ∧ (tenantSt t n.toNat).err = true) ∧
        (¬bad → (tenantSt t n.toNat).run = true ∧ (tenantSt t n.toNat).err = false)) ∧
    Runs (.tenKick n v) s (kickTenant s n.toNat) ∧
    (v.getLsbD 0 = true → (domainSt s f.toNat).domRst ≠ 1 → Runs (.domRst f v) s (setDomain s f.toNat { domainSt s f.toNat with domRst := 1 })) ∧
    (v.getLsbD 0 = false ∨ (domainSt s f.toNat).domRst = 1 → Runs (.domRst f v) s s) ∧
    (v.getLsbD 63 = true → Runs (.xlInv f v) s { s with M := { s.M with tlb := s.M.tlb.filter (fun t => t.fdom != f.toNat) } }) ∧
    (v.getLsbD 63 = false → Runs (.xlInv f v) s (shootdown s f.toNat (bits v.toNat 12 40) (bits v.toNat 12 40 + bits v.toNat 0 12))) ∧
    (let d := domainSt s f.toNat;
     let va := bits v.toNat 12 40 * 4096;
     let size := moveSize (bits v.toNat 0 2);
     let new := bits d.xlMdst.toNat 12 36 * 4096;
     let ends := fun c => ∃ t, Runs (.xlMig f v) s t ∧ (domainSt t f.toNat).xlMst = c;
     let s1 := setDomain s f.toNat { d with xlMig := BitVec.ofNat 64 (va + bits v.toNat 0 2) };
      (bits d.xlMst.toNat 0 2 = 1 → Runs (.xlMig f v) s s) ∧
      (bits d.xlMst.toNat 0 2 ≠ 1 →
        (bits v.toNat 0 2 = 3 → ends (mstWord 3 4)) ∧
        (bits v.toNat 0 2 ≠ 3 → walk s1 f.toNat va = .fail ∨ walk s1 f.toNat va = .wait → ends (mstWord 3 1)) ∧
        (∀ l, bits v.toNat 0 2 ≠ 3 → walk s1 f.toNat va = .leaf l →
          (leafSize l.entry.toNat l.level ≠ size ∨ bitOf l.entry.toNat 59 = true → ends (mstWord 3 1)) ∧
          (leafSize l.entry.toNat l.level = size → bitOf l.entry.toNat 59 = false →
            (new % size ≠ 0 → ends (mstWord 3 2)) ∧
            (new % size = 0 → ¬((rangeOf s1 new = .tier1 ∧ rangeOf s1 (new + size - 1) = .tier1) ∨
              (rangeOf s1 new = .tier2 ∧ rangeOf s1 (new + size - 1) = .tier2)) → ends (mstWord 3 3)) ∧
            (new % size = 0 → (rangeOf s1 new = .tier1 ∧ rangeOf s1 (new + size - 1) = .tier1) ∨
              (rangeOf s1 new = .tier2 ∧ rangeOf s1 (new + size - 1) = .tier2) → ends (mstWord 1 0) ∧ ∃ t, Runs (.xlMig f v) s t ∧ ∃ l', t.M.moves = l' ++
                [⟨f.toNat, va / size * size, size, entryPa l.entry.toNat, new, leafEntries l⟩]))))) ∧
    ((diesPresent s).contains die.toNat = true →
      Runs (.errPop die v) s (setDie s die.toNat { dieSt s die.toNat with errlog := (dieSt s die.toNat).errlog.drop 1 })) ∧
    ((diesPresent s).contains die.toNat = false → Runs (.errPop die v) s (hostError s (0x300000600000 + 0x1000 * die.toNat + 0x18))) ∧
    (let x := s.R.fwin.toList.getD w.toNat (0, 0, 0, 0);
     let y := if r = 0 then (keep v [(12, 36), (0, 1)], x.2) else if r = 1 then (x.1, keep v [(12, 36)], x.2.2)
        else if r = 2 then (x.1, x.2.1, keep v [(32, 4), (0, 32)], x.2.2.2) else (x.1, x.2.1, x.2.2.1, keep v [(1, 47)]);
     let code := bits y.2.2.1.toNat 32 4;
     let bad := y.1.getLsbD 0 = true ∧ (bits y.2.1.toNat 12 36 < bits y.1.toNat 12 36 ∨ 12 < code ∨
        (code = 12 ∧ (descFmt (bits y.2.2.1.toNat 0 32)).isNone = true));
      (bad → Runs (.fwinWrite w r v) s s) ∧
      (¬bad → ∃ t, Runs (.fwinWrite w r v) s t ∧ t.R.fwin.toList.getD w.toNat (0, 0, 0, 0) = y)) ∧
    Runs (.trHead f v) s (setDomain s f.toNat { domainSt s f.toNat with trHead := keep v [(0, 32)] }) ∧
    (∀ q, regAt s pa = some q → Runs (.registerWrite pa v) s (if q.mayWrite .firmware then regWrite s q v else hostError s pa)) ∧
    (regAt s pa = none → Runs (.registerWrite pa v) s (hostError s pa))

/-- Boot, clock, temperature and resets: a package whose image verifies starts discovery, one that does not stops its dies with the result of
the check; discovery ends after 100 ms; the clock moves by one step in 1 to 60 and at most every 10 µs; heat caps it at 40 steps of 25 MHz,
or stops the die, whose jobs lose their contexts; a domain reset kills launches and jobs, drops what the domain holds and ends with DOM_RST 2; a package
reset leaves the reset state beside flash, fuses, parts and host memory. -/
def Obligations.BootAndResets : Prop :=
  ∀ (s : State) (die : Nat) (f : BitVec 12),
    (s.B.status = 0 → (dieSt s s.B.primary).stage = 0 → Runs .powerOn s
      (if checkImage s = 0 then startDiscovery ((partDies s).foldl bootStarts s)
       else (partDies s).foldl (fun t d => bootFails t d (if d = t.B.primary then checkImage s else 2)) s)) ∧
    (s.B.status = 0 → s.B.asked ≠ [] → 100000000 ≤ s.time → Runs .discoveryTimeout s (finishDiscovery s)) ∧
    (∃ t, Runs .packageReset s t ∧ t.jobs = [] ∧ t.saved = [] ∧ t.launches = [] ∧ t.domains = [] ∧ t.M.mem = [] ∧ t.M.host = s.M.host ∧ t.B.status = 0 ∧
      t.B.flash = s.B.flash ∧ t.B.keyDigest = s.B.keyDigest ∧ t.B.minSvn = s.B.minSvn ∧ t.B.parts = s.B.parts ∧ t.time = 0) ∧
    ((dieSt s die).clkStep ≤ s.time → (dieSt s die).clk ≠ 0 →
      Runs (.clockStep die true) s (setDie s die { dieSt s die with clk := Nat.min 60 ((dieSt s die).clk + 1), clkStep := s.time + 10000 }) ∧
      Runs (.clockStep die false) s (setDie s die { dieSt s die with clk := Nat.max 1 ((dieSt s die).clk - 1), clkStep := s.time + 10000 })) ∧
    ((dieSt s die).clk ≠ 0 → Runs (.thermalThrottle die) s (setDie s die { dieSt s die with clk := Nat.min (dieSt s die).clk 40 })) ∧
    (let t := ((s.jobs.filter (fun e => jDie e.1 == die)).map (fun e => e.1)).foldl (fun s k => match jobAt s k with | some j => loseJob s k j | none => s) s;
      Runs (.thermalStop die) s (setDie t die { dieSt t die with held := true })) ∧
    ((domainSt s f.toNat).domRst = 1 →
      (let t := dropFramesOf (dropDomain (killJobs (killLaunches s f.toNat) f.toNat) f.toNat) f.toNat;
        Runs (.domainResetDone f) s (setDomain t f.toNat { domainSt t f.toNat with domRst := 2 })) ∧
      ∃ t, Runs (.domainResetDone f) s t ∧ (domainSt t f.toNat).domRst = 2 ∧ (domainSt t f.toNat).reserves = [] ∧ (∀ e ∈ t.saved, e.2.fdom ≠ f.toNat))
end

