-- ==== Sys2Proof/Laws/Maps.lean ====
section
/-!
SUPPORT. What reading after writing gives in the finite maps and in memory, and that every writer keeps the canonical form.
-/
namespace Sys2Proof.Machine

variable {α : Type}

/-! ### The canonical form -/

theorem smSorted_lower {l k : Nat} {m : SMap α} (hl : l ≤ k) (h : smSorted (some k) m = true) : smSorted (some l) m = true := by
  cases m with
  | nil => rfl
  | cons e r =>
    obtain ⟨k', v⟩ := e
    simp only [smSorted, Bool.and_eq_true, decide_eq_true_eq] at h ⊢
    exact ⟨by omega, h.2⟩

theorem smSorted_none {k : Nat} {m : SMap α} (h : smSorted (some k) m = true) : smSorted none m = true := by
  cases m with
  | nil => rfl
  | cons e r =>
    obtain ⟨k', v⟩ := e
    simp only [smSorted, Bool.and_eq_true] at h ⊢
    exact h.2

theorem smSet_sorted_some {l : Nat} {m : SMap α} {k : Nat} (v : α) (hk : l < k) (h : smSorted (some l) m = true) :
    smSorted (some l) (smSet m k v) = true := by
  induction m generalizing l with
  | nil => simp [smSet, smSorted, hk]
  | cons e r ih =>
    obtain ⟨k', v'⟩ := e
    simp only [smSorted, Bool.and_eq_true, decide_eq_true_eq] at h
    unfold smSet
    split
    · simp only [smSorted, Bool.and_eq_true, decide_eq_true_eq]; exact ⟨hk, by assumption, h.2⟩
    · split
      · subst_vars; simp only [smSorted, Bool.and_eq_true, decide_eq_true_eq]; exact h
      · simp only [smSorted, Bool.and_eq_true, decide_eq_true_eq]; exact ⟨h.1, ih (by omega) h.2⟩

/-- Writing an entry keeps the keys strictly rising. -/
theorem smSet_sorted {m : SMap α} (k : Nat) (v : α) (h : smSorted none m = true) : smSorted none (smSet m k v) = true := by
  cases m with
  | nil => rfl
  | cons e r =>
    obtain ⟨k', v'⟩ := e
    simp only [smSorted] at h
    unfold smSet
    split
    · simp only [smSorted, Bool.and_eq_true, decide_eq_true_eq]; exact ⟨by assumption, h⟩
    · split
      · subst_vars; exact h
      · exact smSet_sorted_some v (by omega) h

theorem smErase_sorted_some {l : Nat} {m : SMap α} (k : Nat) (h : smSorted (some l) m = true) :
    smSorted (some l) (smErase m k) = true := by
  induction m generalizing l with
  | nil => rfl
  | cons e r ih =>
    obtain ⟨k', v'⟩ := e
    simp only [smSorted, Bool.and_eq_true, decide_eq_true_eq] at h
    unfold smErase
    split
    · simp only [smSorted, Bool.and_eq_true, decide_eq_true_eq]; exact h
    · split
      · exact smSorted_lower (by omega) h.2
      · simp only [smSorted, Bool.and_eq_true, decide_eq_true_eq]; exact ⟨h.1, ih h.2⟩

/-- Removing an entry keeps the keys strictly rising. -/
theorem smErase_sorted {m : SMap α} (k : Nat) (h : smSorted none m = true) : smSorted none (smErase m k) = true := by
  cases m with
  | nil => rfl
  | cons e r =>
    obtain ⟨k', v'⟩ := e
    simp only [smSorted] at h
    unfold smErase
    split
    · exact h
    · split
      · exact smSorted_none h
      · exact smErase_sorted_some k h

/-- Writing an entry that may equal what an absent key reads as keeps the keys strictly rising. -/
theorem smPut_sorted [DecidableEq α] {m : SMap α} (d : α) (k : Nat) (v : α) (h : smSorted none m = true) :
    smSorted none (smPut d m k v) = true := by
  unfold smPut
  split
  · exact smErase_sorted k h
  · exact smSet_sorted k v h

/-! ### Reading after writing -/

@[simp] theorem smGet_nil (k : Nat) : smGet ([] : SMap α) k = none := rfl

/-- The entry just written reads back. -/
@[simp] theorem smGet_smSet_self (m : SMap α) (k : Nat) (v : α) : smGet (smSet m k v) k = some v := by
  induction m with
  | nil => simp [smSet, smGet]
  | cons e r ih =>
    obtain ⟨k', v'⟩ := e
    unfold smSet
    split
    · simp [smGet]
    · split
      · simp [smGet]
      · simp only [smGet]; rw [if_neg (by omega), if_neg (by omega), ih]

/-- Writing one entry leaves every other entry alone. -/
theorem smGet_smSet_ne (m : SMap α) {k k' : Nat} (v : α) (h : k' ≠ k) : smGet (smSet m k v) k' = smGet m k' := by
  induction m with
  | nil => simp only [smSet, smGet]; rw [if_neg (by omega)]; split <;> rfl
  | cons e r ih =>
    obtain ⟨k1, v1⟩ := e
    unfold smSet
    split
    · simp only [smGet]; rw [if_neg (show ¬ k = k' by omega)]
      split
      · rw [if_neg (show ¬ k1 = k' by omega), if_pos (show k' < k1 by omega)]
      · rfl
    · split
      · subst_vars; simp only [smGet]
        split
        · omega
        · rfl
      · simp only [smGet, ih]

theorem smGet_smSet (m : SMap α) (k k' : Nat) (v : α) : smGet (smSet m k v) k' = if k' = k then some v else smGet m k' := by
  split
  · rename_i e; rw [e]; exact smGet_smSet_self m k v
  · exact smGet_smSet_ne m v (by assumption)

@[simp] theorem smGetD_smSet_self (m : SMap α) (k : Nat) (d v : α) : smGetD (smSet m k v) k d = v := by simp [smGetD]

theorem smGetD_smSet_ne (m : SMap α) {k k' : Nat} (d v : α) (h : k' ≠ k) : smGetD (smSet m k v) k' d = smGetD m k' d := by
  simp only [smGetD, smGet_smSet_ne m v h]

theorem smGet_of_sorted_le {l k : Nat} {m : SMap α} (h : smSorted (some l) m = true) (hk : k ≤ l) : smGet m k = none := by
  cases m with
  | nil => rfl
  | cons e r =>
    obtain ⟨k', v'⟩ := e
    simp only [smSorted, Bool.and_eq_true, decide_eq_true_eq] at h
    simp only [smGet]; rw [if_neg (by omega), if_pos (by omega)]

theorem smGet_smErase_aux {l : Nat} {m : SMap α} (k k' : Nat) (h : smSorted (some l) m = true) :
    smGet (smErase m k) k' = if k' = k then none else smGet m k' := by
  induction m generalizing l with
  | nil => simp [smErase, smGet]
  | cons e r ih =>
    obtain ⟨k1, v1⟩ := e
    simp only [smSorted, Bool.and_eq_true, decide_eq_true_eq] at h
    unfold smErase
    split
    · split
      · subst_vars; simp only [smGet]; rw [if_neg (by omega), if_pos (by omega)]
      · rfl
    · split
      · subst_vars
        split
        · subst_vars; exact smGet_of_sorted_le h.2 (le_refl _)
        · simp only [smGet]; rw [if_neg (by omega)]
          split
          · exact smGet_of_sorted_le h.2 (by omega)
          · rfl
      · simp only [smGet, ih h.2]
        split
        · rw [if_neg (by omega), ]
        · split
          · split
            · rfl
            · rfl
          · rfl

/-- Reading after removing an entry. -/
theorem smGet_smErase {m : SMap α} (k k' : Nat) (h : smSorted none m = true) :
    smGet (smErase m k) k' = if k' = k then none else smGet m k' := by
  cases m with
  | nil => simp [smErase, smGet]
  | cons e r =>
    obtain ⟨k1, v1⟩ := e
    simp only [smSorted] at h
    by_cases hk : 0 < k1
    · exact smGet_smErase_aux (l := 0) k k' (by simp only [smSorted, Bool.and_eq_true, decide_eq_true_eq]; exact ⟨hk, h⟩)
    · have h0 : k1 = 0 := by omega
      subst h0
      unfold smErase
      rw [if_neg (by omega)]
      split
      · subst_vars
        split
        · subst_vars; exact smGet_of_sorted_le h (le_refl _)
        · simp only [smGet]; rw [if_neg (by omega), if_neg (by omega)]
      · simp only [smGet]
        rw [smGet_smErase_aux k k' h]
        by_cases e : k' = k
        · subst e; simp [show ¬ 0 = k' by omega]
        · simp [e]

/-- Reading after a write that keeps the canonical form. -/
theorem smGetD_smPut [DecidableEq α] {m : SMap α} (d : α) (k k' : Nat) (v : α) (h : smSorted none m = true) :
    smGetD (smPut d m k v) k' d = if k' = k then v else smGetD m k' d := by
  unfold smPut smGetD
  split
  · rw [smGet_smErase k k' h]
    split
    · simp [*]
    · rfl
  · rw [smGet_smSet]
    split <;> rfl

@[simp] theorem smGetD_smPut_self [DecidableEq α] {m : SMap α} (d : α) (k : Nat) (v : α) (h : smSorted none m = true) :
    smGetD (smPut d m k v) k d = v := by simp [smGetD_smPut d k k v h]

theorem smGetD_smPut_ne [DecidableEq α] {m : SMap α} (d : α) {k k' : Nat} (v : α) (h : smSorted none m = true) (hk : k' ≠ k) :
    smGetD (smPut d m k v) k' d = smGetD m k' d := by simp [smGetD_smPut d k k' v h, hk]

/-- Writing the entry that stands there changes nothing. -/
theorem smSet_same (m : SMap α) (k : Nat) (v : α) (h : smGet m k = some v) : smSet m k v = m := by
  induction m with
  | nil => simp [smGet] at h
  | cons e r ih =>
    obtain ⟨k1, v1⟩ := e
    simp only [smGet] at h
    unfold smSet
    by_cases h1 : k1 = k
    · subst h1; rw [if_pos rfl] at h; rw [if_neg (by omega), if_pos rfl]; simp_all
    · rw [if_neg h1] at h
      by_cases h2 : k < k1
      · rw [if_pos h2] at h; simp at h
      · rw [if_neg h2] at h; rw [if_neg h2, if_neg (by omega), ih h]

/-! ### Memory -/

theorem smSet_all {p : Nat × α → Bool} {m : SMap α} {k : Nat} {v : α} (h : m.all p = true) (hv : p (k, v) = true) :
    (smSet m k v).all p = true := by
  induction m with
  | nil => simp [smSet, hv]
  | cons e r ih =>
    obtain ⟨k', v'⟩ := e
    simp only [List.all_cons, Bool.and_eq_true] at h
    unfold smSet
    split
    · simp [hv, h.1, h.2]
    · split
      · simp [hv, h.2]
      · simp only [List.all_cons, Bool.and_eq_true]; exact ⟨h.1, ih h.2⟩

theorem smErase_all {p : Nat × α → Bool} {m : SMap α} {k : Nat} (h : m.all p = true) : (smErase m k).all p = true := by
  induction m with
  | nil => rfl
  | cons e r ih =>
    obtain ⟨k', v'⟩ := e
    simp only [List.all_cons, Bool.and_eq_true] at h
    unfold smErase
    split
    · simp only [List.all_cons, Bool.and_eq_true]; exact h
    · split
      · exact h.2
      · simp only [List.all_cons, Bool.and_eq_true]; exact ⟨h.1, ih h.2⟩

/-- Writing a byte keeps the canonical form of memory. -/
theorem memWrite_wf {m : Mem} (a : Nat) (v : Byte) (h : m.wf = true) : (memWrite m a v).wf = true := by
  simp only [Mem.wf, Bool.and_eq_true] at h ⊢
  refine ⟨smPut_sorted 0 a v h.1, ?_⟩
  unfold memWrite smPut
  split
  · exact smErase_all h.2
  · exact smSet_all h.2 (by simpa using ‹¬v = 0›)

/-- Writing bytes keeps the canonical form of memory. -/
theorem memWriteBytes_wf {m : Mem} (a : Nat) (l : List Byte) (h : m.wf = true) : (memWriteBytes m a l).wf = true := by
  induction l generalizing m a with
  | nil => exact h
  | cons b r ih => exact ih _ (memWrite_wf a b h)

/-- Empty memory is in canonical form. -/
theorem mem_nil_wf : Mem.wf [] = true := rfl

theorem Mem.wf_sorted {m : Mem} (h : m.wf = true) : smSorted none m = true := by
  simp only [Mem.wf, Bool.and_eq_true] at h; exact h.1

/-- The byte just written reads back; every other byte is unchanged. -/
theorem memRead_memWrite {m : Mem} (a b : Nat) (v : Byte) (h : m.wf = true) :
    memRead (memWrite m a v) b = if b = a then v else memRead m b := smGetD_smPut 0 a b v (Mem.wf_sorted h)

/-- Writing bytes leaves every byte outside them alone. -/
theorem memRead_memWriteBytes_out {m : Mem} (a b : Nat) (l : List Byte) (h : m.wf = true) (hb : b < a ∨ a + l.length ≤ b) :
    memRead (memWriteBytes m a l) b = memRead m b := by
  induction l generalizing m a with
  | nil => rfl
  | cons x r ih =>
    simp only [List.length_cons] at hb
    simp only [memWriteBytes]
    rw [ih (a + 1) (memWrite_wf a x h) (by omega), memRead_memWrite _ _ _ h, if_neg (by omega)]

/-- The bytes just written read back. -/
theorem memRead_memWriteBytes_in {m : Mem} (a i : Nat) (l : List Byte) (h : m.wf = true) (hi : i < l.length) :
    memRead (memWriteBytes m a l) (a + i) = l[i] := by
  induction l generalizing m a i with
  | nil => simp at hi
  | cons x r ih =>
    simp only [memWriteBytes]
    cases i with
    | zero => rw [memRead_memWriteBytes_out _ _ _ (memWrite_wf a x h) (by omega), memRead_memWrite _ _ _ h]; simp
    | succ i =>
      have := ih (a + 1) i (memWrite_wf a x h) (by simpa using hi)
      rw [show a + 1 + i = a + (i + 1) by omega] at this
      simpa using this

/-- Equal reads make equal memories: the canonical form has one representative. -/
theorem Mem.ext {m n : Mem} (hm : m.wf = true) (hn : n.wf = true) (h : ∀ a, memRead m a = memRead n a) : m = n := by
  have aux : ∀ (m n : Mem), (∀ l, smSorted l m = true → smSorted l n = true → m.all (fun c => c.2 != 0) = true →
      n.all (fun c => c.2 != 0) = true → (∀ a, memRead m a = memRead n a) → m = n) := by
    intro m
    induction m with
    | nil =>
      intro n l _ hs _ hz he
      cases n with
      | nil => rfl
      | cons e r =>
        obtain ⟨k, v⟩ := e
        have := he k
        simp [memRead, smGetD, smGet] at this
        simp [← this] at hz
    | cons e r ih =>
      intro n l hs hs' hz hz' he
      obtain ⟨k, v⟩ := e
      have hv : v ≠ 0 := by simp at hz; exact hz.1
      cases n with
      | nil => have := he k; simp [memRead, smGetD, smGet] at this; exact absurd this hv
      | cons e' r' =>
        obtain ⟨k', v'⟩ := e'
        have hv' : v' ≠ 0 := by simp at hz'; exact hz'.1
        have sr : smSorted (some k) r = true := by cases l <;> simp_all [smSorted]
        have sr' : smSorted (some k') r' = true := by cases l <;> simp_all [smSorted]
        have hk : k = k' := by
          rcases Nat.lt_trichotomy k k' with hlt | heq | hgt
          · have := he k
            simp only [memRead, smGetD, smGet, if_true] at this
            rw [if_neg (by omega), if_pos hlt] at this
            exact absurd this hv
          · exact heq
          · have := he k'
            simp only [memRead, smGetD, smGet, if_true] at this
            rw [if_neg (by omega), if_pos hgt] at this
            exact absurd this.symm hv'
        subst hk
        have hvv : v = v' := by simpa [memRead, smGetD, smGet] using he k
        subst hvv
        congr 1
        refine ih r' (some k) sr sr' (by simp at hz; simpa using hz.2) (by simp at hz'; simpa using hz'.2) ?_
        intro a
        by_cases ha : a ≤ k
        · simp [memRead, smGetD, smGet_of_sorted_le sr ha, smGet_of_sorted_le sr' ha]
        · have := he a
          simp only [memRead, smGetD, smGet] at this
          rw [if_neg (by omega), if_neg (by omega), if_neg (by omega), if_neg (by omega)] at this
          exact this
  simp only [Mem.wf, Bool.and_eq_true] at hm hn
  exact aux m n none hm.1 hn.1 hm.2 hn.2 h

/-- The package at reset has its memory in canonical form. -/
theorem reset_mem_wf : State.reset.M.mem.wf = true ∧ State.reset.M.host.wf = true := ⟨rfl, rfl⟩

end Sys2Proof.Machine
end

