-- ==== Sys2Proof/Laws/State.lean ====
section
/-!
SUPPORT. One lemma per field per update: what each setter of the state and of a job changes, and that it leaves the rest alone.
-/
namespace Sys2Proof.Machine

/-! ### `setJob` -/

@[simp] theorem setJob_agenda (s : State) (k : Nat) (j : Job) : (setJob s k j).agenda = s.agenda := by simp only [setJob]
@[simp] theorem setJob_turnJob (s : State) (k : Nat) (j : Job) : (setJob s k j).turnJob = s.turnJob := by simp only [setJob]
@[simp] theorem setJob_turn (s : State) (k : Nat) (j : Job) : (setJob s k j).turn = s.turn := by simp only [setJob]
@[simp] theorem setJob_fresh (s : State) (k : Nat) (j : Job) : (setJob s k j).fresh = s.fresh := by simp only [setJob]
@[simp] theorem setJob_time (s : State) (k : Nat) (j : Job) : (setJob s k j).time = s.time := by simp only [setJob]
@[simp] theorem setJob_gpos (s : State) (k : Nat) (j : Job) : (setJob s k j).gpos = s.gpos := by simp only [setJob]
@[simp] theorem setJob_rebasing (s : State) (k : Nat) (j : Job) : (setJob s k j).rebasing = s.rebasing := by simp only [setJob]
@[simp] theorem setJob_serial (s : State) (k : Nat) (j : Job) : (setJob s k j).serial = s.serial := by simp only [setJob]
@[simp] theorem setJob_nextLaunch (s : State) (k : Nat) (j : Job) : (setJob s k j).nextLaunch = s.nextLaunch := by simp only [setJob]
@[simp] theorem setJob_order (s : State) (k : Nat) (j : Job) : (setJob s k j).order = s.order := by simp only [setJob]
@[simp] theorem setJob_saved (s : State) (k : Nat) (j : Job) : (setJob s k j).saved = s.saved := by simp only [setJob]
@[simp] theorem setJob_launches (s : State) (k : Nat) (j : Job) : (setJob s k j).launches = s.launches := by simp only [setJob]
@[simp] theorem setJob_leaves (s : State) (k : Nat) (j : Job) : (setJob s k j).leaves = s.leaves := by simp only [setJob]
@[simp] theorem setJob_cores (s : State) (k : Nat) (j : Job) : (setJob s k j).cores = s.cores := by simp only [setJob]
@[simp] theorem setJob_clusters (s : State) (k : Nat) (j : Job) : (setJob s k j).clusters = s.clusters := by simp only [setJob]
@[simp] theorem setJob_dies (s : State) (k : Nat) (j : Job) : (setJob s k j).dies = s.dies := by simp only [setJob]
@[simp] theorem setJob_mdies (s : State) (k : Nat) (j : Job) : (setJob s k j).mdies = s.mdies := by simp only [setJob]
@[simp] theorem setJob_domains (s : State) (k : Nat) (j : Job) : (setJob s k j).domains = s.domains := by simp only [setJob]
@[simp] theorem setJob_M (s : State) (k : Nat) (j : Job) : (setJob s k j).M = s.M := by simp only [setJob]
@[simp] theorem setJob_F (s : State) (k : Nat) (j : Job) : (setJob s k j).F = s.F := by simp only [setJob]
@[simp] theorem setJob_R (s : State) (k : Nat) (j : Job) : (setJob s k j).R = s.R := by simp only [setJob]
@[simp] theorem setJob_B (s : State) (k : Nat) (j : Job) : (setJob s k j).B = s.B := by simp only [setJob]

/-! ### `dropJob` -/

@[simp] theorem dropJob_agenda (s : State) (k : Nat) : (dropJob s k).agenda = s.agenda := by simp only [dropJob]
@[simp] theorem dropJob_turnJob (s : State) (k : Nat) : (dropJob s k).turnJob = s.turnJob := by simp only [dropJob]
@[simp] theorem dropJob_turn (s : State) (k : Nat) : (dropJob s k).turn = s.turn := by simp only [dropJob]
@[simp] theorem dropJob_fresh (s : State) (k : Nat) : (dropJob s k).fresh = s.fresh := by simp only [dropJob]
@[simp] theorem dropJob_time (s : State) (k : Nat) : (dropJob s k).time = s.time := by simp only [dropJob]
@[simp] theorem dropJob_gpos (s : State) (k : Nat) : (dropJob s k).gpos = s.gpos := by simp only [dropJob]
@[simp] theorem dropJob_rebasing (s : State) (k : Nat) : (dropJob s k).rebasing = s.rebasing := by simp only [dropJob]
@[simp] theorem dropJob_serial (s : State) (k : Nat) : (dropJob s k).serial = s.serial := by simp only [dropJob]
@[simp] theorem dropJob_nextLaunch (s : State) (k : Nat) : (dropJob s k).nextLaunch = s.nextLaunch := by simp only [dropJob]
@[simp] theorem dropJob_order (s : State) (k : Nat) : (dropJob s k).order = s.order := by simp only [dropJob]
@[simp] theorem dropJob_saved (s : State) (k : Nat) : (dropJob s k).saved = s.saved := by simp only [dropJob]
@[simp] theorem dropJob_launches (s : State) (k : Nat) : (dropJob s k).launches = s.launches := by simp only [dropJob]
@[simp] theorem dropJob_leaves (s : State) (k : Nat) : (dropJob s k).leaves = s.leaves := by simp only [dropJob]
@[simp] theorem dropJob_cores (s : State) (k : Nat) : (dropJob s k).cores = s.cores := by simp only [dropJob]
@[simp] theorem dropJob_clusters (s : State) (k : Nat) : (dropJob s k).clusters = s.clusters := by simp only [dropJob]
@[simp] theorem dropJob_dies (s : State) (k : Nat) : (dropJob s k).dies = s.dies := by simp only [dropJob]
@[simp] theorem dropJob_mdies (s : State) (k : Nat) : (dropJob s k).mdies = s.mdies := by simp only [dropJob]
@[simp] theorem dropJob_domains (s : State) (k : Nat) : (dropJob s k).domains = s.domains := by simp only [dropJob]
@[simp] theorem dropJob_M (s : State) (k : Nat) : (dropJob s k).M = s.M := by simp only [dropJob]
@[simp] theorem dropJob_F (s : State) (k : Nat) : (dropJob s k).F = s.F := by simp only [dropJob]
@[simp] theorem dropJob_R (s : State) (k : Nat) : (dropJob s k).R = s.R := by simp only [dropJob]
@[simp] theorem dropJob_B (s : State) (k : Nat) : (dropJob s k).B = s.B := by simp only [dropJob]

/-! ### `setLaunch` -/

@[simp] theorem setLaunch_agenda (s : State) (l : Nat) (v : Launch) : (setLaunch s l v).agenda = s.agenda := by simp only [setLaunch]
@[simp] theorem setLaunch_turnJob (s : State) (l : Nat) (v : Launch) : (setLaunch s l v).turnJob = s.turnJob := by simp only [setLaunch]
@[simp] theorem setLaunch_turn (s : State) (l : Nat) (v : Launch) : (setLaunch s l v).turn = s.turn := by simp only [setLaunch]
@[simp] theorem setLaunch_fresh (s : State) (l : Nat) (v : Launch) : (setLaunch s l v).fresh = s.fresh := by simp only [setLaunch]
@[simp] theorem setLaunch_time (s : State) (l : Nat) (v : Launch) : (setLaunch s l v).time = s.time := by simp only [setLaunch]
@[simp] theorem setLaunch_gpos (s : State) (l : Nat) (v : Launch) : (setLaunch s l v).gpos = s.gpos := by simp only [setLaunch]
@[simp] theorem setLaunch_rebasing (s : State) (l : Nat) (v : Launch) : (setLaunch s l v).rebasing = s.rebasing := by simp only [setLaunch]
@[simp] theorem setLaunch_serial (s : State) (l : Nat) (v : Launch) : (setLaunch s l v).serial = s.serial := by simp only [setLaunch]
@[simp] theorem setLaunch_nextLaunch (s : State) (l : Nat) (v : Launch) : (setLaunch s l v).nextLaunch = s.nextLaunch := by simp only [setLaunch]
@[simp] theorem setLaunch_order (s : State) (l : Nat) (v : Launch) : (setLaunch s l v).order = s.order := by simp only [setLaunch]
@[simp] theorem setLaunch_jobs (s : State) (l : Nat) (v : Launch) : (setLaunch s l v).jobs = s.jobs := by simp only [setLaunch]
@[simp] theorem setLaunch_saved (s : State) (l : Nat) (v : Launch) : (setLaunch s l v).saved = s.saved := by simp only [setLaunch]
@[simp] theorem setLaunch_leaves (s : State) (l : Nat) (v : Launch) : (setLaunch s l v).leaves = s.leaves := by simp only [setLaunch]
@[simp] theorem setLaunch_cores (s : State) (l : Nat) (v : Launch) : (setLaunch s l v).cores = s.cores := by simp only [setLaunch]
@[simp] theorem setLaunch_clusters (s : State) (l : Nat) (v : Launch) : (setLaunch s l v).clusters = s.clusters := by simp only [setLaunch]
@[simp] theorem setLaunch_dies (s : State) (l : Nat) (v : Launch) : (setLaunch s l v).dies = s.dies := by simp only [setLaunch]
@[simp] theorem setLaunch_mdies (s : State) (l : Nat) (v : Launch) : (setLaunch s l v).mdies = s.mdies := by simp only [setLaunch]
@[simp] theorem setLaunch_domains (s : State) (l : Nat) (v : Launch) : (setLaunch s l v).domains = s.domains := by simp only [setLaunch]
@[simp] theorem setLaunch_M (s : State) (l : Nat) (v : Launch) : (setLaunch s l v).M = s.M := by simp only [setLaunch]
@[simp] theorem setLaunch_F (s : State) (l : Nat) (v : Launch) : (setLaunch s l v).F = s.F := by simp only [setLaunch]
@[simp] theorem setLaunch_R (s : State) (l : Nat) (v : Launch) : (setLaunch s l v).R = s.R := by simp only [setLaunch]
@[simp] theorem setLaunch_B (s : State) (l : Nat) (v : Launch) : (setLaunch s l v).B = s.B := by simp only [setLaunch]

/-! ### `setCore` -/

@[simp] theorem setCore_agenda (s : State) (c : Nat) (v : CoreSt) : (setCore s c v).agenda = s.agenda := by simp only [setCore]
@[simp] theorem setCore_turnJob (s : State) (c : Nat) (v : CoreSt) : (setCore s c v).turnJob = s.turnJob := by simp only [setCore]
@[simp] theorem setCore_turn (s : State) (c : Nat) (v : CoreSt) : (setCore s c v).turn = s.turn := by simp only [setCore]
@[simp] theorem setCore_fresh (s : State) (c : Nat) (v : CoreSt) : (setCore s c v).fresh = s.fresh := by simp only [setCore]
@[simp] theorem setCore_time (s : State) (c : Nat) (v : CoreSt) : (setCore s c v).time = s.time := by simp only [setCore]
@[simp] theorem setCore_gpos (s : State) (c : Nat) (v : CoreSt) : (setCore s c v).gpos = s.gpos := by simp only [setCore]
@[simp] theorem setCore_rebasing (s : State) (c : Nat) (v : CoreSt) : (setCore s c v).rebasing = s.rebasing := by simp only [setCore]
@[simp] theorem setCore_serial (s : State) (c : Nat) (v : CoreSt) : (setCore s c v).serial = s.serial := by simp only [setCore]
@[simp] theorem setCore_nextLaunch (s : State) (c : Nat) (v : CoreSt) : (setCore s c v).nextLaunch = s.nextLaunch := by simp only [setCore]
@[simp] theorem setCore_order (s : State) (c : Nat) (v : CoreSt) : (setCore s c v).order = s.order := by simp only [setCore]
@[simp] theorem setCore_jobs (s : State) (c : Nat) (v : CoreSt) : (setCore s c v).jobs = s.jobs := by simp only [setCore]
@[simp] theorem setCore_saved (s : State) (c : Nat) (v : CoreSt) : (setCore s c v).saved = s.saved := by simp only [setCore]
@[simp] theorem setCore_launches (s : State) (c : Nat) (v : CoreSt) : (setCore s c v).launches = s.launches := by simp only [setCore]
@[simp] theorem setCore_leaves (s : State) (c : Nat) (v : CoreSt) : (setCore s c v).leaves = s.leaves := by simp only [setCore]
@[simp] theorem setCore_clusters (s : State) (c : Nat) (v : CoreSt) : (setCore s c v).clusters = s.clusters := by simp only [setCore]
@[simp] theorem setCore_dies (s : State) (c : Nat) (v : CoreSt) : (setCore s c v).dies = s.dies := by simp only [setCore]
@[simp] theorem setCore_mdies (s : State) (c : Nat) (v : CoreSt) : (setCore s c v).mdies = s.mdies := by simp only [setCore]
@[simp] theorem setCore_domains (s : State) (c : Nat) (v : CoreSt) : (setCore s c v).domains = s.domains := by simp only [setCore]
@[simp] theorem setCore_M (s : State) (c : Nat) (v : CoreSt) : (setCore s c v).M = s.M := by simp only [setCore]
@[simp] theorem setCore_F (s : State) (c : Nat) (v : CoreSt) : (setCore s c v).F = s.F := by simp only [setCore]
@[simp] theorem setCore_R (s : State) (c : Nat) (v : CoreSt) : (setCore s c v).R = s.R := by simp only [setCore]
@[simp] theorem setCore_B (s : State) (c : Nat) (v : CoreSt) : (setCore s c v).B = s.B := by simp only [setCore]

/-! ### `setCluster` -/

@[simp] theorem setCluster_agenda (s : State) (c : Nat) (v : Cluster) : (setCluster s c v).agenda = s.agenda := by simp only [setCluster]
@[simp] theorem setCluster_turnJob (s : State) (c : Nat) (v : Cluster) : (setCluster s c v).turnJob = s.turnJob := by simp only [setCluster]
@[simp] theorem setCluster_turn (s : State) (c : Nat) (v : Cluster) : (setCluster s c v).turn = s.turn := by simp only [setCluster]
@[simp] theorem setCluster_fresh (s : State) (c : Nat) (v : Cluster) : (setCluster s c v).fresh = s.fresh := by simp only [setCluster]
@[simp] theorem setCluster_time (s : State) (c : Nat) (v : Cluster) : (setCluster s c v).time = s.time := by simp only [setCluster]
@[simp] theorem setCluster_gpos (s : State) (c : Nat) (v : Cluster) : (setCluster s c v).gpos = s.gpos := by simp only [setCluster]
@[simp] theorem setCluster_rebasing (s : State) (c : Nat) (v : Cluster) : (setCluster s c v).rebasing = s.rebasing := by simp only [setCluster]
@[simp] theorem setCluster_serial (s : State) (c : Nat) (v : Cluster) : (setCluster s c v).serial = s.serial := by simp only [setCluster]
@[simp] theorem setCluster_nextLaunch (s : State) (c : Nat) (v : Cluster) : (setCluster s c v).nextLaunch = s.nextLaunch := by simp only [setCluster]
@[simp] theorem setCluster_order (s : State) (c : Nat) (v : Cluster) : (setCluster s c v).order = s.order := by simp only [setCluster]
@[simp] theorem setCluster_jobs (s : State) (c : Nat) (v : Cluster) : (setCluster s c v).jobs = s.jobs := by simp only [setCluster]
@[simp] theorem setCluster_saved (s : State) (c : Nat) (v : Cluster) : (setCluster s c v).saved = s.saved := by simp only [setCluster]
@[simp] theorem setCluster_launches (s : State) (c : Nat) (v : Cluster) : (setCluster s c v).launches = s.launches := by simp only [setCluster]
@[simp] theorem setCluster_leaves (s : State) (c : Nat) (v : Cluster) : (setCluster s c v).leaves = s.leaves := by simp only [setCluster]
@[simp] theorem setCluster_cores (s : State) (c : Nat) (v : Cluster) : (setCluster s c v).cores = s.cores := by simp only [setCluster]
@[simp] theorem setCluster_dies (s : State) (c : Nat) (v : Cluster) : (setCluster s c v).dies = s.dies := by simp only [setCluster]
@[simp] theorem setCluster_mdies (s : State) (c : Nat) (v : Cluster) : (setCluster s c v).mdies = s.mdies := by simp only [setCluster]
@[simp] theorem setCluster_domains (s : State) (c : Nat) (v : Cluster) : (setCluster s c v).domains = s.domains := by simp only [setCluster]
@[simp] theorem setCluster_M (s : State) (c : Nat) (v : Cluster) : (setCluster s c v).M = s.M := by simp only [setCluster]
@[simp] theorem setCluster_F (s : State) (c : Nat) (v : Cluster) : (setCluster s c v).F = s.F := by simp only [setCluster]
@[simp] theorem setCluster_R (s : State) (c : Nat) (v : Cluster) : (setCluster s c v).R = s.R := by simp only [setCluster]
@[simp] theorem setCluster_B (s : State) (c : Nat) (v : Cluster) : (setCluster s c v).B = s.B := by simp only [setCluster]

/-! ### `setDie` -/

@[simp] theorem setDie_agenda (s : State) (d : Nat) (v : DieSt) : (setDie s d v).agenda = s.agenda := by simp only [setDie]
@[simp] theorem setDie_turnJob (s : State) (d : Nat) (v : DieSt) : (setDie s d v).turnJob = s.turnJob := by simp only [setDie]
@[simp] theorem setDie_turn (s : State) (d : Nat) (v : DieSt) : (setDie s d v).turn = s.turn := by simp only [setDie]
@[simp] theorem setDie_fresh (s : State) (d : Nat) (v : DieSt) : (setDie s d v).fresh = s.fresh := by simp only [setDie]
@[simp] theorem setDie_time (s : State) (d : Nat) (v : DieSt) : (setDie s d v).time = s.time := by simp only [setDie]
@[simp] theorem setDie_gpos (s : State) (d : Nat) (v : DieSt) : (setDie s d v).gpos = s.gpos := by simp only [setDie]
@[simp] theorem setDie_rebasing (s : State) (d : Nat) (v : DieSt) : (setDie s d v).rebasing = s.rebasing := by simp only [setDie]
@[simp] theorem setDie_serial (s : State) (d : Nat) (v : DieSt) : (setDie s d v).serial = s.serial := by simp only [setDie]
@[simp] theorem setDie_nextLaunch (s : State) (d : Nat) (v : DieSt) : (setDie s d v).nextLaunch = s.nextLaunch := by simp only [setDie]
@[simp] theorem setDie_order (s : State) (d : Nat) (v : DieSt) : (setDie s d v).order = s.order := by simp only [setDie]
@[simp] theorem setDie_jobs (s : State) (d : Nat) (v : DieSt) : (setDie s d v).jobs = s.jobs := by simp only [setDie]
@[simp] theorem setDie_saved (s : State) (d : Nat) (v : DieSt) : (setDie s d v).saved = s.saved := by simp only [setDie]
@[simp] theorem setDie_launches (s : State) (d : Nat) (v : DieSt) : (setDie s d v).launches = s.launches := by simp only [setDie]
@[simp] theorem setDie_leaves (s : State) (d : Nat) (v : DieSt) : (setDie s d v).leaves = s.leaves := by simp only [setDie]
@[simp] theorem setDie_cores (s : State) (d : Nat) (v : DieSt) : (setDie s d v).cores = s.cores := by simp only [setDie]
@[simp] theorem setDie_clusters (s : State) (d : Nat) (v : DieSt) : (setDie s d v).clusters = s.clusters := by simp only [setDie]
@[simp] theorem setDie_mdies (s : State) (d : Nat) (v : DieSt) : (setDie s d v).mdies = s.mdies := by simp only [setDie]
@[simp] theorem setDie_domains (s : State) (d : Nat) (v : DieSt) : (setDie s d v).domains = s.domains := by simp only [setDie]
@[simp] theorem setDie_M (s : State) (d : Nat) (v : DieSt) : (setDie s d v).M = s.M := by simp only [setDie]
@[simp] theorem setDie_F (s : State) (d : Nat) (v : DieSt) : (setDie s d v).F = s.F := by simp only [setDie]
@[simp] theorem setDie_R (s : State) (d : Nat) (v : DieSt) : (setDie s d v).R = s.R := by simp only [setDie]
@[simp] theorem setDie_B (s : State) (d : Nat) (v : DieSt) : (setDie s d v).B = s.B := by simp only [setDie]

/-! ### `setMdie` -/

@[simp] theorem setMdie_agenda (s : State) (m : Nat) (v : MDieSt) : (setMdie s m v).agenda = s.agenda := by simp only [setMdie]
@[simp] theorem setMdie_turnJob (s : State) (m : Nat) (v : MDieSt) : (setMdie s m v).turnJob = s.turnJob := by simp only [setMdie]
@[simp] theorem setMdie_turn (s : State) (m : Nat) (v : MDieSt) : (setMdie s m v).turn = s.turn := by simp only [setMdie]
@[simp] theorem setMdie_fresh (s : State) (m : Nat) (v : MDieSt) : (setMdie s m v).fresh = s.fresh := by simp only [setMdie]
@[simp] theorem setMdie_time (s : State) (m : Nat) (v : MDieSt) : (setMdie s m v).time = s.time := by simp only [setMdie]
@[simp] theorem setMdie_gpos (s : State) (m : Nat) (v : MDieSt) : (setMdie s m v).gpos = s.gpos := by simp only [setMdie]
@[simp] theorem setMdie_rebasing (s : State) (m : Nat) (v : MDieSt) : (setMdie s m v).rebasing = s.rebasing := by simp only [setMdie]
@[simp] theorem setMdie_serial (s : State) (m : Nat) (v : MDieSt) : (setMdie s m v).serial = s.serial := by simp only [setMdie]
@[simp] theorem setMdie_nextLaunch (s : State) (m : Nat) (v : MDieSt) : (setMdie s m v).nextLaunch = s.nextLaunch := by simp only [setMdie]
@[simp] theorem setMdie_order (s : State) (m : Nat) (v : MDieSt) : (setMdie s m v).order = s.order := by simp only [setMdie]
@[simp] theorem setMdie_jobs (s : State) (m : Nat) (v : MDieSt) : (setMdie s m v).jobs = s.jobs := by simp only [setMdie]
@[simp] theorem setMdie_saved (s : State) (m : Nat) (v : MDieSt) : (setMdie s m v).saved = s.saved := by simp only [setMdie]
@[simp] theorem setMdie_launches (s : State) (m : Nat) (v : MDieSt) : (setMdie s m v).launches = s.launches := by simp only [setMdie]
@[simp] theorem setMdie_leaves (s : State) (m : Nat) (v : MDieSt) : (setMdie s m v).leaves = s.leaves := by simp only [setMdie]
@[simp] theorem setMdie_cores (s : State) (m : Nat) (v : MDieSt) : (setMdie s m v).cores = s.cores := by simp only [setMdie]
@[simp] theorem setMdie_clusters (s : State) (m : Nat) (v : MDieSt) : (setMdie s m v).clusters = s.clusters := by simp only [setMdie]
@[simp] theorem setMdie_dies (s : State) (m : Nat) (v : MDieSt) : (setMdie s m v).dies = s.dies := by simp only [setMdie]
@[simp] theorem setMdie_domains (s : State) (m : Nat) (v : MDieSt) : (setMdie s m v).domains = s.domains := by simp only [setMdie]
@[simp] theorem setMdie_M (s : State) (m : Nat) (v : MDieSt) : (setMdie s m v).M = s.M := by simp only [setMdie]
@[simp] theorem setMdie_F (s : State) (m : Nat) (v : MDieSt) : (setMdie s m v).F = s.F := by simp only [setMdie]
@[simp] theorem setMdie_R (s : State) (m : Nat) (v : MDieSt) : (setMdie s m v).R = s.R := by simp only [setMdie]
@[simp] theorem setMdie_B (s : State) (m : Nat) (v : MDieSt) : (setMdie s m v).B = s.B := by simp only [setMdie]

/-! ### `setDomain` -/

@[simp] theorem setDomain_agenda (s : State) (f : Nat) (v : Domain) : (setDomain s f v).agenda = s.agenda := by simp only [setDomain]
@[simp] theorem setDomain_turnJob (s : State) (f : Nat) (v : Domain) : (setDomain s f v).turnJob = s.turnJob := by simp only [setDomain]
@[simp] theorem setDomain_turn (s : State) (f : Nat) (v : Domain) : (setDomain s f v).turn = s.turn := by simp only [setDomain]
@[simp] theorem setDomain_fresh (s : State) (f : Nat) (v : Domain) : (setDomain s f v).fresh = s.fresh := by simp only [setDomain]
@[simp] theorem setDomain_time (s : State) (f : Nat) (v : Domain) : (setDomain s f v).time = s.time := by simp only [setDomain]
@[simp] theorem setDomain_gpos (s : State) (f : Nat) (v : Domain) : (setDomain s f v).gpos = s.gpos := by simp only [setDomain]
@[simp] theorem setDomain_rebasing (s : State) (f : Nat) (v : Domain) : (setDomain s f v).rebasing = s.rebasing := by simp only [setDomain]
@[simp] theorem setDomain_serial (s : State) (f : Nat) (v : Domain) : (setDomain s f v).serial = s.serial := by simp only [setDomain]
@[simp] theorem setDomain_nextLaunch (s : State) (f : Nat) (v : Domain) : (setDomain s f v).nextLaunch = s.nextLaunch := by simp only [setDomain]
@[simp] theorem setDomain_order (s : State) (f : Nat) (v : Domain) : (setDomain s f v).order = s.order := by simp only [setDomain]
@[simp] theorem setDomain_jobs (s : State) (f : Nat) (v : Domain) : (setDomain s f v).jobs = s.jobs := by simp only [setDomain]
@[simp] theorem setDomain_saved (s : State) (f : Nat) (v : Domain) : (setDomain s f v).saved = s.saved := by simp only [setDomain]
@[simp] theorem setDomain_launches (s : State) (f : Nat) (v : Domain) : (setDomain s f v).launches = s.launches := by simp only [setDomain]
@[simp] theorem setDomain_leaves (s : State) (f : Nat) (v : Domain) : (setDomain s f v).leaves = s.leaves := by simp only [setDomain]
@[simp] theorem setDomain_cores (s : State) (f : Nat) (v : Domain) : (setDomain s f v).cores = s.cores := by simp only [setDomain]
@[simp] theorem setDomain_clusters (s : State) (f : Nat) (v : Domain) : (setDomain s f v).clusters = s.clusters := by simp only [setDomain]
@[simp] theorem setDomain_dies (s : State) (f : Nat) (v : Domain) : (setDomain s f v).dies = s.dies := by simp only [setDomain]
@[simp] theorem setDomain_mdies (s : State) (f : Nat) (v : Domain) : (setDomain s f v).mdies = s.mdies := by simp only [setDomain]
@[simp] theorem setDomain_M (s : State) (f : Nat) (v : Domain) : (setDomain s f v).M = s.M := by simp only [setDomain]
@[simp] theorem setDomain_F (s : State) (f : Nat) (v : Domain) : (setDomain s f v).F = s.F := by simp only [setDomain]
@[simp] theorem setDomain_R (s : State) (f : Nat) (v : Domain) : (setDomain s f v).R = s.R := by simp only [setDomain]
@[simp] theorem setDomain_B (s : State) (f : Nat) (v : Domain) : (setDomain s f v).B = s.B := by simp only [setDomain]

/-! ### `setTenant` -/

@[simp] theorem setTenant_agenda (s : State) (n : Nat) (v : Tenant) : (setTenant s n v).agenda = s.agenda := by simp only [setTenant]
@[simp] theorem setTenant_turnJob (s : State) (n : Nat) (v : Tenant) : (setTenant s n v).turnJob = s.turnJob := by simp only [setTenant]
@[simp] theorem setTenant_turn (s : State) (n : Nat) (v : Tenant) : (setTenant s n v).turn = s.turn := by simp only [setTenant]
@[simp] theorem setTenant_fresh (s : State) (n : Nat) (v : Tenant) : (setTenant s n v).fresh = s.fresh := by simp only [setTenant]
@[simp] theorem setTenant_time (s : State) (n : Nat) (v : Tenant) : (setTenant s n v).time = s.time := by simp only [setTenant]
@[simp] theorem setTenant_gpos (s : State) (n : Nat) (v : Tenant) : (setTenant s n v).gpos = s.gpos := by simp only [setTenant]
@[simp] theorem setTenant_rebasing (s : State) (n : Nat) (v : Tenant) : (setTenant s n v).rebasing = s.rebasing := by simp only [setTenant]
@[simp] theorem setTenant_serial (s : State) (n : Nat) (v : Tenant) : (setTenant s n v).serial = s.serial := by simp only [setTenant]
@[simp] theorem setTenant_nextLaunch (s : State) (n : Nat) (v : Tenant) : (setTenant s n v).nextLaunch = s.nextLaunch := by simp only [setTenant]
@[simp] theorem setTenant_order (s : State) (n : Nat) (v : Tenant) : (setTenant s n v).order = s.order := by simp only [setTenant]
@[simp] theorem setTenant_jobs (s : State) (n : Nat) (v : Tenant) : (setTenant s n v).jobs = s.jobs := by simp only [setTenant]
@[simp] theorem setTenant_saved (s : State) (n : Nat) (v : Tenant) : (setTenant s n v).saved = s.saved := by simp only [setTenant]
@[simp] theorem setTenant_launches (s : State) (n : Nat) (v : Tenant) : (setTenant s n v).launches = s.launches := by simp only [setTenant]
@[simp] theorem setTenant_leaves (s : State) (n : Nat) (v : Tenant) : (setTenant s n v).leaves = s.leaves := by simp only [setTenant]
@[simp] theorem setTenant_cores (s : State) (n : Nat) (v : Tenant) : (setTenant s n v).cores = s.cores := by simp only [setTenant]
@[simp] theorem setTenant_clusters (s : State) (n : Nat) (v : Tenant) : (setTenant s n v).clusters = s.clusters := by simp only [setTenant]
@[simp] theorem setTenant_dies (s : State) (n : Nat) (v : Tenant) : (setTenant s n v).dies = s.dies := by simp only [setTenant]
@[simp] theorem setTenant_mdies (s : State) (n : Nat) (v : Tenant) : (setTenant s n v).mdies = s.mdies := by simp only [setTenant]
@[simp] theorem setTenant_domains (s : State) (n : Nat) (v : Tenant) : (setTenant s n v).domains = s.domains := by simp only [setTenant]
@[simp] theorem setTenant_M (s : State) (n : Nat) (v : Tenant) : (setTenant s n v).M = s.M := by simp only [setTenant]
@[simp] theorem setTenant_F (s : State) (n : Nat) (v : Tenant) : (setTenant s n v).F = s.F := by simp only [setTenant]
@[simp] theorem setTenant_B (s : State) (n : Nat) (v : Tenant) : (setTenant s n v).B = s.B := by simp only [setTenant]

/-! ### `setDir` -/

@[simp] theorem setDir_agenda (s : State) (l : Nat) (e : DirState) : (setDir s l e).agenda = s.agenda := by simp only [setDir]
@[simp] theorem setDir_turnJob (s : State) (l : Nat) (e : DirState) : (setDir s l e).turnJob = s.turnJob := by simp only [setDir]
@[simp] theorem setDir_turn (s : State) (l : Nat) (e : DirState) : (setDir s l e).turn = s.turn := by simp only [setDir]
@[simp] theorem setDir_fresh (s : State) (l : Nat) (e : DirState) : (setDir s l e).fresh = s.fresh := by simp only [setDir]
@[simp] theorem setDir_time (s : State) (l : Nat) (e : DirState) : (setDir s l e).time = s.time := by simp only [setDir]
@[simp] theorem setDir_gpos (s : State) (l : Nat) (e : DirState) : (setDir s l e).gpos = s.gpos := by simp only [setDir]
@[simp] theorem setDir_rebasing (s : State) (l : Nat) (e : DirState) : (setDir s l e).rebasing = s.rebasing := by simp only [setDir]
@[simp] theorem setDir_serial (s : State) (l : Nat) (e : DirState) : (setDir s l e).serial = s.serial := by simp only [setDir]
@[simp] theorem setDir_nextLaunch (s : State) (l : Nat) (e : DirState) : (setDir s l e).nextLaunch = s.nextLaunch := by simp only [setDir]
@[simp] theorem setDir_order (s : State) (l : Nat) (e : DirState) : (setDir s l e).order = s.order := by simp only [setDir]
@[simp] theorem setDir_jobs (s : State) (l : Nat) (e : DirState) : (setDir s l e).jobs = s.jobs := by simp only [setDir]
@[simp] theorem setDir_saved (s : State) (l : Nat) (e : DirState) : (setDir s l e).saved = s.saved := by simp only [setDir]
@[simp] theorem setDir_launches (s : State) (l : Nat) (e : DirState) : (setDir s l e).launches = s.launches := by simp only [setDir]
@[simp] theorem setDir_leaves (s : State) (l : Nat) (e : DirState) : (setDir s l e).leaves = s.leaves := by simp only [setDir]
@[simp] theorem setDir_cores (s : State) (l : Nat) (e : DirState) : (setDir s l e).cores = s.cores := by simp only [setDir]
@[simp] theorem setDir_clusters (s : State) (l : Nat) (e : DirState) : (setDir s l e).clusters = s.clusters := by simp only [setDir]
@[simp] theorem setDir_dies (s : State) (l : Nat) (e : DirState) : (setDir s l e).dies = s.dies := by simp only [setDir]
@[simp] theorem setDir_mdies (s : State) (l : Nat) (e : DirState) : (setDir s l e).mdies = s.mdies := by simp only [setDir]
@[simp] theorem setDir_domains (s : State) (l : Nat) (e : DirState) : (setDir s l e).domains = s.domains := by simp only [setDir]
@[simp] theorem setDir_F (s : State) (l : Nat) (e : DirState) : (setDir s l e).F = s.F := by simp only [setDir]
@[simp] theorem setDir_R (s : State) (l : Nat) (e : DirState) : (setDir s l e).R = s.R := by simp only [setDir]
@[simp] theorem setDir_B (s : State) (l : Nat) (e : DirState) : (setDir s l e).B = s.B := by simp only [setDir]

/-! ### Reading back -/

@[simp] theorem jobAt_setJob_self (s : State) (k : Nat) (j : Job) : jobAt (setJob s k j) k = some j := smGet_smSet_self _ _ _
theorem jobAt_setJob_ne (s : State) {k k' : Nat} (j : Job) (h : k' ≠ k) : jobAt (setJob s k j) k' = jobAt s k' :=
  smGet_smSet_ne _ _ h
theorem jobAt_setJob (s : State) (k k' : Nat) (j : Job) : jobAt (setJob s k j) k' = if k' = k then some j else jobAt s k' :=
  smGet_smSet _ _ _ _
/-- Writing the job that is there changes nothing. -/
theorem setJob_same {s : State} {k : Nat} {j : Job} (h : jobAt s k = some j) : setJob s k j = s := by
  unfold setJob; rw [smSet_same _ _ _ h]
@[simp] theorem launchAt_setLaunch_self (s : State) (l : Nat) (v : Launch) : launchAt (setLaunch s l v) l = some v := smGet_smSet_self _ _ _
theorem launchAt_setLaunch_ne (s : State) {l l' : Nat} (v : Launch) (h : l' ≠ l) : launchAt (setLaunch s l v) l' = launchAt s l' :=
  smGet_smSet_ne _ _ h

@[simp] theorem coreSt_setCore_self (s : State) (k : Nat) (v : CoreSt) : coreSt (setCore s k v) k = v :=
  smGetD_smSet_self _ _ _ _
theorem coreSt_setCore_ne (s : State) {k k' : Nat} (v : CoreSt) (hk : k' ≠ k) : coreSt (setCore s k v) k' = coreSt s k' :=
  smGetD_smSet_ne _ _ _ hk
@[simp] theorem clusterSt_setCluster_self (s : State) (k : Nat) (v : Cluster) : clusterSt (setCluster s k v) k = v :=
  smGetD_smSet_self _ _ _ _
theorem clusterSt_setCluster_ne (s : State) {k k' : Nat} (v : Cluster) (hk : k' ≠ k) : clusterSt (setCluster s k v) k' = clusterSt s k' :=
  smGetD_smSet_ne _ _ _ hk
@[simp] theorem dieSt_setDie_self (s : State) (k : Nat) (v : DieSt) : dieSt (setDie s k v) k = v :=
  smGetD_smSet_self _ _ _ _
theorem dieSt_setDie_ne (s : State) {k k' : Nat} (v : DieSt) (hk : k' ≠ k) : dieSt (setDie s k v) k' = dieSt s k' :=
  smGetD_smSet_ne _ _ _ hk
@[simp] theorem mdieSt_setMdie_self (s : State) (k : Nat) (v : MDieSt) : mdieSt (setMdie s k v) k = v :=
  smGetD_smSet_self _ _ _ _
theorem mdieSt_setMdie_ne (s : State) {k k' : Nat} (v : MDieSt) (hk : k' ≠ k) : mdieSt (setMdie s k v) k' = mdieSt s k' :=
  smGetD_smSet_ne _ _ _ hk
@[simp] theorem domainSt_setDomain_self (s : State) (k : Nat) (v : Domain) : domainSt (setDomain s k v) k = v :=
  smGetD_smSet_self _ _ _ _
theorem domainSt_setDomain_ne (s : State) {k k' : Nat} (v : Domain) (hk : k' ≠ k) : domainSt (setDomain s k v) k' = domainSt s k' :=
  smGetD_smSet_ne _ _ _ hk

@[simp] theorem launchAt_setJob (s : State) (k : Nat) (j : Job) (n : Nat) : launchAt (setJob s k j) n = launchAt s n := by simp only [launchAt, setJob_launches]
@[simp] theorem coreSt_setJob (s : State) (k : Nat) (j : Job) (n : Nat) : coreSt (setJob s k j) n = coreSt s n := by simp only [coreSt, setJob_cores]
@[simp] theorem clusterSt_setJob (s : State) (k : Nat) (j : Job) (n : Nat) : clusterSt (setJob s k j) n = clusterSt s n := by simp only [clusterSt, setJob_clusters]
@[simp] theorem dieSt_setJob (s : State) (k : Nat) (j : Job) (n : Nat) : dieSt (setJob s k j) n = dieSt s n := by simp only [dieSt, setJob_dies]
@[simp] theorem mdieSt_setJob (s : State) (k : Nat) (j : Job) (n : Nat) : mdieSt (setJob s k j) n = mdieSt s n := by simp only [mdieSt, setJob_mdies]
@[simp] theorem domainSt_setJob (s : State) (k : Nat) (j : Job) (n : Nat) : domainSt (setJob s k j) n = domainSt s n := by simp only [domainSt, setJob_domains]
@[simp] theorem launchAt_dropJob (s : State) (k : Nat) (n : Nat) : launchAt (dropJob s k) n = launchAt s n := by simp only [launchAt, dropJob_launches]
@[simp] theorem coreSt_dropJob (s : State) (k : Nat) (n : Nat) : coreSt (dropJob s k) n = coreSt s n := by simp only [coreSt, dropJob_cores]
@[simp] theorem clusterSt_dropJob (s : State) (k : Nat) (n : Nat) : clusterSt (dropJob s k) n = clusterSt s n := by simp only [clusterSt, dropJob_clusters]
@[simp] theorem dieSt_dropJob (s : State) (k : Nat) (n : Nat) : dieSt (dropJob s k) n = dieSt s n := by simp only [dieSt, dropJob_dies]
@[simp] theorem mdieSt_dropJob (s : State) (k : Nat) (n : Nat) : mdieSt (dropJob s k) n = mdieSt s n := by simp only [mdieSt, dropJob_mdies]
@[simp] theorem domainSt_dropJob (s : State) (k : Nat) (n : Nat) : domainSt (dropJob s k) n = domainSt s n := by simp only [domainSt, dropJob_domains]
@[simp] theorem jobAt_setLaunch (s : State) (l : Nat) (v : Launch) (n : Nat) : jobAt (setLaunch s l v) n = jobAt s n := by simp only [jobAt, setLaunch_jobs]
@[simp] theorem coreSt_setLaunch (s : State) (l : Nat) (v : Launch) (n : Nat) : coreSt (setLaunch s l v) n = coreSt s n := by simp only [coreSt, setLaunch_cores]
@[simp] theorem clusterSt_setLaunch (s : State) (l : Nat) (v : Launch) (n : Nat) : clusterSt (setLaunch s l v) n = clusterSt s n := by simp only [clusterSt, setLaunch_clusters]
@[simp] theorem dieSt_setLaunch (s : State) (l : Nat) (v : Launch) (n : Nat) : dieSt (setLaunch s l v) n = dieSt s n := by simp only [dieSt, setLaunch_dies]
@[simp] theorem mdieSt_setLaunch (s : State) (l : Nat) (v : Launch) (n : Nat) : mdieSt (setLaunch s l v) n = mdieSt s n := by simp only [mdieSt, setLaunch_mdies]
@[simp] theorem domainSt_setLaunch (s : State) (l : Nat) (v : Launch) (n : Nat) : domainSt (setLaunch s l v) n = domainSt s n := by simp only [domainSt, setLaunch_domains]
@[simp] theorem jobAt_setCore (s : State) (c : Nat) (v : CoreSt) (n : Nat) : jobAt (setCore s c v) n = jobAt s n := by simp only [jobAt, setCore_jobs]
@[simp] theorem launchAt_setCore (s : State) (c : Nat) (v : CoreSt) (n : Nat) : launchAt (setCore s c v) n = launchAt s n := by simp only [launchAt, setCore_launches]
@[simp] theorem clusterSt_setCore (s : State) (c : Nat) (v : CoreSt) (n : Nat) : clusterSt (setCore s c v) n = clusterSt s n := by simp only [clusterSt, setCore_clusters]
@[simp] theorem dieSt_setCore (s : State) (c : Nat) (v : CoreSt) (n : Nat) : dieSt (setCore s c v) n = dieSt s n := by simp only [dieSt, setCore_dies]
@[simp] theorem mdieSt_setCore (s : State) (c : Nat) (v : CoreSt) (n : Nat) : mdieSt (setCore s c v) n = mdieSt s n := by simp only [mdieSt, setCore_mdies]
@[simp] theorem domainSt_setCore (s : State) (c : Nat) (v : CoreSt) (n : Nat) : domainSt (setCore s c v) n = domainSt s n := by simp only [domainSt, setCore_domains]
@[simp] theorem jobAt_setCluster (s : State) (c : Nat) (v : Cluster) (n : Nat) : jobAt (setCluster s c v) n = jobAt s n := by simp only [jobAt, setCluster_jobs]
@[simp] theorem launchAt_setCluster (s : State) (c : Nat) (v : Cluster) (n : Nat) : launchAt (setCluster s c v) n = launchAt s n := by simp only [launchAt, setCluster_launches]
@[simp] theorem coreSt_setCluster (s : State) (c : Nat) (v : Cluster) (n : Nat) : coreSt (setCluster s c v) n = coreSt s n := by simp only [coreSt, setCluster_cores]
@[simp] theorem dieSt_setCluster (s : State) (c : Nat) (v : Cluster) (n : Nat) : dieSt (setCluster s c v) n = dieSt s n := by simp only [dieSt, setCluster_dies]
@[simp] theorem mdieSt_setCluster (s : State) (c : Nat) (v : Cluster) (n : Nat) : mdieSt (setCluster s c v) n = mdieSt s n := by simp only [mdieSt, setCluster_mdies]
@[simp] theorem domainSt_setCluster (s : State) (c : Nat) (v : Cluster) (n : Nat) : domainSt (setCluster s c v) n = domainSt s n := by simp only [domainSt, setCluster_domains]
@[simp] theorem jobAt_setDie (s : State) (d : Nat) (v : DieSt) (n : Nat) : jobAt (setDie s d v) n = jobAt s n := by simp only [jobAt, setDie_jobs]
@[simp] theorem launchAt_setDie (s : State) (d : Nat) (v : DieSt) (n : Nat) : launchAt (setDie s d v) n = launchAt s n := by simp only [launchAt, setDie_launches]
@[simp] theorem coreSt_setDie (s : State) (d : Nat) (v : DieSt) (n : Nat) : coreSt (setDie s d v) n = coreSt s n := by simp only [coreSt, setDie_cores]
@[simp] theorem clusterSt_setDie (s : State) (d : Nat) (v : DieSt) (n : Nat) : clusterSt (setDie s d v) n = clusterSt s n := by simp only [clusterSt, setDie_clusters]
@[simp] theorem mdieSt_setDie (s : State) (d : Nat) (v : DieSt) (n : Nat) : mdieSt (setDie s d v) n = mdieSt s n := by simp only [mdieSt, setDie_mdies]
@[simp] theorem domainSt_setDie (s : State) (d : Nat) (v : DieSt) (n : Nat) : domainSt (setDie s d v) n = domainSt s n := by simp only [domainSt, setDie_domains]
@[simp] theorem jobAt_setMdie (s : State) (m : Nat) (v : MDieSt) (n : Nat) : jobAt (setMdie s m v) n = jobAt s n := by simp only [jobAt, setMdie_jobs]
@[simp] theorem launchAt_setMdie (s : State) (m : Nat) (v : MDieSt) (n : Nat) : launchAt (setMdie s m v) n = launchAt s n := by simp only [launchAt, setMdie_launches]
@[simp] theorem coreSt_setMdie (s : State) (m : Nat) (v : MDieSt) (n : Nat) : coreSt (setMdie s m v) n = coreSt s n := by simp only [coreSt, setMdie_cores]
@[simp] theorem clusterSt_setMdie (s : State) (m : Nat) (v : MDieSt) (n : Nat) : clusterSt (setMdie s m v) n = clusterSt s n := by simp only [clusterSt, setMdie_clusters]
@[simp] theorem dieSt_setMdie (s : State) (m : Nat) (v : MDieSt) (n : Nat) : dieSt (setMdie s m v) n = dieSt s n := by simp only [dieSt, setMdie_dies]
@[simp] theorem domainSt_setMdie (s : State) (m : Nat) (v : MDieSt) (n : Nat) : domainSt (setMdie s m v) n = domainSt s n := by simp only [domainSt, setMdie_domains]
@[simp] theorem jobAt_setDomain (s : State) (f : Nat) (v : Domain) (n : Nat) : jobAt (setDomain s f v) n = jobAt s n := by simp only [jobAt, setDomain_jobs]
@[simp] theorem launchAt_setDomain (s : State) (f : Nat) (v : Domain) (n : Nat) : launchAt (setDomain s f v) n = launchAt s n := by simp only [launchAt, setDomain_launches]
@[simp] theorem coreSt_setDomain (s : State) (f : Nat) (v : Domain) (n : Nat) : coreSt (setDomain s f v) n = coreSt s n := by simp only [coreSt, setDomain_cores]
@[simp] theorem clusterSt_setDomain (s : State) (f : Nat) (v : Domain) (n : Nat) : clusterSt (setDomain s f v) n = clusterSt s n := by simp only [clusterSt, setDomain_clusters]
@[simp] theorem dieSt_setDomain (s : State) (f : Nat) (v : Domain) (n : Nat) : dieSt (setDomain s f v) n = dieSt s n := by simp only [dieSt, setDomain_dies]
@[simp] theorem mdieSt_setDomain (s : State) (f : Nat) (v : Domain) (n : Nat) : mdieSt (setDomain s f v) n = mdieSt s n := by simp only [mdieSt, setDomain_mdies]
@[simp] theorem jobAt_setTenant (s : State) (t : Nat) (v : Tenant) (n : Nat) : jobAt (setTenant s t v) n = jobAt s n := by simp only [jobAt, setTenant_jobs]
@[simp] theorem launchAt_setTenant (s : State) (t : Nat) (v : Tenant) (n : Nat) : launchAt (setTenant s t v) n = launchAt s n := by simp only [launchAt, setTenant_launches]
@[simp] theorem coreSt_setTenant (s : State) (t : Nat) (v : Tenant) (n : Nat) : coreSt (setTenant s t v) n = coreSt s n := by simp only [coreSt, setTenant_cores]
@[simp] theorem clusterSt_setTenant (s : State) (t : Nat) (v : Tenant) (n : Nat) : clusterSt (setTenant s t v) n = clusterSt s n := by simp only [clusterSt, setTenant_clusters]
@[simp] theorem dieSt_setTenant (s : State) (t : Nat) (v : Tenant) (n : Nat) : dieSt (setTenant s t v) n = dieSt s n := by simp only [dieSt, setTenant_dies]
@[simp] theorem mdieSt_setTenant (s : State) (t : Nat) (v : Tenant) (n : Nat) : mdieSt (setTenant s t v) n = mdieSt s n := by simp only [mdieSt, setTenant_mdies]
@[simp] theorem domainSt_setTenant (s : State) (t : Nat) (v : Tenant) (n : Nat) : domainSt (setTenant s t v) n = domainSt s n := by simp only [domainSt, setTenant_domains]
@[simp] theorem jobAt_setDir (s : State) (l : Nat) (e : DirState) (n : Nat) : jobAt (setDir s l e) n = jobAt s n := by simp only [jobAt, setDir_jobs]
@[simp] theorem launchAt_setDir (s : State) (l : Nat) (e : DirState) (n : Nat) : launchAt (setDir s l e) n = launchAt s n := by simp only [launchAt, setDir_launches]
@[simp] theorem coreSt_setDir (s : State) (l : Nat) (e : DirState) (n : Nat) : coreSt (setDir s l e) n = coreSt s n := by simp only [coreSt, setDir_cores]
@[simp] theorem clusterSt_setDir (s : State) (l : Nat) (e : DirState) (n : Nat) : clusterSt (setDir s l e) n = clusterSt s n := by simp only [clusterSt, setDir_clusters]
@[simp] theorem dieSt_setDir (s : State) (l : Nat) (e : DirState) (n : Nat) : dieSt (setDir s l e) n = dieSt s n := by simp only [dieSt, setDir_dies]
@[simp] theorem mdieSt_setDir (s : State) (l : Nat) (e : DirState) (n : Nat) : mdieSt (setDir s l e) n = mdieSt s n := by simp only [mdieSt, setDir_mdies]
@[simp] theorem domainSt_setDir (s : State) (l : Nat) (e : DirState) (n : Nat) : domainSt (setDir s l e) n = domainSt s n := by simp only [domainSt, setDir_domains]

/-! ### `Job.setPc` -/

@[simp] theorem Job.setPc_uid (j : Job) (v : Word) : (j.setPc v).uid = j.uid := rfl
@[simp] theorem Job.setPc_launch (j : Job) (v : Word) : (j.setPc v).launch = j.launch := rfl
@[simp] theorem Job.setPc_ticket (j : Job) (v : Word) : (j.setPc v).ticket = j.ticket := rfl
@[simp] theorem Job.setPc_serial (j : Job) (v : Word) : (j.setPc v).serial = j.serial := rfl
@[simp] theorem Job.setPc_fdom (j : Job) (v : Word) : (j.setPc v).fdom = j.fdom := rfl
@[simp] theorem Job.setPc_hdr0 (j : Job) (v : Word) : (j.setPc v).hdr0 = j.hdr0 := rfl
@[simp] theorem Job.setPc_hdr1 (j : Job) (v : Word) : (j.setPc v).hdr1 = j.hdr1 := rfl
@[simp] theorem Job.setPc_epoch (j : Job) (v : Word) : (j.setPc v).epoch = j.epoch := rfl
@[simp] theorem Job.setPc_level (j : Job) (v : Word) : (j.setPc v).level = j.level := rfl
@[simp] theorem Job.setPc_phase (j : Job) (v : Word) : (j.setPc v).phase = j.phase := rfl
@[simp] theorem Job.setPc_pend (j : Job) (v : Word) : (j.setPc v).pend = j.pend := rfl
@[simp] theorem Job.setPc_trapc (j : Job) (v : Word) : (j.setPc v).trapc = j.trapc := rfl
@[simp] theorem Job.setPc_trapv (j : Job) (v : Word) : (j.setPc v).trapv = j.trapv := rfl
@[simp] theorem Job.setPc_trappc (j : Job) (v : Word) : (j.setPc v).trappc = j.trappc := rfl
@[simp] theorem Job.setPc_trapIn (j : Job) (v : Word) : (j.setPc v).trapIn = j.trapIn := rfl
@[simp] theorem Job.setPc_snap (j : Job) (v : Word) : (j.setPc v).snap = j.snap := rfl
@[simp] theorem Job.setPc_region (j : Job) (v : Word) : (j.setPc v).region = j.region := rfl
@[simp] theorem Job.setPc_ctxAddr (j : Job) (v : Word) : (j.setPc v).ctxAddr = j.ctxAddr := rfl
@[simp] theorem Job.setPc_preempt (j : Job) (v : Word) : (j.setPc v).preempt = j.preempt := rfl
@[simp] theorem Job.setPc_dispatched (j : Job) (v : Word) : (j.setPc v).dispatched = j.dispatched := rfl
@[simp] theorem Job.setPc_resident (j : Job) (v : Word) : (j.setPc v).resident = j.resident := rfl
@[simp] theorem Job.setPc_watch (j : Job) (v : Word) : (j.setPc v).watch = j.watch := rfl
@[simp] theorem Job.setPc_lastSave (j : Job) (v : Word) : (j.setPc v).lastSave = j.lastSave := rfl
@[simp] theorem Job.setPc_lastRestore (j : Job) (v : Word) : (j.setPc v).lastRestore = j.lastRestore := rfl
@[simp] theorem Job.setPc_saveStart (j : Job) (v : Word) : (j.setPc v).saveStart = j.saveStart := rfl
@[simp] theorem Job.setPc_triggered (j : Job) (v : Word) : (j.setPc v).triggered = j.triggered := rfl
@[simp] theorem Job.setPc_nmHandles (j : Job) (v : Word) : (j.setPc v).nmHandles = j.nmHandles := rfl
@[simp] theorem Job.setPc_stallStart (j : Job) (v : Word) : (j.setPc v).stallStart = j.stallStart := rfl
@[simp] theorem Job.setPc_bpSkip (j : Job) (v : Word) : (j.setPc v).bpSkip = j.bpSkip := rfl
@[simp] theorem Job.setPc_clk (j : Job) (v : Word) : (j.setPc v).clk = j.clk := rfl
@[simp] theorem Job.setPc_shown (j : Job) (v : Word) : (j.setPc v).shown = j.shown := rfl
@[simp] theorem Job.setPc_posted (j : Job) (v : Word) : (j.setPc v).posted = j.posted := rfl
@[simp] theorem Job.setPc_replay (j : Job) (v : Word) : (j.setPc v).replay = j.replay := rfl
@[simp] theorem Job.setPc_home (j : Job) (v : Word) : (j.setPc v).home = j.home := rfl
@[simp] theorem Job.setPc_lookup (j : Job) (v : Word) : (j.setPc v).lookup = j.lookup := rfl
@[simp] theorem Job.setPc_core_L (j : Job) (v : Word) : (j.setPc v).core.L = j.core.L := rfl
@[simp] theorem Job.setPc_core_X (j : Job) (v : Word) : (j.setPc v).core.X = j.core.X := rfl
@[simp] theorem Job.setPc_core_T (j : Job) (v : Word) : (j.setPc v).core.T = j.core.T := rfl
@[simp] theorem Job.setPc_core_Q (j : Job) (v : Word) : (j.setPc v).core.Q = j.core.Q := rfl
@[simp] theorem Job.setPc_core_spill (j : Job) (v : Word) : (j.setPc v).core.spill = j.core.spill := rfl
@[simp] theorem Job.setPc_core_vs (j : Job) (v : Word) : (j.setPc v).core.vs = j.core.vs := rfl
@[simp] theorem Job.setPc_core_ms (j : Job) (v : Word) : (j.setPc v).core.ms = j.core.ms := rfl
@[simp] theorem Job.setPc_core_masks (j : Job) (v : Word) : (j.setPc v).core.masks = j.core.masks := rfl
@[simp] theorem Job.setPc_core_thr (j : Job) (v : Word) : (j.setPc v).core.thr = j.core.thr := rfl
@[simp] theorem Job.setPc_core_flags (j : Job) (v : Word) : (j.setPc v).core.flags = j.core.flags := rfl
@[simp] theorem Job.setPc_core_elog (j : Job) (v : Word) : (j.setPc v).core.elog = j.core.elog := rfl
@[simp] theorem Job.setPc_core_fmt (j : Job) (v : Word) : (j.setPc v).core.fmt = j.core.fmt := rfl
@[simp] theorem Job.setPc_core_rlo (j : Job) (v : Word) : (j.setPc v).core.rlo = j.core.rlo := rfl
@[simp] theorem Job.setPc_core_rhi (j : Job) (v : Word) : (j.setPc v).core.rhi = j.core.rhi := rfl
@[simp] theorem Job.setPc_core_rstat (j : Job) (v : Word) : (j.setPc v).core.rstat = j.core.rstat := rfl
@[simp] theorem Job.setPc_core_rpos (j : Job) (v : Word) : (j.setPc v).core.rpos = j.core.rpos := rfl
@[simp] theorem Job.setPc_core_leaseb (j : Job) (v : Word) : (j.setPc v).core.leaseb = j.core.leaseb := rfl
@[simp] theorem Job.setPc_core_lease (j : Job) (v : Word) : (j.setPc v).core.lease = j.core.lease := rfl
@[simp] theorem Job.setPc_core_accs (j : Job) (v : Word) : (j.setPc v).core.accs = j.core.accs := rfl
@[simp] theorem Job.setPc_core_slots (j : Job) (v : Word) : (j.setPc v).core.slots = j.core.slots := rfl
@[simp] theorem Job.setPc_core_win (j : Job) (v : Word) : (j.setPc v).core.win = j.core.win := rfl
@[simp] theorem Job.setPc_core_digest (j : Job) (v : Word) : (j.setPc v).core.digest = j.core.digest := rfl
@[simp] theorem Job.setPc_core_wk (j : Job) (v : Word) : (j.setPc v).core.wk = j.core.wk := rfl
@[simp] theorem Job.setPc_core_wacc (j : Job) (v : Word) : (j.setPc v).core.wacc = j.core.wacc := rfl
@[simp] theorem Job.setPc_S_s (j : Job) (v : Word) : (j.setPc v).core.S.s = j.core.S.s := rfl
@[simp] theorem Job.setPc_S_p (j : Job) (v : Word) : (j.setPc v).core.S.p = j.core.S.p := rfl
@[simp] theorem Job.setPc_S_seq (j : Job) (v : Word) : (j.setPc v).core.S.seq = j.core.S.seq := rfl

/-! ### `Job.next` -/

@[simp] theorem Job.next_uid (j : Job) : (j.next).uid = j.uid := rfl
@[simp] theorem Job.next_launch (j : Job) : (j.next).launch = j.launch := rfl
@[simp] theorem Job.next_ticket (j : Job) : (j.next).ticket = j.ticket := rfl
@[simp] theorem Job.next_serial (j : Job) : (j.next).serial = j.serial := rfl
@[simp] theorem Job.next_fdom (j : Job) : (j.next).fdom = j.fdom := rfl
@[simp] theorem Job.next_hdr0 (j : Job) : (j.next).hdr0 = j.hdr0 := rfl
@[simp] theorem Job.next_hdr1 (j : Job) : (j.next).hdr1 = j.hdr1 := rfl
@[simp] theorem Job.next_epoch (j : Job) : (j.next).epoch = j.epoch := rfl
@[simp] theorem Job.next_level (j : Job) : (j.next).level = j.level := rfl
@[simp] theorem Job.next_phase (j : Job) : (j.next).phase = j.phase := rfl
@[simp] theorem Job.next_pend (j : Job) : (j.next).pend = j.pend := rfl
@[simp] theorem Job.next_trapc (j : Job) : (j.next).trapc = j.trapc := rfl
@[simp] theorem Job.next_trapv (j : Job) : (j.next).trapv = j.trapv := rfl
@[simp] theorem Job.next_trappc (j : Job) : (j.next).trappc = j.trappc := rfl
@[simp] theorem Job.next_trapIn (j : Job) : (j.next).trapIn = j.trapIn := rfl
@[simp] theorem Job.next_snap (j : Job) : (j.next).snap = j.snap := rfl
@[simp] theorem Job.next_region (j : Job) : (j.next).region = j.region := rfl
@[simp] theorem Job.next_ctxAddr (j : Job) : (j.next).ctxAddr = j.ctxAddr := rfl
@[simp] theorem Job.next_preempt (j : Job) : (j.next).preempt = j.preempt := rfl
@[simp] theorem Job.next_dispatched (j : Job) : (j.next).dispatched = j.dispatched := rfl
@[simp] theorem Job.next_resident (j : Job) : (j.next).resident = j.resident := rfl
@[simp] theorem Job.next_watch (j : Job) : (j.next).watch = j.watch := rfl
@[simp] theorem Job.next_lastSave (j : Job) : (j.next).lastSave = j.lastSave := rfl
@[simp] theorem Job.next_lastRestore (j : Job) : (j.next).lastRestore = j.lastRestore := rfl
@[simp] theorem Job.next_saveStart (j : Job) : (j.next).saveStart = j.saveStart := rfl
@[simp] theorem Job.next_triggered (j : Job) : (j.next).triggered = j.triggered := rfl
@[simp] theorem Job.next_nmHandles (j : Job) : (j.next).nmHandles = j.nmHandles := rfl
@[simp] theorem Job.next_stallStart (j : Job) : (j.next).stallStart = j.stallStart := rfl
@[simp] theorem Job.next_bpSkip (j : Job) : (j.next).bpSkip = j.bpSkip := rfl
@[simp] theorem Job.next_clk (j : Job) : (j.next).clk = j.clk := rfl
@[simp] theorem Job.next_shown (j : Job) : (j.next).shown = j.shown := rfl
@[simp] theorem Job.next_posted (j : Job) : (j.next).posted = j.posted := rfl
@[simp] theorem Job.next_replay (j : Job) : (j.next).replay = j.replay := rfl
@[simp] theorem Job.next_home (j : Job) : (j.next).home = j.home := rfl
@[simp] theorem Job.next_lookup (j : Job) : (j.next).lookup = j.lookup := rfl
@[simp] theorem Job.next_core_L (j : Job) : (j.next).core.L = j.core.L := rfl
@[simp] theorem Job.next_core_X (j : Job) : (j.next).core.X = j.core.X := rfl
@[simp] theorem Job.next_core_T (j : Job) : (j.next).core.T = j.core.T := rfl
@[simp] theorem Job.next_core_Q (j : Job) : (j.next).core.Q = j.core.Q := rfl
@[simp] theorem Job.next_core_spill (j : Job) : (j.next).core.spill = j.core.spill := rfl
@[simp] theorem Job.next_core_vs (j : Job) : (j.next).core.vs = j.core.vs := rfl
@[simp] theorem Job.next_core_ms (j : Job) : (j.next).core.ms = j.core.ms := rfl
@[simp] theorem Job.next_core_masks (j : Job) : (j.next).core.masks = j.core.masks := rfl
@[simp] theorem Job.next_core_thr (j : Job) : (j.next).core.thr = j.core.thr := rfl
@[simp] theorem Job.next_core_flags (j : Job) : (j.next).core.flags = j.core.flags := rfl
@[simp] theorem Job.next_core_elog (j : Job) : (j.next).core.elog = j.core.elog := rfl
@[simp] theorem Job.next_core_fmt (j : Job) : (j.next).core.fmt = j.core.fmt := rfl
@[simp] theorem Job.next_core_rlo (j : Job) : (j.next).core.rlo = j.core.rlo := rfl
@[simp] theorem Job.next_core_rhi (j : Job) : (j.next).core.rhi = j.core.rhi := rfl
@[simp] theorem Job.next_core_rstat (j : Job) : (j.next).core.rstat = j.core.rstat := rfl
@[simp] theorem Job.next_core_rpos (j : Job) : (j.next).core.rpos = j.core.rpos := rfl
@[simp] theorem Job.next_core_leaseb (j : Job) : (j.next).core.leaseb = j.core.leaseb := rfl
@[simp] theorem Job.next_core_lease (j : Job) : (j.next).core.lease = j.core.lease := rfl
@[simp] theorem Job.next_core_accs (j : Job) : (j.next).core.accs = j.core.accs := rfl
@[simp] theorem Job.next_core_slots (j : Job) : (j.next).core.slots = j.core.slots := rfl
@[simp] theorem Job.next_core_win (j : Job) : (j.next).core.win = j.core.win := rfl
@[simp] theorem Job.next_core_digest (j : Job) : (j.next).core.digest = j.core.digest := rfl
@[simp] theorem Job.next_core_wk (j : Job) : (j.next).core.wk = j.core.wk := rfl
@[simp] theorem Job.next_core_wacc (j : Job) : (j.next).core.wacc = j.core.wacc := rfl
@[simp] theorem Job.next_S_s (j : Job) : (j.next).core.S.s = j.core.S.s := rfl
@[simp] theorem Job.next_S_p (j : Job) : (j.next).core.S.p = j.core.S.p := rfl
@[simp] theorem Job.next_S_seq (j : Job) : (j.next).core.S.seq = j.core.S.seq := rfl

/-! ### `Job.setS` -/

@[simp] theorem Job.setS_uid (j : Job) (r : BitVec 6) (v : Word) : (j.setS r v).uid = j.uid := by
  unfold Job.setS; split <;> rfl
@[simp] theorem Job.setS_launch (j : Job) (r : BitVec 6) (v : Word) : (j.setS r v).launch = j.launch := by
  unfold Job.setS; split <;> rfl
@[simp] theorem Job.setS_ticket (j : Job) (r : BitVec 6) (v : Word) : (j.setS r v).ticket = j.ticket := by
  unfold Job.setS; split <;> rfl
@[simp] theorem Job.setS_serial (j : Job) (r : BitVec 6) (v : Word) : (j.setS r v).serial = j.serial := by
  unfold Job.setS; split <;> rfl
@[simp] theorem Job.setS_fdom (j : Job) (r : BitVec 6) (v : Word) : (j.setS r v).fdom = j.fdom := by
  unfold Job.setS; split <;> rfl
@[simp] theorem Job.setS_hdr0 (j : Job) (r : BitVec 6) (v : Word) : (j.setS r v).hdr0 = j.hdr0 := by
  unfold Job.setS; split <;> rfl
@[simp] theorem Job.setS_hdr1 (j : Job) (r : BitVec 6) (v : Word) : (j.setS r v).hdr1 = j.hdr1 := by
  unfold Job.setS; split <;> rfl
@[simp] theorem Job.setS_epoch (j : Job) (r : BitVec 6) (v : Word) : (j.setS r v).epoch = j.epoch := by
  unfold Job.setS; split <;> rfl
@[simp] theorem Job.setS_level (j : Job) (r : BitVec 6) (v : Word) : (j.setS r v).level = j.level := by
  unfold Job.setS; split <;> rfl
@[simp] theorem Job.setS_phase (j : Job) (r : BitVec 6) (v : Word) : (j.setS r v).phase = j.phase := by
  unfold Job.setS; split <;> rfl
@[simp] theorem Job.setS_pend (j : Job) (r : BitVec 6) (v : Word) : (j.setS r v).pend = j.pend := by
  unfold Job.setS; split <;> rfl
@[simp] theorem Job.setS_trapc (j : Job) (r : BitVec 6) (v : Word) : (j.setS r v).trapc = j.trapc := by
  unfold Job.setS; split <;> rfl
@[simp] theorem Job.setS_trapv (j : Job) (r : BitVec 6) (v : Word) : (j.setS r v).trapv = j.trapv := by
  unfold Job.setS; split <;> rfl
@[simp] theorem Job.setS_trappc (j : Job) (r : BitVec 6) (v : Word) : (j.setS r v).trappc = j.trappc := by
  unfold Job.setS; split <;> rfl
@[simp] theorem Job.setS_trapIn (j : Job) (r : BitVec 6) (v : Word) : (j.setS r v).trapIn = j.trapIn := by
  unfold Job.setS; split <;> rfl
@[simp] theorem Job.setS_snap (j : Job) (r : BitVec 6) (v : Word) : (j.setS r v).snap = j.snap := by
  unfold Job.setS; split <;> rfl
@[simp] theorem Job.setS_region (j : Job) (r : BitVec 6) (v : Word) : (j.setS r v).region = j.region := by
  unfold Job.setS; split <;> rfl
@[simp] theorem Job.setS_ctxAddr (j : Job) (r : BitVec 6) (v : Word) : (j.setS r v).ctxAddr = j.ctxAddr := by
  unfold Job.setS; split <;> rfl
@[simp] theorem Job.setS_preempt (j : Job) (r : BitVec 6) (v : Word) : (j.setS r v).preempt = j.preempt := by
  unfold Job.setS; split <;> rfl
@[simp] theorem Job.setS_dispatched (j : Job) (r : BitVec 6) (v : Word) : (j.setS r v).dispatched = j.dispatched := by
  unfold Job.setS; split <;> rfl
@[simp] theorem Job.setS_resident (j : Job) (r : BitVec 6) (v : Word) : (j.setS r v).resident = j.resident := by
  unfold Job.setS; split <;> rfl
@[simp] theorem Job.setS_watch (j : Job) (r : BitVec 6) (v : Word) : (j.setS r v).watch = j.watch := by
  unfold Job.setS; split <;> rfl
@[simp] theorem Job.setS_lastSave (j : Job) (r : BitVec 6) (v : Word) : (j.setS r v).lastSave = j.lastSave := by
  unfold Job.setS; split <;> rfl
@[simp] theorem Job.setS_lastRestore (j : Job) (r : BitVec 6) (v : Word) : (j.setS r v).lastRestore = j.lastRestore := by
  unfold Job.setS; split <;> rfl
@[simp] theorem Job.setS_saveStart (j : Job) (r : BitVec 6) (v : Word) : (j.setS r v).saveStart = j.saveStart := by
  unfold Job.setS; split <;> rfl
@[simp] theorem Job.setS_triggered (j : Job) (r : BitVec 6) (v : Word) : (j.setS r v).triggered = j.triggered := by
  unfold Job.setS; split <;> rfl
@[simp] theorem Job.setS_nmHandles (j : Job) (r : BitVec 6) (v : Word) : (j.setS r v).nmHandles = j.nmHandles := by
  unfold Job.setS; split <;> rfl
@[simp] theorem Job.setS_stallStart (j : Job) (r : BitVec 6) (v : Word) : (j.setS r v).stallStart = j.stallStart := by
  unfold Job.setS; split <;> rfl
@[simp] theorem Job.setS_bpSkip (j : Job) (r : BitVec 6) (v : Word) : (j.setS r v).bpSkip = j.bpSkip := by
  unfold Job.setS; split <;> rfl
@[simp] theorem Job.setS_clk (j : Job) (r : BitVec 6) (v : Word) : (j.setS r v).clk = j.clk := by
  unfold Job.setS; split <;> rfl
@[simp] theorem Job.setS_shown (j : Job) (r : BitVec 6) (v : Word) : (j.setS r v).shown = j.shown := by
  unfold Job.setS; split <;> rfl
@[simp] theorem Job.setS_posted (j : Job) (r : BitVec 6) (v : Word) : (j.setS r v).posted = j.posted := by
  unfold Job.setS; split <;> rfl
@[simp] theorem Job.setS_replay (j : Job) (r : BitVec 6) (v : Word) : (j.setS r v).replay = j.replay := by
  unfold Job.setS; split <;> rfl
@[simp] theorem Job.setS_home (j : Job) (r : BitVec 6) (v : Word) : (j.setS r v).home = j.home := by
  unfold Job.setS; split <;> rfl
@[simp] theorem Job.setS_lookup (j : Job) (r : BitVec 6) (v : Word) : (j.setS r v).lookup = j.lookup := by
  unfold Job.setS; split <;> rfl
@[simp] theorem Job.setS_core_L (j : Job) (r : BitVec 6) (v : Word) : (j.setS r v).core.L = j.core.L := by
  unfold Job.setS; split <;> rfl
@[simp] theorem Job.setS_core_X (j : Job) (r : BitVec 6) (v : Word) : (j.setS r v).core.X = j.core.X := by
  unfold Job.setS; split <;> rfl
@[simp] theorem Job.setS_core_T (j : Job) (r : BitVec 6) (v : Word) : (j.setS r v).core.T = j.core.T := by
  unfold Job.setS; split <;> rfl
@[simp] theorem Job.setS_core_Q (j : Job) (r : BitVec 6) (v : Word) : (j.setS r v).core.Q = j.core.Q := by
  unfold Job.setS; split <;> rfl
@[simp] theorem Job.setS_core_spill (j : Job) (r : BitVec 6) (v : Word) : (j.setS r v).core.spill = j.core.spill := by
  unfold Job.setS; split <;> rfl
@[simp] theorem Job.setS_core_vs (j : Job) (r : BitVec 6) (v : Word) : (j.setS r v).core.vs = j.core.vs := by
  unfold Job.setS; split <;> rfl
@[simp] theorem Job.setS_core_ms (j : Job) (r : BitVec 6) (v : Word) : (j.setS r v).core.ms = j.core.ms := by
  unfold Job.setS; split <;> rfl
@[simp] theorem Job.setS_core_masks (j : Job) (r : BitVec 6) (v : Word) : (j.setS r v).core.masks = j.core.masks := by
  unfold Job.setS; split <;> rfl
@[simp] theorem Job.setS_core_thr (j : Job) (r : BitVec 6) (v : Word) : (j.setS r v).core.thr = j.core.thr := by
  unfold Job.setS; split <;> rfl
@[simp] theorem Job.setS_core_flags (j : Job) (r : BitVec 6) (v : Word) : (j.setS r v).core.flags = j.core.flags := by
  unfold Job.setS; split <;> rfl
@[simp] theorem Job.setS_core_elog (j : Job) (r : BitVec 6) (v : Word) : (j.setS r v).core.elog = j.core.elog := by
  unfold Job.setS; split <;> rfl
@[simp] theorem Job.setS_core_fmt (j : Job) (r : BitVec 6) (v : Word) : (j.setS r v).core.fmt = j.core.fmt := by
  unfold Job.setS; split <;> rfl
@[simp] theorem Job.setS_core_rlo (j : Job) (r : BitVec 6) (v : Word) : (j.setS r v).core.rlo = j.core.rlo := by
  unfold Job.setS; split <;> rfl
@[simp] theorem Job.setS_core_rhi (j : Job) (r : BitVec 6) (v : Word) : (j.setS r v).core.rhi = j.core.rhi := by
  unfold Job.setS; split <;> rfl
@[simp] theorem Job.setS_core_rstat (j : Job) (r : BitVec 6) (v : Word) : (j.setS r v).core.rstat = j.core.rstat := by
  unfold Job.setS; split <;> rfl
@[simp] theorem Job.setS_core_rpos (j : Job) (r : BitVec 6) (v : Word) : (j.setS r v).core.rpos = j.core.rpos := by
  unfold Job.setS; split <;> rfl
@[simp] theorem Job.setS_core_leaseb (j : Job) (r : BitVec 6) (v : Word) : (j.setS r v).core.leaseb = j.core.leaseb := by
  unfold Job.setS; split <;> rfl
@[simp] theorem Job.setS_core_lease (j : Job) (r : BitVec 6) (v : Word) : (j.setS r v).core.lease = j.core.lease := by
  unfold Job.setS; split <;> rfl
@[simp] theorem Job.setS_core_accs (j : Job) (r : BitVec 6) (v : Word) : (j.setS r v).core.accs = j.core.accs := by
  unfold Job.setS; split <;> rfl
@[simp] theorem Job.setS_core_slots (j : Job) (r : BitVec 6) (v : Word) : (j.setS r v).core.slots = j.core.slots := by
  unfold Job.setS; split <;> rfl
@[simp] theorem Job.setS_core_win (j : Job) (r : BitVec 6) (v : Word) : (j.setS r v).core.win = j.core.win := by
  unfold Job.setS; split <;> rfl
@[simp] theorem Job.setS_core_digest (j : Job) (r : BitVec 6) (v : Word) : (j.setS r v).core.digest = j.core.digest := by
  unfold Job.setS; split <;> rfl
@[simp] theorem Job.setS_core_wk (j : Job) (r : BitVec 6) (v : Word) : (j.setS r v).core.wk = j.core.wk := by
  unfold Job.setS; split <;> rfl
@[simp] theorem Job.setS_core_wacc (j : Job) (r : BitVec 6) (v : Word) : (j.setS r v).core.wacc = j.core.wacc := by
  unfold Job.setS; split <;> rfl
@[simp] theorem Job.setS_S_pc (j : Job) (r : BitVec 6) (v : Word) : (j.setS r v).core.S.pc = j.core.S.pc := by
  unfold Job.setS; split <;> rfl
@[simp] theorem Job.setS_S_p (j : Job) (r : BitVec 6) (v : Word) : (j.setS r v).core.S.p = j.core.S.p := by
  unfold Job.setS; split <;> rfl
@[simp] theorem Job.setS_S_seq (j : Job) (r : BitVec 6) (v : Word) : (j.setS r v).core.S.seq = j.core.S.seq := by
  unfold Job.setS; split <;> rfl

/-! ### `Job.setP` -/

@[simp] theorem Job.setP_uid (j : Job) (r : BitVec 3) (v : Bool) : (j.setP r v).uid = j.uid := by
  unfold Job.setP; split <;> rfl
@[simp] theorem Job.setP_launch (j : Job) (r : BitVec 3) (v : Bool) : (j.setP r v).launch = j.launch := by
  unfold Job.setP; split <;> rfl
@[simp] theorem Job.setP_ticket (j : Job) (r : BitVec 3) (v : Bool) : (j.setP r v).ticket = j.ticket := by
  unfold Job.setP; split <;> rfl
@[simp] theorem Job.setP_serial (j : Job) (r : BitVec 3) (v : Bool) : (j.setP r v).serial = j.serial := by
  unfold Job.setP; split <;> rfl
@[simp] theorem Job.setP_fdom (j : Job) (r : BitVec 3) (v : Bool) : (j.setP r v).fdom = j.fdom := by
  unfold Job.setP; split <;> rfl
@[simp] theorem Job.setP_hdr0 (j : Job) (r : BitVec 3) (v : Bool) : (j.setP r v).hdr0 = j.hdr0 := by
  unfold Job.setP; split <;> rfl
@[simp] theorem Job.setP_hdr1 (j : Job) (r : BitVec 3) (v : Bool) : (j.setP r v).hdr1 = j.hdr1 := by
  unfold Job.setP; split <;> rfl
@[simp] theorem Job.setP_epoch (j : Job) (r : BitVec 3) (v : Bool) : (j.setP r v).epoch = j.epoch := by
  unfold Job.setP; split <;> rfl
@[simp] theorem Job.setP_level (j : Job) (r : BitVec 3) (v : Bool) : (j.setP r v).level = j.level := by
  unfold Job.setP; split <;> rfl
@[simp] theorem Job.setP_phase (j : Job) (r : BitVec 3) (v : Bool) : (j.setP r v).phase = j.phase := by
  unfold Job.setP; split <;> rfl
@[simp] theorem Job.setP_pend (j : Job) (r : BitVec 3) (v : Bool) : (j.setP r v).pend = j.pend := by
  unfold Job.setP; split <;> rfl
@[simp] theorem Job.setP_trapc (j : Job) (r : BitVec 3) (v : Bool) : (j.setP r v).trapc = j.trapc := by
  unfold Job.setP; split <;> rfl
@[simp] theorem Job.setP_trapv (j : Job) (r : BitVec 3) (v : Bool) : (j.setP r v).trapv = j.trapv := by
  unfold Job.setP; split <;> rfl
@[simp] theorem Job.setP_trappc (j : Job) (r : BitVec 3) (v : Bool) : (j.setP r v).trappc = j.trappc := by
  unfold Job.setP; split <;> rfl
@[simp] theorem Job.setP_trapIn (j : Job) (r : BitVec 3) (v : Bool) : (j.setP r v).trapIn = j.trapIn := by
  unfold Job.setP; split <;> rfl
@[simp] theorem Job.setP_snap (j : Job) (r : BitVec 3) (v : Bool) : (j.setP r v).snap = j.snap := by
  unfold Job.setP; split <;> rfl
@[simp] theorem Job.setP_region (j : Job) (r : BitVec 3) (v : Bool) : (j.setP r v).region = j.region := by
  unfold Job.setP; split <;> rfl
@[simp] theorem Job.setP_ctxAddr (j : Job) (r : BitVec 3) (v : Bool) : (j.setP r v).ctxAddr = j.ctxAddr := by
  unfold Job.setP; split <;> rfl
@[simp] theorem Job.setP_preempt (j : Job) (r : BitVec 3) (v : Bool) : (j.setP r v).preempt = j.preempt := by
  unfold Job.setP; split <;> rfl
@[simp] theorem Job.setP_dispatched (j : Job) (r : BitVec 3) (v : Bool) : (j.setP r v).dispatched = j.dispatched := by
  unfold Job.setP; split <;> rfl
@[simp] theorem Job.setP_resident (j : Job) (r : BitVec 3) (v : Bool) : (j.setP r v).resident = j.resident := by
  unfold Job.setP; split <;> rfl
@[simp] theorem Job.setP_watch (j : Job) (r : BitVec 3) (v : Bool) : (j.setP r v).watch = j.watch := by
  unfold Job.setP; split <;> rfl
@[simp] theorem Job.setP_lastSave (j : Job) (r : BitVec 3) (v : Bool) : (j.setP r v).lastSave = j.lastSave := by
  unfold Job.setP; split <;> rfl
@[simp] theorem Job.setP_lastRestore (j : Job) (r : BitVec 3) (v : Bool) : (j.setP r v).lastRestore = j.lastRestore := by
  unfold Job.setP; split <;> rfl
@[simp] theorem Job.setP_saveStart (j : Job) (r : BitVec 3) (v : Bool) : (j.setP r v).saveStart = j.saveStart := by
  unfold Job.setP; split <;> rfl
@[simp] theorem Job.setP_triggered (j : Job) (r : BitVec 3) (v : Bool) : (j.setP r v).triggered = j.triggered := by
  unfold Job.setP; split <;> rfl
@[simp] theorem Job.setP_nmHandles (j : Job) (r : BitVec 3) (v : Bool) : (j.setP r v).nmHandles = j.nmHandles := by
  unfold Job.setP; split <;> rfl
@[simp] theorem Job.setP_stallStart (j : Job) (r : BitVec 3) (v : Bool) : (j.setP r v).stallStart = j.stallStart := by
  unfold Job.setP; split <;> rfl
@[simp] theorem Job.setP_bpSkip (j : Job) (r : BitVec 3) (v : Bool) : (j.setP r v).bpSkip = j.bpSkip := by
  unfold Job.setP; split <;> rfl
@[simp] theorem Job.setP_clk (j : Job) (r : BitVec 3) (v : Bool) : (j.setP r v).clk = j.clk := by
  unfold Job.setP; split <;> rfl
@[simp] theorem Job.setP_shown (j : Job) (r : BitVec 3) (v : Bool) : (j.setP r v).shown = j.shown := by
  unfold Job.setP; split <;> rfl
@[simp] theorem Job.setP_posted (j : Job) (r : BitVec 3) (v : Bool) : (j.setP r v).posted = j.posted := by
  unfold Job.setP; split <;> rfl
@[simp] theorem Job.setP_replay (j : Job) (r : BitVec 3) (v : Bool) : (j.setP r v).replay = j.replay := by
  unfold Job.setP; split <;> rfl
@[simp] theorem Job.setP_home (j : Job) (r : BitVec 3) (v : Bool) : (j.setP r v).home = j.home := by
  unfold Job.setP; split <;> rfl
@[simp] theorem Job.setP_lookup (j : Job) (r : BitVec 3) (v : Bool) : (j.setP r v).lookup = j.lookup := by
  unfold Job.setP; split <;> rfl
@[simp] theorem Job.setP_core_L (j : Job) (r : BitVec 3) (v : Bool) : (j.setP r v).core.L = j.core.L := by
  unfold Job.setP; split <;> rfl
@[simp] theorem Job.setP_core_X (j : Job) (r : BitVec 3) (v : Bool) : (j.setP r v).core.X = j.core.X := by
  unfold Job.setP; split <;> rfl
@[simp] theorem Job.setP_core_T (j : Job) (r : BitVec 3) (v : Bool) : (j.setP r v).core.T = j.core.T := by
  unfold Job.setP; split <;> rfl
@[simp] theorem Job.setP_core_Q (j : Job) (r : BitVec 3) (v : Bool) : (j.setP r v).core.Q = j.core.Q := by
  unfold Job.setP; split <;> rfl
@[simp] theorem Job.setP_core_spill (j : Job) (r : BitVec 3) (v : Bool) : (j.setP r v).core.spill = j.core.spill := by
  unfold Job.setP; split <;> rfl
@[simp] theorem Job.setP_core_vs (j : Job) (r : BitVec 3) (v : Bool) : (j.setP r v).core.vs = j.core.vs := by
  unfold Job.setP; split <;> rfl
@[simp] theorem Job.setP_core_ms (j : Job) (r : BitVec 3) (v : Bool) : (j.setP r v).core.ms = j.core.ms := by
  unfold Job.setP; split <;> rfl
@[simp] theorem Job.setP_core_masks (j : Job) (r : BitVec 3) (v : Bool) : (j.setP r v).core.masks = j.core.masks := by
  unfold Job.setP; split <;> rfl
@[simp] theorem Job.setP_core_thr (j : Job) (r : BitVec 3) (v : Bool) : (j.setP r v).core.thr = j.core.thr := by
  unfold Job.setP; split <;> rfl
@[simp] theorem Job.setP_core_flags (j : Job) (r : BitVec 3) (v : Bool) : (j.setP r v).core.flags = j.core.flags := by
  unfold Job.setP; split <;> rfl
@[simp] theorem Job.setP_core_elog (j : Job) (r : BitVec 3) (v : Bool) : (j.setP r v).core.elog = j.core.elog := by
  unfold Job.setP; split <;> rfl
@[simp] theorem Job.setP_core_fmt (j : Job) (r : BitVec 3) (v : Bool) : (j.setP r v).core.fmt = j.core.fmt := by
  unfold Job.setP; split <;> rfl
@[simp] theorem Job.setP_core_rlo (j : Job) (r : BitVec 3) (v : Bool) : (j.setP r v).core.rlo = j.core.rlo := by
  unfold Job.setP; split <;> rfl
@[simp] theorem Job.setP_core_rhi (j : Job) (r : BitVec 3) (v : Bool) : (j.setP r v).core.rhi = j.core.rhi := by
  unfold Job.setP; split <;> rfl
@[simp] theorem Job.setP_core_rstat (j : Job) (r : BitVec 3) (v : Bool) : (j.setP r v).core.rstat = j.core.rstat := by
  unfold Job.setP; split <;> rfl
@[simp] theorem Job.setP_core_rpos (j : Job) (r : BitVec 3) (v : Bool) : (j.setP r v).core.rpos = j.core.rpos := by
  unfold Job.setP; split <;> rfl
@[simp] theorem Job.setP_core_leaseb (j : Job) (r : BitVec 3) (v : Bool) : (j.setP r v).core.leaseb = j.core.leaseb := by
  unfold Job.setP; split <;> rfl
@[simp] theorem Job.setP_core_lease (j : Job) (r : BitVec 3) (v : Bool) : (j.setP r v).core.lease = j.core.lease := by
  unfold Job.setP; split <;> rfl
@[simp] theorem Job.setP_core_accs (j : Job) (r : BitVec 3) (v : Bool) : (j.setP r v).core.accs = j.core.accs := by
  unfold Job.setP; split <;> rfl
@[simp] theorem Job.setP_core_slots (j : Job) (r : BitVec 3) (v : Bool) : (j.setP r v).core.slots = j.core.slots := by
  unfold Job.setP; split <;> rfl
@[simp] theorem Job.setP_core_win (j : Job) (r : BitVec 3) (v : Bool) : (j.setP r v).core.win = j.core.win := by
  unfold Job.setP; split <;> rfl
@[simp] theorem Job.setP_core_digest (j : Job) (r : BitVec 3) (v : Bool) : (j.setP r v).core.digest = j.core.digest := by
  unfold Job.setP; split <;> rfl
@[simp] theorem Job.setP_core_wk (j : Job) (r : BitVec 3) (v : Bool) : (j.setP r v).core.wk = j.core.wk := by
  unfold Job.setP; split <;> rfl
@[simp] theorem Job.setP_core_wacc (j : Job) (r : BitVec 3) (v : Bool) : (j.setP r v).core.wacc = j.core.wacc := by
  unfold Job.setP; split <;> rfl
@[simp] theorem Job.setP_S_pc (j : Job) (r : BitVec 3) (v : Bool) : (j.setP r v).core.S.pc = j.core.S.pc := by
  unfold Job.setP; split <;> rfl
@[simp] theorem Job.setP_S_s (j : Job) (r : BitVec 3) (v : Bool) : (j.setP r v).core.S.s = j.core.S.s := by
  unfold Job.setP; split <;> rfl
@[simp] theorem Job.setP_S_seq (j : Job) (r : BitVec 3) (v : Bool) : (j.setP r v).core.S.seq = j.core.S.seq := by
  unfold Job.setP; split <;> rfl

/-! ### `Job.orFlags` -/

@[simp] theorem Job.orFlags_uid (j : Job) (f : BitVec 9) : (j.orFlags f).uid = j.uid := rfl
@[simp] theorem Job.orFlags_launch (j : Job) (f : BitVec 9) : (j.orFlags f).launch = j.launch := rfl
@[simp] theorem Job.orFlags_ticket (j : Job) (f : BitVec 9) : (j.orFlags f).ticket = j.ticket := rfl
@[simp] theorem Job.orFlags_serial (j : Job) (f : BitVec 9) : (j.orFlags f).serial = j.serial := rfl
@[simp] theorem Job.orFlags_fdom (j : Job) (f : BitVec 9) : (j.orFlags f).fdom = j.fdom := rfl
@[simp] theorem Job.orFlags_hdr0 (j : Job) (f : BitVec 9) : (j.orFlags f).hdr0 = j.hdr0 := rfl
@[simp] theorem Job.orFlags_hdr1 (j : Job) (f : BitVec 9) : (j.orFlags f).hdr1 = j.hdr1 := rfl
@[simp] theorem Job.orFlags_epoch (j : Job) (f : BitVec 9) : (j.orFlags f).epoch = j.epoch := rfl
@[simp] theorem Job.orFlags_level (j : Job) (f : BitVec 9) : (j.orFlags f).level = j.level := rfl
@[simp] theorem Job.orFlags_phase (j : Job) (f : BitVec 9) : (j.orFlags f).phase = j.phase := rfl
@[simp] theorem Job.orFlags_pend (j : Job) (f : BitVec 9) : (j.orFlags f).pend = j.pend := rfl
@[simp] theorem Job.orFlags_trapc (j : Job) (f : BitVec 9) : (j.orFlags f).trapc = j.trapc := rfl
@[simp] theorem Job.orFlags_trapv (j : Job) (f : BitVec 9) : (j.orFlags f).trapv = j.trapv := rfl
@[simp] theorem Job.orFlags_trappc (j : Job) (f : BitVec 9) : (j.orFlags f).trappc = j.trappc := rfl
@[simp] theorem Job.orFlags_trapIn (j : Job) (f : BitVec 9) : (j.orFlags f).trapIn = j.trapIn := rfl
@[simp] theorem Job.orFlags_snap (j : Job) (f : BitVec 9) : (j.orFlags f).snap = j.snap := rfl
@[simp] theorem Job.orFlags_region (j : Job) (f : BitVec 9) : (j.orFlags f).region = j.region := rfl
@[simp] theorem Job.orFlags_ctxAddr (j : Job) (f : BitVec 9) : (j.orFlags f).ctxAddr = j.ctxAddr := rfl
@[simp] theorem Job.orFlags_preempt (j : Job) (f : BitVec 9) : (j.orFlags f).preempt = j.preempt := rfl
@[simp] theorem Job.orFlags_dispatched (j : Job) (f : BitVec 9) : (j.orFlags f).dispatched = j.dispatched := rfl
@[simp] theorem Job.orFlags_resident (j : Job) (f : BitVec 9) : (j.orFlags f).resident = j.resident := rfl
@[simp] theorem Job.orFlags_watch (j : Job) (f : BitVec 9) : (j.orFlags f).watch = j.watch := rfl
@[simp] theorem Job.orFlags_lastSave (j : Job) (f : BitVec 9) : (j.orFlags f).lastSave = j.lastSave := rfl
@[simp] theorem Job.orFlags_lastRestore (j : Job) (f : BitVec 9) : (j.orFlags f).lastRestore = j.lastRestore := rfl
@[simp] theorem Job.orFlags_saveStart (j : Job) (f : BitVec 9) : (j.orFlags f).saveStart = j.saveStart := rfl
@[simp] theorem Job.orFlags_triggered (j : Job) (f : BitVec 9) : (j.orFlags f).triggered = j.triggered := rfl
@[simp] theorem Job.orFlags_nmHandles (j : Job) (f : BitVec 9) : (j.orFlags f).nmHandles = j.nmHandles := rfl
@[simp] theorem Job.orFlags_stallStart (j : Job) (f : BitVec 9) : (j.orFlags f).stallStart = j.stallStart := rfl
@[simp] theorem Job.orFlags_bpSkip (j : Job) (f : BitVec 9) : (j.orFlags f).bpSkip = j.bpSkip := rfl
@[simp] theorem Job.orFlags_clk (j : Job) (f : BitVec 9) : (j.orFlags f).clk = j.clk := rfl
@[simp] theorem Job.orFlags_shown (j : Job) (f : BitVec 9) : (j.orFlags f).shown = j.shown := rfl
@[simp] theorem Job.orFlags_posted (j : Job) (f : BitVec 9) : (j.orFlags f).posted = j.posted := rfl
@[simp] theorem Job.orFlags_replay (j : Job) (f : BitVec 9) : (j.orFlags f).replay = j.replay := rfl
@[simp] theorem Job.orFlags_home (j : Job) (f : BitVec 9) : (j.orFlags f).home = j.home := rfl
@[simp] theorem Job.orFlags_lookup (j : Job) (f : BitVec 9) : (j.orFlags f).lookup = j.lookup := rfl
@[simp] theorem Job.orFlags_core_S (j : Job) (f : BitVec 9) : (j.orFlags f).core.S = j.core.S := rfl
@[simp] theorem Job.orFlags_core_L (j : Job) (f : BitVec 9) : (j.orFlags f).core.L = j.core.L := rfl
@[simp] theorem Job.orFlags_core_X (j : Job) (f : BitVec 9) : (j.orFlags f).core.X = j.core.X := rfl
@[simp] theorem Job.orFlags_core_T (j : Job) (f : BitVec 9) : (j.orFlags f).core.T = j.core.T := rfl
@[simp] theorem Job.orFlags_core_Q (j : Job) (f : BitVec 9) : (j.orFlags f).core.Q = j.core.Q := rfl
@[simp] theorem Job.orFlags_core_spill (j : Job) (f : BitVec 9) : (j.orFlags f).core.spill = j.core.spill := rfl
@[simp] theorem Job.orFlags_core_vs (j : Job) (f : BitVec 9) : (j.orFlags f).core.vs = j.core.vs := rfl
@[simp] theorem Job.orFlags_core_ms (j : Job) (f : BitVec 9) : (j.orFlags f).core.ms = j.core.ms := rfl
@[simp] theorem Job.orFlags_core_masks (j : Job) (f : BitVec 9) : (j.orFlags f).core.masks = j.core.masks := rfl
@[simp] theorem Job.orFlags_core_thr (j : Job) (f : BitVec 9) : (j.orFlags f).core.thr = j.core.thr := rfl
@[simp] theorem Job.orFlags_core_elog (j : Job) (f : BitVec 9) : (j.orFlags f).core.elog = j.core.elog := rfl
@[simp] theorem Job.orFlags_core_fmt (j : Job) (f : BitVec 9) : (j.orFlags f).core.fmt = j.core.fmt := rfl
@[simp] theorem Job.orFlags_core_rlo (j : Job) (f : BitVec 9) : (j.orFlags f).core.rlo = j.core.rlo := rfl
@[simp] theorem Job.orFlags_core_rhi (j : Job) (f : BitVec 9) : (j.orFlags f).core.rhi = j.core.rhi := rfl
@[simp] theorem Job.orFlags_core_rstat (j : Job) (f : BitVec 9) : (j.orFlags f).core.rstat = j.core.rstat := rfl
@[simp] theorem Job.orFlags_core_rpos (j : Job) (f : BitVec 9) : (j.orFlags f).core.rpos = j.core.rpos := rfl
@[simp] theorem Job.orFlags_core_leaseb (j : Job) (f : BitVec 9) : (j.orFlags f).core.leaseb = j.core.leaseb := rfl
@[simp] theorem Job.orFlags_core_lease (j : Job) (f : BitVec 9) : (j.orFlags f).core.lease = j.core.lease := rfl
@[simp] theorem Job.orFlags_core_accs (j : Job) (f : BitVec 9) : (j.orFlags f).core.accs = j.core.accs := rfl
@[simp] theorem Job.orFlags_core_slots (j : Job) (f : BitVec 9) : (j.orFlags f).core.slots = j.core.slots := rfl
@[simp] theorem Job.orFlags_core_win (j : Job) (f : BitVec 9) : (j.orFlags f).core.win = j.core.win := rfl
@[simp] theorem Job.orFlags_core_digest (j : Job) (f : BitVec 9) : (j.orFlags f).core.digest = j.core.digest := rfl
@[simp] theorem Job.orFlags_core_wk (j : Job) (f : BitVec 9) : (j.orFlags f).core.wk = j.core.wk := rfl
@[simp] theorem Job.orFlags_core_wacc (j : Job) (f : BitVec 9) : (j.orFlags f).core.wacc = j.core.wacc := rfl

/-! ### `Job.qPush` -/

@[simp] theorem Job.qPush_uid (j : Job) (n : Nat) (v : Word) : (j.qPush n v).uid = j.uid := rfl
@[simp] theorem Job.qPush_launch (j : Job) (n : Nat) (v : Word) : (j.qPush n v).launch = j.launch := rfl
@[simp] theorem Job.qPush_ticket (j : Job) (n : Nat) (v : Word) : (j.qPush n v).ticket = j.ticket := rfl
@[simp] theorem Job.qPush_serial (j : Job) (n : Nat) (v : Word) : (j.qPush n v).serial = j.serial := rfl
@[simp] theorem Job.qPush_fdom (j : Job) (n : Nat) (v : Word) : (j.qPush n v).fdom = j.fdom := rfl
@[simp] theorem Job.qPush_hdr0 (j : Job) (n : Nat) (v : Word) : (j.qPush n v).hdr0 = j.hdr0 := rfl
@[simp] theorem Job.qPush_hdr1 (j : Job) (n : Nat) (v : Word) : (j.qPush n v).hdr1 = j.hdr1 := rfl
@[simp] theorem Job.qPush_epoch (j : Job) (n : Nat) (v : Word) : (j.qPush n v).epoch = j.epoch := rfl
@[simp] theorem Job.qPush_level (j : Job) (n : Nat) (v : Word) : (j.qPush n v).level = j.level := rfl
@[simp] theorem Job.qPush_phase (j : Job) (n : Nat) (v : Word) : (j.qPush n v).phase = j.phase := rfl
@[simp] theorem Job.qPush_pend (j : Job) (n : Nat) (v : Word) : (j.qPush n v).pend = j.pend := rfl
@[simp] theorem Job.qPush_trapc (j : Job) (n : Nat) (v : Word) : (j.qPush n v).trapc = j.trapc := rfl
@[simp] theorem Job.qPush_trapv (j : Job) (n : Nat) (v : Word) : (j.qPush n v).trapv = j.trapv := rfl
@[simp] theorem Job.qPush_trappc (j : Job) (n : Nat) (v : Word) : (j.qPush n v).trappc = j.trappc := rfl
@[simp] theorem Job.qPush_trapIn (j : Job) (n : Nat) (v : Word) : (j.qPush n v).trapIn = j.trapIn := rfl
@[simp] theorem Job.qPush_snap (j : Job) (n : Nat) (v : Word) : (j.qPush n v).snap = j.snap := rfl
@[simp] theorem Job.qPush_region (j : Job) (n : Nat) (v : Word) : (j.qPush n v).region = j.region := rfl
@[simp] theorem Job.qPush_ctxAddr (j : Job) (n : Nat) (v : Word) : (j.qPush n v).ctxAddr = j.ctxAddr := rfl
@[simp] theorem Job.qPush_preempt (j : Job) (n : Nat) (v : Word) : (j.qPush n v).preempt = j.preempt := rfl
@[simp] theorem Job.qPush_dispatched (j : Job) (n : Nat) (v : Word) : (j.qPush n v).dispatched = j.dispatched := rfl
@[simp] theorem Job.qPush_resident (j : Job) (n : Nat) (v : Word) : (j.qPush n v).resident = j.resident := rfl
@[simp] theorem Job.qPush_watch (j : Job) (n : Nat) (v : Word) : (j.qPush n v).watch = j.watch := rfl
@[simp] theorem Job.qPush_lastSave (j : Job) (n : Nat) (v : Word) : (j.qPush n v).lastSave = j.lastSave := rfl
@[simp] theorem Job.qPush_lastRestore (j : Job) (n : Nat) (v : Word) : (j.qPush n v).lastRestore = j.lastRestore := rfl
@[simp] theorem Job.qPush_saveStart (j : Job) (n : Nat) (v : Word) : (j.qPush n v).saveStart = j.saveStart := rfl
@[simp] theorem Job.qPush_triggered (j : Job) (n : Nat) (v : Word) : (j.qPush n v).triggered = j.triggered := rfl
@[simp] theorem Job.qPush_nmHandles (j : Job) (n : Nat) (v : Word) : (j.qPush n v).nmHandles = j.nmHandles := rfl
@[simp] theorem Job.qPush_stallStart (j : Job) (n : Nat) (v : Word) : (j.qPush n v).stallStart = j.stallStart := rfl
@[simp] theorem Job.qPush_bpSkip (j : Job) (n : Nat) (v : Word) : (j.qPush n v).bpSkip = j.bpSkip := rfl
@[simp] theorem Job.qPush_clk (j : Job) (n : Nat) (v : Word) : (j.qPush n v).clk = j.clk := rfl
@[simp] theorem Job.qPush_shown (j : Job) (n : Nat) (v : Word) : (j.qPush n v).shown = j.shown := rfl
@[simp] theorem Job.qPush_posted (j : Job) (n : Nat) (v : Word) : (j.qPush n v).posted = j.posted := rfl
@[simp] theorem Job.qPush_replay (j : Job) (n : Nat) (v : Word) : (j.qPush n v).replay = j.replay := rfl
@[simp] theorem Job.qPush_home (j : Job) (n : Nat) (v : Word) : (j.qPush n v).home = j.home := rfl
@[simp] theorem Job.qPush_lookup (j : Job) (n : Nat) (v : Word) : (j.qPush n v).lookup = j.lookup := rfl
@[simp] theorem Job.qPush_core_S (j : Job) (n : Nat) (v : Word) : (j.qPush n v).core.S = j.core.S := rfl
@[simp] theorem Job.qPush_core_L (j : Job) (n : Nat) (v : Word) : (j.qPush n v).core.L = j.core.L := rfl
@[simp] theorem Job.qPush_core_X (j : Job) (n : Nat) (v : Word) : (j.qPush n v).core.X = j.core.X := rfl
@[simp] theorem Job.qPush_core_T (j : Job) (n : Nat) (v : Word) : (j.qPush n v).core.T = j.core.T := rfl
@[simp] theorem Job.qPush_core_spill (j : Job) (n : Nat) (v : Word) : (j.qPush n v).core.spill = j.core.spill := rfl
@[simp] theorem Job.qPush_core_vs (j : Job) (n : Nat) (v : Word) : (j.qPush n v).core.vs = j.core.vs := rfl
@[simp] theorem Job.qPush_core_ms (j : Job) (n : Nat) (v : Word) : (j.qPush n v).core.ms = j.core.ms := rfl
@[simp] theorem Job.qPush_core_masks (j : Job) (n : Nat) (v : Word) : (j.qPush n v).core.masks = j.core.masks := rfl
@[simp] theorem Job.qPush_core_thr (j : Job) (n : Nat) (v : Word) : (j.qPush n v).core.thr = j.core.thr := rfl
@[simp] theorem Job.qPush_core_flags (j : Job) (n : Nat) (v : Word) : (j.qPush n v).core.flags = j.core.flags := rfl
@[simp] theorem Job.qPush_core_elog (j : Job) (n : Nat) (v : Word) : (j.qPush n v).core.elog = j.core.elog := rfl
@[simp] theorem Job.qPush_core_fmt (j : Job) (n : Nat) (v : Word) : (j.qPush n v).core.fmt = j.core.fmt := rfl
@[simp] theorem Job.qPush_core_rlo (j : Job) (n : Nat) (v : Word) : (j.qPush n v).core.rlo = j.core.rlo := rfl
@[simp] theorem Job.qPush_core_rhi (j : Job) (n : Nat) (v : Word) : (j.qPush n v).core.rhi = j.core.rhi := rfl
@[simp] theorem Job.qPush_core_rstat (j : Job) (n : Nat) (v : Word) : (j.qPush n v).core.rstat = j.core.rstat := rfl
@[simp] theorem Job.qPush_core_rpos (j : Job) (n : Nat) (v : Word) : (j.qPush n v).core.rpos = j.core.rpos := rfl
@[simp] theorem Job.qPush_core_leaseb (j : Job) (n : Nat) (v : Word) : (j.qPush n v).core.leaseb = j.core.leaseb := rfl
@[simp] theorem Job.qPush_core_lease (j : Job) (n : Nat) (v : Word) : (j.qPush n v).core.lease = j.core.lease := rfl
@[simp] theorem Job.qPush_core_accs (j : Job) (n : Nat) (v : Word) : (j.qPush n v).core.accs = j.core.accs := rfl
@[simp] theorem Job.qPush_core_slots (j : Job) (n : Nat) (v : Word) : (j.qPush n v).core.slots = j.core.slots := rfl
@[simp] theorem Job.qPush_core_win (j : Job) (n : Nat) (v : Word) : (j.qPush n v).core.win = j.core.win := rfl
@[simp] theorem Job.qPush_core_digest (j : Job) (n : Nat) (v : Word) : (j.qPush n v).core.digest = j.core.digest := rfl
@[simp] theorem Job.qPush_core_wk (j : Job) (n : Nat) (v : Word) : (j.qPush n v).core.wk = j.core.wk := rfl
@[simp] theorem Job.qPush_core_wacc (j : Job) (n : Nat) (v : Word) : (j.qPush n v).core.wacc = j.core.wacc := rfl

/-! ### `Job.qPop` -/

@[simp] theorem Job.qPop_uid (j : Job) (n : Nat) : (j.qPop n).uid = j.uid := rfl
@[simp] theorem Job.qPop_launch (j : Job) (n : Nat) : (j.qPop n).launch = j.launch := rfl
@[simp] theorem Job.qPop_ticket (j : Job) (n : Nat) : (j.qPop n).ticket = j.ticket := rfl
@[simp] theorem Job.qPop_serial (j : Job) (n : Nat) : (j.qPop n).serial = j.serial := rfl
@[simp] theorem Job.qPop_fdom (j : Job) (n : Nat) : (j.qPop n).fdom = j.fdom := rfl
@[simp] theorem Job.qPop_hdr0 (j : Job) (n : Nat) : (j.qPop n).hdr0 = j.hdr0 := rfl
@[simp] theorem Job.qPop_hdr1 (j : Job) (n : Nat) : (j.qPop n).hdr1 = j.hdr1 := rfl
@[simp] theorem Job.qPop_epoch (j : Job) (n : Nat) : (j.qPop n).epoch = j.epoch := rfl
@[simp] theorem Job.qPop_level (j : Job) (n : Nat) : (j.qPop n).level = j.level := rfl
@[simp] theorem Job.qPop_phase (j : Job) (n : Nat) : (j.qPop n).phase = j.phase := rfl
@[simp] theorem Job.qPop_pend (j : Job) (n : Nat) : (j.qPop n).pend = j.pend := rfl
@[simp] theorem Job.qPop_trapc (j : Job) (n : Nat) : (j.qPop n).trapc = j.trapc := rfl
@[simp] theorem Job.qPop_trapv (j : Job) (n : Nat) : (j.qPop n).trapv = j.trapv := rfl
@[simp] theorem Job.qPop_trappc (j : Job) (n : Nat) : (j.qPop n).trappc = j.trappc := rfl
@[simp] theorem Job.qPop_trapIn (j : Job) (n : Nat) : (j.qPop n).trapIn = j.trapIn := rfl
@[simp] theorem Job.qPop_snap (j : Job) (n : Nat) : (j.qPop n).snap = j.snap := rfl
@[simp] theorem Job.qPop_region (j : Job) (n : Nat) : (j.qPop n).region = j.region := rfl
@[simp] theorem Job.qPop_ctxAddr (j : Job) (n : Nat) : (j.qPop n).ctxAddr = j.ctxAddr := rfl
@[simp] theorem Job.qPop_preempt (j : Job) (n : Nat) : (j.qPop n).preempt = j.preempt := rfl
@[simp] theorem Job.qPop_dispatched (j : Job) (n : Nat) : (j.qPop n).dispatched = j.dispatched := rfl
@[simp] theorem Job.qPop_resident (j : Job) (n : Nat) : (j.qPop n).resident = j.resident := rfl
@[simp] theorem Job.qPop_watch (j : Job) (n : Nat) : (j.qPop n).watch = j.watch := rfl
@[simp] theorem Job.qPop_lastSave (j : Job) (n : Nat) : (j.qPop n).lastSave = j.lastSave := rfl
@[simp] theorem Job.qPop_lastRestore (j : Job) (n : Nat) : (j.qPop n).lastRestore = j.lastRestore := rfl
@[simp] theorem Job.qPop_saveStart (j : Job) (n : Nat) : (j.qPop n).saveStart = j.saveStart := rfl
@[simp] theorem Job.qPop_triggered (j : Job) (n : Nat) : (j.qPop n).triggered = j.triggered := rfl
@[simp] theorem Job.qPop_nmHandles (j : Job) (n : Nat) : (j.qPop n).nmHandles = j.nmHandles := rfl
@[simp] theorem Job.qPop_stallStart (j : Job) (n : Nat) : (j.qPop n).stallStart = j.stallStart := rfl
@[simp] theorem Job.qPop_bpSkip (j : Job) (n : Nat) : (j.qPop n).bpSkip = j.bpSkip := rfl
@[simp] theorem Job.qPop_clk (j : Job) (n : Nat) : (j.qPop n).clk = j.clk := rfl
@[simp] theorem Job.qPop_shown (j : Job) (n : Nat) : (j.qPop n).shown = j.shown := rfl
@[simp] theorem Job.qPop_posted (j : Job) (n : Nat) : (j.qPop n).posted = j.posted := rfl
@[simp] theorem Job.qPop_replay (j : Job) (n : Nat) : (j.qPop n).replay = j.replay := rfl
@[simp] theorem Job.qPop_home (j : Job) (n : Nat) : (j.qPop n).home = j.home := rfl
@[simp] theorem Job.qPop_lookup (j : Job) (n : Nat) : (j.qPop n).lookup = j.lookup := rfl
@[simp] theorem Job.qPop_core_S (j : Job) (n : Nat) : (j.qPop n).core.S = j.core.S := rfl
@[simp] theorem Job.qPop_core_L (j : Job) (n : Nat) : (j.qPop n).core.L = j.core.L := rfl
@[simp] theorem Job.qPop_core_X (j : Job) (n : Nat) : (j.qPop n).core.X = j.core.X := rfl
@[simp] theorem Job.qPop_core_T (j : Job) (n : Nat) : (j.qPop n).core.T = j.core.T := rfl
@[simp] theorem Job.qPop_core_spill (j : Job) (n : Nat) : (j.qPop n).core.spill = j.core.spill := rfl
@[simp] theorem Job.qPop_core_vs (j : Job) (n : Nat) : (j.qPop n).core.vs = j.core.vs := rfl
@[simp] theorem Job.qPop_core_ms (j : Job) (n : Nat) : (j.qPop n).core.ms = j.core.ms := rfl
@[simp] theorem Job.qPop_core_masks (j : Job) (n : Nat) : (j.qPop n).core.masks = j.core.masks := rfl
@[simp] theorem Job.qPop_core_thr (j : Job) (n : Nat) : (j.qPop n).core.thr = j.core.thr := rfl
@[simp] theorem Job.qPop_core_flags (j : Job) (n : Nat) : (j.qPop n).core.flags = j.core.flags := rfl
@[simp] theorem Job.qPop_core_elog (j : Job) (n : Nat) : (j.qPop n).core.elog = j.core.elog := rfl
@[simp] theorem Job.qPop_core_fmt (j : Job) (n : Nat) : (j.qPop n).core.fmt = j.core.fmt := rfl
@[simp] theorem Job.qPop_core_rlo (j : Job) (n : Nat) : (j.qPop n).core.rlo = j.core.rlo := rfl
@[simp] theorem Job.qPop_core_rhi (j : Job) (n : Nat) : (j.qPop n).core.rhi = j.core.rhi := rfl
@[simp] theorem Job.qPop_core_rstat (j : Job) (n : Nat) : (j.qPop n).core.rstat = j.core.rstat := rfl
@[simp] theorem Job.qPop_core_rpos (j : Job) (n : Nat) : (j.qPop n).core.rpos = j.core.rpos := rfl
@[simp] theorem Job.qPop_core_leaseb (j : Job) (n : Nat) : (j.qPop n).core.leaseb = j.core.leaseb := rfl
@[simp] theorem Job.qPop_core_lease (j : Job) (n : Nat) : (j.qPop n).core.lease = j.core.lease := rfl
@[simp] theorem Job.qPop_core_accs (j : Job) (n : Nat) : (j.qPop n).core.accs = j.core.accs := rfl
@[simp] theorem Job.qPop_core_slots (j : Job) (n : Nat) : (j.qPop n).core.slots = j.core.slots := rfl
@[simp] theorem Job.qPop_core_win (j : Job) (n : Nat) : (j.qPop n).core.win = j.core.win := rfl
@[simp] theorem Job.qPop_core_digest (j : Job) (n : Nat) : (j.qPop n).core.digest = j.core.digest := rfl
@[simp] theorem Job.qPop_core_wk (j : Job) (n : Nat) : (j.qPop n).core.wk = j.core.wk := rfl
@[simp] theorem Job.qPop_core_wacc (j : Job) (n : Nat) : (j.qPop n).core.wacc = j.core.wacc := rfl

/-! ### `Job.qDrop` -/

@[simp] theorem Job.qDrop_uid (j : Job) (n m : Nat) : (j.qDrop n m).uid = j.uid := rfl
@[simp] theorem Job.qDrop_launch (j : Job) (n m : Nat) : (j.qDrop n m).launch = j.launch := rfl
@[simp] theorem Job.qDrop_ticket (j : Job) (n m : Nat) : (j.qDrop n m).ticket = j.ticket := rfl
@[simp] theorem Job.qDrop_serial (j : Job) (n m : Nat) : (j.qDrop n m).serial = j.serial := rfl
@[simp] theorem Job.qDrop_fdom (j : Job) (n m : Nat) : (j.qDrop n m).fdom = j.fdom := rfl
@[simp] theorem Job.qDrop_hdr0 (j : Job) (n m : Nat) : (j.qDrop n m).hdr0 = j.hdr0 := rfl
@[simp] theorem Job.qDrop_hdr1 (j : Job) (n m : Nat) : (j.qDrop n m).hdr1 = j.hdr1 := rfl
@[simp] theorem Job.qDrop_epoch (j : Job) (n m : Nat) : (j.qDrop n m).epoch = j.epoch := rfl
@[simp] theorem Job.qDrop_level (j : Job) (n m : Nat) : (j.qDrop n m).level = j.level := rfl
@[simp] theorem Job.qDrop_phase (j : Job) (n m : Nat) : (j.qDrop n m).phase = j.phase := rfl
@[simp] theorem Job.qDrop_pend (j : Job) (n m : Nat) : (j.qDrop n m).pend = j.pend := rfl
@[simp] theorem Job.qDrop_trapc (j : Job) (n m : Nat) : (j.qDrop n m).trapc = j.trapc := rfl
@[simp] theorem Job.qDrop_trapv (j : Job) (n m : Nat) : (j.qDrop n m).trapv = j.trapv := rfl
@[simp] theorem Job.qDrop_trappc (j : Job) (n m : Nat) : (j.qDrop n m).trappc = j.trappc := rfl
@[simp] theorem Job.qDrop_trapIn (j : Job) (n m : Nat) : (j.qDrop n m).trapIn = j.trapIn := rfl
@[simp] theorem Job.qDrop_snap (j : Job) (n m : Nat) : (j.qDrop n m).snap = j.snap := rfl
@[simp] theorem Job.qDrop_region (j : Job) (n m : Nat) : (j.qDrop n m).region = j.region := rfl
@[simp] theorem Job.qDrop_ctxAddr (j : Job) (n m : Nat) : (j.qDrop n m).ctxAddr = j.ctxAddr := rfl
@[simp] theorem Job.qDrop_preempt (j : Job) (n m : Nat) : (j.qDrop n m).preempt = j.preempt := rfl
@[simp] theorem Job.qDrop_dispatched (j : Job) (n m : Nat) : (j.qDrop n m).dispatched = j.dispatched := rfl
@[simp] theorem Job.qDrop_resident (j : Job) (n m : Nat) : (j.qDrop n m).resident = j.resident := rfl
@[simp] theorem Job.qDrop_watch (j : Job) (n m : Nat) : (j.qDrop n m).watch = j.watch := rfl
@[simp] theorem Job.qDrop_lastSave (j : Job) (n m : Nat) : (j.qDrop n m).lastSave = j.lastSave := rfl
@[simp] theorem Job.qDrop_lastRestore (j : Job) (n m : Nat) : (j.qDrop n m).lastRestore = j.lastRestore := rfl
@[simp] theorem Job.qDrop_saveStart (j : Job) (n m : Nat) : (j.qDrop n m).saveStart = j.saveStart := rfl
@[simp] theorem Job.qDrop_triggered (j : Job) (n m : Nat) : (j.qDrop n m).triggered = j.triggered := rfl
@[simp] theorem Job.qDrop_nmHandles (j : Job) (n m : Nat) : (j.qDrop n m).nmHandles = j.nmHandles := rfl
@[simp] theorem Job.qDrop_stallStart (j : Job) (n m : Nat) : (j.qDrop n m).stallStart = j.stallStart := rfl
@[simp] theorem Job.qDrop_bpSkip (j : Job) (n m : Nat) : (j.qDrop n m).bpSkip = j.bpSkip := rfl
@[simp] theorem Job.qDrop_clk (j : Job) (n m : Nat) : (j.qDrop n m).clk = j.clk := rfl
@[simp] theorem Job.qDrop_shown (j : Job) (n m : Nat) : (j.qDrop n m).shown = j.shown := rfl
@[simp] theorem Job.qDrop_posted (j : Job) (n m : Nat) : (j.qDrop n m).posted = j.posted := rfl
@[simp] theorem Job.qDrop_replay (j : Job) (n m : Nat) : (j.qDrop n m).replay = j.replay := rfl
@[simp] theorem Job.qDrop_home (j : Job) (n m : Nat) : (j.qDrop n m).home = j.home := rfl
@[simp] theorem Job.qDrop_lookup (j : Job) (n m : Nat) : (j.qDrop n m).lookup = j.lookup := rfl
@[simp] theorem Job.qDrop_core_S (j : Job) (n m : Nat) : (j.qDrop n m).core.S = j.core.S := rfl
@[simp] theorem Job.qDrop_core_L (j : Job) (n m : Nat) : (j.qDrop n m).core.L = j.core.L := rfl
@[simp] theorem Job.qDrop_core_X (j : Job) (n m : Nat) : (j.qDrop n m).core.X = j.core.X := rfl
@[simp] theorem Job.qDrop_core_T (j : Job) (n m : Nat) : (j.qDrop n m).core.T = j.core.T := rfl
@[simp] theorem Job.qDrop_core_spill (j : Job) (n m : Nat) : (j.qDrop n m).core.spill = j.core.spill := rfl
@[simp] theorem Job.qDrop_core_vs (j : Job) (n m : Nat) : (j.qDrop n m).core.vs = j.core.vs := rfl
@[simp] theorem Job.qDrop_core_ms (j : Job) (n m : Nat) : (j.qDrop n m).core.ms = j.core.ms := rfl
@[simp] theorem Job.qDrop_core_masks (j : Job) (n m : Nat) : (j.qDrop n m).core.masks = j.core.masks := rfl
@[simp] theorem Job.qDrop_core_thr (j : Job) (n m : Nat) : (j.qDrop n m).core.thr = j.core.thr := rfl
@[simp] theorem Job.qDrop_core_flags (j : Job) (n m : Nat) : (j.qDrop n m).core.flags = j.core.flags := rfl
@[simp] theorem Job.qDrop_core_elog (j : Job) (n m : Nat) : (j.qDrop n m).core.elog = j.core.elog := rfl
@[simp] theorem Job.qDrop_core_fmt (j : Job) (n m : Nat) : (j.qDrop n m).core.fmt = j.core.fmt := rfl
@[simp] theorem Job.qDrop_core_rlo (j : Job) (n m : Nat) : (j.qDrop n m).core.rlo = j.core.rlo := rfl
@[simp] theorem Job.qDrop_core_rhi (j : Job) (n m : Nat) : (j.qDrop n m).core.rhi = j.core.rhi := rfl
@[simp] theorem Job.qDrop_core_rstat (j : Job) (n m : Nat) : (j.qDrop n m).core.rstat = j.core.rstat := rfl
@[simp] theorem Job.qDrop_core_rpos (j : Job) (n m : Nat) : (j.qDrop n m).core.rpos = j.core.rpos := rfl
@[simp] theorem Job.qDrop_core_leaseb (j : Job) (n m : Nat) : (j.qDrop n m).core.leaseb = j.core.leaseb := rfl
@[simp] theorem Job.qDrop_core_lease (j : Job) (n m : Nat) : (j.qDrop n m).core.lease = j.core.lease := rfl
@[simp] theorem Job.qDrop_core_accs (j : Job) (n m : Nat) : (j.qDrop n m).core.accs = j.core.accs := rfl
@[simp] theorem Job.qDrop_core_slots (j : Job) (n m : Nat) : (j.qDrop n m).core.slots = j.core.slots := rfl
@[simp] theorem Job.qDrop_core_win (j : Job) (n m : Nat) : (j.qDrop n m).core.win = j.core.win := rfl
@[simp] theorem Job.qDrop_core_digest (j : Job) (n m : Nat) : (j.qDrop n m).core.digest = j.core.digest := rfl
@[simp] theorem Job.qDrop_core_wk (j : Job) (n m : Nat) : (j.qDrop n m).core.wk = j.core.wk := rfl
@[simp] theorem Job.qDrop_core_wacc (j : Job) (n m : Nat) : (j.qDrop n m).core.wacc = j.core.wacc := rfl

/-! ### `Job.qRes` -/

@[simp] theorem Job.qRes_uid (j : Job) (n : Nat) (t : Bool) : (j.qRes n t).uid = j.uid := rfl
@[simp] theorem Job.qRes_launch (j : Job) (n : Nat) (t : Bool) : (j.qRes n t).launch = j.launch := rfl
@[simp] theorem Job.qRes_ticket (j : Job) (n : Nat) (t : Bool) : (j.qRes n t).ticket = j.ticket := rfl
@[simp] theorem Job.qRes_serial (j : Job) (n : Nat) (t : Bool) : (j.qRes n t).serial = j.serial := rfl
@[simp] theorem Job.qRes_fdom (j : Job) (n : Nat) (t : Bool) : (j.qRes n t).fdom = j.fdom := rfl
@[simp] theorem Job.qRes_hdr0 (j : Job) (n : Nat) (t : Bool) : (j.qRes n t).hdr0 = j.hdr0 := rfl
@[simp] theorem Job.qRes_hdr1 (j : Job) (n : Nat) (t : Bool) : (j.qRes n t).hdr1 = j.hdr1 := rfl
@[simp] theorem Job.qRes_epoch (j : Job) (n : Nat) (t : Bool) : (j.qRes n t).epoch = j.epoch := rfl
@[simp] theorem Job.qRes_level (j : Job) (n : Nat) (t : Bool) : (j.qRes n t).level = j.level := rfl
@[simp] theorem Job.qRes_phase (j : Job) (n : Nat) (t : Bool) : (j.qRes n t).phase = j.phase := rfl
@[simp] theorem Job.qRes_pend (j : Job) (n : Nat) (t : Bool) : (j.qRes n t).pend = j.pend := rfl
@[simp] theorem Job.qRes_trapc (j : Job) (n : Nat) (t : Bool) : (j.qRes n t).trapc = j.trapc := rfl
@[simp] theorem Job.qRes_trapv (j : Job) (n : Nat) (t : Bool) : (j.qRes n t).trapv = j.trapv := rfl
@[simp] theorem Job.qRes_trappc (j : Job) (n : Nat) (t : Bool) : (j.qRes n t).trappc = j.trappc := rfl
@[simp] theorem Job.qRes_trapIn (j : Job) (n : Nat) (t : Bool) : (j.qRes n t).trapIn = j.trapIn := rfl
@[simp] theorem Job.qRes_snap (j : Job) (n : Nat) (t : Bool) : (j.qRes n t).snap = j.snap := rfl
@[simp] theorem Job.qRes_region (j : Job) (n : Nat) (t : Bool) : (j.qRes n t).region = j.region := rfl
@[simp] theorem Job.qRes_ctxAddr (j : Job) (n : Nat) (t : Bool) : (j.qRes n t).ctxAddr = j.ctxAddr := rfl
@[simp] theorem Job.qRes_preempt (j : Job) (n : Nat) (t : Bool) : (j.qRes n t).preempt = j.preempt := rfl
@[simp] theorem Job.qRes_dispatched (j : Job) (n : Nat) (t : Bool) : (j.qRes n t).dispatched = j.dispatched := rfl
@[simp] theorem Job.qRes_resident (j : Job) (n : Nat) (t : Bool) : (j.qRes n t).resident = j.resident := rfl
@[simp] theorem Job.qRes_watch (j : Job) (n : Nat) (t : Bool) : (j.qRes n t).watch = j.watch := rfl
@[simp] theorem Job.qRes_lastSave (j : Job) (n : Nat) (t : Bool) : (j.qRes n t).lastSave = j.lastSave := rfl
@[simp] theorem Job.qRes_lastRestore (j : Job) (n : Nat) (t : Bool) : (j.qRes n t).lastRestore = j.lastRestore := rfl
@[simp] theorem Job.qRes_saveStart (j : Job) (n : Nat) (t : Bool) : (j.qRes n t).saveStart = j.saveStart := rfl
@[simp] theorem Job.qRes_triggered (j : Job) (n : Nat) (t : Bool) : (j.qRes n t).triggered = j.triggered := rfl
@[simp] theorem Job.qRes_nmHandles (j : Job) (n : Nat) (t : Bool) : (j.qRes n t).nmHandles = j.nmHandles := rfl
@[simp] theorem Job.qRes_stallStart (j : Job) (n : Nat) (t : Bool) : (j.qRes n t).stallStart = j.stallStart := rfl
@[simp] theorem Job.qRes_bpSkip (j : Job) (n : Nat) (t : Bool) : (j.qRes n t).bpSkip = j.bpSkip := rfl
@[simp] theorem Job.qRes_clk (j : Job) (n : Nat) (t : Bool) : (j.qRes n t).clk = j.clk := rfl
@[simp] theorem Job.qRes_shown (j : Job) (n : Nat) (t : Bool) : (j.qRes n t).shown = j.shown := rfl
@[simp] theorem Job.qRes_posted (j : Job) (n : Nat) (t : Bool) : (j.qRes n t).posted = j.posted := rfl
@[simp] theorem Job.qRes_replay (j : Job) (n : Nat) (t : Bool) : (j.qRes n t).replay = j.replay := rfl
@[simp] theorem Job.qRes_home (j : Job) (n : Nat) (t : Bool) : (j.qRes n t).home = j.home := rfl
@[simp] theorem Job.qRes_lookup (j : Job) (n : Nat) (t : Bool) : (j.qRes n t).lookup = j.lookup := rfl
@[simp] theorem Job.qRes_core_S (j : Job) (n : Nat) (t : Bool) : (j.qRes n t).core.S = j.core.S := rfl
@[simp] theorem Job.qRes_core_L (j : Job) (n : Nat) (t : Bool) : (j.qRes n t).core.L = j.core.L := rfl
@[simp] theorem Job.qRes_core_X (j : Job) (n : Nat) (t : Bool) : (j.qRes n t).core.X = j.core.X := rfl
@[simp] theorem Job.qRes_core_T (j : Job) (n : Nat) (t : Bool) : (j.qRes n t).core.T = j.core.T := rfl
@[simp] theorem Job.qRes_core_spill (j : Job) (n : Nat) (t : Bool) : (j.qRes n t).core.spill = j.core.spill := rfl
@[simp] theorem Job.qRes_core_vs (j : Job) (n : Nat) (t : Bool) : (j.qRes n t).core.vs = j.core.vs := rfl
@[simp] theorem Job.qRes_core_ms (j : Job) (n : Nat) (t : Bool) : (j.qRes n t).core.ms = j.core.ms := rfl
@[simp] theorem Job.qRes_core_masks (j : Job) (n : Nat) (t : Bool) : (j.qRes n t).core.masks = j.core.masks := rfl
@[simp] theorem Job.qRes_core_thr (j : Job) (n : Nat) (t : Bool) : (j.qRes n t).core.thr = j.core.thr := rfl
@[simp] theorem Job.qRes_core_flags (j : Job) (n : Nat) (t : Bool) : (j.qRes n t).core.flags = j.core.flags := rfl
@[simp] theorem Job.qRes_core_elog (j : Job) (n : Nat) (t : Bool) : (j.qRes n t).core.elog = j.core.elog := rfl
@[simp] theorem Job.qRes_core_fmt (j : Job) (n : Nat) (t : Bool) : (j.qRes n t).core.fmt = j.core.fmt := rfl
@[simp] theorem Job.qRes_core_rlo (j : Job) (n : Nat) (t : Bool) : (j.qRes n t).core.rlo = j.core.rlo := rfl
@[simp] theorem Job.qRes_core_rhi (j : Job) (n : Nat) (t : Bool) : (j.qRes n t).core.rhi = j.core.rhi := rfl
@[simp] theorem Job.qRes_core_rstat (j : Job) (n : Nat) (t : Bool) : (j.qRes n t).core.rstat = j.core.rstat := rfl
@[simp] theorem Job.qRes_core_rpos (j : Job) (n : Nat) (t : Bool) : (j.qRes n t).core.rpos = j.core.rpos := rfl
@[simp] theorem Job.qRes_core_leaseb (j : Job) (n : Nat) (t : Bool) : (j.qRes n t).core.leaseb = j.core.leaseb := rfl
@[simp] theorem Job.qRes_core_lease (j : Job) (n : Nat) (t : Bool) : (j.qRes n t).core.lease = j.core.lease := rfl
@[simp] theorem Job.qRes_core_accs (j : Job) (n : Nat) (t : Bool) : (j.qRes n t).core.accs = j.core.accs := rfl
@[simp] theorem Job.qRes_core_slots (j : Job) (n : Nat) (t : Bool) : (j.qRes n t).core.slots = j.core.slots := rfl
@[simp] theorem Job.qRes_core_win (j : Job) (n : Nat) (t : Bool) : (j.qRes n t).core.win = j.core.win := rfl
@[simp] theorem Job.qRes_core_digest (j : Job) (n : Nat) (t : Bool) : (j.qRes n t).core.digest = j.core.digest := rfl
@[simp] theorem Job.qRes_core_wk (j : Job) (n : Nat) (t : Bool) : (j.qRes n t).core.wk = j.core.wk := rfl
@[simp] theorem Job.qRes_core_wacc (j : Job) (n : Nat) (t : Bool) : (j.qRes n t).core.wacc = j.core.wacc := rfl

/-! ### `Job.setTok` -/

@[simp] theorem Job.setTok_uid (j : Job) (f n r : Nat) : (j.setTok f n r).uid = j.uid := rfl
@[simp] theorem Job.setTok_launch (j : Job) (f n r : Nat) : (j.setTok f n r).launch = j.launch := rfl
@[simp] theorem Job.setTok_ticket (j : Job) (f n r : Nat) : (j.setTok f n r).ticket = j.ticket := rfl
@[simp] theorem Job.setTok_serial (j : Job) (f n r : Nat) : (j.setTok f n r).serial = j.serial := rfl
@[simp] theorem Job.setTok_fdom (j : Job) (f n r : Nat) : (j.setTok f n r).fdom = j.fdom := rfl
@[simp] theorem Job.setTok_hdr0 (j : Job) (f n r : Nat) : (j.setTok f n r).hdr0 = j.hdr0 := rfl
@[simp] theorem Job.setTok_hdr1 (j : Job) (f n r : Nat) : (j.setTok f n r).hdr1 = j.hdr1 := rfl
@[simp] theorem Job.setTok_epoch (j : Job) (f n r : Nat) : (j.setTok f n r).epoch = j.epoch := rfl
@[simp] theorem Job.setTok_level (j : Job) (f n r : Nat) : (j.setTok f n r).level = j.level := rfl
@[simp] theorem Job.setTok_phase (j : Job) (f n r : Nat) : (j.setTok f n r).phase = j.phase := rfl
@[simp] theorem Job.setTok_pend (j : Job) (f n r : Nat) : (j.setTok f n r).pend = j.pend := rfl
@[simp] theorem Job.setTok_trapc (j : Job) (f n r : Nat) : (j.setTok f n r).trapc = j.trapc := rfl
@[simp] theorem Job.setTok_trapv (j : Job) (f n r : Nat) : (j.setTok f n r).trapv = j.trapv := rfl
@[simp] theorem Job.setTok_trappc (j : Job) (f n r : Nat) : (j.setTok f n r).trappc = j.trappc := rfl
@[simp] theorem Job.setTok_trapIn (j : Job) (f n r : Nat) : (j.setTok f n r).trapIn = j.trapIn := rfl
@[simp] theorem Job.setTok_snap (j : Job) (f n r : Nat) : (j.setTok f n r).snap = j.snap := rfl
@[simp] theorem Job.setTok_region (j : Job) (f n r : Nat) : (j.setTok f n r).region = j.region := rfl
@[simp] theorem Job.setTok_ctxAddr (j : Job) (f n r : Nat) : (j.setTok f n r).ctxAddr = j.ctxAddr := rfl
@[simp] theorem Job.setTok_preempt (j : Job) (f n r : Nat) : (j.setTok f n r).preempt = j.preempt := rfl
@[simp] theorem Job.setTok_dispatched (j : Job) (f n r : Nat) : (j.setTok f n r).dispatched = j.dispatched := rfl
@[simp] theorem Job.setTok_resident (j : Job) (f n r : Nat) : (j.setTok f n r).resident = j.resident := rfl
@[simp] theorem Job.setTok_watch (j : Job) (f n r : Nat) : (j.setTok f n r).watch = j.watch := rfl
@[simp] theorem Job.setTok_lastSave (j : Job) (f n r : Nat) : (j.setTok f n r).lastSave = j.lastSave := rfl
@[simp] theorem Job.setTok_lastRestore (j : Job) (f n r : Nat) : (j.setTok f n r).lastRestore = j.lastRestore := rfl
@[simp] theorem Job.setTok_saveStart (j : Job) (f n r : Nat) : (j.setTok f n r).saveStart = j.saveStart := rfl
@[simp] theorem Job.setTok_triggered (j : Job) (f n r : Nat) : (j.setTok f n r).triggered = j.triggered := rfl
@[simp] theorem Job.setTok_nmHandles (j : Job) (f n r : Nat) : (j.setTok f n r).nmHandles = j.nmHandles := rfl
@[simp] theorem Job.setTok_stallStart (j : Job) (f n r : Nat) : (j.setTok f n r).stallStart = j.stallStart := rfl
@[simp] theorem Job.setTok_bpSkip (j : Job) (f n r : Nat) : (j.setTok f n r).bpSkip = j.bpSkip := rfl
@[simp] theorem Job.setTok_clk (j : Job) (f n r : Nat) : (j.setTok f n r).clk = j.clk := rfl
@[simp] theorem Job.setTok_shown (j : Job) (f n r : Nat) : (j.setTok f n r).shown = j.shown := rfl
@[simp] theorem Job.setTok_posted (j : Job) (f n r : Nat) : (j.setTok f n r).posted = j.posted := rfl
@[simp] theorem Job.setTok_replay (j : Job) (f n r : Nat) : (j.setTok f n r).replay = j.replay := rfl
@[simp] theorem Job.setTok_home (j : Job) (f n r : Nat) : (j.setTok f n r).home = j.home := rfl
@[simp] theorem Job.setTok_lookup (j : Job) (f n r : Nat) : (j.setTok f n r).lookup = j.lookup := rfl
@[simp] theorem Job.setTok_core_S (j : Job) (f n r : Nat) : (j.setTok f n r).core.S = j.core.S := rfl
@[simp] theorem Job.setTok_core_L (j : Job) (f n r : Nat) : (j.setTok f n r).core.L = j.core.L := rfl
@[simp] theorem Job.setTok_core_X (j : Job) (f n r : Nat) : (j.setTok f n r).core.X = j.core.X := rfl
@[simp] theorem Job.setTok_core_T (j : Job) (f n r : Nat) : (j.setTok f n r).core.T = j.core.T := rfl
@[simp] theorem Job.setTok_core_spill (j : Job) (f n r : Nat) : (j.setTok f n r).core.spill = j.core.spill := rfl
@[simp] theorem Job.setTok_core_vs (j : Job) (f n r : Nat) : (j.setTok f n r).core.vs = j.core.vs := rfl
@[simp] theorem Job.setTok_core_ms (j : Job) (f n r : Nat) : (j.setTok f n r).core.ms = j.core.ms := rfl
@[simp] theorem Job.setTok_core_masks (j : Job) (f n r : Nat) : (j.setTok f n r).core.masks = j.core.masks := rfl
@[simp] theorem Job.setTok_core_thr (j : Job) (f n r : Nat) : (j.setTok f n r).core.thr = j.core.thr := rfl
@[simp] theorem Job.setTok_core_flags (j : Job) (f n r : Nat) : (j.setTok f n r).core.flags = j.core.flags := rfl
@[simp] theorem Job.setTok_core_elog (j : Job) (f n r : Nat) : (j.setTok f n r).core.elog = j.core.elog := rfl
@[simp] theorem Job.setTok_core_fmt (j : Job) (f n r : Nat) : (j.setTok f n r).core.fmt = j.core.fmt := rfl
@[simp] theorem Job.setTok_core_rlo (j : Job) (f n r : Nat) : (j.setTok f n r).core.rlo = j.core.rlo := rfl
@[simp] theorem Job.setTok_core_rhi (j : Job) (f n r : Nat) : (j.setTok f n r).core.rhi = j.core.rhi := rfl
@[simp] theorem Job.setTok_core_rstat (j : Job) (f n r : Nat) : (j.setTok f n r).core.rstat = j.core.rstat := rfl
@[simp] theorem Job.setTok_core_rpos (j : Job) (f n r : Nat) : (j.setTok f n r).core.rpos = j.core.rpos := rfl
@[simp] theorem Job.setTok_core_leaseb (j : Job) (f n r : Nat) : (j.setTok f n r).core.leaseb = j.core.leaseb := rfl
@[simp] theorem Job.setTok_core_lease (j : Job) (f n r : Nat) : (j.setTok f n r).core.lease = j.core.lease := rfl
@[simp] theorem Job.setTok_core_accs (j : Job) (f n r : Nat) : (j.setTok f n r).core.accs = j.core.accs := rfl
@[simp] theorem Job.setTok_core_slots (j : Job) (f n r : Nat) : (j.setTok f n r).core.slots = j.core.slots := rfl
@[simp] theorem Job.setTok_core_win (j : Job) (f n r : Nat) : (j.setTok f n r).core.win = j.core.win := rfl
@[simp] theorem Job.setTok_core_digest (j : Job) (f n r : Nat) : (j.setTok f n r).core.digest = j.core.digest := rfl
@[simp] theorem Job.setTok_core_wk (j : Job) (f n r : Nat) : (j.setTok f n r).core.wk = j.core.wk := rfl
@[simp] theorem Job.setTok_core_wacc (j : Job) (f n r : Nat) : (j.setTok f n r).core.wacc = j.core.wacc := rfl

/-! ### `Job.drainStatus` -/

@[simp] theorem Job.drainStatus_uid (j : Job) : (j.drainStatus).uid = j.uid := rfl
@[simp] theorem Job.drainStatus_launch (j : Job) : (j.drainStatus).launch = j.launch := rfl
@[simp] theorem Job.drainStatus_ticket (j : Job) : (j.drainStatus).ticket = j.ticket := rfl
@[simp] theorem Job.drainStatus_serial (j : Job) : (j.drainStatus).serial = j.serial := rfl
@[simp] theorem Job.drainStatus_fdom (j : Job) : (j.drainStatus).fdom = j.fdom := rfl
@[simp] theorem Job.drainStatus_hdr0 (j : Job) : (j.drainStatus).hdr0 = j.hdr0 := rfl
@[simp] theorem Job.drainStatus_hdr1 (j : Job) : (j.drainStatus).hdr1 = j.hdr1 := rfl
@[simp] theorem Job.drainStatus_epoch (j : Job) : (j.drainStatus).epoch = j.epoch := rfl
@[simp] theorem Job.drainStatus_level (j : Job) : (j.drainStatus).level = j.level := rfl
@[simp] theorem Job.drainStatus_phase (j : Job) : (j.drainStatus).phase = j.phase := rfl
@[simp] theorem Job.drainStatus_pend (j : Job) : (j.drainStatus).pend = j.pend := rfl
@[simp] theorem Job.drainStatus_trapc (j : Job) : (j.drainStatus).trapc = j.trapc := rfl
@[simp] theorem Job.drainStatus_trapv (j : Job) : (j.drainStatus).trapv = j.trapv := rfl
@[simp] theorem Job.drainStatus_trappc (j : Job) : (j.drainStatus).trappc = j.trappc := rfl
@[simp] theorem Job.drainStatus_trapIn (j : Job) : (j.drainStatus).trapIn = j.trapIn := rfl
@[simp] theorem Job.drainStatus_snap (j : Job) : (j.drainStatus).snap = j.snap := rfl
@[simp] theorem Job.drainStatus_region (j : Job) : (j.drainStatus).region = j.region := rfl
@[simp] theorem Job.drainStatus_ctxAddr (j : Job) : (j.drainStatus).ctxAddr = j.ctxAddr := rfl
@[simp] theorem Job.drainStatus_preempt (j : Job) : (j.drainStatus).preempt = j.preempt := rfl
@[simp] theorem Job.drainStatus_dispatched (j : Job) : (j.drainStatus).dispatched = j.dispatched := rfl
@[simp] theorem Job.drainStatus_resident (j : Job) : (j.drainStatus).resident = j.resident := rfl
@[simp] theorem Job.drainStatus_watch (j : Job) : (j.drainStatus).watch = j.watch := rfl
@[simp] theorem Job.drainStatus_lastSave (j : Job) : (j.drainStatus).lastSave = j.lastSave := rfl
@[simp] theorem Job.drainStatus_lastRestore (j : Job) : (j.drainStatus).lastRestore = j.lastRestore := rfl
@[simp] theorem Job.drainStatus_saveStart (j : Job) : (j.drainStatus).saveStart = j.saveStart := rfl
@[simp] theorem Job.drainStatus_triggered (j : Job) : (j.drainStatus).triggered = j.triggered := rfl
@[simp] theorem Job.drainStatus_nmHandles (j : Job) : (j.drainStatus).nmHandles = j.nmHandles := rfl
@[simp] theorem Job.drainStatus_stallStart (j : Job) : (j.drainStatus).stallStart = j.stallStart := rfl
@[simp] theorem Job.drainStatus_bpSkip (j : Job) : (j.drainStatus).bpSkip = j.bpSkip := rfl
@[simp] theorem Job.drainStatus_clk (j : Job) : (j.drainStatus).clk = j.clk := rfl
@[simp] theorem Job.drainStatus_shown (j : Job) : (j.drainStatus).shown = j.shown := rfl
@[simp] theorem Job.drainStatus_posted (j : Job) : (j.drainStatus).posted = j.posted := rfl
@[simp] theorem Job.drainStatus_replay (j : Job) : (j.drainStatus).replay = j.replay := rfl
@[simp] theorem Job.drainStatus_home (j : Job) : (j.drainStatus).home = j.home := rfl
@[simp] theorem Job.drainStatus_lookup (j : Job) : (j.drainStatus).lookup = j.lookup := rfl
@[simp] theorem Job.drainStatus_core_S (j : Job) : (j.drainStatus).core.S = j.core.S := rfl
@[simp] theorem Job.drainStatus_core_L (j : Job) : (j.drainStatus).core.L = j.core.L := rfl
@[simp] theorem Job.drainStatus_core_X (j : Job) : (j.drainStatus).core.X = j.core.X := rfl
@[simp] theorem Job.drainStatus_core_T (j : Job) : (j.drainStatus).core.T = j.core.T := rfl
@[simp] theorem Job.drainStatus_core_spill (j : Job) : (j.drainStatus).core.spill = j.core.spill := rfl
@[simp] theorem Job.drainStatus_core_vs (j : Job) : (j.drainStatus).core.vs = j.core.vs := rfl
@[simp] theorem Job.drainStatus_core_ms (j : Job) : (j.drainStatus).core.ms = j.core.ms := rfl
@[simp] theorem Job.drainStatus_core_masks (j : Job) : (j.drainStatus).core.masks = j.core.masks := rfl
@[simp] theorem Job.drainStatus_core_thr (j : Job) : (j.drainStatus).core.thr = j.core.thr := rfl
@[simp] theorem Job.drainStatus_core_flags (j : Job) : (j.drainStatus).core.flags = j.core.flags := rfl
@[simp] theorem Job.drainStatus_core_elog (j : Job) : (j.drainStatus).core.elog = j.core.elog := rfl
@[simp] theorem Job.drainStatus_core_fmt (j : Job) : (j.drainStatus).core.fmt = j.core.fmt := rfl
@[simp] theorem Job.drainStatus_core_rlo (j : Job) : (j.drainStatus).core.rlo = j.core.rlo := rfl
@[simp] theorem Job.drainStatus_core_rhi (j : Job) : (j.drainStatus).core.rhi = j.core.rhi := rfl
@[simp] theorem Job.drainStatus_core_rstat (j : Job) : (j.drainStatus).core.rstat = j.core.rstat := rfl
@[simp] theorem Job.drainStatus_core_rpos (j : Job) : (j.drainStatus).core.rpos = j.core.rpos := rfl
@[simp] theorem Job.drainStatus_core_leaseb (j : Job) : (j.drainStatus).core.leaseb = j.core.leaseb := rfl
@[simp] theorem Job.drainStatus_core_lease (j : Job) : (j.drainStatus).core.lease = j.core.lease := rfl
@[simp] theorem Job.drainStatus_core_accs (j : Job) : (j.drainStatus).core.accs = j.core.accs := rfl
@[simp] theorem Job.drainStatus_core_slots (j : Job) : (j.drainStatus).core.slots = j.core.slots := rfl
@[simp] theorem Job.drainStatus_core_win (j : Job) : (j.drainStatus).core.win = j.core.win := rfl
@[simp] theorem Job.drainStatus_core_digest (j : Job) : (j.drainStatus).core.digest = j.core.digest := rfl
@[simp] theorem Job.drainStatus_core_wk (j : Job) : (j.drainStatus).core.wk = j.core.wk := rfl
@[simp] theorem Job.drainStatus_core_wacc (j : Job) : (j.drainStatus).core.wacc = j.core.wacc := rfl

/-! ### `Job.statusFreed` -/

@[simp] theorem Job.statusFreed_uid (j : Job) : (j.statusFreed).uid = j.uid := by
  unfold Job.statusFreed; split <;> rfl
@[simp] theorem Job.statusFreed_launch (j : Job) : (j.statusFreed).launch = j.launch := by
  unfold Job.statusFreed; split <;> rfl
@[simp] theorem Job.statusFreed_ticket (j : Job) : (j.statusFreed).ticket = j.ticket := by
  unfold Job.statusFreed; split <;> rfl
@[simp] theorem Job.statusFreed_serial (j : Job) : (j.statusFreed).serial = j.serial := by
  unfold Job.statusFreed; split <;> rfl
@[simp] theorem Job.statusFreed_fdom (j : Job) : (j.statusFreed).fdom = j.fdom := by
  unfold Job.statusFreed; split <;> rfl
@[simp] theorem Job.statusFreed_hdr0 (j : Job) : (j.statusFreed).hdr0 = j.hdr0 := by
  unfold Job.statusFreed; split <;> rfl
@[simp] theorem Job.statusFreed_hdr1 (j : Job) : (j.statusFreed).hdr1 = j.hdr1 := by
  unfold Job.statusFreed; split <;> rfl
@[simp] theorem Job.statusFreed_epoch (j : Job) : (j.statusFreed).epoch = j.epoch := by
  unfold Job.statusFreed; split <;> rfl
@[simp] theorem Job.statusFreed_level (j : Job) : (j.statusFreed).level = j.level := by
  unfold Job.statusFreed; split <;> rfl
@[simp] theorem Job.statusFreed_phase (j : Job) : (j.statusFreed).phase = j.phase := by
  unfold Job.statusFreed; split <;> rfl
@[simp] theorem Job.statusFreed_pend (j : Job) : (j.statusFreed).pend = j.pend := by
  unfold Job.statusFreed; split <;> rfl
@[simp] theorem Job.statusFreed_trapc (j : Job) : (j.statusFreed).trapc = j.trapc := by
  unfold Job.statusFreed; split <;> rfl
@[simp] theorem Job.statusFreed_trapv (j : Job) : (j.statusFreed).trapv = j.trapv := by
  unfold Job.statusFreed; split <;> rfl
@[simp] theorem Job.statusFreed_trappc (j : Job) : (j.statusFreed).trappc = j.trappc := by
  unfold Job.statusFreed; split <;> rfl
@[simp] theorem Job.statusFreed_trapIn (j : Job) : (j.statusFreed).trapIn = j.trapIn := by
  unfold Job.statusFreed; split <;> rfl
@[simp] theorem Job.statusFreed_snap (j : Job) : (j.statusFreed).snap = j.snap := by
  unfold Job.statusFreed; split <;> rfl
@[simp] theorem Job.statusFreed_region (j : Job) : (j.statusFreed).region = j.region := by
  unfold Job.statusFreed; split <;> rfl
@[simp] theorem Job.statusFreed_ctxAddr (j : Job) : (j.statusFreed).ctxAddr = j.ctxAddr := by
  unfold Job.statusFreed; split <;> rfl
@[simp] theorem Job.statusFreed_preempt (j : Job) : (j.statusFreed).preempt = j.preempt := by
  unfold Job.statusFreed; split <;> rfl
@[simp] theorem Job.statusFreed_dispatched (j : Job) : (j.statusFreed).dispatched = j.dispatched := by
  unfold Job.statusFreed; split <;> rfl
@[simp] theorem Job.statusFreed_resident (j : Job) : (j.statusFreed).resident = j.resident := by
  unfold Job.statusFreed; split <;> rfl
@[simp] theorem Job.statusFreed_watch (j : Job) : (j.statusFreed).watch = j.watch := by
  unfold Job.statusFreed; split <;> rfl
@[simp] theorem Job.statusFreed_lastSave (j : Job) : (j.statusFreed).lastSave = j.lastSave := by
  unfold Job.statusFreed; split <;> rfl
@[simp] theorem Job.statusFreed_lastRestore (j : Job) : (j.statusFreed).lastRestore = j.lastRestore := by
  unfold Job.statusFreed; split <;> rfl
@[simp] theorem Job.statusFreed_saveStart (j : Job) : (j.statusFreed).saveStart = j.saveStart := by
  unfold Job.statusFreed; split <;> rfl
@[simp] theorem Job.statusFreed_triggered (j : Job) : (j.statusFreed).triggered = j.triggered := by
  unfold Job.statusFreed; split <;> rfl
@[simp] theorem Job.statusFreed_nmHandles (j : Job) : (j.statusFreed).nmHandles = j.nmHandles := by
  unfold Job.statusFreed; split <;> rfl
@[simp] theorem Job.statusFreed_stallStart (j : Job) : (j.statusFreed).stallStart = j.stallStart := by
  unfold Job.statusFreed; split <;> rfl
@[simp] theorem Job.statusFreed_bpSkip (j : Job) : (j.statusFreed).bpSkip = j.bpSkip := by
  unfold Job.statusFreed; split <;> rfl
@[simp] theorem Job.statusFreed_clk (j : Job) : (j.statusFreed).clk = j.clk := by
  unfold Job.statusFreed; split <;> rfl
@[simp] theorem Job.statusFreed_shown (j : Job) : (j.statusFreed).shown = j.shown := by
  unfold Job.statusFreed; split <;> rfl
@[simp] theorem Job.statusFreed_posted (j : Job) : (j.statusFreed).posted = j.posted := by
  unfold Job.statusFreed; split <;> rfl
@[simp] theorem Job.statusFreed_replay (j : Job) : (j.statusFreed).replay = j.replay := by
  unfold Job.statusFreed; split <;> rfl
@[simp] theorem Job.statusFreed_home (j : Job) : (j.statusFreed).home = j.home := by
  unfold Job.statusFreed; split <;> rfl
@[simp] theorem Job.statusFreed_lookup (j : Job) : (j.statusFreed).lookup = j.lookup := by
  unfold Job.statusFreed; split <;> rfl
@[simp] theorem Job.statusFreed_core_S (j : Job) : (j.statusFreed).core.S = j.core.S := by
  unfold Job.statusFreed; split <;> rfl
@[simp] theorem Job.statusFreed_core_L (j : Job) : (j.statusFreed).core.L = j.core.L := by
  unfold Job.statusFreed; split <;> rfl
@[simp] theorem Job.statusFreed_core_X (j : Job) : (j.statusFreed).core.X = j.core.X := by
  unfold Job.statusFreed; split <;> rfl
@[simp] theorem Job.statusFreed_core_T (j : Job) : (j.statusFreed).core.T = j.core.T := by
  unfold Job.statusFreed; split <;> rfl
@[simp] theorem Job.statusFreed_core_spill (j : Job) : (j.statusFreed).core.spill = j.core.spill := by
  unfold Job.statusFreed; split <;> rfl
@[simp] theorem Job.statusFreed_core_vs (j : Job) : (j.statusFreed).core.vs = j.core.vs := by
  unfold Job.statusFreed; split <;> rfl
@[simp] theorem Job.statusFreed_core_ms (j : Job) : (j.statusFreed).core.ms = j.core.ms := by
  unfold Job.statusFreed; split <;> rfl
@[simp] theorem Job.statusFreed_core_masks (j : Job) : (j.statusFreed).core.masks = j.core.masks := by
  unfold Job.statusFreed; split <;> rfl
@[simp] theorem Job.statusFreed_core_thr (j : Job) : (j.statusFreed).core.thr = j.core.thr := by
  unfold Job.statusFreed; split <;> rfl
@[simp] theorem Job.statusFreed_core_flags (j : Job) : (j.statusFreed).core.flags = j.core.flags := by
  unfold Job.statusFreed; split <;> rfl
@[simp] theorem Job.statusFreed_core_elog (j : Job) : (j.statusFreed).core.elog = j.core.elog := by
  unfold Job.statusFreed; split <;> rfl
@[simp] theorem Job.statusFreed_core_fmt (j : Job) : (j.statusFreed).core.fmt = j.core.fmt := by
  unfold Job.statusFreed; split <;> rfl
@[simp] theorem Job.statusFreed_core_rlo (j : Job) : (j.statusFreed).core.rlo = j.core.rlo := by
  unfold Job.statusFreed; split <;> rfl
@[simp] theorem Job.statusFreed_core_rhi (j : Job) : (j.statusFreed).core.rhi = j.core.rhi := by
  unfold Job.statusFreed; split <;> rfl
@[simp] theorem Job.statusFreed_core_rstat (j : Job) : (j.statusFreed).core.rstat = j.core.rstat := by
  unfold Job.statusFreed; split <;> rfl
@[simp] theorem Job.statusFreed_core_rpos (j : Job) : (j.statusFreed).core.rpos = j.core.rpos := by
  unfold Job.statusFreed; split <;> rfl
@[simp] theorem Job.statusFreed_core_leaseb (j : Job) : (j.statusFreed).core.leaseb = j.core.leaseb := by
  unfold Job.statusFreed; split <;> rfl
@[simp] theorem Job.statusFreed_core_lease (j : Job) : (j.statusFreed).core.lease = j.core.lease := by
  unfold Job.statusFreed; split <;> rfl
@[simp] theorem Job.statusFreed_core_accs (j : Job) : (j.statusFreed).core.accs = j.core.accs := by
  unfold Job.statusFreed; split <;> rfl
@[simp] theorem Job.statusFreed_core_slots (j : Job) : (j.statusFreed).core.slots = j.core.slots := by
  unfold Job.statusFreed; split <;> rfl
@[simp] theorem Job.statusFreed_core_win (j : Job) : (j.statusFreed).core.win = j.core.win := by
  unfold Job.statusFreed; split <;> rfl
@[simp] theorem Job.statusFreed_core_digest (j : Job) : (j.statusFreed).core.digest = j.core.digest := by
  unfold Job.statusFreed; split <;> rfl
@[simp] theorem Job.statusFreed_core_wk (j : Job) : (j.statusFreed).core.wk = j.core.wk := by
  unfold Job.statusFreed; split <;> rfl
@[simp] theorem Job.statusFreed_core_wacc (j : Job) : (j.statusFreed).core.wacc = j.core.wacc := by
  unfold Job.statusFreed; split <;> rfl

/-! ### `Job.statusNm` -/

@[simp] theorem Job.statusNm_uid (j : Job) (v : Word) : (j.statusNm v).uid = j.uid := by
  unfold Job.statusNm Job.statusMap; split <;> rfl
@[simp] theorem Job.statusNm_launch (j : Job) (v : Word) : (j.statusNm v).launch = j.launch := by
  unfold Job.statusNm Job.statusMap; split <;> rfl
@[simp] theorem Job.statusNm_ticket (j : Job) (v : Word) : (j.statusNm v).ticket = j.ticket := by
  unfold Job.statusNm Job.statusMap; split <;> rfl
@[simp] theorem Job.statusNm_serial (j : Job) (v : Word) : (j.statusNm v).serial = j.serial := by
  unfold Job.statusNm Job.statusMap; split <;> rfl
@[simp] theorem Job.statusNm_fdom (j : Job) (v : Word) : (j.statusNm v).fdom = j.fdom := by
  unfold Job.statusNm Job.statusMap; split <;> rfl
@[simp] theorem Job.statusNm_hdr0 (j : Job) (v : Word) : (j.statusNm v).hdr0 = j.hdr0 := by
  unfold Job.statusNm Job.statusMap; split <;> rfl
@[simp] theorem Job.statusNm_hdr1 (j : Job) (v : Word) : (j.statusNm v).hdr1 = j.hdr1 := by
  unfold Job.statusNm Job.statusMap; split <;> rfl
@[simp] theorem Job.statusNm_epoch (j : Job) (v : Word) : (j.statusNm v).epoch = j.epoch := by
  unfold Job.statusNm Job.statusMap; split <;> rfl
@[simp] theorem Job.statusNm_level (j : Job) (v : Word) : (j.statusNm v).level = j.level := by
  unfold Job.statusNm Job.statusMap; split <;> rfl
@[simp] theorem Job.statusNm_phase (j : Job) (v : Word) : (j.statusNm v).phase = j.phase := by
  unfold Job.statusNm Job.statusMap; split <;> rfl
@[simp] theorem Job.statusNm_pend (j : Job) (v : Word) : (j.statusNm v).pend = j.pend := by
  unfold Job.statusNm Job.statusMap; split <;> rfl
@[simp] theorem Job.statusNm_trapc (j : Job) (v : Word) : (j.statusNm v).trapc = j.trapc := by
  unfold Job.statusNm Job.statusMap; split <;> rfl
@[simp] theorem Job.statusNm_trapv (j : Job) (v : Word) : (j.statusNm v).trapv = j.trapv := by
  unfold Job.statusNm Job.statusMap; split <;> rfl
@[simp] theorem Job.statusNm_trappc (j : Job) (v : Word) : (j.statusNm v).trappc = j.trappc := by
  unfold Job.statusNm Job.statusMap; split <;> rfl
@[simp] theorem Job.statusNm_trapIn (j : Job) (v : Word) : (j.statusNm v).trapIn = j.trapIn := by
  unfold Job.statusNm Job.statusMap; split <;> rfl
@[simp] theorem Job.statusNm_region (j : Job) (v : Word) : (j.statusNm v).region = j.region := by
  unfold Job.statusNm Job.statusMap; split <;> rfl
@[simp] theorem Job.statusNm_ctxAddr (j : Job) (v : Word) : (j.statusNm v).ctxAddr = j.ctxAddr := by
  unfold Job.statusNm Job.statusMap; split <;> rfl
@[simp] theorem Job.statusNm_preempt (j : Job) (v : Word) : (j.statusNm v).preempt = j.preempt := by
  unfold Job.statusNm Job.statusMap; split <;> rfl
@[simp] theorem Job.statusNm_dispatched (j : Job) (v : Word) : (j.statusNm v).dispatched = j.dispatched := by
  unfold Job.statusNm Job.statusMap; split <;> rfl
@[simp] theorem Job.statusNm_resident (j : Job) (v : Word) : (j.statusNm v).resident = j.resident := by
  unfold Job.statusNm Job.statusMap; split <;> rfl
@[simp] theorem Job.statusNm_watch (j : Job) (v : Word) : (j.statusNm v).watch = j.watch := by
  unfold Job.statusNm Job.statusMap; split <;> rfl
@[simp] theorem Job.statusNm_lastSave (j : Job) (v : Word) : (j.statusNm v).lastSave = j.lastSave := by
  unfold Job.statusNm Job.statusMap; split <;> rfl
@[simp] theorem Job.statusNm_lastRestore (j : Job) (v : Word) : (j.statusNm v).lastRestore = j.lastRestore := by
  unfold Job.statusNm Job.statusMap; split <;> rfl
@[simp] theorem Job.statusNm_saveStart (j : Job) (v : Word) : (j.statusNm v).saveStart = j.saveStart := by
  unfold Job.statusNm Job.statusMap; split <;> rfl
@[simp] theorem Job.statusNm_triggered (j : Job) (v : Word) : (j.statusNm v).triggered = j.triggered := by
  unfold Job.statusNm Job.statusMap; split <;> rfl
@[simp] theorem Job.statusNm_nmHandles (j : Job) (v : Word) : (j.statusNm v).nmHandles = j.nmHandles := by
  unfold Job.statusNm Job.statusMap; split <;> rfl
@[simp] theorem Job.statusNm_stallStart (j : Job) (v : Word) : (j.statusNm v).stallStart = j.stallStart := by
  unfold Job.statusNm Job.statusMap; split <;> rfl
@[simp] theorem Job.statusNm_bpSkip (j : Job) (v : Word) : (j.statusNm v).bpSkip = j.bpSkip := by
  unfold Job.statusNm Job.statusMap; split <;> rfl
@[simp] theorem Job.statusNm_clk (j : Job) (v : Word) : (j.statusNm v).clk = j.clk := by
  unfold Job.statusNm Job.statusMap; split <;> rfl
@[simp] theorem Job.statusNm_shown (j : Job) (v : Word) : (j.statusNm v).shown = j.shown := by
  unfold Job.statusNm Job.statusMap; split <;> rfl
@[simp] theorem Job.statusNm_posted (j : Job) (v : Word) : (j.statusNm v).posted = j.posted := by
  unfold Job.statusNm Job.statusMap; split <;> rfl
@[simp] theorem Job.statusNm_replay (j : Job) (v : Word) : (j.statusNm v).replay = j.replay := by
  unfold Job.statusNm Job.statusMap; split <;> rfl
@[simp] theorem Job.statusNm_home (j : Job) (v : Word) : (j.statusNm v).home = j.home := by
  unfold Job.statusNm Job.statusMap; split <;> rfl
@[simp] theorem Job.statusNm_lookup (j : Job) (v : Word) : (j.statusNm v).lookup = j.lookup := by
  unfold Job.statusNm Job.statusMap; split <;> rfl
@[simp] theorem Job.statusNm_core_S (j : Job) (v : Word) : (j.statusNm v).core.S = j.core.S := by
  unfold Job.statusNm Job.statusMap; split <;> rfl
@[simp] theorem Job.statusNm_core_L (j : Job) (v : Word) : (j.statusNm v).core.L = j.core.L := by
  unfold Job.statusNm Job.statusMap; split <;> rfl
@[simp] theorem Job.statusNm_core_X (j : Job) (v : Word) : (j.statusNm v).core.X = j.core.X := by
  unfold Job.statusNm Job.statusMap; split <;> rfl
@[simp] theorem Job.statusNm_core_T (j : Job) (v : Word) : (j.statusNm v).core.T = j.core.T := by
  unfold Job.statusNm Job.statusMap; split <;> rfl
@[simp] theorem Job.statusNm_core_spill (j : Job) (v : Word) : (j.statusNm v).core.spill = j.core.spill := by
  unfold Job.statusNm Job.statusMap; split <;> rfl
@[simp] theorem Job.statusNm_core_vs (j : Job) (v : Word) : (j.statusNm v).core.vs = j.core.vs := by
  unfold Job.statusNm Job.statusMap; split <;> rfl
@[simp] theorem Job.statusNm_core_ms (j : Job) (v : Word) : (j.statusNm v).core.ms = j.core.ms := by
  unfold Job.statusNm Job.statusMap; split <;> rfl
@[simp] theorem Job.statusNm_core_masks (j : Job) (v : Word) : (j.statusNm v).core.masks = j.core.masks := by
  unfold Job.statusNm Job.statusMap; split <;> rfl
@[simp] theorem Job.statusNm_core_thr (j : Job) (v : Word) : (j.statusNm v).core.thr = j.core.thr := by
  unfold Job.statusNm Job.statusMap; split <;> rfl
@[simp] theorem Job.statusNm_core_flags (j : Job) (v : Word) : (j.statusNm v).core.flags = j.core.flags := by
  unfold Job.statusNm Job.statusMap; split <;> rfl
@[simp] theorem Job.statusNm_core_elog (j : Job) (v : Word) : (j.statusNm v).core.elog = j.core.elog := by
  unfold Job.statusNm Job.statusMap; split <;> rfl
@[simp] theorem Job.statusNm_core_fmt (j : Job) (v : Word) : (j.statusNm v).core.fmt = j.core.fmt := by
  unfold Job.statusNm Job.statusMap; split <;> rfl
@[simp] theorem Job.statusNm_core_rlo (j : Job) (v : Word) : (j.statusNm v).core.rlo = j.core.rlo := by
  unfold Job.statusNm Job.statusMap; split <;> rfl
@[simp] theorem Job.statusNm_core_rhi (j : Job) (v : Word) : (j.statusNm v).core.rhi = j.core.rhi := by
  unfold Job.statusNm Job.statusMap; split <;> rfl
@[simp] theorem Job.statusNm_core_rstat (j : Job) (v : Word) : (j.statusNm v).core.rstat = j.core.rstat := by
  unfold Job.statusNm Job.statusMap; split <;> rfl
@[simp] theorem Job.statusNm_core_rpos (j : Job) (v : Word) : (j.statusNm v).core.rpos = j.core.rpos := by
  unfold Job.statusNm Job.statusMap; split <;> rfl
@[simp] theorem Job.statusNm_core_leaseb (j : Job) (v : Word) : (j.statusNm v).core.leaseb = j.core.leaseb := by
  unfold Job.statusNm Job.statusMap; split <;> rfl
@[simp] theorem Job.statusNm_core_lease (j : Job) (v : Word) : (j.statusNm v).core.lease = j.core.lease := by
  unfold Job.statusNm Job.statusMap; split <;> rfl
@[simp] theorem Job.statusNm_core_accs (j : Job) (v : Word) : (j.statusNm v).core.accs = j.core.accs := by
  unfold Job.statusNm Job.statusMap; split <;> rfl
@[simp] theorem Job.statusNm_core_slots (j : Job) (v : Word) : (j.statusNm v).core.slots = j.core.slots := by
  unfold Job.statusNm Job.statusMap; split <;> rfl
@[simp] theorem Job.statusNm_core_win (j : Job) (v : Word) : (j.statusNm v).core.win = j.core.win := by
  unfold Job.statusNm Job.statusMap; split <;> rfl
@[simp] theorem Job.statusNm_core_digest (j : Job) (v : Word) : (j.statusNm v).core.digest = j.core.digest := by
  unfold Job.statusNm Job.statusMap; split <;> rfl
@[simp] theorem Job.statusNm_core_wk (j : Job) (v : Word) : (j.statusNm v).core.wk = j.core.wk := by
  unfold Job.statusNm Job.statusMap; split <;> rfl
@[simp] theorem Job.statusNm_core_wacc (j : Job) (v : Word) : (j.statusNm v).core.wacc = j.core.wacc := by
  unfold Job.statusNm Job.statusMap; split <;> rfl

/-! ### `Job.learnWin` -/

@[simp] theorem Job.learnWin_uid (j : Job) (e : EStream) (v : VC) : (j.learnWin e v).uid = j.uid := rfl
@[simp] theorem Job.learnWin_launch (j : Job) (e : EStream) (v : VC) : (j.learnWin e v).launch = j.launch := rfl
@[simp] theorem Job.learnWin_ticket (j : Job) (e : EStream) (v : VC) : (j.learnWin e v).ticket = j.ticket := rfl
@[simp] theorem Job.learnWin_serial (j : Job) (e : EStream) (v : VC) : (j.learnWin e v).serial = j.serial := rfl
@[simp] theorem Job.learnWin_fdom (j : Job) (e : EStream) (v : VC) : (j.learnWin e v).fdom = j.fdom := rfl
@[simp] theorem Job.learnWin_hdr0 (j : Job) (e : EStream) (v : VC) : (j.learnWin e v).hdr0 = j.hdr0 := rfl
@[simp] theorem Job.learnWin_hdr1 (j : Job) (e : EStream) (v : VC) : (j.learnWin e v).hdr1 = j.hdr1 := rfl
@[simp] theorem Job.learnWin_epoch (j : Job) (e : EStream) (v : VC) : (j.learnWin e v).epoch = j.epoch := rfl
@[simp] theorem Job.learnWin_level (j : Job) (e : EStream) (v : VC) : (j.learnWin e v).level = j.level := rfl
@[simp] theorem Job.learnWin_phase (j : Job) (e : EStream) (v : VC) : (j.learnWin e v).phase = j.phase := rfl
@[simp] theorem Job.learnWin_pend (j : Job) (e : EStream) (v : VC) : (j.learnWin e v).pend = j.pend := rfl
@[simp] theorem Job.learnWin_trapc (j : Job) (e : EStream) (v : VC) : (j.learnWin e v).trapc = j.trapc := rfl
@[simp] theorem Job.learnWin_trapv (j : Job) (e : EStream) (v : VC) : (j.learnWin e v).trapv = j.trapv := rfl
@[simp] theorem Job.learnWin_trappc (j : Job) (e : EStream) (v : VC) : (j.learnWin e v).trappc = j.trappc := rfl
@[simp] theorem Job.learnWin_trapIn (j : Job) (e : EStream) (v : VC) : (j.learnWin e v).trapIn = j.trapIn := rfl
@[simp] theorem Job.learnWin_snap (j : Job) (e : EStream) (v : VC) : (j.learnWin e v).snap = j.snap := rfl
@[simp] theorem Job.learnWin_region (j : Job) (e : EStream) (v : VC) : (j.learnWin e v).region = j.region := rfl
@[simp] theorem Job.learnWin_ctxAddr (j : Job) (e : EStream) (v : VC) : (j.learnWin e v).ctxAddr = j.ctxAddr := rfl
@[simp] theorem Job.learnWin_preempt (j : Job) (e : EStream) (v : VC) : (j.learnWin e v).preempt = j.preempt := rfl
@[simp] theorem Job.learnWin_dispatched (j : Job) (e : EStream) (v : VC) : (j.learnWin e v).dispatched = j.dispatched := rfl
@[simp] theorem Job.learnWin_resident (j : Job) (e : EStream) (v : VC) : (j.learnWin e v).resident = j.resident := rfl
@[simp] theorem Job.learnWin_watch (j : Job) (e : EStream) (v : VC) : (j.learnWin e v).watch = j.watch := rfl
@[simp] theorem Job.learnWin_lastSave (j : Job) (e : EStream) (v : VC) : (j.learnWin e v).lastSave = j.lastSave := rfl
@[simp] theorem Job.learnWin_lastRestore (j : Job) (e : EStream) (v : VC) : (j.learnWin e v).lastRestore = j.lastRestore := rfl
@[simp] theorem Job.learnWin_saveStart (j : Job) (e : EStream) (v : VC) : (j.learnWin e v).saveStart = j.saveStart := rfl
@[simp] theorem Job.learnWin_triggered (j : Job) (e : EStream) (v : VC) : (j.learnWin e v).triggered = j.triggered := rfl
@[simp] theorem Job.learnWin_nmHandles (j : Job) (e : EStream) (v : VC) : (j.learnWin e v).nmHandles = j.nmHandles := rfl
@[simp] theorem Job.learnWin_stallStart (j : Job) (e : EStream) (v : VC) : (j.learnWin e v).stallStart = j.stallStart := rfl
@[simp] theorem Job.learnWin_bpSkip (j : Job) (e : EStream) (v : VC) : (j.learnWin e v).bpSkip = j.bpSkip := rfl
@[simp] theorem Job.learnWin_clk (j : Job) (e : EStream) (v : VC) : (j.learnWin e v).clk = j.clk := rfl
@[simp] theorem Job.learnWin_shown (j : Job) (e : EStream) (v : VC) : (j.learnWin e v).shown = j.shown := rfl
@[simp] theorem Job.learnWin_posted (j : Job) (e : EStream) (v : VC) : (j.learnWin e v).posted = j.posted := rfl
@[simp] theorem Job.learnWin_replay (j : Job) (e : EStream) (v : VC) : (j.learnWin e v).replay = j.replay := rfl
@[simp] theorem Job.learnWin_home (j : Job) (e : EStream) (v : VC) : (j.learnWin e v).home = j.home := rfl
@[simp] theorem Job.learnWin_lookup (j : Job) (e : EStream) (v : VC) : (j.learnWin e v).lookup = j.lookup := rfl
@[simp] theorem Job.learnWin_core_S (j : Job) (e : EStream) (v : VC) : (j.learnWin e v).core.S = j.core.S := rfl
@[simp] theorem Job.learnWin_core_L (j : Job) (e : EStream) (v : VC) : (j.learnWin e v).core.L = j.core.L := rfl
@[simp] theorem Job.learnWin_core_X (j : Job) (e : EStream) (v : VC) : (j.learnWin e v).core.X = j.core.X := rfl
@[simp] theorem Job.learnWin_core_T (j : Job) (e : EStream) (v : VC) : (j.learnWin e v).core.T = j.core.T := rfl
@[simp] theorem Job.learnWin_core_Q (j : Job) (e : EStream) (v : VC) : (j.learnWin e v).core.Q = j.core.Q := rfl
@[simp] theorem Job.learnWin_core_spill (j : Job) (e : EStream) (v : VC) : (j.learnWin e v).core.spill = j.core.spill := rfl
@[simp] theorem Job.learnWin_core_vs (j : Job) (e : EStream) (v : VC) : (j.learnWin e v).core.vs = j.core.vs := rfl
@[simp] theorem Job.learnWin_core_ms (j : Job) (e : EStream) (v : VC) : (j.learnWin e v).core.ms = j.core.ms := rfl
@[simp] theorem Job.learnWin_core_masks (j : Job) (e : EStream) (v : VC) : (j.learnWin e v).core.masks = j.core.masks := rfl
@[simp] theorem Job.learnWin_core_thr (j : Job) (e : EStream) (v : VC) : (j.learnWin e v).core.thr = j.core.thr := rfl
@[simp] theorem Job.learnWin_core_flags (j : Job) (e : EStream) (v : VC) : (j.learnWin e v).core.flags = j.core.flags := rfl
@[simp] theorem Job.learnWin_core_elog (j : Job) (e : EStream) (v : VC) : (j.learnWin e v).core.elog = j.core.elog := rfl
@[simp] theorem Job.learnWin_core_fmt (j : Job) (e : EStream) (v : VC) : (j.learnWin e v).core.fmt = j.core.fmt := rfl
@[simp] theorem Job.learnWin_core_rlo (j : Job) (e : EStream) (v : VC) : (j.learnWin e v).core.rlo = j.core.rlo := rfl
@[simp] theorem Job.learnWin_core_rhi (j : Job) (e : EStream) (v : VC) : (j.learnWin e v).core.rhi = j.core.rhi := rfl
@[simp] theorem Job.learnWin_core_rstat (j : Job) (e : EStream) (v : VC) : (j.learnWin e v).core.rstat = j.core.rstat := rfl
@[simp] theorem Job.learnWin_core_rpos (j : Job) (e : EStream) (v : VC) : (j.learnWin e v).core.rpos = j.core.rpos := rfl
@[simp] theorem Job.learnWin_core_leaseb (j : Job) (e : EStream) (v : VC) : (j.learnWin e v).core.leaseb = j.core.leaseb := rfl
@[simp] theorem Job.learnWin_core_lease (j : Job) (e : EStream) (v : VC) : (j.learnWin e v).core.lease = j.core.lease := rfl
@[simp] theorem Job.learnWin_core_accs (j : Job) (e : EStream) (v : VC) : (j.learnWin e v).core.accs = j.core.accs := rfl
@[simp] theorem Job.learnWin_core_slots (j : Job) (e : EStream) (v : VC) : (j.learnWin e v).core.slots = j.core.slots := rfl
@[simp] theorem Job.learnWin_core_win (j : Job) (e : EStream) (v : VC) : (j.learnWin e v).core.win = j.core.win := rfl
@[simp] theorem Job.learnWin_core_digest (j : Job) (e : EStream) (v : VC) : (j.learnWin e v).core.digest = j.core.digest := rfl
@[simp] theorem Job.learnWin_core_wacc (j : Job) (e : EStream) (v : VC) : (j.learnWin e v).core.wacc = j.core.wacc := rfl

/-! ### `Job.setEng` -/

@[simp] theorem Job.eng_setEng (j : Job) (e : EStream) (v : Eng) : (j.setEng e v).eng e = v := by cases e <;> rfl
theorem Job.eng_setEng_ne (j : Job) {e e' : EStream} (v : Eng) (h : e' ≠ e) : (j.setEng e v).eng e' = j.eng e' := by
  cases e <;> cases e' <;> first | rfl | exact absurd rfl h
@[simp] theorem Job.setEng_uid (j : Job) (e : EStream) (v : Eng) : (j.setEng e v).uid = j.uid := by cases e <;> rfl
@[simp] theorem Job.setEng_launch (j : Job) (e : EStream) (v : Eng) : (j.setEng e v).launch = j.launch := by cases e <;> rfl
@[simp] theorem Job.setEng_ticket (j : Job) (e : EStream) (v : Eng) : (j.setEng e v).ticket = j.ticket := by cases e <;> rfl
@[simp] theorem Job.setEng_serial (j : Job) (e : EStream) (v : Eng) : (j.setEng e v).serial = j.serial := by cases e <;> rfl
@[simp] theorem Job.setEng_fdom (j : Job) (e : EStream) (v : Eng) : (j.setEng e v).fdom = j.fdom := by cases e <;> rfl
@[simp] theorem Job.setEng_hdr0 (j : Job) (e : EStream) (v : Eng) : (j.setEng e v).hdr0 = j.hdr0 := by cases e <;> rfl
@[simp] theorem Job.setEng_hdr1 (j : Job) (e : EStream) (v : Eng) : (j.setEng e v).hdr1 = j.hdr1 := by cases e <;> rfl
@[simp] theorem Job.setEng_epoch (j : Job) (e : EStream) (v : Eng) : (j.setEng e v).epoch = j.epoch := by cases e <;> rfl
@[simp] theorem Job.setEng_level (j : Job) (e : EStream) (v : Eng) : (j.setEng e v).level = j.level := by cases e <;> rfl
@[simp] theorem Job.setEng_phase (j : Job) (e : EStream) (v : Eng) : (j.setEng e v).phase = j.phase := by cases e <;> rfl
@[simp] theorem Job.setEng_pend (j : Job) (e : EStream) (v : Eng) : (j.setEng e v).pend = j.pend := by cases e <;> rfl
@[simp] theorem Job.setEng_trapc (j : Job) (e : EStream) (v : Eng) : (j.setEng e v).trapc = j.trapc := by cases e <;> rfl
@[simp] theorem Job.setEng_trapv (j : Job) (e : EStream) (v : Eng) : (j.setEng e v).trapv = j.trapv := by cases e <;> rfl
@[simp] theorem Job.setEng_trappc (j : Job) (e : EStream) (v : Eng) : (j.setEng e v).trappc = j.trappc := by cases e <;> rfl
@[simp] theorem Job.setEng_trapIn (j : Job) (e : EStream) (v : Eng) : (j.setEng e v).trapIn = j.trapIn := by cases e <;> rfl
@[simp] theorem Job.setEng_snap (j : Job) (e : EStream) (v : Eng) : (j.setEng e v).snap = j.snap := by cases e <;> rfl
@[simp] theorem Job.setEng_region (j : Job) (e : EStream) (v : Eng) : (j.setEng e v).region = j.region := by cases e <;> rfl
@[simp] theorem Job.setEng_ctxAddr (j : Job) (e : EStream) (v : Eng) : (j.setEng e v).ctxAddr = j.ctxAddr := by cases e <;> rfl
@[simp] theorem Job.setEng_preempt (j : Job) (e : EStream) (v : Eng) : (j.setEng e v).preempt = j.preempt := by cases e <;> rfl
@[simp] theorem Job.setEng_dispatched (j : Job) (e : EStream) (v : Eng) : (j.setEng e v).dispatched = j.dispatched := by cases e <;> rfl
@[simp] theorem Job.setEng_resident (j : Job) (e : EStream) (v : Eng) : (j.setEng e v).resident = j.resident := by cases e <;> rfl
@[simp] theorem Job.setEng_watch (j : Job) (e : EStream) (v : Eng) : (j.setEng e v).watch = j.watch := by cases e <;> rfl
@[simp] theorem Job.setEng_lastSave (j : Job) (e : EStream) (v : Eng) : (j.setEng e v).lastSave = j.lastSave := by cases e <;> rfl
@[simp] theorem Job.setEng_lastRestore (j : Job) (e : EStream) (v : Eng) : (j.setEng e v).lastRestore = j.lastRestore := by cases e <;> rfl
@[simp] theorem Job.setEng_saveStart (j : Job) (e : EStream) (v : Eng) : (j.setEng e v).saveStart = j.saveStart := by cases e <;> rfl
@[simp] theorem Job.setEng_triggered (j : Job) (e : EStream) (v : Eng) : (j.setEng e v).triggered = j.triggered := by cases e <;> rfl
@[simp] theorem Job.setEng_nmHandles (j : Job) (e : EStream) (v : Eng) : (j.setEng e v).nmHandles = j.nmHandles := by cases e <;> rfl
@[simp] theorem Job.setEng_stallStart (j : Job) (e : EStream) (v : Eng) : (j.setEng e v).stallStart = j.stallStart := by cases e <;> rfl
@[simp] theorem Job.setEng_bpSkip (j : Job) (e : EStream) (v : Eng) : (j.setEng e v).bpSkip = j.bpSkip := by cases e <;> rfl
@[simp] theorem Job.setEng_clk (j : Job) (e : EStream) (v : Eng) : (j.setEng e v).clk = j.clk := by cases e <;> rfl
@[simp] theorem Job.setEng_shown (j : Job) (e : EStream) (v : Eng) : (j.setEng e v).shown = j.shown := by cases e <;> rfl
@[simp] theorem Job.setEng_posted (j : Job) (e : EStream) (v : Eng) : (j.setEng e v).posted = j.posted := by cases e <;> rfl
@[simp] theorem Job.setEng_replay (j : Job) (e : EStream) (v : Eng) : (j.setEng e v).replay = j.replay := by cases e <;> rfl
@[simp] theorem Job.setEng_home (j : Job) (e : EStream) (v : Eng) : (j.setEng e v).home = j.home := by cases e <;> rfl
@[simp] theorem Job.setEng_lookup (j : Job) (e : EStream) (v : Eng) : (j.setEng e v).lookup = j.lookup := by cases e <;> rfl
@[simp] theorem Job.setEng_core_S (j : Job) (e : EStream) (v : Eng) : (j.setEng e v).core.S = j.core.S := by
  cases e <;> rfl
@[simp] theorem Job.setEng_core_Q (j : Job) (e : EStream) (v : Eng) : (j.setEng e v).core.Q = j.core.Q := by
  cases e <;> rfl
@[simp] theorem Job.setEng_core_spill (j : Job) (e : EStream) (v : Eng) : (j.setEng e v).core.spill = j.core.spill := by
  cases e <;> rfl
@[simp] theorem Job.setEng_core_vs (j : Job) (e : EStream) (v : Eng) : (j.setEng e v).core.vs = j.core.vs := by
  cases e <;> rfl
@[simp] theorem Job.setEng_core_ms (j : Job) (e : EStream) (v : Eng) : (j.setEng e v).core.ms = j.core.ms := by
  cases e <;> rfl
@[simp] theorem Job.setEng_core_masks (j : Job) (e : EStream) (v : Eng) : (j.setEng e v).core.masks = j.core.masks := by
  cases e <;> rfl
@[simp] theorem Job.setEng_core_thr (j : Job) (e : EStream) (v : Eng) : (j.setEng e v).core.thr = j.core.thr := by
  cases e <;> rfl
@[simp] theorem Job.setEng_core_flags (j : Job) (e : EStream) (v : Eng) : (j.setEng e v).core.flags = j.core.flags := by
  cases e <;> rfl
@[simp] theorem Job.setEng_core_elog (j : Job) (e : EStream) (v : Eng) : (j.setEng e v).core.elog = j.core.elog := by
  cases e <;> rfl
@[simp] theorem Job.setEng_core_fmt (j : Job) (e : EStream) (v : Eng) : (j.setEng e v).core.fmt = j.core.fmt := by
  cases e <;> rfl
@[simp] theorem Job.setEng_core_rlo (j : Job) (e : EStream) (v : Eng) : (j.setEng e v).core.rlo = j.core.rlo := by
  cases e <;> rfl
@[simp] theorem Job.setEng_core_rhi (j : Job) (e : EStream) (v : Eng) : (j.setEng e v).core.rhi = j.core.rhi := by
  cases e <;> rfl
@[simp] theorem Job.setEng_core_rstat (j : Job) (e : EStream) (v : Eng) : (j.setEng e v).core.rstat = j.core.rstat := by
  cases e <;> rfl
@[simp] theorem Job.setEng_core_rpos (j : Job) (e : EStream) (v : Eng) : (j.setEng e v).core.rpos = j.core.rpos := by
  cases e <;> rfl
@[simp] theorem Job.setEng_core_leaseb (j : Job) (e : EStream) (v : Eng) : (j.setEng e v).core.leaseb = j.core.leaseb := by
  cases e <;> rfl
@[simp] theorem Job.setEng_core_lease (j : Job) (e : EStream) (v : Eng) : (j.setEng e v).core.lease = j.core.lease := by
  cases e <;> rfl
@[simp] theorem Job.setEng_core_accs (j : Job) (e : EStream) (v : Eng) : (j.setEng e v).core.accs = j.core.accs := by
  cases e <;> rfl
@[simp] theorem Job.setEng_core_slots (j : Job) (e : EStream) (v : Eng) : (j.setEng e v).core.slots = j.core.slots := by
  cases e <;> rfl
@[simp] theorem Job.setEng_core_win (j : Job) (e : EStream) (v : Eng) : (j.setEng e v).core.win = j.core.win := by
  cases e <;> rfl
@[simp] theorem Job.setEng_core_digest (j : Job) (e : EStream) (v : Eng) : (j.setEng e v).core.digest = j.core.digest := by
  cases e <;> rfl
@[simp] theorem Job.setEng_core_wk (j : Job) (e : EStream) (v : Eng) : (j.setEng e v).core.wk = j.core.wk := by
  cases e <;> rfl
@[simp] theorem Job.setEng_core_wacc (j : Job) (e : EStream) (v : Eng) : (j.setEng e v).core.wacc = j.core.wacc := by
  cases e <;> rfl

/-! ### Registers and predicates (R14) -/

/-- s0 reads zero. -/
@[simp] theorem Job.s_zero (j : Job) : j.s 0 = 0 := rfl
/-- p0 reads true. -/
@[simp] theorem Job.p_zero (j : Job) : j.p 0 = true := rfl
/-- A write to s0 is ignored. -/
@[simp] theorem Job.setS_zero (j : Job) (v : Word) : j.setS 0 v = j := rfl
/-- A write to p0 is ignored. -/
@[simp] theorem Job.setP_zero (j : Job) (v : Bool) : j.setP 0 v = j := rfl
/-- A register that is not s0 reads back what was written. -/
theorem Job.s_setS_self (j : Job) {r : BitVec 6} (v : Word) (h : r ≠ 0) : (j.setS r v).s r = v := by
  rw [Job.setS, if_neg h, Job.s, if_neg h]; simp
/-- Every other register keeps its value. -/
theorem Job.s_setS_ne (j : Job) {r q : BitVec 6} (v : Word) (h : q ≠ r) : (j.setS r v).s q = j.s q := by
  have : r.toNat ≠ q.toNat := fun e => h (BitVec.eq_of_toNat_eq e.symm)
  unfold Job.s Job.setS
  by_cases hr : r = 0
  · simp [hr]
  · by_cases hq : q = 0
    · simp [hq]
    · simp only [hr, hq, if_false, Vector.getElem_set]
      rw [if_neg this]
@[simp] theorem Job.s_setPc (j : Job) (v : Word) (r : BitVec 6) : (j.setPc v).s r = j.s r := rfl
@[simp] theorem Job.s_next (j : Job) (r : BitVec 6) : (j.next).s r = j.s r := rfl
@[simp] theorem Job.s_orFlags (j : Job) (f : BitVec 9) (r : BitVec 6) : (j.orFlags f).s r = j.s r := rfl
@[simp] theorem Job.p_setPc (j : Job) (v : Word) (r : BitVec 3) : (j.setPc v).p r = j.p r := rfl
@[simp] theorem Job.p_next (j : Job) (r : BitVec 3) : (j.next).p r = j.p r := rfl
@[simp] theorem Job.p_setS (j : Job) (d : BitVec 6) (v : Word) (r : BitVec 3) : (j.setS d v).p r = j.p r := by
  simp [Job.p]
@[simp] theorem Job.s_setP (j : Job) (d : BitVec 3) (v : Bool) (r : BitVec 6) : (j.setP d v).s r = j.s r := by
  simp [Job.s]
/-- A predicate that is not p0 reads back what was written. -/
theorem Job.p_setP_self (j : Job) {r : BitVec 3} (v : Bool) (h : r ≠ 0) : (j.setP r v).p r = v := by
  have hr : r.toNat < 8 := r.isLt
  have h' : (r == 0) = false := beq_eq_false_iff_ne.mpr h
  rw [Job.setP, if_neg h, Job.p, h']
  cases v <;> simp [hr]
/-- Every other predicate keeps its value. -/
theorem Job.p_setP_ne (j : Job) {r q : BitVec 3} (v : Bool) (h : q ≠ r) : (j.setP r v).p q = j.p q := by
  have hn : r.toNat ≠ q.toNat := fun e => h (BitVec.eq_of_toNat_eq e.symm)
  have hr : r.toNat < 8 := r.isLt
  have hq : q.toNat < 8 := q.isLt
  by_cases h0 : r = 0
  · rw [Job.setP, if_pos h0]
  · rw [Job.setP, if_neg h0, Job.p, Job.p]
    cases v <;> simp [hq]
    · rcases Nat.lt_or_ge q.toNat r.toNat with hl | hl
      · simp [hl]
      · simp [show ¬ q.toNat - r.toNat = 0 by omega]
    · rcases Nat.lt_or_ge q.toNat r.toNat with hl | hl
      · simp [hl]
      · simp [show ¬ q.toNat - r.toNat = 0 by omega]

end Sys2Proof.Machine
end

