-- ==== Sys2Proof/Laws/Frame.lean ====
section
/-!
SUPPORT. What the frames of S instructions and of engine words answer, once for all instructions.
-/
namespace Sys2Proof.Machine

/-- With tracing off a trace record writes nothing. -/
theorem traceRecord_off {s : State} {j : Job} (h : TraceOff s j.fdom) (k : Nat) (st : Stream) (kind lv seq w2 w3 : Nat) :
    traceRecord s k j st kind lv seq w2 w3 = s := by
  unfold TraceOff at h
  have : traceOn s j.fdom st lv = false := by simp only [traceOn, h, Bool.false_and]
  simp [traceRecord, this]

/-- The registers an instruction names are declared. -/
theorem sBad_none {j : Job} {rs : List (BitVec 6)} (h : ∀ r ∈ rs, j.sOk r = true) : j.sBad rs = none := by
  simp only [Job.sBad, Option.map_eq_none_iff, List.find?_eq_none]
  intro r hr
  simp [h r hr]

/-- Retirement of an S instruction whose count fits. -/
theorem sFinish_retire {s s' : State} {k : Nat} {j j' : Job} (h : j.core.S.seq < seqMax) :
    sFinish s k j (.retire s' j') = retired s' k j j' := by
  simp only [sFinish]
  rw [if_neg (by omega)]
  rfl

/-- An admitted S instruction whose own checks pass answers what its function gives. -/
theorem sExec_ready {s : State} {k : Nat} {j : Job} {cls : SClass} {regs : List (BitVec 6)} (h : SReady s k j cls regs)
    {dec : Job → Option (Nat × Nat)} (hd : dec j = none) (f : Nat → Job → SRes) :
    sExec s cls regs dec f = .next (sFinish s k j (f k j)) := by
  have hk := h.turn
  subst hk
  have h1 : ¬ (j.level = .handler ∧ cls.handler = false) := by
    rintro ⟨a, b⟩
    rcases h.level with c | c
    · rw [a] at c; exact absurd c (by decide)
    · rw [b] at c; exact absurd c (by decide)
  have h2 : ¬ (cls.misuse = true ∧ j.region.isSome = true) := by
    rintro ⟨a, b⟩
    rcases h.region with c | c
    · simp [c] at b
    · rw [a] at c; exact absurd c (by decide)
  have h3 : sDecode j regs dec = none := by simp [sDecode, hd, sBad_none h.named]
  simp only [sExec, h.here]
  rw [if_neg h1, h3]
  simp only []
  rw [if_neg h2]

theorem SReady.sub {s : State} {k : Nat} {j : Job} {c : SClass} {rs qs : List (BitVec 6)} (h : SReady s k j c rs) (hq : ∀ r ∈ qs, r ∈ rs) :
    SReady s k j c qs := ⟨h.turn, h.here, h.level, h.region, fun r hr => h.named r (hq r hr), h.count⟩

/-- An admitted S instruction whose function retires. -/
theorem sExec_retire {s s' : State} {k : Nat} {j j' : Job} {cls : SClass} {regs : List (BitVec 6)}
    {dec : Job → Option (Nat × Nat)} {f : Nat → Job → SRes} (h : SReady s k j cls regs)
    (hd : dec j = none) (hf : f k j = .retire s' j') : sExec s cls regs dec f = .next (retired s' k j j') := by
  rw [sExec_ready h hd, hf, sFinish_retire h.count]

/-- An admitted S instruction whose function traps. -/
theorem sExec_trap {s : State} {k c v : Nat} {j : Job} {cls : SClass} {regs : List (BitVec 6)}
    {dec : Job → Option (Nat × Nat)} {f : Nat → Job → SRes} (h : SReady s k j cls regs)
    (hd : dec j = none) (hf : f k j = .trap c v) : sExec s cls regs dec f = .next (takeTrap s k .S c v) := by
  rw [sExec_ready h hd, hf]; rfl

/-- An admitted S instruction whose function waits. -/
theorem sExec_wait {s s' : State} {k : Nat} {j j' : Job} {cls : SClass} {regs : List (BitVec 6)}
    {dec : Job → Option (Nat × Nat)} {f : Nat → Job → SRes} (h : SReady s k j cls regs)
    (hd : dec j = none) (hf : f k j = .wait s' j') : sExec s cls regs dec f = .next (setJob s' k j') := by
  rw [sExec_ready h hd, hf]; rfl

/-- An admitted S instruction whose function answers the state itself. -/
theorem sExec_done {s s' : State} {k : Nat} {j : Job} {cls : SClass} {regs : List (BitVec 6)}
    {dec : Job → Option (Nat × Nat)} {f : Nat → Job → SRes} (h : SReady s k j cls regs)
    (hd : dec j = none) (hf : f k j = .done s') : sExec s cls regs dec f = .next s' := by
  rw [sExec_ready h hd, hf]; rfl

/-- An S instruction whose decode checks fail traps. -/
theorem sExec_dec {s : State} {k c v : Nat} {j : Job} {cls : SClass} {regs : List (BitVec 6)}
    {dec : Job → Option (Nat × Nat)} {f : Nat → Job → SRes} (ht : s.turnJob = k)
    (hj : jobAt s k = some j) (hl : j.level = .job ∨ cls.handler = true) (hd : sDecode j regs dec = some (c, v)) :
    sExec s cls regs dec f = .next (takeTrap s k .S c v) := by
  subst ht
  have h1 : ¬ (j.level = .handler ∧ cls.handler = false) := by
    rintro ⟨a, b⟩
    rcases hl with c | c
    · rw [a] at c; exact absurd c (by decide)
    · rw [b] at c; exact absurd c (by decide)
  simp only [sExec, hj]
  rw [if_neg h1, hd]

/-- With tracing off and no replay, a value taken in is the value. -/
theorem takeIn_off {s : State} {k v a : Nat} {j : Job} {st : Stream} (ht : TraceOff s j.fdom) (hr : j.replay = none) :
    takeIn s k j st v a = (s, j, v) := by
  simp [takeIn, hr, traceValue, traceRecord_off ht]

/-- An admitted instruction that only changes the job retires. -/
theorem sPure_ready {s : State} {k : Nat} {j : Job} {regs : List (BitVec 6)} (h : SReady s k j sAny regs) (f : Job → Job) :
    sPure s regs f = .next (retired s k j (f j).next) := by
  rw [sPure, sExec_ready h rfl, sFinish_retire h.count]

/-- Every S instruction of a resident job answers a next state. -/
theorem sExec_next {s : State} {j : Job} (h : jobAt s s.turnJob = some j) (cls : SClass) (regs : List (BitVec 6))
    (dec : Job → Option (Nat × Nat)) (f : Nat → Job → SRes) : ∃ t, sExec s cls regs dec f = .next t := by
  simp only [sExec, h]
  split
  · exact ⟨_, rfl⟩
  · split
    · exact ⟨_, rfl⟩
    · split <;> exact ⟨_, rfl⟩

/-- Every engine word of a resident job answers a next state. -/
theorem eExec_next {s : State} {j : Job} (h : jobAt s s.turnJob = some j) (e : EStream) (i : Instr) (tok : BitVec 4) (p : EPlan) :
    ∃ t, eExec s e i tok p = .next t := by
  simp only [eExec, h]
  repeat' (first | exact ⟨_, rfl⟩ | split)

end Sys2Proof.Machine
end

