-- ==== Sys2Proof/Laws/Jobs.lean ====
section
/-!
SUPPORT. Which operations leave the resident jobs alone, and what the accesses of an S instruction leave of its job: only the clocks of its
paths change.
-/
namespace Sys2Proof.Machine

/-! ### Operations that leave the jobs alone -/

/-- Folding a function that keeps the jobs keeps them. -/
theorem foldl_jobs {α : Type} (f : State → α → State) (h : ∀ s a, (f s a).jobs = s.jobs) (l : List α) (s : State) :
    (l.foldl f s).jobs = s.jobs := by
  induction l generalizing s with
  | nil => rfl
  | cons a r ih => simp only [List.foldl_cons, ih, h]

@[simp] theorem homeSet_jobs (s : State) (pa : Nat) (b : Byte) : (homeSet s pa b).jobs = s.jobs := by unfold homeSet; split <;> rfl
@[simp] theorem homeSetBytes_jobs (s : State) (pa : Nat) (l : List Byte) : (homeSetBytes s pa l).jobs = s.jobs := by
  induction l generalizing s pa with
  | nil => rfl
  | cons b r ih => simp only [homeSetBytes, ih, homeSet_jobs]
@[simp] theorem writeBackN_jobs (s : State) (pa n : Nat) : (writeBackN s pa n).jobs = s.jobs := by
  induction n generalizing s pa with
  | zero => rfl
  | succ n ih => unfold writeBackN; split <;> simp [ih]
@[simp] theorem relTake_jobs (s : State) (line : Nat) (cp : Option (Nat × Nat)) : (relTake s line cp).1.jobs = s.jobs := rfl
@[simp] theorem relPut_jobs (s : State) (line mask : Nat) (l : List RelRec) (cp : Option (Nat × Nat)) : (relPut s line mask l cp).jobs = s.jobs := rfl
@[simp] theorem relClone_jobs (s : State) (line : Nat) (src cp : Option (Nat × Nat)) : (relClone s line src cp).jobs = s.jobs := rfl
@[simp] theorem writeBackLine_jobs (s : State) (l : Nat) : (writeBackLine s l).jobs = s.jobs := writeBackN_jobs _ _ _
@[simp] theorem dropStale_jobs (s : State) (l : Nat) : (dropStale s l).jobs = s.jobs := by simp only [dropStale]
@[simp] theorem noteCode_jobs (s : State) (pa : Nat) (l : List Byte) : (noteCode s pa l).jobs = s.jobs := by
  induction l generalizing s pa with
  | nil => rfl
  | cons b r ih => simp only [noteCode, ih]; split <;> rfl
@[simp] theorem agentSetBytes_jobs (s : State) (pa : Nat) (l : List Byte) : (agentSetBytes s pa l).jobs = s.jobs := by
  simp only [agentSetBytes, homeSetBytes_jobs, noteCode_jobs]
  exact foldl_jobs _ (by simp) _ _
@[simp] theorem logError_jobs (s : State) (id kind src cls addr : Nat) (ue : Bool) : (logError s id kind src cls addr ue).jobs = s.jobs := by simp only [logError, setDie_jobs]
@[simp] theorem sendIrq_jobs (s : State) (n c : Nat) : (sendIrq s n c).jobs = s.jobs := by simp only [sendIrq, setTenant_jobs]
@[simp] theorem evqLose_jobs (s : State) (f : Nat) : (evqLose s f).jobs = s.jobs := by simp only [evqLose, setDomain_jobs]
@[simp] theorem evqNext_jobs (s : State) (f : Nat) : (evqNext s f).jobs = s.jobs := by simp only [evqNext, setDomain_jobs]
@[simp] theorem evqStore_jobs (s : State) (f w0 addr aux : Nat) : (evqStore s f w0 addr aux).jobs = s.jobs := by
  unfold evqStore
  extract_lets
  split
  · exact evqLose_jobs _ _
  · split
    · exact (logError_jobs _ _ _ _ _ _ _).trans (evqLose_jobs _ _)
    · exact (evqNext_jobs _ _).trans (agentSetBytes_jobs _ _ _)
@[simp] theorem evqIrq_jobs (s : State) (f : Nat) : (evqIrq s f).jobs = s.jobs := by
  unfold evqIrq
  split
  · split
    · exact sendIrq_jobs _ _ _
    · rfl
  · rfl
@[simp] theorem raiseEvent_jobs (s : State) (f type code die addr aux : Nat) : (raiseEvent s f type code die addr aux).jobs = s.jobs :=
  (evqIrq_jobs _ _).trans (evqStore_jobs _ _ _ _ _)
@[simp] theorem watchOne_jobs (s : State) (m line cls ty f src n : Nat) : (watchOne s m line cls ty f src n).jobs = s.jobs := by
  unfold watchOne
  extract_lets
  split
  · exact raiseEvent_jobs _ _ _ _ _ _ _
  · rfl
@[simp] theorem watchHit_jobs (s : State) (line cls ty f src : Nat) : (watchHit s line cls ty f src).jobs = s.jobs := by
  unfold watchHit
  split
  · rfl
  · exact foldl_jobs _ (fun s n => watchOne_jobs s _ _ _ _ _ _ n) _ _
@[simp] theorem dropCopies_jobs (s : State) (die line e : Nat) : (dropCopies s die line e).jobs = s.jobs := by simp only [dropCopies]
@[simp] theorem setHolders_jobs (s : State) (die line : Nat) (hs : List Holder) : (setHolders s die line hs).jobs = s.jobs := rfl
@[simp] theorem tokReturn_jobs (s : State) (core line : Nat) : (tokReturn s core line).jobs = s.jobs := rfl
@[simp] theorem l1Touch_jobs (s : State) (core line : Nat) (keep : List Nat) : (l1Touch s core line keep).jobs = s.jobs := by
  simp only [l1Touch, setCore_jobs]
  split <;> rfl
@[simp] theorem tokRead_jobs (s : State) (die line core : Nat) : (tokRead s die line core).jobs = s.jobs := by
  simp only [tokRead]; split <;> rfl
@[simp] theorem tokWrite_jobs (s : State) (die line agent : Nat) : (tokWrite s die line agent).jobs = s.jobs := rfl
@[simp] theorem tokDrop_jobs (s : State) (die line : Nat) : (tokDrop s die line).jobs = s.jobs := rfl
@[simp] theorem tokYield_jobs (s : State) (die line : Nat) : (tokYield s die line).jobs = s.jobs := rfl
@[simp] theorem setPersist_jobs (s : State) (die line : Nat) (l : List (Nat × Nat)) : (setPersist s die line l).jobs = s.jobs := rfl
@[simp] theorem persistServed_jobs (s : State) (core line : Nat) : (persistServed s core line).jobs = s.jobs := by
  unfold persistServed; split <;> rfl
@[simp] theorem deliver_jobs (s : State) (core line : Nat) : (deliver s core line).jobs = s.jobs := by
  simp only [deliver]
  split
  · rfl
  · split
    · simp only [setHolders_jobs, setCore_jobs]
      split
      · rfl
      · split <;> rfl
    · rfl
@[simp] theorem landThrows_jobs (s : State) (die line : Nat) : (landThrows s die line).jobs = s.jobs := by
  simp only [landThrows]; exact foldl_jobs _ (by simp) _ _
@[simp] theorem recallLine_jobs (s : State) (line f d : Nat) : (recallLine s line f d).jobs = s.jobs := by
  unfold recallLine; split <;> simp
@[simp] theorem dirYield_jobs (s : State) (o line f : Nat) : (dirYield s o line f).jobs = s.jobs := by simp [dirYield]
@[simp] theorem dirRevoke_jobs (s : State) (line f : Nat) (e : Option Nat) : (dirRevoke s line f e).jobs = s.jobs := by
  simp only [dirRevoke]
  exact foldl_jobs _ (by intro s d; simp only [tokDrop_jobs, dropCopies_jobs]; split <;> simp) _ _
@[simp] theorem dirRead_jobs (s : State) (d line f : Nat) : (dirRead s d line f).jobs = s.jobs := by
  simp only [dirRead]
  split
  · rfl
  · split <;> simp
@[simp] theorem dirWrite_jobs (s : State) (d line f ty : Nat) : (dirWrite s d line f ty).jobs = s.jobs := by
  simp only [dirWrite]; split <;> simp
@[simp] theorem noteTag_jobs (s : State) (l : Nat) : (noteTag s l).jobs = s.jobs := by unfold noteTag; split <;> rfl
@[simp] theorem cohRead_jobs (s : State) (core line f : Nat) : (cohRead s core line f).jobs = s.jobs := by simp [cohRead]
@[simp] theorem noteTlb_jobs (s : State) (f va : Nat) : (noteTlb s f va).jobs = s.jobs := rfl
@[simp] theorem raceNote_jobs (s : State) (f line launch : Nat) (a : Acc1) : (raceNote s f line launch a).jobs = s.jobs := by
  simp only [raceNote]
  split <;> rfl
@[simp] theorem relWrite_jobs (s : State) (cp : Option (Nat × Nat)) (pa n : Nat) (rmw : Bool) (rel : List RelRec) : (relWrite s cp pa n rmw rel).jobs = s.jobs := rfl
@[simp] theorem putCopy_jobs (s : State) (c : ScopeCopy) : (putCopy s c).jobs = s.jobs := by simp only [putCopy]
@[simp] theorem cSetBytes_jobs (s : State) (pa : Nat) (l : List Byte) : (cSetBytes s pa l).jobs = s.jobs := by simp only [cSetBytes, noteCode_jobs]
@[simp] theorem cSetMasked_jobs (s : State) (line mask i : Nat) (l : List Byte) : (cSetMasked s line mask i l).jobs = s.jobs := by
  induction l generalizing s i with
  | nil => rfl
  | cons b r ih => simp only [cSetMasked, ih]; split <;> simp
@[simp] theorem poisonMask_jobs (s : State) (line mask : Nat) : (poisonMask s line mask).jobs = s.jobs := by
  unfold poisonMask; split <;> rfl
@[simp] theorem nmForget_jobs (s : State) (line mask : Nat) : (nmForget s line mask).jobs = s.jobs := rfl
@[simp] theorem diePut_jobs (s : State) (d agent line f ty mask : Nat) (b : List Byte) : (diePut s d agent line f ty mask b).jobs = s.jobs := by
  simp only [diePut]
  split
  · simp
  · split <;> simp
@[simp] theorem cohPut_jobs (s : State) (core line f ty mask : Nat) (b : List Byte) : (cohPut s core line f ty mask b).jobs = s.jobs := by
  simp [cohPut]
@[simp] theorem newCopy_jobs (s : State) (l core line f : Nat) : (newCopy s l core line f).1.jobs = s.jobs := rfl
@[simp] theorem scopeRead_jobs (s : State) (core t line f : Nat) : (scopeRead s core t line f).1.jobs = s.jobs := by
  simp only [scopeRead]; repeat' split
  all_goals simp
@[simp] theorem l1Read_jobs (s : State) (core line : Nat) (fill : Bool) : (l1Read s core line fill).jobs = s.jobs := by
  simp only [l1Read]; split <;> simp
@[simp] theorem traceRecord_jobs (s : State) (k : Nat) (j : Job) (st : Stream) (kind lv seq w2 w3 : Nat) :
    (traceRecord s k j st kind lv seq w2 w3).jobs = s.jobs := by
  simp only [traceRecord]; repeat' split
  all_goals simp
@[simp] theorem traceWord_jobs (s : State) (k : Nat) (j : Job) (st : Stream) (pc : Word) (seq : Nat) : (traceWord s k j st pc seq).jobs = s.jobs :=
  traceRecord_jobs _ _ _ _ _ _ _ _ _
@[simp] theorem traceFlow_jobs (s : State) (k : Nat) (j : Job) (st : Stream) (pc : Word) : (traceFlow s k j st pc).jobs = s.jobs :=
  traceRecord_jobs _ _ _ _ _ _ _ _ _
@[simp] theorem traceValue_jobs (s : State) (k : Nat) (j : Job) (st : Stream) (v a : Nat) : (traceValue s k j st v a).jobs = s.jobs :=
  traceRecord_jobs _ _ _ _ _ _ _ _ _

/-- The job in a slot depends on the jobs alone. -/
theorem jobAt_congr {s t : State} (h : t.jobs = s.jobs) (k : Nat) : jobAt t k = jobAt s k := by unfold jobAt; rw [h]

/-- What retiring leaves in the slot. -/
@[simp] theorem jobAt_retired_self (s : State) (k : Nat) (j j' : Job) : jobAt (retired s k j j') k =
    some { j' with core := { j'.core with S := { j'.core.S with seq := j.core.S.seq + 1 } }, pend := .none } := jobAt_setJob_self _ _ _

/-- Retiring leaves every other slot alone. -/
theorem jobAt_retired_ne (s : State) {k n : Nat} (j j' : Job) (h : n ≠ k) : jobAt (retired s k j j') n = jobAt s n := by
  rw [retired, jobAt_setJob_ne _ _ h, jobAt_congr (traceWord_jobs _ _ _ _ _ _)]

/-! ### Clocks of a job -/

/-- Two jobs that differ in the clocks of their paths at most. -/
def Job.SameBut (j' j : Job) : Prop := ∃ c, j' = { j with clk := c }

theorem Job.SameBut.refl (j : Job) : Job.SameBut j j := ⟨j.clk, rfl⟩
theorem Job.SameBut.trans {a b c : Job} (h : Job.SameBut a b) (g : Job.SameBut b c) : Job.SameBut a c := by
  obtain ⟨x, rfl⟩ := h; obtain ⟨y, rfl⟩ := g; exact ⟨x, rfl⟩
theorem Job.sameBut_setClk (j : Job) (p : Nat) (c : PathClk) : Job.SameBut (j.setClk p c) j := ⟨_, rfl⟩
theorem Job.sameBut_clkAfter (j : Job) (p n : Nat) (l st : Bool) : Job.SameBut (j.clkAfter p n l st) j := ⟨_, rfl⟩
theorem Job.sameBut_clkJoin (j : Job) (p : Nat) (v : VC) : Job.SameBut (j.clkJoin p v) j := ⟨_, rfl⟩
theorem Job.sameBut_note (j : Job) (p : Nat) (l : List RelRec) : Job.SameBut (j.note p l) j := ⟨_, rfl⟩
theorem Job.sameBut_foldl {α : Type} (f : Job → α → Job) (h : ∀ j a, Job.SameBut (f j a) j) (l : List α) (j : Job) :
    Job.SameBut (l.foldl f j) j := by
  induction l generalizing j with
  | nil => exact .refl j
  | cons a r ih => exact (ih _).trans (h j a)
theorem Job.sameBut_acquire (j : Job) (p sc core : Nat) (l : List RelRec) : Job.SameBut (j.acquire p sc core l) j :=
  Job.sameBut_foldl _ (by intro j r; split; exact ⟨_, rfl⟩; exact .refl j) _ _
theorem Job.SameBut.core {a b : Job} (h : Job.SameBut a b) : a.core = b.core := by obtain ⟨x, rfl⟩ := h; rfl
theorem Job.SameBut.region {a b : Job} (h : Job.SameBut a b) : a.region = b.region := by obtain ⟨x, rfl⟩ := h; rfl
theorem Job.SameBut.replay {a b : Job} (h : Job.SameBut a b) : a.replay = b.replay := by obtain ⟨x, rfl⟩ := h; rfl
theorem Job.SameBut.fdom {a b : Job} (h : Job.SameBut a b) : a.fdom = b.fdom := by obtain ⟨x, rfl⟩ := h; rfl
theorem Job.SameBut.level {a b : Job} (h : Job.SameBut a b) : a.level = b.level := by obtain ⟨x, rfl⟩ := h; rfl

/-- An access notes itself in the job's clocks only. -/
theorem noteAccess_job {s : State} {k : Nat} {j : Job} (hj : jobAt s k = some j) (p num pa n : Nat) (l st o : Bool) :
    ∃ j', jobAt (noteAccess s ⟨k, p, num⟩ pa n l st o) k = some j' ∧ Job.SameBut j' j := by
  refine ⟨j.clkAfter p num l st, ?_, ⟨_, rfl⟩⟩
  simp only [noteAccess, hj]
  split
  · rw [jobAt_congr (raceNote_jobs _ _ _ _ _)]; simp
  · simp

theorem modJob_job {s : State} {k : Nat} {j : Job} (hj : jobAt s k = some j) (f : Job → Job) : jobAt (modJob s k f) k = some (f j) := by
  simp [modJob, hj]

/-- A load leaves its job the same but for clocks. -/
theorem memLoad_job {s : State} {k : Nat} {j : Job} (hj : jobAt s k = some j) (p num sc pa n : Nat) (o : Bool) :
    ∃ j', jobAt (memLoad s ⟨k, p, num⟩ sc pa n o).1 k = some j' ∧ Job.SameBut j' j := by
  simp only [memLoad, hj]
  have h1 : jobAt (scopeRead s (jCoreKey k) (effScope sc) (lineOf pa) j.fdom).1 k = some j := by
    rw [jobAt_congr (scopeRead_jobs _ _ _ _ _)]; exact hj
  obtain ⟨j', h2, h3⟩ := noteAccess_job h1 p num pa n true false o
  exact ⟨_, modJob_job h2 _, (Job.sameBut_note _ _ _).trans h3⟩

/-! ### Nothing stands before an access -/

/-- With no scope copy and no partial line, publishing what an access selects does nothing. -/
theorem publishLevel_none {s : State} {sel : ScopeCopy → Bool} (t l : Nat) (h : ∀ c ∈ s.M.scopes, sel c = false) :
    publishLevel s sel t l = s := by
  have : s.M.scopes.filter (fun c => c.level == l && sel c) = [] := by
    rw [List.filter_eq_nil_iff]; intro c hc; simp [h c hc]
  simp [publishLevel, sortBy, this]

theorem publishSel_none {s : State} {sel : ScopeCopy → Bool} (t : Nat) (h : ∀ c ∈ s.M.scopes, sel c = false) : publishSel s sel t = s := by
  unfold publishSel
  generalize List.range (Nat.min t 3) = l
  induction l with
  | nil => rfl
  | cons a r ih => simp only [List.foldl_cons, publishLevel_none t a h]; exact ih

theorem persistBars_clear {s : State} {line : Nat} (h : LineClear s line) (core : Nat) : persistBars s core line = false := by
  have : s.M.persistent.filter (fun e => e.1 == line && e.2 % 2 ^ 20 / 64 == core / 64) = [] := by
    rw [List.filter_eq_nil_iff]
    intro e he
    have := List.all_eq_true.mp h.persistent e he
    simp_all
  have hp : persistOf s (core / 64) line = [] := by unfold persistOf; rw [this]; rfl
  simp [persistBars, persistFirst, hp]

/-- A clear line makes nothing stand before the access. -/
theorem memPrep_clear {s : State} {line : Nat} (h : LineClear s line) (core t : Nat) : memPrep s core t line = (s, true) := by
  have h2 : ∀ c ∈ s.M.scopes, (c.line == line) = false := by
    intro c hc
    have := List.all_eq_true.mp h.scopes c hc
    simpa using this
  have h3 : combineLine s line = s := by simp [combineLine, h.partials]
  have h4 : publishSel s (fun c => c.line == line && c.inst == instNo c.level core) t = s :=
    publishSel_none t (fun c hc => by simp [h2 c hc])
  have h5 : (s.M.scopes.any fun c => c.line == line && decide (c.level < t) && inInst t core (instCore c.level c.inst)) = false := by
    rw [List.any_eq_false]; intro c hc; simp [h2 c hc]
  simp [memPrep, persistBars_clear h, h.commits, h3, h4, h5]

theorem LineClear.congr {s t : State} {line : Nat} (h : LineClear s line) (hc : t.clusters = s.clusters) (hs : t.M.scopes = s.M.scopes)
    (hg : t.M.committing = s.M.committing) (hp : t.M.persistent = s.M.persistent) : LineClear t line := by
  refine ⟨?_, by rw [hs]; exact h.scopes, ?_, by rw [hp]; exact h.persistent⟩
  · have := h.partials
    unfold partialsOf at this ⊢
    rw [hc]; exact this
  · have := h.commits
    unfold gathered at this ⊢
    rw [hg]; exact this

theorem noteTlb_clear {s : State} {line : Nat} (h : LineClear s line) (f va : Nat) : LineClear (noteTlb s f va) line := h.congr rfl rfl rfl rfl

end Sys2Proof.Machine
end

