-- ==== Sys2Proof/Laws/Engine.lean ====
section
/-!
SUPPORT. The frame of engine words once for all of them: what issuing, retiring at issue and trapping leave, in the words of `Flies` and
`RetiresNow`; vector words through `VIssues`.
-/
namespace Sys2Proof.Machine

@[simp] theorem eng_setEng (j : Job) (e : EStream) (v : Eng) : (j.setEng e v).eng e = v := by cases e <;> rfl
@[simp] theorem setEng_setEng (j : Job) (e : EStream) (v w : Eng) : (j.setEng e v).setEng e w = j.setEng e w := by cases e <;> rfl
@[simp] theorem setEng_fdom (j : Job) (e : EStream) (v : Eng) : (j.setEng e v).fdom = j.fdom := by cases e <;> rfl

/-- With no loop ending at the last slot the stream goes on. -/
theorem loopEnd_none {g : Eng} {last : Word} (h : NoLoopEnd g last) (pc : Word) (n : Nat) : loopEnd g last pc n = ({ g with pc := pc }, 0) := by
  cases n with
  | zero => rfl
  | succ n =>
    unfold loopEnd
    split
    · rename_i t r ht
      rw [if_neg (h t r ht)]
    · rfl

theorem loopEnd_keeps (last pc : Word) : ∀ (n : Nat) (g : Eng),
    (loopEnd g last pc n).1.inflight = g.inflight ∧ (loopEnd g last pc n).1.seq = g.seq := by
  intro n
  induction n with
  | zero => intro g; exact ⟨rfl, rfl⟩
  | succ n ih =>
    intro g
    unfold loopEnd
    split
    · split
      · split
        · exact ⟨rfl, rfl⟩
        · exact ⟨(ih _).1, (ih _).2⟩
      · exact ⟨rfl, rfl⟩
    · exact ⟨rfl, rfl⟩

theorem advance_none {s : State} {k : Nat} {j : Job} {e : EStream} {last : Word} (h : NoLoopEnd (j.eng e) last) (wpc pc : Word) (seq : Nat) :
    advance s k j e wpc last pc seq = (s, j.setEng e { j.eng e with pc := pc }) := by
  simp [advance, loopEnd_none h]

/-- Post-increments leave the words in flight, the counter and the loops of the stream. -/
theorem postInc_keeps (xs : List OpIn) : ∀ g : Eng, (postInc g xs).inflight = g.inflight ∧ (postInc g xs).seq = g.seq ∧ (postInc g xs).loops = g.loops := by
  unfold postInc
  induction xs with
  | nil => intro g; exact ⟨rfl, rfl, rfl⟩
  | cons x r ih =>
    intro g
    simp only [List.foldl_cons]
    by_cases h : x.o.mode = 1
    · rw [if_pos h]; exact ih _
    · rw [if_neg h]; exact ih _

/-! ### What issuing tells the stream (R154) -/

/-- Learning changes what streams know of windows and nothing else. -/
theorem issueKnow_eq (j : Job) (e : EStream) (tok : BitVec 4) (n : Nat) : ∃ w, j.issueKnow e tok n = { j with core := { j.core with wk := w } } := by
  suffices h : ∀ (l : List VC) (a : Job), (∃ w, a = { j with core := { j.core with wk := w } }) →
      ∃ w, l.foldl (fun (j : Job) v => j.learnWin e v) a = { j with core := { j.core with wk := w } } from h _ j ⟨j.core.wk, rfl⟩
  intro l
  induction l with
  | nil => intro a h; exact h
  | cons v r ih =>
    intro a h
    obtain ⟨w, rfl⟩ := h
    exact ih _ ⟨_, rfl⟩

@[simp] theorem issuing_uid (j : Job) (e : EStream) (tok : BitVec 4) (p : EPlan) : (issuing j e tok p).uid = j.uid := by
  obtain ⟨w, h⟩ := issueKnow_eq j e tok (popCount p.d.ops); rw [issuing, h]
@[simp] theorem issuing_launch (j : Job) (e : EStream) (tok : BitVec 4) (p : EPlan) : (issuing j e tok p).launch = j.launch := by
  obtain ⟨w, h⟩ := issueKnow_eq j e tok (popCount p.d.ops); rw [issuing, h]
@[simp] theorem issuing_ticket (j : Job) (e : EStream) (tok : BitVec 4) (p : EPlan) : (issuing j e tok p).ticket = j.ticket := by
  obtain ⟨w, h⟩ := issueKnow_eq j e tok (popCount p.d.ops); rw [issuing, h]
@[simp] theorem issuing_serial (j : Job) (e : EStream) (tok : BitVec 4) (p : EPlan) : (issuing j e tok p).serial = j.serial := by
  obtain ⟨w, h⟩ := issueKnow_eq j e tok (popCount p.d.ops); rw [issuing, h]
@[simp] theorem issuing_fdom (j : Job) (e : EStream) (tok : BitVec 4) (p : EPlan) : (issuing j e tok p).fdom = j.fdom := by
  obtain ⟨w, h⟩ := issueKnow_eq j e tok (popCount p.d.ops); rw [issuing, h]
@[simp] theorem issuing_hdr0 (j : Job) (e : EStream) (tok : BitVec 4) (p : EPlan) : (issuing j e tok p).hdr0 = j.hdr0 := by
  obtain ⟨w, h⟩ := issueKnow_eq j e tok (popCount p.d.ops); rw [issuing, h]
@[simp] theorem issuing_hdr1 (j : Job) (e : EStream) (tok : BitVec 4) (p : EPlan) : (issuing j e tok p).hdr1 = j.hdr1 := by
  obtain ⟨w, h⟩ := issueKnow_eq j e tok (popCount p.d.ops); rw [issuing, h]
@[simp] theorem issuing_epoch (j : Job) (e : EStream) (tok : BitVec 4) (p : EPlan) : (issuing j e tok p).epoch = j.epoch := by
  obtain ⟨w, h⟩ := issueKnow_eq j e tok (popCount p.d.ops); rw [issuing, h]
@[simp] theorem issuing_level (j : Job) (e : EStream) (tok : BitVec 4) (p : EPlan) : (issuing j e tok p).level = j.level := by
  obtain ⟨w, h⟩ := issueKnow_eq j e tok (popCount p.d.ops); rw [issuing, h]
@[simp] theorem issuing_phase (j : Job) (e : EStream) (tok : BitVec 4) (p : EPlan) : (issuing j e tok p).phase = j.phase := by
  obtain ⟨w, h⟩ := issueKnow_eq j e tok (popCount p.d.ops); rw [issuing, h]
@[simp] theorem issuing_pend (j : Job) (e : EStream) (tok : BitVec 4) (p : EPlan) : (issuing j e tok p).pend = j.pend := by
  obtain ⟨w, h⟩ := issueKnow_eq j e tok (popCount p.d.ops); rw [issuing, h]
@[simp] theorem issuing_trapc (j : Job) (e : EStream) (tok : BitVec 4) (p : EPlan) : (issuing j e tok p).trapc = j.trapc := by
  obtain ⟨w, h⟩ := issueKnow_eq j e tok (popCount p.d.ops); rw [issuing, h]
@[simp] theorem issuing_trapv (j : Job) (e : EStream) (tok : BitVec 4) (p : EPlan) : (issuing j e tok p).trapv = j.trapv := by
  obtain ⟨w, h⟩ := issueKnow_eq j e tok (popCount p.d.ops); rw [issuing, h]
@[simp] theorem issuing_trappc (j : Job) (e : EStream) (tok : BitVec 4) (p : EPlan) : (issuing j e tok p).trappc = j.trappc := by
  obtain ⟨w, h⟩ := issueKnow_eq j e tok (popCount p.d.ops); rw [issuing, h]
@[simp] theorem issuing_trapIn (j : Job) (e : EStream) (tok : BitVec 4) (p : EPlan) : (issuing j e tok p).trapIn = j.trapIn := by
  obtain ⟨w, h⟩ := issueKnow_eq j e tok (popCount p.d.ops); rw [issuing, h]
@[simp] theorem issuing_snap (j : Job) (e : EStream) (tok : BitVec 4) (p : EPlan) : (issuing j e tok p).snap = j.snap := by
  obtain ⟨w, h⟩ := issueKnow_eq j e tok (popCount p.d.ops); rw [issuing, h]
@[simp] theorem issuing_region (j : Job) (e : EStream) (tok : BitVec 4) (p : EPlan) : (issuing j e tok p).region = j.region := by
  obtain ⟨w, h⟩ := issueKnow_eq j e tok (popCount p.d.ops); rw [issuing, h]
@[simp] theorem issuing_ctxAddr (j : Job) (e : EStream) (tok : BitVec 4) (p : EPlan) : (issuing j e tok p).ctxAddr = j.ctxAddr := by
  obtain ⟨w, h⟩ := issueKnow_eq j e tok (popCount p.d.ops); rw [issuing, h]
@[simp] theorem issuing_preempt (j : Job) (e : EStream) (tok : BitVec 4) (p : EPlan) : (issuing j e tok p).preempt = j.preempt := by
  obtain ⟨w, h⟩ := issueKnow_eq j e tok (popCount p.d.ops); rw [issuing, h]
@[simp] theorem issuing_dispatched (j : Job) (e : EStream) (tok : BitVec 4) (p : EPlan) : (issuing j e tok p).dispatched = j.dispatched := by
  obtain ⟨w, h⟩ := issueKnow_eq j e tok (popCount p.d.ops); rw [issuing, h]
@[simp] theorem issuing_resident (j : Job) (e : EStream) (tok : BitVec 4) (p : EPlan) : (issuing j e tok p).resident = j.resident := by
  obtain ⟨w, h⟩ := issueKnow_eq j e tok (popCount p.d.ops); rw [issuing, h]
@[simp] theorem issuing_watch (j : Job) (e : EStream) (tok : BitVec 4) (p : EPlan) : (issuing j e tok p).watch = j.watch := by
  obtain ⟨w, h⟩ := issueKnow_eq j e tok (popCount p.d.ops); rw [issuing, h]
@[simp] theorem issuing_lastSave (j : Job) (e : EStream) (tok : BitVec 4) (p : EPlan) : (issuing j e tok p).lastSave = j.lastSave := by
  obtain ⟨w, h⟩ := issueKnow_eq j e tok (popCount p.d.ops); rw [issuing, h]
@[simp] theorem issuing_lastRestore (j : Job) (e : EStream) (tok : BitVec 4) (p : EPlan) : (issuing j e tok p).lastRestore = j.lastRestore := by
  obtain ⟨w, h⟩ := issueKnow_eq j e tok (popCount p.d.ops); rw [issuing, h]
@[simp] theorem issuing_saveStart (j : Job) (e : EStream) (tok : BitVec 4) (p : EPlan) : (issuing j e tok p).saveStart = j.saveStart := by
  obtain ⟨w, h⟩ := issueKnow_eq j e tok (popCount p.d.ops); rw [issuing, h]
@[simp] theorem issuing_triggered (j : Job) (e : EStream) (tok : BitVec 4) (p : EPlan) : (issuing j e tok p).triggered = j.triggered := by
  obtain ⟨w, h⟩ := issueKnow_eq j e tok (popCount p.d.ops); rw [issuing, h]
@[simp] theorem issuing_nmHandles (j : Job) (e : EStream) (tok : BitVec 4) (p : EPlan) : (issuing j e tok p).nmHandles = j.nmHandles := by
  obtain ⟨w, h⟩ := issueKnow_eq j e tok (popCount p.d.ops); rw [issuing, h]
@[simp] theorem issuing_stallStart (j : Job) (e : EStream) (tok : BitVec 4) (p : EPlan) : (issuing j e tok p).stallStart = j.stallStart := by
  obtain ⟨w, h⟩ := issueKnow_eq j e tok (popCount p.d.ops); rw [issuing, h]
@[simp] theorem issuing_bpSkip (j : Job) (e : EStream) (tok : BitVec 4) (p : EPlan) : (issuing j e tok p).bpSkip = j.bpSkip := by
  obtain ⟨w, h⟩ := issueKnow_eq j e tok (popCount p.d.ops); rw [issuing, h]
@[simp] theorem issuing_clk (j : Job) (e : EStream) (tok : BitVec 4) (p : EPlan) : (issuing j e tok p).clk = j.clk := by
  obtain ⟨w, h⟩ := issueKnow_eq j e tok (popCount p.d.ops); rw [issuing, h]
@[simp] theorem issuing_shown (j : Job) (e : EStream) (tok : BitVec 4) (p : EPlan) : (issuing j e tok p).shown = j.shown := by
  obtain ⟨w, h⟩ := issueKnow_eq j e tok (popCount p.d.ops); rw [issuing, h]
@[simp] theorem issuing_posted (j : Job) (e : EStream) (tok : BitVec 4) (p : EPlan) : (issuing j e tok p).posted = j.posted := by
  obtain ⟨w, h⟩ := issueKnow_eq j e tok (popCount p.d.ops); rw [issuing, h]
@[simp] theorem issuing_replay (j : Job) (e : EStream) (tok : BitVec 4) (p : EPlan) : (issuing j e tok p).replay = j.replay := by
  obtain ⟨w, h⟩ := issueKnow_eq j e tok (popCount p.d.ops); rw [issuing, h]
@[simp] theorem issuing_home (j : Job) (e : EStream) (tok : BitVec 4) (p : EPlan) : (issuing j e tok p).home = j.home := by
  obtain ⟨w, h⟩ := issueKnow_eq j e tok (popCount p.d.ops); rw [issuing, h]
@[simp] theorem issuing_lookup (j : Job) (e : EStream) (tok : BitVec 4) (p : EPlan) : (issuing j e tok p).lookup = j.lookup := by
  obtain ⟨w, h⟩ := issueKnow_eq j e tok (popCount p.d.ops); rw [issuing, h]
@[simp] theorem issuing_core_S (j : Job) (e : EStream) (tok : BitVec 4) (p : EPlan) : (issuing j e tok p).core.S = j.core.S := by
  obtain ⟨w, h⟩ := issueKnow_eq j e tok (popCount p.d.ops); rw [issuing, h]
@[simp] theorem issuing_core_L (j : Job) (e : EStream) (tok : BitVec 4) (p : EPlan) : (issuing j e tok p).core.L = j.core.L := by
  obtain ⟨w, h⟩ := issueKnow_eq j e tok (popCount p.d.ops); rw [issuing, h]
@[simp] theorem issuing_core_X (j : Job) (e : EStream) (tok : BitVec 4) (p : EPlan) : (issuing j e tok p).core.X = j.core.X := by
  obtain ⟨w, h⟩ := issueKnow_eq j e tok (popCount p.d.ops); rw [issuing, h]
@[simp] theorem issuing_core_T (j : Job) (e : EStream) (tok : BitVec 4) (p : EPlan) : (issuing j e tok p).core.T = j.core.T := by
  obtain ⟨w, h⟩ := issueKnow_eq j e tok (popCount p.d.ops); rw [issuing, h]
@[simp] theorem issuing_core_Q (j : Job) (e : EStream) (tok : BitVec 4) (p : EPlan) : (issuing j e tok p).core.Q = j.core.Q := by
  obtain ⟨w, h⟩ := issueKnow_eq j e tok (popCount p.d.ops); rw [issuing, h]
@[simp] theorem issuing_core_spill (j : Job) (e : EStream) (tok : BitVec 4) (p : EPlan) : (issuing j e tok p).core.spill = j.core.spill := by
  obtain ⟨w, h⟩ := issueKnow_eq j e tok (popCount p.d.ops); rw [issuing, h]
@[simp] theorem issuing_core_vs (j : Job) (e : EStream) (tok : BitVec 4) (p : EPlan) : (issuing j e tok p).core.vs = j.core.vs := by
  obtain ⟨w, h⟩ := issueKnow_eq j e tok (popCount p.d.ops); rw [issuing, h]
@[simp] theorem issuing_core_ms (j : Job) (e : EStream) (tok : BitVec 4) (p : EPlan) : (issuing j e tok p).core.ms = j.core.ms := by
  obtain ⟨w, h⟩ := issueKnow_eq j e tok (popCount p.d.ops); rw [issuing, h]
@[simp] theorem issuing_core_masks (j : Job) (e : EStream) (tok : BitVec 4) (p : EPlan) : (issuing j e tok p).core.masks = j.core.masks := by
  obtain ⟨w, h⟩ := issueKnow_eq j e tok (popCount p.d.ops); rw [issuing, h]
@[simp] theorem issuing_core_thr (j : Job) (e : EStream) (tok : BitVec 4) (p : EPlan) : (issuing j e tok p).core.thr = j.core.thr := by
  obtain ⟨w, h⟩ := issueKnow_eq j e tok (popCount p.d.ops); rw [issuing, h]
@[simp] theorem issuing_core_flags (j : Job) (e : EStream) (tok : BitVec 4) (p : EPlan) : (issuing j e tok p).core.flags = j.core.flags := by
  obtain ⟨w, h⟩ := issueKnow_eq j e tok (popCount p.d.ops); rw [issuing, h]
@[simp] theorem issuing_core_elog (j : Job) (e : EStream) (tok : BitVec 4) (p : EPlan) : (issuing j e tok p).core.elog = j.core.elog := by
  obtain ⟨w, h⟩ := issueKnow_eq j e tok (popCount p.d.ops); rw [issuing, h]
@[simp] theorem issuing_core_fmt (j : Job) (e : EStream) (tok : BitVec 4) (p : EPlan) : (issuing j e tok p).core.fmt = j.core.fmt := by
  obtain ⟨w, h⟩ := issueKnow_eq j e tok (popCount p.d.ops); rw [issuing, h]
@[simp] theorem issuing_core_rlo (j : Job) (e : EStream) (tok : BitVec 4) (p : EPlan) : (issuing j e tok p).core.rlo = j.core.rlo := by
  obtain ⟨w, h⟩ := issueKnow_eq j e tok (popCount p.d.ops); rw [issuing, h]
@[simp] theorem issuing_core_rhi (j : Job) (e : EStream) (tok : BitVec 4) (p : EPlan) : (issuing j e tok p).core.rhi = j.core.rhi := by
  obtain ⟨w, h⟩ := issueKnow_eq j e tok (popCount p.d.ops); rw [issuing, h]
@[simp] theorem issuing_core_rstat (j : Job) (e : EStream) (tok : BitVec 4) (p : EPlan) : (issuing j e tok p).core.rstat = j.core.rstat := by
  obtain ⟨w, h⟩ := issueKnow_eq j e tok (popCount p.d.ops); rw [issuing, h]
@[simp] theorem issuing_core_rpos (j : Job) (e : EStream) (tok : BitVec 4) (p : EPlan) : (issuing j e tok p).core.rpos = j.core.rpos := by
  obtain ⟨w, h⟩ := issueKnow_eq j e tok (popCount p.d.ops); rw [issuing, h]
@[simp] theorem issuing_core_leaseb (j : Job) (e : EStream) (tok : BitVec 4) (p : EPlan) : (issuing j e tok p).core.leaseb = j.core.leaseb := by
  obtain ⟨w, h⟩ := issueKnow_eq j e tok (popCount p.d.ops); rw [issuing, h]
@[simp] theorem issuing_core_lease (j : Job) (e : EStream) (tok : BitVec 4) (p : EPlan) : (issuing j e tok p).core.lease = j.core.lease := by
  obtain ⟨w, h⟩ := issueKnow_eq j e tok (popCount p.d.ops); rw [issuing, h]
@[simp] theorem issuing_core_accs (j : Job) (e : EStream) (tok : BitVec 4) (p : EPlan) : (issuing j e tok p).core.accs = j.core.accs := by
  obtain ⟨w, h⟩ := issueKnow_eq j e tok (popCount p.d.ops); rw [issuing, h]
@[simp] theorem issuing_core_slots (j : Job) (e : EStream) (tok : BitVec 4) (p : EPlan) : (issuing j e tok p).core.slots = j.core.slots := by
  obtain ⟨w, h⟩ := issueKnow_eq j e tok (popCount p.d.ops); rw [issuing, h]
@[simp] theorem issuing_core_win (j : Job) (e : EStream) (tok : BitVec 4) (p : EPlan) : (issuing j e tok p).core.win = j.core.win := by
  obtain ⟨w, h⟩ := issueKnow_eq j e tok (popCount p.d.ops); rw [issuing, h]
@[simp] theorem issuing_core_digest (j : Job) (e : EStream) (tok : BitVec 4) (p : EPlan) : (issuing j e tok p).core.digest = j.core.digest := by
  obtain ⟨w, h⟩ := issueKnow_eq j e tok (popCount p.d.ops); rw [issuing, h]
@[simp] theorem issuing_core_wacc (j : Job) (e : EStream) (tok : BitVec 4) (p : EPlan) : (issuing j e tok p).core.wacc = j.core.wacc := by
  obtain ⟨w, h⟩ := issueKnow_eq j e tok (popCount p.d.ops); rw [issuing, h]
@[simp] theorem issuing_eng (j : Job) (e : EStream) (tok : BitVec 4) (p : EPlan) (x : EStream) : (issuing j e tok p).eng x = j.eng x := by
  obtain ⟨w, h⟩ := issueKnow_eq j e tok (popCount p.d.ops)
  rw [issuing, h]
  cases x <;> rfl
@[simp] theorem issuing_queue (j : Job) (e : EStream) (tok : BitVec 4) (p : EPlan) (q : Nat) : (issuing j e tok p).queue q = j.queue q := by
  simp [Job.queue]

/-- A word's own window accesses leave its stream alone: a stream's accesses are ordered among themselves. -/
theorem winUse_eng (j : Job) (fresh : Nat) (e : EStream) (n : Nat) (know : VC) (spans : List (Int × Nat)) (w : Bool) :
    (j.winUse fresh e n know spans w).eng e = j.eng e := by
  cases e
  · rfl
  · simp only [Job.winUse, Job.winTouch, Job.eng]
    have hl : ∀ i : InFlight, ((j.core.wacc.filter (fun r => r.loose (winKey j.uid .X) know && (w || r.write))).any
        (fun r => r.key == winKey j.uid .X && r.num == j.winNum i.seq && !((spans.map (meetCells r.span)).flatten).isEmpty)) = false := by
      intro i
      rw [List.any_eq_false]
      intro r hr
      have h1 := (List.mem_filter.mp hr).2
      simp only [WinAcc.loose, Bool.and_eq_true, bne_iff_ne, ne_eq] at h1
      simp [h1.1.1]
    simp [hl]
  · rfl

/-! ### Issue and retirement -/

/-- `j'` differs from `j` in its queues and tokens, and what streams know, alone. -/
def QueuesOnly (j j' : Job) : Prop := ∃ q w, j' = { j with core := { j.core with Q := q, wk := w } }

theorem QueuesOnly.refl (j : Job) : QueuesOnly j j := ⟨j.core.Q, j.core.wk, rfl⟩
theorem QueuesOnly.trans {a b c : Job} (h : QueuesOnly a b) (g : QueuesOnly b c) : QueuesOnly a c := by
  obtain ⟨x, v, rfl⟩ := h
  obtain ⟨y, w, rfl⟩ := g
  exact ⟨y, w, rfl⟩
theorem QueuesOnly.eng {a b : Job} (h : QueuesOnly a b) (e : EStream) : b.eng e = a.eng e := by
  obtain ⟨x, v, rfl⟩ := h
  cases e <;> rfl
theorem QueuesOnly.fdom {a b : Job} (h : QueuesOnly a b) : b.fdom = a.fdom := by obtain ⟨x, v, rfl⟩ := h; rfl
theorem QueuesOnly.setEng {a b : Job} (h : QueuesOnly a b) (e : EStream) (v : Eng) : QueuesOnly (a.setEng e v) (b.setEng e v) := by
  obtain ⟨x, w, rfl⟩ := h
  cases e <;> exact ⟨x, w, rfl⟩
theorem issueKnow_queues (j : Job) (e : EStream) (tok : BitVec 4) (n : Nat) : QueuesOnly j (j.issueKnow e tok n) := by
  obtain ⟨w, h⟩ := issueKnow_eq j e tok n
  exact ⟨j.core.Q, w, h⟩

theorem queuesOnly_foldl {α : Type} {f : Job → α → Job} (h : ∀ j x, QueuesOnly j (f j x)) (l : List α) : ∀ j, QueuesOnly j (l.foldl f j) := by
  induction l with
  | nil => intro j; exact .refl j
  | cons x r ih => intro j; exact (h j x).trans (ih _)

theorem tokIssue_queues (j : Job) (e : EStream) (t : BitVec 4) : QueuesOnly j (j.tokIssue e t) :=
  (queuesOnly_foldl (fun j f => ⟨_, _, rfl⟩) _ _).trans (queuesOnly_foldl (fun j f => ⟨_, _, rfl⟩) _ _)
theorem tokRetire_queues (j : Job) (e : EStream) (t : BitVec 4) : QueuesOnly j (j.tokRetire e t) := queuesOnly_foldl (fun j f => ⟨_, _, rfl⟩) _ _

/-- Issue changes the queues and the word's own address registers. -/
theorem eIssue_eq (j : Job) (e : EStream) (tok : BitVec 4) (d : EDec) :
    ∃ j', QueuesOnly j j' ∧ eIssue j e tok d = j'.setEng e (postInc (j.eng e) d.ops) := by
  have h0 := issueKnow_queues j e tok (popCount d.ops)
  have h1 : QueuesOnly j (((j.issueKnow e tok (popCount d.ops)).qDrop (popQueue e) (popCount d.ops)).tokIssue e tok) :=
    h0.trans (QueuesOnly.trans (b := (j.issueKnow e tok (popCount d.ops)).qDrop (popQueue e) (popCount d.ops)) ⟨_, _, rfl⟩ (tokIssue_queues _ _ _))
  cases hp : d.push with
  | none =>
    refine ⟨_, h1, ?_⟩
    simp only [eIssue, hp, h1.eng]
  | some q =>
    have h2 : QueuesOnly j ((((j.issueKnow e tok (popCount d.ops)).qDrop (popQueue e) (popCount d.ops)).tokIssue e tok).qRes q true) := h1.trans ⟨_, _, rfl⟩
    refine ⟨_, h2, ?_⟩
    simp only [eIssue, hp, h2.eng]

theorem eIssue_eng (j : Job) (e : EStream) (tok : BitVec 4) (d : EDec) : (eIssue j e tok d).eng e = postInc (j.eng e) d.ops := by
  obtain ⟨j', -, h⟩ := eIssue_eq j e tok d
  rw [h, eng_setEng]

theorem jobAt_setJob_same (s : State) (k : Nat) (j : Job) : jobAt (setJob s k j) k = some j := by simp

/-- The frame of a ready engine word: what its plan answers decides. -/
theorem eExec_ready {s : State} {k : Nat} {j : Job} {e : EStream} {tok : BitVec 4} {p : EPlan} (h : EReady s k j e tok p) {i : Instr}
    (hv : vectorGo s k j i = true) :
    eExec s e i tok p =
      match p.f s k (issuing j e tok p) (wordOps j e p) with
      | .wait => .next s
      | .trap c v => .next (takeTrap s k e.toStream c v)
      | .trapIn s' c v => .next (takeTrap s' k e.toStream c v)
      | .pend s' j' => .next (setJob s' k j')
      | .fly s' eff =>
        let q := afterIssue s.fresh i j ((jobAt s' k).getD j) e tok p eff
        let a := advance s' k q e (j.eng e).pc (lastSlot j e p) (lastSlot j e p + 12) (nextSeq j e)
        .next (setJob a.1 k a.2)
      | .now g => .next (eExec.eRetireNow s k (g (eIssue j e tok p.d)) e tok (j.eng e).pc (lastSlot j e p) (lastSlot j e p + 12) (nextSeq j e))
      | .jump g l c => .next (eExec.eRetireNow s k (g (eIssue j e tok p.d)) e tok (j.eng e).pc l c (nextSeq j e)) := by
  have hk := h.turn
  subst hk
  have h1 : ¬ j.level = .handler := by rw [h.level]; decide
  have h3 : (!eReady j e tok p.d || (p.alone && !(j.eng e).inflight.isEmpty) || !vectorGo s s.turnJob j i) = false := by
    rw [h.ready, hv]
    by_cases ha : p.alone = true
    · simp [h.alone ha]
    · simp [ha]
  have h4 : ¬ seqMax < (j.eng e).seq + (j.eng e).inflight.length + 1 := by have := h.count; simp only [nextSeq] at this; omega
  unfold eExec
  simp only [h.here]
  rw [if_neg h1, h.named]
  simp only
  rw [if_neg (by rw [h3]; simp), if_neg]
  · simp only [h4, if_false]
    rfl
  · intro hh
    rw [Bool.and_eq_true] at hh
    have hw := h.whole hh.1
    cases hl : (j.eng e).loops with
    | nil => simp [hl] at hh
    | cons t r =>
      have := hw t r hl
      simp [hl] at hh
      exact this hh.2

/-- A word whose plan flies. -/
theorem flies_of {s s' : State} {k : Nat} {j : Job} {e : EStream} {i : Instr} {tok : BitVec 4} {p : EPlan} {eff : Effect}
    (h : EReady s k j e tok p) (hv : vectorGo s k j i = true) (hx : exec i s = eExec s e i tok p) (hf : p.f s k (issuing j e tok p) (wordOps j e p) = .fly s' eff) :
    Flies i s k j e tok p s' eff := by
  have hq : ∃ v, ((afterIssue s.fresh i j ((jobAt s' k).getD j) e tok p eff).eng e).inflight = (((jobAt s' k).getD j).eng e).inflight ++ [flying i j e p eff v] ∧
      ((afterIssue s.fresh i j ((jobAt s' k).getD j) e tok p eff).eng e).seq = (((jobAt s' k).getD j).eng e).seq ∧
      ((afterIssue s.fresh i j ((jobAt s' k).getD j) e tok p eff).eng e).loops = (((jobAt s' k).getD j).eng e).loops := by
    refine ⟨(eIssue ((jobAt s' k).getD j) e tok p.d).know e, ?_⟩
    simp only [afterIssue, eng_setEng, winUse_eng, eIssue_eng]
    have := postInc_keeps p.d.ops (((jobAt s' k).getD j).eng e)
    rw [this.1, this.2.1, this.2.2]
    exact ⟨rfl, rfl, rfl⟩
  obtain ⟨v, hq⟩ := hq
  let q := afterIssue s.fresh i j ((jobAt s' k).getD j) e tok p eff
  let a := advance s' k q e (j.eng e).pc (lastSlot j e p) (lastSlot j e p + 12) (nextSeq j e)
  refine ⟨setJob a.1 k a.2, a.2, v, ?_, jobAt_setJob_same _ _ _, ?_, ?_, ?_⟩
  · show exec i s = _
    rw [hx, eExec_ready h hv, hf]
  · simp only [a, advance, eng_setEng]
    rw [(loopEnd_keeps _ _ _ _).1, hq.1]
  · simp only [a, advance, eng_setEng]
    rw [(loopEnd_keeps _ _ _ _).2, hq.2.1]
  · intro hn
    have : NoLoopEnd ((afterIssue s.fresh i j ((jobAt s' k).getD j) e tok p eff).eng e) (lastSlot j e p) := by
      intro t r ht
      rw [hq.2.2] at ht
      exact hn t r ht
    simp only [a, q, advance_none this]

/-- A word whose plan traps. -/
theorem traps_of {s : State} {k : Nat} {j : Job} {e : EStream} {i : Instr} {tok : BitVec 4} {p : EPlan} {c v : Nat}
    (h : EReady s k j e tok p) (hv : vectorGo s k j i = true) (hx : exec i s = eExec s e i tok p) (hf : p.f s k (issuing j e tok p) (wordOps j e p) = .trap c v) :
    Runs i s (takeTrap s k e.toStream c v) := by
  show exec i s = _
  rw [hx, eExec_ready h hv, hf]

/-- A word whose plan waits. -/
theorem waits_of {s : State} {k : Nat} {j : Job} {e : EStream} {i : Instr} {tok : BitVec 4} {p : EPlan}
    (h : EReady s k j e tok p) (hv : vectorGo s k j i = true) (hx : exec i s = eExec s e i tok p) (hf : p.f s k (issuing j e tok p) (wordOps j e p) = .wait) : Runs i s s := by
  show exec i s = _
  rw [hx, eExec_ready h hv, hf]

/-- A word whose plan stays pending. -/
theorem pends_of {s s' : State} {k : Nat} {j j' : Job} {e : EStream} {i : Instr} {tok : BitVec 4} {p : EPlan}
    (h : EReady s k j e tok p) (hv : vectorGo s k j i = true) (hx : exec i s = eExec s e i tok p) (hf : p.f s k (issuing j e tok p) (wordOps j e p) = .pend s' j') :
    Runs i s (setJob s' k j') := by
  show exec i s = _
  rw [hx, eExec_ready h hv, hf]

/-- What retiring at issue leaves. -/
theorem eRetireNow_eq {s : State} {k : Nat} {j : Job} {e : EStream} {tok : BitVec 4} {wpc last pc : Word} {seq : Nat} :
    ∃ j', jobAt (eExec.eRetireNow s k j e tok wpc last pc seq) k = some j' ∧ (j'.eng e).seq = seq ∧
      (NoLoopEnd (j.eng e) last →
        let q := j.tokRetire e tok
        j' = q.setEng e { q.eng e with seq := seq, pc := pc } ∧
          (TraceOff s j'.fdom → eExec.eRetireNow s k j e tok wpc last pc seq = setJob s k j')) := by
  have hq := tokRetire_queues j e tok
  unfold eExec.eRetireNow
  refine ⟨_, jobAt_setJob_same _ _ _, ?_, ?_⟩
  · simp only [advance, eng_setEng]
    rw [(loopEnd_keeps _ _ _ _).2]
  · intro hn
    have : NoLoopEnd (((j.tokRetire e tok).setEng e { (j.tokRetire e tok).eng e with seq := seq }).eng e) last := by
      intro t r ht
      rw [eng_setEng] at ht
      simp only [hq.eng] at ht
      exact hn t r ht
    simp only [advance_none this, eng_setEng, setEng_setEng, true_and]
    intro ht
    simp only [setEng_fdom] at ht
    rw [show traceWord s k ((j.tokRetire e tok).setEng e { (j.tokRetire e tok).eng e with seq := seq }) e.toStream wpc seq = s from
      traceRecord_off (by simpa using ht) _ _ _ _ _ _ _]

/-- A word whose plan retires it at issue. -/
theorem now_of {s : State} {k : Nat} {j : Job} {e : EStream} {i : Instr} {tok : BitVec 4} {p : EPlan} {g : Job → Job}
    (h : EReady s k j e tok p) (hv : vectorGo s k j i = true) (hx : exec i s = eExec s e i tok p) (hf : p.f s k (issuing j e tok p) (wordOps j e p) = .now g) :
    RetiresNow i s k j e tok p g (lastSlot j e p) (lastSlot j e p + 12) := by
  obtain ⟨j', h1, h2, h3⟩ := eRetireNow_eq (s := s) (k := k) (j := g (eIssue j e tok p.d)) (e := e) (tok := tok) (wpc := (j.eng e).pc)
    (last := lastSlot j e p) (pc := lastSlot j e p + 12) (seq := nextSeq j e)
  refine ⟨_, j', ?_, h1, h2, h3⟩
  show exec i s = _
  rw [hx, eExec_ready h hv, hf]

/-- A word that retires at issue and moves its stream. -/
theorem jump_of {s : State} {k : Nat} {j : Job} {e : EStream} {i : Instr} {tok : BitVec 4} {p : EPlan} {g : Job → Job} {l c : Word}
    (h : EReady s k j e tok p) (hv : vectorGo s k j i = true) (hx : exec i s = eExec s e i tok p) (hf : p.f s k (issuing j e tok p) (wordOps j e p) = .jump g l c) :
    RetiresNow i s k j e tok p g l c := by
  obtain ⟨j', h1, h2, h3⟩ := eRetireNow_eq (s := s) (k := k) (j := g (eIssue j e tok p.d)) (e := e) (tok := tok) (wpc := (j.eng e).pc)
    (last := l) (pc := c) (seq := nextSeq j e)
  refine ⟨_, j', ?_, h1, h2, h3⟩
  show exec i s = _
  rw [hx, eExec_ready h hv, hf]

/-- The answer of a vector word whose formats resolve. -/
theorem vPlan_f {s : State} {k : Nat} {j : Job} {i : Instr} {w : EWord} {x : VWord} {g : VGrant} {df sf : NFmt} {ops : List Word}
    (h : VFits s j w x ops g df sf) :
    (vPlan i w x).f s k j ops = vIssue s k j (vCtx s j w x.use ops g.count df sf).seen (x.ans (vCtx s j w x.use ops g.count df sf))
      (vTagMiss s j x (vCtx s j w x.use ops g.count df sf)) := by
  obtain ⟨vf, h1, h2, h3, h4, h5⟩ := h.resolve
  have hc := h.codes
  have hd := h.direct
  simp only [vPlan, hc.1, hc.2, Bool.not_true, Bool.or_self, Bool.false_eq_true, if_false, h.grant, h1, hd, h4, h5]
  rw [if_neg (by simp; omega)]

end Sys2Proof.Machine
end

