-- ==== Sys2Proof/Laws/Goes.lean ====
section
/-!
SUPPORT. No instruction stops: a word of a resident job's stream and an event answer a next state, one lemma per constructor.
-/
namespace Sys2Proof.Machine.Goes
open Sys2Proof

set_option Elab.async false

theorem add (d : BitVec 6) (a : BitVec 6) (b : BitVec 6) {s : State} {j : Job} (h : jobAt s s.turnJob = some j) : ∃ t, exec (.add d a b) s = .next t := by
  show ∃ t, execAdd d a b s = .next t
  simp only [execAdd, alu3, sPure]; exact sExec_next h _ _ _ _
theorem sub (d : BitVec 6) (a : BitVec 6) (b : BitVec 6) {s : State} {j : Job} (h : jobAt s s.turnJob = some j) : ∃ t, exec (.sub d a b) s = .next t := by
  show ∃ t, execSub d a b s = .next t
  simp only [execSub, alu3, sPure]; exact sExec_next h _ _ _ _
theorem and (d : BitVec 6) (a : BitVec 6) (b : BitVec 6) {s : State} {j : Job} (h : jobAt s s.turnJob = some j) : ∃ t, exec (.and d a b) s = .next t := by
  show ∃ t, execAnd d a b s = .next t
  simp only [execAnd, alu3, sPure]; exact sExec_next h _ _ _ _
theorem or (d : BitVec 6) (a : BitVec 6) (b : BitVec 6) {s : State} {j : Job} (h : jobAt s s.turnJob = some j) : ∃ t, exec (.or d a b) s = .next t := by
  show ∃ t, execOr d a b s = .next t
  simp only [execOr, alu3, sPure]; exact sExec_next h _ _ _ _
theorem xor (d : BitVec 6) (a : BitVec 6) (b : BitVec 6) {s : State} {j : Job} (h : jobAt s s.turnJob = some j) : ∃ t, exec (.xor d a b) s = .next t := by
  show ∃ t, execXor d a b s = .next t
  simp only [execXor, alu3, sPure]; exact sExec_next h _ _ _ _
theorem shl (d : BitVec 6) (a : BitVec 6) (b : BitVec 6) {s : State} {j : Job} (h : jobAt s s.turnJob = some j) : ∃ t, exec (.shl d a b) s = .next t := by
  show ∃ t, execShl d a b s = .next t
  simp only [execShl, alu3, sPure]; exact sExec_next h _ _ _ _
theorem shr (d : BitVec 6) (a : BitVec 6) (b : BitVec 6) {s : State} {j : Job} (h : jobAt s s.turnJob = some j) : ∃ t, exec (.shr d a b) s = .next t := by
  show ∃ t, execShr d a b s = .next t
  simp only [execShr, alu3, sPure]; exact sExec_next h _ _ _ _
theorem sra (d : BitVec 6) (a : BitVec 6) (b : BitVec 6) {s : State} {j : Job} (h : jobAt s s.turnJob = some j) : ∃ t, exec (.sra d a b) s = .next t := by
  show ∃ t, execSra d a b s = .next t
  simp only [execSra, alu3, sPure]; exact sExec_next h _ _ _ _
theorem mul (d : BitVec 6) (a : BitVec 6) (b : BitVec 6) {s : State} {j : Job} (h : jobAt s s.turnJob = some j) : ∃ t, exec (.mul d a b) s = .next t := by
  show ∃ t, execMul d a b s = .next t
  simp only [execMul, alu3, sPure]; exact sExec_next h _ _ _ _
theorem mulh (d : BitVec 6) (a : BitVec 6) (b : BitVec 6) {s : State} {j : Job} (h : jobAt s s.turnJob = some j) : ∃ t, exec (.mulh d a b) s = .next t := by
  show ∃ t, execMulh d a b s = .next t
  simp only [execMulh, alu3, sPure]; exact sExec_next h _ _ _ _
theorem mulhu (d : BitVec 6) (a : BitVec 6) (b : BitVec 6) {s : State} {j : Job} (h : jobAt s s.turnJob = some j) : ∃ t, exec (.mulhu d a b) s = .next t := by
  show ∃ t, execMulhu d a b s = .next t
  simp only [execMulhu, alu3, sPure]; exact sExec_next h _ _ _ _
theorem div (d : BitVec 6) (a : BitVec 6) (b : BitVec 6) {s : State} {j : Job} (h : jobAt s s.turnJob = some j) : ∃ t, exec (.div d a b) s = .next t := by
  show ∃ t, execDiv d a b s = .next t
  simp only [execDiv, alu3Div, sPure]; exact sExec_next h _ _ _ _
theorem divu (d : BitVec 6) (a : BitVec 6) (b : BitVec 6) {s : State} {j : Job} (h : jobAt s s.turnJob = some j) : ∃ t, exec (.divu d a b) s = .next t := by
  show ∃ t, execDivu d a b s = .next t
  simp only [execDivu, alu3Div, sPure]; exact sExec_next h _ _ _ _
theorem rem (d : BitVec 6) (a : BitVec 6) (b : BitVec 6) {s : State} {j : Job} (h : jobAt s s.turnJob = some j) : ∃ t, exec (.rem d a b) s = .next t := by
  show ∃ t, execRem d a b s = .next t
  simp only [execRem, alu3Div, sPure]; exact sExec_next h _ _ _ _
theorem remu (d : BitVec 6) (a : BitVec 6) (b : BitVec 6) {s : State} {j : Job} (h : jobAt s s.turnJob = some j) : ∃ t, exec (.remu d a b) s = .next t := by
  show ∃ t, execRemu d a b s = .next t
  simp only [execRemu, alu3Div, sPure]; exact sExec_next h _ _ _ _
theorem min (d : BitVec 6) (a : BitVec 6) (b : BitVec 6) {s : State} {j : Job} (h : jobAt s s.turnJob = some j) : ∃ t, exec (.min d a b) s = .next t := by
  show ∃ t, execMin d a b s = .next t
  simp only [execMin, alu3, sPure]; exact sExec_next h _ _ _ _
theorem max (d : BitVec 6) (a : BitVec 6) (b : BitVec 6) {s : State} {j : Job} (h : jobAt s s.turnJob = some j) : ∃ t, exec (.max d a b) s = .next t := by
  show ∃ t, execMax d a b s = .next t
  simp only [execMax, alu3, sPure]; exact sExec_next h _ _ _ _
theorem minu (d : BitVec 6) (a : BitVec 6) (b : BitVec 6) {s : State} {j : Job} (h : jobAt s s.turnJob = some j) : ∃ t, exec (.minu d a b) s = .next t := by
  show ∃ t, execMinu d a b s = .next t
  simp only [execMinu, alu3, sPure]; exact sExec_next h _ _ _ _
theorem maxu (d : BitVec 6) (a : BitVec 6) (b : BitVec 6) {s : State} {j : Job} (h : jobAt s s.turnJob = some j) : ∃ t, exec (.maxu d a b) s = .next t := by
  show ∃ t, execMaxu d a b s = .next t
  simp only [execMaxu, alu3, sPure]; exact sExec_next h _ _ _ _
theorem clz (d : BitVec 6) (a : BitVec 6) {s : State} {j : Job} (h : jobAt s s.turnJob = some j) : ∃ t, exec (.clz d a) s = .next t := by
  show ∃ t, execClz d a s = .next t
  simp only [execClz, alu2, sPure]; exact sExec_next h _ _ _ _
theorem popc (d : BitVec 6) (a : BitVec 6) {s : State} {j : Job} (h : jobAt s s.turnJob = some j) : ∃ t, exec (.popc d a) s = .next t := by
  show ∃ t, execPopc d a s = .next t
  simp only [execPopc, alu2, sPure]; exact sExec_next h _ _ _ _
theorem sel (d : BitVec 6) (a : BitVec 6) (b : BitVec 6) (p : BitVec 3) {s : State} {j : Job} (h : jobAt s s.turnJob = some j) : ∃ t, exec (.sel d a b p) s = .next t := by
  show ∃ t, execSel d a b p s = .next t
  simp only [execSel, sPure]; exact sExec_next h _ _ _ _
theorem addi (d : BitVec 6) (a : BitVec 6) (i : BitVec 14) {s : State} {j : Job} (h : jobAt s s.turnJob = some j) : ∃ t, exec (.addi d a i) s = .next t := by
  show ∃ t, execAddi d a i s = .next t
  simp only [execAddi, alu2, sPure]; exact sExec_next h _ _ _ _
theorem andi (d : BitVec 6) (a : BitVec 6) (i : BitVec 14) {s : State} {j : Job} (h : jobAt s s.turnJob = some j) : ∃ t, exec (.andi d a i) s = .next t := by
  show ∃ t, execAndi d a i s = .next t
  simp only [execAndi, alu2, sPure]; exact sExec_next h _ _ _ _
theorem ori (d : BitVec 6) (a : BitVec 6) (i : BitVec 14) {s : State} {j : Job} (h : jobAt s s.turnJob = some j) : ∃ t, exec (.ori d a i) s = .next t := by
  show ∃ t, execOri d a i s = .next t
  simp only [execOri, alu2, sPure]; exact sExec_next h _ _ _ _
theorem xori (d : BitVec 6) (a : BitVec 6) (i : BitVec 14) {s : State} {j : Job} (h : jobAt s s.turnJob = some j) : ∃ t, exec (.xori d a i) s = .next t := by
  show ∃ t, execXori d a i s = .next t
  simp only [execXori, alu2, sPure]; exact sExec_next h _ _ _ _
theorem shli (d : BitVec 6) (a : BitVec 6) (n : BitVec 6) {s : State} {j : Job} (h : jobAt s s.turnJob = some j) : ∃ t, exec (.shli d a n) s = .next t := by
  show ∃ t, execShli d a n s = .next t
  simp only [execShli, alu2, sPure]; exact sExec_next h _ _ _ _
theorem shri (d : BitVec 6) (a : BitVec 6) (n : BitVec 6) {s : State} {j : Job} (h : jobAt s s.turnJob = some j) : ∃ t, exec (.shri d a n) s = .next t := by
  show ∃ t, execShri d a n s = .next t
  simp only [execShri, alu2, sPure]; exact sExec_next h _ _ _ _
theorem srai (d : BitVec 6) (a : BitVec 6) (n : BitVec 6) {s : State} {j : Job} (h : jobAt s s.turnJob = some j) : ∃ t, exec (.srai d a n) s = .next t := by
  show ∃ t, execSrai d a n s = .next t
  simp only [execSrai, alu2, sPure]; exact sExec_next h _ _ _ _
theorem movi (d : BitVec 6) (i : BitVec 20) {s : State} {j : Job} (h : jobAt s s.turnJob = some j) : ∃ t, exec (.movi d i) s = .next t := by
  show ∃ t, execMovi d i s = .next t
  simp only [execMovi, sPure]; exact sExec_next h _ _ _ _
theorem shin (d : BitVec 6) (i : BitVec 20) {s : State} {j : Job} (h : jobAt s s.turnJob = some j) : ∃ t, exec (.shin d i) s = .next t := by
  show ∃ t, execShin d i s = .next t
  simp only [execShin, sPure]; exact sExec_next h _ _ _ _
theorem cmp (p : BitVec 3) (c : BitVec 3) (a : BitVec 6) (b : BitVec 6) {s : State} {j : Job} (h : jobAt s s.turnJob = some j) : ∃ t, exec (.cmp p c a b) s = .next t := by
  show ∃ t, execCmp p c a b s = .next t
  simp only [execCmp, sPure]; exact sExec_next h _ _ _ _
theorem cmpi (p : BitVec 3) (c : BitVec 3) (a : BitVec 6) (i : BitVec 14) {s : State} {j : Job} (h : jobAt s s.turnJob = some j) : ∃ t, exec (.cmpi p c a i) s = .next t := by
  show ∃ t, execCmpi p c a i s = .next t
  simp only [execCmpi, sPure]; exact sExec_next h _ _ _ _
theorem pand (d : BitVec 3) (a : BitVec 3) (b : BitVec 3) {s : State} {j : Job} (h : jobAt s s.turnJob = some j) : ∃ t, exec (.pand d a b) s = .next t := by
  show ∃ t, execPand d a b s = .next t
  simp only [execPand, sPure]; exact sExec_next h _ _ _ _
theorem por (d : BitVec 3) (a : BitVec 3) (b : BitVec 3) {s : State} {j : Job} (h : jobAt s s.turnJob = some j) : ∃ t, exec (.por d a b) s = .next t := by
  show ∃ t, execPor d a b s = .next t
  simp only [execPor, sPure]; exact sExec_next h _ _ _ _
theorem pxor (d : BitVec 3) (a : BitVec 3) (b : BitVec 3) {s : State} {j : Job} (h : jobAt s s.turnJob = some j) : ∃ t, exec (.pxor d a b) s = .next t := by
  show ∃ t, execPxor d a b s = .next t
  simp only [execPxor, sPure]; exact sExec_next h _ _ _ _
theorem pnot (d : BitVec 3) (a : BitVec 3) {s : State} {j : Job} (h : jobAt s s.turnJob = some j) : ∃ t, exec (.pnot d a) s = .next t := by
  show ∃ t, execPnot d a s = .next t
  simp only [execPnot, sPure]; exact sExec_next h _ _ _ _
theorem b (p : BitVec 3) (n : BitVec 1) (o : BitVec 22) {s : State} {j : Job} (h : jobAt s s.turnJob = some j) : ∃ t, exec (.b p n o) s = .next t := by
  show ∃ t, execB p n o s = .next t
  simp only [execB]; exact sExec_next h _ _ _ _
theorem jmp (o : BitVec 26) {s : State} {j : Job} (h : jobAt s s.turnJob = some j) : ∃ t, exec (.jmp o) s = .next t := by
  show ∃ t, execJmp o s = .next t
  simp only [execJmp]; exact sExec_next h _ _ _ _
theorem call (o : BitVec 26) {s : State} {j : Job} (h : jobAt s s.turnJob = some j) : ∃ t, exec (.call o) s = .next t := by
  show ∃ t, execCall o s = .next t
  simp only [execCall]; exact sExec_next h _ _ _ _
theorem jr (a : BitVec 6) {s : State} {j : Job} (h : jobAt s s.turnJob = some j) : ∃ t, exec (.jr a) s = .next t := by
  show ∃ t, execJr a s = .next t
  simp only [execJr]; exact sExec_next h _ _ _ _
theorem ld (d : BitVec 6) (a : BitVec 6) (w : BitVec 2) (k : BitVec 1) (x : BitVec 1) (o : BitVec 10) {s : State} {j : Job} (h : jobAt s s.turnJob = some j) : ∃ t, exec (.ld d a w k x o) s = .next t := by
  show ∃ t, execLd d a w k x o s = .next t
  simp only [execLd]; exact sExec_next h _ _ _ _
theorem st (d : BitVec 6) (a : BitVec 6) (w : BitVec 2) (k : BitVec 1) (o : BitVec 10) {s : State} {j : Job} (h : jobAt s s.turnJob = some j) : ∃ t, exec (.st d a w k o) s = .next t := by
  show ∃ t, execSt d a w k o s = .next t
  simp only [execSt]; exact sExec_next h _ _ _ _
theorem ldm (d : BitVec 6) (a : BitVec 6) (n : BitVec 3) (o : BitVec 8) {s : State} {j : Job} (h : jobAt s s.turnJob = some j) : ∃ t, exec (.ldm d a n o) s = .next t := by
  show ∃ t, execLdm d a n o s = .next t
  simp only [execLdm]; exact sExec_next h _ _ _ _
theorem stm (d : BitVec 6) (a : BitVec 6) (n : BitVec 3) (o : BitVec 8) {s : State} {j : Job} (h : jobAt s s.turnJob = some j) : ∃ t, exec (.stm d a n o) s = .next t := by
  show ∃ t, execStm d a n o s = .next t
  simp only [execStm]; exact sExec_next h _ _ _ _
theorem lda (d : BitVec 6) (a : BitVec 6) (w : BitVec 2) (sc : BitVec 3) (o : BitVec 9) {s : State} {j : Job} (h : jobAt s s.turnJob = some j) : ∃ t, exec (.lda d a w sc o) s = .next t := by
  show ∃ t, execLda d a w sc o s = .next t
  simp only [execLda]; exact sExec_next h _ _ _ _
theorem stl (d : BitVec 6) (a : BitVec 6) (w : BitVec 2) (sc : BitVec 3) (o : BitVec 9) {s : State} {j : Job} (h : jobAt s s.turnJob = some j) : ∃ t, exec (.stl d a w sc o) s = .next t := by
  show ∃ t, execStl d a w sc o s = .next t
  simp only [execStl]; exact sExec_next h _ _ _ _
theorem throw (d : BitVec 6) (a : BitVec 6) (b : BitVec 6) (w : BitVec 2) (sc : BitVec 3) {s : State} {j : Job} (h : jobAt s s.turnJob = some j) : ∃ t, exec (.throw d a b w sc) s = .next t := by
  show ∃ t, execThrow d a b w sc s = .next t
  simp only [execThrow]; exact sExec_next h _ _ _ _
theorem pref (a : BitVec 6) (sc : BitVec 3) (o : BitVec 9) {s : State} {j : Job} (h : jobAt s s.turnJob = some j) : ∃ t, exec (.pref a sc o) s = .next t := by
  show ∃ t, execPref a sc o s = .next t
  simp only [execPref]; exact sExec_next h _ _ _ _
theorem spl (d : BitVec 6) (n : BitVec 9) {s : State} {j : Job} (h : jobAt s s.turnJob = some j) : ∃ t, exec (.spl d n) s = .next t := by
  show ∃ t, execSpl d n s = .next t
  simp only [execSpl]; exact sExec_next h _ _ _ _
theorem sps (d : BitVec 6) (n : BitVec 9) {s : State} {j : Job} (h : jobAt s s.turnJob = some j) : ∃ t, exec (.sps d n) s = .next t := by
  show ∃ t, execSps d n s = .next t
  simp only [execSps]; exact sExec_next h _ _ _ _
theorem qpush (a : BitVec 6) (q : BitVec 6) {s : State} {j : Job} (h : jobAt s s.turnJob = some j) : ∃ t, exec (.qpush a q) s = .next t := by
  show ∃ t, execQpush a q s = .next t
  simp only [execQpush]; exact sExec_next h _ _ _ _
theorem qpop (d : BitVec 6) (q : BitVec 6) {s : State} {j : Job} (h : jobAt s s.turnJob = some j) : ∃ t, exec (.qpop d q) s = .next t := by
  show ∃ t, execQpop d q s = .next t
  simp only [execQpop]; exact sExec_next h _ _ _ _
theorem qcnt (d : BitVec 6) (q : BitVec 6) {s : State} {j : Job} (h : jobAt s s.turnJob = some j) : ∃ t, exec (.qcnt d q) s = .next t := by
  show ∃ t, execQcnt d q s = .next t
  simp only [execQcnt]; exact sExec_next h _ _ _ _
theorem fence (sc : BitVec 3) (src : BitVec 8) (dst : BitVec 8) (k : BitVec 2) {s : State} {j : Job} (h : jobAt s s.turnJob = some j) : ∃ t, exec (.fence sc src dst k) s = .next t := by
  show ∃ t, execFence sc src dst k s = .next t
  simp only [execFence]; exact sExec_next h _ _ _ _
theorem fenceRetire (j : Nat) (s : State) : ∃ t, exec (.fenceRetire j) s = .next t := by
  show ∃ t, execFenceRetire j s = .next t
  simp only [execFenceRetire]; repeat' (first | with_reducible exact ⟨_, rfl⟩ | split)
theorem waitMemeq (a : BitVec 6) (b : BitVec 6) (sc : BitVec 3) {s : State} {j : Job} (h : jobAt s s.turnJob = some j) : ∃ t, exec (.waitMemeq a b sc) s = .next t := by
  show ∃ t, execWaitMemeq a b sc s = .next t
  simp only [execWaitMemeq, waitMem]; exact sExec_next h _ _ _ _
theorem waitMemge (a : BitVec 6) (b : BitVec 6) (sc : BitVec 3) {s : State} {j : Job} (h : jobAt s s.turnJob = some j) : ∃ t, exec (.waitMemge a b sc) s = .next t := by
  show ∃ t, execWaitMemge a b sc s = .next t
  simp only [execWaitMemge, waitMem]; exact sExec_next h _ _ _ _
theorem waitNm (a : BitVec 6) {s : State} {j : Job} (h : jobAt s s.turnJob = some j) : ∃ t, exec (.waitNm a) s = .next t := by
  show ∃ t, execWaitNm a s = .next t
  simp only [execWaitNm]; exact sExec_next h _ _ _ _
theorem waitIngr (a : BitVec 6) (b : BitVec 6) {s : State} {j : Job} (h : jobAt s s.turnJob = some j) : ∃ t, exec (.waitIngr a b) s = .next t := by
  show ∃ t, execWaitIngr a b s = .next t
  simp only [execWaitIngr]; exact sExec_next h _ _ _ _
theorem waitReevaluate (j : Nat) (s : State) : ∃ t, exec (.waitReevaluate j) s = .next t := by
  show ∃ t, execWaitReevaluate j s = .next t
  simp only [execWaitReevaluate]; repeat' (first | with_reducible exact ⟨_, rfl⟩ | split)
theorem rdv (m : BitVec 3) {s : State} {j : Job} (h : jobAt s s.turnJob = some j) : ∃ t, exec (.rdv m) s = .next t := by
  show ∃ t, execRdv m s = .next t
  simp only [execRdv]; exact sExec_next h _ _ _ _
theorem joinComplete (j : Nat) (s : State) : ∃ t, exec (.joinComplete j) s = .next t := by
  show ∃ t, execJoinComplete j s = .next t
  simp only [execJoinComplete]; repeat' (first | with_reducible exact ⟨_, rfl⟩ | split)
theorem haltRetire (j : Nat) (s : State) : ∃ t, exec (.haltRetire j) s = .next t := by
  show ∃ t, execHaltRetire j s = .next t
  simp only [execHaltRetire]; repeat' (first | with_reducible exact ⟨_, rfl⟩ | split)
theorem barc (i : BitVec 4) {s : State} {j : Job} (h : jobAt s s.turnJob = some j) : ∃ t, exec (.barc i) s = .next t := by
  show ∃ t, execBarc i s = .next t
  simp only [execBarc]; exact sExec_next h _ _ _ _
theorem barrierComplete (cl : Nat) (launch : Nat) (id : Nat) (s : State) : ∃ t, exec (.barrierComplete cl launch id) s = .next t := by
  show ∃ t, execBarrierComplete cl launch id s = .next t
  simp only [execBarrierComplete]; repeat' (first | with_reducible exact ⟨_, rfl⟩ | split)
theorem rbeg (o : BitVec 26) {s : State} {j : Job} (h : jobAt s s.turnJob = some j) : ∃ t, exec (.rbeg o) s = .next t := by
  show ∃ t, execRbeg o s = .next t
  simp only [execRbeg]; exact sExec_next h _ _ _ _
theorem rcom (d : BitVec 6) {s : State} {j : Job} (h : jobAt s s.turnJob = some j) : ∃ t, exec (.rcom d) s = .next t := by
  show ∃ t, execRcom d s = .next t
  simp only [execRcom]; exact sExec_next h _ _ _ _
theorem regionCommit (j : Nat) (s : State) : ∃ t, exec (.regionCommit j) s = .next t := by
  show ∃ t, execRegionCommit j s = .next t
  simp only [execRegionCommit]; repeat' (first | with_reducible exact ⟨_, rfl⟩ | split)
theorem rabt (c : BitVec 8) {s : State} {j : Job} (h : jobAt s s.turnJob = some j) : ∃ t, exec (.rabt c) s = .next t := by
  show ∃ t, execRabt c s = .next t
  simp only [execRabt]; exact sExec_next h _ _ _ _
theorem rbndLo (d : BitVec 6) {s : State} {j : Job} (h : jobAt s s.turnJob = some j) : ∃ t, exec (.rbndLo d) s = .next t := by
  show ∃ t, execRbndLo d s = .next t
  simp only [execRbndLo]; exact sExec_next h _ _ _ _
theorem rbndHi (d : BitVec 6) {s : State} {j : Job} (h : jobAt s s.turnJob = some j) : ∃ t, exec (.rbndHi d) s = .next t := by
  show ∃ t, execRbndHi d s = .next t
  simp only [execRbndHi]; exact sExec_next h _ _ _ _
theorem nmgo (d : BitVec 6) (a : BitVec 6) {s : State} {j : Job} (h : jobAt s s.turnJob = some j) : ∃ t, exec (.nmgo d a) s = .next t := by
  show ∃ t, execNmgo d a s = .next t
  simp only [execNmgo]; exact sExec_next h _ _ _ _
theorem nmwt (d : BitVec 6) (a : BitVec 6) {s : State} {j : Job} (h : jobAt s s.turnJob = some j) : ∃ t, exec (.nmwt d a) s = .next t := by
  show ∃ t, execNmwt d a s = .next t
  simp only [execNmwt]; exact sExec_next h _ _ _ _
theorem spawn (d : BitVec 6) (a : BitVec 6) (b : BitVec 6) {s : State} {j : Job} (h : jobAt s s.turnJob = some j) : ∃ t, exec (.spawn d a b) s = .next t := by
  show ∃ t, execSpawn d a b s = .next t
  simp only [execSpawn]; exact sExec_next h _ _ _ _
theorem wgen (d : BitVec 6) (a : BitVec 6) {s : State} {j : Job} (h : jobAt s s.turnJob = some j) : ∃ t, exec (.wgen d a) s = .next t := by
  show ∃ t, execWgen d a s = .next t
  simp only [execWgen]; exact sExec_next h _ _ _ _
theorem csrr (d : BitVec 6) (c : BitVec 12) {s : State} {j : Job} (h : jobAt s s.turnJob = some j) : ∃ t, exec (.csrr d c) s = .next t := by
  show ∃ t, execCsrr d c s = .next t
  simp only [execCsrr]; exact sExec_next h _ _ _ _
theorem csrw (a : BitVec 6) (c : BitVec 12) {s : State} {j : Job} (h : jobAt s s.turnJob = some j) : ∃ t, exec (.csrw a c) s = .next t := by
  show ∃ t, execCsrw a c s = .next t
  simp only [execCsrw]; exact sExec_next h _ _ _ _
theorem trap (i : BitVec 20) {s : State} {j : Job} (h : jobAt s s.turnJob = some j) : ∃ t, exec (.trap i) s = .next t := by
  show ∃ t, execTrap i s = .next t
  simp only [execTrap, service]; exact sExec_next h _ _ _ _
theorem replayEnd (j : Nat) (s : State) : ∃ t, exec (.replayEnd j) s = .next t := by
  show ∃ t, execReplayEnd j s = .next t
  simp only [execReplayEnd]
  split
  · exact ⟨_, rfl⟩
  · split
    · exact ⟨_, rfl⟩
    · generalize areaMoves _ _ _ _ _ = b
      repeat' (first | with_reducible exact ⟨_, rfl⟩ | split)
theorem unassignedFirmwareService (i : BitVec 20) {s : State} {j : Job} (h : jobAt s s.turnJob = some j) : ∃ t, exec (.unassignedFirmwareService i) s = .next t := by
  show ∃ t, execUnassignedFirmwareService i s = .next t
  simp only [execUnassignedFirmwareService, service]; exact sExec_next h _ _ _ _
theorem vshape (w : EWord) {s : State} {j : Job} (h : jobAt s s.turnJob = some j) : ∃ t, exec (.vshape w) s = .next t := by
  show ∃ t, execVshape w s = .next t
  simp only [execVshape]; exact eExec_next h _ _ _ _
theorem vadd (w : EWord) {s : State} {j : Job} (h : jobAt s s.turnJob = some j) : ∃ t, exec (.vadd w) s = .next t := by
  show ∃ t, execVadd w s = .next t
  simp only [execVadd]; exact eExec_next h _ _ _ _
theorem vsub (w : EWord) {s : State} {j : Job} (h : jobAt s s.turnJob = some j) : ∃ t, exec (.vsub w) s = .next t := by
  show ∃ t, execVsub w s = .next t
  simp only [execVsub]; exact eExec_next h _ _ _ _
theorem vmul (w : EWord) {s : State} {j : Job} (h : jobAt s s.turnJob = some j) : ∃ t, exec (.vmul w) s = .next t := by
  show ∃ t, execVmul w s = .next t
  simp only [execVmul]; exact eExec_next h _ _ _ _
theorem vfma (w : EWord) {s : State} {j : Job} (h : jobAt s s.turnJob = some j) : ∃ t, exec (.vfma w) s = .next t := by
  show ∃ t, execVfma w s = .next t
  simp only [execVfma]; exact eExec_next h _ _ _ _
theorem vmin (w : EWord) {s : State} {j : Job} (h : jobAt s s.turnJob = some j) : ∃ t, exec (.vmin w) s = .next t := by
  show ∃ t, execVmin w s = .next t
  simp only [execVmin]; exact eExec_next h _ _ _ _
theorem vmax (w : EWord) {s : State} {j : Job} (h : jobAt s s.turnJob = some j) : ∃ t, exec (.vmax w) s = .next t := by
  show ∃ t, execVmax w s = .next t
  simp only [execVmax]; exact eExec_next h _ _ _ _
theorem vabs (w : EWord) {s : State} {j : Job} (h : jobAt s s.turnJob = some j) : ∃ t, exec (.vabs w) s = .next t := by
  show ∃ t, execVabs w s = .next t
  simp only [execVabs]; exact eExec_next h _ _ _ _
theorem vneg (w : EWord) {s : State} {j : Job} (h : jobAt s s.turnJob = some j) : ∃ t, exec (.vneg w) s = .next t := by
  show ∃ t, execVneg w s = .next t
  simp only [execVneg]; exact eExec_next h _ _ _ _
theorem vand (w : EWord) {s : State} {j : Job} (h : jobAt s s.turnJob = some j) : ∃ t, exec (.vand w) s = .next t := by
  show ∃ t, execVand w s = .next t
  simp only [execVand]; exact eExec_next h _ _ _ _
theorem vor (w : EWord) {s : State} {j : Job} (h : jobAt s s.turnJob = some j) : ∃ t, exec (.vor w) s = .next t := by
  show ∃ t, execVor w s = .next t
  simp only [execVor]; exact eExec_next h _ _ _ _
theorem vxor (w : EWord) {s : State} {j : Job} (h : jobAt s s.turnJob = some j) : ∃ t, exec (.vxor w) s = .next t := by
  show ∃ t, execVxor w s = .next t
  simp only [execVxor]; exact eExec_next h _ _ _ _
theorem vshl (w : EWord) {s : State} {j : Job} (h : jobAt s s.turnJob = some j) : ∃ t, exec (.vshl w) s = .next t := by
  show ∃ t, execVshl w s = .next t
  simp only [execVshl]; exact eExec_next h _ _ _ _
theorem vshr (w : EWord) {s : State} {j : Job} (h : jobAt s s.turnJob = some j) : ∃ t, exec (.vshr w) s = .next t := by
  show ∃ t, execVshr w s = .next t
  simp only [execVshr]; exact eExec_next h _ _ _ _
theorem vcmp (w : EWord) {s : State} {j : Job} (h : jobAt s s.turnJob = some j) : ∃ t, exec (.vcmp w) s = .next t := by
  show ∃ t, execVcmp w s = .next t
  simp only [execVcmp]; exact eExec_next h _ _ _ _
theorem vsel (w : EWord) {s : State} {j : Job} (h : jobAt s s.turnJob = some j) : ∃ t, exec (.vsel w) s = .next t := by
  show ∃ t, execVsel w s = .next t
  simp only [execVsel]; exact eExec_next h _ _ _ _
theorem vcvt (w : EWord) {s : State} {j : Job} (h : jobAt s s.turnJob = some j) : ∃ t, exec (.vcvt w) s = .next t := by
  show ∃ t, execVcvt w s = .next t
  simp only [execVcvt]; exact eExec_next h _ _ _ _
theorem vqnt (w : EWord) {s : State} {j : Job} (h : jobAt s s.turnJob = some j) : ∃ t, exec (.vqnt w) s = .next t := by
  show ∃ t, execVqnt w s = .next t
  simp only [execVqnt]; exact eExec_next h _ _ _ _
theorem vdq (w : EWord) {s : State} {j : Job} (h : jobAt s s.turnJob = some j) : ∃ t, exec (.vdq w) s = .next t := by
  show ∃ t, execVdq w s = .next t
  simp only [execVdq]; exact eExec_next h _ _ _ _
theorem vexp (w : EWord) {s : State} {j : Job} (h : jobAt s s.turnJob = some j) : ∃ t, exec (.vexp w) s = .next t := by
  show ∃ t, execVexp w s = .next t
  simp only [execVexp]; exact eExec_next h _ _ _ _
theorem vrcp (w : EWord) {s : State} {j : Job} (h : jobAt s s.turnJob = some j) : ∃ t, exec (.vrcp w) s = .next t := by
  show ∃ t, execVrcp w s = .next t
  simp only [execVrcp]; exact eExec_next h _ _ _ _
theorem vrsq (w : EWord) {s : State} {j : Job} (h : jobAt s s.turnJob = some j) : ∃ t, exec (.vrsq w) s = .next t := by
  show ∃ t, execVrsq w s = .next t
  simp only [execVrsq]; exact eExec_next h _ _ _ _
theorem vtanh (w : EWord) {s : State} {j : Job} (h : jobAt s s.turnJob = some j) : ∃ t, exec (.vtanh w) s = .next t := by
  show ∃ t, execVtanh w s = .next t
  simp only [execVtanh]; exact eExec_next h _ _ _ _
theorem vred (w : EWord) {s : State} {j : Job} (h : jobAt s s.turnJob = some j) : ∃ t, exec (.vred w) s = .next t := by
  show ∃ t, execVred w s = .next t
  simp only [execVred]; exact eExec_next h _ _ _ _
theorem vscan (w : EWord) {s : State} {j : Job} (h : jobAt s s.turnJob = some j) : ∃ t, exec (.vscan w) s = .next t := by
  show ∃ t, execVscan w s = .next t
  simp only [execVscan]; exact eExec_next h _ _ _ _
theorem vgmax (w : EWord) {s : State} {j : Job} (h : jobAt s s.turnJob = some j) : ∃ t, exec (.vgmax w) s = .next t := by
  show ∃ t, execVgmax w s = .next t
  simp only [execVgmax]; exact eExec_next h _ _ _ _
theorem vtopk (w : EWord) {s : State} {j : Job} (h : jobAt s s.turnJob = some j) : ∃ t, exec (.vtopk w) s = .next t := by
  show ∃ t, execVtopk w s = .next t
  simp only [execVtopk]; exact eExec_next h _ _ _ _
theorem vnorm (w : EWord) {s : State} {j : Job} (h : jobAt s s.turnJob = some j) : ∃ t, exec (.vnorm w) s = .next t := by
  show ∃ t, execVnorm w s = .next t
  simp only [execVnorm]; exact eExec_next h _ _ _ _
theorem vcopy (w : EWord) {s : State} {j : Job} (h : jobAt s s.turnJob = some j) : ∃ t, exec (.vcopy w) s = .next t := by
  show ∃ t, execVcopy w s = .next t
  simp only [execVcopy]; exact eExec_next h _ _ _ _
theorem vfill (w : EWord) {s : State} {j : Job} (h : jobAt s s.turnJob = some j) : ∃ t, exec (.vfill w) s = .next t := by
  show ∃ t, execVfill w s = .next t
  simp only [execVfill]; exact eExec_next h _ _ _ _
theorem viota (w : EWord) {s : State} {j : Job} (h : jobAt s s.turnJob = some j) : ∃ t, exec (.viota w) s = .next t := by
  show ∃ t, execViota w s = .next t
  simp only [execViota]; exact eExec_next h _ _ _ _
theorem vgath (w : EWord) {s : State} {j : Job} (h : jobAt s s.turnJob = some j) : ∃ t, exec (.vgath w) s = .next t := by
  show ∃ t, execVgath w s = .next t
  simp only [execVgath]; exact eExec_next h _ _ _ _
theorem vscat (w : EWord) {s : State} {j : Job} (h : jobAt s s.turnJob = some j) : ∃ t, exec (.vscat w) s = .next t := by
  show ∃ t, execVscat w s = .next t
  simp only [execVscat]; exact eExec_next h _ _ _ _
theorem vtran (w : EWord) {s : State} {j : Job} (h : jobAt s s.turnJob = some j) : ∃ t, exec (.vtran w) s = .next t := by
  show ∃ t, execVtran w s = .next t
  simp only [execVtran]; exact eExec_next h _ _ _ _
theorem vmskAnd (w : EWord) {s : State} {j : Job} (h : jobAt s s.turnJob = some j) : ∃ t, exec (.vmskAnd w) s = .next t := by
  show ∃ t, execVmskAnd w s = .next t
  simp only [execVmskAnd]; exact eExec_next h _ _ _ _
theorem vmskOr (w : EWord) {s : State} {j : Job} (h : jobAt s s.turnJob = some j) : ∃ t, exec (.vmskOr w) s = .next t := by
  show ∃ t, execVmskOr w s = .next t
  simp only [execVmskOr]; exact eExec_next h _ _ _ _
theorem vmskXor (w : EWord) {s : State} {j : Job} (h : jobAt s s.turnJob = some j) : ∃ t, exec (.vmskXor w) s = .next t := by
  show ∃ t, execVmskXor w s = .next t
  simp only [execVmskXor]; exact eExec_next h _ _ _ _
theorem vmskAndn (w : EWord) {s : State} {j : Job} (h : jobAt s s.turnJob = some j) : ∃ t, exec (.vmskAndn w) s = .next t := by
  show ∃ t, execVmskAndn w s = .next t
  simp only [execVmskAndn]; exact eExec_next h _ _ _ _
theorem vmskNot (w : EWord) {s : State} {j : Job} (h : jobAt s s.turnJob = some j) : ∃ t, exec (.vmskNot w) s = .next t := by
  show ∃ t, execVmskNot w s = .next t
  simp only [execVmskNot]; exact eExec_next h _ _ _ _
theorem vmskFirst (w : EWord) {s : State} {j : Job} (h : jobAt s s.turnJob = some j) : ∃ t, exec (.vmskFirst w) s = .next t := by
  show ∃ t, execVmskFirst w s = .next t
  simp only [execVmskFirst]; exact eExec_next h _ _ _ _
theorem vmskCount (w : EWord) {s : State} {j : Job} (h : jobAt s s.turnJob = some j) : ∃ t, exec (.vmskCount w) s = .next t := by
  show ∃ t, execVmskCount w s = .next t
  simp only [execVmskCount]; exact eExec_next h _ _ _ _
theorem vmskLd (w : EWord) {s : State} {j : Job} (h : jobAt s s.turnJob = some j) : ∃ t, exec (.vmskLd w) s = .next t := by
  show ∃ t, execVmskLd w s = .next t
  simp only [execVmskLd]; exact eExec_next h _ _ _ _
theorem vmskSt (w : EWord) {s : State} {j : Job} (h : jobAt s s.turnJob = some j) : ∃ t, exec (.vmskSt w) s = .next t := by
  show ∃ t, execVmskSt w s = .next t
  simp only [execVmskSt]; exact eExec_next h _ _ _ _
theorem vectorWordRetire (j : Nat) (s : State) : ∃ t, exec (.vectorWordRetire j) s = .next t := by
  show ∃ t, execVectorWordRetire j s = .next t
  simp only [execVectorWordRetire]; repeat' (first | with_reducible exact ⟨_, rfl⟩ | split)
theorem mshape (w : MWord) {s : State} {j : Job} (h : jobAt s s.turnJob = some j) : ∃ t, exec (.mshape w) s = .next t := by
  show ∃ t, execMshape w s = .next t
  simp only [execMshape]; exact eExec_next h _ _ _ _
theorem mma (w : MWord) {s : State} {j : Job} (h : jobAt s s.turnJob = some j) : ∃ t, exec (.mma w) s = .next t := by
  show ∃ t, execMma w s = .next t
  simp only [execMma]; exact eExec_next h _ _ _ _
theorem mmas (w : MWord) {s : State} {j : Job} (h : jobAt s s.turnJob = some j) : ∃ t, exec (.mmas w) s = .next t := by
  show ∃ t, execMmas w s = .next t
  simp only [execMmas]; exact eExec_next h _ _ _ _
theorem mlda (w : MWord) {s : State} {j : Job} (h : jobAt s s.turnJob = some j) : ∃ t, exec (.mlda w) s = .next t := by
  show ∃ t, execMlda w s = .next t
  simp only [execMlda]; exact eExec_next h _ _ _ _
theorem mclm (w : MWord) {s : State} {j : Job} (h : jobAt s s.turnJob = some j) : ∃ t, exec (.mclm w) s = .next t := by
  show ∃ t, execMclm w s = .next t
  simp only [execMclm]; exact eExec_next h _ _ _ _
theorem mrel (w : MWord) {s : State} {j : Job} (h : jobAt s s.turnJob = some j) : ∃ t, exec (.mrel w) s = .next t := by
  show ∃ t, execMrel w s = .next t
  simp only [execMrel]; exact eExec_next h _ _ _ _
theorem macr (w : MWord) {s : State} {j : Job} (h : jobAt s s.turnJob = some j) : ∃ t, exec (.macr w) s = .next t := by
  show ∃ t, execMacr w s = .next t
  simp only [execMacr]; exact eExec_next h _ _ _ _
theorem mzero (w : MWord) {s : State} {j : Job} (h : jobAt s s.turnJob = some j) : ∃ t, exec (.mzero w) s = .next t := by
  show ∃ t, execMzero w s = .next t
  simp only [execMzero]; exact eExec_next h _ _ _ _
theorem mfill (w : MWord) {s : State} {j : Job} (h : jobAt s s.turnJob = some j) : ∃ t, exec (.mfill w) s = .next t := by
  show ∃ t, execMfill w s = .next t
  simp only [execMfill]; exact eExec_next h _ _ _ _
theorem mpin (w : MWord) {s : State} {j : Job} (h : jobAt s s.turnJob = some j) : ∃ t, exec (.mpin w) s = .next t := by
  show ∃ t, execMpin w s = .next t
  simp only [execMpin]; exact eExec_next h _ _ _ _
theorem munp (w : MWord) {s : State} {j : Job} (h : jobAt s s.turnJob = some j) : ∃ t, exec (.munp w) s = .next t := by
  show ∃ t, execMunp w s = .next t
  simp only [execMunp]; exact eExec_next h _ _ _ _
theorem minv (w : MWord) {s : State} {j : Job} (h : jobAt s s.turnJob = some j) : ∃ t, exec (.minv w) s = .next t := by
  show ∃ t, execMinv w s = .next t
  simp only [execMinv]; exact eExec_next h _ _ _ _
theorem mqry (w : MWord) {s : State} {j : Job} (h : jobAt s s.turnJob = some j) : ∃ t, exec (.mqry w) s = .next t := by
  show ∃ t, execMqry w s = .next t
  simp only [execMqry]; exact eExec_next h _ _ _ _
theorem mrep (w : MWord) {s : State} {j : Job} (h : jobAt s s.turnJob = some j) : ∃ t, exec (.mrep w) s = .next t := by
  show ∃ t, execMrep w s = .next t
  simp only [execMrep]; exact eExec_next h _ _ _ _
theorem mlse (w : MWord) {s : State} {j : Job} (h : jobAt s s.turnJob = some j) : ∃ t, exec (.mlse w) s = .next t := by
  show ∃ t, execMlse w s = .next t
  simp only [execMlse]; exact eExec_next h _ _ _ _
theorem leaseGrant (cl : Nat) (s : State) : ∃ t, exec (.leaseGrant cl) s = .next t := by
  show ∃ t, execLeaseGrant cl s = .next t
  simp only [execLeaseGrant]; repeat' (first | with_reducible exact ⟨_, rfl⟩ | split)
theorem leaseBudgetExhausted (cl : Nat) (s : State) : ∃ t, exec (.leaseBudgetExhausted cl) s = .next t := by
  show ∃ t, execLeaseBudgetExhausted cl s = .next t
  simp only [execLeaseBudgetExhausted]; repeat' (first | with_reducible exact ⟨_, rfl⟩ | split)
theorem mlrl (w : MWord) {s : State} {j : Job} (h : jobAt s s.turnJob = some j) : ∃ t, exec (.mlrl w) s = .next t := by
  show ∃ t, execMlrl w s = .next t
  simp only [execMlrl]; exact eExec_next h _ _ _ _
theorem mthr (w : MWord) {s : State} {j : Job} (h : jobAt s s.turnJob = some j) : ∃ t, exec (.mthr w) s = .next t := by
  show ∃ t, execMthr w s = .next t
  simp only [execMthr]; exact eExec_next h _ _ _ _
theorem frameFillComplete (cl : Nat) (fr : Nat) (s : State) : ∃ t, exec (.frameFillComplete cl fr) s = .next t := by
  show ∃ t, execFrameFillComplete cl fr s = .next t
  simp only [execFrameFillComplete]; repeat' (first | with_reducible exact ⟨_, rfl⟩ | split)
theorem frameCopyComplete (cl : Nat) (fr : Nat) (s : State) : ∃ t, exec (.frameCopyComplete cl fr) s = .next t := by
  show ∃ t, execFrameCopyComplete cl fr s = .next t
  simp only [execFrameCopyComplete]; repeat' (first | with_reducible exact ⟨_, rfl⟩ | split)
theorem hardwareReplica (cl : Nat) (fr : Nat) (s : State) : ∃ t, exec (.hardwareReplica cl fr) s = .next t := by
  show ∃ t, execHardwareReplica cl fr s = .next t
  simp only [execHardwareReplica]; repeat' (first | with_reducible exact ⟨_, rfl⟩ | split)
theorem matrixWordRetire (j : Nat) (s : State) : ∃ t, exec (.matrixWordRetire j) s = .next t := by
  show ∃ t, execMatrixWordRetire j s = .next t
  simp only [execMatrixWordRetire]; repeat' (first | with_reducible exact ⟨_, rfl⟩ | split)
theorem cpy (w : EWord) {s : State} {j : Job} (h : jobAt s s.turnJob = some j) : ∃ t, exec (.cpy w) s = .next t := by
  show ∃ t, execCpy w s = .next t
  simp only [execCpy]; exact eExec_next h _ _ _ _
theorem cpyg (w : EWord) {s : State} {j : Job} (h : jobAt s s.turnJob = some j) : ∃ t, exec (.cpyg w) s = .next t := by
  show ∃ t, execCpyg w s = .next t
  simp only [execCpyg]; exact eExec_next h _ _ _ _
theorem cpyd (w : EWord) {s : State} {j : Job} (h : jobAt s s.turnJob = some j) : ∃ t, exec (.cpyd w) s = .next t := by
  show ∃ t, execCpyd w s = .next t
  simp only [execCpyd]; exact eExec_next h _ _ _ _
theorem cpym (w : EWord) {s : State} {j : Job} (h : jobAt s s.turnJob = some j) : ∃ t, exec (.cpym w) s = .next t := by
  show ∃ t, execCpym w s = .next t
  simp only [execCpym]; exact eExec_next h _ _ _ _
theorem prel (w : EWord) {s : State} {j : Job} (h : jobAt s s.turnJob = some j) : ∃ t, exec (.prel w) s = .next t := by
  show ∃ t, execPrel w s = .next t
  simp only [execPrel]; exact eExec_next h _ _ _ _
theorem dgst (w : EWord) {s : State} {j : Job} (h : jobAt s s.turnJob = some j) : ∃ t, exec (.dgst w) s = .next t := by
  show ∃ t, execDgst w s = .next t
  simp only [execDgst]; exact eExec_next h _ _ _ _
theorem cps (w : EWord) {s : State} {j : Job} (h : jobAt s s.turnJob = some j) : ∃ t, exec (.cps w) s = .next t := by
  show ∃ t, execCps w s = .next t
  simp only [execCps]; exact eExec_next h _ _ _ _
theorem acw (w : EWord) {s : State} {j : Job} (h : jobAt s s.turnJob = some j) : ∃ t, exec (.acw w) s = .next t := by
  show ∃ t, execAcw w s = .next t
  simp only [execAcw]; exact eExec_next h _ _ _ _
theorem acwf (w : EWord) {s : State} {j : Job} (h : jobAt s s.turnJob = some j) : ∃ t, exec (.acwf w) s = .next t := by
  show ∃ t, execAcwf w s = .next t
  simp only [execAcwf]; exact eExec_next h _ _ _ _
theorem cas (w : EWord) {s : State} {j : Job} (h : jobAt s s.turnJob = some j) : ∃ t, exec (.cas w) s = .next t := by
  show ∃ t, execCas w s = .next t
  simp only [execCas]; exact eExec_next h _ _ _ _
theorem cpst (w : EWord) {s : State} {j : Job} (h : jobAt s s.turnJob = some j) : ∃ t, exec (.cpst w) s = .next t := by
  show ∃ t, execCpst w s = .next t
  simp only [execCpst]; exact eExec_next h _ _ _ _
theorem scat (w : EWord) {s : State} {j : Job} (h : jobAt s s.turnJob = some j) : ∃ t, exec (.scat w) s = .next t := by
  show ∃ t, execScat w s = .next t
  simp only [execScat]; exact eExec_next h _ _ _ _
theorem flsh (w : EWord) {s : State} {j : Job} (h : jobAt s s.turnJob = some j) : ∃ t, exec (.flsh w) s = .next t := by
  show ∃ t, execFlsh w s = .next t
  simp only [execFlsh]; exact eExec_next h _ _ _ _
theorem invl (w : EWord) {s : State} {j : Job} (h : jobAt s s.turnJob = some j) : ∃ t, exec (.invl w) s = .next t := by
  show ∃ t, execInvl w s = .next t
  simp only [execInvl]; exact eExec_next h _ _ _ _
theorem engineWordRetire (j : Nat) (e : EStream) (s : State) : ∃ t, exec (.engineWordRetire j e) s = .next t := by
  show ∃ t, execEngineWordRetire j e s = .next t
  simp only [execEngineWordRetire]; repeat' (first | with_reducible exact ⟨_, rfl⟩ | split)
theorem aq (e : EStream) (w : EWord) {s : State} {j : Job} (h : jobAt s s.turnJob = some j) : ∃ t, exec (.aq e w) s = .next t := by
  show ∃ t, execAq e w s = .next t
  simp only [execAq]; exact eExec_next h _ _ _ _
theorem aset (e : EStream) (w : EWord) {s : State} {j : Job} (h : jobAt s s.turnJob = some j) : ∃ t, exec (.aset e w) s = .next t := by
  show ∃ t, execAset e w s = .next t
  simp only [execAset]; exact eExec_next h _ _ _ _
theorem aadd (e : EStream) (w : EWord) {s : State} {j : Job} (h : jobAt s s.turnJob = some j) : ∃ t, exec (.aadd e w) s = .next t := by
  show ∃ t, execAadd e w s = .next t
  simp only [execAadd]; exact eExec_next h _ _ _ _
theorem ejoin (e : EStream) (w : EWord) {s : State} {j : Job} (h : jobAt s s.turnJob = some j) : ∃ t, exec (.ejoin e w) s = .next t := by
  show ∃ t, execEjoin e w s = .next t
  simp only [execEjoin]; exact eExec_next h _ _ _ _
theorem enop (e : EStream) (w : EWord) {s : State} {j : Job} (h : jobAt s s.turnJob = some j) : ∃ t, exec (.enop e w) s = .next t := by
  show ∃ t, execEnop e w s = .next t
  simp only [execEnop]; exact eExec_next h _ _ _ _
theorem cshape (e : EStream) (w : EWord) {s : State} {j : Job} (h : jobAt s s.turnJob = some j) : ∃ t, exec (.cshape e w) s = .next t := by
  show ∃ t, execCshape e w s = .next t
  simp only [execCshape]; exact eExec_next h _ _ _ _
theorem loop (e : EStream) (w : EWord) {s : State} {j : Job} (h : jobAt s s.turnJob = some j) : ∃ t, exec (.loop e w) s = .next t := by
  show ∃ t, execLoop e w s = .next t
  simp only [execLoop]; exact eExec_next h _ _ _ _
theorem breakpointStop (j : Nat) (st : Stream) (n : Nat) (s : State) : ∃ t, exec (.breakpointStop j st n) s = .next t := by
  show ∃ t, execBreakpointStop j st n s = .next t
  simp only [execBreakpointStop]; repeat' (first | with_reducible exact ⟨_, rfl⟩ | split)
theorem jobDispatch (die : Nat) (s : State) : ∃ t, exec (.jobDispatch die) s = .next t := by
  show ∃ t, execJobDispatch die s = .next t
  simp only [execJobDispatch]; repeat' (first | with_reducible exact ⟨_, rfl⟩ | split)
theorem walkerSteal (launch : Nat) (die : Nat) (s : State) : ∃ t, exec (.walkerSteal launch die) s = .next t := by
  show ∃ t, execWalkerSteal launch die s = .next t
  simp only [execWalkerSteal]; repeat' (first | with_reducible exact ⟨_, rfl⟩ | split)
theorem tailReread (leaf : Nat) (s : State) : ∃ t, exec (.tailReread leaf) s = .next t := by
  show ∃ t, execTailReread leaf s = .next t
  simp only [execTailReread]; exact ⟨_, rfl⟩
theorem periodBoundary (node : Nat) (s : State) : ∃ t, exec (.periodBoundary node) s = .next t := by
  show ∃ t, execPeriodBoundary node s = .next t
  simp only [execPeriodBoundary]; repeat' (first | with_reducible exact ⟨_, rfl⟩ | split)
theorem ageLevelTick (launch : Nat) (s : State) : ∃ t, exec (.ageLevelTick launch) s = .next t := by
  show ∃ t, execAgeLevelTick launch s = .next t
  simp only [execAgeLevelTick]; repeat' (first | with_reducible exact ⟨_, rfl⟩ | split)
theorem launchComplete (launch : Nat) (s : State) : ∃ t, exec (.launchComplete launch) s = .next t := by
  show ∃ t, execLaunchComplete launch s = .next t
  simp only [execLaunchComplete]; repeat' (first | with_reducible exact ⟨_, rfl⟩ | split)
theorem preemptionRequest (j : Nat) (s : State) : ∃ t, exec (.preemptionRequest j) s = .next t := by
  show ∃ t, execPreemptionRequest j s = .next t
  simp only [execPreemptionRequest]; repeat' (first | with_reducible exact ⟨_, rfl⟩ | split)
theorem sliceExpiry (j : Nat) (s : State) : ∃ t, exec (.sliceExpiry j) s = .next t := by
  show ∃ t, execSliceExpiry j s = .next t
  simp only [execSliceExpiry]; repeat' (first | with_reducible exact ⟨_, rfl⟩ | split)
theorem graceExpiry (j : Nat) (s : State) : ∃ t, exec (.graceExpiry j) s = .next t := by
  show ∃ t, execGraceExpiry j s = .next t
  simp only [execGraceExpiry]; repeat' (first | with_reducible exact ⟨_, rfl⟩ | split)
theorem forcedCut (j : Nat) (s : State) : ∃ t, exec (.forcedCut j) s = .next t := by
  show ∃ t, execForcedCut j s = .next t
  simp only [execForcedCut]; repeat' (first | with_reducible exact ⟨_, rfl⟩ | split)
theorem contextSaveDone (j : Nat) (s : State) : ∃ t, exec (.contextSaveDone j) s = .next t := by
  have h : ∃ t, execContextSaveDone j s = .next t := by
    unfold execContextSaveDone
    split
    · exact ⟨_, rfl⟩
    · split
      · exact ⟨_, rfl⟩
      · split
        · exact ⟨_, rfl⟩
        · split
          · exact ⟨_, rfl⟩
          · extract_lets
            split
            · exact ⟨_, rfl⟩
            · split
              · exact ⟨_, rfl⟩
              · exact ⟨_, rfl⟩
              · split <;> exact ⟨_, rfl⟩
              · split <;> exact ⟨_, rfl⟩
  exact h
theorem saveDeadlineExpiry (j : Nat) (s : State) : ∃ t, exec (.saveDeadlineExpiry j) s = .next t := by
  show ∃ t, execSaveDeadlineExpiry j s = .next t
  simp only [execSaveDeadlineExpiry]; repeat' (first | with_reducible exact ⟨_, rfl⟩ | split)
theorem jobResume (launch : Nat) (ticket : Nat) (s : State) : ∃ t, exec (.jobResume launch ticket) s = .next t := by
  show ∃ t, execJobResume launch ticket s = .next t
  simp only [execJobResume]; repeat' (first | with_reducible exact ⟨_, rfl⟩ | split)
theorem hangWatchdog (j : Nat) (s : State) : ∃ t, exec (.hangWatchdog j) s = .next t := by
  show ∃ t, execHangWatchdog j s = .next t
  simp only [execHangWatchdog]; repeat' (first | with_reducible exact ⟨_, rfl⟩ | split)
theorem nmJobStart (m : Nat) (s : State) : ∃ t, exec (.nmJobStart m) s = .next t := by
  show ∃ t, execNmJobStart m s = .next t
  simp only [execNmJobStart]; repeat' (first | with_reducible exact ⟨_, rfl⟩ | split)
theorem nmJobComplete (m : Nat) (u : Nat) (s : State) : ∃ t, exec (.nmJobComplete m u) s = .next t := by
  show ∃ t, execNmJobComplete m u s = .next t
  simp only [execNmJobComplete]; repeat' (first | with_reducible exact ⟨_, rfl⟩ | split)
theorem nmWatchdogReset (m : Nat) (u : Nat) (s : State) : ∃ t, exec (.nmWatchdogReset m u) s = .next t := by
  show ∃ t, execNmWatchdogReset m u s = .next t
  simp only [execNmWatchdogReset]; repeat' (first | with_reducible exact ⟨_, rfl⟩ | split)
theorem activationAlert (m : Nat) (u : Nat) (row : Nat) (share : Nat) (total : Nat) (s : State) : ∃ t, exec (.activationAlert m u row share total) s = .next t := by
  show ∃ t, execActivationAlert m u row share total s = .next t
  simp only [execActivationAlert]; repeat' (first | with_reducible exact ⟨_, rfl⟩ | split)
theorem persistentRequest (line : Nat) (core : Nat) (s : State) : ∃ t, exec (.persistentRequest line core) s = .next t := by
  show ∃ t, execPersistentRequest line core s = .next t
  simp only [execPersistentRequest]; repeat' (first | with_reducible exact ⟨_, rfl⟩ | split)
theorem pageMoveRemap (f : Nat) (s : State) : ∃ t, exec (.pageMoveRemap f) s = .next t := by
  show ∃ t, execPageMoveRemap f s = .next t
  simp only [execPageMoveRemap]; repeat' (first | with_reducible exact ⟨_, rfl⟩ | split)
theorem freezeStallTimeout (j : Nat) (st : Stream) (s : State) : ∃ t, exec (.freezeStallTimeout j st) s = .next t := by
  show ∃ t, execFreezeStallTimeout j st s = .next t
  simp only [execFreezeStallTimeout]; repeat' (first | with_reducible exact ⟨_, rfl⟩ | split)
theorem weightRecheck (f : Nat) (s : State) : ∃ t, exec (.weightRecheck f) s = .next t := by
  show ∃ t, execWeightRecheck f s = .next t
  simp only [execWeightRecheck]; repeat' (first | with_reducible exact ⟨_, rfl⟩ | split)
theorem patrolScrub (die : Nat) (line : Nat) (bad : Bool) (s : State) : ∃ t, exec (.patrolScrub die line bad) s = .next t := by
  show ∃ t, execPatrolScrub die line bad s = .next t
  simp only [execPatrolScrub]; exact ⟨_, rfl⟩
theorem flitReceive (d m : Nat) (f : BitVec 2048) (s : State) : ∃ t, exec (.flitReceive d m f) s = .next t := by
  have h : ∃ t, execFlitReceive d m f s = .next t := by
    unfold execFlitReceive
    extract_lets
    split
    · exact ⟨_, rfl⟩
    · split
      · exact ⟨_, rfl⟩
      · exact ⟨_, rfl⟩
  exact h
theorem linkRetrain (die : Nat) (link : Nat) (rates : BitVec 8) (repaired : Nat) (s : State) : ∃ t, exec (.linkRetrain die link rates repaired) s = .next t := by
  show ∃ t, execLinkRetrain die link rates repaired s = .next t
  simp only [execLinkRetrain]; repeat' (first | with_reducible exact ⟨_, rfl⟩ | split)
theorem reqReadShared (m : Msg) (s : State) : ∃ t, exec (.reqReadShared m) s = .next t := by
  show ∃ t, execReqReadShared m s = .next t
  simp only [execReqReadShared, onMsg, atHome]; repeat' (first | with_reducible exact ⟨_, rfl⟩ | split)
theorem reqReadOwned (m : Msg) (s : State) : ∃ t, exec (.reqReadOwned m) s = .next t := by
  show ∃ t, execReqReadOwned m s = .next t
  simp only [execReqReadOwned, onMsg, atHome]; repeat' (first | with_reducible exact ⟨_, rfl⟩ | split)
theorem reqWrite (m : Msg) (s : State) : ∃ t, exec (.reqWrite m) s = .next t := by
  show ∃ t, execReqWrite m s = .next t
  simp only [execReqWrite, onMsg, atHome]; repeat' (first | with_reducible exact ⟨_, rfl⟩ | split)
theorem reqAtomic (m : Msg) (s : State) : ∃ t, exec (.reqAtomic m) s = .next t := by
  show ∃ t, execReqAtomic m s = .next t
  simp only [execReqAtomic, onMsg, atHome]; repeat' (first | with_reducible exact ⟨_, rfl⟩ | split)
theorem reqReleasePermission (m : Msg) (s : State) : ∃ t, exec (.reqReleasePermission m) s = .next t := by
  show ∃ t, execReqReleasePermission m s = .next t
  simp only [execReqReleasePermission, onMsg, atHome]; repeat' (first | with_reducible exact ⟨_, rfl⟩ | split)
theorem reqNearMemoryJob (m : Msg) (s : State) : ∃ t, exec (.reqNearMemoryJob m) s = .next t := by
  show ∃ t, execReqNearMemoryJob m s = .next t
  simp only [execReqNearMemoryJob, onMsg]; repeat' (first | with_reducible exact ⟨_, rfl⟩ | split)
theorem reqWalkerSteal (m : Msg) (s : State) : ∃ t, exec (.reqWalkerSteal m) s = .next t := by
  show ∃ t, execReqWalkerSteal m s = .next t
  simp only [execReqWalkerSteal, onMsg]; repeat' (first | with_reducible exact ⟨_, rfl⟩ | split)
theorem reqRegisterAccess (m : Msg) (s : State) : ∃ t, exec (.reqRegisterAccess m) s = .next t := by
  show ∃ t, execReqRegisterAccess m s = .next t
  simp only [execReqRegisterAccess, onMsg]; repeat' (first | with_reducible exact ⟨_, rfl⟩ | split)
theorem rspAck (m : Msg) (s : State) : ∃ t, exec (.rspAck m) s = .next t := by
  show ∃ t, execRspAck m s = .next t
  simp only [execRspAck, onMsg]; repeat' (first | with_reducible exact ⟨_, rfl⟩ | split)
theorem rspRetry (m : Msg) (s : State) : ∃ t, exec (.rspRetry m) s = .next t := by
  show ∃ t, execRspRetry m s = .next t
  simp only [execRspRetry, onMsg]; repeat' (first | with_reducible exact ⟨_, rfl⟩ | split)
theorem rspMoved (m : Msg) (s : State) : ∃ t, exec (.rspMoved m) s = .next t := by
  show ∃ t, execRspMoved m s = .next t
  simp only [execRspMoved, onMsg]; repeat' (first | with_reducible exact ⟨_, rfl⟩ | split)
theorem rspError (m : Msg) (s : State) : ∃ t, exec (.rspError m) s = .next t := by
  show ∃ t, execRspError m s = .next t
  simp only [execRspError, onMsg]; repeat' (first | with_reducible exact ⟨_, rfl⟩ | split)
theorem rspDataFollows (m : Msg) (s : State) : ∃ t, exec (.rspDataFollows m) s = .next t := by
  show ∃ t, execRspDataFollows m s = .next t
  simp only [execRspDataFollows, onMsg]; repeat' (first | with_reducible exact ⟨_, rfl⟩ | split)
theorem rspForcedPublishAck (m : Msg) (s : State) : ∃ t, exec (.rspForcedPublishAck m) s = .next t := by
  show ∃ t, execRspForcedPublishAck m s = .next t
  simp only [execRspForcedPublishAck, onMsg]; repeat' (first | with_reducible exact ⟨_, rfl⟩ | split)
theorem datLine (m : Msg) (s : State) : ∃ t, exec (.datLine m) s = .next t := by
  show ∃ t, execDatLine m s = .next t
  simp only [execDatLine, onMsg]; repeat' (first | with_reducible exact ⟨_, rfl⟩ | split)
theorem datPartialLine (m : Msg) (s : State) : ∃ t, exec (.datPartialLine m) s = .next t := by
  show ∃ t, execDatPartialLine m s = .next t
  simp only [execDatPartialLine, onMsg]; repeat' (first | with_reducible exact ⟨_, rfl⟩ | split)
theorem datPoisonedLine (m : Msg) (s : State) : ∃ t, exec (.datPoisonedLine m) s = .next t := by
  show ∃ t, execDatPoisonedLine m s = .next t
  simp only [execDatPoisonedLine, onMsg]; repeat' (first | with_reducible exact ⟨_, rfl⟩ | split)
theorem snpRecallOwner (m : Msg) (s : State) : ∃ t, exec (.snpRecallOwner m) s = .next t := by
  show ∃ t, execSnpRecallOwner m s = .next t
  simp only [execSnpRecallOwner, onMsg]; repeat' (first | with_reducible exact ⟨_, rfl⟩ | split)
theorem snpInvalidate (m : Msg) (s : State) : ∃ t, exec (.snpInvalidate m) s = .next t := by
  show ∃ t, execSnpInvalidate m s = .next t
  simp only [execSnpInvalidate, onMsg]; repeat' (first | with_reducible exact ⟨_, rfl⟩ | split)
theorem snpForcedPublish (m : Msg) (s : State) : ∃ t, exec (.snpForcedPublish m) s = .next t := by
  show ∃ t, execSnpForcedPublish m s = .next t
  simp only [execSnpForcedPublish, onMsg]; repeat' (first | with_reducible exact ⟨_, rfl⟩ | split)
theorem tokGrantShared (m : Msg) (s : State) : ∃ t, exec (.tokGrantShared m) s = .next t := by
  show ∃ t, execTokGrantShared m s = .next t
  simp only [execTokGrantShared, onMsg]; repeat' (first | with_reducible exact ⟨_, rfl⟩ | split)
theorem tokGrantOwned (m : Msg) (s : State) : ∃ t, exec (.tokGrantOwned m) s = .next t := by
  show ∃ t, execTokGrantOwned m s = .next t
  simp only [execTokGrantOwned, onMsg]; repeat' (first | with_reducible exact ⟨_, rfl⟩ | split)
theorem tokRevoke (m : Msg) (s : State) : ∃ t, exec (.tokRevoke m) s = .next t := by
  show ∃ t, execTokRevoke m s = .next t
  simp only [execTokRevoke, onMsg]; repeat' (first | with_reducible exact ⟨_, rfl⟩ | split)
theorem nrw (m : Msg) (s : State) : ∃ t, exec (.nrw m) s = .next t := by
  show ∃ t, execNrw m s = .next t
  simp only [execNrw]; repeat' (first | with_reducible exact ⟨_, rfl⟩ | split)
theorem pos (m : Msg) (s : State) : ∃ t, exec (.pos m) s = .next t := by
  show ∃ t, execPos m s = .next t
  simp only [execPos]; repeat' (first | with_reducible exact ⟨_, rfl⟩ | split)
theorem ingTokenRow (m : Msg) (s : State) : ∃ t, exec (.ingTokenRow m) s = .next t := by
  show ∃ t, execIngTokenRow m s = .next t
  simp only [execIngTokenRow, onMsg]; repeat' (first | with_reducible exact ⟨_, rfl⟩ | split)
theorem ingPickRecord (m : Msg) (s : State) : ∃ t, exec (.ingPickRecord m) s = .next t := by
  show ∃ t, execIngPickRecord m s = .next t
  simp only [execIngPickRecord, execIngPickRecord.pickArrives, onMsg]; repeat' (first | with_reducible exact ⟨_, rfl⟩ | split)
theorem throwDelivery (core : Nat) (line : Nat) (s : State) : ∃ t, exec (.throwDelivery core line) s = .next t := by
  show ∃ t, execThrowDelivery core line s = .next t
  simp only [execThrowDelivery]; repeat' (first | with_reducible exact ⟨_, rfl⟩ | split)
theorem hostRead (pa : Nat) (n : Nat) (s : State) : ∃ t, exec (.hostRead pa n) s = .next t := by
  show ∃ t, execHostRead pa n s = .next t
  simp only [execHostRead]; repeat' (first | with_reducible exact ⟨_, rfl⟩ | split)
theorem hostWrite (pa : Nat) (n : Nat) (data : BitVec 512) (s : State) : ∃ t, exec (.hostWrite pa n data) s = .next t := by
  show ∃ t, execHostWrite pa n data s = .next t
  simp only [execHostWrite]; repeat' (first | with_reducible exact ⟨_, rfl⟩ | split)
theorem hostFetchAdd (pa : Nat) (wide : Bool) (v : Word) (s : State) : ∃ t, exec (.hostFetchAdd pa wide v) s = .next t := by
  show ∃ t, execHostFetchAdd pa wide v s = .next t
  simp only [execHostFetchAdd]; exact ⟨_, rfl⟩
theorem hostSwap (pa : Nat) (wide : Bool) (v : Word) (s : State) : ∃ t, exec (.hostSwap pa wide v) s = .next t := by
  show ∃ t, execHostSwap pa wide v s = .next t
  simp only [execHostSwap]; exact ⟨_, rfl⟩
theorem hostCompareSwap (pa : Nat) (wide : Bool) (old : Word) (new : Word) (s : State) : ∃ t, exec (.hostCompareSwap pa wide old new) s = .next t := by
  show ∃ t, execHostCompareSwap pa wide old new s = .next t
  simp only [execHostCompareSwap]; exact ⟨_, rfl⟩
theorem tenRoot (n : BitVec 6) (v : Word) (s : State) : ∃ t, exec (.tenRoot n v) s = .next t := by
  show ∃ t, execTenRoot n v s = .next t
  simp only [execTenRoot]; exact ⟨_, rfl⟩
theorem tenKick (n : BitVec 6) (v : Word) (s : State) : ∃ t, exec (.tenKick n v) s = .next t := by
  show ∃ t, execTenKick n v s = .next t
  simp only [execTenKick]; exact ⟨_, rfl⟩
theorem domRst (f : BitVec 12) (v : Word) (s : State) : ∃ t, exec (.domRst f v) s = .next t := by
  show ∃ t, execDomRst f v s = .next t
  simp only [execDomRst]; exact ⟨_, rfl⟩
theorem domainResetDone (f : BitVec 12) (s : State) : ∃ t, exec (.domainResetDone f) s = .next t := by
  show ∃ t, execDomainResetDone f s = .next t
  simp only [execDomainResetDone]; repeat' (first | with_reducible exact ⟨_, rfl⟩ | split)
theorem xlInv (f : BitVec 12) (v : Word) (s : State) : ∃ t, exec (.xlInv f v) s = .next t := by
  show ∃ t, execXlInv f v s = .next t
  simp only [execXlInv]; exact ⟨_, rfl⟩
theorem xlMig (f : BitVec 12) (v : Word) (s : State) : ∃ t, exec (.xlMig f v) s = .next t := by
  show ∃ t, execXlMig f v s = .next t
  simp only [execXlMig]; exact ⟨_, rfl⟩
theorem errPop (die : BitVec 5) (v : Word) (s : State) : ∃ t, exec (.errPop die v) s = .next t := by
  show ∃ t, execErrPop die v s = .next t
  simp only [execErrPop]; exact ⟨_, rfl⟩
theorem fwinWrite (n : BitVec 4) (r : BitVec 2) (v : Word) (s : State) : ∃ t, exec (.fwinWrite n r v) s = .next t := by
  show ∃ t, execFwinWrite n r v s = .next t
  simp only [execFwinWrite]; exact ⟨_, rfl⟩
theorem registerWrite (pa : Nat) (v : Word) (s : State) : ∃ t, exec (.registerWrite pa v) s = .next t := by
  have h : ∃ t, execRegisterWrite pa v s = .next t := by
    unfold execRegisterWrite
    split <;> exact ⟨_, rfl⟩
  exact h
theorem clockStep (die : Nat) (up : Bool) (s : State) : ∃ t, exec (.clockStep die up) s = .next t := by
  show ∃ t, execClockStep die up s = .next t
  simp only [execClockStep]; repeat' (first | with_reducible exact ⟨_, rfl⟩ | split)
theorem thermalThrottle (die : Nat) (s : State) : ∃ t, exec (.thermalThrottle die) s = .next t := by
  show ∃ t, execThermalThrottle die s = .next t
  simp only [execThermalThrottle]; exact ⟨_, rfl⟩
theorem thermalStop (die : Nat) (s : State) : ∃ t, exec (.thermalStop die) s = .next t := by
  show ∃ t, execThermalStop die s = .next t
  simp only [execThermalStop]; exact ⟨_, rfl⟩
theorem copyTrapInFlight (j : Nat) (e : EStream) (s : State) : ∃ t, exec (.copyTrapInFlight j e) s = .next t := by
  show ∃ t, execCopyTrapInFlight j e s = .next t
  simp only [execCopyTrapInFlight]; repeat' (first | with_reducible exact ⟨_, rfl⟩ | split)
theorem coherentWindowSnoop (line : Nat) (write : Bool) (s : State) : ∃ t, exec (.coherentWindowSnoop line write) s = .next t := by
  show ∃ t, execCoherentWindowSnoop line write s = .next t
  simp only [execCoherentWindowSnoop]; repeat' (first | with_reducible exact ⟨_, rfl⟩ | split)
theorem trHead (f : BitVec 12) (v : Word) (s : State) : ∃ t, exec (.trHead f v) s = .next t := by
  show ∃ t, execTrHead f v s = .next t
  simp only [execTrHead]; exact ⟨_, rfl⟩
theorem nop{s : State} {j : Job} (h : jobAt s s.turnJob = some j) : ∃ t, exec (.nop) s = .next t := by
  show ∃ t, execNop s = .next t
  simp only [execNop]; exact sExec_next h _ _ _ _
theorem waitProd{s : State} {j : Job} (h : jobAt s s.turnJob = some j) : ∃ t, exec (.waitProd) s = .next t := by
  show ∃ t, execWaitProd s = .next t
  simp only [execWaitProd]; exact sExec_next h _ _ _ _
theorem trig{s : State} {j : Job} (h : jobAt s s.turnJob = some j) : ∃ t, exec (.trig) s = .next t := by
  show ∃ t, execTrig s = .next t
  simp only [execTrig]; exact sExec_next h _ _ _ _
theorem halt{s : State} {j : Job} (h : jobAt s s.turnJob = some j) : ∃ t, exec (.halt) s = .next t := by
  show ∃ t, execHalt s = .next t
  simp only [execHalt]; exact sExec_next h _ _ _ _
theorem yield{s : State} {j : Job} (h : jobAt s s.turnJob = some j) : ∃ t, exec (.yield) s = .next t := by
  show ∃ t, execYield s = .next t
  simp only [execYield]; exact sExec_next h _ _ _ _
theorem openRange{s : State} {j : Job} (h : jobAt s s.turnJob = some j) : ∃ t, exec (.openRange) s = .next t := by
  show ∃ t, execOpenRange s = .next t
  simp only [execOpenRange, service]; exact sExec_next h _ _ _ _
theorem closeRange{s : State} {j : Job} (h : jobAt s s.turnJob = some j) : ∃ t, exec (.closeRange) s = .next t := by
  show ∃ t, execCloseRange s = .next t
  simp only [execCloseRange, service]; exact sExec_next h _ _ _ _
theorem registerBufferGroup{s : State} {j : Job} (h : jobAt s s.turnJob = some j) : ∃ t, exec (.registerBufferGroup) s = .next t := by
  show ∃ t, execRegisterBufferGroup s = .next t
  simp only [execRegisterBufferGroup]; exact sExec_next h _ _ _ _
theorem resetBufferGroup{s : State} {j : Job} (h : jobAt s s.turnJob = some j) : ∃ t, exec (.resetBufferGroup) s = .next t := by
  show ∃ t, execResetBufferGroup s = .next t
  simp only [execResetBufferGroup, service]; exact sExec_next h _ _ _ _
theorem releaseBufferGroup{s : State} {j : Job} (h : jobAt s s.turnJob = some j) : ∃ t, exec (.releaseBufferGroup) s = .next t := by
  show ∃ t, execReleaseBufferGroup s = .next t
  simp only [execReleaseBufferGroup, service]; exact sExec_next h _ _ _ _
theorem setContextPool{s : State} {j : Job} (h : jobAt s s.turnJob = some j) : ∃ t, exec (.setContextPool) s = .next t := by
  show ∃ t, execSetContextPool s = .next t
  simp only [execSetContextPool, service]; exact sExec_next h _ _ _ _
theorem registerWeightTable{s : State} {j : Job} (h : jobAt s s.turnJob = some j) : ∃ t, exec (.registerWeightTable) s = .next t := by
  show ∃ t, execRegisterWeightTable s = .next t
  simp only [execRegisterWeightTable, service]; exact sExec_next h _ _ _ _
theorem setWatchpoint{s : State} {j : Job} (h : jobAt s s.turnJob = some j) : ∃ t, exec (.setWatchpoint) s = .next t := by
  show ∃ t, execSetWatchpoint s = .next t
  simp only [execSetWatchpoint]; exact sExec_next h _ _ _ _
theorem replay{s : State} {j : Job} (h : jobAt s s.turnJob = some j) : ∃ t, exec (.replay) s = .next t := by
  show ∃ t, execReplay s = .next t
  simp only [execReplay]; exact sExec_next h _ _ _ _
theorem attestationReport{s : State} {j : Job} (h : jobAt s s.turnJob = some j) : ∃ t, exec (.attestationReport) s = .next t := by
  show ∃ t, execAttestationReport s = .next t
  simp only [execAttestationReport]; exact sExec_next h _ _ _ _
theorem eret{s : State} {j : Job} (h : jobAt s s.turnJob = some j) : ∃ t, exec (.eret) s = .next t := by
  show ∃ t, execEret s = .next t
  simp only [execEret]; exact sExec_next h _ _ _ _
theorem positionRebase  (s : State) : ∃ t, exec (.positionRebase) s = .next t := by
  show ∃ t, execPositionRebase s = .next t
  simp only [execPositionRebase]; repeat' (first | with_reducible exact ⟨_, rfl⟩ | split)
theorem powerOn  (s : State) : ∃ t, exec (.powerOn) s = .next t := by
  show ∃ t, execPowerOn s = .next t
  simp only [execPowerOn]; repeat' (first | with_reducible exact ⟨_, rfl⟩ | split)
theorem discoveryTimeout  (s : State) : ∃ t, exec (.discoveryTimeout) s = .next t := by
  show ∃ t, execDiscoveryTimeout s = .next t
  simp only [execDiscoveryTimeout]; repeat' (first | with_reducible exact ⟨_, rfl⟩ | split)
theorem packageReset  (s : State) : ∃ t, exec (.packageReset) s = .next t := by
  show ∃ t, execPackageReset s = .next t
  simp only [execPackageReset]; exact ⟨_, rfl⟩
theorem mgtDescriptorRequest  (s : State) : ∃ t, exec (.mgtDescriptorRequest) s = .next t := by
  show ∃ t, execMgtDescriptorRequest s = .next t
  simp only [execMgtDescriptorRequest, onMsg, onMgt]; repeat' (first | with_reducible exact ⟨_, rfl⟩ | split)
theorem mgtDescriptor  (s : State) : ∃ t, exec (.mgtDescriptor) s = .next t := by
  show ∃ t, execMgtDescriptor s = .next t
  simp only [execMgtDescriptor, onMsg, onMgt]; repeat' (first | with_reducible exact ⟨_, rfl⟩ | split)
theorem mgtTopology  (s : State) : ∃ t, exec (.mgtTopology) s = .next t := by
  show ∃ t, execMgtTopology s = .next t
  simp only [execMgtTopology, onMsg, onMgt]; repeat' (first | with_reducible exact ⟨_, rfl⟩ | split)
theorem mgtFirmwareReplicaWrite  (s : State) : ∃ t, exec (.mgtFirmwareReplicaWrite) s = .next t := by
  show ∃ t, execMgtFirmwareReplicaWrite s = .next t
  simp only [execMgtFirmwareReplicaWrite, onMsg, onMgt]; repeat' (first | with_reducible exact ⟨_, rfl⟩ | split)
theorem mgtEvent  (s : State) : ∃ t, exec (.mgtEvent) s = .next t := by
  show ∃ t, execMgtEvent s = .next t
  simp only [execMgtEvent, onMsg, onMgt]; repeat' (first | with_reducible exact ⟨_, rfl⟩ | split)

end Sys2Proof.Machine.Goes
end

