-- ==== Sys2Proof/Laws/PerInstr.lean ====
section
/-!
SUPPORT. The family `RoundTrip`: what the encoder writes for a well-formed instruction is in range and decodes to the instruction, one lemma per
constructor. An event has no word, and its statement says nothing.
-/
namespace Sys2Proof.Laws.RoundTrip
open Sys2Proof

set_option Elab.async false

/-- Decoding the words of a well-formed instruction gives the instruction back. -/
def Statement (i : Instr) : Prop :=
  i.wf = true → match encode i with
    | some (.s w) => w < 2 ^ 32 ∧ ∀ n, decode .S w n = .ok i
    | some (.e e w) => w < 2 ^ 96 ∧ ∀ n, decode e.toStream w n = .ok i
    | some (.m h t) => h < 2 ^ 96 ∧ t < 2 ^ 96 ∧ decode .X h t = .ok i
    | none => True

theorem fldEq {n w lo : Nat} (x : BitVec n) (h : w / 2 ^ lo % 2 ^ n = x.toNat) : fld n w lo = x := by
  apply BitVec.eq_of_toNat_eq; simpa [fld] using h

theorem checkWfOk {i : Instr} (h : i.wf = true) : checkWf (.ok i) = .ok i := by
  simp only [checkWf]; rw [if_pos h]

theorem decodeSOk {w n : Nat} {i : Instr} (h : decodeS w = .ok i) (hw : i.wf = true) : decode .S w n = .ok i := by
  show checkWf (decodeS w) = _
  rw [h, checkWfOk hw]

theorem operandEnc_lt (o : Operand) : o.enc < 2 ^ 18 := by
  have := o.areg.isLt; have := o.mode.isLt; have := o.off.isLt
  simp only [Operand.enc]; omega

theorem decodeOperand_enc {w lo : Nat} (o : Operand) (h : w / 2 ^ lo % 2 ^ 18 = o.enc) (h14 : w / 2 ^ (lo + 14) = w / 2 ^ lo / 2 ^ 14)
    (h12 : w / 2 ^ (lo + 12) = w / 2 ^ lo / 2 ^ 12) : decodeOperand w lo = o := by
  have := o.areg.isLt; have := o.mode.isLt; have := o.off.isLt
  obtain ⟨x, hx⟩ : ∃ x, w / 2 ^ lo = x := ⟨_, rfl⟩
  rw [hx] at h h14 h12
  simp only [Operand.enc] at h
  have h1 : fld 4 w (lo + 14) = o.areg := fldEq _ (by rw [h14]; omega)
  have h2 : fld 2 w (lo + 12) = o.mode := fldEq _ (by rw [h12]; omega)
  have h3 : fld 12 w lo = o.off := fldEq _ (by rw [hx]; omega)
  simp only [decodeOperand, h1, h2, h3]

theorem div_pow_add (w a b : Nat) : w / 2 ^ (a + b) = w / 2 ^ a / 2 ^ b := by rw [Nat.pow_add, Nat.div_div_eq_div_mul]

theorem decodeEWord_enc (cls op : Nat) (hc : cls < 4) (ho : op < 256) (w : EWord) :
    w.enc cls op < 2 ^ 96 ∧ bits (w.enc cls op) 94 2 = cls ∧ bits (w.enc cls op) 86 8 = op ∧ decodeEWord (w.enc cls op) = w := by
  have := w.tok.isLt; have := w.mask.isLt; have := w.fmt.isLt; have := w.rm.isLt; have := w.func.isLt
  have hd := operandEnc_lt w.d; have ha := operandEnc_lt w.a; have hb := operandEnc_lt w.b
  obtain ⟨x, hx⟩ : ∃ x, w.enc cls op = x := ⟨_, rfl⟩
  rw [hx]
  simp only [EWord.enc] at hx
  have h1 : fld 4 x 82 = w.tok := fldEq _ (by omega)
  have h2 : fld 3 x 79 = w.mask := fldEq _ (by omega)
  have h3 : fld 4 x 75 = w.fmt := fldEq _ (by omega)
  have h4 : fld 2 x 73 = w.rm := fldEq _ (by omega)
  have h5 : fld 19 x 0 = w.func := fldEq _ (by omega)
  have h6 : decodeOperand x 55 = w.d := decodeOperand_enc _ (by omega) (div_pow_add _ _ _) (div_pow_add _ _ _)
  have h7 : decodeOperand x 37 = w.a := decodeOperand_enc _ (by omega) (div_pow_add _ _ _) (div_pow_add _ _ _)
  have h8 : decodeOperand x 19 = w.b := decodeOperand_enc _ (by omega) (div_pow_add _ _ _) (div_pow_add _ _ _)
  refine ⟨by omega, by simp only [bits]; omega, by simp only [bits]; omega, ?_⟩
  simp only [decodeEWord, h1, h2, h3, h4, h5, h6, h7, h8]

theorem decodeMWord_enc (op : Nat) (ho : op < 256) (w : MWord) :
    w.encHead op < 2 ^ 96 ∧ w.encTail < 2 ^ 96 ∧ bits (w.encHead op) 94 2 = 2 ∧ bits (w.encTail) 94 2 = 3 ∧
      bits (w.encHead op) 86 8 = op ∧ (bits (w.encHead op) 79 3 = 0 ∧ bits w.encTail 82 12 = 0 ∧ bits w.encTail 0 53 = 0) ∧
      decodeMWord (w.encHead op) w.encTail = w := by
  have := w.tok.isLt; have := w.afmt.isLt; have := w.rm.isLt; have := w.aslot.isLt; have := w.acc.isLt
  have := w.wfmt.isLt; have := w.pint.isLt; have := w.scale.isLt; have := w.func.isLt; have := w.rows.isLt
  have := w.hold.isLt; have := w.pin.isLt; have := w.rep.isLt; have := w.zacc.isLt
  have hw := operandEnc_lt w.w; have hs := operandEnc_lt w.sc
  obtain ⟨x, hx⟩ : ∃ x, w.encHead op = x := ⟨_, rfl⟩
  obtain ⟨t, ht⟩ : ∃ t, w.encTail = t := ⟨_, rfl⟩
  rw [hx, ht]
  simp only [MWord.encHead] at hx
  simp only [MWord.encTail] at ht
  have h1 : fld 4 x 82 = w.tok := fldEq _ (by omega)
  have h2 : fld 4 x 75 = w.afmt := fldEq _ (by omega)
  have h3 : fld 2 x 73 = w.rm := fldEq _ (by omega)
  have h4 : decodeOperand x 55 = w.w := decodeOperand_enc _ (by omega) (div_pow_add _ _ _) (div_pow_add _ _ _)
  have h5 : fld 6 x 49 = w.aslot := fldEq _ (by omega)
  have h6 : fld 3 x 46 = w.acc := fldEq _ (by omega)
  have h7 : fld 4 x 42 = w.wfmt := fldEq _ (by omega)
  have h8 : fld 4 x 38 = w.pint := fldEq _ (by omega)
  have h9 : fld 2 x 36 = w.scale := fldEq _ (by omega)
  have h10 : fld 36 x 0 = w.func := fldEq _ (by omega)
  have h11 : decodeOperand t 64 = w.sc := decodeOperand_enc _ (by omega) (div_pow_add _ _ _) (div_pow_add _ _ _)
  have h12 : fld 7 t 57 = w.rows := fldEq _ (by omega)
  have h13 : fld 1 t 56 = w.hold := fldEq _ (by omega)
  have h14 : fld 1 t 55 = w.pin := fldEq _ (by omega)
  have h15 : fld 1 t 54 = w.rep := fldEq _ (by omega)
  have h16 : fld 1 t 53 = w.zacc := fldEq _ (by omega)
  refine ⟨by omega, by omega, by simp only [bits]; omega, by simp only [bits]; omega, by simp only [bits]; omega,
    ⟨by simp only [bits]; omega, by simp only [bits]; omega, by simp only [bits]; omega⟩, ?_⟩
  simp only [decodeMWord, h1, h2, h3, h4, h5, h6, h7, h8, h9, h10, h11, h12, h13, h14, h15, h16]

theorem decodeVectorOk {e : EStream} {op n : Nat} (ho : op < 256) {w : EWord} {i : Instr} (h : decodeVector op w = .ok i) (hw : i.wf = true)
    (he : e = .X) : w.enc 1 op < 2 ^ 96 ∧ decode e.toStream (w.enc 1 op) n = .ok i := by
  subst he
  have f := decodeEWord_enc 1 op (by omega) ho w
  refine ⟨f.1, ?_⟩
  show checkWf (decodeE .X (w.enc 1 op) n) = _
  simp only [decodeE, f.2.1, f.2.2.1, f.2.2.2, h]
  rw [if_pos trivial, checkWfOk hw]

theorem decodeCopyOk {e : EStream} {op n : Nat} (ho : op < 256) {w : EWord} {i : Instr} (h : decodeCopy e op w = .ok i) (hw : i.wf = true) :
    w.enc 0 op < 2 ^ 96 ∧ decode e.toStream (w.enc 0 op) n = .ok i := by
  have f := decodeEWord_enc 0 op (by omega) ho w
  have : decode e.toStream (w.enc 0 op) n = checkWf (decodeE e (w.enc 0 op) n) := by cases e <;> rfl
  refine ⟨f.1, ?_⟩
  rw [this]
  simp only [decodeE, f.2.1, f.2.2.1, f.2.2.2, h]
  rw [checkWfOk hw]

theorem decodeMatrixOk {op : Nat} (ho : op < 256) {w : MWord} {i : Instr} (h : decodeMatrixOp op w = .ok i) (hw : i.wf = true) :
    w.encHead op < 2 ^ 96 ∧ w.encTail < 2 ^ 96 ∧ decode .X (w.encHead op) w.encTail = .ok i := by
  have f := decodeMWord_enc op ho w
  refine ⟨f.1, f.2.1, ?_⟩
  show checkWf (decodeE .X (w.encHead op) w.encTail) = _
  simp only [decodeE, f.2.2.1]
  rw [if_pos trivial]
  simp only [decodeMatrix, f.2.2.2.1]
  rw [if_pos trivial, if_pos f.2.2.2.2.2.1, f.2.2.2.2.1, f.2.2.2.2.2.2, h, checkWfOk hw]

theorem add (d : BitVec 6) (a : BitVec 6) (b : BitVec 6) : Statement (.add d a b) := by
  intro hw
  have := d.isLt; have := a.isLt; have := b.isLt
  obtain ⟨W, hW⟩ : ∃ W, encSR 0x01 d.toNat a.toNat b.toNat 0x0 = W := ⟨_, rfl⟩
  show encSR 0x01 d.toNat a.toNat b.toNat 0x0 < 2 ^ 32 ∧ ∀ nx, decode .S (encSR 0x01 d.toNat a.toNat b.toNat 0x0) nx = .ok _
  rw [hW]
  simp only [encSR] at hW
  have h0 : bits W 26 6 = 1 := by simp only [bits]; omega
  have f1 : fld 6 W 20 = d := fldEq _ (by omega)
  have f2 : fld 6 W 14 = a := fldEq _ (by omega)
  have f3 : fld 6 W 8 = b := fldEq _ (by omega)
  have z1 : bits W 0 8 = 0 := by simp only [bits]; omega
  refine ⟨by omega, fun _ => decodeSOk ?_ hw⟩
  simp only [decodeS, decodeAlu, h0, f1, f2, f3, z1]
theorem sub (d : BitVec 6) (a : BitVec 6) (b : BitVec 6) : Statement (.sub d a b) := by
  intro hw
  have := d.isLt; have := a.isLt; have := b.isLt
  obtain ⟨W, hW⟩ : ∃ W, encSR 0x01 d.toNat a.toNat b.toNat 0x1 = W := ⟨_, rfl⟩
  show encSR 0x01 d.toNat a.toNat b.toNat 0x1 < 2 ^ 32 ∧ ∀ nx, decode .S (encSR 0x01 d.toNat a.toNat b.toNat 0x1) nx = .ok _
  rw [hW]
  simp only [encSR] at hW
  have h0 : bits W 26 6 = 1 := by simp only [bits]; omega
  have f1 : fld 6 W 20 = d := fldEq _ (by omega)
  have f2 : fld 6 W 14 = a := fldEq _ (by omega)
  have f3 : fld 6 W 8 = b := fldEq _ (by omega)
  have z1 : bits W 0 8 = 1 := by simp only [bits]; omega
  refine ⟨by omega, fun _ => decodeSOk ?_ hw⟩
  simp only [decodeS, decodeAlu, h0, f1, f2, f3, z1]
theorem and (d : BitVec 6) (a : BitVec 6) (b : BitVec 6) : Statement (.and d a b) := by
  intro hw
  have := d.isLt; have := a.isLt; have := b.isLt
  obtain ⟨W, hW⟩ : ∃ W, encSR 0x01 d.toNat a.toNat b.toNat 0x2 = W := ⟨_, rfl⟩
  show encSR 0x01 d.toNat a.toNat b.toNat 0x2 < 2 ^ 32 ∧ ∀ nx, decode .S (encSR 0x01 d.toNat a.toNat b.toNat 0x2) nx = .ok _
  rw [hW]
  simp only [encSR] at hW
  have h0 : bits W 26 6 = 1 := by simp only [bits]; omega
  have f1 : fld 6 W 20 = d := fldEq _ (by omega)
  have f2 : fld 6 W 14 = a := fldEq _ (by omega)
  have f3 : fld 6 W 8 = b := fldEq _ (by omega)
  have z1 : bits W 0 8 = 2 := by simp only [bits]; omega
  refine ⟨by omega, fun _ => decodeSOk ?_ hw⟩
  simp only [decodeS, decodeAlu, h0, f1, f2, f3, z1]
theorem or (d : BitVec 6) (a : BitVec 6) (b : BitVec 6) : Statement (.or d a b) := by
  intro hw
  have := d.isLt; have := a.isLt; have := b.isLt
  obtain ⟨W, hW⟩ : ∃ W, encSR 0x01 d.toNat a.toNat b.toNat 0x3 = W := ⟨_, rfl⟩
  show encSR 0x01 d.toNat a.toNat b.toNat 0x3 < 2 ^ 32 ∧ ∀ nx, decode .S (encSR 0x01 d.toNat a.toNat b.toNat 0x3) nx = .ok _
  rw [hW]
  simp only [encSR] at hW
  have h0 : bits W 26 6 = 1 := by simp only [bits]; omega
  have f1 : fld 6 W 20 = d := fldEq _ (by omega)
  have f2 : fld 6 W 14 = a := fldEq _ (by omega)
  have f3 : fld 6 W 8 = b := fldEq _ (by omega)
  have z1 : bits W 0 8 = 3 := by simp only [bits]; omega
  refine ⟨by omega, fun _ => decodeSOk ?_ hw⟩
  simp only [decodeS, decodeAlu, h0, f1, f2, f3, z1]
theorem xor (d : BitVec 6) (a : BitVec 6) (b : BitVec 6) : Statement (.xor d a b) := by
  intro hw
  have := d.isLt; have := a.isLt; have := b.isLt
  obtain ⟨W, hW⟩ : ∃ W, encSR 0x01 d.toNat a.toNat b.toNat 0x4 = W := ⟨_, rfl⟩
  show encSR 0x01 d.toNat a.toNat b.toNat 0x4 < 2 ^ 32 ∧ ∀ nx, decode .S (encSR 0x01 d.toNat a.toNat b.toNat 0x4) nx = .ok _
  rw [hW]
  simp only [encSR] at hW
  have h0 : bits W 26 6 = 1 := by simp only [bits]; omega
  have f1 : fld 6 W 20 = d := fldEq _ (by omega)
  have f2 : fld 6 W 14 = a := fldEq _ (by omega)
  have f3 : fld 6 W 8 = b := fldEq _ (by omega)
  have z1 : bits W 0 8 = 4 := by simp only [bits]; omega
  refine ⟨by omega, fun _ => decodeSOk ?_ hw⟩
  simp only [decodeS, decodeAlu, h0, f1, f2, f3, z1]
theorem shl (d : BitVec 6) (a : BitVec 6) (b : BitVec 6) : Statement (.shl d a b) := by
  intro hw
  have := d.isLt; have := a.isLt; have := b.isLt
  obtain ⟨W, hW⟩ : ∃ W, encSR 0x01 d.toNat a.toNat b.toNat 0x5 = W := ⟨_, rfl⟩
  show encSR 0x01 d.toNat a.toNat b.toNat 0x5 < 2 ^ 32 ∧ ∀ nx, decode .S (encSR 0x01 d.toNat a.toNat b.toNat 0x5) nx = .ok _
  rw [hW]
  simp only [encSR] at hW
  have h0 : bits W 26 6 = 1 := by simp only [bits]; omega
  have f1 : fld 6 W 20 = d := fldEq _ (by omega)
  have f2 : fld 6 W 14 = a := fldEq _ (by omega)
  have f3 : fld 6 W 8 = b := fldEq _ (by omega)
  have z1 : bits W 0 8 = 5 := by simp only [bits]; omega
  refine ⟨by omega, fun _ => decodeSOk ?_ hw⟩
  simp only [decodeS, decodeAlu, h0, f1, f2, f3, z1]
theorem shr (d : BitVec 6) (a : BitVec 6) (b : BitVec 6) : Statement (.shr d a b) := by
  intro hw
  have := d.isLt; have := a.isLt; have := b.isLt
  obtain ⟨W, hW⟩ : ∃ W, encSR 0x01 d.toNat a.toNat b.toNat 0x6 = W := ⟨_, rfl⟩
  show encSR 0x01 d.toNat a.toNat b.toNat 0x6 < 2 ^ 32 ∧ ∀ nx, decode .S (encSR 0x01 d.toNat a.toNat b.toNat 0x6) nx = .ok _
  rw [hW]
  simp only [encSR] at hW
  have h0 : bits W 26 6 = 1 := by simp only [bits]; omega
  have f1 : fld 6 W 20 = d := fldEq _ (by omega)
  have f2 : fld 6 W 14 = a := fldEq _ (by omega)
  have f3 : fld 6 W 8 = b := fldEq _ (by omega)
  have z1 : bits W 0 8 = 6 := by simp only [bits]; omega
  refine ⟨by omega, fun _ => decodeSOk ?_ hw⟩
  simp only [decodeS, decodeAlu, h0, f1, f2, f3, z1]
theorem sra (d : BitVec 6) (a : BitVec 6) (b : BitVec 6) : Statement (.sra d a b) := by
  intro hw
  have := d.isLt; have := a.isLt; have := b.isLt
  obtain ⟨W, hW⟩ : ∃ W, encSR 0x01 d.toNat a.toNat b.toNat 0x7 = W := ⟨_, rfl⟩
  show encSR 0x01 d.toNat a.toNat b.toNat 0x7 < 2 ^ 32 ∧ ∀ nx, decode .S (encSR 0x01 d.toNat a.toNat b.toNat 0x7) nx = .ok _
  rw [hW]
  simp only [encSR] at hW
  have h0 : bits W 26 6 = 1 := by simp only [bits]; omega
  have f1 : fld 6 W 20 = d := fldEq _ (by omega)
  have f2 : fld 6 W 14 = a := fldEq _ (by omega)
  have f3 : fld 6 W 8 = b := fldEq _ (by omega)
  have z1 : bits W 0 8 = 7 := by simp only [bits]; omega
  refine ⟨by omega, fun _ => decodeSOk ?_ hw⟩
  simp only [decodeS, decodeAlu, h0, f1, f2, f3, z1]
theorem mul (d : BitVec 6) (a : BitVec 6) (b : BitVec 6) : Statement (.mul d a b) := by
  intro hw
  have := d.isLt; have := a.isLt; have := b.isLt
  obtain ⟨W, hW⟩ : ∃ W, encSR 0x01 d.toNat a.toNat b.toNat 0x8 = W := ⟨_, rfl⟩
  show encSR 0x01 d.toNat a.toNat b.toNat 0x8 < 2 ^ 32 ∧ ∀ nx, decode .S (encSR 0x01 d.toNat a.toNat b.toNat 0x8) nx = .ok _
  rw [hW]
  simp only [encSR] at hW
  have h0 : bits W 26 6 = 1 := by simp only [bits]; omega
  have f1 : fld 6 W 20 = d := fldEq _ (by omega)
  have f2 : fld 6 W 14 = a := fldEq _ (by omega)
  have f3 : fld 6 W 8 = b := fldEq _ (by omega)
  have z1 : bits W 0 8 = 8 := by simp only [bits]; omega
  refine ⟨by omega, fun _ => decodeSOk ?_ hw⟩
  simp only [decodeS, decodeAlu, h0, f1, f2, f3, z1]
theorem mulh (d : BitVec 6) (a : BitVec 6) (b : BitVec 6) : Statement (.mulh d a b) := by
  intro hw
  have := d.isLt; have := a.isLt; have := b.isLt
  obtain ⟨W, hW⟩ : ∃ W, encSR 0x01 d.toNat a.toNat b.toNat 0x9 = W := ⟨_, rfl⟩
  show encSR 0x01 d.toNat a.toNat b.toNat 0x9 < 2 ^ 32 ∧ ∀ nx, decode .S (encSR 0x01 d.toNat a.toNat b.toNat 0x9) nx = .ok _
  rw [hW]
  simp only [encSR] at hW
  have h0 : bits W 26 6 = 1 := by simp only [bits]; omega
  have f1 : fld 6 W 20 = d := fldEq _ (by omega)
  have f2 : fld 6 W 14 = a := fldEq _ (by omega)
  have f3 : fld 6 W 8 = b := fldEq _ (by omega)
  have z1 : bits W 0 8 = 9 := by simp only [bits]; omega
  refine ⟨by omega, fun _ => decodeSOk ?_ hw⟩
  simp only [decodeS, decodeAlu, h0, f1, f2, f3, z1]
theorem mulhu (d : BitVec 6) (a : BitVec 6) (b : BitVec 6) : Statement (.mulhu d a b) := by
  intro hw
  have := d.isLt; have := a.isLt; have := b.isLt
  obtain ⟨W, hW⟩ : ∃ W, encSR 0x01 d.toNat a.toNat b.toNat 0xA = W := ⟨_, rfl⟩
  show encSR 0x01 d.toNat a.toNat b.toNat 0xA < 2 ^ 32 ∧ ∀ nx, decode .S (encSR 0x01 d.toNat a.toNat b.toNat 0xA) nx = .ok _
  rw [hW]
  simp only [encSR] at hW
  have h0 : bits W 26 6 = 1 := by simp only [bits]; omega
  have f1 : fld 6 W 20 = d := fldEq _ (by omega)
  have f2 : fld 6 W 14 = a := fldEq _ (by omega)
  have f3 : fld 6 W 8 = b := fldEq _ (by omega)
  have z1 : bits W 0 8 = 10 := by simp only [bits]; omega
  refine ⟨by omega, fun _ => decodeSOk ?_ hw⟩
  simp only [decodeS, decodeAlu, h0, f1, f2, f3, z1]
theorem div (d : BitVec 6) (a : BitVec 6) (b : BitVec 6) : Statement (.div d a b) := by
  intro hw
  have := d.isLt; have := a.isLt; have := b.isLt
  obtain ⟨W, hW⟩ : ∃ W, encSR 0x01 d.toNat a.toNat b.toNat 0xB = W := ⟨_, rfl⟩
  show encSR 0x01 d.toNat a.toNat b.toNat 0xB < 2 ^ 32 ∧ ∀ nx, decode .S (encSR 0x01 d.toNat a.toNat b.toNat 0xB) nx = .ok _
  rw [hW]
  simp only [encSR] at hW
  have h0 : bits W 26 6 = 1 := by simp only [bits]; omega
  have f1 : fld 6 W 20 = d := fldEq _ (by omega)
  have f2 : fld 6 W 14 = a := fldEq _ (by omega)
  have f3 : fld 6 W 8 = b := fldEq _ (by omega)
  have z1 : bits W 0 8 = 11 := by simp only [bits]; omega
  refine ⟨by omega, fun _ => decodeSOk ?_ hw⟩
  simp only [decodeS, decodeAlu, h0, f1, f2, f3, z1]
theorem divu (d : BitVec 6) (a : BitVec 6) (b : BitVec 6) : Statement (.divu d a b) := by
  intro hw
  have := d.isLt; have := a.isLt; have := b.isLt
  obtain ⟨W, hW⟩ : ∃ W, encSR 0x01 d.toNat a.toNat b.toNat 0xC = W := ⟨_, rfl⟩
  show encSR 0x01 d.toNat a.toNat b.toNat 0xC < 2 ^ 32 ∧ ∀ nx, decode .S (encSR 0x01 d.toNat a.toNat b.toNat 0xC) nx = .ok _
  rw [hW]
  simp only [encSR] at hW
  have h0 : bits W 26 6 = 1 := by simp only [bits]; omega
  have f1 : fld 6 W 20 = d := fldEq _ (by omega)
  have f2 : fld 6 W 14 = a := fldEq _ (by omega)
  have f3 : fld 6 W 8 = b := fldEq _ (by omega)
  have z1 : bits W 0 8 = 12 := by simp only [bits]; omega
  refine ⟨by omega, fun _ => decodeSOk ?_ hw⟩
  simp only [decodeS, decodeAlu, h0, f1, f2, f3, z1]
theorem rem (d : BitVec 6) (a : BitVec 6) (b : BitVec 6) : Statement (.rem d a b) := by
  intro hw
  have := d.isLt; have := a.isLt; have := b.isLt
  obtain ⟨W, hW⟩ : ∃ W, encSR 0x01 d.toNat a.toNat b.toNat 0xD = W := ⟨_, rfl⟩
  show encSR 0x01 d.toNat a.toNat b.toNat 0xD < 2 ^ 32 ∧ ∀ nx, decode .S (encSR 0x01 d.toNat a.toNat b.toNat 0xD) nx = .ok _
  rw [hW]
  simp only [encSR] at hW
  have h0 : bits W 26 6 = 1 := by simp only [bits]; omega
  have f1 : fld 6 W 20 = d := fldEq _ (by omega)
  have f2 : fld 6 W 14 = a := fldEq _ (by omega)
  have f3 : fld 6 W 8 = b := fldEq _ (by omega)
  have z1 : bits W 0 8 = 13 := by simp only [bits]; omega
  refine ⟨by omega, fun _ => decodeSOk ?_ hw⟩
  simp only [decodeS, decodeAlu, h0, f1, f2, f3, z1]
theorem remu (d : BitVec 6) (a : BitVec 6) (b : BitVec 6) : Statement (.remu d a b) := by
  intro hw
  have := d.isLt; have := a.isLt; have := b.isLt
  obtain ⟨W, hW⟩ : ∃ W, encSR 0x01 d.toNat a.toNat b.toNat 0xE = W := ⟨_, rfl⟩
  show encSR 0x01 d.toNat a.toNat b.toNat 0xE < 2 ^ 32 ∧ ∀ nx, decode .S (encSR 0x01 d.toNat a.toNat b.toNat 0xE) nx = .ok _
  rw [hW]
  simp only [encSR] at hW
  have h0 : bits W 26 6 = 1 := by simp only [bits]; omega
  have f1 : fld 6 W 20 = d := fldEq _ (by omega)
  have f2 : fld 6 W 14 = a := fldEq _ (by omega)
  have f3 : fld 6 W 8 = b := fldEq _ (by omega)
  have z1 : bits W 0 8 = 14 := by simp only [bits]; omega
  refine ⟨by omega, fun _ => decodeSOk ?_ hw⟩
  simp only [decodeS, decodeAlu, h0, f1, f2, f3, z1]
theorem min (d : BitVec 6) (a : BitVec 6) (b : BitVec 6) : Statement (.min d a b) := by
  intro hw
  have := d.isLt; have := a.isLt; have := b.isLt
  obtain ⟨W, hW⟩ : ∃ W, encSR 0x01 d.toNat a.toNat b.toNat 0xF = W := ⟨_, rfl⟩
  show encSR 0x01 d.toNat a.toNat b.toNat 0xF < 2 ^ 32 ∧ ∀ nx, decode .S (encSR 0x01 d.toNat a.toNat b.toNat 0xF) nx = .ok _
  rw [hW]
  simp only [encSR] at hW
  have h0 : bits W 26 6 = 1 := by simp only [bits]; omega
  have f1 : fld 6 W 20 = d := fldEq _ (by omega)
  have f2 : fld 6 W 14 = a := fldEq _ (by omega)
  have f3 : fld 6 W 8 = b := fldEq _ (by omega)
  have z1 : bits W 0 8 = 15 := by simp only [bits]; omega
  refine ⟨by omega, fun _ => decodeSOk ?_ hw⟩
  simp only [decodeS, decodeAlu, h0, f1, f2, f3, z1]
theorem max (d : BitVec 6) (a : BitVec 6) (b : BitVec 6) : Statement (.max d a b) := by
  intro hw
  have := d.isLt; have := a.isLt; have := b.isLt
  obtain ⟨W, hW⟩ : ∃ W, encSR 0x01 d.toNat a.toNat b.toNat 0x10 = W := ⟨_, rfl⟩
  show encSR 0x01 d.toNat a.toNat b.toNat 0x10 < 2 ^ 32 ∧ ∀ nx, decode .S (encSR 0x01 d.toNat a.toNat b.toNat 0x10) nx = .ok _
  rw [hW]
  simp only [encSR] at hW
  have h0 : bits W 26 6 = 1 := by simp only [bits]; omega
  have f1 : fld 6 W 20 = d := fldEq _ (by omega)
  have f2 : fld 6 W 14 = a := fldEq _ (by omega)
  have f3 : fld 6 W 8 = b := fldEq _ (by omega)
  have z1 : bits W 0 8 = 16 := by simp only [bits]; omega
  refine ⟨by omega, fun _ => decodeSOk ?_ hw⟩
  simp only [decodeS, decodeAlu, h0, f1, f2, f3, z1]
theorem minu (d : BitVec 6) (a : BitVec 6) (b : BitVec 6) : Statement (.minu d a b) := by
  intro hw
  have := d.isLt; have := a.isLt; have := b.isLt
  obtain ⟨W, hW⟩ : ∃ W, encSR 0x01 d.toNat a.toNat b.toNat 0x11 = W := ⟨_, rfl⟩
  show encSR 0x01 d.toNat a.toNat b.toNat 0x11 < 2 ^ 32 ∧ ∀ nx, decode .S (encSR 0x01 d.toNat a.toNat b.toNat 0x11) nx = .ok _
  rw [hW]
  simp only [encSR] at hW
  have h0 : bits W 26 6 = 1 := by simp only [bits]; omega
  have f1 : fld 6 W 20 = d := fldEq _ (by omega)
  have f2 : fld 6 W 14 = a := fldEq _ (by omega)
  have f3 : fld 6 W 8 = b := fldEq _ (by omega)
  have z1 : bits W 0 8 = 17 := by simp only [bits]; omega
  refine ⟨by omega, fun _ => decodeSOk ?_ hw⟩
  simp only [decodeS, decodeAlu, h0, f1, f2, f3, z1]
theorem maxu (d : BitVec 6) (a : BitVec 6) (b : BitVec 6) : Statement (.maxu d a b) := by
  intro hw
  have := d.isLt; have := a.isLt; have := b.isLt
  obtain ⟨W, hW⟩ : ∃ W, encSR 0x01 d.toNat a.toNat b.toNat 0x12 = W := ⟨_, rfl⟩
  show encSR 0x01 d.toNat a.toNat b.toNat 0x12 < 2 ^ 32 ∧ ∀ nx, decode .S (encSR 0x01 d.toNat a.toNat b.toNat 0x12) nx = .ok _
  rw [hW]
  simp only [encSR] at hW
  have h0 : bits W 26 6 = 1 := by simp only [bits]; omega
  have f1 : fld 6 W 20 = d := fldEq _ (by omega)
  have f2 : fld 6 W 14 = a := fldEq _ (by omega)
  have f3 : fld 6 W 8 = b := fldEq _ (by omega)
  have z1 : bits W 0 8 = 18 := by simp only [bits]; omega
  refine ⟨by omega, fun _ => decodeSOk ?_ hw⟩
  simp only [decodeS, decodeAlu, h0, f1, f2, f3, z1]
theorem clz (d : BitVec 6) (a : BitVec 6) : Statement (.clz d a) := by
  intro hw
  have := d.isLt; have := a.isLt
  obtain ⟨W, hW⟩ : ∃ W, encSR 0x01 d.toNat a.toNat 0 0x13 = W := ⟨_, rfl⟩
  show encSR 0x01 d.toNat a.toNat 0 0x13 < 2 ^ 32 ∧ ∀ nx, decode .S (encSR 0x01 d.toNat a.toNat 0 0x13) nx = .ok _
  rw [hW]
  simp only [encSR] at hW
  have h0 : bits W 26 6 = 1 := by simp only [bits]; omega
  have f1 : fld 6 W 20 = d := fldEq _ (by omega)
  have f2 : fld 6 W 14 = a := fldEq _ (by omega)
  have z1 : bits W 8 6 = 0 := by simp only [bits]; omega
  have z2 : bits W 0 8 = 19 := by simp only [bits]; omega
  refine ⟨by omega, fun _ => decodeSOk ?_ hw⟩
  simp only [decodeS, decodeAlu, zeroIn, h0, f1, f2, z1, z2, if_true]
theorem popc (d : BitVec 6) (a : BitVec 6) : Statement (.popc d a) := by
  intro hw
  have := d.isLt; have := a.isLt
  obtain ⟨W, hW⟩ : ∃ W, encSR 0x01 d.toNat a.toNat 0 0x14 = W := ⟨_, rfl⟩
  show encSR 0x01 d.toNat a.toNat 0 0x14 < 2 ^ 32 ∧ ∀ nx, decode .S (encSR 0x01 d.toNat a.toNat 0 0x14) nx = .ok _
  rw [hW]
  simp only [encSR] at hW
  have h0 : bits W 26 6 = 1 := by simp only [bits]; omega
  have f1 : fld 6 W 20 = d := fldEq _ (by omega)
  have f2 : fld 6 W 14 = a := fldEq _ (by omega)
  have z1 : bits W 8 6 = 0 := by simp only [bits]; omega
  have z2 : bits W 0 8 = 20 := by simp only [bits]; omega
  refine ⟨by omega, fun _ => decodeSOk ?_ hw⟩
  simp only [decodeS, decodeAlu, zeroIn, h0, f1, f2, z1, z2, if_true]
theorem sel (d : BitVec 6) (a : BitVec 6) (b : BitVec 6) (p : BitVec 3) : Statement (.sel d a b p) := by
  intro hw
  have := d.isLt; have := a.isLt; have := b.isLt; have := p.isLt
  have hp : 4 = 4 := rfl
  obtain ⟨W, hW⟩ : ∃ W, encSR 0x01 d.toNat a.toNat b.toNat (0x20 + p.toNat) = W := ⟨_, rfl⟩
  show encSR 0x01 d.toNat a.toNat b.toNat (0x20 + p.toNat) < 2 ^ 32 ∧ ∀ nx, decode .S (encSR 0x01 d.toNat a.toNat b.toNat (0x20 + p.toNat)) nx = .ok _
  rw [hW]
  simp only [encSR] at hW
  have h0 : bits W 26 6 = 1 := by simp only [bits]; omega
  have f1 : fld 6 W 20 = d := fldEq _ (by omega)
  have f2 : fld 6 W 14 = a := fldEq _ (by omega)
  have f3 : fld 6 W 8 = b := fldEq _ (by omega)
  have f4 : fld 3 W 0 = p := fldEq _ (by omega)
  have z1 : bits W 0 8 = 32 + p.toNat := by simp only [bits]; omega
  have z2 : bits (32 + p.toNat) 3 5 = 4 := by simp only [bits]; omega
  refine ⟨by omega, fun _ => decodeSOk ?_ hw⟩
  simp only [decodeS, h0, decodeAlu, z1]
  split <;> first | omega | (rw [z2, if_pos rfl, f1, f2, f3, f4])
theorem addi (d : BitVec 6) (a : BitVec 6) (i : BitVec 14) : Statement (.addi d a i) := by
  intro hw
  have := d.isLt; have := a.isLt; have := i.isLt
  obtain ⟨W, hW⟩ : ∃ W, encSI 0x02 d.toNat a.toNat i.toNat = W := ⟨_, rfl⟩
  show encSI 0x02 d.toNat a.toNat i.toNat < 2 ^ 32 ∧ ∀ nx, decode .S (encSI 0x02 d.toNat a.toNat i.toNat) nx = .ok _
  rw [hW]
  simp only [encSI] at hW
  have h0 : bits W 26 6 = 2 := by simp only [bits]; omega
  have f1 : fld 6 W 20 = d := fldEq _ (by omega)
  have f2 : fld 6 W 14 = a := fldEq _ (by omega)
  have f3 : fld 14 W 0 = i := fldEq _ (by omega)
  refine ⟨by omega, fun _ => decodeSOk ?_ hw⟩
  simp only [decodeS, h0, f1, f2, f3]
theorem andi (d : BitVec 6) (a : BitVec 6) (i : BitVec 14) : Statement (.andi d a i) := by
  intro hw
  have := d.isLt; have := a.isLt; have := i.isLt
  obtain ⟨W, hW⟩ : ∃ W, encSI 0x03 d.toNat a.toNat i.toNat = W := ⟨_, rfl⟩
  show encSI 0x03 d.toNat a.toNat i.toNat < 2 ^ 32 ∧ ∀ nx, decode .S (encSI 0x03 d.toNat a.toNat i.toNat) nx = .ok _
  rw [hW]
  simp only [encSI] at hW
  have h0 : bits W 26 6 = 3 := by simp only [bits]; omega
  have f1 : fld 6 W 20 = d := fldEq _ (by omega)
  have f2 : fld 6 W 14 = a := fldEq _ (by omega)
  have f3 : fld 14 W 0 = i := fldEq _ (by omega)
  refine ⟨by omega, fun _ => decodeSOk ?_ hw⟩
  simp only [decodeS, h0, f1, f2, f3]
theorem ori (d : BitVec 6) (a : BitVec 6) (i : BitVec 14) : Statement (.ori d a i) := by
  intro hw
  have := d.isLt; have := a.isLt; have := i.isLt
  obtain ⟨W, hW⟩ : ∃ W, encSI 0x04 d.toNat a.toNat i.toNat = W := ⟨_, rfl⟩
  show encSI 0x04 d.toNat a.toNat i.toNat < 2 ^ 32 ∧ ∀ nx, decode .S (encSI 0x04 d.toNat a.toNat i.toNat) nx = .ok _
  rw [hW]
  simp only [encSI] at hW
  have h0 : bits W 26 6 = 4 := by simp only [bits]; omega
  have f1 : fld 6 W 20 = d := fldEq _ (by omega)
  have f2 : fld 6 W 14 = a := fldEq _ (by omega)
  have f3 : fld 14 W 0 = i := fldEq _ (by omega)
  refine ⟨by omega, fun _ => decodeSOk ?_ hw⟩
  simp only [decodeS, h0, f1, f2, f3]
theorem xori (d : BitVec 6) (a : BitVec 6) (i : BitVec 14) : Statement (.xori d a i) := by
  intro hw
  have := d.isLt; have := a.isLt; have := i.isLt
  obtain ⟨W, hW⟩ : ∃ W, encSI 0x05 d.toNat a.toNat i.toNat = W := ⟨_, rfl⟩
  show encSI 0x05 d.toNat a.toNat i.toNat < 2 ^ 32 ∧ ∀ nx, decode .S (encSI 0x05 d.toNat a.toNat i.toNat) nx = .ok _
  rw [hW]
  simp only [encSI] at hW
  have h0 : bits W 26 6 = 5 := by simp only [bits]; omega
  have f1 : fld 6 W 20 = d := fldEq _ (by omega)
  have f2 : fld 6 W 14 = a := fldEq _ (by omega)
  have f3 : fld 14 W 0 = i := fldEq _ (by omega)
  refine ⟨by omega, fun _ => decodeSOk ?_ hw⟩
  simp only [decodeS, h0, f1, f2, f3]
theorem shli (d : BitVec 6) (a : BitVec 6) (n : BitVec 6) : Statement (.shli d a n) := by
  intro hw
  have := d.isLt; have := a.isLt; have := n.isLt
  obtain ⟨W, hW⟩ : ∃ W, encSI 0x06 d.toNat a.toNat n.toNat = W := ⟨_, rfl⟩
  show encSI 0x06 d.toNat a.toNat n.toNat < 2 ^ 32 ∧ ∀ nx, decode .S (encSI 0x06 d.toNat a.toNat n.toNat) nx = .ok _
  rw [hW]
  simp only [encSI] at hW
  have h0 : bits W 26 6 = 6 := by simp only [bits]; omega
  have f1 : fld 6 W 20 = d := fldEq _ (by omega)
  have f2 : fld 6 W 14 = a := fldEq _ (by omega)
  have f3 : fld 6 W 0 = n := fldEq _ (by omega)
  have z1 : bits W 6 8 = 0 := by simp only [bits]; omega
  refine ⟨by omega, fun _ => decodeSOk ?_ hw⟩
  simp only [decodeS, zeroIn, h0, f1, f2, f3, z1, if_true]
theorem shri (d : BitVec 6) (a : BitVec 6) (n : BitVec 6) : Statement (.shri d a n) := by
  intro hw
  have := d.isLt; have := a.isLt; have := n.isLt
  obtain ⟨W, hW⟩ : ∃ W, encSI 0x07 d.toNat a.toNat n.toNat = W := ⟨_, rfl⟩
  show encSI 0x07 d.toNat a.toNat n.toNat < 2 ^ 32 ∧ ∀ nx, decode .S (encSI 0x07 d.toNat a.toNat n.toNat) nx = .ok _
  rw [hW]
  simp only [encSI] at hW
  have h0 : bits W 26 6 = 7 := by simp only [bits]; omega
  have f1 : fld 6 W 20 = d := fldEq _ (by omega)
  have f2 : fld 6 W 14 = a := fldEq _ (by omega)
  have f3 : fld 6 W 0 = n := fldEq _ (by omega)
  have z1 : bits W 6 8 = 0 := by simp only [bits]; omega
  refine ⟨by omega, fun _ => decodeSOk ?_ hw⟩
  simp only [decodeS, zeroIn, h0, f1, f2, f3, z1, if_true]
theorem srai (d : BitVec 6) (a : BitVec 6) (n : BitVec 6) : Statement (.srai d a n) := by
  intro hw
  have := d.isLt; have := a.isLt; have := n.isLt
  obtain ⟨W, hW⟩ : ∃ W, encSI 0x08 d.toNat a.toNat n.toNat = W := ⟨_, rfl⟩
  show encSI 0x08 d.toNat a.toNat n.toNat < 2 ^ 32 ∧ ∀ nx, decode .S (encSI 0x08 d.toNat a.toNat n.toNat) nx = .ok _
  rw [hW]
  simp only [encSI] at hW
  have h0 : bits W 26 6 = 8 := by simp only [bits]; omega
  have f1 : fld 6 W 20 = d := fldEq _ (by omega)
  have f2 : fld 6 W 14 = a := fldEq _ (by omega)
  have f3 : fld 6 W 0 = n := fldEq _ (by omega)
  have z1 : bits W 6 8 = 0 := by simp only [bits]; omega
  refine ⟨by omega, fun _ => decodeSOk ?_ hw⟩
  simp only [decodeS, zeroIn, h0, f1, f2, f3, z1, if_true]
theorem movi (d : BitVec 6) (i : BitVec 20) : Statement (.movi d i) := by
  intro hw
  have := d.isLt; have := i.isLt
  obtain ⟨W, hW⟩ : ∃ W, encSU 0x09 d.toNat i.toNat = W := ⟨_, rfl⟩
  show encSU 0x09 d.toNat i.toNat < 2 ^ 32 ∧ ∀ nx, decode .S (encSU 0x09 d.toNat i.toNat) nx = .ok _
  rw [hW]
  simp only [encSU] at hW
  have h0 : bits W 26 6 = 9 := by simp only [bits]; omega
  have f1 : fld 6 W 20 = d := fldEq _ (by omega)
  have f2 : fld 20 W 0 = i := fldEq _ (by omega)
  refine ⟨by omega, fun _ => decodeSOk ?_ hw⟩
  simp only [decodeS, h0, f1, f2]
theorem shin (d : BitVec 6) (i : BitVec 20) : Statement (.shin d i) := by
  intro hw
  have := d.isLt; have := i.isLt
  obtain ⟨W, hW⟩ : ∃ W, encSU 0x0A d.toNat i.toNat = W := ⟨_, rfl⟩
  show encSU 0x0A d.toNat i.toNat < 2 ^ 32 ∧ ∀ nx, decode .S (encSU 0x0A d.toNat i.toNat) nx = .ok _
  rw [hW]
  simp only [encSU] at hW
  have h0 : bits W 26 6 = 10 := by simp only [bits]; omega
  have f1 : fld 6 W 20 = d := fldEq _ (by omega)
  have f2 : fld 20 W 0 = i := fldEq _ (by omega)
  refine ⟨by omega, fun _ => decodeSOk ?_ hw⟩
  simp only [decodeS, h0, f1, f2]
theorem cmp (p : BitVec 3) (c : BitVec 3) (a : BitVec 6) (b : BitVec 6) : Statement (.cmp p c a b) := by
  intro hw
  have := p.isLt; have := c.isLt; have := a.isLt; have := b.isLt
  obtain ⟨W, hW⟩ : ∃ W, encSR 0x0B (p.toNat * 8 + c.toNat) a.toNat b.toNat 0 = W := ⟨_, rfl⟩
  show encSR 0x0B (p.toNat * 8 + c.toNat) a.toNat b.toNat 0 < 2 ^ 32 ∧ ∀ nx, decode .S (encSR 0x0B (p.toNat * 8 + c.toNat) a.toNat b.toNat 0) nx = .ok _
  rw [hW]
  simp only [encSR] at hW
  have h0 : bits W 26 6 = 11 := by simp only [bits]; omega
  have f1 : fld 3 W 23 = p := fldEq _ (by omega)
  have f2 : fld 3 W 20 = c := fldEq _ (by omega)
  have f3 : fld 6 W 14 = a := fldEq _ (by omega)
  have f4 : fld 6 W 8 = b := fldEq _ (by omega)
  have z1 : bits W 0 8 = 0 := by simp only [bits]; omega
  refine ⟨by omega, fun _ => decodeSOk ?_ hw⟩
  simp only [decodeS, zeroIn, h0, f1, f2, f3, f4, z1, if_true]
theorem cmpi (p : BitVec 3) (c : BitVec 3) (a : BitVec 6) (i : BitVec 14) : Statement (.cmpi p c a i) := by
  intro hw
  have := p.isLt; have := c.isLt; have := a.isLt; have := i.isLt
  obtain ⟨W, hW⟩ : ∃ W, encSI 0x0C (p.toNat * 8 + c.toNat) a.toNat i.toNat = W := ⟨_, rfl⟩
  show encSI 0x0C (p.toNat * 8 + c.toNat) a.toNat i.toNat < 2 ^ 32 ∧ ∀ nx, decode .S (encSI 0x0C (p.toNat * 8 + c.toNat) a.toNat i.toNat) nx = .ok _
  rw [hW]
  simp only [encSI] at hW
  have h0 : bits W 26 6 = 12 := by simp only [bits]; omega
  have f1 : fld 3 W 23 = p := fldEq _ (by omega)
  have f2 : fld 3 W 20 = c := fldEq _ (by omega)
  have f3 : fld 6 W 14 = a := fldEq _ (by omega)
  have f4 : fld 14 W 0 = i := fldEq _ (by omega)
  refine ⟨by omega, fun _ => decodeSOk ?_ hw⟩
  simp only [decodeS, h0, f1, f2, f3, f4]
theorem pand (d : BitVec 3) (a : BitVec 3) (b : BitVec 3) : Statement (.pand d a b) := by
  intro hw
  have := d.isLt; have := a.isLt; have := b.isLt
  obtain ⟨W, hW⟩ : ∃ W, encSR 0x0D (d.toNat * 8) (a.toNat * 8) (b.toNat * 8) 0 = W := ⟨_, rfl⟩
  show encSR 0x0D (d.toNat * 8) (a.toNat * 8) (b.toNat * 8) 0 < 2 ^ 32 ∧ ∀ nx, decode .S (encSR 0x0D (d.toNat * 8) (a.toNat * 8) (b.toNat * 8) 0) nx = .ok _
  rw [hW]
  simp only [encSR] at hW
  have h0 : bits W 26 6 = 13 := by simp only [bits]; omega
  have f1 : fld 3 W 23 = d := fldEq _ (by omega)
  have f2 : fld 3 W 17 = a := fldEq _ (by omega)
  have f3 : fld 3 W 11 = b := fldEq _ (by omega)
  have z1 : bits W 20 3 = 0 := by simp only [bits]; omega
  have z2 : bits W 14 3 = 0 := by simp only [bits]; omega
  have z3 : bits W 8 3 = 0 := by simp only [bits]; omega
  have z4 : bits W 0 8 = 0 := by simp only [bits]; omega
  refine ⟨by omega, fun _ => decodeSOk ?_ hw⟩
  simp only [decodeS, decodePred, h0, f1, f2, f3, z1, z2, z3, z4, and_self, if_true]
theorem por (d : BitVec 3) (a : BitVec 3) (b : BitVec 3) : Statement (.por d a b) := by
  intro hw
  have := d.isLt; have := a.isLt; have := b.isLt
  obtain ⟨W, hW⟩ : ∃ W, encSR 0x0D (d.toNat * 8) (a.toNat * 8) (b.toNat * 8) 1 = W := ⟨_, rfl⟩
  show encSR 0x0D (d.toNat * 8) (a.toNat * 8) (b.toNat * 8) 1 < 2 ^ 32 ∧ ∀ nx, decode .S (encSR 0x0D (d.toNat * 8) (a.toNat * 8) (b.toNat * 8) 1) nx = .ok _
  rw [hW]
  simp only [encSR] at hW
  have h0 : bits W 26 6 = 13 := by simp only [bits]; omega
  have f1 : fld 3 W 23 = d := fldEq _ (by omega)
  have f2 : fld 3 W 17 = a := fldEq _ (by omega)
  have f3 : fld 3 W 11 = b := fldEq _ (by omega)
  have z1 : bits W 20 3 = 0 := by simp only [bits]; omega
  have z2 : bits W 14 3 = 0 := by simp only [bits]; omega
  have z3 : bits W 8 3 = 0 := by simp only [bits]; omega
  have z4 : bits W 0 8 = 1 := by simp only [bits]; omega
  refine ⟨by omega, fun _ => decodeSOk ?_ hw⟩
  simp only [decodeS, decodePred, h0, f1, f2, f3, z1, z2, z3, z4, and_self, if_true]
theorem pxor (d : BitVec 3) (a : BitVec 3) (b : BitVec 3) : Statement (.pxor d a b) := by
  intro hw
  have := d.isLt; have := a.isLt; have := b.isLt
  obtain ⟨W, hW⟩ : ∃ W, encSR 0x0D (d.toNat * 8) (a.toNat * 8) (b.toNat * 8) 2 = W := ⟨_, rfl⟩
  show encSR 0x0D (d.toNat * 8) (a.toNat * 8) (b.toNat * 8) 2 < 2 ^ 32 ∧ ∀ nx, decode .S (encSR 0x0D (d.toNat * 8) (a.toNat * 8) (b.toNat * 8) 2) nx = .ok _
  rw [hW]
  simp only [encSR] at hW
  have h0 : bits W 26 6 = 13 := by simp only [bits]; omega
  have f1 : fld 3 W 23 = d := fldEq _ (by omega)
  have f2 : fld 3 W 17 = a := fldEq _ (by omega)
  have f3 : fld 3 W 11 = b := fldEq _ (by omega)
  have z1 : bits W 20 3 = 0 := by simp only [bits]; omega
  have z2 : bits W 14 3 = 0 := by simp only [bits]; omega
  have z3 : bits W 8 3 = 0 := by simp only [bits]; omega
  have z4 : bits W 0 8 = 2 := by simp only [bits]; omega
  refine ⟨by omega, fun _ => decodeSOk ?_ hw⟩
  simp only [decodeS, decodePred, h0, f1, f2, f3, z1, z2, z3, z4, and_self, if_true]
theorem pnot (d : BitVec 3) (a : BitVec 3) : Statement (.pnot d a) := by
  intro hw
  have := d.isLt; have := a.isLt
  obtain ⟨W, hW⟩ : ∃ W, encSR 0x0D (d.toNat * 8) (a.toNat * 8) 0 3 = W := ⟨_, rfl⟩
  show encSR 0x0D (d.toNat * 8) (a.toNat * 8) 0 3 < 2 ^ 32 ∧ ∀ nx, decode .S (encSR 0x0D (d.toNat * 8) (a.toNat * 8) 0 3) nx = .ok _
  rw [hW]
  simp only [encSR] at hW
  have h0 : bits W 26 6 = 13 := by simp only [bits]; omega
  have f1 : fld 3 W 23 = d := fldEq _ (by omega)
  have f2 : fld 3 W 17 = a := fldEq _ (by omega)
  have z1 : bits W 11 3 = 0 := by simp only [bits]; omega
  have z2 : bits W 20 3 = 0 := by simp only [bits]; omega
  have z3 : bits W 14 3 = 0 := by simp only [bits]; omega
  have z4 : bits W 8 3 = 0 := by simp only [bits]; omega
  have z5 : bits W 0 8 = 3 := by simp only [bits]; omega
  refine ⟨by omega, fun _ => decodeSOk ?_ hw⟩
  simp only [decodeS, decodePred, zeroIn, h0, f1, f2, z1, z2, z3, z4, z5, and_self, if_true]
theorem b (p : BitVec 3) (n : BitVec 1) (o : BitVec 22) : Statement (.b p n o) := by
  intro hw
  have := p.isLt; have := n.isLt; have := o.isLt
  obtain ⟨W, hW⟩ : ∃ W, 0x10 * 2 ^ 26 + p.toNat * 2 ^ 23 + n.toNat * 2 ^ 22 + o.toNat = W := ⟨_, rfl⟩
  show 0x10 * 2 ^ 26 + p.toNat * 2 ^ 23 + n.toNat * 2 ^ 22 + o.toNat < 2 ^ 32 ∧ ∀ nx, decode .S (0x10 * 2 ^ 26 + p.toNat * 2 ^ 23 + n.toNat * 2 ^ 22 + o.toNat) nx = .ok _
  rw [hW]
  have _ := hW
  have h0 : bits W 26 6 = 16 := by simp only [bits]; omega
  have f1 : fld 3 W 23 = p := fldEq _ (by omega)
  have f2 : fld 1 W 22 = n := fldEq _ (by omega)
  have f3 : fld 22 W 0 = o := fldEq _ (by omega)
  refine ⟨by omega, fun _ => decodeSOk ?_ hw⟩
  simp only [decodeS, h0, f1, f2, f3]
theorem jmp (o : BitVec 26) : Statement (.jmp o) := by
  intro hw
  have := o.isLt
  obtain ⟨W, hW⟩ : ∃ W, encSJ 0x11 o.toNat = W := ⟨_, rfl⟩
  show encSJ 0x11 o.toNat < 2 ^ 32 ∧ ∀ nx, decode .S (encSJ 0x11 o.toNat) nx = .ok _
  rw [hW]
  simp only [encSJ] at hW
  have h0 : bits W 26 6 = 17 := by simp only [bits]; omega
  have f1 : fld 26 W 0 = o := fldEq _ (by omega)
  refine ⟨by omega, fun _ => decodeSOk ?_ hw⟩
  simp only [decodeS, h0, f1]
theorem call (o : BitVec 26) : Statement (.call o) := by
  intro hw
  have := o.isLt
  obtain ⟨W, hW⟩ : ∃ W, encSJ 0x12 o.toNat = W := ⟨_, rfl⟩
  show encSJ 0x12 o.toNat < 2 ^ 32 ∧ ∀ nx, decode .S (encSJ 0x12 o.toNat) nx = .ok _
  rw [hW]
  simp only [encSJ] at hW
  have h0 : bits W 26 6 = 18 := by simp only [bits]; omega
  have f1 : fld 26 W 0 = o := fldEq _ (by omega)
  refine ⟨by omega, fun _ => decodeSOk ?_ hw⟩
  simp only [decodeS, h0, f1]
theorem jr (a : BitVec 6) : Statement (.jr a) := by
  intro hw
  have := a.isLt
  obtain ⟨W, hW⟩ : ∃ W, encSR 0x13 0 a.toNat 0 0 = W := ⟨_, rfl⟩
  show encSR 0x13 0 a.toNat 0 0 < 2 ^ 32 ∧ ∀ nx, decode .S (encSR 0x13 0 a.toNat 0 0) nx = .ok _
  rw [hW]
  simp only [encSR] at hW
  have h0 : bits W 26 6 = 19 := by simp only [bits]; omega
  have f1 : fld 6 W 14 = a := fldEq _ (by omega)
  have z1 : bits W 0 14 = 0 := by simp only [bits]; omega
  have z2 : bits W 20 6 = 0 := by simp only [bits]; omega
  refine ⟨by omega, fun _ => decodeSOk ?_ hw⟩
  simp only [decodeS, zeroIn, h0, f1, z1, z2, if_true]
theorem ld (d : BitVec 6) (a : BitVec 6) (w : BitVec 2) (k : BitVec 1) (x : BitVec 1) (o : BitVec 10) : Statement (.ld d a w k x o) := by
  intro hw
  have := d.isLt; have := a.isLt; have := w.isLt; have := k.isLt; have := x.isLt; have := o.isLt
  obtain ⟨W, hW⟩ : ∃ W, encSI 0x18 d.toNat a.toNat (w.toNat * 2 ^ 12 + k.toNat * 2 ^ 11 + x.toNat * 2 ^ 10 + o.toNat) = W := ⟨_, rfl⟩
  show encSI 0x18 d.toNat a.toNat (w.toNat * 2 ^ 12 + k.toNat * 2 ^ 11 + x.toNat * 2 ^ 10 + o.toNat) < 2 ^ 32 ∧ ∀ nx, decode .S (encSI 0x18 d.toNat a.toNat (w.toNat * 2 ^ 12 + k.toNat * 2 ^ 11 + x.toNat * 2 ^ 10 + o.toNat)) nx = .ok _
  rw [hW]
  simp only [encSI] at hW
  have h0 : bits W 26 6 = 24 := by simp only [bits]; omega
  have f1 : fld 6 W 20 = d := fldEq _ (by omega)
  have f2 : fld 6 W 14 = a := fldEq _ (by omega)
  have f3 : fld 2 W 12 = w := fldEq _ (by omega)
  have f4 : fld 1 W 11 = k := fldEq _ (by omega)
  have f5 : fld 1 W 10 = x := fldEq _ (by omega)
  have f6 : fld 10 W 0 = o := fldEq _ (by omega)
  refine ⟨by omega, fun _ => decodeSOk ?_ hw⟩
  simp only [decodeS, h0, f1, f2, f3, f4, f5, f6]
theorem st (d : BitVec 6) (a : BitVec 6) (w : BitVec 2) (k : BitVec 1) (o : BitVec 10) : Statement (.st d a w k o) := by
  intro hw
  have := d.isLt; have := a.isLt; have := w.isLt; have := k.isLt; have := o.isLt
  obtain ⟨W, hW⟩ : ∃ W, encSI 0x19 d.toNat a.toNat (w.toNat * 2 ^ 12 + k.toNat * 2 ^ 11 + o.toNat) = W := ⟨_, rfl⟩
  show encSI 0x19 d.toNat a.toNat (w.toNat * 2 ^ 12 + k.toNat * 2 ^ 11 + o.toNat) < 2 ^ 32 ∧ ∀ nx, decode .S (encSI 0x19 d.toNat a.toNat (w.toNat * 2 ^ 12 + k.toNat * 2 ^ 11 + o.toNat)) nx = .ok _
  rw [hW]
  simp only [encSI] at hW
  have h0 : bits W 26 6 = 25 := by simp only [bits]; omega
  have f1 : fld 6 W 20 = d := fldEq _ (by omega)
  have f2 : fld 6 W 14 = a := fldEq _ (by omega)
  have f3 : fld 2 W 12 = w := fldEq _ (by omega)
  have f4 : fld 1 W 11 = k := fldEq _ (by omega)
  have f5 : fld 10 W 0 = o := fldEq _ (by omega)
  have z1 : bits W 10 1 = 0 := by simp only [bits]; omega
  refine ⟨by omega, fun _ => decodeSOk ?_ hw⟩
  simp only [decodeS, zeroIn, h0, f1, f2, f3, f4, f5, z1, if_true]
theorem ldm (d : BitVec 6) (a : BitVec 6) (n : BitVec 3) (o : BitVec 8) : Statement (.ldm d a n o) := by
  intro hw
  have := d.isLt; have := a.isLt; have := n.isLt; have := o.isLt
  obtain ⟨W, hW⟩ : ∃ W, encSI 0x1A d.toNat a.toNat (n.toNat * 2 ^ 11 + o.toNat * 2 ^ 3) = W := ⟨_, rfl⟩
  show encSI 0x1A d.toNat a.toNat (n.toNat * 2 ^ 11 + o.toNat * 2 ^ 3) < 2 ^ 32 ∧ ∀ nx, decode .S (encSI 0x1A d.toNat a.toNat (n.toNat * 2 ^ 11 + o.toNat * 2 ^ 3)) nx = .ok _
  rw [hW]
  simp only [encSI] at hW
  have h0 : bits W 26 6 = 26 := by simp only [bits]; omega
  have f1 : fld 6 W 20 = d := fldEq _ (by omega)
  have f2 : fld 6 W 14 = a := fldEq _ (by omega)
  have f3 : fld 3 W 11 = n := fldEq _ (by omega)
  have f4 : fld 8 W 3 = o := fldEq _ (by omega)
  have z1 : bits W 0 3 = 0 := by simp only [bits]; omega
  refine ⟨by omega, fun _ => decodeSOk ?_ hw⟩
  simp only [decodeS, zeroIn, h0, f1, f2, f3, f4, z1, if_true]
theorem stm (d : BitVec 6) (a : BitVec 6) (n : BitVec 3) (o : BitVec 8) : Statement (.stm d a n o) := by
  intro hw
  have := d.isLt; have := a.isLt; have := n.isLt; have := o.isLt
  obtain ⟨W, hW⟩ : ∃ W, encSI 0x1B d.toNat a.toNat (n.toNat * 2 ^ 11 + o.toNat * 2 ^ 3) = W := ⟨_, rfl⟩
  show encSI 0x1B d.toNat a.toNat (n.toNat * 2 ^ 11 + o.toNat * 2 ^ 3) < 2 ^ 32 ∧ ∀ nx, decode .S (encSI 0x1B d.toNat a.toNat (n.toNat * 2 ^ 11 + o.toNat * 2 ^ 3)) nx = .ok _
  rw [hW]
  simp only [encSI] at hW
  have h0 : bits W 26 6 = 27 := by simp only [bits]; omega
  have f1 : fld 6 W 20 = d := fldEq _ (by omega)
  have f2 : fld 6 W 14 = a := fldEq _ (by omega)
  have f3 : fld 3 W 11 = n := fldEq _ (by omega)
  have f4 : fld 8 W 3 = o := fldEq _ (by omega)
  have z1 : bits W 0 3 = 0 := by simp only [bits]; omega
  refine ⟨by omega, fun _ => decodeSOk ?_ hw⟩
  simp only [decodeS, zeroIn, h0, f1, f2, f3, f4, z1, if_true]
theorem lda (d : BitVec 6) (a : BitVec 6) (w : BitVec 2) (sc : BitVec 3) (o : BitVec 9) : Statement (.lda d a w sc o) := by
  intro hw
  have := d.isLt; have := a.isLt; have := w.isLt; have := sc.isLt; have := o.isLt
  obtain ⟨W, hW⟩ : ∃ W, encSI 0x1C d.toNat a.toNat (w.toNat * 2 ^ 12 + sc.toNat * 2 ^ 9 + o.toNat) = W := ⟨_, rfl⟩
  show encSI 0x1C d.toNat a.toNat (w.toNat * 2 ^ 12 + sc.toNat * 2 ^ 9 + o.toNat) < 2 ^ 32 ∧ ∀ nx, decode .S (encSI 0x1C d.toNat a.toNat (w.toNat * 2 ^ 12 + sc.toNat * 2 ^ 9 + o.toNat)) nx = .ok _
  rw [hW]
  simp only [encSI] at hW
  have h0 : bits W 26 6 = 28 := by simp only [bits]; omega
  have f1 : fld 6 W 20 = d := fldEq _ (by omega)
  have f2 : fld 6 W 14 = a := fldEq _ (by omega)
  have f3 : fld 2 W 12 = w := fldEq _ (by omega)
  have f4 : fld 3 W 9 = sc := fldEq _ (by omega)
  have f5 : fld 9 W 0 = o := fldEq _ (by omega)
  refine ⟨by omega, fun _ => decodeSOk ?_ hw⟩
  simp only [decodeS, h0, f1, f2, f3, f4, f5]
theorem stl (d : BitVec 6) (a : BitVec 6) (w : BitVec 2) (sc : BitVec 3) (o : BitVec 9) : Statement (.stl d a w sc o) := by
  intro hw
  have := d.isLt; have := a.isLt; have := w.isLt; have := sc.isLt; have := o.isLt
  obtain ⟨W, hW⟩ : ∃ W, encSI 0x1D d.toNat a.toNat (w.toNat * 2 ^ 12 + sc.toNat * 2 ^ 9 + o.toNat) = W := ⟨_, rfl⟩
  show encSI 0x1D d.toNat a.toNat (w.toNat * 2 ^ 12 + sc.toNat * 2 ^ 9 + o.toNat) < 2 ^ 32 ∧ ∀ nx, decode .S (encSI 0x1D d.toNat a.toNat (w.toNat * 2 ^ 12 + sc.toNat * 2 ^ 9 + o.toNat)) nx = .ok _
  rw [hW]
  simp only [encSI] at hW
  have h0 : bits W 26 6 = 29 := by simp only [bits]; omega
  have f1 : fld 6 W 20 = d := fldEq _ (by omega)
  have f2 : fld 6 W 14 = a := fldEq _ (by omega)
  have f3 : fld 2 W 12 = w := fldEq _ (by omega)
  have f4 : fld 3 W 9 = sc := fldEq _ (by omega)
  have f5 : fld 9 W 0 = o := fldEq _ (by omega)
  refine ⟨by omega, fun _ => decodeSOk ?_ hw⟩
  simp only [decodeS, h0, f1, f2, f3, f4, f5]
theorem throw (d : BitVec 6) (a : BitVec 6) (b : BitVec 6) (w : BitVec 2) (sc : BitVec 3) : Statement (.throw d a b w sc) := by
  intro hw
  have := d.isLt; have := a.isLt; have := b.isLt; have := w.isLt; have := sc.isLt
  obtain ⟨W, hW⟩ : ∃ W, encSR 0x1E d.toNat a.toNat b.toNat (w.toNat * 2 ^ 6 + sc.toNat * 2 ^ 3) = W := ⟨_, rfl⟩
  show encSR 0x1E d.toNat a.toNat b.toNat (w.toNat * 2 ^ 6 + sc.toNat * 2 ^ 3) < 2 ^ 32 ∧ ∀ nx, decode .S (encSR 0x1E d.toNat a.toNat b.toNat (w.toNat * 2 ^ 6 + sc.toNat * 2 ^ 3)) nx = .ok _
  rw [hW]
  simp only [encSR] at hW
  have h0 : bits W 26 6 = 30 := by simp only [bits]; omega
  have f1 : fld 6 W 20 = d := fldEq _ (by omega)
  have f2 : fld 6 W 14 = a := fldEq _ (by omega)
  have f3 : fld 6 W 8 = b := fldEq _ (by omega)
  have f4 : fld 2 W 6 = w := fldEq _ (by omega)
  have f5 : fld 3 W 3 = sc := fldEq _ (by omega)
  have z1 : bits W 0 3 = 0 := by simp only [bits]; omega
  refine ⟨by omega, fun _ => decodeSOk ?_ hw⟩
  simp only [decodeS, zeroIn, h0, f1, f2, f3, f4, f5, z1, if_true]
theorem pref (a : BitVec 6) (sc : BitVec 3) (o : BitVec 9) : Statement (.pref a sc o) := by
  intro hw
  have := a.isLt; have := sc.isLt; have := o.isLt
  obtain ⟨W, hW⟩ : ∃ W, encSI 0x1F 0 a.toNat (3 * 2 ^ 12 + sc.toNat * 2 ^ 9 + o.toNat) = W := ⟨_, rfl⟩
  show encSI 0x1F 0 a.toNat (3 * 2 ^ 12 + sc.toNat * 2 ^ 9 + o.toNat) < 2 ^ 32 ∧ ∀ nx, decode .S (encSI 0x1F 0 a.toNat (3 * 2 ^ 12 + sc.toNat * 2 ^ 9 + o.toNat)) nx = .ok _
  rw [hW]
  simp only [encSI] at hW
  have h0 : bits W 26 6 = 31 := by simp only [bits]; omega
  have f1 : fld 6 W 14 = a := fldEq _ (by omega)
  have f2 : fld 3 W 9 = sc := fldEq _ (by omega)
  have f3 : fld 9 W 0 = o := fldEq _ (by omega)
  have z1 : bits W 20 6 = 0 := by simp only [bits]; omega
  have z2 : bits W 12 2 = 3 := by simp only [bits]; omega
  refine ⟨by omega, fun _ => decodeSOk ?_ hw⟩
  simp only [decodeS, zeroIn, h0, f1, f2, f3, z1, z2, if_true]
theorem spl (d : BitVec 6) (n : BitVec 9) : Statement (.spl d n) := by
  intro hw
  have := d.isLt; have := n.isLt
  obtain ⟨W, hW⟩ : ∃ W, encSU 0x20 d.toNat n.toNat = W := ⟨_, rfl⟩
  show encSU 0x20 d.toNat n.toNat < 2 ^ 32 ∧ ∀ nx, decode .S (encSU 0x20 d.toNat n.toNat) nx = .ok _
  rw [hW]
  simp only [encSU] at hW
  have h0 : bits W 26 6 = 32 := by simp only [bits]; omega
  have f1 : fld 6 W 20 = d := fldEq _ (by omega)
  have f2 : fld 9 W 0 = n := fldEq _ (by omega)
  have z1 : bits W 9 11 = 0 := by simp only [bits]; omega
  refine ⟨by omega, fun _ => decodeSOk ?_ hw⟩
  simp only [decodeS, zeroIn, h0, f1, f2, z1, if_true]
theorem sps (d : BitVec 6) (n : BitVec 9) : Statement (.sps d n) := by
  intro hw
  have := d.isLt; have := n.isLt
  obtain ⟨W, hW⟩ : ∃ W, encSU 0x21 d.toNat n.toNat = W := ⟨_, rfl⟩
  show encSU 0x21 d.toNat n.toNat < 2 ^ 32 ∧ ∀ nx, decode .S (encSU 0x21 d.toNat n.toNat) nx = .ok _
  rw [hW]
  simp only [encSU] at hW
  have h0 : bits W 26 6 = 33 := by simp only [bits]; omega
  have f1 : fld 6 W 20 = d := fldEq _ (by omega)
  have f2 : fld 9 W 0 = n := fldEq _ (by omega)
  have z1 : bits W 9 11 = 0 := by simp only [bits]; omega
  refine ⟨by omega, fun _ => decodeSOk ?_ hw⟩
  simp only [decodeS, zeroIn, h0, f1, f2, z1, if_true]
theorem qpush (a : BitVec 6) (q : BitVec 6) : Statement (.qpush a q) := by
  intro hw
  have := a.isLt; have := q.isLt
  obtain ⟨W, hW⟩ : ∃ W, encSR 0x22 0 a.toNat q.toNat 0 = W := ⟨_, rfl⟩
  show encSR 0x22 0 a.toNat q.toNat 0 < 2 ^ 32 ∧ ∀ nx, decode .S (encSR 0x22 0 a.toNat q.toNat 0) nx = .ok _
  rw [hW]
  simp only [encSR] at hW
  have h0 : bits W 26 6 = 34 := by simp only [bits]; omega
  have f1 : fld 6 W 14 = a := fldEq _ (by omega)
  have f2 : fld 6 W 8 = q := fldEq _ (by omega)
  have z1 : bits W 0 8 = 0 := by simp only [bits]; omega
  have z2 : bits W 20 6 = 0 := by simp only [bits]; omega
  refine ⟨by omega, fun _ => decodeSOk ?_ hw⟩
  simp only [decodeS, zeroIn, h0, f1, f2, z1, z2, if_true]
theorem qpop (d : BitVec 6) (q : BitVec 6) : Statement (.qpop d q) := by
  intro hw
  have := d.isLt; have := q.isLt
  obtain ⟨W, hW⟩ : ∃ W, encSR 0x23 d.toNat 0 q.toNat 0 = W := ⟨_, rfl⟩
  show encSR 0x23 d.toNat 0 q.toNat 0 < 2 ^ 32 ∧ ∀ nx, decode .S (encSR 0x23 d.toNat 0 q.toNat 0) nx = .ok _
  rw [hW]
  simp only [encSR] at hW
  have h0 : bits W 26 6 = 35 := by simp only [bits]; omega
  have f1 : fld 6 W 20 = d := fldEq _ (by omega)
  have f2 : fld 6 W 8 = q := fldEq _ (by omega)
  have z1 : bits W 0 8 = 0 := by simp only [bits]; omega
  have z2 : bits W 14 6 = 0 := by simp only [bits]; omega
  refine ⟨by omega, fun _ => decodeSOk ?_ hw⟩
  simp only [decodeS, zeroIn, h0, f1, f2, z1, z2, if_true]
theorem qcnt (d : BitVec 6) (q : BitVec 6) : Statement (.qcnt d q) := by
  intro hw
  have := d.isLt; have := q.isLt
  obtain ⟨W, hW⟩ : ∃ W, encSR 0x24 d.toNat 0 q.toNat 0 = W := ⟨_, rfl⟩
  show encSR 0x24 d.toNat 0 q.toNat 0 < 2 ^ 32 ∧ ∀ nx, decode .S (encSR 0x24 d.toNat 0 q.toNat 0) nx = .ok _
  rw [hW]
  simp only [encSR] at hW
  have h0 : bits W 26 6 = 36 := by simp only [bits]; omega
  have f1 : fld 6 W 20 = d := fldEq _ (by omega)
  have f2 : fld 6 W 8 = q := fldEq _ (by omega)
  have z1 : bits W 0 8 = 0 := by simp only [bits]; omega
  have z2 : bits W 14 6 = 0 := by simp only [bits]; omega
  refine ⟨by omega, fun _ => decodeSOk ?_ hw⟩
  simp only [decodeS, zeroIn, h0, f1, f2, z1, z2, if_true]
theorem fence (sc : BitVec 3) (f : BitVec 8) (t : BitVec 8) (k : BitVec 2) : Statement (.fence sc f t k) := by
  intro hw
  have := sc.isLt; have := f.isLt; have := t.isLt; have := k.isLt
  obtain ⟨W, hW⟩ : ∃ W, 0x28 * 2 ^ 26 + sc.toNat * 2 ^ 23 + f.toNat * 2 ^ 15 + t.toNat * 2 ^ 7 + k.toNat * 2 ^ 5 = W := ⟨_, rfl⟩
  show 0x28 * 2 ^ 26 + sc.toNat * 2 ^ 23 + f.toNat * 2 ^ 15 + t.toNat * 2 ^ 7 + k.toNat * 2 ^ 5 < 2 ^ 32 ∧ ∀ nx, decode .S (0x28 * 2 ^ 26 + sc.toNat * 2 ^ 23 + f.toNat * 2 ^ 15 + t.toNat * 2 ^ 7 + k.toNat * 2 ^ 5) nx = .ok _
  rw [hW]
  have _ := hW
  have h0 : bits W 26 6 = 40 := by simp only [bits]; omega
  have f1 : fld 3 W 23 = sc := fldEq _ (by omega)
  have f2 : fld 8 W 15 = f := fldEq _ (by omega)
  have f3 : fld 8 W 7 = t := fldEq _ (by omega)
  have f4 : fld 2 W 5 = k := fldEq _ (by omega)
  have z1 : bits W 0 5 = 0 := by simp only [bits]; omega
  refine ⟨by omega, fun _ => decodeSOk ?_ hw⟩
  simp only [decodeS, zeroIn, h0, f1, f2, f3, f4, z1, if_true]
theorem fenceRetire (j : Nat) : Statement (.fenceRetire j) := fun _ => trivial
theorem waitMemeq (a : BitVec 6) (b : BitVec 6) (sc : BitVec 3) : Statement (.waitMemeq a b sc) := by
  intro hw
  have := a.isLt; have := b.isLt; have := sc.isLt
  obtain ⟨W, hW⟩ : ∃ W, 0x29 * 2 ^ 26 + 1 * 2 ^ 23 + a.toNat * 2 ^ 14 + b.toNat * 2 ^ 8 + sc.toNat = W := ⟨_, rfl⟩
  show 0x29 * 2 ^ 26 + 1 * 2 ^ 23 + a.toNat * 2 ^ 14 + b.toNat * 2 ^ 8 + sc.toNat < 2 ^ 32 ∧ ∀ nx, decode .S (0x29 * 2 ^ 26 + 1 * 2 ^ 23 + a.toNat * 2 ^ 14 + b.toNat * 2 ^ 8 + sc.toNat) nx = .ok _
  rw [hW]
  have _ := hW
  have h0 : bits W 26 6 = 41 := by simp only [bits]; omega
  have f1 : fld 6 W 14 = a := fldEq _ (by omega)
  have f2 : fld 6 W 8 = b := fldEq _ (by omega)
  have f3 : fld 3 W 0 = sc := fldEq _ (by omega)
  have z1 : bits W 3 5 = 0 := by simp only [bits]; omega
  have z2 : bits W 20 3 = 0 := by simp only [bits]; omega
  have z3 : bits W 23 3 = 1 := by simp only [bits]; omega
  refine ⟨by omega, fun _ => decodeSOk ?_ hw⟩
  simp only [decodeS, decodeWait, zeroIn, h0, f1, f2, f3, z1, z2, z3, if_true]
theorem waitMemge (a : BitVec 6) (b : BitVec 6) (sc : BitVec 3) : Statement (.waitMemge a b sc) := by
  intro hw
  have := a.isLt; have := b.isLt; have := sc.isLt
  obtain ⟨W, hW⟩ : ∃ W, 0x29 * 2 ^ 26 + 2 * 2 ^ 23 + a.toNat * 2 ^ 14 + b.toNat * 2 ^ 8 + sc.toNat = W := ⟨_, rfl⟩
  show 0x29 * 2 ^ 26 + 2 * 2 ^ 23 + a.toNat * 2 ^ 14 + b.toNat * 2 ^ 8 + sc.toNat < 2 ^ 32 ∧ ∀ nx, decode .S (0x29 * 2 ^ 26 + 2 * 2 ^ 23 + a.toNat * 2 ^ 14 + b.toNat * 2 ^ 8 + sc.toNat) nx = .ok _
  rw [hW]
  have _ := hW
  have h0 : bits W 26 6 = 41 := by simp only [bits]; omega
  have f1 : fld 6 W 14 = a := fldEq _ (by omega)
  have f2 : fld 6 W 8 = b := fldEq _ (by omega)
  have f3 : fld 3 W 0 = sc := fldEq _ (by omega)
  have z1 : bits W 3 5 = 0 := by simp only [bits]; omega
  have z2 : bits W 20 3 = 0 := by simp only [bits]; omega
  have z3 : bits W 23 3 = 2 := by simp only [bits]; omega
  refine ⟨by omega, fun _ => decodeSOk ?_ hw⟩
  simp only [decodeS, decodeWait, zeroIn, h0, f1, f2, f3, z1, z2, z3, if_true]
theorem waitNm (a : BitVec 6) : Statement (.waitNm a) := by
  intro hw
  have := a.isLt
  obtain ⟨W, hW⟩ : ∃ W, 0x29 * 2 ^ 26 + 3 * 2 ^ 23 + a.toNat * 2 ^ 14 = W := ⟨_, rfl⟩
  show 0x29 * 2 ^ 26 + 3 * 2 ^ 23 + a.toNat * 2 ^ 14 < 2 ^ 32 ∧ ∀ nx, decode .S (0x29 * 2 ^ 26 + 3 * 2 ^ 23 + a.toNat * 2 ^ 14) nx = .ok _
  rw [hW]
  have _ := hW
  have h0 : bits W 26 6 = 41 := by simp only [bits]; omega
  have f1 : fld 6 W 14 = a := fldEq _ (by omega)
  have z1 : bits W 0 14 = 0 := by simp only [bits]; omega
  have z2 : bits W 20 3 = 0 := by simp only [bits]; omega
  have z3 : bits W 23 3 = 3 := by simp only [bits]; omega
  refine ⟨by omega, fun _ => decodeSOk ?_ hw⟩
  simp only [decodeS, decodeWait, zeroIn, h0, f1, z1, z2, z3, if_true]
theorem waitIngr (a : BitVec 6) (b : BitVec 6) : Statement (.waitIngr a b) := by
  intro hw
  have := a.isLt; have := b.isLt
  obtain ⟨W, hW⟩ : ∃ W, 0x29 * 2 ^ 26 + 4 * 2 ^ 23 + a.toNat * 2 ^ 14 + b.toNat * 2 ^ 8 = W := ⟨_, rfl⟩
  show 0x29 * 2 ^ 26 + 4 * 2 ^ 23 + a.toNat * 2 ^ 14 + b.toNat * 2 ^ 8 < 2 ^ 32 ∧ ∀ nx, decode .S (0x29 * 2 ^ 26 + 4 * 2 ^ 23 + a.toNat * 2 ^ 14 + b.toNat * 2 ^ 8) nx = .ok _
  rw [hW]
  have _ := hW
  have h0 : bits W 26 6 = 41 := by simp only [bits]; omega
  have f1 : fld 6 W 14 = a := fldEq _ (by omega)
  have f2 : fld 6 W 8 = b := fldEq _ (by omega)
  have z1 : bits W 0 8 = 0 := by simp only [bits]; omega
  have z2 : bits W 20 3 = 0 := by simp only [bits]; omega
  have z3 : bits W 23 3 = 4 := by simp only [bits]; omega
  refine ⟨by omega, fun _ => decodeSOk ?_ hw⟩
  simp only [decodeS, decodeWait, zeroIn, h0, f1, f2, z1, z2, z3, if_true]
theorem waitReevaluate (j : Nat) : Statement (.waitReevaluate j) := fun _ => trivial
theorem rdv (m : BitVec 3) : Statement (.rdv m) := by
  intro hw
  have := m.isLt
  obtain ⟨W, hW⟩ : ∃ W, 0x2B * 2 ^ 26 + m.toNat * 2 ^ 23 = W := ⟨_, rfl⟩
  show 0x2B * 2 ^ 26 + m.toNat * 2 ^ 23 < 2 ^ 32 ∧ ∀ nx, decode .S (0x2B * 2 ^ 26 + m.toNat * 2 ^ 23) nx = .ok _
  rw [hW]
  have _ := hW
  have h0 : bits W 26 6 = 43 := by simp only [bits]; omega
  have f1 : fld 3 W 23 = m := fldEq _ (by omega)
  have z1 : bits W 0 23 = 0 := by simp only [bits]; omega
  refine ⟨by omega, fun _ => decodeSOk ?_ hw⟩
  simp only [decodeS, zeroIn, h0, f1, z1, if_true]
theorem joinComplete (j : Nat) : Statement (.joinComplete j) := fun _ => trivial
theorem haltRetire (j : Nat) : Statement (.haltRetire j) := fun _ => trivial
theorem barc (i : BitVec 4) : Statement (.barc i) := by
  intro hw
  have := i.isLt
  obtain ⟨W, hW⟩ : ∃ W, 0x2E * 2 ^ 26 + i.toNat = W := ⟨_, rfl⟩
  show 0x2E * 2 ^ 26 + i.toNat < 2 ^ 32 ∧ ∀ nx, decode .S (0x2E * 2 ^ 26 + i.toNat) nx = .ok _
  rw [hW]
  have _ := hW
  have h0 : bits W 26 6 = 46 := by simp only [bits]; omega
  have f1 : fld 4 W 0 = i := fldEq _ (by omega)
  have z1 : bits W 4 22 = 0 := by simp only [bits]; omega
  refine ⟨by omega, fun _ => decodeSOk ?_ hw⟩
  simp only [decodeS, zeroIn, h0, f1, z1, if_true]
theorem barrierComplete (cl : Nat) (launch : Nat) (id : Nat) : Statement (.barrierComplete cl launch id) := fun _ => trivial
theorem rbeg (o : BitVec 26) : Statement (.rbeg o) := by
  intro hw
  have := o.isLt
  obtain ⟨W, hW⟩ : ∃ W, encSJ 0x30 o.toNat = W := ⟨_, rfl⟩
  show encSJ 0x30 o.toNat < 2 ^ 32 ∧ ∀ nx, decode .S (encSJ 0x30 o.toNat) nx = .ok _
  rw [hW]
  simp only [encSJ] at hW
  have h0 : bits W 26 6 = 48 := by simp only [bits]; omega
  have f1 : fld 26 W 0 = o := fldEq _ (by omega)
  refine ⟨by omega, fun _ => decodeSOk ?_ hw⟩
  simp only [decodeS, h0, f1]
theorem rcom (d : BitVec 6) : Statement (.rcom d) := by
  intro hw
  have := d.isLt
  obtain ⟨W, hW⟩ : ∃ W, encSU 0x31 d.toNat 0 = W := ⟨_, rfl⟩
  show encSU 0x31 d.toNat 0 < 2 ^ 32 ∧ ∀ nx, decode .S (encSU 0x31 d.toNat 0) nx = .ok _
  rw [hW]
  simp only [encSU] at hW
  have h0 : bits W 26 6 = 49 := by simp only [bits]; omega
  have f1 : fld 6 W 20 = d := fldEq _ (by omega)
  have z1 : bits W 0 20 = 0 := by simp only [bits]; omega
  refine ⟨by omega, fun _ => decodeSOk ?_ hw⟩
  simp only [decodeS, zeroIn, h0, f1, z1, if_true]
theorem regionCommit (j : Nat) : Statement (.regionCommit j) := fun _ => trivial
theorem rabt (c : BitVec 8) : Statement (.rabt c) := by
  intro hw
  have := c.isLt
  obtain ⟨W, hW⟩ : ∃ W, encSU 0x32 0 c.toNat = W := ⟨_, rfl⟩
  show encSU 0x32 0 c.toNat < 2 ^ 32 ∧ ∀ nx, decode .S (encSU 0x32 0 c.toNat) nx = .ok _
  rw [hW]
  simp only [encSU] at hW
  have h0 : bits W 26 6 = 50 := by simp only [bits]; omega
  have f1 : fld 8 W 0 = c := fldEq _ (by omega)
  have z1 : bits W 8 18 = 0 := by simp only [bits]; omega
  refine ⟨by omega, fun _ => decodeSOk ?_ hw⟩
  simp only [decodeS, zeroIn, h0, f1, z1, if_true]
theorem rbndLo (d : BitVec 6) : Statement (.rbndLo d) := by
  intro hw
  have := d.isLt
  obtain ⟨W, hW⟩ : ∃ W, encSU 0x33 d.toNat 0 = W := ⟨_, rfl⟩
  show encSU 0x33 d.toNat 0 < 2 ^ 32 ∧ ∀ nx, decode .S (encSU 0x33 d.toNat 0) nx = .ok _
  rw [hW]
  simp only [encSU] at hW
  have h0 : bits W 26 6 = 51 := by simp only [bits]; omega
  have f1 : fld 6 W 20 = d := fldEq _ (by omega)
  have z1 : bits W 1 19 = 0 := by simp only [bits]; omega
  have z2 : bits W 0 1 = 0 := by simp only [bits]; omega
  refine ⟨by omega, fun _ => decodeSOk ?_ hw⟩
  simp only [decodeS, h0, f1, z1, z2, if_true]
theorem rbndHi (d : BitVec 6) : Statement (.rbndHi d) := by
  intro hw
  have := d.isLt
  obtain ⟨W, hW⟩ : ∃ W, encSU 0x33 d.toNat 1 = W := ⟨_, rfl⟩
  show encSU 0x33 d.toNat 1 < 2 ^ 32 ∧ ∀ nx, decode .S (encSU 0x33 d.toNat 1) nx = .ok _
  rw [hW]
  simp only [encSU] at hW
  have h0 : bits W 26 6 = 51 := by simp only [bits]; omega
  have f1 : fld 6 W 20 = d := fldEq _ (by omega)
  have z1 : bits W 1 19 = 0 := by simp only [bits]; omega
  have z2 : bits W 0 1 = 1 := by simp only [bits]; omega
  refine ⟨by omega, fun _ => decodeSOk ?_ hw⟩
  simp only [decodeS, h0, f1, z1, z2, if_true]
  rfl
theorem nmgo (d : BitVec 6) (a : BitVec 6) : Statement (.nmgo d a) := by
  intro hw
  have := d.isLt; have := a.isLt
  obtain ⟨W, hW⟩ : ∃ W, encSR 0x34 d.toNat a.toNat 0 0 = W := ⟨_, rfl⟩
  show encSR 0x34 d.toNat a.toNat 0 0 < 2 ^ 32 ∧ ∀ nx, decode .S (encSR 0x34 d.toNat a.toNat 0 0) nx = .ok _
  rw [hW]
  simp only [encSR] at hW
  have h0 : bits W 26 6 = 52 := by simp only [bits]; omega
  have f1 : fld 6 W 20 = d := fldEq _ (by omega)
  have f2 : fld 6 W 14 = a := fldEq _ (by omega)
  have z1 : bits W 0 14 = 0 := by simp only [bits]; omega
  refine ⟨by omega, fun _ => decodeSOk ?_ hw⟩
  simp only [decodeS, zeroIn, h0, f1, f2, z1, if_true]
theorem nmwt (d : BitVec 6) (a : BitVec 6) : Statement (.nmwt d a) := by
  intro hw
  have := d.isLt; have := a.isLt
  obtain ⟨W, hW⟩ : ∃ W, encSR 0x35 d.toNat a.toNat 0 0 = W := ⟨_, rfl⟩
  show encSR 0x35 d.toNat a.toNat 0 0 < 2 ^ 32 ∧ ∀ nx, decode .S (encSR 0x35 d.toNat a.toNat 0 0) nx = .ok _
  rw [hW]
  simp only [encSR] at hW
  have h0 : bits W 26 6 = 53 := by simp only [bits]; omega
  have f1 : fld 6 W 20 = d := fldEq _ (by omega)
  have f2 : fld 6 W 14 = a := fldEq _ (by omega)
  have z1 : bits W 0 14 = 0 := by simp only [bits]; omega
  refine ⟨by omega, fun _ => decodeSOk ?_ hw⟩
  simp only [decodeS, zeroIn, h0, f1, f2, z1, if_true]
theorem spawn (d : BitVec 6) (a : BitVec 6) (b : BitVec 6) : Statement (.spawn d a b) := by
  intro hw
  have := d.isLt; have := a.isLt; have := b.isLt
  obtain ⟨W, hW⟩ : ∃ W, encSR 0x36 d.toNat a.toNat b.toNat 0 = W := ⟨_, rfl⟩
  show encSR 0x36 d.toNat a.toNat b.toNat 0 < 2 ^ 32 ∧ ∀ nx, decode .S (encSR 0x36 d.toNat a.toNat b.toNat 0) nx = .ok _
  rw [hW]
  simp only [encSR] at hW
  have h0 : bits W 26 6 = 54 := by simp only [bits]; omega
  have f1 : fld 6 W 20 = d := fldEq _ (by omega)
  have f2 : fld 6 W 14 = a := fldEq _ (by omega)
  have f3 : fld 6 W 8 = b := fldEq _ (by omega)
  have z1 : bits W 0 8 = 0 := by simp only [bits]; omega
  refine ⟨by omega, fun _ => decodeSOk ?_ hw⟩
  simp only [decodeS, zeroIn, h0, f1, f2, f3, z1, if_true]
theorem wgen (d : BitVec 6) (a : BitVec 6) : Statement (.wgen d a) := by
  intro hw
  have := d.isLt; have := a.isLt
  obtain ⟨W, hW⟩ : ∃ W, encSR 0x37 d.toNat a.toNat 0 0 = W := ⟨_, rfl⟩
  show encSR 0x37 d.toNat a.toNat 0 0 < 2 ^ 32 ∧ ∀ nx, decode .S (encSR 0x37 d.toNat a.toNat 0 0) nx = .ok _
  rw [hW]
  simp only [encSR] at hW
  have h0 : bits W 26 6 = 55 := by simp only [bits]; omega
  have f1 : fld 6 W 20 = d := fldEq _ (by omega)
  have f2 : fld 6 W 14 = a := fldEq _ (by omega)
  have z1 : bits W 0 14 = 0 := by simp only [bits]; omega
  refine ⟨by omega, fun _ => decodeSOk ?_ hw⟩
  simp only [decodeS, zeroIn, h0, f1, f2, z1, if_true]
theorem csrr (d : BitVec 6) (c : BitVec 12) : Statement (.csrr d c) := by
  intro hw
  have := d.isLt; have := c.isLt
  obtain ⟨W, hW⟩ : ∃ W, encSI 0x38 d.toNat 0 c.toNat = W := ⟨_, rfl⟩
  show encSI 0x38 d.toNat 0 c.toNat < 2 ^ 32 ∧ ∀ nx, decode .S (encSI 0x38 d.toNat 0 c.toNat) nx = .ok _
  rw [hW]
  simp only [encSI] at hW
  have h0 : bits W 26 6 = 56 := by simp only [bits]; omega
  have f1 : fld 6 W 20 = d := fldEq _ (by omega)
  have f2 : fld 12 W 0 = c := fldEq _ (by omega)
  have z1 : bits W 12 8 = 0 := by simp only [bits]; omega
  refine ⟨by omega, fun _ => decodeSOk ?_ hw⟩
  simp only [decodeS, zeroIn, h0, f1, f2, z1, if_true]
theorem csrw (a : BitVec 6) (c : BitVec 12) : Statement (.csrw a c) := by
  intro hw
  have := a.isLt; have := c.isLt
  obtain ⟨W, hW⟩ : ∃ W, encSI 0x39 0 a.toNat c.toNat = W := ⟨_, rfl⟩
  show encSI 0x39 0 a.toNat c.toNat < 2 ^ 32 ∧ ∀ nx, decode .S (encSI 0x39 0 a.toNat c.toNat) nx = .ok _
  rw [hW]
  simp only [encSI] at hW
  have h0 : bits W 26 6 = 57 := by simp only [bits]; omega
  have f1 : fld 6 W 14 = a := fldEq _ (by omega)
  have f2 : fld 12 W 0 = c := fldEq _ (by omega)
  have z1 : bits W 12 2 = 0 := by simp only [bits]; omega
  have z2 : bits W 20 6 = 0 := by simp only [bits]; omega
  refine ⟨by omega, fun _ => decodeSOk ?_ hw⟩
  simp only [decodeS, zeroIn, h0, f1, f2, z1, z2, if_true]
theorem trap (i : BitVec 20) : Statement (.trap i) := by
  intro hw
  have := i.isLt
  obtain ⟨W, hW⟩ : ∃ W, encSU 0x3A 0 i.toNat = W := ⟨_, rfl⟩
  show encSU 0x3A 0 i.toNat < 2 ^ 32 ∧ ∀ nx, decode .S (encSU 0x3A 0 i.toNat) nx = .ok _
  rw [hW]
  simp only [encSU] at hW
  have h0 : bits W 26 6 = 58 := by simp only [bits]; omega
  have f1 : fld 20 W 0 = i := fldEq _ (by omega)
  have z1 : bits W 20 6 = 0 := by simp only [bits]; omega
  have hs : serviceAssigned i = false := by simpa [Instr.wf] using hw
  have z2 : bits W 0 20 = i.toNat := by simp only [bits]; omega
  simp only [serviceAssigned, List.contains_eq_mem, List.mem_cons, List.not_mem_nil, or_false, decide_eq_false_iff_not, not_or] at hs
  refine ⟨by omega, fun _ => decodeSOk ?_ hw⟩
  simp only [decodeS, h0, zeroIn, z1, decodeTrap, z2, f1, if_true]
  split <;> first | rfl | omega
theorem replayEnd (j : Nat) : Statement (.replayEnd j) := fun _ => trivial
theorem unassignedFirmwareService (i : BitVec 20) : Statement (.unassignedFirmwareService i) := fun _ => trivial
theorem vshape (w : EWord) : Statement (.vshape w) := fun hw =>
  ⟨(decodeVectorOk (n := 0) (op := 0x1) (by omega) rfl hw rfl).1, fun n => (decodeVectorOk (n := n) (op := 0x1) (by omega) rfl hw rfl).2⟩
theorem vadd (w : EWord) : Statement (.vadd w) := fun hw =>
  ⟨(decodeVectorOk (n := 0) (op := 0x10) (by omega) rfl hw rfl).1, fun n => (decodeVectorOk (n := n) (op := 0x10) (by omega) rfl hw rfl).2⟩
theorem vsub (w : EWord) : Statement (.vsub w) := fun hw =>
  ⟨(decodeVectorOk (n := 0) (op := 0x11) (by omega) rfl hw rfl).1, fun n => (decodeVectorOk (n := n) (op := 0x11) (by omega) rfl hw rfl).2⟩
theorem vmul (w : EWord) : Statement (.vmul w) := fun hw =>
  ⟨(decodeVectorOk (n := 0) (op := 0x12) (by omega) rfl hw rfl).1, fun n => (decodeVectorOk (n := n) (op := 0x12) (by omega) rfl hw rfl).2⟩
theorem vfma (w : EWord) : Statement (.vfma w) := fun hw =>
  ⟨(decodeVectorOk (n := 0) (op := 0x13) (by omega) rfl hw rfl).1, fun n => (decodeVectorOk (n := n) (op := 0x13) (by omega) rfl hw rfl).2⟩
theorem vmin (w : EWord) : Statement (.vmin w) := fun hw =>
  ⟨(decodeVectorOk (n := 0) (op := 0x14) (by omega) rfl hw rfl).1, fun n => (decodeVectorOk (n := n) (op := 0x14) (by omega) rfl hw rfl).2⟩
theorem vmax (w : EWord) : Statement (.vmax w) := fun hw =>
  ⟨(decodeVectorOk (n := 0) (op := 0x15) (by omega) rfl hw rfl).1, fun n => (decodeVectorOk (n := n) (op := 0x15) (by omega) rfl hw rfl).2⟩
theorem vabs (w : EWord) : Statement (.vabs w) := fun hw =>
  ⟨(decodeVectorOk (n := 0) (op := 0x16) (by omega) rfl hw rfl).1, fun n => (decodeVectorOk (n := n) (op := 0x16) (by omega) rfl hw rfl).2⟩
theorem vneg (w : EWord) : Statement (.vneg w) := fun hw =>
  ⟨(decodeVectorOk (n := 0) (op := 0x17) (by omega) rfl hw rfl).1, fun n => (decodeVectorOk (n := n) (op := 0x17) (by omega) rfl hw rfl).2⟩
theorem vand (w : EWord) : Statement (.vand w) := fun hw =>
  ⟨(decodeVectorOk (n := 0) (op := 0x18) (by omega) rfl hw rfl).1, fun n => (decodeVectorOk (n := n) (op := 0x18) (by omega) rfl hw rfl).2⟩
theorem vor (w : EWord) : Statement (.vor w) := fun hw =>
  ⟨(decodeVectorOk (n := 0) (op := 0x19) (by omega) rfl hw rfl).1, fun n => (decodeVectorOk (n := n) (op := 0x19) (by omega) rfl hw rfl).2⟩
theorem vxor (w : EWord) : Statement (.vxor w) := fun hw =>
  ⟨(decodeVectorOk (n := 0) (op := 0x1A) (by omega) rfl hw rfl).1, fun n => (decodeVectorOk (n := n) (op := 0x1A) (by omega) rfl hw rfl).2⟩
theorem vshl (w : EWord) : Statement (.vshl w) := fun hw =>
  ⟨(decodeVectorOk (n := 0) (op := 0x1B) (by omega) rfl hw rfl).1, fun n => (decodeVectorOk (n := n) (op := 0x1B) (by omega) rfl hw rfl).2⟩
theorem vshr (w : EWord) : Statement (.vshr w) := fun hw =>
  ⟨(decodeVectorOk (n := 0) (op := 0x1C) (by omega) rfl hw rfl).1, fun n => (decodeVectorOk (n := n) (op := 0x1C) (by omega) rfl hw rfl).2⟩
theorem vcmp (w : EWord) : Statement (.vcmp w) := fun hw =>
  ⟨(decodeVectorOk (n := 0) (op := 0x1D) (by omega) rfl hw rfl).1, fun n => (decodeVectorOk (n := n) (op := 0x1D) (by omega) rfl hw rfl).2⟩
theorem vsel (w : EWord) : Statement (.vsel w) := fun hw =>
  ⟨(decodeVectorOk (n := 0) (op := 0x1E) (by omega) rfl hw rfl).1, fun n => (decodeVectorOk (n := n) (op := 0x1E) (by omega) rfl hw rfl).2⟩
theorem vcvt (w : EWord) : Statement (.vcvt w) := fun hw =>
  ⟨(decodeVectorOk (n := 0) (op := 0x20) (by omega) rfl hw rfl).1, fun n => (decodeVectorOk (n := n) (op := 0x20) (by omega) rfl hw rfl).2⟩
theorem vqnt (w : EWord) : Statement (.vqnt w) := fun hw =>
  ⟨(decodeVectorOk (n := 0) (op := 0x21) (by omega) rfl hw rfl).1, fun n => (decodeVectorOk (n := n) (op := 0x21) (by omega) rfl hw rfl).2⟩
theorem vdq (w : EWord) : Statement (.vdq w) := fun hw =>
  ⟨(decodeVectorOk (n := 0) (op := 0x22) (by omega) rfl hw rfl).1, fun n => (decodeVectorOk (n := n) (op := 0x22) (by omega) rfl hw rfl).2⟩
theorem vexp (w : EWord) : Statement (.vexp w) := fun hw =>
  ⟨(decodeVectorOk (n := 0) (op := 0x28) (by omega) rfl hw rfl).1, fun n => (decodeVectorOk (n := n) (op := 0x28) (by omega) rfl hw rfl).2⟩
theorem vrcp (w : EWord) : Statement (.vrcp w) := fun hw =>
  ⟨(decodeVectorOk (n := 0) (op := 0x29) (by omega) rfl hw rfl).1, fun n => (decodeVectorOk (n := n) (op := 0x29) (by omega) rfl hw rfl).2⟩
theorem vrsq (w : EWord) : Statement (.vrsq w) := fun hw =>
  ⟨(decodeVectorOk (n := 0) (op := 0x2A) (by omega) rfl hw rfl).1, fun n => (decodeVectorOk (n := n) (op := 0x2A) (by omega) rfl hw rfl).2⟩
theorem vtanh (w : EWord) : Statement (.vtanh w) := fun hw =>
  ⟨(decodeVectorOk (n := 0) (op := 0x2B) (by omega) rfl hw rfl).1, fun n => (decodeVectorOk (n := n) (op := 0x2B) (by omega) rfl hw rfl).2⟩
theorem vred (w : EWord) : Statement (.vred w) := fun hw =>
  ⟨(decodeVectorOk (n := 0) (op := 0x30) (by omega) rfl hw rfl).1, fun n => (decodeVectorOk (n := n) (op := 0x30) (by omega) rfl hw rfl).2⟩
theorem vscan (w : EWord) : Statement (.vscan w) := fun hw =>
  ⟨(decodeVectorOk (n := 0) (op := 0x31) (by omega) rfl hw rfl).1, fun n => (decodeVectorOk (n := n) (op := 0x31) (by omega) rfl hw rfl).2⟩
theorem vgmax (w : EWord) : Statement (.vgmax w) := fun hw =>
  ⟨(decodeVectorOk (n := 0) (op := 0x32) (by omega) rfl hw rfl).1, fun n => (decodeVectorOk (n := n) (op := 0x32) (by omega) rfl hw rfl).2⟩
theorem vtopk (w : EWord) : Statement (.vtopk w) := fun hw =>
  ⟨(decodeVectorOk (n := 0) (op := 0x34) (by omega) rfl hw rfl).1, fun n => (decodeVectorOk (n := n) (op := 0x34) (by omega) rfl hw rfl).2⟩
theorem vnorm (w : EWord) : Statement (.vnorm w) := fun hw =>
  ⟨(decodeVectorOk (n := 0) (op := 0x35) (by omega) rfl hw rfl).1, fun n => (decodeVectorOk (n := n) (op := 0x35) (by omega) rfl hw rfl).2⟩
theorem vcopy (w : EWord) : Statement (.vcopy w) := fun hw =>
  ⟨(decodeVectorOk (n := 0) (op := 0x38) (by omega) rfl hw rfl).1, fun n => (decodeVectorOk (n := n) (op := 0x38) (by omega) rfl hw rfl).2⟩
theorem vfill (w : EWord) : Statement (.vfill w) := fun hw =>
  ⟨(decodeVectorOk (n := 0) (op := 0x39) (by omega) rfl hw rfl).1, fun n => (decodeVectorOk (n := n) (op := 0x39) (by omega) rfl hw rfl).2⟩
theorem viota (w : EWord) : Statement (.viota w) := fun hw =>
  ⟨(decodeVectorOk (n := 0) (op := 0x3A) (by omega) rfl hw rfl).1, fun n => (decodeVectorOk (n := n) (op := 0x3A) (by omega) rfl hw rfl).2⟩
theorem vgath (w : EWord) : Statement (.vgath w) := fun hw =>
  ⟨(decodeVectorOk (n := 0) (op := 0x3B) (by omega) rfl hw rfl).1, fun n => (decodeVectorOk (n := n) (op := 0x3B) (by omega) rfl hw rfl).2⟩
theorem vscat (w : EWord) : Statement (.vscat w) := fun hw =>
  ⟨(decodeVectorOk (n := 0) (op := 0x3C) (by omega) rfl hw rfl).1, fun n => (decodeVectorOk (n := n) (op := 0x3C) (by omega) rfl hw rfl).2⟩
theorem vtran (w : EWord) : Statement (.vtran w) := fun hw =>
  ⟨(decodeVectorOk (n := 0) (op := 0x3D) (by omega) rfl hw rfl).1, fun n => (decodeVectorOk (n := n) (op := 0x3D) (by omega) rfl hw rfl).2⟩
theorem vmskAnd (w : EWord) : Statement (.vmskAnd w) := fun hw =>
  have hf : bits w.func.toNat 0 4 = 0 := by
    simp only [Instr.wf, wfVmsk, Bool.and_eq_true, beq_iff_eq] at hw
    have := w.func.isLt
    simp only [bits]; omega
  have h : decodeVmsk w = .ok (.vmskAnd w) := by simp only [decodeVmsk, hf]
  ⟨(decodeVectorOk (n := 0) (op := 0x43) (by omega) h hw rfl).1, fun n => (decodeVectorOk (n := n) (op := 0x43) (by omega) h hw rfl).2⟩
theorem vmskOr (w : EWord) : Statement (.vmskOr w) := fun hw =>
  have hf : bits w.func.toNat 0 4 = 1 := by
    simp only [Instr.wf, wfVmsk, Bool.and_eq_true, beq_iff_eq] at hw
    have := w.func.isLt
    simp only [bits]; omega
  have h : decodeVmsk w = .ok (.vmskOr w) := by simp only [decodeVmsk, hf]
  ⟨(decodeVectorOk (n := 0) (op := 0x43) (by omega) h hw rfl).1, fun n => (decodeVectorOk (n := n) (op := 0x43) (by omega) h hw rfl).2⟩
theorem vmskXor (w : EWord) : Statement (.vmskXor w) := fun hw =>
  have hf : bits w.func.toNat 0 4 = 2 := by
    simp only [Instr.wf, wfVmsk, Bool.and_eq_true, beq_iff_eq] at hw
    have := w.func.isLt
    simp only [bits]; omega
  have h : decodeVmsk w = .ok (.vmskXor w) := by simp only [decodeVmsk, hf]
  ⟨(decodeVectorOk (n := 0) (op := 0x43) (by omega) h hw rfl).1, fun n => (decodeVectorOk (n := n) (op := 0x43) (by omega) h hw rfl).2⟩
theorem vmskAndn (w : EWord) : Statement (.vmskAndn w) := fun hw =>
  have hf : bits w.func.toNat 0 4 = 3 := by
    simp only [Instr.wf, wfVmsk, Bool.and_eq_true, beq_iff_eq] at hw
    have := w.func.isLt
    simp only [bits]; omega
  have h : decodeVmsk w = .ok (.vmskAndn w) := by simp only [decodeVmsk, hf]
  ⟨(decodeVectorOk (n := 0) (op := 0x43) (by omega) h hw rfl).1, fun n => (decodeVectorOk (n := n) (op := 0x43) (by omega) h hw rfl).2⟩
theorem vmskNot (w : EWord) : Statement (.vmskNot w) := fun hw =>
  have hf : bits w.func.toNat 0 4 = 4 := by
    simp only [Instr.wf, wfVmsk, Bool.and_eq_true, beq_iff_eq] at hw
    have := w.func.isLt
    simp only [bits]; omega
  have h : decodeVmsk w = .ok (.vmskNot w) := by simp only [decodeVmsk, hf]
  ⟨(decodeVectorOk (n := 0) (op := 0x43) (by omega) h hw rfl).1, fun n => (decodeVectorOk (n := n) (op := 0x43) (by omega) h hw rfl).2⟩
theorem vmskFirst (w : EWord) : Statement (.vmskFirst w) := fun hw =>
  have hf : bits w.func.toNat 0 4 = 5 := by
    simp only [Instr.wf, wfVmsk, Bool.and_eq_true, beq_iff_eq] at hw
    have := w.func.isLt
    simp only [bits]; omega
  have h : decodeVmsk w = .ok (.vmskFirst w) := by simp only [decodeVmsk, hf]
  ⟨(decodeVectorOk (n := 0) (op := 0x43) (by omega) h hw rfl).1, fun n => (decodeVectorOk (n := n) (op := 0x43) (by omega) h hw rfl).2⟩
theorem vmskCount (w : EWord) : Statement (.vmskCount w) := fun hw =>
  have hf : bits w.func.toNat 0 4 = 6 := by
    simp only [Instr.wf, wfVmsk, Bool.and_eq_true, beq_iff_eq] at hw
    have := w.func.isLt
    simp only [bits]; omega
  have h : decodeVmsk w = .ok (.vmskCount w) := by simp only [decodeVmsk, hf]
  ⟨(decodeVectorOk (n := 0) (op := 0x43) (by omega) h hw rfl).1, fun n => (decodeVectorOk (n := n) (op := 0x43) (by omega) h hw rfl).2⟩
theorem vmskLd (w : EWord) : Statement (.vmskLd w) := fun hw =>
  have hf : bits w.func.toNat 0 4 = 7 := by
    simp only [Instr.wf, wfVmsk, Bool.and_eq_true, beq_iff_eq] at hw
    have := w.func.isLt
    simp only [bits]; omega
  have h : decodeVmsk w = .ok (.vmskLd w) := by simp only [decodeVmsk, hf]
  ⟨(decodeVectorOk (n := 0) (op := 0x43) (by omega) h hw rfl).1, fun n => (decodeVectorOk (n := n) (op := 0x43) (by omega) h hw rfl).2⟩
theorem vmskSt (w : EWord) : Statement (.vmskSt w) := fun hw =>
  have hf : bits w.func.toNat 0 4 = 8 := by
    simp only [Instr.wf, wfVmsk, Bool.and_eq_true, beq_iff_eq] at hw
    have := w.func.isLt
    simp only [bits]; omega
  have h : decodeVmsk w = .ok (.vmskSt w) := by simp only [decodeVmsk, hf]
  ⟨(decodeVectorOk (n := 0) (op := 0x43) (by omega) h hw rfl).1, fun n => (decodeVectorOk (n := n) (op := 0x43) (by omega) h hw rfl).2⟩
theorem vectorWordRetire (j : Nat) : Statement (.vectorWordRetire j) := fun _ => trivial
theorem mshape (w : MWord) : Statement (.mshape w) := fun hw => decodeMatrixOk (op := 0x1) (by omega) rfl hw
theorem mma (w : MWord) : Statement (.mma w) := fun hw => decodeMatrixOk (op := 0x10) (by omega) rfl hw
theorem mmas (w : MWord) : Statement (.mmas w) := fun hw => decodeMatrixOk (op := 0x11) (by omega) rfl hw
theorem mlda (w : MWord) : Statement (.mlda w) := fun hw => decodeMatrixOk (op := 0x20) (by omega) rfl hw
theorem mclm (w : MWord) : Statement (.mclm w) := fun hw => decodeMatrixOk (op := 0x21) (by omega) rfl hw
theorem mrel (w : MWord) : Statement (.mrel w) := fun hw => decodeMatrixOk (op := 0x22) (by omega) rfl hw
theorem macr (w : MWord) : Statement (.macr w) := fun hw => decodeMatrixOk (op := 0x28) (by omega) rfl hw
theorem mzero (w : MWord) : Statement (.mzero w) := fun hw => decodeMatrixOk (op := 0x29) (by omega) rfl hw
theorem mfill (w : MWord) : Statement (.mfill w) := fun hw => decodeMatrixOk (op := 0x30) (by omega) rfl hw
theorem mpin (w : MWord) : Statement (.mpin w) := fun hw => decodeMatrixOk (op := 0x31) (by omega) rfl hw
theorem munp (w : MWord) : Statement (.munp w) := fun hw => decodeMatrixOk (op := 0x32) (by omega) rfl hw
theorem minv (w : MWord) : Statement (.minv w) := fun hw => decodeMatrixOk (op := 0x33) (by omega) rfl hw
theorem mqry (w : MWord) : Statement (.mqry w) := fun hw => decodeMatrixOk (op := 0x34) (by omega) rfl hw
theorem mrep (w : MWord) : Statement (.mrep w) := fun hw => decodeMatrixOk (op := 0x35) (by omega) rfl hw
theorem mlse (w : MWord) : Statement (.mlse w) := fun hw => decodeMatrixOk (op := 0x38) (by omega) rfl hw
theorem leaseGrant (cl : Nat) : Statement (.leaseGrant cl) := fun _ => trivial
theorem leaseBudgetExhausted (cl : Nat) : Statement (.leaseBudgetExhausted cl) := fun _ => trivial
theorem mlrl (w : MWord) : Statement (.mlrl w) := fun hw => decodeMatrixOk (op := 0x39) (by omega) rfl hw
theorem mthr (w : MWord) : Statement (.mthr w) := fun hw => decodeMatrixOk (op := 0x3A) (by omega) rfl hw
theorem frameFillComplete (cl : Nat) (fr : Nat) : Statement (.frameFillComplete cl fr) := fun _ => trivial
theorem frameCopyComplete (cl : Nat) (fr : Nat) : Statement (.frameCopyComplete cl fr) := fun _ => trivial
theorem hardwareReplica (cl : Nat) (fr : Nat) : Statement (.hardwareReplica cl fr) := fun _ => trivial
theorem matrixWordRetire (j : Nat) : Statement (.matrixWordRetire j) := fun _ => trivial
theorem cpy (w : EWord) : Statement (.cpy w) := fun hw =>
  ⟨(decodeCopyOk (e := .L) (n := 0) (op := 0x1) (by omega) rfl hw).1, fun n => (decodeCopyOk (e := .L) (n := n) (op := 0x1) (by omega) rfl hw).2⟩
theorem cpyg (w : EWord) : Statement (.cpyg w) := fun hw =>
  ⟨(decodeCopyOk (e := .L) (n := 0) (op := 0x2) (by omega) rfl hw).1, fun n => (decodeCopyOk (e := .L) (n := n) (op := 0x2) (by omega) rfl hw).2⟩
theorem cpyd (w : EWord) : Statement (.cpyd w) := fun hw =>
  ⟨(decodeCopyOk (e := .L) (n := 0) (op := 0x3) (by omega) rfl hw).1, fun n => (decodeCopyOk (e := .L) (n := n) (op := 0x3) (by omega) rfl hw).2⟩
theorem cpym (w : EWord) : Statement (.cpym w) := fun hw =>
  ⟨(decodeCopyOk (e := .L) (n := 0) (op := 0x4) (by omega) rfl hw).1, fun n => (decodeCopyOk (e := .L) (n := n) (op := 0x4) (by omega) rfl hw).2⟩
theorem prel (w : EWord) : Statement (.prel w) := fun hw =>
  ⟨(decodeCopyOk (e := .L) (n := 0) (op := 0x5) (by omega) rfl hw).1, fun n => (decodeCopyOk (e := .L) (n := n) (op := 0x5) (by omega) rfl hw).2⟩
theorem dgst (w : EWord) : Statement (.dgst w) := fun hw =>
  ⟨(decodeCopyOk (e := .L) (n := 0) (op := 0x7) (by omega) rfl hw).1, fun n => (decodeCopyOk (e := .L) (n := n) (op := 0x7) (by omega) rfl hw).2⟩
theorem cps (w : EWord) : Statement (.cps w) := fun hw =>
  ⟨(decodeCopyOk (e := .T) (n := 0) (op := 0x10) (by omega) rfl hw).1, fun n => (decodeCopyOk (e := .T) (n := n) (op := 0x10) (by omega) rfl hw).2⟩
theorem acw (w : EWord) : Statement (.acw w) := fun hw =>
  ⟨(decodeCopyOk (e := .T) (n := 0) (op := 0x11) (by omega) rfl hw).1, fun n => (decodeCopyOk (e := .T) (n := n) (op := 0x11) (by omega) rfl hw).2⟩
theorem acwf (w : EWord) : Statement (.acwf w) := fun hw =>
  ⟨(decodeCopyOk (e := .T) (n := 0) (op := 0x12) (by omega) rfl hw).1, fun n => (decodeCopyOk (e := .T) (n := n) (op := 0x12) (by omega) rfl hw).2⟩
theorem cas (w : EWord) : Statement (.cas w) := fun hw =>
  ⟨(decodeCopyOk (e := .T) (n := 0) (op := 0x13) (by omega) rfl hw).1, fun n => (decodeCopyOk (e := .T) (n := n) (op := 0x13) (by omega) rfl hw).2⟩
theorem cpst (w : EWord) : Statement (.cpst w) := fun hw =>
  ⟨(decodeCopyOk (e := .T) (n := 0) (op := 0x14) (by omega) rfl hw).1, fun n => (decodeCopyOk (e := .T) (n := n) (op := 0x14) (by omega) rfl hw).2⟩
theorem scat (w : EWord) : Statement (.scat w) := fun hw =>
  ⟨(decodeCopyOk (e := .T) (n := 0) (op := 0x15) (by omega) rfl hw).1, fun n => (decodeCopyOk (e := .T) (n := n) (op := 0x15) (by omega) rfl hw).2⟩
theorem flsh (w : EWord) : Statement (.flsh w) := fun hw =>
  ⟨(decodeCopyOk (e := .T) (n := 0) (op := 0x16) (by omega) rfl hw).1, fun n => (decodeCopyOk (e := .T) (n := n) (op := 0x16) (by omega) rfl hw).2⟩
theorem invl (w : EWord) : Statement (.invl w) := fun hw =>
  ⟨(decodeCopyOk (e := .T) (n := 0) (op := 0x17) (by omega) rfl hw).1, fun n => (decodeCopyOk (e := .T) (n := n) (op := 0x17) (by omega) rfl hw).2⟩
theorem engineWordRetire (j : Nat) (e : EStream) : Statement (.engineWordRetire j e) := fun _ => trivial
theorem aq (e : EStream) (w : EWord) : Statement (.aq e w) := fun hw =>
  ⟨(decodeCopyOk (e := e) (n := 0) (op := 0xF0) (by omega) rfl hw).1, fun n => (decodeCopyOk (e := e) (n := n) (op := 0xF0) (by omega) rfl hw).2⟩
theorem aset (e : EStream) (w : EWord) : Statement (.aset e w) := fun hw =>
  ⟨(decodeCopyOk (e := e) (n := 0) (op := 0xF1) (by omega) rfl hw).1, fun n => (decodeCopyOk (e := e) (n := n) (op := 0xF1) (by omega) rfl hw).2⟩
theorem aadd (e : EStream) (w : EWord) : Statement (.aadd e w) := fun hw =>
  ⟨(decodeCopyOk (e := e) (n := 0) (op := 0xF2) (by omega) rfl hw).1, fun n => (decodeCopyOk (e := e) (n := n) (op := 0xF2) (by omega) rfl hw).2⟩
theorem ejoin (e : EStream) (w : EWord) : Statement (.ejoin e w) := fun hw =>
  ⟨(decodeCopyOk (e := e) (n := 0) (op := 0xF3) (by omega) rfl hw).1, fun n => (decodeCopyOk (e := e) (n := n) (op := 0xF3) (by omega) rfl hw).2⟩
theorem enop (e : EStream) (w : EWord) : Statement (.enop e w) := fun hw =>
  ⟨(decodeCopyOk (e := e) (n := 0) (op := 0xF4) (by omega) rfl hw).1, fun n => (decodeCopyOk (e := e) (n := n) (op := 0xF4) (by omega) rfl hw).2⟩
theorem cshape (e : EStream) (w : EWord) : Statement (.cshape e w) := fun hw =>
  ⟨(decodeCopyOk (e := e) (n := 0) (op := 0xF5) (by omega) rfl hw).1, fun n => (decodeCopyOk (e := e) (n := n) (op := 0xF5) (by omega) rfl hw).2⟩
theorem loop (e : EStream) (w : EWord) : Statement (.loop e w) := fun hw =>
  ⟨(decodeCopyOk (e := e) (n := 0) (op := 0xF6) (by omega) rfl hw).1, fun n => (decodeCopyOk (e := e) (n := n) (op := 0xF6) (by omega) rfl hw).2⟩
theorem breakpointStop (j : Nat) (st : Stream) (n : Nat) : Statement (.breakpointStop j st n) := fun _ => trivial
theorem jobDispatch (die : Nat) : Statement (.jobDispatch die) := fun _ => trivial
theorem walkerSteal (launch : Nat) (die : Nat) : Statement (.walkerSteal launch die) := fun _ => trivial
theorem tailReread (leaf : Nat) : Statement (.tailReread leaf) := fun _ => trivial
theorem periodBoundary (node : Nat) : Statement (.periodBoundary node) := fun _ => trivial
theorem ageLevelTick (launch : Nat) : Statement (.ageLevelTick launch) := fun _ => trivial
theorem launchComplete (launch : Nat) : Statement (.launchComplete launch) := fun _ => trivial
theorem preemptionRequest (j : Nat) : Statement (.preemptionRequest j) := fun _ => trivial
theorem sliceExpiry (j : Nat) : Statement (.sliceExpiry j) := fun _ => trivial
theorem graceExpiry (j : Nat) : Statement (.graceExpiry j) := fun _ => trivial
theorem forcedCut (j : Nat) : Statement (.forcedCut j) := fun _ => trivial
theorem contextSaveDone (j : Nat) : Statement (.contextSaveDone j) := fun _ => trivial
theorem saveDeadlineExpiry (j : Nat) : Statement (.saveDeadlineExpiry j) := fun _ => trivial
theorem jobResume (launch : Nat) (ticket : Nat) : Statement (.jobResume launch ticket) := fun _ => trivial
theorem hangWatchdog (j : Nat) : Statement (.hangWatchdog j) := fun _ => trivial
theorem nmJobStart (m : Nat) : Statement (.nmJobStart m) := fun _ => trivial
theorem nmJobComplete (m : Nat) (u : Nat) : Statement (.nmJobComplete m u) := fun _ => trivial
theorem nmWatchdogReset (m : Nat) (u : Nat) : Statement (.nmWatchdogReset m u) := fun _ => trivial
theorem activationAlert (m : Nat) (u : Nat) (row : Nat) (share : Nat) (total : Nat) : Statement (.activationAlert m u row share total) := fun _ => trivial
theorem persistentRequest (line : Nat) (core : Nat) : Statement (.persistentRequest line core) := fun _ => trivial
theorem pageMoveRemap (f : Nat) : Statement (.pageMoveRemap f) := fun _ => trivial
theorem freezeStallTimeout (j : Nat) (st : Stream) : Statement (.freezeStallTimeout j st) := fun _ => trivial
theorem weightRecheck (f : Nat) : Statement (.weightRecheck f) := fun _ => trivial
theorem patrolScrub (die : Nat) (line : Nat) (bad : Bool) : Statement (.patrolScrub die line bad) := fun _ => trivial
theorem flitReceive (die : Nat) (module : Nat) (flit : BitVec 2048) : Statement (.flitReceive die module flit) := fun _ => trivial
theorem linkRetrain (die : Nat) (link : Nat) (rates : BitVec 8) (repaired : Nat) : Statement (.linkRetrain die link rates repaired) := fun _ => trivial
theorem reqReadShared (m : Msg) : Statement (.reqReadShared m) := fun _ => trivial
theorem reqReadOwned (m : Msg) : Statement (.reqReadOwned m) := fun _ => trivial
theorem reqWrite (m : Msg) : Statement (.reqWrite m) := fun _ => trivial
theorem reqAtomic (m : Msg) : Statement (.reqAtomic m) := fun _ => trivial
theorem reqReleasePermission (m : Msg) : Statement (.reqReleasePermission m) := fun _ => trivial
theorem reqNearMemoryJob (m : Msg) : Statement (.reqNearMemoryJob m) := fun _ => trivial
theorem reqWalkerSteal (m : Msg) : Statement (.reqWalkerSteal m) := fun _ => trivial
theorem reqRegisterAccess (m : Msg) : Statement (.reqRegisterAccess m) := fun _ => trivial
theorem rspAck (m : Msg) : Statement (.rspAck m) := fun _ => trivial
theorem rspRetry (m : Msg) : Statement (.rspRetry m) := fun _ => trivial
theorem rspMoved (m : Msg) : Statement (.rspMoved m) := fun _ => trivial
theorem rspError (m : Msg) : Statement (.rspError m) := fun _ => trivial
theorem rspDataFollows (m : Msg) : Statement (.rspDataFollows m) := fun _ => trivial
theorem rspForcedPublishAck (m : Msg) : Statement (.rspForcedPublishAck m) := fun _ => trivial
theorem datLine (m : Msg) : Statement (.datLine m) := fun _ => trivial
theorem datPartialLine (m : Msg) : Statement (.datPartialLine m) := fun _ => trivial
theorem datPoisonedLine (m : Msg) : Statement (.datPoisonedLine m) := fun _ => trivial
theorem snpRecallOwner (m : Msg) : Statement (.snpRecallOwner m) := fun _ => trivial
theorem snpInvalidate (m : Msg) : Statement (.snpInvalidate m) := fun _ => trivial
theorem snpForcedPublish (m : Msg) : Statement (.snpForcedPublish m) := fun _ => trivial
theorem tokGrantShared (m : Msg) : Statement (.tokGrantShared m) := fun _ => trivial
theorem tokGrantOwned (m : Msg) : Statement (.tokGrantOwned m) := fun _ => trivial
theorem tokRevoke (m : Msg) : Statement (.tokRevoke m) := fun _ => trivial
theorem nrw (m : Msg) : Statement (.nrw m) := fun _ => trivial
theorem pos (m : Msg) : Statement (.pos m) := fun _ => trivial
theorem ingTokenRow (m : Msg) : Statement (.ingTokenRow m) := fun _ => trivial
theorem ingPickRecord (m : Msg) : Statement (.ingPickRecord m) := fun _ => trivial
theorem throwDelivery (core : Nat) (line : Nat) : Statement (.throwDelivery core line) := fun _ => trivial
theorem hostRead (pa : Nat) (n : Nat) : Statement (.hostRead pa n) := fun _ => trivial
theorem hostWrite (pa : Nat) (n : Nat) (data : BitVec 512) : Statement (.hostWrite pa n data) := fun _ => trivial
theorem hostFetchAdd (pa : Nat) (wide : Bool) (v : Word) : Statement (.hostFetchAdd pa wide v) := fun _ => trivial
theorem hostSwap (pa : Nat) (wide : Bool) (v : Word) : Statement (.hostSwap pa wide v) := fun _ => trivial
theorem hostCompareSwap (pa : Nat) (wide : Bool) (old : Word) (new : Word) : Statement (.hostCompareSwap pa wide old new) := fun _ => trivial
theorem tenRoot (n : BitVec 6) (v : Word) : Statement (.tenRoot n v) := fun _ => trivial
theorem tenKick (n : BitVec 6) (v : Word) : Statement (.tenKick n v) := fun _ => trivial
theorem domRst (f : BitVec 12) (v : Word) : Statement (.domRst f v) := fun _ => trivial
theorem domainResetDone (f : BitVec 12) : Statement (.domainResetDone f) := fun _ => trivial
theorem xlInv (f : BitVec 12) (v : Word) : Statement (.xlInv f v) := fun _ => trivial
theorem xlMig (f : BitVec 12) (v : Word) : Statement (.xlMig f v) := fun _ => trivial
theorem errPop (die : BitVec 5) (v : Word) : Statement (.errPop die v) := fun _ => trivial
theorem fwinWrite (n : BitVec 4) (r : BitVec 2) (v : Word) : Statement (.fwinWrite n r v) := fun _ => trivial
theorem registerWrite (pa : Nat) (v : Word) : Statement (.registerWrite pa v) := fun _ => trivial
theorem clockStep (die : Nat) (up : Bool) : Statement (.clockStep die up) := fun _ => trivial
theorem thermalThrottle (die : Nat) : Statement (.thermalThrottle die) := fun _ => trivial
theorem thermalStop (die : Nat) : Statement (.thermalStop die) := fun _ => trivial
theorem copyTrapInFlight (j : Nat) (e : EStream) : Statement (.copyTrapInFlight j e) := fun _ => trivial
theorem coherentWindowSnoop (line : Nat) (write : Bool) : Statement (.coherentWindowSnoop line write) := fun _ => trivial
theorem trHead (f : BitVec 12) (v : Word) : Statement (.trHead f v) := fun _ => trivial
theorem nop : Statement (.nop) := by
  intro hw
  obtain ⟨W, hW⟩ : ∃ W, 0 = W := ⟨_, rfl⟩
  show 0 < 2 ^ 32 ∧ ∀ nx, decode .S (0) nx = .ok _
  rw [hW]
  have _ := hW
  have h0 : bits W 26 6 = 0 := by simp only [bits]; omega
  have z1 : bits W 0 26 = 0 := by simp only [bits]; omega
  refine ⟨by omega, fun _ => decodeSOk ?_ hw⟩
  simp only [decodeS, zeroIn, h0, z1, if_true]
theorem waitProd : Statement (.waitProd) := by
  intro hw
  obtain ⟨W, hW⟩ : ∃ W, 0x29 * 2 ^ 26 = W := ⟨_, rfl⟩
  show 0x29 * 2 ^ 26 < 2 ^ 32 ∧ ∀ nx, decode .S (0x29 * 2 ^ 26) nx = .ok _
  rw [hW]
  have _ := hW
  have h0 : bits W 26 6 = 41 := by simp only [bits]; omega
  have z1 : bits W 0 20 = 0 := by simp only [bits]; omega
  have z2 : bits W 20 3 = 0 := by simp only [bits]; omega
  have z3 : bits W 23 3 = 0 := by simp only [bits]; omega
  refine ⟨by omega, fun _ => decodeSOk ?_ hw⟩
  simp only [decodeS, decodeWait, zeroIn, h0, z1, z2, z3, if_true]
theorem trig : Statement (.trig) := by
  intro hw
  obtain ⟨W, hW⟩ : ∃ W, 0x2A * 2 ^ 26 = W := ⟨_, rfl⟩
  show 0x2A * 2 ^ 26 < 2 ^ 32 ∧ ∀ nx, decode .S (0x2A * 2 ^ 26) nx = .ok _
  rw [hW]
  have _ := hW
  have h0 : bits W 26 6 = 42 := by simp only [bits]; omega
  have z1 : bits W 0 26 = 0 := by simp only [bits]; omega
  refine ⟨by omega, fun _ => decodeSOk ?_ hw⟩
  simp only [decodeS, zeroIn, h0, z1, if_true]
theorem halt : Statement (.halt) := by
  intro hw
  obtain ⟨W, hW⟩ : ∃ W, 0x2C * 2 ^ 26 = W := ⟨_, rfl⟩
  show 0x2C * 2 ^ 26 < 2 ^ 32 ∧ ∀ nx, decode .S (0x2C * 2 ^ 26) nx = .ok _
  rw [hW]
  have _ := hW
  have h0 : bits W 26 6 = 44 := by simp only [bits]; omega
  have z1 : bits W 0 26 = 0 := by simp only [bits]; omega
  refine ⟨by omega, fun _ => decodeSOk ?_ hw⟩
  simp only [decodeS, zeroIn, h0, z1, if_true]
theorem yield : Statement (.yield) := by
  intro hw
  obtain ⟨W, hW⟩ : ∃ W, 0x2D * 2 ^ 26 = W := ⟨_, rfl⟩
  show 0x2D * 2 ^ 26 < 2 ^ 32 ∧ ∀ nx, decode .S (0x2D * 2 ^ 26) nx = .ok _
  rw [hW]
  have _ := hW
  have h0 : bits W 26 6 = 45 := by simp only [bits]; omega
  have z1 : bits W 0 26 = 0 := by simp only [bits]; omega
  refine ⟨by omega, fun _ => decodeSOk ?_ hw⟩
  simp only [decodeS, zeroIn, h0, z1, if_true]
theorem openRange : Statement (.openRange) := by
  intro hw
  obtain ⟨W, hW⟩ : ∃ W, encSU 0x3A 0 0x100 = W := ⟨_, rfl⟩
  show encSU 0x3A 0 0x100 < 2 ^ 32 ∧ ∀ nx, decode .S (encSU 0x3A 0 0x100) nx = .ok _
  rw [hW]
  simp only [encSU] at hW
  have h0 : bits W 26 6 = 58 := by simp only [bits]; omega
  have z1 : bits W 20 6 = 0 := by simp only [bits]; omega
  have z2 : bits W 0 20 = 256 := by simp only [bits]; omega
  refine ⟨by omega, fun _ => decodeSOk ?_ hw⟩
  simp only [decodeS, decodeTrap, zeroIn, h0, z1, z2, if_true]
theorem closeRange : Statement (.closeRange) := by
  intro hw
  obtain ⟨W, hW⟩ : ∃ W, encSU 0x3A 0 0x101 = W := ⟨_, rfl⟩
  show encSU 0x3A 0 0x101 < 2 ^ 32 ∧ ∀ nx, decode .S (encSU 0x3A 0 0x101) nx = .ok _
  rw [hW]
  simp only [encSU] at hW
  have h0 : bits W 26 6 = 58 := by simp only [bits]; omega
  have z1 : bits W 20 6 = 0 := by simp only [bits]; omega
  have z2 : bits W 0 20 = 257 := by simp only [bits]; omega
  refine ⟨by omega, fun _ => decodeSOk ?_ hw⟩
  simp only [decodeS, decodeTrap, zeroIn, h0, z1, z2, if_true]
theorem registerBufferGroup : Statement (.registerBufferGroup) := by
  intro hw
  obtain ⟨W, hW⟩ : ∃ W, encSU 0x3A 0 0x200 = W := ⟨_, rfl⟩
  show encSU 0x3A 0 0x200 < 2 ^ 32 ∧ ∀ nx, decode .S (encSU 0x3A 0 0x200) nx = .ok _
  rw [hW]
  simp only [encSU] at hW
  have h0 : bits W 26 6 = 58 := by simp only [bits]; omega
  have z1 : bits W 20 6 = 0 := by simp only [bits]; omega
  have z2 : bits W 0 20 = 512 := by simp only [bits]; omega
  refine ⟨by omega, fun _ => decodeSOk ?_ hw⟩
  simp only [decodeS, decodeTrap, zeroIn, h0, z1, z2, if_true]
theorem resetBufferGroup : Statement (.resetBufferGroup) := by
  intro hw
  obtain ⟨W, hW⟩ : ∃ W, encSU 0x3A 0 0x201 = W := ⟨_, rfl⟩
  show encSU 0x3A 0 0x201 < 2 ^ 32 ∧ ∀ nx, decode .S (encSU 0x3A 0 0x201) nx = .ok _
  rw [hW]
  simp only [encSU] at hW
  have h0 : bits W 26 6 = 58 := by simp only [bits]; omega
  have z1 : bits W 20 6 = 0 := by simp only [bits]; omega
  have z2 : bits W 0 20 = 513 := by simp only [bits]; omega
  refine ⟨by omega, fun _ => decodeSOk ?_ hw⟩
  simp only [decodeS, decodeTrap, zeroIn, h0, z1, z2, if_true]
theorem releaseBufferGroup : Statement (.releaseBufferGroup) := by
  intro hw
  obtain ⟨W, hW⟩ : ∃ W, encSU 0x3A 0 0x202 = W := ⟨_, rfl⟩
  show encSU 0x3A 0 0x202 < 2 ^ 32 ∧ ∀ nx, decode .S (encSU 0x3A 0 0x202) nx = .ok _
  rw [hW]
  simp only [encSU] at hW
  have h0 : bits W 26 6 = 58 := by simp only [bits]; omega
  have z1 : bits W 20 6 = 0 := by simp only [bits]; omega
  have z2 : bits W 0 20 = 514 := by simp only [bits]; omega
  refine ⟨by omega, fun _ => decodeSOk ?_ hw⟩
  simp only [decodeS, decodeTrap, zeroIn, h0, z1, z2, if_true]
theorem setContextPool : Statement (.setContextPool) := by
  intro hw
  obtain ⟨W, hW⟩ : ∃ W, encSU 0x3A 0 0x300 = W := ⟨_, rfl⟩
  show encSU 0x3A 0 0x300 < 2 ^ 32 ∧ ∀ nx, decode .S (encSU 0x3A 0 0x300) nx = .ok _
  rw [hW]
  simp only [encSU] at hW
  have h0 : bits W 26 6 = 58 := by simp only [bits]; omega
  have z1 : bits W 20 6 = 0 := by simp only [bits]; omega
  have z2 : bits W 0 20 = 768 := by simp only [bits]; omega
  refine ⟨by omega, fun _ => decodeSOk ?_ hw⟩
  simp only [decodeS, decodeTrap, zeroIn, h0, z1, z2, if_true]
theorem registerWeightTable : Statement (.registerWeightTable) := by
  intro hw
  obtain ⟨W, hW⟩ : ∃ W, encSU 0x3A 0 0x400 = W := ⟨_, rfl⟩
  show encSU 0x3A 0 0x400 < 2 ^ 32 ∧ ∀ nx, decode .S (encSU 0x3A 0 0x400) nx = .ok _
  rw [hW]
  simp only [encSU] at hW
  have h0 : bits W 26 6 = 58 := by simp only [bits]; omega
  have z1 : bits W 20 6 = 0 := by simp only [bits]; omega
  have z2 : bits W 0 20 = 1024 := by simp only [bits]; omega
  refine ⟨by omega, fun _ => decodeSOk ?_ hw⟩
  simp only [decodeS, decodeTrap, zeroIn, h0, z1, z2, if_true]
theorem setWatchpoint : Statement (.setWatchpoint) := by
  intro hw
  obtain ⟨W, hW⟩ : ∃ W, encSU 0x3A 0 0x500 = W := ⟨_, rfl⟩
  show encSU 0x3A 0 0x500 < 2 ^ 32 ∧ ∀ nx, decode .S (encSU 0x3A 0 0x500) nx = .ok _
  rw [hW]
  simp only [encSU] at hW
  have h0 : bits W 26 6 = 58 := by simp only [bits]; omega
  have z1 : bits W 20 6 = 0 := by simp only [bits]; omega
  have z2 : bits W 0 20 = 1280 := by simp only [bits]; omega
  refine ⟨by omega, fun _ => decodeSOk ?_ hw⟩
  simp only [decodeS, decodeTrap, zeroIn, h0, z1, z2, if_true]
theorem replay : Statement (.replay) := by
  intro hw
  obtain ⟨W, hW⟩ : ∃ W, encSU 0x3A 0 0x501 = W := ⟨_, rfl⟩
  show encSU 0x3A 0 0x501 < 2 ^ 32 ∧ ∀ nx, decode .S (encSU 0x3A 0 0x501) nx = .ok _
  rw [hW]
  simp only [encSU] at hW
  have h0 : bits W 26 6 = 58 := by simp only [bits]; omega
  have z1 : bits W 20 6 = 0 := by simp only [bits]; omega
  have z2 : bits W 0 20 = 1281 := by simp only [bits]; omega
  refine ⟨by omega, fun _ => decodeSOk ?_ hw⟩
  simp only [decodeS, decodeTrap, zeroIn, h0, z1, z2, if_true]
theorem attestationReport : Statement (.attestationReport) := by
  intro hw
  obtain ⟨W, hW⟩ : ∃ W, encSU 0x3A 0 0x600 = W := ⟨_, rfl⟩
  show encSU 0x3A 0 0x600 < 2 ^ 32 ∧ ∀ nx, decode .S (encSU 0x3A 0 0x600) nx = .ok _
  rw [hW]
  simp only [encSU] at hW
  have h0 : bits W 26 6 = 58 := by simp only [bits]; omega
  have z1 : bits W 20 6 = 0 := by simp only [bits]; omega
  have z2 : bits W 0 20 = 1536 := by simp only [bits]; omega
  refine ⟨by omega, fun _ => decodeSOk ?_ hw⟩
  simp only [decodeS, decodeTrap, zeroIn, h0, z1, z2, if_true]
theorem eret : Statement (.eret) := by
  intro hw
  obtain ⟨W, hW⟩ : ∃ W, 0x3B * 2 ^ 26 = W := ⟨_, rfl⟩
  show 0x3B * 2 ^ 26 < 2 ^ 32 ∧ ∀ nx, decode .S (0x3B * 2 ^ 26) nx = .ok _
  rw [hW]
  have _ := hW
  have h0 : bits W 26 6 = 59 := by simp only [bits]; omega
  have z1 : bits W 0 26 = 0 := by simp only [bits]; omega
  refine ⟨by omega, fun _ => decodeSOk ?_ hw⟩
  simp only [decodeS, zeroIn, h0, z1, if_true]
theorem positionRebase : Statement (.positionRebase) := fun _ => trivial
theorem powerOn : Statement (.powerOn) := fun _ => trivial
theorem discoveryTimeout : Statement (.discoveryTimeout) := fun _ => trivial
theorem packageReset : Statement (.packageReset) := fun _ => trivial
theorem mgtDescriptorRequest : Statement (.mgtDescriptorRequest) := fun _ => trivial
theorem mgtDescriptor : Statement (.mgtDescriptor) := fun _ => trivial
theorem mgtTopology : Statement (.mgtTopology) := fun _ => trivial
theorem mgtFirmwareReplicaWrite : Statement (.mgtFirmwareReplicaWrite) := fun _ => trivial
theorem mgtEvent : Statement (.mgtEvent) := fun _ => trivial

end Sys2Proof.Laws.RoundTrip
end

