-- ==== Sys2Proof/Tests/Slice0.lean ====
section
/-!
SUPPORT. Tests of the model against the spec's own numbers, and for every statement with hypotheses a state and operands that meet them.
-/
namespace Sys2Proof.Tests
open Sys2Proof Sys2Proof.Machine

set_option Elab.async false

/-! ### The state the tests start from -/

/-- The page table of `withFetchWord` with two data pages beside the code page, at virtual 0x101000 and 0x102000, read and write. -/
def tMem : Mem :=
  let m := memWriteBytes (placeTables []) placePa (natLe 4 0x04108300)
  let m := memWriteBytes m (0x22000 + 8 * 0x101) (natLe 8 (2 ^ 53 + 2 ^ 52 + 0x24000 + 2 ^ 6 + 1))
  memWriteBytes m (0x22000 + 8 * 0x102) (natLe 8 (2 ^ 53 + 2 ^ 52 + 0x25000 + 2 ^ 6 + 1))

/-- A booted machine with job `j` in slot 0, whose turn it is. -/
def tS (j : Job) : State :=
  let s := { State.reset with M := { State.reset.M with mem := tMem }, B := { State.reset.B with status := 1 }, turnJob := 0, turn := .S }
  let s := setDomain s 0 { domainSt s 0 with xlRoot := BitVec.ofNat 64 (2 ^ 16 + 1) }
  setJob (setCore s 0 { coreSt s 0 with holder := some 0 }) 0 j

/-- The job with values in some registers. -/
def tJ (l : List (BitVec 6 × Word)) : Job := l.foldl (fun j e => j.setS e.1 e.2) placeJob

theorem jobAt_tS (j : Job) : jobAt (tS j) 0 = some j := by simp [tS]

/-- What admits an S instruction, as a check. -/
def sReadyB (j : Job) (cls : SClass) (regs : List (BitVec 6)) : Bool :=
  (j.level == .job || cls.handler) && (j.region.isNone || !cls.misuse) && regs.all (fun r => j.sOk r) && decide (j.core.S.seq < seqMax)

theorem sReady_of {s : State} {k : Nat} {j : Job} {cls : SClass} {regs : List (BitVec 6)} (h : s.turnJob = k) (hj : jobAt s k = some j)
    (hb : sReadyB j cls regs = true) : SReady s k j cls regs := by
  simp only [sReadyB, Bool.and_eq_true, Bool.or_eq_true, beq_iff_eq, Option.isNone_iff_eq_none, Bool.not_eq_true', List.all_eq_true,
    decide_eq_true_eq] at hb
  exact ⟨h, hj, hb.1.1.1, hb.1.1.2, hb.1.2, hb.2⟩

theorem sReady_tS {j : Job} {cls : SClass} {regs : List (BitVec 6)} (hb : sReadyB j cls regs = true) : SReady (tS j) 0 j cls regs :=
  sReady_of (by simp [tS]) (jobAt_tS j) hb

theorem traceOff_of {s : State} {f : Nat} (h : (domainSt s f).trCtl.getLsbD 63 = false) : TraceOff s f := h

/-- What admits an engine word, as a check. -/
def eReadyB (j : Job) (e : EStream) (tok : BitVec 4) (p : EPlan) : Bool :=
  j.level == .job && (eDecode j e p.d).isNone && eReady j e tok p.d && (!p.alone || (j.eng e).inflight.isEmpty) &&
    (!p.mat || (match (j.eng e).loops with | t :: _ => t.last != (j.eng e).pc | [] => true)) && decide (nextSeq j e ≤ seqMax)

theorem noLoopEnd_of {g : Eng} {last : Word} (h : (match g.loops with | t :: _ => t.last != last | [] => true) = true) : NoLoopEnd g last := by
  intro t r ht
  rw [ht] at h
  simpa using h

theorem eReady_of {s : State} {k : Nat} {j : Job} {e : EStream} {tok : BitVec 4} {p : EPlan} (h : s.turnJob = k) (hj : jobAt s k = some j)
    (hb : eReadyB j e tok p = true) : EReady s k j e tok p := by
  simp only [eReadyB, Bool.and_eq_true, Bool.or_eq_true, beq_iff_eq, Option.isNone_iff_eq_none, Bool.not_eq_true', decide_eq_true_eq,
    List.isEmpty_iff] at hb
  obtain ⟨⟨⟨⟨⟨h1, h2⟩, h3⟩, h4⟩, h5⟩, h6⟩ := hb
  refine ⟨h, hj, h1, h2, h3, fun ha => ?_, fun hm => ?_, h6⟩
  · rcases h4 with h4 | h4
    · rw [ha] at h4; cases h4
    · exact h4
  · rcases h5 with h5 | h5
    · rw [hm] at h5; cases h5
    · exact noLoopEnd_of h5

theorem eReady_tS {j : Job} {e : EStream} {tok : BitVec 4} {p : EPlan} (hb : eReadyB j e tok p = true) : EReady (tS j) 0 j e tok p :=
  eReady_of (by simp [tS]) (jobAt_tS j) hb

/-! ### Decoding: words written out from the encoding tables (chapters 4 to 9) -/

theorem test_sub_word : decode .S 0x04108301 0 = .ok (.sub 1 2 3) := by decide
theorem test_remu_word : decode .S 0x04A2090E 0 = .ok (.remu 10 8 9) := by decide
theorem test_sel_word : decode .S 0x04518722 0 = .ok (.sel 5 6 7 2) := by decide
theorem test_shli_word : decode .S 0x18804004 0 = .ok (.shli 8 1 4) := by decide
theorem test_pand_word : decode .S 0x35821000 0 = .ok (.pand 3 1 2) := by decide
theorem test_trig_word : decode .S 0xA8000000 0 = .ok .trig := by decide
theorem test_yield_word : decode .S 0xB4000000 0 = .ok .yield := by decide
theorem test_barc_word : decode .S 0xB8000005 0 = .ok (.barc 5) := by decide
theorem test_eret_word : decode .S 0xEC000000 0 = .ok .eret := by decide
theorem test_trap_word : decode .S 0xE8000007 0 = .ok (.trap 7) := by decide
theorem test_open_range_word : decode .S 0xE8000100 0 = .ok .openRange := by decide
theorem test_nop_word : decode .S 0 0 = .ok .nop := by decide
theorem test_zero_engine_word : (∃ r, decode .L 0 0 = .error r) ∧ (∃ r, decode .X 0 0 = .error r) ∧ ∃ r, decode .T 0 0 = .error r :=
  ⟨⟨_, rfl⟩, ⟨_, rfl⟩, ⟨_, rfl⟩⟩
/-- The table word of a row is read from its bytes as they stand in memory. -/
theorem test_table_word : decodeTableWord 32 0x04108300 = some (.add 1 2 3) := by decide

/-! ### Well-formedness: an ill-formed term for each check -/

/-- An engine word of zeros, and a matrix word of zeros. -/
def zE : EWord := ⟨0, 0, 0, 0, ⟨0, 0, 0⟩, ⟨0, 0, 0⟩, ⟨0, 0, 0⟩, 0⟩
def zM : MWord := ⟨0, 0, 0, ⟨0, 0, 0⟩, 0, 0, 0, 0, 0, 0, ⟨0, 0, 0⟩, 0, 0, 0, 0, 0⟩
/-- An immediate operand. -/
def im (v : BitVec 12) : Operand := ⟨0, 3, v⟩
/-- Every check of the list refuses its term. -/
def illFormed (l : List Instr) : Bool := l.all (fun i => !i.wf)

/-- Conditions 6 and 7, a signed 64-bit load, a block past s63, scopes, queue numbers, fence masks and kind, an empty join mask, an
unassigned control register, a service value as plain TRAP. -/
theorem test_wf_scalar : illFormed [.cmp 1 6 0 0, .cmpi 1 7 0 0, .ld 1 2 3 0 1 0, .ldm 60 1 4 0, .stm 57 1 7 0, .lda 1 2 3 5 0, .stl 1 2 3 5 0,
    .throw 1 2 3 3 0, .throw 1 2 3 3 4, .pref 1 4 0, .qpush 1 16, .qpop 1 16, .qcnt 1 63, .fence 5 1 1 0, .fence 3 0 1 0, .fence 3 1 0 0,
    .fence 3 128 1 0, .fence 3 1 128 0, .fence 3 1 1 3, .waitMemeq 1 2 5, .waitMemge 1 2 7, .rdv 0, .csrr 1 0x004, .csrw 1 0xFFF,
    .trap 0x100] = true := by decide

/-- Vector fields: formats, destination and source modes, func bits, rounding, immediates, shift amounts, conditions, column counts. -/
theorem test_wf_vector : illFormed [.vshape { zE with a := ⟨0, 0, 0⟩ }, .vshape { zE with a := im 1, fmt := 15 }, .vshape { zE with a := im 1, mask := 1 },
    .vadd { zE with fmt := 4 }, .vadd { zE with fmt := 1, d := im 0 }, .vadd { zE with fmt := 1, a := im 0 }, .vadd { zE with fmt := 1, func := 4 },
    .vadd { zE with fmt := 1, func := 1 }, .vadd { zE with fmt := 9, b := im 200 }, .vadd { zE with fmt := 9, rm := 1 },
    .vadd { zE with fmt := 1, b := im 0, func := 2 }, .vadd { zE with fmt := 1, b := ⟨1, 2, 0⟩ }, .vmin { zE with fmt := 1, rm := 1 },
    .vabs { zE with fmt := 1, b := im 1 }, .vshl { zE with fmt := 9, b := im 8 }, .vshr { zE with fmt := 1 }, .vcmp { zE with fmt := 1, d := ⟨8, 0, 0⟩ },
    .vcmp { zE with fmt := 1, func := 5 * 8 }, .vcmp { zE with fmt := 9, func := 6 * 8 }, .vcvt { zE with fmt := 15 }, .vcvt { zE with b := im 1 },
    .vqnt { zE with fmt := 4, func := 0x310 }, .vqnt { zE with fmt := 4, func := 0x010 }, .vdq { zE with fmt := 1, func := 0x340 },
    .vdq { zE with fmt := 1, func := 0x140, b := im 1 }, .vexp { zE with fmt := 0 }, .vrcp { zE with fmt := 1, func := 1 }, .vred { zE with fmt := 1, func := 3 },
    .vscan { zE with fmt := 9 }, .vgmax { zE with fmt := 1 }, .vgmax { zE with fmt := 1, func := 2049 }, .vtopk { zE with fmt := 1, func := 1, b := im 1 },
    .vnorm { zE with fmt := 9, func := 1 }, .vcopy { zE with rm := 1 }, .vfill { zE with fmt := 4, a := im 0 }, .viota { zE with fmt := 1, a := im 0, func := 2 },
    .vgath { zE with fmt := 6 }, .vscat { zE with b := im 0 }, .vtran { zE with func := 1, mask := 1 }, .vmskAnd { zE with func := 1 },
    .vmskNot { zE with func := 4, b := im 1 }, .vmskFirst { zE with func := 5, b := im 0xFFF }, .vmskCount { zE with func := 6, d := ⟨1, 0, 0⟩ },
    .vmskLd { zE with func := 7, a := im 0 }, .vmskSt { zE with func := 8, d := im 0 }] = true := by decide

/-- Matrix fields: pairs of formats, promotion with floating formats, the FP64 accumulator pair, row counts, scales, reserved fields. -/
theorem test_wf_matrix : illFormed [.mshape { zM with w := ⟨0, 0, 0⟩ }, .mshape { zM with w := im 1, acc := 1 }, .mma { zM with wfmt := 1 }, .mma { zM with afmt := 11, wfmt := 11 },
    .mma { zM with afmt := 2, wfmt := 2, pint := 1 }, .mma { zM with acc := 1 }, .mma { zM with rows := 65 }, .mma { zM with w := im 0 },
    .mma { zM with scale := 1 }, .mmas { zM with afmt := 4, wfmt := 4 }, .mmas { zM with afmt := 4, wfmt := 2, scale := 1 },
    .mmas { zM with afmt := 2, wfmt := 4, scale := 2 }, .mmas { zM with afmt := 4, wfmt := 4, scale := 1, sc := ⟨1, 0, 0⟩ }, .mlda { zM with rows := 65 },
    .mclm { zM with acc := 1 }, .mrel { zM with rep := 1 }, .macr { zM with afmt := 15 }, .macr { zM with acc := 1 }, .mzero { zM with aslot := 1 },
    .mfill { zM with wfmt := 11 }, .mpin { zM with w := im 0 }, .munp { zM with hold := 1 }, .minv { zM with pin := 1 }, .mqry { zM with scale := 1 },
    .mrep { zM with rm := 1 }, .mlse { zM with func := 256 }, .mlrl { zM with zacc := 1 }, .mthr { zM with w := im 1 }] = true := by decide

/-- Copy and common fields: tokens of the stream, operand modes, scope codes, func bits, formats, loop counts. -/
theorem test_wf_copy : illFormed [.cpy { zE with tok := 8 }, .cpy { zE with a := im 0 }, .cpy { zE with func := 1 }, .cpyg { zE with b := im 0 },
    .cpyd { zE with func := 2, d := ⟨1, 0, 0⟩ }, .cpym { zE with fmt := 1 }, .prel { zE with d := ⟨1, 0, 0⟩ }, .dgst { zE with b := im 1 },
    .cps { zE with func := 0 }, .cps { zE with func := 5 * 2 ^ 15 }, .cps { zE with tok := 4, func := 2 ^ 15 }, .acw { zE with fmt := 4, func := 2 ^ 15 },
    .acw { zE with func := 2 ^ 15 + 3 }, .acw { zE with func := 2 ^ 15 + 1, rm := 1 }, .acwf { zE with func := 2 ^ 15, b := im 1 },
    .cas { zE with func := 2 ^ 15 }, .cpst { zE with func := 4 * 2 ^ 15 }, .scat { zE with d := ⟨1, 0, 0⟩ }, .flsh { zE with func := 2 ^ 15, a := im 0 },
    .invl { zE with func := 2 ^ 15, mask := 1 }, .aq .L { zE with func := 16 }, .aset .T { zE with d := ⟨1, 1, 0⟩ }, .aadd .X { zE with b := im 1 },
    .ejoin .L { zE with a := im 1 }, .enop .X { zE with func := 1 }, .cshape .X zE, .cshape .L { zE with func := 2 }, .loop .L { zE with a := im 0xFFF }] = true := by decide

/-! ### Witnesses: encodings and steps -/

theorem witness_ScalarDecodeEncode : (Instr.add 1 2 3).wf = true ∧ encode (.add 1 2 3) = some (.s 0x04108300) := ⟨rfl, rfl⟩

theorem witness_EngineDecodeEncode : ((Instr.ejoin .X zE).wf = true ∧ encode (.ejoin .X zE) = some (.e .X 0x3CC000000000000000000000)) ∧
    ∃ h t, (Instr.mma { zM with afmt := 2, wfmt := 2 }).wf = true ∧ encode (.mma { zM with afmt := 2, wfmt := 2 }) = some (.m h t) :=
  ⟨⟨rfl, rfl⟩, _, _, rfl, rfl⟩

theorem witness_ScalarEncodeDecode : (0xFC000000 : Nat) < 2 ^ 32 ∧ decode .S 0xB0000000 0 = .ok .halt := ⟨by decide, by decide⟩

theorem witness_WordsDecode : (0x0E * 2 ^ 26 : Nat) / 2 ^ 26 ∈ [0x0E, 0x0F, 0x14, 0x15, 0x16, 0x17, 0x25, 0x26, 0x27, 0x2F, 0x3C, 0x3D, 0x3E, 0x3F] ∧
    (2 ^ 32 - 1) / 2 ^ 26 ∈ [0x0E, 0x0F, 0x14, 0x15, 0x16, 0x17, 0x25, 0x26, 0x27, 0x2F, 0x3C, 0x3D, 0x3E, 0x3F] := ⟨by decide, by decide⟩

/-- The state in which the next step runs a word, and what the step has before it fetches. -/
def tRun (n w : Nat) : State := State.reset.withFetchWord n w
def tNow (s : State) : State := (takeAction s).2
def tTurn (s : State) (st : Stream) : State := { tNow s with turnJob := 0, turn := st }

/-- What StepRunsDecodedInstruction asks of a stream's turn, as a check; `f` sees the state that fetches and the job. -/
def turnOk (s : State) (st : Stream) (f : State → Job → Bool) : Bool :=
  match jobAt (tNow s) 0, takeTurn (tTurn s st) 0 st with
  | some j, some t => decide ((takeAction s).1 = .run 0 st) && j.mayIssue st && (j.pend != .departed) && !j.replayPast st && !traceStall (tTurn s st) j st &&
      (List.range 4).all (fun n => !bpMatch t j st n) && f t j
  | _, _ => false

/-- Such a turn exists. -/
def TurnHas (s : State) (st : Stream) (p : State → Job → Prop) : Prop :=
  ∃ s0 s2 j, takeAction s = (.run 0 st, s0) ∧ takeTurn { s0 with turnJob := 0, turn := st } 0 st = some s2 ∧
    jobAt s0 0 = some j ∧ j.mayIssue st = true ∧ (st = .S → j.pend ≠ .departed) ∧ j.replayPast st = false ∧
    traceStall { s0 with turnJob := 0, turn := st } j st = false ∧ (∀ n ∈ List.range 4, bpMatch s2 j st n = false) ∧ p s2 j

theorem turnHas_of {s : State} {st : Stream} {f : State → Job → Bool} (h : turnOk s st f = true) : TurnHas s st (fun t j => f t j = true) := by
  unfold turnOk at h
  split at h
  · rename_i j t h1 h2
    simp only [Bool.and_eq_true, decide_eq_true_eq, Bool.not_eq_true', List.all_eq_true, bne_iff_ne] at h
    obtain ⟨⟨⟨⟨⟨⟨a, b⟩, x⟩, c⟩, d⟩, e⟩, g⟩ := h
    exact ⟨tNow s, t, j, Prod.ext a rfl, h2, h1, b, fun _ => x, c, d, e, g⟩
  · cases h

/-- The stream fetches `n` bytes that satisfy `f`. -/
def fetchIs (st : Stream) (n : Nat) (f : List Byte → Bool) (s : State) (j : Job) : Bool :=
  match fetchBytes s j (j.pcOf st).toNat n with | .ok l => f l | _ => false

theorem witness_StepRunsDecodedInstruction :
    TurnHas (tRun 32 0x04108300) .S (fun t j => fetchIs .S 4 (fun l => decide (decode .S (leNat l) 0 = .ok (.add 1 2 3))) t j = true) ∧
    TurnHas (tRun 96 0x3CC000000000000000000000) .X (fun t j => fetchIs .X 12 (fun l => decide (bits (leNat l) 94 2 ≠ 2) &&
      decide (decode .X (leNat l) 0 = .ok (.ejoin .X zE))) t j = true) ∧
    TurnHas (tRun 192 (0x84001040008A080000000000 + 0xC00000000420000000000000 * 2 ^ 96)) .X (fun t j => fetchIs .X 12 (fun l => decide (bits (leNat l) 94 2 = 2)) t j = true) :=
  ⟨turnHas_of (by decide), turnHas_of (by decide), turnHas_of (by decide)⟩

/-- The next step runs S of a job whose PC is `pc` and whose fetch has waited as `w` says, while the page at 0x101000 is in a move. -/
def tFetch (pc : Word) (w : SMap Nat) : State :=
  let s := tRun 32 0x04108300
  let j := { placeJob with stallStart := w, core := { placeJob.core with S := { placeJob.core.S with pc := pc } } }
  setJob { s with M := { s.M with moves := [⟨0, 0x100000, 4096, placePa, 0x26000, []⟩] } } 0 j

/-- A word that is none; a page that is not there; a page in a move, met first and after 50 µs. -/
theorem witness_StepTrapsUndecodableWord :
    TurnHas (tRun 32 0x38000000) .S (fun t j => (match fetchWord t j .S (j.pcOf .S).toNat with
      | .ok l => (match decodeBytes .S l with | .error _ => true | .ok _ => false) | _ => false) = true) ∧
    TurnHas (tFetch 0x200000 []) .S (fun t j => decide (fetchWord t j .S (j.pcOf .S).toNat = .trap 0x04 0x200000) = true) ∧
    TurnHas (tFetch 0x100000 []) .S (fun t j => (decide (fetchWord t j .S (j.pcOf .S).toNat = .frozen) && decide (smGet j.stallStart 4 = none)) = true) ∧
    TurnHas (tFetch 0x100000 [(4, 0)]) .S (fun t j => (decide (fetchWord t j .S (j.pcOf .S).toNat = .frozen) && decide (smGet j.stallStart 4 = some 0)) = true) :=
  ⟨turnHas_of (by decide), turnHas_of (by decide +kernel), turnHas_of (by decide +kernel), turnHas_of (by decide +kernel)⟩

/-- An outcome is a next state. -/
def isNext : Host.Outcome State Fault Refusal → Bool
  | .next _ => true
  | _ => false

theorem next_of {o : Host.Outcome State Fault Refusal} (h : isNext o = true) : ∃ t, o = .next t := by
  cases o <;> first | exact ⟨_, rfl⟩ | cases h

theorem witness_EveryStepKeepsCanonicalForms : (∃ t, step (tRun 32 0x04108300) = .next t) ∧ MemOk (tRun 32 0x04108300) ∧ SlotsOk (tRun 32 0x04108300) :=
  ⟨next_of (by decide), ⟨by decide, by decide⟩, show smSorted none _ = true by decide⟩

/-! ### Witnesses: S arithmetic and control -/

theorem witness_AluResults : SReady (tS (tJ [(2, 5), (3, 7)])) 0 (tJ [(2, 5), (3, 7)]) sAny [1, 2, 3] ∧ (tJ [(2, 5), (3, 7)]).level = .job :=
  ⟨sReady_tS (by decide), by decide⟩

theorem witness_DivisionResults : (SReady (tS (tJ [(2, -7), (3, 2)])) 0 (tJ [(2, -7), (3, 2)]) sAny [1, 2, 3] ∧ (tJ [(2, -7), (3, 2)]).s 3 ≠ 0) ∧
    (SReady (tS (tJ [(2, 5)])) 0 (tJ [(2, 5)]) sAny [1, 2, 3] ∧ (tJ [(2, 5)]).s 3 = 0) ∧
    (SReady (tS (tJ [(2, 0x8000000000000000), (3, -1)])) 0 (tJ [(2, 0x8000000000000000), (3, -1)]) sAny [1, 2, 3] ∧ (tJ [(2, 0x8000000000000000), (3, -1)]).s 2 = BitVec.intMin 64 ∧
      (tJ [(2, 0x8000000000000000), (3, -1)]).s 3 = BitVec.allOnes 64) :=
  ⟨⟨sReady_tS (by decide), by decide⟩, ⟨sReady_tS (by decide), by decide⟩, sReady_tS (by decide), by decide, by decide⟩

/-- The register-only statements (BitCounts, ImmediateResults, PredicateResults, HardwiredZeroAndTrue) ask for an admitted job. -/
theorem witness_RegisterStatements : SReady (tS (tJ [])) 0 (tJ []) sAny [1, 2] ∧ SReady (tS (tJ [])) 0 (tJ []) sAny [0, 63, 1] :=
  ⟨sReady_tS (by decide), sReady_tS (by decide)⟩

theorem witness_ControlTransfers : SReady (tS (tJ [(1, 0x100008)])) 0 (tJ [(1, 0x100008)]) sAny [1] ∧ ((tJ []).p 0 ^^ ((0 : BitVec 1) == 1)) = true ∧
    ((tJ []).p 0 ^^ ((1 : BitVec 1) == 1)) = false ∧ ((tJ [(1, 0x100008)]).s 1).toNat % 4 = 0 ∧ ((tJ [(1, 0x100003)]).s 1).toNat % 4 ≠ 0 :=
  ⟨sReady_tS (by decide), by decide, by decide, by decide, by decide⟩

theorem witness_ArithmeticFrame : aluRegs (.div 1 2 3) = some [1, 2, 3] ∧ SReady (tS (tJ [])) 0 (tJ []) sAny [1, 2, 3] ∧ (tJ []).pend = .none ∧
    TraceOff (tS (tJ [])) (tJ []).fdom ∧ ∃ t, exec (.div 1 2 3) (tS (tJ [])) = .next t :=
  ⟨rfl, sReady_tS (by decide), by decide, traceOff_of (by decide), next_of (by decide)⟩

/-- A job whose header declares 8 registers, 4 spill slots, no queue, two barriers, one address register each, no accumulator and slot. -/
def jSmall : Job := { placeJob with hdr0 := BitVec.ofNat 64 (2 ^ 63 + 4 * 2 ^ 53 + 2 * 2 ^ 38 + 1 * 2 ^ 17 + 1 * 2 ^ 12 + 1 * 2 ^ 7 + 8) }

theorem turn_tS (j : Job) : Turn (tS j) 0 j := ⟨by simp [tS], jobAt_tS j⟩

/-- Register 8 of eight is the first undeclared one, 7 the last declared. -/
theorem witness_UndeclaredRegisterTraps : Turn (tS jSmall) 0 jSmall ∧ jSmall.level = .job ∧ jSmall.sOk 8 = false ∧ jSmall.sOk 7 = true ∧ jSmall.sOk 62 = false ∧
    jSmall.sOk 63 = true := ⟨turn_tS _, by decide, by decide, by decide, by decide, by decide⟩

theorem witness_SpillStore : SReady (tS jSmall) 0 jSmall sReg [7] ∧ SReady (tS jSmall) 0 jSmall sJob [7] ∧ (3 : BitVec 9).toNat < jSmall.nSpill ∧
    jSmall.nSpill ≤ (4 : BitVec 9).toNat := ⟨sReady_tS (by decide), sReady_tS (by decide), by decide, by decide⟩

/-- The job with values in a queue. -/
def jQ (n : Nat) (l : List Word) : Job :=
  l.foldl (fun j v => { j with core := { j.core with Q := { j.core.Q with q := j.core.Q.q.setIfInBounds n (j.queue n ++ [v]) } } }) placeJob

theorem witness_QueueInstructions :
    (SReady (tS (jQ 11 [1])) 0 (jQ 11 [1]) sJob [5] ∧ TraceOff (tS (jQ 11 [1])) (jQ 11 [1]).fdom ∧ (jQ 11 [1]).replay = none ∧ (jQ 11 [1]).qmap 11 = true ∧
      (jQ 11 [1]).qFull 11 = false) ∧
    (jQ 0 [1, 2, 3, 4, 5, 6, 7, 8]).qFull 0 = true ∧ (jQ 12 [9, 8]).queue 12 = [9, 8] ∧ (jQ 14 [9]).queue 14 = [9] ∧ (jQ 0 []).queue 15 = [] ∧
    (jQ 0 []).qmap 15 = true ∧ jSmall.qmap 0 = false ∧ SReady (tS jSmall) 0 jSmall sJob [5] :=
  ⟨⟨sReady_tS (by decide), traceOff_of (by decide), by decide, by decide, by decide⟩, by decide, by decide, by decide, by decide, by decide, by decide,
   sReady_tS (by decide)⟩

/-! ### Witnesses: S memory -/

/-- A job with an address of the data page in s2, its last eight bytes in s3, an odd address in s4. -/
def jM : Job := tJ [(1, 0x1122334455667788), (2, 0x101000), (3, 0x101FF8), (4, 0x101001), (5, 1), (6, 3)]

/-- The state with it, the die owning the first line of the page. -/
def sM : State := let s := tS jM; { s with M := { s.M with dir := smSet s.M.dir (0x24000 / 64) (.owned 0) } }

theorem sM_ready {cls : SClass} {regs : List (BitVec 6)} (hb : sReadyB jM cls regs = true) : SReady sM 0 jM cls regs :=
  sReady_of (show (tS jM).turnJob = 0 by simp [tS]) (jobAt_tS jM) hb

theorem sPlain_of {s : State} {k : Nat} {j : Job} {a : SAcc} {ea pa : Nat}
    (h : (decide (sCheck s k j a ea = .ok pa) && (rangeOf s pa).isMem && j.region.isNone && j.replay.isNone && (partialsOf s (lineOf pa)).isEmpty &&
      s.M.scopes.all (fun c => c.line != lineOf pa) && !gathered s (lineOf pa) && s.M.persistent.all (fun e => e.1 != lineOf pa)) = true) :
    SPlain s k j a ea pa := by
  simp only [Bool.and_eq_true, decide_eq_true_eq, Option.isNone_iff_eq_none, List.isEmpty_iff, Bool.not_eq_true'] at h
  obtain ⟨⟨⟨⟨⟨⟨⟨a, b⟩, c⟩, d⟩, e⟩, f⟩, g⟩, i⟩ := h
  exact ⟨a, b, c, d, e, f, g, i⟩

theorem lineClear_of {s : State} {line : Nat} (h : ((partialsOf s line).isEmpty && s.M.scopes.all (fun c => c.line != line) && !gathered s line &&
    s.M.persistent.all (fun e => e.1 != line)) = true) : LineClear s line := by
  simp only [Bool.and_eq_true, List.isEmpty_iff, Bool.not_eq_true'] at h
  exact ⟨h.1.1.1, h.1.1.2, h.1.2, h.2⟩

theorem witness_Loads : SReady sM 0 jM sAny [1, 2] ∧ SReady sM 0 jM sHnd [1, 2] ∧
    SPlain sM 0 jM ⟨8, .read, true, true⟩ (effAddr jM 2 (0 : BitVec 10) 8) 0x24000 ∧ SPlain sM 0 jM ⟨1, .read, true, false⟩ (effAddr jM 3 (7 : BitVec 9) 1) 0x24FFF ∧
    (dirHas sM 0 (lineOf 0x24000) = true ∧ ∀ i, smGet sM.M.nmOld (0x24000 + i) = none) ∧ sCheck sM 0 jM ⟨8, .read, true, true⟩ (effAddr jM 4 (0 : BitVec 10) 8) = .trap 0x03 0x101001 ∧
    sCheck sM 0 jM ⟨8, .read, true, true⟩ (effAddr jM 5 (0 : BitVec 10) 1) = .trap 0x03 1 :=
  ⟨sM_ready (by decide), sM_ready (by decide), sPlain_of (by decide), sPlain_of (by decide), ⟨by decide, fun _ => rfl⟩, by decide, by decide⟩

theorem witness_Stores : SReady sM 0 jM sAny [1, 2] ∧ SPlain sM 0 jM ⟨4, .write, true, true⟩ (effAddr jM 2 (15 : BitVec 10) 4) 0x2403C ∧
    dirOwned sM 0 (lineOf 0x2403C) = true ∧ TraceOff sM jM.fdom ∧ sCheck sM 0 jM ⟨1, .write, true, true⟩ 0x100000 = .trap 0x06 0x100000 ∧
    (SReady sM 0 jM sHnd [1, 2] ∧ throwsDone sM jM.uid = true ∧ SPlain sM 0 jM ⟨8, .write, true, false⟩ (effAddr jM 2 (0 : BitVec 9) 8) 0x24000 ∧
      ∀ sc ∈ [0, 1, 2, 3, 4], LineClear (publishOwn sM (jCoreKey 0) (effScope sc)) (lineOf 0x24000) ∧
        dirOwned (publishOwn sM (jCoreKey 0) (effScope sc)) (jDie 0) (lineOf 0x24000) = true) :=
  ⟨sM_ready (by decide), sPlain_of (by decide), by decide, traceOff_of (by decide), by decide, sM_ready (by decide), by decide, sPlain_of (by decide),
   fun sc h => ⟨lineClear_of (by revert sc; decide), by revert sc; decide⟩⟩

theorem sBeats_of {s : State} {k : Nat} {j : Job} {a : SAcc} {eas pas : List Nat}
    (h : (decide (pas.length = eas.length) && j.region.isNone && j.replay.isNone && (eas.zip pas).all (fun x => decide (sCheck s k j a x.1 = .ok x.2) &&
      (rangeOf s x.2).isMem && (partialsOf s (lineOf x.2)).isEmpty && s.M.scopes.all (fun c => c.line != lineOf x.2) && !gathered s (lineOf x.2) &&
      s.M.persistent.all (fun e => e.1 != lineOf x.2))) = true) : SBeats s k j a eas pas := by
  simp only [Bool.and_eq_true, decide_eq_true_eq, Option.isNone_iff_eq_none, List.all_eq_true, List.isEmpty_iff, Bool.not_eq_true'] at h
  refine ⟨h.1.1.1, fun x hx => ?_⟩
  obtain ⟨⟨⟨⟨⟨a, b⟩, c⟩, d⟩, e⟩, f⟩ := h.2 x hx
  exact ⟨a, b, h.1.1.2, h.1.2, c, by simpa using d, e, by simpa using f⟩

/-- Eight beats in the owned line, for registers 10 to 17. -/
theorem witness_MultiBeatAndStrongStores :
    (SReady sM 0 jM sAny (multiRegs 10 7 ++ [2]) ∧ multiDec 10 7 jM = none ∧ TraceOff sM jM.fdom ∧
      SBeats sM 0 jM ⟨8, .read, true, true⟩ (beats (effAddr jM 2 (0 : BitVec 8) 8) 8) ((List.range 8).map (fun i => 0x24000 + 8 * i)) ∧
      SBeats sM 0 jM ⟨8, .write, true, true⟩ (beats (effAddr jM 2 (0 : BitVec 8) 8) 8) ((List.range 8).map (fun i => 0x24000 + 8 * i)) ∧
      ∀ p ∈ (List.range 8).map (fun i => 0x24000 + 8 * i), dirOwned sM (jDie 0) (lineOf p) = true ∧ dirHas sM (jDie 0) (lineOf p) = true ∧
        ∀ i, smGet sM.M.nmOld (p + i) = none) ∧
    (SReady sM 0 jM sJob [1, 2, 6] ∧ SPlain sM 0 jM ⟨8, .write, false, false⟩ (jM.s 2).toNat 0x24000 ∧ throwTargets (jCoreKey 0) 1 (jM.s 6) = [1]) ∧
    SReady sM 0 jM sJob [2] :=
  ⟨⟨sM_ready (by decide), by decide, traceOff_of (by decide), sBeats_of (by decide), sBeats_of (by decide),
     fun p hp => ⟨by revert p; decide, by revert p; decide, fun _ => rfl⟩⟩,
   ⟨sM_ready (by decide), sPlain_of (by decide), by decide⟩, sM_ready (by decide)⟩

/-- The lowest misaligned address of each width. -/
theorem witness_MisalignedAccessTraps : SReady sM 0 jM sAny [1, 4] ∧ effAddr jM 4 (0 : BitVec 10) (widthBytes 1) % widthBytes 1 ≠ 0 ∧
    effAddr jM 4 (0 : BitVec 10) (widthBytes 3) % widthBytes 3 ≠ 0 := ⟨sM_ready (by decide), by decide, by decide⟩

/-! ### Witnesses: S synchronisation -/

/-- A job of stream L with word `w` in flight. -/
def flyL (w : EWord) : InFlight := ⟨0x100000, 1, .cpy w, 0, [0, 0, 0], [], CShape.reset, Effect.none, [], Machine.Part.none⟩
def jFly : Job := { placeJob with core := { placeJob.core with L := { placeJob.core.L with inflight := [flyL zE] } } }
/-- A job that waits at `p`. -/
def jPend (p : SPend) : Job := { placeJob with pend := p }

/-- A machine whose core still has a throw of its job on its way. -/
def sThrow (j : Job) : State := let s := tS j; { s with M := { s.M with deliveries := [(1, 0x900, j.uid)] } }

/-- A fence of S to S, the narrowest; one that names L too, whose word is in flight; one that a throw holds back; one that has waited, and one
that waits still. -/
theorem witness_FencesRetire : (SReady (tS (tJ [])) 0 (tJ []) (if (1 : BitVec 8) ||| 1 = 1 then sHnd else sJob) [] ∧ throwsDone (tS (tJ [])) (tJ []).uid = true ∧
      fenceNeed (tJ []) (1 : BitVec 8).toNat = []) ∧
    (SReady (tS jFly) 0 jFly (if (3 : BitVec 8) ||| 1 = 1 then sHnd else sJob) [] ∧ throwsDone (tS jFly) jFly.uid = true ∧ fenceNeed jFly (3 : BitVec 8).toNat ≠ []) ∧
    (SReady (sThrow (tJ [])) 0 (tJ []) (if (1 : BitVec 8) ||| 1 = 1 then sHnd else sJob) [] ∧ (1 : BitVec 8).getLsbD 0 = true ∧ (2 : BitVec 2) ≠ 1 ∧
      throwsDone (sThrow (tJ [])) (tJ []).uid = false) ∧
    (let j := jPend (.fence [] [] 3 1 1 0); jobAt (tS j) 0 = some j ∧ j.pend = .fence [] [] 3 1 1 0 ∧ j.core.S.seq < seqMax) ∧
    (let j := jPend (.fence [(1, 1)] [] 3 1 1 0); jobAt (tS j) 0 = some j ∧ j.pend = .fence [(1, 1)] [] 3 1 1 0) :=
  ⟨⟨sReady_tS (by decide), by decide, by decide⟩, ⟨sReady_tS (by decide), by decide, by decide⟩,
   ⟨sReady_of (show (tS (tJ [])).turnJob = 0 by simp [tS]) (show smGet (tS (tJ [])).jobs 0 = _ from jobAt_tS _) (by decide), by decide, by decide, by decide⟩,
   ⟨jobAt_tS _, rfl, by decide⟩, jobAt_tS _, rfl⟩

/-- A job whose S path comes after access 5 of key 1. -/
def jClk : Job := { placeJob with clk := placeJob.clk.set 0 (newClk [(1, 5)]) }

theorem witness_FenceOrdersPaths : ((0 : Nat) ∈ [0, 1] ∧ vcCovers (jClk.fromClk 0).all 1 5 = true ∧ vcCovers (jClk.fromClk 0).ld 1 5 = true) ∧
    (6 : Nat) < 7 ∧ (0 : Nat) < 1 ∧ smGet ([(3, [(1, 5)])] : SMap VC) 3 = some [(1, 5)] ∧ vcCovers [(1, 5)] 1 5 = true ∧ (0 : Nat) ≠ 2 := by decide

/-- A ready launch of `n` jobs, whose producers are `p`. -/
def tL (n : Nat) (p : List Prod) : Launch :=
  ⟨0x80000, 0, [], placeHdr0, placeHdr1, 0, 0, 0, .ready, [(1, n), (n, n)], n, n - 1, p, 0, 0, [], false, 0, 0, 0, 0, 0, [], [], []⟩

/-- A near-memory job of the test's job. -/
def tN (h : Nat) : NmJob := ⟨h, 0, 0, 0, [], none, 0, [], [], none⟩

/-- The machine with a launch, and M-die 0 with the near-memory jobs `q` queued, `r` running and `e` ended. -/
def sL (j : Job) (v : Launch) (q r : List NmJob) (e : SMap (Nat × Nat × VC)) : State :=
  let s := setLaunch (tS j) 0 v
  setMdie s 0 { mdieSt s 0 with queue := q, running := r, ended := e }

theorem sL_ready {j : Job} {v : Launch} {q r : List NmJob} {e : SMap (Nat × Nat × VC)} {cls : SClass} {regs : List (BitVec 6)}
    (hb : sReadyB j cls regs = true) : SReady (sL j v q r e) 0 j cls regs :=
  sReady_of (show (tS j).turnJob = 0 by simp [tS]) (jobAt_tS j) hb

/-- A job with a near-memory handle in s1, a buffer group and expert in s2, a count in s3. -/
def jN : Job := { tJ [(1, 7), (2, 0x105), (3, 2)] with nmHandles := [7] }

/-- The machine with ingress group 1 of eight experts, of which expert 5 has `n` rows and a hole at slot `h`. -/
def sG (n h : Nat) : State :=
  let s := tS jN
  setDie s 0 { dieSt s 0 with groups := [(1, ⟨0, 0, 1, false, 8, 0, 0, 64, 0, [(5, n)], [⟨1, 0, [(5, h)], []⟩]⟩)] }

/-- A job parked at a WAIT.prod for the producers `p`. -/
def sPk (p : List Prod) : State :=
  let s := sL (jPend .parked) (tL 1 p) [] [] []
  { s with M := { s.M with mem := memWriteBytes s.M.mem placePa (natLe 4 0xA4000000) } }

theorem witness_WaitsRetireOrPark : jN.replay = none ∧
    (SReady (sL jN (tL 1 []) [] [] []) 0 jN sJob [2, 3] ∧ launchAt (sL jN (tL 1 []) [] [] []) jN.launch = some (tL 1 []) ∧ prodsDone (sL jN (tL 1 []) [] [] []) (tL 1 []) = true) ∧
    (launchAt (sL jN (tL 1 [⟨0x90000, 0⟩]) [] [] []) jN.launch = some (tL 1 [⟨0x90000, 0⟩]) ∧ prodsDone (sL jN (tL 1 [⟨0x90000, 0⟩]) [] [] []) (tL 1 [⟨0x90000, 0⟩]) = false) ∧
    (nmStatus (sL jN (tL 1 []) [] [] [(7, 2, 0, [])]) jN 7).1 = 2 ∧ (nmStatus (sL jN (tL 1 []) [] [tN 7] []) jN 7).1 = 1 ∧ (nmStatus (sL jN (tL 1 []) [tN 7] [] []) jN 7).1 = 0 ∧
    (nmStatus (sL jN (tL 1 []) [] [] [(7, 3, 1, [])]) jN 7).1 = 3 ∧ (nmStatus (sL jN (tL 1 []) [] [] []) jN 8).1 = 4 ∧
    (∃ g e, ingrGroup (sG 2 2) 0 jN (jN.s 2).toNat = some (g, e) ∧ ingrReady g e (jN.s 3).toNat = true) ∧
    (∃ g e, ingrGroup (sG 1 2) 0 jN (jN.s 2).toNat = some (g, e) ∧ ingrReady g e (jN.s 3).toNat = false) ∧
    (∃ g e, ingrGroup (sG 2 1) 0 jN (jN.s 2).toNat = some (g, e) ∧ ingrReady g e (jN.s 3).toNat = false) ∧
    ingrGroup (sG 2 2) 0 jN (jN.s 1).toNat = none ∧
    (jobAt (sPk []) 0 = some (jPend .parked) ∧ (jPend .parked).pend = .parked ∧ nextWord (sPk []) (jPend .parked) .S = some .waitProd ∧
      waitHolds (sPk []) 0 (jPend .parked) .waitProd = true) ∧
    (nextWord (sPk [⟨0x90000, 0⟩]) (jPend .parked) .S = some .waitProd ∧ waitHolds (sPk [⟨0x90000, 0⟩]) 0 (jPend .parked) .waitProd = false) :=
  ⟨by decide, ⟨sL_ready (by decide), by decide, by decide⟩, ⟨by decide, by decide⟩, by decide, by decide, by decide, by decide, by decide,
   ⟨_, _, rfl, by decide⟩, ⟨_, _, rfl, by decide⟩, ⟨_, _, rfl, by decide⟩, by decide, ⟨jobAt_tS _, rfl, by decide +kernel, by decide⟩, by decide +kernel, by decide⟩

/-- A job waiting at s2 for the value of s3, `v`; eight zero bytes stand in memory. -/
def jW (v : Word) : Job := tJ [(2, 0x101000), (3, v)]
def sW (v : Word) : State := let s := tS (jW v); { s with M := { s.M with mem := memWriteBytes s.M.mem 0x24000 [5], dir := smSet s.M.dir (0x24000 / 64) (.owned 0) } }

theorem jobAt_sW (v : Word) : jobAt (sW v) 0 = some (jW v) := by
  show smGet (tS (jW v)).jobs 0 = _
  exact jobAt_tS _

theorem sW_ready {v : Word} {cls : SClass} {regs : List (BitVec 6)} (hb : sReadyB (jW v) cls regs = true) : SReady (sW v) 0 (jW v) cls regs :=
  sReady_of (show (tS (jW v)).turnJob = 0 by simp [tS]) (jobAt_sW v) hb

/-- Below, at and above the value in memory. -/
theorem witness_WaitsOnMemory : (SReady (sW 5) 0 (jW 5) sJob [2, 3] ∧ SPlain (sW 5) 0 (jW 5) ⟨8, .read, true, false⟩ ((jW 5).s 2).toNat 0x24000 ∧
      loaded (sW 5) 0 (jW 5) 3 0x24000 8 = ((jW 5).s 3).toNat) ∧
    (SReady (sW 6) 0 (jW 6) sJob [2, 3] ∧ SPlain (sW 6) 0 (jW 6) ⟨8, .read, true, false⟩ ((jW 6).s 2).toNat 0x24000 ∧
      loaded (sW 6) 0 (jW 6) 3 0x24000 8 ≠ ((jW 6).s 3).toNat ∧ loaded (sW 6) 0 (jW 6) 3 0x24000 8 < ((jW 6).s 3).toNat) :=
  ⟨⟨sW_ready (by decide), sPlain_of (by decide), by decide +kernel⟩, sW_ready (by decide), sPlain_of (by decide), by decide +kernel, by decide +kernel⟩

theorem witness_TrigCountsOnce : SReady (sL jN (tL 1 []) [] [] []) 0 jN sJob [] ∧ throwsDone (sL jN (tL 1 []) [] [] []) jN.uid = true ∧ jN.replay = none ∧
    launchAt (sL jN (tL 1 []) [] [] []) jN.launch = some (tL 1 []) ∧ throwsDone (sThrow jN) jN.uid = false :=
  ⟨sL_ready (by decide), by decide, by decide, by decide, by decide⟩

/-- A job whose engine streams all wait at their joins. -/
def jEnd : Job :=
  let e := fun (g : Eng) => { g with ejoin := some (0 : BitVec 4) }
  { placeJob with core := { placeJob.core with L := e placeJob.core.L, X := e placeJob.core.X, T := e placeJob.core.T } }
/-- A job without engine streams. -/
def jNone : Job := { placeJob with hdr1 := 0 }

/-- Core 0 holds a scope copy. -/
def sCopy (j : Job) : State := let s := tS j; { s with M := { s.M with scopes := [⟨0, 0, 0x900, List.replicate 64 1, 1, 0, [0]⟩] } }

theorem witness_JoinPoints : (SReady (tS jEnd) 0 jEnd sJob [] ∧ rdvDec 7 jEnd = none ∧ jEnd.joined (7 : BitVec 3).toNat = true ∧ jEnd.joinOver (7 : BitVec 3).toNat = none ∧
      jEnd.joined jEnd.presentMask = true ∧ jEnd.joinOver jEnd.presentMask = none ∧ jEnd.preempt = none ∧ haltReady (tS jEnd) jEnd = true ∧
      haltCopies (tS jEnd) 0 = [] ∧ SlotsOk (tS jEnd) ∧ jEnd.replay = none) ∧
    (SReady (tS (tJ [])) 0 (tJ []) sJob [] ∧ rdvDec 1 (tJ []) = none ∧ (tJ []).joined (1 : BitVec 3).toNat = false ∧ (tJ []).joined (tJ []).presentMask = false) ∧
    haltCopies (sCopy jEnd) 0 ≠ [] ∧
    (let j := { jEnd with pend := .join 7 .rdv }; jobAt (tS j) 0 = some j ∧ j.core.S.seq < seqMax ∧ j.pend = .join 7 .rdv ∧ j.joined 7 = true ∧ j.joinOver 7 = none) ∧
    (let j := { jEnd with pend := .join 7 .yield }; jobAt (tS j) 0 = some j ∧ j.pend = .join 7 .yield ∧ 7 = j.presentMask ∧ j.joined 7 = true ∧ j.joinOver 7 = none) ∧
    (let j := { jEnd with pend := .join 7 .halt }; jobAt (tS j) 0 = some j ∧ j.pend = .join 7 .halt ∧ haltReady (tS j) j = true ∧ haltCopies (tS j) 0 = [] ∧
      haltReady (sCopy j) j = true ∧ haltCopies (sCopy j) 0 ≠ [] ∧ j.joinOver j.presentMask = none ∧ j.replay = none) ∧
    (let j := { placeJob with pend := .join 7 .halt }; jobAt (tS j) 0 = some j ∧ j.pend = .join 7 .halt ∧ haltReady (tS j) j = false) ∧
    (SReady (tS jNone) 0 jNone sJob [] ∧ rdvDec 7 jNone = some (0x02, 7)) :=
  ⟨⟨sReady_tS (by decide), by decide, by decide, by decide, by decide, by decide, by decide, by decide, by decide, show smSorted none _ = true by decide, by decide⟩,
   ⟨sReady_tS (by decide), by decide, by decide, by decide⟩, by decide, ⟨jobAt_tS _, by decide, rfl, by decide, by decide⟩,
   ⟨jobAt_tS _, rfl, by decide, by decide, by decide⟩, ⟨jobAt_tS _, rfl, by decide, by decide, by decide, by decide, by decide, by decide⟩,
   ⟨jobAt_tS _, rfl, by decide⟩, sReady_tS (by decide), by decide⟩

/-- A job whose BARC has been let go takes the next step; its S holds the slot. -/
def sGone : State := let s := tRun 32 0x04108300; setJob s 0 (jPend .departed)

def goneB : Bool :=
  match takeSlot (tTurn sGone .S) 0, jobAt (tNow sGone) 0 with
  | some _, some j => decide ((takeAction sGone).1 = .run 0 .S) && j.phase == .running && j.pend == .departed && !j.replayPast .S && !traceStall (tTurn sGone .S) j .S &&
      decide (j.core.S.seq < seqMax)
  | _, _ => false

/-- The last declared barrier and the first undeclared one; a barrier whose one participant has arrived, one whose participant has not; a departed job. -/
theorem witness_BarrierArrivesAndCompletes : (SReady (tS jSmall) 0 jSmall sJob [] ∧ (1 : BitVec 4).toNat < jSmall.nBar ∧ jSmall.replay = none) ∧
    jSmall.nBar ≤ (2 : BitVec 4).toNat ∧
    (let j := jPend (.barc 0); let b : Barrier := ⟨0, 0, [j.uid], [(j.uid, [])], []⟩; let s := setBarrier (tS j) 0 0 0 (some b)
      barrierAt s 0 0 0 = some b ∧ b.parts.all (fun u => (smGet b.arrived u).isSome) = true ∧ b.later = [] ∧ slotOf s j.uid = some 0 ∧ jobAt s 0 = some j ∧ j.pend = .barc 0) ∧
    (let j := jPend (.barc 0); let b : Barrier := ⟨0, 0, [j.uid], [], []⟩; let s := setBarrier (tS j) 0 0 0 (some b)
      barrierAt s 0 0 0 = some b ∧ b.parts.all (fun u => (smGet b.arrived u).isSome) = false) ∧
    (∃ s2 j, takeSlot (tTurn sGone .S) 0 = some s2 ∧ jobAt (tNow sGone) 0 = some j ∧ goneB = true) := by
  refine ⟨⟨sReady_tS (by decide), by decide, by decide⟩, by decide, ⟨by decide, by decide, rfl, by decide, jobAt_tS _, rfl⟩, ⟨by decide, by decide⟩, ?_⟩
  have h : goneB = true := by decide
  generalize h1 : takeSlot (tTurn sGone .S) 0 = a at *
  generalize h2 : jobAt (tNow sGone) 0 = b at *
  have h' := h
  unfold goneB at h'
  rw [h1, h2] at h'
  split at h'
  · exact ⟨_, _, rfl, rfl, h⟩
  · cases h'

/-! ### Witnesses: regions, launches, system -/

/-- A region that has written byte 3 of line 0x900, with bounds and position. -/
def tRg (lo hi : Nat) (p : Option Nat) : Region := ⟨0x100040, [], [0x900], [(64 * 0x900 + 3, 7)], lo, hi, [], [], 1, p, [], []⟩

/-- A job in it. -/
def jR (p : SPend) (r : Region) : Job :=
  { placeJob with pend := p, region := some r, core := { placeJob.core with rlo := 1, rhi := BitVec.allOnes 48, rstat := 8 } }

theorem witness_RegionInstructions : (SReady (tS (tJ [])) 0 (tJ []) sJob [] ∧ (tS (tJ [])).rebasing = false ∧ rebaseDue (tS (tJ [])) = false) ∧
    (let s := { tS (tJ []) with gpos := BitVec.ofNat 48 (2 ^ 47 + 1) }; SReady s 0 (tJ []) sJob [] ∧ rebaseDue s = true) ∧
    (∀ hi ∈ [1, 0], let r := tRg 1 hi none; let j := jR .none r; SReady (tS j) 0 j sReg [3] ∧ SReady (tS j) 0 j sReg [] ∧ j.region = some r ∧ j.core.rlo.toNat ≤ r.lo ∧
      r.hi ≤ j.core.rhi.toNat ∧ r.lo < 2 ^ 48 ∧ r.hi < 2 ^ 48) ∧ (tRg 1 1 none).lo ≤ (tRg 1 1 none).hi ∧ (tRg 1 0 none).hi < (tRg 1 0 none).lo ∧
    (SReady (tS (tJ [])) 0 (tJ []) sReg [3] ∧ (tJ []).region = none) :=
  ⟨⟨sReady_tS (by decide), by decide, by decide⟩,
   ⟨sReady_of (show (tS (tJ [])).turnJob = 0 by simp [tS]) (show smGet (tS (tJ [])).jobs 0 = _ from jobAt_tS _) (by decide), by decide⟩,
   fun hi h => ⟨sReady_tS (by revert hi; decide), sReady_tS (by revert hi; decide), rfl, by revert hi; decide, by revert hi; decide, by revert hi; decide, by revert hi; decide⟩,
   by decide, by decide, sReady_tS (by decide), by decide⟩

/-- The region's line is gathered, and its die owns it. -/
def sRg (j : Job) : State := let s := tS j; { s with M := { s.M with committing := [(0x900, 0)], dir := [(0x900, .owned 0)] } }

theorem witness_RegionCommitsAtLowerBound :
    (let r := tRg 5 5 none; let j := jR (.commit 3) r; jobAt (sRg j) 0 = some j ∧ j.region = some r ∧ j.pend = .commit 3 ∧ j.replay = none ∧ r.frozen = none ∧
      allGathered (sRg j) 0 r = true ∧ j.core.rlo.toNat ≤ r.lo ∧ r.hi ≤ j.core.rhi.toNat ∧ r.lo ≤ r.hi ∧ r.hi < 2 ^ 48) ∧
    (let r := tRg 5 5 (some 5); let j := jR (.commit 3) r; jobAt (sRg j) 0 = some j ∧ j.region = some r ∧ j.pend = .commit 3 ∧ j.replay = none ∧ r.frozen = some 5 ∧
      0 ∉ r.succ ∧ 0 ∉ r.pred ∧ r.regs = [] ∧ j.core.S.seq < seqMax ∧ TraceOff (sRg j) j.fdom ∧ (∀ l ∈ r.writes, dirOwned (sRg j) (jDie 0) l = true) ∧
      (∀ c ∈ r.store, lineOf c.1 ∈ r.writes) ∧ smSorted none r.store = true) :=
  ⟨⟨jobAt_tS _, rfl, rfl, rfl, rfl, by decide, by decide, by decide, by decide, by decide⟩,
   jobAt_tS _, rfl, rfl, rfl, rfl, by decide, by decide, rfl, by decide, traceOff_of (by decide), by decide, by decide, by decide⟩

/-- The machine whose data page holds the words `l` and whose die owns the page's first lines, its translation cached; the package is booted, the job's launch is `v`. -/
def sPg (j : Job) (l : List Nat) (v : Launch) : State :=
  let s := tS j
  let s := { s with B := { s.B with cdies := 1, mdies := [0, 1, 2] }, M := { s.M with tlb := [⟨0, 3, 0, 0x20001⟩, ⟨0, 2, 0, 0x21001⟩, ⟨0, 1, 0, 0x22001⟩, ⟨0, 0, 0x101, 2 ^ 53 + 2 ^ 52 + 0x24000 + 2 ^ 6 + 1⟩], mem := tMem ++ ((((l.map (natLe 8)).flatten.zipIdx 0x24000).filter (fun e => e.1 != 0)).map (fun e => (e.2, e.1))), dir := (List.range 4).map (fun i => (0x900 + i, .owned 0)) } }
  setLaunch s 0 v

theorem sPg_ready {j : Job} {l : List Nat} {v : Launch} {cls : SClass} {regs : List (BitVec 6)} (hb : sReadyB j cls regs = true) : SReady (sPg j l v) 0 j cls regs :=
  sReady_of (show (tS j).turnJob = 0 by simp [tS]) (jobAt_tS _) hb

/-- Addresses of the data page in s2 and s3, of a leaf's control block in s4, a misaligned one in s5. -/
def jNest : Job := tJ [(2, 0x101000), (3, 0x101080), (4, 0x24100), (5, 0x101001)]

/-- A nest record of one step that notifies when `c` has bit 6, then a launch record, the control block of a leaf that is its own root and
that jobs feed, and a header. -/
def tNest (c : Nat) : List Nat :=
  [2 ^ 8 + 2 + c, 0x101000, 0x101000, 0x102000, 0, 0, 0, 0, 0, 0, 0, 0, 0, 0, 0, 0] ++
  [0x101200, 0x100000, 0x100000, 0x100000, 0x100000, 1, 0, 2 ^ 32, 0, 0, 0, 0, 0, 0, 0, 0] ++
  [7 * 2 ^ 61 + 15 * 2 ^ 48, 0, 0, 0, 0, 0x24280, 0, 0, 0, 0, 0, 0, 0, 0, 0, 0] ++ List.replicate 16 0 ++ [placeHdr0.toNat, placeHdr1.toNat]
def sNest (c : Nat) : State := sPg jNest (tNest c) { tL 1 [] with leaf := 0x24100, wgens := [(0x101000, 9)] }

/-- The record's beats. -/
def nestPas : List Nat := (List.range 16).map (fun i => 0x24000 + 8 * i)

def spawnB (s : State) (v : Launch) (leaf : Nat) (w : List Nat) : Bool :=
  leafOk s leaf && bitOf (recWord s leaf 0) 61 &&
  (match rcbChain s chainMax leaf with
    | some c => c.getLast? == some (((rcbChain s chainMax v.leaf).bind (fun c => c.getLast?)).getD 0) &&
        (c.find? (fun a => bitOf (recWord s a 0) 51)).map (fun a => bits (recWord s a 0) 36 12) == some v.fdom && bits (recWord s (c.getLast?.getD 0) 0) 48 4 == 15
    | none => false) && recordOk w && (recProds w).all (prodOk s v.fdom) &&
  (match readHeader s v.fdom (w.getD 0 0) false with | .ok h0 h1 => headerOk h0 h1 && entriesOk w h1 | _ => false) &&
  (leafTail s leaf + 2 ^ 32 - leafHead s leaf) % 2 ^ 32 != 2 ^ (recWord s leaf 6 % 32)

theorem spawnOk_of {s : State} {v : Launch} {leaf : Nat} {w : List Nat} (h : spawnB s v leaf w = true) : SpawnOk s v leaf w false := by
  simp only [spawnB, Bool.and_eq_true] at h
  obtain ⟨⟨⟨⟨⟨⟨a, b⟩, c⟩, d⟩, e⟩, f⟩, g⟩ := h
  split at c
  · rename_i l hl
    split at f
    · rename_i h0 h1 hh
      simp only [Bool.and_eq_true, beq_iff_eq] at c f
      exact ⟨⟨a, b⟩, ⟨l, hl, c.1.1, c.1.2, c.2⟩, ⟨d, e⟩, ⟨h0, h1, hh, f.1, f.2⟩, by simpa using g⟩
    · cases f
  · cases c

/-- SPAWN's record is read, and then `f` holds. -/
def spawnRead (f : State → List Nat → Bool) : Bool :=
  match sCheckAll (sNest 0) 0 jNest ⟨8, .read, false, false⟩ (recordBeats 0x101080) with
  | .ok l => match sLoads (publishOwn (sNest 0) (jCoreKey 0) 3) 0 8 3 false l with | .ok s' w => f s' w | _ => false
  | .error _ => false

theorem spawnRead_of {f : State → List Nat → Bool} (h : spawnRead f = true) : ∃ l s' w, sCheckAll (sNest 0) 0 jNest ⟨8, .read, false, false⟩ (recordBeats 0x101080) = .ok l ∧
    sLoads (publishOwn (sNest 0) (jCoreKey 0) 3) 0 8 3 false l = .ok s' w ∧ f s' w = true := by
  unfold spawnRead at h
  split at h
  · rename_i l hl
    split at h
    · rename_i s' w hs; exact ⟨l, s', w, hl, hs, h⟩
    · cases h
  · cases h

/-- A table of one weight entry at s2 whose generation 1 is ready and current. -/
def sGen : State :=
  let s := sPg jNest [1, 0, 0x101040, 0, 0, 0, 0, 0, 1 + 2 * 2 ^ 32] (tL 1 [])
  setDomain s 0 { domainSt s 0 with wtBase := 0x101000, wtCount := 1 }
def sGen' : State :=
  let m := memLoad sGen ⟨0, 0, 1⟩ 3 0x24000 8 false
  setJob m.1 0 ((curJob m.1 0 jNest).acquire 0 3 (jCoreKey 0) (relSeen sGen (jCoreKey 0) 3 0x24000 8))

theorem witness_NearMemoryAndLaunchWords : (jNest.replay = none ∧ TraceOff (sNest 0) jNest.fdom ∧ TraceOff sGen jNest.fdom) ∧
    (∀ c ∈ [0, 2 ^ 6], SReady (sNest c) 0 jNest sJob [1, 2] ∧ (jNest.s 2).toNat % 128 = 0 ∧ SBeats (sNest c) 0 jNest ⟨8, .read, false, false⟩ (recordBeats (jNest.s 2).toNat) nestPas ∧
      Held (sNest c) 0 nestPas ∧ nestOk (sNest c) jNest.spad (wordsAt (sNest c) nestPas) = true ∧ (nestOf (wordsAt (sNest c) nestPas)).notify = decide (c ≠ 0) ∧
      jNest.qmap 15 = true ∧ jNest.statusTaken < 72 ∧ (mdieSt (sNest c) (nestOf (wordsAt (sNest c) nestPas)).mdie).queue.length < 64) ∧
    (SBeats (sNest 16777216) 0 jNest ⟨8, .read, false, false⟩ (recordBeats (jNest.s 2).toNat) nestPas ∧ Held (sNest 16777216) 0 nestPas ∧
      nestOk (sNest 16777216) jNest.spad (wordsAt (sNest 16777216) nestPas) = false) ∧
    (SReady (sNest 0) 0 jNest sJob [1, 4, 3] ∧ (jNest.s 4).toNat % 128 = 0 ∧ (jNest.s 3).toNat % 128 = 0 ∧ throwsDone (sNest 0) jNest.uid = true ∧
      (∃ l s' w, sCheckAll (sNest 0) 0 jNest ⟨8, .read, false, false⟩ (recordBeats (jNest.s 3).toNat) = .ok l ∧
        sLoads (publishOwn (sNest 0) (jCoreKey 0) 3) 0 8 3 false l = .ok s' w ∧
        ∃ v, launchAt s' (curJob s' 0 jNest).launch = some v ∧ SpawnOk s' v (jNest.s 4).toNat w ((curJob s' 0 jNest).stallAt .S == some 0) ∧ leafOk s' (jNest.s 3).toNat = false)) ∧
    (SReady (sNest 0) 0 jNest sJob [1, 2] ∧ (jNest.s 2).toNat % 64 = 0 ∧ sCheck (sNest 0) 0 jNest ⟨8, .read, false, false⟩ (jNest.s 2).toNat = .ok 0x24000 ∧
      weightMoves (sNest 0) jNest.fdom (jNest.s 2).toNat = false ∧ ∃ v g, launchAt (sNest 0) jNest.launch = some v ∧ v.wgens.find? (fun e => e.1 == (jNest.s 2).toNat) = some g) ∧
    (SReady sGen 0 jNest sJob [1, 2] ∧ sCheck sGen 0 jNest ⟨8, .read, false, false⟩ (jNest.s 2).toNat = .ok 0x24000 ∧ weightMoves sGen jNest.fdom (jNest.s 2).toNat = false ∧
      launchAt sGen jNest.launch = some (tL 1 []) ∧ (tL 1 []).wgens.find? (fun e => e.1 == (jNest.s 2).toNat) = none ∧ LineClear sGen (lineOf 0x24000) ∧
      entryOk sGen' jNest.fdom (jNest.s 2).toNat = true ∧ (tL 1 []).wgens.length < 16 ∧ genUsable sGen' jNest.fdom (jNest.s 2).toNat (wtCur sGen' jNest.fdom (jNest.s 2).toNat) = true) ∧
    (jNest.s 5).toNat % 128 ≠ 0 ∧ (jNest.s 5).toNat % 64 ≠ 0 := by
  refine ⟨⟨rfl, traceOff_of (by decide), traceOff_of (by decide)⟩,
    fun c h => ⟨sPg_ready (by decide), by decide, sBeats_of (by revert c; decide +kernel), fun p hp => ⟨by revert c; revert p; decide +kernel, fun _ _ => rfl⟩,
      by revert c; decide +kernel, by revert c; decide +kernel, by decide, by decide, by revert c; decide +kernel⟩,
    ⟨sBeats_of (by decide +kernel), fun p hp => ⟨by revert p; decide +kernel, fun _ _ => rfl⟩, by decide +kernel⟩,
    ⟨sPg_ready (by decide), by decide, by decide, by decide, ?_⟩,
    ⟨sPg_ready (by decide), by decide, by decide +kernel, by decide +kernel, { tL 1 [] with leaf := 0x24100, wgens := [(0x101000, 9)] }, (0x101000, 9), by decide, by decide⟩,
    ⟨sReady_of (show (tS jNest).turnJob = 0 by simp [tS]) (jobAt_tS _) (by decide), by decide +kernel, by decide +kernel, by decide, by decide, lineClear_of (by decide), by decide +kernel,
      by decide, by decide +kernel⟩, by decide, by decide⟩
  obtain ⟨l, s', w, h1, h2, h3⟩ := spawnRead_of (f := fun s' w => match launchAt s' (curJob s' 0 jNest).launch with
    | some v => spawnB s' v (jNest.s 4).toNat w && !((curJob s' 0 jNest).stallAt .S == some 0) && !leafOk s' (jNest.s 3).toNat
    | none => false) (by decide +kernel)
  split at h3
  · rename_i v hv
    simp only [Bool.and_eq_true, Bool.not_eq_true'] at h3
    exact ⟨l, s', w, h1, h2, v, hv, h3.1.2 ▸ spawnOk_of h3.1.1, h3.2⟩
  · cases h3

/-- A handler, and a job whose lease bound is 4. -/
def jH : Job := { placeJob with level := .handler }
def jB (v : Word) : Job := { tJ [(1, v)] with hdr1 := BitVec.ofNat 64 (4 * 2 ^ 19) }

/-- LEASEB at its bound, at zero and past it. -/
theorem witness_ControlRegisters : (SReady (tS (jB 4)) 0 (jB 4) sAny [1] ∧ TraceOff (tS (jB 4)) (jB 4).fdom ∧ (jB 4).replay = none) ∧
    (SReady (tS (jB 4)) 0 (jB 4) sHnd [1] ∧ csrRo 0x070 = false ∧ csrH 0x070 = false ∧ (jB 4).level = .job ∧ (jB 4).s 1 ≠ 0 ∧ ((jB 4).s 1).toNat ≤ (jB 4).leaseMax) ∧
    (SReady (tS jH) 0 jH sHnd [1] ∧ csrRo 0x060 = false ∧ csrH 0x060 = true ∧ jH.level = .handler) ∧ csrRo 0x090 = true ∧
    (SReady (tS (jB 5)) 0 (jB 5) sHnd [1] ∧ (jB 5).leaseMax < ((jB 5).s 1).toNat) ∧ (SReady (tS (jB 0)) 0 (jB 0) sHnd [1] ∧ (jB 0).s 1 = 0) :=
  ⟨⟨sReady_tS (by decide), traceOff_of (by decide), by decide⟩, ⟨sReady_tS (by decide), by decide, by decide, by decide, by decide, by decide⟩,
   ⟨sReady_tS (by decide), by decide, by decide, by decide⟩, by decide, ⟨sReady_tS (by decide), by decide⟩, sReady_tS (by decide), by decide⟩

theorem witness_TrapsAtJobLevel : SReady (tS (tJ [])) 0 (tJ []) sHnd [] ∧ (tJ []).level = .job := ⟨sReady_tS (by decide), by decide⟩

/-! ### Witnesses: common words and loops -/

/-- A job with values in address registers of L. -/
def jA (l : List (BitVec 4 × Word)) : Job := l.foldl (fun j e => j.setA .L e.1 e.2) placeJob

theorem witness_CommonWords :
    (EReady (tS (jQ 0 [5])) 0 (jQ 0 [5]) .L 0 (planAq .L zE) ∧ (jQ 0 [5]).queue ((zE.func).toNat % 16) = [5]) ∧
    (EReady (tS (jA [])) 0 (jA []) .L 0 (planAq .L zE) ∧ (jA []).queue ((zE.func).toNat % 16) = []) ∧
    (let w := { zE with a := im 7 }; EReady (tS (jA [(0, 3)])) 0 (jA [(0, 3)]) .L 0 (planAset .L w) ∧ wordOps (jA [(0, 3)]) .L (planAset .L w) = [3, 7] ∧
      EReady (tS (jA [(0, 3)])) 0 (jA [(0, 3)]) .L 0 (planAadd .L w) ∧ wordOps (jA [(0, 3)]) .L (planAadd .L w) = [3, 7]) ∧
    (EReady (tS (jA [])) 0 (jA []) .L 0 (planEnop .L zE) ∧ EReady (tS (jA [])) 0 (jA []) .L 0 (planEjoin .L zE)) ∧
    (let w := { zE with a := ⟨1, 0, 0⟩, b := ⟨2, 0, 0⟩ };
      EReady (tS (jA [(1, 0xFFFFFF), (2, 0xFFFFFF)])) 0 (jA [(1, 0xFFFFFF), (2, 0xFFFFFF)]) .L 0 (planCshape .L w) ∧ wordOps (jA [(1, 0xFFFFFF), (2, 0xFFFFFF)]) .L (planCshape .L w) = [0xFFFFFF, 0xFFFFFF] ∧
      wordOps (jA [(1, 0x1000000)]) .L (planCshape .L w) = [0x1000000, 0] ∧ EReady (tS (jA [(1, 0x1000000)])) 0 (jA [(1, 0x1000000)]) .L 0 (planCshape .L w) ∧
      wordOps (jA [(2, 0x1000000)]) .L (planCshape .L w) = [0, 0x1000000] ∧ EReady (tS (jA [(2, 0x1000000)])) 0 (jA [(2, 0x1000000)]) .L 0 (planCshape .L w)) ∧
    (let w := { zE with a := ⟨1, 0, 0⟩, b := ⟨2, 0, 0⟩, func := 1 }; let lo : Word := BitVec.ofInt 64 (-2 ^ 47);
      EReady (tS (jA [(1, 0xFFFF), (2, lo)])) 0 (jA [(1, 0xFFFF), (2, lo)]) .L 0 (planCshape .L w) ∧ wordOps (jA [(1, 0xFFFF), (2, lo)]) .L (planCshape .L w) = [0xFFFF, lo] ∧
      -2 ^ 47 ≤ lo.toInt ∧ lo.toInt < 2 ^ 47 ∧
      wordOps (jA [(1, 0x10000)]) .L (planCshape .L w) = [0x10000, 0] ∧ EReady (tS (jA [(1, 0x10000)])) 0 (jA [(1, 0x10000)]) .L 0 (planCshape .L w) ∧
      wordOps (jA [(2, 2 ^ 47)]) .L (planCshape .L w) = [0, 2 ^ 47] ∧ EReady (tS (jA [(2, 2 ^ 47)])) 0 (jA [(2, 2 ^ 47)]) .L 0 (planCshape .L w) ∧ 2 ^ 47 ≤ (2 ^ 47 : Word).toInt) :=
  ⟨⟨eReady_tS (by decide), by decide⟩, ⟨eReady_tS (by decide), by decide⟩, ⟨eReady_tS (by decide), by decide, eReady_tS (by decide), by decide⟩,
   ⟨eReady_tS (by decide), eReady_tS (by decide)⟩, ⟨eReady_tS (by decide), by decide, by decide, eReady_tS (by decide), by decide, eReady_tS (by decide)⟩,
   eReady_tS (by decide), by decide, by decide, by decide, by decide, eReady_tS (by decide), by decide, eReady_tS (by decide), by decide⟩

/-- A stream with `n` loops under way. -/
def jLoops (n : Nat) (c : Word) : Job :=
  let j := jA [(1, c)]
  { j with core := { j.core with L := { j.core.L with loops := List.replicate n ⟨0x100000, 0x200000, 2⟩ } } }

/-- Its loop ends at its PC with `m` passes left; another, that ends later, is around it. -/
def jLast (m : Nat) (c : Word) : Job :=
  let j := jA [(1, c)]
  { j with core := { j.core with L := { j.core.L with loops := [⟨0xFFFF4, 0x100000, m⟩, ⟨0x90000, 0x200000, 2⟩] } } }

/-- Counts 0, 1, 2^32 − 1 and 2^32; three loops and four; a count of 0 at the end of the enclosing loop, and a body that ends after it. -/
theorem witness_HardwareLoops : let w := { zE with a := ⟨1, 0, 0⟩, func := 3 }
    (EReady (tS (jLoops 3 0xFFFFFFFF)) 0 (jLoops 3 0xFFFFFFFF) .L 0 (planLoop .L w) ∧ wordOps (jLoops 3 0xFFFFFFFF) .L (planLoop .L w) = [0xFFFFFFFF] ∧
      (jLoops 3 1).core.L.loops.length < 4 ∧ (∀ t r, (jLoops 3 1).core.L.loops = t :: r → ((jLoops 3 1).core.L.pc + BitVec.ofNat 64 (12 * (3 + 1))).toNat ≤ t.last.toNat)) ∧
    (EReady (tS (jLoops 0 0)) 0 (jLoops 0 0) .L 0 (planLoop .L w) ∧ wordOps (jLoops 0 0) .L (planLoop .L w) = [0] ∧
      NoLoopEnd (jLoops 0 0).core.L (jLoops 0 0).core.L.pc) ∧
    (∀ m ∈ [2, 1], EReady (tS (jLast m 0)) 0 (jLast m 0) .L 0 (planLoop .L w) ∧ wordOps (jLast m 0) .L (planLoop .L w) = [0] ∧ ∃ t r, (jLast m 0).core.L.loops = t :: r ∧
      t.last = (jLast m 0).core.L.pc ∧ t.remaining = m ∧ NoLoopEnd { (jLast m 0).core.L with loops := r } (jLast m 0).core.L.pc ∧
      NoLoopEnd { (jLast m 0).core.L with loops := r } ((jLast m 0).core.L.pc + BitVec.ofNat 64 (12 * (3 + 1)))) ∧
    (EReady (tS (jLast 2 1)) 0 (jLast 2 1) .L 0 (planLoop .L w) ∧ wordOps (jLast 2 1) .L (planLoop .L w) = [1] ∧ ∃ t r, (jLast 2 1).core.L.loops = t :: r ∧
      t.last.toNat < ((jLast 2 1).core.L.pc + BitVec.ofNat 64 (12 * (3 + 1))).toNat) ∧
    (EReady (tS (jLoops 0 0x100000000)) 0 (jLoops 0 0x100000000) .L 0 (planLoop .L w) ∧ wordOps (jLoops 0 0x100000000) .L (planLoop .L w) = [0x100000000]) ∧
    (EReady (tS (jLoops 4 1)) 0 (jLoops 4 1) .L 0 (planLoop .L w) ∧ wordOps (jLoops 4 1) .L (planLoop .L w) = [1] ∧ 4 ≤ (jLoops 4 1).core.L.loops.length) ∧
    (∃ t r, (jLoops 2 1).core.L.loops = t :: r ∧ 1 < t.remaining) ∧
    NoLoopEnd { (jLoops 1 1).core.L with loops := [] } 0x200000 := by
  refine ⟨⟨eReady_tS (by decide), by decide, by decide, ?_⟩, ⟨eReady_tS (by decide), by decide, noLoopEnd_of (by decide)⟩,
    fun m h => ⟨eReady_tS (by revert m; decide), by revert m; decide, _, _, rfl, by revert m; decide, rfl, noLoopEnd_of (by revert m; decide), noLoopEnd_of (by revert m; decide)⟩,
    ⟨eReady_tS (by decide), by decide, _, _, rfl, by decide⟩, ⟨eReady_tS (by decide), by decide⟩,
    ⟨eReady_tS (by decide), by decide, by decide⟩, ⟨_, _, rfl, by decide⟩, fun t r h => by cases h⟩
  intro t r h
  cases h
  decide

/-! ### Witnesses: vector words -/

/-- A job with VSHAPE grant `n` elements of format `f`. -/
def jV (n : Nat) (f : BitVec 4) : Job := { placeJob with core := { placeJob.core with vs := some ⟨n, f⟩ } }

/-- The formats fit, as a check. -/
def vFitsB (s : State) (j : Job) (w : EWord) (x : VWord) (ops : List Word) (g : VGrant) (df sf : NFmt) : Bool :=
  explicitOk j x.fmt.df x.fmt.dl x.fmt.dd && explicitOk j x.fmt.sf x.fmt.sl x.fmt.sd && decide (j.core.vs = some g) &&
    !(x.fmt.sf.isSome && x.fmt.df == some 15) &&
    (match codeFmt j g.fmt.toNat with
      | some vf => decide (df.cont ≤ vf.cont) && decide (sf.cont ≤ vf.cont) &&
        decide (resolveCode s j x.fmt.df x.fmt.dl x.fmt.dd vf (x.srcs (vCtx s j w x.use ops g.count vf vf)) = some df) &&
        decide (resolveCode s j x.fmt.sf x.fmt.sl x.fmt.sd vf (x.srcs (vCtx s j w x.use ops g.count vf vf)) = some sf)
      | none => false)

theorem vFits_of {s : State} {j : Job} {w : EWord} {x : VWord} {ops : List Word} {g : VGrant} {df sf : NFmt}
    (h : vFitsB s j w x ops g df sf = true) : VFits s j w x ops g df sf := by
  simp only [vFitsB, Bool.and_eq_true, decide_eq_true_eq, Bool.not_eq_true'] at h
  obtain ⟨⟨⟨⟨h1, h2⟩, h3⟩, h4⟩, h5⟩ := h
  split at h5
  · rename_i vf hv
    simp only [Bool.and_eq_true, decide_eq_true_eq] at h5
    exact ⟨⟨h1, h2⟩, h3, h4, vf, hv, h5.1.1.1, h5.1.1.2, h5.1.2, h5.2⟩
  · cases h5

/-- The context of a vector word in the test state. -/
def vC (s : State) (j : Job) (i : Instr) (w : EWord) (x : VWord) (g : VGrant) (df sf : NFmt) : VCtx :=
  vCtx s (issuing j .X w.tok (vPlan i w x)) w x.use (wordOps j .X (vPlan i w x)) g.count df sf

/-- Which answer the word gives: results whose accesses pass (1) or fail (2), a trap of its own (3), a source with scales that are read (4),
whose accesses fail (5) or whose scales fail (6). -/
def vAnsIs (a : VAns) (s : State) (j : Job) : Nat :=
  match a with
  | .ok o => if (vCheck j o).isNone then 1 else 2
  | .trap _ _ => 3
  | .scaled o at_ _ => if (vCheck j o).isSome then 5 else if !(at_.filterMap (scaleCheck s)).isEmpty then 6
      else if (readScales s 0 (j.core.X.seq + 1) at_).isSome then 4 else 0

/-- A vector word that may issue, whose formats fit, gives answer `n`. -/
def VWitness (s : State) (j : Job) (i : Instr) (w : EWord) (x : VWord) (g : VGrant) (df sf : NFmt) (n : Nat) : Prop :=
  EReady s 0 j .X w.tok (vPlan i w x) ∧ vectorGo s 0 j i = true ∧ VFits s (issuing j .X w.tok (vPlan i w x)) w x (wordOps j .X (vPlan i w x)) g df sf ∧
    vAnsIs (x.ans (vC s j i w x g df sf)) s j = n

/-- VADD of INT32 at aligned and at misaligned addresses, VSHR of INT8 by 8, VCVT of a block-scaled source to aligned and misaligned addresses. -/
def wAdd : EWord := { zE with fmt := 11, d := ⟨0, 0, 16⟩, b := im 5 }
def wOdd : EWord := { wAdd with a := ⟨0, 0, 2⟩ }
def wShr : EWord := { zE with fmt := 15, b := im 8 }
def wCvt : EWord := { zE with fmt := 1, d := ⟨0, 0, 64⟩, func := 0xF0 }
def wFar : EWord := { wCvt with d := ⟨0, 0, 2⟩ }

/-- Four INT8 elements, tagged, in the window. -/
def jTag (t : Nat) : Job := let j := jV 4 1; { j with core := { j.core with win := { j.core.win with tags := [(0, t, 0x900), (1, t, 0x901)] } } }

/-- A machine whose format window 0 is E4M3 with 16-element blocks and its scales at address 0: those of line 0x900 stand at 18432. -/
def sTag (j : Job) : State :=
  let s := tS j
  { s with R := { s.R with fwin := s.R.fwin.set 0 (0x24001, 0x24000, BitVec.ofNat 64 (1 + 4 * 2 + 3 * 16 + 7 * 128 + 2 ^ 15 + 2 ^ 17), 1) } }

/-- The same with the scales' line poisoned. -/
def sBadScale (j : Job) : State := let s := sTag j; { s with M := { s.M with poison := [(18432 / 64, 0)] } }

def e4m3b : NFmt := (descFmt (1 + 4 * 2 + 3 * 16 + 7 * 128 + 2 ^ 15 + 2 ^ 17)).getD fp32
def int8 : NFmt := (builtinFmt 9).getD fp32
def int32 : NFmt := (builtinFmt 11).getD fp32

theorem sTag_ready {j : Job} {e : EStream} {tok : BitVec 4} {p : EPlan} (hb : eReadyB j e tok p = true) : EReady (sTag j) 0 j e tok p :=
  eReady_of (show (tS j).turnJob = 0 by simp [tS]) (show smGet (tS j).jobs 0 = some j from jobAt_tS j) hb

theorem witness_VectorWordsIssue :
    (let w := { zE with fmt := 11, a := im 2047, func := 1 }; EReady (tS placeJob) 0 placeJob .X 0 (planVshape w) ∧ wordOps placeJob .X (planVshape w) = [2047] ∧ codeFmt placeJob 11 = some int32) ∧
    VWitness (tS (jV 4 11)) (jV 4 11) (.vadd wAdd) wAdd (wordVadd wAdd) ⟨4, 11⟩ int32 int32 1 ∧
    VWitness (tS (jV 4 11)) (jV 4 11) (.vadd wOdd) wOdd (wordVadd wOdd) ⟨4, 11⟩ int32 int32 2 ∧
    VWitness (sTag (jTag 10)) (jTag 10) (.vshr wShr) wShr (wordVshr wShr) ⟨4, 1⟩ int8 fp32 3 ∧
    VWitness (sTag (jTag 16)) (jTag 16) (.vcvt wCvt) wCvt (wordVcvt wCvt) ⟨4, 1⟩ fp32 e4m3b 4 ∧
    VWitness (sTag (jTag 16)) (jTag 16) (.vcvt wFar) wFar (wordVcvt wFar) ⟨4, 1⟩ fp32 e4m3b 5 ∧
    VWitness (sBadScale (jTag 16)) (jTag 16) (.vcvt wCvt) wCvt (wordVcvt wCvt) ⟨4, 1⟩ fp32 e4m3b 6 ∧
    (EReady (tS placeJob) 0 placeJob .X 0 (vPlan (.vadd wAdd) wAdd (wordVadd wAdd)) ∧ vectorGo (tS placeJob) 0 placeJob (.vadd wAdd) = true ∧ placeJob.core.vs = none ∧
      (let r := issuing placeJob .X 0 (vPlan (.vadd wAdd) wAdd (wordVadd wAdd)); let f := (wordVadd wAdd).fmt;
       explicitOk r f.df f.dl f.dd = true ∧ explicitOk r f.sf f.sl f.sd = true)) :=
  ⟨⟨eReady_tS (by decide), by decide, by decide⟩, ⟨eReady_tS (by decide), by decide, vFits_of (by decide +kernel), by decide +kernel⟩,
   ⟨eReady_tS (by decide), by decide, vFits_of (by decide +kernel), by decide +kernel⟩, ⟨sTag_ready (by decide), by decide, vFits_of (by decide +kernel), by decide +kernel⟩,
   ⟨sTag_ready (by decide), by decide, vFits_of (by decide +kernel), by decide +kernel⟩, ⟨sTag_ready (by decide), by decide, vFits_of (by decide +kernel), by decide +kernel⟩,
   ⟨eReady_of (show (tS (jTag 16)).turnJob = 0 by simp [tS]) (jobAt_tS _) (by decide), by decide, vFits_of (by decide +kernel), by decide +kernel⟩,
   eReady_tS (by decide), by decide, by decide, by decide⟩

/-- INT8, its widest shift; an inner sum at the edge of 24 bits and one past it. -/
theorem witness_IntegerElements : int8.isInt = true ∧ 0 < int8.width ∧ int8.width ≤ 8 ∧ (0 + 1 < 2) ∧ (-2 ^ 23 : Int) ≤ (2 ^ 23 - 2) + 1 ∧ (2 ^ 23 - 2 : Int) + 1 ≤ 2 ^ 23 - 1 ∧
    (2 ^ 23 - 1 : Int) < (2 ^ 23 - 1) + 1 := by decide

/-- A job with one word of X in flight. -/
def jX (i : Instr) (eff : Effect) : Job := { placeJob with core := { placeJob.core with X := { placeJob.core.X with inflight := [⟨0x100000, 1, i, 0, [], [], CShape.reset, eff, [], Machine.Part.none⟩] } } }

theorem witness_XWordsLand : (let j := jX (.vadd wAdd) { Effect.none with mask := some (7, 5) };
      jobAt (tS j) 0 = some j ∧ j.phase = .running ∧ vectorHead j = true ∧ ∃ x, j.core.X.inflight = [x] ∧ x.eff.mask = some (7, 5)) ∧
    (let j := jX (.mzero zM) Effect.none; jobAt (tS j) 0 = some j ∧ j.phase = .running ∧ vectorHead j = false ∧ ∃ x, j.core.X.inflight = [x] ∧ copiesDone (tS j) 0 j x = true) :=
  ⟨⟨jobAt_tS _, by decide, by decide, _, rfl, rfl⟩, jobAt_tS _, by decide, by decide, _, rfl, by decide⟩

/-! ### Witnesses: matrix words -/

/-- A job with a matrix grant of four rows, slot 0 claimed, and `a` in address register 1 of X. -/
def jMat (a : Word) : Job :=
  let j := placeJob.setA .X 1 a
  { j with core := { j.core with ms := some ⟨4, 1⟩, slots := [(0, Slot.reset)] } }

/-- The same with one word of X in flight. -/
def jBusy (i : Instr) (eff : Effect) : Job :=
  let j := jMat 0
  { j with core := { j.core with X := { j.core.X with inflight := [⟨0x100000, 1, i, 0, [], [], CShape.reset, eff, [], Machine.Part.none⟩] } } }

/-- MTHR from a queue. -/
def wThr : MWord := { zM with w := ⟨0, 2, 0⟩ }

theorem witness_MatrixRegisterWords :
    (let w := { zM with w := im 0 }; EReady (tS placeJob) 0 placeJob .X 0 (planMthr w) ∧ wordOps placeJob .X (planMthr w) = [0] ∧ thrValid 0x0340022001100008 = true) ∧
    (EReady (tS (jQ 4 [0xFFFF])) 0 (jQ 4 [0xFFFF]) .X 0 (planMthr wThr) ∧ wordOps (jQ 4 [0xFFFF]) .X (planMthr wThr) = [0xFFFF] ∧ wThr.w.mode ≠ 3 ∧ thrValid 0xFFFF = false) ∧
    (let w := { zM with w := im 8 }; EReady (tS placeJob) 0 placeJob .X 0 (planMshape w) ∧ wordOps placeJob .X (planMshape w) = [8]) ∧
    (let w := { zM with aslot := 63 }; EReady (tS placeJob) 0 placeJob .X 0 (planMclm w) ∧ EReady (tS placeJob) 0 placeJob .X 0 (planMrel w)) ∧
    (EReady (tS (jMat 0)) 0 (jMat 0) .X 0 (planMlda zM) ∧ wordOps (jMat 0) .X (planMlda zM) = [0] ∧ (jMat 0).ahead.core.ms = some ⟨4, 1⟩ ∧ (jMat 0).xWindow = false ∧
      smGet (jMat 0).ahead.core.slots 0 = some Slot.reset ∧ nRows zM ⟨4, 1⟩ = 4 ∧ ((0 : Word).toInt + (48 * 4 : Nat) ≤ ((jMat 0).core.win.size : Int)) ∧
      winPoison (jMat 0).core.win [((0 : Word).toInt, 48 * 4)] = none) ∧
    (let j := jBusy (.vadd wAdd) Effect.none; EReady (tS j) 0 j .X 0 (planMlda zM) ∧ wordOps j .X (planMlda zM) = [0] ∧ j.ahead.core.ms = some ⟨4, 1⟩ ∧
      smGet j.ahead.core.slots 0 = some Slot.reset ∧ j.xWindow = true) ∧
    (EReady (tS (jMat 0)) 0 (jMat 0) .X 0 (planMzero { zM with acc := 7 })) ∧
    (let w := { zM with afmt := 1, acc := 7 }; EReady (tS (jMat 0)) 0 (jMat 0) .X 0 (planMacr w) ∧ wordOps (jMat 0) .X (planMacr w) = [0] ∧ macrFmt (jMat 0) 1 = some fp32 ∧
      winBounds (jMat 0).core.win.size [((0 : Word).toInt, 4)] [((0 : Word).toInt, (64 * 4 * 32 + 7) / 8)] = none ∧ (jMat 0).xPending [7] [] = false ∧
      let j := jBusy (.mzero zM) { Effect.none with accs := [(7, Acc.reset)] }
      EReady (tS j) 0 j .X 0 (planMacr w) ∧ wordOps j .X (planMacr w) = [0] ∧ j.ahead.core.ms = some ⟨4, 1⟩ ∧ j.xPending [7] [] = true) ∧
    (EReady (tS placeJob) 0 placeJob .X 0 (planMlda zM) ∧ wordOps placeJob .X (planMlda zM) = [0] ∧ placeJob.ahead.core.ms = none) ∧
    (let w := { zM with aslot := 1 }; EReady (tS (jMat 0)) 0 (jMat 0) .X 0 (planMlda w) ∧ (jMat 0).ahead.core.ms.isSome = true ∧ smGet (jMat 0).ahead.core.slots 1 = none) :=
  ⟨⟨eReady_tS (by decide), by decide, by decide⟩, ⟨eReady_tS (by decide), by decide, by decide, by decide⟩, ⟨eReady_tS (by decide), by decide⟩,
   ⟨eReady_tS (by decide), eReady_tS (by decide)⟩, ⟨eReady_tS (by decide), by decide, by decide, by decide, by decide, by decide, by decide, by decide⟩,
   ⟨eReady_tS (by decide), by decide, by decide, by decide, by decide⟩,
   eReady_tS (by decide), ⟨eReady_tS (by decide), by decide, by decide, by decide, by decide, eReady_tS (by decide), by decide, by decide, by decide⟩, ⟨eReady_tS (by decide), by decide, by decide⟩,
   eReady_tS (by decide), by decide, by decide⟩

/-- A frame of the tile at 0x101000 with scale length `len`. -/
def tF (len : Nat) : Frame := ⟨0, 0x101, len, [], 0, 0, 0, false, false, false, 0, false, false, []⟩

/-- The machine with the frames `fs` in cluster 0. -/
def sF (j : Job) (fs : SMap Frame) : State := setCluster (tS j) 0 { clusterSt (tS j) 0 with frames := fs }

theorem sF_ready {j : Job} {fs : SMap Frame} {e : EStream} {tok : BitVec 4} {p : EPlan} (hb : eReadyB j e tok p = true) : EReady (sF j fs) 0 j e tok p :=
  eReady_of (show (tS j).turnJob = 0 by simp [tS]) (show smGet (tS j).jobs 0 = some j from jobAt_tS j) hb

def jTile : Job := jMat 0x101000
def sTile : State := sF jTile [(0, tF 0), (1, tF 384)]
/-- One copy of the key, and four: as many as there may be. -/
def sOne : State := sF jTile [(0, tF 0)]
def sFour : State := sF jTile [(0, tF 0), (8, tF 0), (16, tF 0), (24, tF 0)]

def wTile : MWord := { zM with w := ⟨1, 0, 0⟩ }
def wMma : MWord := { wTile with afmt := 2, wfmt := 2 }
def wMmas : MWord := { wTile with afmt := 4, wfmt := 4, scale := 1 }

def bf16 : NFmt := (builtinFmt 2).getD fp32
def e5m2 : NFmt := (builtinFmt 4).getD fp32

/-- The word's formats are `a` and `f`, of kind `kd`. -/
def mmaIs (s : State) (j : Job) (i : Instr) (w : MWord) (a f : NFmt) (kd : PairKind) : Bool :=
  match mmaFormats s 0 (issuing j .X w.tok (mmaPlan i w)) i w 0 0x101000 with | .ok r => decide (r = (a, f, kd)) | .error _ => false

theorem mma_of {s : State} {j : Job} {i : Instr} {w : MWord} {a f : NFmt} {kd : PairKind} (h : mmaIs s j i w a f kd = true) :
    mmaFormats s 0 (issuing j .X w.tok (mmaPlan i w)) i w 0 0x101000 = .ok (a, f, kd) := by
  unfold mmaIs at h
  split at h
  · rename_i r hr; exact hr.trans (congrArg _ (of_decide_eq_true h))
  · cases h

/-- The weight format of an MFILL with code 2. -/
theorem weight_two {s : State} {j : Job} {t : BitVec 4} {p : EPlan} (h : codeFmt (issuing j .X t p) 2 = some bf16) :
    weightFmt s 0 (issuing j .X t p) 2 0x101000 = .ok bf16 := by
  unfold weightFmt
  rw [if_pos (by decide), h]

/-- A job may use a copy of the key of its tile. -/
def TileHit (s : State) (len fr : Nat) (f : Frame) : Prop :=
  bestFrame (clusterSt s 0) (runningOn s 0) 0 0x101 len = some fr ∧ smGet (clusterSt s 0).frames fr = some f ∧ f.filled = true ∧ arrayIdle (runningOn s 0) fr = true ∧
    granted s 0 = true

theorem witness_MatrixTileWords : jTile.ahead.core.ms = some ⟨4, 1⟩ ∧ (0x101000 : Word).toNat % 4096 = 0 ∧ (0x101000 : Word).toNat < 2 ^ 52 ∧
    (EReady sTile 0 jTile .X 0 (mmaPlan (.mma wMma) wMma) ∧ wordOps jTile .X (mmaPlan (.mma wMma) wMma) = [0x101000] ∧ smGet jTile.ahead.core.slots 0 = some Slot.reset ∧ wMma.hold ≠ 1 ∧
      mmaFormats sTile 0 (issuing jTile .X wMma.tok (mmaPlan (.mma wMma) wMma)) (.mma wMma) wMma 0 0x101000 = .ok (bf16, bf16, .float) ∧ wMma.scale.getLsbD 1 = false ∧
      saCheck jTile wMma 0 (saBytes 4 24) = none ∧ TileHit sTile (scaleLen bf16) 0 (tF 0) ∧ wMma.wfmt ≠ 15 ∧ jTile.xPending (mmaAccs wMma .float) [0] = false) ∧
    (EReady sTile 0 jTile .X 0 (mmaPlan (.mmas wMmas) wMmas) ∧ wordOps jTile .X (mmaPlan (.mmas wMmas) wMmas) = [0x101000] ∧
      mmaFormats sTile 0 (issuing jTile .X wMmas.tok (mmaPlan (.mmas wMmas) wMmas)) (.mmas wMmas) wMmas 0 0x101000 = .ok (e5m2, e5m2, .float) ∧
      saCheck jTile wMmas 0 (saBytes 4 48) = none ∧ TileHit sTile (scaleLen e5m2) 1 (tF 384) ∧ jTile.xPending (mmaAccs wMmas .float) [0] = false) ∧
    (let w := { wMma with hold := 1 }; EReady sTile 0 jTile .X 0 (mmaPlan (.mma w) w) ∧ wordOps jTile .X (mmaPlan (.mma w) w) = [0x101000] ∧ leaseOf sTile 0 = none) ∧
    (let w := { wTile with wfmt := 2 }; EReady sTile 0 jTile .X 0 (planMfill w) ∧ wordOps jTile .X (planMfill w) = [0x101000] ∧
      weightFmt sTile 0 (issuing jTile .X w.tok (planMfill w)) 2 0x101000 = .ok bf16 ∧ bf16.cls ≠ .fixed ∧ bf16.isInt = false ∧ TileHit sTile (scaleLen bf16) 0 (tF 0)) ∧
    ((addrFrames (clusterSt sTile 0) 0 0x101).any (fun e => e.2.filled) = true ∧ EReady sTile 0 jTile .X 0 (planMpin wTile) ∧ wordOps jTile .X (planMpin wTile) = [0x101000]) ∧
    ((addrFrames (clusterSt sFour 0) 0 0x101).any (fun e => e.2.filled) = true ∧ EReady sFour 0 jTile .X 0 (planMrep wTile) ∧ wordOps jTile .X (planMrep wTile) = [0x101000] ∧
      let c1 := nameAll (clusterSt (touchAll sFour 0 0 0x101) 0) 0 0 0x101
      (addrLens c1 0 0x101).all (fun len => decide (4 ≤ (keyFrames c1 0 0x101 len).length)) = true) ∧
    (EReady sOne 0 jTile .X 0 (planMrep wTile) ∧
      let c1 := nameAll (clusterSt (touchAll sOne 0 0 0x101) 0) 0 0 0x101
      addrLens c1 0 0x101 = [0] ∧ (keyFrames c1 0 0x101 0).length < 4 ∧ ((keyFrames c1 0 0x101 0).find? (fun e => e.2.filled)).isSome = true ∧
        (victim c1 (runningOn sOne 0) none (fun a => !(keyFrames c1 0 0x101 0).any (fun e => e.1 / 8 == a))).isSome = true) ∧
    (EReady sTile 0 jTile .X 0 (planMunp wTile) ∧ wordOps jTile .X (planMunp wTile) = [0x101000] ∧ EReady sTile 0 jTile .X 0 (planMinv wTile) ∧
      wordOps jTile .X (planMinv wTile) = [0x101000] ∧ EReady sTile 0 jTile .X 0 (planMqry wTile) ∧ wordOps jTile .X (planMqry wTile) = [0x101000]) ∧
    (EReady (tS (jMat 0x101FFF)) 0 (jMat 0x101FFF) .X 0 (planMinv wTile) ∧ wordOps (jMat 0x101FFF) .X (planMinv wTile) = [0x101FFF] ∧ (0x101FFF : Word).toNat % 4096 ≠ 0) :=
  ⟨by decide +kernel, by decide +kernel, by decide +kernel,
   ⟨sF_ready (by decide +kernel), by decide +kernel, by decide +kernel, by decide +kernel, mma_of (by decide +kernel), by decide +kernel, by decide +kernel, ⟨by decide +kernel, by decide +kernel, by decide +kernel, by decide +kernel, by decide +kernel⟩, by decide +kernel, by decide +kernel⟩,
   ⟨sF_ready (by decide +kernel), by decide +kernel, mma_of (by decide +kernel), by decide +kernel, ⟨by decide +kernel, by decide +kernel, by decide +kernel, by decide +kernel, by decide +kernel⟩, by decide +kernel⟩,
   ⟨sF_ready (by decide +kernel), by decide +kernel, by decide +kernel⟩,
   ⟨sF_ready (by decide +kernel), by decide +kernel, weight_two (by decide), by decide +kernel, by decide +kernel, by decide +kernel, by decide +kernel, by decide +kernel, by decide +kernel, by decide +kernel⟩,
   ⟨by decide +kernel, sF_ready (by decide +kernel), by decide +kernel⟩, ⟨by decide +kernel, sF_ready (by decide +kernel), by decide +kernel, by decide +kernel⟩,
   ⟨sF_ready (by decide +kernel), by decide +kernel, by decide +kernel, by decide +kernel, by decide +kernel⟩,
   ⟨sF_ready (by decide +kernel), by decide +kernel, sF_ready (by decide +kernel), by decide +kernel, sF_ready (by decide +kernel), by decide +kernel⟩, eReady_tS (by decide +kernel), by decide +kernel, by decide +kernel⟩

/-- Cluster 0 with a lease, waiting requests and frames. -/
def sLease (j : Job) (l : Option Lease) (w : List Nat) (fs : SMap Frame) : State :=
  setCluster (tS j) 0 { clusterSt (tS j) 0 with lease := l, leaseWait := w, frames := fs }

theorem sLease_ready {j : Job} {l : Option Lease} {w : List Nat} {fs : SMap Frame} {e : EStream} {tok : BitVec 4} {p : EPlan} (hb : eReadyB j e tok p = true) :
    EReady (sLease j l w fs) 0 j e tok p :=
  eReady_of (show (tS j).turnJob = 0 by simp [tS]) (show smGet (tS j).jobs 0 = some j from jobAt_tS j) hb

def jMark : Job := { placeJob with lookup := some .lease }

/-- Eight jobs of a cluster that wait for the key of frame 0. -/
def sEight : State :=
  let s := sF placeJob [(0, tF 0)]
  { s with jobs := (List.range 8).map (fun k => (k, { placeJob with lookup := some (.tile 0x101 0 true [] []) })) }

theorem witness_LeasesAndFrames :
    (EReady (sLease placeJob none [] []) 0 placeJob .X 0 (planMlse zM) ∧ placeJob.lookup ≠ some .lease ∧ leaseOf (sLease placeJob none [] []) 0 = none) ∧
    (EReady (sLease jMark (some ⟨0, 1, []⟩) [] []) 0 jMark .X 0 (planMlse zM) ∧ jMark.lookup = some .lease ∧ leaseOf (sLease jMark (some ⟨0, 1, []⟩) [] []) 0 ≠ none) ∧
    (EReady (sLease jMark none [1] []) 0 jMark .X 0 (planMlse zM) ∧ leaseOf (sLease jMark none [1] []) 0 = none) ∧
    (EReady (sLease placeJob (some ⟨0, 1, []⟩) [] []) 0 placeJob .X 0 (planMlse zM) ∧ leaseOf (sLease placeJob (some ⟨0, 1, []⟩) [] []) 0 ≠ none) ∧
    EReady (sLease placeJob none [] []) 0 placeJob .X 0 (planMlrl zM) ∧
    (liveLease (clusterSt (sLease placeJob (some ⟨0, 0, []⟩) [7] []) 0) = none ∧ (clusterSt (sLease placeJob (some ⟨0, 0, []⟩) [7] []) 0).leaseWait ≠ [] ∧
      (clusterSt (sLease placeJob (some ⟨0, 0, []⟩) [7] []) 0).lease = some ⟨0, 0, []⟩) ∧
    (let f := { tF 0 with filling := true }; smGet (clusterSt (sF placeJob [(3, f)]) 0).frames 3 = some f ∧ f.filling = true ∧ f.doomed = false) ∧
    (let f := { tF 0 with filling := true, doomed := true }; smGet (clusterSt (sF placeJob [(3, f)]) 0).frames 3 = some f ∧ f.filling = true ∧ f.doomed = true) ∧
    (let f := { tF 0 with copying := true }; smGet (clusterSt (sF placeJob [(127, f)]) 0).frames 127 = some f ∧ f.copying = true ∧ f.doomed = false) ∧
    (let f := { tF 0 with copying := true, doomed := true }; smGet (clusterSt (sF placeJob [(127, f)]) 0).frames 127 = some f ∧ f.copying = true ∧ f.doomed = true) ∧
    (smGet (clusterSt sEight 0).frames 0 = some (tF 0) ∧ 8 ≤ waitingFor sEight 0 0 0x101 0 ∧
      (keyFrames (clusterSt sEight 0) 0 0x101 0).length < 4 ∧ (keyFrames (clusterSt sEight 0) 0 0x101 0).find? (fun e => e.2.filled) = some (0, tF 0) ∧
      (victim (clusterSt sEight 0) (runningOn sEight 0) none (fun a => !(keyFrames (clusterSt sEight 0) 0 0x101 0).any (fun e => e.1 / 8 == a))).isSome = true) :=
  ⟨⟨sLease_ready (by decide), by decide, by decide⟩, ⟨sLease_ready (by decide), by decide, by decide⟩, ⟨sLease_ready (by decide), by decide⟩,
   ⟨sLease_ready (by decide), by decide⟩, sLease_ready (by decide), ⟨by decide, by decide, by decide⟩, ⟨by decide, by decide, by decide⟩, ⟨by decide, by decide, by decide⟩,
   ⟨by decide, by decide, by decide⟩, ⟨by decide, by decide, by decide⟩, by decide, by decide +kernel, by decide, by decide, by decide +kernel⟩

/-! ### Witnesses: copy words -/

/-- A job whose copy shapes are two rows of 64 bytes, with addresses of L and T: a0 0, a1 the data page, a2 window address 0x1000, a3 an odd one. -/
def jC : Job :=
  let sh : CShape := ⟨0, 1, 2, 64⟩
  let set := fun (g : Eng) => { g with shape := sh, a := ((g.a.set 1 0x101000).set 2 0x1000).set 3 2 }
  { placeJob with core := { placeJob.core with L := set placeJob.core.L, T := set placeJob.core.T } }

/-- D, A and B operands; the scope is the device. -/
def wC (d a b : Operand) : EWord := { zE with d := d, a := a, b := b, func := 3 * 2 ^ 15 }
def ar (n : BitVec 4) : Operand := ⟨n, 0, 0⟩

theorem copyOk_of {j : Job} {al : List (Nat × Nat)} {sp : List (Int × Nat)} {mem : Nat}
    (h : (decide (alignFirst al = none) && decide (winBounds j.core.win.size [] sp = none) && decide (mem < 2 ^ 52)) = true) : CopyOk j al sp mem := by
  simp only [Bool.and_eq_true, decide_eq_true_eq] at h
  exact ⟨h.1.1, h.1.2, h.2⟩

/-- Domain 0 has a commutative range over the data page, of INT32 additions. -/
def sRange : State := setDomain (tS jC) 0 { domainSt (tS jC) 0 with crng := (domainSt (tS jC) 0).crng.set 0 (0x101001, 0x101FC0, 0xB0) }

theorem sRange_ready {e : EStream} {tok : BitVec 4} {p : EPlan} (hb : eReadyB jC e tok p = true) : EReady sRange 0 jC e tok p :=
  eReady_of (show (tS jC).turnJob = 0 by simp [tS]) (show smGet (tS jC).jobs 0 = some jC from jobAt_tS jC) hb

/-- Route records of zeros name die 0; one with a reserved bit names none. -/
def jRoute : Job := { jC with core := { jC.core with win := { jC.core.win with bytes := [(0x1014, 1)] } } }

theorem witness_CopyWordsIssue_L :
    (let w := wC (ar 0) (ar 1) (im 64); EReady (tS jC) 0 jC .L 0 (planCpy w) ∧ wordOps jC .L (planCpy w) = [0, 0x101000, 64] ∧
      CopyOk jC ([(0, 4), (0x101000, 4)] ++ shapeAl jC.core.L.shape 4 4 (some 64)) [(0, jC.core.L.shape.total)] 0x101000) ∧
    (let w := wC (ar 3) (ar 1) (im 64); EReady (tS jC) 0 jC .L 0 (planCpy w) ∧ wordOps jC .L (planCpy w) = [2, 0x101000, 64] ∧ (2 : Word).toNat % 4 ≠ 0) ∧
    (let w := wC (ar 0) (ar 1) (ar 2); EReady (tS jC) 0 jC .L 0 (planCpyg w) ∧ wordOps jC .L (planCpyg w) = [0, 0x101000, 0x1000] ∧
      CopyOk jC ([(0, 4), (0x101000, 4), (0x1000, 4)] ++ shapeAl jC.core.L.shape 4 4 none) [(0, 2 * 64), (0x1000, 4 * 2)] 0x101000 ∧ winPoison jC.core.win [(0x1000, 4 * 2)] = none) ∧
    (let w := { wC (ar 0) (ar 1) (im 64) with func := 1 }; EReady (tS jC) 0 jC .L 0 (planCpyd w) ∧ wordTrim w = 0 ∧ w.func.getLsbD 1 = false ∧
      wordOps jC .L (planCpyd w) = [0, 0x101000, 64]) ∧
    (let w := { wC ⟨0, 0, 0⟩ (ar 1) (im 64) with func := 14 }; EReady (tS jC) 0 jC .L 0 (planCpyd w) ∧ wordTrim w < jC.core.L.shape.rb ∧ w.func.getLsbD 1 = true ∧
      wordOps jC .L (planCpyd w) = [0x101000, 64] ∧ CopyOk jC ([(0x101000, 4)] ++ shapeAl jC.core.L.shape 4 4 (some 64)) [] 0x101000) ∧
    (let w := wC (ar 0) (ar 1) (im 1); EReady (tS jC) 0 jC .L 0 (planCpym w) ∧ wordOps jC .L (planCpym w) = [0, 0x101000, 1] ∧ jC.replay = none ∧
      CopyOk jC ([(0, 4), (0x101000, 4)] ++ shapeAl jC.core.L.shape 4 4 none) [] 0x101000) ∧
    (let w := wC ⟨0, 0, 0⟩ (ar 1) (im 64); EReady (tS jC) 0 jC .L 0 (planPrel w) ∧ wordOps jC .L (planPrel w) = [0x101000, 64] ∧
      alignFirst ([(0x101000, 4)] ++ shapeAl jC.core.L.shape 4 4 (some 64)) = none) ∧
    (let w := wC ⟨0, 0, 0⟩ (ar 1) ⟨0, 0, 0⟩; EReady (tS jC) 0 jC .L 0 (planDgst w) ∧ wordOps jC .L (planDgst w) = [0x101000] ∧ (0x101000 : Word).toNat % 64 = 0) :=
  ⟨⟨eReady_tS (by decide), by decide, copyOk_of (by decide)⟩, ⟨eReady_tS (by decide), by decide, by decide⟩,
   ⟨eReady_tS (by decide), by decide, copyOk_of (by decide), by decide⟩, ⟨eReady_tS (by decide), by decide, by decide, by decide⟩,
   ⟨eReady_tS (by decide), by decide, by decide, by decide, copyOk_of (by decide)⟩, ⟨eReady_tS (by decide), by decide, by decide, copyOk_of (by decide)⟩,
   ⟨eReady_tS (by decide), by decide, by decide⟩, eReady_tS (by decide), by decide, by decide⟩

theorem witness_CopyWordsIssue_T :
    (let w := wC (ar 1) (ar 2) (im 64); EReady (tS jC) 0 jC .T 0 (planCps w) ∧ wordOps jC .T (planCps w) = [0x101000, 0x1000, 64] ∧
      CopyOk jC ([(0x101000, 4), (0x1000, 4)] ++ shapeAl jC.core.T.shape 4 4 (some 64)) [(0x1000, jC.core.T.shape.total)] 0x101000) ∧
    (let w := { wC (ar 1) (ar 2) (im 64) with fmt := 11 }; EReady sRange 0 jC .T 0 (planAcw w) ∧ wordOps jC .T (planAcw w) = [0x101000, 0x1000, 64] ∧
      CopyOk jC ([(0x101000, (acwFormat w).bytes)] ++ [(0x1000, (acwFormat w).bytes)] ++ shapeAl jC.core.T.shape (acwFormat w).bytes (acwFormat w).bytes (some 64))
        [(0x1000, jC.core.T.shape.total)] 0x101000 ∧ rangeClash sRange jC.fdom w (copyRows jC.core.T.shape 0x101000 64) jC.core.T.shape.rb = false ∧ w.a.mode ≠ 3) ∧
    (let w := { wC (ar 1) (ar 2) (im 64) with fmt := 1 }; EReady sRange 0 jC .T 0 (planAcw w) ∧ jC.core.T.shape.rb ≠ 0 ∧
      rangeClash sRange jC.fdom w (copyRows jC.core.T.shape 0x101000 64) jC.core.T.shape.rb = true) ∧
    (let w := { wC (ar 1) (im 5) ⟨0, 0, 0⟩ with fmt := 1 }; EReady (tS jC) 0 jC .T 0 (planAcwf w) ∧ wordOps jC .T (planAcwf w) = [0x101000, 5] ∧ 0x101000 % (acwFormat w).bytes = 0) ∧
    (let w := { wC (ar 1) (im 5) (im 6) with func := 3 * 2 ^ 15 + 3 }; EReady (tS jC) 0 jC .T 0 (planCas w) ∧ wordOps jC .T (planCas w) = [0x101000, 5, 6] ∧ 0x101000 % casWidth w = 0) ∧
    (let w := wC (ar 1) (ar 2) (im 6); EReady (tS jC) 0 jC .T 0 (planCpst w) ∧ wordOps jC .T (planCpst w) = [0x101000, 0x1000, 6] ∧
      CopyOk jC ([(0x101000, 64), (0x1000, 4)] ++ shapeAl jC.core.T.shape 4 64 none) [(0x1000, jC.core.T.shape.total)] 0x101000) ∧
    (let w := wC ⟨0, 0, 0⟩ (ar 0) (ar 2); EReady (tS jC) 0 jC .T 0 (planScat w) ∧ wordOps jC .T (planScat w) = [0, 0x1000] ∧ CopyOk jC [(0, 4), (0x1000, 4), (64, 4)] [(0, 2 * 64), (0x1000, 16 * 2)] 0 ∧
      winPoison jC.core.win [(0x1000, 16 * 2)] = none ∧ EReady (tS jRoute) 0 jRoute .T 0 (planScat w) ∧
      ((List.range 2).map (fun i => leNat ((List.range 16).map (fun x => winSeen (tS jRoute) jRoute .T ((issuing jRoute .T w.tok (planScat w)).know .T) (0x1000 + 16 * i + x))))).findIdx? (fun r => !routeOk (tS jRoute) r) = some 1 ∧
      (∀ r ∈ (List.range 2).map (fun i => leNat ((List.range 16).map (fun x => winSeen (tS jC) jC .T ((issuing jC .T w.tok (planScat w)).know .T) (0x1000 + 16 * i + x)))), routeOk (tS jC) r = true)) ∧
    (let w := wC (ar 1) ⟨0, 0, 0⟩ (im 64); EReady (tS jC) 0 jC .T 0 (planFlsh w) ∧ wordOps jC .T (planFlsh w) = [0x101000, 64] ∧ EReady (tS jC) 0 jC .T 0 (planInvl w) ∧
      wordOps jC .T (planInvl w) = [0x101000, 64] ∧ CopyOk jC ([(0x101000, 4)] ++ shapeAl jC.core.T.shape 4 4 (some 64)) [] 0x101000) :=
  ⟨⟨eReady_tS (by decide), by decide, copyOk_of (by decide)⟩, ⟨sRange_ready (by decide), by decide, copyOk_of (by decide), by decide +kernel, by decide⟩,
   ⟨sRange_ready (by decide), by decide, by decide +kernel⟩, ⟨eReady_tS (by decide), by decide, by decide⟩, ⟨eReady_tS (by decide), by decide, by decide⟩,
   ⟨eReady_tS (by decide), by decide, copyOk_of (by decide)⟩,
   ⟨eReady_tS (by decide), by decide, copyOk_of (by decide), by decide, eReady_tS (by decide), by decide +kernel, by decide +kernel⟩,
   eReady_tS (by decide), by decide, eReady_tS (by decide), by decide, copyOk_of (by decide)⟩

/-- The data page's address in a1 beyond 2^52, in a2 a window address past the window. -/
def jFar : Job :=
  let set := fun (g : Eng) => { g with a := (g.a.set 1 (2 ^ 52)).set 2 (2 ^ 32) }
  { jC with core := { jC.core with L := set jC.core.L, T := set jC.core.T } }

/-- The bank word at 0x1000 of the window is poisoned; rows are empty. -/
def jBadWord : Job := { jC with core := { jC.core with win := { jC.core.win with poison := [(0x1000 / 16, 0)] } } }
def jEmpty : Job :=
  { jC with core := { jC.core with L := { jC.core.L with shape := ⟨0, 1, 2, 0⟩ }, T := { jC.core.T with shape := ⟨0, 1, 2, 0⟩ } } }

/-- Each check that fails: an address beyond the space, a span outside the window, a poisoned record, a TRIM as long as the row, a misaligned PREL, an
accumulation of empty rows. -/
theorem witness_CopyWordsIssue_checks :
    (let w := wC (ar 0) (ar 1) (im 64); EReady (tS jFar) 0 jFar .L 0 (planCpy w) ∧ wordOps jFar .L (planCpy w) = [0, 2 ^ 52, 64] ∧
      alignFirst ([(0, 4), (2 ^ 52, 4)] ++ shapeAl jFar.core.L.shape 4 4 (some 64)) = none ∧ winBounds jFar.core.win.size [] [(0, jFar.core.L.shape.total)] = none ∧
      2 ^ 52 ≤ (2 ^ 52 : Word).toNat) ∧
    (let w := wC (ar 2) (ar 0) (im 64); EReady (tS jFar) 0 jFar .L 0 (planCpy w) ∧ wordOps jFar .L (planCpy w) = [2 ^ 32, 0, 64] ∧
      alignFirst ([(2 ^ 32, 4), (0, 4)] ++ shapeAl jFar.core.L.shape 4 4 (some 64)) = none ∧
      (winBounds jFar.core.win.size [] [((2 ^ 32 : Word).toInt, jFar.core.L.shape.total)]).isSome = true) ∧
    (let w := wC (ar 0) (ar 1) (ar 2); EReady (tS jBadWord) 0 jBadWord .L 0 (planCpyg w) ∧ (winPoison jBadWord.core.win [(0x1000, 4 * 2)]).isSome = true) ∧
    (let w := wC ⟨0, 0, 0⟩ (ar 0) (ar 2); EReady (tS jBadWord) 0 jBadWord .T 0 (planScat w) ∧ (winPoison jBadWord.core.win [(0x1000, 16 * 2)]).isSome = true) ∧
    (let w := { wC ⟨0, 0, 0⟩ (ar 1) (im 64) with func := 2 + 4 }; EReady (tS jEmpty) 0 jEmpty .L 0 (planCpyd w) ∧ wordTrim w = 1 ∧ jEmpty.core.L.shape.rb = 0) ∧
    (let w := wC ⟨0, 0, 0⟩ (ar 3) (im 64); EReady (tS jC) 0 jC .L 0 (planPrel w) ∧ wordOps jC .L (planPrel w) = [2, 64] ∧
      (alignFirst ([(2, 4)] ++ shapeAl jC.core.L.shape 4 4 (some 64))).isSome = true) ∧
    (let w := { wC (ar 1) (ar 2) (im 64) with fmt := 11 }; EReady (tS jEmpty) 0 jEmpty .T 0 (planAcw w) ∧ jEmpty.core.T.shape.rb = 0 ∧
      CopyOk jEmpty ([(0x101000, 4)] ++ [(0x1000, 4)] ++ shapeAl jEmpty.core.T.shape 4 4 (some 64)) [(0x1000, 0)] 0x101000) :=
  ⟨⟨eReady_tS (by decide), by decide, by decide, by decide, by decide⟩, ⟨eReady_tS (by decide), by decide, by decide, by decide⟩, ⟨eReady_tS (by decide), by decide⟩,
   ⟨eReady_tS (by decide), by decide⟩, ⟨eReady_tS (by decide), by decide, by decide⟩, ⟨eReady_tS (by decide), by decide, by decide⟩, eReady_tS (by decide), by decide, copyOk_of (by decide)⟩

/-- A copy word from `a` in flight, of `rows` rows. -/
def iCpy (a : Word) (rows : BitVec 24) : InFlight := ⟨0x100000, 1, .cpy (wC (ar 0) (ar 1) (im 64)), 0, [0, a, 64], [], ⟨0, 1, rows, 64⟩, Effect.none, [], Machine.Part.none⟩
def jCpy (a : Word) (rows : BitVec 24) : Job := { placeJob with core := { placeJob.core with L := { placeJob.core.L with inflight := [iCpy a rows] } } }

/-- What performing the word answers: 1 done, 2 held back, 3 a trap. -/
def performIs (s : State) (j : Job) (i : InFlight) : Nat := match perform s 0 j i with | .ok _ => 1 | .wait _ => 2 | .trap _ _ _ => 3

/-- A four-die package in which core 1 holds a scope copy of the line. -/
def sHeld : State :=
  let s := tS (jCpy 0x101000 1)
  { s with B := { s.B with mode := 1 }, M := { s.M with scopes := [⟨0, 1, 0x24000 / 64, List.replicate 64 1, 1, 0, [0]⟩] } }

theorem witness_CopyWordsRetire :
    (jobAt (tS (jCpy 0x101000 2)) 0 = some (jCpy 0x101000 2) ∧ headWord (jCpy 0x101000 2) .L = some (iCpy 0x101000 2) ∧ TraceOff (tS (jCpy 0x101000 2)) 0 ∧
      traceStall (tS (jCpy 0x101000 2)) (jCpy 0x101000 2) .L = false ∧ performIs (tS (jCpy 0x101000 2)) (jCpy 0x101000 2) (iCpy 0x101000 2) = 1) ∧
    (traceStall sHeld (jCpy 0x101000 1) .L = false ∧ performIs sHeld (jCpy 0x101000 1) (iCpy 0x101000 1) = 2) ∧
    (traceStall (tS (jCpy 0x200000 1)) (jCpy 0x200000 1) .L = false ∧ performIs (tS (jCpy 0x200000 1)) (jCpy 0x200000 1) (iCpy 0x200000 1) = 3) ∧
    (traceStall (tS (jCpy 0x101000 0)) (jCpy 0x101000 0) .L = false ∧ (iCpy 0x101000 0).shape.total = 0) :=
  ⟨⟨jobAt_tS _, by decide, traceOff_of (by decide), by decide, by decide +kernel⟩, ⟨by decide, by decide +kernel⟩, ⟨by decide, by decide +kernel⟩, by decide, by decide⟩

/-! ### Witnesses: traps, contexts, stops -/

/-- A small job: eight registers, no window; its context area stands at virtual 0x400000. -/
def jK : Job := { placeJob with hdr0 := BitVec.ofNat 64 (2 ^ 63 + 2 ^ 12 + 2 ^ 7 + 8), hdr1 := 0, ctxAddr := 0x400000, core := { placeJob.core with win := newWindow 0 0 none } }

/-- The machine one second on, with a 2 MiB page at virtual 0x400000 that is the save pool of domain 0 (the job of uid 0 has an area there), a slice of
one microsecond and the shortest hang limit; `frz` is the page's FRZ bit. -/
def sPool (frz : Nat) (j : Job) : State :=
  let s := tS j
  let s := { s with M := { s.M with mem := memWriteBytes s.M.mem (0x21000 + 16) (natLe 8 (frz * 2 ^ 59 + 2 ^ 53 + 2 ^ 52 + 0x400000 + 2 ^ 6 + 1)) }, time := 10 ^ 9 }
  setDomain s 0 { domainSt s 0 with reserves := [⟨0, 0x400000, 0x1000⟩], ctxBase := 0x400001, ctxLim := 0x5FF000, ctxHnd := 0x100000, ctxCtl := BitVec.ofNat 64 (2 ^ 32), hwd := 1,
                                    bpPc := (domainSt s 0).bpPc.set 3 0x100000, bpCtl := (domainSt s 0).bpCtl.set 3 (BitVec.ofNat 64 (2 ^ 63)) }

abbrev sX (j : Job) : State := sPool 0 j

theorem jobAt_sX (j : Job) : jobAt (sX j) 0 = some j := by
  show smGet (tS j).jobs 0 = _
  exact jobAt_tS _

/-- The small job with a region open. -/
def jKr : Job := { jK with region := some ⟨0x100010, [], [], [], 0, 0, [], [], 1, none, [], []⟩ }

theorem witness_TakingATrap : (jobAt (sX jK) 0 = some jK ∧ jK.level = .job ∧ hasArea (sX jK) jK = true ∧ jK.region = none ∧ jK.pend ≠ .departed) ∧
    (jobAt (sX jKr) 0 = some jKr ∧ jKr.level = .job ∧ hasArea (sX jKr) jKr = true ∧ jKr.region.isSome = true) ∧
    (jobAt (tS jH) 0 = some jH ∧ SlotsOk (tS jH) ∧ jH.level = .handler) ∧
    (jobAt (tS jK) 0 = some jK ∧ SlotsOk (tS jK) ∧ jK.level = .job ∧ hasArea (tS jK) jK = false ∧ jK.replay = none) :=
  ⟨⟨jobAt_sX _, by decide, by decide, by decide, by decide⟩, ⟨jobAt_sX _, by decide, by decide, by decide⟩, ⟨jobAt_tS _, show smSorted none _ = true by decide, by decide⟩,
   jobAt_tS _, show smSorted none _ = true by decide, by decide, by decide, by decide⟩

/-- The small job in a save of kind `c`. -/
def jSv (c : CutKind) (a : Word) : Job := { jK with phase := .saving c, ctxAddr := a }

/-- A job that was saved, as ticket 0 of launch 0, its record at `a`. -/
def jAway (a : Word) : Job := { jK with ctxAddr := a }
def sSaved (a : Word) : State := setLaunch { sX jK with saved := [(0, jAway a)] } 0 (tL 1 [])

/-- It may resume in slot 1, its record not in a move; `ok` says whether that can be read. -/
def SavedReady (a : Word) (ok : Bool) : Prop :=
  (domainSt (sSaved a) 0).domRst ≠ 1 ∧ savedTurn (sSaved a) (jAway a) = true ∧ resumeFit (sSaved a) (jAway a) = some (1, 0) ∧
    areaMoves (sSaved a) 0 a.toNat (recordLen (jAway a)) .read = false ∧
    canRead (leaveInstances { sSaved a with saved := smErase (sSaved a).saved 0 } 0 1) 0 a.toNat (recordLen (jAway a)) = ok

/-- A job whose streams have joined and that has been asked for its context, and its launch, whose record allows a lite save. -/
def jLite : Job := { jEnd with preempt := some 0, ctxAddr := 0x400000 }
def sLite : State := setLaunch (sX jLite) 0 { tL 1 [] with words := List.replicate 16 1 }

theorem witness_ContextEvents :
    (let j := jSv .trap 0x400000; jobAt (sX j) 0 = some j ∧ j.phase = .saving .trap ∧ j.replay = none ∧ windowNm (sX j) j.uid = false ∧
      canWrite (sX j) j.fdom j.ctxAddr.toNat j.ctxLen = true ∧ (domainSt (sX j) j.fdom).ctxHnd ≠ 0) ∧
    (let j := jSv .trap 0x200000; jobAt (sX j) 0 = some j ∧ (∃ c, j.phase = .saving c) ∧ j.replay = none ∧ windowNm (sX j) j.uid = false ∧
      areaMoves (sX j) j.fdom j.ctxAddr.toNat j.ctxLen .write = false ∧ canWrite (sX j) j.fdom j.ctxAddr.toNat j.ctxLen = false) ∧
    (let j := jSv .trap 0x400000; jobAt (sPool 1 j) 0 = some j ∧ windowNm (sPool 1 j) j.uid = false ∧ areaMoves (sPool 1 j) j.fdom j.ctxAddr.toNat j.ctxLen .write = true) ∧
    (let j := jSv .forced 0x400000; jobAt (sX j) 0 = some j ∧ j.phase = .saving .forced ∧ j.replay = none ∧ windowNm (sX j) j.uid = false ∧
      canWrite (sX j) j.fdom j.ctxAddr.toNat j.ctxLen = true ∧ SlotsOk (sX j)) ∧
    (let j := jSv .forced 0x400000; windowNm (sX j) j.uid = false ∧ j.saveStart + saveLimit j ≤ (sX j).time) ∧
    (SReady sLite 0 jLite sJob [] ∧ jLite.joined jLite.presentMask = true ∧ jLite.joinOver jLite.presentMask = none ∧ nodePreempt sLite jLite = true ∧ jLite.preempt.isSome = true ∧
      hasArea sLite jLite = true ∧ windowNm sLite jLite.uid = false ∧ TraceOff sLite jLite.fdom ∧ (∀ e ∈ maskStreams jLite.presentMask, NoLoopEnd (jLite.eng e) (jLite.eng e).pc) ∧
      canWrite sLite jLite.fdom jLite.ctxAddr.toNat 256 = true ∧ SlotsOk sLite) ∧
    (smGet (sSaved 0x400000).saved (2 ^ 48 * 0 + 0) = some (jAway 0x400000) ∧ SavedReady 0x400000 true) ∧
    (smGet (sSaved 0x200000).saved (2 ^ 48 * 0 + 0) = some (jAway 0x200000) ∧ SavedReady 0x200000 false) :=
  ⟨⟨jobAt_sX _, rfl, by decide, by decide, by decide +kernel, by decide⟩, ⟨jobAt_sX _, ⟨_, rfl⟩, by decide, by decide, by decide +kernel, by decide +kernel⟩,
   ⟨jobAt_tS _, by decide, by decide +kernel⟩, ⟨jobAt_sX _, rfl, by decide, by decide, by decide +kernel, show smSorted none _ = true by decide⟩, ⟨by decide +kernel, by decide +kernel⟩,
   ⟨sReady_of (show (tS jLite).turnJob = 0 by simp [tS]) (jobAt_sX _) (by decide), by decide, by decide, by decide, by decide, by decide, by decide, traceOff_of (by decide),
    fun e h => noLoopEnd_of (by revert e; decide), by decide +kernel, show smSorted none _ = true by decide⟩,
   ⟨rfl, by decide, by decide +kernel, by decide +kernel, by decide +kernel, by decide +kernel⟩,
   rfl, by decide, by decide +kernel, by decide +kernel, by decide +kernel, by decide +kernel⟩

/-- A launch at a higher level, whose saved job takes part in a barrier of cluster 0 and waits for a window there, which that of `j` fills. -/
def sPrio (j : Job) : State :=
  let u := 5 * 2 ^ 48
  let s := setLaunch { sX j with saved := [(u, { jK with uid := u, launch := 5, hdr1 := BitVec.ofNat 64 (2 ^ 12 + 1) })] } 5 { tL 1 [] with age := 1 }
  setCluster s 0 { clusterSt s 0 with barriers := [⟨0, 1, [u, 0], [], []⟩] }

/-- A job whose last save took two microseconds. -/
def jSlow : Job := { placeJob with lastSave := 2000 }

/-- The machine whose hang limit is 0. -/
def sHang : State := setDomain (sX jK) 0 { domainSt (sX jK) 0 with hwd := 0 }

/-- A replayed job: an access of it differed, its log is used up, or its records all lie behind it. -/
def jRep (r : Replay) : Job := { jK with replay := some r }
def tRep : Replay := ⟨[], [(0, 3)], 0x400000, false, false⟩

/-- A saved job that finds no place, and a job that waits for its launch. -/
def jWait : Job := { jK with pend := .parked, launch := 5 }
def sWait : State :=
  let s := sX jWait
  let s := { s with M := { s.M with mem := memWriteBytes s.M.mem placePa (natLe 4 0xA4000000) } }
  let s := setLaunch (setLaunch s 4 { tL 1 [] with leaf := 0x90000 }) 5 (tL 1 [⟨0x90000, 0⟩])
  setDie { s with saved := [(2 ^ 50, { jK with launch := 4 })] } 0 { dieSt s 0 with held := true }

theorem witness_StopEvents :
    (jobAt (sPrio placeJob) 0 = some placeJob ∧ mayAsk (sPrio placeJob) placeJob = true ∧ prioVictim (sPrio placeJob) (jDie 0) = some 0) ∧
    (jobAt sWait 0 = some jWait ∧ mayAsk sWait jWait = true ∧ restoreVictim sWait (jDie 0) = some 0) ∧
    (∀ j ∈ [placeJob, jSlow], 0 < sliceNs (sPrio j) j.fdom ∧ decide (2 * j.tsw ≤ sliceNs (sPrio j) j.fdom) = decide (j = placeJob) ∧
      j.resident + Nat.max (sliceNs (sPrio j) j.fdom) (2 * j.tsw) ≤ (sPrio j).time ∧
      (readyList (sPrio j)).any (fun e => decide (jobPrio (sPrio j) j ≤ launchPrio (sPrio j) e.2) && starved (sPrio j) e (jDie 0)) = true) ∧
    (let j := { jK with preempt := some 0 }; jobAt (sX j) 0 = some j ∧ j.phase = .running ∧ j.level = .job ∧ j.preempt = some 0 ∧
      j.resident + 2 * j.tsw ≤ (sX j).time ∧ nodePreempt (sX j) j = false ∧ j.region = none ∧ 0 + graceNs (sX j) j.fdom ≤ (sX j).time) ∧
    (bits (domainSt (sX jK) jK.fdom).hwd.toNat 0 32 = 1 ∧ jK.watch + 1 * 1000 ≤ (sX jK).time) ∧
    (bits (domainSt sHang jK.fdom).hwd.toNat 0 32 = 0 ∧ jK.watch + 1000000 * 1000 ≤ sHang.time) ∧
    (bpMatch (sX jK) jK .S 3 = true ∧ jK.phase = .running ∧ jK.replay = none) ∧
    (∀ r ∈ [{ tRep with diverged := true }, { tRep with ended := true }, { tRep with last := [] }], let j := jRep r
      jobAt (sX j) 0 = some j ∧ j.replay = some r ∧ areaMoves (sX j) j.fdom r.area.toNat j.ctxLen .write = false ∧ bpMatch (sX j) j .S 3 = true ∧
      (r.diverged = true ∨ r.ended = true ∨ ∀ x ∈ r.last, x.2 ≤ recSeq j x.1)) :=
  ⟨⟨jobAt_sX _, by decide, by decide +kernel⟩, ⟨jobAt_sX _, by decide, by decide +kernel⟩,
   fun j h => ⟨by revert j; decide +kernel, by revert j; decide +kernel, by revert j; decide +kernel, by revert j; decide +kernel⟩,
   ⟨jobAt_sX _, by decide, by decide, by decide, by decide, by decide, by decide, by decide⟩, ⟨by decide, by decide⟩, ⟨by decide, by decide⟩, ⟨by decide, by decide, by decide⟩,
   fun r h => ⟨jobAt_sX _, rfl, by revert r; decide +kernel, by revert r; decide, by revert r; decide⟩⟩

/-! ### Witnesses: services, launches, units, storage -/

/-- A handler that asks for a replay of the context at 0x400000, with the core it saved. -/
def jRp : Job := { tJ [(8, 0x400000)] with level := .handler, hdr0 := jK.hdr0, hdr1 := 0, snap := some placeJob.core, trappc := 0x100008 }
/-- The launch the context names: small, or with a window that fits no cluster. -/
def sRp (h : Word) : State := setLaunch (sX jRp) 0 { tL 1 [] with hdr0 := jK.hdr0, hdr1 := h }

/-- A handler with arguments in some registers. -/
def jArg (l : List (BitVec 6 × Word)) : Job := { tJ l with level := .handler }

/-- The package has its dies; comparator 15 of the M-die that is home to the pool page is set for domain 1 when `own` holds. -/
def sSrv (j : Job) (own : Bool) : State :=
  let s := sX j
  let s := { s with B := { s.B with cdies := 1, mdies := [0, 1, 2] } }
  let m := ((homeMdie s 0x400000).getD 0)
  if own then setMdie s m { mdieSt s m with watch := (mdieSt s m).watch.set 15 ⟨1, 0, BitVec.ofNat 64 (2 ^ 40), 0⟩ } else s
/-- SET_WATCHPOINT on the last comparator, for the page at `va`. -/
def jWp (va : Word) : Job := jArg [(8, 15), (9, va), (10, va + 4095), (11, 127)]

/-- A weight table of one entry whose generation 1 is current, with one shard, verified when `v` is 1; the pool page takes the report. -/
def sAtt (j : Job) (v : Nat) : State :=
  let s := sPg j [1, 0, 0x101040, 0, 0, 0, 0, 0, 1 + 2 * 2 ^ 32, 0, 0x101080, 0, 0, 0, 0, 0, 0, v * 2 ^ 32] (tL 1 [])
  let s := { s with M := { s.M with mem := memWriteBytes s.M.mem (0x21000 + 16) (natLe 8 (2 ^ 53 + 2 ^ 52 + 0x400000 + 2 ^ 6 + 1)) } }
  setDomain s 0 { domainSt s 0 with wtBase := 0x101000, wtCount := 1 }
def jAtt (opt entry : Word) : Job := jArg [(8, 0x101000), (9, 0x400000), (10, opt), (11, entry)]

/-- What ATTESTATION_REPORT asks of memory. -/
def attOk (s : State) (j : Job) : Bool :=
  !attestMoves s j.fdom (j.arg 8) (j.arg 9) (j.arg 10) (j.arg 11) && j.arg 9 % 64 == 0 && canRead s j.fdom (j.arg 8) 64 && canWrite s j.fdom (j.arg 9) 640

theorem witness_HandlerServices : (SReady (tS jRp) 0 jRp sHnd [] ∧ jRp.level = .handler) ∧
    (frozenPage (sPool 1 (jWp 0x400000)) 0 0x400000 = true ∧ frozenPage (sSrv (jWp 0x400000) false) 0 0x400000 = false ∧ (jArg [(8, 16)]).arg 8 = 16) ∧
    ((jWp 0x200000).arg 8 ≤ 15 ∧ (jWp 0x200000).arg 9 / 4096 = (jWp 0x200000).arg 10 / 4096 ∧ (jWp 0x200000).arg 9 ≤ (jWp 0x200000).arg 10 ∧ (jWp 0x200000).arg 11 < 128 ∧
      frozenPage (sX (jWp 0x200000)) 0 0x200000 = false ∧ translate (sX (jWp 0x200000)) 0 true 0x200000 .read = .fail 4) ∧
    (∀ own ∈ [false, true], let s := sSrv (jWp 0x400000) own; translate s 0 true 0x400000 .read = .ok 0x400000 ∧
      (match homeMdie s 0x400000 with | some m => ((mdieSt s m).watch.toList.getD 15 Watch.reset).base.getLsbD 0 == own | none => false) = true) :=
  ⟨⟨sReady_tS (by decide), by decide⟩, ⟨by decide +kernel, by decide +kernel, by decide⟩, ⟨by decide, by decide, by decide, by decide, by decide +kernel, by decide +kernel⟩, by decide +kernel⟩

/-- Whether the shard is verified, of an entry that may be attested. -/
def attShard (v : Nat) : Option Bool :=
  let s := sAtt (jAtt 1 0x101000) v
  if attOk s (jAtt 1 0x101000) && entryOk s 0 0x101000 && genUsable s 0 0x101000 1 then some (shardsOk s 0 (shardList s 0 0x101040)) else none

/-- ATTESTATION_REPORT: memory in a move, bad arguments, without weights, of an entry that is not valid, and of one whose shard is, and is not, verified. -/
theorem witness_HandlerServices_attest : attestMoves (sPool 1 (jAtt 0 0)) 0 0x101000 0x400000 0 0 = true ∧ attestMoves (tS (jArg [(9, 1)])) 0 0 1 0 0 = false ∧
    attOk (sAtt (jAtt 0 0) 0) (jAtt 0 0) = true ∧ attOk (sAtt (jAtt 1 0) 0) (jAtt 1 0) = true ∧ entryOk (sAtt (jAtt 1 0) 0) 0 0 = false ∧
    attShard 0 = some false ∧ attShard 1 = some true :=
  ⟨by decide +kernel, by decide +kernel, by decide +kernel, by decide +kernel, by decide +kernel, by decide +kernel, by decide +kernel⟩

/-- REPLAY and ERET: memory in a move, an unknown context, no free slot and one; a record that can be read, and one that cannot. -/
theorem witness_HandlerServices_replay :
    (replayMoves (sPool 1 jRp) jRp.fdom (jRp.arg 8) (jRp.arg 9) (jRp.arg 10) = true ∧ replayMoves (tS jRp) jRp.fdom (jRp.arg 8) (jRp.arg 9) (jRp.arg 10) = false ∧
      replayMoves (sRp 0) jRp.fdom (jRp.arg 8) (jRp.arg 9) (jRp.arg 10) = false ∧ replayMoves (sRp 0xFFF) jRp.fdom (jRp.arg 8) (jRp.arg 9) (jRp.arg 10) = false) ∧
    replayJob (tS jRp) jRp.fdom (jRp.arg 8) (jRp.arg 9) (jRp.arg 10) (jRp.arg 11) = none ∧
    (replayJob (sRp 0xFFF) jRp.fdom (jRp.arg 8) (jRp.arg 9) (jRp.arg 10) (jRp.arg 11)).map (fun r => dieFits (sRp 0xFFF) r (jDie 0)) = some none ∧
    (replayJob (sRp 0) jRp.fdom (jRp.arg 8) (jRp.arg 9) (jRp.arg 10) (jRp.arg 11)).map (fun r => dieFits (sRp 0) r (jDie 0)) = some (some (1, 0)) ∧
    (jRp.snap = some placeJob.core ∧ jRp.trapIn = false ∧ jRp.trappc.toNat < 2 ^ 62) ∧
    (areaMoves (sX jRp) 0 0x400000 jRp.ctxLen .read = false ∧ canRead (sX jRp) 0 0x400000 jRp.ctxLen = true ∧ areaMoves (sX jRp) 0 0x200000 jRp.ctxLen .read = false ∧
      canRead (sX jRp) 0 0x200000 jRp.ctxLen = false ∧ areaMoves (sPool 1 jRp) 0 0x400000 jRp.ctxLen .read = true) :=
  ⟨⟨by decide +kernel, by decide +kernel, by decide +kernel, by decide +kernel⟩, by decide +kernel, by decide +kernel, by decide +kernel, ⟨rfl, by decide, by decide⟩,
   by decide +kernel, by decide +kernel, by decide +kernel, by decide +kernel, by decide +kernel⟩

/-- OPEN_RANGE of range `n` with bounds `lo` and `hi`, in a domain whose range 7 covers the line 0x900 when `op` holds. -/
def jOr (n lo hi : Word) : Job := jArg [(8, n), (9, lo), (10, hi), (11, 0xB0)]
def sOr (j : Job) (op : Bool) : State :=
  let d := domainSt (tS j) 0
  setDomain (tS j) 0 { d with crng := if op then d.crng.set 7 (0x24001, 0x24000, 0xB0) else d.crng }

/-- Its arguments are none of the bad ones. -/
def orOk (j : Job) : Bool :=
  decide (j.arg 8 ≤ 7) && j.arg 9 % 64 == 0 && decide (j.arg 9 < 2 ^ 52) && decide (j.arg 10 < 2 ^ 52) && decide (j.arg 9 / 64 ≤ j.arg 10 / 64) &&
    bits (j.arg 11) 8 56 == 0 && bits (j.arg 11) 2 2 == 0 && bits (j.arg 11) 4 4 == 11 && bits (j.arg 11) 0 2 != 3

/-- A buffer group's descriptor stands at 0x101000, and at 0x101040 one that is refused; the die has `l` groups. -/
def sGrp (j : Job) (l : SMap Group) : State :=
  let s := sPg j [64 * 2 ^ 32 + 2 ^ 16, 0, 64, 1, 0, 0, 0, 0, 0] (tL 1 [])
  setDie s 0 { dieSt s 0 with groups := l }
def tGrp (f : Nat) : Group := ⟨f, 64, 1, false, 1, 0, 64, 1, 0, [], []⟩
/-- What REGISTER_BUFFER_GROUP reads of it. -/
def grpAt (s : State) (va : Nat) : Option (Nat × Group) := groupOf 0 ((wordsOf (virtBytes s 0 va 64) 8).map BitVec.toNat)

theorem witness_ServiceResults :
    (orOk (jOr 7 0x30000 0x30FFF) = true ∧ orOk (jOr 6 0x24000 0x24000) = true) ∧
    (SReady (sOr (jOr 7 0x30000 0x30FFF) true) 0 (jOr 7 0x30000 0x30FFF) sHnd [] ∧ (jOr 8 0 0).arg 8 = 8) ∧
    (let d := domainSt (sOr (jOr 6 0x24000 0x24000) true) 0; (d.crng.toList.getD 7 (0, 0, 0)).1.getLsbD 0 = true ∧ 0x24000 / 64 ≤ bits (d.crng.toList.getD 7 (0, 0, 0)).2.1.toNat 6 46 ∧
      bits (d.crng.toList.getD 7 (0, 0, 0)).1.toNat 6 46 ≤ 0x24000 / 64 ∧ ∀ n ∈ List.range 8, n ≠ 7 → (d.crng.toList.getD n (0, 0, 0)).1.getLsbD 0 = false) ∧
    (((domainSt (sOr (jOr 7 0 0) false) 0).crng.toList.getD 7 (0, 0, 0)).1.getLsbD 0 = false) ∧
    (areaMoves (sPool 1 (jArg [(8, 0x400000)])) 0 0x400000 64 .read = true ∧ areaMoves (tS (jArg [(8, 1)])) 0 1 64 .read = false ∧ (jArg [(8, 1)]).arg 8 % 64 ≠ 0) ∧
    (canRead (sGrp (jArg []) []) 0 0x101000 64 = true ∧ grpAt (sGrp (jArg []) []) 0x101000 = some (0, tGrp 0) ∧ canRead (sGrp (jArg []) []) 0 0x101040 64 = true ∧
      grpAt (sGrp (jArg []) []) 0x101040 = none ∧ (smGet [(0, tGrp 0)] 0).isSome = true ∧ 256 ≤ ((List.range 256).map (fun i => (i + 1, tGrp 0))).length ∧
      smGet ((List.range 256).map (fun i => (i + 1, tGrp 0))) 0 = none) ∧
    (smGet (dieSt (sGrp (jArg []) [(0, tGrp 0)]) (jDie 0)).groups ((jArg []).arg 8) = some (tGrp 0) ∧ (tGrp 0).fdom = 0 ∧ (tGrp 1).fdom ≠ 0) ∧
    ((0x400000 % 4096 = 0 ∧ 0x400000 < 2 ^ 48 ∧ 0x5FF000 < 2 ^ 48 ∧ 0x400000 / 4096 ≤ 0x5FF000 / 4096 ∧ bits (2 ^ 32 + 200) 16 16 = 0 ∧ 0x100000 % 4 = 0) ∧
      (domainSt (tS jN) 0).reserves = [] ∧ (domainSt (sX jN) 0).reserves ≠ [] ∧ 0x400001 % 4096 ≠ 0) ∧
    (0x101000 % 64 = 0 ∧ (tS jN).launches.any (fun e => e.2.fdom == 0 && !e.2.wgens.isEmpty) = false ∧
      (sNest 0).launches.any (fun e => e.2.fdom == 0 && !e.2.wgens.isEmpty) = true) :=
  ⟨⟨by decide +kernel, by decide +kernel⟩, ⟨sReady_of (show (tS (jOr 7 0x30000 0x30FFF)).turnJob = 0 by simp [tS]) (jobAt_tS _) (by decide), by decide⟩, by decide +kernel, by decide, by decide +kernel,
   ⟨by decide +kernel, by decide +kernel, by decide +kernel, by decide +kernel, by decide, by simp, by decide +kernel⟩, ⟨rfl, rfl, by decide⟩, by decide, by decide, by decide, by decide +kernel⟩

/-- The machine one second on, with a launch of small jobs. -/
def tV (n : Nat) : Launch := { tL (n + 1) [] with hdr0 := jK.hdr0, hdr1 := 0, ranges := [(0, 0), (0, n)] }
def sV (v : Launch) : State := setLaunch (sX jK) 5 v

/-- A node whose period has ended; its record stands at 0x80000. -/
def sNode : State :=
  let s := sX jK
  { s with leaves := [(0x80000, ⟨0, 0, 0, 0, 0, [], 0, 0, 0⟩)], M := { s.M with mem := memWriteBytes s.M.mem 0x80000 (natLe 8 (2 ^ 63)) } }

/-- A launch whose jobs have halted; its signal stands in the pool page. -/
def tDone (sig : Word) : Launch := { tV 0 with halted := 1, words := List.replicate 9 0 ++ [sig] }
def sDone (frz : Nat) (v : Launch) : State := setLaunch (sPool frz jK) 5 v

theorem witness_DispatchEvents :
    (let v := { tV 2 with ranges := [(0, 1), (1, 1)] }; dieRuns (sV v) 0 = true ∧ taker (sV v) 0 = some (5, v) ∧ savedWaits (sV v) 5 0 = false ∧
      ticketFit (sV v) 5 v 0 = some (1, 0, 0x401000)) ∧
    (∀ n ∈ [2, 1], launchAt (sV (tV n)) 5 = some (tV n) ∧ (tV n).st = .ready ∧ (tV n).ranges.length = 2 ∧ (rangeOfDie (tV n) 0).2 ≤ (rangeOfDie (tV n) 0).1 ∧
      (rangeOfDie (tV n) 1).2 - (rangeOfDie (tV n) 1).1 = n) ∧
    ((tV 2).undisp ≠ 0 ∧ hasBudget (sV (tV 2)) (tV 2).leaf = true ∧ (tV 2).ageStart + 10000000 ≤ (sV (tV 2)).time) ∧
    (∃ x, smGet sNode.leaves 0x80000 = some x ∧ x.boundary ≤ sNode.time ∧ x.w0.getLsbD 62 = false ∧ rcbOk (setRecWord sNode 0x80000 4 0) 0x80000 = true) ∧
    (let v := tDone 0x400000; launchAt (sDone 0 v) 5 = some v ∧ v.st = .ready ∧ v.undisp = 0 ∧ v.total ≤ v.halted ∧ gensMove (sDone 0 v) v = false ∧
      (domainSt (sDone 0 v) v.fdom).domRst ≠ 1 ∧ signalHeld (sDone 0 v) 5 v = false ∧ signalHeld (sDone 1 v) 5 v = true) ∧
    (let v := { tV 0 with st := .lost }; launchAt (sV v) 5 = some v ∧ v.st = .lost ∧ noJobs (sV v) 5 = true ∧ gensMove (sV v) v = false ∧
      indexEnded (closeLaunch (sV v) 5 v false) v = false) :=
  ⟨⟨by decide, by decide +kernel, by decide, by decide +kernel⟩, by decide, ⟨by decide, by decide, by decide⟩,
   ⟨_, rfl, by decide, by decide, by decide +kernel⟩, ⟨rfl, by decide, by decide, by decide, by decide, by decide, by decide +kernel, by decide +kernel⟩, rfl, by decide, by decide, by decide, by decide +kernel⟩

/-- A nest of one step that reads at `b` and writes at `a`, on unit 0. -/
def tW (a b : Word) : NmJob := { tN 7 with unit := some 0, words := [BitVec.ofNat 64 (2 ^ 8 + 2), b, 0x101000, a] }
def sU (a b : Word) (m : List Move) : State :=
  let s := sL jN (tL 1 []) [] [tW a b] []
  { s with B := { s.B with cdies := 1, mdies := [0, 1, 2] }, M := { s.M with moves := m }, time := 10 ^ 9 }
/-- The data page, on its way. -/
def tMove : Move := ⟨0, 0x101000, 4096, 0x24000, 0x26000, []⟩
/-- The failure that walking the nest meets. -/
def nmFails (s : State) (j : NmJob) : Option NmFail :=
  let n := nestOf (j.words.map BitVec.toNat)
  (nestWalk n j n.steps n.zero (nmStartRun s j)).fail

/-- The same at the moving page, the wait there having begun at `t` (none: it has not begun). -/
def tHeld (st : Option (Nat × Nat)) : NmJob := { tW 0x101200 0x101000 with stall := st }
def sHeldNm (st : Option (Nat × Nat)) : State :=
  let s := sU 0x101200 0x101000 [tMove]
  setMdie s 0 { mdieSt s 0 with running := [tHeld st] }

theorem witness_NearMemoryEvents :
    ((mdieSt (sL jN (tL 1 []) [tN 7] [] []) 0).queue = [tN 7] ∧ freeUnit (mdieSt (sL jN (tL 1 []) [tN 7] [] []) 0) = some 0) ∧
    (unitJob (sU 0x101200 0x101000 []) 0 0 = some (tW 0x101200 0x101000) ∧ nmFails (sU 0x101200 0x101000 []) (tW 0x101200 0x101000) = none ∧
      (nestOf ((tW 0x101200 0x101000).words.map BitVec.toNat)).notify = false) ∧
    (unitJob (sU 0x200000 0x101000 []) 0 0 = some (tW 0x200000 0x101000) ∧ nmFails (sU 0x200000 0x101000 []) (tW 0x200000 0x101000) = some ⟨1, 0x200000⟩) ∧
    (∀ st ∈ [none, some (0x101, 10 ^ 9 - 49999), some (0x101, 10 ^ 9 - 50000)], unitJob (sHeldNm st) 0 0 = some (tHeld st) ∧
      (nmFails (sHeldNm st) (tHeld st)).map (fun f => (f.code, f.addr / 4096)) = some (7, 0x101) ∧ (sHeldNm st).time = 10 ^ 9) ∧
    (tW 0x101200 0x101000).started + 100000 ≤ (sU 0x101200 0x101000 []).time ∧ (2 : Nat) ≤ 2 * 1 ∧ 2 * 1 < (3 : Nat) :=
  ⟨by decide, by decide +kernel, by decide +kernel, by decide +kernel, by decide, by decide, by decide⟩

/-- A job whose stream L has stalled since time 5 and whose T has stalled since the present. -/
def jStall : Job := { placeJob with stallStart := [(1, 6), (3, 10 ^ 9 + 1)] }
def sStall : State := { sX jStall with M := { (sX jStall).M with moves := [tMove], persistent := [(0x900, 3)], deliveries := [(3, 0x900, 0)] } }
/-- Core 3 has failed `n` times for line 0x900. -/
def sTry (n : Nat) : State := { tS placeJob with M := { (tS placeJob).M with attempts := [(attemptKey 3 0x900, n)] } }
/-- A commit has gathered a line of the page that moves. -/
def sGath : State := { sStall with M := { sStall.M with committing := [(0x900, 0)] } }
/-- A die-wide position past 2^47, with and without a region open; one without one has lines with records, and its dies have copies of G. -/
def sPos (j : Job) : State :=
  let s := { tS j with gpos := BitVec.ofNat 48 (2 ^ 47 + 1) }
  setMdie (setDie s 0 (dieSt s 0)) 0 (mdieSt s 0)

theorem witness_StorageEvents :
    (∀ n ∈ [6, 7], (persistOf (sTry n) (3 / 64) 0x900).any (fun e => e.1 == 3) = false ∧ smGetD (sTry n).M.attempts (attemptKey 3 0x900) 0 + 1 = n + 1 ∧
      (sTry n).M.persistent.any (fun e => e.2 % 2 ^ 20 == 3 && e.1 % 16 == 0x900 % 16) = false) ∧
    ((persistOf sStall (3 / 64) 0x900).any (fun e => e.1 == 3) = true ∧ persistFirst sStall (3 / 64) 0x900 = some 3 ∧
      (persistOf sStall (3 / 64) 0x910).any (fun e => e.1 == 3) = false ∧ sStall.M.persistent.any (fun e => e.2 % 2 ^ 20 == 3 && e.1 % 16 == 0x910 % 16) = true) ∧
    (sStall.M.moves.find? (fun x => x.fdom == 0) = some tMove ∧ moveWaits sStall tMove = false ∧ sGath.M.moves.find? (fun x => x.fdom == 0) = some tMove ∧
      moveWaits sGath tMove = true) ∧
    (jobAt sStall 0 = some jStall ∧ smGet jStall.stallStart 1 = some (5 + 1) ∧ 1 % 4 = streamCode .L ∧ 5 + 50000 ≤ sStall.time ∧ smGet jStall.stallStart 3 = some (10 ^ 9 + 1) ∧
      sStall.time < 10 ^ 9 + 50000) ∧
    (let s := setDomain sStall 0 { domainSt sStall 0 with wtCount := 1, wtInterval := 1, wtLast := 0 };
      (domainSt s 0).wtCount ≠ 0 ∧ (domainSt s 0).wtLast + (domainSt s 0).wtInterval * 1000000000 ≤ s.time ∧ recheckWaits s 0 = false) ∧
    (sStall.M.deliveries = [] ++ (3, 0x900, 0) :: [] ∧ (coreSt sStall 3).lru.contains 0x900 = false ∧ untouched sStall 3 < (coreSt sStall 3).catchq ∧
      ((coreSt sStall 3).lru.filter (fun l => l1Set l == l1Set 0x900 && l != 0x900)).length < 8 ∧
      let s := setCore sStall 3 { coreSt sStall 3 with catchq := 0 }; (coreSt s 3).lru.contains 0x900 = false ∧ (coreSt s 3).catchq ≤ untouched s 3) ∧
    (2 ^ 47 < (sPos placeJob).gpos.toNat ∧ (sPos placeJob).jobs.any (fun e => e.2.region.isSome) = false ∧ (∃ a, smGet (sPos placeJob).dies 0 = some a) ∧
      (∃ a, smGet (sPos placeJob).mdies 0 = some a) ∧ (sPos jKr).jobs.any (fun e => e.2.region.isSome) = true) :=
  ⟨by decide, by decide, by decide, ⟨jobAt_sX _, by decide, by decide, by decide, by decide, by decide⟩, by decide +kernel, by decide,
   by decide, by decide, ⟨_, rfl⟩, ⟨_, rfl⟩, by decide⟩

/-! ### Witnesses: the fabric -/

/-- A message between two units; one that waits in the inbox of a booted package. -/
def tMsg (src dst : BitVec 5) (w1 : BitVec 64) (data : BitVec 512) : Msg := ⟨src, dst, 0, 0, w1, data⟩
def sI (cls op : Nat) (m : Msg) : State := let s := tS jKr; { s with F := { s.F with inbox := [⟨cls, op, m⟩] } }

theorem waits_sI (cls op : Nat) (m : Msg) : Waits (sI cls op m) cls op m := List.mem_singleton.mpr rfl

/-- A request for the data page's first line, and for the first register of the hardware block. -/
def mLine : Msg := tMsg 0 8 0x24000 0
def mReg : Msg := tMsg 24 0 0x300000480000 0
/-- The line on its way, and its line bad. -/
def sGo (op : Nat) : State := let s := sI 1 op mLine; { s with M := { s.M with moves := [tMove] } }
def sBad : State := let s := sI 1 3 mLine; { s with M := { s.M with poison := [(0x24000 / 64, 0)] } }

/-- The machine with a nest record at the request's address, for the M-die that is asked when `md` is its number, with `n` jobs queued there. -/
def mNest (md : BitVec 5) : Msg := tMsg 0 (8 + md) 0x24000 0
def sQd (md : BitVec 5) (c n : Nat) : State :=
  let s := sNest c
  let s := { s with F := { s.F with inbox := [⟨1, 5, mNest md⟩] } }
  setMdie s md.toNat { mdieSt s md.toNat with queue := List.replicate n (tN 1) }
/-- The request is accepted. -/
def nestGo (md : BitVec 5) (c : Nat) : Bool :=
  let q := noteOut (took (sQd md c 0) 1 5 (mNest md)) 1 5 (mNest md)
  let w := (List.range 16).map (fun i => recWord q (msgAddr (mNest md)) i)
  nestOk q 0 w && decide (8 ≤ (mNest md).dst.toNat) && (nestOf w).mdie == (mNest md).dst.toNat - 8
/-- Die 0 asks die 1 for tickets of launch 5, which has `r` there. -/
def mSteal : Msg := tMsg 0 1 5 0
def tSteal (a b : Nat) : Launch := { tL 1 [] with ranges := [(0, a), (0, b)] }
def sSteal (v : Launch) : State := setLaunch (sI 1 6 mSteal) 5 v
/-- Die 0 owns the line; its bytes are as in memory, all written, or written in part; or the line is bad. -/
def mOwn : Msg := tMsg 8 0 0x24000 0
def sOwned (d : Mem) (p : SMap Nat) : State := let s := sI 4 0 mOwn; { s with M := { s.M with dir := [(0x900, .owned 0)], dirty := d, poison := p } }
/-- The line's directory entry is `e`. -/
def sDir (cls op : Nat) (e : DirState) : State := let s := sI cls op mOwn; { s with M := { s.M with dir := [(0x900, e)] } }

theorem witness_FabricRequests :
    ((∀ op, (atHomeOf (sGo op) op mLine).2 = some 2 ∧ Waits (sGo op) 1 op mLine) ∧ ∀ c o m, Waits (sI c o m) c o m) ∧
    ((atHomeOf (sI 1 0 mLine) 0 mLine).2 = none ∧ (atHomeOf (sI 1 1 mLine) 1 mLine).2 = none ∧ (atHomeOf (sI 1 2 mLine) 2 mLine).2 = none ∧
      (atHomeOf (sI 1 4 mLine) 4 mLine).2 = none ∧ mLine.src.toNat < 4 ∧ (atHomeOf (sI 1 4 mOwn) 4 mOwn).2 = none ∧ 4 ≤ mOwn.src.toNat) ∧
    ((atHomeOf (sI 1 3 mLine) 3 mLine).2 = none ∧ poisoned (atHomeOf (sI 1 3 mLine) 3 mLine).1 (msgLine mLine) = false) ∧
    (Waits sBad 1 3 mLine ∧ (atHomeOf sBad 3 mLine).2 = none ∧ poisoned (atHomeOf sBad 3 mLine).1 (msgLine mLine) = true) ∧
    ((∀ md c n, Waits (sQd md c n) 1 5 (mNest md)) ∧ nestGo 0 0 = true ∧ nestGo 1 0 = false ∧ nestGo 0 16777216 = false ∧ (mdieSt (sQd 0 0 64) 0).queue.length = 64 ∧
      (mdieSt (sQd 0 0 63) 0).queue.length < 64) ∧
    ((∀ v, Waits (sSteal v) 1 6 mSteal ∧ launchAt (sSteal v) (msgAddr mSteal) = some v) ∧ (tSteal 0 2).st = .ready ∧ (0 : Nat) < (tSteal 0 2).ranges.length ∧
      (rangeOfDie (tSteal 0 2) 0).2 ≤ (rangeOfDie (tSteal 0 2) 0).1 ∧ 2 ≤ (rangeOfDie (tSteal 0 2) 1).2 - (rangeOfDie (tSteal 0 2) 1).1 ∧
      (rangeOfDie (tSteal 0 1) 1).2 - (rangeOfDie (tSteal 0 1) 1).1 < 2 ∧ (rangeOfDie (tSteal 1 2) 0).1 < (rangeOfDie (tSteal 1 2) 0).2 ∧ launchAt (sI 1 6 mSteal) (msgAddr mSteal) = none) ∧
    (∃ r, regAt (noteOut (took (sI 1 7 mReg) 1 7 mReg) 1 7 mReg) (msgAddr mReg / 8 * 8) = some r ∧ r.mayWrite (msgAgent mReg) = true ∧ r.mayRead (msgAgent mReg) = true) ∧
    regAt (noteOut (took (sI 1 7 mLine) 1 7 mLine) 1 7 mLine) (msgAddr mLine / 8 * 8) = none :=
  ⟨⟨fun _ => ⟨rfl, List.mem_singleton.mpr rfl⟩, waits_sI⟩, ⟨by decide, by decide, by decide, by decide, by decide, by decide, by decide⟩, ⟨by decide, by decide +kernel⟩,
   ⟨List.mem_singleton.mpr rfl, by decide, by decide +kernel⟩, ⟨fun _ _ _ => List.mem_singleton.mpr rfl, by decide +kernel, by decide +kernel, by decide +kernel, by decide +kernel, by decide +kernel⟩,
   ⟨fun _ => ⟨List.mem_singleton.mpr rfl, rfl⟩, by decide, by decide, by decide, by decide, by decide, by decide, by decide⟩, ⟨_, rfl, by decide, by decide⟩, by decide⟩

/-- Snoops and grants. -/
theorem witness_FabricRequests_snoops :
    (∀ d p, Waits (sOwned d p) 4 0 mOwn ∧ dirOwned (noteOut (took (sOwned d p) 4 0 mOwn) 4 0 mOwn) mOwn.dst.toNat (msgLine mOwn) = true) ∧
    dirOwned (noteOut (took (sI 4 0 mLine) 4 0 mLine) 4 0 mLine) mLine.dst.toNat (msgLine mLine) = false ∧
    (dirtyMask (sOwned [] []) 0x900 = 0 ∧ dirtyMask (sOwned [(0x24001, 7)] []) 0x900 = 2 ∧ poisoned (sOwned [(0x24001, 7)] []) 0x900 = false ∧
      poisoned (dirYield (sOwned [(0x24001, 7)] [(0x900, 0)]) 0 0x900 0) 0x900 = true) ∧
    (smGet (sI 5 0 mOwn).M.dir (msgLine mOwn) = none ∧ smGet (sI 5 1 mOwn).M.dir (msgLine mOwn) = none) ∧
    (∀ c o e, Waits (sDir c o e) c o mOwn ∧ smGet (sDir c o e).M.dir (msgLine mOwn) = some e) ∧ bitOf 2 mOwn.dst.toNat = false ∧ bitOf 3 mOwn.dst.toNat = true :=
  ⟨fun _ _ => ⟨List.mem_singleton.mpr rfl, rfl⟩, by decide, ⟨by decide +kernel, by decide +kernel, by decide +kernel, by decide +kernel⟩, ⟨by decide, by decide⟩, fun _ _ _ => ⟨List.mem_singleton.mpr rfl, rfl⟩, by decide, by decide⟩

/-- A message with a request of die 0 under way: of class `c`, operation `o`, for the data page's first line. -/
def sOut (cls op : Nat) (m : Msg) (c o : Nat) : State := let s := sI cls op m; { s with F := { s.F with out := [(outKey m.dst.toNat m.ftag.toNat, c, o, 0x24000, 0)] } }
def mDie : Msg := tMsg 8 0 0 1
/-- Management messages to the primary die: a descriptor of M-die 0 that is asked for, a window replica. -/
def sMgt (op : Nat) (m : Msg) : State := let s := sI 9 op m; { s with B := { s.B with asked := [8] } }
def mWin : Msg := tMsg 0 0 0x300000020000 0

theorem witness_FabricAnswers :
    (∀ cls op c o, Waits (sOut cls op mDie c o) cls op mDie ∧ outOf (sOut cls op mDie c o) mDie = some (c, o, 0x24000, 0)) ∧
    ((smGet (sOut 3 2 mDie 1 0).M.poison (lineOf 0x24000)).isSome = false ∧
      let s := sOut 3 2 mDie 1 0; (smGet { s with M := { s.M with poison := [(0x900, 0)] } }.M.poison (lineOf 0x24000)).isSome = true) ∧
    ((sI 6 0 mDie).jobs.find? (fun x => (x.2.region.map (·.id)) == some (msgWord mDie 0)) = some (0, jKr)) ∧
    (Waits (sI 7 0 mLine) 7 0 mLine ∧ 8 ≤ mLine.dst.toNat) ∧
    (smGetD (sI 8 0 mDie).F.rows (32 * mDie.src.toNat + mDie.dst.toNat) [] = [] ∧ msgAddr mDie = smGetD (dieSt (sI 8 0 mDie) mDie.dst.toNat).scatSeq mDie.src.toNat 0 ∧
      (Config.rowForm [mDie.data] = none ∨ ∃ tag buf row, Config.rowForm [mDie.data] = some (tag, buf, row) ∧ rowWaits (sI 8 0 mDie) mDie [mDie] = false ∧
        ∀ x, ingWaits { took (sI 8 0 mDie) 8 0 mDie with F := x } 0 8 0 tag buf row = false) ∧
      msgAddr mLine ≠ smGetD (dieSt (sI 8 0 mLine) mLine.dst.toNat).scatSeq mLine.src.toNat 0) ∧
    (let s := { sI 8 1 mDie with F := { (sI 8 1 mDie).F with picks := [(2 ^ 48 * 0 + 0, 0, 0x101000)] } };
      Waits s 8 1 mDie ∧ smGet s.F.picks (2 ^ 48 * mDie.dst.toNat + msgAddr mDie) = some (0, 0x101000) ∧ translateMem s 0 true 0x101000 .write = .ok 0x24000 ∧
      translateMem { s with M := { s.M with mem := memWriteBytes s.M.mem (0x22000 + 8 * 0x101) (natLe 8 (2 ^ 59 + 2 ^ 53 + 2 ^ 52 + 0x24000 + 2 ^ 6 + 1)) } } 0 true 0x101000 .write = .frozen) ∧
    (∀ op m, (sI 9 op m).F.inbox.find? (fun p => p.cls == 9 && p.op == op) = some ⟨9, op, m⟩) ∧
    ((smGet (sI 9 0 mDie).B.parts mDie.dst.toNat).isSome = true ∧ (dieSt (sI 9 0 mDie) mDie.dst.toNat).result = 0) ∧
    ((sMgt 1 mDie).F.inbox.find? (fun p => p.cls == 9 && p.op == 1) = some ⟨9, 1, mDie⟩ ∧ mDie.dst.toNat = (sMgt 1 mDie).B.primary ∧
      (sMgt 1 mDie).B.asked.contains mDie.src.toNat = true) ∧
    (sI 9 2 mDie).B.status = 1 ∧ regAt (took (sI 9 3 mWin) 9 3 mWin) (msgAddr mWin) = some (.fwin 0 0) ∧ regAt (took (sI 9 3 mLine) 9 3 mLine) (msgAddr mLine) = none ∧ mDie.dst.toNat = (sI 9 4 mDie).B.primary := by
  refine ⟨fun _ _ _ _ => ⟨List.mem_singleton.mpr rfl, rfl⟩, ⟨by decide, by decide⟩, by decide +kernel,
    ⟨waits_sI _ _ _, by decide⟩, ⟨by decide, by decide, ?_, by decide⟩, ⟨List.mem_singleton.mpr rfl, by decide +kernel, by decide +kernel, by decide +kernel⟩, fun op m => ?_,
    ⟨by decide, by decide⟩, ⟨by decide +kernel, by decide, by decide⟩, by decide, by decide, by decide, by decide⟩
  · cases h : Config.rowForm [mDie.data] with
    | none => exact .inl rfl
    | some x =>
      obtain ⟨tag, buf, row⟩ := x
      refine .inr ⟨tag, buf, row, rfl, ?_, fun _ => rfl⟩
      have hf : ([mDie].filter (fun x => msgAddr x == smGetD (dieSt (sI 8 0 mDie) mDie.dst.toNat).scatSeq mDie.src.toNat 0)).map (fun x => x.data) = [mDie.data] := rfl
      simp only [rowWaits, hf, h]
      rfl
  · simp [sI]

/-- A flit of empty slots with the CRC of its 248 zero bytes. -/
def tFlit : BitVec 2048 := BitVec.ofNat 2048 (3088559427994792658 * 2 ^ 1984)

theorem tFlit_crc : crc64 (List.replicate 248 0) = 3088559427994792658 := by decide +kernel
theorem tFlit_body : (natLe 256 tFlit.toNat).take 248 = List.replicate 248 0 := by decide +kernel
theorem tFlit_end : leNat ((natLe 256 tFlit.toNat).drop 248) = 3088559427994792658 := by decide +kernel
theorem tZero_body : (natLe 256 (0 : BitVec 2048).toNat).take 248 = List.replicate 248 0 := by decide +kernel
theorem tZero_end : leNat ((natLe 256 (0 : BitVec 2048).toNat).drop 248) = 0 := by decide +kernel

theorem witness_FlitsAndLinks :
    crc64 ((natLe 256 (0 : BitVec 2048).toNat).take 248) ≠ leNat ((natLe 256 (0 : BitVec 2048).toNat).drop 248) ∧
    (crc64 ((natLe 256 tFlit.toNat).take 248) = leNat ((natLe 256 tFlit.toNat).drop 248) ∧
      bits (leNat ((natLe 256 tFlit.toNat).take 8)) 52 12 = smGetD State.reset.F.flit (moduleKey 0 0) 0 ∧
      ((natLe 256 tFlit.toNat).drop 8).take 240 = List.replicate 240 0) ∧
    (bits (leNat ((natLe 256 tFlit.toNat).take 8)) 52 12 = 0 ∧ smGetD { State.reset with F := { State.reset.F with flit := [(moduleKey 0 0, 5)] } }.F.flit (moduleKey 0 0) 0 = 5) ∧ smSorted none State.reset.F.credit = true ∧
    (let s := { State.reset with B := { State.reset.B with links := [(6, 0, 0)] } }; (6 : Nat) < 7 ∧ s.B.status ≠ 1 ∧ smGet s.B.links (8 * 0 + 6) = some (0, 0)) ∧
    (let s := { State.reset with B := { State.reset.B with status := 1, links := [(6, 0, 0)] }, F := { State.reset.F with naks := [(moduleKey 0 (linkFirst 6), 8)] } };
      0 < linkModules 6 ∧ smGet s.B.links (8 * 0 + 6) = some (0, 0) ∧ 8 ≤ smGetD s.F.naks (moduleKey 0 (linkFirst 6 + 0)) 0) :=
  ⟨by rw [tZero_body, tZero_end, tFlit_crc]; decide, ⟨by rw [tFlit_body, tFlit_end, tFlit_crc], by decide +kernel, by decide +kernel⟩, ⟨by decide +kernel, by decide⟩, by decide, by decide, by decide⟩

/-! ### Witnesses: the host, registers, boot -/

/-- The mailbox window is open; with `cxl` the bulk window is coherent. -/
def sMbx (cxl : Bool) : State := let s := tS placeJob; { s with R := { s.R with hwMbx := 1, hwBulk := 1, hwBsz := 2 ^ 28 }, B := { s.B with cxl := cxl } }
/-- The page of the line is on its way; the line is bad; its home is lost. -/
def sHostMove : State := let s := tS placeJob; { s with M := { s.M with moves := [tMove] } }
def sHostBad : State := let s := tS placeJob; { s with M := { s.M with poison := [(0x900, 0)] } }
/-- An address behind the bulk window. -/
def tBulk : Nat := 2 ^ 45 + 2 ^ 28

theorem witness_HostAccesses : rangeSpan (tS placeJob) (2 ^ 43) 64 = .absent ∧
    (rangeSpan (tS placeJob) 0x300000480000 8 = .regs ∧ (hostRegBytes (tS placeJob) 0x300000480000 8).isSome = true ∧
      (agentRegWrite (tS placeJob) .host 0x300000480000 (hostBytes 8 1)).isSome = true ∧ rangeSpan (tS placeJob) 0x3000004F0000 8 = .regs ∧
      hostRegBytes (tS placeJob) 0x3000004F0000 8 = none ∧ agentRegWrite (tS placeJob) .host 0x3000004F0000 (hostBytes 8 1) = none) ∧
    (rangeSpan State.reset 0x24000 64 = .tier1 ∧ hostOpen State.reset = false) ∧
    (rangeSpan (tS placeJob) 0x24000 64 = .tier1 ∧ hostOpen (tS placeJob) = true ∧ hostWaits (tS placeJob) 0x24000 64 = false ∧
      (linesOf 0x24000 64).any (poisoned (tS placeJob)) = false ∧ (linesOf 0x24000 64).any (unreachable (tS placeJob)) = false ∧
      hostWaits sHostMove 0x24000 64 = true ∧ hostWaits sHostBad 0x24000 64 = false ∧ (linesOf 0x24000 64).any (poisoned sHostBad) = true) ∧
    ((∀ wide, 0x24008 % (if wide = true then 8 else 4) = 0) ∧ rangeOf (tS placeJob) 0x24008 = .tier1 ∧ poisoned (tS placeJob) (lineOf 0x24008) = false ∧
      (∀ wide, hostWaits (tS placeJob) 0x24008 (if wide = true then 8 else 4) = false ∧ hostWaits sHostMove 0x24008 (if wide = true then 8 else 4) = true) ∧ 0x24001 % 4 ≠ 0) ∧
    (∀ c, rangeOf (sMbx c) (64 * (2 ^ 45 / 64)) = .mailbox ∧ rangeSpan (sMbx c) (2 ^ 45) 64 = .mailbox ∧ coherentWindow (sMbx c) (2 ^ 45) = true ∧
      rangeSpan (sMbx c) tBulk 64 = .bulk ∧ rangeOf (sMbx c) (64 * (tBulk / 64)) = .bulk ∧ coherentWindow (sMbx c) tBulk = c ∧ hostOpen (sMbx c) = true ∧
      hostWaits (sMbx c) (2 ^ 45) 64 = false ∧ hostWaits (sMbx c) tBulk 64 = false) :=
  ⟨by decide, ⟨by decide, by decide, by decide, by decide, by decide, by decide⟩, by decide, ⟨by decide, by decide, by decide, by decide, by decide, by decide, by decide, by decide⟩,
   ⟨by decide, by decide, by decide, by decide, by decide⟩, by decide⟩

/-- A tenant whose domain range is 1 to 2, while tenant 0 runs with `lo` to `hi`. -/
def sTen (lo hi : Nat) : State :=
  let s := tS placeJob
  let v := fun (a b : Nat) (r : Bool) => { tenantSt s 63 with dom := BitVec.ofNat 64 (b * 2 ^ 16 + a), run := r }
  { s with R := { s.R with tenants := [(0, v lo hi true), (63, v 1 2 false)] } }
/-- The tenant's root setting is bad. -/
def tenBad (s : State) (v : Word) : Bool :=
  bits v.toNat 7 41 == 0 || decide (bits (tenantSt s 63).dom.toNat 16 12 < bits (tenantSt s 63).dom.toNat 0 12) ||
    s.R.tenants.any (fun e => e.1 != 63 && e.2.run && decide (bits e.2.dom.toNat 16 12 ≤ bits (tenantSt s 63).dom.toNat 0 12) &&
      decide (bits (tenantSt s 63).dom.toNat 16 12 ≤ bits e.2.dom.toNat 0 12))

/-- A move of the data page to `new` is asked for; `frz` is the page's FRZ bit. -/
def sMig (frz : Nat) (new : Word) : State :=
  let s := tS placeJob
  let s := { s with M := { s.M with mem := memWriteBytes s.M.mem (0x22000 + 8 * 0x101) (natLe 8 (frz * 2 ^ 59 + 2 ^ 53 + 2 ^ 52 + 0x24000 + 2 ^ 6 + 1)) } }
  setDomain s 0 { domainSt s 0 with xlMdst := new }
/-- What the walk finds: nothing, or a leaf with its size and FRZ bit. -/
def migLeaf (s : State) (va : Nat) : Option (Nat × Bool) := match walk s 0 va with | .leaf l => some (leafSize l.entry.toNat l.level, bitOf l.entry.toNat 59) | _ => none

theorem witness_RegisterWrites :
    ((0 : Word).getLsbD 0 = false ∧ (1 : Word).getLsbD 0 = true ∧ (0x81 : Word).getLsbD 0 = true ∧ tenBad (sTen 3 4) 1 = true ∧ tenBad (sTen 3 4) 0x81 = false ∧
      tenBad (sTen 2 4) 0x81 = false ∧ tenBad (sTen 2 1) 0x81 = true) ∧
    ((0x8000000000000000 : Word).getLsbD 63 = true ∧ (0 : Word).getLsbD 63 = false ∧ bits (3 : Word).toNat 0 2 = 3) ∧
    ((domainSt (tS placeJob) 4095).domRst ≠ 1 ∧ bits (domainSt (tS placeJob) 4095).xlMst.toNat 0 2 ≠ 1 ∧ (diesPresent (tS placeJob)).contains 0 = true ∧
      (diesPresent (tS placeJob)).contains 31 = false) ∧
    (let s := setDomain (tS placeJob) 0 { domainSt (tS placeJob) 0 with domRst := 1, xlMst := 1 }; (domainSt s 0).domRst = 1 ∧ bits (domainSt s 0).xlMst.toNat 0 2 = 1) ∧
    (migLeaf (sMig 0 0x26000) 0x200000 = none ∧ migLeaf (sMig 1 0x26000) 0x101000 = some (4096, true) ∧ migLeaf (sMig 0 0x26000) 0x101000 = some (4096, false) ∧
      moveSize 0 = 4096 ∧ moveSize 1 ≠ 4096 ∧ 0x26000 % moveSize 0 = 0 ∧ rangeOf (sMig 0 0x26000) 0x26000 = .tier1 ∧ rangeOf (sMig 0 0x26000) 0x26FFF = .tier1 ∧
      rangeOf (sMig 0 0) (2 ^ 43) = .absent) ∧
    ((tS placeJob).R.fwin.toList.getD 15 (0, 0, 0, 0)).1.getLsbD 0 = false ∧ (descFmt 0x3B9).isNone = false ∧ (descFmt 0).isNone = true ∧
    ((regAt (tS placeJob) 0x300000480000).isSome = true ∧ regAt (tS placeJob) 0x300000480004 = none) :=
  ⟨⟨by decide, by decide, by decide, by decide, by decide, by decide, by decide⟩, by decide, by decide, by decide,
   ⟨by decide +kernel, by decide +kernel, by decide +kernel, by decide, by decide, by decide, by decide, by decide, by decide⟩, by decide, by decide, by decide, by decide⟩

/-- Boot, with an image that fails and, by its answer, either; clock, temperature and resets. -/
theorem witness_BootAndResets : (State.reset.B.status = 0 ∧ (dieSt State.reset State.reset.B.primary).stage = 0) ∧
    (let s := { State.reset with time := 100000000, B := { State.reset.B with asked := [8] } }; s.B.status = 0 ∧ s.B.asked ≠ [] ∧ 100000000 ≤ s.time) ∧
    (let s := setDie (tS placeJob) 3 { dieSt (tS placeJob) 3 with clk := 60 }; (dieSt s 3).clkStep ≤ s.time ∧ (dieSt s 3).clk ≠ 0) ∧
    (let s := setDomain (tS placeJob) 0 { domainSt (tS placeJob) 0 with domRst := 1 }; (domainSt s (0 : BitVec 12).toNat).domRst = 1) :=
  ⟨by decide, by decide, by decide, by decide⟩

/-! ### The spec's worked examples -/

/-- Chapter 4's table of worked S words, and the words of the examples in chapters 5 and 6. -/
theorem test_worked_scalar_words : decode .S 0x04820100 0 = .ok (.add 8 8 1) ∧ decode .S 0x6081F000 0 = .ok (.ld 8 7 3 0 0 0) ∧
    decode .S 0x64827000 0 = .ok (.st 8 9 3 0 0) ∧ decode .S 0x2D20C400 0 = .ok (.cmp 2 2 3 4) ∧ decode .S 0x40FFFFFD 0 = .ok (.b 1 1 0x3FFFFD) ∧
    decode .S 0xA1808440 0 = .ok (.fence 3 1 8 2) ∧ decode .S 0x8D400C00 0 = .ok (.qpop 20 12) ∧ decode .S 0x74B27600 0 = .ok (.stl 11 9 3 3 0) ∧
    decode .S 0x68829800 0 = .ok (.ldm 8 10 3 0) ∧ decode .S 0x78824AD0 0 = .ok (.throw 8 9 10 3 2) := by decide

/-- A 64-bit load with x set is an illegal word (chapter 4). -/
theorem test_ld64_unsigned_refused : (match decode .S 0x6081F400 0 with | .ok _ => false | .error _ => true) = true := by decide

/-- The worked words of chapters 4, 7 and 8: MMA of two slots, VSHAPE, MACR, MTHR; MMA with 70 rows is illegal. -/
theorem test_worked_engine_words :
    decode .X 0x84001040008A080000000000 0xC00000000420000000000000 =
      .ok (.mma { zM with afmt := 2, w := ⟨2, 0, 1⟩, aslot := 5, wfmt := 2, rows := 2, zacc := 1 }) ∧
    decode .X 0x404008000006200000000000 0 = .ok (.vshape { zE with fmt := 1, a := ⟨0, 3, 0x100⟩ }) ∧
    decode .X 0x8A0010A00000400000000000 0xC00000000000000000000000 = .ok (.macr { zM with afmt := 2, w := ⟨5, 0, 0⟩, acc := 1 }) ∧
    decode .X 0x8E8000100000000000000000 0xC00000000000000000000000 = .ok (.mthr { zM with w := ⟨0, 2, 0⟩ }) ∧
    (match decode .X 0x84001040008A080000000000 0xC00000008C20000000000000 with | .ok _ => false | .error _ => true) = true := by decide

def e4m3 : NFmt := (builtinFmt 5).getD fp32

/-- FP32 values to E4M3 and E5M2 (chapter 2): 300, 460, 500 clear and saturated; 500 to E5M2. -/
theorem test_fp8_conversions : e4m3.encode false 0 (fp32.decode 0x43960000) = (0x79, flNX) ∧ e4m3.encode false 0 (fp32.decode 0x43E60000) = (0x7E, flNX) ∧
    e4m3.encode false 0 (fp32.decode 0x43FA0000) = (0x7F, flOF ||| flNX) ∧ e4m3.encode true 0 (fp32.decode 0x43FA0000) = (0x7E, flOF ||| flNX ||| flSAT) ∧
    e5m2.encode false 0 (fp32.decode 0x43FA0000) = (0x60, flNX) := by decide +kernel

/-- Descriptor 0x3B9 has 240 as its largest value and an infinity above it; with SPEC 1 its largest is 448 (chapter 2). -/
theorem test_descriptor : (descFmt 0x3B9).map (fun f => f.decode 0x77) = some (.fin false 240 1) ∧ (descFmt 0x3B9).map (fun f => f.decode 0x78) = some (.inf false) ∧
    (descFmt 0x83B9).map (fun f => f.decode 0x7E) = some (.fin false 448 1) := by decide +kernel

/-- Two products of 2^-24 added to 1.0 in one step (chapter 2). -/
theorem test_float_step : floatStep 0 [(.fin false 1 (2 ^ 24), 0), (.fin false 1 (2 ^ 24), 0)] 0x3F800000 = (0x3F800001, 0) := by decide +kernel

/-- The grouping table of chapter 8: 20 rows need 32, 7 need 16, 6 need 8, 70 get 64. -/
theorem test_thresholds : thrValid 0x0340021C010C0006 = true ∧ [20, 7, 6, 70].map (shapeRows 0x0340021C010C0006) = [32, 16, 8, 64] := by decide

/-- A register of the job in slot 0 and its flags after an instruction. -/
def after (i : Instr) (l : List (BitVec 6 × Word)) (r : BitVec 6) : Option (Word × Fl) :=
  match exec i (tS (tJ l)) with | .next t => (jobAt t 0).map (fun j => (j.s r, j.core.flags)) | _ => none

/-- −7 divided by 2; 0 by 0; 5 by 0 (chapter 5). -/
theorem test_division : after (.div 1 2 3) [(2, -7), (3, 2)] 1 = some (-3, 0) ∧ after (.rem 1 2 3) [(2, -7), (3, 2)] 1 = some (-1, 0) ∧
    after (.divu 1 2 3) [] 1 = some (-1, flDZ) ∧ after (.remu 1 2 3) [(2, 5)] 1 = some (5, flDZ) := by decide

/-- Ticket 11 of the nest (3, 5), ascending and with ORDER (1, 0) (chapter 22). -/
theorem test_ticket_indices :
    ticketIdx [0, 0, 0, 0, 0, 3 + 5 * 2 ^ 32, 0, 2 * 2 ^ 32] 11 = [2, 3, 0, 0, 0] ∧
    ticketIdx [0, 0, 0, 0, 0, 3 + 5 * 2 ^ 32, 0, 2 * 2 ^ 32 + 1 * 2 ^ 35] 11 = [2, 1, 0, 0, 0] := by decide

end Sys2Proof.Tests
end

section
/-!
PROOFS, part 1. Every step of the machine continues: a word that a step runs is a word of a resident job whose turn it is.
-/
namespace Sys2Proof.Machine

/-! ### Whose turn it is, and that its job is resident -/

/-- It is the turn of slot `k`, and a job is resident there. -/
def HasTurn (k : Nat) (s : State) : Prop := s.turnJob = k ∧ (jobAt s k).isSome = true

variable {k : Nat} {s : State}

/-- The turn and the residents depend on the turn's slot and the jobs alone. -/
theorem HasTurn.congr {t : State} (h : HasTurn k s) (ht : t.turnJob = s.turnJob) (hj : t.jobs = s.jobs) : HasTurn k t := by
  obtain ⟨h1, h2⟩ := h
  exact ⟨ht.trans h1, by rw [jobAt_congr hj]; exact h2⟩

theorem HasTurn.foldl {α : Type} {f : State → α → State} (hf : ∀ s x, HasTurn k s → HasTurn k (f s x)) (l : List α) (h : HasTurn k s) :
    HasTurn k (l.foldl f s) := by
  induction l generalizing s with
  | nil => exact h
  | cons x r ih => exact ih (hf s x h)

theorem setJob_hasTurn (h : HasTurn k s) (n : Nat) (j : Job) : HasTurn k (setJob s n j) := by
  obtain ⟨h1, h2⟩ := h
  refine ⟨by simpa using h1, ?_⟩
  rw [jobAt_setJob]
  split
  · rfl
  · exact h2

theorem modJob_hasTurn (h : HasTurn k s) (n : Nat) (f : Job → Job) : HasTurn k (modJob s n f) := by
  unfold modJob
  split
  · exact setJob_hasTurn h _ _
  · exact h

theorem homeSet_hasTurn (h : HasTurn k s) (pa : Nat) (b : Byte) : HasTurn k (homeSet s pa b) :=
  h.congr (by unfold homeSet; split <;> rfl) (homeSet_jobs s pa b)

theorem homeSetBytes_hasTurn (h : HasTurn k s) (pa : Nat) (l : List Byte) : HasTurn k (homeSetBytes s pa l) := by
  induction l generalizing s pa with
  | nil => exact h
  | cons b r ih => exact ih (homeSet_hasTurn h pa b) _

theorem noteCode_hasTurn (h : HasTurn k s) (pa : Nat) (l : List Byte) : HasTurn k (noteCode s pa l) := by
  induction l generalizing s pa with
  | nil => exact h
  | cons b r ih =>
    refine ih ?_ _
    split
    · exact h
    · exact h.congr rfl rfl

theorem writeBackN_hasTurn (h : HasTurn k s) (pa n : Nat) : HasTurn k (writeBackN s pa n) := by
  induction n generalizing s pa with
  | zero => exact h
  | succ n ih =>
    unfold writeBackN
    split
    · refine ih (homeSet_hasTurn ?_ _ _) _
      exact h.congr rfl rfl
    · exact ih h _

theorem dropStale_hasTurn (h : HasTurn k s) (line : Nat) : HasTurn k (dropStale s line) :=
  h.congr (by simp only [dropStale]) (dropStale_jobs s line)

theorem agentSetBytes_hasTurn (h : HasTurn k s) (pa : Nat) (l : List Byte) : HasTurn k (agentSetBytes s pa l) := by
  have hw : HasTurn k ((linesOf pa l.length).foldl (fun s ln => dropStale (writeBackLine s ln) ln) s) := by
    exact HasTurn.foldl (fun s ln h => dropStale_hasTurn (writeBackN_hasTurn h _ _) ln) _ h
  unfold agentSetBytes
  extract_lets s1 s2
  have h2 : HasTurn k s2 := homeSetBytes_hasTurn (noteCode_hasTurn hw pa l) pa l
  clear_value s2
  exact h2.congr rfl rfl

theorem narrow_hasTurn (h : HasTurn k s) (n : Nat) (f : Region → Region) : HasTurn k (narrow s n f) := by
  have hq : HasTurn k (narrowQuiet s n f) := by
    unfold narrowQuiet
    split
    · exact h
    · exact setJob_hasTurn h _ _
  unfold narrow
  split
  · exact h
  · extract_lets
    split
    · exact hq
    · exact hq.congr rfl rfl

theorem slWrite_hasTurn (h : HasTurn k s) (line : Nat) (d : Option Nat) : HasTurn k (slWrite s line d) := by
  refine HasTurn.foldl (fun s e h => ?_) _ (h.congr rfl rfl)
  split
  · exact h
  · split
    · exact narrow_hasTurn h _ _
    · exact h

theorem combineLine_hasTurn (h : HasTurn k s) (line : Nat) : HasTurn k (combineLine s line) := by
  refine HasTurn.foldl (fun s e h => ?_) _ h
  have hc : HasTurn k (combinePart s line e.2) := slWrite_hasTurn (HasTurn.foldl (fun _ _ h => agentSetBytes_hasTurn h _ _) _ h) _ _
  exact hc.congr (setCluster_turnJob _ _ _) (setCluster_jobs _ _ _)

/-- What a fetch leaves noted keeps the turn and the job that has it. -/
theorem noteFetch_hasTurn (h : HasTurn k s) (n : Nat) (j : Job) (st : Stream) (va len : Nat) : HasTurn k (noteFetch s n j st va len) := by
  refine modJob_hasTurn (HasTurn.foldl (fun s p h => ?_) _ h) _ _
  split
  · exact (HasTurn.foldl (fun s l h => combineLine_hasTurn h l) _ h).congr rfl rfl
  · exact h

/-! ### What a step runs -/

/-- Taking the S slot or the port leaves the turn with its slot. -/
theorem takeTurn_turnJob {st : Stream} {t : State} (h : takeTurn s k st = some t) : t.turnJob = s.turnJob := by
  unfold takeTurn at h
  split at h
  · simp only [takeSlot] at h
    repeat' split at h
    all_goals cases h
    all_goals simp
  · simp only [takePort] at h
    repeat' split at h
    all_goals cases h
    all_goals simp

/-- One breakpoint's part of the check: what `bpCheck` folds over the four. -/
def bpVisit (j : Job) (st : Stream) (a : State × Option Nat) (n : Nat) : State × Option Nat :=
  match a.2 with
  | some _ => a
  | none =>
    if !bpMatch a.1 j st n then a
    else if bits ((domainSt a.1 j.fdom).bpCtl.toList.getD n 0).toNat 0 16 = 0 then (a.1, some n)
    else (bpCount a.1 j.fdom n, none)

theorem bpVisit_turnJob (j : Job) (st : Stream) (a : State × Option Nat) (n : Nat) : (bpVisit j st a n).1.turnJob = a.1.turnJob := by
  unfold bpVisit
  repeat' split
  all_goals simp [bpCount]

theorem bpVisits_turnJob (j : Job) (st : Stream) (l : List Nat) (a : State × Option Nat) :
    (l.foldl (bpVisit j st) a).1.turnJob = a.1.turnJob := by
  induction l generalizing a with
  | nil => rfl
  | cons n r ih => exact (ih _).trans (bpVisit_turnJob j st a n)

/-- The breakpoint check leaves the turn with its slot. -/
theorem bpCheck_turnJob (s : State) (k : Nat) (j : Job) (st : Stream) : (bpCheck s k j st).1.turnJob = s.turnJob := by
  unfold bpCheck
  split
  · rfl
  · extract_lets r
    have hr : r.1.turnJob = s.turnJob := bpVisits_turnJob j st (List.range 4) (s, none)
    clear_value r
    repeat' split
    all_goals simpa using hr

/-- A word of a stream: an encoded instruction, or the firmware service that no number names, which shares the word of TRAP. -/
def takesTurn : Instr → Bool
  | .unassignedFirmwareService _ => true
  | i => (encode i).isSome

/-- A plan runs a stream's word only for the resident job whose turn it is. -/
def Plan.Sound : Plan → Prop
  | .run i s => takesTurn i = true → HasTurn s.turnJob s
  | .stay _ => True

theorem planFetch_sound {j : Job} {st : Stream} (h : HasTurn s.turnJob s) : (planFetch s k j st).Sound := by
  unfold planFetch
  extract_lets va
  split
  · trivial
  · trivial
  · rename_i l _
    have hn := noteFetch_hasTurn h k j st va l.length
    extract_lets t
    split
    · intro _
      rw [hn.1]
      exact hn
    · trivial

theorem planStream_sound (s : State) (k : Nat) (st : Stream) : (planStream s k st).Sound := by
  unfold planStream
  extract_lets s0
  split
  · trivial
  · split
    · trivial
    · split
      · trivial
      · rename_i t ht
        split
        · trivial
        · rename_i j _ _ _ _
          extract_lets b
          have hb : b.1.turnJob = k := (bpCheck_turnJob t k j st).trans (takeTurn_turnJob ht)
          split
          · exact fun h => nomatch h
          · split
            · trivial
            · rename_i j' hj
              refine planFetch_sound ⟨rfl, ?_⟩
              rw [hb, hj]
              rfl

theorem takesTurn_of_encode_none {i : Instr} (hi : ∀ n, i ≠ .unassignedFirmwareService n) (he : (encode i).isNone = true) :
    takesTurn i = false := by
  unfold takesTurn
  split
  · exact absurd rfl (hi _)
  · simpa using he

theorem planAction_sound (s : State) (a : Action) : (planAction s a).Sound := by
  unfold planAction
  split
  · exact planStream_sound s _ _
  · trivial
  · rename_i i hi
    split
    · rename_i he
      intro ht
      rw [takesTurn_of_encode_none hi he] at ht
      exact nomatch ht
    · trivial
  all_goals trivial

/-! ### Every instruction continues -/

/-- An event continues in every state; a stream's word continues when its job is resident. -/
theorem exec_next (i : Instr) (s : State) (h : takesTurn i = true → ∃ j, jobAt s s.turnJob = some j) : ∃ t, exec i s = .next t := by
  cases i with
  | nop => exact (h rfl).elim fun _ => Goes.nop
  | add d a b => exact (h rfl).elim fun _ => Goes.add d a b
  | sub d a b => exact (h rfl).elim fun _ => Goes.sub d a b
  | and d a b => exact (h rfl).elim fun _ => Goes.and d a b
  | or d a b => exact (h rfl).elim fun _ => Goes.or d a b
  | xor d a b => exact (h rfl).elim fun _ => Goes.xor d a b
  | shl d a b => exact (h rfl).elim fun _ => Goes.shl d a b
  | shr d a b => exact (h rfl).elim fun _ => Goes.shr d a b
  | sra d a b => exact (h rfl).elim fun _ => Goes.sra d a b
  | mul d a b => exact (h rfl).elim fun _ => Goes.mul d a b
  | mulh d a b => exact (h rfl).elim fun _ => Goes.mulh d a b
  | mulhu d a b => exact (h rfl).elim fun _ => Goes.mulhu d a b
  | div d a b => exact (h rfl).elim fun _ => Goes.div d a b
  | divu d a b => exact (h rfl).elim fun _ => Goes.divu d a b
  | rem d a b => exact (h rfl).elim fun _ => Goes.rem d a b
  | remu d a b => exact (h rfl).elim fun _ => Goes.remu d a b
  | min d a b => exact (h rfl).elim fun _ => Goes.min d a b
  | max d a b => exact (h rfl).elim fun _ => Goes.max d a b
  | minu d a b => exact (h rfl).elim fun _ => Goes.minu d a b
  | maxu d a b => exact (h rfl).elim fun _ => Goes.maxu d a b
  | clz d a => exact (h rfl).elim fun _ => Goes.clz d a
  | popc d a => exact (h rfl).elim fun _ => Goes.popc d a
  | sel d a b p => exact (h rfl).elim fun _ => Goes.sel d a b p
  | addi d a i => exact (h rfl).elim fun _ => Goes.addi d a i
  | andi d a i => exact (h rfl).elim fun _ => Goes.andi d a i
  | ori d a i => exact (h rfl).elim fun _ => Goes.ori d a i
  | xori d a i => exact (h rfl).elim fun _ => Goes.xori d a i
  | shli d a n => exact (h rfl).elim fun _ => Goes.shli d a n
  | shri d a n => exact (h rfl).elim fun _ => Goes.shri d a n
  | srai d a n => exact (h rfl).elim fun _ => Goes.srai d a n
  | movi d i => exact (h rfl).elim fun _ => Goes.movi d i
  | shin d i => exact (h rfl).elim fun _ => Goes.shin d i
  | cmp p c a b => exact (h rfl).elim fun _ => Goes.cmp p c a b
  | cmpi p c a i => exact (h rfl).elim fun _ => Goes.cmpi p c a i
  | pand d a b => exact (h rfl).elim fun _ => Goes.pand d a b
  | por d a b => exact (h rfl).elim fun _ => Goes.por d a b
  | pxor d a b => exact (h rfl).elim fun _ => Goes.pxor d a b
  | pnot d a => exact (h rfl).elim fun _ => Goes.pnot d a
  | b p n o => exact (h rfl).elim fun _ => Goes.b p n o
  | jmp o => exact (h rfl).elim fun _ => Goes.jmp o
  | call o => exact (h rfl).elim fun _ => Goes.call o
  | jr a => exact (h rfl).elim fun _ => Goes.jr a
  | ld d a w k x o => exact (h rfl).elim fun _ => Goes.ld d a w k x o
  | st d a w k o => exact (h rfl).elim fun _ => Goes.st d a w k o
  | ldm d a n o => exact (h rfl).elim fun _ => Goes.ldm d a n o
  | stm d a n o => exact (h rfl).elim fun _ => Goes.stm d a n o
  | lda d a w sc o => exact (h rfl).elim fun _ => Goes.lda d a w sc o
  | stl d a w sc o => exact (h rfl).elim fun _ => Goes.stl d a w sc o
  | throw d a b w sc => exact (h rfl).elim fun _ => Goes.throw d a b w sc
  | pref a sc o => exact (h rfl).elim fun _ => Goes.pref a sc o
  | spl d n => exact (h rfl).elim fun _ => Goes.spl d n
  | sps d n => exact (h rfl).elim fun _ => Goes.sps d n
  | qpush a q => exact (h rfl).elim fun _ => Goes.qpush a q
  | qpop d q => exact (h rfl).elim fun _ => Goes.qpop d q
  | qcnt d q => exact (h rfl).elim fun _ => Goes.qcnt d q
  | fence sc src dst k => exact (h rfl).elim fun _ => Goes.fence sc src dst k
  | fenceRetire j => exact Goes.fenceRetire j s
  | waitProd => exact (h rfl).elim fun _ => Goes.waitProd
  | waitMemeq a b sc => exact (h rfl).elim fun _ => Goes.waitMemeq a b sc
  | waitMemge a b sc => exact (h rfl).elim fun _ => Goes.waitMemge a b sc
  | waitNm a => exact (h rfl).elim fun _ => Goes.waitNm a
  | waitIngr a b => exact (h rfl).elim fun _ => Goes.waitIngr a b
  | waitReevaluate j => exact Goes.waitReevaluate j s
  | trig => exact (h rfl).elim fun _ => Goes.trig
  | rdv m => exact (h rfl).elim fun _ => Goes.rdv m
  | joinComplete j => exact Goes.joinComplete j s
  | halt => exact (h rfl).elim fun _ => Goes.halt
  | haltRetire j => exact Goes.haltRetire j s
  | yield => exact (h rfl).elim fun _ => Goes.yield
  | barc i => exact (h rfl).elim fun _ => Goes.barc i
  | barrierComplete cl launch id => exact Goes.barrierComplete cl launch id s
  | rbeg o => exact (h rfl).elim fun _ => Goes.rbeg o
  | rcom d => exact (h rfl).elim fun _ => Goes.rcom d
  | regionCommit j => exact Goes.regionCommit j s
  | rabt c => exact (h rfl).elim fun _ => Goes.rabt c
  | rbndLo d => exact (h rfl).elim fun _ => Goes.rbndLo d
  | rbndHi d => exact (h rfl).elim fun _ => Goes.rbndHi d
  | nmgo d a => exact (h rfl).elim fun _ => Goes.nmgo d a
  | nmwt d a => exact (h rfl).elim fun _ => Goes.nmwt d a
  | spawn d a b => exact (h rfl).elim fun _ => Goes.spawn d a b
  | wgen d a => exact (h rfl).elim fun _ => Goes.wgen d a
  | csrr d c => exact (h rfl).elim fun _ => Goes.csrr d c
  | csrw a c => exact (h rfl).elim fun _ => Goes.csrw a c
  | trap i => exact (h rfl).elim fun _ => Goes.trap i
  | openRange => exact (h rfl).elim fun _ => Goes.openRange
  | closeRange => exact (h rfl).elim fun _ => Goes.closeRange
  | registerBufferGroup => exact (h rfl).elim fun _ => Goes.registerBufferGroup
  | resetBufferGroup => exact (h rfl).elim fun _ => Goes.resetBufferGroup
  | releaseBufferGroup => exact (h rfl).elim fun _ => Goes.releaseBufferGroup
  | setContextPool => exact (h rfl).elim fun _ => Goes.setContextPool
  | registerWeightTable => exact (h rfl).elim fun _ => Goes.registerWeightTable
  | setWatchpoint => exact (h rfl).elim fun _ => Goes.setWatchpoint
  | replay => exact (h rfl).elim fun _ => Goes.replay
  | replayEnd j => exact Goes.replayEnd j s
  | attestationReport => exact (h rfl).elim fun _ => Goes.attestationReport
  | unassignedFirmwareService i => exact (h rfl).elim fun _ => Goes.unassignedFirmwareService i
  | eret => exact (h rfl).elim fun _ => Goes.eret
  | vshape w => exact (h rfl).elim fun _ => Goes.vshape w
  | vadd w => exact (h rfl).elim fun _ => Goes.vadd w
  | vsub w => exact (h rfl).elim fun _ => Goes.vsub w
  | vmul w => exact (h rfl).elim fun _ => Goes.vmul w
  | vfma w => exact (h rfl).elim fun _ => Goes.vfma w
  | vmin w => exact (h rfl).elim fun _ => Goes.vmin w
  | vmax w => exact (h rfl).elim fun _ => Goes.vmax w
  | vabs w => exact (h rfl).elim fun _ => Goes.vabs w
  | vneg w => exact (h rfl).elim fun _ => Goes.vneg w
  | vand w => exact (h rfl).elim fun _ => Goes.vand w
  | vor w => exact (h rfl).elim fun _ => Goes.vor w
  | vxor w => exact (h rfl).elim fun _ => Goes.vxor w
  | vshl w => exact (h rfl).elim fun _ => Goes.vshl w
  | vshr w => exact (h rfl).elim fun _ => Goes.vshr w
  | vcmp w => exact (h rfl).elim fun _ => Goes.vcmp w
  | vsel w => exact (h rfl).elim fun _ => Goes.vsel w
  | vcvt w => exact (h rfl).elim fun _ => Goes.vcvt w
  | vqnt w => exact (h rfl).elim fun _ => Goes.vqnt w
  | vdq w => exact (h rfl).elim fun _ => Goes.vdq w
  | vexp w => exact (h rfl).elim fun _ => Goes.vexp w
  | vrcp w => exact (h rfl).elim fun _ => Goes.vrcp w
  | vrsq w => exact (h rfl).elim fun _ => Goes.vrsq w
  | vtanh w => exact (h rfl).elim fun _ => Goes.vtanh w
  | vred w => exact (h rfl).elim fun _ => Goes.vred w
  | vscan w => exact (h rfl).elim fun _ => Goes.vscan w
  | vgmax w => exact (h rfl).elim fun _ => Goes.vgmax w
  | vtopk w => exact (h rfl).elim fun _ => Goes.vtopk w
  | vnorm w => exact (h rfl).elim fun _ => Goes.vnorm w
  | vcopy w => exact (h rfl).elim fun _ => Goes.vcopy w
  | vfill w => exact (h rfl).elim fun _ => Goes.vfill w
  | viota w => exact (h rfl).elim fun _ => Goes.viota w
  | vgath w => exact (h rfl).elim fun _ => Goes.vgath w
  | vscat w => exact (h rfl).elim fun _ => Goes.vscat w
  | vtran w => exact (h rfl).elim fun _ => Goes.vtran w
  | vmskAnd w => exact (h rfl).elim fun _ => Goes.vmskAnd w
  | vmskOr w => exact (h rfl).elim fun _ => Goes.vmskOr w
  | vmskXor w => exact (h rfl).elim fun _ => Goes.vmskXor w
  | vmskAndn w => exact (h rfl).elim fun _ => Goes.vmskAndn w
  | vmskNot w => exact (h rfl).elim fun _ => Goes.vmskNot w
  | vmskFirst w => exact (h rfl).elim fun _ => Goes.vmskFirst w
  | vmskCount w => exact (h rfl).elim fun _ => Goes.vmskCount w
  | vmskLd w => exact (h rfl).elim fun _ => Goes.vmskLd w
  | vmskSt w => exact (h rfl).elim fun _ => Goes.vmskSt w
  | vectorWordRetire j => exact Goes.vectorWordRetire j s
  | mshape w => exact (h rfl).elim fun _ => Goes.mshape w
  | mma w => exact (h rfl).elim fun _ => Goes.mma w
  | mmas w => exact (h rfl).elim fun _ => Goes.mmas w
  | mlda w => exact (h rfl).elim fun _ => Goes.mlda w
  | mclm w => exact (h rfl).elim fun _ => Goes.mclm w
  | mrel w => exact (h rfl).elim fun _ => Goes.mrel w
  | macr w => exact (h rfl).elim fun _ => Goes.macr w
  | mzero w => exact (h rfl).elim fun _ => Goes.mzero w
  | mfill w => exact (h rfl).elim fun _ => Goes.mfill w
  | mpin w => exact (h rfl).elim fun _ => Goes.mpin w
  | munp w => exact (h rfl).elim fun _ => Goes.munp w
  | minv w => exact (h rfl).elim fun _ => Goes.minv w
  | mqry w => exact (h rfl).elim fun _ => Goes.mqry w
  | mrep w => exact (h rfl).elim fun _ => Goes.mrep w
  | mlse w => exact (h rfl).elim fun _ => Goes.mlse w
  | leaseGrant cl => exact Goes.leaseGrant cl s
  | leaseBudgetExhausted cl => exact Goes.leaseBudgetExhausted cl s
  | mlrl w => exact (h rfl).elim fun _ => Goes.mlrl w
  | mthr w => exact (h rfl).elim fun _ => Goes.mthr w
  | frameFillComplete cl fr => exact Goes.frameFillComplete cl fr s
  | frameCopyComplete cl fr => exact Goes.frameCopyComplete cl fr s
  | hardwareReplica cl fr => exact Goes.hardwareReplica cl fr s
  | matrixWordRetire j => exact Goes.matrixWordRetire j s
  | cpy w => exact (h rfl).elim fun _ => Goes.cpy w
  | cpyg w => exact (h rfl).elim fun _ => Goes.cpyg w
  | cpyd w => exact (h rfl).elim fun _ => Goes.cpyd w
  | cpym w => exact (h rfl).elim fun _ => Goes.cpym w
  | prel w => exact (h rfl).elim fun _ => Goes.prel w
  | dgst w => exact (h rfl).elim fun _ => Goes.dgst w
  | cps w => exact (h rfl).elim fun _ => Goes.cps w
  | acw w => exact (h rfl).elim fun _ => Goes.acw w
  | acwf w => exact (h rfl).elim fun _ => Goes.acwf w
  | cas w => exact (h rfl).elim fun _ => Goes.cas w
  | cpst w => exact (h rfl).elim fun _ => Goes.cpst w
  | scat w => exact (h rfl).elim fun _ => Goes.scat w
  | flsh w => exact (h rfl).elim fun _ => Goes.flsh w
  | invl w => exact (h rfl).elim fun _ => Goes.invl w
  | engineWordRetire j e => exact Goes.engineWordRetire j e s
  | aq e w => exact (h rfl).elim fun _ => Goes.aq e w
  | aset e w => exact (h rfl).elim fun _ => Goes.aset e w
  | aadd e w => exact (h rfl).elim fun _ => Goes.aadd e w
  | ejoin e w => exact (h rfl).elim fun _ => Goes.ejoin e w
  | enop e w => exact (h rfl).elim fun _ => Goes.enop e w
  | cshape e w => exact (h rfl).elim fun _ => Goes.cshape e w
  | loop e w => exact (h rfl).elim fun _ => Goes.loop e w
  | breakpointStop j st n => exact Goes.breakpointStop j st n s
  | jobDispatch die => exact Goes.jobDispatch die s
  | walkerSteal launch die => exact Goes.walkerSteal launch die s
  | tailReread leaf => exact Goes.tailReread leaf s
  | periodBoundary node => exact Goes.periodBoundary node s
  | ageLevelTick launch => exact Goes.ageLevelTick launch s
  | launchComplete launch => exact Goes.launchComplete launch s
  | preemptionRequest j => exact Goes.preemptionRequest j s
  | sliceExpiry j => exact Goes.sliceExpiry j s
  | graceExpiry j => exact Goes.graceExpiry j s
  | forcedCut j => exact Goes.forcedCut j s
  | contextSaveDone j => exact Goes.contextSaveDone j s
  | saveDeadlineExpiry j => exact Goes.saveDeadlineExpiry j s
  | jobResume launch ticket => exact Goes.jobResume launch ticket s
  | hangWatchdog j => exact Goes.hangWatchdog j s
  | nmJobStart m => exact Goes.nmJobStart m s
  | nmJobComplete m u => exact Goes.nmJobComplete m u s
  | nmWatchdogReset m u => exact Goes.nmWatchdogReset m u s
  | activationAlert m u row share total => exact Goes.activationAlert m u row share total s
  | persistentRequest line core => exact Goes.persistentRequest line core s
  | positionRebase => exact Goes.positionRebase s
  | pageMoveRemap f => exact Goes.pageMoveRemap f s
  | freezeStallTimeout j st => exact Goes.freezeStallTimeout j st s
  | weightRecheck f => exact Goes.weightRecheck f s
  | patrolScrub die line bad => exact Goes.patrolScrub die line bad s
  | flitReceive die module flit => exact Goes.flitReceive die module flit s
  | linkRetrain die link rates repaired => exact Goes.linkRetrain die link rates repaired s
  | reqReadShared m => exact Goes.reqReadShared m s
  | reqReadOwned m => exact Goes.reqReadOwned m s
  | reqWrite m => exact Goes.reqWrite m s
  | reqAtomic m => exact Goes.reqAtomic m s
  | reqReleasePermission m => exact Goes.reqReleasePermission m s
  | reqNearMemoryJob m => exact Goes.reqNearMemoryJob m s
  | reqWalkerSteal m => exact Goes.reqWalkerSteal m s
  | reqRegisterAccess m => exact Goes.reqRegisterAccess m s
  | rspAck m => exact Goes.rspAck m s
  | rspRetry m => exact Goes.rspRetry m s
  | rspMoved m => exact Goes.rspMoved m s
  | rspError m => exact Goes.rspError m s
  | rspDataFollows m => exact Goes.rspDataFollows m s
  | rspForcedPublishAck m => exact Goes.rspForcedPublishAck m s
  | datLine m => exact Goes.datLine m s
  | datPartialLine m => exact Goes.datPartialLine m s
  | datPoisonedLine m => exact Goes.datPoisonedLine m s
  | snpRecallOwner m => exact Goes.snpRecallOwner m s
  | snpInvalidate m => exact Goes.snpInvalidate m s
  | snpForcedPublish m => exact Goes.snpForcedPublish m s
  | tokGrantShared m => exact Goes.tokGrantShared m s
  | tokGrantOwned m => exact Goes.tokGrantOwned m s
  | tokRevoke m => exact Goes.tokRevoke m s
  | nrw m => exact Goes.nrw m s
  | pos m => exact Goes.pos m s
  | ingTokenRow m => exact Goes.ingTokenRow m s
  | ingPickRecord m => exact Goes.ingPickRecord m s
  | mgtDescriptorRequest => exact Goes.mgtDescriptorRequest s
  | mgtDescriptor => exact Goes.mgtDescriptor s
  | mgtTopology => exact Goes.mgtTopology s
  | mgtFirmwareReplicaWrite => exact Goes.mgtFirmwareReplicaWrite s
  | mgtEvent => exact Goes.mgtEvent s
  | throwDelivery core line => exact Goes.throwDelivery core line s
  | hostRead pa n => exact Goes.hostRead pa n s
  | hostWrite pa n data => exact Goes.hostWrite pa n data s
  | hostFetchAdd pa wide v => exact Goes.hostFetchAdd pa wide v s
  | hostSwap pa wide v => exact Goes.hostSwap pa wide v s
  | hostCompareSwap pa wide old new => exact Goes.hostCompareSwap pa wide old new s
  | tenRoot n v => exact Goes.tenRoot n v s
  | tenKick n v => exact Goes.tenKick n v s
  | domRst f v => exact Goes.domRst f v s
  | domainResetDone f => exact Goes.domainResetDone f s
  | xlInv f v => exact Goes.xlInv f v s
  | xlMig f v => exact Goes.xlMig f v s
  | errPop die v => exact Goes.errPop die v s
  | fwinWrite n r v => exact Goes.fwinWrite n r v s
  | registerWrite pa v => exact Goes.registerWrite pa v s
  | powerOn => exact Goes.powerOn s
  | discoveryTimeout => exact Goes.discoveryTimeout s
  | clockStep die up => exact Goes.clockStep die up s
  | thermalThrottle die => exact Goes.thermalThrottle die s
  | thermalStop die => exact Goes.thermalStop die s
  | copyTrapInFlight j e => exact Goes.copyTrapInFlight j e s
  | coherentWindowSnoop line write => exact Goes.coherentWindowSnoop line write s
  | trHead f v => exact Goes.trHead f v s
  | packageReset => exact Goes.packageReset s

/-- Settles O7: a step moves to a state, or runs an event or a word of the job whose turn it is, and each of these continues. -/
theorem everyStepContinues : Obligations.EveryStepContinues := by
  intro s
  have h := planAction_sound (takeAction s).2 (takeAction s).1
  unfold Continues step planStep
  extract_lets a
  split
  · rename_i i t hp
    rw [hp] at h
    refine exec_next i t fun ht => ?_
    exact Option.isSome_iff_exists.mp (h ht).2
  · exact ⟨_, rfl⟩

end Sys2Proof.Machine
end

section
/-!
PROOFS, part 4. A step that fetches: the plan of the stream whose turn it is, and what the fetched bytes decide.
-/
namespace Sys2Proof.Machine

/-! ### The bytes of a fetch -/

/-- With fuel for every page it touches, an access is cut into pieces that have its length in all. -/
theorem pieces_length (fuel : Nat) : ∀ va n, va % 4096 + n ≤ 4096 * fuel → ((pieces va fuel n).map Prod.snd).sum = n := by
  induction fuel with
  | zero => intro va n h; simp only [pieces, List.map_nil, List.sum_nil]; omega
  | succ fuel ih =>
    intro va n h
    cases n with
    | zero => rfl
    | succ n =>
      simp only [pieces, List.map_cons, List.sum_cons]
      have hm : Nat.min (n + 1) (4096 - va % 4096) = n + 1 ∨
          Nat.min (n + 1) (4096 - va % 4096) = 4096 - va % 4096 ∧ 4096 - va % 4096 ≤ n + 1 := by
        simp only [Nat.min_def]; split <;> omega
      rcases hm with hm | ⟨hm, hle⟩
      · rw [hm, Nat.sub_self]
        cases fuel <;> rfl
      · rw [hm, ih _ _ (by omega)]
        omega

theorem pagePieces_length (va n : Nat) : ((pagePieces va n).map Prod.snd).sum = n :=
  pieces_length _ va n (by omega)

/-- What `fetchBytes` does with one piece of an access. -/
def fetchPiece (s : State) (j : Job) (va : Nat) (a : Fetched) (p : Nat × Nat) : Fetched :=
  match a with
  | .ok l =>
    match translateMem s j.fdom (j.level == .handler) p.1 .fetch with
    | .fail c => .trap c p.1
    | .frozen => .frozen
    | .ok pa =>
      match firstPoison s pa p.2 with
      | some ln => .trap 0x0C (p.1 + (Nat.max pa (64 * ln) - pa))
      | none =>
        let t := (linesOf pa p.2).foldl combineLine s
        .ok (l ++ (List.range p.2).map (fun i => fetchByte t (j.began s) (Config.freeChoice s.fresh (2 ^ 60 + va)) (pa + i)))
  | r => r

/-- A piece that succeeds follows one that has, and adds its length. -/
theorem fetchPiece_ok {s : State} {j : Job} {va : Nat} {a : Fetched} {p : Nat × Nat} {l : List Byte} (h : fetchPiece s j va a p = .ok l) :
    ∃ l0, a = .ok l0 ∧ l.length = l0.length + p.2 := by
  unfold fetchPiece at h
  repeat' split at h
  all_goals cases h
  · exact ⟨_, rfl, by simp⟩
  · rename_i hn
    exact absurd rfl (hn _)

theorem fetchPieces_length {s : State} {j : Job} {va : Nat} (ps : List (Nat × Nat)) : ∀ (a : Fetched) (l : List Byte),
    ps.foldl (fetchPiece s j va) a = .ok l → ∃ l0, a = .ok l0 ∧ l.length = l0.length + (ps.map Prod.snd).sum := by
  induction ps with
  | nil => intro a l h; exact ⟨l, h, rfl⟩
  | cons p ps ih =>
    intro a l h
    obtain ⟨l1, h1, hl⟩ := ih _ _ h
    obtain ⟨l0, h0, hl0⟩ := fetchPiece_ok h1
    refine ⟨l0, h0, ?_⟩
    simp only [List.map_cons, List.sum_cons]
    omega

/-- A fetch that succeeds has the bytes that were asked for. -/
theorem fetchBytes_length {s : State} {j : Job} {va n : Nat} {l : List Byte} (h : fetchBytes s j va n = .ok l) : l.length = n := by
  obtain ⟨l0, h0, hl⟩ := fetchPieces_length (pagePieces va n) (.ok []) l h
  cases h0
  rw [hl, pagePieces_length]
  exact Nat.zero_add n

/-! ### The plan of a stream that may issue -/

theorem takeTurn_jobs {s t : State} {k : Nat} {st : Stream} (h : takeTurn s k st = some t) : t.jobs = s.jobs := by
  unfold takeTurn at h
  split at h
  · simp only [takeSlot] at h
    repeat' split at h
    all_goals cases h
    all_goals simp
  · simp only [takePort] at h
    repeat' split at h
    all_goals cases h
    all_goals simp

theorem bpVisits_quiet {s : State} {j : Job} {st : Stream} (l : List Nat) (h : ∀ n ∈ l, bpMatch s j st n = false) :
    l.foldl (bpVisit j st) (s, none) = (s, none) := by
  induction l with
  | nil => rfl
  | cons n r ih =>
    have hn : bpVisit j st (s, none) n = (s, none) := by simp [bpVisit, h n List.mem_cons_self]
    rw [List.foldl_cons, hn]
    exact ih fun m hm => h m (List.mem_cons_of_mem n hm)

/-- A word at which no breakpoint stands passes the check and leaves nothing. -/
theorem bpCheck_quiet {s : State} {j : Job} {st : Stream} (h : ∀ n ∈ List.range 4, bpMatch s j st n = false) (k : Nat) :
    bpCheck s k j st = (s, none) := by
  have hf : (List.range 4).foldl (bpVisit j st) (s, none) = (s, none) :=
    bpVisits_quiet (List.range 4) h
  have ha : (List.range 4).any (bpMatch s j st) = false := List.any_eq_false.mpr fun n hn => by simp [h n hn]
  unfold bpCheck
  split
  · rfl
  · extract_lets r
    have hr : r = (s, none) := hf
    rw [hr]
    simp [ha]

/-- The conditions under which the stream of slot `k` comes to fetch in the state `s2`. -/
structure Fetches (s s0 s2 : State) (k : Nat) (st : Stream) (j : Job) : Prop where
  action : takeAction s = (.run k st, s0)
  turn : takeTurn { s0 with turnJob := k, turn := st } k st = some s2
  here : jobAt s0 k = some j
  issue : j.mayIssue st = true
  live : st = .S → j.pend ≠ .departed
  within : j.replayPast st = false
  room : traceStall { s0 with turnJob := k, turn := st } j st = false
  quiet : ∀ n ∈ List.range 4, bpMatch s2 j st n = false

theorem Fetches.planStep {s s0 s2 : State} {k : Nat} {st : Stream} {j : Job} (h : Fetches s s0 s2 k st j) :
    planStep s = planFetch s2 k j st := by
  have hj : jobAt { s0 with turnJob := k, turn := st } k = some j := h.here
  have hj2 : jobAt s2 k = some j := (jobAt_congr (takeTurn_jobs h.turn) k).trans hj
  have hd : ¬ (st = .S ∧ j.pend = .departed) := fun ⟨a, b⟩ => h.live a b
  simp only [Machine.planStep, h.action, planAction, planStream, hj, h.issue, h.room, h.within, h.turn, Bool.not_true, Bool.or_self,
    Bool.false_eq_true, if_false, if_neg hd, bpCheck_quiet h.quiet, hj2]

/-! ### What the fetched bytes decide -/

section
variable {s s0 s2 : State} {k : Nat} {st : Stream} {j : Job} (h : Fetches s s0 s2 k st j)
include h

/-- The bytes of an instruction make the step that instruction's execution. -/
theorem Fetches.step_decodes {l : List Byte} {i : Instr} (hf : fetchWord s2 j st (j.pcOf st).toNat = .ok l) (hd : decodeBytes st l = .ok i) :
    step s = exec i (noteFetch s2 k j st (j.pcOf st).toNat l.length) := by
  simp only [step, h.planStep, planFetch, hf, hd]

theorem Fetches.step_refuses {l : List Byte} {r : Reject} (hf : fetchWord s2 j st (j.pcOf st).toNat = .ok l)
    (hd : decodeBytes st l = .error r) :
    step s = .next (takeTrap (noteFetch s2 k j st (j.pcOf st).toNat l.length) k st 0x01 (leNat l % 2 ^ 64)) := by
  simp only [step, h.planStep, planFetch, hf, hd, trapWord]

theorem Fetches.step_fails {c v : Nat} (hf : fetchWord s2 j st (j.pcOf st).toNat = .trap c v) : step s = .next (takeTrap s2 k st c v) := by
  simp only [step, h.planStep, planFetch, hf]

theorem Fetches.step_frozen (hf : fetchWord s2 j st (j.pcOf st).toNat = .frozen) :
    step s = .next (fetchStall s2 k j st (j.pcOf st).toNat) := by
  simp only [step, h.planStep, planFetch, hf]
end

/-- Settles O5: `fetchWord` fetches as many bytes as the stream and the word's class ask for, and `decodeBytes` reads them. -/
theorem stepRunsDecodedInstruction : Obligations.StepRunsDecodedInstruction := by
  intro s s0 s2 k st j l i ha ht hj hi hl hw hr hq
  have h : Fetches s s0 s2 k st j := ⟨ha, ht, hj, hi, hl, hw, hr, hq⟩
  refine ⟨fun hs hf hd => ?_, fun hs hf hc hd => ?_, fun hs tail hf hc hft hd => ?_⟩
  · have hd' : decodeBytes st l = .ok i := by rw [decodeBytes, if_pos hs, hd]
    rw [h.step_decodes (by rw [fetchWord, if_pos hs, hf]) hd', fetchBytes_length hf]
  · have hlen := fetchBytes_length hf
    have hd' : decodeBytes st l = .ok i := by
      rw [decodeBytes, if_neg hs, List.take_of_length_le (by omega), List.drop_of_length_le (by omega)]
      exact hd
    have hf' : fetchWord s2 j st (j.pcOf st).toNat = .ok l := by
      simp only [fetchWord, if_neg hs, hf, if_neg hc]
    rw [h.step_decodes hf' hd', hlen]
  · have hlen := fetchBytes_length hf
    have hlt := fetchBytes_length hft
    have hn : st ≠ .S := by rw [hs]; decide
    have hd' : decodeBytes st (l ++ tail) = .ok i := by
      rw [decodeBytes, if_neg hn, List.take_left' hlen, List.drop_left' hlen, hs]
      exact hd
    have hf' : fetchWord s2 j st (j.pcOf st).toNat = .ok (l ++ tail) := by
      simp only [fetchWord, if_neg hn, hf, if_pos (And.intro hs hc), hft]
    rw [h.step_decodes hf' hd', List.length_append, hlen, hlt]

/-- Settles O6: a fetch that succeeds, fails or meets a frozen page is each one branch of `planFetch`. -/
theorem stepTrapsUndecodableWord : Obligations.StepTrapsUndecodableWord := by
  intro s s0 s2 k st j ha ht hj hi hl hw hr hq
  have h : Fetches s s0 s2 k st j := ⟨ha, ht, hj, hi, hl, hw, hr, hq⟩
  refine ⟨fun l r => h.step_refuses, fun c v => h.step_fails, fun hf => ⟨fun hw => ?_, fun hw => ?_⟩⟩
  · simp only [h.step_frozen hf, fetchStall, hw]
  · simp only [h.step_frozen hf, fetchStall, hw]

end Sys2Proof.Machine
end

section
/-!
PROOFS, part 2. The reset state, and S instructions that act on registers, spill slots, queues and CSRs.
-/
namespace Sys2Proof.Machine

/-- Settles O9: every table is empty at reset, so that each unit reads as its own reset record. -/
theorem resetState : Obligations.ResetState :=
  ⟨reset_mem_wf, rfl, rfl, rfl, rfl, rfl, fun _ => ⟨rfl, rfl, rfl⟩, fun _ => ⟨rfl, rfl, rfl⟩, fun _ => ⟨rfl, rfl⟩, fun _ => ⟨rfl, rfl⟩,
    fun _ => ⟨rfl, rfl, rfl⟩⟩

/-! ### S arithmetic -/

/-- `i` computes from registers: it writes one value to `d`, the first of the registers it names; a division may set DZ. -/
def Computes (i : Instr) (d : BitVec 6) (rest : List (BitVec 6)) : Prop :=
  ∃ (v : Job → Word) (fl : Job → BitVec 9), (∀ s, exec i s = sPure s (d :: rest) (fun j => (j.setS d (v j)).orFlags (fl j))) ∧
    ∀ j, fl j = 0 ∨ isDivision i = true ∧ fl j = flagDZ

@[simp] theorem Job.orFlags_zero (j : Job) : j.orFlags 0 = j := by simp [Job.orFlags]

theorem computes_of_setS {i : Instr} {d : BitVec 6} {rest : List (BitVec 6)} {v : Job → Word}
    (hx : ∀ s, exec i s = sPure s (d :: rest) (fun j => j.setS d (v j))) : Computes i d rest :=
  ⟨v, fun _ => 0, by simpa only [Job.orFlags_zero] using hx, fun _ => .inl rfl⟩

theorem computes_of_division {i : Instr} {d a b : BitVec 6} {f : Word → Word → Word} (hx : ∀ s, exec i s = alu3Div s d a b f)
    (hi : isDivision i = true) : Computes i d [a, b] := by
  refine ⟨fun j => f (j.s a) (j.s b), fun j => flIf (j.s b == 0) flDZ, hx, fun j => ?_⟩
  simp only [flIf]
  split
  · exact .inr ⟨hi, rfl⟩
  · exact .inl rfl

/-- Each of the 31 instructions that `aluRegs` lists computes from registers. -/
theorem computes_of_aluRegs {i : Instr} {d : BitVec 6} {rest : List (BitVec 6)} (h : aluRegs i = some (d :: rest)) : Computes i d rest := by
  cases i with
  | div d a b | divu d a b | rem d a b | remu d a b =>
    cases h
    exact computes_of_division (fun _ => rfl) rfl
  | add d a b | sub d a b | and d a b | or d a b | xor d a b | shl d a b | shr d a b | sra d a b | mul d a b | mulh d a b | mulhu d a b
  | min d a b | max d a b | minu d a b | maxu d a b | sel d a b p | clz d a | popc d a | addi d a n | andi d a n | ori d a n | xori d a n
  | shli d a n | shri d a n | srai d a n | movi d n | shin d n =>
    cases h
    exact computes_of_setS fun _ => rfl
  | _ => cases h

/-- With tracing off, retiring only replaces the job of the slot. -/
theorem retired_off {s : State} {k : Nat} {j j' : Job} (h : TraceOff s j.fdom) : retired s k j j' =
    setJob s k { j' with core := { j'.core with S := { j'.core.S with seq := j.core.S.seq + 1 } }, pend := .none } := by
  rw [retired, traceWord, traceRecord_off h]

/-- Outside the S registers and the flags, a register write that sets flags and moves on leaves the job as it was. -/
theorem Job.setS_orFlags_next_frame (j : Job) (d : BitVec 6) (v : Word) (f : BitVec 9) :
    { ((j.setS d v).orFlags f).next with core := { ((j.setS d v).orFlags f).next.core with S := j.core.S, flags := j.core.flags } } = j := by
  unfold Job.setS
  split <;> rfl

/-- Settles O16: the instruction is a register write with its flag, whose frame is `setS`'s. -/
theorem arithmeticFrame : Obligations.ArithmeticFrame := by
  intro i d rest s t k j hi h hp ht he
  obtain ⟨v, fl, hx, hfl⟩ := computes_of_aluRegs hi
  have hr := sPure_ready h (fun j => (j.setS d (v j)).orFlags (fl j))
  rw [← hx, he, retired_off ht] at hr
  cases hr
  refine ⟨_, jobAt_setJob_self _ _ _, ?_, ?_, ?_, rfl, ?_, ?_, ?_, fun n hn => jobAt_setJob_ne s _ hn, rfl⟩
  · exact fun r hr => Job.s_setS_ne j (v j) hr
  · exact fun p => Job.p_setS j d (v j) p
  · show (j.setS d (v j)).core.S.pc + 4 = j.core.S.pc + 4
    simp
  · intro hd
    have hz : fl j = 0 := (hfl j).resolve_right fun ⟨h1, _⟩ => by simp [hd] at h1
    show (j.setS d (v j)).core.flags ||| fl j = j.core.flags
    simp [hz]
  · show (j.setS d (v j)).core.flags ||| fl j = _ ∨ (j.setS d (v j)).core.flags ||| fl j = _
    rcases hfl j with hz | ⟨-, hz⟩ <;> simp [hz]
  · have hf := Job.setS_orFlags_next_frame j d (v j) (fl j)
    exact (congrArg (fun q : Job => { q with pend := .none }) hf).trans (congrArg (fun p => { j with pend := p }) hp.symm)

/-- Settles O17: `Job.s` and `Job.p` read register 0 as a constant, `setS` and `setP` skip it. -/
theorem hardwiredZeroAndTrue : Obligations.HardwiredZeroAndTrue :=
  ⟨fun j => ⟨j.s_zero, j.p_zero⟩, fun s k j a b i h =>
    ⟨sPure_ready h (fun j => j.setS 0 (j.s a + j.s b)), sPure_ready (h.sub (by simp)) (fun j => j.setP 0 (cmpCond 0 (j.s a) (j.s b))),
      sPure_ready (h.sub (by simp)) (fun j => j.setS 0 (j.s a + immS i))⟩⟩

/-! ### Spill store -/

theorem spillDec_none {n : BitVec 9} {j : Job} (h : n.toNat < j.nSpill) : spillDec n j = none := by rw [spillDec, if_pos h]

/-- A slot beyond the header fails the decode check, after the registers have passed theirs. -/
theorem sDecode_spill {n : BitVec 9} {j : Job} {regs : List (BitVec 6)} (hr : ∀ r ∈ regs, j.sOk r = true) (h : j.nSpill ≤ n.toNat) :
    sDecode j regs (spillDec n) = some (0x02, n.toNat) := by
  simp [sDecode, spillDec, Nat.not_lt.mpr h, sBad_none hr]

/-- Settles O19: below the header's bound both instructions retire with their effect, beyond it the decode check traps. -/
theorem spillStore : Obligations.SpillStore := by
  intro s k j d n
  refine ⟨fun h hn => ?_, fun h hn => ?_, fun h hn => ?_, fun h hn => ?_⟩
  · show execSpl d n s = _
    exact sExec_retire h (spillDec_none hn) rfl
  · have hx : execSps d n s = _ := sExec_retire h (spillDec_none hn) rfl
    refine ⟨_, _, hx, jobAt_retired_self _ _ _ _, rfl, rfl, fun m => ?_, fun _ => rfl⟩
    show smGetD (smSet j.core.spill n.toNat (j.s d)) m 0 = _
    split
    · subst m; exact smGetD_smSet_self _ _ _ _
    · exact smGetD_smSet_ne _ _ _ (by assumption)
  · show execSpl d n s = _
    exact sExec_dec h.turn h.here h.level (sDecode_spill h.named hn)
  · show execSps d n s = _
    exact sExec_dec h.turn h.here h.level (sDecode_spill h.named hn)

/-! ### Queues -/

theorem queueDec_none {ok : Nat → Bool} {q : BitVec 6} {j : Job} (ho : ok q.toNat = true) (hq : j.qmap q.toNat = true) : queueDec ok q j = none := by
  simp [queueDec, ho, hq]

/-- A queue of the other direction traps before the registers are looked at. -/
theorem sDecode_queue_direction {ok : Nat → Bool} {q : BitVec 6} {j : Job} {regs : List (BitVec 6)} (ho : ok q.toNat = false) :
    sDecode j regs (queueDec ok q) = some (0x0A, q.toNat) := by
  simp [sDecode, queueDec, ho]

/-- A queue that QMAP does not list traps once the registers have passed. -/
theorem sDecode_queue_map {ok : Nat → Bool} {q : BitVec 6} {j : Job} {regs : List (BitVec 6)} (hr : ∀ r ∈ regs, j.sOk r = true)
    (ho : ok q.toNat = true) (hq : j.qmap q.toNat = false) : sDecode j regs (queueDec ok q) = some (0x02, q.toNat) := by
  simp [sDecode, queueDec, ho, hq, sBad_none hr]

/-- Reading a queue that has just been written. -/
theorem getD_setIfInbounds_self {α : Type} {n i : Nat} (v : Vector (List α) n) (h : i < n) (l : List α) :
    (v.setIfInBounds i l).toList.getD i [] = l := by
  simp [List.getD, h]

theorem Job.queue_qPush_self (j : Job) {q : Nat} (h : q < 16) (v : Word) : (j.qPush q v).queue q = j.queue q ++ [v] :=
  getD_setIfInbounds_self _ h _

theorem Job.queue_qPop_self (j : Job) {q : Nat} (h : q < 16) : (j.qPop q).queue q = (j.queue q).drop 1 :=
  getD_setIfInbounds_self _ h _

/-- What a popped entry shows S leaves the queues alone. -/
theorem Job.popShows_queue (j : Job) (q n : Nat) : (j.popShows q).queue n = j.queue n := by
  unfold Job.popShows
  extract_lets c
  split <;> rfl

/-- S pops the oldest entry of a queue: with no replay and no trace it takes the value as it stands. -/
theorem qpop_retires {s : State} {k : Nat} {j : Job} {d q : BitVec 6} {v : Word} {l : List Word} (h : SReady s k j sJob [d])
    (ht : TraceOff s j.fdom) (hr : j.replay = none) (hq : 12 ≤ q.toNat) (hm : j.qmap q.toNat = true) (hl : j.queue q.toNat = v :: l) :
    Runs (.qpop d q) s (retired s k j
      (((if q = 15 then ((j.popShows q.toNat).qPop q.toNat).statusFreed.drainStatus else (j.popShows q.toNat).qPop q.toNat)).setS d v).next) := by
  show execQpop d q s = _
  refine sExec_retire h (queueDec_none (by simpa using hq) hm) ?_
  simp only [hl, takeIn_off ht hr, List.isEmpty_cons, Bool.false_and, Bool.false_eq_true, if_false, List.headD_cons, ite_self,
    BitVec.ofNat_toNat, BitVec.setWidth_eq]

/-- Settles O20: direction and QMAP are the decode check; then the instruction waits or retires by the queue's occupancy. -/
theorem queueInstructions : Obligations.QueueInstructions := by
  intro s k j r q h ht hr
  have hreg : SReady s k j sReg [r] := ⟨h.turn, h.here, h.level.imp_right nofun, .inr rfl, h.named, h.count⟩
  have hdec {dec : Job → Option (Nat × Nat)} {c v : Nat} {f : Nat → Job → SRes} (hd : sDecode j [r] dec = some (c, v)) :
      sExec s sJob [r] dec f = .next (takeTrap s k .S c v) := sExec_dec h.turn h.here h.level hd
  refine ⟨fun hq hm hf => ⟨?_, ?_⟩, fun hq hm hf => ?_, fun v l hq hq' hm hl => ⟨?_, ?_⟩, fun v l hq hm hl => ⟨?_, ?_⟩, fun hq hq' hm hl => ?_,
    fun hq hm => ?_, fun hq hq' => ?_, fun hq => ?_, fun hq hm => ?_, fun hq hq' hm => ?_, fun hm => ?_⟩
  · show execQpush r q s = _
    exact sExec_retire h (queueDec_none (by simpa using hq) hm) (if_neg (by simp [hf]))
  · exact j.queue_qPush_self (by omega) _
  · have hw : execQpush r q s = .next (setJob s k j) := sExec_wait h (queueDec_none (by simpa using hq) hm) (if_pos hf)
    rwa [setJob_same h.here] at hw
  · have hp := qpop_retires h ht hr hq hm hl
    rwa [if_neg (by rintro rfl; exact absurd hq' (by decide))] at hp
  · simp [Job.queue_qPop_self _ (show q.toNat < 16 by omega), Job.popShows_queue, hl]
  · subst hq
    exact qpop_retires h ht hr (by decide) hm hl
  · simp [Job.queue_qPop_self _ (show 15 < 16 by omega), Job.popShows_queue, hl]
  · have hw : execQpop r q s = .next (setJob s k j) :=
      sExec_wait h (queueDec_none (by simpa using hq) hm) (if_pos (by simp [hl, hr]))
    rwa [setJob_same h.here] at hw
  · show execQcnt r q s = _
    refine sExec_retire hreg (queueDec_none rfl hm) ?_
    simp only [takeIn_off ht hr]
  · show execQpush r q s = _
    exact hdec (sDecode_queue_direction (by simpa using hq))
  · show execQpop r q s = _
    exact hdec (sDecode_queue_direction (by simpa using hq))
  · show execQpush r q s = _
    exact hdec (sDecode_queue_map h.named (by simpa using hq) hm)
  · show execQpop r q s = _
    exact hdec (sDecode_queue_map h.named (by simpa using hq) hm)
  · show execQcnt r q s = _
    exact sExec_dec h.turn h.here hreg.level (sDecode_queue_map h.named rfl hm)

/-! ### Control and status registers -/

/-- Settles O35: permission and LEASEB's bound are the first two branches of CSRW, the write its third; the values are `csrRead`'s rows. -/
theorem controlRegisters : Obligations.ControlRegisters := by
  intro s k j d a c
  refine ⟨fun h ht hr => ?_, fun h hro hh hb => ?_, fun h hp => ?_, fun h hl hb => ?_, rfl, rfl, rfl, rfl, rfl, fun v => ⟨rfl, rfl, rfl, ?_⟩⟩
  · show execCsrr d c s = _
    refine sExec_retire h rfl ?_
    simp only [takeIn_off ht hr]
  · show execCsrw a c s = _
    refine sExec_retire h rfl ?_
    have h1 : ¬ (csrRo c.toNat || (csrH c.toNat && j.level == .job)) = true := by
      simp only [hro, Bool.false_or, Bool.and_eq_true, beq_iff_eq, not_and]
      intro hc hj
      rw [hh hc] at hj
      exact nomatch hj
    have h2 : ¬ (c.toNat = 0x070 ∧ j.level = .job ∧ (j.s a = 0 ∨ j.leaseMax < (j.s a).toNat)) := by
      rintro ⟨hc, hj, hv⟩
      obtain ⟨h0, hm⟩ := hb hc hj
      rcases hv with hv | hv
      · exact h0 hv
      · omega
    simp only [if_neg h1, if_neg h2]
  · show execCsrw a c s = _
    refine sExec_trap h rfl (if_pos ?_)
    rcases hp with hp | ⟨hc, hj⟩
    · simp [hp]
    · simp [hc, hj]
  · show execCsrw a 0x070 s = _
    refine sExec_trap h rfl ?_
    have h1 : ¬ (csrRo (0x070 : BitVec 12).toNat || (csrH (0x070 : BitVec 12).toNat && j.level == .job)) = true := by
      simp [show csrRo 0x070 = false by decide, show csrH 0x070 = false by decide]
    exact (if_neg h1).trans (if_pos ⟨rfl, hl, hb⟩)
  · simp [csrShared]

end Sys2Proof.Machine
end

section
/-!
PROOFS, part 3. Hardware loops.
-/
namespace Sys2Proof.Machine

/-! ### A LOOP word is no vector word -/

theorem loop_vectorGo (s : State) (k : Nat) (j : Job) (e : EStream) (w : EWord) : vectorGo s k j (.loop e w) = true := by
  obtain ⟨hlt, hc, -, -⟩ := Laws.RoundTrip.decodeEWord_enc 0 0xF6 (by omega) (by omega) w
  have hv : isVector (.loop e w) = false := by
    show (w.enc 0 0xF6 / 2 ^ 94 == 1) = false
    simp only [bits] at hc
    rw [beq_eq_false_iff_ne]
    omega
  simp [vectorGo, hv]

/-! ### The end of a loop -/

/-- A loop whose last slot has issued with passes left goes back to its first slot. -/
theorem loopEnd_back {g : Eng} {t : LoopEnt} {r : List LoopEnt} (hg : g.loops = t :: r) (hr : 1 < t.remaining) (pc : Word) (n : Nat) :
    loopEnd g t.last pc (n + 1) = ({ g with pc := t.first, loops := { t with remaining := t.remaining - 1 } :: r }, 0) := by
  simp only [loopEnd, hg]
  rw [if_pos trivial, if_pos hr]

/-- After its last pass a loop is left, and the stream goes on. -/
theorem loopEnd_exit {g : Eng} {t : LoopEnt} {r : List LoopEnt} (hg : g.loops = t :: r) (hr : t.remaining ≤ 1)
    (hn : NoLoopEnd { g with loops := r } t.last) (pc : Word) (n : Nat) :
    loopEnd g t.last pc (n + 1) = ({ g with pc := pc, loops := r }, 1) := by
  simp only [loopEnd, hg]
  rw [if_pos trivial, if_neg (by omega), loopEnd_none hn]

/-- Retiring at issue leaves in the stream what the loop end answers. -/
theorem eRetireNow_eng {s : State} {k : Nat} {j : Job} {e : EStream} {tok : BitVec 4} {wpc last pc : Word} {seq : Nat} :
    ∃ j', jobAt (eExec.eRetireNow s k j e tok wpc last pc seq) k = some j' ∧ j'.eng e = (loopEnd { j.eng e with seq := seq } last pc 4).1 := by
  refine ⟨_, jobAt_setJob_same _ _ _, ?_⟩
  simp only [advance, eng_setEng, (tokRetire_queues j e tok).eng]

/-! ### What LOOP plans -/

section
variable {e : EStream} {w : EWord} {s : State} {k : Nat} {j : Job} {c : Word}

/-- The last slot of the body of the LOOP word `w` (R238). -/
def bodyLast (j : Job) (e : EStream) (w : EWord) : Word := (j.eng e).pc + BitVec.ofNat 64 (12 * (w.func.toNat % 65536 + 1))

theorem loop_big (hc : 2 ^ 32 ≤ c.toNat) : (planLoop e w).f s k j [c] = .trap 0x01 (wordBits (.loop e w) % 2 ^ 64) := if_pos hc

theorem loop_zero : (planLoop e w).f s k j [0] = skipBody e (j.eng e) (bodyLast j e w) := rfl

/-- A count from 1 to 2^32 − 1 passes the first two checks of LOOP. -/
theorem loop_counts (h0 : 0 < c.toNat) (hc : c.toNat < 2 ^ 32) : (planLoop e w).f s k j [c] =
    if 4 ≤ (j.eng e).loops.length then .trap 0x01 (wordBits (.loop e w) % 2 ^ 64)
    else if (match (j.eng e).loops with | t :: _ => decide (t.last.toNat < (bodyLast j e w).toNat) | [] => false) then
      .trap 0x01 (wordBits (.loop e w) % 2 ^ 64)
    else .now (fun q => q.setEng e { q.eng e with loops := ⟨(j.eng e).pc + 12, bodyLast j e w, c.toNat⟩ :: (q.eng e).loops }) :=
  (if_neg (Nat.not_le.mpr hc)).trans (if_neg (Nat.pos_iff_ne_zero.mp h0))

theorem loop_deep (h0 : 0 < c.toNat) (hc : c.toNat < 2 ^ 32) (hl : 4 ≤ (j.eng e).loops.length) :
    (planLoop e w).f s k j [c] = .trap 0x01 (wordBits (.loop e w) % 2 ^ 64) := by
  rw [loop_counts h0 hc, if_pos hl]

theorem loop_outside {t : LoopEnt} {r : List LoopEnt} (h0 : 0 < c.toNat) (hc : c.toNat < 2 ^ 32) (hl : (j.eng e).loops = t :: r)
    (ht : t.last.toNat < (bodyLast j e w).toNat) : (planLoop e w).f s k j [c] = .trap 0x01 (wordBits (.loop e w) % 2 ^ 64) := by
  rw [loop_counts h0 hc, hl]
  simp only [ht, decide_true, if_true, ite_self]

theorem loop_push (h0 : 0 < c.toNat) (hc : c.toNat < 2 ^ 32) (hl : (j.eng e).loops.length < 4)
    (hb : ∀ t r, (j.eng e).loops = t :: r → (bodyLast j e w).toNat ≤ t.last.toNat) :
    (planLoop e w).f s k j [c] =
      .now (fun q => q.setEng e { q.eng e with loops := ⟨(j.eng e).pc + 12, bodyLast j e w, c.toNat⟩ :: (q.eng e).loops }) := by
  rw [loop_counts h0 hc, if_neg (Nat.not_le.mpr hl), if_neg]
  cases he : (j.eng e).loops with
  | nil => simp
  | cons t r => simpa using hb t r he
end

/-! ### A count of zero -/

/-- No loop ends at the LOOP: it skips its body and the loops stay. -/
theorem skipBody_none {e : EStream} {g : Eng} {last : Word} (h : NoLoopEnd g g.pc) :
    skipBody e g last = .jump (fun j => j.setEng e { j.eng e with loops := g.loops }) last (last + 12) := by
  unfold skipBody
  cases hl : g.loops with
  | nil => rfl
  | cons t r =>
    have ht : t.last ≠ g.pc := h t r hl
    simp [ht]

/-- The enclosing loop ends at the LOOP and goes on. -/
theorem skipBody_back {e : EStream} {g : Eng} {last : Word} {t : LoopEnt} {r : List LoopEnt} (hl : g.loops = t :: r) (ht : t.last = g.pc)
    (hr : 1 < t.remaining) : skipBody e g last = .jump id g.pc (last + 12) := by
  have h1 : ¬ t.remaining ≤ 1 := by omega
  simp [skipBody, hl, ht, h1]

/-- The enclosing loop ends at the LOOP with its last pass: its last slot is the body's. -/
theorem skipBody_exit {e : EStream} {g : Eng} {last : Word} {t : LoopEnt} {r : List LoopEnt} (hl : g.loops = t :: r) (ht : t.last = g.pc)
    (hr : t.remaining ≤ 1) (hn : NoLoopEnd { g with loops := r } g.pc) :
    skipBody e g last = .jump (fun j => j.setEng e { j.eng e with loops := { t with last := last } :: r }) last (last + 12) := by
  cases r with
  | nil => simp [skipBody, hl, ht, hr]
  | cons u q =>
    have hu : u.last ≠ g.pc := hn u q rfl
    simp [skipBody, hl, ht, hr, hu]

@[simp] theorem setEng_eng_self (j : Job) (e : EStream) : j.setEng e (j.eng e) = j := by cases e <;> rfl

/-- What a LOOP that moves its stream leaves in the stream. -/
theorem loop_jump {e : EStream} {w : EWord} {s : State} {k : Nat} {j : Job} {g : Job → Job} {l pc : Word} (h : EReady s k j e w.tok (planLoop e w))
    (hf : (planLoop e w).f s k (issuing j e w.tok (planLoop e w)) (wordOps j e (planLoop e w)) = .jump g l pc) :
    ∃ s' j', Runs (.loop e w) s s' ∧ jobAt s' k = some j' ∧
      j'.eng e = (loopEnd { (g (eIssue j e w.tok (planLoop e w).d)).eng e with seq := nextSeq j e } l pc 4).1 := by
  obtain ⟨j', h1, h2⟩ := eRetireNow_eng (s := s) (k := k) (j := g (eIssue j e w.tok (planLoop e w).d)) (e := e) (tok := w.tok)
    (wpc := (j.eng e).pc) (last := l) (pc := pc) (seq := nextSeq j e)
  refine ⟨_, j', ?_, h1, h2⟩
  show eExec s e (.loop e w) w.tok (planLoop e w) = _
  rw [eExec_ready h (loop_vectorGo s k j e w), hf]

/-- Settles O38: `planLoop`'s branches by the count and the enclosing loop, each with the loop end that follows it. -/
theorem hardwareLoops : Obligations.HardwareLoops := by
  refine ⟨fun e w s k j c h hv => ?_, fun g t r pc n hg hr => loopEnd_back hg hr pc n, fun g t r pc n hg hr hn => loopEnd_exit hg hr hn pc n⟩
  have hgo := loop_vectorGo s k j e w
  have hloops : ∀ d, ((eIssue j e w.tok d).eng e).loops = (j.eng e).loops := fun d => by
    rw [eIssue_eng]; exact (postInc_keeps _ _).2.2
  have hbody : bodyLast (issuing j e w.tok (planLoop e w)) e w = bodyLast j e w := by simp [bodyLast]
  have hzero : c = 0 → (planLoop e w).f s k (issuing j e w.tok (planLoop e w)) (wordOps j e (planLoop e w)) =
      skipBody e (j.eng e) (bodyLast j e w) := by
    rintro rfl
    rw [hv, loop_zero, hbody, issuing_eng]
  have htrap : (planLoop e w).f s k (issuing j e w.tok (planLoop e w)) [c] = .trap 0x01 (wordBits (.loop e w) % 2 ^ 64) →
      Runs (.loop e w) s (takeTrap s k e.toStream 0x01 (wordBits (.loop e w) % 2 ^ 64)) := fun hf => traps_of h hgo rfl (by rw [hv, hf])
  refine ⟨fun h0 hc hl hb => ?_, fun h0 hn => ?_, fun t r h0 hl ht hr => ?_, fun t r h0 hl ht hr hn hn' => ?_,
    fun hc => htrap (loop_big hc), fun h0 hc hl => htrap (loop_deep h0 hc (by simpa using hl)), fun t r h0 hc hl ht => htrap ?_⟩
  · have hf := loop_push (s := s) (k := k) (j := issuing j e w.tok (planLoop e w)) (w := w) h0 hc (by simpa using hl) (by simp only [hbody, issuing_eng]; exact hb)
    rw [hbody, issuing_eng] at hf
    exact now_of h hgo rfl (by rw [hv, hf]; rfl)
  · have hj := jump_of h hgo rfl ((hzero h0).trans (skipBody_none hn))
    unfold RetiresNow at hj ⊢
    have : (fun q : Job => q.setEng e { q.eng e with loops := (j.eng e).loops }) (eIssue j e w.tok (planLoop e w).d) =
        id (eIssue j e w.tok (planLoop e w).d) := by
      simp only [← hloops (planLoop e w).d, id]
      exact setEng_eng_self _ _
    rwa [this] at hj
  · obtain ⟨s', j', h1, h2, h3⟩ := loop_jump h ((hzero h0).trans (skipBody_back hl ht hr))
    rw [← ht, loopEnd_back (g := { (id (eIssue j e w.tok (planLoop e w).d)).eng e with seq := nextSeq j e }) ((hloops _).trans hl) hr] at h3
    exact ⟨s', j', h1, h2, by rw [h3], by rw [h3], by rw [h3]⟩
  · obtain ⟨s', j', h1, h2, h3⟩ := loop_jump h ((hzero h0).trans (skipBody_exit hl ht hr hn))
    rw [eng_setEng, loopEnd_exit (t := { t with last := bodyLast j e w }) rfl hr] at h3
    · exact ⟨s', j', h1, h2, by rw [h3], by rw [h3]; rfl, by rw [h3]⟩
    · exact hn'
  · exact loop_outside h0 hc (by simpa using hl) (by rw [hbody]; exact ht)

end Sys2Proof.Machine
end

section
/-!
PROOFS, part 5. Retirement of X words.
-/
namespace Sys2Proof.Machine

/-! ### What an X word lands -/

/-- What an effect lands in the job: the window, the masks and the fields below, nothing else (R156, R191). -/
theorem land_core (j : Job) (e : Effect) : ∃ w m, (j.land e).core =
    { j.core with
      win := w, masks := m, accs := e.accs.foldl (fun m a => smPut Acc.reset m a.1 a.2) j.core.accs
      slots := e.slots.foldl (fun m a => match a.2 with | some v => smSet m a.1 v | none => smErase m a.1) j.core.slots
      flags := j.core.flags ||| e.flags, elog := e.elogs.foldl elogAdd j.core.elog
      vs := e.vs.getD j.core.vs, ms := e.ms.getD j.core.ms, thr := e.thr.getD j.core.thr } := by
  unfold Job.land
  cases e.mask with
  | none => exact ⟨_, _, rfl⟩
  | some x =>
    by_cases hn : x.1 = 0
    · simp only [if_pos hn]
      exact ⟨_, _, rfl⟩
    · simp only [if_neg hn]
      exact ⟨_, _, rfl⟩

theorem land_mask {j : Job} {e : Effect} {n : Nat} {v : BitVec 2048} (he : e.mask = some (n, v)) (h0 : 0 < n) (h8 : n < 8) :
    (j.land e).core.masks.toList.getD n 0 = v := by
  have hn : ¬ n = 0 := by omega
  simp only [Job.land, he, if_neg hn]
  simp [List.getD, h8]

@[simp] theorem land_uid (j : Job) (e : Effect) : (j.land e).uid = j.uid := rfl

/-- The window accesses of an X word change the window, where an unordered access shares its bytes, and what is noted of accesses. -/
theorem winUse_core (j : Job) (fresh n : Nat) (know : VC) (spans : List (Int × Nat)) (w : Bool) :
    ∃ win acc, (j.winUse fresh .X n know spans w).core = { j.core with win := win, wacc := acc } ∧
      ((∀ y ∈ j.core.wacc, y.loose (winKey j.uid .X) know = false) → win = j.core.win) := by
  have hX : (j.winUse fresh .X n know spans w).core.X = j.core.X := winUse_eng j fresh .X n know spans w
  refine ⟨(j.winUse fresh .X n know spans w).core.win, (j.winUse fresh .X n know spans w).core.wacc, ?_, fun h => ?_⟩
  · show _ = { j.core with
      X := j.core.X, win := (j.winUse fresh .X n know spans w).core.win, wacc := (j.winUse fresh .X n know spans w).core.wacc }
    rw [← hX]
    rfl
  · have hit : j.core.wacc.filter (fun r => r.loose (winKey j.uid .X) know && (w || r.write)) = [] :=
      List.filter_eq_nil_iff.mpr fun r hr => by simp [h r hr]
    simp only [Job.winUse, Job.winTouch, hit, List.foldl_nil]

/-! ### Entries and tokens of a retiring word -/

/-- `j'` differs from `j` in its queues and tokens, and in what is noted outside the core. -/
def CoreQueuesOnly (j j' : Job) : Prop := ∃ q, j'.core = { j.core with Q := q }

theorem CoreQueuesOnly.refl (j : Job) : CoreQueuesOnly j j := ⟨j.core.Q, rfl⟩

theorem CoreQueuesOnly.trans {a b c : Job} (h : CoreQueuesOnly a b) (g : CoreQueuesOnly b c) : CoreQueuesOnly a c := by
  obtain ⟨x, hx⟩ := h
  obtain ⟨y, hy⟩ := g
  exact ⟨y, by rw [hy, hx]⟩

/-- A place of q12 becomes an entry: what `Job.retireX` does with each of a word's entries. -/
def Job.pushX (j : Job) (v : Word) : Job := ((j.qRes 12 false).qPush 12 v).post 12 3

theorem pushX_core (j : Job) (v : Word) : CoreQueuesOnly j (j.pushX v) := ⟨_, rfl⟩

theorem pushX_queue (j : Job) (v : Word) : (j.pushX v).queue 12 = j.queue 12 ++ [v] := (j.qRes 12 false).queue_qPush_self (by omega) v

theorem pushXs (l : List Word) : ∀ j : Job, CoreQueuesOnly j (l.foldl Job.pushX j) ∧ (l.foldl Job.pushX j).queue 12 = j.queue 12 ++ l := by
  induction l with
  | nil => exact fun j => ⟨.refl j, (List.append_nil _).symm⟩
  | cons v r ih =>
    intro j
    obtain ⟨h1, h2⟩ := ih (j.pushX v)
    refine ⟨(pushX_core j v).trans h1, ?_⟩
    rw [List.foldl_cons, h2, pushX_queue, List.append_assoc, List.singleton_append]

/-- One token of a retiring word leaves the queues alone. -/
theorem setTok_setTk_core (j : Job) (f n m : Nat) (l : List VC) :
    CoreQueuesOnly j ((j.setTok f n m).setTk f l) ∧ ∀ q, ((j.setTok f n m).setTk f l).queue q = j.queue q := ⟨⟨_, rfl⟩, fun _ => rfl⟩

theorem tokRetire_core (j : Job) (e : EStream) (t : BitVec 4) :
    CoreQueuesOnly j (j.tokRetire e t) ∧ ∀ q, (j.tokRetire e t).queue q = j.queue q := by
  unfold Job.tokRetire
  induction tokPushes e t generalizing j with
  | nil => exact ⟨.refl j, fun _ => rfl⟩
  | cons f r ih =>
    have h := setTok_setTk_core j f (j.tok f + 1) (j.tokRes f - 1) (j.tk f ++ [j.knowDone e (j.seq e.toStream + 1)])
    have hr := ih ((j.setTok f (j.tok f + 1) (j.tokRes f - 1)).setTk f (j.tk f ++ [j.knowDone e (j.seq e.toStream + 1)]))
    exact ⟨h.1.trans hr.1, fun q => (hr.2 q).trans (h.2 q)⟩

/-! ### Retirement -/

/-- SEQX counts the oldest word of X, which is no longer in flight. -/
def JobCore.countX (c : JobCore) : JobCore := { c with X := { c.X with seq := c.X.seq + 1, inflight := c.X.inflight.drop 1 } }

theorem retireX_eq (fresh : Nat) (j : Job) (i : InFlight) : (j.retireX fresh i).core = JobCore.countX
    ((i.eff.push.foldl Job.pushX ((j.land i.eff).winUse fresh .X i.seq i.know (cellSpans (i.eff.win.map (fun c => c.1))) true)).tokRetire .X
      (tokBits i.word)).core := rfl

/-- A retiring X word lands, uses the window, fills its places of q12 and counts. -/
theorem retireX_core (fresh : Nat) (j : Job) (i : InFlight) : ∃ win acc q, (j.retireX fresh i).core =
    { (j.land i.eff).core with
      win := win, wacc := acc, Q := q, X := { j.core.X with seq := j.core.X.seq + 1, inflight := j.core.X.inflight.drop 1 } } ∧
    ((∀ y ∈ j.core.wacc, y.loose (winKey j.uid .X) i.know = false) → win = (j.land i.eff).core.win) ∧
    q.q.toList.getD 12 [] = j.queue 12 ++ i.eff.push := by
  obtain ⟨w, m, hl⟩ := land_core j i.eff
  obtain ⟨win, acc, hw, hwin⟩ := winUse_core (j.land i.eff) fresh i.seq i.know (cellSpans (i.eff.win.map (fun c => c.1))) true
  obtain ⟨⟨q1, hq1⟩, hp⟩ := pushXs i.eff.push ((j.land i.eff).winUse fresh .X i.seq i.know (cellSpans (i.eff.win.map (fun c => c.1))) true)
  obtain ⟨⟨q2, hq2⟩, ht⟩ := tokRetire_core
    (i.eff.push.foldl Job.pushX ((j.land i.eff).winUse fresh .X i.seq i.know (cellSpans (i.eff.win.map (fun c => c.1))) true)) .X (tokBits i.word)
  refine ⟨win, acc, q2, ?_, fun h => hwin (by rw [hl]; exact h), ?_⟩
  · rw [retireX_eq, hq2, hq1, hw, hl]
    rfl
  · have h12 := (ht 12).trans hp
    simp only [Job.queue] at h12 ⊢
    rw [hq2, hw, hl] at h12
    exact h12

@[simp] theorem fenceNote_core (j : Job) (e : EStream) : (fenceNote j e).core = j.core := by
  unfold fenceNote
  split
  · extract_lets p
    split <;> rfl
  · rfl

/-- Retiring the oldest word of X leaves in the slot the job that has retired it. -/
theorem retireXWord_job {s : State} {k : Nat} {j : Job} {x : InFlight} {r : List InFlight} (hj : jobAt s k = some j)
    (hx : j.core.X.inflight = x :: r) : ∃ fresh, jobAt (retireXWord s k) k = some (fenceNote (j.retireX fresh x) .X) := by
  simp only [retireXWord, hj, hx]
  exact ⟨_, jobAt_setJob_self _ _ _⟩

/-- Settles O41: both events retire the oldest word by `retireXWord`, whose job is `retireX`'s. -/
theorem xWordsLand : Obligations.XWordsLand := by
  intro s k j x r hj hp hx lands
  have hl : lands (retireXWord s k) := by
    obtain ⟨fresh, ht⟩ := retireXWord_job hj hx
    obtain ⟨win, acc, q, hc, hwin, hq⟩ := retireX_core fresh j x
    obtain ⟨w, m, hland⟩ := land_core j x.eff
    refine ⟨_, ht, ?_, ?_, ?_, ?_, ?_, ?_, ?_, ?_, ?_, ?_, ?_, ?_, ?_, ?_⟩
    all_goals simp only [fenceNote_core, Job.queue, hc]
    · rw [hx]; rfl
    · rw [hland]
    · exact hq
    · exact hwin
    · exact fun n v => land_mask
    all_goals rw [hland]
  constructor
  · intro hv
    refine ⟨_, ?_, hl⟩
    show execVectorWordRetire k s = _
    simp only [execVectorWordRetire, hj, hp, hv, and_self, if_true]
  · intro hv hd
    refine ⟨_, ?_, hl⟩
    show execMatrixWordRetire k s = _
    simp only [execMatrixWordRetire, hj, hx, hp, hv, hd, and_self, if_true]

end Sys2Proof.Machine
end

/-!
PROOFS, part 6. What every operation of the model keeps: memories in canonical form and one job per slot, by a lemma per operation. `Keeps s t` says
that both pass from `s` to `t`; a lemma `f_keeps` says that applying `f` loses neither, whatever state the work began in.
-/
section
namespace Sys2Proof.Machine

/-- Canonical memories and one job per slot pass from `s` to `t`. -/
structure Keeps (s t : State) : Prop where
  mem : MemOk s → MemOk t
  slots : SlotsOk s → SlotsOk t

theorem Keeps.refl (s : State) : Keeps s s := ⟨id, id⟩

/-- New memories in canonical form. -/
theorem Keeps.of_mem {o s t : State} (h : Keeps o s) (hj : t.jobs = s.jobs) (hm : MemOk s → MemOk t) : Keeps o t :=
  ⟨fun x => hm (h.1 x), fun x => by unfold SlotsOk; rw [hj]; exact h.2 x⟩

/-- A new table of jobs with one job per slot. -/
theorem Keeps.of_jobs {o s t : State} (h : Keeps o s) (hm : t.M.mem = s.M.mem) (hh : t.M.host = s.M.host) (hj : SlotsOk s → SlotsOk t) :
    Keeps o t :=
  ⟨fun x => by unfold MemOk; rw [hm, hh]; exact h.1 x, fun x => hj (h.2 x)⟩

/-- An update of the state beside its jobs and its memory system. -/
theorem keeps_upd {o s : State} (h : Keeps o s)
    {x1 x2 x3 x4 x5 x6 x7 x8 x9 x10 x12 x13 x14 x15 x16 x17 x18 x19 x21 x22 x23} :
    Keeps o ⟨x1, x2, x3, x4, x5, x6, x7, x8, x9, x10, s.jobs, x12, x13, x14, x15, x16, x17, x18, x19, s.M, x21, x22, x23⟩ :=
  h.of_mem rfl id

/-- An update of the state beside its jobs and its two memories. -/
theorem keeps_updM {o s : State} (h : Keeps o s)
    {x1 x2 x3 x4 x5 x6 x7 x8 x9 x10 x12 x13 x14 x15 x16 x17 x18 x19 x21 x22 x23}
    {y3 y4 y5 y6 y7 y8 y9 y10 y11 y12 y13 y14 y15 y16 y17 y18 y19 y20 y21} :
    Keeps o ⟨x1, x2, x3, x4, x5, x6, x7, x8, x9, x10, s.jobs, x12, x13, x14, x15, x16, x17, x18, x19,
      ⟨s.M.mem, s.M.host, y3, y4, y5, y6, y7, y8, y9, y10, y11, y12, y13, y14, y15, y16, y17, y18, y19, y20, y21⟩, x21, x22, x23⟩ :=
  h.of_mem rfl id

theorem ite_keeps {o s t : State} {p : Prop} [Decidable p] (hs : Keeps o s) (ht : Keeps o t) : Keeps o (if p then s else t) := by
  split
  · exact hs
  · exact ht

theorem ite_fst_keeps {β : Type} {o : State} {a b : State × β} {p : Prop} [Decidable p] (ha : Keeps o a.1) (hb : Keeps o b.1) :
    Keeps o (if p then a else b).1 := by
  split
  · exact ha
  · exact hb

theorem foldl_keeps {α : Type} {o s : State} {f : State → α → State} (hf : ∀ t x, Keeps o t → Keeps o (f t x)) (h : Keeps o s)
    (l : List α) : Keeps o (l.foldl f s) := by
  induction l generalizing s with
  | nil => exact h
  | cons x l ih => exact ih (hf s x h)

theorem foldl_fst_keeps {α β : Type} {o : State} {r : State × β} {f : State × β → α → State × β}
    (hf : ∀ t x, Keeps o t.1 → Keeps o (f t x).1) (h : Keeps o r.1) (l : List α) : Keeps o (l.foldl f r).1 := by
  induction l generalizing r with
  | nil => exact h
  | cons x l ih => exact ih (hf r x h)

/-! ### Tables: what keeps slots rising and bytes listed only when not zero -/

/-- Only the slots of a table decide whether they rise. -/
theorem smSorted_map {α β : Type} (f : Nat × α → Nat × β) (hf : ∀ e, (f e).1 = e.1) (m : SMap α) (l : Option Nat) :
    smSorted l (m.map f) = smSorted l m := by
  induction m generalizing l with
  | nil => cases l <;> rfl
  | cons e m ih =>
    obtain ⟨k, v⟩ := e
    have hk : f (k, v) = (k, (f (k, v)).2) := Prod.ext (hf (k, v)) rfl
    rw [List.map_cons, hk]
    cases l <;> simp only [smSorted, ih]

/-- A part of a table keeps its order. -/
theorem smSorted_filter {α : Type} (p : Nat × α → Bool) {m : SMap α} {l : Option Nat} (h : smSorted l m = true) :
    smSorted l (m.filter p) = true := by
  induction m generalizing l with
  | nil => exact h
  | cons e m ih =>
    obtain ⟨k, v⟩ := e
    have hm : smSorted (some k) m = true := by cases l <;> simp_all [smSorted]
    rw [List.filter_cons]
    split
    · cases l with
      | none => exact ih hm
      | some i =>
        simp only [smSorted, Bool.and_eq_true, decide_eq_true_eq] at h ⊢
        exact ⟨h.1, ih hm⟩
    · cases l with
      | none => exact ih (smSorted_none hm)
      | some i =>
        simp only [smSorted, Bool.and_eq_true, decide_eq_true_eq] at h
        exact ih (smSorted_lower h.1.le hm)

/-- Jobs changed in their slots. -/
theorem slotsOk_map {s t : State} {f : Nat × Job → Nat × Job} (ht : t.jobs = s.jobs.map f) (hf : ∀ e, (f e).1 = e.1) (h : SlotsOk s) :
    SlotsOk t := by
  unfold SlotsOk
  rw [ht, smSorted_map f hf]
  exact h

theorem fst_ite_slot {p : Prop} [Decidable p] (e : Nat × Job) (j : Job) : (if p then (e.1, j) else e).1 = e.1 := by split <;> rfl

theorem Mem.wf_filter {m : Mem} (p : Nat × Byte → Bool) (h : m.wf = true) : Mem.wf (m.filter p) = true := by
  simp only [Mem.wf, Bool.and_eq_true, List.all_eq_true] at h ⊢
  exact ⟨smSorted_filter p h.1, fun e he => h.2 e (List.mem_of_mem_filter he)⟩

/-- Bytes of one memory in canonical form entered in another at keys of any choice. -/
theorem Mem.wf_foldl_smSet {m n : Mem} (g : Nat → Nat) (hm : m.wf = true) (hn : n.wf = true) :
    Mem.wf (n.foldl (fun (m : Mem) e => smSet m (g e.1) e.2) m) = true := by
  have hv : ∀ e ∈ n, (e.2 != 0) = true := by
    simp only [Mem.wf, Bool.and_eq_true, List.all_eq_true] at hn
    exact hn.2
  clear hn
  induction n generalizing m with
  | nil => exact hm
  | cons e n ih =>
    simp only [Mem.wf, Bool.and_eq_true] at hm
    refine ih ?_ (fun x hx => hv x (List.mem_cons_of_mem e hx))
    simp only [Mem.wf, Bool.and_eq_true]
    exact ⟨smSet_sorted _ _ hm.1, smSet_all hm.2 (hv e List.mem_cons_self)⟩

theorem copyKeys_wf {m : Mem} (a n b : Nat) (h : m.wf = true) : (copyKeys m a n b).wf = true :=
  Mem.wf_foldl_smSet (fun k => k - a + b) (Mem.wf_filter _ h) (Mem.wf_filter _ h)

/-! ### The operations that write a memory or the table of jobs -/

theorem homeSet_keeps {o s : State} (h : Keeps o s) (pa b) : Keeps o (homeSet s pa b) := by
  unfold homeSet
  split
  · exact h.of_mem rfl fun x => ⟨x.1, memWrite_wf _ b x.2⟩
  · exact h.of_mem rfl fun x => ⟨memWrite_wf pa b x.1, x.2⟩

theorem setTenant_keeps {o s : State} (h : Keeps o s) (n v) : Keeps o (setTenant s n v) := h.of_mem rfl id

theorem sendIrq_keeps {o s : State} (h : Keeps o s) (n c) : Keeps o (sendIrq s n c) := h.of_mem rfl fun x => ⟨x.1, memWriteBytes_wf _ _ x.2⟩

theorem setJob_keeps {o s : State} (h : Keeps o s) (k j) : Keeps o (setJob s k j) := h.of_jobs rfl rfl fun x => smSet_sorted k j x

theorem dropJob_keeps {o s : State} (h : Keeps o s) (k) : Keeps o (dropJob s k) := h.of_jobs rfl rfl fun x => smErase_sorted k x

theorem updJob_keeps {o s : State} (h : Keeps o s) (uid f) : Keeps o (updJob s uid f) :=
  h.of_jobs rfl rfl (slotsOk_map rfl fun e => fst_ite_slot e _)

theorem dropEdges_keeps {o s : State} (h : Keeps o s) (k) : Keeps o (dropEdges s k) := h.of_jobs rfl rfl (slotsOk_map rfl fun _ => rfl)

theorem dropTile_keeps {o s : State} (h : Keeps o s) (cl f page) : Keeps o (dropTile s cl f page) :=
  h.of_jobs rfl rfl (slotsOk_map rfl fun e => fst_ite_slot e _)

/-- The bytes of a page in device memory or in host memory, copied over another page of device memory. -/
theorem movedMem_wf {s : State} (old size new : Nat) (h : MemOk s) :
    Mem.wf (if 2 ^ 45 ≤ old then
      (s.M.host.filter (fun e => decide (hostAddr s old ≤ e.1) && decide (e.1 < hostAddr s old + size))).foldl
        (fun (m : Mem) e => smSet m (e.1 - hostAddr s old + new) e.2)
        (s.M.mem.filter (fun e => !(decide (new ≤ e.1) && decide (e.1 < new + size))))
      else copyKeys s.M.mem old size new) = true := by
  split
  · exact Mem.wf_foldl_smSet (fun k => k - hostAddr s old + new) (Mem.wf_filter _ h.1) (Mem.wf_filter _ h.2)
  · exact copyKeys_wf old size new h.1

/-! ### Answers: every state inside one keeps -/

/-- The next state of an instruction or an event keeps. -/
def OutKeeps (o : State) : Out → Prop
  | .next t => Keeps o t
  | _ => True

theorem outKeeps_ite {o : State} {p : Prop} [Decidable p] {a b : Out} (ha : OutKeeps o a) (hb : OutKeeps o b) :
    OutKeeps o (if p then a else b) := by
  split
  · exact ha
  · exact hb

def PlanKeeps (o : State) : Plan → Prop
  | .run _ t | .stay t => Keeps o t

def SResKeeps (o : State) : SRes → Prop
  | .retire t _ | .wait t _ | .done t => Keeps o t
  | .trap _ _ => True

theorem sresKeeps_trap (o : State) (c v : Nat) : SResKeeps o (.trap c v) := trivial

theorem sresKeeps_ite {o : State} {p : Prop} [Decidable p] {a b : SRes} (ha : SResKeeps o a) (hb : SResKeeps o b) :
    SResKeeps o (if p then a else b) := by
  split
  · exact ha
  · exact hb

def IResKeeps (o : State) : IRes → Prop
  | .trapIn t _ _ | .fly t _ | .pend t _ => Keeps o t
  | .wait | .trap _ _ | .now _ | .jump _ _ _ => True

def AResKeeps (o : State) : ARes → Prop
  | .ok t _ | .stall t | .gone t => Keeps o t

def RegResKeeps (o : State) : RegRes → Prop
  | .ok t _ | .stall t | .gone t => Keeps o t

def LkResKeeps (o : State) : LkRes → Prop
  | .have_ t _ | .wait t | .trap t _ _ => Keeps o t
  | .stall => True

theorem lkResKeeps_ite {o : State} {p : Prop} [Decidable p] {a b : LkRes} (ha : LkResKeeps o a) (hb : LkResKeeps o b) :
    LkResKeeps o (if p then a else b) := by
  split
  · exact ha
  · exact hb

def CResKeeps (o : State) : CRes → Prop
  | .ok r | .wait r | .trap r _ _ => Keeps o r.s

theorem cresKeeps_ite {o : State} {p : Prop} [Decidable p] {a b : CRes} (ha : CResKeeps o a) (hb : CResKeeps o b) :
    CResKeeps o (if p then a else b) := by
  split
  · exact ha
  · exact hb

theorem iresKeeps_trap (o : State) (c v : Nat) : IResKeeps o (.trap c v) := trivial

theorem iresKeeps_fly {o s : State} (h : Keeps o s) (e : Effect) : IResKeeps o (.fly s e) := h

theorem iresKeeps_ite {o : State} {p : Prop} [Decidable p] {a b : IRes} (ha : IResKeeps o a) (hb : IResKeeps o b) :
    IResKeeps o (if p then a else b) := by
  split
  · exact ha
  · exact hb

/-- What an engine word does at issue keeps, from any state in which it issues. -/
def EPlan.Keeping (p : EPlan) : Prop := ∀ o s k j v, Keeps o s → IResKeeps o (p.f s k j v)

/-! ### Memory, coherence, accesses through translation and the S slot -/

theorem homeSetBytes_keeps {o s : State} (h : Keeps o s) (pa l) : Keeps o (homeSetBytes s pa l) := by
  induction l generalizing s pa with
  | nil => exact h
  | cons b l ih => exact ih (homeSet_keeps h pa b) (pa + 1)

theorem noteCode_keeps {o s : State} (h : Keeps o s) (pa l) : Keeps o (noteCode s pa l) := by
  induction l generalizing s pa with
  | nil => exact h
  | cons b l ih =>
    unfold noteCode
    exact ih (ite_keeps h (keeps_updM h)) (pa + 1)

theorem cSetBytes_keeps {o s : State} (h : Keeps o s) (pa l) : Keeps o (cSetBytes s pa l) := keeps_updM (noteCode_keeps h _ _)

theorem writeBackN_keeps {o s : State} (h : Keeps o s) (pa n) : Keeps o (writeBackN s pa n) := by
  induction n generalizing s pa with
  | zero => exact h
  | succ n ih =>
    unfold writeBackN
    split
    · exact ih (homeSet_keeps (keeps_updM h) pa _) (pa + 1)
    · exact ih h (pa + 1)

theorem writeBackLine_keeps {o s : State} (h : Keeps o s) (line) : Keeps o (writeBackLine s line) := writeBackN_keeps h _ _

theorem dropStale_keeps {o s : State} (h : Keeps o s) (line) : Keeps o (dropStale s line) := keeps_updM h

theorem nSet_keeps {o s : State} (h : Keeps o s) (pa b) : Keeps o (nSet s pa b) :=
  ite_keeps (keeps_updM (homeSet_keeps (noteCode_keeps h _ _) _ _)) (homeSet_keeps (noteCode_keeps h _ _) _ _)

theorem nSetBytes_keeps {o s : State} (h : Keeps o s) (pa l) : Keeps o (nSetBytes s pa l) := by
  induction l generalizing s pa with
  | nil => exact h
  | cons b l ih => exact ih (nSet_keeps h pa b) (pa + 1)

theorem agentSetBytes_keeps {o s : State} (h : Keeps o s) (pa l) : Keeps o (agentSetBytes s pa l) :=
  keeps_updM (homeSetBytes_keeps (noteCode_keeps
    (foldl_keeps (fun _ ln ht => dropStale_keeps (writeBackLine_keeps ht ln) ln) h _) pa l) pa l)

theorem poisonLine_keeps {o s : State} (h : Keeps o s) (line) : Keeps o (poisonLine s line) := keeps_updM h

theorem poisonWrite_keeps {o s : State} (h : Keeps o s) (pa n) : Keeps o (poisonWrite s pa n) := by
  grind [poisonWrite, foldl_keeps, keeps_updM]

theorem setCore_keeps {o s : State} (h : Keeps o s) (c v) : Keeps o (setCore s c v) := keeps_upd h

theorem setCluster_keeps {o s : State} (h : Keeps o s) (c v) : Keeps o (setCluster s c v) := keeps_upd h

theorem setDie_keeps {o s : State} (h : Keeps o s) (d v) : Keeps o (setDie s d v) := keeps_upd h

theorem setMdie_keeps {o s : State} (h : Keeps o s) (m v) : Keeps o (setMdie s m v) := keeps_upd h

theorem setDomain_keeps {o s : State} (h : Keeps o s) (f v) : Keeps o (setDomain s f v) := keeps_upd h

theorem logError_keeps {o s : State} (h : Keeps o s) (id kind src cls addr ue) : Keeps o (logError s id kind src cls addr ue) :=
  setDie_keeps h _ _

theorem evqLose_keeps {o s : State} (h : Keeps o s) (f) : Keeps o (evqLose s f) := setDomain_keeps h _ _

theorem evqNext_keeps {o s : State} (h : Keeps o s) (f) : Keeps o (evqNext s f) := setDomain_keeps h _ _

theorem evqStore_keeps {o s : State} (h : Keeps o s) (f w0 addr aux) : Keeps o (evqStore s f w0 addr aux) :=
  ite_keeps (evqLose_keeps h f) (ite_keeps (logError_keeps (evqLose_keeps h f) _ _ _ _ _ _) (evqNext_keeps (agentSetBytes_keeps h _ _) f))

theorem evqIrq_keeps {o s : State} (h : Keeps o s) (f) : Keeps o (evqIrq s f) := by
  unfold evqIrq
  split
  · exact ite_keeps (sendIrq_keeps h _ _) h
  · exact h

theorem raiseEvent_keeps {o s : State} (h : Keeps o s) (f type code die addr aux) : Keeps o (raiseEvent s f type code die addr aux) :=
  evqIrq_keeps (evqStore_keeps h _ _ _ _) _

theorem watchOne_keeps {o s : State} (h : Keeps o s) (m line cls ty f src n) : Keeps o (watchOne s m line cls ty f src n) :=
  ite_keeps (raiseEvent_keeps (setMdie_keeps h m _) _ _ _ _ _ _) h

theorem watchHit_keeps {o s : State} (h : Keeps o s) (line cls ty f src) : Keeps o (watchHit s line cls ty f src) := by
  unfold watchHit
  split
  · exact h
  · exact foldl_keeps (fun _ _ ht => watchOne_keeps ht _ _ _ _ _ _ _) h _

theorem setLaunch_keeps {o s : State} (h : Keeps o s) (l v) : Keeps o (setLaunch s l v) := keeps_upd h

theorem traceRecord_keeps {o s : State} (h : Keeps o s) (k j st kind lv seq w2 w3) : Keeps o (traceRecord s k j st kind lv seq w2 w3) :=
  ite_keeps h (ite_keeps (setDomain_keeps h _ _) (setDomain_keeps (ite_keeps (agentSetBytes_keeps h _ _) h) _ _))

theorem traceWord_keeps {o s : State} (h : Keeps o s) (k j st pc seq) : Keeps o (traceWord s k j st pc seq) :=
  traceRecord_keeps h _ _ _ _ _ _ _ _

theorem traceFlow_keeps {o s : State} (h : Keeps o s) (k j st pc) : Keeps o (traceFlow s k j st pc) := traceRecord_keeps h _ _ _ _ _ _ _ _

theorem traceValue_keeps {o s : State} (h : Keeps o s) (k j st v at_) : Keeps o (traceValue s k j st v at_) :=
  traceRecord_keeps h _ _ _ _ _ _ _ _

theorem takeIn_keeps {o s : State} (h : Keeps o s) (k j st v at_) : Keeps o (takeIn s k j st v at_).1 := by
  unfold takeIn
  extract_lets
  split
  · exact traceValue_keeps h _ _ _ _ _
  · split
    · split
      · exact traceValue_keeps h _ _ _ _ _
      · exact traceValue_keeps h _ _ _ _ _
    · exact traceValue_keeps h _ _ _ _ _

theorem relWrite_keeps {o s : State} (h : Keeps o s) (cp pa n rmw rel) : Keeps o (relWrite s cp pa n rmw rel) := keeps_updM h

theorem relClone_keeps {o s : State} (h : Keeps o s) (line src cp) : Keeps o (relClone s line src cp) := keeps_updM h

theorem relTake_keeps {o s : State} (h : Keeps o s) (line cp) : Keeps o (relTake s line cp).1 := keeps_updM h

theorem relPut_keeps {o s : State} (h : Keeps o s) (line mask l cp) : Keeps o (relPut s line mask l cp) := keeps_updM h

theorem raceNote_keeps {o s : State} (h : Keeps o s) (f line launch a) : Keeps o (raceNote s f line launch a) := by
  unfold raceNote
  extract_lets
  split
  · exact keeps_updM h
  · exact h
  · exact keeps_updM h

theorem raceEnd_keeps {o s : State} (h : Keeps o s) (launch) : Keeps o (raceEnd s launch) := keeps_updM h

theorem setHolders_keeps {o s : State} (h : Keeps o s) (die line hs) : Keeps o (setHolders s die line hs) := keeps_updM h

theorem dropCopies_keeps {o s : State} (h : Keeps o s) (die line except) : Keeps o (dropCopies s die line except) := keeps_upd h

theorem tokReturn_keeps {o s : State} (h : Keeps o s) (core line) : Keeps o (tokReturn s core line) := setHolders_keeps h _ _ _

theorem l1Touch_keeps {o s : State} (h : Keeps o s) (core line keep) : Keeps o (l1Touch s core line keep) := by
  grind [l1Touch, setCore_keeps, tokReturn_keeps]

theorem tokRead_keeps {o s : State} (h : Keeps o s) (die line core) : Keeps o (tokRead s die line core) :=
  ite_keeps (setHolders_keeps h _ _ _) (setHolders_keeps h _ _ _)

theorem tokWrite_keeps {o s : State} (h : Keeps o s) (die line agent) : Keeps o (tokWrite s die line agent) := setHolders_keeps h _ _ _

theorem tokDrop_keeps {o s : State} (h : Keeps o s) (die line) : Keeps o (tokDrop s die line) := keeps_updM h

theorem tokYield_keeps {o s : State} (h : Keeps o s) (die line) : Keeps o (tokYield s die line) := setHolders_keeps h _ _ _

theorem tokReplica_keeps {o s : State} (h : Keeps o s) (die line agent launch) : Keeps o (tokReplica s die line agent launch) :=
  ite_keeps h (setHolders_keeps h _ _ _)

theorem dropReplicas_keeps {o s : State} (h : Keeps o s) (p) : Keeps o (dropReplicas s p) := keeps_updM h

theorem setPersist_keeps {o s : State} (h : Keeps o s) (die line l) : Keeps o (setPersist s die line l) := keeps_updM h

theorem persistServed_keeps {o s : State} (h : Keeps o s) (core line) : Keeps o (persistServed s core line) :=
  ite_keeps h (setPersist_keeps (keeps_updM h) _ _ _)

theorem deliver_keeps {o s : State} (h : Keeps o s) (core line) : Keeps o (deliver s core line) := by
  grind [deliver, setHolders_keeps, setCore_keeps, tokReturn_keeps]

theorem landThrows_keeps {o s : State} (h : Keeps o s) (die line) : Keeps o (landThrows s die line) :=
  keeps_updM (foldl_keeps (fun _ _ ht => deliver_keeps ht _ _) h _)

theorem setDir_keeps {o s : State} (h : Keeps o s) (line e) : Keeps o (setDir s line e) := keeps_updM h

theorem recallLine_keeps {o s : State} (h : Keeps o s) (line f d) : Keeps o (recallLine s line f d) :=
  ite_keeps (watchHit_keeps (writeBackLine_keeps h _) _ _ _ _ _) h

theorem dirRevoke_keeps {o s : State} (h : Keeps o s) (line f except) : Keeps o (dirRevoke s line f except) := by
  grind [dirRevoke, recallLine_keeps, dropCopies_keeps, landThrows_keeps, tokDrop_keeps, foldl_keeps]

theorem dirYield_keeps {o s : State} (h : Keeps o s) (o1 line f) : Keeps o (dirYield s o1 line f) :=
  recallLine_keeps (tokYield_keeps h _ _) _ _ _

theorem dirRead_keeps {o s : State} (h : Keeps o s) (d line f) : Keeps o (dirRead s d line f) := by
  unfold dirRead
  split
  · exact h
  · extract_lets
    split
    · exact setDir_keeps (dirYield_keeps (watchHit_keeps h _ _ _ _ _) _ _ _) _ _
    · exact setDir_keeps (watchHit_keeps h _ _ _ _ _) _ _
    · exact setDir_keeps (watchHit_keeps h _ _ _ _ _) _ _
    · exact setDir_keeps (watchHit_keeps h _ _ _ _ _) _ _

theorem dirWrite_keeps {o s : State} (h : Keeps o s) (d line f ty) : Keeps o (dirWrite s d line f ty) :=
  ite_keeps h (setDir_keeps (dirRevoke_keeps (watchHit_keeps h _ _ _ _ _) _ _ _) _ _)

theorem dirHostWrite_keeps {o s : State} (h : Keeps o s) (line) : Keeps o (dirHostWrite s line) := keeps_updM (dirRevoke_keeps h _ _ _)

theorem dirHostRead_keeps {o s : State} (h : Keeps o s) (line) : Keeps o (dirHostRead s line) := by
  unfold dirHostRead
  split
  · exact setDir_keeps (dirYield_keeps h _ _ _) _ _
  · exact h

theorem setLineRec_keeps {o s : State} (h : Keeps o s) (line r) : Keeps o (setLineRec s line r) := keeps_updM h

theorem narrowQuiet_keeps {o s : State} (h : Keeps o s) (k f) : Keeps o (narrowQuiet s k f) := by
  unfold narrowQuiet
  split
  · exact h
  · exact setJob_keeps h _ _

theorem narrow_keeps {o s : State} (h : Keeps o s) (k f) : Keeps o (narrow s k f) := by
  unfold narrow
  split
  · exact h
  · exact ite_keeps (narrowQuiet_keeps h _ _) (keeps_upd (narrowQuiet_keeps h _ _))

theorem slWrite_keeps {o s : State} (h : Keeps o s) (line die) : Keeps o (slWrite s line die) := by
  grind [slWrite, narrow_keeps, setLineRec_keeps, foldl_keeps]

theorem combinePart_keeps {o s : State} (h : Keeps o s) (line p) : Keeps o (combinePart s line p) :=
  slWrite_keeps (foldl_keeps (fun _ _ ht => agentSetBytes_keeps ht _ _) h _) _ _

theorem dropPartial_keeps {o s : State} (h : Keeps o s) (cl line) : Keeps o (dropPartial s cl line) := setCluster_keeps h _ _

theorem combineLine_keeps {o s : State} (h : Keeps o s) (line) : Keeps o (combineLine s line) :=
  foldl_keeps (fun _ _ ht => dropPartial_keeps (combinePart_keeps ht _ _) _ _) h _

theorem absorb_keeps {o s : State} (h : Keeps o s) (cl line f rng fmt op idx v) : Keeps o (absorb s cl line f rng fmt op idx v) := by
  grind [absorb, combinePart_keeps, dropPartial_keeps, setCluster_keeps]

theorem noteTag_keeps {o s : State} (h : Keeps o s) (line) : Keeps o (noteTag s line) := by
  unfold noteTag
  split
  · exact h
  · exact keeps_updM h

theorem cohRead_keeps {o s : State} (h : Keeps o s) (core line f) : Keeps o (cohRead s core line f) :=
  persistServed_keeps (noteTag_keeps (tokRead_keeps (dirRead_keeps h _ _ _) _ _ _) _) _ _

theorem cSetMasked_keeps {o s : State} (h : Keeps o s) (line mask i l) : Keeps o (cSetMasked s line mask i l) := by
  induction l generalizing s i with
  | nil => exact h
  | cons b l ih => exact ih (ite_keeps (cSetBytes_keeps h _ _) h) (i + 1)

theorem poisonMask_keeps {o s : State} (h : Keeps o s) (line mask) : Keeps o (poisonMask s line mask) := by
  unfold poisonMask
  split
  · exact h
  · exact keeps_updM h

theorem nmForget_keeps {o s : State} (h : Keeps o s) (line mask) : Keeps o (nmForget s line mask) := keeps_updM h

theorem diePut_keeps {o s : State} (h : Keeps o s) (d agent line f ty mask bytes) : Keeps o (diePut s d agent line f ty mask bytes) := by
  have hw := tokWrite_keeps (dropCopies_keeps (dirWrite_keeps (landThrows_keeps h d line) d line f ty) d line agent) d line agent
  exact ite_keeps (raiseEvent_keeps h _ _ _ _ _ _) (poisonMask_keeps (cSetMasked_keeps
    (nmForget_keeps (noteTag_keeps (ite_keeps (setCore_keeps hw _ _) hw) line) line mask) line mask 0 bytes) line mask)

theorem cohPut_keeps {o s : State} (h : Keeps o s) (core line f ty mask bytes) : Keeps o (cohPut s core line f ty mask bytes) :=
  persistServed_keeps (diePut_keeps h _ _ _ _ _ _ _) _ _

theorem cohWrite_keeps {o s : State} (h : Keeps o s) (core line f ty mask bytes) : Keeps o (cohWrite s core line f ty mask bytes) :=
  slWrite_keeps (cohPut_keeps h _ _ _ _ _ _) _ _

theorem pubWrite_keeps {o s : State} (h : Keeps o s) (core l c) : Keeps o (pubWrite s core l c) :=
  slWrite_keeps (diePut_keeps h _ _ _ _ _ _ _) _ _

theorem dropCopy_keeps {o s : State} (h : Keeps o s) (c) : Keeps o (dropCopy s c) := keeps_updM h

theorem putCopy_keeps {o s : State} (h : Keeps o s) (c) : Keeps o (putCopy s c) := keeps_updM h

theorem newCopy_keeps {o s : State} (h : Keeps o s) (l core line f) : Keeps o (newCopy s l core line f).1 := relClone_keeps h _ _ _

theorem pubOut_keeps {o s : State} (h : Keeps o s) (c rs core t n l) : Keeps o (pubOut s c rs core t n l) := by
  induction n generalizing l with
  | zero => exact h
  | succ n ih => grind [pubOut, pubWrite_keeps, newCopy_keeps, putCopy_keeps, relPut_keeps]

theorem publish1_keeps {o s : State} (h : Keeps o s) (c t) : Keeps o (publish1 s c t) :=
  ite_keeps (relTake_keeps (dropCopy_keeps h _) _ _) (pubOut_keeps (relTake_keeps (dropCopy_keeps h _) _ _) _ _ _ _ _ _)

theorem publishLevel_keeps {o s : State} (h : Keeps o s) (sel t l) : Keeps o (publishLevel s sel t l) :=
  foldl_keeps (fun _ _ ht => publish1_keeps ht _ _) h _

theorem publishSel_keeps {o s : State} (h : Keeps o s) (sel t) : Keeps o (publishSel s sel t) := by
  grind [publishSel, publishLevel_keeps, foldl_keeps]

theorem publishOwn_keeps {o s : State} (h : Keeps o s) (core t) : Keeps o (publishOwn s core t) := publishSel_keeps h _ _

theorem memPrep_keeps {o s : State} (h : Keeps o s) (core t line) : Keeps o (memPrep s core t line).1 := by
  unfold memPrep
  split
  · exact h
  · extract_lets
    split
    · split
      · exact publishSel_keeps (combineLine_keeps h _) _ _
      · exact publishSel_keeps (publishSel_keeps (combineLine_keeps h _) _ _) _ _
    · exact publishSel_keeps (combineLine_keeps h _) _ _

theorem strongView_keeps {o s : State} (h : Keeps o s) (line) {t} (e : strongView s line = some t) : Keeps o t := by
  grind [strongView, combineLine_keeps, publishSel_keeps]

theorem homeStore_keeps {o s : State} (h : Keeps o s) (pa l rel) : Keeps o (homeStore s pa l rel) := by
  have hl := foldl_keeps (fun _ ln ht => slWrite_keeps (dirHostWrite_keeps (combineLine_keeps ht ln) ln) ln none) h (linesOf pa l.length)
  exact poisonWrite_keeps (agentSetBytes_keeps
    (foldl_keeps (fun _ ln ht => nmForget_keeps ht ln _) (relWrite_keeps hl none pa l.length false rel) _) pa l) pa l.length

theorem strongView_getD_keeps {o s t : State} (h : Keeps o s) (ht : Keeps o t) (ln) : Keeps o ((strongView s ln).getD t) := by
  cases e : strongView s ln with
  | none => exact ht
  | some u => exact strongView_keeps h ln e

theorem deviceWrite_keeps {o s : State} (h : Keeps o s) (pa l) : Keeps o (deviceWrite s pa l) :=
  homeStore_keeps (foldl_keeps (fun _ ln ht => strongView_getD_keeps ht ht ln) h _) pa l []

theorem scopeRead_keeps {o s : State} (h : Keeps o s) (core t line f) : Keeps o (scopeRead s core t line f).1 := by
  grind [scopeRead, cohRead_keeps, newCopy_keeps, putCopy_keeps]

theorem scopeWrite_keeps {o s : State} (h : Keeps o s) (core t line f ty launch mask bytes) : Keeps o (scopeWrite s core t line f ty launch mask bytes) := by
  unfold scopeWrite
  split
  · exact cohWrite_keeps h _ _ _ _ _ _
  · extract_lets
    split
    · exact putCopy_keeps h _
    · exact ite_keeps (cohWrite_keeps h _ _ _ _ _ _) (putCopy_keeps (newCopy_keeps h _ _ _ _) _)

theorem modJob_keeps {o s : State} (h : Keeps o s) (k f) : Keeps o (modJob s k f) := by
  unfold modJob
  split
  · exact setJob_keeps h _ _
  · exact h

theorem noteAccess_keeps {o s : State} (h : Keeps o s) (w pa n load store ordinary) : Keeps o (noteAccess s w pa n load store ordinary) := by
  unfold noteAccess
  split
  · exact h
  · exact ite_keeps (raceNote_keeps (setJob_keeps h _ _) _ _ _ _) (setJob_keeps h _ _)

theorem memReady_keeps {o s : State} (h : Keeps o s) (w sc pa) : Keeps o (memReady s w sc pa).1 := memPrep_keeps h _ _ _

theorem memLoad_keeps {o s : State} (h : Keeps o s) (w sc pa n ordinary) : Keeps o (memLoad s w sc pa n ordinary).1 := by
  unfold memLoad
  split
  · exact h
  · exact modJob_keeps (noteAccess_keeps (scopeRead_keeps h _ _ _ _) _ _ _ _ _ _) _ _

theorem memStore_keeps {o s : State} (h : Keeps o s) (w sc pa l ordinary rel) : Keeps o (memStore s w sc pa l ordinary rel) := by
  unfold memStore
  split
  · exact h
  · extract_lets
    split
    · exact relWrite_keeps (noteAccess_keeps (scopeWrite_keeps h _ _ _ _ _ _ _ _) _ _ _ _ _ _) _ _ _ _ _
    · exact noteAccess_keeps (scopeWrite_keeps h _ _ _ _ _ _ _ _) _ _ _ _ _ _

theorem memRmw_keeps {o s : State} (h : Keeps o s) (w sc pa n f) : Keeps o (memRmw s w sc pa n f).1 := by
  unfold memRmw
  split
  · exact h
  · dsimp only
    have hr := fun c => scopeRead_keeps h (jCoreKey w.k) (effScope sc) (lineOf pa) c
    split
    · exact relWrite_keeps (modJob_keeps (noteAccess_keeps (scopeWrite_keeps (hr _) _ _ _ _ _ _ _ _) w pa n true true false) w.k _) _ _ _ _ _
    · exact modJob_keeps (noteAccess_keeps (scopeWrite_keeps (hr _) _ _ _ _ _ _ _ _) w pa n true true false) w.k _

theorem l1Read_keeps {o s : State} (h : Keeps o s) (core line fill) : Keeps o (l1Read s core line fill) :=
  ite_keeps (l1Touch_keeps (setCore_keeps h _ _) _ _ _) (setCore_keeps h _ _)

theorem noteTlb_keeps {o s : State} (h : Keeps o s) (f va) : Keeps o (noteTlb s f va) := keeps_updM h

theorem shootdown_keeps {o s : State} (h : Keeps o s) (f lo hi) : Keeps o (shootdown s f lo hi) := keeps_updM h

theorem virtWrite_keeps {o s : State} (h : Keeps o s) (f va l) : Keeps o (virtWrite s f va l) := by
  grind [virtWrite, poisonWrite_keeps, agentSetBytes_keeps, foldl_fst_keeps]

theorem writeContext_keeps {o s : State} (h : Keeps o s) (k j c kind va) : Keeps o (writeContext s k j c kind va) :=
  foldl_keeps (fun _ _ ht => virtWrite_keeps ht _ _ _) (virtWrite_keeps h _ _ _) _

theorem keepStatus_keeps {o s : State} (h : Keeps o s) (uid) : Keeps o (keepStatus s uid) := by
  unfold keepStatus
  split
  · exact h
  · exact ite_keeps (virtWrite_keeps h _ _ _) h

theorem passSlot_keeps {o s : State} (h : Keeps o s) (k) : Keeps o (passSlot s k) := ite_keeps (setCore_keeps h _ _) h

theorem wakeSlot_keeps {o s : State} (h : Keeps o s) (k) : Keeps o (wakeSlot s k) := ite_keeps (setCore_keeps h _ _) h

theorem takeSlot_keeps {o s : State} (h : Keeps o s) (k) {t} (e : takeSlot s k = some t) : Keeps o t := by
  grind [takeSlot, setCore_keeps]

/-! ### Stops, traps, issue, fetch, launch records, page moves and registers -/

theorem leaveFrames_keeps {o s : State} (h : Keeps o s) (k) : Keeps o (leaveFrames s k) := setCluster_keeps h _ _

theorem leaseEnd_keeps {o s : State} (h : Keeps o s) (k) : Keeps o (leaseEnd s k) := by
  unfold leaseEnd
  extract_lets
  split
  · exact setCluster_keeps h _ _
  · exact setCluster_keeps h _ _

theorem barrierLeave_keeps {o s : State} (h : Keeps o s) (uid) : Keeps o (barrierLeave s uid) := keeps_upd h

theorem abortRegion_keeps {o s : State} (h : Keeps o s) (k j cause) : Keeps o (abortRegion s k j cause).1 := by
  unfold abortRegion
  split
  · exact h
  · exact dropEdges_keeps h _

theorem dropFrames_keeps {o s : State} (h : Keeps o s) (cl fs) : Keeps o (dropFrames s cl fs) := ite_keeps h (setCluster_keeps h _ _)

theorem landAll_keeps {o s : State} (h : Keeps o s) (k j) : Keeps o (landAll s k j).1 := by
  grind [landAll, traceWord_keeps, dropFrames_keeps, foldl_fst_keeps]

theorem dropGuards_keeps {o s : State} (h : Keeps o s) (j seq) : Keeps o (dropGuards s j seq) := keeps_updM h

theorem keepGuards_keeps {o s : State} (h : Keeps o s) (j i kept) : Keeps o (keepGuards s j i kept) := ite_keeps (keeps_updM h) h

theorem barrierUndo_keeps {o s : State} (h : Keeps o s) (cl uid) : Keeps o (barrierUndo s cl uid) := setCluster_keeps h _ _

theorem stopJob_keeps {o s : State} (h : Keeps o s) (k j) : Keeps o (stopJob s k j).1 := by
  grind [stopJob, barrierUndo_keeps, leaseEnd_keeps, keepGuards_keeps, abortRegion_keeps, leaveFrames_keeps, landAll_keeps, foldl_keeps]

theorem freeSlot_keeps {o s : State} (h : Keeps o s) (k j) : Keeps o (freeSlot s k j) := by
  grind [freeSlot, leaseEnd_keeps, passSlot_keeps, dropEdges_keeps, dropJob_keeps, setCluster_keeps]

theorem freeReserve_keeps {o s : State} (h : Keeps o s) (f uid) : Keeps o (freeReserve s f uid) := setDomain_keeps h _ _

theorem launchLost_keeps {o s : State} (h : Keeps o s) (l) : Keeps o (launchLost s l) := by
  unfold launchLost
  split
  · exact setLaunch_keeps h _ _
  · exact h

theorem abandon_keeps {o s : State} (h : Keeps o s) (k j type code addr aux) : Keeps o (abandon s k j type code addr aux) :=
  raiseEvent_keeps (launchLost_keeps (setDomain_keeps (barrierLeave_keeps (freeReserve_keeps (freeSlot_keeps h k j) _ _) _) _ _) _)
    _ _ _ _ _ _

theorem abandonTrap_keeps {o s : State} (h : Keeps o s) (k j) : Keeps o (abandonTrap s k j) := abandon_keeps h _ _ _ _ _ _

theorem enterSave_keeps {o s : State} (h : Keeps o s) (k j kind) : Keeps o (enterSave s k j kind) := by
  unfold enterSave
  extract_lets
  split
  · exact passSlot_keeps (setJob_keeps (foldl_keeps (fun _ _ ht => traceRecord_keeps ht _ _ _ _ _ _ _ _) h _) _ _) _
  · exact abandonTrap_keeps (foldl_keeps (fun _ _ ht => traceRecord_keeps ht _ _ _ _ _ _ _ _) h _) _ _

theorem takeTrapAt_keeps {o s : State} (h : Keeps o s) (k st pc code v kind) : Keeps o (takeTrapAt s k st pc code v kind) := by
  unfold takeTrapAt
  split
  · exact h
  · exact ite_keeps (abandon_keeps h _ _ _ _ _ _) (enterSave_keeps (stopJob_keeps h _ _) _ _ _)

theorem takeTrap_keeps {o s : State} (h : Keeps o s) (k st code v) : Keeps o (takeTrap s k st code v) := takeTrapAt_keeps h _ _ _ _ _ _

theorem enterHandler_keeps {o s : State} (h : Keeps o s) (k j) : Keeps o (enterHandler s k j) := wakeSlot_keeps (setJob_keeps h _ _) _

theorem resumeJob_keeps {o s : State} (h : Keeps o s) (k j) : Keeps o (resumeJob s k j) := by
  grind [resumeJob, wakeSlot_keeps, setJob_keeps, traceRecord_keeps, setCluster_keeps, foldl_keeps]

theorem returnFromTrap_keeps {o s : State} (h : Keeps o s) (k j) : Keeps o (returnFromTrap s k j) := by
  unfold returnFromTrap
  split
  · exact h
  · exact ite_keeps (abandon_keeps h _ _ _ _ _ _) (resumeJob_keeps h _ _)

theorem sFinish_keeps {o s : State} {r : SRes} (h : Keeps o s) (hr : SResKeeps o r) (k j) : Keeps o (sFinish s k j r) := by
  cases r with
  | retire t i => exact ite_keeps (takeTrap_keeps h k _ _ _) (setJob_keeps (traceWord_keeps (show Keeps o t from hr) k _ _ _ _) k _)
  | wait t i => exact setJob_keeps hr k i
  | trap c v => exact takeTrap_keeps h k _ c v
  | done t => exact hr

theorem sExec_keeps {o s : State} (h : Keeps o s) {f : Nat → Job → SRes} (hf : ∀ k j, SResKeeps o (f k j)) (cls regs dec) :
    OutKeeps o (sExec s cls regs dec f) := by
  unfold sExec
  split
  · trivial
  · dsimp only
    split
    · exact abandon_keeps h _ _ _ _ _ _
    · split
      · exact takeTrap_keeps h _ _ _ _
      · split
        · exact setJob_keeps (abortRegion_keeps h _ _ _) _ _
        · exact sFinish_keeps h (hf _ _) _ _

theorem sPure_keeps {o s : State} (h : Keeps o s) (regs f) : OutKeeps o (sPure s regs f) :=
  sExec_keeps h (f := fun _ j => .retire s (f j).next) (fun _ _ => h) _ _ _

theorem execNop_keeps {o s : State} (h : Keeps o s) : OutKeeps o (execNop s) := sExec_keeps h (f := fun _ j => .retire s j.next) (fun _ _ => h) _ _ _

theorem profileSnapshot_keeps {o s : State} (h : Keeps o s) (k j st seq pc) : Keeps o (profileSnapshot s k j st seq pc) :=
  ite_keeps h (ite_keeps (setCluster_keeps h _ _) (ite_keeps (setDomain_keeps h _ _)
    (setDomain_keeps (setCluster_keeps (ite_keeps (agentSetBytes_keeps h _ _) h) _ _) _ _)))

theorem advance_keeps {o s : State} (h : Keeps o s) (k j e wpc last pc seq) : Keeps o (advance s k j e wpc last pc seq).1 := by
  grind [advance, profileSnapshot_keeps, traceFlow_keeps, foldl_keeps]

theorem eExec_eRetireNow_keeps {o s : State} (h : Keeps o s) (k j e tok wpc last pc seq) :
    Keeps o (eExec.eRetireNow s k j e tok wpc last pc seq) :=
  setJob_keeps (advance_keeps (traceWord_keeps h k _ _ _ _) k _ _ _ _ _ _) k _

theorem eExec_keeps {o s : State} (h : Keeps o s) {p : EPlan} (hp : p.Keeping) (e i tok) : OutKeeps o (eExec s e i tok p) := by
  unfold eExec
  dsimp only
  split
  · trivial
  · split
    · exact abandon_keeps h _ _ _ _ _ _
    · split
      · exact takeTrap_keeps h _ _ _ _
      · refine outKeeps_ite h (outKeeps_ite (takeTrap_keeps h _ _ _ _) ?_)
        generalize hr : p.f s s.turnJob _ _ = r
        have hk : IResKeeps o r := hr ▸ hp o s _ _ _ h
        cases r with
        | wait => exact h
        | trap c v => exact takeTrap_keeps h _ _ c v
        | trapIn t c v => exact takeTrap_keeps hk _ _ c v
        | pend t i => exact setJob_keeps hk _ i
        | fly t eff => exact outKeeps_ite (takeTrap_keeps h _ _ _ _) (setJob_keeps (advance_keeps hk _ _ _ _ _ _ _) _ _)
        | now g => exact outKeeps_ite (takeTrap_keeps h _ _ _ _) (eExec_eRetireNow_keeps h _ _ _ _ _ _ _ _)
        | jump g last pc => exact outKeeps_ite (takeTrap_keeps h _ _ _ _) (eExec_eRetireNow_keeps h _ _ _ _ _ _ _ _)

theorem bankShare_keeps {o s : State} (h : Keeps o s) (cl r) : Keeps o (bankShare s cl r) := ite_keeps h (setCluster_keeps h _ _)

theorem planAq_keeping (e w) : EPlan.Keeping (planAq e w) := fun o s k j v h => by
  grind [planAq, IResKeeps]

theorem planAset_keeping (e w) : EPlan.Keeping (planAset e w) := fun o s k j v h => by
  grind [planAset, IResKeeps]

theorem planAadd_keeping (e w) : EPlan.Keeping (planAadd e w) := fun o s k j v h => by
  grind [planAadd, IResKeeps]

theorem planEjoin_keeping (e w) : EPlan.Keeping (planEjoin e w) := fun o s k j v h => by
  grind [planEjoin, IResKeeps]

theorem planEnop_keeping (x x1) : EPlan.Keeping (planEnop x x1) := fun o s k j v h => by
  grind [planEnop, IResKeeps]

theorem planCshape_keeping (e w) : EPlan.Keeping (planCshape e w) := fun o s k j v h => by
  grind [planCshape, IResKeeps]

theorem skipBody_keeps (o : State) (e g last) : IResKeeps o (skipBody e g last) := by
  unfold skipBody
  dsimp only
  split
  · trivial
  · trivial

theorem planLoop_keeping (e w) : EPlan.Keeping (planLoop e w) := fun o s k j v h => by
  grind [planLoop, IResKeeps, skipBody_keeps]

theorem ejoinRetire_keeps {o s : State} (h : Keeps o s) (k e ends) : Keeps o (ejoinRetire s k e ends) := by
  unfold ejoinRetire
  split
  · exact h
  · split
    · exact h
    · exact setJob_keeps (advance_keeps (traceWord_keeps h _ _ _ _ _) _ _ _ _ _ _ _) _ _

theorem bpCount_keeps {o s : State} (h : Keeps o s) (f n) : Keeps o (bpCount s f n) := setDomain_keeps h _ _

theorem bpCheck_keeps {o s : State} (h : Keeps o s) (k j st) : Keeps o (bpCheck s k j st).1 := by
  grind [bpCheck, setJob_keeps, bpCount_keeps, foldl_fst_keeps]

theorem noteFetch_keeps {o s : State} (h : Keeps o s) (k j st va n) : Keeps o (noteFetch s k j st va n) := by
  grind [noteFetch, combineLine_keeps, modJob_keeps, noteTlb_keeps, foldl_keeps]

theorem fetchStall_keeps {o s : State} (h : Keeps o s) (k j st va) : Keeps o (fetchStall s k j st va) := by
  unfold fetchStall
  split
  · exact takeTrap_keeps h _ _ _ _
  · exact h
  · exact setJob_keeps h _ _

theorem planFetch_keeps {o s : State} (h : Keeps o s) (k j st) : PlanKeeps o (planFetch s k j st) := by
  grind [planFetch, PlanKeeps, takeTrap_keeps, noteFetch_keeps, fetchStall_keeps]

theorem setRecWord_keeps {o s : State} (h : Keeps o s) (pa i v) : Keeps o (setRecWord s pa i v) := agentSetBytes_keeps h _ _

theorem readNode_keeps {o s : State} (h : Keeps o s) (a) : Keeps o (readNode s a) := by
  grind [readNode, setRecWord_keeps, foldl_keeps, keeps_upd]

theorem fixBoundaries_keeps {o s : State} (h : Keeps o s) : Keeps o (fixBoundaries s) := keeps_upd h

theorem advanceHead_keeps {o s : State} (h : Keeps o s) (leaf n) : Keeps o (advanceHead s leaf n) := by
  induction n generalizing s with
  | zero => exact h
  | succ n ih =>
    unfold advanceHead
    dsimp only
    split
    · exact ite_keeps (ih (keeps_upd (setRecWord_keeps h leaf 8 _))) h
    · exact h

theorem endIndex_keeps {o s : State} (h : Keeps o s) (leaf idx) : Keeps o (endIndex s leaf idx) := by
  unfold endIndex
  split
  · exact advanceHead_keeps (keeps_upd h) _ _
  · exact h

theorem refuse_keeps {o s : State} (h : Keeps o s) (leaf idx cause) : Keeps o (refuse s leaf idx cause) :=
  endIndex_keeps (raiseEvent_keeps (setRecWord_keeps (setRecWord_keeps h _ _ _) _ _ _) _ _ _ _ _ _) _ _

theorem modLeaf_keeps {o s : State} (h : Keeps o s) (a f) : Keeps o (modLeaf s a f) := by
  unfold modLeaf
  split
  · exact keeps_upd h
  · exact h

theorem readRecord_keeps {o s : State} (h : Keeps o s) (leaf idx tenant vc) {t} (e : readRecord s leaf idx tenant vc = some t) : Keeps o t := by
  grind [readRecord, endIndex_keeps, refuse_keeps, keeps_upd]

theorem updateReady_keeps {o s : State} (h : Keeps o s) : Keeps o (updateReady s) := by
  grind [updateReady, setLaunch_keeps, foldl_keeps, keeps_upd]

theorem readUpTo_keeps {o s : State} (h : Keeps o s) (leaf tenant log head tail vc n) :
    Keeps o (readUpTo s leaf tenant log head tail vc n) := by
  induction n generalizing s with
  | zero => exact h
  | succ n ih =>
    unfold readUpTo
    split
    · exact h
    · refine ite_keeps h ?_
      dsimp only
      split
      · exact modLeaf_keeps h leaf _
      · rename_i t e
        refine ih (modLeaf_keeps ?_ leaf _)
        split at e
        · exact Option.some.inj e ▸ refuse_keeps h leaf _ 6
        · exact readRecord_keeps h leaf _ tenant vc e

theorem forgetNode_keeps {o s : State} (h : Keeps o s) (a) : Keeps o (forgetNode s a) := ite_keeps h (keeps_upd h)

theorem tailRead_keeps {o s : State} (h : Keeps o s) (leaf vc) : Keeps o (tailRead s leaf vc) := by
  unfold tailRead
  refine ite_keeps (forgetNode_keeps h leaf) ?_
  split
  · exact h
  · split
    · exact h
    · dsimp only
      refine updateReady_keeps (readUpTo_keeps (fixBoundaries_keeps ?_) leaf _ _ _ _ vc _)
      split
      · exact keeps_upd (foldl_keeps (fun _ a ht => ite_keeps (readNode_keeps ht a) ht) h _)
      · exact foldl_keeps (fun _ a ht => ite_keeps (readNode_keeps ht a) ht) h _

theorem kickTenant_keeps {o s : State} (h : Keeps o s) (n) : Keeps o (kickTenant s n) :=
  foldl_keeps (fun _ _ ht => ite_keeps (tailRead_keeps ht _ _) ht) h _

theorem spawnAppend_keeps {o s : State} (h : Keeps o s) (l leaf w vc expired) {t} (e : spawnAppend s l leaf w vc expired = some t) :
    Keeps o t.1 := by
  unfold spawnAppend at e
  dsimp only at e
  split at e
  · exact Option.some.inj e ▸ h
  · split at e
    · exact Option.some.inj e ▸ h
    · split at e
      · exact Option.some.inj e ▸ h
      · split at e
        · exact Option.some.inj e ▸ h
        · split at e
          · exact Option.some.inj e ▸ h
          · split at e
            · cases e
            · exact Option.some.inj e ▸ h
            · split at e
              · exact Option.some.inj e ▸ h
              · split at e
                · exact Option.some.inj e ▸ h
                · exact Option.some.inj e ▸ tailRead_keeps (setRecWord_keeps (agentSetBytes_keeps h _ _) _ _ _) leaf vc

theorem drainPage_keeps {o s : State} (h : Keeps o s) (f pa size) : Keeps o (drainPage s f pa size) := by
  grind [drainPage, dirRevoke_keeps, combineLine_keeps, narrow_keeps, publishSel_keeps, foldl_keeps, keeps_updM]

theorem dropPage_keeps {o s : State} (h : Keeps o s) (pa size) : Keeps o (dropPage s pa size) := keeps_updM h

theorem copyRecords_keeps {o s : State} (h : Keeps o s) (old n new) : Keeps o (copyRecords s old n new) := by
  grind [copyRecords, setLineRec_keeps, foldl_keeps, keeps_updM]

theorem copyPage_keeps {o s : State} (h : Keeps o s) (old size new) : Keeps o (copyPage s old size new) :=
  (copyRecords_keeps (dropPage_keeps h new size) _ _ _).of_mem rfl fun x => ⟨movedMem_wf old size new x, x.2⟩

theorem startMove_keeps {o s : State} (h : Keeps o s) (f v) : Keeps o (startMove s f v) := by
  unfold startMove
  refine ite_keeps h ?_
  have hm := fun w => setDomain_keeps h f w
  have hfail := fun w c => setDomain_keeps (hm w) f c
  refine ite_keeps (hfail _ _) ?_
  split
  · exact hfail _ _
  · exact hfail _ _
  · refine ite_keeps (hfail _ _) (ite_keeps (hfail _ _) (ite_keeps (hfail _ _) (setDomain_keeps (keeps_updM (drainPage_keeps
      (shootdown_keeps (foldl_keeps (fun _ a ht => deviceWrite_keeps ht a _) (hm _) _) f _ _) f _ _)) f _)))

theorem finishMove_keeps {o s : State} (h : Keeps o s) (m) : Keeps o (finishMove s m) :=
  setDomain_keeps (foldl_keeps (fun _ _ ht => deviceWrite_keeps ht _ _) (keeps_updM (copyPage_keeps (drainPage_keeps h _ _ _) _ _ _)) _) _ _

theorem writeFwin_keeps {o s : State} (h : Keeps o s) (n r v) : Keeps o (writeFwin s n r v) := ite_keeps h (keeps_upd h)

theorem writeTenRoot_keeps {o s : State} (h : Keeps o s) (n v) : Keeps o (writeTenRoot s n v) :=
  ite_keeps (ite_keeps (setTenant_keeps h _ _) (setTenant_keeps h _ _)) (setTenant_keeps h _ _)

theorem writeXlInv_keeps {o s : State} (h : Keeps o s) (f v) : Keeps o (writeXlInv s f v) :=
  ite_keeps (keeps_updM h) (shootdown_keeps h _ _ _)

theorem writeDomRst_keeps {o s : State} (h : Keeps o s) (f v) : Keeps o (writeDomRst s f v) := ite_keeps (setDomain_keeps h _ _) h

theorem flushWindows_keeps {o s : State} (h : Keeps o s) : Keeps o (flushWindows s) :=
  foldl_keeps (fun _ _ ht => writeBackN_keeps ht _ _) h _

theorem writeHw_keeps {o s : State} (h : Keeps o s) (r v) : Keeps o (writeHw s r v) := by
  have hf := flushWindows_keeps h
  unfold writeHw
  dsimp only
  split
  · exact keeps_upd hf
  · exact keeps_upd hf
  · exact keeps_upd hf

theorem regWrite_keeps {o s : State} (h : Keeps o s) (r v) : Keeps o (regWrite s r v) := by
  have hd := fun f d => setDomain_keeps h f d
  have ht := fun n t => setTenant_keeps h n t
  cases r with
  | fwin n r => exact writeFwin_keeps h n r v
  | topo n => exact h
  | bootst n => exact h
  | ikey n r => exact h
  | ctx f r => exact hd f _
  | xl f r =>
    unfold regWrite
    dsimp only
    split
    · exact hd f _
    · exact writeXlInv_keeps h f v
    · exact hd f _
    · exact startMove_keeps h f v
    · exact h
  | ten n r =>
    unfold regWrite
    dsimp only
    split
    · exact writeTenRoot_keeps h n v
    · exact ht n _
    · exact ht n _
    · exact ht n _
    · exact ht n _
    · exact kickTenant_keeps h n
    · exact h
  | domRst f => exact writeDomRst_keeps h f v
  | hw r => exact writeHw_keeps h r v
  | evq f r => exact hd f _
  | err die r => exact ite_keeps (setDie_keeps h die _) h
  | wp m n r => exact setMdie_keeps h m _
  | bp f n r => exact hd f _
  | tr f r => exact hd f _
  | pr f r => exact hd f _
  | crng f n r => exact hd f _

/-! ### Regions, scalar loads and stores, waits, joins, barriers and near-memory jobs -/

theorem writeRegs_keeps {o s : State} (h : Keeps o s) (pa n v) : Keeps o (writeRegs s pa n v) := by
  unfold writeRegs
  split
  · exact h
  · exact regWrite_keeps h _ _

theorem abortAt_keeps {o s : State} (h : Keeps o s) (k cause) : Keeps o (abortAt s k cause) := by
  unfold abortAt
  split
  · exact h
  · exact ite_keeps (setJob_keeps (abortRegion_keeps h _ _ _) _ _) h

theorem learnAt_keeps {o s : State} (h : Keeps o s) (k lo hi) : Keeps o (learnAt s k lo hi) := by
  unfold learnAt
  split
  · exact h
  · exact ite_keeps h (ite_keeps (abortAt_keeps (setJob_keeps h _ _) _ _) (setJob_keeps h _ _))

theorem learnOwn_keeps {o s : State} (h : Keeps o s) (k) : Keeps o (learnOwn s k) := by
  unfold learnOwn
  split
  · exact h
  · exact learnAt_keeps h _ _ _

theorem addEdge_keeps {o s : State} (h : Keeps o s) (p q) : Keeps o (addEdge s p q) := by
  unfold addEdge
  split
  · split
    · exact h
    · extract_lets
      split
      · exact ite_keeps (abortAt_keeps (ite_keeps (abortAt_keeps h _ _) h) _ _) (ite_keeps (abortAt_keeps h _ _) h)
      · exact narrow_keeps (narrow_keeps h _ _) _ _
  · exact h

theorem touchLine_keeps {o s : State} (h : Keeps o s) (k line store) : Keeps o (touchLine s k line store) := by
  grind [touchLine, addEdge_keeps, narrow_keeps, foldl_keeps]

theorem regionLoad_keeps {o s : State} (h : Keeps o s) (k pa n) : RegResKeeps o (regionLoad s k pa n) := by
  unfold regionLoad
  split
  · rename_i j r _ _
    have hp := memPrep_keeps h (jCoreKey k) 3 (lineOf pa)
    have ht := touchLine_keeps (l1Read_keeps (cohRead_keeps hp (jCoreKey k) (lineOf pa) j.fdom) (jCoreKey k) (lineOf pa) true) k (lineOf pa) false
    grind [RegResKeeps, abortAt_keeps, noteAccess_keeps, narrowQuiet_keeps]
  · exact h

theorem regionStore_keeps {o s : State} (h : Keeps o s) (k pa l) : RegResKeeps o (regionStore s k pa l) := by
  grind [regionStore, RegResKeeps, memPrep_keeps, abortAt_keeps, narrowQuiet_keeps, l1Touch_keeps, touchLine_keeps]

theorem regionRegStore_keeps {o s : State} (h : Keeps o s) (k pa n v) : Keeps o (regionRegStore s k pa n v) := narrowQuiet_keeps h _ _

theorem execRbeg_keeps {o s : State} (h : Keeps o s) (o1) : OutKeeps o (execRbeg o1 s) :=
  sExec_keeps h (fun k j => by grind [SResKeeps, publishOwn_keeps]) _ _ _

theorem execRcom_keeps {o s : State} (h : Keeps o s) (d) : OutKeeps o (execRcom d s) :=
  sExec_keeps h (fun k j => by grind [SResKeeps, learnOwn_keeps]) _ _ _

theorem execRabt_keeps {o s : State} (h : Keeps o s) (c) : OutKeeps o (execRabt c s) :=
  sExec_keeps h (fun k j => by grind [SResKeeps, abortRegion_keeps]) _ _ _

theorem execRbndLo_keeps {o s : State} (h : Keeps o s) (d) : OutKeeps o (execRbndLo d s) :=
  sExec_keeps h (fun k j => by grind [SResKeeps]) _ _ _

theorem execRbndHi_keeps {o s : State} (h : Keeps o s) (d) : OutKeeps o (execRbndHi d s) :=
  sExec_keeps h (fun k j => by grind [SResKeeps]) _ _ _

theorem gather_keeps {o s : State} (h : Keeps o s) (k f l) : Keeps o (gather s k f l) := by
  induction l generalizing s with
  | nil => exact h
  | cons x l ih =>
    have hp := memPrep_keeps h (jCoreKey k) 3 x
    exact ite_keeps (ih h) (ite_keeps hp (ih (keeps_updM (cohPut_keeps hp _ _ _ _ _ _))))

theorem learnG_keeps {o s : State} (h : Keeps o s) (id g) : Keeps o (learnG s id g) := ite_keeps (setDie_keeps h _ _) (setMdie_keeps h _ _)

theorem freezeRegion_keeps {o s : State} (h : Keeps o s) (k r) : Keeps o (freezeRegion s k r) :=
  narrowQuiet_keeps (foldl_keeps (fun _ _ ht => setLineRec_keeps ht _ _) (foldl_keeps (fun _ _ ht => setLineRec_keeps ht _ _) h _) _) _ _

theorem commitRegion_keeps {o s : State} (h : Keeps o s) (k p j r d) : Keeps o (commitRegion s k p j r d) := by
  unfold commitRegion
  extract_lets core s1 s2 s3 vc s4 m s5 s6 s7 g s8 dies q s9 s10
  have h1 : Keeps o s1 := foldl_keeps (fun _ _ ht => cohPut_keeps ht _ _ _ _ _ _) h _
  have h3 : Keeps o s3 := modJob_keeps (foldl_keeps (fun _ _ ht => writeRegs_keeps ht _ _ _) h1 _) k _
  have h5 : Keeps o s5 := keeps_updM (foldl_keeps (fun _ _ ht => relWrite_keeps ht _ _ _ _ _) h3 _)
  have h7 : Keeps o s7 := foldl_keeps (fun _ _ ht => narrowQuiet_keeps ht _ _) (foldl_keeps (fun _ _ ht => narrowQuiet_keeps ht _ _) h5 _) _
  have h9 : Keeps o s9 := keeps_upd (learnG_keeps (keeps_upd h7) _ _)
  have h10 : Keeps o s10 := foldl_keeps (fun _ q ht => ite_keeps (learnOwn_keeps ht q) ht) h9 _
  split
  · exact h10
  · exact sFinish_keeps h10 (r := .retire _ _) h10 k _

theorem execRegionCommit_keeps {o s : State} (h : Keeps o s) (k) : OutKeeps o (execRegionCommit k s) := by
  unfold execRegionCommit
  split
  · exact h
  · split
    · refine outKeeps_ite (sFinish_keeps h (r := .retire s _) h k _) ?_
      split
      · exact commitRegion_keeps h k _ _ _ _
      · refine outKeeps_ite (gather_keeps (publishOwn_keeps h _ 3) k _ _) ?_
        have hl := learnOwn_keeps h k
        dsimp only
        split
        · exact hl
        · exact freezeRegion_keeps hl k _
    · exact h

theorem takePkt_keeps {o s : State} (h : Keeps o s) (cls op m) {t} (e : takePkt s cls op m = some t) : Keeps o t := by
  grind [takePkt, keeps_upd]

theorem execNrw_keeps {o s : State} (h : Keeps o s) (m) : OutKeeps o (execNrw m s) := by
  grind [execNrw, OutKeeps, learnAt_keeps, takePkt_keeps]

theorem execPos_keeps {o s : State} (h : Keeps o s) (m) : OutKeeps o (execPos m s) := by
  grind [execPos, OutKeeps, learnOwn_keeps, learnG_keeps, takePkt_keeps, foldl_keeps]

theorem execPositionRebase_keeps {o s : State} (h : Keeps o s) : OutKeeps o (execPositionRebase s) := by
  unfold execPositionRebase
  split
  · exact h
  · split
    · exact keeps_upd h
    · exact foldl_keeps (fun _ _ ht => setMdie_keeps ht _ _) (foldl_keeps (fun _ _ ht => setDie_keeps ht _ _) (keeps_updM h) _) _

theorem takeLoad_keeps {o s : State} (h : Keeps o s) (k ea v j) : AResKeeps o (takeLoad s k ea v j) := by
  grind [takeLoad, AResKeeps, setJob_keeps, takeIn_keeps]

theorem sLoad1_keeps {o s : State} (h : Keeps o s) (k ea pa n sc ordinary) : AResKeeps o (sLoad1 s k ea pa n sc ordinary) := by
  unfold sLoad1
  split
  · exact h
  · rename_i j _
    have ht := noteTlb_keeps h j.fdom ea
    have hl := fun t (ht : Keeps o t) v => takeLoad_keeps ht k ea v j
    have hr := regionLoad_keeps ht k pa n
    have hm := memReady_keeps ht ⟨k, 0, 1⟩ sc pa
    have hv := l1Read_keeps (memLoad_keeps hm ⟨k, 0, 1⟩ sc pa n ordinary) (jCoreKey k) (lineOf pa) true
    have hp := publishOwn_keeps ht (jCoreKey k) 3
    dsimp only
    split
    · exact hl _ ht 0
    · split
      · exact hl _ hp _
      · split
        · cases hx : regionLoad (noteTlb s j.fdom ea) k pa n with
          | ok t v => exact hl t (by rwa [hx] at hr) _
          | stall t => rwa [hx] at hr
          | gone t => rwa [hx] at hr
        · split
          · exact hm
          · exact hl _ hv _

theorem sStore1_keeps {o s : State} (h : Keeps o s) (k ea pa n v sc ordinary rel) : AResKeeps o (sStore1 s k ea pa n v sc ordinary rel) := by
  unfold sStore1
  split
  · exact h
  · rename_i j _
    have ht := noteTlb_keeps h j.fdom ea
    have hr := regionStore_keeps ht k pa (natLe n v)
    have hm := memReady_keeps ht ⟨k, 0, 1⟩ sc pa
    have hp := publishOwn_keeps ht (jCoreKey k) 3
    dsimp only
    split
    · exact ht
    · split
      · exact ite_keeps (regionRegStore_keeps ht k pa n v) (writeRegs_keeps hp pa n v)
      · split
        · cases hx : regionStore (noteTlb s j.fdom ea) k pa (natLe n v) with
          | ok t v => rwa [hx] at hr
          | stall t => rwa [hx] at hr
          | gone t => rwa [hx] at hr
        · split
          · exact hm
          · exact l1Read_keeps (memStore_keeps hm ⟨k, 0, 1⟩ sc pa (natLe n v) ordinary rel) (jCoreKey k) (lineOf pa) true

theorem sLoads_keeps {o s : State} (h : Keeps o s) (k n sc ordinary l) : AResKeeps o (sLoads s k n sc ordinary l) := by
  induction l generalizing s with
  | nil => exact h
  | cons x l ih =>
    have h1 := sLoad1_keeps h k x.1 x.2 n sc ordinary
    unfold sLoads
    cases e1 : sLoad1 s k x.1 x.2 n sc ordinary with
    | ok t v =>
      have h2 := ih (s := t) (by rwa [e1] at h1)
      dsimp only
      cases e2 : sLoads t k n sc ordinary l with
      | ok u w => rwa [e2] at h2
      | stall u => rwa [e2] at h2
      | gone u => rwa [e2] at h2
    | stall t => rwa [e1] at h1
    | gone t => rwa [e1] at h1

theorem sStores_keeps {o s : State} (h : Keeps o s) (k n sc ordinary rel l) : AResKeeps o (sStores s k n sc ordinary rel l) := by
  induction l generalizing s with
  | nil => exact h
  | cons x l ih =>
    have h1 := sStore1_keeps h k x.1.1 x.1.2 n x.2 sc ordinary rel
    unfold sStores
    cases e1 : sStore1 s k x.1.1 x.1.2 n x.2 sc ordinary rel with
    | ok t v => exact ih (s := t) (by rwa [e1] at h1)
    | stall t => rwa [e1] at h1
    | gone t => rwa [e1] at h1

theorem sFail_keeps {o s : State} (h : Keeps o s) (j e) : SResKeeps o (sFail s j e) := by
  cases e with
  | trap c v => trivial
  | ok pa => exact h
  | stall => exact h

theorem sDone_keeps {o s : State} (h : Keeps o s) (k j) : SResKeeps o (sDone s k j) := by
  grind [sDone, SResKeeps, abortRegion_keeps]

theorem sPrep_keeps {o s : State} (h : Keeps o s) (k sc l) : Keeps o (sPrep s k sc l).1 := by
  induction l generalizing s with
  | nil => exact h
  | cons x l ih =>
    have hm := memReady_keeps h ⟨k, 0, 1⟩ sc x.2
    unfold sPrep
    dsimp only
    split
    · exact ih h
    · split
      · exact ih hm
      · exact hm

theorem sReadyAll_keeps {o s : State} (h : Keeps o s) (k j sc l) : Keeps o (sReadyAll s k j sc l).1 := by
  unfold sReadyAll
  split
  · exact h
  · exact sPrep_keeps h _ _ _

theorem loadInstr_keeps {o s : State} (h : Keeps o s) (k j a sc eas put) : SResKeeps o (loadInstr s k j a sc eas put) := by
  unfold loadInstr
  split
  · exact sFail_keeps h j _
  · rename_i l _
    have hp := sReadyAll_keeps h k j sc l
    have hl := sLoads_keeps hp k a.n sc a.ordinary l
    dsimp only
    split
    · exact hp
    · cases e : sLoads (sReadyAll s k j sc l).1 k a.n sc a.ordinary l with
      | ok t v => exact sDone_keeps (show Keeps o t by rwa [e] at hl) k _
      | stall t => rwa [e] at hl
      | gone t => rwa [e] at hl

theorem storeInstr_keeps {o s : State} (h : Keeps o s) (k j a sc rel eas vs) : SResKeeps o (storeInstr s k j a sc rel eas vs) := by
  unfold storeInstr
  split
  · exact sFail_keeps h j _
  · rename_i l _
    have hr : Keeps o (match rel with | some t => publishOwn s (jCoreKey k) (effScope t) | none => s) := by
      cases rel with
      | none => exact h
      | some t => exact publishOwn_keeps h _ _
    extract_lets t p
    have hp : Keeps o p.1 := sReadyAll_keeps hr k _ sc l
    have hl := sStores_keeps hp k a.n sc a.ordinary rel (l.zip vs)
    split
    · exact hp
    · cases e : sStores p.1 k a.n sc a.ordinary rel (l.zip vs) with
      | ok t v => exact sDone_keeps (show Keeps o t by rwa [e] at hl) k _
      | stall t => rwa [e] at hl
      | gone t => rwa [e] at hl

theorem execLd_keeps {o s : State} (h : Keeps o s) (d a w k x o1) : OutKeeps o (execLd d a w k x o1 s) :=
  sExec_keeps h (fun k j => by grind [SResKeeps, ! => loadInstr_keeps]) _ _ _

theorem execSt_keeps {o s : State} (h : Keeps o s) (d a w k o1) : OutKeeps o (execSt d a w k o1 s) :=
  sExec_keeps h (fun k j => by grind [SResKeeps, ! => storeInstr_keeps]) _ _ _

theorem execLdm_keeps {o s : State} (h : Keeps o s) (d a n o1) : OutKeeps o (execLdm d a n o1 s) :=
  sExec_keeps h (fun k j => by grind [SResKeeps, ! => loadInstr_keeps]) _ _ _

theorem execStm_keeps {o s : State} (h : Keeps o s) (d a n o1) : OutKeeps o (execStm d a n o1 s) :=
  sExec_keeps h (fun k j => by grind [SResKeeps, ! => storeInstr_keeps]) _ _ _

theorem execLda_keeps {o s : State} (h : Keeps o s) (d a w sc o1) : OutKeeps o (execLda d a w sc o1 s) :=
  sExec_keeps h (fun k j => by grind [SResKeeps, ! => loadInstr_keeps]) _ _ _

theorem execStl_keeps {o s : State} (h : Keeps o s) (d a w sc o1) : OutKeeps o (execStl d a w sc o1 s) :=
  sExec_keeps h (fun k j => by grind [SResKeeps, ! => storeInstr_keeps]) _ _ _

theorem sendThrows_keeps {o s : State} (h : Keeps o s) (uid line cores) : Keeps o (sendThrows s uid line cores) := keeps_updM h

theorem execThrow_keeps {o s : State} (h : Keeps o s) (d a b w sc) : OutKeeps o (execThrow d a b w sc s) := by
  refine sExec_keeps h (fun c j => ?_) _ _ _
  dsimp only
  split
  · trivial
  · exact h
  · rename_i pa _
    have hs := sStore1_keeps h c (j.s a).toNat pa (widthBytes w) ((j.s d).toNat % 2 ^ (8 * widthBytes w)) 3 false none
    split
    · rename_i e; rwa [e] at hs
    · rename_i e; rwa [e] at hs
    · rename_i t v e
      have ht : Keeps o t := by rwa [e] at hs
      exact sDone_keeps (ite_keeps ht (sendThrows_keeps ht _ _ _)) c _

theorem execPref_keeps {o s : State} (h : Keeps o s) (a _sc _o) : OutKeeps o (execPref a _sc _o s) :=
  sExec_keeps h (fun k j => by grind [SResKeeps]) _ _ _

theorem execThrowDelivery_keeps {o s : State} (h : Keeps o s) (core line) : OutKeeps o (execThrowDelivery core line s) := by
  unfold execThrowDelivery
  extract_lets
  split
  · exact h
  · exact deliver_keeps (keeps_updM h) _ _

theorem fenceDone_keeps {o s : State} (h : Keeps o s) (k j clk sc src dst kind) : Keeps o (fenceDone s k j clk sc src dst kind).1 :=
  ite_keeps h (publishOwn_keeps h _ _)

theorem execFence_keeps {o s : State} (h : Keeps o s) (sc src dst k) : OutKeeps o (execFence sc src dst k s) :=
  sExec_keeps h (fun k j => by grind [SResKeeps, fenceDone_keeps]) _ _ _

theorem execFenceRetire_keeps {o s : State} (h : Keeps o s) (k) : OutKeeps o (execFenceRetire k s) := by
  unfold execFenceRetire
  split
  · exact h
  · split
    · exact outKeeps_ite h (sFinish_keeps h (r := .retire _ _) (fenceDone_keeps h k _ _ _ _ _ _) k _)
    · exact h

theorem park_keeps {o s : State} (h : Keeps o s) (k j) : SResKeeps o (park s k j) := by
  grind [park, SResKeeps, passSlot_keeps, setJob_keeps]

theorem execWaitProd_keeps {o s : State} (h : Keeps o s) : OutKeeps o (execWaitProd s) :=
  sExec_keeps h (fun k j => by grind [SResKeeps, ! => park_keeps]) _ _ _

theorem waitMem_keeps {o s : State} (h : Keeps o s) (a b sc ok) : OutKeeps o (waitMem s a b sc ok) := by
  refine sExec_keeps h (fun k j => ?_) _ _ _
  dsimp only
  split
  · trivial
  · exact h
  · rename_i pa _
    have ht := noteTlb_keeps h j.fdom (j.s a).toNat
    have hp := memReady_keeps ht ⟨k, 0, 1⟩ sc.toNat pa
    have hl := l1Read_keeps (memLoad_keeps hp ⟨k, 0, 1⟩ sc.toNat pa 8 false) (jCoreKey k) (lineOf pa) true
    split
    · exact takeIn_keeps ht k _ _ _ _
    · split
      · split
        · split
          · exact takeIn_keeps ht k _ _ _ _
          · exact park_keeps ht k _
        · exact park_keeps ht k _
      · split
        · exact hp
        · split
          · exact takeIn_keeps hl k _ _ _ _
          · exact park_keeps hl k _

theorem execWaitMemeq_keeps {o s : State} (h : Keeps o s) (a b sc) : OutKeeps o (execWaitMemeq a b sc s) := by
  grind [execWaitMemeq, OutKeeps, waitMem_keeps]

theorem execWaitMemge_keeps {o s : State} (h : Keeps o s) (a b sc) : OutKeeps o (execWaitMemge a b sc s) := by
  grind [execWaitMemge, OutKeeps, waitMem_keeps]

theorem execWaitNm_keeps {o s : State} (h : Keeps o s) (a) : OutKeeps o (execWaitNm a s) :=
  sExec_keeps h (fun k j => by grind [SResKeeps, ! => park_keeps]) _ _ _

theorem execWaitIngr_keeps {o s : State} (h : Keeps o s) (a b) : OutKeeps o (execWaitIngr a b s) :=
  sExec_keeps h (fun k j => by grind [SResKeeps, ! => park_keeps]) _ _ _

theorem execWaitReevaluate_keeps {o s : State} (h : Keeps o s) (k) : OutKeeps o (execWaitReevaluate k s) := by
  unfold execWaitReevaluate
  split
  · exact h
  · split
    · exact wakeSlot_keeps (setJob_keeps h _ _) _
    · exact h

theorem markTriggered_keeps {o s : State} (h : Keeps o s) (j) : Keeps o (markTriggered s j) := by
  unfold markTriggered
  split
  · exact h
  · exact ite_keeps h (setLaunch_keeps h _ _)

theorem execTrig_keeps {o s : State} (h : Keeps o s) : OutKeeps o (execTrig s) :=
  sExec_keeps h (fun k j => by grind [SResKeeps, publishOwn_keeps, markTriggered_keeps]) _ _ _

theorem retireJoins_keeps {o s : State} (h : Keeps o s) (k m ends) : Keeps o (retireJoins s k m ends) :=
  foldl_keeps (fun _ _ ht => ejoinRetire_keeps ht _ _ _) h _

theorem rdvDone_keeps {o s : State} (h : Keeps o s) (k m) : Keeps o (rdvDone s k m) := by
  unfold rdvDone
  split
  · exact h
  · split
    · exact takeTrap_keeps h k _ _ _
    · exact sFinish_keeps h (r := .retire _ _) (retireJoins_keeps h k m false) k _

theorem countYield_keeps {o s : State} (h : Keeps o s) (f) : Keeps o (countYield s f) := setDomain_keeps h _ _

theorem liteSave_keeps {o s : State} (h : Keeps o s) (k j) : Keeps o (liteSave s k j) := by
  have ht := foldl_keeps (fun t (st : Stream) ht => traceRecord_keeps ht k j st 4 0 (j.seq st) (j.pcOf st).toNat (cycleOf t k)) h [Stream.S, .L, .X, .T]
  exact ite_keeps (abandon_keeps ht k j _ _ _ _)
    (keeps_upd (barrierLeave_keeps (freeSlot_keeps (countYield_keeps (virtWrite_keeps ht _ _ _) _) k j) j.uid))

theorem yieldDone_keeps {o s : State} (h : Keeps o s) (k) : Keeps o (yieldDone s k) := by
  unfold yieldDone
  split
  · exact h
  · rename_i j _
    split
    · exact takeTrap_keeps h k _ _ _
    · have hf := fun i => sFinish_keeps h (r := .retire _ i) (leaseEnd_keeps (retireJoins_keeps h k j.presentMask false) k) k j
      refine ite_keeps (ite_keeps (setJob_keeps h k _) ?_) (hf _)
      dsimp only
      split
      · exact liteSave_keeps (hf _) k _
      · exact hf _

theorem markHalted_keeps {o s : State} (h : Keeps o s) (j) : Keeps o (markHalted s j) := by
  unfold markHalted
  split
  · exact h
  · exact setLaunch_keeps h _ _

theorem haltDone_keeps {o s : State} (h : Keeps o s) (k) : Keeps o (haltDone s k) := by
  unfold haltDone
  split
  · exact h
  · split
    · exact setJob_keeps h k _
    · split
      · exact takeTrap_keeps h k _ _ _
      · exact updateReady_keeps (markHalted_keeps (barrierLeave_keeps (freeReserve_keeps (freeSlot_keeps (traceWord_keeps (traceFlow_keeps
          (publishOwn_keeps (retireJoins_keeps h k _ true) _ 3) k _ _ _) k _ _ _ _) k _) _ _) _) _)

theorem haltGo_keeps {o s : State} (h : Keeps o s) (k) : Keeps o (haltGo s k) := by
  unfold haltGo
  split
  · exact haltDone_keeps h _
  · exact publishSel_keeps h _ _

theorem joinIssue_keeps {o s : State} (h : Keeps o s) (k j m why) : SResKeeps o (joinIssue s k j m why) := by
  unfold joinIssue
  split
  · exact h
  · cases why with
    | rdv => exact rdvDone_keeps h k m
    | yield => exact yieldDone_keeps h k
    | halt =>
      dsimp only
      split
      · exact haltDone_keeps h k
      · exact h

theorem execRdv_keeps {o s : State} (h : Keeps o s) (m) : OutKeeps o (execRdv m s) :=
  sExec_keeps h (fun k j => by grind [SResKeeps, ! => joinIssue_keeps]) _ _ _

theorem execHalt_keeps {o s : State} (h : Keeps o s) : OutKeeps o (execHalt s) :=
  sExec_keeps h (fun k j => by grind [SResKeeps, ! => joinIssue_keeps]) _ _ _

theorem execYield_keeps {o s : State} (h : Keeps o s) : OutKeeps o (execYield s) :=
  sExec_keeps h (fun k j => by grind [SResKeeps, ! => joinIssue_keeps]) _ _ _

theorem execJoinComplete_keeps {o s : State} (h : Keeps o s) (k) : OutKeeps o (execJoinComplete k s) := by
  unfold execJoinComplete
  split
  · exact h
  · split
    · exact ite_keeps (rdvDone_keeps h _ _) h
    · exact ite_keeps (yieldDone_keeps h _) h
    · exact h

theorem execHaltRetire_keeps {o s : State} (h : Keeps o s) (k) : OutKeeps o (execHaltRetire k s) := by
  unfold execHaltRetire
  split
  · exact h
  · split
    · exact ite_keeps (haltGo_keeps h _) h
    · exact h

theorem setBarrier_keeps {o s : State} (h : Keeps o s) (cl launch id b) : Keeps o (setBarrier s cl launch id b) := setCluster_keeps h cl _

theorem arrive_keeps {o s : State} (h : Keeps o s) (k j id) : Keeps o (arrive s k j id) := by
  unfold arrive
  extract_lets
  split
  · exact setBarrier_keeps h _ _ _ _
  · exact ite_keeps (setBarrier_keeps h _ _ _ _) (setBarrier_keeps h _ _ _ _)

theorem execBarc_keeps {o s : State} (h : Keeps o s) (i) : OutKeeps o (execBarc i s) :=
  sExec_keeps h (fun k j => by grind [SResKeeps, passSlot_keeps, arrive_keeps, setJob_keeps, publishOwn_keeps]) _ _ _

theorem depart_keeps {o s : State} (h : Keeps o s) (uid v) : Keeps o (depart s uid v) := by
  unfold depart
  split
  · exact h
  · split
    · exact h
    · split
      · exact wakeSlot_keeps (setJob_keeps h _ _) _
      · exact h

theorem rearrive_keeps {o s : State} (h : Keeps o s) (uid id) : Keeps o (rearrive s uid id) := by
  unfold rearrive
  split
  · split
    · exact arrive_keeps h _ _ _
    · exact h
  · exact h

theorem execBarrierComplete_keeps {o s : State} (h : Keeps o s) (cl launch id) : OutKeeps o (execBarrierComplete cl launch id s) := by
  unfold execBarrierComplete
  split
  · exact h
  · split
    · exact foldl_keeps (fun _ _ ht => rearrive_keeps ht _ _) (foldl_keeps (fun _ _ ht => depart_keeps ht _ _) (setBarrier_keeps h _ _ _ _) _) _
    · exact h

theorem nmQueue_keeps {o s : State} (h : Keeps o s) (k j n w) : Keeps o (nmQueue s k j n w).1 := setMdie_keeps h _ _

theorem execNmgo_keeps {o s : State} (h : Keeps o s) (d a) : OutKeeps o (execNmgo d a s) :=
  sExec_keeps h (fun k j => by grind [SResKeeps, nmQueue_keeps, ! => sFail_keeps, ! => sLoads_keeps, AResKeeps]) _ _ _

theorem execNmwt_keeps {o s : State} (h : Keeps o s) (d a) : OutKeeps o (execNmwt d a s) :=
  sExec_keeps h (fun k j => by grind [SResKeeps]) _ _ _

theorem nmTouch_keeps {o s : State} (h : Keeps o s) (f mdie pa n ty) : Keeps o (nmTouch s f mdie pa n ty) :=
  foldl_keeps (fun _ _ ht => watchHit_keeps (combineLine_keeps ht _) _ _ _ _ _) h _

theorem nmRead_keeps {o : State} {r : NmRun} (h : Keeps o r.s) (j mdie va n) : Keeps o (nmRead r j mdie va n).1.s := by
  grind [nmRead, nmTouch_keeps, noteTlb_keeps]

theorem nmReplace_keeps {o s : State} (h : Keeps o s) (j pa l) : Keeps o (nmReplace s j pa l) := keeps_updM h

theorem nmWrite_keeps {o : State} {r : NmRun} (h : Keeps o r.s) (j mdie va l) : Keeps o (nmWrite r j mdie va l).s := by
  unfold nmWrite
  split
  · exact h
  · exact poisonWrite_keeps (relWrite_keeps (nSetBytes_keeps (nmReplace_keeps (foldl_keeps (fun _ ln ht => slWrite_keeps ht ln none)
      (nmTouch_keeps (noteTlb_keeps h j.fdom va) _ _ _ _ _) _) j _ _) _ _) _ _ _ _ _) _ _

theorem groupStart_keeps {o : State} {r : NmRun} (h : Keeps o r.s) (n j i) : Keeps o (groupStart n j i r).s := by
  grind [groupStart, nmRead_keeps]

theorem groupEnd_keeps {o : State} {r : NmRun} (h : Keeps o r.s) (n j) : Keeps o (groupEnd n j r).s := by
  grind [groupEnd, nmWrite_keeps]

theorem bodyAll_keeps {o : State} {r : NmRun} (h : Keeps o r.s) (n a b) : Keeps o (bodyAll n a b r).s := by
  grind [bodyAll]

theorem nestBody_keeps {o : State} {r : NmRun} (h : Keeps o r.s) (n j i) : Keeps o (nestBody n j i r).s := by
  grind [nestBody, bodyAll_keeps, nmRead_keeps]

theorem nestStep_keeps {o : State} {r : NmRun} (h : Keeps o r.s) (n j i) : Keeps o (nestStep n j i r).s := by
  grind [nestStep, groupEnd_keeps, groupStart_keeps, nestBody_keeps]

theorem nestWalk_keeps {o : State} {r : NmRun} (h : Keeps o r.s) (n j m i) : Keeps o (nestWalk n j m i r).s := by
  induction m generalizing i r with
  | zero => exact h
  | succ m ih =>
    unfold nestWalk
    dsimp only
    split
    · exact nestStep_keeps h n j i
    · exact ih (nestStep_keeps h n j i) _

theorem nestScramble_keeps {o : State} {r : NmRun} (h : Keeps o r.s) (n j m i) : Keeps o (nestScramble n j m i r).s := by
  induction m generalizing i r with
  | zero => exact h
  | succ m ih =>
    refine ih (r := _) ?_ _
    split
    · exact h
    · split
      · exact h
      · exact foldl_keeps (fun _ a ht => nSet_keeps ht a _) h _

theorem nmEnd_keeps {o s : State} (h : Keeps o s) (m j code addr fl) : Keeps o (nmEnd s m j code addr fl) := by
  grind [nmEnd, setMdie_keeps, raiseEvent_keeps, updJob_keeps, keepStatus_keeps]

theorem nmSetWindow_keeps {o s : State} (h : Keeps o s) (n j w) : Keeps o (nmSetWindow s n j w) := by
  grind [nmSetWindow, bankShare_keeps, updJob_keeps]

theorem nmStartRun_keeps {o s : State} (h : Keeps o s) (j) : Keeps o (nmStartRun s j).s := by
  grind [nmStartRun]

theorem nmFailRun_keeps {o : State} {r : NmRun} (h : Keeps o r.s) (m j n code addr) : Keeps o (nmFailRun r m j n code addr) := by
  grind [nmFailRun, nmSetWindow_keeps, nmEnd_keeps, nestScramble_keeps]

theorem nmStall_keeps {o s : State} (h : Keeps o s) (m j a) : Keeps o (nmStall s m j a) := setMdie_keeps h _ _

theorem execNmJobComplete_keeps {o s : State} (h : Keeps o s) (m u) : OutKeeps o (execNmJobComplete m u s) := by
  unfold execNmJobComplete
  split
  · exact h
  · rename_i j _
    have hw := nestWalk_keeps (r := nmStartRun s j) h (nestOf (j.words.map BitVec.toNat)) j
    dsimp only
    split
    · exact nmEnd_keeps (ite_keeps (nmSetWindow_keeps (hw _ _) _ _ _) (hw _ _)) _ _ _ _ _
    · split
      · exact outKeeps_ite (nmStall_keeps h _ _ _) (outKeeps_ite (nmFailRun_keeps (hw _ _) _ _ _ _ _) h)
      · exact nmStall_keeps h _ _ _
    · exact nmFailRun_keeps (hw _ _) _ _ _ _ _

theorem execNmJobStart_keeps {o s : State} (h : Keeps o s) (m) : OutKeeps o (execNmJobStart m s) := by
  unfold execNmJobStart
  extract_lets
  split
  · exact setMdie_keeps h _ _
  · exact h

theorem execNmWatchdogReset_keeps {o s : State} (h : Keeps o s) (m u) : OutKeeps o (execNmWatchdogReset m u s) := by
  grind [execNmWatchdogReset, OutKeeps, nmStartRun_keeps, nmFailRun_keeps]

theorem execActivationAlert_keeps {o s : State} (h : Keeps o s) (m u row share total) : OutKeeps o (execActivationAlert m u row share total s) := by
  unfold execActivationAlert
  split
  · exact h
  · split
    · exact raiseEvent_keeps h _ _ _ _ _ _
    · exact h

theorem takeGroups_keeps {o s : State} (h : Keeps o s) (k st va n l) : Keeps o (takeGroups s k st va n l).1 := by
  induction n generalizing s va l with
  | zero => exact h
  | succ n ih =>
    cases l with
    | nil => exact h
    | cons b l =>
      unfold takeGroups
      split
      · exact h
      · exact ih (setJob_keeps (takeIn_keeps h k _ st _ va) k _) _ _

/-! ### Vector words, leases, frames, ingress and copy words -/

theorem takeBytes_keeps {o s : State} (h : Keeps o s) (k st va l) : Keeps o (takeBytes s k st va l).1 := by
  unfold takeBytes
  split
  · exact h
  · split
    · exact takeGroups_keeps h _ _ _ _ _
    · exact h

theorem readScales_keeps {o s : State} (h : Keeps o s) (k n l) {t} (e : readScales s k n l = some t) : Keeps o t.1 := by
  induction l generalizing s t with
  | nil => exact Option.some.inj e ▸ h
  | cons pa l ih =>
    unfold readScales at e
    dsimp only at e
    split at e
    · cases e
    · obtain ⟨u, hu, rfl⟩ := Option.map_eq_some_iff.mp e
      exact ih (t := u) (memLoad_keeps (memReady_keeps h _ _ _) _ _ _ _ _) hu

theorem countConflicts_keeps {o s : State} (h : Keeps o s) (k o1) : Keeps o (countConflicts s k o1) :=
  ite_keeps h (bankShare_keeps (setCluster_keeps h _ _) _ _)

theorem vLand_keeps {o s : State} (h : Keeps o s) (k seen o1 extra) : IResKeeps o (vLand s k seen o1 extra) := by
  grind [vLand, IResKeeps, countConflicts_keeps]

theorem vIssue_keeps {o s : State} (h : Keeps o s) (k j seen a extra) : IResKeeps o (vIssue s k j seen a extra) := by
  unfold vIssue
  split
  · trivial
  · split
    · trivial
    · exact vLand_keeps h k seen _ extra
  · split
    · trivial
    · split
      · trivial
      · split
        · trivial
        · rename_i e
          exact vLand_keeps (readScales_keeps h k _ _ e) k seen _ extra

theorem vPlan_keeping (i w x) : EPlan.Keeping (vPlan i w x) := by
  intro o s k j v h
  unfold vPlan
  dsimp only
  split
  · trivial
  · split
    · trivial
    · split
      · trivial
      · split
        · exact iresKeeps_ite (iresKeeps_trap o _ _) (vIssue_keeps h k j _ _ _)
        · trivial

theorem planVshape_keeping (w) : EPlan.Keeping (planVshape w) := fun o s k j v h => by
  grind [planVshape, IResKeeps]

theorem retireXWord_keeps {o s : State} (h : Keeps o s) (k) : Keeps o (retireXWord s k) := by
  unfold retireXWord
  split
  · exact h
  · split
    · exact h
    · have hd := fun l => dropFrames_keeps h (jCluster k) l
      exact setJob_keeps (traceWord_keeps (ite_keeps (bankShare_keeps (hd _) _ _) (hd _)) k _ _ _ _) k _

theorem execVectorWordRetire_keeps {o s : State} (h : Keeps o s) (k) : OutKeeps o (execVectorWordRetire k s) := by
  unfold execVectorWordRetire
  split
  · exact h
  · exact ite_keeps (retireXWord_keeps h _) h

theorem leaseSpend_keeps {o s : State} (h : Keeps o s) (k) : Keeps o (leaseSpend s k) := by
  unfold leaseSpend
  extract_lets
  split
  · exact ite_keeps (setCluster_keeps h _ _) h
  · exact h

theorem tileRead_keeps {o s : State} (h : Keeps o s) (w l) {t} (e : tileRead s w l = some t) : Keeps o t.1 := by
  induction l generalizing s t with
  | nil => exact Option.some.inj e ▸ h
  | cons pa l ih =>
    unfold tileRead at e
    dsimp only at e
    split at e
    · cases e
    · obtain ⟨u, hu, rfl⟩ := Option.map_eq_some_iff.mp e
      exact ih (t := u) (memLoad_keeps (memReady_keeps h _ _ _) _ _ _ _ _) hu

theorem startFill_keeps {o s : State} (h : Keeps o s) (k j ea len pin) : LkResKeeps o (startFill s k j ea len pin) := by
  unfold startFill
  extract_lets cl place
  clear_value place
  obtain (_ | t) | at_ := place
  · exact modJob_keeps h k _
  · exact h
  · dsimp only
    cases victim (clusterSt s cl) (runningOn s cl) (some k) (fun _ => true) with
    | none => exact h
    | some fr =>
      have ht := fun t (ht : Keeps o t) l v g => modJob_keeps (setCluster_keeps (takeBytes_keeps ht k .X ea l) cl v) k g
      cases at_ with
      | none => exact ht s h _ _ _
      | some pa =>
        dsimp only
        split
        · trivial
        · rename_i t b e
          exact ht t (tileRead_keeps (noteTlb_keeps h j.fdom ea) _ _ e) _ _ _

theorem countLookup_keeps {o s : State} (h : Keeps o s) (cl counted hit) : Keeps o (countLookup s cl counted hit) :=
  ite_keeps h (setCluster_keeps h _ _)

theorem lookup_keeps {o s : State} (h : Keeps o s) (k j ea len counted pin array accs slots) :
    LkResKeeps o (lookup s k j ea len counted pin array accs slots) := by
  have hc := fun hit => ite_keeps (p := j.lookup.isNone = true) (countLookup_keeps h (jCluster k) counted hit) h
  unfold lookup
  dsimp only
  split
  · have hm := fun v g => modJob_keeps (setCluster_keeps (hc true) (jCluster k) v) k g
    exact lkResKeeps_ite (a := .have_ _ _) (b := .wait _) (setCluster_keeps (hm _ _) _ _) (hm _ _)
  · have hm := fun g => modJob_keeps (hc false) k g
    split
    · exact hm _
    · exact startFill_keeps (hm _) k j ea len pin

theorem addReplica_keeps {o s : State} (h : Keeps o s) (cl f page len) : Keeps o (addReplica s cl f page len).1 := by
  unfold addReplica
  extract_lets
  split
  · exact h
  · split
    · exact setCluster_keeps h _ _
    · exact h

theorem execFrameFillComplete_keeps {o s : State} (h : Keeps o s) (cl fr) : OutKeeps o (execFrameFillComplete cl fr s) := by
  unfold execFrameFillComplete
  extract_lets
  split
  · exact h
  · split
    · exact h
    · split
      · exact setCluster_keeps h _ _
      · exact setCluster_keeps h _ _

theorem execFrameCopyComplete_keeps {o s : State} (h : Keeps o s) (cl fr) : OutKeeps o (execFrameCopyComplete cl fr s) := by
  unfold execFrameCopyComplete
  extract_lets
  split
  · exact h
  · split
    · exact h
    · exact setCluster_keeps h _ _

theorem execHardwareReplica_keeps {o s : State} (h : Keeps o s) (cl fr) : OutKeeps o (execHardwareReplica cl fr s) := by
  unfold execHardwareReplica
  split
  · exact h
  · split
    · exact h
    · exact addReplica_keeps h _ _ _ _

theorem execLeaseGrant_keeps {o s : State} (h : Keeps o s) (cl) : OutKeeps o (execLeaseGrant cl s) := by
  unfold execLeaseGrant
  extract_lets
  split
  · exact h
  · split
    · exact h
    · exact modJob_keeps (setCluster_keeps h _ _) _ _

theorem execLeaseBudgetExhausted_keeps {o s : State} (h : Keeps o s) (cl) : OutKeeps o (execLeaseBudgetExhausted cl s) := by
  unfold execLeaseBudgetExhausted
  extract_lets
  split
  · split
    · exact setCluster_keeps h _ _
    · exact h
  · exact h

theorem ingWrite_keeps {o s : State} (h : Keeps o s) (die f launch pa l) : Keeps o (ingWrite s die f launch pa l) :=
  relWrite_keeps (scopeWrite_keeps (publishSel_keeps (combineLine_keeps h _) _ _) _ _ _ _ _ _ _ _) _ _ _ _ _

theorem ingWriteVa_keeps {o s : State} (h : Keeps o s) (die f launch va l) : Keeps o (ingWriteVa s die f launch va l) := by
  grind [ingWriteVa, ingWrite_keeps, noteTlb_keeps, foldl_keeps]

theorem Group.write_keeps {o s : State} (h : Keeps o s) (die launch g sl row) : Keeps o (Group.write s die launch g sl row) :=
  ingWriteVa_keeps (foldl_keeps (fun _ _ ht => ingWriteVa_keeps ht _ _ _ _ _) h _) _ _ _ _ _

theorem notify_keeps {o s : State} (h : Keeps o s) (die buf g ev src sl) : Keeps o (notify s die buf g ev src sl) := by
  grind [notify, updJob_keeps, keepStatus_keeps, foldl_keeps]

theorem setGroup_keeps {o s : State} (h : Keeps o s) (die buf g) : Keeps o (setGroup s die buf g) := setDie_keeps h _ _

theorem ingRefuse_keeps {o s : State} (h : Keeps o s) (buf cause) : Keeps o (ingRefuse s buf cause).1 := h

theorem ingest_keeps {o s : State} (h : Keeps o s) (die src f launch tag buf row) : Keeps o (ingest s die src f launch tag buf row).1 := by
  have hr := fun c => ingRefuse_keeps h buf c
  unfold ingest
  split
  · exact hr 1
  · split
    · exact hr 1
    · split
      · exact hr 2
      · split
        · split
          · exact raiseEvent_keeps h _ _ _ _ _ _
          · exact notify_keeps (setGroup_keeps (Group.write_keeps h _ _ _ _ _) _ _ _) _ _ _ _ _ _
        · dsimp only
          split
          · exact setGroup_keeps (Group.write_keeps h _ _ _ _ _) _ _ _
          · have hv := fun f a x => raiseEvent_keeps h f 7 1 die a x
            split
            · exact ingRefuse_keeps (hv _ _ _) buf 3
            · exact notify_keeps (setGroup_keeps (hv _ _ _) _ _ _) _ _ _ _ _ _

theorem prefetch_keeps {o s : State} (h : Keeps o s) (f i) : Keeps o (prefetch s f i) :=
  foldl_keeps (fun _ _ ht => noteTlb_keeps ht _ _) h _

theorem copyChecks_keeps {o : State} {go : IRes} (h : IResKeeps o go) (size al sp mem code) :
    IResKeeps o (copyChecks size al sp mem code go) := by
  unfold copyChecks
  split
  · trivial
  · split
    · trivial
    · exact iresKeeps_ite (iresKeeps_trap o _ _) h

theorem copyPlan_keeping {f : State → Nat → Job → CShape → Word → Word → Word → IRes}
    (hf : ∀ o s k j c d a b, Keeps o s → IResKeeps o (f s k j c d a b)) (e i w alone) : EPlan.Keeping (copyPlan e i w alone f) := by
  intro o s k j v h
  have hr := hf o s k j (j.eng e).shape ((spread (opUse i) v).getD 0 0) ((spread (opUse i) v).getD 1 0) ((spread (opUse i) v).getD 2 0) h
  unfold copyPlan
  dsimp only
  split
  · rename_i e
    exact prefetch_keeps (by rwa [e] at hr) _ _
  · exact hr

theorem fly_keeps {o s : State} (h : Keeps o s) : IResKeeps o (fly s) := h

theorem planCpy_keeping (w) : EPlan.Keeping (planCpy w) := copyPlan_keeping (fun _ _ _ _ _ _ _ _ h => copyChecks_keeps (fly_keeps h) _ _ _ _ _) _ _ _ _

theorem planCpyg_keeping (w) : EPlan.Keeping (planCpyg w) := by
  refine copyPlan_keeping (fun o s k j c d a b h => copyChecks_keeps ?_ _ _ _ _ _) _ _ _ _
  split
  · trivial
  · exact h

theorem planCpyd_keeping (w) : EPlan.Keeping (planCpyd w) :=
  copyPlan_keeping (fun _ _ _ _ _ _ _ _ h => iresKeeps_ite (iresKeeps_trap _ _ _) (copyChecks_keeps (fly_keeps h) _ _ _ _ _)) _ _ _ _

theorem planCpym_keeping (w) : EPlan.Keeping (planCpym w) :=
  copyPlan_keeping (fun _ s _ _ _ _ _ _ h => copyChecks_keeps (go := .fly s _) h _ _ _ _ _) _ _ _ _

theorem planPrel_keeping (w) : EPlan.Keeping (planPrel w) := by
  refine copyPlan_keeping (fun o s k j c d a b h => ?_) _ _ _ _
  split
  · trivial
  · trivial

theorem planDgst_keeping (w) : EPlan.Keeping (planDgst w) := copyPlan_keeping (fun _ _ _ _ _ _ _ _ h => copyChecks_keeps (fly_keeps h) _ _ _ _ _) _ _ _ _

theorem planCps_keeping (w) : EPlan.Keeping (planCps w) := copyPlan_keeping (fun _ _ _ _ _ _ _ _ h => copyChecks_keeps (fly_keeps h) _ _ _ _ _) _ _ _ _

theorem planAcw_keeping (w) : EPlan.Keeping (planAcw w) :=
  copyPlan_keeping (fun o s _ _ _ _ _ _ h => copyChecks_keeps
    (iresKeeps_ite (fly_keeps h) (iresKeeps_ite (iresKeeps_trap _ _ _) (show IResKeeps o (.fly s _) from h))) _ _ _ _ _) _ _ _ _

theorem planAcwf_keeping (w) : EPlan.Keeping (planAcwf w) := copyPlan_keeping (fun _ _ _ _ _ _ _ _ h => copyChecks_keeps (fly_keeps h) _ _ _ _ _) _ _ _ _

theorem planCas_keeping (w) : EPlan.Keeping (planCas w) := copyPlan_keeping (fun _ _ _ _ _ _ _ _ h => copyChecks_keeps (fly_keeps h) _ _ _ _ _) _ _ _ _

theorem planCpst_keeping (w) : EPlan.Keeping (planCpst w) := copyPlan_keeping (fun _ _ _ _ _ _ _ _ h => copyChecks_keeps (fly_keeps h) _ _ _ _ _) _ _ _ _

/-! ### Words done in pieces, weight tables, services and traps -/

theorem planScat_keeping (w) : EPlan.Keeping (planScat w) := by
  refine copyPlan_keeping (fun o s k j c d a b h => copyChecks_keeps ?_ _ _ _ _ _) _ _ _ _
  split
  · trivial
  · split
    · trivial
    · exact h

theorem flushPlan_keeping (i w) : EPlan.Keeping (flushPlan i w) :=
  copyPlan_keeping (fun _ _ _ _ _ _ _ _ h => copyChecks_keeps (fly_keeps h) _ _ _ _ _) _ _ _ _

theorem planFlsh_keeping (w) : EPlan.Keeping (planFlsh w) := flushPlan_keeping _ w

theorem planInvl_keeping (w) : EPlan.Keeping (planInvl w) := flushPlan_keeping _ w

theorem piecesFrom_keeps {α : Type} {o : State} {r : CRun} {f : CRun → α → CRes} (hf : ∀ r x, Keeps o r.s → CResKeeps o (f r x))
    (h : Keeps o r.s) (l) : CResKeeps o (piecesFrom f r l) := by
  induction l generalizing r with
  | nil => exact h
  | cons x l ih =>
    have hx := hf r x h
    unfold piecesFrom
    split
    · exact h
    · cases e : f r x with
      | ok u => exact ih (show Keeps o u.s by rwa [e] at hx)
      | wait u => rwa [e] at hx
      | trap u c v => rwa [e] at hx

theorem runPieces_keeps {α : Type} {o : State} {r : CRun} {f : CRun → α → CRes} (hf : ∀ r x, Keeps o r.s → CResKeeps o (f r x))
    (h : Keeps o r.s) (l) : CResKeeps o (runPieces f r l) := piecesFrom_keeps hf h _

theorem atPiece_keeps {o : State} {r : CRun} (h : Keeps o r.s) {f : State → Job → Nat → CRes} (hf : ∀ t j pa, Keeps o t → CResKeeps o (f t j pa))
    (w a va n) : CResKeeps o (atPiece r w a va n f) := by
  unfold atPiece
  split
  · exact h
  · split
    · exact h
    · exact h
    · exact hf _ _ _ (noteTlb_keeps h _ _)

theorem putWindow_keeps {o s : State} (h : Keeps o s) (from_ k i a l tag) : Keeps o (putWindow s from_ k i a l tag) := by
  unfold putWindow
  split
  · exact setJob_keeps h _ _
  · exact h

theorem noteReplica_keeps {o s : State} (h : Keeps o s) (k j w pa) : Keeps o (noteReplica s k j w pa) := by
  unfold noteReplica
  split
  · exact h
  · split
    · exact h
    · exact tokReplica_keeps h _ _ _ _
    · exact tokReplica_keeps h _ _ _ _

theorem lRead_keeps {o : State} {r : CRun} (h : Keeps o r.s) {f : State → List Byte → Nat × Nat → CRes}
    (hf : ∀ t l g, Keeps o t → CResKeeps o (f t l g)) (k i ordinary p) : CResKeeps o (lRead r k i ordinary p f) := by
  unfold lRead
  split
  · exact h
  · split
    · exact hf _ _ _ (takeBytes_keeps h k .L _ _)
    · refine atPiece_keeps h (fun t j pa ht => ?_) _ _ _ _
      have hm := memReady_keeps ht ⟨k, 1, i.seq⟩ 3 pa
      exact cresKeeps_ite (a := .wait r) h (hf _ _ _ (takeBytes_keeps (l1Read_keeps (memLoad_keeps hm _ _ _ _ _) _ _ _) k .L _ _))

theorem noteReplicaOf_keeps {o s : State} (h : Keeps o s) (k w va) : Keeps o
    (match jobAt s k, translateMem s (((jobAt s k).map (·.fdom)).getD 0) false va .read with
      | some j, .ok pa => noteReplica s k j w pa
      | _, _ => s) := by
  split
  · exact noteReplica_keeps h k _ w _
  · exact h

theorem cpyPiece_keeps {o : State} {r : CRun} (h : Keeps o r.s) (k i w win p) : CResKeeps o (cpyPiece k i w win r p) := by
  refine lRead_keeps h (fun t l g ht => ?_) k i true p
  cases win with
  | none => exact noteReplicaOf_keeps ht k w p.va
  | some d => exact noteReplicaOf_keeps (putWindow_keeps ht _ _ _ _ _ _) k w p.va

theorem cpygPiece_keeps {o : State} {r : CRun} (h : Keeps o r.s) (k i w x) : CResKeeps o (cpygPiece k i w r x) :=
  cresKeeps_ite (a := .ok _) (putWindow_keeps h k k i _ _ _) (cpyPiece_keeps h k i w _ _)

theorem cpymPiece_keeps {o : State} {r : CRun} (h : Keeps o r.s) (k i w p) : CResKeeps o (cpymPiece k i w r p) := by
  refine lRead_keeps h (fun t l g ht => ?_) k i true p
  exact noteReplicaOf_keeps (foldl_keeps (fun _ _ hu => putWindow_keeps hu _ _ _ _ _ _) ht _) k w p.va

theorem tPoison_keeps {o : State} {r : CRun} (h : Keeps o r.s) {go : CRes} (hg : CResKeeps o go) (k a n) : CResKeeps o (tPoison r k a n go) := by
  unfold tPoison
  split
  · exact h
  · exact hg

theorem cpsPiece_keeps {o : State} {r : CRun} (h : Keeps o r.s) (k i seen sc ordinary p) : CResKeeps o (cpsPiece k i seen sc ordinary r p) := by
  refine tPoison_keeps h (atPiece_keeps h (fun t j pa ht => cresKeeps_ite (a := .wait r) h ?_) _ _ _ _) k _ _
  exact memStore_keeps (memReady_keeps ht _ _ _) _ _ _ _ _ _

theorem throwLines_keeps {o s : State} (h : Keeps o s) (k sc mask vas) : Keeps o (throwLines s k sc mask vas) := by
  unfold throwLines
  split
  · exact h
  · exact foldl_keeps (fun _ _ ht => foldl_keeps (fun _ _ ht => deliver_keeps ht _ _) ht _) h _

theorem acwElem_keeps {o : State} {r : CRun} (h : Keeps o r.s) (k i seen w x) : CResKeeps o (acwElem k i seen w r x) := by
  unfold acwElem
  split
  · exact h
  · split
    · exact h
    · refine cresKeeps_ite ?go (tPoison_keeps h ?go k _ _)
      refine atPiece_keeps h (fun t j pa ht => ?_) _ _ _ _
      dsimp only
      split
      · exact noteAccess_keeps (absorb_keeps ht _ _ _ _ _ _ _ _) _ _ _ _ _ _
      · refine cresKeeps_ite (a := .wait r) h ?_
        exact memRmw_keeps (memReady_keeps ht _ _ _) _ _ _ _ _

theorem onceOnly_keeps {o : State} {r : CRun} (h : Keeps o r.s) {go : CRes} (hg : CResKeeps o go) (k i flags) :
    CResKeeps o (onceOnly k i r flags go) := by
  unfold onceOnly
  split
  · exact h
  · exact hg

theorem acwfOne_keeps {o : State} {r : CRun} (h : Keeps o r.s) (k i w) : CResKeeps o (acwfOne k i w r) := by
  refine onceOnly_keeps h (atPiece_keeps h (fun t j pa ht => cresKeeps_ite (a := .wait r) h ?_) _ _ _ _) k i _
  exact memRmw_keeps (memReady_keeps ht _ _ _) _ _ _ _ _

theorem casOne_keeps {o : State} {r : CRun} (h : Keeps o r.s) (k i w) : CResKeeps o (casOne k i w r) := by
  refine onceOnly_keeps h (atPiece_keeps h (fun t j pa ht => cresKeeps_ite (a := .wait r) h ?_) _ _ _ _) k i _
  have hm := memReady_keeps ht ⟨k, 2, i.seq⟩ (wordSc w) pa
  exact ite_fst_keeps (memRmw_keeps hm _ _ _ _ _) (memLoad_keeps hm _ _ _ _ _)

theorem scatNumber_keeps {o s : State} (h : Keeps o s) (die src) : Keeps o (scatNumber s die src) := setDie_keeps h _ _

theorem scatRow_keeps {o : State} {r : CRun} (h : Keeps o r.s) (k i seen x) : CResKeeps o (scatRow k i seen r x) := by
  unfold scatRow
  split
  · exact h
  · split
    · exact h
    · dsimp only
      split
      · exact h
      · refine tPoison_keeps h (atPiece_keeps h (fun t j pa ht => ?_) _ _ _ _) k _ _
        have hi := ingest_keeps (scatNumber_keeps (memReady_keeps ht ⟨k, 2, i.seq⟩ 3 pa) (bits x.2 0 2) (jDie k)) (bits x.2 0 2) (jDie k) j.fdom
          j.launch (bits x.2 64 64) (bits x.2 16 16) (tWindow seen (i.a.toNat + x.1 * i.shape.rb) i.shape.rb)
        generalize ingest _ _ _ _ _ _ _ _ = p at hi ⊢
        split
        · exact h
        · exact memStore_keeps (memReady_keeps hi _ _ _) _ _ _ _ _ _

theorem dropBelow_keeps {o s : State} (h : Keeps o s) (core sc line) : Keeps o (dropBelow s core sc line) :=
  setHolders_keeps (keeps_upd h) _ _ _

theorem publishBelow_keeps {o s : State} (h : Keeps o s) (core t line keep) : Keeps o (publishBelow s core t line keep) :=
  ite_keeps (foldl_keeps (fun _ _ ht => putCopy_keeps (relClone_keeps ht _ _ _) _) (publishSel_keeps h _ _) _) (publishSel_keeps h _ _)

theorem flushLine_keeps {o s : State} (h : Keeps o s) (core f sc line drop) : Keeps o (flushLine s core f sc line drop) := by
  have hp := publishBelow_keeps (combineLine_keeps h line) core (effScope sc) line (!drop)
  have hw := fun p (_ : Decidable p) => ite_keeps (p := p) (watchHit_keeps (writeBackLine_keeps hp line) line 3 2 f (core / 64)) hp
  exact ite_keeps (hw _ _) (ite_keeps
    (dropReplicas_keeps (keeps_updM (ite_keeps (dropStale_keeps (dirRevoke_keeps (hw _ _) line f none) line) (dirRevoke_keeps (hw _ _) line f none))) _)
    (ite_keeps (hw _ _) (dropBelow_keeps (hw _ _) core _ line)))

theorem flushPiece_keeps {o : State} {r : CRun} (h : Keeps o r.s) (k i sc drop p) : CResKeeps o (flushPiece k i sc drop r p) :=
  atPiece_keeps h (f := fun s j pa => .ok { r with s := flushLine s (jCoreKey k) j.fdom sc (lineOf pa) drop })
    (fun _ _ _ ht => flushLine_keeps ht _ _ _ _ _) _ _ _ _

theorem readsWindow_keeps {o s : State} (h : Keeps o s) (k j i) : Keeps o (readsWindow s k j i) := by
  unfold readsWindow
  split
  · exact setJob_keeps h _ _
  · exact h

theorem performTo_one_keeps {o : State} {r : CRun} {f : CRun → CRes} (hf : ∀ r, Keeps o r.s → CResKeeps o (f r)) (h : Keeps o r.s) :
    CResKeeps o (performTo.one r f) := runPieces_keeps (fun r _ hr => hf r hr) h _

theorem performTo_keeps {o s : State} (h : Keeps o s) (pause k j i) : CResKeeps o (performTo pause s k j i) := by
  have hr := prefetch_keeps (readsWindow_keeps h k j i) j.fdom i
  unfold performTo
  dsimp only
  split
  · exact runPieces_keeps (fun _ p h => cpyPiece_keeps h k i _ _ p) hr _
  · exact cresKeeps_ite hr (runPieces_keeps (fun _ p h => cpygPiece_keeps h k i _ p) hr _)
  · exact runPieces_keeps (fun _ p h => cpyPiece_keeps h k i _ _ p) hr _
  · exact runPieces_keeps (fun _ p h => cpymPiece_keeps h k i _ p) hr _
  · exact performTo_one_keeps (fun r h => lRead_keeps h (f := fun s l _ => .ok { r with s := s, bytes := l }) (fun _ _ _ ht => ht) k i false _) hr
  · exact cresKeeps_ite hr (runPieces_keeps (fun _ p h => cpsPiece_keeps h k i _ _ _ p) hr _)
  · refine cresKeeps_ite hr (runPieces_keeps (fun r p h => ?_) hr _)
    cases p with
    | some p => exact cpsPiece_keeps h k i _ _ _ p
    | none => exact throwLines_keeps h k _ _ _
  · exact cresKeeps_ite hr (runPieces_keeps (fun _ p h => acwElem_keeps h k i _ _ p) hr _)
  · exact cresKeeps_ite (a := .ok _) hr (performTo_one_keeps (fun _ h => acwfOne_keeps h k i _) hr)
  · exact cresKeeps_ite (a := .ok _) hr (performTo_one_keeps (fun _ h => casOne_keeps h k i _) hr)
  · exact cresKeeps_ite hr (runPieces_keeps (fun _ p h => scatRow_keeps h k i _ p) hr _)
  · exact cresKeeps_ite hr (runPieces_keeps (fun _ p h => flushPiece_keeps h k i _ _ p) hr _)
  · exact cresKeeps_ite hr (runPieces_keeps (fun _ p h => flushPiece_keeps h k i _ _ p) hr _)
  · exact hr

theorem perform_keeps {o s : State} (h : Keeps o s) (k j i) : CResKeeps o (perform s k j i) := performTo_keeps h none k j i

theorem progressWord_keeps {o s : State} (h : Keeps o s) (k e w n) : Keeps o (progressWord s k e w n) := by
  unfold progressWord
  split
  · exact h
  · rename_i j _
    dsimp only
    split
    · exact h
    · rename_i i _
      refine ite_keeps h ?_
      have hp := performTo_keeps h (some (i.part.done + n)) k j i
      split
      · rename_i r x
        exact modJob_keeps (bankShare_keeps (show Keeps o r.s by rwa [x] at hp) _ _) k _
      · rename_i r x
        exact modJob_keeps (bankShare_keeps (show Keeps o r.s by rwa [x] at hp) _ _) k _
      · exact h

theorem copyRetire_keeps {o : State} {r : CRun} (h : Keeps o r.s) (k e i) : Keeps o (copyRetire k e i r) := by
  grind [copyRetire, traceWord_keeps, setJob_keeps, bankShare_keeps, dropGuards_keeps]

theorem copyStop_keeps {o : State} {r : CRun} (h : Keeps o r.s) (k e j i code v) : Keeps o (copyStop k e j i r code v) := by
  grind [copyStop, modJob_keeps, takeTrapAt_keeps, keepGuards_keeps]

theorem copyWait_keeps {o : State} {r : CRun} (h : Keeps o r.s) (k e) : Keeps o (copyWait k e r) := by
  grind [copyWait, modJob_keeps]

theorem execEngineWordRetire_keeps {o s : State} (h : Keeps o s) (k e) : OutKeeps o (execEngineWordRetire k e s) := by
  unfold execEngineWordRetire
  split
  · exact h
  · rename_i j _
    split
    · exact h
    · rename_i i _
      refine outKeeps_ite h ?_
      have hp := perform_keeps h k j i
      cases x : perform s k j i with
      | ok r => exact copyRetire_keeps (r := r) (by rwa [x] at hp) k e i
      | wait r => exact copyWait_keeps (r := r) (by rwa [x] at hp) k e
      | trap r c v => exact copyStop_keeps (r := r) (by rwa [x] at hp) k e j i c v

theorem execCopyTrapInFlight_keeps {o s : State} (h : Keeps o s) (k e) : OutKeeps o (execCopyTrapInFlight k e s) := by
  unfold execCopyTrapInFlight
  split
  · exact h
  · rename_i j _
    split
    · exact h
    · rename_i i _
      have hp := perform_keeps h k j i
      cases x : perform s k j i with
      | ok r => exact h
      | wait r => exact h
      | trap r c v => exact copyStop_keeps (r := r) (by rwa [x] at hp) k e j i c v

theorem wtPut_keeps {o s : State} (h : Keeps o s) (f va n v) : Keeps o (wtPut s f va n v) := virtWrite_keeps h _ _ _

theorem freeCheck_keeps {o s : State} (h : Keeps o s) (f entry g) : Keeps o (freeCheck s f entry g) :=
  ite_keeps (raiseEvent_keeps (wtPut_keeps h _ _ _ _) _ _ _ _ _ _) h

theorem genTake_keeps {o s : State} (h : Keeps o s) (f entry g) : Keeps o (genTake s f entry g) := wtPut_keeps h _ _ _ _

theorem genRelease_keeps {o s : State} (h : Keeps o s) (f entry g) : Keeps o (genRelease s f entry g) :=
  freeCheck_keeps (wtPut_keeps h _ _ _ _) _ _ _

theorem releaseGens_keeps {o s : State} (h : Keeps o s) (l) : Keeps o (releaseGens s l) := by
  unfold releaseGens
  split
  · exact h
  · exact setLaunch_keeps (foldl_keeps (fun _ _ ht => genRelease_keeps ht _ _ _) h _) _ _

theorem chooseGen_keeps {o s : State} (h : Keeps o s) (f entry die) : Keeps o (chooseGen s f entry die).1 := by
  unfold chooseGen
  extract_lets
  split
  · exact h
  · split
    · exact ite_keeps h (raiseEvent_keeps h _ _ _ _ _ _)
    · exact ite_keeps h (raiseEvent_keeps h _ _ _ _ _ _)

theorem wgenStep_keeps {o s : State} (h : Keeps o s) (l f entry die) : Keeps o (wgenStep s l f entry die).1 := by
  have hc := chooseGen_keeps h f entry die
  unfold wgenStep
  split
  · exact h
  · split
    · exact h
    · split
      · exact h
      · split
        · exact h
        · dsimp only
          split
          · exact hc
          · have hl := fun g v => setLaunch_keeps (wtPut_keeps (genTake_keeps hc f entry g) f (entry + 8) 4 g) l v
            exact ite_keeps (hl _ _) (freeCheck_keeps (hl _ _) f entry _)

theorem execSpawn_keeps {o s : State} (h : Keeps o s) (d a b) : OutKeeps o (execSpawn d a b s) := by
  refine sExec_keeps h (fun k j => ?_) _ _ _
  refine sresKeeps_ite (sresKeeps_trap o _ _) (sresKeeps_ite (sresKeeps_trap o _ _) (sresKeeps_ite (a := .wait s j) h ?_))
  split
  · exact sFail_keeps h j _
  · rename_i l _
    have hl := sLoads_keeps (publishOwn_keeps h (jCoreKey k) 3) k 8 3 false l
    split
    · rename_i x; rwa [x] at hl
    · rename_i x; rwa [x] at hl
    · rename_i t w x
      have ht : Keeps o t := by rwa [x] at hl
      refine sresKeeps_ite (a := .retire t _) ht ?_
      split
      · exact ht
      · rename_i y
        exact spawnAppend_keeps ht _ _ _ _ _ y

theorem execWgen_keeps {o s : State} (h : Keeps o s) (d a) : OutKeeps o (execWgen d a s) := by
  refine sExec_keeps h (fun k j => ?_) _ _ _
  refine sresKeeps_ite (sresKeeps_trap o _ _) ?_
  split
  · trivial
  · exact h
  · rename_i pa _
    have hfin := fun t (ht : Keeps o t) i v => takeIn_keeps ht k i .S v (j.s a).toNat
    have hg := fun t (ht : Keeps o t) => wgenStep_keeps ht j.launch j.fdom (j.s a).toNat (jDie k)
    have hm := memReady_keeps h ⟨k, 0, 1⟩ 3 pa
    exact sresKeeps_ite (a := .retire _ _) (hfin s h _ _) (sresKeeps_ite (a := .wait s _) h
      (sresKeeps_ite (a := .retire _ _) (hfin _ (hg s h) _ _) (sresKeeps_ite (a := .wait _ _) (b := .retire _ _) hm
        (hfin _ (hg _ (setJob_keeps (memLoad_keeps hm ⟨k, 0, 1⟩ 3 pa 8 false) k _)) _ _))))

theorem execCsrr_keeps {o s : State} (h : Keeps o s) (d c) : OutKeeps o (execCsrr d c s) :=
  sExec_keeps h (fun k j => by grind [SResKeeps, takeIn_keeps]) _ _ _

theorem csrShared_keeps {o s : State} (h : Keeps o s) (k j c v) : Keeps o (csrShared s k j c v) := by
  unfold csrShared
  split
  · exact setCore_keeps h _ _
  · exact setCore_keeps h _ _
  · exact setDomain_keeps h _ _
  · exact h

theorem execCsrw_keeps {o s : State} (h : Keeps o s) (a c) : OutKeeps o (execCsrw a c s) :=
  sExec_keeps h (fun k j => by grind [SResKeeps, csrShared_keeps]) _ _ _

theorem serviceHold_keeps {o s : State} (h : Keeps o s) {f : Nat → Job → State × Option Nat} (hf : ∀ k j, Keeps o (f k j).1) (imm hold) :
    OutKeeps o (serviceHold s imm hold f) :=
  sExec_keeps h (fun _ j => sresKeeps_ite (sresKeeps_trap o _ _) (sresKeeps_ite (a := .wait s j) (b := .retire _ _) h (hf _ _))) _ _ _

theorem service_keeps {o s : State} (h : Keeps o s) {f : Nat → Job → State × Option Nat} (hf : ∀ k j, Keeps o (f k j).1) (imm) :
    OutKeeps o (service s imm f) := serviceHold_keeps h hf imm _

theorem noService_keeps {o s : State} (h : Keeps o s) (x x1) : Keeps o (noService x x1 s).1 := h

theorem execTrap_keeps {o s : State} (h : Keeps o s) (i) : OutKeeps o (execTrap i s) := by
  grind [execTrap, OutKeeps, noService_keeps, service_keeps]

theorem execUnassignedFirmwareService_keeps {o s : State} (h : Keeps o s) (i) : OutKeeps o (execUnassignedFirmwareService i s) := by
  grind [execUnassignedFirmwareService, OutKeeps, noService_keeps, service_keeps]

theorem serviceFence_keeps {o s : State} (h : Keeps o s) (k) : Keeps o (serviceFence s k) := by
  unfold serviceFence
  split
  · exact h
  · exact setJob_keeps (fenceDone_keeps h _ _ _ _ _ _ _) _ _

theorem openRange_keeps {o s : State} (h : Keeps o s) (f i base last ctl) : Keeps o (openRange s f i base last ctl).1 := by
  unfold openRange
  extract_lets
  split
  · exact h
  · split
    · exact h
    · split
      · exact h
      · exact setDomain_keeps h _ _

theorem combineRange_keeps {o s : State} (h : Keeps o s) (f n) : Keeps o (combineRange s f n) :=
  foldl_keeps (fun _ _ ht => combineLine_keeps ht _) h _

theorem closeRange_keeps {o s : State} (h : Keeps o s) (f i) : Keeps o (closeRange s f i).1 := by
  unfold closeRange
  extract_lets
  split
  · exact setDomain_keeps (combineRange_keeps h _ _) _ _
  · exact h

theorem execOpenRange_keeps {o s : State} (h : Keeps o s) : OutKeeps o (execOpenRange s) := by
  grind [execOpenRange, OutKeeps, service_keeps, serviceFence_keeps, openRange_keeps]

theorem execCloseRange_keeps {o s : State} (h : Keeps o s) : OutKeeps o (execCloseRange s) := by
  grind [execCloseRange, OutKeeps, closeRange_keeps, service_keeps, serviceFence_keeps]

theorem registerGroup_keeps {o s : State} (h : Keeps o s) (k f va) : Keeps o (registerGroup s k f va).1 := by
  unfold registerGroup
  extract_lets
  split
  · exact h
  · split
    · exact h
    · split
      · exact h
      · split
        · exact h
        · exact setDie_keeps h _ _

theorem resetGroup_keeps {o s : State} (h : Keeps o s) (k f b) : Keeps o (resetGroup s k f b).1 := by
  unfold resetGroup
  split
  · exact h
  · exact setDie_keeps h _ _

theorem releaseGroup_keeps {o s : State} (h : Keeps o s) (k f b) : Keeps o (releaseGroup s k f b).1 := by
  unfold releaseGroup
  split
  · exact h
  · exact setDie_keeps h _ _

theorem execRegisterBufferGroup_keeps {o s : State} (h : Keeps o s) : OutKeeps o (execRegisterBufferGroup s) := by
  grind [execRegisterBufferGroup, OutKeeps, serviceHold_keeps, registerGroup_keeps]

theorem execResetBufferGroup_keeps {o s : State} (h : Keeps o s) : OutKeeps o (execResetBufferGroup s) := by
  grind [execResetBufferGroup, OutKeeps, resetGroup_keeps, service_keeps]

theorem execReleaseBufferGroup_keeps {o s : State} (h : Keeps o s) : OutKeeps o (execReleaseBufferGroup s) := by
  grind [execReleaseBufferGroup, OutKeeps, service_keeps, releaseGroup_keeps]

theorem setPool_keeps {o s : State} (h : Keeps o s) (f base last ctl hnd) : Keeps o (setPool s f base last ctl hnd).1 := by
  unfold setPool
  extract_lets
  split
  · exact h
  · split
    · exact h
    · exact setDomain_keeps h _ _

theorem execSetContextPool_keeps {o s : State} (h : Keeps o s) : OutKeeps o (execSetContextPool s) := by
  grind [execSetContextPool, OutKeeps, service_keeps, setPool_keeps]

theorem setTable_keeps {o s : State} (h : Keeps o s) (f base n iv) : Keeps o (setTable s f base n iv).1 := by
  unfold setTable
  split
  · exact h
  · split
    · exact h
    · exact setDomain_keeps h _ _

theorem execRegisterWeightTable_keeps {o s : State} (h : Keeps o s) : OutKeeps o (execRegisterWeightTable s) := by
  grind [execRegisterWeightTable, OutKeeps, setTable_keeps, service_keeps]

theorem setWatch_keeps {o s : State} (h : Keeps o s) (f n first last ctl) : Keeps o (setWatch s f n first last ctl).1 := by
  unfold setWatch
  split
  · exact h
  · split
    · split
      · exact h
      · extract_lets
        split
        · exact h
        · exact setMdie_keeps h _ _
    · exact h

theorem execSetWatchpoint_keeps {o s : State} (h : Keeps o s) : OutKeeps o (execSetWatchpoint s) := by
  grind [execSetWatchpoint, OutKeeps, setWatch_keeps, serviceHold_keeps]

theorem writeReport_keeps {o s : State} (h : Keeps o s) (f buf body) : Keeps o (writeReport s f buf body) := virtWrite_keeps h _ _ _

theorem attest_keeps {o s : State} (h : Keeps o s) (f nonce buf opt entry) : Keeps o (attest s f nonce buf opt entry).1 := by
  unfold attest
  split
  · exact h
  · split
    · exact writeReport_keeps h _ _ _
    · extract_lets
      split
      · exact h
      · split
        · exact h
        · exact writeReport_keeps h _ _ _

theorem execAttestationReport_keeps {o s : State} (h : Keeps o s) : OutKeeps o (execAttestationReport s) := by
  grind [execAttestationReport, OutKeeps, attest_keeps, serviceHold_keeps]

theorem execEret_keeps {o s : State} (h : Keeps o s) : OutKeeps o (execEret s) :=
  sExec_keeps h (fun k j => by grind [SResKeeps, returnFromTrap_keeps]) _ _ _

/-! ### Dispatch, pre-emption, failures, host accesses and registers -/

theorem placeTicket_keeps {o s : State} (h : Keeps o s) (l v die k base ctx) : Keeps o (placeTicket s l v die k base ctx) := by
  have hd := fun f d p (_ : Decidable p) => ite_keeps (p := p) (setDomain_keeps h f d) h
  exact updateReady_keeps (wakeSlot_keeps (bankShare_keeps (keeps_upd (setJob_keeps (setDie_keeps (setLaunch_keeps (hd _ _ _ _) l _) die _) k _)) _ 16) k)

theorem execJobDispatch_keeps {o s : State} (h : Keeps o s) (die) : OutKeeps o (execJobDispatch die s) := by
  unfold execJobDispatch
  split
  · exact h
  · split
    · exact h
    · split
      · exact h
      · split
        · exact h
        · exact placeTicket_keeps h _ _ _ _ _ _

theorem execWalkerSteal_keeps {o s : State} (h : Keeps o s) (l die) : OutKeeps o (execWalkerSteal l die s) := by
  grind [execWalkerSteal, OutKeeps, setLaunch_keeps]

theorem execTailReread_keeps {o s : State} (h : Keeps o s) (leaf) : OutKeeps o (execTailReread leaf s) := tailRead_keeps h _ _

theorem execPeriodBoundary_keeps {o s : State} (h : Keeps o s) (node) : OutKeeps o (execPeriodBoundary node s) := by
  have hr := setRecWord_keeps h node 4 0
  have hn := modLeaf_keeps (ite_keeps (p := rcbOk (setRecWord s node 4 0) node = true) (readNode_keeps hr node) (forgetNode_keeps hr node)) node
    (fun l => { l with boundary := 0 })
  unfold execPeriodBoundary
  split
  · exact h
  · refine outKeeps_ite h ?_
    exact ite_keeps (tailRead_keeps (fixBoundaries_keeps hn) node _) (fixBoundaries_keeps hn)

theorem execAgeLevelTick_keeps {o s : State} (h : Keeps o s) (l) : OutKeeps o (execAgeLevelTick l s) := by
  unfold execAgeLevelTick
  split
  · exact h
  · split
    · exact h
    · split
      · exact setLaunch_keeps h _ _
      · split
        · exact h
        · exact setLaunch_keeps h _ _

theorem signalWrite_keeps {o s : State} (h : Keeps o s) (v) : Keeps o (signalWrite s v) := by
  grind [signalWrite, relWrite_keeps, sendIrq_keeps, raiseEvent_keeps, flushWindows_keeps, deviceWrite_keeps]

theorem closeLaunch_keeps {o s : State} (h : Keeps o s) (l v signal) : Keeps o (closeLaunch s l v signal) := by
  have hp := publishSel_keeps h (fun c => c.launches.contains l) 3
  have hc := releaseGens_keeps (raceEnd_keeps (dropReplicas_keeps (ite_keeps (p := signal = true) (signalWrite_keeps hp v) hp) (fun _ x => x == l)) l) l
  unfold closeLaunch
  dsimp only
  split
  · exact setLaunch_keeps hc l _
  · exact hc

theorem execLaunchComplete_keeps {o s : State} (h : Keeps o s) (l) : OutKeeps o (execLaunchComplete l s) := by
  unfold execLaunchComplete
  split
  · exact h
  · rename_i v _
    have he := fun t (ht : Keeps o t) => updateReady_keeps (ite_keeps (p := indexEnded t v = true) ht (endIndex_keeps ht v.leaf v.idx))
    dsimp only
    split
    · exact outKeeps_ite h (outKeeps_ite (setLaunch_keeps h l _) (he _ (closeLaunch_keeps h l v true)))
    · exact he _ (ite_keeps (closeLaunch_keeps h l v false) h)
    · exact he _ (ite_keeps (closeLaunch_keeps h l v false) h)
    · exact h

theorem charge_keeps {o s : State} (h : Keeps o s) (leaf n) : Keeps o (charge s leaf n) :=
  foldl_keeps (fun _ _ ht => setRecWord_keeps ht _ _ _) h _

theorem passTime_keeps {o s : State} (h : Keeps o s) (ns) : Keeps o (passTime s ns) :=
  keeps_upd (foldl_keeps (fun _ _ ht => ite_keeps ht (charge_keeps ht _ _)) (foldl_keeps (fun _ _ ht => ite_keeps ht (setDie_keeps ht _ _)) h _) _)

theorem ask_keeps {o s : State} (h : Keeps o s) (k j) : Keeps o (ask s k j) := setJob_keeps h _ _

theorem execPreemptionRequest_keeps {o s : State} (h : Keeps o s) (k) : OutKeeps o (execPreemptionRequest k s) := by
  unfold execPreemptionRequest
  split
  · exact h
  · exact ite_keeps (ask_keeps h _ _) h

theorem execSliceExpiry_keeps {o s : State} (h : Keeps o s) (k) : OutKeeps o (execSliceExpiry k s) := by
  unfold execSliceExpiry
  split
  · exact h
  · extract_lets
    split
    · exact h
    · exact ask_keeps (ite_keeps (setDomain_keeps h _ _) h) _ _

theorem forceCut_keeps {o s : State} (h : Keeps o s) (k j) : Keeps o (forceCut s k j) :=
  enterSave_keeps (stopJob_keeps (setDomain_keeps h _ _) _ _) _ _ _

theorem execForcedCut_keeps {o s : State} (h : Keeps o s) (k) : OutKeeps o (execForcedCut k s) := by
  unfold execForcedCut
  split
  · exact h
  · exact ite_keeps (forceCut_keeps h _ _) h

theorem execGraceExpiry_keeps {o s : State} (h : Keeps o s) (k) : OutKeeps o (execGraceExpiry k s) := by
  unfold execGraceExpiry
  split
  · exact h
  · split
    · exact h
    · exact ite_keeps (forceCut_keeps h _ _) h

theorem endReplay_keeps {o s : State} (h : Keeps o s) (k j r code) : Keeps o (endReplay s k j r code) :=
  raiseEvent_keeps (freeSlot_keeps (writeContext_keeps (stopJob_keeps h _ _) _ _ _ _ _) _ _) _ _ _ _ _ _

theorem parkSaved_keeps {o s : State} (h : Keeps o s) (k j) : Keeps o (parkSaved s k j) :=
  keeps_upd (freeSlot_keeps (barrierUndo_keeps h _ _) _ _)

theorem execContextSaveDone_keeps {o s : State} (h : Keeps o s) (k) : OutKeeps o (execContextSaveDone k s) := by
  unfold execContextSaveDone
  split
  · exact h
  · rename_i j _
    split
    · exact h
    · rename_i kind _
      split
      · exact ite_keeps h (endReplay_keeps h k j _ _)
      · have hw := fun i c kind va => bankShare_keeps (writeContext_keeps h k i c kind va) (jCluster k) 16
        dsimp only
        split
        · exact h
        · split
          · exact abandon_keeps (setJob_keeps h k _) k _ _ _ _ _
          · split
            · exact parkSaved_keeps (setJob_keeps (hw _ _ _ _) k _) k _
            · exact parkSaved_keeps (setJob_keeps (hw _ _ _ _) k _) k _
            · refine outKeeps_ite ?_ ?_
              · exact abandonTrap_keeps (setJob_keeps (hw _ _ _ _) k _) k _
              · exact enterHandler_keeps (hw _ _ _ _) k _
            · refine outKeeps_ite ?_ ?_
              · exact abandonTrap_keeps (setJob_keeps (hw _ _ _ _) k _) k _
              · exact enterHandler_keeps (hw _ _ _ _) k _

theorem execSaveDeadlineExpiry_keeps {o s : State} (h : Keeps o s) (k) : OutKeeps o (execSaveDeadlineExpiry k s) := by
  unfold execSaveDeadlineExpiry
  split
  · exact h
  · split
    · exact h
    · exact ite_keeps (abandon_keeps h _ _ _ _ _ _) h

theorem leaveInstances_keeps {o s : State} (h : Keeps o s) (old new) : Keeps o (leaveInstances s old new) :=
  ite_keeps (ite_keeps h (publishSel_keeps h _ _)) (publishSel_keeps (ite_keeps h (publishSel_keeps h _ _)) _ _)

theorem execJobResume_keeps {o s : State} (h : Keeps o s) (l t) : OutKeeps o (execJobResume l t s) := by
  unfold execJobResume
  dsimp only
  split
  · exact h
  · rename_i j _
    refine outKeeps_ite h ?_
    split
    · exact h
    · rename_i k base _
      have hl : Keeps o (leaveInstances { s with saved := smErase s.saved (2 ^ 48 * l + t) } j.home k) := leaveInstances_keeps (keeps_upd h) j.home k
      exact outKeeps_ite (abandon_keeps (setJob_keeps hl k j) k j _ _ _ _) (resumeJob_keeps (bankShare_keeps (keeps_upd hl) _ 16) k _)

theorem execHangWatchdog_keeps {o s : State} (h : Keeps o s) (k) : OutKeeps o (execHangWatchdog k s) := by
  unfold execHangWatchdog
  split
  · exact h
  · exact ite_keeps (takeTrap_keeps h _ _ _ _) h

theorem countHit_keeps {o s : State} (h : Keeps o s) (f n) : Keeps o (countHit s f n) := setDomain_keeps h _ _

theorem execReplayEnd_keeps {o s : State} (h : Keeps o s) (k) : OutKeeps o (execReplayEnd k s) := by
  unfold execReplayEnd
  split
  · exact h
  · split
    · exact h
    · split
      · exact h
      · split
        · exact endReplay_keeps h _ _ _ _
        · split
          · exact endReplay_keeps h _ _ _ _
          · exact h

theorem execBreakpointStop_keeps {o s : State} (h : Keeps o s) (k st n) : OutKeeps o (execBreakpointStop k st n s) := by
  grind [execBreakpointStop, OutKeeps, endReplay_keeps, takeTrapAt_keeps, countHit_keeps]

theorem execPersistentRequest_keeps {o s : State} (h : Keeps o s) (line core) : OutKeeps o (execPersistentRequest line core s) := by
  unfold execPersistentRequest
  extract_lets
  split
  · split
    · exact h
    · exact persistServed_keeps (tokWrite_keeps (dropCopies_keeps (landThrows_keeps h _ _) _ _ _) _ _ _) _ _
  · split
    · exact keeps_updM h
    · exact setPersist_keeps (keeps_updM h) _ _ _

theorem execPageMoveRemap_keeps {o s : State} (h : Keeps o s) (f) : OutKeeps o (execPageMoveRemap f s) := by
  unfold execPageMoveRemap
  split
  · exact h
  · exact ite_keeps h (finishMove_keeps h _)

theorem execFreezeStallTimeout_keeps {o s : State} (h : Keeps o s) (j st) : OutKeeps o (execFreezeStallTimeout j st s) := by
  unfold execFreezeStallTimeout
  split
  · exact h
  · exact setJob_keeps h _ _

theorem recheckShard_keeps {o s : State} (h : Keeps o s) (f entry g d rec) : Keeps o (recheckShard s f entry g d rec) :=
  wtPut_keeps (ite_keeps h (raiseEvent_keeps (wtPut_keeps (wtPut_keeps h _ _ _ _) _ _ _ _) _ _ _ _ _ _)) _ _ _ _

theorem recheckGen_keeps {o s : State} (h : Keeps o s) (f entry i) : Keeps o (recheckGen s f entry i) :=
  ite_keeps h (foldl_keeps (fun _ _ ht => recheckShard_keeps ht _ _ _ _ _) h _)

theorem execWeightRecheck_keeps {o s : State} (h : Keeps o s) (f) : OutKeeps o (execWeightRecheck f s) := by
  unfold execWeightRecheck
  extract_lets
  split
  · exact h
  · exact setDomain_keeps (foldl_keeps (fun _ _ ht => ite_keeps (foldl_keeps (fun _ _ ht => recheckGen_keeps ht _ _ _) ht _) ht) h _) _ _

theorem countCe_keeps {o s : State} (h : Keeps o s) (id) : Keeps o (countCe s id) := setDie_keeps h _ _

theorem failLineAt_keeps {o s : State} (h : Keeps o s) (id line) : Keeps o (failLineAt s id line) :=
  ite_keeps (logError_keeps h _ _ _ _ _ _) (poisonLine_keeps (logError_keeps h _ _ _ _ _ _) _)

theorem execPatrolScrub_keeps {o s : State} (h : Keeps o s) (die line bad) : OutKeeps o (execPatrolScrub die line bad s) :=
  ite_keeps (failLineAt_keeps h _ _) h

theorem degradeLine_keeps {o s : State} (h : Keeps o s) (line) : Keeps o (degradeLine s line) := by
  grind [degradeLine, setLaunch_keeps, foldl_keeps, keeps_updM]

theorem failRecord_keeps {o s : State} (h : Keeps o s) (line) : Keeps o (failRecord s line) := setMdie_keeps (keeps_updM h) _ _

theorem displace_keeps {o s : State} (h : Keeps o s) (line) : Keeps o (displace s line) := by
  unfold displace
  extract_lets
  split
  · exact setMdie_keeps (keeps_updM (keeps_updM (dirRevoke_keeps h _ _ _))) _ _
  · split
    · exact setMdie_keeps (setMdie_keeps (keeps_updM (keeps_updM (dirRevoke_keeps h _ _ _))) _ _) _ _
    · exact degradeLine_keeps (setMdie_keeps (keeps_updM (keeps_updM (dirRevoke_keeps h _ _ _))) _ _) _

theorem failState_keeps {o s : State} (h : Keeps o s) (k) : Keeps o (failState s k) := by
  unfold failState
  split
  · exact h
  · exact abandon_keeps (logError_keeps h _ _ _ _ _ _) _ _ _ _ _ _

theorem failBank_keeps {o s : State} (h : Keeps o s) (k bank) : Keeps o (failBank s k bank) :=
  modJob_keeps (logError_keeps h _ _ _ _ _ _) _ _

theorem failSlot_keeps {o s : State} (h : Keeps o s) (k slot unit) : Keeps o (failSlot s k slot unit) :=
  modJob_keeps (logError_keeps h _ _ _ _ _ _) _ _

theorem failAcc_keeps {o s : State} (h : Keeps o s) (k acc elem) : Keeps o (failAcc s k acc elem) :=
  modJob_keeps (logError_keeps h _ _ _ _ _ _) _ _

theorem failFrame_keeps {o s : State} (h : Keeps o s) (cl fr unit) : Keeps o (failFrame s cl fr unit) := by
  unfold failFrame
  extract_lets
  split
  · exact setCluster_keeps (logError_keeps h _ _ _ _ _ _) _ _
  · exact logError_keeps h _ _ _ _ _ _

theorem failDir_keeps {o s : State} (h : Keeps o s) (line) : Keeps o (failDir s line) :=
  poisonLine_keeps (keeps_updM (dirRevoke_keeps (logError_keeps h _ _ _ _ _ _) _ _ _)) _

theorem failTag_keeps {o s : State} (h : Keeps o s) (cl fr) : Keeps o (failTag s cl fr) := by
  unfold failTag
  extract_lets
  split
  · exact ite_keeps h (setCluster_keeps h _ _)
  · exact h

theorem failHome_keeps {o s : State} (h : Keeps o s) (line) : Keeps o (failHome s line) := failLineAt_keeps h _ _

theorem hostAnswer_keeps {o s : State} (h : Keeps o s) (l) : Keeps o (hostAnswer s l) := keeps_upd h

theorem hostError_keeps {o s : State} (h : Keeps o s) (pa) : Keeps o (hostError s pa) := hostAnswer_keeps (logError_keeps h _ _ _ _ _ _) _

theorem hostData_keeps {o s : State} (h : Keeps o s) (l) : Keeps o (hostData s l) := hostAnswer_keeps h _

theorem agentRegWrite_keeps {o s : State} (h : Keeps o s) (a pa l) {t} (e : agentRegWrite s a pa l = some t) : Keeps o t := by
  grind [agentRegWrite, writeRegs_keeps, foldl_keeps]

theorem hostReadLine_keeps {o s : State} (h : Keeps o s) (line) : Keeps o (hostReadLine s line) :=
  dirHostRead_keeps (watchHit_keeps (combineLine_keeps h _) _ _ _ _ _) _

theorem hostAcquire_keeps {o s : State} (h : Keeps o s) (pa n sc) : Keeps o (hostAcquire s pa n sc) := keeps_upd h

theorem hostPrep_keeps {o s : State} (h : Keeps o s) (pa n) : Keeps o (hostPrep s pa n) :=
  ite_keeps (foldl_keeps (fun _ ln ht => strongView_getD_keeps ht ht ln) h _) h

theorem execHostRead_keeps {o s : State} (h : Keeps o s) (pa n) : OutKeeps o (execHostRead pa n s) := by
  grind [execHostRead, OutKeeps, combineLine_keeps, hostError_keeps, hostAcquire_keeps, hostPrep_keeps, hostReadLine_keeps, dirHostRead_keeps, hostAnswer_keeps, hostData_keeps, foldl_keeps]

theorem hostWatch_keeps {o s : State} (h : Keeps o s) (pa n ty) : Keeps o (hostWatch s pa n ty) :=
  foldl_keeps (fun _ _ ht => watchHit_keeps ht _ _ _ _ _) h _

theorem bulkWrite_keeps {o s : State} (h : Keeps o s) (pa l) : Keeps o (bulkWrite s pa l) := nSetBytes_keeps h _ _

theorem execHostWrite_keeps {o s : State} (h : Keeps o s) (pa n data) : OutKeeps o (execHostWrite pa n data s) := by
  grind [execHostWrite, OutKeeps, hostError_keeps, homeStore_keeps, hostPrep_keeps, agentRegWrite_keeps, bulkWrite_keeps, hostWatch_keeps, hostAnswer_keeps]

theorem hostAtomic_keeps {o s : State} (h : Keeps o s) (pa wide f) : Keeps o (hostAtomic s pa wide f) :=
  ite_keeps (hostError_keeps h pa) (ite_keeps (hostAnswer_keeps h _) (hostAnswer_keeps (keeps_updM (homeStore_keeps (hostAcquire_keeps
    (dirHostWrite_keeps (watchHit_keeps (combineLine_keeps h _) _ _ _ _ _) _) _ _ _) _ _ _)) _))

theorem execHostFetchAdd_keeps {o s : State} (h : Keeps o s) (pa wide v) : OutKeeps o (execHostFetchAdd pa wide v s) := by
  grind [execHostFetchAdd, OutKeeps, hostAtomic_keeps]

theorem execHostSwap_keeps {o s : State} (h : Keeps o s) (pa wide v) : OutKeeps o (execHostSwap pa wide v s) := by
  grind [execHostSwap, OutKeeps, hostAtomic_keeps]

theorem execHostCompareSwap_keeps {o s : State} (h : Keeps o s) (pa wide old new) : OutKeeps o (execHostCompareSwap pa wide old new s) := by
  grind [execHostCompareSwap, OutKeeps, hostAtomic_keeps]

theorem execCoherentWindowSnoop_keeps {o s : State} (h : Keeps o s) (line write) : OutKeeps o (execCoherentWindowSnoop line write s) := by
  have hs := strongView_getD_keeps h (combineLine_keeps h line) line
  exact outKeeps_ite h (ite_keeps (dropStale_keeps (dirHostWrite_keeps hs line) line) (dirHostRead_keeps hs line))

theorem execTenRoot_keeps {o s : State} (h : Keeps o s) (n v) : OutKeeps o (execTenRoot n v s) := regWrite_keeps h _ _

theorem execTenKick_keeps {o s : State} (h : Keeps o s) (n v) : OutKeeps o (execTenKick n v s) := regWrite_keeps h _ _

theorem execDomRst_keeps {o s : State} (h : Keeps o s) (f v) : OutKeeps o (execDomRst f v s) := regWrite_keeps h _ _

theorem execXlInv_keeps {o s : State} (h : Keeps o s) (f v) : OutKeeps o (execXlInv f v s) := regWrite_keeps h _ _

theorem execXlMig_keeps {o s : State} (h : Keeps o s) (f v) : OutKeeps o (execXlMig f v s) := regWrite_keeps h _ _

theorem execErrPop_keeps {o s : State} (h : Keeps o s) (die v) : OutKeeps o (execErrPop die v s) :=
  ite_keeps (regWrite_keeps h _ _) (hostError_keeps h _)

theorem execFwinWrite_keeps {o s : State} (h : Keeps o s) (n r v) : OutKeeps o (execFwinWrite n r v s) := regWrite_keeps h _ _

theorem execTrHead_keeps {o s : State} (h : Keeps o s) (f v) : OutKeeps o (execTrHead f v s) := regWrite_keeps h _ _

theorem execRegisterWrite_keeps {o s : State} (h : Keeps o s) (pa v) : OutKeeps o (execRegisterWrite pa v s) := by
  unfold execRegisterWrite
  split
  · exact hostError_keeps h _
  · exact ite_keeps (regWrite_keeps h _ _) (hostError_keeps h _)

theorem killLaunches_keeps {o s : State} (h : Keeps o s) (f) : Keeps o (killLaunches s f) := keeps_upd h

theorem discardJob_keeps {o s : State} (h : Keeps o s) (k j) : Keeps o (discardJob s k j) :=
  barrierLeave_keeps (leaveFrames_keeps (freeSlot_keeps (abortRegion_keeps h _ _ _) _ _) _) _

theorem killJobs_keeps {o s : State} (h : Keeps o s) (f) : Keeps o (killJobs s f) :=
  setDomain_keeps (keeps_upd (foldl_keeps (fun _ _ ht => barrierLeave_keeps ht _) (foldl_keeps (fun _ _ ht => discardJob_keeps ht _ _) h _) _)) _ _

theorem dropDomain_keeps {o s : State} (h : Keeps o s) (f) : Keeps o (dropDomain s f) := setDomain_keeps (keeps_updM h) _ _

theorem dropFramesOf_keeps {o s : State} (h : Keeps o s) (f) : Keeps o (dropFramesOf s f) :=
  foldl_keeps (fun _ _ ht => releaseGens_keeps ht _) (keeps_upd h) _

theorem execDomainResetDone_keeps {o s : State} (h : Keeps o s) (f) : OutKeeps o (execDomainResetDone f s) :=
  outKeeps_ite h (setDomain_keeps (dropFramesOf_keeps (dropDomain_keeps (killJobs_keeps (killLaunches_keeps h _) _) _) _) _ _)

/-! ### Boot, branches, queues and messages -/

theorem sendMsg_keeps {o s : State} (h : Keeps o s) (src dst cls op ftag w1 data) : Keeps o (sendMsg s src dst cls op ftag w1 data) :=
  keeps_upd h

theorem trainLinks_keeps {o s : State} (h : Keeps o s) : Keeps o (trainLinks s) := keeps_upd h

theorem putDesc_keeps {o s : State} (h : Keeps o s) (id d) : Keeps o (putDesc s id d) := ite_keeps (keeps_upd h) (keeps_upd h)

theorem writeTable_keeps {o s : State} (h : Keeps o s) (status nc ni) : Keeps o (writeTable s status nc ni) := keeps_upd h

theorem finishDiscovery_keeps {o s : State} (h : Keeps o s) : Keeps o (finishDiscovery s) := by
  unfold finishDiscovery
  extract_lets
  split
  · exact setDie_keeps (writeTable_keeps (keeps_upd (keeps_upd h)) _ _ _) _ _
  · exact foldl_keeps (fun _ _ ht => sendMsg_keeps ht _ _ _ _ _ _ _) (setDie_keeps (writeTable_keeps (keeps_upd (keeps_upd h)) _ _ _) _ _) _

theorem answered_keeps {o s : State} (h : Keeps o s) (id) : Keeps o (answered s id) :=
  ite_keeps (finishDiscovery_keeps (keeps_upd h)) (keeps_upd h)

theorem bootFail_keeps {o s : State} (h : Keeps o s) (die r) : Keeps o (bootFail s die r) := ite_keeps (setDie_keeps h _ _) h

theorem fuseSvn_keeps {o s : State} (h : Keeps o s) : Keeps o (fuseSvn s) := ite_keeps (keeps_upd h) h

theorem bootFails_keeps {o s : State} (h : Keeps o s) (d r) : Keeps o (bootFails s d r) := setDie_keeps h _ _

theorem bootStarts_keeps {o s : State} (h : Keeps o s) (d) : Keeps o (bootStarts s d) := setDie_keeps h _ _

theorem startDiscovery_keeps {o s : State} (h : Keeps o s) : Keeps o (startDiscovery s) :=
  foldl_keeps (fun _ _ ht => sendMsg_keeps ht _ _ _ _ _ _ _) (keeps_upd (putDesc_keeps (trainLinks_keeps h) _ _)) _

theorem execPowerOn_keeps {o s : State} (h : Keeps o s) : OutKeeps o (execPowerOn s) := by
  unfold execPowerOn
  split
  · exact h
  · extract_lets
    split
    · exact startDiscovery_keeps (foldl_keeps (fun _ _ ht => bootStarts_keeps ht _) h _)
    · exact foldl_keeps (fun _ _ ht => bootFails_keeps ht _ _) h _

theorem execDiscoveryTimeout_keeps {o s : State} (h : Keeps o s) : OutKeeps o (execDiscoveryTimeout s) := by
  unfold execDiscoveryTimeout
  split
  · exact h
  · exact finishDiscovery_keeps h

theorem execClockStep_keeps {o s : State} (h : Keeps o s) (die up) : OutKeeps o (execClockStep die up s) := by
  unfold execClockStep
  extract_lets
  split
  · exact h
  · exact setDie_keeps h _ _

theorem execThermalThrottle_keeps {o s : State} (h : Keeps o s) (die) : OutKeeps o (execThermalThrottle die s) :=
  ite_keeps h (setDie_keeps h _ _)

theorem loseJob_keeps {o s : State} (h : Keeps o s) (k j) : Keeps o (loseJob s k j) := abandon_keeps (stopJob_keeps h _ _) _ _ _ _ _ _

theorem execThermalStop_keeps {o s : State} (h : Keeps o s) (die) : OutKeeps o (execThermalStop die s) := by
  grind [execThermalStop, OutKeeps, loseJob_keeps, setDie_keeps, foldl_keeps]

theorem execPackageReset_keeps {o s : State} (h : Keeps o s) : OutKeeps o (execPackageReset s) :=
  Keeps.mk (fun x => ⟨mem_nil_wf, (h.mem x).2⟩) (fun _ => rfl)

theorem goTo_keeps {o s : State} (h : Keeps o s) (k j t) : SResKeeps o (goTo s k j t) := by
  grind [goTo, SResKeeps, traceFlow_keeps]

theorem execB_keeps {o s : State} (h : Keeps o s) (p n o1) : OutKeeps o (execB p n o1 s) :=
  sExec_keeps h (fun k j => by grind [SResKeeps, ! => goTo_keeps]) _ _ _

theorem execJmp_keeps {o s : State} (h : Keeps o s) (o1) : OutKeeps o (execJmp o1 s) :=
  sExec_keeps h (fun k j => by grind [SResKeeps, ! => goTo_keeps]) _ _ _

theorem execCall_keeps {o s : State} (h : Keeps o s) (o1) : OutKeeps o (execCall o1 s) :=
  sExec_keeps h (fun k j => by grind [SResKeeps, ! => goTo_keeps]) _ _ _

theorem execJr_keeps {o s : State} (h : Keeps o s) (a) : OutKeeps o (execJr a s) :=
  sExec_keeps h (fun k j => by grind [SResKeeps, ! => goTo_keeps]) _ _ _

theorem execSpl_keeps {o s : State} (h : Keeps o s) (d n) : OutKeeps o (execSpl d n s) :=
  sExec_keeps h (fun k j => by grind [SResKeeps]) _ _ _

theorem execSps_keeps {o s : State} (h : Keeps o s) (d n) : OutKeeps o (execSps d n s) :=
  sExec_keeps h (fun k j => by grind [SResKeeps]) _ _ _

theorem execQpush_keeps {o s : State} (h : Keeps o s) (a q) : OutKeeps o (execQpush a q s) :=
  sExec_keeps h (fun k j => by grind [SResKeeps]) _ _ _

theorem execQpop_keeps {o s : State} (h : Keeps o s) (d q) : OutKeeps o (execQpop d q s) :=
  sExec_keeps h (fun k j => by grind [SResKeeps, takeIn_keeps]) _ _ _

theorem execQcnt_keeps {o s : State} (h : Keeps o s) (d q) : OutKeeps o (execQcnt d q s) :=
  sExec_keeps h (fun k j => by grind [SResKeeps, takeIn_keeps]) _ _ _

theorem errorAnswer_keeps {o s : State} (h : Keeps o s) (die cls m code) : Keeps o (errorAnswer s die cls m code) :=
  sendMsg_keeps (logError_keeps h _ _ _ _ _ _) _ _ _ _ _ _ _

theorem receive_keeps {o s : State} (h : Keeps o s) (cls op m) : Keeps o (receive s cls op m) := by
  have he := fun t (ht : Keeps o t) d c => errorAnswer_keeps ht d cls m c
  exact ite_keeps h (ite_keeps (he s h _ _) (ite_keeps (he s h _ _) (ite_keeps (he _ (keeps_upd h) _ _)
    (ite_keeps (he _ (keeps_upd h) _ _) (keeps_upd (keeps_upd h))))))

theorem slotArrives_keeps {o s : State} (h : Keeps o s) (l) : Keeps o (slotArrives s l) := ite_keeps h (receive_keeps h _ _ _)

theorem setHeader_keeps {o s : State} (h : Keeps o s) (k ack nak) : Keeps o (setHeader s k ack nak) := keeps_upd h

theorem takeCredits_keeps {o s : State} (h : Keeps o s) (k hdr) : Keeps o (takeCredits s k hdr) := keeps_upd h

theorem countNak_keeps {o s : State} (h : Keeps o s) (k nak) : Keeps o (countNak s k nak) := keeps_upd h

theorem execFlitReceive_keeps {o s : State} (h : Keeps o s) (die module flit) : OutKeeps o (execFlitReceive die module flit s) := by
  refine outKeeps_ite (setHeader_keeps h _ _ _) (outKeeps_ite (setHeader_keeps h _ _ _) ?_)
  exact foldl_keeps (fun _ _ ht => slotArrives_keeps ht _) (takeCredits_keeps (countNak_keeps (setHeader_keeps (keeps_upd h) _ _ _) _ _) _ _) _

theorem execLinkRetrain_keeps {o s : State} (h : Keeps o s) (die link rates repaired) : OutKeeps o (execLinkRetrain die link rates repaired s) := by
  unfold execLinkRetrain
  extract_lets
  split
  · exact h
  · split
    · exact h
    · exact keeps_upd h

theorem onMsg_keeps {o s : State} (h : Keeps o s) {f : State → State} (hf : ∀ t, Keeps o t → Keeps o (f t)) (cls op m) :
    OutKeeps o (onMsg s cls op m f) := by
  unfold onMsg
  split
  · exact h
  · rename_i t e
    exact hf t (takePkt_keeps h cls op m e)

theorem noteOut_keeps {o s : State} (h : Keeps o s) (cls op m) : Keeps o (noteOut s cls op m) := keeps_upd h

theorem closeOut_keeps {o s : State} (h : Keeps o s) (m) : Keeps o (closeOut s m) := keeps_upd h

theorem reply_keeps {o s : State} (h : Keeps o s) (m cls op w1 data) : Keeps o (reply s m cls op w1 data) := sendMsg_keeps h _ _ _ _ _ _ _

theorem respond_keeps {o s : State} (h : Keeps o s) (m op) : Keeps o (respond s m op) := reply_keeps h _ _ _ _ _

theorem replyLine_keeps {o s : State} (h : Keeps o s) (m) : Keeps o (replyLine s m) :=
  ite_keeps (reply_keeps (respond_keeps h _ _) _ _ _ _ _) (reply_keeps (respond_keeps h _ _) _ _ _ _ _)

theorem homePrep_keeps {o s : State} (h : Keeps o s) (line) : Keeps o (homePrep s line).1 := by
  unfold homePrep
  extract_lets
  split
  · exact combineLine_keeps h _
  · split
    · split
      · exact combineLine_keeps h _
      · exact publishSel_keeps (combineLine_keeps h _) _ _
    · exact combineLine_keeps h _

theorem atHome_keeps {o s : State} (h : Keeps o s) {f : State → State} (hf : ∀ t, Keeps o t → Keeps o (f t)) (m op) :
    OutKeeps o (atHome s m op f) := by
  refine onMsg_keeps h (fun t ht => ?_) 1 op m
  have hp := homePrep_keeps (noteOut_keeps ht 1 op m) (msgLine m)
  dsimp only
  split
  · exact respond_keeps hp m _
  · exact hf _ hp

theorem dieGivesUp_keeps {o s : State} (h : Keeps o s) (d line f) : Keeps o (dieGivesUp s d line f) := by
  unfold dieGivesUp
  extract_lets
  split
  · split
    · exact keeps_updM (tokDrop_keeps (dropCopies_keeps (ite_keeps (recallLine_keeps (landThrows_keeps h _ _) _ _ _) (landThrows_keeps h _ _)) _ _ _) _ _)
    · exact tokDrop_keeps (dropCopies_keeps (ite_keeps (recallLine_keeps (landThrows_keeps h _ _) _ _ _) (landThrows_keeps h _ _)) _ _ _) _ _
  · extract_lets
    split
    · exact keeps_updM (tokDrop_keeps (dropCopies_keeps (ite_keeps (recallLine_keeps (landThrows_keeps h _ _) _ _ _) (landThrows_keeps h _ _)) _ _ _) _ _)
    · exact setDir_keeps (tokDrop_keeps (dropCopies_keeps (ite_keeps (recallLine_keeps (landThrows_keeps h _ _) _ _ _) (landThrows_keeps h _ _)) _ _ _) _ _) _ _
  · exact tokDrop_keeps (dropCopies_keeps (ite_keeps (recallLine_keeps (landThrows_keeps h _ _) _ _ _) (landThrows_keeps h _ _)) _ _ _) _ _

theorem homeRead_keeps {o s : State} (h : Keeps o s) (m) : Keeps o (homeRead s m) :=
  ite_keeps (dirRead_keeps h _ _ _) (dirHostRead_keeps h _)

theorem homeOwn_keeps {o s : State} (h : Keeps o s) (m ty) : Keeps o (homeOwn s m ty) :=
  ite_keeps (dirWrite_keeps h _ _ _ _) (dirHostWrite_keeps h _)

theorem grant_keeps {o s : State} (h : Keeps o s) (m op) : Keeps o (grant s m op) := ite_keeps (sendMsg_keeps h _ _ _ _ _ _ _) h

theorem execReqReadShared_keeps {o s : State} (h : Keeps o s) (m) : OutKeeps o (execReqReadShared m s) := by
  grind [execReqReadShared, OutKeeps, homeRead_keeps, replyLine_keeps, atHome_keeps, grant_keeps]

theorem execReqReadOwned_keeps {o s : State} (h : Keeps o s) (m) : OutKeeps o (execReqReadOwned m s) := by
  grind [execReqReadOwned, OutKeeps, homeOwn_keeps, replyLine_keeps, atHome_keeps, grant_keeps]

theorem execReqWrite_keeps {o s : State} (h : Keeps o s) (m) : OutKeeps o (execReqWrite m s) := by
  grind [execReqWrite, OutKeeps, homeOwn_keeps, respond_keeps, atHome_keeps, grant_keeps]

theorem execReqAtomic_keeps {o s : State} (h : Keeps o s) (m) : OutKeeps o (execReqAtomic m s) := by
  refine atHome_keeps h (fun t ht => ?_) m _
  exact ite_keeps (reply_keeps ht m _ _ _ _) (reply_keeps (respond_keeps (keeps_updM (deviceWrite_keeps
    (dirHostWrite_keeps (watchHit_keeps ht _ _ _ _ _) _) _ _)) m _) m _ _ _ _)

theorem execReqReleasePermission_keeps {o s : State} (h : Keeps o s) (m) : OutKeeps o (execReqReleasePermission m s) := by
  grind [execReqReleasePermission, OutKeeps, respond_keeps, atHome_keeps, dieGivesUp_keeps]

theorem execReqNearMemoryJob_keeps {o s : State} (h : Keeps o s) (m) : OutKeeps o (execReqNearMemoryJob m s) := by
  grind [execReqNearMemoryJob, OutKeeps, setMdie_keeps, respond_keeps, onMsg_keeps, noteOut_keeps]

theorem execReqWalkerSteal_keeps {o s : State} (h : Keeps o s) (m) : OutKeeps o (execReqWalkerSteal m s) := by
  grind [execReqWalkerSteal, OutKeeps, setLaunch_keeps, respond_keeps, onMsg_keeps, noteOut_keeps]

theorem execReqRegisterAccess_keeps {o s : State} (h : Keeps o s) (m) : OutKeeps o (execReqRegisterAccess m s) := by
  grind [execReqRegisterAccess, OutKeeps, regWrite_keeps, respond_keeps, errorAnswer_keeps, onMsg_keeps, noteOut_keeps, reply_keeps]

theorem execRspAck_keeps {o s : State} (h : Keeps o s) (m) : OutKeeps o (execRspAck m s) := by
  grind [execRspAck, OutKeeps, closeOut_keeps, onMsg_keeps]

theorem execRspRetry_keeps {o s : State} (h : Keeps o s) (m) : OutKeeps o (execRspRetry m s) := by
  grind [execRspRetry, OutKeeps, onMsg_keeps]

theorem execRspMoved_keeps {o s : State} (h : Keeps o s) (m) : OutKeeps o (execRspMoved m s) := by
  refine onMsg_keeps h (fun t ht => ?_) _ _ m
  dsimp only
  split
  · exact ht
  · exact keeps_updM (closeOut_keeps ht m)

theorem execRspError_keeps {o s : State} (h : Keeps o s) (m) : OutKeeps o (execRspError m s) := by
  grind [execRspError, OutKeeps, poisonLine_keeps, closeOut_keeps, raiseEvent_keeps, onMsg_keeps]

theorem execRspDataFollows_keeps {o s : State} (h : Keeps o s) (m) : OutKeeps o (execRspDataFollows m s) := by
  grind [execRspDataFollows, OutKeeps, onMsg_keeps]

theorem execRspForcedPublishAck_keeps {o s : State} (h : Keeps o s) (m) : OutKeeps o (execRspForcedPublishAck m s) := by
  grind [execRspForcedPublishAck, OutKeeps, closeOut_keeps, onMsg_keeps]

theorem backBytes_keeps {o s : State} (h : Keeps o s) (line mask i l) : Keeps o (backBytes s line mask i l) := by
  induction l generalizing s i with
  | nil => exact h
  | cons b l ih => exact ih (ite_keeps (homeSet_keeps (keeps_updM h) _ b) h) (i + 1)

theorem dataArrives_keeps {o s : State} (h : Keeps o s) (m mask) : Keeps o (dataArrives s m mask) := by
  unfold dataArrives
  split
  · exact h
  · extract_lets
    split
    · exact ite_keeps (noteTag_keeps (closeOut_keeps h _) _) (closeOut_keeps h _)
    · exact backBytes_keeps (ite_keeps (watchHit_keeps (closeOut_keeps h _) _ _ _ _ _) (closeOut_keeps h _)) _ _ _ _

theorem execDatLine_keeps {o s : State} (h : Keeps o s) (m) : OutKeeps o (execDatLine m s) := by
  grind [execDatLine, OutKeeps, onMsg_keeps, dataArrives_keeps]

theorem execDatPartialLine_keeps {o s : State} (h : Keeps o s) (m) : OutKeeps o (execDatPartialLine m s) := by
  grind [execDatPartialLine, OutKeeps, onMsg_keeps, dataArrives_keeps]

theorem execDatPoisonedLine_keeps {o s : State} (h : Keeps o s) (m) : OutKeeps o (execDatPoisonedLine m s) := by
  grind [execDatPoisonedLine, OutKeeps, poisonLine_keeps, closeOut_keeps, onMsg_keeps]

theorem execSnpRecallOwner_keeps {o s : State} (h : Keeps o s) (m) : OutKeeps o (execSnpRecallOwner m s) := by
  grind [execSnpRecallOwner, OutKeeps, dirYield_keeps, respond_keeps, onMsg_keeps, setDir_keeps, noteOut_keeps, reply_keeps]

theorem execSnpInvalidate_keeps {o s : State} (h : Keeps o s) (m) : OutKeeps o (execSnpInvalidate m s) := by
  grind [execSnpInvalidate, OutKeeps, respond_keeps, onMsg_keeps, noteOut_keeps, dieGivesUp_keeps]

theorem execSnpForcedPublish_keeps {o s : State} (h : Keeps o s) (m) : OutKeeps o (execSnpForcedPublish m s) := by
  grind [execSnpForcedPublish, OutKeeps, respond_keeps, onMsg_keeps, noteOut_keeps, publishSel_keeps]

theorem execTokGrantShared_keeps {o s : State} (h : Keeps o s) (m) : OutKeeps o (execTokGrantShared m s) := by
  grind [execTokGrantShared, OutKeeps, onMsg_keeps, setDir_keeps]

theorem execTokGrantOwned_keeps {o s : State} (h : Keeps o s) (m) : OutKeeps o (execTokGrantOwned m s) := by
  grind [execTokGrantOwned, OutKeeps, onMsg_keeps, setDir_keeps]

theorem execTokRevoke_keeps {o s : State} (h : Keeps o s) (m) : OutKeeps o (execTokRevoke m s) := by
  grind [execTokRevoke, OutKeeps, respond_keeps, onMsg_keeps, dieGivesUp_keeps]

theorem rowPlaced_keeps {o s : State} (h : Keeps o s) (m n tag buf row) : Keeps o (rowPlaced s m n tag buf row) :=
  sendMsg_keeps (keeps_upd (ingest_keeps h _ _ _ _ _ _ _)) _ _ _ _ _ _ _

theorem placeRows_keeps {o s : State} (h : Keeps o s) (m n) : Keeps o (placeRows s m n) := by
  induction n generalizing s with
  | zero => exact h
  | succ n ih =>
    unfold placeRows
    dsimp only
    split
    · exact h
    · exact ite_keeps h (ih (rowPlaced_keeps (setDie_keeps (keeps_upd h) _ _) m _ _ _ _))

theorem execIngTokenRow_keeps {o s : State} (h : Keeps o s) (m) : OutKeeps o (execIngTokenRow m s) := by
  grind [execIngTokenRow, OutKeeps, placeRows_keeps, onMsg_keeps, keeps_upd]

theorem virtStore_keeps {o s : State} (h : Keeps o s) (f va l) : Keeps o (virtStore s f va l) := by
  grind [virtStore, deviceWrite_keeps, foldl_fst_keeps]

theorem pickArrives_keeps {o s : State} (h : Keeps o s) (m) : OutKeeps o (execIngPickRecord.pickArrives m s) := by
  refine onMsg_keeps h (fun t ht => ?_) 8 1 m
  dsimp only
  split
  · exact ht
  · exact virtStore_keeps (keeps_upd ht) _ _ _

theorem execIngPickRecord_keeps {o s : State} (h : Keeps o s) (m) : OutKeeps o (execIngPickRecord m s) := by
  have hp := pickArrives_keeps h m
  unfold execIngPickRecord
  split
  · exact outKeeps_ite h hp
  · exact hp

theorem onMgt_keeps {o s : State} (h : Keeps o s) {f : State → Msg → State} (hf : ∀ t m, Keeps o t → Keeps o (f t m)) (op) :
    OutKeeps o (onMgt s op f) := by
  unfold onMgt
  split
  · exact h
  · exact onMsg_keeps h (fun t ht => hf t _ ht) 9 op _

theorem execMgtDescriptorRequest_keeps {o s : State} (h : Keeps o s) : OutKeeps o (execMgtDescriptorRequest s) := by
  grind [execMgtDescriptorRequest, OutKeeps, sendMsg_keeps, onMgt_keeps]

/-! ### Management messages, matrix words and the plan of a step -/

theorem execMgtDescriptor_keeps {o s : State} (h : Keeps o s) : OutKeeps o (execMgtDescriptor s) := by
  grind [execMgtDescriptor, OutKeeps, putDesc_keeps, answered_keeps, onMgt_keeps]

theorem execMgtTopology_keeps {o s : State} (h : Keeps o s) : OutKeeps o (execMgtTopology s) := by
  grind [execMgtTopology, OutKeeps, setDie_keeps, onMgt_keeps]

theorem execMgtFirmwareReplicaWrite_keeps {o s : State} (h : Keeps o s) : OutKeeps o (execMgtFirmwareReplicaWrite s) := by
  grind [execMgtFirmwareReplicaWrite, OutKeeps, regWrite_keeps, respond_keeps, errorAnswer_keeps, onMgt_keeps]

theorem execMgtEvent_keeps {o s : State} (h : Keeps o s) : OutKeeps o (execMgtEvent s) := by
  grind [execMgtEvent, OutKeeps, raiseEvent_keeps, onMgt_keeps]

theorem mPlan_keeping {f : State → Nat → Job → List Word → IRes} (hf : ∀ o s k j v, Keeps o s → IResKeeps o (f s k j v)) (d) :
    EPlan.Keeping (mPlan d f) := hf

theorem needMs_keeps {o : State} {f : MGrant → IRes} (hf : ∀ g, IResKeeps o (f g)) (i j) : IResKeeps o (needMs i j f) := by
  unfold needMs
  split
  · trivial
  · exact hf _

theorem keepWaiting_keeps {o s : State} (h : Keeps o s) (k j) : IResKeeps o (keepWaiting s k j) := h

theorem frozenWait_keeps {o s : State} (h : Keeps o s) (k j) : IResKeeps o (frozenWait s k j) := modJob_keeps h k _

theorem issued_keeps {o s : State} (h : Keeps o s) (k) : Keeps o (issued s k) := modJob_keeps (leaveFrames_keeps h _) _ _

theorem planMthr_keeping (w) : EPlan.Keeping (planMthr w) :=
  mPlan_keeping (fun o _ _ _ _ h => iresKeeps_ite (iresKeeps_fly h _) (iresKeeps_trap o _ _)) _

theorem planMshape_keeping (w) : EPlan.Keeping (planMshape w) := mPlan_keeping (fun _ _ _ _ _ h => iresKeeps_fly h _) _

theorem planMclm_keeping (w) : EPlan.Keeping (planMclm w) := mPlan_keeping (fun _ _ _ _ _ h => iresKeeps_fly h _) _

theorem planMrel_keeping (w) : EPlan.Keeping (planMrel w) := mPlan_keeping (fun _ _ _ _ _ h => iresKeeps_fly h _) _

theorem needSlot_keeps {o : State} {f : Slot → IRes} (hf : ∀ t, IResKeeps o (f t)) (w j) : IResKeeps o (needSlot w j f) := by
  unfold needSlot
  split
  · trivial
  · exact hf _

theorem planMlda_keeping (w) : EPlan.Keeping (planMlda w) := by
  refine mPlan_keeping (fun o s k j v h => needMs_keeps (fun g => needSlot_keeps (fun t => ?_) w j) _ j) _
  dsimp only
  split
  · trivial
  · split
    · trivial
    · split
      · trivial
      · exact h

theorem repHint_keeps {o s : State} (h : Keeps o s) (k j w page len) : Keeps o (repHint s k j w page len) :=
  ite_keeps (addReplica_keeps h _ _ _ _) h

theorem mmaPlan_keeping (i w) : EPlan.Keeping (mmaPlan i w) := by
  refine mPlan_keeping (fun o s k j v h => needMs_keeps (fun g => needSlot_keeps (fun t => ?_) w j) i j) _
  refine iresKeeps_ite (iresKeeps_trap o _ _) ?_
  split
  · exact frozenWait_keeps h k j
  · trivial
  · rename_i af wf kd _
    have hl := lookup_keeps h k j (v.headD 0).toNat (scaleLen wf) true (w.pin == 1) true (mmaAccs w kd) [w.aslot.toNat]
    dsimp only
    generalize lookup s k j (v.headD 0).toNat (scaleLen wf) true (w.pin == 1) true (mmaAccs w kd) [w.aslot.toNat] = r at hl ⊢
    split
    · trivial
    · split
      · trivial
      · split
        · trivial
        · cases r with
          | trap t c v => exact hl
          | stall => trivial
          | wait t => exact keepWaiting_keeps hl k j
          | have_ t fr =>
            dsimp only
            split
            · trivial
            · split
              · exact hl
              · exact iresKeeps_fly (repHint_keeps (leaseSpend_keeps (issued_keeps hl k) k) k j w _ _) _

theorem planMma_keeping (w) : EPlan.Keeping (planMma w) := mmaPlan_keeping _ w

theorem planMmas_keeping (w) : EPlan.Keeping (planMmas w) := mmaPlan_keeping _ w

theorem planMacr_keeping (w) : EPlan.Keeping (planMacr w) := by
  refine mPlan_keeping (fun o s k j v h => needMs_keeps (fun g => ?_) _ j) _
  dsimp only
  split
  · trivial
  · split
    · trivial
    · exact iresKeeps_ite (show IResKeeps o .wait from trivial) (iresKeeps_fly h _)

theorem planMzero_keeping (w) : EPlan.Keeping (planMzero w) :=
  mPlan_keeping (fun _ _ _ j _ h => needMs_keeps (fun _ => iresKeeps_fly h _) _ j) _

theorem tilePlan_keeping {f : State → Nat → Job → Nat → IRes} (hf : ∀ o s k j ea, Keeps o s → IResKeeps o (f s k j ea)) (i w fmts push early) :
    EPlan.Keeping (tilePlan i w fmts push early f) := by
  refine mPlan_keeping (fun o s k j v h => needMs_keeps (fun g => ?_) i j) _
  dsimp only
  split
  · trivial
  · split
    · trivial
    · exact hf o s k j _ h

theorem planMfill_keeping (w) : EPlan.Keeping (planMfill w) := by
  refine tilePlan_keeping (fun o s k j ea h => ?_) _ w _ _ _
  split
  · exact frozenWait_keeps h k j
  · trivial
  · rename_i f _
    have hl := lookup_keeps h k j ea (scaleLen f) false (w.pin == 1) false [] []
    generalize lookup s k j ea (scaleLen f) false (w.pin == 1) false [] [] = r at hl ⊢
    cases r with
    | trap t c v => exact hl
    | stall => trivial
    | wait t => exact keepWaiting_keeps hl k j
    | have_ t fr => exact iresKeeps_fly (repHint_keeps (leaseSpend_keeps (issued_keeps hl k) k) k j w _ _) _

theorem touchAll_keeps {o s : State} (h : Keeps o s) (k f page) : Keeps o (touchAll s k f page) := setCluster_keeps h _ _

theorem anyKey_keeps {o s : State} (h : Keeps o s) {f : State → IRes} (hf : ∀ t, Keeps o t → IResKeeps o (f t)) (k j ea) :
    IResKeeps o (anyKey s k j ea f) := by
  unfold anyKey
  dsimp only
  split
  · exact hf _ (touchAll_keeps h k _ _)
  · have hl := fun n => lookup_keeps h k j ea n false false false [] []
    generalize hr : lookup s k j ea _ _ _ _ _ _ = r
    have hk : LkResKeeps o r := hr ▸ hl _
    cases r with
    | trap t c v => exact hk
    | stall => trivial
    | wait t => exact keepWaiting_keeps hk k j
    | have_ t fr => exact hf t hk

theorem planMpin_keeping (w) : EPlan.Keeping (planMpin w) :=
  tilePlan_keeping (fun _ _ k j ea h => anyKey_keeps h
    (fun _ ht => iresKeeps_fly (leaseSpend_keeps (issued_keeps (setCluster_keeps ht _ _) k) k) _) k j ea) _ w _ _ _

theorem planMunp_keeping (w) : EPlan.Keeping (planMunp w) :=
  tilePlan_keeping (fun _ _ _ _ _ h => iresKeeps_fly (setCluster_keeps h _ _) _) _ w _ _ _

theorem planMinv_keeping (w) : EPlan.Keeping (planMinv w) :=
  tilePlan_keeping (fun _ _ _ _ _ h => iresKeeps_fly (dropTile_keeps h _ _ _) _) _ w _ _ _

theorem planMqry_keeping (w) : EPlan.Keeping (planMqry w) := tilePlan_keeping (fun _ _ _ _ _ h => iresKeeps_fly h _) _ w _ _ _

theorem planMrep_keeping (w) : EPlan.Keeping (planMrep w) := by
  refine tilePlan_keeping (fun o s k j ea h => anyKey_keeps h (fun t ht => ?_) k j ea) _ w _ _ _
  refine iresKeeps_ite (iresKeeps_fly (leaseSpend_keeps (issued_keeps ?_ k) k) _) (keepWaiting_keeps (issued_keeps ht k) k j)
  refine foldl_fst_keeps (r := (setCluster t _ _, true)) (fun _ len hu => ?_) (setCluster_keeps ht _ _) _
  exact addReplica_keeps hu _ _ _ len

theorem planMlse_keeping (w) : EPlan.Keeping (planMlse w) := by
  refine mPlan_keeping (fun o s k j v h => ?_) _
  split
  · split
    · exact issued_keeps h k
    · trivial
  · split
    · trivial
    · exact setCluster_keeps h _ _

theorem planMlrl_keeping (w) : EPlan.Keeping (planMlrl w) := mPlan_keeping (fun _ _ k _ _ h => iresKeeps_fly (leaseEnd_keeps h k) _) _

theorem execMatrixWordRetire_keeps {o s : State} (h : Keeps o s) (k) : OutKeeps o (execMatrixWordRetire k s) := by
  unfold execMatrixWordRetire
  split
  · exact h
  · split
    · exact h
    · exact ite_keeps (retireXWord_keeps h _) h

theorem execReplay_keeps {o s : State} (h : Keeps o s) : OutKeeps o (execReplay s) :=
  sExec_keeps h (fun k j => by grind [SResKeeps, raiseEvent_keeps, resumeJob_keeps, keeps_upd]) _ _ _

theorem takePort_keeps {o s : State} (h : Keeps o s) (k e) {t} (e : takePort s k e = some t) : Keeps o t := by
  grind [takePort, setCore_keeps]

theorem takeTurn_keeps {o s : State} (h : Keeps o s) (k st) {t} (e : takeTurn s k st = some t) : Keeps o t := by
  grind [takeTurn, takePort_keeps, takeSlot_keeps]

theorem planStream_keeps {o s : State} (h : Keeps o s) (k st) : PlanKeeps o (planStream s k st) := by
  have hs : Keeps o { s with turnJob := k, turn := st } := keeps_upd h
  unfold planStream
  dsimp only
  split
  · exact hs
  · split
    · exact hs
    · split
      · exact hs
      · rename_i t e
        have ht : Keeps o t := takeTurn_keeps hs k st e
        split
        · exact sFinish_keeps ht (r := .retire t _) ht k _
        · have hb := fun j => bpCheck_keeps ht k j st
          split
          · exact hb _
          · split
            · exact hb _
            · exact planFetch_keeps (hb _) k _ st

theorem takeAction_keeps {o s : State} (h : Keeps o s) : Keeps o (takeAction s).2 := by
  have hf : Keeps o { s with fresh := s.fresh + 1 } := keeps_upd h
  unfold takeAction
  dsimp only
  split
  · exact keeps_upd hf
  · split
    · exact keeps_upd hf
    · exact hf

theorem planAction_keeps {o s : State} (h : Keeps o s) (a) : PlanKeeps o (planAction s a) := by
  unfold planAction
  split
  case h_1 => exact planStream_keeps h _ _
  case h_2 => exact h
  case h_3 => split <;> exact h
  case h_4 => exact progressWord_keeps h _ _ _ _
  case h_5 => exact passTime_keeps h _
  case h_6 => exact displace_keeps h _
  case h_7 => exact countCe_keeps h _
  case h_8 => exact failHome_keeps h _
  case h_9 => exact failState_keeps h _
  case h_10 => exact failBank_keeps h _ _
  case h_11 => exact failSlot_keeps h _ _ _
  case h_12 => exact failFrame_keeps h _ _ _
  case h_13 => exact failAcc_keeps h _ _ _
  case h_14 => exact failRecord_keeps h _
  case h_15 => exact degradeLine_keeps h _
  case h_16 => exact failDir_keeps h _
  case h_17 => exact failTag_keeps h _ _
  case h_18 => exact bootFail_keeps h _ _
  case h_19 => exact fuseSvn_keeps h

theorem planStep_keeps {o s : State} (h : Keeps o s) : PlanKeeps o (planStep s) := planAction_keeps (takeAction_keeps h) _

/-! ### Every instruction and every step -/

/-- Every instruction and every event keeps. -/
theorem exec_keeps {o s : State} (h : Keeps o s) (i : Instr) : OutKeeps o (exec i s) := by
  cases i with
  | nop => exact execNop_keeps h
  | add d a b => exact sPure_keeps h _ _
  | sub d a b => exact sPure_keeps h _ _
  | and d a b => exact sPure_keeps h _ _
  | or d a b => exact sPure_keeps h _ _
  | xor d a b => exact sPure_keeps h _ _
  | shl d a b => exact sPure_keeps h _ _
  | shr d a b => exact sPure_keeps h _ _
  | sra d a b => exact sPure_keeps h _ _
  | mul d a b => exact sPure_keeps h _ _
  | mulh d a b => exact sPure_keeps h _ _
  | mulhu d a b => exact sPure_keeps h _ _
  | div d a b => exact sPure_keeps h _ _
  | divu d a b => exact sPure_keeps h _ _
  | rem d a b => exact sPure_keeps h _ _
  | remu d a b => exact sPure_keeps h _ _
  | min d a b => exact sPure_keeps h _ _
  | max d a b => exact sPure_keeps h _ _
  | minu d a b => exact sPure_keeps h _ _
  | maxu d a b => exact sPure_keeps h _ _
  | clz d a => exact sPure_keeps h _ _
  | popc d a => exact sPure_keeps h _ _
  | sel d a b p => exact sPure_keeps h _ _
  | addi d a i => exact sPure_keeps h _ _
  | andi d a i => exact sPure_keeps h _ _
  | ori d a i => exact sPure_keeps h _ _
  | xori d a i => exact sPure_keeps h _ _
  | shli d a n => exact sPure_keeps h _ _
  | shri d a n => exact sPure_keeps h _ _
  | srai d a n => exact sPure_keeps h _ _
  | movi d i => exact sPure_keeps h _ _
  | shin d i => exact sPure_keeps h _ _
  | cmp p c a b => exact sPure_keeps h _ _
  | cmpi p c a i => exact sPure_keeps h _ _
  | pand d a b => exact (sPure_keeps h _ _ : OutKeeps o (execPand d a b s))
  | por d a b => exact (sPure_keeps h _ _ : OutKeeps o (execPor d a b s))
  | pxor d a b => exact (sPure_keeps h _ _ : OutKeeps o (execPxor d a b s))
  | pnot d a => exact (sPure_keeps h _ _ : OutKeeps o (execPnot d a s))
  | b p n o => exact execB_keeps h p n o
  | jmp o => exact execJmp_keeps h o
  | call o => exact execCall_keeps h o
  | jr a => exact execJr_keeps h a
  | ld d a w k x o => exact execLd_keeps h d a w k x o
  | st d a w k o => exact execSt_keeps h d a w k o
  | ldm d a n o => exact execLdm_keeps h d a n o
  | stm d a n o => exact execStm_keeps h d a n o
  | lda d a w sc o => exact execLda_keeps h d a w sc o
  | stl d a w sc o => exact execStl_keeps h d a w sc o
  | throw d a b w sc => exact execThrow_keeps h d a b w sc
  | pref a sc o => exact execPref_keeps h a sc o
  | spl d n => exact execSpl_keeps h d n
  | sps d n => exact execSps_keeps h d n
  | qpush a q => exact execQpush_keeps h a q
  | qpop d q => exact execQpop_keeps h d q
  | qcnt d q => exact execQcnt_keeps h d q
  | fence sc src dst k => exact execFence_keeps h sc src dst k
  | fenceRetire j => exact execFenceRetire_keeps h j
  | waitProd => exact execWaitProd_keeps h
  | waitMemeq a b sc => exact execWaitMemeq_keeps h a b sc
  | waitMemge a b sc => exact execWaitMemge_keeps h a b sc
  | waitNm a => exact execWaitNm_keeps h a
  | waitIngr a b => exact execWaitIngr_keeps h a b
  | waitReevaluate j => exact execWaitReevaluate_keeps h j
  | trig => exact execTrig_keeps h
  | rdv m => exact execRdv_keeps h m
  | joinComplete j => exact execJoinComplete_keeps h j
  | halt => exact execHalt_keeps h
  | haltRetire j => exact execHaltRetire_keeps h j
  | yield => exact execYield_keeps h
  | barc i => exact execBarc_keeps h i
  | barrierComplete cl launch id => exact execBarrierComplete_keeps h cl launch id
  | rbeg o => exact execRbeg_keeps h o
  | rcom d => exact execRcom_keeps h d
  | regionCommit j => exact execRegionCommit_keeps h j
  | rabt c => exact execRabt_keeps h c
  | rbndLo d => exact execRbndLo_keeps h d
  | rbndHi d => exact execRbndHi_keeps h d
  | nmgo d a => exact execNmgo_keeps h d a
  | nmwt d a => exact execNmwt_keeps h d a
  | spawn d a b => exact execSpawn_keeps h d a b
  | wgen d a => exact execWgen_keeps h d a
  | csrr d c => exact execCsrr_keeps h d c
  | csrw a c => exact execCsrw_keeps h a c
  | trap i => exact execTrap_keeps h i
  | openRange => exact execOpenRange_keeps h
  | closeRange => exact execCloseRange_keeps h
  | registerBufferGroup => exact execRegisterBufferGroup_keeps h
  | resetBufferGroup => exact execResetBufferGroup_keeps h
  | releaseBufferGroup => exact execReleaseBufferGroup_keeps h
  | setContextPool => exact execSetContextPool_keeps h
  | registerWeightTable => exact execRegisterWeightTable_keeps h
  | setWatchpoint => exact execSetWatchpoint_keeps h
  | replay => exact execReplay_keeps h
  | replayEnd j => exact execReplayEnd_keeps h j
  | attestationReport => exact execAttestationReport_keeps h
  | unassignedFirmwareService i => exact execUnassignedFirmwareService_keeps h i
  | eret => exact execEret_keeps h
  | vshape w => exact eExec_keeps h (planVshape_keeping w) _ _ _
  | vadd w => exact eExec_keeps h (vPlan_keeping _ w _) _ _ _
  | vsub w => exact eExec_keeps h (vPlan_keeping _ w _) _ _ _
  | vmul w => exact eExec_keeps h (vPlan_keeping _ w _) _ _ _
  | vfma w => exact eExec_keeps h (vPlan_keeping _ w _) _ _ _
  | vmin w => exact eExec_keeps h (vPlan_keeping _ w _) _ _ _
  | vmax w => exact eExec_keeps h (vPlan_keeping _ w _) _ _ _
  | vabs w => exact eExec_keeps h (vPlan_keeping _ w _) _ _ _
  | vneg w => exact eExec_keeps h (vPlan_keeping _ w _) _ _ _
  | vand w => exact eExec_keeps h (vPlan_keeping _ w _) _ _ _
  | vor w => exact eExec_keeps h (vPlan_keeping _ w _) _ _ _
  | vxor w => exact eExec_keeps h (vPlan_keeping _ w _) _ _ _
  | vshl w => exact eExec_keeps h (vPlan_keeping _ w _) _ _ _
  | vshr w => exact eExec_keeps h (vPlan_keeping _ w _) _ _ _
  | vcmp w => exact eExec_keeps h (vPlan_keeping _ w _) _ _ _
  | vsel w => exact eExec_keeps h (vPlan_keeping _ w _) _ _ _
  | vcvt w => exact eExec_keeps h (vPlan_keeping _ w _) _ _ _
  | vqnt w => exact eExec_keeps h (vPlan_keeping _ w _) _ _ _
  | vdq w => exact eExec_keeps h (vPlan_keeping _ w _) _ _ _
  | vexp w => exact eExec_keeps h (vPlan_keeping _ w _) _ _ _
  | vrcp w => exact eExec_keeps h (vPlan_keeping _ w _) _ _ _
  | vrsq w => exact eExec_keeps h (vPlan_keeping _ w _) _ _ _
  | vtanh w => exact eExec_keeps h (vPlan_keeping _ w _) _ _ _
  | vred w => exact eExec_keeps h (vPlan_keeping _ w _) _ _ _
  | vscan w => exact eExec_keeps h (vPlan_keeping _ w _) _ _ _
  | vgmax w => exact eExec_keeps h (vPlan_keeping _ w _) _ _ _
  | vtopk w => exact eExec_keeps h (vPlan_keeping _ w _) _ _ _
  | vnorm w => exact eExec_keeps h (vPlan_keeping _ w _) _ _ _
  | vcopy w => exact eExec_keeps h (vPlan_keeping _ w _) _ _ _
  | vfill w => exact eExec_keeps h (vPlan_keeping _ w _) _ _ _
  | viota w => exact eExec_keeps h (vPlan_keeping _ w _) _ _ _
  | vgath w => exact eExec_keeps h (vPlan_keeping _ w _) _ _ _
  | vscat w => exact eExec_keeps h (vPlan_keeping _ w _) _ _ _
  | vtran w => exact eExec_keeps h (vPlan_keeping _ w _) _ _ _
  | vmskAnd w => exact (eExec_keeps h (vPlan_keeping _ w _) _ _ _ : OutKeeps o (execVmskAnd w s))
  | vmskOr w => exact (eExec_keeps h (vPlan_keeping _ w _) _ _ _ : OutKeeps o (execVmskOr w s))
  | vmskXor w => exact (eExec_keeps h (vPlan_keeping _ w _) _ _ _ : OutKeeps o (execVmskXor w s))
  | vmskAndn w => exact (eExec_keeps h (vPlan_keeping _ w _) _ _ _ : OutKeeps o (execVmskAndn w s))
  | vmskNot w => exact (eExec_keeps h (vPlan_keeping _ w _) _ _ _ : OutKeeps o (execVmskNot w s))
  | vmskFirst w => exact eExec_keeps h (vPlan_keeping _ w _) _ _ _
  | vmskCount w => exact eExec_keeps h (vPlan_keeping _ w _) _ _ _
  | vmskLd w => exact eExec_keeps h (vPlan_keeping _ w _) _ _ _
  | vmskSt w => exact eExec_keeps h (vPlan_keeping _ w _) _ _ _
  | vectorWordRetire j => exact execVectorWordRetire_keeps h j
  | mshape w => exact eExec_keeps h (planMshape_keeping w) _ _ _
  | mma w => exact eExec_keeps h (planMma_keeping w) _ _ _
  | mmas w => exact eExec_keeps h (planMmas_keeping w) _ _ _
  | mlda w => exact eExec_keeps h (planMlda_keeping w) _ _ _
  | mclm w => exact eExec_keeps h (planMclm_keeping w) _ _ _
  | mrel w => exact eExec_keeps h (planMrel_keeping w) _ _ _
  | macr w => exact eExec_keeps h (planMacr_keeping w) _ _ _
  | mzero w => exact eExec_keeps h (planMzero_keeping w) _ _ _
  | mfill w => exact eExec_keeps h (planMfill_keeping w) _ _ _
  | mpin w => exact eExec_keeps h (planMpin_keeping w) _ _ _
  | munp w => exact eExec_keeps h (planMunp_keeping w) _ _ _
  | minv w => exact eExec_keeps h (planMinv_keeping w) _ _ _
  | mqry w => exact eExec_keeps h (planMqry_keeping w) _ _ _
  | mrep w => exact eExec_keeps h (planMrep_keeping w) _ _ _
  | mlse w => exact eExec_keeps h (planMlse_keeping w) _ _ _
  | leaseGrant cl => exact execLeaseGrant_keeps h cl
  | leaseBudgetExhausted cl => exact execLeaseBudgetExhausted_keeps h cl
  | mlrl w => exact eExec_keeps h (planMlrl_keeping w) _ _ _
  | mthr w => exact eExec_keeps h (planMthr_keeping w) _ _ _
  | frameFillComplete cl fr => exact execFrameFillComplete_keeps h cl fr
  | frameCopyComplete cl fr => exact execFrameCopyComplete_keeps h cl fr
  | hardwareReplica cl fr => exact execHardwareReplica_keeps h cl fr
  | matrixWordRetire j => exact execMatrixWordRetire_keeps h j
  | cpy w => exact eExec_keeps h (planCpy_keeping w) _ _ _
  | cpyg w => exact eExec_keeps h (planCpyg_keeping w) _ _ _
  | cpyd w => exact eExec_keeps h (planCpyd_keeping w) _ _ _
  | cpym w => exact eExec_keeps h (planCpym_keeping w) _ _ _
  | prel w => exact eExec_keeps h (planPrel_keeping w) _ _ _
  | dgst w => exact eExec_keeps h (planDgst_keeping w) _ _ _
  | cps w => exact eExec_keeps h (planCps_keeping w) _ _ _
  | acw w => exact eExec_keeps h (planAcw_keeping w) _ _ _
  | acwf w => exact eExec_keeps h (planAcwf_keeping w) _ _ _
  | cas w => exact eExec_keeps h (planCas_keeping w) _ _ _
  | cpst w => exact eExec_keeps h (planCpst_keeping w) _ _ _
  | scat w => exact eExec_keeps h (planScat_keeping w) _ _ _
  | flsh w => exact eExec_keeps h (planFlsh_keeping w) _ _ _
  | invl w => exact eExec_keeps h (planInvl_keeping w) _ _ _
  | engineWordRetire j e => exact execEngineWordRetire_keeps h j e
  | aq e w => exact eExec_keeps h (planAq_keeping e w) _ _ _
  | aset e w => exact eExec_keeps h (planAset_keeping e w) _ _ _
  | aadd e w => exact eExec_keeps h (planAadd_keeping e w) _ _ _
  | ejoin e w => exact eExec_keeps h (planEjoin_keeping e w) _ _ _
  | enop e w => exact eExec_keeps h (planEnop_keeping e w) _ _ _
  | cshape e w => exact eExec_keeps h (planCshape_keeping e w) _ _ _
  | loop e w => exact eExec_keeps h (planLoop_keeping e w) _ _ _
  | breakpointStop j st n => exact execBreakpointStop_keeps h j st n
  | jobDispatch die => exact execJobDispatch_keeps h die
  | walkerSteal launch die => exact execWalkerSteal_keeps h launch die
  | tailReread leaf => exact execTailReread_keeps h leaf
  | periodBoundary node => exact execPeriodBoundary_keeps h node
  | ageLevelTick launch => exact execAgeLevelTick_keeps h launch
  | launchComplete launch => exact execLaunchComplete_keeps h launch
  | preemptionRequest j => exact execPreemptionRequest_keeps h j
  | sliceExpiry j => exact execSliceExpiry_keeps h j
  | graceExpiry j => exact execGraceExpiry_keeps h j
  | forcedCut j => exact execForcedCut_keeps h j
  | contextSaveDone j => exact execContextSaveDone_keeps h j
  | saveDeadlineExpiry j => exact execSaveDeadlineExpiry_keeps h j
  | jobResume launch ticket => exact execJobResume_keeps h launch ticket
  | hangWatchdog j => exact execHangWatchdog_keeps h j
  | nmJobStart m => exact execNmJobStart_keeps h m
  | nmJobComplete m u => exact execNmJobComplete_keeps h m u
  | nmWatchdogReset m u => exact execNmWatchdogReset_keeps h m u
  | activationAlert m u row share total => exact execActivationAlert_keeps h m u row share total
  | persistentRequest line core => exact execPersistentRequest_keeps h line core
  | positionRebase => exact execPositionRebase_keeps h
  | pageMoveRemap f => exact execPageMoveRemap_keeps h f
  | freezeStallTimeout j st => exact execFreezeStallTimeout_keeps h j st
  | weightRecheck f => exact execWeightRecheck_keeps h f
  | patrolScrub die line bad => exact execPatrolScrub_keeps h die line bad
  | flitReceive die module flit => exact execFlitReceive_keeps h die module flit
  | linkRetrain die link rates repaired => exact execLinkRetrain_keeps h die link rates repaired
  | reqReadShared m => exact execReqReadShared_keeps h m
  | reqReadOwned m => exact execReqReadOwned_keeps h m
  | reqWrite m => exact execReqWrite_keeps h m
  | reqAtomic m => exact execReqAtomic_keeps h m
  | reqReleasePermission m => exact execReqReleasePermission_keeps h m
  | reqNearMemoryJob m => exact execReqNearMemoryJob_keeps h m
  | reqWalkerSteal m => exact execReqWalkerSteal_keeps h m
  | reqRegisterAccess m => exact execReqRegisterAccess_keeps h m
  | rspAck m => exact execRspAck_keeps h m
  | rspRetry m => exact execRspRetry_keeps h m
  | rspMoved m => exact execRspMoved_keeps h m
  | rspError m => exact execRspError_keeps h m
  | rspDataFollows m => exact execRspDataFollows_keeps h m
  | rspForcedPublishAck m => exact execRspForcedPublishAck_keeps h m
  | datLine m => exact execDatLine_keeps h m
  | datPartialLine m => exact execDatPartialLine_keeps h m
  | datPoisonedLine m => exact execDatPoisonedLine_keeps h m
  | snpRecallOwner m => exact execSnpRecallOwner_keeps h m
  | snpInvalidate m => exact execSnpInvalidate_keeps h m
  | snpForcedPublish m => exact execSnpForcedPublish_keeps h m
  | tokGrantShared m => exact execTokGrantShared_keeps h m
  | tokGrantOwned m => exact execTokGrantOwned_keeps h m
  | tokRevoke m => exact execTokRevoke_keeps h m
  | nrw m => exact execNrw_keeps h m
  | pos m => exact execPos_keeps h m
  | ingTokenRow m => exact execIngTokenRow_keeps h m
  | ingPickRecord m => exact execIngPickRecord_keeps h m
  | mgtDescriptorRequest => exact execMgtDescriptorRequest_keeps h
  | mgtDescriptor => exact execMgtDescriptor_keeps h
  | mgtTopology => exact execMgtTopology_keeps h
  | mgtFirmwareReplicaWrite => exact execMgtFirmwareReplicaWrite_keeps h
  | mgtEvent => exact execMgtEvent_keeps h
  | throwDelivery core line => exact execThrowDelivery_keeps h core line
  | hostRead pa n => exact execHostRead_keeps h pa n
  | hostWrite pa n data => exact execHostWrite_keeps h pa n data
  | hostFetchAdd pa wide v => exact execHostFetchAdd_keeps h pa wide v
  | hostSwap pa wide v => exact execHostSwap_keeps h pa wide v
  | hostCompareSwap pa wide old new => exact execHostCompareSwap_keeps h pa wide old new
  | tenRoot n v => exact execTenRoot_keeps h n v
  | tenKick n v => exact execTenKick_keeps h n v
  | domRst f v => exact execDomRst_keeps h f v
  | domainResetDone f => exact execDomainResetDone_keeps h f
  | xlInv f v => exact execXlInv_keeps h f v
  | xlMig f v => exact execXlMig_keeps h f v
  | errPop die v => exact execErrPop_keeps h die v
  | fwinWrite n r v => exact execFwinWrite_keeps h n r v
  | registerWrite pa v => exact execRegisterWrite_keeps h pa v
  | powerOn => exact execPowerOn_keeps h
  | discoveryTimeout => exact execDiscoveryTimeout_keeps h
  | clockStep die up => exact execClockStep_keeps h die up
  | thermalThrottle die => exact execThermalThrottle_keeps h die
  | thermalStop die => exact execThermalStop_keeps h die
  | copyTrapInFlight j e => exact execCopyTrapInFlight_keeps h j e
  | coherentWindowSnoop line write => exact execCoherentWindowSnoop_keeps h line write
  | trHead f v => exact execTrHead_keeps h f v
  | packageReset => exact execPackageReset_keeps h

/-- Every step keeps. -/
theorem step_keeps (s : State) : OutKeeps s (step s) := by
  have hp := planStep_keeps (Keeps.refl s)
  unfold step
  split
  · rename_i i t e
    exact exec_keeps (show Keeps s t by rwa [e] at hp) i
  · rename_i t e
    exact (show Keeps s t by rwa [e] at hp)

/-- Settles O8: every operation that writes a memory or the table of jobs keeps its form, and every step is built of them. -/
theorem everyStepKeepsCanonicalForms : Obligations.EveryStepKeepsCanonicalForms := by
  unfold Obligations.EveryStepKeepsCanonicalForms
  intro s t e
  have h : OutKeeps s (.next t) := e ▸ step_keeps s
  exact ⟨h.mem, h.slots⟩

end Sys2Proof.Machine
end

section
/-!
PROOFS, part 7. What taking a trap leaves of the job and of its slot (R361, R364, R365).
-/
namespace Sys2Proof.Machine

/-! ### The parts of a stop, on the job -/

/-- `j'` differs from `j` in its core and in the paths posted with the entries of its queues only. -/
def CoreOnly (j j' : Job) : Prop := ∃ c p, j' = { j with core := c, posted := p }

theorem CoreOnly.refl (j : Job) : CoreOnly j j := ⟨j.core, j.posted, rfl⟩

theorem CoreOnly.trans {a b c : Job} (h : CoreOnly a b) (g : CoreOnly b c) : CoreOnly a c := by
  obtain ⟨_, _, rfl⟩ := h
  obtain ⟨c, p, rfl⟩ := g
  exact ⟨c, p, rfl⟩

theorem QueuesOnly.coreOnly {j j' : Job} (h : QueuesOnly j j') : CoreOnly j j' := by
  obtain ⟨q, w, rfl⟩ := h
  exact ⟨_, _, rfl⟩

theorem pushXs_coreOnly (l : List Word) : ∀ j : Job, CoreOnly j (l.foldl Job.pushX j) := by
  induction l with
  | nil => exact .refl
  | cons v r ih => exact fun j => .trans ⟨_, _, rfl⟩ (ih (j.pushX v))

theorem retireX_coreOnly (fresh : Nat) (j : Job) (i : InFlight) : CoreOnly j (j.retireX fresh i) := by
  have hl : CoreOnly j ((j.land i.eff).winUse fresh .X i.seq i.know (cellSpans (i.eff.win.map (fun c => c.1))) true) := ⟨_, _, rfl⟩
  exact ((hl.trans (pushXs_coreOnly i.eff.push _)).trans (tokRetire_queues _ .X (tokBits i.word)).coreOnly).trans ⟨_, _, rfl⟩

/-- `j'` is `j` after `n` words of X have retired, in the parts that a stop is asked about. -/
structure Landed (n : Nat) (j j' : Job) : Prop where
  only : CoreOnly j j'
  S : j'.core.S = j.core.S
  L : j'.core.L = j.core.L
  T : j'.core.T = j.core.T
  X : j'.core.X = { j.core.X with seq := j.core.X.seq + n, inflight := j.core.X.inflight.drop n }
  rstat : j'.core.rstat = j.core.rstat

theorem retireX_landed (fresh : Nat) (j : Job) (i : InFlight) : Landed 1 j (j.retireX fresh i) := by
  obtain ⟨win, acc, q, hc, -⟩ := retireX_core fresh j i
  obtain ⟨w, m, hl⟩ := land_core j i.eff
  rw [hl] at hc
  exact ⟨retireX_coreOnly fresh j i, by rw [hc], by rw [hc], by rw [hc], by rw [hc], by rw [hc]⟩

theorem Landed.trans {m n : Nat} {a b c : Job} (h : Landed m a b) (g : Landed n b c) : Landed (n + m) a c := by
  refine ⟨h.only.trans g.only, g.S.trans h.S, g.L.trans h.L, g.T.trans h.T, ?_, g.rstat.trans h.rstat⟩
  rw [g.X, h.X]
  simp only [List.drop_drop, Nat.add_assoc, Nat.add_comm m n]

theorem unplace_queues (e : EStream) (j : Job) (i : InFlight) : QueuesOnly j (j.unplace e i) := by
  have h : QueuesOnly j (j.tokUnres e (tokBits i.word)) := queuesOnly_foldl (fun _ _ => ⟨_, _, rfl⟩) _ j
  unfold Job.unplace
  cases statusQueue i with
  | none => exact h
  | some q => exact h.trans ⟨_, _, rfl⟩

/-- An engine whose words in flight are journaled, none of them begun (R363). -/
def Eng.journaled (g : Eng) : Eng := { g with journal := g.inflight.map (fun i => { i with part := Machine.Part.none }) ++ g.journal, inflight := [] }

/-- Journaling the words in flight of an engine changes that engine, and what the words hold of queues and tokens. -/
theorem journalAll_eq (j : Job) (e : EStream) : ∃ a, QueuesOnly j a ∧ j.journalAll e = a.setEng e (j.eng e).journaled := by
  have h := queuesOnly_foldl (unplace_queues e) ((j.eng e).inflight.map (fun i => { i with part := Machine.Part.none })) j
  refine ⟨_, h, ?_⟩
  unfold Job.journalAll
  simp only [h.eng e, Eng.journaled]

/-- One stream gives up the join that it has issued. -/
def Job.unjoinEng (j : Job) (e : EStream) : Job :=
  match (j.eng e).ejoin with
  | some t => (j.tokUndo e t).setEng e { j.eng e with ejoin := none }
  | none => j

/-- `j'` differs from `j` in its queues and tokens, what streams know and the joins they have issued. -/
def JoinsOnly (j j' : Job) : Prop := ∃ q w x y z, j' = { j with core := { j.core with
  Q := q, wk := w, L := { j.core.L with ejoin := x }, X := { j.core.X with ejoin := y }, T := { j.core.T with ejoin := z } } }

theorem JoinsOnly.trans {a b c : Job} (h : JoinsOnly a b) (g : JoinsOnly b c) : JoinsOnly a c := by
  obtain ⟨_, _, _, _, _, rfl⟩ := h
  obtain ⟨q, w, x, y, z, rfl⟩ := g
  exact ⟨q, w, x, y, z, rfl⟩

theorem unjoinEng_joins (j : Job) (e : EStream) : JoinsOnly j (j.unjoinEng e) := by
  unfold Job.unjoinEng
  cases (j.eng e).ejoin with
  | none => exact ⟨j.core.Q, j.core.wk, j.core.L.ejoin, j.core.X.ejoin, j.core.T.ejoin, rfl⟩
  | some t =>
    have h : QueuesOnly j (j.tokUndo e t) :=
      (queuesOnly_foldl (fun _ _ => ⟨_, _, rfl⟩) _ j).trans (queuesOnly_foldl (fun _ _ => ⟨_, _, rfl⟩) _ _)
    obtain ⟨q, w, h⟩ := h
    simp only [h]
    cases e
    · exact ⟨q, w, none, j.core.X.ejoin, j.core.T.ejoin, rfl⟩
    · exact ⟨q, w, j.core.L.ejoin, none, j.core.T.ejoin, rfl⟩
    · exact ⟨q, w, j.core.L.ejoin, j.core.X.ejoin, none, rfl⟩

theorem unjoin_joins (j : Job) : JoinsOnly j j.unjoin :=
  ((unjoinEng_joins j .L).trans (unjoinEng_joins _ .X)).trans (unjoinEng_joins _ .T)

theorem abortRegion_of_none {j : Job} (h : j.region = none) (s : State) (k cause : Nat) : abortRegion s k j cause = (s, j) := by
  simp only [abortRegion, h]

theorem abortRegion_of_some {j : Job} {r : Region} (h : j.region = some r) (s : State) (k cause : Nat) : (abortRegion s k j cause).2 =
    ({ j with region := none, core := { j.core with rstat := rstatAbort j.core.rstat cause } } : Job).setPc r.hpc := by
  simp only [abortRegion, h]

/-- What the abort of an open region leaves of the job beside PC, rstat and the region. -/
theorem abortRegion_eq (s : State) (k : Nat) (j : Job) (cause : Nat) : ∃ pc st, (abortRegion s k j cause).2 =
    { j with region := none, core := { j.core with rstat := st, S := { j.core.S with pc := pc } } } := by
  cases h : j.region with
  | none =>
    rw [abortRegion_of_none h]
    exact ⟨j.core.S.pc, j.core.rstat, by rw [← h]⟩
  | some r =>
    rw [abortRegion_of_some h]
    exact ⟨r.hpc, _, rfl⟩

/-- One word of X lands and retires, at a stop. -/
def landOne (k fresh : Nat) (a : State × Job) (i : InFlight) : State × Job :=
  (traceWord (dropFrames a.1 (jCluster k) i.eff.dropFrames) k a.2 .X i.pc i.seq, a.2.retireX fresh i)

theorem landOnes_landed (k fresh : Nat) (l : List InFlight) : ∀ a, Landed l.length a.2 (l.foldl (landOne k fresh) a).2 := by
  induction l with
  | nil => exact fun a => ⟨.refl _, rfl, rfl, rfl, rfl, rfl⟩
  | cons i r ih => exact fun a => (retireX_landed fresh a.2 i).trans (ih (landOne k fresh a i))

theorem landAll_landed (s : State) (k : Nat) (j : Job) : Landed j.core.X.inflight.length j (landAll s k j).2 :=
  landOnes_landed k s.fresh j.core.X.inflight (s, j)

/-- A departed barrier wait moves S past its instruction, and nothing else. -/
theorem departed_eq (j : Job) : ∃ S p, j.departed = { j with pend := p, core := { j.core with S := S } } := by
  unfold Job.departed
  split
  · exact ⟨_, _, rfl⟩
  · exact ⟨j.core.S, j.pend, rfl⟩

theorem departed_of_ne {j : Job} (h : j.pend ≠ .departed) : j.departed = j := if_neg h

/-- What giving up a stream's words and joins leaves of the job. -/
theorem journalAll_unjoin_eq (j : Job) : ∃ q w x y z, ((j.journalAll .L).journalAll .T).unjoin = { j with core := { j.core with
    Q := q, wk := w, L := { j.core.L.journaled with ejoin := x }, X := { j.core.X with ejoin := y }, T := { j.core.T.journaled with ejoin := z } } } := by
  obtain ⟨_, ⟨_, _, rfl⟩, h1⟩ := journalAll_eq j .L
  obtain ⟨_, ⟨_, _, rfl⟩, h2⟩ := journalAll_eq (j.journalAll .L) .T
  obtain ⟨q, w, x, y, z, h3⟩ := unjoin_joins ((j.journalAll .L).journalAll .T)
  refine ⟨q, w, x, y, z, ?_⟩
  rw [h3, h2, h1]
  rfl

/-- What a stop leaves of job `j`, in the parts that a trap is asked about: S goes on from its PC, or from the handler of an aborted region. -/
structure Stopped (j j' : Job) : Prop where
  uid : j'.uid = j.uid
  fdom : j'.fdom = j.fdom
  level : j'.level = j.level
  replay : j'.replay = j.replay
  region : j'.region = none
  L : ∃ x, j'.core.L = { j.core.L.journaled with ejoin := x }
  T : ∃ x, j'.core.T = { j.core.T.journaled with ejoin := x }
  X : ∃ x, j'.core.X = { j.core.X with seq := j.core.X.seq + j.core.X.inflight.length, inflight := [], ejoin := x }
  S : j.region = none → j.pend ≠ .departed → j'.core.S = j.core.S
  pc : ∀ r, j.region = some r → j.pend ≠ .departed → j'.pc = r.hpc
  rstat : ∀ r, j.region = some r → j'.core.rstat = rstatAbort j.core.rstat 3

/-- The job at a stop, once its region is aborted and its X words have retired. -/
def cutJob (s : State) (k : Nat) (j : Job) : Job := (landAll (abortRegion s k j 3).1 k (abortRegion s k j 3).2).2

theorem stopJob_eq (s : State) (k : Nat) (j : Job) : ∃ lease, (stopJob s k j).2 =
    (let u := (((cutJob s k j).departed.journalAll .L).journalAll .T).unjoin
    { u with core := { u.core with lease := lease }, pend := .none, lookup := none, stallStart := [] }) := ⟨_, rfl⟩

theorem stopJob_stopped (s : State) (k : Nat) (j : Job) : Stopped j (stopJob s k j).2 := by
  obtain ⟨lease, he⟩ := stopJob_eq s k j
  obtain ⟨S, pd, hd⟩ := departed_eq (cutJob s k j)
  obtain ⟨q, w, x, y, z, hu⟩ := journalAll_unjoin_eq (cutJob s k j).departed
  obtain ⟨⟨c, p, hc⟩, lS, lL, lT, lX, lR⟩ : Landed _ _ (cutJob s k j) := landAll_landed _ _ _
  obtain ⟨pc, st, ha⟩ := abortRegion_eq s k j 3
  have hpend : (cutJob s k j).pend = j.pend := by rw [hc, ha]
  have hS : j.pend ≠ .departed → (stopJob s k j).2.core.S = (abortRegion s k j 3).2.core.S := fun h => by
    rw [he, hu, departed_of_ne (hpend ▸ h), ← lS]
  rw [hu, hd] at he
  refine ⟨?_, ?_, ?_, ?_, ?_, ?_, ?_, ?_, fun hr hp => ?_, fun r hr hp => ?_, fun r hr => ?_⟩
  · rw [he, hc, ha]
  · rw [he, hc, ha]
  · rw [he, hc, ha]
  · rw [he, hc, ha]
  · rw [he, hc, ha]
  · exact ⟨x, by rw [he, lL, ha]⟩
  · exact ⟨z, by rw [he, lT, ha]⟩
  · exact ⟨y, by rw [he, lX, ha, List.drop_length]⟩
  · rw [hS hp, abortRegion_of_none hr]
  · rw [Job.pc, hS hp, abortRegion_of_some hr]
    rfl
  · rw [he, lR, abortRegion_of_some hr]
    rfl

/-! ### The parts of a stop, on the state -/

/-- `t` has the jobs' areas in the save pools that `s` has. -/
def SameReserves (s t : State) : Prop := ∀ f, (domainSt t f).reserves = (domainSt s f).reserves

theorem SameReserves.trans {a b c : State} (h : SameReserves a b) (g : SameReserves b c) : SameReserves a c := fun f => (g f).trans (h f)

theorem SameReserves.of_domains {s t : State} (h : t.domains = s.domains) : SameReserves s t := fun f => by unfold domainSt; rw [h]

theorem SameReserves.foldl {α : Type} {f : State → α → State} (hf : ∀ s a, SameReserves s (f s a)) (l : List α) :
    ∀ s, SameReserves s (l.foldl f s) := by
  induction l with
  | nil => exact fun _ _ => rfl
  | cons a r ih => exact fun s => (hf s a).trans (ih (f s a))

theorem SameReserves.hasArea {s t : State} (h : SameReserves s t) {j j' : Job} (hf : j'.fdom = j.fdom) (hu : j'.uid = j.uid) :
    hasArea t j' = hasArea s j := by
  unfold Machine.hasArea
  rw [h, hf, hu]

theorem setDomain_reserves (s : State) (f : Nat) (d : Domain) (h : d.reserves = (domainSt s f).reserves) : SameReserves s (setDomain s f d) := by
  intro n
  by_cases e : n = f
  · subst e
    rw [domainSt_setDomain_self, h]
  · rw [domainSt_setDomain_ne _ _ e]

theorem homeSet_domains (s : State) (pa : Nat) (b : Byte) : (homeSet s pa b).domains = s.domains := by
  unfold homeSet
  split <;> rfl

theorem homeSetBytes_domains (l : List Byte) : ∀ s pa, (homeSetBytes s pa l).domains = s.domains := by
  induction l with
  | nil => exact fun _ _ => rfl
  | cons b r ih => exact fun s pa => (ih _ _).trans (homeSet_domains s pa b)

theorem noteCode_domains (l : List Byte) : ∀ s pa, (noteCode s pa l).domains = s.domains := by
  induction l with
  | nil => exact fun _ _ => rfl
  | cons b r ih =>
    intro s pa
    rw [noteCode, ih]
    split <;> rfl

theorem writeBackN_domains (n : Nat) : ∀ s pa, (writeBackN s pa n).domains = s.domains := by
  induction n with
  | zero => exact fun _ _ => rfl
  | succ n ih =>
    intro s pa
    unfold writeBackN
    split
    · rw [ih, homeSet_domains]
    · exact ih _ _

theorem writeBackLine_domains (s : State) (line : Nat) : (writeBackLine s line).domains = s.domains := writeBackN_domains _ _ _

theorem dropStale_domains (s : State) (line : Nat) : (dropStale s line).domains = s.domains := by simp only [dropStale]

theorem agentSetBytes_reserves (s : State) (pa : Nat) (l : List Byte) : SameReserves s (agentSetBytes s pa l) := by
  have hl := SameReserves.foldl (fun s ln => .of_domains ((dropStale_domains _ ln).trans (writeBackLine_domains s ln))) (linesOf pa l.length) s
  unfold agentSetBytes
  extract_lets s1 s2
  exact hl.trans (.of_domains ((homeSetBytes_domains l _ pa).trans (noteCode_domains l s1 pa)))

/-- A trace record changes the trace of its domain, and memory. -/
theorem traceRecord_reserves (s : State) (k : Nat) (j : Job) (st : Stream) (kind lv seq w2 w3 : Nat) :
    SameReserves s (traceRecord s k j st kind lv seq w2 w3) := by
  unfold traceRecord
  split
  · exact fun _ => rfl
  · extract_lets d pa w1 s1
    split
    · exact setDomain_reserves s j.fdom _ rfl
    · have h : SameReserves s s1 := by
        show SameReserves s (if _ then _ else _)
        split
        · exact agentSetBytes_reserves s pa _
        · exact fun _ => rfl
      exact h.trans (setDomain_reserves s1 j.fdom _ (h j.fdom).symm)

theorem abortRegion_reserves (s : State) (k : Nat) (j : Job) (cause : Nat) : SameReserves s (abortRegion s k j cause).1 := by
  unfold abortRegion
  split <;> exact fun _ => rfl

theorem landOnes_reserves (k fresh : Nat) (l : List InFlight) : ∀ a, SameReserves a.1 (l.foldl (landOne k fresh) a).1 := by
  induction l with
  | nil => exact fun _ _ => rfl
  | cons i r ih =>
    intro a
    have hd : SameReserves a.1 (dropFrames a.1 (jCluster k) i.eff.dropFrames) := by
      unfold dropFrames
      split <;> exact fun _ => rfl
    exact (hd.trans (traceRecord_reserves _ _ _ _ _ _ _ _ _)).trans (ih (landOne k fresh a i))

theorem keepGuards_reserves (s : State) (j : Job) (i : InFlight) (kept : List (Nat × Word)) : SameReserves s (keepGuards s j i kept) := by
  unfold keepGuards
  split <;> exact fun _ => rfl

theorem leaseEnd_reserves (s : State) (k : Nat) : SameReserves s (leaseEnd s k) := by
  unfold leaseEnd
  extract_lets c c'
  split <;> exact fun _ => rfl

/-- A stop ends the job's barrier, lease and region, and leaves every area in the save pools. -/
theorem stopJob_reserves (s : State) (k : Nat) (j : Job) : SameReserves s (stopJob s k j).1 := by
  unfold stopJob
  extract_lets a b s1 s2
  have h1 : SameReserves s b.1 := (abortRegion_reserves s k j 3).trans (landOnes_reserves k a.1.fresh a.2.core.X.inflight a)
  have h2 : SameReserves b.1 s1 := by
    show SameReserves b.1 (match j.pend with | .barc _ => barrierUndo b.1 (jCluster k) j.uid | _ => b.1)
    split <;> exact fun _ => rfl
  have h3 : SameReserves s1 s2 := .foldl (fun s i => keepGuards_reserves s j i i.part.kept) _ _
  have h4 : SameReserves (leaseEnd s2 k) (leaveFrames (leaseEnd s2 k) k) := fun _ => rfl
  exact ((h1.trans h2).trans h3).trans ((leaseEnd_reserves s2 k).trans h4)

/-! ### Abandoning a job -/

theorem passSlot_jobs (s : State) (k : Nat) : (passSlot s k).jobs = s.jobs := by
  unfold passSlot
  extract_lets c
  split <;> rfl

theorem launchLost_jobs (s : State) (l : Nat) : (launchLost s l).jobs = s.jobs := by
  unfold launchLost
  split <;> rfl

theorem freeSlot_jobAt {s : State} (h : SlotsOk s) (k : Nat) (j : Job) : jobAt (freeSlot s k j) k = none := by
  have hl : SlotsOk (leaseEnd s k) := (leaseEnd_keeps (.refl s) k).slots h
  unfold freeSlot
  extract_lets s1 c b e own s2
  have h2 : SlotsOk s2 := hl
  have h3 : SlotsOk (if j.region.isSome then dropEdges s2 k else s2) := by
    split
    · exact (dropEdges_keeps (.refl s2) k).slots h2
    · exact h2
  rw [jobAt_congr (passSlot_jobs _ _)]
  exact (smGet_smErase k k h3).trans (if_pos rfl)

theorem barrierLeave_jobs (s : State) (uid : Nat) : (barrierLeave s uid).jobs = s.jobs := rfl

theorem freeReserve_jobs (s : State) (f uid : Nat) : (freeReserve s f uid).jobs = s.jobs := rfl

/-- An abandoned job is resident no longer. -/
theorem abandon_jobAt {s : State} (h : SlotsOk s) (k : Nat) (j : Job) (type code addr aux : Nat) :
    jobAt (abandon s k j type code addr aux) k = none := by
  unfold abandon
  extract_lets s1 d s2
  rw [jobAt_congr (raiseEvent_jobs _ _ _ _ _ _ _), jobAt_congr (launchLost_jobs _ _), jobAt_setDomain, jobAt_congr (barrierLeave_jobs _ _),
    jobAt_congr (freeReserve_jobs _ _ _)]
  exact freeSlot_jobAt h k j

/-! ### The save -/

/-- The state of a save once the job's place in its streams is traced. -/
def saveTraced (s : State) (k : Nat) (j : Job) : State :=
  [Stream.S, .L, .X, .T].foldl (fun s st => traceRecord s k j st 4 0 (j.seq st) (j.pcOf st).toNat (cycleOf s k)) s

theorem saveTraced_reserves (s : State) (k : Nat) (j : Job) : SameReserves s (saveTraced s k j) :=
  .foldl (fun s st => traceRecord_reserves s k j st _ _ _ _ _) _ _

theorem enterSave_of_area {s : State} {j : Job} (h : hasArea s j = true) (k : Nat) (kind : CutKind) :
    ∃ time, jobAt (enterSave s k j kind) k = some { j with phase := .saving kind, saveStart := time } := by
  have ha : hasArea (saveTraced s k j) j = true := ((saveTraced_reserves s k j).hasArea rfl rfl).trans h
  refine ⟨(saveTraced s k j).time, ?_⟩
  unfold enterSave
  rw [← saveTraced]
  dsimp only
  rw [ha, Bool.true_or, if_pos rfl, jobAt_congr (passSlot_jobs _ _)]
  exact jobAt_setJob_self _ _ _

theorem enterSave_of_no_area {s : State} {j : Job} (hs : SlotsOk s) (h : hasArea s j = false) (hr : j.replay = none) (k : Nat) (kind : CutKind) :
    jobAt (enterSave s k j kind) k = none := by
  have ha : hasArea (saveTraced s k j) j = false := ((saveTraced_reserves s k j).hasArea rfl rfl).trans h
  have hj : SlotsOk (saveTraced s k j) := by
    have h : (saveTraced s k j).jobs = s.jobs := foldl_jobs _ (fun _ _ => traceRecord_jobs _ _ _ _ _ _ _ _ _) _ _
    unfold SlotsOk
    rw [h]
    exact hs
  unfold enterSave
  rw [← saveTraced]
  dsimp only
  rw [ha, hr, Bool.false_or, if_neg (by simp)]
  exact abandon_jobAt hj k j _ _ _ _

/-! ### The trap -/

/-- A stopped job with the cause, value and place of its trap. -/
def Job.trapped (j : Job) (st : Stream) (c v : Nat) : Job :=
  { j with trapc := BitVec.ofNat 64 c, trapv := BitVec.ofNat 64 v, trappc := trapPc st (j.pcOf st), trapIn := false }

theorem takeTrap_of_job {s : State} {k : Nat} {j : Job} (h : jobAt s k = some j) (hl : j.level = .job) (st : Stream) (c v : Nat) :
    takeTrap s k st c v = enterSave (stopJob s k j).1 k ((stopJob s k j).2.trapped st c v) .trap := by
  simp only [takeTrap, takeTrapAt, h, hl, reduceCtorEq, if_false, Option.getD_none, Option.isSome_none, Job.trapped]

theorem takeTrap_of_handler {s : State} {k : Nat} {j : Job} (h : jobAt s k = some j) (hl : j.level = .handler) (st : Stream) (c v : Nat) :
    takeTrap s k st c v = abandon s k j 5 c (if c = 0x01 then j.pc.toNat else v) (jobid k j) := by
  simp only [takeTrap, takeTrapAt, h, hl, if_true]

/-- A stream that has not moved traps at the PC it had. -/
theorem Stopped.pcOf {j j' : Job} (h : Stopped j j') (hr : j.region = none) (hp : j.pend ≠ .departed) (st : Stream) : j'.pcOf st = j.pcOf st := by
  obtain ⟨l, hL⟩ := h.L
  obtain ⟨x, hX⟩ := h.X
  obtain ⟨t, hT⟩ := h.T
  cases st with
  | S => simp only [Job.pcOf, h.S hr hp]
  | L => simp only [Job.pcOf, hL, Eng.journaled]
  | X => simp only [Job.pcOf, hX]
  | T => simp only [Job.pcOf, hT, Eng.journaled]

/-- Settles O47: a trap stops the job, and its save keeps or abandons what the stop has left. -/
theorem takingATrap : Obligations.TakingATrap := by
  intro s k st c v j hj
  have hs := stopJob_stopped s k j
  have hr := stopJob_reserves s k j
  have hk := (stopJob_keeps (.refl s) k j).slots
  have ht := takeTrap_of_job hj
  generalize stopJob s k j = a at hs hr hk ht
  refine ⟨fun hl ha => ?_, fun hk hl => ?_, fun hk' hl ha hp => ?_⟩
  · obtain ⟨time, hj'⟩ := enterSave_of_area (j := a.2.trapped st c v) ((hr.hasArea hs.fdom hs.uid).trans ha) k .trap
    rw [← ht hl] at hj'
    obtain ⟨l, hL⟩ := hs.L
    obtain ⟨x, hX⟩ := hs.X
    obtain ⟨t, hT⟩ := hs.T
    refine ⟨_, hj', rfl, rfl, fun h0 h1 => ⟨?_, hs.S h0 h1⟩,
      fun r h0 h1 => ⟨hs.pc r h0 h1, hs.rstat r h0, ?_⟩, hs.region, rfl, hs.level.trans hl, ?_, ?_, ?_, ?_, ?_, ?_⟩
    · exact congrArg (trapPc st) (hs.pcOf h0 h1 st)
    · rintro rfl
      exact congrArg (trapPc .S) (hs.pc r h0 h1)
    all_goals simp only [Job.trapped, hL, hX, hT, Eng.journaled]
  · rw [takeTrap_of_handler hj hl]
    exact abandon_jobAt hk k j _ _ _ _
  · have ha' : hasArea a.1 (a.2.trapped st c v) = false := (hr.hasArea hs.fdom hs.uid).trans ha
    rw [ht hl]
    exact enterSave_of_no_area (hk hk') ha' (hs.replay.trans hp) k .trap

end Sys2Proof.Machine
end

section
/-!
PROOFS, part 8. Integer elements: the value of a wrapped and of a clamped result, and the integer step of an MMA (R59, R161, R162).
-/
namespace Sys2Proof.Machine

/-! ### Wrapped and clamped results -/

theorem wrapBits_cast (w : Nat) (v : Int) : (wrapBits w v : Int) = v % (2 ^ w : Nat) :=
  Int.toNat_of_nonneg (Int.emod_nonneg _ (by positivity))

/-- The signed value of the low bits is the balanced remainder. -/
theorem sextNat_eq_bmod {n : Nat} (hn : 0 < n) (w : Nat) : sextNat n w = (w : Int).bmod (2 ^ n) := by
  have h2 := Nat.two_pow_pred_mul_two hn
  have hw : ((w % 2 ^ n : Nat) : Int) = (w : Int) % (2 ^ n : Nat) := Int.natCast_mod _ _
  simp only [sextNat, Int.bmod]
  rw [← hw]
  generalize w % 2 ^ n = v
  split <;> split <;> omega

/-- A result inside the signed range is the value of its wrapped bits. -/
theorem sextNat_wrapBits {w : Nat} (hw : 0 < w) {v : Int} (hlo : sLo w ≤ v) (hhi : v ≤ sHi w) : sextNat w (wrapBits w v) = v := by
  have h2 := Nat.two_pow_pred_mul_two hw
  simp only [sLo, sHi] at hlo hhi
  rw [sextNat_eq_bmod hw, wrapBits_cast, Int.emod_bmod]
  exact Int.bmod_eq_of_le (by omega) (by omega)

theorem sLo_le_sHi (w : Nat) : sLo w ≤ sHi w := by
  have h : 0 < 2 ^ (w - 1) := by positivity
  simp only [sLo, sHi]
  omega

/-- Without the saturate bit an exact result wraps. -/
theorem intResult_wraps (w : Nat) (v : Int) : ((intResult w false v).1 : Int) = v % 2 ^ w := by
  simpa [intResult] using wrapBits_cast w v

/-- With the saturate bit it is clamped to the signed range. -/
theorem intResult_clamps {w : Nat} (hw : 0 < w) (v : Int) : sextNat w (intResult w true v).1 = max (sLo w) (min v (sHi w)) := by
  have h := sLo_le_sHi w
  by_cases hlo : v < sLo w
  · simp only [intResult, hlo, decide_true, Bool.and_self, if_true]
    rw [sextNat_wrapBits hw le_rfl h]
    omega
  by_cases hhi : sHi w < v
  · simp only [intResult, hlo, hhi, decide_true, decide_false, Bool.and_false, Bool.and_self, Bool.false_eq_true, if_false, if_true]
    rw [sextNat_wrapBits hw h le_rfl]
    omega
  · simp only [intResult, hlo, hhi, decide_false, Bool.and_false, Bool.false_eq_true, if_false]
    rw [sextNat_wrapBits hw (not_lt.mp hlo) (not_lt.mp hhi)]
    omega

theorem sLo_eq (w : Nat) : sLo w = -2 ^ (w - 1) := by simp [sLo]

theorem sHi_eq (w : Nat) : sHi w = 2 ^ (w - 1) - 1 := by simp [sHi]

/-! ### Element-wise operations of an integer format -/

section
variable {f : NFmt} (h : f.isInt = true) (rm : Nat) (sat : Bool) (x y d : Nat)
include h

theorem ewAdd_int : ewAdd f rm sat x y d = intResult f.width sat (sextNat f.width x + sextNat f.width y) := if_pos h

theorem ewSub_int : ewSub f rm sat x y d = intResult f.width sat (sextNat f.width x - sextNat f.width y) := if_pos h

theorem ewMul_int : ewMul f rm sat x y d = intResult f.width sat (sextNat f.width x * sextNat f.width y) := if_pos h

theorem ewFma_int : ewFma f rm sat x y d = intResult f.width sat (sextNat f.width x * sextNat f.width y + sextNat f.width d) := if_pos h

theorem ewNeg_int : ewNeg f rm sat x y d = intResult f.width sat (-sextNat f.width x) := if_pos h

theorem ewAbs_int : ewAbs f rm sat x y d = intResult f.width sat (sextNat f.width x).natAbs := if_pos h

/-- The operand that a minimum or maximum delivers, by the signed order. -/
theorem pick_int (big : Bool) : (pick big f x y).1 = if decide (sextNat f.width x < sextNat f.width y) = big then y else x := by
  simp only [pick, h, if_true, beq_iff_eq]

theorem ewMin_int : (ewMin f rm sat x y d).1 = if sextNat f.width x < sextNat f.width y then x else y := by
  rw [ewMin, pick_int h]
  split <;> split <;> simp_all

theorem ewMax_int : (ewMax f rm sat x y d).1 = if sextNat f.width x < sextNat f.width y then y else x := by
  simp only [ewMax, pick_int h, decide_eq_true_eq]

end

/-- A left shift by the width or more leaves nothing. -/
theorem ewShl_of_width_le {f : NFmt} {y : Nat} (hy : f.width ≤ y) (rm : Nat) (sat : Bool) (x d : Nat) : (ewShl f rm sat x y d).1 = 0 := if_pos hy

/-! ### The integer step of an MMA -/

/-- An addition into an accumulator element, modulo 2^32. -/
theorem wrap32_fst (z : BitVec 32) (v : Int) : (wrap32 z v).1 = z + BitVec.ofInt 32 v := by
  simp [wrap32, BitVec.ofInt_add]

/-- With a promotion interval of one every step adds into the element. -/
theorem intStep_one (q : Int) (z : BitVec 32) : ∃ fl, intStep 1 q z 0 0 = (z + BitVec.ofInt 32 q, 0, 0, fl) := by
  have hz : (wrap32 z 0).1 = z := by simp [wrap32_fst]
  simp only [intStep, zero_add, hz, ite_self, le_refl, if_true, wrap32_fst]
  exact ⟨_, rfl⟩

/-- Before the interval ends, an inner sum inside 24 bits is kept. -/
theorem intStep_of_fits {p steps : Nat} {q inner : Int} (z : BitVec 32) (hp : steps + 1 < p) (hlo : -2 ^ 23 ≤ inner + q) (hhi : inner + q ≤ 2 ^ 23 - 1) :
    intStep p q z inner steps = (z, inner + q, steps + 1, 0) := by
  have he : ¬ (inner + q < -2 ^ 23 ∨ 2 ^ 23 - 1 < inner + q) := by omega
  simp only [intStep, ← Bool.decide_or, he, decide_false, Bool.false_eq_true, if_false, if_neg (show ¬ p ≤ steps + 1 by omega)]

/-- One that would leave 24 bits is promoted before the product is added. -/
theorem intStep_of_leaves {p steps : Nat} {q inner : Int} (z : BitVec 32) (hp : steps + 1 < p) (he : inner + q < -2 ^ 23 ∨ 2 ^ 23 - 1 < inner + q) :
    intStep p q z inner steps = (z + BitVec.ofInt 32 inner, q, steps + 1, flPROMO ||| flIf (wrap32 z inner).2 flOF) := by
  simp only [intStep, ← Bool.decide_or, he, decide_true, if_true, if_neg (show ¬ p ≤ steps + 1 by omega), wrap32_fst, zero_add]

/-- Settles O40: an integer operation is `intResult` of its exact result, and a step of an MMA promotes where 24 bits or the interval end. -/
theorem integerElements : Obligations.IntegerElements := by
  refine ⟨fun f rm x y d h hw => ?_, fun q inner z steps p => ⟨?_, intStep_of_fits z, fun hp he => ?_⟩⟩
  · simp only [ewAdd_int h, ewSub_int h, ewMul_int h, ewFma_int h, ewNeg_int h, ewAbs_int h, intResult_wraps, intResult_clamps hw, sLo_eq, sHi_eq,
      true_and]
    exact ⟨ewMin_int h rm false x y d, ewMax_int h rm false x y d, fun hy => ewShl_of_width_le hy rm false x d⟩
  · obtain ⟨fl, hs⟩ := intStep_one q z
    rw [hs]
    exact ⟨rfl, rfl, rfl⟩
  · rw [intStep_of_leaves z hp he]
    refine ⟨rfl, rfl, rfl, ?_⟩
    show (flPROMO ||| flIf (wrap32 z inner).2 flOF) &&& flPROMO = flPROMO
    cases (wrap32 z inner).2 <;> rfl

end Sys2Proof.Machine
end

section
/-!
PROOFS, part 9. Writes of registers that have an event of their own (R63, R379, R381, R383, R399, R402, R423, R436).
-/
namespace Sys2Proof.Machine

/-! ### Tenants and domains -/

@[simp] theorem tenantSt_setTenant_self (s : State) (n : Nat) (v : Tenant) : tenantSt (setTenant s n v) n = v := smGetD_smSet_self _ _ _ _

/-- What a write to TEN_ROOT of tenant `n` asks for cannot be granted (R399): no root, no domains, or domains of another running tenant. -/
def RootRefused (s : State) (n : Nat) (v : Word) : Prop :=
  let dom := (tenantSt s n).dom.toNat
  bits v.toNat 7 41 = 0 ∨ bits dom 0 12 < bits dom 16 12 ∨ s.R.tenants.any (fun e => e.1 != n && e.2.run &&
    decide (bits e.2.dom.toNat 16 12 ≤ bits dom 0 12) && decide (bits dom 16 12 ≤ bits e.2.dom.toNat 0 12)) = true

section
variable {s : State} {n : Nat} {v : Word}

theorem writeTenRoot_stop (hv : v.getLsbD 0 = false) :
    writeTenRoot s n v = setTenant s n { tenantSt s n with root := keep v [(7, 41), (0, 1)], run := false } := by
  simp only [writeTenRoot, hv, Bool.false_eq_true, if_false]

theorem writeTenRoot_refused (hv : v.getLsbD 0 = true) (hb : RootRefused s n v) :
    writeTenRoot s n v = setTenant s n { tenantSt s n with root := keep v [(7, 41), (0, 1)], run := false, err := true } := by
  simp only [writeTenRoot, hv, if_true]
  exact if_pos (or_rotate.mp hb)

theorem writeTenRoot_start (hv : v.getLsbD 0 = true) (hb : ¬RootRefused s n v) :
    writeTenRoot s n v = setTenant s n { tenantSt s n with root := keep v [(7, 41), (0, 1)], run := true, err := false } := by
  simp only [writeTenRoot, hv, if_true]
  exact if_neg fun h => hb (or_rotate.mpr h)

end

/-- A write to TEN_ROOT: the root is kept in every case, and EN starts the tenant unless it is refused. -/
theorem tenRoot_runs (s : State) (n : BitVec 6) (v : Word) :
    (v.getLsbD 0 = false → ∃ t, Runs (.tenRoot n v) s t ∧ (tenantSt t n.toNat).run = false ∧ (tenantSt t n.toNat).root = keep v [(7, 41), (0, 1)]) ∧
    (v.getLsbD 0 = true → ∃ t, Runs (.tenRoot n v) s t ∧ (tenantSt t n.toNat).root = keep v [(7, 41), (0, 1)] ∧
      (RootRefused s n.toNat v → (tenantSt t n.toNat).run = false ∧ (tenantSt t n.toNat).err = true) ∧
      (¬RootRefused s n.toNat v → (tenantSt t n.toNat).run = true ∧ (tenantSt t n.toNat).err = false)) := by
  have run : Runs (.tenRoot n v) s (writeTenRoot s n.toNat v) := rfl
  refine ⟨fun hv => ⟨_, run, ?_⟩, fun hv => ⟨_, run, ?_⟩⟩
  · simp [writeTenRoot_stop hv]
  · by_cases hb : RootRefused s n.toNat v
    · simp [writeTenRoot_refused hv hb, hb]
    · simp [writeTenRoot_start hv hb, hb]

theorem domRst_starts {s : State} {f : BitVec 12} {v : Word} (hv : v.getLsbD 0 = true) (hd : (domainSt s f.toNat).domRst ≠ 1) :
    Runs (.domRst f v) s (setDomain s f.toNat { domainSt s f.toNat with domRst := 1 }) :=
  congrArg Host.Outcome.next (if_pos (by simp [hv, hd]))

theorem domRst_ignored {s : State} {f : BitVec 12} {v : Word} (h : v.getLsbD 0 = false ∨ (domainSt s f.toNat).domRst = 1) : Runs (.domRst f v) s s :=
  congrArg Host.Outcome.next (if_neg (by rcases h with h | h <;> simp [h, -BitVec.getLsbD_eq_getElem]))

theorem xlInv_all {s : State} {f : BitVec 12} {v : Word} (hv : v.getLsbD 63 = true) :
    Runs (.xlInv f v) s { s with M := { s.M with tlb := s.M.tlb.filter (fun t => t.fdom != f.toNat) } } := congrArg Host.Outcome.next (if_pos hv)

theorem xlInv_range {s : State} {f : BitVec 12} {v : Word} (hv : v.getLsbD 63 = false) :
    Runs (.xlInv f v) s (shootdown s f.toNat (bits v.toNat 12 40) (bits v.toNat 12 40 + bits v.toNat 0 12)) :=
  congrArg Host.Outcome.next (if_neg (by rw [hv]; decide))

theorem trHead_runs (s : State) (f : BitVec 12) (v : Word) :
    Runs (.trHead f v) s (setDomain s f.toNat { domainSt s f.toNat with trHead := keep v [(0, 32)] }) := rfl

/-! ### Moving a page -/

/-- The state in which a write to XL_MIG is judged: the request stands in the register (R383). -/
def moveAsked (s : State) (f : Nat) (v : Word) : State :=
  setDomain s f { domainSt s f with xlMig := BitVec.ofNat 64 (bits v.toNat 12 40 * 4096 + bits v.toNat 0 2) }

/-- The request is refused with a code. -/
def moveRefused (s : State) (f : Nat) (v : Word) (c : Nat) : State :=
  setDomain (moveAsked s f v) f { domainSt (moveAsked s f v) f with xlMst := mstWord 3 c }

/-- The move of a page whose leaf is `l` starts: its entries are frozen, its translations dropped, its lines drained, and the move recorded. -/
def moveStarted (s : State) (f va size new : Nat) (l : LeafRef) : State :=
  let frozen := (leafEntries l).foldl (fun s a => deviceWrite s a (natLe 8 (agentWord s a + 2 ^ 59))) s
  let base := va / size * size
  let t := drainPage (shootdown frozen f (base / 4096) (base / 4096 + size / 4096 - 1)) f (entryPa l.entry.toNat) size
  let t := { t with M := { t.M with moves := t.M.moves ++ [⟨f, base, size, entryPa l.entry.toNat, new, leafEntries l⟩] } }
  setDomain t f { domainSt t f with xlMst := mstWord 1 0 }

/-- Both ends of a new page of `size` bytes are in one tier of device memory. -/
abbrev InOneTier (s : State) (new size : Nat) : Prop :=
  (rangeOf s new = .tier1 ∧ rangeOf s (new + size - 1) = .tier1) ∨ (rangeOf s new = .tier2 ∧ rangeOf s (new + size - 1) = .tier2)

theorem not_inOneTier_iff (s : State) (new size : Nat) :
    (!((rangeOf s new == .tier1 && rangeOf s (new + size - 1) == .tier1) || (rangeOf s new == .tier2 && rangeOf s (new + size - 1) == .tier2))) = true ↔
      ¬InOneTier s new size := by
  simp only [InOneTier, Bool.not_eq_true', Bool.or_eq_false_iff, Bool.and_eq_false_iff, beq_eq_false_iff_ne, ne_eq, not_or, not_and_or]

section
variable {s : State} {f : Nat} {v : Word}

theorem startMove_of_moving (h : bits (domainSt s f).xlMst.toNat 0 2 = 1) : startMove s f v = s := if_pos h

section
variable (h : bits (domainSt s f).xlMst.toNat 0 2 ≠ 1)
include h

theorem startMove_of_no_size (hz : bits v.toNat 0 2 = 3) : startMove s f v = moveRefused s f v 4 :=
  (if_neg h).trans (if_pos hz)

variable (hz : bits v.toNat 0 2 ≠ 3)
include hz

theorem startMove_of_no_leaf (hw : walk (moveAsked s f v) f (bits v.toNat 12 40 * 4096) = .fail ∨ walk (moveAsked s f v) f (bits v.toNat 12 40 * 4096) = .wait) :
    startMove s f v = moveRefused s f v 1 := by
  unfold moveAsked at hw
  rcases hw with hw | hw <;> simp only [startMove, if_neg h, if_neg hz, hw] <;> rfl

/-- The checks of a move once the walk has found a leaf, in their order (R383). -/
theorem startMove_of_leaf {l : LeafRef} (hw : walk (moveAsked s f v) f (bits v.toNat 12 40 * 4096) = .leaf l) :
    let size := moveSize (bits v.toNat 0 2)
    let new := bits (domainSt s f).xlMdst.toNat 12 36 * 4096
    startMove s f v =
      if leafSize l.entry.toNat l.level ≠ size ∨ bitOf l.entry.toNat 59 = true then moveRefused s f v 1
      else if new % size ≠ 0 then moveRefused s f v 2
      else if ¬InOneTier (moveAsked s f v) new size then moveRefused s f v 3
      else moveStarted (moveAsked s f v) f (bits v.toNat 12 40 * 4096) size new l := by
  unfold moveAsked at hw
  simp only [startMove, if_neg h, if_neg hz, hw]
  refine if_congr .rfl rfl (if_congr .rfl rfl (if_congr (not_inOneTier_iff (moveAsked s f v) _ _) ?_ ?_))
  · rfl
  · simp only [moveStarted, moveAsked]

end
end

/-- A write to XL_MIG is ignored while a move is in progress, refused with a code, or starts the move. -/
theorem xlMig_runs (s : State) (f : BitVec 12) (v : Word) : Runs (.xlMig f v) s (startMove s f.toNat v) := rfl

section
variable {s : State} {f : BitVec 12} {v : Word}

theorem xlMig_refused {c : Nat} (h : startMove s f.toNat v = moveRefused s f.toNat v c) :
    ∃ t, Runs (.xlMig f v) s t ∧ (domainSt t f.toNat).xlMst = mstWord 3 c :=
  ⟨_, xlMig_runs s f v, by simp [h, moveRefused]⟩

theorem xlMig_started {t : State} {va size new : Nat} {l : LeafRef} (h : startMove s f.toNat v = moveStarted t f.toNat va size new l) :
    (∃ t, Runs (.xlMig f v) s t ∧ (domainSt t f.toNat).xlMst = mstWord 1 0) ∧ ∃ t, Runs (.xlMig f v) s t ∧ ∃ l', t.M.moves =
      l' ++ [⟨f.toNat, va / size * size, size, entryPa l.entry.toNat, new, leafEntries l⟩] := by
  refine ⟨⟨_, xlMig_runs s f v, ?_⟩, _, xlMig_runs s f v, ?_⟩
  · simp [h, moveStarted]
  · rw [h]
    exact ⟨_, rfl⟩

end

/-- Where the walk finds a leaf, the checks decide in their order whether the move is refused, and with which code. -/
theorem xlMig_of_leaf {s : State} {f : BitVec 12} {v : Word} {l : LeafRef} (h : bits (domainSt s f.toNat).xlMst.toNat 0 2 ≠ 1)
    (hz : bits v.toNat 0 2 ≠ 3) (hw : walk (moveAsked s f.toNat v) f.toNat (bits v.toNat 12 40 * 4096) = .leaf l) :
    let size := moveSize (bits v.toNat 0 2)
    let new := bits (domainSt s f.toNat).xlMdst.toNat 12 36 * 4096
    let ends := fun c => ∃ t, Runs (.xlMig f v) s t ∧ (domainSt t f.toNat).xlMst = c
    (leafSize l.entry.toNat l.level ≠ size ∨ bitOf l.entry.toNat 59 = true → ends (mstWord 3 1)) ∧
    (leafSize l.entry.toNat l.level = size → bitOf l.entry.toNat 59 = false →
      (new % size ≠ 0 → ends (mstWord 3 2)) ∧
      (new % size = 0 → ¬InOneTier (moveAsked s f.toNat v) new size → ends (mstWord 3 3)) ∧
      (new % size = 0 → InOneTier (moveAsked s f.toNat v) new size → ends (mstWord 1 0) ∧ ∃ t, Runs (.xlMig f v) s t ∧ ∃ l', t.M.moves =
        l' ++ [⟨f.toNat, bits v.toNat 12 40 * 4096 / size * size, size, entryPa l.entry.toNat, new, leafEntries l⟩])) := by
  have leaf := startMove_of_leaf h hz hw
  refine ⟨fun hl => xlMig_refused (leaf.trans (if_pos hl)), fun hl hb => ?_⟩
  have whole := leaf.trans (if_neg (by simp [hl, hb]))
  refine ⟨fun hn => xlMig_refused (whole.trans (if_pos hn)), fun hn ht => ?_, fun hn ht => ?_⟩
  · exact xlMig_refused ((whole.trans (if_neg (not_not.mpr hn))).trans (if_pos ht))
  · exact xlMig_started ((whole.trans (if_neg (not_not.mpr hn))).trans (if_neg (not_not.mpr ht)))

/-! ### Format windows -/

/-- The setting of a format window once register `r` of it takes `v`. -/
def fwinSet (x : Word × Word × Word × Word) (r : BitVec 2) (v : Word) : Word × Word × Word × Word :=
  if r = 0 then (keep v [(12, 36), (0, 1)], x.2) else if r = 1 then (x.1, keep v [(12, 36)], x.2.2)
  else if r = 2 then (x.1, x.2.1, keep v [(32, 4), (0, 32)], x.2.2.2) else (x.1, x.2.1, x.2.2.1, keep v [(1, 47)])

/-- A setting that is refused (R63): enabled with its limit below its base, a code past 12, or an invalid descriptor. -/
abbrev FwinBad (y : Word × Word × Word × Word) : Prop :=
  y.1.getLsbD 0 = true ∧ (bits y.2.1.toNat 12 36 < bits y.1.toNat 12 36 ∨ 12 < bits y.2.2.1.toNat 32 4 ∨
    (bits y.2.2.1.toNat 32 4 = 12 ∧ (descFmt (bits y.2.2.1.toNat 0 32)).isNone = true))

theorem fwinBad_iff (y : Word × Word × Word × Word) :
    (y.1.getLsbD 0 && (decide (bits y.2.1.toNat 12 36 < bits y.1.toNat 12 36) || decide (12 < bits y.2.2.1.toNat 32 4)
      || (bits y.2.2.1.toNat 32 4 == 12 && (descFmt (bits y.2.2.1.toNat 0 32)).isNone))) = true ↔ FwinBad y := by
  simp only [FwinBad, Bool.and_eq_true, Bool.or_eq_true, decide_eq_true_eq, beq_iff_eq, or_assoc]

/-- A write to a format window takes the setting or leaves the window as it was. -/
theorem writeFwin_eq (s : State) (n : Nat) (r : BitVec 2) (v : Word) :
    let y := fwinSet (s.R.fwin.toList.getD n (0, 0, 0, 0)) r v
    writeFwin s n r.toNat v = if FwinBad y then s else { s with R := { s.R with fwin := s.R.fwin.setIfInBounds n y } } := by
  have cases : ∀ r : BitVec 2, r = 0 ∨ r = 1 ∨ r = 2 ∨ r = 3 := by decide
  rcases cases r with rfl | rfl | rfl | rfl
  all_goals exact if_congr (fwinBad_iff _) rfl rfl

theorem getD_setIfInBounds_self {α : Type} {m n : Nat} (x : Vector α m) (h : n < m) (y d : α) : (x.setIfInBounds n y).toList.getD n d = y := by
  simp [List.getD, h]

section
variable {s : State} {n : BitVec 4} {r : BitVec 2} {v : Word}

theorem fwinWrite_refused (h : FwinBad (fwinSet (s.R.fwin.toList.getD n.toNat (0, 0, 0, 0)) r v)) : Runs (.fwinWrite n r v) s s :=
  congrArg Host.Outcome.next ((writeFwin_eq s n.toNat r v).trans (if_pos h))

theorem fwinWrite_taken (h : ¬FwinBad (fwinSet (s.R.fwin.toList.getD n.toNat (0, 0, 0, 0)) r v)) : ∃ t, Runs (.fwinWrite n r v) s t ∧
    t.R.fwin.toList.getD n.toNat (0, 0, 0, 0) = fwinSet (s.R.fwin.toList.getD n.toNat (0, 0, 0, 0)) r v :=
  ⟨_, congrArg Host.Outcome.next ((writeFwin_eq s n.toNat r v).trans (if_neg h)), getD_setIfInBounds_self _ n.isLt _ _⟩

end

/-! ### The error log and die firmware's writes -/

theorem errPop_runs {s : State} {die : BitVec 5} {v : Word} (h : (diesPresent s).contains die.toNat = true) :
    Runs (.errPop die v) s (setDie s die.toNat { dieSt s die.toNat with errlog := (dieSt s die.toNat).errlog.drop 1 }) :=
  congrArg Host.Outcome.next (if_pos h)

theorem errPop_absent {s : State} {die : BitVec 5} {v : Word} (h : (diesPresent s).contains die.toNat = false) :
    Runs (.errPop die v) s (hostError s (0x300000600000 + 0x1000 * die.toNat + 0x18)) :=
  congrArg Host.Outcome.next (if_neg (by rw [h]; decide))

theorem registerWrite_runs {s : State} {pa : Nat} {q : Reg} (h : regAt s pa = some q) (v : Word) :
    Runs (.registerWrite pa v) s (if q.mayWrite .firmware then regWrite s q v else hostError s pa) := by
  show execRegisterWrite pa v s = _
  simp only [execRegisterWrite, h]

theorem registerWrite_absent {s : State} {pa : Nat} (h : regAt s pa = none) (v : Word) : Runs (.registerWrite pa v) s (hostError s pa) := by
  show execRegisterWrite pa v s = _
  simp only [execRegisterWrite, h]

/-- Settles O59, register by register: a write is the register's own operation, whose cases the lemmas above give. -/
theorem registerWrites : Obligations.RegisterWrites := by
  intro s v n f die w r pa
  obtain ⟨stop, start⟩ := tenRoot_runs s n v
  refine ⟨stop, start, rfl, domRst_starts, domRst_ignored, xlInv_all, xlInv_range, ⟨fun h => ?_, fun h => ⟨fun hz => ?_, fun hz hw => ?_, fun l hz hw => ?_⟩⟩,
    errPop_runs, errPop_absent, ⟨fwinWrite_refused, fwinWrite_taken⟩, trHead_runs s f v, fun q hq => registerWrite_runs hq v,
    fun hq => registerWrite_absent hq v⟩
  · exact congrArg Host.Outcome.next (startMove_of_moving h)
  · exact xlMig_refused (startMove_of_no_size h hz)
  · exact xlMig_refused (startMove_of_no_leaf h hz hw)
  · exact xlMig_of_leaf h hz hw

end Sys2Proof.Machine
end

section
/-!
PROOFS, part 10. Encoding and decoding agree (R87, R90 to R102): every instruction is read back from its words, and every S word that decodes is
the word of its instruction, since the fields that the decoder reads and those it asks to be zero make up the word.
-/
namespace Sys2Proof.Machine
open Sys2Proof.Laws

/-! ### From the instruction to its word and back -/

/-- Every instruction that has a word is read back from it; an event has none. -/
theorem roundTrip (i : Instr) : RoundTrip.Statement i := by
  cases i with
  | add d a b => exact RoundTrip.add d a b
  | sub d a b => exact RoundTrip.sub d a b
  | and d a b => exact RoundTrip.and d a b
  | or d a b => exact RoundTrip.or d a b
  | xor d a b => exact RoundTrip.xor d a b
  | shl d a b => exact RoundTrip.shl d a b
  | shr d a b => exact RoundTrip.shr d a b
  | sra d a b => exact RoundTrip.sra d a b
  | mul d a b => exact RoundTrip.mul d a b
  | mulh d a b => exact RoundTrip.mulh d a b
  | mulhu d a b => exact RoundTrip.mulhu d a b
  | div d a b => exact RoundTrip.div d a b
  | divu d a b => exact RoundTrip.divu d a b
  | rem d a b => exact RoundTrip.rem d a b
  | remu d a b => exact RoundTrip.remu d a b
  | min d a b => exact RoundTrip.min d a b
  | max d a b => exact RoundTrip.max d a b
  | minu d a b => exact RoundTrip.minu d a b
  | maxu d a b => exact RoundTrip.maxu d a b
  | clz d a => exact RoundTrip.clz d a
  | popc d a => exact RoundTrip.popc d a
  | sel d a b p => exact RoundTrip.sel d a b p
  | addi d a i => exact RoundTrip.addi d a i
  | andi d a i => exact RoundTrip.andi d a i
  | ori d a i => exact RoundTrip.ori d a i
  | xori d a i => exact RoundTrip.xori d a i
  | shli d a n => exact RoundTrip.shli d a n
  | shri d a n => exact RoundTrip.shri d a n
  | srai d a n => exact RoundTrip.srai d a n
  | movi d i => exact RoundTrip.movi d i
  | shin d i => exact RoundTrip.shin d i
  | cmp p c a b => exact RoundTrip.cmp p c a b
  | cmpi p c a i => exact RoundTrip.cmpi p c a i
  | pand d a b => exact RoundTrip.pand d a b
  | por d a b => exact RoundTrip.por d a b
  | pxor d a b => exact RoundTrip.pxor d a b
  | pnot d a => exact RoundTrip.pnot d a
  | b p n o => exact RoundTrip.b p n o
  | jmp o => exact RoundTrip.jmp o
  | call o => exact RoundTrip.call o
  | jr a => exact RoundTrip.jr a
  | ld d a w k x o => exact RoundTrip.ld d a w k x o
  | st d a w k o => exact RoundTrip.st d a w k o
  | ldm d a n o => exact RoundTrip.ldm d a n o
  | stm d a n o => exact RoundTrip.stm d a n o
  | lda d a w sc o => exact RoundTrip.lda d a w sc o
  | stl d a w sc o => exact RoundTrip.stl d a w sc o
  | throw d a b w sc => exact RoundTrip.throw d a b w sc
  | pref a sc o => exact RoundTrip.pref a sc o
  | spl d n => exact RoundTrip.spl d n
  | sps d n => exact RoundTrip.sps d n
  | qpush a q => exact RoundTrip.qpush a q
  | qpop d q => exact RoundTrip.qpop d q
  | qcnt d q => exact RoundTrip.qcnt d q
  | fence sc f t k => exact RoundTrip.fence sc f t k
  | waitMemeq a b sc => exact RoundTrip.waitMemeq a b sc
  | waitMemge a b sc => exact RoundTrip.waitMemge a b sc
  | waitNm a => exact RoundTrip.waitNm a
  | waitIngr a b => exact RoundTrip.waitIngr a b
  | rdv m => exact RoundTrip.rdv m
  | barc i => exact RoundTrip.barc i
  | rbeg o => exact RoundTrip.rbeg o
  | rcom d => exact RoundTrip.rcom d
  | rabt c => exact RoundTrip.rabt c
  | rbndLo d => exact RoundTrip.rbndLo d
  | rbndHi d => exact RoundTrip.rbndHi d
  | nmgo d a => exact RoundTrip.nmgo d a
  | nmwt d a => exact RoundTrip.nmwt d a
  | spawn d a b => exact RoundTrip.spawn d a b
  | wgen d a => exact RoundTrip.wgen d a
  | csrr d c => exact RoundTrip.csrr d c
  | csrw a c => exact RoundTrip.csrw a c
  | trap i => exact RoundTrip.trap i
  | vshape w => exact RoundTrip.vshape w
  | vadd w => exact RoundTrip.vadd w
  | vsub w => exact RoundTrip.vsub w
  | vmul w => exact RoundTrip.vmul w
  | vfma w => exact RoundTrip.vfma w
  | vmin w => exact RoundTrip.vmin w
  | vmax w => exact RoundTrip.vmax w
  | vabs w => exact RoundTrip.vabs w
  | vneg w => exact RoundTrip.vneg w
  | vand w => exact RoundTrip.vand w
  | vor w => exact RoundTrip.vor w
  | vxor w => exact RoundTrip.vxor w
  | vshl w => exact RoundTrip.vshl w
  | vshr w => exact RoundTrip.vshr w
  | vcmp w => exact RoundTrip.vcmp w
  | vsel w => exact RoundTrip.vsel w
  | vcvt w => exact RoundTrip.vcvt w
  | vqnt w => exact RoundTrip.vqnt w
  | vdq w => exact RoundTrip.vdq w
  | vexp w => exact RoundTrip.vexp w
  | vrcp w => exact RoundTrip.vrcp w
  | vrsq w => exact RoundTrip.vrsq w
  | vtanh w => exact RoundTrip.vtanh w
  | vred w => exact RoundTrip.vred w
  | vscan w => exact RoundTrip.vscan w
  | vgmax w => exact RoundTrip.vgmax w
  | vtopk w => exact RoundTrip.vtopk w
  | vnorm w => exact RoundTrip.vnorm w
  | vcopy w => exact RoundTrip.vcopy w
  | vfill w => exact RoundTrip.vfill w
  | viota w => exact RoundTrip.viota w
  | vgath w => exact RoundTrip.vgath w
  | vscat w => exact RoundTrip.vscat w
  | vtran w => exact RoundTrip.vtran w
  | vmskAnd w => exact RoundTrip.vmskAnd w
  | vmskOr w => exact RoundTrip.vmskOr w
  | vmskXor w => exact RoundTrip.vmskXor w
  | vmskAndn w => exact RoundTrip.vmskAndn w
  | vmskNot w => exact RoundTrip.vmskNot w
  | vmskFirst w => exact RoundTrip.vmskFirst w
  | vmskCount w => exact RoundTrip.vmskCount w
  | vmskLd w => exact RoundTrip.vmskLd w
  | vmskSt w => exact RoundTrip.vmskSt w
  | mshape w => exact RoundTrip.mshape w
  | mma w => exact RoundTrip.mma w
  | mmas w => exact RoundTrip.mmas w
  | mlda w => exact RoundTrip.mlda w
  | mclm w => exact RoundTrip.mclm w
  | mrel w => exact RoundTrip.mrel w
  | macr w => exact RoundTrip.macr w
  | mzero w => exact RoundTrip.mzero w
  | mfill w => exact RoundTrip.mfill w
  | mpin w => exact RoundTrip.mpin w
  | munp w => exact RoundTrip.munp w
  | minv w => exact RoundTrip.minv w
  | mqry w => exact RoundTrip.mqry w
  | mrep w => exact RoundTrip.mrep w
  | mlse w => exact RoundTrip.mlse w
  | mlrl w => exact RoundTrip.mlrl w
  | mthr w => exact RoundTrip.mthr w
  | cpy w => exact RoundTrip.cpy w
  | cpyg w => exact RoundTrip.cpyg w
  | cpyd w => exact RoundTrip.cpyd w
  | cpym w => exact RoundTrip.cpym w
  | prel w => exact RoundTrip.prel w
  | dgst w => exact RoundTrip.dgst w
  | cps w => exact RoundTrip.cps w
  | acw w => exact RoundTrip.acw w
  | acwf w => exact RoundTrip.acwf w
  | cas w => exact RoundTrip.cas w
  | cpst w => exact RoundTrip.cpst w
  | scat w => exact RoundTrip.scat w
  | flsh w => exact RoundTrip.flsh w
  | invl w => exact RoundTrip.invl w
  | aq e w => exact RoundTrip.aq e w
  | aset e w => exact RoundTrip.aset e w
  | aadd e w => exact RoundTrip.aadd e w
  | ejoin e w => exact RoundTrip.ejoin e w
  | enop e w => exact RoundTrip.enop e w
  | cshape e w => exact RoundTrip.cshape e w
  | loop e w => exact RoundTrip.loop e w
  | nop => exact RoundTrip.nop
  | waitProd => exact RoundTrip.waitProd
  | trig => exact RoundTrip.trig
  | halt => exact RoundTrip.halt
  | yield => exact RoundTrip.yield
  | openRange => exact RoundTrip.openRange
  | closeRange => exact RoundTrip.closeRange
  | registerBufferGroup => exact RoundTrip.registerBufferGroup
  | resetBufferGroup => exact RoundTrip.resetBufferGroup
  | releaseBufferGroup => exact RoundTrip.releaseBufferGroup
  | setContextPool => exact RoundTrip.setContextPool
  | registerWeightTable => exact RoundTrip.registerWeightTable
  | setWatchpoint => exact RoundTrip.setWatchpoint
  | replay => exact RoundTrip.replay
  | attestationReport => exact RoundTrip.attestationReport
  | eret => exact RoundTrip.eret  | _ => exact fun _ => trivial

/-- The round trip in the words of each kind of encoding. -/
theorem decode_of_encode_scalar {i : Instr} {w : Nat} (hw : i.wf = true) (he : encode i = some (.s w)) :
    w < 2 ^ 32 ∧ ∀ n, decode .S w n = .ok i := by
  have h := roundTrip i hw
  rw [he] at h
  exact h

theorem decode_of_encode_engine {i : Instr} {e : EStream} {w : Nat} (hw : i.wf = true) (he : encode i = some (.e e w)) :
    w < 2 ^ 96 ∧ ∀ n, decode e.toStream w n = .ok i := by
  have h := roundTrip i hw
  rw [he] at h
  exact h

theorem decode_of_encode_matrix {i : Instr} {w t : Nat} (hw : i.wf = true) (he : encode i = some (.m w t)) :
    w < 2 ^ 96 ∧ t < 2 ^ 96 ∧ decode .X w t = .ok i := by
  have h := roundTrip i hw
  rw [he] at h
  exact h

/-- Settles O1: the round trip of an instruction whose word is an S word. -/
theorem scalarDecodeEncode : Obligations.ScalarDecodeEncode := fun _ _ n hw he =>
  (decode_of_encode_scalar hw he).imp_right fun h => h n

/-- Settles O2: the round trip of an instruction whose word is an engine word, or a matrix head and tail. -/
theorem engineDecodeEncode : Obligations.EngineDecodeEncode :=
  ⟨fun _ _ _ n hw he => (decode_of_encode_engine hw he).imp_right fun h => h n, fun _ _ _ hw he => decode_of_encode_matrix hw he⟩

/-! ### From the word to its instruction and back -/

/-- A field is its upper part, moved up, and its lower part. -/
theorem bits_add (w lo m n : Nat) : bits w lo (m + n) = bits w (lo + m) n * 2 ^ m + bits w lo m := by
  simp only [bits, Nat.pow_add, Nat.mod_mul, ← Nat.div_div_eq_div_mul]
  ring

/-- The fields inside a field that is zero are zero. -/
theorem bits_zero_within {w lo len : Nat} (h : bits w lo len = 0) {lo' n : Nat} (hl : lo ≤ lo' := by omega)
    (hn : lo' + n ≤ lo + len := by omega) : bits w lo' n = 0 := by
  obtain ⟨m, rfl⟩ := Nat.exists_eq_add_of_le hl
  obtain ⟨r, rfl⟩ : ∃ r, len = m + (n + r) := ⟨len - m - n, by omega⟩
  rw [bits_add, Nat.add_eq_zero_iff] at h
  have h2 := (Nat.mul_eq_zero.mp h.1).resolve_right (by positivity)
  rw [bits_add, Nat.add_eq_zero_iff] at h2
  exact h2.2

/-- A field whose upper part is zero is its lower part. -/
theorem bits_low {w m n len : Nat} (h : bits w m n = 0) (hm : m ≤ len := by omega) (hn : len ≤ m + n := by omega) : bits w 0 len = bits w 0 m := by
  obtain ⟨r, rfl⟩ := Nat.exists_eq_add_of_le hm
  rw [bits_add, bits_zero_within h, Nat.zero_mul, Nat.zero_add]

theorem bit_cases (w lo : Nat) : bits w lo 1 = 0 ∨ bits w lo 1 = 1 := Nat.mod_two_eq_zero_or_one _

theorem fld_toNat (n w lo : Nat) : (fld n w lo).toNat = bits w lo n := rfl

section
variable {w op d a b fn imm : Nat} (hw : w < 2 ^ 32) (hop : bits w 26 6 = op)
include hw hop

/-- A word of format SJ is its opcode and its offset. -/
theorem encSJ_of (hi : bits w 0 26 = imm) : encSJ op imm = w := by
  simp only [bits] at hop hi
  simp only [encSJ]
  omega

theorem encOp_of (hz : bits w 0 26 = 0) : op * 2 ^ 26 = w := by
  simpa only [encSJ, Nat.add_zero] using encSJ_of hw hop hz

theorem encSU_of (hd : bits w 20 6 = d) (hi : bits w 0 20 = imm) : encSU op d imm = w := by
  rw [← encSJ_of hw hop rfl, bits_add w 0 20 6, hd, hi, encSU, encSJ, Nat.add_assoc]

theorem encSI_of (hd : bits w 20 6 = d) (ha : bits w 14 6 = a) (hi : bits w 0 14 = imm) : encSI op d a imm = w := by
  rw [← encSU_of hw hop hd rfl, bits_add w 0 14 6, ha, hi, encSI, encSU, Nat.add_assoc]

theorem encSR_of (hd : bits w 20 6 = d) (ha : bits w 14 6 = a) (hb : bits w 8 6 = b) (hf : bits w 0 8 = fn) : encSR op d a b fn = w := by
  rw [← encSI_of hw hop hd ha rfl, bits_add w 0 8 6, hb, hf, encSR, encSI, Nat.add_assoc]

end

/-- Whatever instruction the answer `r` holds is encoded as the S word `w`. -/
def Reads (w : Nat) (r : Except Reject Instr) : Prop := ∀ i, r = .ok i → encode i = some (.s w)

section
variable {w v : Nat} {i : Instr}

theorem reads_error {e : Reject} : Reads w (.error e) := fun _ h => nomatch h

theorem reads_ok (he : encode i = some (.s v)) (hv : v = w) : Reads w (.ok i) := by
  rintro j ⟨⟩
  rw [he, hv]

theorem reads_ite_error {p : Prop} [Decidable p] {r : Except Reject Instr} {e : Reject} (h : p → Reads w r) : Reads w (if p then r else .error e) := by
  split
  · exact h ‹p›
  · exact reads_error

theorem reads_zeroIn {lo len : Nat} (he : encode i = some (.s v)) (hv : bits w lo len = 0 → v = w) : Reads w (zeroIn w lo len i) :=
  reads_ite_error fun z => reads_ok he (hv z)

end

section
variable {w : Nat} (hw : w < 2 ^ 32)
include hw

theorem reads_decodeAlu (op : bits w 26 6 = 1) : Reads w (decodeAlu w) := by
  unfold decodeAlu
  dsimp only
  split
  -- CLZ, POPC; SEL; the others.
  case h_20 fn | h_21 fn => exact reads_zeroIn rfl fun z => encSR_of hw op rfl rfl z fn
  case h_22 =>
    refine reads_ite_error fun h => reads_ok rfl (encSR_of hw op rfl rfl rfl ?_)
    simp only [fld_toNat, bits] at h ⊢
    omega
  all_goals next fn => exact reads_ok rfl (encSR_of hw op rfl rfl rfl fn)

theorem reads_decodePred (op : bits w 26 6 = 0x0D) : Reads w (decodePred w) := by
  unfold decodePred
  refine reads_ite_error fun ⟨hd, ha, hb⟩ => ?_
  have high {lo : Nat} (h : bits w lo 3 = 0) : bits w lo 6 = bits w (lo + 3) 3 * 8 := by rw [bits_add w lo 3 3, h]; rfl
  split
  -- PNOT has no second source.
  case h_4 fn => exact reads_zeroIn rfl fun z => encSR_of hw op (high hd) (high ha) (by rw [high hb, z]) fn
  case h_5 => exact reads_error
  all_goals next fn => exact reads_ok rfl (encSR_of hw op (high hd) (high ha) (high hb) fn)

theorem reads_decodeWait (op : bits w 26 6 = 0x29) : Reads w (decodeWait w) := by
  unfold decodeWait
  refine reads_ite_error fun h => ?_
  split
  case h_6 => exact reads_error
  all_goals
    next kind =>
    refine reads_zeroIn rfl fun z => ?_
    simp only [fld_toNat, bits] at op h kind z ⊢
    omega

omit hw in
/-- Every value of TRAP, a firmware service's or not, stands in its word. -/
theorem encode_decodeTrap : encode (decodeTrap w) = some (.s (encSU 0x3A 0 (bits w 0 20))) := by
  unfold decodeTrap
  split
  case h_11 => rfl
  all_goals next h => rw [h]; rfl

/-- The S decoder drops no bit: one line for the opcodes that share a format and what they ask to be zero (R90, R91). -/
theorem reads_decodeS : Reads w (decodeS w) := by
  unfold decodeS
  dsimp only
  split
  case h_2 op => exact reads_decodeAlu hw op
  case h_14 op => exact reads_decodePred hw op
  case h_33 op => exact reads_decodeWait hw op
  case h_51 => exact reads_error
  -- The opcode alone: NOP; TRIG, HALT, YIELD, ERET.
  case h_1 op => exact reads_zeroIn rfl (encSJ_of hw op)
  case h_34 op | h_36 op | h_37 op | h_50 op => exact reads_zeroIn rfl (encOp_of hw op)
  -- SJ: JMP, CALL, RBEG.
  case h_16 op | h_17 op | h_39 op => exact reads_ok rfl (encSJ_of hw op rfl)
  -- SU: MOVI, SHIN; SPL, SPS; RCOM; RABT; RBND; TRAP.
  case h_10 op | h_11 op => exact reads_ok rfl (encSU_of hw op rfl rfl)
  case h_27 op | h_28 op => exact reads_zeroIn rfl fun z => encSU_of hw op rfl (bits_low z)
  case h_40 op => exact reads_zeroIn rfl fun z => encSU_of hw op rfl z
  case h_41 op => exact reads_zeroIn rfl fun z => encSU_of hw op (bits_zero_within z) (bits_low z)
  case h_42 op =>
    refine reads_ite_error fun z => ?_
    have hi : bits w 0 20 = bits w 0 1 := bits_low z
    split
    case isTrue h => exact reads_ok rfl (encSU_of hw op rfl (hi.trans h))
    case isFalse h => exact reads_ok rfl (encSU_of hw op rfl (hi.trans ((bit_cases w 0).resolve_left h)))
  case h_49 op => exact reads_zeroIn encode_decodeTrap fun z => encSU_of hw op z rfl
  -- SI: ADDI, ANDI, ORI, XORI; SHLI, SHRI, SRAI; CMPI; CSRR; CSRW.
  case h_3 op | h_4 op | h_5 op | h_6 op => exact reads_ok rfl (encSI_of hw op rfl rfl rfl)
  case h_7 op | h_8 op | h_9 op => exact reads_zeroIn rfl fun z => encSI_of hw op rfl rfl (bits_low z)
  case h_13 op => exact reads_ok rfl (encSI_of hw op (bits_add w 20 3 3) rfl rfl)
  case h_47 op => exact reads_zeroIn rfl fun z => encSI_of hw op rfl (bits_zero_within z) (bits_low z)
  case h_48 op => exact reads_ite_error fun d => reads_zeroIn rfl fun z => encSI_of hw op d rfl (bits_low z)
  -- SR: CMP; JR; QPUSH; QPOP, QCNT; NMGO, NMWT, WGEN; SPAWN.
  case h_12 op => exact reads_zeroIn rfl fun z => encSR_of hw op (bits_add w 20 3 3) rfl rfl z
  case h_18 op => exact reads_ite_error fun d => reads_zeroIn rfl fun z => encSR_of hw op d rfl (bits_zero_within z) (bits_zero_within z)
  case h_29 op => exact reads_ite_error fun d => reads_zeroIn rfl fun z => encSR_of hw op d rfl rfl z
  case h_30 op | h_31 op => exact reads_ite_error fun a => reads_zeroIn rfl fun z => encSR_of hw op rfl a rfl z
  case h_43 op | h_44 op | h_46 op => exact reads_zeroIn rfl fun z => encSR_of hw op rfl rfl (bits_zero_within z) (bits_zero_within z)
  case h_45 op => exact reads_zeroIn rfl fun z => encSR_of hw op rfl rfl rfl z
  -- SM, SMA, SML, whose immediate is made of fields: LD; LDA, STL; ST; LDM, STM; PREF. And THROW, whose fn is.
  case h_19 op | h_23 op | h_24 op =>
    refine reads_ok rfl (encSI_of hw op rfl rfl ?_)
    simp only [fld_toNat, bits]
    omega
  case h_20 op | h_21 op | h_22 op =>
    refine reads_zeroIn rfl fun z => encSI_of hw op rfl rfl ?_
    simp only [fld_toNat, bits] at z ⊢
    omega
  case h_26 op =>
    refine reads_ite_error fun h => reads_zeroIn rfl fun z => encSI_of hw op z rfl ?_
    simp only [fld_toNat, bits] at h ⊢
    omega
  case h_25 op =>
    refine reads_zeroIn rfl fun z => encSR_of hw op rfl rfl rfl ?_
    simp only [fld_toNat, bits] at z ⊢
    omega
  -- Layouts of their own: B; FENCE, RDV, BARC.
  case h_15 op =>
    refine reads_ok rfl ?_
    simp only [fld_toNat, bits] at op ⊢
    omega
  case h_32 op | h_35 op | h_38 op =>
    refine reads_zeroIn rfl fun z => ?_
    simp only [fld_toNat, bits] at op z ⊢
    omega

end

theorem checkWf_ok {r : Except Reject Instr} {i : Instr} (h : checkWf r = .ok i) : r = .ok i ∧ i.wf = true := by
  cases r with
  | error e => exact nomatch h
  | ok j =>
    rw [checkWf] at h
    split at h
    · cases h
      exact ⟨rfl, ‹_›⟩
    · exact nomatch h

/-- Settles O3: each answer of the decoder is encoded as the word it was read from, and what it answers has passed `checkWf`. -/
theorem scalarEncodeDecode : Obligations.ScalarEncodeDecode := by
  intro i w n hw h
  obtain ⟨hr, hwf⟩ := checkWf_ok h
  exact ⟨hwf, reads_decodeS hw i hr⟩

end Sys2Proof.Machine
end

section
/-!
PROOFS, part 11. Results of the three-register arithmetic (R109), and what traps at job level (R147, R148).
-/
namespace Sys2Proof.Machine

/-! ### Products -/

theorem mulHighU_eq (x y : Word) : mulHighU x y = (x.setWidth 128 * y.setWidth 128).extractLsb' 64 64 := by
  apply BitVec.eq_of_toNat_eq
  have h : x.toNat * y.toNat < 2 ^ 128 := calc
    x.toNat * y.toNat < 2 ^ 64 * 2 ^ 64 := Nat.mul_lt_mul'' x.isLt y.isLt
    _ = 2 ^ 128 := by norm_num
  have hx : x.toNat % 2 ^ 128 = x.toNat := Nat.mod_eq_of_lt (by omega)
  have hy : y.toNat % 2 ^ 128 = y.toNat := Nat.mod_eq_of_lt (by omega)
  rw [mulHighU, BitVec.toNat_ofNat, BitVec.extractLsb'_toNat, BitVec.toNat_mul, BitVec.toNat_setWidth, BitVec.toNat_setWidth, hx, hy,
    Nat.mod_eq_of_lt h, Nat.shiftRight_eq_div_pow]

theorem mulHighS_eq (x y : Word) : mulHighS x y = (x.signExtend 128 * y.signExtend 128).extractLsb' 64 64 := by
  have hp : x.signExtend 128 * y.signExtend 128 = BitVec.ofInt 128 (x.toInt * y.toInt) := by
    simp only [BitVec.signExtend, BitVec.ofInt_mul]
  apply BitVec.eq_of_toNat_eq
  rw [hp, mulHighS, BitVec.extractLsb'_toNat, BitVec.toNat_ofInt, BitVec.toNat_ofInt, Nat.shiftRight_eq_div_pow]
  omega

/-! ### Results -/

section
variable {s : State} {k : Nat} {j : Job} {d a b : BitVec 6} {i : Instr}

/-- A three-register operation of `f` writes what `f` gives of its sources. -/
theorem alu3_ready (h : SReady s k j sAny [d, a, b]) (f : Word → Word → Word) (hx : exec i s = alu3 s d a b f) :
    Writes i s k j d (f (j.s a) (j.s b)) :=
  hx.trans (sPure_ready h fun j => j.setS d (f (j.s a) (j.s b)))

end

/-- Settles O10: each operation is `alu3` of its function; the products and the comparisons are those of the model's functions. -/
theorem aluResults : Obligations.AluResults := by
  intro s k j d a b p h
  simp only [← mulHighS_eq, ← mulHighU_eq, ← BitVec.slt_iff_toInt_lt, ← BitVec.ult_iff_toNat_lt]
  refine ⟨alu3_ready h (· + ·) rfl, alu3_ready h (· - ·) rfl, alu3_ready h (· &&& ·) rfl, alu3_ready h (· ||| ·) rfl, alu3_ready h (· ^^^ ·) rfl,
    alu3_ready h (· <<< shAmt ·) rfl, alu3_ready h (· >>> shAmt ·) rfl, alu3_ready h (fun x y => x.sshiftRight (shAmt y)) rfl,
    alu3_ready h (· * ·) rfl, alu3_ready h mulHighS rfl, alu3_ready h mulHighU rfl,
    alu3_ready h (fun x y => if x.slt y then x else y) rfl, alu3_ready h (fun x y => if x.slt y then y else x) rfl,
    alu3_ready h (fun x y => if x.ult y then x else y) rfl, alu3_ready h (fun x y => if x.ult y then y else x) rfl,
    sPure_ready h fun j => j.setS d (if j.p p then j.s a else j.s b), fun hl => ?_⟩
  show execNop s = _
  exact sExec_retire ⟨h.turn, h.here, .inl hl, .inr rfl, by simp, h.count⟩ rfl rfl

/-! ### Traps at job level -/

section
variable {s : State} {k : Nat} {j : Job} (h : SReady s k j sHnd []) (hl : j.level = .job) (imm : Nat)
include h hl

/-- A firmware service asks for the job's level before it looks at what it works on. -/
theorem serviceHold_traps (hold : Job → Bool) (f : Nat → Job → State × Option Nat) :
    serviceHold s imm hold f = .next (takeTrap s k .S 0x0D imm) := sExec_trap h rfl (if_pos hl)

theorem service_traps (f : Nat → Job → State × Option Nat) : service s imm f = .next (takeTrap s k .S 0x0D imm) :=
  serviceHold_traps h hl imm _ f

end

/-- Settles O36: TRAP is a service of no effect, and the services, REPLAY and ERET ask for the job's level first. -/
theorem trapsAtJobLevel : Obligations.TrapsAtJobLevel := by
  intro s k j i h hl
  have ht := service_traps h hl
  have hh := serviceHold_traps h hl
  exact ⟨(ht _ _ : execTrap i s = _), (ht _ _ : execOpenRange s = _), (ht _ _ : execCloseRange s = _), (hh _ _ _ : execRegisterBufferGroup s = _),
    (ht _ _ : execResetBufferGroup s = _), (ht _ _ : execReleaseBufferGroup s = _), (ht _ _ : execSetContextPool s = _),
    (ht _ _ : execRegisterWeightTable s = _), (hh _ _ _ : execSetWatchpoint s = _), (sExec_trap h rfl (if_pos hl) : execReplay s = _),
    (hh _ _ _ : execAttestationReport s = _), (sExec_trap h rfl (if_pos hl) : execEret s = _)⟩

end Sys2Proof.Machine
end

section
/-!
PROOFS, part 12. Join points (R135 to R137): what tracing leaves alone, the EJOINs that retire, and what RDV, YIELD and HALT leave.
-/
namespace Sys2Proof.Machine

/-! ### What a trace record and a snapshot leave alone -/

/-- `t` is `s` but for memory and the registers of the domains, and has the scope copies of `s`. -/
def TraceOnly (s t : State) : Prop := ∃ m d, t = { s with M := m, domains := d } ∧ m.scopes = s.M.scopes

theorem TraceOnly.refl (s : State) : TraceOnly s s := ⟨s.M, s.domains, rfl, rfl⟩

theorem TraceOnly.trans {a b c : State} (h : TraceOnly a b) (g : TraceOnly b c) : TraceOnly a c := by
  obtain ⟨m, d, rfl, hm⟩ := h
  obtain ⟨n, f, rfl, hn⟩ := g
  exact ⟨n, f, rfl, hn.trans hm⟩

theorem TraceOnly.foldl {α : Type} {f : State → α → State} (hf : ∀ s a, TraceOnly s (f s a)) (l : List α) : ∀ s, TraceOnly s (l.foldl f s) := by
  induction l with
  | nil => exact TraceOnly.refl
  | cons a r ih => exact fun s => (hf s a).trans (ih (f s a))

theorem homeSet_traceOnly (s : State) (pa : Nat) (b : Byte) : TraceOnly s (homeSet s pa b) := by
  unfold homeSet
  split <;> exact ⟨_, _, rfl, rfl⟩

theorem homeSetBytes_traceOnly (l : List Byte) : ∀ s pa, TraceOnly s (homeSetBytes s pa l) := by
  induction l with
  | nil => exact fun s _ => .refl s
  | cons b r ih => exact fun s pa => (homeSet_traceOnly s pa b).trans (ih _ _)

theorem noteCode_traceOnly (l : List Byte) : ∀ s pa, TraceOnly s (noteCode s pa l) := by
  induction l with
  | nil => exact fun s _ => .refl s
  | cons b r ih =>
    intro s pa
    refine TraceOnly.trans ?_ (ih _ _)
    split
    · exact .refl s
    · exact ⟨_, _, rfl, rfl⟩

theorem writeBackN_traceOnly (n : Nat) : ∀ s pa, TraceOnly s (writeBackN s pa n) := by
  induction n with
  | zero => exact fun s _ => .refl s
  | succ n ih =>
    intro s pa
    unfold writeBackN
    split
    · exact .trans (b := { s with M := { s.M with dirty := smErase s.M.dirty pa } }) ⟨_, _, rfl, rfl⟩ ((homeSet_traceOnly _ pa _).trans (ih _ _))
    · exact ih _ _

theorem agentSetBytes_traceOnly (s : State) (pa : Nat) (l : List Byte) : TraceOnly s (agentSetBytes s pa l) := by
  have hl := TraceOnly.foldl (f := fun s ln => dropStale (writeBackLine s ln) ln)
    (fun s ln => (writeBackN_traceOnly 64 s (64 * ln)).trans ⟨_, _, rfl, rfl⟩) (linesOf pa l.length) s
  unfold agentSetBytes
  extract_lets s1 s2
  exact (hl.trans ((noteCode_traceOnly l s1 pa).trans (homeSetBytes_traceOnly l _ pa))).trans ⟨_, _, rfl, rfl⟩

theorem traceRecord_traceOnly (s : State) (k : Nat) (j : Job) (st : Stream) (kind lv seq w2 w3 : Nat) :
    TraceOnly s (traceRecord s k j st kind lv seq w2 w3) := by
  unfold traceRecord
  split
  · exact .refl s
  · extract_lets d pa w1 s1
    have h1 : TraceOnly s s1 := by
      show TraceOnly s (if _ then _ else _)
      split
      · exact agentSetBytes_traceOnly s pa _
      · exact .refl s
    split
    · exact ⟨_, _, rfl, rfl⟩
    · exact h1.trans ⟨_, _, rfl, rfl⟩

theorem TraceOnly.clusters {s t : State} (h : TraceOnly s t) : t.clusters = s.clusters := by
  obtain ⟨m, d, rfl, -⟩ := h
  rfl

/-- `t` has the jobs, the launches and the scope copies of `s`. -/
structure Beside (s t : State) : Prop where
  jobs : t.jobs = s.jobs
  launches : t.launches = s.launches
  scopes : t.M.scopes = s.M.scopes

theorem Beside.refl (s : State) : Beside s s := ⟨rfl, rfl, rfl⟩

theorem Beside.trans {a b c : State} (h : Beside a b) (g : Beside b c) : Beside a c :=
  ⟨g.jobs.trans h.jobs, g.launches.trans h.launches, g.scopes.trans h.scopes⟩

theorem TraceOnly.beside {s t : State} (h : TraceOnly s t) : Beside s t := by
  obtain ⟨m, d, rfl, hm⟩ := h
  exact ⟨rfl, rfl, hm⟩

theorem traceWord_beside (s : State) (k : Nat) (j : Job) (st : Stream) (pc : Word) (seq : Nat) : Beside s (traceWord s k j st pc seq) :=
  (traceRecord_traceOnly s k j st _ _ _ _ _).beside

theorem traceFlow_beside (s : State) (k : Nat) (j : Job) (st : Stream) (pc : Word) : Beside s (traceFlow s k j st pc) :=
  (traceRecord_traceOnly s k j st _ _ _ _ _).beside

theorem profileSnapshot_beside (s : State) (k : Nat) (j : Job) (st : Stream) (seq : Nat) (pc : Word) :
    Beside s (profileSnapshot s k j st seq pc) := by
  unfold profileSnapshot
  extract_lets d c soon log pa s1 s2
  have h1 : Beside s s1 := by
    show Beside s (if _ then _ else _)
    split
    · exact (agentSetBytes_traceOnly s pa _).beside
    · exact .refl s
  repeat' split
  · exact .refl s
  · exact ⟨rfl, rfl, rfl⟩
  · exact ⟨rfl, rfl, rfl⟩
  · exact h1.trans ⟨rfl, rfl, rfl⟩

theorem advance_beside (s : State) (k : Nat) (j : Job) (e : EStream) (wpc last pc : Word) (seq : Nat) :
    Beside s (advance s k j e wpc last pc seq).1 := by
  unfold advance
  extract_lets x s1 s2
  have h1 : Beside s s1 := by
    show Beside s (List.foldl _ _ _)
    generalize List.range x.2 = l
    induction l generalizing s with
    | nil => exact .refl s
    | cons n r ih => exact (profileSnapshot_beside s k j e.toStream seq wpc).trans (ih _)
  show Beside s (if _ then _ else _)
  split
  · exact h1
  · exact h1.trans (traceFlow_beside s1 k j e.toStream wpc)

/-! ### EJOINs that retire -/

/-- The end of a loop moves the stream and its loops. -/
theorem loopEnd_frame (last pc : Word) (n : Nat) : ∀ g : Eng, ∃ p l, (loopEnd g last pc n).1 = { g with pc := p, loops := l } := by
  induction n with
  | zero => exact fun g => ⟨_, _, rfl⟩
  | succ n ih =>
    intro g
    unfold loopEnd
    repeat' split
    · exact ⟨_, _, rfl⟩
    · rename_i r _ _ _
      obtain ⟨p, l, h⟩ := ih { g with loops := r }
      exact ⟨p, l, h⟩
    · exact ⟨_, _, rfl⟩
    · exact ⟨_, _, rfl⟩

/-- A stream once its EJOIN has retired; `ends` when a HALT joined it. -/
def Eng.ejoined (g : Eng) (ends : Bool) : Eng := (loopEnd { g with ejoin := none, ended := ends, seq := g.seq + 1 } g.pc (g.pc + 12) 4).1

theorem Eng.ejoined_facts (g : Eng) (ends : Bool) : (g.ejoined ends).ejoin = none ∧ (g.ejoined ends).ended = ends ∧
    (g.ejoined ends).seq = g.seq + 1 ∧ (NoLoopEnd g g.pc → (g.ejoined ends).pc = g.pc + 12) := by
  obtain ⟨p, l, h⟩ := loopEnd_frame g.pc (g.pc + 12) 4 { g with ejoin := none, ended := ends, seq := g.seq + 1 }
  refine ⟨?_, ?_, ?_, fun hn => ?_⟩
  · rw [Eng.ejoined, h]
  · rw [Eng.ejoined, h]
  · rw [Eng.ejoined, h]
  · have hg : NoLoopEnd { g with ejoin := none, ended := ends, seq := g.seq + 1 } g.pc := hn
    rw [Eng.ejoined, loopEnd_none hg]

theorem eng_setEng_ite (j : Job) (e f : EStream) (g : Eng) : (j.setEng e g).eng f = if f = e then g else j.eng f := by
  cases e <;> cases f <;> rfl

theorem eng_setEng_ne (j : Job) {e f : EStream} (h : f ≠ e) (g : Eng) : (j.setEng e g).eng f = j.eng f :=
  (eng_setEng_ite j e f g).trans (if_neg h)

/-- `j'` is `j` once the EJOINs of the streams `es` have retired. -/
structure Ejoined (es : List EStream) (ends : Bool) (j j' : Job) : Prop where
  core : ∃ c, j' = { j with core := c }
  S : j'.core.S = j.core.S
  mem : ∀ e ∈ es, j'.eng e = (j.eng e).ejoined ends
  other : ∀ e ∉ es, j'.eng e = j.eng e

theorem ejoinRetire_ejoined {s : State} {k : Nat} {j : Job} (hj : jobAt s k = some j) {e : EStream} (he : (j.eng e).ejoin.isSome = true)
    (ends : Bool) : ∃ s1 j', ejoinRetire s k e ends = setJob s1 k j' ∧ Beside s s1 ∧ Ejoined [e] ends j j' := by
  obtain ⟨t, ht⟩ := Option.isSome_iff_exists.mp he
  simp only [ejoinRetire, hj, ht]
  refine ⟨_, _, rfl, (traceWord_beside _ _ _ _ _ _).trans (advance_beside _ _ _ _ _ _ _ _), ?_⟩
  obtain ⟨q, w, hq⟩ := tokRetire_queues j e t
  refine ⟨?_, ?_, ?_, ?_⟩
  · simp only [advance, hq]
    cases e <;> exact ⟨_, rfl⟩
  · simp only [advance, hq]
    cases e <;> rfl
  · intro f hf
    obtain rfl := List.mem_singleton.mp hf
    simp only [advance, eng_setEng, hq]
    cases f <;> rfl
  · intro f hf
    have hf := List.ne_of_not_mem_cons hf
    simp only [advance, eng_setEng_ne _ hf, hq]
    cases f <;> rfl

theorem Ejoined.nil (ends : Bool) (j : Job) : Ejoined [] ends j j :=
  ⟨⟨_, rfl⟩, rfl, fun _ h => absurd h List.not_mem_nil, fun _ _ => rfl⟩

theorem Ejoined.cons {e : EStream} {es : List EStream} {ends : Bool} {j q j' : Job} (h : Ejoined [e] ends j q) (g : Ejoined es ends q j')
    (he : e ∉ es) : Ejoined (e :: es) ends j j' := by
  obtain ⟨c, hc⟩ := h.core
  obtain ⟨d, hd⟩ := g.core
  refine ⟨⟨d, by rw [hd, hc]⟩, g.S.trans h.S, fun f hf => ?_, fun f hf => ?_⟩
  · rcases List.mem_cons.mp hf with rfl | hf
    · rw [g.other _ he, h.mem _ List.mem_cons_self]
    · rw [g.mem _ hf, h.other f fun hm => he (List.mem_singleton.mp hm ▸ hf)]
  · rw [List.mem_cons, not_or] at hf
    rw [g.other f hf.2, h.other f (mt List.mem_singleton.mp hf.1)]

theorem retireEach_ejoined {k : Nat} {ends : Bool} (es : List EStream) (hn : es.Nodup) : ∀ {s : State} {j : Job}, jobAt s k = some j →
    (∀ e ∈ es, (j.eng e).ejoin.isSome = true) → ∃ j', jobAt (es.foldl (fun s e => ejoinRetire s k e ends) s) k = some j' ∧
      Ejoined es ends j j' ∧ (es.foldl (fun s e => ejoinRetire s k e ends) s).launches = s.launches ∧
      (es.foldl (fun s e => ejoinRetire s k e ends) s).M.scopes = s.M.scopes := by
  induction es with
  | nil => exact fun hj _ => ⟨_, hj, .nil _ _, rfl, rfl⟩
  | cons e es ih =>
    intro s j hj hes
    obtain ⟨he, hn⟩ := List.nodup_cons.mp hn
    obtain ⟨s1, q, hs, hb, hq⟩ := ejoinRetire_ejoined hj (hes e List.mem_cons_self) ends
    have hes' : ∀ f ∈ es, (q.eng f).ejoin.isSome = true := fun f hf => by
      rw [hq.other f fun hm => he (List.mem_singleton.mp hm ▸ hf)]
      exact hes f (List.mem_cons_of_mem _ hf)
    obtain ⟨j', hj', hd, hl, hc⟩ := ih hn (s := setJob s1 k q) (jobAt_setJob_self _ _ _) hes'
    simp only [List.foldl_cons, hs]
    exact ⟨j', hj', hq.cons hd he, hl.trans hb.launches, hc.trans hb.scopes⟩

theorem maskStreams_nodup (m : Nat) : (maskStreams m).Nodup := by
  unfold maskStreams
  cases bitOf m 0 <;> cases bitOf m 1 <;> cases bitOf m 2 <;> decide

/-- The EJOINs of a join point whose streams wait retire, each in its own stream. -/
theorem retireJoins_ejoined {s : State} {k m : Nat} {j : Job} (hj : jobAt s k = some j) (hm : j.joined m = true) (ends : Bool) :
    ∃ j', jobAt (retireJoins s k m ends) k = some j' ∧ Ejoined (maskStreams m) ends j j' ∧ (retireJoins s k m ends).launches = s.launches ∧
      (retireJoins s k m ends).M.scopes = s.M.scopes := by
  refine retireEach_ejoined _ (maskStreams_nodup m) hj fun e he => ?_
  have h := List.all_eq_true.mp hm e he
  rw [Bool.and_eq_true] at h
  exact h.1

/-! ### What S learns at a join -/

/-- `j'` differs from `j` in what is known of other streams and agents. -/
def KnowOnly (j j' : Job) : Prop := ∃ sh c w, j' = { j with shown := sh, clk := c, core := { j.core with wk := w } }

theorem KnowOnly.trans {a b c : Job} (h : KnowOnly a b) (g : KnowOnly b c) : KnowOnly a c := by
  obtain ⟨x, y, z, rfl⟩ := h
  obtain ⟨x, y, z, rfl⟩ := g
  exact ⟨x, y, z, rfl⟩

theorem KnowOnly.foldl {α : Type} {f : Job → α → Job} (hf : ∀ j x, KnowOnly j (f j x)) (l : List α) : ∀ j, KnowOnly j (l.foldl f j) := by
  induction l with
  | nil => exact fun j => ⟨_, _, _, rfl⟩
  | cons x r ih => exact fun j => (hf j x).trans (ih _)

theorem joinShows_knowOnly (j : Job) (ps : List Nat) : KnowOnly j (j.joinShows ps) :=
  (KnowOnly.trans (b := { j with shown := ps.foldl (fun (m : SMap PathClk) p => smSet m p (j.clkOf p)) j.shown }) ⟨_, _, _, rfl⟩
    (.foldl (fun _ _ => ⟨_, _, _, rfl⟩) _ _)).trans (.foldl (fun _ _ => ⟨_, _, _, rfl⟩) _ _)

theorem KnowOnly.eng {j j' : Job} (h : KnowOnly j j') (e : EStream) : j'.eng e = j.eng e := by
  obtain ⟨x, y, z, rfl⟩ := h
  cases e <;> rfl

theorem KnowOnly.S {j j' : Job} (h : KnowOnly j j') : j'.core.S = j.core.S := by
  obtain ⟨x, y, z, rfl⟩ := h
  rfl

/-! ### Join points that retire -/

/-- A join point retires with a job whose S stands as before and whose joined streams have retired their EJOINs. -/
theorem joinDone_retired (s' : State) (k : Nat) {m : Nat} {j q : Job} (hS : q.core.S = j.core.S)
    (hg : ∀ e ∈ maskStreams m, q.eng e = (j.eng e).ejoined false) : ∃ j', JoinDone (retired s' k j q.next) k j m j' := by
  refine ⟨_, jobAt_retired_self _ _ _ _, rfl, ?_, fun e he => ?_⟩
  · simp only [Job.next, Job.setPc, Job.pc, hS]
  · have h := (j.eng e).ejoined_facts false
    rw [← hg e he] at h
    cases e <;> exact h

theorem joinDone_of_ejoined (s' : State) {k m : Nat} {j q : Job} (h : Ejoined (maskStreams m) false j q) :
    ∃ j', JoinDone (retired s' k j (q.joinShows ((maskStreams m).map pathOf)).next) k j m j' := by
  have hk := joinShows_knowOnly q ((maskStreams m).map pathOf)
  exact joinDone_retired s' k (hk.S.trans h.S) fun e he => (hk.eng e).trans (h.mem e he)

theorem curJob_of {s : State} {k : Nat} {q : Job} (h : jobAt s k = some q) (j : Job) : curJob s k j = q := by rw [curJob, h, Option.getD_some]

theorem rdvDone_joinDone {s : State} {k m : Nat} {j : Job} (hj : jobAt s k = some j) (hc : j.core.S.seq < seqMax) (hm : j.joined m = true)
    (ho : j.joinOver m = none) : ∃ j', JoinDone (rdvDone s k m) k j m j' := by
  obtain ⟨q, hq, he, -⟩ := retireJoins_ejoined hj hm false
  have hr : rdvDone s k m = retired (retireJoins s k m false) k j (q.joinShows ((maskStreams m).map pathOf)).next := by
    simp only [rdvDone, hj, ho, curJob_of hq, sFinish_retire hc]
  rw [hr]
  exact joinDone_of_ejoined _ he

theorem leaseOf_leaseEnd (s : State) (k : Nat) : leaseOf (leaseEnd s k) k = none := by
  unfold leaseEnd
  extract_lets c c'
  have hl : c'.lease = c.lease := rfl
  split
  case h_1 l h =>
    rw [hl] at h
    by_cases hk : l.job = k
    · simp only [leaseOf, clusterSt_setCluster_self, if_pos hk]
    · simp only [leaseOf, clusterSt_setCluster_self, hl, h, hk, false_and, if_false]
  case h_2 h =>
    rw [hl] at h
    simp only [leaseOf, clusterSt_setCluster_self, hl, h]

theorem leaseEnd_jobs (s : State) (k : Nat) : (leaseEnd s k).jobs = s.jobs := by
  unfold leaseEnd
  extract_lets c c'
  split <;> rfl

theorem leaseOf_retired (s : State) (k : Nat) (j j' : Job) : leaseOf (retired s k j j') k = leaseOf s k := by
  have h : (retired s k j j').clusters = s.clusters := (traceRecord_traceOnly s k j .S _ _ _ _ _).clusters
  simp only [leaseOf, clusterSt, h]

theorem yieldDone_joinDone {s : State} {k : Nat} {j : Job} (hj : jobAt s k = some j) (hc : j.core.S.seq < seqMax)
    (hm : j.joined j.presentMask = true) (ho : j.joinOver j.presentMask = none) (hp : j.preempt = none ∨ nodePreempt s j = false) :
    ∃ j', JoinDone (yieldDone s k) k j j.presentMask j' ∧ leaseOf (yieldDone s k) k = none := by
  obtain ⟨q, hq, he, -⟩ := retireJoins_ejoined hj hm false
  have hn : (nodePreempt s j && j.preempt.isSome && hasArea s j && !windowNm s j.uid && decide (j.core.S.seq < seqMax)) = false := by
    rcases hp with h | h <;> simp [h]
  have hy : yieldDone s k = retired (leaseEnd (retireJoins s k j.presentMask false) k) k j
      (q.joinShows ((maskStreams j.presentMask).map pathOf)).next := by
    have hl := (jobAt_congr (leaseEnd_jobs (retireJoins s k j.presentMask false) k) k).trans hq
    simp only [yieldDone, hj, ho, hn, curJob_of hl, Bool.false_eq_true, if_false, sFinish_retire hc]
  rw [hy, leaseOf_retired]
  obtain ⟨j', h⟩ := joinDone_of_ejoined (leaseEnd (retireJoins s k j.presentMask false) k) he
  exact ⟨j', h, leaseOf_leaseEnd _ _⟩

/-! ### HALT -/

theorem haltCopies_nil {s : State} {k : Nat} (h : haltCopies s k = []) : ∀ c ∈ s.M.scopes, (c.inst == instNo c.level (jCoreKey k)) = false := by
  intro c hc
  by_contra hi
  have hm : c.line ∈ haltCopies s k := by
    rw [haltCopies, List.mem_eraseDups]
    exact List.mem_map_of_mem (List.mem_filter.mpr ⟨hc, by simpa using hi⟩)
  rw [h] at hm
  exact List.not_mem_nil hm

/-- Launch `l` has counted `n` halted jobs and `t` triggered ones. -/
def Counted (s : State) (l n t : Nat) : Prop := ∃ v, launchAt s l = some v ∧ v.halted = n ∧ v.trig = t

theorem updateReady_counted {s : State} {l n t : Nat} (h : Counted s l n t) : Counted (updateReady s) l n t := by
  unfold updateReady
  generalize s.launches = es
  induction es generalizing s with
  | nil => exact h
  | cons e es ih =>
    refine ih ?_
    dsimp only
    split
    · exact h
    · rename_i v hv
      split
      · obtain ⟨w, hw, hn, ht⟩ := h
        by_cases he : e.1 = l
        · subst he
          rw [hv] at hw
          cases hw
          exact ⟨_, smGet_smSet_self _ _ _, hn, ht⟩
        · exact ⟨w, (smGet_smSet_ne _ _ (Ne.symm he)).trans hw, hn, ht⟩
      · exact h

theorem updateReady_jobs (s : State) : (updateReady s).jobs = s.jobs := by
  refine foldl_jobs _ (fun s e => ?_) _ _
  dsimp only
  split
  · rfl
  · split <;> rfl

theorem markHalted_jobs (s : State) (j : Job) : (markHalted s j).jobs = s.jobs := by
  unfold markHalted
  split <;> rfl

theorem markHalted_counted {s : State} {j : Job} {v : Launch} (h : launchAt s j.launch = some v) :
    Counted (markHalted s j) j.launch (v.halted + 1) (if j.triggered then v.trig else v.trig + 1) := by
  simp only [markHalted, h]
  exact ⟨_, smGet_smSet_self _ _ _, rfl, rfl⟩

theorem passSlot_launches (s : State) (k : Nat) : (passSlot s k).launches = s.launches := by
  unfold passSlot
  extract_lets c
  split <;> rfl

theorem leaseEnd_launches (s : State) (k : Nat) : (leaseEnd s k).launches = s.launches := by
  unfold leaseEnd
  extract_lets c c'
  split <;> rfl

theorem freeSlot_launches (s : State) (k : Nat) (j : Job) : (freeSlot s k j).launches = s.launches := by
  unfold freeSlot
  extract_lets s1 c b e own s2
  rw [passSlot_launches]
  refine Eq.trans ?_ (leaseEnd_launches s k)
  show State.launches (if _ then _ else _) = _
  split <;> rfl

/-- The state in which a halted job's slot and reservation have been given back, `q` being the job once its EJOINs have retired. -/
def haltFreed (s : State) (k : Nat) (q : Job) : State :=
  barrierLeave (freeReserve (freeSlot (traceWord (traceFlow s k q .S q.pc) k q .S q.pc (q.core.S.seq + 1)) k q) q.fdom q.uid) q.uid

theorem haltFreed_jobAt {s : State} (h : SlotsOk s) (k : Nat) (q : Job) : jobAt (haltFreed s k q) k = none := by
  have ht := (traceWord_keeps (traceFlow_keeps (.refl s) k q .S q.pc) k q .S q.pc (q.core.S.seq + 1)).slots h
  rw [haltFreed, jobAt_congr (barrierLeave_jobs _ _), jobAt_congr (freeReserve_jobs _ _ _)]
  exact freeSlot_jobAt ht k q

theorem haltFreed_launches (s : State) (k : Nat) (q : Job) : (haltFreed s k q).launches = s.launches :=
  (freeSlot_launches _ k q).trans (((traceFlow_beside s k q .S q.pc).trans (traceWord_beside _ k q .S q.pc _)).launches)

theorem joined_of_haltReady {s : State} {j : Job} (h : haltReady s j = true) : j.joined j.presentMask = true := by
  simp only [haltReady, Bool.and_eq_true] at h
  exact h.1.1

/-- HALT done with nothing left to publish frees the slot and is counted. -/
theorem haltDone_haltDone {s : State} {k : Nat} {j : Job} (hj : jobAt s k = some j) (hr : haltReady s j = true) (hc : haltCopies s k = [])
    (ho : j.joinOver j.presentMask = none) (hp : j.replay = none) : HaltDone s (haltDone s k) k j := by
  obtain ⟨q, hq, he, hl, hs⟩ := retireJoins_ejoined hj (joined_of_haltReady hr) true
  obtain ⟨hql, hqt⟩ : q.launch = j.launch ∧ q.triggered = j.triggered := by
    obtain ⟨c, rfl⟩ := he.core
    exact ⟨rfl, rfl⟩
  have hpub : publishOwn (retireJoins s k j.presentMask true) (jCoreKey k) 3 = retireJoins s k j.presentMask true :=
    publishSel_none 3 (by rw [hs]; exact haltCopies_nil hc)
  have hd : haltDone s k = updateReady (markHalted (haltFreed (retireJoins s k j.presentMask true) k q) q) := by
    simp only [haltDone, hj, hp, ho, hpub, curJob_of hq, haltFreed]
  rw [hd]
  refine ⟨fun h => ?_, fun v hv => ?_⟩
  · rw [jobAt_congr (updateReady_jobs _), jobAt_congr (markHalted_jobs _ _)]
    exact haltFreed_jobAt ((retireJoins_keeps (.refl s) k j.presentMask true).slots h) k q
  · have hv' : launchAt (haltFreed (retireJoins s k j.presentMask true) k q) q.launch = some v := by
      rw [launchAt, haltFreed_launches, hl, hql]
      exact hv
    have h := updateReady_counted (markHalted_counted hv')
    rw [hql, hqt] at h
    exact h

/-! ### Join points that issue -/

theorem joinIssue_waits {s : State} {k : Nat} {j : Job} {m : Nat} (h : j.joined m = false) (why : JoinKind) :
    joinIssue s k j m why = .wait s { j with pend := .join m why } := by
  simp only [joinIssue, h, Bool.not_false, if_true]

theorem joinIssue_rdv {s : State} {k : Nat} {j : Job} {m : Nat} (h : j.joined m = true) : joinIssue s k j m .rdv = .done (rdvDone s k m) := by
  simp only [joinIssue, h, Bool.not_true, Bool.false_eq_true, if_false]

theorem joinIssue_yield {s : State} {k : Nat} {j : Job} {m : Nat} (h : j.joined m = true) : joinIssue s k j m .yield = .done (yieldDone s k) := by
  simp only [joinIssue, h, Bool.not_true, Bool.false_eq_true, if_false]

theorem joinIssue_halt {s : State} {k : Nat} {j : Job} {m : Nat} (h : j.joined m = true) : joinIssue s k j m .halt =
    if haltReady s j && (haltCopies s k).isEmpty then .done (haltDone s k) else .wait s { j with pend := .join m .halt } := by
  simp only [joinIssue, h, Bool.not_true, Bool.false_eq_true, if_false]

theorem haltGo_publishes {s : State} {k : Nat} (h : haltCopies s k ≠ []) :
    ∃ ln ∈ haltCopies s k, haltGo s k = publishSel s (fun c => c.line == ln && c.inst == instNo c.level (jCoreKey k)) 3 := by
  unfold haltGo
  split
  case h_1 hl => exact absurd hl h
  case h_2 =>
    have hp : 0 < (haltCopies s k).length := List.length_pos_iff.mpr h
    have hlt := Nat.mod_lt (Config.freeWord s.fresh).toNat hp
    refine ⟨_, ?_, rfl⟩
    rw [List.getD_eq_getElem _ _ hlt]
    exact List.getElem_mem hlt

theorem haltGo_done {s : State} {k : Nat} (h : haltCopies s k = []) : haltGo s k = haltDone s k := by simp only [haltGo, h]

section
variable {s : State} {k : Nat} {j : Job} (h : SReady s k j sJob [])
include h

/-- RDV of a stream that the header does not have traps once its checks of queues and registers have passed. -/
theorem rdv_traps {m : BitVec 3} {v : Nat} (hv : rdvDec m j = some (0x02, v)) : Runs (.rdv m) s (takeTrap s k .S 0x02 v) := by
  show execRdv m s = _
  exact sExec_dec h.turn h.here h.level (by simp [sDecode, hv, sBad_none h.named])

theorem rdv_issues {m : BitVec 3} (hd : rdvDec m j = none) :
    (j.joined m.toNat = false → Runs (.rdv m) s (setJob s k { j with pend := .join m.toNat .rdv })) ∧
      (j.joined m.toNat = true → Runs (.rdv m) s (rdvDone s k m.toNat)) := by
  refine ⟨fun hm => ?_, fun hm => ?_⟩
  · show execRdv m s = _
    exact sExec_wait h hd (joinIssue_waits hm .rdv)
  · show execRdv m s = _
    exact sExec_done h hd (joinIssue_rdv hm)

theorem yield_issues :
    (j.joined j.presentMask = false → Runs .yield s (setJob s k { j with pend := .join j.presentMask .yield })) ∧
      (j.joined j.presentMask = true → Runs .yield s (yieldDone s k)) := by
  refine ⟨fun hm => ?_, fun hm => ?_⟩
  · show execYield s = _
    exact sExec_wait h rfl (joinIssue_waits hm .yield)
  · show execYield s = _
    exact sExec_done h rfl (joinIssue_yield hm)

theorem halt_issues :
    (j.joined j.presentMask = false ∨ haltReady s j = false ∨ haltCopies s k ≠ [] →
      Runs .halt s (setJob s k { j with pend := .join j.presentMask .halt })) ∧
    (haltReady s j = true → haltCopies s k = [] → Runs .halt s (haltDone s k)) := by
  refine ⟨fun hw => ?_, fun hr hc => ?_⟩
  · show execHalt s = _
    by_cases hm : j.joined j.presentMask = true
    · have hn : ¬ (haltReady s j && (haltCopies s k).isEmpty) = true := by
        rw [Bool.and_eq_true, List.isEmpty_iff, not_and_or, Bool.not_eq_true]
        exact hw.resolve_left (by simp [hm])
      exact sExec_wait h rfl ((joinIssue_halt hm).trans (if_neg hn))
    · exact sExec_wait h rfl (joinIssue_waits (by simpa using hm) .halt)
  · show execHalt s = _
    exact sExec_done h rfl ((joinIssue_halt (joined_of_haltReady hr)).trans (if_pos (by simp [hr, hc])))

end

section
variable {s : State} {k n : Nat} {j : Job} (hj : jobAt s k = some j)
include hj

theorem joinComplete_rdv (hp : j.pend = .join n .rdv) : Runs (.joinComplete k) s (if j.joined n then rdvDone s k n else s) := by
  show execJoinComplete k s = _
  simp only [execJoinComplete, hj, hp]

theorem joinComplete_yield (hp : j.pend = .join n .yield) : Runs (.joinComplete k) s (if j.joined n then yieldDone s k else s) := by
  show execJoinComplete k s = _
  simp only [execJoinComplete, hj, hp]

theorem haltRetire_halt (hp : j.pend = .join n .halt) : Runs (.haltRetire k) s (if haltReady s j then haltGo s k else s) := by
  show execHaltRetire k s = _
  simp only [execHaltRetire, hj, hp]

end

/-- Settles O30: a join point waits or is done, at issue and at its event alike, and what RDV, YIELD and HALT are done with is said above. -/
theorem joinPoints : Obligations.JoinPoints := by
  refine ⟨fun s k j m h => ⟨fun hd => (rdv_issues h hd).1, fun hd hm ho => ?_, fun _ => rdv_traps h,
    fun hm => ⟨(yield_issues h).1 hm, (halt_issues h).1 (.inl hm)⟩,
    fun hm ho => ⟨fun hp => ?_, fun hr hc hp => ?_, fun hw => (halt_issues h).1 (.inr hw)⟩⟩, fun s k j n hj hc => ?_⟩
  · obtain ⟨j', hd'⟩ := rdvDone_joinDone h.here h.count hm ho
    exact ⟨_, j', (rdv_issues h hd).2 hm, hd'⟩
  · obtain ⟨j', hd⟩ := yieldDone_joinDone h.here h.count hm ho hp
    exact ⟨_, j', (yield_issues h).2 hm, hd⟩
  · exact ⟨_, (halt_issues h).2 hr hc, haltDone_haltDone h.here hr hc ho hp⟩
  refine ⟨fun hp => ?_, fun hp hn hm ho hpre => ?_, fun hp => ?_⟩
  · have hx := joinComplete_rdv hj hp
    refine ⟨fun hm ho => ?_, fun hm => ?_⟩
    · rw [if_pos hm] at hx
      obtain ⟨j', hd⟩ := rdvDone_joinDone hj hc hm ho
      exact ⟨_, j', hx, hd⟩
    · rwa [if_neg (by simp [hm])] at hx
  · subst hn
    have hx := joinComplete_yield hj hp
    rw [if_pos hm] at hx
    obtain ⟨j', hd⟩ := yieldDone_joinDone hj hc hm ho hpre
    exact ⟨_, j', hx, hd⟩
  · have hx := haltRetire_halt hj hp
    refine ⟨fun hr => ?_, fun hr hne => ?_, fun hr he ho hrep => ?_⟩
    · rwa [if_neg (by simp [hr])] at hx
    · rw [if_pos hr] at hx
      obtain ⟨ln, hln, hg⟩ := haltGo_publishes hne
      exact ⟨ln, hln, hg ▸ hx⟩
    · rw [if_pos hr, haltGo_done he] at hx
      exact ⟨_, hx, haltDone_haltDone hj hr he ho hrep⟩

end Sys2Proof.Machine
end

section
/-!
PROOFS, part 13. Results of divisions, bit counts, immediate operations and compares (R109 to R115), and the control transfers (R116, R118).
-/
namespace Sys2Proof.Machine

/-! ### Quotients and remainders (R110) -/

section
variable {x y : Word}

/-- Away from a zero divisor the model's quotient is the library's: both round the exact quotient toward zero, modulo 2^64. -/
theorem divS_of_ne_zero (hy : y ≠ 0) : divS x y = x.sdiv y := by
  rw [divS, if_neg hy]
  exact BitVec.eq_of_toInt_eq (by rw [BitVec.toInt_ofInt, BitVec.toInt_sdiv])

theorem remS_of_ne_zero (hy : y ≠ 0) : remS x y = x.srem y := by
  rw [remS, if_neg hy, ← BitVec.toInt_srem, BitVec.ofInt_toInt]

theorem divU_of_ne_zero (hy : y ≠ 0) : divU x y = x / y := by
  rw [divU, if_neg hy, ← BitVec.toNat_udiv, BitVec.ofNat_toNat, BitVec.setWidth_eq]

theorem remU_of_ne_zero (hy : y ≠ 0) : remU x y = x % y := by
  rw [remU, if_neg hy, ← BitVec.toNat_umod, BitVec.ofNat_toNat, BitVec.setWidth_eq]

end

/-- The dividend is quotient times divisor plus remainder, signed: the integers' own law, modulo 2^64. -/
theorem sdiv_mul_add_srem (x y : Word) : x = x.sdiv y * y + x.srem y := by
  have hq : x.sdiv y = BitVec.ofInt 64 (x.toInt.tdiv y.toInt) := BitVec.eq_of_toInt_eq (by rw [BitVec.toInt_ofInt, BitVec.toInt_sdiv])
  have hr : x.srem y = BitVec.ofInt 64 (x.toInt.tmod y.toInt) := by rw [← BitVec.toInt_srem, BitVec.ofInt_toInt]
  calc x = BitVec.ofInt 64 x.toInt := BitVec.ofInt_toInt.symm
    _ = BitVec.ofInt 64 (x.toInt.tdiv y.toInt * y.toInt + x.toInt.tmod y.toInt) := by rw [Int.tdiv_mul_add_tmod]
    _ = x.sdiv y * y + x.srem y := by rw [BitVec.ofInt_add, BitVec.ofInt_mul, BitVec.ofInt_toInt, ← hq, ← hr]

theorem udiv_mul_add_umod (x y : Word) : x = x / y * y + x % y := by
  apply BitVec.eq_of_toNat_eq
  rw [BitVec.toNat_add, BitVec.toNat_mul, BitVec.toNat_udiv, BitVec.toNat_umod, Nat.mod_add_mod, Nat.div_add_mod', Nat.mod_eq_of_lt x.isLt]

/-- A remainder other than zero has the dividend's sign. -/
theorem srem_eq_zero_or_msb (x y : Word) : x.srem y = 0 ∨ (x.srem y).msb = x.msb := by
  by_cases h : x.srem y = 0
  · exact .inl h
  · exact .inr (by rw [BitVec.msb_srem, decide_eq_true h, Bool.and_true])

section
variable {s : State} {k : Nat} {j : Job} {d a b : BitVec 6} {i : Instr}

/-- A division of `f` by a divisor other than zero writes what `f` gives of its sources, and sets no flag. -/
theorem alu3Div_ready (h : SReady s k j sAny [d, a, b]) (f : Word → Word → Word) (hx : exec i s = alu3Div s d a b f) (hb : j.s b ≠ 0) :
    Writes i s k j d (f (j.s a) (j.s b)) := by
  have hr := hx.trans (sPure_ready h _)
  rwa [flIf, if_neg (by simpa using hb), Job.orFlags_zero] at hr

/-- A division of `f` by zero writes what `f` gives of its sources, and sets DZ. -/
theorem alu3Div_ready_zero (h : SReady s k j sAny [d, a, b]) (f : Word → Word → Word) (hx : exec i s = alu3Div s d a b f) (hb : j.s b = 0) :
    Runs i s (retired s k j ((j.setS d (f (j.s a) 0)).orFlags flagDZ).next) := by
  have hr := hx.trans (sPure_ready h _)
  rw [hb, flIf, if_pos (beq_self_eq_true 0)] at hr
  exact hr

end

/-- Settles O11: a divisor other than zero leaves the library's quotient and remainder, whose law is the integers'; a zero divisor sets DZ. -/
theorem divisionResults : Obligations.DivisionResults := by
  intro s k j d a b h
  have hdiv (hb : j.s b ≠ 0) : Writes (.div d a b) s k j d ((j.s a).sdiv (j.s b)) := divS_of_ne_zero hb ▸ alu3Div_ready h divS rfl hb
  have hrem (hb : j.s b ≠ 0) : Writes (.rem d a b) s k j d ((j.s a).srem (j.s b)) := remS_of_ne_zero hb ▸ alu3Div_ready h remS rfl hb
  refine ⟨fun hb => ⟨hdiv hb, divU_of_ne_zero hb ▸ alu3Div_ready h divU rfl hb, hrem hb, remU_of_ne_zero hb ▸ alu3Div_ready h remU rfl hb⟩,
    fun hb => ⟨alu3Div_ready_zero h divS rfl hb, alu3Div_ready_zero h divU rfl hb, alu3Div_ready_zero h remS rfl hb,
      alu3Div_ready_zero h remU rfl hb⟩, fun ha hb => ?_,
    fun _ => ⟨sdiv_mul_add_srem _ _, udiv_mul_add_umod _ _, srem_eq_zero_or_msb _ _⟩⟩
  -- The most negative number by −1, the one quotient that does not fit.
  have hne : j.s b ≠ 0 := by rw [hb]; decide
  have hq : (j.s a).sdiv (j.s b) = BitVec.intMin 64 := by rw [ha, hb, ← BitVec.neg_one_eq_allOnes, BitVec.intMin_sdiv_neg_one]
  have hr : (j.s a).srem (j.s b) = 0 := by rw [ha, hb]; decide
  exact ⟨hq ▸ hdiv hne, hr ▸ hrem hne⟩

/-! ### Bit counts (R109) -/

theorem bitOf_toNat (x : Word) (i : Nat) : bitOf x.toNat i = x.getLsbD i := Nat.testBit_eq_decide_div_mod_eq.symm

theorem clzGo_le (x n : Nat) : clzGo x n ≤ n := by
  induction n with
  | zero => exact Nat.le_refl 0
  | succ n ih => rw [clzGo]; split <;> omega

/-- The bits that `clzGo` counts are zero. -/
theorem bitOf_of_clzGo (x : Nat) {n i : Nat} (hl : n - clzGo x n ≤ i) (hi : i < n) : bitOf x i = false := by
  induction n with
  | zero => omega
  | succ n ih =>
    rw [clzGo] at hl
    split at hl
    case isTrue => omega
    case isFalse hn =>
      by_cases he : i = n
      · simpa [he] using hn
      · exact ih (by omega) (by omega)

/-- The bit below those that `clzGo` counts is one. -/
theorem bitOf_below_clzGo (x : Nat) {n : Nat} (h : clzGo x n < n) : bitOf x (n - 1 - clzGo x n) = true := by
  induction n with
  | zero => omega
  | succ n ih =>
    rw [clzGo] at h ⊢
    split
    case isTrue hn => exact hn
    case isFalse hn =>
      rw [if_neg hn] at h
      have he : n + 1 - 1 - (clzGo x n + 1) = n - 1 - clzGo x n := by omega
      exact he ▸ ih (by omega)

theorem popGo_eq_countP (x n : Nat) : popGo x n = (List.range n).countP (bitOf x) := by
  induction n with
  | zero => rfl
  | succ n ih => rw [popGo, ih, List.range_succ, List.countP_append, List.countP_singleton]

section
variable {s : State} {k : Nat} {j : Job} {d a : BitVec 6} {i : Instr}

/-- A two-register operation of `f` writes what `f` gives of its source. -/
theorem alu2_ready (h : SReady s k j sAny [d, a]) (f : Word → Word) (hx : exec i s = alu2 s d a f) : Writes i s k j d (f (j.s a)) :=
  hx.trans (sPure_ready h fun j => j.setS d (f (j.s a)))

end

/-- Settles O12: CLZ writes what `clzGo` counts, the zero bits above the highest one; POPC what `popGo` counts, which is `countP`. -/
theorem bitCounts : Obligations.BitCounts := by
  intro s k j d a h
  refine ⟨⟨clzGo (j.s a).toNat 64, clzGo_le _ 64, fun i hl hi => ?_, fun hn => ?_, alu2_ready h clz64 rfl⟩, ?_⟩
  · exact bitOf_toNat _ i ▸ bitOf_of_clzGo _ hl hi
  · exact bitOf_toNat _ _ ▸ bitOf_below_clzGo _ hn
  · have hp : pop64 (j.s a) = BitVec.ofNat 64 ((List.range 64).countP fun i => (j.s a).getLsbD i) := by
      rw [pop64, popGo_eq_countP, funext (bitOf_toNat (j.s a))]
    exact hp ▸ alu2_ready h pop64 rfl

/-! ### Immediate operations and constants (R111, R112) -/

/-- Settles O13: an immediate operation is `alu2` of its function; MOVI and SHIN name their destination alone. -/
theorem immediateResults : Obligations.ImmediateResults := by
  intro s k j d a n i c h
  have hd : SReady s k j sAny [d] := h.sub (by simp)
  exact ⟨alu2_ready h (· + i.signExtend 64) rfl, alu2_ready h (· &&& i.signExtend 64) rfl, alu2_ready h (· ||| i.signExtend 64) rfl,
    alu2_ready h (· ^^^ i.signExtend 64) rfl, alu2_ready h (· <<< n.toNat) rfl, alu2_ready h (· >>> n.toNat) rfl,
    alu2_ready h (·.sshiftRight n.toNat) rfl, sPure_ready hd fun j => j.setS d (c.signExtend 64),
    sPure_ready hd fun j => j.setS d (j.s d <<< (20 : Nat) ||| c.setWidth 64)⟩

/-! ### Compares and predicate logic (R114, R115) -/

section
variable {s : State} {k : Nat} {j : Job} {p : BitVec 3} {v : Bool}

/-- CMP writes the outcome of its condition, in whatever words that is put. -/
theorem cmp_ready {a b : BitVec 6} (h : SReady s k j sAny [a, b]) (c : BitVec 3) (hv : cmpCond c (j.s a) (j.s b) = v) :
    WritesP (.cmp p c a b) s k j p v :=
  hv ▸ sPure_ready h fun j => j.setP p (cmpCond c (j.s a) (j.s b))

theorem cmpi_ready {a : BitVec 6} {i : BitVec 14} (h : SReady s k j sAny [a]) (c : BitVec 3)
    (hv : cmpCond c (j.s a) (i.signExtend 64) = v) : WritesP (.cmpi p c a i) s k j p v :=
  hv ▸ sPure_ready h fun j => j.setP p (cmpCond c (j.s a) (immS i))

end

/-- GE and GEU are the converse of "at most". -/
theorem cmpCond_ge (x y : Word) : cmpCond 4 x y = decide (y.toInt ≤ x.toInt) := BitVec.sle_eq_not_slt.symm

theorem cmpCond_geu (x y : Word) : cmpCond 5 x y = decide (y.toNat ≤ x.toNat) := (BitVec.ule_eq_not_ult y x).symm

/-- Settles O14: a compare writes `cmpCond`'s outcome, predicate logic names no register of S. -/
theorem predicateResults : Obligations.PredicateResults := by
  intro s k j p q r a b i h
  have ha : SReady s k j sAny [a] := h.sub (by simp)
  have h0 : SReady s k j sAny [] := h.sub (by simp)
  exact ⟨cmp_ready h 0 rfl, cmp_ready h 1 rfl, cmp_ready h 2 rfl, cmp_ready h 3 rfl, cmp_ready h 4 (cmpCond_ge _ _), cmp_ready h 5 (cmpCond_geu _ _),
    cmpi_ready ha 0 rfl, cmpi_ready ha 1 rfl, cmpi_ready ha 2 rfl, cmpi_ready ha 3 rfl, cmpi_ready ha 4 (cmpCond_ge _ _),
    cmpi_ready ha 5 (cmpCond_geu _ _), sPure_ready h0 fun j => j.setP p (j.p q && j.p r), sPure_ready h0 fun j => j.setP p (j.p q || j.p r),
    sPure_ready h0 fun j => j.setP p (j.p q ^^ j.p r), sPure_ready h0 fun j => j.setP p (!j.p q)⟩

/-! ### Control transfers (R116, R118) -/

/-- An admitted instruction whose function goes to `t` with job `j'`, at the same PC, retires as a taken transfer does. -/
theorem sExec_goTo {s : State} {k : Nat} {j j' : Job} {regs : List (BitVec 6)} {t : Word} {f : Nat → Job → SRes}
    (h : SReady s k j sAny regs) (hf : f k j = goTo s k j' t) (hp : j'.pc = j.pc) :
    sExec s sAny regs noDec f = .next (retired (traceFlow s k j' .S j.pc) k j (j'.setPc t)) := by
  rw [goTo, hp] at hf
  exact sExec_retire h rfl hf

/-- The words of B, JMP, CALL and JR are those that the encoder writes. -/
theorem decode_transfers (p : BitVec 3) (n : BitVec 1) (o : BitVec 22) (f : BitVec 26) (a : BitVec 6) (t : Nat) :
    decode .S (0x10 * 2 ^ 26 + p.toNat * 2 ^ 23 + n.toNat * 2 ^ 22 + o.toNat) t = .ok (.b p n o) ∧
    decode .S (0x11 * 2 ^ 26 + f.toNat) t = .ok (.jmp f) ∧ decode .S (0x12 * 2 ^ 26 + f.toNat) t = .ok (.call f) ∧
    decode .S (0x13 * 2 ^ 26 + a.toNat * 2 ^ 14) t = .ok (.jr a) :=
  ⟨(decode_of_encode_scalar rfl rfl).2 t, (decode_of_encode_scalar rfl rfl).2 t, (decode_of_encode_scalar rfl rfl).2 t,
    (decode_of_encode_scalar rfl (by simp [encode, encSR])).2 t⟩

/-- Settles O15: the words are the encoder's; a transfer that is taken is `goTo`, one that is not goes to the next word or traps. -/
theorem controlTransfers : Obligations.ControlTransfers := by
  refine ⟨decode_transfers, fun s k j p n o f a h => ?_⟩
  have h0 : SReady s k j sAny [] := h.sub (by simp)
  have hpc : (j.setS 63 (j.pc + 4)).pc = j.pc := by simp [Job.pc]
  exact ⟨fun hc => (sExec_goTo h0 (if_pos hc) rfl : execB p n o s = _),
    fun hc => (sExec_retire h0 rfl (if_neg (Bool.eq_false_iff.mp hc)) : execB p n o s = _), (sExec_goTo h0 rfl rfl : execJmp f s = _),
    (sExec_goTo h0 rfl hpc : execCall f s = _), fun ht => (sExec_goTo h (if_neg (not_not_intro ht)) rfl : execJr a s = _),
    fun ht => (sExec_trap h rfl (if_pos ht) : execJr a s = _)⟩

end Sys2Proof.Machine
end

section
/-!
PROOFS, part 14. S accesses whose check fails: the trap of the check, and the alignment check before all others (R125 to R129, R133).
-/
namespace Sys2Proof.Machine

/-! ### The checks of an access -/

/-- Alignment is the first check of R125. -/
theorem sCheck_misaligned {a : SAcc} {ea : Nat} (h : ea % a.n ≠ 0) (s : State) (k : Nat) (j : Job) : sCheck s k j a ea = .trap 0x03 ea :=
  if_pos h

theorem sCheckAll_cons_trap {s : State} {k c v ea : Nat} {j : Job} {a : SAcc} (h : sCheck s k j a ea = .trap c v) (r : List Nat) :
    sCheckAll s k j a (ea :: r) = .error (.trap c v) := by
  simp only [sCheckAll, h]

theorem loadInstr_trap {s : State} {k c v ea : Nat} {j : Job} {a : SAcc} (h : sCheck s k j a ea = .trap c v) (sc : Nat) (r : List Nat)
    (put : State → Job → List Nat → Job) : loadInstr s k j a sc (ea :: r) put = .trap c v := by
  simp only [loadInstr, sCheckAll_cons_trap h, sFail]

theorem storeInstr_trap {s : State} {k c v ea : Nat} {j : Job} {a : SAcc} (h : sCheck s k j a ea = .trap c v) (sc : Nat) (rel : Option Nat)
    (r vs : List Nat) : storeInstr s k j a sc rel (ea :: r) vs = .trap c v := by
  simp only [storeInstr, sCheckAll_cons_trap h, sFail]

/-! ### The instructions whose check fails -/

section
variable {s : State} {k c v : Nat} {j : Job} {d a b : BitVec 6} {w : BitVec 2} {sc : BitVec 3}

theorem ld_traps {kk : BitVec 1} {o : BitVec 10} (h : SReady s k j sAny [d, a])
    (hc : sCheck s k j ⟨widthBytes w, .read, true, kk == 0⟩ (effAddr j a o (widthBytes w)) = .trap c v) (x : BitVec 1) :
    Runs (.ld d a w kk x o) s (takeTrap s k .S c v) := by
  show execLd d a w kk x o s = _
  exact sExec_trap h rfl (loadInstr_trap hc _ _ _)

theorem st_traps {kk : BitVec 1} {o : BitVec 10} (h : SReady s k j sAny [d, a])
    (hc : sCheck s k j ⟨widthBytes w, .write, true, kk == 0⟩ (effAddr j a o (widthBytes w)) = .trap c v) :
    Runs (.st d a w kk o) s (takeTrap s k .S c v) := by
  show execSt d a w kk o s = _
  exact sExec_trap h rfl (storeInstr_trap hc _ _ _ _)

theorem lda_traps {o : BitVec 9} (h : SReady s k j sHnd [d, a])
    (hc : sCheck s k j ⟨widthBytes w, .read, true, false⟩ (effAddr j a o (widthBytes w)) = .trap c v) (sc : BitVec 3) :
    Runs (.lda d a w sc o) s (takeTrap s k .S c v) := by
  show execLda d a w sc o s = _
  exact sExec_trap h rfl (loadInstr_trap hc _ _ _)

/-- STL checks its access once the job's throws have landed. -/
theorem stl_traps {o : BitVec 9} (h : SReady s k j sHnd [d, a]) (ht : throwsDone s j.uid = true)
    (hc : sCheck s k j ⟨widthBytes w, .write, true, false⟩ (effAddr j a o (widthBytes w)) = .trap c v) (sc : BitVec 3) :
    Runs (.stl d a w sc o) s (takeTrap s k .S c v) := by
  show execStl d a w sc o s = _
  refine sExec_trap h rfl ?_
  simp only [ht, storeInstr_trap hc, Bool.not_true, Bool.false_eq_true, if_false]

/-- The first beat of LDM and STM is the effective address itself. -/
theorem beats_succ {ea : Nat} (h : ea < 2 ^ 64) (n : Nat) : ∃ r, beats ea (n + 1) = ea :: r := by
  rw [beats, List.range_succ_eq_map]
  exact ⟨_, by rw [List.map_cons, Nat.mul_zero, Nat.add_zero, Nat.mod_eq_of_lt h]⟩

theorem effAddr_lt {m : Nat} (j : Job) (a : BitVec 6) (o : BitVec m) (n : Nat) : effAddr j a o n < 2 ^ 64 := (_ : Word).isLt

theorem ldm_traps {n : BitVec 3} {o : BitVec 8} (h : SReady s k j sAny (multiRegs d n ++ [a])) (hm : multiDec d n j = none)
    (hc : sCheck s k j ⟨8, .read, true, true⟩ (effAddr j a o 8) = .trap c v) : Runs (.ldm d a n o) s (takeTrap s k .S c v) := by
  show execLdm d a n o s = _
  obtain ⟨r, hr⟩ := beats_succ (effAddr_lt j a o 8) n.toNat
  exact sExec_trap h hm (by rw [hr]; exact loadInstr_trap hc _ _ _)

theorem stm_traps {n : BitVec 3} {o : BitVec 8} (h : SReady s k j sAny (multiRegs d n ++ [a])) (hm : multiDec d n j = none)
    (hc : sCheck s k j ⟨8, .write, true, true⟩ (effAddr j a o 8) = .trap c v) : Runs (.stm d a n o) s (takeTrap s k .S c v) := by
  show execStm d a n o s = _
  obtain ⟨r, hr⟩ := beats_succ (effAddr_lt j a o 8) n.toNat
  exact sExec_trap h hm (by rw [hr]; exact storeInstr_trap hc _ _ _ _)

theorem throw_traps (h : SReady s k j sJob [d, a, b])
    (hc : sCheck s k j ⟨widthBytes w, .write, false, false⟩ (j.s a).toNat = .trap c v) (sc : BitVec 3) :
    Runs (.throw d a b w sc) s (takeTrap s k .S c v) := by
  show execThrow d a b w sc s = _
  exact sExec_trap h rfl (by simp only [hc])

theorem waitMem_traps (h : SReady s k j sJob [a, b]) (hc : sCheck s k j ⟨8, .read, true, false⟩ (j.s a).toNat = .trap c v) (sc : BitVec 3)
    (ok : Nat → Nat → Bool) : waitMem s a b sc ok = .next (takeTrap s k .S c v) :=
  sExec_trap h rfl (by simp only [hc])

theorem waitMemeq_traps (h : SReady s k j sJob [a, b]) (hc : sCheck s k j ⟨8, .read, true, false⟩ (j.s a).toNat = .trap c v)
    (sc : BitVec 3) : Runs (.waitMemeq a b sc) s (takeTrap s k .S c v) := by
  show execWaitMemeq a b sc s = _
  exact waitMem_traps h hc sc _

theorem waitMemge_traps (h : SReady s k j sJob [a, b]) (hc : sCheck s k j ⟨8, .read, true, false⟩ (j.s a).toNat = .trap c v)
    (sc : BitVec 3) : Runs (.waitMemge a b sc) s (takeTrap s k .S c v) := by
  show execWaitMemge a b sc s = _
  exact waitMem_traps h hc sc _

end

/-- Settles O24: alignment is the first check, and an instruction whose check fails traps with what the check answers. -/
theorem misalignedAccessTraps : Obligations.MisalignedAccessTraps := by
  intro s k j d a b w kk x n sc o o' o''
  have hc {ac : SAcc} {ea : Nat} (hm : ea % ac.n ≠ 0) := sCheck_misaligned hm s k j
  refine ⟨fun h hm => ⟨ld_traps h (hc hm) x, st_traps h (hc hm)⟩, fun h hm => ⟨lda_traps h (hc hm) sc, fun ht => stl_traps h ht (hc hm) sc⟩,
    fun h hd hm => ⟨ldm_traps h hd (hc hm), stm_traps h hd (hc hm)⟩, fun h hm => throw_traps h (hc hm) sc,
    fun h hm => ⟨waitMemeq_traps h (hc hm) sc, waitMemge_traps h (hc hm) sc⟩⟩

end Sys2Proof.Machine
end

section
/-!
PROOFS, part 15. Clocks grow by joining, and what a fence's clock covers its to side covers (R131, R132, R256).
-/
namespace Sys2Proof.Machine

/-! ### Joining clocks -/

section
variable {key t : Nat}

theorem vcCovers_iff {a : VC} : vcCovers a key t = true ↔ t ≤ smGetD a key 0 := decide_eq_true_iff

/-- What a clock covers it covers after another entry has been joined to it. -/
theorem vcCovers_smSet_max {a : VC} (h : vcCovers a key t = true) (k' u : Nat) : vcCovers (smSet a k' (Nat.max u (smGetD a k' 0))) key t = true := by
  rw [vcCovers_iff] at h ⊢
  by_cases e : key = k'
  · subst e
    rw [smGetD_smSet_self]
    exact h.trans (Nat.le_max_right _ _)
  · rwa [smGetD_smSet_ne _ _ _ e]

theorem vcCovers_join_left {a : VC} (h : vcCovers a key t = true) (b : VC) : vcCovers (vcJoin a b) key t = true := by
  induction b generalizing a with
  | nil => exact h
  | cons e r ih => exact ih (vcCovers_smSet_max h e.1 e.2)

/-- The entry that a lookup finds stands in the map. -/
theorem mem_of_smGet {α : Type} {m : SMap α} {k : Nat} {v : α} (h : smGet m k = some v) : (k, v) ∈ m := by
  induction m with
  | nil => cases h
  | cons e r ih =>
    simp only [smGet] at h
    split at h
    · rename_i hk
      cases h
      exact hk ▸ List.mem_cons_self
    · split at h
      · cases h
      · exact List.mem_cons_of_mem _ (ih h)

theorem vcCovers_join_of_mem {b : VC} (h : (key, t) ∈ b) (a : VC) : vcCovers (vcJoin a b) key t = true := by
  induction b generalizing a with
  | nil => cases h
  | cons e r ih =>
    rcases List.mem_cons.mp h with rfl | h
    · refine vcCovers_join_left (vcCovers_iff.mpr ?_) r
      rw [smGetD_smSet_self]
      exact Nat.le_max_left _ _
    · exact ih h _

theorem vcCovers_join_right {b : VC} (h : vcCovers b key t = true) (a : VC) : vcCovers (vcJoin a b) key t = true := by
  rw [vcCovers_iff, smGetD] at h
  cases e : smGet b key with
  | none => exact vcCovers_iff.mpr (by simp_all)
  | some u =>
    rw [e] at h
    exact vcCovers_iff.mpr (h.trans (vcCovers_iff.mp (vcCovers_join_of_mem (mem_of_smGet e) a)))

/-! ### Joining clocks by scope -/

/-- Clocks by scope cover time `t` of `key` for scope `sc`. -/
def LimCovers (m : SMap VC) (sc key t : Nat) : Prop := ∃ w, smGet m sc = some w ∧ vcCovers w key t = true

variable {sc : Nat}

theorem LimCovers.mem {m : SMap VC} (h : LimCovers m sc key t) : ∃ w, (sc, w) ∈ m ∧ vcCovers w key t = true :=
  let ⟨w, hw, hc⟩ := h
  ⟨w, mem_of_smGet hw, hc⟩

theorem LimCovers.join_left {a : SMap VC} (h : LimCovers a sc key t) (b : SMap VC) : LimCovers (limJoin a b) sc key t := by
  induction b generalizing a with
  | nil => exact h
  | cons e r ih =>
    refine ih ?_
    obtain ⟨w, hw, hc⟩ := h
    by_cases he : sc = e.1
    · subst he
      exact ⟨_, smGet_smSet_self _ _ _, vcCovers_join_left (by simpa [smGetD, hw] using hc) _⟩
    · exact ⟨w, by rw [smGet_smSet_ne _ _ he, hw], hc⟩

theorem limCovers_join_of_mem {b : SMap VC} {w : VC} (h : (sc, w) ∈ b) (hc : vcCovers w key t = true) (a : SMap VC) :
    LimCovers (limJoin a b) sc key t := by
  induction b generalizing a with
  | nil => cases h
  | cons e r ih =>
    rcases List.mem_cons.mp h with rfl | h
    · exact LimCovers.join_left ⟨_, smGet_smSet_self _ _ _, vcCovers_join_right hc _⟩ r
    · exact ih h _

theorem LimCovers.join_right {b : SMap VC} (h : LimCovers b sc key t) (a : SMap VC) : LimCovers (limJoin a b) sc key t :=
  let ⟨_, hw, hc⟩ := h.mem
  limCovers_join_of_mem hw hc a

/-- Everything clocks by scope hold is held for scope 0. -/
theorem LimCovers.limAt_zero {m : SMap VC} (h : LimCovers m sc key t) : vcCovers (limAt m 0) key t = true := by
  obtain ⟨w, hw, hc⟩ := h.mem
  suffices H : ∀ (m : SMap VC) (v : VC), (sc, w) ∈ m ∨ vcCovers v key t = true →
      vcCovers (m.foldl (fun (v : VC) e => if 0 ≤ e.1 then vcJoin v e.2 else v) v) key t = true from H m [] (.inl hw)
  intro m
  induction m with
  | nil => exact fun v h => h.resolve_left nofun
  | cons e r ih =>
    intro v h
    rw [List.foldl_cons, if_pos (Nat.zero_le _)]
    refine ih _ ?_
    rcases h with h | h
    · rcases List.mem_cons.mp h with rfl | h
      · exact .inr (vcCovers_join_right hc v)
      · exact .inl h
    · exact .inr (vcCovers_join_left h _)

/-! ### The clock of a fence -/

/-- A fence that is no acquire carries, at its scope, all that happened before the accesses of its from side. -/
theorem fenceFrom_covers_all {j : Job} {p kind core : Nat} (hk : kind ≠ 1) (h : vcCovers (j.fromClk p).all key t = true) :
    LimCovers (j.fenceFrom p kind sc core) sc key t := by
  have hown : LimCovers (limJoin [(sc, (j.fromClk p).all)] ((j.fromClk p).lim.map (fun e => (Nat.min sc e.1, e.2)))) sc key t :=
    LimCovers.join_left ⟨_, by simp [smGet], h⟩ _
  simp only [Job.fenceFrom, fenceLoads, beq_iff_eq, if_neg hk]
  split
  · exact hown
  · exact hown.join_left _

/-- An acquire carries, wherever it passes on, all that happened before the loads of its from side. -/
theorem fenceFrom_covers_ld {j : Job} {p core : Nat} (h : vcCovers (j.fromClk p).ld key t = true) :
    LimCovers (j.fenceFrom p 1 sc core) noLimit key t :=
  LimCovers.join_left ⟨_, rfl, h⟩ _

theorem fenceGather_covers {j : Job} {ps : List Nat} {p kind sc' core : Nat} (hp : p ∈ ps)
    (h : LimCovers (j.fenceFrom p kind sc' core) sc key t) : LimCovers (fenceGather j ps kind sc' core) sc key t := by
  suffices H : ∀ (ps : List Nat) (v : SMap VC), p ∈ ps ∨ LimCovers v sc key t →
      LimCovers (ps.foldl (fun (v : SMap VC) p => limJoin v (j.fenceFrom p kind sc' core)) v) sc key t from H ps [] (.inl hp)
  intro ps
  induction ps with
  | nil => exact fun v h => h.resolve_left nofun
  | cons q r ih =>
    intro v hv
    refine ih _ ?_
    rcases hv with hv | hv
    · rcases List.mem_cons.mp hv with rfl | hv
      · exact .inr (h.join_right v)
      · exact .inl hv
    · exact .inr (hv.join_left _)

/-! ### What the to side obtains -/

@[simp] theorem Job.clkOf_setClk_self (j : Job) {p : Nat} (h : p < 7) (c : PathClk) : (j.setClk p c).clkOf p = c := by
  simp [Job.clkOf, Job.setClk, List.getD, h]

/-- A fence clock is in force for the words after the fence. -/
theorem inForce_append {thr n : Nat} (h : thr < n) (l : List (Nat × SMap VC)) (v : SMap VC) :
    inForce n (l ++ [(thr, v)]) = limJoin (inForce n l) v := by
  simp [inForce, List.foldl_append, h]

/-- The clock of a path after a fence of which it is on the to side. -/
theorem Job.clkOf_fenceTo (j : Job) {p : Nat} (h : p < 7) (kind sc thr : Nat) (v : SMap VC) :
    ((j.fenceTo p kind sc thr v).clkOf p).ps = (j.clkOf p).ps ++ [(thr, v)] ∧
    ((j.fenceTo p kind sc thr v).clkOf p).pl = if kind = 2 then (j.clkOf p).pl else (j.clkOf p).pl ++ [(thr, v)] := by
  simp only [Job.fenceTo, Job.clkOf_setClk_self j h, and_self]

end

/-- Settles O26: joining loses nothing, so the from side's clocks are in the fence's, and the fence's in those of the to side's later accesses. -/
theorem fenceOrdersPaths : Obligations.FenceOrdersPaths := by
  refine ⟨fun j ps p kind sc core key t hp => ⟨fun hk h => ?_, fun hk h => ?_⟩, fun j p kind sc thr n key t e v w hp hn hw hc => ⟨?_, fun hk => ?_⟩⟩
  · exact fenceGather_covers hp (fenceFrom_covers_all hk h)
  · subst hk
    exact fenceGather_covers hp (fenceFrom_covers_ld h)
  · have hv : LimCovers v e key t := ⟨w, hw, hc⟩
    refine vcCovers_join_right (LimCovers.limAt_zero (sc := e) ?_) _
    simp only [PathClk.fences, (j.clkOf_fenceTo hp kind sc thr v).1, inForce_append hn, if_true]
    exact (hv.join_right _).join_right _
  · have hv : LimCovers v e key t := ⟨w, hw, hc⟩
    refine vcCovers_join_right (LimCovers.limAt_zero (sc := e) ?_) _
    simp only [PathClk.fences, (j.clkOf_fenceTo hp kind sc thr v).2, if_neg hk, inForce_append hn, if_true, Bool.false_eq_true, if_false]
    exact (hv.join_right _).join_right _

end Sys2Proof.Machine
end

section
/-!
PROOFS, part 16. WAITs that look at no memory, and WAIT_REEVALUATE (R133, R143, R239, R330).
-/
namespace Sys2Proof.Machine

section
variable {s : State} {k : Nat} {j : Job} {a b : BitVec 6}

/-- The job and slot that a WAIT whose condition is false leaves. -/
theorem sExec_park {cls : SClass} {regs : List (BitVec 6)} {f : Nat → Job → SRes} (h : SReady s k j cls regs) (hf : f k j = park s k j) :
    sExec s cls regs noDec f = .next (passSlot (setJob s k { j with pend := .parked }) k) :=
  sExec_done h rfl hf

theorem waitProd_retires {v : Launch} (h : SReady s k j sJob []) (hr : j.replay = none) (hv : launchAt s j.launch = some v)
    (hp : prodsDone s v = true) :
    Runs .waitProd s (retired s k j (v.prods.foldl (fun (q : Job) p =>
      match findLaunch s p.leaf p.idx with
      | some e => q.clkJoin 0 (vcJoin e.2.vcTrig e.2.vcEnd)
      | none => q) j).next) := by
  show execWaitProd s = _
  refine sExec_retire h rfl ?_
  simp only [hv, hr, hp, Option.isSome_none, Bool.false_eq_true, if_false, if_true] <;> rfl

theorem waitProd_parks {v : Launch} (h : SReady s k j sJob []) (hr : j.replay = none) (hv : launchAt s j.launch = some v)
    (hp : prodsDone s v = false) : Runs .waitProd s (passSlot (setJob s k { j with pend := .parked }) k) := by
  show execWaitProd s = _
  refine sExec_park h ?_
  simp only [hv, hr, hp, Option.isSome_none, Bool.false_eq_true, if_false]

/-- Outside a replay WAIT.nm does what the status of its handle says. -/
theorem execWaitNm_live (h : SReady s k j sJob [a]) (hr : j.replay = none) :
    exec (.waitNm a) s = .next (sFinish s k j (match (nmStatus s j (j.s a).toNat).1 with
      | 2 => .retire s (j.sawNm (nmStatus s j (j.s a).toNat).2).next
      | 3 | 4 => .trap 0x11 (j.s a).toNat
      | _ => park s k j)) := by
  show execWaitNm a s = _
  refine (sExec_ready h rfl _).trans ?_
  simp only [hr, Option.isSome_none, Bool.false_eq_true, if_false] <;> rfl

theorem waitNm_retires (h : SReady s k j sJob [a]) (hr : j.replay = none) (hn : (nmStatus s j (j.s a).toNat).1 = 2) :
    Runs (.waitNm a) s (retired s k j (j.sawNm (nmStatus s j (j.s a).toNat).2).next) := by
  refine (execWaitNm_live h hr).trans ?_
  rw [hn]
  simp only [sFinish_retire h.count]

theorem waitNm_parks (h : SReady s k j sJob [a]) (hr : j.replay = none) (hn : (nmStatus s j (j.s a).toNat).1 < 2) :
    Runs (.waitNm a) s (passSlot (setJob s k { j with pend := .parked }) k) := by
  refine (execWaitNm_live h hr).trans ?_
  obtain e | e : (nmStatus s j (j.s a).toNat).1 = 0 ∨ (nmStatus s j (j.s a).toNat).1 = 1 := by omega
  all_goals rw [e]; rfl

theorem waitNm_traps (h : SReady s k j sJob [a]) (hr : j.replay = none) (hn : 3 ≤ (nmStatus s j (j.s a).toNat).1)
    (hm : (nmStatus s j (j.s a).toNat).1 ≤ 4) : Runs (.waitNm a) s (takeTrap s k .S 0x11 (j.s a).toNat) := by
  refine (execWaitNm_live h hr).trans ?_
  obtain e | e : (nmStatus s j (j.s a).toNat).1 = 3 ∨ (nmStatus s j (j.s a).toNat).1 = 4 := by omega
  all_goals rw [e]; rfl

theorem waitIngr_retires {g : Group} {e : Nat} (h : SReady s k j sJob [a, b]) (hg : ingrGroup s k j (j.s a).toNat = some (g, e))
    (hi : ingrReady g e (j.s b).toNat = true) : Runs (.waitIngr a b) s (retired s k j j.next) := by
  show execWaitIngr a b s = _
  refine sExec_retire h rfl ?_
  simp only [hg, hi, Bool.or_true, if_true]

theorem waitIngr_parks {g : Group} {e : Nat} (h : SReady s k j sJob [a, b]) (hr : j.replay = none)
    (hg : ingrGroup s k j (j.s a).toNat = some (g, e)) (hi : ingrReady g e (j.s b).toNat = false) :
    Runs (.waitIngr a b) s (passSlot (setJob s k { j with pend := .parked }) k) := by
  show execWaitIngr a b s = _
  refine sExec_park h ?_
  simp only [hg, hi, hr, Option.isSome_none, Bool.or_false, Bool.false_eq_true, if_false]

theorem waitIngr_traps (h : SReady s k j sJob [a, b]) (hg : ingrGroup s k j (j.s a).toNat = none) :
    Runs (.waitIngr a b) s (takeTrap s k .S 0x12 (j.s a).toNat) := by
  show execWaitIngr a b s = _
  exact sExec_trap h rfl (by simp only [hg])

/-- WAIT_REEVALUATE looks at the condition of the WAIT at which the job is parked. -/
theorem execWaitReevaluate_parked {i : Instr} (hj : jobAt s k = some j) (hp : j.pend = .parked) (hi : nextWord s j .S = some i) :
    exec (.waitReevaluate k) s = .next (if waitHolds s k j i = true then wakeSlot (setJob s k { j with pend := .none }) k else s) := by
  show execWaitReevaluate k s = _
  simp only [execWaitReevaluate, hj, hp, hi, Option.map_some, Option.getD_some, true_and]
  split <;> rfl

end

/-- Settles O27: each WAIT is its condition's branch, and WAIT_REEVALUATE is that condition again. -/
theorem waitsRetireOrPark : Obligations.WaitsRetireOrPark := by
  refine ⟨fun s k j a b h hr => ⟨fun v hv => ⟨?_, ?_⟩, ?_, ?_, ?_, fun g e hg => ⟨?_, ?_⟩, ?_⟩, fun s k j i hj hp hi => ⟨fun hw => ?_, fun hw => ?_⟩⟩
  · exact waitProd_retires (h.sub (by simp)) hr hv
  · exact waitProd_parks (h.sub (by simp)) hr hv
  · exact waitNm_retires (h.sub (by simp)) hr
  · exact waitNm_parks (h.sub (by simp)) hr
  · exact waitNm_traps (h.sub (by simp)) hr
  · exact waitIngr_retires h hg
  · exact waitIngr_parks h hr hg
  · exact waitIngr_traps h
  · exact (execWaitReevaluate_parked hj hp hi).trans (by rw [if_pos hw])
  · exact (execWaitReevaluate_parked hj hp hi).trans (by rw [if_neg (by simp [hw])])

end Sys2Proof.Machine
end

section
/-!
PROOFS, part 17. What a release leaves alone (R254, R289, R305): publishing writes memory, the die's caches, error logs and messages, and narrows
regions. A lemma `f_published` says that `f` touches neither the launches, the clusters and the dies' positions nor anything else of a job.
-/
namespace Sys2Proof.Machine

/-- The slot and its job, of whose region only its being there counts. -/
def bareSlot (e : Nat × Job) : Nat × Job × Bool := (e.1, { e.2 with region := none }, e.2.region.isSome)

/-- From `o` to `t` no job has changed but in the bounds of its region, and no launch, cluster or die's copy of G has. -/
structure Published (o t : State) : Prop where
  turn : t.turnJob = o.turnJob
  jobs : t.jobs.map bareSlot = o.jobs.map bareSlot
  launches : t.launches = o.launches
  clusters : t.clusters = o.clusters
  g : ∀ d, (dieSt t d).g = (dieSt o d).g

theorem Published.refl (s : State) : Published s s := ⟨rfl, rfl, rfl, rfl, fun _ => rfl⟩

/-- An update of the state beside its turn, jobs, launches, clusters and dies. -/
theorem published_upd {o s : State} (h : Published o s)
    {x1 x3 x4 x5 x6 x7 x8 x9 x10 x12 x14 x15 x18 x19 x20 x21 x22 x23} :
    Published o ⟨x1, s.turnJob, x3, x4, x5, x6, x7, x8, x9, x10, s.jobs, x12, s.launches, x14, x15, s.clusters, s.dies, x18, x19, x20, x21, x22,
      x23⟩ :=
  ⟨h.turn, h.jobs, h.launches, h.clusters, h.g⟩

theorem ite_published {o s t : State} {p : Prop} [Decidable p] (hs : Published o s) (ht : Published o t) : Published o (if p then s else t) := by
  split
  · exact hs
  · exact ht

theorem foldl_published {α : Type} {o s : State} {f : State → α → State} (hf : ∀ t x, Published o t → Published o (f t x)) (h : Published o s)
    (l : List α) : Published o (l.foldl f s) := by
  induction l generalizing s with
  | nil => exact h
  | cons x l ih => exact ih (hf s x h)

section
variable {o s : State} (h : Published o s)
include h

/-! ### Bytes, events and watchpoints -/

theorem setCore_published (c v) : Published o (setCore s c v) := published_upd h
theorem setMdie_published (m v) : Published o (setMdie s m v) := published_upd h
theorem setDir_published (line e) : Published o (setDir s line e) := published_upd h
theorem dropStale_published (line) : Published o (dropStale s line) := published_upd h
theorem sendIrq_published (n c) : Published o (sendIrq s n c) := published_upd h
theorem evqLose_published (f) : Published o (evqLose s f) := published_upd h
theorem evqNext_published (f) : Published o (evqNext s f) := published_upd h

theorem homeSet_published (pa b) : Published o (homeSet s pa b) := by
  unfold homeSet
  split <;> exact published_upd h

theorem homeSetBytes_published (pa l) : Published o (homeSetBytes s pa l) := by
  induction l generalizing s pa with
  | nil => exact h
  | cons b l ih => exact ih (homeSet_published h pa b) (pa + 1)

theorem noteCode_published (pa l) : Published o (noteCode s pa l) := by
  induction l generalizing s pa with
  | nil => exact h
  | cons b l ih =>
    unfold noteCode
    exact ih (ite_published h (published_upd h)) (pa + 1)

theorem writeBackN_published (pa n) : Published o (writeBackN s pa n) := by
  induction n generalizing s pa with
  | zero => exact h
  | succ n ih =>
    unfold writeBackN
    split
    · exact ih (homeSet_published (published_upd h) pa _) (pa + 1)
    · exact ih h (pa + 1)

theorem writeBackLine_published (line) : Published o (writeBackLine s line) := writeBackN_published h _ _

theorem agentSetBytes_published (pa l) : Published o (agentSetBytes s pa l) :=
  published_upd (homeSetBytes_published (noteCode_published
    (foldl_published (fun _ ln ht => dropStale_published (writeBackLine_published ht ln) ln) h _) pa l) pa l)

theorem logError_published (id kind src cls addr ue) : Published o (logError s id kind src cls addr ue) := by
  refine ⟨h.turn, h.jobs, h.launches, h.clusters, fun d => Eq.trans ?_ (h.g d)⟩
  unfold logError dieSt setDie
  by_cases e : d = id
  · subst e
    simp only [smGetD_smSet_self]
  · simp only [smGetD_smSet_ne _ _ _ e]

theorem evqStore_published (f w0 addr aux) : Published o (evqStore s f w0 addr aux) := by
  unfold evqStore
  exact ite_published (evqLose_published h f) (ite_published (logError_published (evqLose_published h f) _ _ _ _ _ _)
    (evqNext_published (agentSetBytes_published h _ _) f))

theorem evqIrq_published (f) : Published o (evqIrq s f) := by
  unfold evqIrq
  split
  · exact ite_published (sendIrq_published h _ _) h
  · exact h

theorem raiseEvent_published (f type code die addr aux) : Published o (raiseEvent s f type code die addr aux) :=
  evqIrq_published (evqStore_published h _ _ _ _) f

theorem watchOne_published (m line cls ty f src n) : Published o (watchOne s m line cls ty f src n) := by
  unfold watchOne
  exact ite_published (raiseEvent_published (setMdie_published h _ _) _ _ _ _ _ _) h

theorem watchHit_published (line cls ty f src) : Published o (watchHit s line cls ty f src) := by
  unfold watchHit
  split
  · exact h
  · exact foldl_published (fun _ _ ht => watchOne_published ht _ _ _ _ _ _ _) h _

/-! ### Tokens and the directory -/

theorem dropCopies_published (die line e) : Published o (dropCopies s die line e) := published_upd h
theorem setHolders_published (die line hs) : Published o (setHolders s die line hs) := published_upd h
theorem tokReturn_published (core line) : Published o (tokReturn s core line) := setHolders_published h _ _ _
theorem tokWrite_published (die line agent) : Published o (tokWrite s die line agent) := setHolders_published h _ _ _
theorem tokDrop_published (die line) : Published o (tokDrop s die line) := published_upd h

theorem persistServed_published (core line) : Published o (persistServed s core line) := by
  unfold persistServed
  exact ite_published h (published_upd h)

theorem deliver_published (core line) : Published o (deliver s core line) := by
  unfold deliver
  extract_lets c foot ways open_ lru s1 s2 hs
  have h1 : Published o s1 := by
    refine ite_published h ?_
    split
    · exact tokReturn_published h _ _
    · exact h
  exact ite_published h (ite_published (setHolders_published (setCore_published h1 _ _) _ _ _) (setCore_published h _ _))

theorem landThrows_published (die line) : Published o (landThrows s die line) :=
  published_upd (foldl_published (fun _ _ ht => deliver_published ht _ _) h _)

theorem recallLine_published (line f d) : Published o (recallLine s line f d) :=
  ite_published (watchHit_published (writeBackLine_published h line) _ _ _ _ _) h

theorem dirRevoke_published (line f except) : Published o (dirRevoke s line f except) := by
  unfold dirRevoke
  exact foldl_published (fun _ d ht => tokDrop_published (dropCopies_published
    (ite_published (recallLine_published (landThrows_published ht d line) line f d) (landThrows_published ht d line)) _ _ _) _ _) h _

theorem dirWrite_published (d line f ty) : Published o (dirWrite s d line f ty) := by
  unfold dirWrite
  exact ite_published h (setDir_published (dirRevoke_published (watchHit_published h _ _ _ _ _) line f (some d)) _ _)

/-! ### Coherent writes -/

theorem noteTag_published (line) : Published o (noteTag s line) := by
  unfold noteTag
  split
  · exact h
  · exact published_upd h

theorem nmForget_published (line mask) : Published o (nmForget s line mask) := published_upd h

theorem cSetBytes_published (pa l) : Published o (cSetBytes s pa l) := published_upd (noteCode_published h pa l)

theorem cSetMasked_published (line mask i l) : Published o (cSetMasked s line mask i l) := by
  induction l generalizing s i with
  | nil => exact h
  | cons b l ih => exact ih (ite_published (cSetBytes_published h _ _) h) (i + 1)

theorem poisonMask_published (line mask) : Published o (poisonMask s line mask) := by
  unfold poisonMask
  split
  · exact h
  · exact published_upd h

theorem diePut_published (d agent line f ty mask bytes) : Published o (diePut s d agent line f ty mask bytes) := by
  have hw := tokWrite_published (dropCopies_published (dirWrite_published (landThrows_published h d line) d line f ty) d line agent) d line agent
  exact ite_published (raiseEvent_published h _ _ _ _ _ _) (poisonMask_published (cSetMasked_published
    (nmForget_published (noteTag_published (ite_published (setCore_published hw _ _) hw) line) line mask) line mask 0 bytes) line mask)

theorem cohPut_published (core line f ty mask bytes) : Published o (cohPut s core line f ty mask bytes) :=
  persistServed_published (diePut_published h _ _ _ _ _ _ _) _ _

end

/-! ### Narrowing -/

/-- A job put in the place of one that differs from it in its region's bounds alone. -/
theorem map_bareSlot_smSet {m : SMap Job} {k : Nat} {j q : Job} (hj : smGet m k = some j) (hq : bareSlot (k, q) = bareSlot (k, j)) :
    (smSet m k q).map bareSlot = m.map bareSlot := by
  induction m with
  | nil => cases hj
  | cons e m ih =>
    obtain ⟨k', v⟩ := e
    simp only [smGet] at hj
    split at hj
    · rename_i hk
      cases hj
      subst hk
      simp [smSet, hq]
    · split at hj
      · cases hj
      · simp only [smSet, if_neg (by assumption : ¬k < k'), if_neg (by omega : ¬k = k'), List.map_cons, ih hj]

section
variable {o s : State} (h : Published o s)
include h

theorem narrowQuiet_published (k f) : Published o (narrowQuiet s k f) := by
  unfold narrowQuiet
  split
  · exact h
  · rename_i j hj
    refine ⟨h.turn, (map_bareSlot_smSet hj ?_).trans h.jobs, h.launches, h.clusters, h.g⟩
    simp [bareSlot]

theorem narrow_published (k f) : Published o (narrow s k f) := by
  unfold narrow
  split
  · exact h
  · exact ite_published (narrowQuiet_published h k f) (published_upd (narrowQuiet_published h k f))

theorem setLineRec_published (line r) : Published o (setLineRec s line r) := published_upd h

theorem slWrite_published (line die) : Published o (slWrite s line die) := by
  unfold slWrite
  refine foldl_published (fun t e ht => ?_) (setLineRec_published h _ _) _
  dsimp only
  split
  · exact ht
  · exact ite_published (narrow_published ht _ _) ht

/-! ### Publishing -/

theorem pubWrite_published (core l c) : Published o (pubWrite s core l c) := slWrite_published (diePut_published h _ _ _ _ _ _ _) _ _
theorem dropCopy_published (c) : Published o (dropCopy s c) := published_upd h
theorem putCopy_published (c) : Published o (putCopy s c) := published_upd h
theorem relTake_published (line cp) : Published o (relTake s line cp).1 := published_upd h
theorem relPut_published (line mask l cp) : Published o (relPut s line mask l cp) := published_upd h
theorem newCopy_published (l core line f) : Published o (newCopy s l core line f).1 := published_upd h

theorem pubOut_published (c rs core t n l) : Published o (pubOut s c rs core t n l) := by
  induction n generalizing l with
  | zero => exact h
  | succ n ih =>
    unfold pubOut
    split
    · exact relPut_published (pubWrite_published h core 2 c) _ _ _ _
    · split
      · exact relPut_published (putCopy_published h _) _ _ _ _
      · exact ite_published (relPut_published (pubWrite_published h core l c) _ _ _ _)
          (ite_published (relPut_published (putCopy_published (newCopy_published h _ _ _ _) _) _ _ _ _) (ih (l + 1)))

theorem publish1_published (c t) : Published o (publish1 s c t) :=
  have hr := relTake_published (dropCopy_published h c) c.line (some (c.level, c.inst))
  ite_published hr (pubOut_published hr _ _ _ _ _ _)

theorem publishLevel_published (sel t l) : Published o (publishLevel s sel t l) := foldl_published (fun _ _ ht => publish1_published ht _ _) h _

theorem publishSel_published (sel t) : Published o (publishSel s sel t) :=
  foldl_published (fun _ l ht => publishLevel_published ht sel t l) h _

end

theorem publishOwn_published (s : State) (core t : Nat) : Published s (publishOwn s core t) := publishSel_published (Published.refl s) _ _

/-! ### Reading what was published -/

theorem smGet_map_bareSlot (m : SMap Job) (k : Nat) :
    smGet (m.map bareSlot) k = (smGet m k).map (fun j => (({ j with region := none } : Job), j.region.isSome)) := by
  induction m with
  | nil => rfl
  | cons e m ih =>
    obtain ⟨k', v⟩ := e
    simp only [List.map_cons, bareSlot, smGet]
    split
    · rfl
    · split
      · rfl
      · exact ih

section
variable {o t : State} (h : Published o t)
include h

/-- The job of a slot is what it was, but for its region's bounds. -/
theorem Published.jobAt {k : Nat} {j : Job} (hj : jobAt o k = some j) :
    ∃ r, Machine.jobAt t k = some { j with region := r } ∧ r.isSome = j.region.isSome := by
  have hm : smGet (t.jobs.map bareSlot) k = smGet (o.jobs.map bareSlot) k := by rw [h.jobs]
  rw [smGet_map_bareSlot, smGet_map_bareSlot, show smGet o.jobs k = some j from hj] at hm
  obtain ⟨q, hq, he⟩ := Option.map_eq_some_iff.mp hm
  injection he with h1 h2
  exact ⟨q.region, hq.trans (congrArg some (congrArg (fun x : Job => { x with region := q.region }) h1)), h2⟩

/-- A job outside regions is what it was. -/
theorem Published.jobAt_plain {k : Nat} {j : Job} (hj : Machine.jobAt o k = some j) (hr : j.region = none) : Machine.jobAt t k = some j := by
  obtain ⟨r, hq, hs⟩ := h.jobAt hj
  rw [hr] at hs
  obtain rfl : r = none := by simpa using hs
  rw [hq, ← hr]

theorem Published.launchAt (l : Nat) : launchAt t l = Machine.launchAt o l := by unfold Machine.launchAt; rw [h.launches]

end

end Sys2Proof.Machine
end

section
/-!
PROOFS, part 18. Fences and triggers: what a fence that retires leaves in the clocks of its to side, and TRIG (R131, R132, R134).
-/
namespace Sys2Proof.Machine

/-! ### The to side of a fence -/

theorem Job.clkOf_setClk_ne (j : Job) {p p' : Nat} (h : p' ≠ p) (c : PathClk) : (j.setClk p c).clkOf p' = j.clkOf p' := by
  simp [Job.clkOf, Job.setClk, List.getD, Ne.symm h]

/-- Path `p` has obtained the fence clock `v` at threshold `thr`: for stores, for loads unless the fence is a release, and as a release of at
least scope `sc` unless it is an acquire. -/
structure Obtained (j : Job) (p kind sc thr : Nat) (v : SMap VC) : Prop where
  ps : (thr, v) ∈ (j.clkOf p).ps
  pl : kind ≠ 2 → (thr, v) ∈ (j.clkOf p).pl
  rel : kind ≠ 1 → ∃ e ∈ (j.clkOf p).rel, e.1 ≤ thr ∧ sc ≤ e.2

theorem fenceTo_obtained (j : Job) {p : Nat} (h : p < 7) (kind sc thr : Nat) (v : SMap VC) : Obtained (j.fenceTo p kind sc thr v) p kind sc thr v := by
  refine ⟨?_, fun hk => ?_, fun hk => ?_⟩
  · simp [(j.clkOf_fenceTo h kind sc thr v).1]
  · simp [(j.clkOf_fenceTo h kind sc thr v).2, hk]
  · simp only [Job.fenceTo, Job.clkOf_setClk_self j h]
    split
    · rename_i hr
      simpa [hk] using hr
    · exact ⟨(thr, sc), by simp, le_refl _, le_refl _⟩

/-- A path keeps what it has obtained when another fence, or another path of the same one, obtains more. -/
theorem Obtained.fenceTo {j : Job} {p kind sc thr : Nat} {v : SMap VC} (h : Obtained j p kind sc thr v) (hp : p < 7) (p' kind' sc' thr' : Nat)
    (v' : SMap VC) : Obtained (j.fenceTo p' kind' sc' thr' v') p kind sc thr v := by
  by_cases e : p = p'
  · subst e
    refine ⟨?_, fun hk => ?_, fun hk => ?_⟩
    · rw [(j.clkOf_fenceTo hp kind' sc' thr' v').1]
      exact List.mem_append_left _ h.ps
    · rw [(j.clkOf_fenceTo hp kind' sc' thr' v').2]
      split
      · exact h.pl hk
      · exact List.mem_append_left _ (h.pl hk)
    · obtain ⟨e, he, h1, h2⟩ := h.rel hk
      refine ⟨e, ?_, h1, h2⟩
      simp only [Job.fenceTo, Job.clkOf_setClk_self j hp]
      split
      · exact he
      · exact List.mem_append_left _ he
  · have hc : (j.fenceTo p' kind' sc' thr' v').clkOf p = j.clkOf p := Job.clkOf_setClk_ne j e _
    exact ⟨hc ▸ h.ps, fun hk => hc ▸ h.pl hk, fun hk => hc ▸ h.rel hk⟩

/-- Where a path's words stand is the core's matter. -/
theorem issuedOn_congr {a b : Job} (h : a.core = b.core) (p : Nat) : issuedOn a p = issuedOn b p := by
  have he (e : EStream) : a.eng e = b.eng e := by cases e <;> simp only [Job.eng, h]
  have hs (st : Stream) : a.issuePos st = b.issuePos st := by simp only [Job.issuePos, h, he]
  unfold issuedOn
  split
  · exact hs _
  · rfl

/-- A fence gives its clock to the paths of its to side, one after the other. -/
def fenceGive (kind sc : Nat) (clk : SMap VC) (j : Job) (ps : List Nat) : Job :=
  ps.foldl (fun (j : Job) p => j.fenceTo p kind sc (issuedOn j p) clk) j

theorem fenceGive_sameBut (kind sc : Nat) (clk : SMap VC) (j : Job) (ps : List Nat) : (fenceGive kind sc clk j ps).SameBut j :=
  Job.sameBut_foldl _ (fun j p => j.sameBut_setClk p _) ps j

theorem Obtained.fenceGive {j : Job} {p kind sc thr : Nat} {v : SMap VC} (h : Obtained j p kind sc thr v) (hp : p < 7) (kind' sc' : Nat)
    (clk : SMap VC) (ps : List Nat) : Obtained (fenceGive kind' sc' clk j ps) p kind sc thr v := by
  induction ps generalizing j with
  | nil => exact h
  | cons q r ih => exact ih (h.fenceTo hp q kind' sc' _ clk)

theorem fenceGive_obtained (kind sc : Nat) (clk : SMap VC) {p : Nat} (hp : p < 7) (j : Job) {ps : List Nat} (h : p ∈ ps) :
    Obtained (fenceGive kind sc clk j ps) p kind sc (issuedOn j p) clk := by
  induction ps generalizing j with
  | nil => cases h
  | cons q r ih =>
    rcases List.mem_cons.mp h with rfl | h
    · exact (fenceTo_obtained j hp kind sc _ clk).fenceGive hp kind sc clk r
    · rw [← issuedOn_congr (j.sameBut_setClk q _).core p]
      exact ih (j.fenceTo q kind sc (issuedOn j q) clk) h

theorem maskPaths_lt {m p : Nat} (h : p ∈ maskPaths m) : p < 7 := List.mem_range.mp (List.mem_of_mem_filter h)

/-! ### A fence retires -/

section
variable {s : State} {k : Nat} {j : Job} {clk : SMap VC} {sc src dst kind : Nat}

/-- What a fence that retires leaves: what it has published, and a job of the same core whose to side has obtained the clock. -/
theorem fenceDone_spec (hj : jobAt s k = some j) (q0 : Job) : (fenceDone s k q0 clk sc src dst kind).1 = (if kind = 1 then s else publishOwn s (jCoreKey k) sc) ∧
    (fenceDone s k q0 clk sc src dst kind).2.core = j.core ∧
    ∀ p ∈ maskPaths dst, Obtained (fenceDone s k q0 clk sc src dst kind).2 p kind sc (issuedOn j p) clk := by
  have hpub : Published s (if kind = 1 then s else publishOwn s (jCoreKey k) sc) :=
    ite_published (Published.refl s) (publishOwn_published s _ _)
  obtain ⟨r, hr, -⟩ := hpub.jobAt hj
  have hseen (m : Job) : Job.SameBut (if kind = 2 then m else (maskPaths src).foldl (fun (j : Job) p => j.fenceSeen p sc (jCoreKey k)) m) m := by
    split
    · exact .refl m
    · exact Job.sameBut_foldl _ (fun j p => j.sameBut_setClk p _) _ m
  simp only [fenceDone, curJob, hr, Option.getD_some]
  generalize hm : (if kind = 2 then ({ j with region := r } : Job) else _) = m
  have hc : m.core = j.core := by rw [← hm]; exact (hseen _).core
  refine ⟨trivial, (fenceGive_sameBut kind sc clk m _).core.trans hc, fun p hp => ?_⟩
  rw [← issuedOn_congr hc p]
  exact fenceGive_obtained kind sc clk (maskPaths_lt hp) m hp

theorem fenceDone_fenced (hj : jobAt s k = some j) (q0 : Job) :
    Fenced s (retired (fenceDone s k q0 clk sc src dst kind).1 k j (fenceDone s k q0 clk sc src dst kind).2.next) k j clk sc dst kind := by
  obtain ⟨hs, hc, ho⟩ := fenceDone_spec (clk := clk) (sc := sc) (src := src) (dst := dst) (kind := kind) hj q0
  exact ⟨_, by rw [hs], hc, fun p hp => ⟨(ho p hp).ps, (ho p hp).pl, (ho p hp).rel⟩⟩

end

section
variable {s : State} {k : Nat} {j : Job} {sc : BitVec 3} {src dst : BitVec 8} {kind : BitVec 2}

/-- FENCE once the throws that it waits for have landed. -/
theorem execFence_landed {clk : SMap VC} (h : SReady s k j (if src ||| dst = 1 then sHnd else sJob) [])
    (ht : src.getLsbD 0 = true → kind ≠ 1 → throwsDone s j.uid = true)
    (hclk : fenceGather j (maskPaths src.toNat) kind.toNat sc.toNat (jCoreKey k) = clk) :
    exec (.fence sc src dst kind) s = .next (sFinish s k j (
      if (fenceNeed j src.toNat).isEmpty then
        .retire (fenceDone s k j clk sc.toNat src.toNat dst.toNat kind.toNat).1 (fenceDone s k j clk sc.toNat src.toNat dst.toNat kind.toNat).2.next
      else .wait s { j with pend := .fence (fenceNeed j src.toNat) clk sc.toNat src.toNat dst.toNat kind.toNat })) := by
  subst hclk
  show execFence sc src dst kind s = _
  refine (sExec_ready h rfl _).trans ?_
  have hc : ¬ (src.getLsbD 0 && kind.toNat != 1 && !throwsDone s j.uid) = true := by
    intro hc
    simp only [Bool.and_eq_true, bne_iff_ne, Bool.not_eq_true'] at hc
    obtain ⟨⟨h0, h1⟩, h2⟩ := hc
    rw [ht h0 (fun e => h1 (by rw [e]; rfl))] at h2
    cases h2
  simp only [if_neg hc]

theorem fence_waits_throws (h : SReady s k j (if src ||| dst = 1 then sHnd else sJob) []) (h0 : src.getLsbD 0 = true) (h1 : kind ≠ 1)
    (ht : throwsDone s j.uid = false) : Runs (.fence sc src dst kind) s s := by
  have hk : kind.toNat ≠ 1 := fun e => h1 (BitVec.eq_of_toNat_eq e)
  have hw : execFence sc src dst kind s = .next (setJob s k j) :=
    sExec_wait h rfl (if_pos (by simp only [h0, ht, Bool.true_and, Bool.not_false, Bool.and_true, bne_iff_ne]; exact hk))
  rwa [setJob_same h.here] at hw

end

/-- FENCE_RETIRE of a fence. -/
theorem execFenceRetire_pend {s : State} {k : Nat} {j : Job} {need : List (Nat × Nat)} {clk : SMap VC} {sc src dst kind : Nat}
    (hj : jobAt s k = some j) (hp : j.pend = .fence need clk sc src dst kind) :
    exec (.fenceRetire k) s = .next (if (!need.isEmpty) = true then s else sFinish s k j
      (.retire (fenceDone s k { j with pend := .none } clk sc src dst kind).1 (fenceDone s k { j with pend := .none } clk sc src dst kind).2.next)) := by
  show execFenceRetire k s = _
  simp only [execFenceRetire, hj, hp]
  split <;> rfl

/-- Settles O25: a fence waits for throws, then for words, and is done by `fenceDone`, at issue or by its event. -/
theorem fencesRetire : Obligations.FencesRetire := by
  refine ⟨fun s k j sc src dst kind h => ⟨fence_waits_throws h, fun ht => ⟨fun hn => ?_, fun hn => ?_⟩⟩,
    fun s k j need clk sc src dst kind hj hp => ⟨fun hn hseq => ?_, fun hn => ?_⟩⟩
  · refine ⟨_, (execFence_landed h ht rfl).trans ?_, fenceDone_fenced (src := src.toNat) h.here j⟩
    rw [hn, List.isEmpty_nil, if_pos rfl, sFinish_retire h.count]
  · refine (execFence_landed h ht rfl).trans ?_
    rw [if_neg (by simpa using hn)]
    rfl
  · refine ⟨_, (execFenceRetire_pend hj hp).trans ?_, fenceDone_fenced (src := src) hj { j with pend := .none }⟩
    rw [hn, if_neg (by simp), sFinish_retire hseq]
  · exact (execFenceRetire_pend hj hp).trans (by rw [if_pos (by simpa using hn)])

/-! ### TRIG -/

/-- A live job counts in its launch. -/
theorem markTriggered_live {s : State} {j : Job} {v : Launch} (hr : j.replay = none) (hv : launchAt s j.launch = some v) : markTriggered s j =
    setLaunch s j.launch { v with trig := if j.triggered then v.trig else v.trig + 1, vcTrig := vcJoin v.vcTrig (j.relClk 3) } := by
  simp only [markTriggered, hv, hr, Option.isSome_none, Bool.false_eq_true, if_false]

/-- Settles O29: a job outside regions is what it was once its release has published; the trigger is `markTriggered`. -/
theorem trigCountsOnce : Obligations.TrigCountsOnce := by
  intro s k j v h hr hv
  have hreg : j.region = none := h.region.resolve_right nofun
  have hpub := publishOwn_published s (jCoreKey k) 3
  refine ⟨fun ht => ?_, fun ht => ?_⟩
  · have hw : execTrig s = .next (setJob s k j) := sExec_wait h rfl (if_pos (by simp [ht]))
    rwa [setJob_same h.here] at hw
  · show execTrig s = _
    refine sExec_retire h rfl ?_
    have hl : launchAt (publishOwn s (jCoreKey k) 3) j.launch = some v := (hpub.launchAt _).trans hv
    simp only [ht, Bool.not_true, Bool.false_eq_true, if_false, curJob, hpub.jobAt_plain h.here hreg, Option.getD_some, markTriggered_live hr hl] <;> rfl

end Sys2Proof.Machine
end

section
/-!
PROOFS, part 19. Barriers: what an arrival enters, who departs, and the step in which a departed BARC retires (R138, R239).
-/
namespace Sys2Proof.Machine

/-! ### The barriers of a cluster -/

theorem barrierAt_congr {s t : State} (h : t.clusters = s.clusters) (cl launch id : Nat) : barrierAt t cl launch id = barrierAt s cl launch id := by
  unfold barrierAt clusterSt; rw [h]

theorem Published.barrierAt {o t : State} (h : Published o t) (cl launch id : Nat) : barrierAt t cl launch id = Machine.barrierAt o cl launch id :=
  barrierAt_congr h.clusters cl launch id

theorem barrierAt_key {s : State} {cl launch id : Nat} {b : Barrier} (h : barrierAt s cl launch id = some b) : b.launch = launch ∧ b.id = id := by
  simpa using List.find?_some h

/-- A barrier that was removed is not found, one that was written is. -/
theorem barrierAt_setBarrier (s : State) (cl launch id : Nat) {b : Option Barrier} (hb : ∀ x, b = some x → x.launch = launch ∧ x.id = id) :
    barrierAt (setBarrier s cl launch id b) cl launch id = b := by
  have hrest : ((clusterSt s cl).barriers.filter (fun b => !(b.launch == launch && b.id == id))).find?
      (fun b => b.launch == launch && b.id == id) = none := by
    rw [List.find?_eq_none]
    intro x hx
    simpa only [Bool.not_eq_true', Bool.not_eq_true] using (List.mem_filter.mp hx).2
  have hc (v : Cluster) : clusterSt (setCluster s cl v) cl = v := smGetD_smSet_self _ _ _ _
  unfold barrierAt setBarrier
  rw [hc]
  cases b with
  | none => exact hrest
  | some x =>
    obtain ⟨h1, h2⟩ := hb x rfl
    have hx : (x.launch == launch && x.id == id) = true := by simp [h1, h2]
    simp only [List.find?_append, hrest, Option.none_or, List.find?_cons, hx]

/-- The barrier at which a job has arrived: it opens a generation, is entered in the one it belongs to, or waits for the next. -/
def joined (s : State) (k : Nat) (j : Job) (id : Nat) : Barrier :=
  match barrierAt s (jCluster k) j.launch id with
  | none => ⟨j.launch, id, launchJobs s (jCluster k) j.launch, [(j.uid, j.relClk 1)], []⟩
  | some b => if b.parts.contains j.uid then { b with arrived := smSet b.arrived j.uid (j.relClk 1) }
      else { b with later := smSet b.later j.uid (j.relClk 1) }

theorem arrive_eq (s : State) (k : Nat) (j : Job) (id : Nat) : arrive s k j id = setBarrier s (jCluster k) j.launch id (some (joined s k j id)) := by
  cases hb : barrierAt s (jCluster k) j.launch id with
  | none => simp only [arrive, joined, hb]
  | some b => simp only [arrive, joined, hb]; split <;> rfl

theorem joined_key (s : State) (k : Nat) (j : Job) (id : Nat) : (joined s k j id).launch = j.launch ∧ (joined s k j id).id = id := by
  cases hb : barrierAt s (jCluster k) j.launch id with
  | none => simp only [joined, hb, and_self]
  | some b =>
    obtain ⟨h1, h2⟩ := barrierAt_key hb
    simp only [joined, hb]
    split <;> exact ⟨h1, h2⟩

theorem arrive_jobs (s : State) (k : Nat) (j : Job) (id : Nat) : (arrive s k j id).jobs = s.jobs := by
  rw [arrive_eq]
  rfl

theorem barrierAt_arrive (s : State) (k : Nat) (j : Job) (id : Nat) :
    barrierAt (arrive s k j id) (jCluster k) j.launch id = some (joined s k j id) := by
  rw [arrive_eq]
  exact barrierAt_setBarrier s _ _ _ fun x hx => Option.some.inj hx ▸ joined_key s k j id

/-- The jobs of a launch in a cluster are the same once a release has published. -/
theorem Published.launchJobs {o t : State} (h : Published o t) (cl launch : Nat) : launchJobs t cl launch = Machine.launchJobs o cl launch := by
  have hb (s : State) : Machine.launchJobs s cl launch =
      ((s.jobs.map bareSlot).filter (fun e => jCluster e.1 == cl && e.2.1.launch == launch)).map (fun e => e.2.1.uid) := by
    simp [Machine.launchJobs, List.filter_map, Function.comp_def, bareSlot]
  rw [hb, hb, h.jobs]

/-! ### BARC -/

theorem barc_traps {s : State} {k : Nat} {j : Job} {i : BitVec 4} (h : SReady s k j sJob []) (hi : j.nBar ≤ i.toNat) :
    Runs (.barc i) s (takeTrap s k .S 0x02 i.toNat) := by
  show execBarc i s = _
  refine sExec_dec h.turn h.here h.level ?_
  simp [sDecode, Job.sBad, Nat.not_lt.mpr hi]

/-- BARC of a declared barrier, outside regions and replays. -/
theorem barc_parks {s : State} {k : Nat} {j : Job} {i : BitVec 4} (h : SReady s k j sJob []) (hi : i.toNat < j.nBar) (hr : j.replay = none) :
    Runs (.barc i) s (passSlot (setJob (arrive (publishOwn s (jCoreKey k) 1) k j i.toNat) k { j with pend := .barc i.toNat }) k) := by
  have hj := (publishOwn_published s (jCoreKey k) 1).jobAt_plain h.here (h.region.resolve_right nofun)
  show execBarc i s = _
  refine sExec_done h (if_pos hi) ?_
  simp only [hr, Option.isSome_none, Bool.false_eq_true, if_false, curJob, hj, Option.getD_some]

/-! ### Departing -/

theorem wakeSlot_jobs (s : State) (k : Nat) : (wakeSlot s k).jobs = s.jobs := by
  unfold wakeSlot
  extract_lets c free
  split <;> rfl

theorem wakeSlot_clusters (s : State) (k : Nat) : (wakeSlot s k).clusters = s.clusters := by
  unfold wakeSlot
  extract_lets c free
  split <;> rfl

theorem passSlot_clusters (s : State) (k : Nat) : (passSlot s k).clusters = s.clusters := by
  unfold passSlot
  extract_lets c
  split <;> rfl

/-- The job as it departs from its barrier; a job that waits at none stays. -/
def departed (v : VC) (j : Job) : Job :=
  match j.pend with
  | .barc _ => { j.clkJoin 0 v with pend := .departed }
  | _ => j

theorem departed_of_barc {v : VC} {j : Job} {n : Nat} (h : j.pend = .barc n) : departed v j = { j.clkJoin 0 v with pend := .departed } := by
  simp only [departed, h]

/-- Who has departed does not depart again. -/
theorem departed_departed (v : VC) (j : Job) : departed v (departed v j) = departed v j := by
  cases hp : j.pend with
  | barc n => rw [departed_of_barc hp]; rfl
  | _ =>
    have h : departed v j = j := by simp only [departed, hp]
    rw [h, h]

/-- The slots and the jobs that sit in them. -/
def slotUids (s : State) : List (Nat × Nat) := s.jobs.map (fun e => (e.1, e.2.uid))

theorem slotOf_congr {s t : State} (h : slotUids t = slotUids s) (uid : Nat) : slotOf t uid = slotOf s uid := by
  have hb (s : State) : slotOf s uid = ((slotUids s).find? (fun e => e.2 == uid)).map (·.1) := by
    simp [slotOf, slotUids, List.find?_map, Function.comp_def]
  rw [hb, hb, h]

/-- A job put in the place of one of the same number. -/
theorem slotUids_setJob {s : State} {k : Nat} {j q : Job} (hj : jobAt s k = some j) (hq : q.uid = j.uid) : slotUids (setJob s k q) = slotUids s := by
  suffices H : ∀ m : SMap Job, smGet m k = some j → (smSet m k q).map (fun e => (e.1, e.2.uid)) = m.map (fun e => (e.1, e.2.uid)) from
    H s.jobs hj
  intro m hm
  induction m with
  | nil => cases hm
  | cons e m ih =>
    obtain ⟨k', v⟩ := e
    simp only [smGet] at hm
    split at hm
    · rename_i hk
      cases hm
      subst hk
      simp [smSet, hq]
    · split at hm
      · cases hm
      · simp only [smSet, if_neg (by assumption : ¬k < k'), if_neg (by omega : ¬k = k'), List.map_cons, ih hm]

theorem depart_clusters (s : State) (uid : Nat) (v : VC) : (depart s uid v).clusters = s.clusters := by
  unfold depart
  split
  · rfl
  · split
    · rfl
    · split
      · exact wakeSlot_clusters _ _
      · rfl

/-- Departing changes the job of one slot. -/
theorem depart_spec {s : State} {uid k : Nat} {j : Job} (v : VC) (hk : slotOf s uid = some k) (hj : jobAt s k = some j) :
    slotUids (depart s uid v) = slotUids s ∧ jobAt (depart s uid v) k = some (departed v j) ∧ ∀ n, n ≠ k → jobAt (depart s uid v) n = jobAt s n := by
  simp only [depart, hk, hj]
  cases hp : j.pend with
  | barc m =>
    rw [departed_of_barc hp]
    have hw := wakeSlot_jobs (setJob s k { j.clkJoin 0 v with pend := .departed }) k
    refine ⟨?_, ?_, fun n hn => ?_⟩
    · unfold slotUids
      rw [hw]
      exact slotUids_setJob hj rfl
    · rw [jobAt_congr hw, jobAt_setJob_self]
    · rw [jobAt_congr hw, jobAt_setJob_ne s _ hn]
  | _ => exact ⟨rfl, by simp only [departed, hp, hj], fun _ _ => rfl⟩

theorem depart_same {s : State} {uid : Nat} (v : VC) (h : ∀ k, slotOf s uid = some k → jobAt s k = none) : depart s uid v = s := by
  unfold depart
  split
  · rfl
  · rename_i k hk
    rw [h k hk]

/-- After some jobs have departed, the job of a slot is what it was or has departed; it has when one of them sits there. -/
theorem jobAt_departs (v : VC) (l : List (Nat × VC)) {s : State} {k : Nat} {j : Job} (hj : jobAt s k = some j) :
    ∃ q, jobAt (l.foldl (fun s e => depart s e.1 v) s) k = some q ∧ (q = j ∨ q = departed v j) ∧
      ((∃ e ∈ l, slotOf s e.1 = some k) → q = departed v j) := by
  induction l generalizing s j with
  | nil => exact ⟨j, hj, .inl rfl, by simp⟩
  | cons e r ih =>
    rw [List.foldl_cons]
    cases hk : slotOf s e.1 with
    | none =>
      rw [depart_same v (by simp [hk])]
      obtain ⟨q, h1, h2, h3⟩ := ih hj
      exact ⟨q, h1, h2, fun ⟨x, hx, hs⟩ => h3 ⟨x, (List.mem_cons.mp hx).resolve_left (by rintro rfl; simp [hk] at hs), hs⟩⟩
    | some k' =>
      cases hj' : jobAt s k' with
      | none =>
        rw [depart_same v (by simp [hk, hj'])]
        obtain ⟨q, h1, h2, h3⟩ := ih hj
        refine ⟨q, h1, h2, fun ⟨x, hx, hs⟩ => h3 ⟨x, (List.mem_cons.mp hx).resolve_left ?_, hs⟩⟩
        rintro rfl
        rw [hk] at hs
        cases hs
        rw [hj] at hj'
        cases hj'
      | some j' =>
        obtain ⟨hu, hself, hne⟩ := depart_spec v hk hj'
        by_cases e' : k = k'
        · subst e'
          obtain rfl : j = j' := by rw [hj] at hj'; exact Option.some.inj hj'
          obtain ⟨q, h1, h2, -⟩ := ih hself
          rw [departed_departed, or_self] at h2
          exact ⟨q, h1, .inr h2, fun _ => h2⟩
        · obtain ⟨q, h1, h2, h3⟩ := ih ((hne k e').trans hj)
          refine ⟨q, h1, h2, fun ⟨x, hx, hs⟩ => h3 ⟨x, (List.mem_cons.mp hx).resolve_left ?_, (slotOf_congr hu _).trans hs⟩⟩
          rintro rfl
          rw [hk] at hs
          exact e' (Option.some.inj hs).symm

theorem foldl_departs_clusters (v : VC) (l : List (Nat × VC)) (s : State) : (l.foldl (fun s e => depart s e.1 v) s).clusters = s.clusters := by
  induction l generalizing s with
  | nil => rfl
  | cons e r ih => exact (ih _).trans (depart_clusters s e.1 v)

theorem rearrive_jobs (s : State) (uid id : Nat) : (rearrive s uid id).jobs = s.jobs := by
  unfold rearrive
  split
  · split
    · exact arrive_jobs _ _ _ _
    · rfl
  · rfl

/-! ### BARRIER_COMPLETE -/

theorem execBarrierComplete_at {s : State} {cl launch id : Nat} {b : Barrier} (h : barrierAt s cl launch id = some b) :
    exec (.barrierComplete cl launch id) s = .next (if b.parts.all (fun u => (smGet b.arrived u).isSome) then
      b.later.foldl (fun s e => rearrive s e.1 id) (b.arrived.foldl (fun s e => depart s e.1 b.vc) (setBarrier s cl launch id none)) else s) := by
  show execBarrierComplete cl launch id s = _
  simp only [execBarrierComplete, h]
  split <;> rfl

/-! ### A departed BARC -/

/-- The S of a departed job, once it has the slot, retires the BARC at the next PC. -/
theorem step_departed {s s0 s2 : State} {k : Nat} {j : Job} (ha : takeAction s = (.run k .S, s0))
    (hs : takeSlot { s0 with turnJob := k, turn := .S } k = some s2) (hj : jobAt s0 k = some j) (hrun : j.phase = .running)
    (hp : j.pend = .departed) (hpast : j.replayPast .S = false) (hw : traceStall { s0 with turnJob := k, turn := .S } j .S = false)
    (hseq : j.core.S.seq < seqMax) : step s = .next (retired s2 k j j.next) := by
  have hj0 : jobAt { s0 with turnJob := k, turn := .S } k = some j := hj
  have hm : j.mayIssue .S = true := by simp [Job.mayIssue, Stream.toEng, hrun, hp]
  have ht : takeTurn { s0 with turnJob := k, turn := .S } k .S = some s2 := hs
  simp only [step, planStep, ha, planAction, planStream, hj0, hm, hw, hpast, ht, hp, Bool.not_true, Bool.or_self, Bool.false_eq_true, if_false,
    and_self, if_true, sFinish_retire hseq]

/-- Settles O31: an arrival is entered and its job parks; when a barrier is complete each arrival departs; the step of a departed S retires it. -/
theorem barrierArrivesAndCompletes : Obligations.BarrierArrivesAndCompletes := by
  refine ⟨fun s k j i h => ⟨barc_traps h, fun hi hr => ⟨_, barc_parks h hi hr, ?_, ?_⟩⟩, fun s cl launch id b hb => ⟨fun ha => ?_, fun ha => ?_⟩,
    fun s s0 s2 k j ha hs hj hrun hp hpast hw hseq => step_departed ha hs hj hrun hp hpast hw hseq⟩
  · rw [jobAt_congr (passSlot_jobs _ _), jobAt_setJob_self]
  · have hpub := publishOwn_published s (jCoreKey k) 1
    rw [barrierAt_congr (passSlot_clusters _ _), barrierAt_congr (setJob_clusters _ _ _), barrierAt_arrive, joined, hpub.barrierAt, hpub.launchJobs]
    cases hb : barrierAt s (jCluster k) j.launch i.toNat with
    | none => rfl
    | some b => rfl
  · exact (execBarrierComplete_at hb).trans (by rw [if_neg (by simp [ha])])
  · refine ⟨_, (execBarrierComplete_at hb).trans (by rw [if_pos ha]), fun hl => ?_, fun e he k j n hk hj hp => ?_⟩
    · rw [hl, List.foldl_nil, barrierAt_congr (foldl_departs_clusters _ _ _)]
      exact barrierAt_setBarrier s cl launch id (by simp)
    · rw [jobAt_congr (foldl_jobs _ (fun s e => rearrive_jobs s _ _) _ _)]
      have hj' : jobAt (setBarrier s cl launch id none) k = some j := hj
      obtain ⟨q, hq, -, hd⟩ := jobAt_departs b.vc b.arrived hj'
      rw [hq, hd ⟨e, he, hk⟩, departed_of_barc hp]

end Sys2Proof.Machine
end

section
/-!
PROOFS, part 20. RBEG, RABT, RBND and RCOM (R139 to R141, R300).
-/
namespace Sys2Proof.Machine

/-! ### Edges that an abort drops -/

/-- The job of a slot as the drop of the edges of slot `k`'s region leaves it. -/
def Job.withoutEdges (k : Nat) (j : Job) : Job :=
  { j with region := j.region.map (fun q => { q with succ := q.succ.filter (· != k), pred := q.pred.filter (· != k) }) }

theorem smGet_map_snd {α β : Type} (f : α → β) (m : SMap α) (k : Nat) : smGet (m.map (fun e => (e.1, f e.2))) k = (smGet m k).map f := by
  induction m with
  | nil => rfl
  | cons e m ih =>
    obtain ⟨k', v⟩ := e
    simp only [List.map_cons, smGet]
    split
    · rfl
    · split
      · rfl
      · exact ih

theorem jobAt_dropEdges (s : State) (k n : Nat) : jobAt (dropEdges s k) n = (jobAt s n).map (Job.withoutEdges k) :=
  smGet_map_snd (Job.withoutEdges k) s.jobs n

/-- No region has an edge with slot `k`'s any more. -/
theorem not_mem_of_withoutEdges {k : Nat} {j : Job} {r : Region} (h : (j.withoutEdges k).region = some r) : k ∉ r.succ ∧ k ∉ r.pred := by
  obtain ⟨q, -, rfl⟩ := Option.map_eq_some_iff.mp h
  simp

theorem abortRegion_fst_of_some {j : Job} {r : Region} (h : j.region = some r) (s : State) (k cause : Nat) :
    (abortRegion s k j cause).1 = dropEdges s k := by
  simp only [abortRegion, h]

section
variable {s : State} {k : Nat} {j : Job}

/-! ### RBEG -/

/-- The region that RBEG opens. -/
def openRegion (s : State) (k : Nat) (hpc : Word) : Region := ⟨hpc, [], [], [], (dieSt s (jDie k)).g.toNat, 2 ^ 48 - 1, [], [], s.fresh, none, [], []⟩

/-- The job in its new region. -/
def Job.opened (j : Job) (r : Region) : Job :=
  ({ j with region := some r, core := { j.core with rstat := rstatActive } } : Job).setBounds r.lo r.hi

theorem rbeg_opens {o : BitVec 26} (h : SReady s k j sJob []) (h0 : s.rebasing = false) (h1 : rebaseDue s = false) :
    Runs (.rbeg o) s (retired (publishOwn s (jCoreKey k) 3) k j
      (j.opened (openRegion (publishOwn s (jCoreKey k) 3) k (j.pc + o.signExtend 64 * 4))).next) := by
  have hj := (publishOwn_published s (jCoreKey k) 3).jobAt_plain h.here (h.region.resolve_right nofun)
  show execRbeg o s = _
  refine sExec_retire h rfl ?_
  simp only [h0, h1, Bool.or_self, Bool.false_eq_true, if_false, hj, Option.getD_some] <;> rfl

theorem rbeg_waits {o : BitVec 26} (h : SReady s k j sJob []) (h0 : s.rebasing = true ∨ rebaseDue s = true) : Runs (.rbeg o) s s := by
  have hw : execRbeg o s = .next (setJob s k j) := sExec_wait h rfl (if_pos (by simpa using h0))
  rwa [setJob_same h.here] at hw

/-! ### RABT -/

theorem rabt_aborts {c : BitVec 8} {r : Region} (h : SReady s k j sReg []) (hr : j.region = some r) :
    Runs (.rabt c) s (retired (dropEdges s k) k j
      (({ j with region := none, core := { j.core with rstat := BitVec.ofNat 64 (c.toNat * 256 + 4) } } : Job).setPc r.hpc)) := by
  show execRabt c s = _
  refine sExec_retire h rfl ?_
  simp only [hr, Option.isNone_some, Bool.false_eq_true, if_false, abortRegion_of_some hr, abortRegion_fst_of_some hr] <;> rfl

theorem rabt_traps {c : BitVec 8} (h : SReady s k j sReg []) (hr : j.region = none) : Runs (.rabt c) s (takeTrap s k .S 0x10 0) := by
  show execRabt c s = _
  exact sExec_trap h rfl (if_pos (by simp [hr]))

/-! ### RCOM -/

/-- Bounds of a region at the record holders that the core's contain are the bounds the core learns. -/
theorem Job.learn_inside {lo hi : Nat} (h1 : j.core.rlo.toNat ≤ lo) (h2 : hi ≤ j.core.rhi.toNat) : j.learn lo hi = j.setBounds lo hi := by
  simp only [Job.learn, Nat.max_eq_right h1, Nat.min_eq_right h2]

theorem Job.crossed_setBounds {lo hi : Nat} (h1 : lo < 2 ^ 48) (h2 : hi < 2 ^ 48) : (j.setBounds lo hi).crossed = decide (hi < lo) := by
  simp only [Job.crossed, Job.setBounds, BitVec.toNat_ofNat, Nat.mod_eq_of_lt h1, Nat.mod_eq_of_lt h2]

/-- What the core of a region learns at RCOM. -/
theorem learnOwn_of_region {r : Region} (hj : jobAt s k = some j) (hr : j.region = some r) (h1 : j.core.rlo.toNat ≤ r.lo)
    (h2 : r.hi ≤ j.core.rhi.toNat) (h3 : r.lo < 2 ^ 48) (h4 : r.hi < 2 ^ 48) : learnOwn s k =
      if r.hi < r.lo then abortAt (setJob s k (j.setBounds r.lo r.hi)) k 1 else setJob s k (j.setBounds r.lo r.hi) := by
  simp only [learnOwn, hj, Option.bind_some, hr, learnAt, Option.isNone_some, Bool.false_eq_true, if_false, Job.learn_inside h1 h2,
    Job.crossed_setBounds h3 h4, decide_eq_true_eq]

/-- The job of a region that aborts. -/
theorem jobAt_abortAt {r : Region} (hj : jobAt s k = some j) (hr : j.region = some r) (cause : Nat) : jobAt (abortAt s k cause) k =
    some { ({ j with region := none, core := { j.core with rstat := rstatAbort j.core.rstat cause } } : Job).setPc r.hpc with pend := .none } := by
  simp only [abortAt, hj, hr, Option.isSome_some, if_true, jobAt_setJob_self, abortRegion_of_some hr]

variable {r : Region} {d : BitVec 6} (h : SReady s k j sReg [d]) (hr : j.region = some r) (h1 : j.core.rlo.toNat ≤ r.lo)
  (h2 : r.hi ≤ j.core.rhi.toNat) (h3 : r.lo < 2 ^ 48) (h4 : r.hi < 2 ^ 48)
include h hr h1 h2 h3 h4

theorem rcom_waits (hi : r.lo ≤ r.hi) : ∃ t, Runs (.rcom d) s t ∧ jobAt t k = some { j.setBounds r.lo r.hi with pend := .commit d } := by
  refine ⟨setJob (learnOwn s k) k { j.setBounds r.lo r.hi with pend := .commit d }, ?_, jobAt_setJob_self _ _ _⟩
  have hl := learnOwn_of_region h.here hr h1 h2 h3 h4
  rw [if_neg (Nat.not_lt.mpr hi)] at hl
  have hj : jobAt (learnOwn s k) k = some (j.setBounds r.lo r.hi) := by rw [hl, jobAt_setJob_self]
  have hg : regionAt (learnOwn s k) k = some r := by rw [regionAt, hj]; exact hr
  show execRcom d s = _
  refine sExec_wait h rfl ?_
  simp only [hr, Option.isNone_some, Bool.false_eq_true, if_false, hg, hj, Option.getD_some]

theorem rcom_aborts (hi : r.hi < r.lo) : ∃ t, Runs (.rcom d) s t ∧ jobAt t k = some { ({ j.setBounds r.lo r.hi with
    region := none, core := { (j.setBounds r.lo r.hi).core with rstat := rstatAbort j.core.rstat 1 } } : Job).setPc r.hpc with pend := .none } := by
  have hl := learnOwn_of_region h.here hr h1 h2 h3 h4
  rw [if_pos hi] at hl
  have hj := jobAt_abortAt (jobAt_setJob_self s k (j.setBounds r.lo r.hi)) hr 1
  rw [← hl] at hj
  have hg : regionAt (learnOwn s k) k = none := by rw [regionAt, hj]; rfl
  refine ⟨learnOwn s k, ?_, hj⟩
  show execRcom d s = _
  refine sExec_done h rfl ?_
  simp only [hr, Option.isNone_some, Bool.false_eq_true, if_false, hg]

end

/-- Settles O32: each instruction's branch, with what publishing, the abort action and the learning of bounds leave. -/
theorem regionInstructions : Obligations.RegionInstructions := by
  intro s k j o c d
  refine ⟨fun h h0 h1 => ?_, fun h h0 => rbeg_waits h h0, fun h r hr => ?_, fun h => ⟨?_, ?_⟩, fun h r hr h1 h2 h3 h4 => ⟨fun hi => ?_, fun hi => ?_⟩,
    fun h hr => ⟨?_, rabt_traps (h.sub (by simp)) hr⟩⟩
  · have hg := (publishOwn_published s (jCoreKey k) 3).g (jDie k)
    refine ⟨_, _, _, rbeg_opens h h0 h1, jobAt_retired_self _ _ _ _, rfl, rfl, rfl, rfl, rfl, rfl, rfl, rfl, rfl, congrArg BitVec.toNat hg, rfl, ?_,
      (by decide : BitVec.ofNat 48 (2 ^ 48 - 1) = BitVec.allOnes 48), rfl, jobAt_retired_self _ _ _ _, rfl, rfl⟩
    show BitVec.ofNat 48 (dieSt (publishOwn s (jCoreKey k) 3) (jDie k)).g.toNat = _
    rw [hg, BitVec.ofNat_toNat, BitVec.setWidth_eq]
  · refine ⟨_, _, rabt_aborts h hr, jobAt_retired_self _ _ _ _, rfl, rfl, rfl, rfl, fun _ => rfl, fun k' q r' hk hq hr' => ?_⟩
    rw [jobAt_retired_ne _ _ _ hk, jobAt_dropEdges] at hq
    obtain ⟨q0, -, rfl⟩ := Option.map_eq_some_iff.mp hq
    exact not_mem_of_withoutEdges hr'
  · show execRbndLo d s = _
    exact sExec_retire h rfl rfl
  · show execRbndHi d s = _
    exact sExec_retire h rfl rfl
  · obtain ⟨t, ht, hj⟩ := rcom_waits h hr h1 h2 h3 h4 hi
    exact ⟨t, _, ht, hj, rfl, rfl, hr⟩
  · obtain ⟨t, ht, hj⟩ := rcom_aborts h hr h1 h2 h3 h4 hi
    exact ⟨t, _, ht, hj, rfl, rfl, rfl, rfl⟩
  · show execRcom d s = _
    exact sExec_trap h rfl (if_pos (by simp [hr]))

end Sys2Proof.Machine
end

section
/-!
PROOFS, part 21. Firmware services of a handler, REPLAY and ERET (R147, R148, R371, R374, R431, R437, R444).
-/
namespace Sys2Proof.Machine

/-! ### A service returns -/

section
variable {s : State} {k : Nat} {j : Job} (h : SReady s k j sHnd []) (hl : j.level = .handler)
include h hl

theorem serviceHold_serves {s' : State} {v imm : Nat} {hold : Job → Bool} {f : Nat → Job → State × Option Nat} (hh : hold j = false)
    (hf : f k j = (s', some v)) : serviceHold s imm hold f = .next (retired s' k j ((curJob s' k j).setS 8 (BitVec.ofNat 64 v)).next) := by
  refine sExec_retire h rfl ?_
  rw [if_neg (by simp [hl]), if_neg (by simp [hh]), hf]

theorem serviceHold_waits {imm : Nat} {hold : Job → Bool} (hh : hold j = true) (f : Nat → Job → State × Option Nat) :
    serviceHold s imm hold f = .next s := by
  have hw : serviceHold s imm hold f = .next (setJob s k j) := by
    refine sExec_wait h rfl ?_
    rw [if_neg (by simp [hl]), if_pos hh]
  rwa [setJob_same h.here] at hw

theorem trap_serves (i : BitVec 20) : Serves (.trap i) s k j s (2 ^ 64 - 1) := by
  show execTrap i s = _
  exact serviceHold_serves h hl (f := fun k j => noService k j s) rfl rfl

theorem unassigned_serves (i : BitVec 20) : Serves (.unassignedFirmwareService i) s k j s (2 ^ 64 - 1) := by
  show execUnassignedFirmwareService i s = _
  exact serviceHold_serves h hl (f := fun k j => noService k j s) rfl rfl

/-- SET_WATCHPOINT outside a page move answers what `setWatch` does. -/
theorem setWatchpoint_serves {s' : State} {v : Nat} (hz : frozenPage s j.fdom (j.arg 9) = false)
    (hw : setWatch s j.fdom (j.arg 8) (j.arg 9) (j.arg 10) (j.arg 11) = (s', v)) : Serves .setWatchpoint s k j s' v := by
  show execSetWatchpoint s = _
  refine serviceHold_serves h hl hz ?_
  rw [hw]

theorem setWatchpoint_waits (hz : frozenPage s j.fdom (j.arg 9) = true) : Runs .setWatchpoint s s := by
  show execSetWatchpoint s = _
  exact serviceHold_waits h hl hz _

/-- ATTESTATION_REPORT outside a page move answers what `attest` does. -/
theorem attestationReport_serves {s' : State} {v : Nat} (hz : attestMoves s j.fdom (j.arg 8) (j.arg 9) (j.arg 10) (j.arg 11) = false)
    (hw : attest s j.fdom (j.arg 8) (j.arg 9) (j.arg 10) (j.arg 11) = (s', v)) : Serves .attestationReport s k j s' v := by
  show execAttestationReport s = _
  refine serviceHold_serves h hl hz ?_
  rw [hw]

theorem attestationReport_waits (hz : attestMoves s j.fdom (j.arg 8) (j.arg 9) (j.arg 10) (j.arg 11) = true) : Runs .attestationReport s s := by
  show execAttestationReport s = _
  exact serviceHold_waits h hl hz _

end

/-! ### What SET_WATCHPOINT sets -/

/-- A comparator as SET_WATCHPOINT writes it: cleared for `ctl` 0, else the lines of the range at `pa` for domain `f`. -/
def Watch.written (w : Watch) (f pa first last ctl : Nat) : Watch :=
  if ctl = 0 then { w with base := 0, lim := 0, ctl := 0 }
  else { w with base := BitVec.ofNat 64 (pa / 64 * 64 + 1), lim := BitVec.ofNat 64 ((pa + (last - first)) / 64 * 64),
                ctl := BitVec.ofNat 64 (f * 2 ^ 40 + ctl) }

/-- Comparator `n` of M-die `m` is written. -/
def putWatch (s : State) (m n : Nat) (w : Watch) : State := setMdie s m { mdieSt s m with watch := (mdieSt s m).watch.setIfInBounds n w }

section
variable {s : State} {f n first last ctl : Nat}

theorem setWatch_bad (h : 15 < n ∨ first / 4096 ≠ last / 4096 ∨ last < first ∨ 128 ≤ ctl) : setWatch s f n first last ctl = (s, 1) := if_pos h

variable (hn : n ≤ 15) (hp : first / 4096 = last / 4096) (ho : first ≤ last) (hc : ctl < 128)
include hn hp ho hc

theorem setWatch_unmapped {c : Nat} (ht : translate s f true first .read = .fail c) : setWatch s f n first last ctl = (s, 2) := by
  unfold setWatch
  rw [if_neg (by omega)]
  simp only [ht]

variable {pa m : Nat} (ht : translate s f true first .read = .ok pa) (hm : homeMdie s pa = some m)
include ht hm

theorem setWatch_taken (hb : ((mdieSt s m).watch.toList.getD n Watch.reset).base.getLsbD 0 = true)
    (hf : bits ((mdieSt s m).watch.toList.getD n Watch.reset).ctl.toNat 40 12 ≠ f) : setWatch s f n first last ctl = (s, 3) := by
  unfold setWatch
  rw [if_neg (by omega)]
  simp only [ht, hm]
  rw [if_pos (by rw [hb]; simpa using hf)]

theorem setWatch_sets (hf : ((mdieSt s m).watch.toList.getD n Watch.reset).base.getLsbD 0 = false ∨
    bits ((mdieSt s m).watch.toList.getD n Watch.reset).ctl.toNat 40 12 = f) : setWatch s f n first last ctl =
      (putWatch s m n (((mdieSt s m).watch.toList.getD n Watch.reset).written f pa first last ctl), 0) := by
  unfold setWatch
  rw [if_neg (by omega)]
  simp only [ht, hm]
  rw [if_neg (by rcases hf with hf | hf <;> rw [hf] <;> simp only [Bool.false_and, bne_self_eq_false, Bool.and_false, Bool.false_eq_true, not_false_eq_true])]
  rfl

end

/-- Reading the comparator that was written. -/
theorem watch_putWatch {n : Nat} (hn : n ≤ 15) (s : State) (m : Nat) (w : Watch) :
    (mdieSt (putWatch s m n w) m).watch.toList.getD n Watch.reset = w := by
  have hm (v : MDieSt) : mdieSt (setMdie s m v) m = v := smGetD_smSet_self _ _ _ _
  have hlt : n < 16 := by omega
  simp [putWatch, hm, List.getD, hlt]

/-! ### ATTESTATION_REPORT -/

section
variable {s : State} {f nonce buf opt entry : Nat}

theorem attest_bad (h : buf % 64 ≠ 0 ∨ 1 < opt ∨ canRead s f nonce 64 = false ∨ canWrite s f buf 640 = false) :
    attest s f nonce buf opt entry = (s, 1) := if_pos h

variable (hb : buf % 64 = 0) (hr : canRead s f nonce 64 = true) (hw : canWrite s f buf 640 = true)
include hb hr hw

theorem attest_plain : attest s f nonce buf 0 entry = (writeReport s f buf (reportBody s f (virtBytes s f nonce 64) none), 0) := by
  unfold attest
  rw [if_neg (by simp [hb, hr, hw]), if_pos rfl]

theorem attest_no_entry (he : entryOk s f entry = false ∨ genUsable s f entry (wtCur s f entry) = false) : attest s f nonce buf 1 entry = (s, 2) := by
  unfold attest
  rw [if_neg (by simp [hb, hr, hw]), if_neg (by decide)]
  exact if_pos (by rcases he with he | he <;> simp [he])

variable (he : entryOk s f entry = true) (hg : genUsable s f entry (wtCur s f entry) = true)
include he hg

theorem attest_entry : attest s f nonce buf 1 entry =
    if shardsOk s f (shardList s f (genAddr s f entry (wtCur s f entry))) then
      (writeReport s f buf (reportBody s f (virtBytes s f nonce 64)
        (some (entry, wtCur s f entry, shardList s f (genAddr s f entry (wtCur s f entry))))), 0)
    else (s, 3) := by
  unfold attest
  rw [if_neg (by simp [hb, hr, hw]), if_neg (by decide)]
  simp only [he, hg, Bool.not_true, Bool.or_self, Bool.false_eq_true, if_false]
  cases shardsOk s f (shardList s f (genAddr s f entry (wtCur s f entry))) <;> rfl

end

/-! ### A job resumes -/

/-- `j'` differs from `j` in its queues, its engine streams and what they know, alone. -/
def EnginesOnly (j j' : Job) : Prop :=
  ∃ q w l x t, j' = { j with core := { j.core with Q := q, wk := w, L := l, X := x, T := t } }

theorem EnginesOnly.trans {a b c : Job} (h : EnginesOnly a b) (g : EnginesOnly b c) : EnginesOnly a c := by
  obtain ⟨q, w, l, x, t, rfl⟩ := h
  obtain ⟨q', w', l', x', t', rfl⟩ := g
  exact ⟨q', w', l', x', t', rfl⟩

theorem QueuesOnly.engines {a b : Job} (h : QueuesOnly a b) : EnginesOnly a b := by
  obtain ⟨q, w, rfl⟩ := h
  exact ⟨q, w, _, _, _, rfl⟩

theorem setEng_engines (j : Job) (e : EStream) (g : Eng) : EnginesOnly j (j.setEng e g) := by
  cases e <;> exact ⟨_, _, _, _, _, rfl⟩

theorem place_queues (e : EStream) (j : Job) (i : InFlight) : QueuesOnly j (j.place e i) := by
  have ht := queuesOnly_foldl (f := fun (j : Job) f => j.setTok f (j.tok f) (j.tokRes f + 1)) (fun j f => ⟨_, _, rfl⟩)
    (tokPushes e (tokBits i.word)) j
  unfold Job.place
  split
  · exact ht.trans ⟨_, _, rfl⟩
  · exact ht

theorem replayAll_engines (j : Job) (e : EStream) : EnginesOnly j (j.replayAll e) :=
  (queuesOnly_foldl (place_queues e) _ j).engines.trans (setEng_engines _ e _)

/-- What a resume leaves in the slot: the job, running, its journal in flight again and its status entries delivered. -/
theorem jobAt_resumeJob (s : State) (k : Nat) (j : Job) :
    ∃ q, EnginesOnly j q ∧ jobAt (resumeJob s k j) k = some { q with phase := .running, pend := .none } := by
  refine ⟨((j.replayAll .L).replayAll .T).drainStatus, ?_, ?_⟩
  · exact ((replayAll_engines j .L).trans (replayAll_engines _ .T)).trans ⟨_, _, _, _, _, rfl⟩
  · unfold resumeJob
    rw [jobAt_congr (wakeSlot_jobs _ _), jobAt_setJob_self]

/-! ### REPLAY -/

/-- A replayed job is a job's, and its header's job otherwise. -/
theorem replayJob_level {s : State} {f va first n area : Nat} {r : Job} (h : replayJob s f va first n area = some r) : r.level = .job := by
  unfold replayJob at h
  extract_lets id at h
  split at h
  · cases h
  · cases h
    rfl

section
variable {s : State} {k : Nat} {j : Job} (h : SReady s k j sHnd []) (hl : j.level = .handler)
include h hl

theorem replay_waits_moves (hm : replayMoves s j.fdom (j.arg 8) (j.arg 9) (j.arg 10) = true) : Runs .replay s s := by
  have hw : execReplay s = .next (setJob s k j) := by
    refine sExec_wait h rfl ?_
    rw [if_neg (by simp [hl]), if_pos hm]
  rwa [setJob_same h.here] at hw

variable (hm : replayMoves s j.fdom (j.arg 8) (j.arg 9) (j.arg 10) = false)
include hm

theorem replay_diverges (hr : replayJob s j.fdom (j.arg 8) (j.arg 9) (j.arg 10) (j.arg 11) = none) :
    Runs .replay s (retired (raiseEvent s j.fdom 15 2 (jDie k) (j.arg 11) (leNat (virtBytes s j.fdom (j.arg 8) 8))) k j j.next) := by
  show execReplay s = _
  refine sExec_retire h rfl ?_
  rw [if_neg (by simp [hl]), if_neg (by simp [hm])]
  simp only [hr]

variable {r : Job} (hr : replayJob s j.fdom (j.arg 8) (j.arg 9) (j.arg 10) (j.arg 11) = some r)
include hr

theorem replay_waits_slot (hp : dieFits s r (jDie k) = none) : Runs .replay s s := by
  have hw : execReplay s = .next (setJob s k j) := by
    refine sExec_wait h rfl ?_
    rw [if_neg (by simp [hl]), if_neg (by simp [hm])]
    simp only [hr, hp]
  rwa [setJob_same h.here] at hw

/-- The replayed job as it is placed. -/
def replayPlaced (s : State) (r : Job) (base : Nat) : Job :=
  { r with core := { r.core with win := { r.core.win with base := base } }, resident := s.time, watch := s.time, dispatched := s.order }

theorem replay_places {p : Nat × Nat} (hp : dieFits s r (jDie k) = some p) :
    Runs .replay s (retired { resumeJob s p.1 (replayPlaced s r p.2) with order := (resumeJob s p.1 (replayPlaced s r p.2)).order + 1 } k j j.next) := by
  show execReplay s = _
  refine sExec_retire h rfl ?_
  rw [if_neg (by simp [hl]), if_neg (by simp [hm])]
  simp only [hr, hp] <;> rfl

end

/-! ### ERET -/

/-- The restart at TRAPPC moves PCs alone. -/
theorem restartAt_keeps (c : JobCore) (pc : Word) (b : Bool) : (restartAt c pc b).S.s = c.S.s ∧ (restartAt c pc b).flags = c.flags := by
  unfold restartAt
  extract_lets a
  split
  · exact ⟨rfl, rfl⟩
  · split <;> exact ⟨rfl, rfl⟩

/-- A TRAPPC that names S restarts it there. -/
theorem restartAt_S (c : JobCore) {pc : Word} (h : pc.toNat < 2 ^ 62) : (restartAt c pc false).S.pc = pc := by
  have h0 : pc.toNat / 2 ^ 62 = 0 := Nat.div_eq_of_lt h
  have h1 : BitVec.ofNat 64 (pc.toNat % 2 ^ 62) = pc := by rw [Nat.mod_eq_of_lt h, BitVec.ofNat_toNat, BitVec.setWidth_eq]
  simp only [restartAt, Bool.false_eq_true, if_false, h0, h1]

section
variable {s : State} {k : Nat} {j : Job} (h : SReady s k j sHnd []) (hl : j.level = .handler)
include h hl

theorem eret_waits (hm : areaMoves s j.fdom j.ctxAddr.toNat j.ctxLen .read = true) : Runs .eret s s := by
  have hw : execEret s = .next (setJob s k j) := by
    refine sExec_wait h rfl ?_
    rw [if_neg (by simp [hl]), if_pos hm]
  rwa [setJob_same h.here] at hw

theorem eret_returns (hm : areaMoves s j.fdom j.ctxAddr.toNat j.ctxLen .read = false) : Runs .eret s (returnFromTrap s k j) := by
  show execEret s = _
  refine sExec_done h rfl ?_
  rw [if_neg (by simp [hl]), if_neg (by simp [hm])]

end

section
variable {s : State} {k : Nat} {j : Job} {c : JobCore} (hs : j.snap = some c)
include hs

theorem returnFromTrap_lost (hr : canRead s j.fdom j.ctxAddr.toNat j.ctxLen = false) :
    returnFromTrap s k j = abandon s k j 3 0 j.ctxAddr.toNat (jobid k j) := by
  simp only [returnFromTrap, hs, hr, Bool.not_false, if_true]

/-- The job that a handler returns to. -/
theorem jobAt_returnFromTrap (hr : canRead s j.fdom j.ctxAddr.toNat j.ctxLen = true) :
    ∃ q, jobAt (returnFromTrap s k j) k = some q ∧ q.level = .job ∧ q.phase = .running ∧ q.snap = none ∧
      q.core.S = (restartAt { restoreContext s k j c with elog := j.core.elog } j.trappc j.trapIn).S ∧
      q.core.flags = (restartAt { restoreContext s k j c with elog := j.core.elog } j.trappc j.trapIn).flags := by
  simp only [returnFromTrap, hs, hr, Bool.not_true, Bool.false_eq_true, if_false]
  obtain ⟨q, ⟨_, _, _, _, _, rfl⟩, hq⟩ := jobAt_resumeJob s k { j with
    core := restartAt { restoreContext s k j c with elog := j.core.elog } j.trappc j.trapIn, snap := none, level := .job, watch := s.time,
    lastRestore := freeTime s, preempt := j.preempt.map (fun _ => s.time),
    bpSkip := if j.trapc = 0 then [bpMarkOf (restartAt { restoreContext s k j c with elog := j.core.elog } j.trappc j.trapIn) (j.trappc.toNat / 2 ^ 62)]
      else j.bpSkip }
  exact ⟨_, hq, rfl, rfl, rfl, rfl, rfl⟩

end

/-- Settles O50: a service that waits for no page move answers its function's value, REPLAY and ERET resume a job by `resumeJob`. -/
theorem handlerServices : Obligations.HandlerServices := by
  intro s k j i h hl
  refine ⟨trap_serves h hl i, unassigned_serves h hl i, setWatchpoint_waits h hl, fun hz => ⟨fun hb => ?_, fun c hn hp ho hc ht => ?_,
    fun pa m hn hp ho hc ht hm => ⟨fun ⟨hb, hf⟩ => ?_, fun hf htr => ?_⟩⟩, attestationReport_waits h hl, fun hz => ⟨fun hb => ?_, fun hb hr hw =>
      ⟨fun h0 => ?_, fun h1 => ⟨fun he => ?_, fun he hg => ⟨fun hk => ?_, fun hk => ?_⟩⟩⟩⟩, replay_waits_moves h hl,
    fun hm => ⟨replay_diverges h hl hm, fun r hr => ⟨replay_waits_slot h hl hm hr, fun p hp => ?_⟩⟩, fun c hs hm => ⟨fun hr => ?_, fun hr => ?_⟩,
    eret_waits h hl⟩
  · exact setWatchpoint_serves h hl hz (setWatch_bad hb)
  · exact setWatchpoint_serves h hl hz (setWatch_unmapped hn hp ho hc ht)
  · exact setWatchpoint_serves h hl hz (setWatch_taken hn hp ho hc ht hm hb hf)
  · have hr := setWatchpoint_serves h hl hz (setWatch_sets hn hp ho hc ht hm hf)
    have hj (w : Watch) : curJob (putWatch s m (j.arg 8) w) k j = j := by
      rw [curJob, putWatch, jobAt_congr (setMdie_jobs s m _), h.here, Option.getD_some]
    have hto (w : Watch) : TraceOff (putWatch s m (j.arg 8) w) j.fdom := htr
    rw [Serves, hj, retired_off (hto _)] at hr
    have hread := watch_putWatch hn s m (((mdieSt s m).watch.toList.getD (j.arg 8) Watch.reset).written j.fdom pa (j.arg 9) (j.arg 10) (j.arg 11))
    refine ⟨_, _, hr, ⟨jobAt_setJob_self _ _ _, rfl, rfl⟩, fun h0 => hread.trans (if_pos h0), fun h0 => hread.trans (if_neg h0)⟩
  · exact attestationReport_serves h hl hz (attest_bad (by tauto))
  · exact attestationReport_serves h hl hz (by rw [h0]; exact attest_plain hb hr hw)
  · exact attestationReport_serves h hl hz (by rw [h1]; exact attest_no_entry hb hr hw he)
  · exact attestationReport_serves h hl hz (by rw [h1, attest_entry hb hr hw he hg, hk]; rfl)
  · exact attestationReport_serves h hl hz (by rw [h1, attest_entry hb hr hw he hg, hk]; rfl)
  · refine ⟨_, _, replay_places h hl hm hr hp, jobAt_retired_self _ _ _ _, rfl, hl, fun hk => ?_⟩
    obtain ⟨q, ⟨_, _, _, _, _, rfl⟩, hq⟩ := jobAt_resumeJob s p.1 (replayPlaced s r p.2)
    rw [jobAt_retired_ne _ _ _ hk]
    exact ⟨_, hq, rfl, rfl, (replayJob_level hr : r.level = .job)⟩
  · obtain ⟨q, hq, h1, h2, h3, h4, h5⟩ := jobAt_returnFromTrap (k := k) hs hr
    obtain ⟨k1, k2⟩ := restartAt_keeps { restoreContext s k j c with elog := j.core.elog } j.trappc j.trapIn
    refine ⟨_, q, eret_returns h hl hm, hq, h1, h2, h3, by rw [h4, k1], by rw [h5, k2], fun ht hpc => ?_⟩
    rw [Job.pc, h4, ht, restartAt_S _ hpc]
  · rw [← returnFromTrap_lost (k := k) hs hr]
    exact eret_returns h hl hm

end Sys2Proof.Machine
end

section
/-!
PROOFS, part 22. Cached translations are no matter to a coherent read, and what near-memory jobs have replaced is no matter of it (R253, R287, R380).
`Twin o t u` says that `u` is `t` but for its cached translations, and that what near-memory jobs have replaced stands in `t` as in `o`; a lemma
`f_twin` says that `f` keeps it so.
-/
namespace Sys2Proof.Machine

/-- The state with other cached translations. -/
def withTlb (l : List Tlb) (s : State) : State := { s with M := { s.M with tlb := l } }

/-- `u` is `t` but for cached translations; `t` has the replaced bytes and the name of `o`. -/
structure Twin (o t u : State) : Prop where
  tlb : ∃ l, u = withTlb l t
  old : t.M.nmOld = o.M.nmOld
  fresh : t.fresh = o.fresh

theorem noteTlb_twin (s : State) (f va : Nat) : Twin s s (noteTlb s f va) := ⟨⟨_, rfl⟩, rfl, rfl⟩

/-- A step that looks at no cached translation and replaces nothing. -/
theorem Twin.map {o t u : State} (h : Twin o t u) (g : State → State) (hg : ∀ l, g (withTlb l t) = withTlb l (g t))
    (ho : (g t).M.nmOld = t.M.nmOld) (hf : (g t).fresh = t.fresh) : Twin o (g t) (g u) := by
  obtain ⟨⟨l, rfl⟩, h1, h2⟩ := h
  exact ⟨⟨l, hg l⟩, ho.trans h1, hf.trans h2⟩

theorem ite_twin {o a b c d : State} {p : Prop} [Decidable p] (hs : Twin o a c) (ht : Twin o b d) :
    Twin o (if p then a else b) (if p then c else d) := by
  split
  · exact hs
  · exact ht

theorem foldl_twin {α : Type} {o t u : State} {f : State → α → State} (hf : ∀ t u x, Twin o t u → Twin o (f t x) (f u x)) (h : Twin o t u)
    (l : List α) : Twin o (l.foldl f t) (l.foldl f u) := by
  induction l generalizing t u with
  | nil => exact h
  | cons x l ih => exact ih (hf t u x h)

section
variable {o t u : State} (h : Twin o t u)
include h

/-! ### Bytes and events -/

theorem homeSet_twin (pa b) : Twin o (homeSet t pa b) (homeSet u pa b) := by
  obtain ⟨⟨l, rfl⟩, h1, h2⟩ := h
  unfold homeSet
  exact ite_twin ⟨⟨l, rfl⟩, h1, h2⟩ ⟨⟨l, rfl⟩, h1, h2⟩

theorem homeSetBytes_twin (pa l) : Twin o (homeSetBytes t pa l) (homeSetBytes u pa l) := by
  induction l generalizing t u pa with
  | nil => exact h
  | cons b l ih => exact ih (homeSet_twin h pa b) (pa + 1)

theorem noteCode_twin (pa l) : Twin o (noteCode t pa l) (noteCode u pa l) := by
  induction l generalizing t u pa with
  | nil => exact h
  | cons b l ih =>
    obtain ⟨⟨l', rfl⟩, h1, h2⟩ := h
    unfold noteCode
    refine ih ?_ (pa + 1)
    exact ite_twin ⟨⟨l', rfl⟩, h1, h2⟩ ⟨⟨l', rfl⟩, h1, h2⟩

theorem writeBackN_twin (pa n) : Twin o (writeBackN t pa n) (writeBackN u pa n) := by
  induction n generalizing t u pa with
  | zero => exact h
  | succ n ih =>
    obtain ⟨⟨l, rfl⟩, h1, h2⟩ := h
    have hd : (withTlb l t).M.dirty = t.M.dirty := rfl
    unfold writeBackN
    rw [hd]
    cases smGet t.M.dirty pa with
    | none => exact ih ⟨⟨l, rfl⟩, h1, h2⟩ (pa + 1)
    | some b =>
      refine ih (homeSet_twin ?_ pa b) (pa + 1)
      exact ⟨⟨l, rfl⟩, h1, h2⟩

theorem writeBackLine_twin (line) : Twin o (writeBackLine t line) (writeBackLine u line) := writeBackN_twin h _ _

theorem dropStale_twin (line) : Twin o (dropStale t line) (dropStale u line) := by
  obtain ⟨⟨l, rfl⟩, h1, h2⟩ := h
  have hs : (withTlb l t).M.stale = t.M.stale := rfl
  unfold dropStale
  rw [hs]
  generalize cellsDrop t.M.stale (64 * line) 64 = m
  exact ⟨⟨l, rfl⟩, h1, h2⟩

theorem agentSetBytes_twin (pa l) : Twin o (agentSetBytes t pa l) (agentSetBytes u pa l) := by
  have hw := foldl_twin (f := fun s ln => dropStale (writeBackLine s ln) ln) (fun _ _ ln ht => dropStale_twin (writeBackLine_twin ht ln) ln) h
    (linesOf pa l.length)
  exact (homeSetBytes_twin (noteCode_twin hw pa l) pa l).map
    (fun s => { s with M := { s.M with dir := (linesOf pa l.length).foldl smErase s.M.dir } }) (fun _ => rfl) rfl rfl

theorem evqLose_twin (f) : Twin o (evqLose t f) (evqLose u f) := h.map (evqLose · f) (fun _ => rfl) rfl rfl

theorem evqNext_twin (f) : Twin o (evqNext t f) (evqNext u f) := h.map (evqNext · f) (fun _ => rfl) rfl rfl

theorem logError_twin (id kind src cls addr ue) : Twin o (logError t id kind src cls addr ue) (logError u id kind src cls addr ue) :=
  h.map (logError · id kind src cls addr ue) (fun _ => rfl) rfl rfl

theorem evqStore_twin (f w0 addr aux) : Twin o (evqStore t f w0 addr aux) (evqStore u f w0 addr aux) := by
  have hl := evqLose_twin h f
  have ha := fun pa l => evqNext_twin (agentSetBytes_twin h pa l) f
  have he := fun id kind src cls addr => logError_twin hl id kind src cls addr false
  obtain ⟨⟨l, rfl⟩, h1, h2⟩ := h
  unfold evqStore
  exact ite_twin hl (ite_twin (he _ _ _ _ _) (ha _ _))

theorem sendIrq_twin (n c) : Twin o (sendIrq t n c) (sendIrq u n c) := h.map (sendIrq · n c) (fun _ => rfl) rfl rfl

theorem evqIrq_twin (f) : Twin o (evqIrq t f) (evqIrq u f) := by
  have hi := fun n => sendIrq_twin h n 2
  obtain ⟨⟨l, rfl⟩, h1, h2⟩ := h
  have hn : tenantOf (withTlb l t) f = tenantOf t f := rfl
  unfold evqIrq
  rw [hn]
  cases tenantOf t f with
  | none => exact ⟨⟨l, rfl⟩, h1, h2⟩
  | some n => exact ite_twin (hi n) ⟨⟨l, rfl⟩, h1, h2⟩

theorem raiseEvent_twin (f type code die addr aux) : Twin o (raiseEvent t f type code die addr aux) (raiseEvent u f type code die addr aux) :=
  evqIrq_twin (evqStore_twin h f _ addr aux) f

theorem setMdie_twin (m v) : Twin o (setMdie t m v) (setMdie u m v) := h.map (setMdie · m v) (fun _ => rfl) rfl rfl

theorem watchOne_twin (m line cls ty f src n) : Twin o (watchOne t m line cls ty f src n) (watchOne u m line cls ty f src n) := by
  have hr := fun v f die addr aux code => raiseEvent_twin (setMdie_twin h m v) f 14 code die addr aux
  obtain ⟨⟨l, rfl⟩, h1, h2⟩ := h
  unfold watchOne
  exact ite_twin (hr _ _ _ _ _ _) ⟨⟨l, rfl⟩, h1, h2⟩

theorem watchHit_twin (line cls ty f src) : Twin o (watchHit t line cls ty f src) (watchHit u line cls ty f src) := by
  have hf := fun m => foldl_twin (f := fun s n => watchOne s m line cls ty f src n) (fun _ _ n ht => watchOne_twin ht m line cls ty f src n) h
    (List.range 16)
  obtain ⟨⟨l, rfl⟩, h1, h2⟩ := h
  have hm : homeMdie (withTlb l t) (64 * line) = homeMdie t (64 * line) := rfl
  unfold watchHit
  rw [hm]
  cases homeMdie t (64 * line) with
  | none => exact ⟨⟨l, rfl⟩, h1, h2⟩
  | some m => exact hf m

/-! ### A coherent read -/

theorem setDir_twin (line e) : Twin o (setDir t line e) (setDir u line e) := h.map (setDir · line e) (fun _ => rfl) rfl rfl

theorem tokYield_twin (die line) : Twin o (tokYield t die line) (tokYield u die line) := h.map (tokYield · die line) (fun _ => rfl) rfl rfl

theorem recallLine_twin (line f d) : Twin o (recallLine t line f d) (recallLine u line f d) := by
  have hw := watchHit_twin (writeBackLine_twin h line) line 3 2 f d
  obtain ⟨⟨l, rfl⟩, h1, h2⟩ := h
  unfold recallLine
  exact ite_twin hw ⟨⟨l, rfl⟩, h1, h2⟩

theorem dirYield_twin (d line f) : Twin o (dirYield t d line f) (dirYield u d line f) := recallLine_twin (tokYield_twin h d line) line f d

theorem dirRead_twin (d line f) : Twin o (dirRead t d line f) (dirRead u d line f) := by
  have hw := watchHit_twin h line 0 1 f d
  have hs : dirHas u d line = dirHas t d line := by
    obtain ⟨⟨l, rfl⟩, -, -⟩ := h
    rfl
  have hd : (watchHit u line 0 1 f d).M.dir = (watchHit t line 0 1 f d).M.dir := by
    obtain ⟨l, hl⟩ := hw.tlb
    rw [hl]
    rfl
  unfold dirRead
  rw [hs]
  refine ite_twin h ?_
  dsimp only
  rw [hd]
  cases smGet (watchHit t line 0 1 f d).M.dir line with
  | none => exact setDir_twin hw _ _
  | some e =>
    cases e with
    | owned d' => exact setDir_twin (dirYield_twin hw d' line f) _ _
    | shared v b => exact setDir_twin hw _ _
    | host => exact setDir_twin hw _ _

end

/-! ### Bytes as they are read -/

theorem Twin.cByte {o t u : State} (h : Twin o t u) (a : Nat) : cByte u a = Machine.cByte t a := by
  obtain ⟨⟨l, rfl⟩, -, -⟩ := h
  rfl

theorem Twin.nmSeen {o t u : State} (h : Twin o t u) (past : VC) (a : Nat) (b : Byte) : nmSeen u past a b = Machine.nmSeen o past a b := by
  obtain ⟨⟨l, rfl⟩, h1, h2⟩ := h
  unfold Machine.nmSeen
  rw [show (withTlb l t).M.nmOld = o.M.nmOld from h1, show (withTlb l t).fresh = o.fresh from h2]

end Sys2Proof.Machine
end

section
/-!
PROOFS, part 23. Loads of S from memory: the address is aligned, the line is read where nothing stands before it, and what LD, LDA and the WAITs
of memory get are the coherent bytes as `loaded` gives them (R125 to R127, R133, R253, R287, R288).
-/
namespace Sys2Proof.Machine

/-! ### An address that passes the checks is aligned -/

/-- The pages of a leaf are whole pages of 4 KiB. -/
theorem leafSize_dvd (e level : Nat) : 4096 ∣ leafSize e level := by
  unfold leafSize
  split
  · decide
  · decide
  · split <;> decide

theorem translate_ok {s : State} {f va pa : Nat} {h : Bool} {k : AKind} (ht : translate s f h va k = .ok pa) :
    ∃ e level, pa = entryPa e + va % leafSize e level := by
  unfold translate at ht
  split at ht
  · cases ht
  · split at ht
    · cases ht
    · cases ht
    · extract_lets e p at ht
      split at ht
      · cases ht
      · split at ht
        · cases ht
        · split at ht
          · cases ht
          · injection ht with hpa
            exact ⟨_, _, hpa.symm⟩

theorem translateMem_ok {s : State} {f va pa : Nat} {h : Bool} {k : AKind} (ht : translateMem s f h va k = .ok pa) :
    translate s f h va k = .ok pa := by
  unfold translateMem at ht
  split at ht
  · rename_i p hp
    split at ht
    · cases ht
    · cases ht
    · exact hp.trans ht
  · exact ht

theorem streamXlate_ok {s : State} {j : Job} {st : Stream} {va pa : Nat} {k : AKind} {regs : Bool} (h : streamXlate s j st va k regs = .ok pa) :
    translate s j.fdom (j.level == .handler) va k = .ok pa := by
  unfold streamXlate at h
  extract_lets l at h
  split at h
  · split at h <;> cases h
  · split at h
    · exact h
    · exact translateMem_ok h

/-- The checks after the translation answer the address itself. -/
theorem regCheck_ok {s : State} {j : Job} {a : SAcc} {ea p pa : Nat} (h : regCheck s j a ea p = .ok pa) : p = pa := by
  unfold regCheck at h
  split at h <;> cases h
  rfl

theorem lateCheck_ok {s : State} {k : Nat} {j : Job} {a : SAcc} {ea p pa : Nat} (h : lateCheck s k j a ea p = .ok pa) : p = pa := by
  unfold lateCheck at h
  repeat' split at h
  all_goals cases h
  rfl

theorem sCheck_ok {s : State} {k : Nat} {j : Job} {a : SAcc} {ea pa : Nat} (h : sCheck s k j a ea = .ok pa) :
    ea % a.n = 0 ∧ streamXlate s j .S ea a.kind a.regs = .ok pa := by
  unfold sCheck at h
  split at h
  · cases h
  · rename_i hm
    refine ⟨not_not.mp hm, ?_⟩
    split at h
    · cases h
    · cases h
    · rename_i p hp
      obtain rfl : p = pa := by
        split at h
        · cases h
        · exact regCheck_ok h
        · exact lateCheck_ok h
      exact hp

/-- Alignment passes from the address of the access to the one in memory. -/
theorem sCheck_ok_aligned {s : State} {k : Nat} {j : Job} {a : SAcc} {ea pa : Nat} (h : sCheck s k j a ea = .ok pa) (hn : a.n ∣ 4096) :
    a.n ∣ pa := by
  obtain ⟨h0, hx⟩ := sCheck_ok h
  obtain ⟨e, level, rfl⟩ := translate_ok (streamXlate_ok hx)
  refine Nat.dvd_add (hn.trans (Dvd.intro_left _ rfl)) ?_
  exact (Nat.dvd_mod_iff (hn.trans (leafSize_dvd e level))).mpr (Nat.dvd_of_mod_eq_zero h0)

/-- An aligned access of a divisor of 64 bytes lies within its line. -/
theorem within_line {pa n : Nat} (hd : n ∣ pa) (hn : n ∣ 64) : pa % 64 + n ≤ 64 := by
  obtain ⟨q, hq⟩ := (Nat.dvd_mod_iff hn).mpr hd
  obtain ⟨m, hm⟩ := hn
  have hlt : n * q < n * m := by rw [← hq, ← hm]; exact Nat.mod_lt _ (by decide)
  have hqm : q + 1 ≤ m := Nat.lt_of_mul_lt_mul_left hlt
  rw [hq]
  calc n * q + n = n * (q + 1) := by ring
    _ ≤ n * m := Nat.mul_le_mul_left n hqm
    _ = 64 := hm.symm

theorem widthBytes_dvd (w : BitVec 2) : widthBytes w ∣ 64 ∧ widthBytes w ∣ 4096 := by
  have hw : w.toNat < 4 := w.isLt
  unfold widthBytes
  generalize w.toNat = n at hw
  interval_cases n <;> decide

/-! ### Steps that leave the bytes alone -/

/-- What reads of memory look at is the same: the home's bytes, those of the C-dies, those that were replaced. -/
structure SameBytes (s t : State) : Prop where
  mem : t.M.mem = s.M.mem
  host : t.M.host = s.M.host
  dirty : t.M.dirty = s.M.dirty
  stale : t.M.stale = s.M.stale
  old : t.M.nmOld = s.M.nmOld
  regs : t.R = s.R
  fresh : t.fresh = s.fresh

theorem SameBytes.refl (s : State) : SameBytes s s := ⟨rfl, rfl, rfl, rfl, rfl, rfl, rfl⟩

theorem SameBytes.trans {a b c : State} (h : SameBytes a b) (g : SameBytes b c) : SameBytes a c :=
  ⟨g.mem.trans h.mem, g.host.trans h.host, g.dirty.trans h.dirty, g.stale.trans h.stale, g.old.trans h.old, g.regs.trans h.regs,
    g.fresh.trans h.fresh⟩

section
variable {s t : State} (h : SameBytes s t)
include h

theorem SameBytes.cByte (a : Nat) : cByte t a = Machine.cByte s a := by
  unfold Machine.cByte homeByte hostAddr
  rw [h.mem, h.host, h.dirty, h.stale, h.regs, h.fresh]

theorem SameBytes.nmSeen (past : VC) (a : Nat) (b : Byte) : nmSeen t past a b = Machine.nmSeen s past a b := by
  unfold Machine.nmSeen
  rw [h.old, h.fresh]

end

theorem cBytes_length (s : State) (a n : Nat) : (cBytes s a n).length = n := by
  induction n generalizing a with
  | zero => rfl
  | succ n ih => simp only [cBytes, List.length_cons, ih]

theorem cBytes_eq_map (s : State) (a n : Nat) : cBytes s a n = (List.range n).map (fun i => cByte s (a + i)) := by
  induction n generalizing a with
  | zero => rfl
  | succ n ih =>
    rw [cBytes, ih, List.range_succ_eq_map, List.map_cons, List.map_map]
    simp [Function.comp_def, Nat.add_assoc, Nat.add_comm 1]

theorem cBytes_getD {s : State} {a n i : Nat} (h : i < n) : (cBytes s a n).getD i 0 = cByte s (a + i) := by
  simp [cBytes_eq_map, List.getD, h]

theorem tokRead_bytes (s : State) (die line core : Nat) : SameBytes s (tokRead s die line core) := by
  simp only [tokRead]
  split <;> exact ⟨rfl, rfl, rfl, rfl, rfl, rfl, rfl⟩

theorem noteTag_bytes (s : State) (line : Nat) : SameBytes s (noteTag s line) := by
  unfold noteTag
  split <;> exact ⟨rfl, rfl, rfl, rfl, rfl, rfl, rfl⟩

theorem persistServed_bytes (s : State) (core line : Nat) : SameBytes s (persistServed s core line) := by
  unfold persistServed
  split <;> exact ⟨rfl, rfl, rfl, rfl, rfl, rfl, rfl⟩

/-- A coherent read changes no byte beyond what its request to the directory does. -/
theorem cohRead_bytes (s : State) (core line f : Nat) : SameBytes (dirRead s (core / 64) line f) (cohRead s core line f) :=
  ((tokRead_bytes _ _ _ _).trans (noteTag_bytes _ _)).trans (persistServed_bytes _ _ _)

theorem noteAccess_bytes (s : State) (w : Who) (pa n : Nat) (load store o : Bool) : SameBytes s (noteAccess s w pa n load store o) := by
  unfold noteAccess
  split
  · exact .refl s
  · extract_lets c s1
    split
    · unfold raceNote
      extract_lets
      split <;> exact ⟨rfl, rfl, rfl, rfl, rfl, rfl, rfl⟩
    · exact ⟨rfl, rfl, rfl, rfl, rfl, rfl, rfl⟩

theorem modJob_bytes (s : State) (k : Nat) (f : Job → Job) : SameBytes s (modJob s k f) := by
  unfold modJob
  split <;> exact ⟨rfl, rfl, rfl, rfl, rfl, rfl, rfl⟩

/-! ### Reading a line before which nothing stands -/

section
variable {s : State} {line : Nat} (h : LineClear s line)
include h

theorem copyAt_clear (l core : Nat) : copyAt s l core line = none := by
  rw [copyAt, List.find?_eq_none]
  intro c hc
  have hl := List.all_eq_true.mp h.scopes c hc
  simp only [bne_iff_ne] at hl
  simp [hl]

theorem copyFor_clear (core n l : Nat) : copyFor s core line n l = none := by
  induction n generalizing l with
  | zero => rfl
  | succ n ih =>
    unfold copyFor
    split
    · rfl
    · rw [copyAt_clear h]
      exact ih (l + 1)

theorem lineFrom_clear (core n l : Nat) : lineFrom s core line n l = cBytes s (64 * line) 64 := by
  induction n generalizing l with
  | zero => rfl
  | succ n ih =>
    unfold lineFrom
    split
    · rfl
    · rw [copyAt_clear h]
      exact ih (l + 1)

end

theorem dirHas_of_dirOwned {s : State} {d line : Nat} (h : dirOwned s d line = true) : dirHas s d line = true := by
  unfold dirOwned at h
  unfold dirHas
  split at h
  · rename_i e
    rw [e]
    exact h
  · cases h

theorem dirRead_of_dirHas {s : State} {d line : Nat} (h : dirHas s d line = true) (f : Nat) : dirRead s d line f = s := if_pos h

/-- The state in which a load at scope `sc` of a clear line finds its bytes: a load at device scope asks the directory first. -/
def readAt (s : State) (d line f sc : Nat) : State := if 3 ≤ sc then dirRead s d line f else s

theorem readAt_held {s : State} {d line : Nat} (h : dirHas s d line = true) (f sc : Nat) : readAt s d line f sc = s := by
  unfold readAt
  rw [dirRead_of_dirHas h, ite_self]

theorem scopeRead_clear {s : State} {line : Nat} (h : LineClear s line) (core t f : Nat) :
    SameBytes (readAt s (core / 64) line f t) (scopeRead s core t line f).1 ∧
    (scopeRead s core t line f).2 = cBytes (readAt s (core / 64) line f t) (64 * line) 64 := by
  have hc := cohRead_bytes s core line f
  have hb : cBytes (cohRead s core line f) (64 * line) 64 = cBytes (dirRead s (core / 64) line f) (64 * line) 64 := by
    simp only [cBytes_eq_map, hc.cByte]
  unfold scopeRead readAt
  split
  · exact ⟨hc, hb⟩
  · rw [copyFor_clear h]
    dsimp only
    split
    · rename_i ho
      have hd : dirRead s (core / 64) line f = s :=
        dirRead_of_dirHas (dirHas_of_dirOwned (Bool.and_eq_true_iff.mp ho).1) f
      rw [hd] at hc hb
      exact ⟨hc, hb⟩
    · exact ⟨⟨rfl, rfl, rfl, rfl, rfl, rfl, rfl⟩, lineFrom_clear h core 4 (t + 1)⟩

/-- The die of a core's slot. -/
theorem jCoreKey_die (k : Nat) : jCoreKey k / 64 = jDie k := by
  unfold jCoreKey jDie
  omega

theorem readAt_effScope (s : State) (d line f sc : Nat) : readAt s d line f (effScope sc) = readAt s d line f sc := by
  unfold readAt effScope
  exact if_congr (Nat.le_min.trans (and_iff_left le_rfl)) rfl rfl

theorem readAt_twin {o t u : State} (h : Twin o t u) (d line f sc : Nat) : Twin o (readAt t d line f sc) (readAt u d line f sc) :=
  ite_twin (dirRead_twin h d line f) h

/-- The bytes that a load of S finds in a clear line, whatever translations are cached. -/
theorem memLoad_clear {s u : State} {k sc pa n : Nat} {j : Job} (hu : Twin s s u) (hj : jobAt u k = some j) (hc : LineClear u (lineOf pa))
    (hp : pa % 64 + n ≤ 64) (o : Bool) : leNat (memLoad u ⟨k, 0, 1⟩ sc pa n o).2 = loaded s k j sc pa n := by
  obtain ⟨hb, hl⟩ := scopeRead_clear hc (jCoreKey k) (effScope sc) j.fdom
  rw [jCoreKey_die, readAt_effScope] at hb hl
  have hr := readAt_twin hu (jDie k) (lineOf pa) j.fdom sc
  have hlen : (((cBytes (readAt u (jDie k) (lineOf pa) j.fdom sc) (64 * lineOf pa) 64).drop (pa % 64)).take n).length = n := by
    rw [List.length_take, List.length_drop, cBytes_length]
    omega
  simp only [memLoad, hj, hl, loaded, hlen]
  refine congrArg leNat (List.map_congr_left fun i hi => ?_)
  have hi : i < n := List.mem_range.mp hi
  have hbyte : (((cBytes (readAt u (jDie k) (lineOf pa) j.fdom sc) (64 * lineOf pa) 64).drop (pa % 64)).take n).getD i 0 =
      cByte (readAt s (jDie k) (lineOf pa) j.fdom sc) (pa + i) := by
    have ha : 64 * lineOf pa + (pa % 64 + i) = pa + i := by unfold lineOf; omega
    rw [List.getD, List.getElem?_take_of_lt hi, List.getElem?_drop, ← List.getD, cBytes_getD (by omega), ha, hr.cByte]
  rw [hbyte]
  refine (SameBytes.nmSeen ?_ _ _ _).trans (hr.nmSeen _ _ _)
  exact hb.trans ((noteAccess_bytes _ ⟨k, 0, 1⟩ pa n true false o).trans (modJob_bytes _ k _))

/-- Bytes of a line that the die holds, none of them replaced, are loaded as they stand. -/
theorem loaded_held {s : State} {k sc pa n : Nat} {j : Job} (h : dirHas s (jDie k) (lineOf pa) = true)
    (ho : ∀ i, i < n → smGet s.M.nmOld (pa + i) = none) : loaded s k j sc pa n = leNat (cBytes s pa n) := by
  simp only [loaded, dirRead_of_dirHas h, ite_self, cBytes_eq_map]
  refine congrArg leNat (List.map_congr_left fun i hi => ?_)
  simp only [nmSeen, ho i (List.mem_range.mp hi)]

end Sys2Proof.Machine
end

section
/-!
PROOFS, part 24. LD, LDA, WAIT.memeq and WAIT.memge from memory outside a region (R126, R127, R133).
-/
namespace Sys2Proof.Machine

/-- Outside a replay the value taken in is the value read. -/
theorem takeIn_live {s : State} {k v ea : Nat} {j : Job} {st : Stream} (hr : j.replay = none) :
    takeIn s k j st v ea = (traceValue s k j st v ea, j, v) := by
  simp only [takeIn, hr]

/-- Outside a replay a job takes a loaded value in as it is. -/
theorem takeLoad_live {s : State} {k : Nat} {j : Job} (hj : jobAt s k = some j) (hr : j.replay = none) (ea v : Nat) (q : Job) :
    takeLoad s k ea v q = .ok (setJob (traceValue s k j .S v ea) k j) [v] := by
  simp only [takeLoad, curJob, hj, Option.getD_some, takeIn_live hr]

section
variable {s : State} {k ea pa : Nat} {j : Job} {a : SAcc} (hj : jobAt s k = some j) (h : SPlain s k j a ea pa)
include h

theorem SPlain.notRegs : (rangeOf s pa == .regs) = false := by
  refine beq_eq_false_iff_ne.mpr fun e => ?_
  have hm := h.memory
  rw [e] at hm
  exact absurd hm (by decide)

/-- Nothing stands before the access, and its own translation has been noted. -/
theorem SPlain.ready (sc : Nat) : memReady (noteTlb s j.fdom ea) ⟨k, 0, 1⟩ sc pa = (noteTlb s j.fdom ea, true) :=
  memPrep_clear (noteTlb_clear h.clear _ _) _ _

theorem SPlain.within (hn : a.n ∣ 64) : pa % 64 + a.n ≤ 64 := within_line (sCheck_ok_aligned h.check (hn.trans (by decide))) hn

include hj

/-- A load from memory answers what `loaded` says and leaves its job the same but for clocks. -/
theorem memLoad_plain (hn : a.n ∣ 64) (sc : Nat) (o : Bool) :
    leNat (memLoad (noteTlb s j.fdom ea) ⟨k, 0, 1⟩ sc pa a.n o).2 = loaded s k j sc pa a.n ∧
    ∃ j', jobAt (l1Read (memLoad (noteTlb s j.fdom ea) ⟨k, 0, 1⟩ sc pa a.n o).1 (jCoreKey k) (lineOf pa) true) k = some j' ∧ j'.SameBut j := by
  have hj' : jobAt (noteTlb s j.fdom ea) k = some j := hj
  obtain ⟨j', h1, h2⟩ := memLoad_job hj' 0 1 sc pa a.n o
  exact ⟨memLoad_clear (noteTlb_twin s j.fdom ea) hj' (noteTlb_clear h.clear _ _) (h.within hn) o, j',
    (jobAt_congr (l1Read_jobs _ _ _ _) k).trans h1, h2⟩

theorem sLoad1_plain (hn : a.n ∣ 64) (sc : Nat) (o : Bool) :
    ∃ s' j', sLoad1 s k ea pa a.n sc o = .ok s' [loaded s k j sc pa a.n] ∧ jobAt s' k = some j' ∧ j'.SameBut j := by
  obtain ⟨hv, j', hj', hb⟩ := memLoad_plain hj h hn sc o
  have hr : j'.replay = none := hb.replay.trans h.live
  have hregs : (rangeOf (noteTlb s j.fdom ea) pa == .regs) = false := h.notRegs
  refine ⟨_, j', Eq.trans ?_ (takeLoad_live hj' hr ea (loaded s k j sc pa a.n) j), jobAt_setJob_self _ _ _, hb⟩
  simp only [sLoad1, hj, h.live, Option.isSome_none, Bool.false_eq_true, if_false, hregs, h.outside, h.ready, Bool.not_true, hv]

/-- A load instruction whose one access is plain: the values are put in the job as the load leaves it. -/
theorem loadInstr_plain (hn : a.n ∣ 64) (sc : Nat) (put : State → Job → List Nat → Job) :
    ∃ s' j', loadInstr s k j a sc [ea] put = sDone s' k (put s j' [loaded s k j sc pa a.n]) ∧ j'.SameBut j := by
  obtain ⟨s', j', hl, hj', hb⟩ := sLoad1_plain hj h hn sc a.ordinary
  refine ⟨s', j', ?_, hb⟩
  have hready : memReady s ⟨k, 0, 1⟩ sc pa = (s, true) := memPrep_clear h.clear _ _
  simp only [loadInstr, sCheckAll, h.check, sReadyAll, h.live, h.outside, Option.isSome_none, Bool.false_eq_true, if_false, sPrep, h.notRegs,
    hready, if_true, Bool.not_true, sLoads, hl, List.append_nil, curJob, hj', Option.getD_some]

end

theorem sDone_outside {s : State} {k : Nat} {j : Job} (h : j.region = none) : sDone s k j = .retire s (j.next.stallEnd .S) := by
  have hr : (j.next.stallEnd .S).region = none := h
  simp only [sDone, hr, Option.isSome_none, Bool.false_eq_true, if_false]

/-- A register is written alike in jobs of one core. -/
theorem setS_core_congr {a b : Job} (h : a.core = b.core) (d : BitVec 6) (v : Word) : (a.setS d v).core = (b.setS d v).core := by
  unfold Job.setS
  split
  · exact h
  · simp only [h]

/-- An instruction whose job retires with the S stream of `q`. -/
theorem sDone_retired (s : State) (k : Nat) (j : Job) {p q : Job} (h : p.core.S = q.core.S) :
    ∃ t j', retired s k j (p.stallEnd .S) = t ∧ SDone t k j q j' := by
  refine ⟨_, _, rfl, jobAt_retired_self _ _ _ _, rfl, ?_⟩
  simp only [Job.stallEnd, h]

theorem next_S_congr {a b : Job} (h : a.core = b.core) : a.next.core.S = b.next.core.S := by
  simp only [Job.next, Job.setPc, Job.pc, h]

section
variable {s : State} {k pa : Nat} {j : Job} {d a b : BitVec 6} {w : BitVec 2}

theorem ld_loads {kk : BitVec 1} {o : BitVec 10} (h : SReady s k j sAny [d, a])
    (hp : SPlain s k j ⟨widthBytes w, .read, true, kk == 0⟩ (effAddr j a o (widthBytes w)) pa) (x : BitVec 1) :
    ∃ t j', Runs (.ld d a w kk x o) s t ∧
      SDone t k j (j.setS d (extend (loaded s k j 3 pa (widthBytes w)) (widthBytes w) (x == 1))).next j' := by
  obtain ⟨s', q, hl, hb⟩ := loadInstr_plain h.here hp (widthBytes_dvd w).1 3
    (fun _ j v => j.setS d (extend (v.headD 0) (widthBytes w) (x == 1)))
  rw [sDone_outside (by rw [Job.setS_region, hb.region, hp.outside])] at hl
  obtain ⟨t, j', ht, hd⟩ := sDone_retired s' k j (next_S_congr (setS_core_congr hb.core d _))
  exact ⟨t, j', ht ▸ (sExec_retire h rfl hl : execLd d a w kk x o s = _), hd⟩

theorem lda_loads {sc : BitVec 3} {o : BitVec 9} (h : SReady s k j sHnd [d, a])
    (hp : SPlain s k j ⟨widthBytes w, .read, true, false⟩ (effAddr j a o (widthBytes w)) pa) :
    ∃ t j', Runs (.lda d a w sc o) s t ∧
      SDone t k j (j.setS d (extend (loaded s k j sc.toNat pa (widthBytes w)) (widthBytes w) false)).next j' := by
  obtain ⟨s', q, hl, hb⟩ := loadInstr_plain h.here hp (widthBytes_dvd w).1 sc.toNat
    (fun _ q v => (q.acquire 0 sc.toNat (jCoreKey k) (relSeenVa s k j sc.toNat (effAddr j a o (widthBytes w)) (widthBytes w))).setS d
      (extend (v.headD 0) (widthBytes w) false))
  have hq := (q.sameBut_acquire 0 sc.toNat (jCoreKey k) (relSeenVa s k j sc.toNat (effAddr j a o (widthBytes w)) (widthBytes w))).trans hb
  rw [sDone_outside (by rw [Job.setS_region, hq.region, hp.outside])] at hl
  obtain ⟨t, j', ht, hd⟩ := sDone_retired s' k j (next_S_congr (setS_core_congr hq.core d _))
  exact ⟨t, j', ht ▸ (sExec_retire h rfl hl : execLda d a w sc o s = _), hd⟩

/-- A WAIT of memory reads with a strong load, and retires or parks by the value. -/
theorem waitMem_reads {sc : BitVec 3} (h : SReady s k j sJob [a, b]) (hp : SPlain s k j ⟨8, .read, true, false⟩ (j.s a).toNat pa)
    (ok : Nat → Nat → Bool) :
    (ok (loaded s k j sc.toNat pa 8) (j.s b).toNat = true → ∃ t j', waitMem s a b sc ok = .next t ∧ SDone t k j j.next j') ∧
    (ok (loaded s k j sc.toNat pa 8) (j.s b).toNat = false →
      ∃ t j', waitMem s a b sc ok = .next t ∧ jobAt t k = some j' ∧ j'.pend = .parked ∧ j'.core.S = j.core.S) := by
  obtain ⟨hv, q, hq, hb⟩ := memLoad_plain h.here hp (show 8 ∣ 64 by decide) sc.toNat false
  have hregs : (rangeOf (noteTlb s j.fdom (j.s a).toNat) pa == .regs) = false := hp.notRegs
  have hx : waitMem s a b sc ok = .next (sFinish s k j (
      let u := l1Read (memLoad (noteTlb s j.fdom (j.s a).toNat) ⟨k, 0, 1⟩ sc.toNat pa 8 false).1 (jCoreKey k) (lineOf pa) true
      let q' := q.acquire 0 sc.toNat (jCoreKey k) (relSeen (noteTlb s j.fdom (j.s a).toNat) (jCoreKey k) sc.toNat pa 8)
      let x := takeIn u k q' .S (loaded s k j sc.toNat pa 8) (j.s a).toNat
      if ok (loaded s k j sc.toNat pa 8) (j.s b).toNat then .retire x.1 (x.2.1.next.stallEnd .S) else park u k (q.stallEnd .S))) := by
    refine (sExec_ready h rfl _).trans ?_
    simp only [hp.check, hp.live, Option.isSome_none, Bool.false_eq_true, if_false, hregs, hp.ready, Bool.not_true, hv, curJob, hq, Option.getD_some]
  dsimp only at hx
  refine ⟨fun ho => ?_, fun ho => ?_⟩
  · have hs := (q.sameBut_acquire 0 sc.toNat (jCoreKey k) (relSeen (noteTlb s j.fdom (j.s a).toNat) (jCoreKey k) sc.toNat pa 8)).trans hb
    rw [if_pos ho, sFinish_retire h.count, takeIn_live (hs.replay.trans hp.live)] at hx
    obtain ⟨t, j', ht, hd⟩ := sDone_retired _ k j (next_S_congr hs.core)
    exact ⟨t, j', ht ▸ hx, hd⟩
  · rw [if_neg (by simp [ho])] at hx
    exact ⟨_, _, hx, (jobAt_congr (passSlot_jobs _ _) k).trans (jobAt_setJob_self _ _ _), rfl, congrArg (fun c : JobCore => c.S) hb.core⟩

theorem waitMemeq_reads {sc : BitVec 3} (h : SReady s k j sJob [a, b]) (hp : SPlain s k j ⟨8, .read, true, false⟩ (j.s a).toNat pa) :
    (loaded s k j sc.toNat pa 8 = (j.s b).toNat → ∃ t j', Runs (.waitMemeq a b sc) s t ∧ SDone t k j j.next j') ∧
    (loaded s k j sc.toNat pa 8 ≠ (j.s b).toNat →
      ∃ t j', Runs (.waitMemeq a b sc) s t ∧ jobAt t k = some j' ∧ j'.pend = .parked ∧ j'.core.S = j.core.S) := by
  obtain ⟨h1, h2⟩ := waitMem_reads (sc := sc) h hp (fun v w => v == w)
  exact ⟨fun he => h1 (by simp [he]), fun he => h2 (by simpa using he)⟩

theorem waitMemge_reads {sc : BitVec 3} (h : SReady s k j sJob [a, b]) (hp : SPlain s k j ⟨8, .read, true, false⟩ (j.s a).toNat pa) :
    ((j.s b).toNat ≤ loaded s k j sc.toNat pa 8 → ∃ t j', Runs (.waitMemge a b sc) s t ∧ SDone t k j j.next j') ∧
    (loaded s k j sc.toNat pa 8 < (j.s b).toNat →
      ∃ t j', Runs (.waitMemge a b sc) s t ∧ jobAt t k = some j' ∧ j'.pend = .parked ∧ j'.core.S = j.core.S) := by
  obtain ⟨h1, h2⟩ := waitMem_reads (sc := sc) h hp (fun v w => decide (w ≤ v))
  exact ⟨fun he => h1 (by simpa using he), fun he => h2 (by simpa using he)⟩

end

/-- Settles O21: a plain load is `loadInstr_plain`, a failed check traps, and held bytes are loaded as they stand. -/
theorem loads : Obligations.Loads := fun _ _ _ _ _ _ _ x sc _ _ _ =>
  ⟨fun h hp => ld_loads h hp x, fun h hp => lda_loads h hp, fun h ho => loaded_held h ho, fun h _ _ hc => ld_traps h hc x,
    fun h _ _ hc => lda_traps h hc sc⟩

/-- Settles O28: a WAIT of memory compares what its strong load reads. -/
theorem waitsOnMemory : Obligations.WaitsOnMemory := by
  intro s k j a b sc pa h hp
  obtain ⟨h1, h2⟩ := waitMemeq_reads (sc := sc) h hp
  obtain ⟨h3, h4⟩ := waitMemge_reads (sc := sc) h hp
  exact ⟨h1, h2, h3, h4⟩

end Sys2Proof.Machine
end

section
/-!
PROOFS, part 25. Writes from a state whose map of stale copies is not in canonical form (R274). The statements about stores and commits compare
every byte of memory before and after, and no hypothesis of theirs keeps the keys of `stale` rising: a stale copy listed behind one of a higher
address is found by no reader, until a write of that higher address drops the entry before it.
-/
namespace Sys2Proof.Machine

/-- Memory with the translation tables, a data page at virtual 0x101000, which lies at physical 0x24000, and at address 8 a byte that is
not the free value of that address. -/
def staleMem : Mem :=
  (8, Config.freeByte 0 8 + 1) :: memWriteBytes (placeTables []) (0x22000 + 8 * 0x101) (natLe 8 (2 ^ 53 + 2 ^ 52 + 0x24000 + 2 ^ 6 + 1))

/-- A machine with job `j` in slot 0, whose turn it is: the die owns the line of `pa`, whose byte is dirty, and the stale copies of `pa` and of
address 8 are listed out of order. -/
def staleState (pa : Nat) (j : Job) : State :=
  let s := { State.reset with
    M := { State.reset.M with mem := staleMem, dirty := [(pa, 0)], stale := [(pa, 0), (8, 0)], dir := [(lineOf pa, .owned 0)] },
    B := { State.reset.B with status := 1 }, turnJob := 0 }
  let s := setDomain s 0 { domainSt s 0 with xlRoot := BitVec.ofNat 64 (2 ^ 16 + 1) }
  setJob (setCore s 0 { coreSt s 0 with holder := some 0 }) 0 j

/-- A job with the data page's address in s2. -/
def pageJob : Job := placeJob.setS 2 0x101000

/-- A job that waits at its RCOM into s3, its region frozen at position 5 with one byte stored at `pa`. -/
def frozenJob (pa : Nat) : Job :=
  { placeJob with pend := .commit 3, region := some ⟨0x100040, [], [lineOf pa], [(pa, 7)], 5, 5, [], [], 1, some 5, [], []⟩ }

/-- Whether a step goes on to a state in which a reader of address 8 finds its stale copy. -/
def showsStale8 : Out → Bool
  | .next t => (smGet t.M.dirty 8).isNone && (smGet t.M.stale 8).isSome && t.fresh == 0
  | _ => false

/-! ### The byte at address 8 -/

theorem cByte_of_showsStale8 {i : Instr} {s t : State} (h : Runs i s t) (hb : showsStale8 (exec i s) = true) :
    cByte t 8 = Config.freeByte 0 8 := by
  rw [show exec i s = .next t from h] at hb
  simp only [showsStale8, Bool.and_eq_true, Option.isNone_iff_eq_none, Option.isSome_iff_exists, beq_iff_eq] at hb
  obtain ⟨⟨hd, v, hs⟩, hf⟩ := hb
  simp only [cByte, hd, hs, hf]

/-- A step that shows the stale copy of address 8 changes the byte read there. -/
theorem cByte_ne_of_showsStale8 {i : Instr} {s t : State} (h : Runs i s t) (hb : showsStale8 (exec i s) = true)
    (h8 : cByte s 8 = Config.freeByte 0 8 + 1) : cByte t 8 ≠ cByte s 8 := by
  rw [cByte_of_showsStale8 h hb, h8]
  bv_omega

/-- So it stores no bytes at `pa` alone. -/
theorem not_stored_of_showsStale8 {i : Instr} {s t : State} {pa : Nat} {l : List Byte} (h : Runs i s t) (hb : showsStale8 (exec i s) = true)
    (h8 : cByte s 8 = Config.freeByte 0 8 + 1) (hpa : 8 < pa) : ¬ Stored s t pa l :=
  fun hs => cByte_ne_of_showsStale8 h hb h8 (hs.2 8 (.inl hpa))

/-! ### The witnesses -/

theorem staleState_cByte8 {pa : Nat} {j : Job} (hpa : 8 < pa) : cByte (staleState pa j) 8 = Config.freeByte 0 8 + 1 := by
  have hne : pa ≠ 8 := by omega
  show (match smGet [(pa, (0 : Byte))] 8 with
    | some b => b
    | none => match smGet [(pa, (0 : Byte)), (8, 0)] 8 with
      | some _ => Config.freeByte 0 8
      | none => Config.freeByte 0 8 + 1) = _
  simp only [smGet, if_neg hne, if_pos hpa]

theorem pageJob_lineClear : LineClear (staleState 0x24000 pageJob) (lineOf 0x24000) := ⟨by decide, by decide, by decide, by decide⟩

theorem pageJob_traceOff : TraceOff (staleState 0x24000 pageJob) pageJob.fdom := show _ = _ by decide

theorem pageJob_owned : dirOwned (staleState 0x24000 pageJob) (jDie 0) (lineOf 0x24000) = true := by decide

/-- Refutes O22: an ST of one byte at 0x24000 drops the stale copy listed before that of address 8, whose reader then finds it. The counterexample
turns on `stale` out of order, which the statement admits. -/
theorem not_stores : ¬ Obligations.Stores := by
  intro h
  have hready : SReady (staleState 0x24000 pageJob) 0 pageJob sAny [1, 2] := ⟨rfl, rfl, by decide, by decide, by decide, by decide⟩
  have hplain : SPlain (staleState 0x24000 pageJob) 0 pageJob ⟨1, .write, true, false⟩ (effAddr pageJob 2 (0 : BitVec 10) 1) 0x24000 :=
    ⟨by decide, by decide, rfl, rfl, pageJob_lineClear⟩
  obtain ⟨t, j', hrun, -, hst⟩ := (h (staleState 0x24000 pageJob) 0 pageJob 1 2 0 1 0 0x24000).1 hready hplain
  exact not_stored_of_showsStale8 hrun (by decide) (staleState_cByte8 (by decide)) (by decide) (hst pageJob_owned pageJob_traceOff)

/-- Refutes O23: a THROW of one byte at 0x24000 does as the ST that refutes O22. -/
theorem not_multiBeatAndStrongStores : ¬ Obligations.MultiBeatAndStrongStores := by
  intro h
  have hready : SReady (staleState 0x24000 pageJob) 0 pageJob sJob [1, 2, 0] := ⟨rfl, rfl, by decide, by decide, by decide, by decide⟩
  have hplain : SPlain (staleState 0x24000 pageJob) 0 pageJob ⟨1, .write, false, false⟩ (pageJob.s 2).toNat 0x24000 :=
    ⟨by decide, by decide, rfl, rfl, pageJob_lineClear⟩
  obtain ⟨-, -, hthrow, -⟩ := h (staleState 0x24000 pageJob) 0 pageJob 1 2 0 0 0 0 0 0 0x24000
  obtain ⟨t, j', hrun, -, -, hst⟩ := hthrow hready hplain
  exact not_stored_of_showsStale8 hrun (by decide) (staleState_cByte8 (by decide)) (by decide) (hst pageJob_owned pageJob_traceOff)

/-- Refutes O33: the commit of a region that stored the byte at 0x24003 does as the ST that refutes O22. -/
theorem not_regionCommitsAtLowerBound : ¬ Obligations.RegionCommitsAtLowerBound := by
  intro h
  obtain ⟨-, hcommit⟩ := h (staleState 0x24003 (frozenJob 0x24003)) 0 (frozenJob 0x24003) _ 3 rfl rfl rfl rfl
  obtain ⟨t, j', hrun, -, -, -, -, -, -, -, -, -, -, hbytes⟩ := hcommit 5 rfl (by decide) (by decide) rfl (by decide)
  have h8 := hbytes (show _ = _ by decide) (by decide) (by decide) (by decide) 8
  exact cByte_ne_of_showsStale8 hrun (by decide) (staleState_cByte8 (by decide)) h8

end Sys2Proof.Machine
end

section
/-!
PROOFS, part 26. Vector words (R151 to R183). A vector word issues once the core's vector unit is free (R240, R241). The statement asks so of every
vector word but VSHAPE, which is one too (class 01 of R96, a row of R157's table): while another vector word is in flight it waits.
-/
namespace Sys2Proof.Machine

/-! ### What the vector words do -/

section
variable {s : State} {k : Nat} {j : Job}

/-- A ready vector word waits while the core's vector unit is taken (R240). -/
theorem eExec_unitTaken {e : EStream} {i : Instr} {tok : BitVec 4} {p : EPlan} (h : EReady s k j e tok p) (hv : vectorGo s k j i = false) :
    eExec s e i tok p = .next s := by
  have hk := h.turn
  subst hk
  unfold eExec
  simp [h.here, h.level, h.named, hv]

/-- Results that pass the access checks are landed. -/
theorem vIssue_ok {seen : Nat → Byte} {o : VOut} {extra : Fl} (h : vCheck j o = none) :
    vIssue s k j seen (.ok o) extra = vLand s k seen o extra := by
  simp only [vIssue, h]

theorem vIssue_ok_trap {seen : Nat → Byte} {o : VOut} {extra : Fl} {c v : Nat} (h : vCheck j o = some (c, v)) :
    vIssue s k j seen (.ok o) extra = .trap c v := by
  simp only [vIssue, h]

theorem vIssue_scaled_trap {seen : Nat → Byte} {o : VOut} {pas : List Nat} {fin : List Nat → List VElem × Fl} {extra : Fl} {c v : Nat}
    (h : vCheck j o = some (c, v)) : vIssue s k j seen (.scaled o pas fin) extra = .trap c v := by
  simp only [vIssue, h]

/-- The first scale whose check fails traps (R66). -/
theorem vIssue_scale_trap {seen : Nat → Byte} {o : VOut} {pas : List Nat} {fin : List Nat → List VElem × Fl} {extra : Fl} {c v : Nat}
    (h : vCheck j o = none) (hs : (pas.filterMap (scaleCheck s)).head? = some (c, v)) :
    vIssue s k j seen (.scaled o pas fin) extra = .trap c v := by
  simp only [vIssue, h, hs]

/-- Scales that can be read are read, and the results that they give are landed (R66). -/
theorem vIssue_scaled {s' : State} {seen : Nat → Byte} {o : VOut} {pas vs : List Nat} {fin : List Nat → List VElem × Fl} {extra : Fl}
    (h : vCheck j o = none) (hs : pas.filterMap (scaleCheck s) = []) (hr : readScales s k (j.core.X.seq + 1) pas = some (s', vs)) :
    vIssue s k j seen (.scaled o pas fin) extra = vLand s' k seen { o with out := (fin vs).1, fl := o.fl ||| (fin vs).2 } extra := by
  simp only [vIssue, h, hs, hr, List.head?_nil]

/-- The access checks look at the window alone. -/
theorem vCheck_congr {j' : Job} (h : j'.core.win = j.core.win) (o : VOut) : vCheck j' o = vCheck j o := by
  simp only [vCheck, h]

/-- The format codes are checked against the descriptors alone. -/
theorem explicitOk_congr {j' : Job} (h : j'.core.fmt = j.core.fmt) (c : Option (BitVec 4)) (l : List Nat) (d : DescOk) :
    explicitOk j' c l d = explicitOk j c l d := by
  simp only [explicitOk, codeFmt, h]

/-- Without a grant a vector word whose codes pass traps 0x01 (R159). -/
theorem vPlan_noGrant {i : Instr} {w : EWord} {x : VWord} {ops : List Word} (hd : explicitOk j x.fmt.df x.fmt.dl x.fmt.dd = true)
    (hs : explicitOk j x.fmt.sf x.fmt.sl x.fmt.sd = true) (hg : j.core.vs = none) :
    (vPlan i w x).f s k j ops = .trap 0x01 (wordBits i % 2 ^ 64) := by
  simp [vPlan, hd, hs, hg]

end

/-- A word that `eExec` runs with a plan of `vPlan` issues as the meaning `x` says: the plan's answer is `x`'s, once its checks have passed. -/
theorem vIssues_of_exec {i : Instr} {w : EWord} {x : VWord} (hx : ∀ s, exec i s = eExec s .X i w.tok (vPlan i w x)) : VIssues i w x := by
  intro s k j g df sf h hv r
  have hcheck : ∀ o, vCheck r o = vCheck j o := vCheck_congr (issuing_core_win j _ _ _)
  have hcode : ∀ c l d, explicitOk r c l d = explicitOk j c l d := explicitOk_congr (issuing_core_fmt j _ _ _)
  have htrap : ∀ {c v}, (vPlan i w x).f s k r (wordOps j .X (vPlan i w x)) = .trap c v → Runs i s (takeTrap s k .X c v) :=
    fun hf => traps_of (e := .X) h hv (hx s) hf
  refine ⟨fun hd hs hg => htrap ?_, fun hfit => ?_⟩
  · exact vPlan_noGrant (j := r) (by rw [hcode, hd]) (by rw [hcode, hs]) ((issuing_core_vs j _ _ _).trans hg)
  · intro c
    have hplan : ∀ {a}, x.ans c = a → (vPlan i w x).f s k r (wordOps j .X (vPlan i w x)) = vIssue s k r c.seen a (vTagMiss s r x c) :=
      fun ha => ha ▸ vPlan_f hfit
    refine ⟨fun o ha hc => flies_of h hv (hx s) ?_, fun o pas fin s' vs ha hc hs hr => flies_of h hv (hx s) ?_,
      fun o c' v ha hc => htrap ?_, fun o pas fin c' v ha hc => htrap ?_,
      fun o pas fin c' v ha hc hs => htrap ?_, fun c' v ha => htrap (hplan ha)⟩
    · exact (hplan ha).trans (vIssue_ok ((hcheck o).trans hc))
    · exact (hplan ha).trans (vIssue_scaled ((hcheck o).trans hc) hs (by rw [issuing_core_X]; exact hr))
    · exact (hplan ha).trans (vIssue_ok_trap ((hcheck o).trans hc))
    · exact (hplan ha).trans (vIssue_scaled_trap ((hcheck o).trans hc))
    · exact (hplan ha).trans (vIssue_scale_trap ((hcheck o).trans hc) hs)

/-- Every vector word but VSHAPE does as the statement says, so that all of it turns on VSHAPE. -/
theorem vectorWordsIssue_iff_vshape : Obligations.VectorWordsIssue ↔
    ∀ (w : EWord) (s : State) (k : Nat) (j : Job) (r : Word) (f : NFmt), EReady s k j .X w.tok (planVshape w) →
      wordOps j .X (planVshape w) = [r] → codeFmt j w.fmt.toNat = some f →
      let g : Option VGrant := if r = 0 then none else some ⟨Nat.min r.toNat (Nat.min 2048 (65536 / f.cont)), w.fmt⟩
      Flies (.vshape w) s k j .X w.tok (planVshape w) s
        { Effect.none with vs := some g, push := if w.func.getLsbD 0 then [grantEntry g] else [] } := by
  refine and_iff_left fun w => ?_
  and_intros <;> exact vIssues_of_exec fun _ => rfl

/-! ### VSHAPE -/

/-- What VSHAPE lands with the grant `g`: VS, and with Q its entry of q12 (R158). -/
def shapeEffect (w : EWord) (g : Option VGrant) : Effect :=
  { Effect.none with vs := some g, push := if w.func.getLsbD 0 then [grantEntry g] else [] }

section
variable {s : State} {k : Nat} {j : Job} {w : EWord} {r : Word} {f : NFmt}

/-- With the vector unit free, which the statement does not ask for, VSHAPE issues its grant. -/
theorem vshape_flies (h : EReady s k j .X w.tok (planVshape w)) (hv : vectorGo s k j (.vshape w) = true)
    (hr : wordOps j .X (planVshape w) = [r]) (hf : codeFmt j w.fmt.toNat = some f) :
    Flies (.vshape w) s k j .X w.tok (planVshape w) s (shapeEffect w (shapeGrant w.fmt f r.toNat)) := by
  refine flies_of h hv rfl ?_
  have hf' : codeFmt (issuing j .X w.tok (planVshape w)) w.fmt.toNat = some f := by simpa only [codeFmt, issuing_core_fmt] using hf
  rw [hr]
  show (match codeFmt (issuing j .X w.tok (planVshape w)) w.fmt.toNat with | none => IRes.trap 0x09 0 | some f => _) = _
  rw [hf']
  rfl

/-- With the vector unit taken, it waits. -/
theorem vshape_waits (h : EReady s k j .X w.tok (planVshape w)) (hv : vectorGo s k j (.vshape w) = false) : Runs (.vshape w) s s :=
  eExec_unitTaken h hv

end

/-- A word that waits has not issued. -/
theorem not_flies_of_waits {i : Instr} {s : State} {k : Nat} {j : Job} {e : EStream} {tok : BitVec 4} {p : EPlan} {eff : Effect}
    (h : Runs i s s) (hj : jobAt s k = some j) : ¬ Flies i s k j e tok p s eff := by
  rintro ⟨t, j', v, hrun, hj', hin, -⟩
  have ht : s = t := Host.Outcome.next.inj (Eq.trans (Eq.symm h) hrun)
  subst ht
  have hjj : j = j' := Option.some.inj (hj.symm.trans hj')
  subst hjj
  simp [hj] at hin

/-! ### The counterexample: a second VSHAPE behind the first -/

/-- VSHAPE.fp32 imm 2047. -/
def shapeWord : EWord := ⟨0, 0, 1, 0, ⟨0, 0, 0⟩, ⟨0, 3, 2047⟩, ⟨0, 0, 0⟩, 0⟩

/-- A booted machine with job `j` in slot 0, whose code is that VSHAPE twice. -/
def shapeState (j : Job) : State :=
  setJob (placeWord State.reset 192 (wordBits (.vshape shapeWord) * 2 ^ 96 + wordBits (.vshape shapeWord))) 0 j

theorem shapeState_job (j : Job) : jobAt (shapeState j) 0 = some j := jobAt_setJob_self _ _ _

theorem placeJob_shapeReady : EReady (shapeState placeJob) 0 placeJob .X shapeWord.tok (planVshape shapeWord) :=
  ⟨rfl, shapeState_job _, rfl, by decide, by decide, (nomatch ·), (nomatch ·), by decide⟩

/-- The job once its first VSHAPE is in flight. -/
def shapingJob : Job :=
  let q := afterIssue 0 (.vshape shapeWord) placeJob placeJob .X 0 (planVshape shapeWord) (shapeEffect shapeWord (some ⟨2047, 1⟩))
  q.setEng .X { q.eng .X with pc := lastSlot placeJob .X (planVshape shapeWord) + 12 }

theorem shapingJob_shapeReady : EReady (shapeState shapingJob) 0 shapingJob .X shapeWord.tok (planVshape shapeWord) :=
  ⟨rfl, shapeState_job _, rfl, by decide, by decide, (nomatch ·), (nomatch ·), by decide⟩

/-- The machine reaches it by its first VSHAPE. -/
theorem shapingJob_reached : Runs (.vshape shapeWord) (shapeState placeJob) (shapeState shapingJob) := by
  obtain ⟨t, j', v, hrun, -, -, -, ht⟩ := vshape_flies placeJob_shapeReady (by decide)
    (show wordOps placeJob .X (planVshape shapeWord) = [2047] by decide)
    (show codeFmt placeJob shapeWord.fmt.toNat = some fp32 by decide)
  rw [shapeState_job, Option.getD_some] at ht
  have hst : t = shapeState shapingJob := ht (fun _ _ h => nomatch h)
  exact hst ▸ hrun

/-- Refutes O39: a VSHAPE that follows a VSHAPE in flight waits for the vector unit (R240), though the statement admits it. `shapingJob_reached`
runs the first VSHAPE; with the unit free a VSHAPE issues as stated (`vshape_flies`), and every other vector word does (`vIssues_of_exec`). -/
theorem not_vectorWordsIssue : ¬ Obligations.VectorWordsIssue := by
  intro h
  have hshape := vectorWordsIssue_iff_vshape.mp h
  have htaken : vectorGo (shapeState shapingJob) 0 shapingJob (.vshape shapeWord) = false := by decide
  exact not_flies_of_waits (vshape_waits shapingJob_shapeReady htaken) (shapeState_job _)
    (hshape shapeWord _ 0 shapingJob 2047 _ shapingJob_shapeReady (by decide) rfl)

end Sys2Proof.Machine
end

section
/-!
PROOFS, part 27. Matrix words that name no tile: what their plans answer once their checks pass.
-/
namespace Sys2Proof.Machine

/-! ### Matrix words issue whatever the vector unit does -/

/-- `i` is a matrix word with the fields `w` and the plan `p`: no vector word, so that the vector unit never holds it back (R240). -/
structure MatrixWord (i : Instr) (w : MWord) (p : EPlan) : Prop where
  go : ∀ s k j, vectorGo s k j i = true
  run : ∀ s, exec i s = eExec s .X i w.tok p

theorem matrixWord_of_head {i : Instr} {w : MWord} {p : EPlan} (op : Nat) (ho : op < 256) (he : encode i = some (.m (w.encHead op) w.encTail))
    (hx : ∀ s, exec i s = eExec s .X i w.tok p) : MatrixWord i w p := by
  obtain ⟨-, -, hc, -⟩ := Laws.RoundTrip.decodeMWord_enc op ho w
  have hb : wordBits i = w.encHead op := by simp only [wordBits, he]
  have hv : isVector i = false := by
    simp only [isVector, hb, beq_eq_false_iff_ne]
    simp only [bits] at hc
    omega
  exact ⟨fun s k j => by simp [vectorGo, hv], hx⟩

theorem mthr_word (w : MWord) : MatrixWord (.mthr w) w (planMthr w) := matrixWord_of_head 0x3A (by decide) rfl fun _ => rfl
theorem mshape_word (w : MWord) : MatrixWord (.mshape w) w (planMshape w) := matrixWord_of_head 0x1 (by decide) rfl fun _ => rfl
theorem mclm_word (w : MWord) : MatrixWord (.mclm w) w (planMclm w) := matrixWord_of_head 0x21 (by decide) rfl fun _ => rfl
theorem mrel_word (w : MWord) : MatrixWord (.mrel w) w (planMrel w) := matrixWord_of_head 0x22 (by decide) rfl fun _ => rfl
theorem mlda_word (w : MWord) : MatrixWord (.mlda w) w (planMlda w) := matrixWord_of_head 0x20 (by decide) rfl fun _ => rfl
theorem mzero_word (w : MWord) : MatrixWord (.mzero w) w (planMzero w) := matrixWord_of_head 0x29 (by decide) rfl fun _ => rfl
theorem macr_word (w : MWord) : MatrixWord (.macr w) w (planMacr w) := matrixWord_of_head 0x28 (by decide) rfl fun _ => rfl

section
variable {i : Instr} {w : MWord} {p : EPlan} {s s' : State} {k : Nat} {j : Job}

theorem MatrixWord.flies {eff : Effect} (m : MatrixWord i w p) (h : EReady s k j .X w.tok p)
    (hf : p.f s k (issuing j .X w.tok p) (wordOps j .X p) = .fly s' eff) : Flies i s k j .X w.tok p s' eff :=
  flies_of h (m.go s k j) (m.run s) hf

theorem MatrixWord.traps {c v : Nat} (m : MatrixWord i w p) (h : EReady s k j .X w.tok p)
    (hf : p.f s k (issuing j .X w.tok p) (wordOps j .X p) = .trap c v) : Runs i s (takeTrap s k .X c v) :=
  traps_of (e := .X) h (m.go s k j) (m.run s) hf

theorem MatrixWord.waits (m : MatrixWord i w p) (h : EReady s k j .X w.tok p)
    (hf : p.f s k (issuing j .X w.tok p) (wordOps j .X p) = .wait) : Runs i s s :=
  waits_of h (m.go s k j) (m.run s) hf

theorem MatrixWord.pends {j' : Job} (m : MatrixWord i w p) (h : EReady s k j .X w.tok p)
    (hf : p.f s k (issuing j .X w.tok p) (wordOps j .X p) = .pend s' j') : Runs i s (setJob s' k j') :=
  pends_of h (m.go s k j) (m.run s) hf

end

/-! ### What a word sees of its job as it issues -/

/-- A job that knows `v` of its windows' clocks. -/
def Job.knowing (j : Job) (v : SMap VC) : Job := { j with core := { j.core with wk := v } }

theorem issuing_eq_knowing (j : Job) (e : EStream) (tok : BitVec 4) (p : EPlan) : ∃ v, issuing j e tok p = j.knowing v := issueKnow_eq j e tok _

theorem land_knowing (j : Job) (v : SMap VC) (e : Effect) : (j.knowing v).land e = (j.land e).knowing v := by
  cases hm : e.mask with
  | none => simp only [Job.land, Job.knowing, hm]
  | some x =>
    simp only [Job.land, Job.knowing, hm]
    split <;> rfl

theorem ahead_knowing (j : Job) (v : SMap VC) : (j.knowing v).ahead = j.ahead.knowing v := by
  suffices h : ∀ (l : List InFlight) (a : Job),
      l.foldl (fun (j : Job) i => j.land i.eff) (a.knowing v) = (l.foldl (fun (j : Job) i => j.land i.eff) a).knowing v from h _ _
  intro l
  induction l with
  | nil => exact fun _ => rfl
  | cons x r ih =>
    intro a
    simp only [List.foldl_cons, land_knowing]
    exact ih _

section
variable (j : Job) (e : EStream) (tok : BitVec 4) (p : EPlan)

@[simp] theorem issuing_ahead_ms : (issuing j e tok p).ahead.core.ms = j.ahead.core.ms := by
  obtain ⟨v, h⟩ := issuing_eq_knowing j e tok p; rw [h, ahead_knowing]; rfl
@[simp] theorem issuing_ahead_thr : (issuing j e tok p).ahead.core.thr = j.ahead.core.thr := by
  obtain ⟨v, h⟩ := issuing_eq_knowing j e tok p; rw [h, ahead_knowing]; rfl
@[simp] theorem issuing_ahead_slots : (issuing j e tok p).ahead.core.slots = j.ahead.core.slots := by
  obtain ⟨v, h⟩ := issuing_eq_knowing j e tok p; rw [h, ahead_knowing]; rfl
@[simp] theorem issuing_xWindow : (issuing j e tok p).xWindow = j.xWindow := by simp only [Job.xWindow, issuing_core_X]
@[simp] theorem issuing_xPending (accs slots : List Nat) : (issuing j e tok p).xPending accs slots = j.xPending accs slots := by
  simp only [Job.xPending, issuing_core_X]
@[simp] theorem issuing_codeFmt (c : Nat) : codeFmt (issuing j e tok p) c = codeFmt j c := by simp only [codeFmt, issuing_core_fmt]
@[simp] theorem issuing_macrFmt (c : Nat) : macrFmt (issuing j e tok p) c = macrFmt j c := by simp only [macrFmt, issuing_codeFmt]
@[simp] theorem issuing_winSeen (s : State) (me : EStream) (know : VC) : winSeen s (issuing j e tok p) me know = winSeen s j me know := by
  obtain ⟨v, h⟩ := issuing_eq_knowing j e tok p; rw [h]; rfl

end

section
variable {i : Instr} {w : MWord} {j : Job}

theorem needMs_none (h : j.ahead.core.ms = none) (f : MGrant → IRes) : needMs i j f = .trap 0x01 (wordBits i % 2 ^ 64) := by
  simp only [needMs, h]
theorem needMs_some {g : MGrant} (h : j.ahead.core.ms = some g) (f : MGrant → IRes) : needMs i j f = f g := by simp only [needMs, h]
theorem needSlot_none (h : smGet j.ahead.core.slots w.aslot.toNat = none) (f : Slot → IRes) : needSlot w j f = .trap 0x01 w.aslot.toNat := by
  simp only [needSlot, h]
theorem needSlot_some {t : Slot} (h : smGet j.ahead.core.slots w.aslot.toNat = some t) (f : Slot → IRes) : needSlot w j f = f t := by
  simp only [needSlot, h]

end

/-! ### MTHR and MSHAPE (R193 to R195) -/

section
variable {w : MWord} {s : State} {k : Nat} {j : Job} {v : Word}

/-- The table that MTHR names: the default one for an absent operand. -/
def mthrTable (w : MWord) (v : Word) : Word := if w.w.mode = 3 then thrDefault else v

theorem mthr_flies (h : EReady s k j .X w.tok (planMthr w)) (hv : wordOps j .X (planMthr w) = [v]) (ht : thrValid (mthrTable w v).toNat = true) :
    Flies (.mthr w) s k j .X w.tok (planMthr w) s { Effect.none with thr := some (mthrTable w v) } :=
  (mthr_word w).flies h (by rw [hv]; exact if_pos ht)

theorem mthr_traps (h : EReady s k j .X w.tok (planMthr w)) (hv : wordOps j .X (planMthr w) = [v]) (ht : thrValid (mthrTable w v).toNat = false) :
    Runs (.mthr w) s (takeTrap s k .X 0x01 (mthrTable w v).toNat) :=
  (mthr_word w).traps h (by rw [hv]; exact if_neg (Bool.not_eq_true _ ▸ ht))

/-- The grant of MSHAPE for a request of `c` rows, when thresholds `t` stand. -/
def mshapeRows (t c : Word) : Nat := if c = 0 then 0 else shapeRows t.toNat c.toNat

theorem mshape_flies (h : EReady s k j .X w.tok (planMshape w)) (hv : wordOps j .X (planMshape w) = [v]) :
    Flies (.mshape w) s k j .X w.tok (planMshape w) s
      { Effect.none with ms := some (if v = 0 then none else some ⟨mshapeRows j.ahead.core.thr v, w.pint.toNat + 1⟩),
                         push := [BitVec.ofNat 64 (3 * 2 ^ 60 + Nat.min v.toNat 4095 * 2 ^ 16 + w.pint.toNat * 2 ^ 12 + mshapeRows j.ahead.core.thr v)] } := by
  refine (mshape_word w).flies h ?_
  have hz : (v.toNat = 0) = (v = 0) := by rw [BitVec.toNat_eq]; rfl
  rw [hv]
  simp only [planMshape, mPlan, List.headD_cons, hz, issuing_ahead_thr, mshapeRows]

end

/-! ### MCLM, MREL and MLDA (R196, R197) -/

section
variable {w : MWord} {s : State} {k : Nat} {j : Job} {g : MGrant} {t : Slot} {v : Word}

/-- A span that starts aligned inside the window and ends inside it passes the checks of R151. -/
theorem winBounds_inside {size al n : Nat} {a : Int} (ha : a % al = 0) (h0 : 0 ≤ a) (hn : a + n ≤ size) : winBounds size [(a, al)] [(a, n)] = none := by
  simp [winBounds, lowest, ha, Int.not_lt.mpr hn, Int.not_lt.mpr h0]

/-- What MLDA lands with the bytes it sees: the slot, tagged as the window's granules are when they agree. -/
def mldaEffect (w : MWord) (win : Window) (seen : Nat → Byte) (v : Word) (n : Nat) : Effect :=
  { Effect.none with slots := [(w.aslot.toNat, some ⟨memWriteBytes [] 0 ((List.range n).map (fun o => seen (v.toNat + o))),
      sharedGran win (granulesOf v.toNat n), []⟩)], reads := [(v.toInt, n)] }

/-- With grant, slot and bounds in order, MLDA waits for window writes and vector words before it (R153). -/
theorem mlda_f_waits {q : Job} (hg : q.ahead.core.ms = some g) (ht : smGet q.ahead.core.slots w.aslot.toNat = some t)
    (hb : winBounds q.core.win.size [(v.toInt, 16)] [(v.toInt, 48 * nRows w g)] = none) (hx : q.xWindow = true) :
    (planMlda w).f s k q [v] = .wait := by
  simp only [planMlda, mPlan, needMs_some hg, needSlot_some ht, List.headD_cons, hb, hx, if_true]

/-- With none before it, and no poison, it loads the slot. -/
theorem mlda_f_flies {q : Job} (hg : q.ahead.core.ms = some g) (ht : smGet q.ahead.core.slots w.aslot.toNat = some t)
    (hb : winBounds q.core.win.size [(v.toInt, 16)] [(v.toInt, 48 * nRows w g)] = none) (h0 : 0 ≤ v.toInt) (hx : q.xWindow = false)
    (hp : winPoison q.core.win [(v.toInt, 48 * nRows w g)] = none) :
    (planMlda w).f s k q [v] = .fly s (mldaEffect w q.core.win (winSeen s q .X (q.know .X)) v (48 * nRows w g)) := by
  have hn : v.toInt.toNat = v.toNat := by rw [BitVec.toInt_eq_toNat_cond] at h0 ⊢; split at h0 <;> omega
  simp only [planMlda, mPlan, needMs_some hg, needSlot_some ht, List.headD_cons, hb, hp, hn, hx, mldaEffect, Bool.false_eq_true, if_false]

end

/-! ### MACR (R201) -/

section
variable {w : MWord} {s : State} {k : Nat} {j : Job} {g : MGrant} {f : NFmt} {v : Word}

/-- The accumulators that MACR reads in format `f`. -/
def macrAccs (w : MWord) (f : NFmt) : List Nat := w.acc.toNat :: (if f = fp64 then [w.acc.toNat + 1] else [])

theorem macr_f_waits {q : Job} (hg : q.ahead.core.ms = some g) (hf : macrFmt q w.afmt.toNat = some f)
    (hb : winBounds q.core.win.size [(v.toInt, if 16 ≤ f.cont then f.cont / 8 else 16)] [(v.toInt, (64 * nRows w g * f.cont + 7) / 8)] = none)
    (hx : q.xWindow = true ∨ q.xPending (macrAccs w f) [] = true) : (planMacr w).f s k q [v] = .wait := by
  simp only [planMacr, mPlan, needMs_some hg, hf, List.headD_cons, hb]
  exact if_pos ((Bool.or_eq_true _ _).mpr hx)

/-- The cells that MACR writes: the first `n` elements in row order. -/
def macrCells (w : MWord) (f : NFmt) (p0 p1 : Acc) (seen : Nat → Byte) (v : Word) (n : Nat) : List Host.Cell :=
  vCells seen ((List.range n).map (fun i => ⟨v.toInt, f.cont, i, (macrElem f w.rm.toNat p0 p1 i).1⟩))

theorem macr_f_flies {q : Job} (hg : q.ahead.core.ms = some g) (hf : macrFmt q w.afmt.toNat = some f)
    (hb : winBounds q.core.win.size [(v.toInt, if 16 ≤ f.cont then f.cont / 8 else 16)] [(v.toInt, (64 * nRows w g * f.cont + 7) / 8)] = none)
    (hx : q.xWindow = false) (hp : q.xPending (macrAccs w f) [] = false) :
    let p0 := (smGetD q.core.accs w.acc.toNat Acc.reset).promote.1
    let p1 := if f = fp64 then (smGetD q.core.accs (w.acc.toNat + 1) Acc.reset).promote.1 else Acc.reset
    ∃ fl el, (planMacr w).f s k q [v] = .fly s { Effect.none with
      win := macrCells w f p0 p1 (winSeen s q .X (q.know .X)) v (64 * nRows w g)
      accs := [(w.acc.toNat, p0)] ++ (if f = fp64 then [(w.acc.toNat + 1, p1)] else []), flags := fl, elogs := el } := by
  intro p0 p1
  have hp1 : (if f = fp64 then (smGetD q.core.accs (w.acc.toNat + 1) Acc.reset).promote else (Acc.reset, false)).1 = p1 := by
    simp only [p1]; split <;> rfl
  have hgo : ¬ (q.xWindow || q.xPending (w.acc.toNat :: (if f = fp64 then [w.acc.toNat + 1] else [])) []) = true := by
    simpa only [hx, Bool.false_or, Bool.not_eq_true, macrAccs] using hp
  simp only [planMacr, mPlan, needMs_some hg, hf, List.headD_cons, hb]
  rw [if_neg hgo, hp1, List.map_map]
  exact ⟨_, _, rfl⟩

end

section
variable {w : MWord} {s : State} {k : Nat} {j : Job} {v : Word}

theorem mlda_noGrant_traps (h : EReady s k j .X w.tok (planMlda w)) (hg : j.ahead.core.ms = none) :
    Runs (.mlda w) s (takeTrap s k .X 0x01 (wordBits (.mlda w) % 2 ^ 64)) :=
  (mlda_word w).traps h (needMs_none (by rw [issuing_ahead_ms, hg]) _)

theorem mlda_noSlot_traps (h : EReady s k j .X w.tok (planMlda w)) (hg : j.ahead.core.ms.isSome = true)
    (ht : smGet j.ahead.core.slots w.aslot.toNat = none) : Runs (.mlda w) s (takeTrap s k .X 0x01 w.aslot.toNat) := by
  obtain ⟨g, hg⟩ := Option.isSome_iff_exists.mp hg
  exact (mlda_word w).traps h ((needMs_some (by rw [issuing_ahead_ms, hg]) _).trans (needSlot_none (by rw [issuing_ahead_slots, ht]) _))

end

/-- Settles O42: the plan of each word, once its checks pass, answers its effect; a word that waits for earlier words or fails a check has its own
lemma above. -/
theorem matrixRegisterWords : Obligations.MatrixRegisterWords := by
  intro w s k j
  refine ⟨fun v h hv => ⟨mthr_flies h hv, mthr_traps h hv⟩, fun c h hc => mshape_flies h hc, fun h => (mclm_word w).flies h rfl,
    fun h => (mrel_word w).flies h rfl, fun g t v h hv hg ht ha h0 hn => ?_, fun g h hg => ?_, fun g f v h hv hg hf hb => ?_,
    fun v h _ => ⟨mlda_noGrant_traps h, mlda_noSlot_traps h⟩⟩
  · have hg' := (issuing_ahead_ms j .X w.tok (planMlda w)).trans hg
    have ht' := (congrArg (smGet · _) (issuing_ahead_slots j .X w.tok (planMlda w))).trans ht
    have hb := winBounds_inside (al := 16) ha h0 hn
    rw [← issuing_core_win j .X w.tok (planMlda w)] at hb
    refine ⟨fun hx => (mlda_word w).waits h ?_, fun hx hp => (mlda_word w).flies h ?_⟩
    · rw [hv, mlda_f_waits hg' ht' hb (by rw [issuing_xWindow, hx])]
    · rw [hv, mlda_f_flies hg' ht' hb h0 (by rw [issuing_xWindow, hx]) (by rw [issuing_core_win, hp]), issuing_core_win, issuing_winSeen]
      rfl
  · exact (mzero_word w).flies h (needMs_some (by rw [issuing_ahead_ms, hg]) _)
  · have hg' := (issuing_ahead_ms j .X w.tok (planMacr w)).trans hg
    have hf' := (issuing_macrFmt j .X w.tok (planMacr w) _).trans hf
    rw [← issuing_core_win j .X w.tok (planMacr w)] at hb
    refine ⟨fun hx => (macr_word w).waits h ?_, fun hx hp => ?_⟩
    · rw [hv, macr_f_waits hg' hf' hb (by rw [issuing_xWindow, issuing_xPending]; exact hx)]
    · obtain ⟨fl, el, hfly⟩ := macr_f_flies (s := s) (k := k) hg' hf' hb (by rw [issuing_xWindow, hx]) (by rw [issuing_xPending]; exact hp)
      rw [issuing_core_accs, issuing_winSeen, ← hv] at hfly
      exact ⟨_, (macr_word w).flies h hfly, rfl, rfl, rfl, rfl, rfl⟩

end Sys2Proof.Machine
end

section
/-!
PROOFS, part 28. The frames of a cluster and the looked-up word of a job (R185, R208 to R216): what a lookup that hits, the issue of its word and the
copy of a key leave.
-/
namespace Sys2Proof.Machine

/-! ### Writing an entry that is there -/

/-- Writing an entry that is there replaces it where it stands. -/
theorem smSet_split {α : Type} {m : SMap α} {k : Nat} {v : α} (h : smGet m k = some v) :
    ∃ a b, m = a ++ (k, v) :: b ∧ ∀ v', smSet m k v' = a ++ (k, v') :: b := by
  induction m with
  | nil => exact nomatch h
  | cons e r ih =>
    obtain ⟨k', u⟩ := e
    unfold smGet at h
    split at h
    · subst_vars
      cases h
      exact ⟨[], r, rfl, fun v' => by simp [smSet]⟩
    · split at h
      · exact nomatch h
      · obtain ⟨a, b, hm, hs⟩ := ih h
        refine ⟨(k', u) :: a, b, by rw [hm]; rfl, fun v' => ?_⟩
        unfold smSet
        rw [if_neg (by assumption), if_neg (by omega), hs]
        rfl

/-- Of two writes of one key the second stays. -/
theorem smSet_smSet {α : Type} (m : SMap α) (k : Nat) (v v' : α) : smSet (smSet m k v) k v' = smSet m k v' := by
  induction m with
  | nil => simp [smSet]
  | cons e r ih =>
    obtain ⟨k', u⟩ := e
    simp only [smSet]
    split
    · simp [smSet]
    · split
      · simp [smSet]
      · simp only [smSet]
        rw [if_neg (by assumption), if_neg (by assumption), ih]

@[simp] theorem setCluster_setCluster (s : State) (cl : Nat) (c c' : Cluster) : setCluster (setCluster s cl c) cl c' = setCluster s cl c' := by
  simp only [setCluster, smSet_smSet]

/-! ### A state in which a cluster and a job's looked-up word have changed -/

/-- The state with cluster `c` for job `j` in slot `k`, whose looked-up word is `l`. -/
def lookedUp (s : State) (k : Nat) (j : Job) (l : Option Look) (c : Cluster) : State := setCluster (setJob s k { j with lookup := l }) (jCluster k) c

section
variable (s : State) (k : Nat) (j : Job) (l l' : Option Look) (c c' : Cluster)

@[simp] theorem clusterSt_lookedUp : clusterSt (lookedUp s k j l c) (jCluster k) = c := clusterSt_setCluster_self _ _ _
@[simp] theorem jobAt_lookedUp : jobAt (lookedUp s k j l c) k = some { j with lookup := l } := by simp [lookedUp]
@[simp] theorem setCluster_lookedUp : setCluster (lookedUp s k j l c) (jCluster k) c' = lookedUp s k j l c' := setCluster_setCluster _ _ _ _
@[simp] theorem lookedUp_M : (lookedUp s k j l c).M = s.M := rfl
@[simp] theorem lookedUp_fresh : (lookedUp s k j l c).fresh = s.fresh := rfl
@[simp] theorem cycleOf_lookedUp : cycleOf (lookedUp s k j l c) k = cycleOf s k := rfl

/-- Marking the word again changes its mark. -/
theorem modJob_lookedUp : modJob (lookedUp s k j l c) k (fun j => { j with lookup := l' }) = lookedUp s k j l' c := by
  simp only [modJob, jobAt_lookedUp]
  simp only [lookedUp, setJob, setCluster, smSet_smSet]

end

/-- Two clusters between which no grant changes: their leases are held by the same job, their turns stand alike, and the same keys are ready. -/
structure GrantsAlike (c c' : Cluster) : Prop where
  lease : (liveLease c').map (fun l => l.job) = (liveLease c).map (fun l => l.job)
  arb : c'.arb = c.arb
  arbSlot : c'.arbSlot = c.arbSlot
  ready : ∀ f page len array run, (keyFrames c' f page len).any (fun e => e.2.filled && (!array || arrayIdle run e.1)) =
    (keyFrames c f page len).any (fun e => e.2.filled && (!array || arrayIdle run e.1))

theorem tileReady_alike {c c' : Cluster} (h : GrantsAlike c c') (s : State) (k : Nat) (j : Job) (l : Option Look) (x : Cluster) (run : List Nat) (q : Job) :
    tileReady (lookedUp s k j l x) c' run q = tileReady s c run q := by
  simp only [tileReady, h.ready]
  rfl

section
variable {s : State} {k : Nat} {j : Job} (hj : jobAt s k = some j)
include hj

/-- A change of the cluster alone leaves the word as it is marked. -/
theorem setCluster_eq_lookedUp (c : Cluster) : setCluster s (jCluster k) c = lookedUp s k j j.lookup c := by
  rw [lookedUp, show ({ j with lookup := j.lookup } : Job) = j from rfl, setJob_same hj]

/-- The jobs change in that mark alone. -/
theorem lookedUp_jobs (l : Option Look) (c : Cluster) :
    ∃ a b, s.jobs = a ++ (k, j) :: b ∧ (lookedUp s k j l c).jobs = a ++ (k, { j with lookup := l }) :: b := by
  obtain ⟨a, b, ha, hs⟩ := smSet_split hj
  exact ⟨a, b, ha, hs _⟩

theorem runningOn_lookedUp (l : Option Look) (c : Cluster) (cl : Nat) : runningOn (lookedUp s k j l c) cl = runningOn s cl := by
  obtain ⟨a, b, h, h'⟩ := lookedUp_jobs hj l c
  simp only [runningOn, h, h', List.filter_append, List.filter_cons]
  split <;> simp

theorem winSeen_lookedUp (l : Option Look) (c : Cluster) (q : Job) (me : EStream) (know : VC) :
    winSeen (lookedUp s k j l c) q me know = winSeen s q me know := by
  obtain ⟨a, b, h, h'⟩ := lookedUp_jobs hj l c
  have hw : cpymWrites (lookedUp s k j l c) q = cpymWrites s q := by simp [cpymWrites, h, h']
  simp only [winSeen, hw, lookedUp_fresh]
  rfl

/-- A job's own mark and what it does to the frames' order take no grant from it. -/
theorem granted_lookedUp {c' : Cluster} (hc : GrantsAlike (clusterSt s (jCluster k)) c') (hg : granted s k = true) (l : Option Look) :
    granted (lookedUp s k j l c') k = true := by
  obtain ⟨a, b, h, h'⟩ := lookedUp_jobs hj l c'
  have hd : ∀ n, turnDist c' n = turnDist (clusterSt s (jCluster k)) n := fun n => by simp only [turnDist, hc.arb, hc.arbSlot]
  have hr : ∀ run q, tileReady (lookedUp s k j l c') c' run q = tileReady s (clusterSt s (jCluster k)) run q := tileReady_alike hc s k j l c'
  simp only [granted, clusterSt_lookedUp, runningOn_lookedUp hj, hc.lease, hd, hr, h', List.filter_append, List.filter_cons] at hg ⊢
  rw [h] at hg
  simpa using hg

end

/-! ### A lookup that hits (R185, R209, R211) -/

theorem GrantsAlike.trans {a b c : Cluster} (h : GrantsAlike a b) (g : GrantsAlike b c) : GrantsAlike a c :=
  ⟨g.lease.trans h.lease, g.arb.trans h.arb, g.arbSlot.trans h.arbSlot,
    fun f page len array run => (g.ready f page len array run).trans (h.ready f page len array run)⟩

theorem liveLease_budget {c : Cluster} {l : Lease} (h : liveLease c = some l) : 0 < l.budget := by
  unfold liveLease at h
  split at h
  · split at h
    · cases h; assumption
    · exact nomatch h
  · exact nomatch h

/-- Naming a frame changes what the lease names, and nothing else. -/
theorem leaseName_eq (c : Cluster) (k fr : Nat) :
    ∃ l, leaseName c k fr = { c with lease := l } ∧ (liveLease { c with lease := l }).map (fun l => l.job) = (liveLease c).map (fun l => l.job) := by
  unfold leaseName
  split
  · rename_i l hl
    extract_lets n
    split
    · refine ⟨_, rfl, ?_⟩
      rw [hl]
      simp [liveLease, liveLease_budget hl]
    · exact ⟨c.lease, rfl, rfl⟩
  · exact ⟨c.lease, rfl, rfl⟩

@[simp] theorem leaseName_frames (c : Cluster) (k fr : Nat) : (leaseName c k fr).frames = c.frames := by
  obtain ⟨l, h, -⟩ := leaseName_eq c k fr
  rw [h]

@[simp] theorem leaseName_hit (c : Cluster) (k fr : Nat) : (leaseName c k fr).hit = c.hit := by
  obtain ⟨l, h, -⟩ := leaseName_eq c k fr
  rw [h]

theorem leaseName_alike (c : Cluster) (k fr : Nat) : GrantsAlike c (leaseName c k fr) := by
  obtain ⟨l, h, hl⟩ := leaseName_eq c k fr
  rw [h]
  exact ⟨hl, rfl, rfl, fun _ _ _ _ _ => rfl⟩

/-- The cluster once job `k` has looked up frame `fr`, which holds `f`: `counted` if the lookup counts, `fresh` if it is the word's first. -/
def hitCluster (c : Cluster) (k fr : Nat) (f : Frame) (counted fresh : Bool) : Cluster :=
  { c with
    hit := c.hit + (if counted && fresh then 1 else 0)
    frames := if fresh then smSet c.frames fr { f with used := c.clock } else c.frames
    clock := c.clock + 1
    waitKey := c.waitKey.filter (fun w => w.1 != k) ++ [(k, fr)] }

section
variable {c : Cluster} {fr : Nat} {f : Frame} (hf : smGet c.frames fr = some f) (k : Nat) (counted fresh : Bool)
include hf

/-- The frame taken is as it was, but for its place in the LRU order. -/
theorem hitCluster_frame : ∃ u, smGet (hitCluster c k fr f counted fresh).frames fr = some { f with used := u } := by
  cases fresh
  · exact ⟨f.used, hf⟩
  · exact ⟨c.clock, smGet_smSet_self _ _ _⟩

theorem hitCluster_alike : GrantsAlike c (hitCluster c k fr f counted fresh) := by
  refine ⟨rfl, rfl, rfl, fun d page len array run => ?_⟩
  cases fresh with
  | false => rfl
  | true =>
    obtain ⟨a, b, hm, hs⟩ := smSet_split hf
    have hk : (hitCluster c k fr f counted true).frames = a ++ (fr, { f with used := c.clock }) :: b := hs _
    simp only [keyFrames, hk, hm, List.filter_append, List.filter_cons]
    split <;> simp [Frame.filled]

end

/-- Job `k` hits a key (domain `f`, `page`, `len`): the copy that a lookup takes is frame `fr`, which holds `frame`, filled, and the arbiter grants
the job its word (R216). -/
structure KeyHit (s : State) (k f page len fr : Nat) (frame : Frame) : Prop where
  best : bestFrame (clusterSt s (jCluster k)) (runningOn s (jCluster k)) f page len = some fr
  held : smGet (clusterSt s (jCluster k)).frames fr = some frame
  filled : frame.filled = true
  turn : granted s k = true

section
variable (s : State) (cl : Nat) (counted fresh : Bool)

/-- The lookup of a word is counted when it is its first (R209). -/
theorem clusterSt_counted : clusterSt (if fresh then countLookup s cl counted true else s) cl =
    { clusterSt s cl with hit := (clusterSt s cl).hit + (if counted && fresh then 1 else 0) } := by
  cases fresh <;> cases counted <;> simp [countLookup]

theorem setCluster_counted (c : Cluster) : setCluster (if fresh then countLookup s cl counted true else s) cl c = setCluster s cl c := by
  cases fresh <;> cases counted <;> simp [countLookup]

end

section
variable {s : State} {k : Nat} {j q : Job} {ea len fr : Nat} {f : Frame} {counted pin array : Bool} {accs slots : List Nat}

/-- A lookup that hits has its frame when it needs no idle array or has one, and no earlier word of X still writes what its word reads. -/
theorem lookup_hit (hj : jobAt s k = some j) (hh : KeyHit s k q.fdom (ea / 4096) len fr f)
    (hidle : array = true → arrayIdle (runningOn s (jCluster k)) fr = true) (hp : q.xPending accs slots = false) :
    ∃ c, lookup s k q ea len counted pin array accs slots = .have_ (lookedUp s k j (some (.tile (ea / 4096) len array accs slots)) c) fr ∧
      (∃ u, smGet c.frames fr = some { f with used := u }) ∧
      c.hit = (clusterSt s (jCluster k)).hit + (if counted && q.lookup.isNone then 1 else 0) := by
  obtain ⟨hb, hf, hfill, hg⟩ := hh
  let c' := hitCluster (clusterSt s (jCluster k)) k fr f counted q.lookup.isNone
  let c := leaseName c' k fr
  obtain ⟨u, hu⟩ : ∃ u, smGet c'.frames fr = some { f with used := u } := hitCluster_frame hf k counted _
  have hgo : granted (lookedUp s k j (some (.tile (ea / 4096) len array accs slots)) c) k = true :=
    granted_lookedUp hj ((hitCluster_alike hf k counted _).trans (leaseName_alike _ k fr)) hg _
  have hgoes : (((smGet c'.frames fr).map Frame.filled).getD false && (!array || arrayIdle (runningOn s (jCluster k)) fr) && !q.xPending accs slots &&
      granted (lookedUp s k j (some (.tile (ea / 4096) len array accs slots)) c) k) = true := by
    have hfill' : ({ f with used := u } : Frame).filled = true := hfill
    cases array <;> simp_all
  refine ⟨noteGrant c k, ?_, ⟨u, (congrArg (smGet · fr) (leaseName_frames c' k fr)).trans hu⟩, leaseName_hit _ _ _⟩
  simp only [lookup, hb, clusterSt_counted, setCluster_counted, hf, setCluster_eq_lookedUp hj, modJob_lookedUp, clusterSt_lookedUp, setCluster_lookedUp]
  exact if_pos hgoes

end

/-! ### Adding a copy of a key (R207) -/

/-- The copy of frame `src` of a key, as it stands while it is being made. -/
def replicaOf (c : Cluster) (src : Frame) : Frame :=
  { src with born := c.clock, used := c.clock, pinned := false, copying := true, src := src.born, wantPin := false }

/-- The cluster with a copy of `src` in frame `fr`. -/
def withReplica (c : Cluster) (src : Frame) (fr : Nat) : Cluster :=
  { eraseFrames c (fun x _ => x == fr) with frames := smSet (eraseFrames c (fun x _ => x == fr)).frames fr (replicaOf c src), clock := c.clock + 1 }

theorem withReplica_frame (c : Cluster) (src : Frame) (fr : Nat) : smGet (withReplica c src fr).frames fr = some (replicaOf c src) :=
  smGet_smSet_self _ _ _

section
variable {s : State} {cl f page len : Nat}

theorem addReplica_full (h : 4 ≤ (keyFrames (clusterSt s cl) f page len).length) : addReplica s cl f page len = (s, true) := by
  simp only [addReplica, if_pos h]

theorem addReplica_adds {src : Nat × Frame} {fr : Nat} (h : (keyFrames (clusterSt s cl) f page len).length < 4)
    (hs : (keyFrames (clusterSt s cl) f page len).find? (fun e => e.2.filled) = some src)
    (hv : victim (clusterSt s cl) (runningOn s cl) none (fun a => !(keyFrames (clusterSt s cl) f page len).any (fun e => e.1 / 8 == a)) = some fr) :
    addReplica s cl f page len = (setCluster s cl (withReplica (clusterSt s cl) src.2 fr), true) := by
  simp only [addReplica, if_neg (Nat.not_le.mpr h), hs, hv]
  rfl

/-- A copy, if one is added, changes the cluster alone, and no count of lookups. -/
theorem addReplica_cases (s : State) (cl f page len : Nat) : (addReplica s cl f page len).1 = s ∨
    ∃ src fr, (addReplica s cl f page len).1 = setCluster s cl (withReplica (clusterSt s cl) src fr) := by
  unfold addReplica
  extract_lets c fs
  split
  · exact .inl rfl
  · split
    · exact .inr ⟨_, _, rfl⟩
    · exact .inl rfl

end

/-! ### Issue of a word that has its frame -/

section
variable (s : State) (k : Nat) (j : Job) (l : Option Look) (c : Cluster)

/-- A word that issues takes one from its holder's budget and no longer waits for a frame. -/
theorem leaseSpend_issued : ∃ c', leaseSpend (issued (lookedUp s k j l c) k) k = lookedUp s k j none c' ∧ c'.frames = c.frames ∧ c'.hit = c.hit := by
  have hi : issued (lookedUp s k j l c) k = lookedUp s k j none { c with waitKey := c.waitKey.filter (fun w => w.1 != k) } := by
    simp only [issued, leaveFrames, clusterSt_lookedUp, setCluster_lookedUp]
    exact modJob_lookedUp s k j l none _
  rw [hi]
  unfold leaseSpend
  simp only [clusterSt_lookedUp, setCluster_lookedUp]
  split
  · split
    · exact ⟨_, rfl, rfl, rfl⟩
    · exact ⟨_, rfl, rfl, rfl⟩
  · exact ⟨_, rfl, rfl, rfl⟩

/-- The .rep hint adds a copy at most. -/
theorem repHint_lookedUp (q : Job) (w : MWord) (page len : Nat) :
    ∃ c', repHint (lookedUp s k j l c) k q w page len = lookedUp s k j l c' ∧ c'.hit = c.hit := by
  unfold repHint
  split
  · rcases addReplica_cases (lookedUp s k j l c) (jCluster k) q.fdom page len with h | ⟨src, fr, h⟩
    · exact ⟨c, h, rfl⟩
    · rw [h, setCluster_lookedUp, clusterSt_lookedUp]
      exact ⟨_, rfl, rfl⟩
  · exact ⟨c, rfl, rfl⟩

end

/-- The state after the issue of a tile word whose lookup left `t`. -/
def tileIssued (t : State) (k : Nat) (q : Job) (w : MWord) (ea : Nat) (wf : NFmt) : State :=
  repHint (leaseSpend (issued t k) k) k q w (ea / 4096) (scaleLen wf)

theorem tileIssued_lookedUp (s : State) (k : Nat) (j : Job) (l : Option Look) (c : Cluster) (q : Job) (w : MWord) (ea : Nat) (wf : NFmt) :
    ∃ c', tileIssued (lookedUp s k j l c) k q w ea wf = lookedUp s k j none c' ∧ c'.hit = c.hit := by
  obtain ⟨c1, h1, -, hh1⟩ := leaseSpend_issued s k j l c
  obtain ⟨c2, h2, hh2⟩ := repHint_lookedUp s k j none c1 q w (ea / 4096) (scaleLen wf)
  exact ⟨c2, by rw [tileIssued, h1, h2], hh2.trans hh1⟩

/-! ### The plan of a word that names a tile (R190) -/

theorem tileAddr_ok {ea : Nat} (h : ea % 4096 = 0) (hb : ea < 2 ^ 52) : tileAddr ea = none := by
  rw [tileAddr, if_neg (by omega), if_neg (by omega)]

theorem tileAddr_misaligned {ea : Nat} (h : ea % 4096 ≠ 0) : tileAddr ea = some (0x03, ea) := if_pos h

section
variable {i : Instr} {w : MWord} {fmts : List (BitVec 4)} {push : Option Nat} {early : State → Nat → Job → Nat → Option (Nat × Nat)}
  {f : State → Nat → Job → Nat → IRes} {s : State} {k : Nat} {q : Job} {g : MGrant} {v : Word}

theorem tilePlan_f (hg : q.ahead.core.ms = some g) (he : early s k q v.toNat = none) (ha : tileAddr v.toNat = none) :
    (tilePlan i w fmts push early f).f s k q [v] = f s k q v.toNat := by
  simp only [tilePlan, mPlan, needMs_some hg, List.headD_cons, he, ha]

theorem tilePlan_traps {c x : Nat} (hg : q.ahead.core.ms = some g) (he : early s k q v.toNat = none) (ha : tileAddr v.toNat = some (c, x)) :
    (tilePlan i w fmts push early f).f s k q [v] = .trap c x := by
  simp only [tilePlan, mPlan, needMs_some hg, List.headD_cons, he, ha]

end

/-! ### MMA and MMAS (R198) -/

section
variable {s : State} {k : Nat} {j q : Job} {i : Instr} {w : MWord} {g : MGrant} {v : Word} {ops : List Word} {slot : Slot}

theorem mma_noLease (hg : q.ahead.core.ms = some g) (hs : smGet q.ahead.core.slots w.aslot.toNat = some slot) (hw : w.hold = 1) (hl : leaseOf s k = none) :
    (mmaPlan i w).f s k q (v :: ops) = .trap 0x0B 0 := by
  simp only [mmaPlan, mPlan, needMs_some hg, needSlot_some hs]
  exact if_pos ⟨hw, hl⟩

/-- The A-side scales that the word reads: those of SC, where it has one (R49). -/
def mmaScales (w : MWord) (seen : Nat → Byte) (sc : Int) (kk r jj : Nat) : Option Num :=
  if w.scale.getLsbD 1 then some (saRead seen sc.toNat kk r jj) else none

/-- What the word works on, given its formats, slot and frame. -/
def mmaCtx (w : MWord) (g : MGrant) (af wf : NFmt) (kd : PairKind) (slot : Slot) (frame : Frame) (seen : Nat → Byte) (sc : Int) : MmaCtx :=
  ⟨kd, af, wf, pairK af wf, nRows w g, w.rm.toNat, Nat.min (w.pint.toNat + 1) g.p, slot, frame, mmaScales w seen sc (pairK af wf), w.scale.getLsbD 0⟩

/-- The window bytes it reads: its scales. -/
def mmaReads (w : MWord) (g : MGrant) (af wf : NFmt) (sc : Int) : List (Int × Nat) :=
  if w.scale.getLsbD 1 then [(sc, saBytes (nRows w g) (pairK af wf))] else []

/-- The checks of an MMA before its lookup pass (R190): its grant, its slot, the lease that its hold bit asks for, its formats, its address, and the
window that its scales `sc` are read from. -/
structure MmaPasses (s : State) (k : Nat) (q : Job) (i : Instr) (w : MWord) (g : MGrant) (ea : Nat) (sc : Int) (slot : Slot) (af wf : NFmt)
    (kd : PairKind) : Prop where
  grant : q.ahead.core.ms = some g
  claimed : smGet q.ahead.core.slots w.aslot.toNat = some slot
  lease : w.hold = 1 → leaseOf s k ≠ none
  formats : mmaFormats s k q i w slot.tag ea = .ok (af, wf, kd)
  addr : tileAddr ea = none
  window : w.scale.getLsbD 1 = true → q.xWindow = false
  scales : saCheck q w sc (saBytes (nRows w g) (pairK af wf)) = none

theorem mmaPlan_f {af wf : NFmt} {kd : PairKind} {t : State} {fr : Nat} {frame : Frame}
    (h : MmaPasses s k q i w g v.toNat (ops.getD 0 0).toInt slot af wf kd)
    (hlook : lookup s k q v.toNat (scaleLen wf) true (w.pin == 1) true (mmaAccs w kd) [w.aslot.toNat] = .have_ t fr)
    (hfr : smGet (clusterSt t (jCluster k)).frames fr = some frame) (htag : w.wfmt = 15 → oneTag t q 15 frame.tag = some wf) :
    (mmaPlan i w).f s k q (v :: ops) = .fly (tileIssued t k q w v.toNat wf)
      { mmaEffect (tileIssued t k q w v.toNat wf) k q w
          (mmaCtx w g af wf kd slot frame (winSeen t q .X (q.know .X)) (ops.getD 0 0).toInt) fr with reads := mmaReads w g af wf (ops.getD 0 0).toInt } := by
  obtain ⟨hg, hs, hl, hf, ha, hx, hc⟩ := h
  have hsc : (v :: ops).getD 1 0 = ops.getD 0 0 := by simp
  have h1 : ¬ (w.hold = 1 ∧ leaseOf s k = none) := fun h => hl h.1 h.2
  have h2 : ¬ (w.scale.getLsbD 1 && q.xWindow) = true := by simpa using hx
  have h3 : ¬ (w.wfmt = 15 ∧ oneTag t q 15 frame.tag ≠ some wf) := fun h => h.2 (htag h.1)
  simp only [mmaPlan, mPlan, needMs_some hg, needSlot_some hs, List.headD_cons, hsc, if_neg h1, hf, ha, if_neg h2, hc, hlook, hfr, if_neg h3]
  rfl

end

/-! ### MFILL (R203) -/

section
variable {s t : State} {k : Nat} {q : Job} {w : MWord} {g : MGrant} {v : Word} {wf : NFmt} {fr : Nat}

theorem mfill_f (hg : q.ahead.core.ms = some g) (hw : weightFmt s k q w.wfmt.toNat v.toNat = .ok wf) (hc : wf.cls ≠ .fixed)
    (hi : ¬ (wf.cont = 32 ∧ wf.isInt = true)) (ha : tileAddr v.toNat = none)
    (hlook : lookup s k q v.toNat (scaleLen wf) false (w.pin == 1) false [] [] = .have_ t fr) :
    (planMfill w).f s k q [v] = .fly (tileIssued t k q w v.toNat wf) Effect.none := by
  have he : mfillEarly w s k q v.toNat = none := by
    simp only [mfillEarly, hw]
    exact if_neg (not_or.mpr ⟨hc, hi⟩)
  refine (tilePlan_f hg he ha).trans ?_
  simp only [hw, hlook]
  rfl

end

/-! ### Words on every key of an address: MPIN, MREP, MUNP, MINV, MQRY (R204 to R207) -/

section
variable {s : State} {k : Nat} {j q : Job} {w : MWord} {g : MGrant} {v : Word} {ea : Nat}

/-- A key is resident at the address. -/
def Resident (s : State) (k : Nat) (q : Job) (ea : Nat) : Prop :=
  (addrFrames (clusterSt s (jCluster k)) q.fdom (ea / 4096)).any (fun e => e.2.filled) = true

/-- With a key resident the word goes on at once, and the frames it hits are noted as used. -/
theorem anyKey_resident (h : Resident s k q ea) (f : State → IRes) : anyKey s k q ea f = f (touchAll s k q.fdom (ea / 4096)) := by
  obtain ⟨e, he, hfill⟩ := List.any_eq_true.mp h
  cases hfind : (addrFrames (clusterSt s (jCluster k)) q.fdom (ea / 4096)).find? (fun e => e.2.filled) with
  | none => exact absurd hfill (List.find?_eq_none.mp hfind e he)
  | some x => simp only [anyKey, hfind]

theorem setCluster_touchAll (hj : jobAt s k = some j) (f page : Nat) (c : Cluster) :
    setCluster (touchAll s k f page) (jCluster k) c = lookedUp s k j j.lookup c :=
  (setCluster_setCluster _ _ _ _).trans (setCluster_eq_lookedUp hj c)

/-- The cluster as MPIN and MREP find it: the lease holder's word has named the frames of the address. -/
def namedCluster (s : State) (k f page : Nat) : Cluster := nameAll (clusterSt (touchAll s k f page) (jCluster k)) k f page

theorem mpin_f (hg : q.ahead.core.ms = some g) (ha : tileAddr v.toNat = none) (hr : Resident s k q v.toNat) :
    let r := pinKeys (namedCluster s k q.fdom (v.toNat / 4096)) q.fdom (v.toNat / 4096)
    (planMpin w).f s k q [v] = .fly (leaseSpend (issued (setCluster (touchAll s k q.fdom (v.toNat / 4096)) (jCluster k) r.1) k) k)
      { Effect.none with push := [pinEntry (if r.2.2 then 2 else if r.2.1 then 0 else 1) r.1] } :=
  (tilePlan_f hg rfl ha).trans (anyKey_resident hr _)

/-- Add a copy of each of some keys; whether all could be. -/
def replicateKeys (s : State) (cl f page : Nat) (lens : List Nat) : State × Bool :=
  lens.foldl (fun (a : State × Bool) len => let x := addReplica a.1 cl f page len; (x.1, a.2 && x.2)) (s, true)

/-- The keys of the address that are resident. -/
def filledLens (c : Cluster) (f page : Nat) : List Nat :=
  (addrLens c f page).filter (fun len => (keyFrames c f page len).any (fun e => e.2.filled))

theorem replicateKeys_full {s : State} {cl f page : Nat} {lens : List Nat} (h : ∀ len ∈ lens, 4 ≤ (keyFrames (clusterSt s cl) f page len).length) :
    replicateKeys s cl f page lens = (s, true) := by
  unfold replicateKeys
  induction lens with
  | nil => rfl
  | cons n r ih =>
    obtain ⟨hn, hr⟩ := List.forall_mem_cons.mp h
    simp only [List.foldl_cons, addReplica_full hn, Bool.and_self]
    exact ih hr

theorem mrep_f {t : State} (hg : q.ahead.core.ms = some g) (ha : tileAddr v.toNat = none) (hr : Resident s k q v.toNat)
    (ht : replicateKeys (setCluster (touchAll s k q.fdom (v.toNat / 4096)) (jCluster k) (namedCluster s k q.fdom (v.toNat / 4096))) (jCluster k) q.fdom
      (v.toNat / 4096) (filledLens (namedCluster s k q.fdom (v.toNat / 4096)) q.fdom (v.toNat / 4096)) = (t, true)) :
    (planMrep w).f s k q [v] = .fly (leaseSpend (issued t k) k) Effect.none := by
  refine (tilePlan_f hg rfl ha).trans ((anyKey_resident hr _).trans ?_)
  simp only [replicateKeys, filledLens, namedCluster] at ht
  simp only [ht, if_true]

/-- The frame is one of the address. -/
def ofAddr (f page : Nat) (e : Frame) : Bool := e.fdom == f && e.page == page

/-- The cluster once the pins of an address are cleared. -/
def unpinned (c : Cluster) (f page : Nat) : Cluster :=
  { c with frames := c.frames.map (fun e => if ofAddr f page e.2 then (e.1, { e.2 with pinned := false }) else e) }

theorem munp_f (hg : q.ahead.core.ms = some g) (ha : tileAddr v.toNat = none) :
    (planMunp w).f s k q [v] = .fly (setCluster s (jCluster k) (unpinned (clusterSt s (jCluster k)) q.fdom (v.toNat / 4096))) Effect.none :=
  tilePlan_f hg rfl ha

theorem unpinned_rest (c : Cluster) (f page : Nat) :
    (unpinned c f page).frames.map (fun e => { e.2 with pinned := false }) = c.frames.map (fun e => { e.2 with pinned := false }) := by
  simp only [unpinned, List.map_map]
  refine List.map_congr_left fun e _ => ?_
  simp only [Function.comp]
  split <;> rfl

theorem unpinned_pins {c : Cluster} {f page : Nat} {e : Nat × Frame} (he : e ∈ (unpinned c f page).frames) (hf : e.2.fdom = f) (hp : e.2.page = page) :
    e.2.pinned = false := by
  obtain ⟨x, -, rfl⟩ := List.mem_map.mp he
  by_cases hx : ofAddr f page x.2 = true
  · simp [hx]
  · rw [if_neg hx] at hf hp ⊢
    simp [ofAddr, hf, hp] at hx

theorem minv_f (hg : q.ahead.core.ms = some g) (ha : tileAddr v.toNat = none) :
    (planMinv w).f s k q [v] = .fly (dropTile s (jCluster k) q.fdom (v.toNat / 4096)) Effect.none :=
  tilePlan_f hg rfl ha

/-- MINV drops the filled frames of the address and dooms the others (R206). -/
theorem dropTile_frames (s : State) (cl f page : Nat) : (clusterSt (dropTile s cl f page) cl).frames =
    ((clusterSt s cl).frames.filter (fun e => !(ofAddr f page e.2 && e.2.filled))).map
      (fun e => if ofAddr f page e.2 then (e.1, { e.2 with doomed := true, pinned := false, wantPin := false }) else e) :=
  congrArg Cluster.frames (clusterSt_setCluster_self s cl _)

theorem addrFrames_dropTile (s : State) (cl f page : Nat) : addrFrames (clusterSt (dropTile s cl f page) cl) f page = [] := by
  rw [addrFrames, dropTile_frames, List.filter_eq_nil_iff]
  intro e he
  obtain ⟨x, -, rfl⟩ := List.mem_map.mp he
  by_cases hx : ofAddr f page x.2 = true
  · simp [hx]
  · rw [if_neg hx]
    simp only [ofAddr] at hx
    simp [hx]

theorem mem_dropTile {s : State} {cl f page : Nat} {e : Nat × Frame} (he : e ∈ (clusterSt s cl).frames) (h : e.2.fdom = f → e.2.page ≠ page) :
    e ∈ (clusterSt (dropTile s cl f page) cl).frames := by
  have ho : ofAddr f page e.2 = false := by
    rw [ofAddr, Bool.and_eq_false_imp]
    simpa using h
  rw [dropTile_frames]
  exact List.mem_map.mpr ⟨e, List.mem_filter.mpr ⟨he, by simp [ho]⟩, by simp [ho]⟩

theorem mqry_f (hg : q.ahead.core.ms = some g) (ha : tileAddr v.toNat = none) :
    (planMqry w).f s k q [v] = .fly s { Effect.none with push := [residency (clusterSt s (jCluster k)) q.fdom (v.toNat / 4096)] } :=
  tilePlan_f hg rfl ha

end

end Sys2Proof.Machine
end

section
/-!
PROOFS, part 29. Matrix words that name a tile (R198 to R207): each issues with what its plan answers.
-/
namespace Sys2Proof.Machine

theorem mma_word (w : MWord) : MatrixWord (.mma w) w (mmaPlan (.mma w) w) := matrixWord_of_head 0x10 (by decide) rfl fun _ => rfl
theorem mmas_word (w : MWord) : MatrixWord (.mmas w) w (mmaPlan (.mmas w) w) := matrixWord_of_head 0x11 (by decide) rfl fun _ => rfl
theorem mfill_word (w : MWord) : MatrixWord (.mfill w) w (planMfill w) := matrixWord_of_head 0x30 (by decide) rfl fun _ => rfl
theorem mpin_word (w : MWord) : MatrixWord (.mpin w) w (planMpin w) := matrixWord_of_head 0x31 (by decide) rfl fun _ => rfl
theorem munp_word (w : MWord) : MatrixWord (.munp w) w (planMunp w) := matrixWord_of_head 0x32 (by decide) rfl fun _ => rfl
theorem minv_word (w : MWord) : MatrixWord (.minv w) w (planMinv w) := matrixWord_of_head 0x33 (by decide) rfl fun _ => rfl
theorem mqry_word (w : MWord) : MatrixWord (.mqry w) w (planMqry w) := matrixWord_of_head 0x34 (by decide) rfl fun _ => rfl
theorem mrep_word (w : MWord) : MatrixWord (.mrep w) w (planMrep w) := matrixWord_of_head 0x35 (by decide) rfl fun _ => rfl

section
variable {s : State} {k : Nat} {j : Job} {w : MWord} {g : MGrant} {v : Word}

@[simp] theorem issuing_saCheck (j : Job) (e : EStream) (tok : BitVec 4) (p : EPlan) (w : MWord) (sc : Int) (n : Nat) :
    saCheck (issuing j e tok p) w sc n = saCheck j w sc n := by simp only [saCheck, issuing_core_win]

/-- What an MMA lands rests on neither the cluster nor the mark of the word. -/
theorem mmaEffect_lookedUp (s : State) (k : Nat) (j : Job) (l : Option Look) (c : Cluster) (q : Job) (w : MWord) (m : MmaCtx) (fr : Nat) :
    mmaEffect (lookedUp s k j l c) k q w m fr = mmaEffect s k q w m fr := rfl

/-- The format of a tag rests on neither, nor on the job. -/
theorem oneTag_lookedUp (s : State) (k : Nat) (j : Job) (l : Option Look) (c : Cluster) (q q' : Job) (tag : Nat) :
    oneTag (lookedUp s k j l c) q 15 tag = oneTag s q' 15 tag := by
  simp only [oneTag, if_true]
  rfl

/-- MMA and MMAS, their checks passed and their key hit in an idle array. -/
theorem mma_flies {i : Instr} {ops : List Word} {slot : Slot} {af wf : NFmt} {kd : PairKind} {fr : Nat} {frame : Frame}
    (hi : MatrixWord i w (mmaPlan i w)) (h : EReady s k j .X w.tok (mmaPlan i w)) (hv : wordOps j .X (mmaPlan i w) = v :: ops)
    (hc : MmaPasses s k (issuing j .X w.tok (mmaPlan i w)) i w g v.toNat (ops.getD 0 0).toInt slot af wf kd)
    (hh : KeyHit s k j.fdom (v.toNat / 4096) (scaleLen wf) fr frame) (hidle : arrayIdle (runningOn s (jCluster k)) fr = true)
    (htag : w.wfmt = 15 → oneTag s j 15 frame.tag = some wf) (hp : j.xPending (mmaAccs w kd) [w.aslot.toNat] = false) :
    let q := issuing j .X w.tok (mmaPlan i w)
    ∃ c u, Flies i s k j .X w.tok (mmaPlan i w) (lookedUp s k j none c)
        { mmaEffect s k q w (mmaCtx w g af wf kd slot { frame with used := u } (winSeen s q .X (q.know .X)) (ops.getD 0 0).toInt) fr with
          reads := mmaReads w g af wf (ops.getD 0 0).toInt } ∧
      c.hit = (clusterSt s (jCluster k)).hit + (if j.lookup.isNone then 1 else 0) := by
  intro q
  rw [← issuing_fdom j .X w.tok (mmaPlan i w)] at hh
  obtain ⟨c, hlook, ⟨u, hu⟩, hhit⟩ := lookup_hit (counted := true) (pin := w.pin == 1) (array := true) (accs := mmaAccs w kd) (slots := [w.aslot.toNat])
    h.here hh (fun _ => hidle) (by rw [issuing_xPending]; exact hp)
  obtain ⟨c', ht, hhit'⟩ := tileIssued_lookedUp s k j (some (.tile (v.toNat / 4096) (scaleLen wf) true (mmaAccs w kd) [w.aslot.toNat])) c q w v.toNat wf
  refine ⟨c', u, hi.flies h ?_, ?_⟩
  · rw [hv, mmaPlan_f (frame := { frame with used := u }) hc hlook (by rw [clusterSt_lookedUp]; exact hu)
      (fun h15 => (oneTag_lookedUp s k j _ c q j _).trans (htag h15)), ht, winSeen_lookedUp h.here, mmaEffect_lookedUp]
  · rw [hhit', hhit, issuing_lookup, Bool.true_and]

/-- MFILL with its key hit. -/
theorem mfill_flies {wf : NFmt} {fr : Nat} {frame : Frame} (h : EReady s k j .X w.tok (planMfill w)) (hv : wordOps j .X (planMfill w) = [v])
    (hg : j.ahead.core.ms = some g) (ha : tileAddr v.toNat = none)
    (hw : weightFmt s k (issuing j .X w.tok (planMfill w)) w.wfmt.toNat v.toNat = .ok wf) (hc : wf.cls ≠ .fixed) (hi : ¬ (wf.cont = 32 ∧ wf.isInt = true))
    (hh : KeyHit s k j.fdom (v.toNat / 4096) (scaleLen wf) fr frame) :
    ∃ c, Flies (.mfill w) s k j .X w.tok (planMfill w) (lookedUp s k j none c) Effect.none := by
  rw [← issuing_fdom j .X w.tok (planMfill w)] at hh
  obtain ⟨c, hlook, -⟩ := lookup_hit (counted := false) (pin := w.pin == 1) (array := false) (accs := []) (slots := []) h.here hh (nomatch ·)
    (by simp [Job.xPending])
  obtain ⟨c', ht, -⟩ := tileIssued_lookedUp s k j (some (.tile (v.toNat / 4096) (scaleLen wf) false [] [])) c (issuing j .X w.tok (planMfill w)) w
    v.toNat wf
  exact ⟨c', (mfill_word w).flies h (by rw [hv, mfill_f (g := g) (by rw [issuing_ahead_ms, hg]) hw hc hi ha hlook, ht])⟩

/-- MPIN with a key resident. -/
theorem mpin_flies (h : EReady s k j .X w.tok (planMpin w)) (hv : wordOps j .X (planMpin w) = [v]) (hg : j.ahead.core.ms = some g)
    (ha : tileAddr v.toNat = none) (hr : Resident s k j v.toNat) :
    let r := pinKeys (namedCluster s k j.fdom (v.toNat / 4096)) j.fdom (v.toNat / 4096)
    ∃ c, Flies (.mpin w) s k j .X w.tok (planMpin w) (lookedUp s k j none c)
        { Effect.none with push := [pinEntry (if r.2.2 then 2 else if r.2.1 then 0 else 1) r.1] } ∧ c.frames = r.1.frames := by
  intro r
  obtain ⟨c, hc, hcf, -⟩ := leaseSpend_issued s k j j.lookup r.1
  refine ⟨c, (mpin_word w).flies h ?_, hcf⟩
  rw [hv, mpin_f (g := g) (by rw [issuing_ahead_ms, hg]) ha (by rw [Resident, issuing_fdom]; exact hr), issuing_fdom, setCluster_touchAll h.here, hc]

/-- MREP whose copies `t` has. -/
theorem mrep_flies {c : Cluster} (h : EReady s k j .X w.tok (planMrep w)) (hv : wordOps j .X (planMrep w) = [v]) (hg : j.ahead.core.ms = some g)
    (ha : tileAddr v.toNat = none) (hr : Resident s k j v.toNat)
    (ht : replicateKeys (lookedUp s k j j.lookup (namedCluster s k j.fdom (v.toNat / 4096))) (jCluster k) j.fdom (v.toNat / 4096)
      (filledLens (namedCluster s k j.fdom (v.toNat / 4096)) j.fdom (v.toNat / 4096)) = (lookedUp s k j j.lookup c, true)) :
    ∃ c', Flies (.mrep w) s k j .X w.tok (planMrep w) (lookedUp s k j none c') Effect.none ∧ c'.frames = c.frames := by
  obtain ⟨c', hc, hcf, -⟩ := leaseSpend_issued s k j j.lookup c
  refine ⟨c', (mrep_word w).flies h ?_, hcf⟩
  rw [hv, mrep_f (g := g) (t := lookedUp s k j j.lookup c) (by rw [issuing_ahead_ms, hg]) ha (by rw [Resident, issuing_fdom]; exact hr)
    (by rw [issuing_fdom, setCluster_touchAll h.here]; exact ht), hc]

/-- With as many copies of every key as there may be, none is added. -/
theorem replicateKeys_named_full {c : Cluster} {f page : Nat} (l : Option Look)
    (h : ∀ len ∈ addrLens c f page, 4 ≤ (keyFrames c f page len).length) :
    replicateKeys (lookedUp s k j l c) (jCluster k) f page (filledLens c f page) = (lookedUp s k j l c, true) :=
  replicateKeys_full fun len hlen => by
    rw [clusterSt_lookedUp]
    exact h len (List.mem_filter.mp hlen).1

/-- Of one key with fewer than four copies one is added. -/
theorem replicateKeys_named_one (hj : jobAt s k = some j) {c : Cluster} {f page len fr : Nat} {src : Nat × Frame} (l : Option Look)
    (hl : addrLens c f page = [len]) (hn : (keyFrames c f page len).length < 4) (hs : (keyFrames c f page len).find? (fun e => e.2.filled) = some src)
    (hv : victim c (runningOn s (jCluster k)) none (fun a => !(keyFrames c f page len).any (fun e => e.1 / 8 == a)) = some fr) :
    replicateKeys (lookedUp s k j l c) (jCluster k) f page (filledLens c f page) = (lookedUp s k j l (withReplica c src.2 fr), true) := by
  have hfill : (keyFrames c f page len).any (fun e => e.2.filled) = true :=
    List.any_eq_true.mpr ⟨src, List.mem_of_find?_eq_some hs, List.find?_some (p := fun e : Nat × Frame => e.2.filled) hs⟩
  have hlens : filledLens c f page = [len] := by simp [filledLens, hl, hfill]
  have hadd := addReplica_adds (s := lookedUp s k j l c) (cl := jCluster k) (f := f) (page := page) (len := len) (src := src) (fr := fr)
    (by rw [clusterSt_lookedUp]; exact hn) (by rw [clusterSt_lookedUp]; exact hs) (by rw [clusterSt_lookedUp, runningOn_lookedUp hj]; exact hv)
  simp only [hlens, replicateKeys, List.foldl_cons, List.foldl_nil, hadd, Bool.and_self, clusterSt_lookedUp, setCluster_lookedUp]

theorem munp_flies (h : EReady s k j .X w.tok (planMunp w)) (hv : wordOps j .X (planMunp w) = [v]) (hg : j.ahead.core.ms = some g)
    (ha : tileAddr v.toNat = none) :
    Flies (.munp w) s k j .X w.tok (planMunp w) (setCluster s (jCluster k) (unpinned (clusterSt s (jCluster k)) j.fdom (v.toNat / 4096))) Effect.none :=
  (munp_word w).flies h (by rw [hv, munp_f (g := g) (by rw [issuing_ahead_ms, hg]) ha, issuing_fdom])

theorem minv_flies (h : EReady s k j .X w.tok (planMinv w)) (hv : wordOps j .X (planMinv w) = [v]) (hg : j.ahead.core.ms = some g)
    (ha : tileAddr v.toNat = none) :
    Flies (.minv w) s k j .X w.tok (planMinv w) (dropTile s (jCluster k) j.fdom (v.toNat / 4096)) Effect.none :=
  (minv_word w).flies h (by rw [hv, minv_f (g := g) (by rw [issuing_ahead_ms, hg]) ha, issuing_fdom])

theorem mqry_flies (h : EReady s k j .X w.tok (planMqry w)) (hv : wordOps j .X (planMqry w) = [v]) (hg : j.ahead.core.ms = some g)
    (ha : tileAddr v.toNat = none) :
    Flies (.mqry w) s k j .X w.tok (planMqry w) s { Effect.none with push := [residency (clusterSt s (jCluster k)) j.fdom (v.toNat / 4096)] } :=
  (mqry_word w).flies h (by rw [hv, mqry_f (g := g) (by rw [issuing_ahead_ms, hg]) ha, issuing_fdom])

/-- A trap of the tile address (R190 check 5). -/
theorem tile_misaligned {i : Instr} {fmts : List (BitVec 4)} {push : Option Nat} {f : State → Nat → Job → Nat → IRes}
    (hi : MatrixWord i w (tilePlan i w fmts push noEarly f)) (hg : j.ahead.core.ms = some g) (ha : v.toNat % 4096 ≠ 0)
    (h : EReady s k j .X w.tok (tilePlan i w fmts push noEarly f)) (hv : wordOps j .X (tilePlan i w fmts push noEarly f) = [v]) :
    Runs i s (takeTrap s k .X 0x03 v.toNat) :=
  hi.traps h (by rw [hv]; exact tilePlan_traps (by rw [issuing_ahead_ms, hg]) rfl (tileAddr_misaligned ha))

end

/-- Settles O43: MMA, MMAS and MFILL through the lookup that hits, MPIN and MREP through the keys of an address that are resident, MUNP, MINV and MQRY
at once; the traps are those of the lease and of the tile address. -/
theorem matrixTileWords : Obligations.MatrixTileWords := by
  intro w s k j g v hg hal hlt cl c run page done
  have ha := tileAddr_ok hal hlt
  have hdone : ∀ c, done (lookedUp s k j none c) := fun c => ⟨rfl, jobAt_lookedUp s k j none c⟩
  refine ⟨fun i ops slot hi h hv hs => ?_, fun wf fr frame h hv hw hc hn hb hf hfill hgr => ?_,
    fun hres => ⟨fun h hv => ?_, fun h hv => ⟨fun hn => ?_, fun len src fr hl hn hs hvic => ?_⟩⟩,
    fun h hv => ?_, fun h hv => ?_, fun h hv => mqry_flies h hv hg ha, fun u hu => ?_⟩
  · have hword : MatrixWord i w (mmaPlan i w) := by rcases hi with rfl | rfl; exacts [mma_word w, mmas_word w]
    refine ⟨fun hw hl => hword.traps h ?_, fun af wf kd fr frame hl hfm hx hc hb hf hfill hidle htag hp hgr => ?_⟩
    · rw [hv, mma_noLease (g := g) (slot := slot) (by rw [issuing_ahead_ms, hg]) (by rw [issuing_ahead_slots, hs]) hw hl]
    · have hpass : MmaPasses s k (issuing j .X w.tok (mmaPlan i w)) i w g v.toNat (ops.getD 0 0).toInt slot af wf kd :=
        ⟨by rw [issuing_ahead_ms, hg], by rw [issuing_ahead_slots, hs], hl, hfm, ha, by rw [issuing_xWindow]; exact hx,
          by rw [issuing_saCheck]; exact hc⟩
      obtain ⟨c', u, hfly, hhit⟩ := mma_flies hword h hv hpass ⟨hb, hf, hfill, hgr⟩ hidle htag hp
      exact ⟨_, _, hfly, rfl, rfl, rfl, rfl, rfl, rfl, rfl, rfl, rfl, rfl, rfl, rfl, hdone c', by rw [clusterSt_lookedUp]; exact hhit⟩
  · obtain ⟨c', hfly⟩ := mfill_flies h hv hg ha hw hc hn ⟨hb, hf, hfill, hgr⟩
    exact ⟨_, hfly, hdone c'⟩
  · obtain ⟨c', hfly, hfr⟩ := mpin_flies h hv hg ha hres
    exact ⟨_, hfly, by rw [clusterSt_lookedUp]; exact hfr, hdone c'⟩
  · obtain ⟨c', hfly, hfr⟩ := mrep_flies h hv hg ha hres (replicateKeys_named_full j.lookup hn)
    exact ⟨_, hfly, by rw [clusterSt_lookedUp]; exact hfr, hdone c'⟩
  · obtain ⟨c', hfly, hfr⟩ := mrep_flies h hv hg ha hres (replicateKeys_named_one h.here j.lookup hl hn hs hvic)
    refine ⟨_, replicaOf (namedCluster s k j.fdom page) src.2, hfly, hdone c', ?_, rfl, rfl, rfl, rfl, rfl, rfl⟩
    rw [clusterSt_lookedUp, hfr]
    exact withReplica_frame _ _ _
  · refine ⟨_, munp_flies h hv hg ha, rfl, ?_⟩
    rw [clusterSt_setCluster_self]
    exact ⟨unpinned_rest _ _ _, fun e he => unpinned_pins he⟩
  · exact ⟨_, minv_flies h hv hg ha, rfl, addrFrames_dropTile _ _ _ _, fun e he => mem_dropTile he⟩
  · exact ⟨tile_misaligned (mpin_word w) hg hu, tile_misaligned (mrep_word w) hg hu, tile_misaligned (munp_word w) hg hu,
      tile_misaligned (minv_word w) hg hu, tile_misaligned (mqry_word w) hg hu⟩

end Sys2Proof.Machine
end

section
/-!
PROOFS, part 30. Leases, and the events of the matrix complex that fill, copy and add frames (R184, R187, R188, R211 to R215).
-/
namespace Sys2Proof.Machine

theorem mlse_word (w : MWord) : MatrixWord (.mlse w) w (planMlse w) := matrixWord_of_head 0x38 (by decide) rfl fun _ => rfl
theorem mlrl_word (w : MWord) : MatrixWord (.mlrl w) w (planMlrl w) := matrixWord_of_head 0x39 (by decide) rfl fun _ => rfl

/-! ### MLSE and MLRL (R213, R214) -/

section
variable {s : State} {k : Nat} {j q : Job} {w : MWord} {ops : List Word}

/-- The cluster once job `k` has asked for the lease with budget `b`. -/
def leaseAsked (c : Cluster) (k b : Nat) : Cluster := { c with leaseWait := c.leaseWait.filter (fun x => x / 256 != k) ++ [256 * k + b] }

theorem mlse_f_asks (hq : q.lookup ≠ some .lease) (hl : leaseOf s k = none) : (planMlse w).f s k q ops =
    .pend (setCluster s (jCluster k) (leaseAsked (clusterSt s (jCluster k)) k (mlseBudget w q))) { q with lookup := some .lease } := by
  simp only [planMlse, mPlan, if_neg hq, hl]
  rfl

theorem mlse_f_granted (hq : q.lookup = some .lease) (hl : leaseOf s k ≠ none) : (planMlse w).f s k q ops = .fly (issued s k) Effect.none := by
  simp only [planMlse, mPlan, if_pos hq, Option.isSome_iff_ne_none.mpr hl, if_true]

theorem mlse_f_waits (hq : q.lookup = some .lease) (hl : leaseOf s k = none) : (planMlse w).f s k q ops = .wait := by
  simp only [planMlse, mPlan, if_pos hq, hl]
  rfl

theorem mlse_f_holds (hq : q.lookup ≠ some .lease) (hl : leaseOf s k ≠ none) : (planMlse w).f s k q ops = .trap 0x0B 0 := by
  simp only [planMlse, mPlan, if_neg hq, Option.isSome_iff_ne_none.mpr hl, if_true]

/-- A word that issues leaves its waits, and the lease as it is. -/
theorem issued_eq (hj : jobAt s k = some j) : issued s k = lookedUp s k j none
    { clusterSt s (jCluster k) with waitKey := (clusterSt s (jCluster k)).waitKey.filter (fun w => w.1 != k) } := by
  rw [issued, leaveFrames, setCluster_eq_lookedUp hj]
  exact modJob_lookedUp s k j _ none _

theorem leaseOf_issued (hj : jobAt s k = some j) : leaseOf (issued s k) k = leaseOf s k := by
  simp only [issued_eq hj, leaseOf, clusterSt_lookedUp]

/-- Ending a lease changes the cluster alone, and no frame. -/
theorem leaseEnd_eq : ∃ c, leaseEnd s k = setCluster s (jCluster k) c ∧ c.frames = (clusterSt s (jCluster k)).frames := by
  unfold leaseEnd
  extract_lets c c'
  split
  · refine ⟨_, rfl, ?_⟩
    split <;> rfl
  · exact ⟨c', rfl, rfl⟩

theorem mlse_asks (h : EReady s k j .X w.tok (planMlse w)) (hj : j.lookup ≠ some .lease) (hl : leaseOf s k = none) :
    Runs (.mlse w) s (setJob (setCluster s (jCluster k) (leaseAsked (clusterSt s (jCluster k)) k (mlseBudget w j))) k
      { issuing j .X w.tok (planMlse w) with lookup := some .lease }) := by
  have hb : mlseBudget w (issuing j .X w.tok (planMlse w)) = mlseBudget w j := by simp only [mlseBudget, issuing_core_leaseb]
  exact (mlse_word w).pends h (by rw [mlse_f_asks (by rw [issuing_lookup]; exact hj) hl, hb])

theorem mlse_flies (h : EReady s k j .X w.tok (planMlse w)) (hj : j.lookup = some .lease) (hl : leaseOf s k ≠ none) :
    Flies (.mlse w) s k j .X w.tok (planMlse w) (issued s k) Effect.none :=
  (mlse_word w).flies h (mlse_f_granted (by rw [issuing_lookup]; exact hj) hl)

end

/-! ### Granting a lease (R213) -/

/-- The head of a list sorted by `d` has the least `d` in it. -/
theorem sortBy_least {α : Type} (d : α → Nat) {l : List α} (hl : l ≠ []) :
    ∃ x r, sortBy (fun a b => decide (d a ≤ d b)) l = x :: r ∧ x ∈ l ∧ ∀ y ∈ l, d x ≤ d y := by
  induction l with
  | nil => exact absurd rfl hl
  | cons a t ih =>
    by_cases ht : t = []
    · subst ht
      exact ⟨a, [], rfl, by simp, by simp⟩
    · obtain ⟨x, r, hs, hx, hmin⟩ := ih ht
      by_cases ha : d a ≤ d x
      · refine ⟨a, x :: r, by simp [sortBy, hs, insertBy, ha], by simp, fun y hy => ?_⟩
        rcases List.mem_cons.mp hy with rfl | hy
        · exact le_refl _
        · exact ha.trans (hmin y hy)
      · refine ⟨x, _, by simp only [sortBy, hs, insertBy, decide_eq_true_eq, if_neg ha]; rfl, List.mem_cons_of_mem _ hx, fun y hy => ?_⟩
        rcases List.mem_cons.mp hy with rfl | hy
        · omega
        · exact hmin y hy

@[simp] theorem clusterSt_modJob (s : State) (n cl : Nat) (f : Job → Job) : clusterSt (modJob s n f) cl = clusterSt s cl := by
  unfold modJob
  split
  · exact clusterSt_setJob _ _ _ _
  · rfl

/-- How far core `c` stands after core `last`, the next one first. -/
def coreTurn (last c : Nat) : Nat := (c + 4 - last % 4 + 3) % 4

/-- How far a request stands from its turn after core `last`. -/
def requestTurn (last w : Nat) : Nat := coreTurn last (jCore (w / 256)) * 4 + jSlot (w / 256)

/-- The core of the last holder. -/
def lastHolder (c : Cluster) : Nat := match c.lease with | some l => jCore l.job | none => c.lastLease

theorem leaseGrant_runs {s : State} {cl : Nat} (hn : liveLease (clusterSt s cl) = none) (hw : (clusterSt s cl).leaseWait ≠ []) :
    ∃ t w, Runs (.leaseGrant cl) s t ∧ w ∈ (clusterSt s cl).leaseWait ∧ (clusterSt t cl).lease = some ⟨w / 256, w % 256, []⟩ ∧
      (clusterSt t cl).leaseWait = (clusterSt s cl).leaseWait.filter (· != w) ∧
      ∀ x ∈ (clusterSt s cl).leaseWait, requestTurn (lastHolder (clusterSt s cl)) w ≤ requestTurn (lastHolder (clusterSt s cl)) x := by
  obtain ⟨w, r, hs, hmem, hmin⟩ := sortBy_least (requestTurn (lastHolder (clusterSt s cl))) hw
  have hrun : ∃ c, c.lease = some ⟨w / 256, w % 256, []⟩ ∧ c.leaseWait = (clusterSt s cl).leaseWait.filter (· != w) ∧
      Runs (.leaseGrant cl) s (modJob (setCluster s cl c) (w / 256) (fun j => { j with core := { j.core with lease := none } })) := by
    refine ⟨{ clusterSt s cl with
      lease := some ⟨w / 256, w % 256, []⟩
      lastLease := lastHolder (clusterSt s cl)
      leaseWait := (clusterSt s cl).leaseWait.filter (· != w) }, rfl, rfl, ?_⟩
    show execLeaseGrant cl s = _
    cases hl : (clusterSt s cl).lease <;>
      (simp only [requestTurn, coreTurn, lastHolder, hl] at hs
       simp only [execLeaseGrant, hn, hl, hs, lastHolder])
  obtain ⟨c, hc, hcw, hrun⟩ := hrun
  exact ⟨_, w, hrun, hmem, by rw [clusterSt_modJob, clusterSt_setCluster_self, hc], by rw [clusterSt_modJob, clusterSt_setCluster_self, hcw],
    hmin⟩

theorem coreTurn_le {last w x : Nat} (h : requestTurn last w ≤ requestTurn last x) :
    coreTurn last (jCore (w / 256)) ≤ coreTurn last (jCore (x / 256)) := by
  simp only [requestTurn, jSlot] at h
  omega

theorem leaseBudgetExhausted_runs {s : State} {cl : Nat} {l : Lease} (hl : (clusterSt s cl).lease = some l) (hb : l.budget = 0) :
    Runs (.leaseBudgetExhausted cl) s (setCluster s cl { clusterSt s cl with lease := none, lastLease := jCore l.job }) := by
  show execLeaseBudgetExhausted cl s = _
  simp only [execLeaseBudgetExhausted, hl, if_pos hb]

/-! ### Fills, copies and replicas (R187, R188, R207) -/

section
variable {s : State} {cl fr : Nat} {f : Frame}

/-- A frame that is pinned as it was leaves the count. -/
theorem pinCount_smSet {c : Cluster} {d : Frame} (hf : smGet c.frames fr = some f) (hd : d.pinned = f.pinned) :
    pinCount { c with frames := smSet c.frames fr d } = pinCount c := by
  obtain ⟨a, b, hm, hs⟩ := smSet_split hf
  rw [pinCount, pinCount, hs, hm]
  simp only [List.filter_append, List.filter_cons, hd]
  split <;> simp

/-- Within the limit a frame is pinned; it is else as it was. -/
theorem pinFrame_frame {c : Cluster} (hf : smGet c.frames fr = some f) :
    ∃ u, smGet (pinFrame c fr).frames fr = some { f with pinned := u } ∧ (pinCount c < 32 → u = true) := by
  simp only [pinFrame, hf]
  split
  · exact ⟨true, smGet_smSet_self _ _ _, fun _ => rfl⟩
  · exact ⟨f.pinned, hf, fun h => absurd h (by assumption)⟩

/-- The cluster once frame `fr`, which holds `f`, is filled. -/
def filledCluster (c : Cluster) (fr : Nat) (f : Frame) : Cluster :=
  let c' := { c with frames := smSet c.frames fr { f with filling := false, wantPin := false } }
  if f.wantPin then pinFrame c' fr else c'

theorem filledCluster_frame {c : Cluster} (hf : smGet c.frames fr = some f) :
    ∃ u, smGet (filledCluster c fr f).frames fr = some { f with filling := false, wantPin := false, pinned := u } ∧
      (f.wantPin = false → u = f.pinned) ∧ (f.wantPin = true → pinCount c < 32 → u = true) := by
  simp only [filledCluster]
  cases hw : f.wantPin with
  | false => exact ⟨f.pinned, smGet_smSet_self _ _ _, fun _ => rfl, (nomatch ·)⟩
  | true =>
    obtain ⟨u, hu, hp⟩ := pinFrame_frame (c := { c with frames := smSet c.frames fr { f with filling := false, wantPin := false } })
      (smGet_smSet_self _ _ _)
    rw [pinCount_smSet (d := { f with filling := false, wantPin := false }) hf rfl] at hp
    exact ⟨u, hu, (nomatch ·), fun _ => hp⟩

theorem frameFillComplete_runs (hf : smGet (clusterSt s cl).frames fr = some f) (hfill : f.filling = true) (hd : f.doomed = false) :
    Runs (.frameFillComplete cl fr) s (setCluster s cl (filledCluster (clusterSt s cl) fr f)) := by
  show execFrameFillComplete cl fr s = _
  simp [execFrameFillComplete, filledCluster, hf, hfill, hd]

theorem frameFillComplete_drops (hf : smGet (clusterSt s cl).frames fr = some f) (hfill : f.filling = true) (hd : f.doomed = true) :
    Runs (.frameFillComplete cl fr) s (setCluster s cl (eraseFrames (clusterSt s cl) (fun x _ => x == fr))) := by
  show execFrameFillComplete cl fr s = _
  simp [execFrameFillComplete, hf, hfill, hd]

theorem frameCopyComplete_runs (hf : smGet (clusterSt s cl).frames fr = some f) (hcopy : f.copying = true) (hd : f.doomed = false) :
    Runs (.frameCopyComplete cl fr) s
      (setCluster s cl { clusterSt s cl with frames := smSet (clusterSt s cl).frames fr { f with copying := false } }) := by
  show execFrameCopyComplete cl fr s = _
  simp [execFrameCopyComplete, hf, hcopy, hd]

theorem frameCopyComplete_drops (hf : smGet (clusterSt s cl).frames fr = some f) (hcopy : f.copying = true) (hd : f.doomed = true) :
    Runs (.frameCopyComplete cl fr) s (setCluster s cl (eraseFrames (clusterSt s cl) (fun x _ => x == fr))) := by
  show execFrameCopyComplete cl fr s = _
  simp [execFrameCopyComplete, hf, hcopy, hd]

theorem hardwareReplica_runs {src : Nat × Frame} {v : Nat} (hf : smGet (clusterSt s cl).frames fr = some f) (hw : 8 ≤ waitingFor s cl f.fdom f.page f.len)
    (hn : (keyFrames (clusterSt s cl) f.fdom f.page f.len).length < 4)
    (hs : (keyFrames (clusterSt s cl) f.fdom f.page f.len).find? (fun e => e.2.filled) = some src)
    (hv : victim (clusterSt s cl) (runningOn s cl) none (fun a => !(keyFrames (clusterSt s cl) f.fdom f.page f.len).any (fun e => e.1 / 8 == a)) = some v) :
    Runs (.hardwareReplica cl fr) s (setCluster s cl (withReplica (clusterSt s cl) src.2 v)) := by
  show execHardwareReplica cl fr s = _
  simp only [execHardwareReplica, hf, if_neg (Nat.not_lt.mpr hw), addReplica_adds hn hs hv]

end

/-- Settles O44: MLSE and MLRL through what their plans answer, LEASE_GRANT through the request that stands first in turn, the fills, copies and
replicas through what each leaves in its frame. -/
theorem leasesAndFrames : Obligations.LeasesAndFrames := by
  refine ⟨fun w s k j => ⟨fun h => mlse_asks h, fun h hj hl => ⟨_, mlse_flies h hj hl, ?_⟩, fun h hj hl => ?_, fun h hj hl => ?_, fun h => ?_⟩,
    fun s cl fr => ⟨fun hn hw => ?_, fun l hl hb => leaseBudgetExhausted_runs hl hb, fun f hf hfill hd => ?_, fun f hf hfill hd => ?_,
      fun f hf hcopy hd => frameCopyComplete_runs hf hcopy hd, fun f hf hcopy hd => ?_, fun f src v hf hw hn hs hv => ?_⟩⟩
  · refine ⟨?_, ?_, leaseOf_issued h.here⟩ <;> rw [issued_eq h.here]
    · exact jobAt_lookedUp _ _ _ _ _
    · exact lookedUp_M _ _ _ _ _
  · exact (mlse_word w).waits h (mlse_f_waits (by rw [issuing_lookup]; exact hj) hl)
  · exact (mlse_word w).traps h (mlse_f_holds (by rw [issuing_lookup]; exact hj) hl)
  · obtain ⟨c, hc, hfr⟩ := leaseEnd_eq (s := s) (k := k)
    exact ⟨leaseEnd s k, (mlrl_word w).flies h rfl, leaseOf_leaseEnd s k, leaseEnd_jobs s k, by rw [hc, setCluster_M],
      by rw [hc, clusterSt_setCluster_self, hfr]⟩
  · obtain ⟨t, w, hrun, hmem, hlease, hwait, hmin⟩ := leaseGrant_runs hn hw
    exact ⟨t, w, hrun, hmem, hlease, hwait, fun x hx => coreTurn_le (hmin x hx)⟩
  · obtain ⟨u, hu, hfalse, htrue⟩ := filledCluster_frame hf
    exact ⟨_, { f with filling := false, wantPin := false, pinned := u }, frameFillComplete_runs hf hfill hd,
      by rw [clusterSt_setCluster_self]; exact hu, rfl, rfl, rfl, rfl, rfl, rfl, hfalse, htrue⟩
  · exact ⟨_, frameFillComplete_drops hf hfill hd, by rw [clusterSt_setCluster_self]; rfl⟩
  · exact ⟨_, frameCopyComplete_drops hf hcopy hd, by rw [clusterSt_setCluster_self]; rfl⟩
  · exact ⟨_, replicaOf (clusterSt s cl) src.2, hardwareReplica_runs hf hw hn hs hv, by rw [clusterSt_setCluster_self]; exact withReplica_frame _ _ _,
      rfl, rfl, rfl, rfl, rfl, rfl⟩

end Sys2Proof.Machine
end

section
/-!
PROOFS, part 31. The common words of L, X and T (R235 to R237), and what they share with the copy words: neither waits for the vector unit.
-/
namespace Sys2Proof.Machine

/-! ### Words of one slot that need no vector unit -/

/-- `i` is a word of stream `e` with the plan `p` that takes one slot and is no vector word, so that the vector unit never holds it back (R240). -/
structure SlotWord (i : Instr) (e : EStream) (tok : BitVec 4) (p : EPlan) : Prop where
  go : ∀ s k j, vectorGo s k j i = true
  run : ∀ s, exec i s = eExec s e i tok p
  slot : p.mat = false

/-- A word of class 00 is no vector word (R96). -/
theorem slotWord_of_enc {i : Instr} {e : EStream} {w : EWord} {p : EPlan} (op : Nat) (ho : op < 256) (he : encode i = some (.e e (w.enc 0 op)))
    (hx : ∀ s, exec i s = eExec s e i w.tok p) (hm : p.mat = false) : SlotWord i e w.tok p := by
  obtain ⟨-, hc, -, -⟩ := Laws.RoundTrip.decodeEWord_enc 0 op (by omega) ho w
  have hb : wordBits i = w.enc 0 op := by simp only [wordBits, he]
  have hv : isVector i = false := by
    simp only [isVector, hb, beq_eq_false_iff_ne]
    simp only [bits] at hc
    omega
  exact ⟨fun s k j => by simp [vectorGo, hv], hx, hm⟩

section
variable {i : Instr} {e : EStream} {tok : BitVec 4} {p : EPlan} {s s' : State} {k : Nat} {j : Job} (m : SlotWord i e tok p) (h : EReady s k j e tok p)
include m h

theorem SlotWord.flies {eff : Effect} (hf : p.f s k (issuing j e tok p) (wordOps j e p) = .fly s' eff) : Flies i s k j e tok p s' eff :=
  flies_of h (m.go s k j) (m.run s) hf

theorem SlotWord.traps {c v : Nat} (hf : p.f s k (issuing j e tok p) (wordOps j e p) = .trap c v) : Runs i s (takeTrap s k e.toStream c v) :=
  traps_of h (m.go s k j) (m.run s) hf

theorem SlotWord.waits (hf : p.f s k (issuing j e tok p) (wordOps j e p) = .wait) : Runs i s s := waits_of h (m.go s k j) (m.run s) hf

theorem SlotWord.pends {j' : Job} (hf : p.f s k (issuing j e tok p) (wordOps j e p) = .pend s' j') : Runs i s (setJob s' k j') :=
  pends_of h (m.go s k j) (m.run s) hf

theorem SlotWord.retires {g : Job → Job} (hf : p.f s k (issuing j e tok p) (wordOps j e p) = .now g) :
    RetiresNow i s k j e tok p g (j.eng e).pc ((j.eng e).pc + 12) := by
  have hl : lastSlot j e p = (j.eng e).pc := by simp [lastSlot, m.slot]
  exact hl ▸ now_of h (m.go s k j) (m.run s) hf

end

theorem aq_word (e : EStream) (w : EWord) : SlotWord (.aq e w) e w.tok (planAq e w) := slotWord_of_enc 0xF0 (by decide) rfl (fun _ => rfl) rfl
theorem aset_word (e : EStream) (w : EWord) : SlotWord (.aset e w) e w.tok (planAset e w) := slotWord_of_enc 0xF1 (by decide) rfl (fun _ => rfl) rfl
theorem aadd_word (e : EStream) (w : EWord) : SlotWord (.aadd e w) e w.tok (planAadd e w) := slotWord_of_enc 0xF2 (by decide) rfl (fun _ => rfl) rfl
theorem ejoin_word (e : EStream) (w : EWord) : SlotWord (.ejoin e w) e w.tok (planEjoin e w) := slotWord_of_enc 0xF3 (by decide) rfl (fun _ => rfl) rfl
theorem enop_word (e : EStream) (w : EWord) : SlotWord (.enop e w) e w.tok (planEnop e w) := slotWord_of_enc 0xF4 (by decide) rfl (fun _ => rfl) rfl
theorem cshape_word (e : EStream) (w : EWord) : SlotWord (.cshape e w) e w.tok (planCshape e w) := slotWord_of_enc 0xF5 (by decide) rfl (fun _ => rfl) rfl

/-! ### AQ -/

section
variable {e : EStream} {w : EWord} {s : State} {k : Nat} {j : Job} {ops : List Word}

theorem aq_f_pops {v : Word} {r : List Word} (hq : j.queue (w.func.toNat % 16) = v :: r) : (planAq e w).f s k j ops =
    .now (fun q => ((q.learnWin e ((smGetD q.core.Q.qk (w.func.toNat % 16) []).headD [])).qPop (w.func.toNat % 16)).setA e w.d.areg v) := by
  simp only [planAq, hq]

theorem aq_f_waits (hq : j.queue (w.func.toNat % 16) = []) : (planAq e w).f s k j ops = .wait := by
  simp only [planAq, hq]

end

/-! ### CSHAPE: the shape with one half written, or the value that does not fit -/

section
variable {c : CShape} {a b : Word}

theorem newShape_rows (ha : a.toNat < 2 ^ 24) (hb : b.toNat < 2 ^ 24) :
    newShape c false a b = .inl { c with rowb := a.setWidth 24, rows := b.setWidth 24 } := by
  simp only [newShape, Bool.false_eq_true, if_false, if_neg (Nat.not_le.mpr ha), if_neg (Nat.not_le.mpr hb)]

theorem newShape_planes (ha : a.toNat < 2 ^ 16) (hb : -2 ^ 47 ≤ b.toInt) (hb' : b.toInt < 2 ^ 47) :
    newShape c true a b = .inl { c with planes := a.setWidth 16, pstride := b.setWidth 48 } := by
  have hfit : ¬ (b.toInt < -2 ^ 47 ∨ 2 ^ 47 ≤ b.toInt) := by omega
  simp only [newShape, if_true, if_neg (Nat.not_le.mpr ha), if_neg hfit]

theorem newShape_rowb_big (ha : 2 ^ 24 ≤ a.toNat) : newShape c false a b = .inr a := by
  simp only [newShape, Bool.false_eq_true, if_false, if_pos ha]

theorem newShape_rows_big (ha : a.toNat < 2 ^ 24) (hb : 2 ^ 24 ≤ b.toNat) : newShape c false a b = .inr b := by
  simp only [newShape, Bool.false_eq_true, if_false, if_neg (Nat.not_le.mpr ha), if_pos hb]

theorem newShape_planes_big (ha : 2 ^ 16 ≤ a.toNat) : newShape c true a b = .inr a := by
  simp only [newShape, if_true, if_pos ha]

theorem newShape_pstride_out (ha : a.toNat < 2 ^ 16) (hb : b.toInt < -2 ^ 47 ∨ 2 ^ 47 ≤ b.toInt) : newShape c true a b = .inr b := by
  simp only [newShape, if_true, if_neg (Nat.not_le.mpr ha), if_pos hb]

end

section
variable {e : EStream} {w : EWord} {s : State} {k : Nat} {j : Job} {a b : Word} (h : EReady s k j e w.tok (planCshape e w))
  (hv : wordOps j e (planCshape e w) = [a, b])
include h hv

theorem cshape_retires {c : CShape} (hn : newShape (j.eng e).shape (w.func.getLsbD 0) a b = .inl c) :
    RetiresNow (.cshape e w) s k j e w.tok (planCshape e w) (fun q => q.setEng e { q.eng e with shape := c }) (j.eng e).pc ((j.eng e).pc + 12) := by
  refine (cshape_word e w).retires h ?_
  rw [hv]
  simp only [planCshape, issuing_eng, List.getD_cons_zero, List.getD_cons_succ, hn]

theorem cshape_traps {x : Word} (hn : newShape (j.eng e).shape (w.func.getLsbD 0) a b = .inr x) :
    Runs (.cshape e w) s (takeTrap s k e.toStream 0x01 x.toNat) := by
  refine (cshape_word e w).traps h ?_
  rw [hv]
  simp only [planCshape, issuing_eng, List.getD_cons_zero, List.getD_cons_succ, hn]

end

/-- Settles O37: each word's plan answers its own change; CSHAPE's by `newShape`, whose two halves and four misfits are the cases. -/
theorem commonWords : Obligations.CommonWords := by
  intro e w s k j
  refine ⟨fun v r h hq => (aq_word e w).retires h (aq_f_pops (by rw [issuing_queue, hq])),
    fun h hq => (aq_word e w).waits h (aq_f_waits (by rw [issuing_queue, hq])),
    fun x v h hv => (aset_word e w).retires h (by rw [hv]; rfl), fun x v h hv => (aadd_word e w).retires h (by rw [hv]; rfl),
    fun h => (enop_word e w).retires h rfl, fun h => (ejoin_word e w).pends h rfl, fun a b h hv => ⟨?_, ?_, ?_, ?_, ?_, ?_⟩⟩
  · exact fun hs ha hb => cshape_retires h hv (hs ▸ newShape_rows ha hb)
  · exact fun hs ha hb hb' => cshape_retires h hv (hs ▸ newShape_planes ha hb hb')
  · exact fun hs ha => cshape_traps h hv (hs ▸ newShape_rowb_big ha)
  · exact fun hs ha hb => cshape_traps h hv (hs ▸ newShape_rows_big ha hb)
  · exact fun hs ha => cshape_traps h hv (hs ▸ newShape_planes_big ha)
  · exact fun hs ha hb => cshape_traps h hv (hs ▸ newShape_pstride_out ha hb)

end Sys2Proof.Machine
end

section
/-!
PROOFS, part 32. Copy words issue (R217, R221 to R232): what `copyPlan` answers once the checks of R221 pass, and the trap of each check.
-/
namespace Sys2Proof.Machine

/-! ### Translating ahead -/

theorem noteTlb_eq (s : State) (f va : Nat) : ∃ l, noteTlb s f va = { s with M := { s.M with tlb := s.M.tlb ++ l } } := ⟨_, rfl⟩

/-- Translating pages ahead leaves cached translations and nothing else (R382). -/
theorem prefetch_eq (s : State) (f : Nat) (i : InFlight) : ∃ l, prefetch s f i = { s with M := { s.M with tlb := s.M.tlb ++ l } } := by
  suffices h : ∀ (ps : List Nat) (t : State), ∃ l, ps.foldl (fun s p => noteTlb s f (4096 * p)) t = { t with M := { t.M with tlb := t.M.tlb ++ l } }
    from h _ s
  intro ps
  induction ps with
  | nil => exact fun t => ⟨[], by simp⟩
  | cons p r ih =>
    intro t
    obtain ⟨l0, h0⟩ := noteTlb_eq t f (4096 * p)
    obtain ⟨l1, h1⟩ := ih (noteTlb t f (4096 * p))
    refine ⟨l0 ++ l1, ?_⟩
    rw [List.foldl_cons, h1, h0, ← List.append_assoc]

/-! ### The plan of a copy word -/

section
variable {i : Instr} {e : EStream} {w : EWord} {alone : Bool} {f : State → Nat → Job → CShape → Word → Word → Word → IRes}
  {s : State} {k : Nat} {j : Job} {d a b : Word}

/-- A check that looks at no operand. -/
theorem copyPlan_trap_early {ops : List Word} {c v : Nat} (hf : ∀ d a b, f s k j (j.eng e).shape d a b = .trap c v) :
    (copyPlan e i w alone f).f s k j ops = .trap c v := by
  simp only [copyPlan, hf]

section
variable {ops : List Word} (hx : spread (opUse i) ops = [d, a, b])
include hx

theorem copyPlan_fly {s' : State} {eff : Effect} (hf : f s k j (j.eng e).shape d a b = .fly s' eff) : (copyPlan e i w alone f).f s k j ops =
    .fly (prefetch s' j.fdom ⟨0, 0, i, 0, ops, [], (j.eng e).shape, eff, [], Part.none⟩) eff := by
  simp only [copyPlan, hx, List.getD_cons_zero, List.getD_cons_succ, hf]

theorem copyPlan_trap {c v : Nat} (hf : f s k j (j.eng e).shape d a b = .trap c v) : (copyPlan e i w alone f).f s k j ops = .trap c v := by
  simp only [copyPlan, hx, List.getD_cons_zero, List.getD_cons_succ, hf]

theorem copyPlan_now {g : Job → Job} (hf : f s k j (j.eng e).shape d a b = .now g) : (copyPlan e i w alone f).f s k j ops = .now g := by
  simp only [copyPlan, hx, List.getD_cons_zero, List.getD_cons_succ, hf]

end

/-! ### The checks of R221 -/

section
variable {size mem code : Nat} {al : List (Nat × Nat)} {sp : List (Int × Nat)} {go : IRes}

theorem copyChecks_pass (ha : alignFirst al = none) (hb : winBounds size [] sp = none) (hm : mem < 2 ^ 52) :
    copyChecks size al sp mem code go = go := by
  simp only [copyChecks, ha, hb, if_neg (Nat.not_le.mpr hm)]

theorem copyChecks_misaligned {v : Nat} (ha : alignFirst al = some v) : copyChecks size al sp mem code go = .trap 0x03 v := by
  simp only [copyChecks, ha]

theorem copyChecks_outside {c v : Nat} (ha : alignFirst al = none) (hb : winBounds size [] sp = some (c, v)) :
    copyChecks size al sp mem code go = .trap c v := by
  simp only [copyChecks, ha, hb]

theorem copyChecks_beyond (ha : alignFirst al = none) (hb : winBounds size [] sp = none) (hm : 2 ^ 52 ≤ mem) :
    copyChecks size al sp mem code go = .trap code mem := by
  simp only [copyChecks, ha, hb, if_pos hm]

end

/-! ### A copy word that is ready -/

end

/-- Word `i` of stream `e`, whose plan `p` is `copyPlan` of `f`, is ready in slot `k` with the operands D, A and B, its stream's shape being `c`. -/
structure CopyReady (i : Instr) (e : EStream) (w : EWord) (p : EPlan) (f : State → Nat → Job → CShape → Word → Word → Word → IRes)
    (s : State) (k : Nat) (j : Job) (c : CShape) (d a b : Word) : Prop where
  word : SlotWord i e w.tok p
  plan : ∃ alone, p = copyPlan e i w alone f
  ready : EReady s k j e w.tok p
  args : spread (opUse i) (wordOps j e p) = [d, a, b]
  shape : (j.eng e).shape = c

section
variable {i : Instr} {e : EStream} {w : EWord} {p : EPlan} {f : State → Nat → Job → CShape → Word → Word → Word → IRes}
  {s : State} {k : Nat} {j : Job} {c : CShape} {d a b : Word}

theorem copyReady_of {ops : List Word} (word : SlotWord i e w.tok p) (plan : ∃ alone, p = copyPlan e i w alone f) (ready : EReady s k j e w.tok p)
    (hv : wordOps j e p = ops) (hx : spread (opUse i) ops = [d, a, b]) (hc : (j.eng e).shape = c) : CopyReady i e w p f s k j c d a b :=
  ⟨word, plan, ready, hv ▸ hx, hc⟩

variable (m : CopyReady i e w p f s k j c d a b)
include m

theorem CopyReady.flies {eff : Effect} (hf : f s k (issuing j e w.tok p) c d a b = .fly s eff) : CopyFlies i s k j e w.tok p eff := by
  obtain ⟨alone, hp⟩ := m.plan
  have hfly := copyPlan_fly (s := s) (k := k) (j := issuing j e w.tok p) (alone := alone) (w := w) m.args (by rw [issuing_eng, m.shape]; exact hf)
  rw [← hp] at hfly
  obtain ⟨l, hl⟩ := prefetch_eq s (issuing j e w.tok p).fdom
    ⟨0, 0, i, 0, wordOps j e p, [], ((issuing j e w.tok p).eng e).shape, eff, [], Part.none⟩
  exact ⟨l, m.word.flies m.ready (hl ▸ hfly)⟩

theorem CopyReady.traps {x v : Nat} (hf : f s k (issuing j e w.tok p) c d a b = .trap x v) : Runs i s (takeTrap s k e.toStream x v) := by
  obtain ⟨alone, hp⟩ := m.plan
  have ht := copyPlan_trap (s := s) (k := k) (j := issuing j e w.tok p) (alone := alone) (w := w) m.args (by rw [issuing_eng, m.shape]; exact hf)
  exact m.word.traps m.ready (hp ▸ ht)

theorem CopyReady.retires {g : Job → Job} (hf : f s k (issuing j e w.tok p) c d a b = .now g) :
    RetiresNow i s k j e w.tok p g (j.eng e).pc ((j.eng e).pc + 12) := by
  obtain ⟨alone, hp⟩ := m.plan
  have hn := copyPlan_now (s := s) (k := k) (j := issuing j e w.tok p) (alone := alone) (w := w) m.args (by rw [issuing_eng, m.shape]; exact hf)
  exact m.word.retires m.ready (hp ▸ hn)

/-- A word that answers `copyChecks` traps at the first check that fails, and does what `go` says when all pass. -/
theorem CopyReady.checked {al : List (Nat × Nat)} {sp : List (Int × Nat)} {mem code : Nat} {go : IRes} {G : Prop}
    (hf : f s k (issuing j e w.tok p) c d a b = copyChecks (issuing j e w.tok p).core.win.size al sp mem code go)
    (hgo : f s k (issuing j e w.tok p) c d a b = go → G) : CopyChecked i s k j e.toStream al sp mem code G := by
  rw [issuing_core_win] at hf
  refine ⟨fun ⟨ha, hb, hm⟩ => hgo (hf.trans (copyChecks_pass ha hb hm)), fun v ha => ?_, fun x v ha hb => ?_, fun ha hb hm => ?_⟩
  · exact m.traps (hf.trans (copyChecks_misaligned ha))
  · exact m.traps (hf.trans (copyChecks_outside ha hb))
  · exact m.traps (hf.trans (copyChecks_beyond ha hb hm))

/-- A word that flies with `eff` once the checks of R221 pass. -/
theorem CopyReady.checkedFlies {al : List (Nat × Nat)} {sp : List (Int × Nat)} {mem code : Nat} {eff : Effect}
    (hf : f s k (issuing j e w.tok p) c d a b = copyChecks (issuing j e w.tok p).core.win.size al sp mem code (.fly s eff)) :
    CopyChecked i s k j e.toStream al sp mem code (CopyFlies i s k j e w.tok p eff) :=
  m.checked hf m.flies

end

/-! ### The words -/

theorem cpy_word (w : EWord) : SlotWord (.cpy w) .L w.tok (planCpy w) := slotWord_of_enc 0x1 (by decide) rfl (fun _ => rfl) rfl
theorem cpyg_word (w : EWord) : SlotWord (.cpyg w) .L w.tok (planCpyg w) := slotWord_of_enc 0x2 (by decide) rfl (fun _ => rfl) rfl
theorem cpyd_word (w : EWord) : SlotWord (.cpyd w) .L w.tok (planCpyd w) := slotWord_of_enc 0x3 (by decide) rfl (fun _ => rfl) rfl
theorem cpym_word (w : EWord) : SlotWord (.cpym w) .L w.tok (planCpym w) := slotWord_of_enc 0x4 (by decide) rfl (fun _ => rfl) rfl
theorem prel_word (w : EWord) : SlotWord (.prel w) .L w.tok (planPrel w) := slotWord_of_enc 0x5 (by decide) rfl (fun _ => rfl) rfl
theorem dgst_word (w : EWord) : SlotWord (.dgst w) .L w.tok (planDgst w) := slotWord_of_enc 0x7 (by decide) rfl (fun _ => rfl) rfl
theorem cps_word (w : EWord) : SlotWord (.cps w) .T w.tok (planCps w) := slotWord_of_enc 0x10 (by decide) rfl (fun _ => rfl) rfl
theorem acw_word (w : EWord) : SlotWord (.acw w) .T w.tok (planAcw w) := slotWord_of_enc 0x11 (by decide) rfl (fun _ => rfl) rfl
theorem acwf_word (w : EWord) : SlotWord (.acwf w) .T w.tok (planAcwf w) := slotWord_of_enc 0x12 (by decide) rfl (fun _ => rfl) rfl
theorem cas_word (w : EWord) : SlotWord (.cas w) .T w.tok (planCas w) := slotWord_of_enc 0x13 (by decide) rfl (fun _ => rfl) rfl
theorem cpst_word (w : EWord) : SlotWord (.cpst w) .T w.tok (planCpst w) := slotWord_of_enc 0x14 (by decide) rfl (fun _ => rfl) rfl
theorem scat_word (w : EWord) : SlotWord (.scat w) .T w.tok (planScat w) := slotWord_of_enc 0x15 (by decide) rfl (fun _ => rfl) rfl
theorem flsh_word (w : EWord) : SlotWord (.flsh w) .T w.tok (planFlsh w) := slotWord_of_enc 0x16 (by decide) rfl (fun _ => rfl) rfl
theorem invl_word (w : EWord) : SlotWord (.invl w) .T w.tok (planInvl w) := slotWord_of_enc 0x17 (by decide) rfl (fun _ => rfl) rfl

/-! ### What the words read at issue -/

/-- The tags that a word meets are not a matter of what its stream knows. -/
theorem tagMiss_issuing (s : State) (j : Job) (e : EStream) (tok : BitVec 4) (p : EPlan) (f : NFmt) (sp : List (Int × Nat)) :
    tagMiss s (issuing j e tok p) f sp = tagMiss s j f sp := by
  simp only [tagMiss, jobDomain, issuing_fdom, issuing_core_win]

/-- FLSH and INVL are under the checks of R221 (R229). -/
theorem flush_checked {i : Instr} {w : EWord} {s : State} {k : Nat} {j : Job} {d b : Word} (word : SlotWord i .T w.tok (flushPlan i w))
    (h : EReady s k j .T w.tok (flushPlan i w)) (hv : wordOps j .T (flushPlan i w) = [d, b]) (hu : opUse i = (true, false, true)) :
    CopyChecked i s k j .T ([(d.toNat, 4)] ++ shapeAl j.core.T.shape 4 4 (some b)) [] d.toNat 0x04 (CopyFlies i s k j .T w.tok (flushPlan i w) Effect.none) :=
  (copyReady_of word ⟨_, rfl⟩ h hv (by rw [hu]; rfl) rfl).checkedFlies rfl

/-- Records whose places are all good name no first bad one. -/
theorem routes_ok {s : State} {l : List Nat} (h : ∀ r ∈ l, routeOk s r = true) : l.findIdx? (fun r => !routeOk s r) = none := by
  simpa [List.findIdx?_eq_none_iff] using h

/-- Settles O45: each word answers `copyChecks` with what its `f` does beyond; CPYG, ACW and SCAT check there what they read, CPYD its TRIM before. -/
theorem copyWordsIssue : Obligations.CopyWordsIssue := by
  intro w s k j d a b cl ct four
  refine ⟨?cpy, ?cpyg, ?cpyd, ?cpym, ?prel, ?dgst, ?cps, ?acw, ?acwf, ?cas, ?cpst, ?scat, ?flsh, ?invl⟩
  case cpy => exact fun h hv => (copyReady_of (cpy_word w) ⟨_, rfl⟩ h hv rfl rfl).checkedFlies rfl
  case dgst => exact fun h hv => (copyReady_of (dgst_word w) ⟨_, rfl⟩ h hv rfl rfl).checkedFlies rfl
  case cps => exact fun h hv => (copyReady_of (cps_word w) ⟨_, rfl⟩ h hv rfl rfl).checkedFlies rfl
  case acwf => exact fun h hv => (copyReady_of (acwf_word w) ⟨_, rfl⟩ h hv rfl rfl).checkedFlies rfl
  case cas => exact fun h hv => (copyReady_of (cas_word w) ⟨_, rfl⟩ h hv rfl rfl).checkedFlies rfl
  case cpst => exact fun h hv => (copyReady_of (cpst_word w) ⟨_, rfl⟩ h hv rfl rfl).checkedFlies rfl
  case flsh => exact fun h hv => flush_checked (flsh_word w) h hv rfl
  case invl => exact fun h hv => flush_checked (invl_word w) h hv rfl
  case cpyg =>
    intro h hv
    have m := copyReady_of (cpyg_word w) ⟨_, rfl⟩ h hv rfl (show _ = cl from rfl)
    refine m.checked rfl fun hgo => ⟨fun hp => m.flies (hgo.trans ?_), fun v hp => m.traps (hgo.trans ?_)⟩
    · simp only [issuing_core_win, hp, issuing_winSeen]
    · simp only [issuing_core_win, hp]
  case cpyd =>
    refine fun h => ⟨fun ht => ⟨fun hw hv => ?_, fun hw hv => ?_⟩, fun h0 ht => (cpyd_word w).traps h (copyPlan_trap_early fun _ _ _ => ?_)⟩
    · have m := copyReady_of (cpyd_word w) ⟨_, rfl⟩ h hv (by simp only [opUse, hw]; rfl) (show _ = cl from rfl)
      exact m.checkedFlies (by simp only [hw]; exact if_neg (by omega))
    · have m := copyReady_of (cpyd_word w) ⟨_, rfl⟩ h hv (by simp only [opUse, hw]; rfl) (show _ = cl from rfl)
      exact m.checkedFlies (by simp only [hw]; exact if_neg (by omega))
    · rw [issuing_eng]
      exact if_pos ⟨h0, ht⟩
  case cpym =>
    intro h hv hr
    have m := copyReady_of (cpym_word w) ⟨_, rfl⟩ h hv rfl (show _ = cl from rfl)
    exact m.checkedFlies (by simp only [issuing_replay, issuing_launch, hr]; rfl)
  case prel =>
    intro h hv
    have m := copyReady_of (prel_word w) ⟨_, rfl⟩ h hv rfl (show _ = cl from rfl)
    exact ⟨fun ha => m.retires (by simp only [ha]), fun v ha => m.traps (by simp only [ha])⟩
  case acw =>
    intro h hv
    have m := copyReady_of (acw_word w) ⟨_, rfl⟩ h hv rfl (show _ = ct from rfl)
    refine m.checked rfl fun hgo => ⟨fun h0 => m.flies (hgo.trans (if_pos h0)), fun h0 hc => m.flies (hgo.trans ?_), fun h0 hc => m.traps (hgo.trans ?_)⟩
    · simp only [if_neg h0, issuing_fdom, hc, tagMiss_issuing, Bool.false_eq_true, if_false]
    · simp only [if_neg h0, issuing_fdom, hc, if_true]
  case scat =>
    intro h hv
    have m := copyReady_of (scat_word w) ⟨_, rfl⟩ h hv rfl (show _ = ct from rfl)
    refine m.checked rfl fun hgo => ⟨fun hp => ⟨fun hr => m.flies (hgo.trans ?_), fun i hi => m.traps (hgo.trans ?_)⟩, fun v hp => m.traps (hgo.trans ?_)⟩
    · simp only [issuing_core_win, hp, issuing_winSeen, routes_ok hr]
    · simp only [issuing_core_win, hp, issuing_winSeen, hi]
    · simp only [issuing_core_win, hp]

end Sys2Proof.Machine
end

section
/-!
PROOFS, part 33. Copy words retire (R219 to R221): what `copyRetire` and `copyWait` leave of the job, and words of an empty footprint.
-/
namespace Sys2Proof.Machine

/-! ### The job that has retired a copy word -/

theorem post_core (j : Job) (q p : Nat) : CoreQueuesOnly j (j.post q p) ∧ ∀ n, (j.post q p).queue n = j.queue n := by
  unfold Job.post
  split <;> exact ⟨⟨_, rfl⟩, fun _ => rfl⟩

/-- The place that a word holds in queue `q` becomes an entry. -/
def Job.fillPlace (j : Job) (v : Word) (q : Nat) : Job := ((j.qRes q false).qPush q v).post q (queuePath q)

theorem fillPlace_core (j : Job) (v : Word) (q : Nat) : CoreQueuesOnly j (j.fillPlace v q) := CoreQueuesOnly.trans ⟨_, rfl⟩ (post_core _ q _).1

theorem fillPlace_queue (j : Job) (v : Word) {q : Nat} (h : q < 16) : (j.fillPlace v q).queue q = j.queue q ++ [v] :=
  ((post_core _ q _).2 q).trans ((j.qRes q false).queue_qPush_self h v)

/-- Status entries go to q13 or q14 (R218). -/
theorem statusQueue_lt {i : InFlight} {n : Nat} (h : statusQueue i = some n) : n < 16 := by
  unfold statusQueue wordQueue at h
  split at h <;> simp at h <;> omega

/-- The job with the status entry of word `i`, where it has one. -/
def Job.pushStatus (j : Job) (i : InFlight) (v : Word) : Job := match statusQueue i with | some q => j.fillPlace v q | none => j

theorem pushStatus_core (j : Job) (i : InFlight) (v : Word) :
    CoreQueuesOnly j (j.pushStatus i v) ∧ ∀ n, statusQueue i = some n → (j.pushStatus i v).queue n = j.queue n ++ [v] := by
  cases hs : statusQueue i with
  | none => exact ⟨by simp only [Job.pushStatus, hs]; exact .refl j, fun n h => nomatch h⟩
  | some q =>
    simp only [Job.pushStatus, hs, Option.some.injEq]
    refine ⟨fillPlace_core j v q, ?_⟩
    rintro n rfl
    exact fillPlace_queue j v (statusQueue_lt hs)

/-- The job once its oldest word of stream `e`, the copy word `i`, has retired with entry `v`, flags `fl` and digest context `d`. -/
def Job.retireCopy (j : Job) (e : EStream) (i : InFlight) (v : Word) (d : Digest) (fl : Fl) : Job :=
  let j := ((j.pushStatus i v).tokRetire e (tokBits i.word)).orFlags fl
  let j := { j with core := { j.core with digest := d } }
  j.setEng e { j.eng e with seq := i.seq, inflight := (j.eng e).inflight.drop 1 }

section
variable (j : Job) (e : EStream) (i : InFlight) (v : Word) (d : Digest) (fl : Fl)

/-- Retiring a copy word changes the queues and tokens, the flags, the digest context, and the count and the words in flight of its stream. -/
theorem retireCopy_core : ∃ Q, (j.retireCopy e i v d fl).core =
    (({ j with core := { j.core with Q := Q, flags := j.core.flags ||| fl, digest := d } } : Job).setEng e
      { j.eng e with seq := i.seq, inflight := (j.eng e).inflight.drop 1 }).core ∧
    ∀ n, statusQueue i = some n → Q.q.toList.getD n [] = j.queue n ++ [v] := by
  obtain ⟨⟨q1, h1⟩, hp⟩ := pushStatus_core j i v
  obtain ⟨⟨q2, h2⟩, ht⟩ := tokRetire_core (j.pushStatus i v) e (tokBits i.word)
  refine ⟨q2, ?_, fun n hn => ?_⟩
  · cases e <;> simp only [Job.retireCopy, Job.orFlags, Job.setEng, Job.eng, h2, h1]
  · have hq := (ht n).trans (hp n hn)
    simpa only [Job.queue, h2] using hq

theorem retireCopy_fdom : (j.retireCopy e i v d fl).fdom = j.fdom := by
  have hp : (j.pushStatus i v).fdom = j.fdom := by
    unfold Job.pushStatus Job.fillPlace Job.post
    split
    · split <;> rfl
    · rfl
  simp only [Job.retireCopy, setEng_fdom, Job.orFlags_fdom, (tokRetire_queues _ e _).fdom, hp]

end

/-- `copyRetire` puts that job in the slot; beside it only guards, a trace record and the banks' counters change. -/
theorem copyRetire_eq {k : Nat} {e : EStream} {i : InFlight} {r : CRun} {j : Job} (hj : jobAt r.s k = some j) :
    let q := j.retireCopy e i (copyEntry r.s j i r) (digestAfter j i r) (r.fl ||| i.eff.flags)
    copyRetire k e i r = setJob (bankShare (traceWord (dropGuards r.s q i.seq) k q e.toStream i.pc i.seq) (jCluster k) (copyUser k e)) k
      (fenceNote (q.stallEnd e.toStream) e) := by
  intro q
  simp only [copyRetire, hj]
  rfl

/-- A job's streams are parts of its core. -/
theorem eng_congr {a b : Job} (h : a.core = b.core) (e : EStream) : a.eng e = b.eng e := by
  cases e <;> simp only [Job.eng, h]

/-- `q` is job `j` once word `i` of stream `e` has retired with entry `v`, flags `fl` and digest context `d`. -/
structure CopyRetired (j : Job) (e : EStream) (i : InFlight) (v : Word) (d : Digest) (fl : Fl) (q : Job) : Prop where
  seq : (q.eng e).seq = i.seq
  inflight : (q.eng e).inflight = (j.eng e).inflight.drop 1
  pc : (q.eng e).pc = (j.eng e).pc
  flags : q.core.flags = j.core.flags ||| fl
  S : q.core.S = j.core.S
  win : q.core.win = j.core.win
  digest : q.core.digest = d
  queue : ∀ n, statusQueue i = some n → q.queue n = j.queue n ++ [v]

theorem copyRetired_of_core {j q : Job} {e : EStream} {i : InFlight} {v : Word} {d : Digest} {fl : Fl}
    (h : q.core = (j.retireCopy e i v d fl).core) : CopyRetired j e i v d fl q := by
  obtain ⟨Q, hc, hq⟩ := retireCopy_core j e i v d fl
  rw [hc] at h
  have he := eng_congr h e
  rw [eng_setEng] at he
  constructor
  case queue => exact fun n hn => by rw [← hq n hn, Job.queue, h]; cases e <;> rfl
  case seq | inflight | pc => rw [he]
  all_goals rw [h]; cases e <;> rfl

theorem bankShare_bytes (s : State) (cl u : Nat) : SameBytes s (bankShare s cl u) := by
  unfold bankShare
  extract_lets us c m
  split <;> exact ⟨rfl, rfl, rfl, rfl, rfl, rfl, rfl⟩

section
variable {k : Nat} {e : EStream} {i : InFlight} {r : CRun} {j : Job} (hj : jobAt r.s k = some j)
include hj

theorem copyRetire_job : ∃ q, jobAt (copyRetire k e i r) k = some q ∧
    CopyRetired j e i (copyEntry r.s j i r) (digestAfter j i r) (r.fl ||| i.eff.flags) q := by
  refine ⟨_, by rw [copyRetire_eq hj, jobAt_setJob_self], copyRetired_of_core ?_⟩
  rw [fenceNote_core]
  rfl

/-- With tracing off retirement changes no byte of memory. -/
theorem copyRetire_bytes (ht : TraceOff r.s j.fdom) : SameBytes r.s (copyRetire k e i r) := by
  rw [copyRetire_eq hj]
  have hoff : TraceOff (dropGuards r.s (j.retireCopy e i (copyEntry r.s j i r) (digestAfter j i r) (r.fl ||| i.eff.flags)) i.seq)
      (j.retireCopy e i (copyEntry r.s j i r) (digestAfter j i r) (r.fl ||| i.eff.flags)).fdom := by
    rw [retireCopy_fdom]; exact ht
  rw [traceWord, traceRecord_off hoff]
  exact SameBytes.trans (b := dropGuards r.s _ i.seq) ⟨rfl, rfl, rfl, rfl, rfl, rfl, rfl⟩ ((bankShare_bytes _ _ _).trans ⟨rfl, rfl, rfl, rfl, rfl, rfl, rfl⟩)

/-- A word held back stays the oldest in flight, with what it has done noted. -/
theorem copyWait_job {x : InFlight} {l : List InFlight} (hl : (j.eng e).inflight = x :: l) :
    ∃ q, jobAt (copyWait k e r) k = some q ∧ (q.eng e).seq = (j.eng e).seq ∧
      (q.eng e).inflight = { x with part := ⟨r.done, r.kept, r.fl, r.bytes⟩ } :: l ∧ q.core.win = j.core.win ∧ (copyWait k e r).M = r.s.M := by
  have hstall : ∀ q : Job, (q.stallNote r.s e.toStream).core = q.core := fun q => by unfold Job.stallNote; split <;> rfl
  refine ⟨_, modJob_job hj _, ?_, ?_, ?_, by simp only [copyWait, modJob, hj, setJob_M]⟩
  · rw [eng_congr (hstall _), eng_setEng]
  · rw [eng_congr (hstall _), eng_setEng, hl]
  · rw [hstall]; cases e <;> rfl

end

/-! ### Performing a word of an empty footprint -/

/-- The words of a shaped footprint alone, those that read no index, record or digest. -/
def shapedWord : Instr → Bool
  | .cpy _ | .cpyd _ | .cpym _ | .cps _ | .acw _ | .cpst _ | .flsh _ | .invl _ => true
  | _ => false

/-- With no plane, or no row, or rows of no bytes there is no piece (R17, R222). -/
theorem copyRows_empty {c : CShape} (h : c.total = 0) (he : ¬ (c.rb == 0 || c.nr == 0) = true) (mem : Nat) (rs : Int) : copyRows c mem rs = [] := by
  simp only [Bool.or_eq_true, beq_iff_eq, not_or] at he
  have hnp : c.np = 0 := by simpa [CShape.total, he.1, he.2] using h
  simp [copyRows, hnp]

theorem rowPieces_empty {c : CShape} (h : c.total = 0) (mem : Nat) (rs : Int) :
    (if (c.rb == 0 || c.nr == 0) = true then [] else rowPieces (copyRows c mem rs) c.rb) = [] := by
  by_cases he : (c.rb == 0 || c.nr == 0) = true
  · exact if_pos he
  · rw [if_neg he, copyRows_empty h he]; rfl

theorem runPieces_nil {α : Type} (f : CRun → α → CRes) (r : CRun) : runPieces f r [] = .ok r := by
  simp [runPieces, piecesFrom]

theorem throwLines_nil (s : State) (k sc : Nat) (mask : Word) : throwLines s k sc mask [] = s := by
  unfold throwLines
  split <;> rfl

/-- A run of one piece that does nothing leaves all but the number of pieces done. -/
theorem runPieces_idle {α : Type} {f : CRun → α → CRes} {r : CRun} {p : α} (hr : r.pause = none) (hf : f r p = .ok r) :
    ∃ n, runPieces f r [p] = .ok { r with done := n } := by
  unfold runPieces
  cases hd : r.done with
  | zero => exact ⟨r.done + 1, by simp [piecesFrom, hr, hf]⟩
  | succ n => exact ⟨r.done, by simp [piecesFrom]⟩

/-- How a word begins to be performed. -/
def CRun.start (s : State) (k : Nat) (j : Job) (i : InFlight) : CRun :=
  ⟨prefetch (readsWindow s k j i) j.fdom i, i.part.done, i.part.kept, i.part.fl, i.part.bytes, none⟩

theorem perform_empty {s : State} {k : Nat} {j : Job} {i : InFlight} (hw : shapedWord i.word = true) (h : i.shape.total = 0) :
    ∃ n, perform s k j i = .ok { CRun.start s k j i with done := n } := by
  have hsame : ∀ {x : CRes}, x = .ok (CRun.start s k j i) → ∃ n, x = .ok { CRun.start s k j i with done := n } := fun hx => ⟨_, hx⟩
  unfold shapedWord at hw
  split at hw
  all_goals rename_i w hi
  all_goals simp only [perform, performTo, hi, rowPieces_empty h, runPieces_nil]
  · exact hsame rfl
  · exact hsame rfl
  · exact hsame rfl
  · exact hsame (ite_self _)
  · refine hsame ?_
    by_cases he : (i.shape.rb == 0 || i.shape.nr == 0) = true
    · rw [if_pos (by rw [he, Bool.or_true])]; rfl
    · rw [copyRows_empty h he, show numbered (elemList [] _ _) = [] from rfl, runPieces_nil]
      exact ite_self _
  · split
    · exact hsame rfl
    · exact runPieces_idle rfl (by simp only [List.map_nil, throwLines_nil])
  · exact hsame (ite_self _)
  · exact hsame (ite_self _)
  · exact nomatch hw

/-- A shaped word of an empty footprint reports status 0. -/
theorem copyEntry_empty {s : State} {j : Job} {i : InFlight} {r : CRun} (hw : shapedWord i.word = true) (h : i.shape.total = 0) :
    copyEntry s j i r = copyStatus i 0 0 := by
  unfold shapedWord at hw
  split at hw
  case h_9 => exact nomatch hw
  all_goals rename_i w hi
  all_goals simp only [copyEntry, hi, h, if_true]

/-- Reading the window leaves the job's other parts: its domain, the streams L and T, its flags and queues. -/
theorem readsWindow_job {s : State} {k : Nat} {j : Job} {i : InFlight} {e : EStream} (hj : jobAt s k = some j) (he : e ≠ .X) :
    ∃ q, jobAt (readsWindow s k j i) k = some q ∧ q.fdom = j.fdom ∧ q.eng e = j.eng e ∧ q.core.flags = j.core.flags ∧ ∀ n, q.queue n = j.queue n := by
  unfold readsWindow
  split
  · refine ⟨_, jobAt_setJob_self _ _ _, rfl, ?_, rfl, fun _ => rfl⟩
    cases e
    · rfl
    · exact absurd rfl he
    · rfl
  · exact ⟨j, hj, rfl, rfl, rfl, fun _ => rfl⟩

/-- Beginning a word changes the jobs and the cached translations alone. -/
theorem start_state (s : State) (k : Nat) (j : Job) (i : InFlight) :
    (CRun.start s k j i).s.jobs = (readsWindow s k j i).jobs ∧ (CRun.start s k j i).s.domains = s.domains ∧ SameBytes s (CRun.start s k j i).s := by
  obtain ⟨l, hl⟩ := prefetch_eq (readsWindow s k j i) j.fdom i
  have hr : (readsWindow s k j i).domains = s.domains ∧ SameBytes s (readsWindow s k j i) := by
    unfold readsWindow
    split <;> exact ⟨rfl, rfl, rfl, rfl, rfl, rfl, rfl, rfl⟩
  show (prefetch _ _ _).jobs = _ ∧ (prefetch _ _ _).domains = _ ∧ SameBytes s (prefetch _ _ _)
  rw [hl]
  exact ⟨rfl, hr.1, hr.2.trans ⟨rfl, rfl, rfl, rfl, rfl, rfl, rfl⟩⟩

/-! ### The events -/

/-- The oldest word in flight belongs to stream L or T of a running job. -/
theorem headWord_stream {j : Job} {e : EStream} {i : InFlight} (h : headWord j e = some i) : e ≠ .X := by
  rintro rfl
  simp [headWord] at h

section
variable {s : State} {k : Nat} {e : EStream} {j : Job} {i : InFlight} (hj : jobAt s k = some j) (hi : headWord j e = some i)
include hj hi

theorem engineWordRetire_ok {r : CRun} (hs : traceStall s j e.toStream = false) (hp : perform s k j i = .ok r) :
    Runs (.engineWordRetire k e) s (copyRetire k e i r) := by
  show execEngineWordRetire k e s = _
  simp only [execEngineWordRetire, hj, hi, hs, hp, Bool.false_eq_true, if_false]

theorem engineWordRetire_wait {r : CRun} (hs : traceStall s j e.toStream = false) (hp : perform s k j i = .wait r) :
    Runs (.engineWordRetire k e) s (copyWait k e r) := by
  show execEngineWordRetire k e s = _
  simp only [execEngineWordRetire, hj, hi, hs, hp, Bool.false_eq_true, if_false]

theorem engineWordRetire_trap {r : CRun} {c v : Nat} (hs : traceStall s j e.toStream = false) (hp : perform s k j i = .trap r c v) :
    Runs (.engineWordRetire k e) s (copyStop k e j i r c v) := by
  show execEngineWordRetire k e s = _
  simp only [execEngineWordRetire, hj, hi, hs, hp, Bool.false_eq_true, if_false]

theorem copyTrapInFlight_trap {r : CRun} {c v : Nat} (hp : perform s k j i = .trap r c v) :
    Runs (.copyTrapInFlight k e) s (copyStop k e j i r c v) := by
  show execCopyTrapInFlight k e s = _
  simp only [execCopyTrapInFlight, hj, hi, hp]

end

/-- Settles O46: each answer of `perform` is one branch of the event, whose job is `retireCopy`'s, or `copyWait`'s; an empty footprint has no piece. -/
theorem copyWordsRetire : Obligations.CopyWordsRetire := by
  intro s k e j i hj hi
  refine ⟨fun r j' hs hp hj' => ?_, fun r j' x l hs hp hj' hl => ?_, fun r c v hp => ?_, fun w hw h0 hs ht => ?_⟩
  · obtain ⟨q, hq, hret⟩ := copyRetire_job (e := e) (i := i) hj'
    exact ⟨_, q, engineWordRetire_ok hj hi hs hp, hq, hret.seq, hret.inflight, hret.pc, hret.flags, hret.S, hret.win, hret.digest, hret.queue,
      fun ht => (copyRetire_bytes hj' ht).cByte⟩
  · obtain ⟨q, hq, hwait⟩ := copyWait_job hj' hl
    exact ⟨_, q, engineWordRetire_wait hj hi hs hp, hq, hwait⟩
  · exact ⟨copyTrapInFlight_trap hj hi hp, fun hs => engineWordRetire_trap hj hi hs hp⟩
  · have hshape : shapedWord i.word = true := by rcases hw with h | h | h | h | h | h | h | h <;> rw [h] <;> rfl
    obtain ⟨n, hp⟩ := perform_empty (s := s) (k := k) (j := j) hshape h0
    obtain ⟨hjobs, hdom, hbytes⟩ := start_state s k j i
    obtain ⟨j', hj', hf, he, hfl, hqu⟩ := readsWindow_job (i := i) hj (headWord_stream hi)
    rw [← jobAt_congr hjobs k] at hj'
    obtain ⟨q, hq, hret⟩ := copyRetire_job (e := e) (i := i) (r := { CRun.start s k j i with done := n }) hj'
    refine ⟨_, q, engineWordRetire_ok hj hi hs hp, hq, hret.seq, he ▸ hret.inflight, hfl ▸ hret.flags, fun n hn => ?_, fun a => ?_⟩
    · rw [hret.queue n hn, copyEntry_empty hshape h0, hqu]
    · refine ((copyRetire_bytes hj' ?_).cByte a).trans (hbytes.cByte a)
      rw [TraceOff, domainSt, hdom, hf]
      exact ht

end Sys2Proof.Machine
end

section
/-!
PROOFS, part 34. Requests, snoops and grants at their destination (R284, R287, R411 to R413): a message that waits leaves the inbox and its handler
acts on the rest; a request for a line first does what stands before it at the home.
-/
namespace Sys2Proof.Machine

/-! ### A message that waits is acted on -/

section
variable {s : State} {cls op : Nat} {m : Msg}

theorem takePkt_waits (h : Waits s cls op m) : takePkt s cls op m = some (took s cls op m) :=
  if_pos (List.any_eq_true.mpr ⟨_, h, by simp⟩)

theorem onMsg_waits (h : Waits s cls op m) (f : State → State) : onMsg s cls op m f = .next (f (took s cls op m)) := by
  simp only [onMsg, takePkt_waits h]

/-- A request that cannot be served at its home yet is answered so (R290, R384). -/
theorem atHome_answers (h : Waits s 1 op m) {r : Nat} (hr : (atHomeOf s op m).2 = some r) (f : State → State) :
    atHome s m op f = .next (respond (atHomeOf s op m).1 m r) := by
  simp only [atHomeOf] at hr ⊢
  simp only [atHome, onMsg_waits h, hr]

theorem atHome_acts (h : Waits s 1 op m) (hr : (atHomeOf s op m).2 = none) (f : State → State) : atHome s m op f = .next (f (atHomeOf s op m).1) := by
  simp only [atHomeOf] at hr ⊢
  simp only [atHome, onMsg_waits h, hr]

end

/-! ### What each request does at the home -/

section
variable (m : Msg) (s : State)

theorem exec_reqReadShared : exec (.reqReadShared m) s = atHome s m 0 (fun s => replyLine (grant (homeRead s m) m 0) m) := rfl
theorem exec_reqReadOwned : exec (.reqReadOwned m) s = atHome s m 1 (fun s => replyLine (grant (homeOwn s m 2) m 1) m) := rfl
theorem exec_reqWrite : exec (.reqWrite m) s = atHome s m 2 (fun s => respond (grant (homeOwn s m 2) m 1) m 0) := rfl

/-- The line of an atomic request as the home performs it: seen by the comparators, and no die holds it. -/
def atomicLine : State := dirHostWrite (watchHit s (msgLine m) 0 4 m.ftag.toNat m.src.toNat) (msgLine m)

/-- The read-modify-write of an atomic request at the home, and its answer, the old value. -/
def atomicDone : State :=
  let n := 2 ^ (Config.atomicSize m.data).val
  let pa := msgAddr m / n * n
  let s1 := atomicLine m s
  let old := leNat (homeBytes s1 pa n)
  let s2 := deviceWrite s1 pa (natLe n (Config.atomicNew m.data (BitVec.ofNat 64 old)).toNat)
  reply (respond { s2 with M := { s2.M with rel := s1.M.rel } } m 4) m 3 1 (maskIn pa n (msgLine m)) (msgData (placeAt (pa % 64) (natLe n old)))

theorem exec_reqAtomic : exec (.reqAtomic m) s =
    atHome s m 3 (fun s => if poisoned s (msgLine m) then reply s m 3 2 (2 ^ 64 - 1) 0 else atomicDone m s) := rfl

theorem exec_reqReleasePermission : exec (.reqReleasePermission m) s =
    atHome s m 4 (fun s => respond (if fromCore m then dieGivesUp s m.src.toNat (msgLine m) m.ftag.toNat else s) m 0) := rfl

end

section
variable {s : State} {m : Msg}

theorem reqAtomic_poisoned (h : Waits s 1 3 m) (hr : (atHomeOf s 3 m).2 = none) (hp : poisoned (atHomeOf s 3 m).1 (msgLine m) = true) :
    Runs (.reqAtomic m) s (reply (atHomeOf s 3 m).1 m 3 2 (2 ^ 64 - 1) 0) :=
  (exec_reqAtomic m s).trans ((atHome_acts h hr _).trans (congrArg Host.Outcome.next (if_pos hp)))

theorem reqAtomic_performs (h : Waits s 1 3 m) (hr : (atHomeOf s 3 m).2 = none) (hp : poisoned (atHomeOf s 3 m).1 (msgLine m) = false) :
    Runs (.reqAtomic m) s (atomicDone m (atHomeOf s 3 m).1) :=
  (exec_reqAtomic m s).trans ((atHome_acts h hr _).trans (congrArg Host.Outcome.next (if_neg (by simp [hp]))))

theorem reqReleasePermission_core (h : Waits s 1 4 m) (hr : (atHomeOf s 4 m).2 = none) (hc : m.src.toNat < 4) :
    Runs (.reqReleasePermission m) s (respond (dieGivesUp (atHomeOf s 4 m).1 m.src.toNat (msgLine m) m.ftag.toNat) m 0) := by
  have hf : fromCore m = true := decide_eq_true hc
  exact (exec_reqReleasePermission m s).trans ((atHome_acts h hr _).trans (by rw [hf, if_pos rfl]))

theorem reqReleasePermission_other (h : Waits s 1 4 m) (hr : (atHomeOf s 4 m).2 = none) (hc : 4 ≤ m.src.toNat) :
    Runs (.reqReleasePermission m) s (respond (atHomeOf s 4 m).1 m 0) := by
  have hf : fromCore m = false := decide_eq_false (Nat.not_lt.mpr hc)
  exact (exec_reqReleasePermission m s).trans ((atHome_acts h hr _).trans (by rw [hf, if_neg (by decide)]))

end

/-! ### Near-memory jobs -/

/-- The record that a near-memory request points at. -/
def nmRecord (q : State) (m : Msg) : List Nat := (List.range 16).map (fun i => recWord q (msgAddr m) i)

/-- The request reaches the M-die that its record, a valid nest, names. -/
abbrev NmFits (q : State) (m : Msg) : Prop := nestOk q 0 (nmRecord q m) = true ∧ 8 ≤ m.dst.toNat ∧ (nestOf (nmRecord q m)).mdie = m.dst.toNat - 8

theorem nmMisfit_iff (q : State) (m : Msg) :
    (!nestOk q 0 (nmRecord q m) || decide (m.dst.toNat < 8) || (nestOf (nmRecord q m)).mdie != m.dst.toNat - 8) = true ↔ ¬ NmFits q m := by
  simp only [NmFits, Bool.or_eq_true, Bool.not_eq_true', decide_eq_true_eq, bne_iff_ne, ne_eq, not_and_or, Bool.not_eq_true, Nat.not_le, or_assoc]

/-- A near-memory job that arrives by message joins its M-die's queue; it has no issuing job. -/
def nmQueued (q : State) (m : Msg) : State :=
  let md := m.dst.toNat - 8
  let d := mdieSt q md
  setMdie q md { d with serial := d.serial + 1, queue := d.queue ++
    [⟨md * 2 ^ 44 + (d.serial + 1), 0, m.ftag.toNat, m.src.toNat, (nmRecord q m).map (BitVec.ofNat 64), none, 0, [], [], none⟩] }

theorem reqNearMemoryJob_runs {s : State} {m : Msg} (h : Waits s 1 5 m) :
    let q := noteOut (took s 1 5 m) 1 5 m
    Runs (.reqNearMemoryJob m) s (if ¬ NmFits q m then respond q m 3
      else if 64 ≤ (mdieSt q (m.dst.toNat - 8)).queue.length then respond q m 1 else respond (nmQueued q m) m 0) := by
  show execReqNearMemoryJob m s = _
  rw [execReqNearMemoryJob, onMsg_waits h]
  exact congrArg Host.Outcome.next (if_congr (nmMisfit_iff _ m) rfl rfl)

/-! ### Steal requests -/

/-- The walker asked has nothing to give, or the asking one needs nothing (R353). -/
abbrev NothingToSteal (v : Launch) (m : Msg) : Prop :=
  v.st ≠ .ready ∨ (rangeOfDie v m.dst.toNat).2 - (rangeOfDie v m.dst.toNat).1 < 2 ∨
    (rangeOfDie v m.src.toNat).1 < (rangeOfDie v m.src.toNat).2 ∨ v.ranges.length ≤ m.src.toNat

/-- The launch once the walker asked has given the upper half of its range away. -/
def halved (v : Launch) (m : Msg) : Launch :=
  let own := rangeOfDie v m.dst.toNat
  let cut := own.2 - (own.2 - own.1) / 2
  { v with ranges := (v.ranges.set m.dst.toNat (own.1, cut)).set m.src.toNat (cut, own.2) }

section
variable {s : State} {m : Msg} (h : Waits s 1 6 m)
include h

theorem reqWalkerSteal_known {v : Launch} (hv : launchAt s (msgAddr m) = some v) :
    let q := noteOut (took s 1 6 m) 1 6 m
    Runs (.reqWalkerSteal m) s (if NothingToSteal v m then respond q m 0 else respond (setLaunch q (msgAddr m) (halved v m)) m 0) := by
  have hq : launchAt (noteOut (took s 1 6 m) 1 6 m) (msgAddr m) = some v := hv
  show execReqWalkerSteal m s = _
  rw [execReqWalkerSteal, onMsg_waits h]
  simp only [hq] <;> rfl

theorem reqWalkerSteal_unknown (hv : launchAt s (msgAddr m) = none) :
    Runs (.reqWalkerSteal m) s (respond (noteOut (took s 1 6 m) 1 6 m) m 0) := by
  have hq : launchAt (noteOut (took s 1 6 m) 1 6 m) (msgAddr m) = none := hv
  show execReqWalkerSteal m s = _
  rw [execReqWalkerSteal, onMsg_waits h]
  simp only [hq]

end

/-! ### Register requests -/

section
variable {s : State} {m : Msg} (h : Waits s 1 7 m)
include h

theorem reqRegisterAccess_unmapped (hr : regAt (noteOut (took s 1 7 m) 1 7 m) (msgAddr m / 8 * 8) = none) :
    Runs (.reqRegisterAccess m) s (errorAnswer (noteOut (took s 1 7 m) 1 7 m) m.dst.toNat 1 m 3) := by
  show execReqRegisterAccess m s = _
  rw [execReqRegisterAccess, onMsg_waits h]
  simp only [hr]

variable {r : Reg} (hr : regAt (noteOut (took s 1 7 m) 1 7 m) (msgAddr m / 8 * 8) = some r)
include hr

theorem reqRegisterAccess_writes {v : Word} (hf : Config.registerForm m.data = some v) :
    let q := noteOut (took s 1 7 m) 1 7 m
    Runs (.reqRegisterAccess m) s (if r.mayWrite (msgAgent m) then respond (regWrite q r v) m 0 else errorAnswer q m.dst.toNat 1 m 3) := by
  show execReqRegisterAccess m s = _
  rw [execReqRegisterAccess, onMsg_waits h]
  simp only [hr, hf]

theorem reqRegisterAccess_reads (hf : Config.registerForm m.data = none) :
    let q := noteOut (took s 1 7 m) 1 7 m
    Runs (.reqRegisterAccess m) s (if r.mayRead (msgAgent m) then reply (respond q m 4) m 3 1 255 (BitVec.ofNat 512 (regRead q r))
      else errorAnswer q m.dst.toNat 1 m 3) := by
  show execReqRegisterAccess m s = _
  rw [execReqRegisterAccess, onMsg_waits h]
  simp only [hr, hf]

end

/-! ### Snoops -/

/-- The state once the owner die of the message's line has yielded it and keeps a shared copy (R287). -/
def recalled (q : State) (m : Msg) : State :=
  setDir (dirYield q m.dst.toNat (msgLine m) m.ftag.toNat) (msgLine m) (.shared (2 ^ m.dst.toNat) false)

theorem snpRecallOwner_runs {s : State} {m : Msg} (h : Waits s 4 0 m) :
    let q := noteOut (took s 4 0 m) 4 0 m
    let mask := dirtyMask q (msgLine m)
    Runs (.snpRecallOwner m) s (if (!dirOwned q m.dst.toNat (msgLine m)) = true then respond q m 0
      else if mask = 0 then respond (recalled q m) m 0
      else if poisoned (recalled q m) (msgLine m) = true then reply (recalled q m) m 3 2 mask 0
      else reply (recalled q m) m 3 (if mask = 2 ^ 64 - 1 then 0 else 1) mask (msgData (cBytes q (64 * msgLine m) 64))) := by
  show execSnpRecallOwner m s = _
  rw [execSnpRecallOwner, onMsg_waits h]
  rfl

theorem snpInvalidate_runs {s : State} {m : Msg} (h : Waits s 4 1 m) :
    Runs (.snpInvalidate m) s (respond (dieGivesUp (noteOut (took s 4 1 m) 4 1 m) m.dst.toNat (msgLine m) m.ftag.toNat) m 0) := by
  show execSnpInvalidate m s = _
  rw [execSnpInvalidate, onMsg_waits h]

theorem snpForcedPublish_runs {s : State} {m : Msg} (h : Waits s 4 2 m) :
    Runs (.snpForcedPublish m) s (respond (publishSel (noteOut (took s 4 2 m) 4 2 m)
      (fun c => c.line == msgLine m && instCore c.level c.inst / 64 == m.dst.toNat) 3) m 5) := by
  show execSnpForcedPublish m s = _
  rw [execSnpForcedPublish, onMsg_waits h]

/-! ### Grants -/

section
variable {s : State} {m : Msg} (h : Waits s 5 0 m)
include h

theorem tokGrantShared_first (hd : smGet s.M.dir (msgLine m) = none) :
    Runs (.tokGrantShared m) s (setDir (took s 5 0 m) (msgLine m) (.shared (2 ^ m.dst.toNat) false)) := by
  have hq : smGet (took s 5 0 m).M.dir (msgLine m) = none := hd
  show execTokGrantShared m s = _
  rw [execTokGrantShared, onMsg_waits h]
  simp only [hq]

theorem tokGrantShared_more {v : Nat} {b : Bool} (hd : smGet s.M.dir (msgLine m) = some (.shared v b)) :
    Runs (.tokGrantShared m) s (if bitOf v m.dst.toNat = true then took s 5 0 m
      else setDir (took s 5 0 m) (msgLine m) (.shared (v + 2 ^ m.dst.toNat) b)) := by
  have hq : smGet (took s 5 0 m).M.dir (msgLine m) = some (.shared v b) := hd
  show execTokGrantShared m s = _
  rw [execTokGrantShared, onMsg_waits h]
  simp only [hq]

end

theorem tokGrantOwned_enters {s : State} {m : Msg} (h : Waits s 5 1 m)
    (hd : smGet s.M.dir (msgLine m) = none ∨ smGet s.M.dir (msgLine m) = some (.shared (2 ^ m.dst.toNat) false)) :
    Runs (.tokGrantOwned m) s (setDir (took s 5 1 m) (msgLine m) (.owned m.dst.toNat)) := by
  have hq : (took s 5 1 m).M.dir = s.M.dir := rfl
  show execTokGrantOwned m s = _
  rw [execTokGrantOwned, onMsg_waits h]
  rcases hd with hd | hd
  · simp only [hq, hd]
  · simp only [hq, hd, if_true]

theorem tokRevoke_runs {s : State} {m : Msg} (h : Waits s 5 2 m) :
    Runs (.tokRevoke m) s (respond (dieGivesUp (took s 5 2 m) m.dst.toNat (msgLine m) m.ftag.toNat) m 0) := by
  show execTokRevoke m s = _
  rw [execTokRevoke, onMsg_waits h]

/-- Settles O55: each message that waits is taken, and its handler's branches are the statement's cases. -/
theorem fabricRequests : Obligations.FabricRequests := by
  intro s m
  refine ⟨fun r op hr => ?_, fun h hn => (exec_reqReadShared m s).trans (atHome_acts h hn _),
    fun h hn => (exec_reqReadOwned m s).trans (atHome_acts h hn _), fun h hn => (exec_reqWrite m s).trans (atHome_acts h hn _),
    reqAtomic_poisoned, reqAtomic_performs,
    fun h hn => ⟨reqReleasePermission_core h hn, reqReleasePermission_other h hn⟩, fun h => ?_, fun h => ?_, fun h => ?_, fun h => ?_,
    snpInvalidate_runs, snpForcedPublish_runs, fun h => ?_, tokGrantOwned_enters, tokRevoke_runs⟩
  · refine ⟨?_, ?_, ?_, ?_, ?_⟩ <;> rintro rfl h
    · exact (exec_reqReadShared m s).trans (atHome_answers h hr _)
    · exact (exec_reqReadOwned m s).trans (atHome_answers h hr _)
    · exact (exec_reqWrite m s).trans (atHome_answers h hr _)
    · exact (exec_reqAtomic m s).trans (atHome_answers h hr _)
    · exact (exec_reqReleasePermission m s).trans (atHome_answers h hr _)
  · have run := reqNearMemoryJob_runs h
    exact ⟨fun hx => run.trans (congrArg Host.Outcome.next (if_pos hx)),
      fun hx hl => run.trans (congrArg Host.Outcome.next ((if_neg (not_not.mpr hx)).trans (if_pos hl))),
      fun hx hl => run.trans (congrArg Host.Outcome.next ((if_neg (not_not.mpr hx)).trans (if_neg (Nat.not_le.mpr hl))))⟩
  · refine ⟨fun v hv hs hl hh hc => ?_, fun v hv hx => ?_, reqWalkerSteal_unknown h⟩
    · have hs : ¬ NothingToSteal v m := by simp [NothingToSteal, hs]; omega
      exact (reqWalkerSteal_known h hv).trans (congrArg Host.Outcome.next (if_neg hs))
    · have hs : NothingToSteal v m := by rcases hx with hx | hx | hx <;> simp [NothingToSteal, hx]
      exact (reqWalkerSteal_known h hv).trans (congrArg Host.Outcome.next (if_pos hs))
  · refine ⟨reqRegisterAccess_unmapped h, fun r hr => ?_⟩
    split
    · exact reqRegisterAccess_writes h hr (by assumption)
    · exact reqRegisterAccess_reads h hr (by assumption)
  · have run := snpRecallOwner_runs h
    refine ⟨fun ho => run.trans (congrArg Host.Outcome.next (if_pos (by rw [ho]; rfl))), fun ho hm => run.trans (congrArg Host.Outcome.next ?_),
      fun ho hm hp => run.trans (congrArg Host.Outcome.next ?_), fun ho hm hp => run.trans (congrArg Host.Outcome.next ?_)⟩
    all_goals refine (if_neg (by rw [ho]; decide)).trans ?_
    · exact if_pos hm
    · exact (if_neg hm).trans (if_pos hp)
    · exact (if_neg hm).trans (if_neg (Bool.eq_false_iff.mp hp))
  · refine ⟨tokGrantShared_first h, fun v b hd hb => ?_, fun v b hd hb => ?_⟩
    · exact (tokGrantShared_more h hd).trans (congrArg Host.Outcome.next (if_neg (by simp [hb])))
    · exact (tokGrantShared_more h hd).trans (congrArg Host.Outcome.next (if_pos hb))

end Sys2Proof.Machine
end

section
/-!
PROOFS, part 35. Host accesses (R290, R345, R393 to R398): the register range, memory beyond it, atomics, and snoops of a coherent window.
-/
namespace Sys2Proof.Machine

/-! ### Reads and writes by range -/

section
variable {s : State} {pa n : Nat}

theorem hostRead_absent (h : rangeSpan s pa n = .absent) : Runs (.hostRead pa n) s (hostError s pa) := by
  show execHostRead pa n s = _
  simp only [execHostRead, h]

theorem hostWrite_absent (h : rangeSpan s pa n = .absent) (data : BitVec 512) : Runs (.hostWrite pa n data) s (hostError s pa) := by
  show execHostWrite pa n data s = _
  simp only [execHostWrite, h]

theorem hostRead_regs (h : rangeSpan s pa n = .regs) {o : Option (List Byte)} (ho : hostRegBytes s pa n = o) :
    Runs (.hostRead pa n) s (o.elim (hostError s pa) (hostData s)) := by
  subst ho
  show execHostRead pa n s = _
  simp only [execHostRead, h]
  cases hostRegBytes s pa n <;> rfl

theorem hostWrite_regs (h : rangeSpan s pa n = .regs) {data : BitVec 512} {o : Option State} (ho : agentRegWrite s .host pa (hostBytes n data) = o) :
    Runs (.hostWrite pa n data) s (o.elim (hostError s pa) (hostAnswer · [0])) := by
  subst ho
  show execHostWrite pa n data s = _
  simp only [execHostWrite, h]
  cases agentRegWrite s .host pa (hostBytes n data) <;> rfl

/-- The access reaches memory: device memory or a host window, not the register range. -/
abbrev ReachesMemory (s : State) (pa n : Nat) : Prop := rangeSpan s pa n ≠ .absent ∧ rangeSpan s pa n ≠ .regs

/-- The whole access lies in device memory. -/
abbrev InDevice (s : State) (pa n : Nat) : Prop := rangeSpan s pa n = .tier1 ∨ rangeSpan s pa n = .tier2

theorem inDevice_iff (s : State) (pa n : Nat) : (rangeSpan s pa n == .tier1 || rangeSpan s pa n == .tier2) = true ↔ InDevice s pa n := by
  simp only [InDevice, Bool.or_eq_true, beq_iff_eq]

theorem InDevice.reaches (h : InDevice s pa n) : ReachesMemory s pa n := by
  rcases h with h | h <;> simp [ReachesMemory, h]

theorem window_reaches (h : rangeSpan s pa n = .mailbox ∨ rangeSpan s pa n = .bulk) : ReachesMemory s pa n ∧ ¬ InDevice s pa n := by
  rcases h with h | h <;> simp [ReachesMemory, InDevice, h]

/-- The state in which the host reads device memory: partials combined, owners' bytes recalled, releases acquired (R396). -/
def deviceAsRead (s : State) (pa n : Nat) : State := hostAcquire ((linesOf pa n).foldl hostReadLine s) pa n 3

/-- The state in which the host reads a coherent window: scope copies are published too (R290, R395). -/
def windowAsRead (s : State) (pa n : Nat) : State :=
  hostAcquire ((linesOf pa n).foldl (fun s ln => dirHostRead (combineLine s ln) ln) (hostPrep s pa n)) pa n 4

/-- What a host read of memory leaves. -/
def hostReadMemory (s : State) (pa n : Nat) : State :=
  if hostOpen s = false then hostError s pa
  else if hostWaits s pa n = true then hostAnswer s [2]
  else if InDevice s pa n then
    if (linesOf pa n).any (poisoned s) = true then hostError s pa else hostData (deviceAsRead s pa n) (homeBytes (deviceAsRead s pa n) pa n)
  else if coherentWindow s pa = true then hostData (windowAsRead s pa n) (homeBytes (windowAsRead s pa n) pa n)
  else hostData s (homeBytes s pa n)

theorem hostRead_memory (h : ReachesMemory s pa n) : Runs (.hostRead pa n) s (hostReadMemory s pa n) := by
  obtain ⟨ha, hr⟩ := h
  show execHostRead pa n s = _
  simp only [execHostRead, hostReadMemory, ← inDevice_iff]
  cases hs : rangeSpan s pa n
  case absent => exact absurd hs ha
  case regs => exact absurd hs hr
  all_goals
    cases hostOpen s
    · rfl
    · simp only [Bool.not_true, Bool.false_eq_true, if_false, apply_ite Host.Outcome.next] <;> rfl

/-- What a host write of memory leaves; a device-fed leaf's TAIL keeps its bytes (R345). -/
def hostWriteMemory (s : State) (pa n : Nat) (data : BitVec 512) : State :=
  let l := keepTails s pa (hostBytes n data)
  if hostOpen s = false then hostError s pa
  else if hostWaits s pa n = true then hostAnswer s [2]
  else if InDevice s pa n then
    if (linesOf pa n).any (unreachable s) = true then hostError s pa else hostAnswer (homeStore (hostWatch s pa n 2) pa l []) [0]
  else hostAnswer (if coherentWindow s pa = true then homeStore (hostPrep s pa n) pa l (hostRelease s pa n) else bulkWrite s pa l) [0]

theorem hostWrite_memory (h : ReachesMemory s pa n) (data : BitVec 512) : Runs (.hostWrite pa n data) s (hostWriteMemory s pa n data) := by
  obtain ⟨ha, hr⟩ := h
  show execHostWrite pa n data s = _
  simp only [execHostWrite, hostWriteMemory, ← inDevice_iff]
  cases hs : rangeSpan s pa n
  case absent => exact absurd hs ha
  case regs => exact absurd hs hr
  all_goals
    cases hostOpen s
    · rfl
    · simp only [Bool.not_true, Bool.false_eq_true, if_false, apply_ite Host.Outcome.next] <;> rfl

end

/-! ### Accesses to memory, case by case -/

section
variable {s : State} {pa n : Nat}

theorem host_closed (h : ReachesMemory s pa n) (ho : hostOpen s = false) (data : BitVec 512) :
    Runs (.hostRead pa n) s (hostError s pa) ∧ Runs (.hostWrite pa n data) s (hostError s pa) :=
  ⟨(hostRead_memory h).trans (congrArg Host.Outcome.next (if_pos ho)), (hostWrite_memory h data).trans (congrArg Host.Outcome.next (if_pos ho))⟩

variable (ho : hostOpen s = true)
include ho

theorem host_held (h : ReachesMemory s pa n) (hw : hostWaits s pa n = true) (data : BitVec 512) :
    Runs (.hostRead pa n) s (hostAnswer s [2]) ∧ Runs (.hostWrite pa n data) s (hostAnswer s [2]) := by
  have hr := hostRead_memory h
  have hx := hostWrite_memory h data
  simp only [hostReadMemory, hostWriteMemory, ho, hw, Bool.true_eq_false, if_false, if_true] at hr hx
  exact ⟨hr, hx⟩

variable (hw : hostWaits s pa n = false)
include hw

theorem hostRead_device (h : InDevice s pa n) : Runs (.hostRead pa n) s
    (if (linesOf pa n).any (poisoned s) = true then hostError s pa else hostData (deviceAsRead s pa n) (homeBytes (deviceAsRead s pa n) pa n)) := by
  have hr := hostRead_memory h.reaches
  simpa only [hostReadMemory, ho, hw, h, Bool.true_eq_false, Bool.false_eq_true, if_false, if_true] using hr

theorem hostWrite_device (h : InDevice s pa n) (data : BitVec 512) : Runs (.hostWrite pa n data) s
    (if (linesOf pa n).any (unreachable s) = true then hostError s pa
      else hostAnswer (homeStore (hostWatch s pa n 2) pa (keepTails s pa (hostBytes n data)) []) [0]) := by
  have hx := hostWrite_memory h.reaches data
  simpa only [hostWriteMemory, ho, hw, h, Bool.true_eq_false, Bool.false_eq_true, if_false, if_true] using hx

theorem hostRead_window (h : rangeSpan s pa n = .mailbox ∨ rangeSpan s pa n = .bulk) : Runs (.hostRead pa n) s
    (if coherentWindow s pa = true then hostData (windowAsRead s pa n) (homeBytes (windowAsRead s pa n) pa n) else hostData s (homeBytes s pa n)) := by
  obtain ⟨hm, hd⟩ := window_reaches h
  have hr := hostRead_memory hm
  simpa only [hostReadMemory, ho, hw, hd, Bool.true_eq_false, Bool.false_eq_true, if_false] using hr

theorem hostWrite_window (h : rangeSpan s pa n = .mailbox ∨ rangeSpan s pa n = .bulk) (data : BitVec 512) : Runs (.hostWrite pa n data) s
    (hostAnswer (if coherentWindow s pa = true then homeStore (hostPrep s pa n) pa (keepTails s pa (hostBytes n data)) (hostRelease s pa n)
      else bulkWrite s pa (keepTails s pa (hostBytes n data))) [0]) := by
  obtain ⟨hm, hd⟩ := window_reaches h
  have hx := hostWrite_memory hm data
  simpa only [hostWriteMemory, ho, hw, hd, Bool.true_eq_false, Bool.false_eq_true, if_false] using hx

end

/-! ### Atomics -/

/-- A host atomic of `z` bytes is one the home performs: aligned in device memory, of a booted package, on a line that is not poisoned (R393). -/
abbrev AtomicOk (s : State) (pa z : Nat) : Prop :=
  (rangeOf s pa = .tier1 ∨ rangeOf s pa = .tier2) ∧ pa % z = 0 ∧ hostOpen s = true ∧ poisoned s (lineOf pa) = false

theorem atomicRefused_iff (s : State) (pa z : Nat) :
    (!(rangeOf s pa == .tier1 || rangeOf s pa == .tier2) || pa % z != 0 || !hostOpen s || poisoned s (lineOf pa)) = true ↔ ¬ AtomicOk s pa z := by
  simp only [AtomicOk, Bool.or_eq_true, Bool.not_eq_true', Bool.or_eq_false_iff, beq_eq_false_iff_ne, bne_iff_ne, ne_eq, not_and_or, not_or,
    Bool.not_eq_true, Bool.not_eq_false, or_assoc]

/-- The line as a host atomic finds it: combined, seen by the comparators, held by no die, its releases acquired. -/
def atomicTaken (s : State) (pa z : Nat) : State :=
  hostAcquire (dirHostWrite (watchHit (combineLine s (lineOf pa)) (lineOf pa) 2 4 0 hostDie) (lineOf pa)) pa z 3

/-- The new value is stored and the old one answered. -/
def atomicStored (s1 : State) (pa z x : Nat) : State :=
  let q := homeStore s1 pa (keepTails s1 pa (natLe z x)) []
  hostAnswer { q with M := { q.M with rel := s1.M.rel } } [0, BitVec.ofNat 64 (leNat (homeBytes s1 pa z))]

/-- The bytes of a host atomic. -/
abbrev atomicBytes (wide : Bool) : Nat := if wide then 8 else 4

section
variable {s : State} {pa : Nat} {wide : Bool} (f : Nat → Nat)

theorem hostAtomic_refused (h : ¬ AtomicOk s pa (atomicBytes wide)) : hostAtomic s pa wide f = hostError s pa :=
  if_pos ((atomicRefused_iff s pa _).mpr h)

theorem hostAtomic_held (h : AtomicOk s pa (atomicBytes wide)) (hw : hostWaits s pa (atomicBytes wide) = true) :
    hostAtomic s pa wide f = hostAnswer s [2] :=
  (if_neg (fun hx => (atomicRefused_iff s pa _).mp hx h)).trans (if_pos hw)

theorem hostAtomic_performs (h : AtomicOk s pa (atomicBytes wide)) (hw : hostWaits s pa (atomicBytes wide) = false) :
    let s1 := atomicTaken s pa (atomicBytes wide)
    hostAtomic s pa wide f = atomicStored s1 pa (atomicBytes wide) (f (leNat (homeBytes s1 pa (atomicBytes wide)))) :=
  (if_neg (fun hx => (atomicRefused_iff s pa _).mp hx h)).trans (if_neg (Bool.eq_false_iff.mp hw))

end

/-- The three atomics are `hostAtomic` of their functions. -/
theorem hostAtomics_run {s t1 t2 t3 : State} {pa : Nat} {wide : Bool} {v w : Word} (h1 : hostAtomic s pa wide (fun o => o + v.toNat) = t1)
    (h2 : hostAtomic s pa wide (fun _ => v.toNat) = t2)
    (h3 : hostAtomic s pa wide (fun o => if o = v.toNat % 2 ^ (if wide then 64 else 32) then w.toNat else o) = t3) :
    Runs (.hostFetchAdd pa wide v) s t1 ∧ Runs (.hostSwap pa wide v) s t2 ∧ Runs (.hostCompareSwap pa wide v w) s t3 :=
  ⟨congrArg Host.Outcome.next h1, congrArg Host.Outcome.next h2, congrArg Host.Outcome.next h3⟩

/-! ### Snoops -/

theorem coherentWindowSnoop_runs {s : State} {line : Nat} (h : rangeOf s (64 * line) = .mailbox ∨ (rangeOf s (64 * line) = .bulk ∧ s.B.cxl = true))
    (write : Bool) :
    let q := (strongView s line).getD (combineLine s line)
    Runs (.coherentWindowSnoop line write) s (if write = true then dropStale (dirHostWrite q line) line else dirHostRead q line) := by
  have hc : ¬ (!((rangeOf s (64 * line) == .mailbox || rangeOf s (64 * line) == .bulk) && coherentWindow s (64 * line))) = true := by
    rcases h with h | ⟨h, hx⟩ <;> simp [coherentWindow, h] <;> exact hx
  exact if_neg hc

/-- Settles O58: range by range, `hostReadMemory` and `hostWriteMemory` give what a memory access leaves, `hostAtomic` the three atomics. -/
theorem hostAccesses : Obligations.HostAccesses := by
  intro s pa n data
  refine ⟨fun h => ⟨hostRead_absent h, hostWrite_absent h data⟩,
    fun h => ⟨fun l hl => hostRead_regs h hl, fun hl => hostRead_regs h hl, fun t ht => hostWrite_regs h ht, fun ht => hostWrite_regs h ht⟩,
    fun ha hr => ⟨fun ho => host_closed ⟨ha, hr⟩ ho data, fun ho hw => host_held ho ⟨ha, hr⟩ hw data⟩,
    fun h ho hw => ⟨fun hp => ?_, fun hp => ?_, fun hu => ?_, fun hu => ?_⟩, fun h ho hw => ⟨fun hc => ⟨?_, ?_⟩, fun hc => ⟨?_, ?_⟩⟩,
    fun wide v w => ⟨fun hk hw => ?_, fun hk hw => ?_, fun hk => ?_⟩,
    fun line h => ⟨coherentWindowSnoop_runs h true, coherentWindowSnoop_runs h false⟩⟩
  · exact (hostRead_device ho hw h).trans (congrArg Host.Outcome.next (if_neg (Bool.eq_false_iff.mp hp)))
  · exact (hostRead_device ho hw h).trans (congrArg Host.Outcome.next (if_pos hp))
  · exact (hostWrite_device ho hw h data).trans (congrArg Host.Outcome.next (if_neg (Bool.eq_false_iff.mp hu)))
  · exact (hostWrite_device ho hw h data).trans (congrArg Host.Outcome.next (if_pos hu))
  · exact (hostRead_window ho hw h).trans (congrArg Host.Outcome.next (if_pos hc))
  · have hx := hostWrite_window ho hw h data
    rwa [if_pos hc] at hx
  · exact (hostRead_window ho hw h).trans (congrArg Host.Outcome.next (if_neg (Bool.eq_false_iff.mp hc)))
  · have hx := hostWrite_window ho hw h data
    rwa [if_neg (Bool.eq_false_iff.mp hc)] at hx
  · exact hostAtomics_run (hostAtomic_performs _ hk hw) (hostAtomic_performs _ hk hw) (hostAtomic_performs _ hk hw)
  · exact hostAtomics_run (hostAtomic_held _ hk hw) (hostAtomic_held _ hk hw) (hostAtomic_held _ hk hw)
  · exact hostAtomics_run (hostAtomic_refused _ hk) (hostAtomic_refused _ hk) (hostAtomic_refused _ hk)

end Sys2Proof.Machine
end

section
/-!
PROOFS, part 36. Storage and time: persistent requests (R285), the end of a page move (R383, R384), rechecks and scrubs (R389, R421), deliveries of
throws (R296, R297) and the rebase of positions (R300).
-/
namespace Sys2Proof.Machine

/-! ### Persistent requests -/

section
variable {s : State} {line core : Nat} {l : List (Nat × Nat)} (hp : persistOf s (core / 64) line = l)
include hp

/-- A core without an entry: its failed attempt is counted, or is the eighth and enters its request. -/
theorem persistentRequest_fails (hl : l.any (fun e => e.1 == core) = false) :
    let n := smGetD s.M.attempts (attemptKey core line) 0 + 1
    let busy := s.M.persistent.any (fun e => e.2 % 2 ^ 20 == core && e.1 % 16 == line % 16)
    Runs (.persistentRequest line core) s (if n < 8 ∨ busy = true then
        { s with M := { s.M with attempts := smSet s.M.attempts (attemptKey core line) n } }
      else setPersist { s with M := { s.M with attempts := smErase s.M.attempts (attemptKey core line) } } (core / 64) line
        (l ++ [(core, if l.isEmpty then 0 else 1)])) := by
  show execPersistentRequest line core s = _
  simp only [execPersistentRequest, hp, hl, Bool.false_eq_true, if_false, apply_ite Host.Outcome.next]

/-- The request that is first collects the tokens and is cleared. -/
theorem persistentRequest_served (hl : l.any (fun e => e.1 == core) = true) (hf : persistFirst s (core / 64) line = some core) :
    Runs (.persistentRequest line core) s (persistServed
      (tokWrite (dropCopies (landThrows s (core / 64) line) (core / 64) line (core % 64)) (core / 64) line (core % 64)) core line) := by
  show execPersistentRequest line core s = _
  simp only [execPersistentRequest, hp, hl, hf, ne_eq, not_true, if_true, if_false]

end

/-! ### The end of a page move and of a stall -/

theorem pageMoveRemap_runs {s : State} {f : Nat} {m : Move} (h : s.M.moves.find? (fun x => x.fdom == f) = some m) :
    Runs (.pageMoveRemap f) s (if moveWaits s m then s else finishMove s m) := by
  show execPageMoveRemap f s = _
  simp only [execPageMoveRemap, h]

theorem finishMove_mst (s : State) (m : Move) : (domainSt (finishMove s m) m.fdom).xlMst = mstWord 2 0 := by
  simp only [finishMove, domainSt_setDomain_self]

/-- A lookup in a map whose entries are changed under their keys. -/
theorem smGet_map_keyed {α β : Type} {g : Nat × α → Nat × β} (hg : ∀ e, (g e).1 = e.1) (m : SMap α) (k : Nat) :
    smGet (m.map g) k = (smGet m k).map (fun v => (g (k, v)).2) := by
  induction m with
  | nil => rfl
  | cons e r ih =>
    obtain ⟨k', v⟩ := e
    have hk := hg (k', v)
    simp only [List.map_cons, smGet, hk]
    split
    · rename_i e
      rw [e]
      rfl
    · split
      · rfl
      · exact ih

/-- The start of a stall of stream `st` (0 once it is over, else one more than its time), marked as over after 50 µs. -/
def endStall (now : Nat) (st : Stream) (e : Nat × Nat) : Nat × Nat :=
  if e.1 % 4 == streamCode st && e.2 != 0 && decide (e.2 + 50000 ≤ now + 1) then (e.1, 0) else e

theorem endStall_key (now : Nat) (st : Stream) (e : Nat × Nat) : (endStall now st e).1 = e.1 := by
  unfold endStall
  split <;> rfl

theorem endStall_over {now t c : Nat} {st : Stream} (hc : c % 4 = streamCode st) (ht : t + 50000 ≤ now) :
    endStall now st (c, t + 1) = (c, 0) := by
  have hl : t + 1 + 50000 ≤ now + 1 := by omega
  simp [endStall, hc, hl]

theorem endStall_stays {now c v : Nat} {st : Stream} (h : ∀ t, v = t + 1 → c % 4 = streamCode st → now < t + 50000) :
    endStall now st (c, v) = (c, v) := by
  refine if_neg fun hl => ?_
  simp only [Bool.and_eq_true, beq_iff_eq, bne_iff_ne, decide_eq_true_eq] at hl
  obtain ⟨⟨hc, hv⟩, ht⟩ := hl
  have := h (v - 1) (by omega) hc
  omega

theorem freezeStallTimeout_runs {s : State} {k : Nat} {j : Job} (h : jobAt s k = some j) (st : Stream) :
    Runs (.freezeStallTimeout k st) s (setJob s k { j with stallStart := j.stallStart.map (endStall s.time st) }) := by
  show execFreezeStallTimeout k st s = _
  simp only [execFreezeStallTimeout, h]
  rfl

/-! ### A weight recheck takes no time -/

theorem foldl_unchanged {α β γ : Type} (g : β → γ) {f : β → α → β} (hf : ∀ b x, g (f b x) = g b) (l : List α) : ∀ b, g (l.foldl f b) = g b := by
  induction l with
  | nil => exact fun _ => rfl
  | cons x r ih => exact fun b => (ih (f b x)).trans (hf b x)

theorem TraceOnly.time {s t : State} (h : TraceOnly s t) : t.time = s.time := by
  obtain ⟨m, d, rfl, -⟩ := h
  rfl

theorem agentSetBytes_time (s : State) (pa : Nat) (l : List Byte) : (agentSetBytes s pa l).time = s.time := (agentSetBytes_traceOnly s pa l).time

theorem poisonWrite_time (s : State) (pa n : Nat) : (poisonWrite s pa n).time = s.time := by
  refine foldl_unchanged State.time (fun t ln => ?_) _ s
  split <;> rfl

theorem virtWrite_time (s : State) (f va : Nat) (l : List Byte) : (virtWrite s f va l).time = s.time := by
  refine foldl_unchanged (fun a : State × List Byte => a.1.time) (fun a p => ?_) _ (s, l)
  split
  · exact (agentSetBytes_time _ _ _).trans (poisonWrite_time _ _ _)
  · rfl

theorem raiseEvent_time (s : State) (f type code die addr aux : Nat) : (raiseEvent s f type code die addr aux).time = s.time := by
  have irq (s : State) : (evqIrq s f).time = s.time := by
    unfold evqIrq
    split
    · split
      · exact setTenant_time _ _ _
      · rfl
    · rfl
  have store (w0 : Nat) : (evqStore s f w0 addr aux).time = s.time := by
    unfold evqStore
    extract_lets pa
    split
    · exact setDomain_time _ _ _
    · split
      · exact (setDie_time _ _ _).trans (setDomain_time _ _ _)
      · exact (setDomain_time _ _ _).trans (agentSetBytes_time _ _ _)
  exact (irq _).trans (store _)

theorem wtPut_time (s : State) (f va n v : Nat) : (wtPut s f va n v).time = s.time := virtWrite_time _ _ _ _

theorem recheckShard_time (s : State) (f entry g d rec : Nat) : (recheckShard s f entry g d rec).time = s.time := by
  unfold recheckShard
  extract_lets s1 s2
  rw [wtPut_time]
  show (if _ then _ else _ : State).time = _
  split
  · rfl
  · rw [raiseEvent_time, wtPut_time, wtPut_time]

theorem recheckGen_time (s : State) (f entry i : Nat) : (recheckGen s f entry i).time = s.time := by
  unfold recheckGen
  extract_lets d g
  split
  · rfl
  · exact foldl_unchanged State.time (fun t n => recheckShard_time t f entry g d _) _ s

/-- Every ready generation of a domain's table is examined. -/
def rechecked (s : State) (f : Nat) : State :=
  (List.range (domainSt s f).wtCount).foldl (fun t i =>
    let e := (domainSt s f).wtBase.toNat + 64 * i
    if entryOk t f e then (List.range (2 ^ virtWord t f (e + 24))).foldl (fun t n => recheckGen t f e n) t else t) s

theorem rechecked_time (s : State) (f : Nat) : (rechecked s f).time = s.time := by
  refine foldl_unchanged State.time (fun t i => ?_) _ s
  dsimp only
  split
  · exact foldl_unchanged State.time (fun t n => recheckGen_time t f _ n) _ t
  · rfl

theorem weightRecheck_due {s : State} {f : Nat} (hc : (domainSt s f).wtCount ≠ 0)
    (ht : (domainSt s f).wtLast + (domainSt s f).wtInterval * 1000000000 ≤ s.time) (hw : recheckWaits s f = false) :
    Runs (.weightRecheck f) s (setDomain (rechecked s f) f { domainSt (rechecked s f) f with wtLast := s.time }) := by
  have run : Runs (.weightRecheck f) s (setDomain (rechecked s f) f { domainSt (rechecked s f) f with wtLast := (rechecked s f).time }) := by
    refine if_neg fun hx => ?_
    rcases hx with hx | hx | hx
    · exact hc hx
    · exact absurd ht (Nat.not_le.mpr hx)
    · exact Bool.false_ne_true (hw.symm.trans hx)
  rwa [rechecked_time] at run

/-! ### Deliveries of throws -/

/-- The delivery that is found: the first of its line to its core, with none of its sender's to that core before it. -/
theorem find?_delivery {l pre post : List (Nat × Nat × Nat)} {core line uid : Nat} (hl : l = pre ++ (core, line, uid) :: post)
    (hpre : ∀ x ∈ pre, x.1 = core → x.2.1 ≠ line ∧ x.2.2 ≠ uid) :
    l.find? (fun e => e.1 == core && e.2.1 == line && l.find? (fun x => x.1 == core && x.2.2 == e.2.2) == some e) = some (core, line, uid) := by
  have key {p : Nat × Nat × Nat → Bool} (hx : p (core, line, uid) = true) (hp : ∀ y ∈ pre, p y = false) : l.find? p = some (core, line, uid) :=
    List.find?_eq_some_iff_append.mpr ⟨hx, pre, post, hl, fun y hy => by rw [hp y hy]; rfl⟩
  have first : l.find? (fun x => x.1 == core && x.2.2 == uid) = some (core, line, uid) := by
    refine key (by simp) fun y hy => ?_
    by_cases hc : y.1 = core
    · simp [(hpre y hy hc).2]
    · simp [hc]
  refine key (by simp [first]) fun y hy => ?_
  by_cases hc : y.1 = core
  · simp [(hpre y hy hc).1]
  · simp [hc]

theorem throwDelivery_runs {s : State} {core line uid : Nat} {pre post : List (Nat × Nat × Nat)}
    (hd : s.M.deliveries = pre ++ (core, line, uid) :: post) (hpre : ∀ x ∈ pre, x.1 = core → x.2.1 ≠ line ∧ x.2.2 ≠ uid) :
    Runs (.throwDelivery core line) s (deliver { s with M := { s.M with deliveries := pre ++ post } } core line) := by
  have gone : s.M.deliveries.erase (core, line, uid) = pre ++ post := by
    rw [hd, List.erase_append_right _ (fun hm => (hpre _ hm rfl).1 rfl), List.erase_cons_head]
  show execThrowDelivery core line s = _
  simp only [execThrowDelivery, find?_delivery hd hpre, gone]

section
variable {s : State} {core line : Nat} (hl : (coreSt s core).lru.contains line = false)
include hl

/-- The quota of caught lines is used up: the delivery is refused and counted. -/
theorem deliver_refused (hq : (coreSt s core).catchq ≤ untouched s core) :
    deliver s core line = setCore s core { coreSt s core with catchref := satInc 32 (coreSt s core).catchref } := by
  simp only [deliver, hl, Bool.false_eq_true, if_false]
  exact if_neg (fun h => absurd h.1 (Nat.not_lt.mpr hq))

/-- Within the quota, the set having room, the line is the newest of the L1 and of the caught lines. -/
theorem deliver_caught (hq : untouched s core < (coreSt s core).catchq)
    (hw : ((coreSt s core).lru.filter (fun l => l1Set l == l1Set line && l != line)).length < 8) :
    coreSt (deliver s core line) core = { coreSt s core with
      lru := line :: (coreSt s core).lru.filter (· != line), caught := line :: (coreSt s core).caught.filter (· != line) } := by
  simp only [deliver, hl, Bool.false_eq_true, if_false]
  rw [if_pos ⟨hq, .inl hw⟩]
  simp only [hw, if_true]
  exact coreSt_setCore_self _ _ _

end

/-! ### The rebase -/

/-- Every key that is written, or that already holds such a value, holds a value of `f`. -/
theorem smGet_foldl_smSet {α : Type} (f : α → α) (l : List (Nat × α)) : ∀ (m : SMap α) (d : Nat),
    ((∃ a, (d, a) ∈ l) ∨ ∃ a, smGet m d = some (f a)) → ∃ a, smGet (l.foldl (fun m e => smSet m e.1 (f e.2)) m) d = some (f a) := by
  induction l with
  | nil =>
    rintro m d (⟨a, ha⟩ | h)
    · cases ha
    · exact h
  | cons e r ih =>
    intro m d h
    refine ih _ d ?_
    by_cases hd : d = e.1
    · exact .inr ⟨e.2, by rw [hd, smGet_smSet_self]⟩
    · rcases h with ⟨a, ha⟩ | h
      · rcases List.mem_cons.mp ha with rfl | ha
        · exact absurd rfl hd
        · exact .inl ⟨a, ha⟩
      · exact .inr (by rw [smGet_smSet_ne _ _ hd]; exact h)

theorem foldl_setDie (f : DieSt → DieSt) (l : List (Nat × DieSt)) : ∀ s : State,
    l.foldl (fun s e => setDie s e.1 (f e.2)) s = { s with dies := l.foldl (fun m e => smSet m e.1 (f e.2)) s.dies } := by
  induction l with
  | nil => exact fun _ => rfl
  | cons e r ih => exact fun s => ih (setDie s e.1 (f e.2))

theorem foldl_setMdie (f : MDieSt → MDieSt) (l : List (Nat × MDieSt)) : ∀ s : State,
    l.foldl (fun s e => setMdie s e.1 (f e.2)) s = { s with mdies := l.foldl (fun m e => smSet m e.1 (f e.2)) s.mdies } := by
  induction l with
  | nil => exact fun _ => rfl
  | cons e r ih => exact fun s => ih (setMdie s e.1 (f e.2))

/-- Every position is reset: G and each copy of it to 1, FLOOR to 0, no line has a record, no position is on its way. -/
def rebased (s : State) : State :=
  { s with
    gpos := 1, rebasing := false, M := { s.M with lines := [] }, F := { s.F with inbox := s.F.inbox.filter (fun p => p.cls != 7) }
    dies := s.dies.foldl (fun m e => smSet m e.1 { e.2 with g := 1 }) s.dies
    mdies := s.mdies.foldl (fun m e => smSet m e.1 { e.2 with g := 1, floor := 0 }) s.mdies }

theorem rebased_die {s : State} {d : Nat} (h : ∃ a, smGet s.dies d = some a) : (dieSt (rebased s) d).g = 1 := by
  obtain ⟨a, ha⟩ := h
  obtain ⟨b, hb⟩ := smGet_foldl_smSet (fun v : DieSt => { v with g := 1 }) s.dies s.dies d (.inl ⟨a, mem_of_smGet ha⟩)
  simp only [dieSt, smGetD, rebased, hb, Option.getD_some]

theorem rebased_mdie {s : State} {d : Nat} (h : ∃ a, smGet s.mdies d = some a) :
    (mdieSt (rebased s) d).g = 1 ∧ (mdieSt (rebased s) d).floor = 0 := by
  obtain ⟨a, ha⟩ := h
  obtain ⟨b, hb⟩ := smGet_foldl_smSet (fun v : MDieSt => { v with g := 1, floor := 0 }) s.mdies s.mdies d (.inl ⟨a, mem_of_smGet ha⟩)
  simp only [mdieSt, smGetD, rebased, hb, Option.getD_some, and_self]

section
variable {s : State} (hd : 2 ^ 47 < s.gpos.toNat)
include hd

theorem positionRebase_resets (hr : s.jobs.any (fun e => e.2.region.isSome) = false) : Runs .positionRebase s (rebased s) := by
  have due : rebaseDue s = true := decide_eq_true hd
  show execPositionRebase s = _
  simp only [execPositionRebase, due, hr, Bool.not_true, Bool.false_eq_true, if_false,
    foldl_setDie (fun v : DieSt => { v with g := 1 }), foldl_setMdie (fun v : MDieSt => { v with g := 1, floor := 0 })]
  rfl

theorem positionRebase_waits (hr : s.jobs.any (fun e => e.2.region.isSome) = true) : Runs .positionRebase s { s with rebasing := true } := by
  have due : rebaseDue s = true := decide_eq_true hd
  show execPositionRebase s = _
  simp only [execPositionRebase, due, hr, Bool.not_true, Bool.false_eq_true, if_false, if_true]

end

/-- Settles O54: each event's branches; a delivery's order is the order of the list, and a rebase is `rebased`. -/
theorem storageEvents : Obligations.StorageEvents := by
  intro s line core f k st die bad
  refine ⟨⟨fun hl hn => ?_, fun hl hn hb => ?_, persistentRequest_served rfl⟩, fun m hm => ⟨fun hw => ?_, fun hw => ?_⟩, fun j hj => ?_,
    weightRecheck_due, rfl, fun pre uid post hd hpre => ⟨throwDelivery_runs hd hpre, fun hl hq => ?_, fun hl hq hlen => ?_⟩, fun hd hr => ?_,
    positionRebase_waits⟩
  · exact (persistentRequest_fails rfl hl).trans (congrArg Host.Outcome.next (if_pos hn))
  · exact (persistentRequest_fails rfl hl).trans (congrArg Host.Outcome.next (if_neg (by rw [hb]; simpa using hn)))
  · have run : Runs (.pageMoveRemap f) s (finishMove s m) := by
      have run := pageMoveRemap_runs hm
      rwa [hw, if_neg Bool.false_ne_true] at run
    have hf : m.fdom = f := by simpa using List.find?_some hm
    exact ⟨run, _, run, hf ▸ finishMove_mst s m⟩
  · have run := pageMoveRemap_runs hm
    rwa [hw, if_pos rfl] at run
  · refine ⟨_, freezeStallTimeout_runs hj st, fun c => ⟨fun t hs hc ht => ?_, fun h => ?_⟩⟩
    · rw [smGet_map_keyed (endStall_key _ _), hs, Option.map_some, endStall_over hc ht]
    · rw [smGet_map_keyed (endStall_key _ _)]
      cases hv : smGet j.stallStart c with
      | none => rfl
      | some v => rw [Option.map_some, endStall_stays fun t ht => h t (by rw [hv, ht])]
  · exact (throwDelivery_runs hd hpre).trans (congrArg Host.Outcome.next (deliver_refused hl hq))
  · have hc := deliver_caught (s := { s with M := { s.M with deliveries := pre ++ post } }) hl hq hlen
    refine ⟨_, throwDelivery_runs hd hpre, ?_, ?_, ?_⟩ <;> rw [hc] <;> rfl
  · exact ⟨_, positionRebase_resets hd hr, rfl, rfl, rfl, rfl, rfl, fun p hp => by simpa using (List.mem_filter.mp hp).2,
      rebased_die, rebased_mdie⟩

end Sys2Proof.Machine
end

section
/-!
PROOFS, part 37. Firmware services of a handler that enter ranges, buffer groups, save pools and weight tables (R293, R325, R360, R385). OPEN_RANGE and
CLOSE_RANGE publish and combine lines first: a lemma `f_ranges` says that `f` opens and closes no range.
-/
namespace Sys2Proof.Machine

/-! ### What leaves the ranges alone -/

/-- No domain's commutative ranges have changed. -/
def SameRanges (s t : State) : Prop := ∀ f, (domainSt t f).crng = (domainSt s f).crng

theorem SameRanges.refl (s : State) : SameRanges s s := fun _ => rfl

theorem SameRanges.trans {a b c : State} (h : SameRanges a b) (g : SameRanges b c) : SameRanges a c := fun f => (g f).trans (h f)

theorem SameRanges.of_domains {s t : State} (h : t.domains = s.domains) : SameRanges s t := fun f => by rw [domainSt, h, domainSt]

theorem foldl_ranges {α : Type} {f : State → α → State} (hf : ∀ s x, SameRanges s (f s x)) (l : List α) : ∀ s, SameRanges s (l.foldl f s) := by
  induction l with
  | nil => exact .refl
  | cons x r ih => exact fun s => (hf s x).trans (ih (f s x))

theorem ite_ranges {o s t : State} {p : Prop} [Decidable p] (hs : SameRanges o s) (ht : SameRanges o t) : SameRanges o (if p then s else t) := by
  split
  · exact hs
  · exact ht

theorem setDomain_ranges (s : State) (f : Nat) {d : Domain} (h : d.crng = (domainSt s f).crng) : SameRanges s (setDomain s f d) := by
  intro n
  by_cases e : n = f
  · rw [e, domainSt_setDomain_self, h]
  · rw [domainSt_setDomain_ne _ _ e]

theorem agentSetBytes_ranges (s : State) (pa : Nat) (l : List Byte) : SameRanges s (agentSetBytes s pa l) := by
  have hl := foldl_ranges (fun s ln => .of_domains ((dropStale_domains _ ln).trans (writeBackLine_domains s ln))) (linesOf pa l.length) s
  unfold agentSetBytes
  extract_lets s1 s2
  exact hl.trans (.of_domains ((homeSetBytes_domains l _ pa).trans (noteCode_domains l s1 pa)))

theorem traceRecord_ranges (s : State) (k : Nat) (j : Job) (st : Stream) (kind lv seq w2 w3 : Nat) :
    SameRanges s (traceRecord s k j st kind lv seq w2 w3) := by
  unfold traceRecord
  split
  · exact .refl s
  · extract_lets d pa w1 s1
    split
    · exact setDomain_ranges s j.fdom rfl
    · have h : SameRanges s s1 := ite_ranges (agentSetBytes_ranges s pa _) (.refl s)
      exact h.trans (setDomain_ranges s1 j.fdom (h j.fdom).symm)

theorem retired_ranges (s : State) (k : Nat) (j j' : Job) : SameRanges s (retired s k j j') :=
  (traceRecord_ranges s k j .S _ _ _ _ _).trans (.of_domains (setJob_domains _ _ _))

theorem evqStore_ranges (s : State) (f w0 addr aux : Nat) : SameRanges s (evqStore s f w0 addr aux) := by
  have lose : SameRanges s (evqLose s f) := setDomain_ranges s f rfl
  unfold evqStore
  exact ite_ranges lose (ite_ranges (lose.trans (.of_domains rfl)) ((agentSetBytes_ranges s _ _).trans (setDomain_ranges _ f rfl)))

theorem evqIrq_ranges (s : State) (f : Nat) : SameRanges s (evqIrq s f) := by
  unfold evqIrq
  split
  · exact ite_ranges (.of_domains rfl) (.refl s)
  · exact .refl s

theorem raiseEvent_ranges (s : State) (f type code die addr aux : Nat) : SameRanges s (raiseEvent s f type code die addr aux) :=
  (evqStore_ranges s f _ addr aux).trans (evqIrq_ranges _ f)

theorem watchOne_ranges (s : State) (m line cls ty f src n : Nat) : SameRanges s (watchOne s m line cls ty f src n) :=
  ite_ranges (.trans (b := setMdie s m _) (.of_domains rfl) (raiseEvent_ranges _ _ _ _ _ _ _)) (.refl s)

theorem watchHit_ranges (s : State) (line cls ty f src : Nat) : SameRanges s (watchHit s line cls ty f src) := by
  unfold watchHit
  split
  · exact .refl s
  · exact foldl_ranges (fun s n => watchOne_ranges s _ _ _ _ _ _ n) _ s

/-! ### Coherent writes and narrowings -/

theorem deliver_domains (s : State) (core line : Nat) : (deliver s core line).domains = s.domains := by
  unfold deliver
  extract_lets c foot ways open_ lru s1 s2 hs
  have h1 : s1.domains = s.domains := by
    show (if _ then _ else _ : State).domains = _
    split
    · rfl
    · split <;> rfl
  split
  · rfl
  · split
    · exact h1
    · rfl

theorem landThrows_ranges (s : State) (die line : Nat) : SameRanges s (landThrows s die line) := by
  unfold landThrows
  extract_lets d s1
  have h : SameRanges s s1 := foldl_ranges (fun s e => .of_domains (deliver_domains s e.1 e.2.1)) d s
  exact h.trans (.of_domains rfl)

theorem recallLine_ranges (s : State) (line f d : Nat) : SameRanges s (recallLine s line f d) :=
  ite_ranges (.trans (.of_domains (writeBackLine_domains s line)) (watchHit_ranges _ _ _ _ _ _)) (.refl s)

theorem dirRevoke_ranges (s : State) (line f : Nat) (except : Option Nat) : SameRanges s (dirRevoke s line f except) := by
  unfold dirRevoke
  extract_lets held
  refine foldl_ranges (fun t d => ?_) held s
  extract_lets t1 t2
  have h1 : SameRanges t t1 := landThrows_ranges t d line
  have h2 : SameRanges t1 t2 := ite_ranges (recallLine_ranges t1 line f d) (.refl t1)
  exact (h1.trans h2).trans (.of_domains rfl)

theorem dirWrite_ranges (s : State) (d line f ty : Nat) : SameRanges s (dirWrite s d line f ty) :=
  ite_ranges (.refl s) (((watchHit_ranges s _ _ _ _ _).trans (dirRevoke_ranges _ line f (some d))).trans (.of_domains rfl))

theorem cSetMasked_domains (line mask : Nat) (l : List Byte) : ∀ s i, (cSetMasked s line mask i l).domains = s.domains := by
  induction l with
  | nil => exact fun _ _ => rfl
  | cons b r ih =>
    intro s i
    rw [cSetMasked, ih]
    split
    · exact noteCode_domains _ s _
    · rfl

theorem noteTag_domains (s : State) (line : Nat) : (noteTag s line).domains = s.domains := by
  unfold noteTag
  split <;> rfl

theorem poisonMask_domains (s : State) (line mask : Nat) : (poisonMask s line mask).domains = s.domains := by
  unfold poisonMask
  split <;> rfl

theorem diePut_ranges (s : State) (d agent line f ty mask : Nat) (bytes : List Byte) : SameRanges s (diePut s d agent line f ty mask bytes) := by
  unfold diePut
  refine ite_ranges (raiseEvent_ranges s _ _ _ _ _ _) ?_
  extract_lets s1 s2 c v s3 s4
  have h2 : SameRanges s s2 := ((landThrows_ranges s d line).trans (dirWrite_ranges s1 d line f ty)).trans (.of_domains rfl)
  have h3 : SameRanges s2 s3 := ite_ranges (.of_domains rfl) (.refl s2)
  have h4 : SameRanges s3 s4 := .of_domains (noteTag_domains s3 line)
  exact ((h2.trans h3).trans h4).trans (.of_domains ((poisonMask_domains _ _ _).trans (cSetMasked_domains _ _ _ _ _)))

theorem narrow_domains (s : State) (k : Nat) (f : Region → Region) : (narrow s k f).domains = s.domains := by
  have hq : (narrowQuiet s k f).domains = s.domains := by
    unfold narrowQuiet
    split <;> rfl
  unfold narrow
  split
  · rfl
  · extract_lets
    split <;> exact hq

theorem slWrite_ranges (s : State) (line : Nat) (die : Option Nat) : SameRanges s (slWrite s line die) := by
  unfold slWrite
  extract_lets r w s1
  refine .trans (b := s1) (.of_domains rfl) (foldl_ranges (fun t e => ?_) _ s1)
  split
  · exact .refl t
  · exact ite_ranges (.of_domains (narrow_domains _ _ _)) (.refl t)

/-! ### Publishing and combining -/

theorem pubWrite_ranges (s : State) (core l : Nat) (c : ScopeCopy) : SameRanges s (pubWrite s core l c) :=
  (diePut_ranges s _ _ _ _ _ _ _).trans (slWrite_ranges _ _ _)

theorem pubOut_ranges (s : State) (c : ScopeCopy) (rs : List RelRec) (core t n : Nat) : ∀ l, SameRanges s (pubOut s c rs core t n l) := by
  have written (l : Nat) (m : Nat) (cp : Option (Nat × Nat)) : SameRanges s (relPut (pubWrite s core l c) c.line m rs cp) :=
    (pubWrite_ranges s core l c).trans (.of_domains rfl)
  induction n with
  | zero => exact fun _ => .refl s
  | succ n ih =>
    intro l
    unfold pubOut
    split
    · exact written 2 _ _
    · split
      · exact .of_domains rfl
      · exact ite_ranges (written l _ _) (ite_ranges (.of_domains rfl) (ih (l + 1)))

theorem publish1_ranges (s : State) (c : ScopeCopy) (t : Nat) : SameRanges s (publish1 s c t) := by
  unfold publish1
  extract_lets r
  have hr : SameRanges s r.1 := .of_domains rfl
  exact ite_ranges hr (hr.trans (pubOut_ranges _ _ _ _ _ _ _))

theorem publishSel_ranges (s : State) (sel : ScopeCopy → Bool) (t : Nat) : SameRanges s (publishSel s sel t) :=
  foldl_ranges (fun s _ => foldl_ranges (fun s c => publish1_ranges s c t) _ s) _ s

theorem combinePart_ranges (s : State) (line : Nat) (p : Partial) : SameRanges s (combinePart s line p) := by
  unfold combinePart
  extract_lets n s1
  have h : SameRanges s s1 := foldl_ranges (fun t _ => agentSetBytes_ranges t _ _) _ s
  exact h.trans (slWrite_ranges s1 line none)

theorem dropPartial_domains (s : State) (cl line : Nat) : (dropPartial s cl line).domains = s.domains := setCluster_domains _ _ _

theorem combineLine_ranges (s : State) (line : Nat) : SameRanges s (combineLine s line) := by
  unfold combineLine
  refine foldl_ranges (fun t e => ?_) _ s
  exact (combinePart_ranges t line e.2).trans (.of_domains (dropPartial_domains (combinePart t line e.2) e.1 line))

theorem combineRange_ranges (s : State) (f n : Nat) : SameRanges s (combineRange s f n) := by
  unfold combineRange
  exact foldl_ranges combineLine_ranges _ s

/-! ### What leaves a job its S stream -/

/-- No job has changed but in the bounds of its region. -/
def SameJobs (s t : State) : Prop := t.jobs.map bareSlot = s.jobs.map bareSlot

/-- A job of such a state has the core it had. -/
theorem SameJobs.jobAt {s t : State} (h : SameJobs s t) {k : Nat} {j : Job} (hj : jobAt s k = some j) :
    ∃ q, Machine.jobAt t k = some q ∧ q.core = j.core := by
  have hp : Published { t with jobs := s.jobs } t := ⟨rfl, h, rfl, rfl, fun _ => rfl⟩
  obtain ⟨r, hr, -⟩ := hp.jobAt (k := k) hj
  exact ⟨_, hr, rfl⟩

theorem combineLine_sameJobs (s : State) (line : Nat) : SameJobs s (combineLine s line) := by
  suffices h : ∀ (l : List (Nat × Partial)) (t : State), SameJobs t (l.foldl (fun s e => dropPartial (combinePart s line e.2) e.1 line) t) from h _ s
  intro l
  induction l with
  | nil => exact fun _ => rfl
  | cons e r ih =>
    intro t
    have hp : Published t (combinePart t line e.2) :=
      slWrite_published (foldl_published (fun _ _ h => agentSetBytes_published h _ _) (.refl t) _) line none
    exact (ih _).trans (hp.jobs : SameJobs t (dropPartial (combinePart t line e.2) e.1 line))

theorem combineRange_sameJobs (s : State) (f n : Nat) : SameJobs s (combineRange s f n) := by
  suffices h : ∀ (l : List Nat) (t : State), SameJobs t (l.foldl combineLine t) from h _ s
  intro l
  induction l with
  | nil => exact fun _ => rfl
  | cons x r ih => exact fun t => (ih _).trans (combineLine_sameJobs t x)

/-! ### A service that fences first -/

/-- The fence of a service opens and closes no range and leaves the handler its core. -/
theorem serviceFence_spec {s : State} {k : Nat} {j : Job} (hj : jobAt s k = some j) :
    SameRanges s (serviceFence s k) ∧ ∃ q, jobAt (serviceFence s k) k = some q ∧ q.core = j.core := by
  obtain ⟨hs, hc, -⟩ := fenceDone_spec (clk := fenceGather j [0] 0 3 (jCoreKey k)) (sc := 3) (src := 1) (dst := 1) (kind := 0) hj j
  simp only [serviceFence, hj]
  refine ⟨.trans ?_ (.of_domains (setJob_domains _ _ _)), _, jobAt_setJob_self _ _ _, hc⟩
  rw [hs, if_neg (by decide)]
  exact publishSel_ranges s _ 3

/-- Service `i`, which works on no memory of its caller and does what `f` says, returns. -/
theorem service_serves {i : Instr} {s s' : State} {k v imm : Nat} {j : Job} {f : Nat → Job → State × Nat} (h : SReady s k j sHnd [])
    (hl : j.level = .handler) (hi : exec i s = service s imm (fun k j => ((f k j).1, some (f k j).2))) (hf : f k j = (s', v)) :
    Serves i s k j s' v := by
  refine hi.trans (serviceHold_serves h hl (hold := fun _ => false) rfl ?_)
  rw [hf]

/-- Service `i` returns `v` in s8, the handler goes on, and the ranges of its domain are as `P` says. -/
def EndsWith (i : Instr) (s : State) (k : Nat) (j : Job) (v : Nat) (P : Vector (Word × Word × Word) 8 → Prop) : Prop :=
  ∃ t j', Runs i s t ∧ SDone t k j (j.setS 8 (BitVec.ofNat 64 v)).next j' ∧ P (domainSt t j.fdom).crng

/-- A service that leaves `s'`, in which its handler has the core it had. -/
theorem endsWith_of {i : Instr} {s s' : State} {k v : Nat} {j q : Job} {P : Vector (Word × Word × Word) 8 → Prop} (hq : jobAt s' k = some q)
    (hc : q.core = j.core) (hr : Serves i s k j s' v) (hP : P (domainSt s' j.fdom).crng) : EndsWith i s k j v P := by
  refine ⟨_, _, hr, ⟨jobAt_retired_self _ _ _ _, rfl, ?_⟩, ?_⟩
  · simp only [curJob_of hq, Job.next, Job.setS, Job.setPc, Job.pc, hc] <;> rfl
  · rw [retired_ranges s' k j _ j.fdom]
    exact hP

/-- OPEN_RANGE or CLOSE_RANGE that answers a refusal leaves the ranges as they were. -/
theorem range_refused {i : Instr} {s : State} {k v : Nat} {j : Job} (hj : jobAt s k = some j) (hs : Serves i s k j (serviceFence s k) v) :
    EndsWith i s k j v (· = (domainSt s j.fdom).crng) := by
  obtain ⟨hr, q, hq, hc⟩ := serviceFence_spec hj
  exact endsWith_of hq hc hs (hr _)

/-! ### OPEN_RANGE -/

theorem rangeCtlOk_eq_false_iff (v : Nat) : rangeCtlOk v = false ↔ (¬ bits v 4 4 ∈ [0, 1, 2, 3, 11] ∨ bits v 0 2 = 3) := by
  simp only [rangeCtlOk, Bool.and_eq_false_iff, bne_eq_false_iff_eq, ← List.contains_iff_mem, Bool.not_eq_true]

/-- Bad arguments of OPEN_RANGE. -/
abbrev RangeBad (i base last ctl : Nat) : Prop :=
  7 < i ∨ base % 64 ≠ 0 ∨ 2 ^ 52 ≤ base ∨ 2 ^ 52 ≤ last ∨ last / 64 < base / 64 ∨ bits ctl 8 56 ≠ 0 ∨ bits ctl 2 2 ≠ 0 ∨
    ¬ bits ctl 4 4 ∈ [0, 1, 2, 3, 11] ∨ bits ctl 0 2 = 3

/-- Range `n` of the table `r` has been opened and not closed. -/
abbrev isOpen (r : Vector (Word × Word × Word) 8) (n : Nat) : Bool := (r.toList.getD n (0, 0, 0)).1.getLsbD 0

/-- The lines from `base` to `last` overlap those of such a range other than `i`. -/
abbrev RangeLaps (r : Vector (Word × Word × Word) 8) (i base last : Nat) : Prop :=
  ∃ n, n < 8 ∧ n ≠ i ∧ isOpen r n = true ∧ base / 64 ≤ bits (r.toList.getD n (0, 0, 0)).2.1.toNat 6 46 ∧
    bits (r.toList.getD n (0, 0, 0)).1.toNat 6 46 ≤ last / 64

theorem rangeLaps_iff (r : Vector (Word × Word × Word) 8) (i base last : Nat) :
    (List.range 8).any (fun n => let w := r.toList.getD n (0, 0, 0)
      n != i && w.1.getLsbD 0 && lapLines (base / 64) (last / 64) (bits w.1.toNat 6 46) (bits w.2.1.toNat 6 46)) = true ↔ RangeLaps r i base last := by
  simp only [List.any_eq_true, List.mem_range, Bool.and_eq_true, bne_iff_ne, lapLines, decide_eq_true_eq, RangeLaps, and_assoc]

section
variable {s : State} {f i base last ctl : Nat}

theorem openRange_bad (hb : RangeBad i base last ctl) : openRange s f i base last ctl = (s, 1) :=
  if_pos (by rw [rangeCtlOk_eq_false_iff]; exact hb)

variable (hb : ¬ RangeBad i base last ctl) {r : Vector (Word × Word × Word) 8} (hr : (domainSt s f).crng = r)
include hb hr

theorem openRange_checked : openRange s f i base last ctl = if RangeLaps r i base last then (s, 2) else if isOpen r i = true then (s, 3) else
    (setDomain s f { domainSt s f with
      crng := r.setIfInBounds i (BitVec.ofNat 64 (base + 1), BitVec.ofNat 64 (last / 64 * 64), BitVec.ofNat 64 ctl) }, 0) := by
  subst hr
  refine (if_neg (by rw [rangeCtlOk_eq_false_iff]; exact hb)).trans (if_congr (rangeLaps_iff _ _ _ _) rfl rfl)

end

/-! ### CLOSE_RANGE -/

section
variable {s : State} {f i : Nat}

theorem closeRange_refused (ho : isOpen (domainSt s f).crng i = false) : closeRange s f i = (s, 1) := if_neg (Bool.eq_false_iff.mp ho)

/-- A range that is closed: its lines are combined, and it is marked so. -/
def rangeClosed (s : State) (f i : Nat) : State :=
  let w := (domainSt s f).crng.toList.getD i (0, 0, 0)
  setDomain (combineRange s f i) f { domainSt (combineRange s f i) f with
    crng := (domainSt (combineRange s f i) f).crng.setIfInBounds i (w.1 - 1, w.2) }

theorem closeRange_closes (ho : isOpen (domainSt s f).crng i = true) : closeRange s f i = (rangeClosed s f i, 0) := if_pos ho

theorem rangeClosed_crng (s : State) (f i : Nat) : (domainSt (rangeClosed s f i) f).crng = (domainSt s f).crng.setIfInBounds i
    (((domainSt s f).crng.toList.getD i (0, 0, 0)).1 - 1, ((domainSt s f).crng.toList.getD i (0, 0, 0)).2) := by
  simp only [rangeClosed, domainSt_setDomain_self, combineRange_ranges s f i f]

theorem jobAt_rangeClosed {k : Nat} {j : Job} (hj : jobAt s k = some j) : ∃ q, jobAt (rangeClosed s f i) k = some q ∧ q.core = j.core := by
  obtain ⟨q, hq, hc⟩ := (combineRange_sameJobs s f i).jobAt hj
  exact ⟨q, (jobAt_congr (setDomain_jobs _ _ _) k).trans hq, hc⟩

end

section
variable {s : State} {k : Nat} {j : Job} (h : SReady s k j sHnd []) (hl : j.level = .handler)
include h hl

theorem openRange_serves {s' : State} {v : Nat}
    (hf : openRange (serviceFence s k) j.fdom (j.arg 8) (j.arg 9) (j.arg 10) (j.arg 11) = (s', v)) : Serves .openRange s k j s' v :=
  service_serves h hl (f := fun k j => openRange (serviceFence s k) j.fdom (j.arg 8) (j.arg 9) (j.arg 10) (j.arg 11)) rfl hf

theorem closeRange_serves {s' : State} {v : Nat} (hf : closeRange (serviceFence s k) j.fdom (j.arg 8) = (s', v)) :
    Serves .closeRange s k j s' v :=
  service_serves h hl (f := fun k j => closeRange (serviceFence s k) j.fdom (j.arg 8)) rfl hf

theorem openRange_ends : let r := (domainSt s j.fdom).crng
    (RangeBad (j.arg 8) (j.arg 9) (j.arg 10) (j.arg 11) → EndsWith .openRange s k j 1 (· = r)) ∧
    (¬ RangeBad (j.arg 8) (j.arg 9) (j.arg 10) (j.arg 11) →
      (RangeLaps r (j.arg 8) (j.arg 9) (j.arg 10) → EndsWith .openRange s k j 2 (· = r)) ∧
      (¬ RangeLaps r (j.arg 8) (j.arg 9) (j.arg 10) → isOpen r (j.arg 8) = true → EndsWith .openRange s k j 3 (· = r)) ∧
      (¬ RangeLaps r (j.arg 8) (j.arg 9) (j.arg 10) → isOpen r (j.arg 8) = false → EndsWith .openRange s k j 0
        (· = r.setIfInBounds (j.arg 8) (BitVec.ofNat 64 (j.arg 9 + 1), BitVec.ofNat 64 (j.arg 10 / 64 * 64), BitVec.ofNat 64 (j.arg 11))))) := by
  obtain ⟨hr, q, hq, hc⟩ := serviceFence_spec h.here
  refine ⟨fun hb => range_refused h.here (openRange_serves h hl (openRange_bad hb)), fun hb => ?_⟩
  have hx := openRange_checked hb (hr j.fdom)
  refine ⟨fun hp => range_refused h.here (openRange_serves h hl (hx.trans (if_pos hp))), fun hp ho => ?_, fun hp ho => ?_⟩
  · exact range_refused h.here (openRange_serves h hl (hx.trans ((if_neg hp).trans (if_pos ho))))
  · refine endsWith_of (s' := setDomain _ _ _) hq hc (openRange_serves h hl (hx.trans ((if_neg hp).trans (if_neg ?_)))) ?_
    · rw [ho]
      exact Bool.false_ne_true
    · rw [domainSt_setDomain_self]

theorem closeRange_ends : let r := (domainSt s j.fdom).crng
    (isOpen r (j.arg 8) = false → EndsWith .closeRange s k j 1 (· = r)) ∧
    (isOpen r (j.arg 8) = true → EndsWith .closeRange s k j 0
      (· = r.setIfInBounds (j.arg 8) ((r.toList.getD (j.arg 8) (0, 0, 0)).1 - 1, (r.toList.getD (j.arg 8) (0, 0, 0)).2))) := by
  obtain ⟨hr, q, hq, hc⟩ := serviceFence_spec h.here
  refine ⟨fun ho => range_refused h.here (closeRange_serves h hl (closeRange_refused (by rw [hr]; exact ho))), fun ho => ?_⟩
  obtain ⟨q', hq', hc'⟩ := jobAt_rangeClosed (f := j.fdom) (i := j.arg 8) hq
  refine endsWith_of hq' (hc'.trans hc) (closeRange_serves h hl (closeRange_closes (by rw [hr]; exact ho))) ?_
  rw [rangeClosed_crng, hr]

end

/-! ### Buffer groups -/

/-- An area that can be read is in no page move. -/
theorem areaMoves_of_canRead {s : State} {f va n : Nat} (h : canRead s f va n = true) : areaMoves s f va n .read = false := by
  simp only [canRead, List.all_eq_true] at h
  have hp : areaPages s f va n .read = .ok := by
    unfold areaPages
    rw [List.findSome?_eq_none_iff.mpr fun p hp => ?_, Option.getD_none]
    have := h p hp
    cases ht : translateMem s f true p.1 .read <;> simp [ht] at this ⊢
  rw [areaMoves, hp]
  rfl

section
variable {s : State} {k f b : Nat}

theorem ownGroup_of {g : Group} (hg : smGet (dieSt s (jDie k)).groups b = some g) (hf : g.fdom = f) : ownGroup s k f b = some g := by
  simp only [ownGroup, hg, hf, if_true]

theorem ownGroup_none (h : ∀ g, smGet (dieSt s (jDie k)).groups b = some g → g.fdom ≠ f) : ownGroup s k f b = none := by
  unfold ownGroup
  split
  · rename_i g hg
    exact if_neg (h g hg)
  · rfl

theorem resetGroup_own {g : Group} (h : ownGroup s k f b = some g) : resetGroup s k f b = (setDie s (jDie k) { dieSt s (jDie k) with
    groups := smSet (dieSt s (jDie k)).groups b { g with counts := [], holes := [] } }, 0) := by
  simp only [resetGroup, h]

theorem releaseGroup_own {g : Group} (h : ownGroup s k f b = some g) : releaseGroup s k f b = (setDie s (jDie k) { dieSt s (jDie k) with
    groups := smErase (dieSt s (jDie k)).groups b }, 0) := by
  simp only [releaseGroup, h]

theorem resetGroup_other (h : ownGroup s k f b = none) : resetGroup s k f b = (s, 1) := by simp only [resetGroup, h]

theorem releaseGroup_other (h : ownGroup s k f b = none) : releaseGroup s k f b = (s, 1) := by simp only [releaseGroup, h]

variable {va : Nat}

theorem registerGroup_misaligned (ha : va % 64 ≠ 0) : registerGroup s k f va = (s, 1) := if_pos (.inl ha)

variable (ha : va % 64 = 0) (hr : canRead s f va 64 = true)
include ha hr

theorem registerGroup_refused (ho : groupOf f ((wordsOf (virtBytes s f va 64) 8).map BitVec.toNat) = none) : registerGroup s k f va = (s, 1) := by
  simp only [registerGroup, ha, hr, ho, ne_eq, not_true, Bool.true_eq_false, or_self, if_false]

theorem registerGroup_described {g : Group} (ho : groupOf f ((wordsOf (virtBytes s f va 64) 8).map BitVec.toNat) = some (b, g)) :
    let gs := (dieSt s (jDie k)).groups
    registerGroup s k f va = if (smGet gs b).isSome = true then (s, 2) else if 256 ≤ gs.length then (s, 3)
      else (setDie s (jDie k) { dieSt s (jDie k) with groups := smSet gs b g }, 0) := by
  simp only [registerGroup, ha, hr, ho, ne_eq, not_true, Bool.true_eq_false, or_self, if_false]

end

section
variable {s s' : State} {k v : Nat} {j : Job} (h : SReady s k j sHnd []) (hl : j.level = .handler)
include h hl

theorem registerBufferGroup_waits (hm : areaMoves s j.fdom (j.arg 8) 64 .read = true) : Runs .registerBufferGroup s s := by
  show execRegisterBufferGroup s = _
  exact serviceHold_waits h hl hm _

theorem registerBufferGroup_serves (hm : areaMoves s j.fdom (j.arg 8) 64 .read = false) (hf : registerGroup s k j.fdom (j.arg 8) = (s', v)) :
    Serves .registerBufferGroup s k j s' v := by
  show execRegisterBufferGroup s = _
  refine serviceHold_serves h hl hm ?_
  rw [hf]

theorem resetBufferGroup_serves (hf : resetGroup s k j.fdom (j.arg 8) = (s', v)) : Serves .resetBufferGroup s k j s' v :=
  service_serves h hl (f := fun k j => resetGroup s k j.fdom (j.arg 8)) rfl hf

theorem releaseBufferGroup_serves (hf : releaseGroup s k j.fdom (j.arg 8) = (s', v)) : Serves .releaseBufferGroup s k j s' v :=
  service_serves h hl (f := fun k j => releaseGroup s k j.fdom (j.arg 8)) rfl hf

/-! ### Save pools and weight tables -/

theorem setContextPool_serves (hf : setPool s j.fdom (j.arg 8) (j.arg 9) (j.arg 10) (j.arg 11) = (s', v)) : Serves .setContextPool s k j s' v :=
  service_serves h hl (f := fun _ j => setPool s j.fdom (j.arg 8) (j.arg 9) (j.arg 10) (j.arg 11)) rfl hf

theorem registerWeightTable_serves (hf : setTable s j.fdom (j.arg 8) (j.arg 9) (j.arg 10) = (s', v)) : Serves .registerWeightTable s k j s' v :=
  service_serves h hl (f := fun _ j => setTable s j.fdom (j.arg 8) (j.arg 9) (j.arg 10)) rfl hf

end

section
variable {s : State} {f base last ctl hnd n iv : Nat}

/-- Bad arguments of SET_CONTEXT_POOL. -/
abbrev PoolBad (base last ctl hnd : Nat) : Prop :=
  base % 4096 ≠ 0 ∨ 2 ^ 48 ≤ base ∨ 2 ^ 48 ≤ last ∨ last / 4096 < base / 4096 ∨ bits ctl 16 16 ≠ 0 ∨ hnd % 4 ≠ 0

theorem setPool_bad (hb : PoolBad base last ctl hnd) : setPool s f base last ctl hnd = (s, 1) := if_pos hb

theorem setPool_checked (hb : ¬ PoolBad base last ctl hnd) : setPool s f base last ctl hnd = if (domainSt s f).reserves ≠ [] then (s, 2) else
    (setDomain s f { domainSt s f with
      ctxBase := BitVec.ofNat 64 (base + 1), ctxLim := BitVec.ofNat 64 (last / 4096 * 4096),
      ctxCtl := BitVec.ofNat 64 ctl, ctxHnd := BitVec.ofNat 64 hnd }, 0) :=
  (if_neg hb).trans (if_congr (by simp) rfl rfl)

/-- Bad arguments of REGISTER_WEIGHT_TABLE. -/
abbrev TableBad (base n : Nat) : Prop := base % 64 ≠ 0 ∨ n = 0 ∨ 4096 < n

theorem setTable_bad (hb : TableBad base n) : setTable s f base n iv = (s, 1) := if_pos (by rwa [Nat.lt_one_iff])

theorem setTable_checked (hb : ¬ TableBad base n) : setTable s f base n iv =
    if s.launches.any (fun e => e.2.fdom == f && !e.2.wgens.isEmpty) = true then (s, 2) else
      (setDomain s f { domainSt s f with
        wtBase := BitVec.ofNat 64 base, wtCount := n, wtInterval := if iv = 0 then 600 else iv, wtLast := s.time }, 0) :=
  if_neg (by rwa [Nat.lt_one_iff])

end

/-- Settles O51: a service answers what its function does; the two that fence first keep the handler's core and, but for the range they name,
the table. -/
theorem serviceResults : Obligations.ServiceResults := by
  refine ⟨fun s k j h hl => ?_, fun s f base last ctl hnd n iv i k b => ⟨fun h1 h2 h3 h4 h5 h6 hr => ?_, fun h1 => setPool_bad (.inl h1),
    fun h1 h2 h3 hu => ?_, fun hn => setTable_bad (.inr hn), fun hi => openRange_bad (.inl hi), closeRange_refused, fun g hg hf => ?_, fun hg => ?_⟩⟩
  · obtain ⟨bad, good⟩ := openRange_ends h hl
    obtain ⟨closed, opened⟩ := closeRange_ends h hl
    refine ⟨bad, fun hb => (good hb).1, fun hb => (good hb).2.1, fun hb => (good hb).2.2, closed, opened, registerBufferGroup_waits h hl,
      fun ha hm => registerBufferGroup_serves h hl hm (registerGroup_misaligned ha), fun ha hr => ⟨fun ho => ?_, fun b g ho => ?_⟩,
      fun g hg hf => ⟨resetBufferGroup_serves h hl (resetGroup_own (ownGroup_of hg hf)),
        releaseBufferGroup_serves h hl (releaseGroup_own (ownGroup_of hg hf))⟩,
      fun hg => ⟨resetBufferGroup_serves h hl (resetGroup_other (ownGroup_none hg)),
        releaseBufferGroup_serves h hl (releaseGroup_other (ownGroup_none hg))⟩,
      ⟨fun hb => setContextPool_serves h hl (setPool_bad hb), fun hb hr => setContextPool_serves h hl ((setPool_checked hb).trans (if_pos hr)),
        fun hb hr => setContextPool_serves h hl ((setPool_checked hb).trans (if_neg (not_not.mpr hr)))⟩,
      fun hb => registerWeightTable_serves h hl (setTable_bad hb),
      fun hb hu => registerWeightTable_serves h hl ((setTable_checked hb).trans (if_pos hu)),
      fun hb hu => registerWeightTable_serves h hl ((setTable_checked hb).trans (if_neg (Bool.eq_false_iff.mp hu)))⟩
    · exact registerBufferGroup_serves h hl (areaMoves_of_canRead hr) (registerGroup_refused ha hr ho)
    · have hx := registerGroup_described (k := k) ha hr ho
      have serves {s' : State} {v : Nat} (hf : _ = (s', v)) := registerBufferGroup_serves h hl (areaMoves_of_canRead hr) (hx.trans hf)
      exact ⟨fun hs => serves (if_pos hs), fun hs hn => serves ((if_neg (by rw [hs]; exact Bool.false_ne_true)).trans (if_pos hn)),
        fun hs hn => serves ((if_neg (by rw [hs]; exact Bool.false_ne_true)).trans (if_neg (Nat.not_le.mpr hn)))⟩
  · have hb : ¬ PoolBad base last ctl hnd := by simp only [PoolBad]; omega
    rw [(setPool_checked hb).trans (if_neg (not_not.mpr hr))]
    exact ⟨rfl, domainSt_setDomain_self _ _ _⟩
  · have hb : ¬ TableBad base n := by simp only [TableBad]; omega
    rw [(setTable_checked hb).trans (if_neg (Bool.eq_false_iff.mp hu))]
    exact ⟨rfl, domainSt_setDomain_self _ _ _⟩
  · rw [releaseGroup_own (ownGroup_of hg hf), resetGroup_own (ownGroup_of hg hf)]
    exact ⟨rfl, rfl, by rw [dieSt_setDie_self, smGet_smSet_self]⟩
  · exact ⟨releaseGroup_other (ownGroup_none hg), resetGroup_other (ownGroup_none hg)⟩

end Sys2Proof.Machine
end

section
/-!
PROOFS, part 38. Answers and the other messages at their destination (R306, R327, R411 to R413, R422): responses, data, narrowings and positions, token
rows with their pick records, and management messages. As in part 34 each leaves the inbox and its handler acts on the rest.
-/
namespace Sys2Proof.Machine

/-! ### Responses -/

/-- A run's end under another description. -/
theorem Runs.to_eq {i : Instr} {s t u : State} (h : Runs i s t) (e : t = u) : Runs i s u := e ▸ h

theorem rspAck_runs {s : State} {m : Msg} (h : Waits s 2 0 m) : Runs (.rspAck m) s (closeOut (took s 2 0 m) m) := by
  show execRspAck m s = _
  rw [execRspAck, onMsg_waits h]

theorem rspRetry_runs {s : State} {m : Msg} (h : Waits s 2 1 m) : Runs (.rspRetry m) s (took s 2 1 m) := by
  show execRspRetry m s = _
  rw [execRspRetry, onMsg_waits h]

theorem rspDataFollows_runs {s : State} {m : Msg} (h : Waits s 2 4 m) : Runs (.rspDataFollows m) s (took s 2 4 m) := by
  show execRspDataFollows m s = _
  rw [execRspDataFollows, onMsg_waits h]

theorem rspForcedPublishAck_runs {s : State} {m : Msg} (h : Waits s 2 5 m) : Runs (.rspForcedPublishAck m) s (closeOut (took s 2 5 m) m) := by
  show execRspForcedPublishAck m s = _
  rw [execRspForcedPublishAck, onMsg_waits h]

section
variable {s : State} {m : Msg} {c o a f : Nat}

/-- Taking a message from the inbox leaves the request it answers outstanding. -/
theorem outOf_took {cls op : Nat} {x : Option (Nat × Nat × Nat × Nat)} (ho : outOf s m = x) : outOf (took s cls op m) m = x := ho

theorem rspMoved_runs (h : Waits s 2 2 m) (ho : outOf s m = some (c, o, a, f)) :
    let q := closeOut (took s 2 2 m) m
    Runs (.rspMoved m) s { q with M := { q.M with tlb := s.M.tlb.filter (fun x => x.fdom != f) } } := by
  show execRspMoved m s = _
  rw [execRspMoved, onMsg_waits h]
  simp only [outOf_took ho]
  rfl

/-- What an error leaves of the request it answers, by the request's class and operation (R413). -/
def errorClosed (q : State) (m : Msg) (c o a f : Nat) : State :=
  if c ≠ 1 then q
  else if o < 2 then poisonLine q (lineOf a)
  else if o < 4 then raiseEvent q f 12 (Config.errorCode m.w1) m.dst.toNat a m.ftag.toNat
  else q

theorem rspError_runs (h : Waits s 2 3 m) (ho : outOf s m = some (c, o, a, f)) :
    Runs (.rspError m) s (errorClosed (closeOut (took s 2 3 m) m) m c o a f) := by
  show execRspError m s = _
  rw [execRspError, onMsg_waits h]
  simp only [outOf_took ho]
  rfl

end

section
variable (q : State) (m : Msg) {c o : Nat} (a f : Nat)

theorem errorClosed_other (hc : c ≠ 1) : errorClosed q m c o a f = q := if_pos hc

theorem errorClosed_request : errorClosed q m 1 o a f =
    if o < 2 then poisonLine q (lineOf a) else if o < 4 then raiseEvent q f 12 (Config.errorCode m.w1) m.dst.toNat a m.ftag.toNat else q :=
  if_neg (by decide)

theorem errorClosed_read (ho : o < 2) : errorClosed q m 1 o a f = poisonLine q (lineOf a) := (errorClosed_request q m a f).trans (if_pos ho)

theorem errorClosed_write (hl : 2 ≤ o) (hh : o < 4) :
    errorClosed q m 1 o a f = raiseEvent q f 12 (Config.errorCode m.w1) m.dst.toNat a m.ftag.toNat :=
  (errorClosed_request q m a f).trans ((if_neg (Nat.not_lt.mpr hl)).trans (if_pos hh))

theorem errorClosed_rest (ho : 4 ≤ o) : errorClosed q m 1 o a f = q :=
  (errorClosed_request q m a f).trans ((if_neg (by omega)).trans (if_neg (Nat.not_lt.mpr ho)))

end

/-! ### Data -/

theorem datLine_runs {s : State} {m : Msg} (h : Waits s 3 0 m) : Runs (.datLine m) s (dataArrives (took s 3 0 m) m (2 ^ 64 - 1)) := by
  show execDatLine m s = _
  rw [execDatLine, onMsg_waits h]

theorem datPartialLine_runs {s : State} {m : Msg} (h : Waits s 3 1 m) : Runs (.datPartialLine m) s (dataArrives (took s 3 1 m) m m.w1.toNat) := by
  show execDatPartialLine m s = _
  rw [execDatPartialLine, onMsg_waits h]

/-- The mark travels with the line, once: a line that is poisoned already stays as it is. -/
theorem datPoisonedLine_runs {s : State} {m : Msg} {c o a f : Nat} (h : Waits s 3 2 m) (ho : outOf s m = some (c, o, a, f)) :
    let q := closeOut (took s 3 2 m) m
    Runs (.datPoisonedLine m) s (if (smGet s.M.poison (lineOf a)).isSome then q else poisonLine q (lineOf a)) := by
  show execDatPoisonedLine m s = _
  rw [execDatPoisonedLine, onMsg_waits h]
  simp only [outOf_took ho]
  rfl

/-! ### Narrowings and positions -/

theorem nrw_learns {s : State} {m : Msg} {e : Nat × Job} (h : Waits s 6 0 m)
    (he : s.jobs.find? (fun x => (x.2.region.map (·.id)) == some (msgWord m 0)) = some e) :
    Runs (.nrw m) s (learnAt (took s 6 0 m) e.1 (msgWord m 1) (msgWord m 2)) := by
  have hq : (took s 6 0 m).jobs = s.jobs := rfl
  show execNrw m s = _
  simp only [execNrw, takePkt_waits h, hq, he]

/-- An M-die's copy of G takes a later position and keeps its own before an earlier one (R308). -/
theorem learnG_mdie (s : State) {id : Nat} (g : Nat) (hd : 8 ≤ id) :
    (mdieSt (learnG s id g) (id - 8)).g.toNat = Nat.max (mdieSt s (id - 8)).g.toNat g % 2 ^ 48 := by
  rw [learnG, if_neg (Nat.not_lt.mpr hd)]
  simp only [mdieSt_setMdie_self, BitVec.toNat_ofNat]

theorem pos_reachesMdie {s : State} {m : Msg} (h : Waits s 7 0 m) (hd : 8 ≤ m.dst.toNat) :
    Runs (.pos m) s (learnG (took s 7 0 m) m.dst.toNat (Nat.max (msgWord m 1) (msgWord m 0 + 1))) := by
  show execPos m s = _
  simp only [execPos, takePkt_waits h, if_neg (Nat.not_lt.mpr hd)]

/-! ### Token rows -/

/-- The number of the row that the ingress unit places next from the sender of `m` (R327). -/
def nextNumber (s : State) (m : Msg) : Nat := smGetD (dieSt s m.dst.toNat).scatSeq m.src.toNat 0

/-- The row that is next in number, once its parts are complete. -/
def nextRow (s : State) (m : Msg) (parts : List Msg) : Option (Nat × Nat × List Byte) :=
  Config.rowForm ((parts.filter (fun x => msgAddr x == nextNumber s m)).map (fun x => x.data))

/-- The parts that wait at the destination of `m`, from its sender, are `l`. -/
def setParts (s : State) (m : Msg) (l : List Msg) : State :=
  { s with F := { s.F with rows := smSet s.F.rows (32 * m.src.toNat + m.dst.toNat) l } }

/-- The ingress unit goes on to the row after number `n`. -/
def countRow (s : State) (m : Msg) (n : Nat) : State :=
  setDie s m.dst.toNat { dieSt s m.dst.toNat with scatSeq := smSet (dieSt s m.dst.toNat).scatSeq m.src.toNat ((n + 1) % 2 ^ 48) }

section
variable {s : State} {m : Msg} {parts : List Msg}

theorem nextRow_due (hn : msgAddr m = nextNumber s m) : nextRow s m [m] = Config.rowForm [m.data] := by
  simp only [nextRow, List.filter_cons, List.filter_nil, beq_iff_eq, if_pos hn, List.map_cons, List.map_nil]

theorem nextRow_early (hn : msgAddr m ≠ nextNumber s m) : nextRow s m [m] = Config.rowForm [] := by
  simp only [nextRow, List.filter_cons, List.filter_nil, beq_iff_eq, if_neg hn, List.map_nil]

theorem rowWaits_incomplete (hr : nextRow s m parts = none) : rowWaits s m parts = false := by
  simp only [nextRow, nextNumber] at hr
  simp only [rowWaits, hr]

section
variable (hp : smGetD s.F.rows (32 * m.src.toNat + m.dst.toNat) [] = parts)
include hp

/-- An incomplete row stays. -/
theorem placeRows_incomplete (hr : nextRow s m parts = none) : ∀ k, placeRows s m k = s
  | 0 => rfl
  | k + 1 => by
    simp only [nextRow, nextNumber] at hr
    simp only [placeRows, hp, hr]

/-- A complete row that need not wait leaves the parts, is counted and placed, and then the next one has its turn. -/
theorem placeRows_complete {tag buf : Nat} {row : List Byte} {rest : List Msg} (hr : nextRow s m parts = some (tag, buf, row))
    (hl : parts.filter (fun x => msgAddr x != nextNumber s m) = rest)
    (hw : ingWaits s m.dst.toNat m.src.toNat m.ftag.toNat tag buf row = false) (k : Nat) :
    let n := nextNumber s m
    placeRows s m (k + 1) = placeRows (rowPlaced (countRow (setParts s m rest) m n) m n tag buf row) m k := by
  simp only [nextRow, nextNumber] at hr hl
  simp only [placeRows, hp, hr, hl, hw, Bool.false_eq_true, if_false]
  rfl

end

section
variable (h : Waits s 8 0 m) (hk : smGetD s.F.rows (32 * m.src.toNat + m.dst.toNat) [] = [])
include hk

/-- A row that would wait keeps its part in the inbox (R384). -/
theorem ingTokenRow_held (hw : rowWaits s m [m] = true) : Runs (.ingTokenRow m) s s := by
  show execIngTokenRow m s = _
  rw [execIngTokenRow, hk, List.nil_append, if_pos hw]

include h

/-- The first part of a row joins the parts, and complete rows are placed. -/
theorem ingTokenRow_joins (hw : rowWaits s m [m] = false) : Runs (.ingTokenRow m) s (placeRows (setParts (took s 8 0 m) m [m]) m 1) := by
  have hq : (took s 8 0 m).F.rows = s.F.rows := rfl
  show execIngTokenRow m s = _
  rw [execIngTokenRow, hk, List.nil_append, if_neg (Bool.eq_false_iff.mp hw), onMsg_waits h]
  simp only [hq, hk, List.nil_append]
  rfl

theorem ingTokenRow_incomplete (hr : nextRow s m [m] = none) : Runs (.ingTokenRow m) s (setParts (took s 8 0 m) m [m]) :=
  (ingTokenRow_joins h hk (rowWaits_incomplete hr)).to_eq
    (placeRows_incomplete (s := setParts (took s 8 0 m) m [m]) (smGetD_smSet_self ..) hr 1)

theorem ingTokenRow_places {tag buf : Nat} {row : List Byte} (hn : msgAddr m = nextNumber s m)
    (hr : Config.rowForm [m.data] = some (tag, buf, row)) (hw : rowWaits s m [m] = false)
    (hi : ingWaits (setParts (took s 8 0 m) m [m]) m.dst.toNat m.src.toNat m.ftag.toNat tag buf row = false) :
    let n := nextNumber s m
    Runs (.ingTokenRow m) s (rowPlaced (countRow (setParts (setParts (took s 8 0 m) m [m]) m []) m n) m n tag buf row) := by
  have rest : [m].filter (fun x => msgAddr x != nextNumber s m) = [] := by simp [hn]
  exact (ingTokenRow_joins h hk hw).to_eq
    (placeRows_complete (s := setParts (took s 8 0 m) m [m]) (smGetD_smSet_self ..) ((nextRow_due hn).trans hr) rest hi 0)

end

end

/-! ### Pick records -/

section
variable {s : State} {m : Msg} {f va : Nat} (hp : smGet s.F.picks (2 ^ 48 * m.dst.toNat + msgAddr m) = some (f, va))
include hp

theorem ingPickRecord_held (ht : translateMem s f true va .write = .frozen) : Runs (.ingPickRecord m) s s := by
  show execIngPickRecord m s = _
  simp only [execIngPickRecord, hp, if_pos ht]

theorem ingPickRecord_writes (h : Waits s 8 1 m) (ht : translateMem s f true va .write ≠ .frozen) :
    let q := took s 8 1 m
    Runs (.ingPickRecord m) s
      (virtStore { q with F := { q.F with picks := smErase s.F.picks (2 ^ 48 * m.dst.toNat + msgAddr m) } } f va (dataBytes m.data)) := by
  have hq : (took s 8 1 m).F.picks = s.F.picks := rfl
  show execIngPickRecord m s = _
  simp only [execIngPickRecord, hp, if_neg ht, execIngPickRecord.pickArrives, onMsg_waits h, hq]

end

/-! ### Management messages -/

/-- The message that `onMgt` finds first waits, and is the one it acts on. -/
theorem onMgt_finds {s : State} {op : Nat} {m : Msg} (h : s.F.inbox.find? (fun p => p.cls == 9 && p.op == op) = some ⟨9, op, m⟩)
    (f : State → Msg → State) : onMgt s op f = .next (f (took s 9 op m) m) := by
  have hw : Waits s 9 op m := List.mem_of_find?_eq_some h
  simp only [onMgt, h, onMsg_waits hw]

section
variable {s : State} {m : Msg}

theorem mgtDescriptorRequest_sends (h : s.F.inbox.find? (fun p => p.cls == 9 && p.op == 0) = some ⟨9, 0, m⟩)
    (hp : (smGet s.B.parts m.dst.toNat).isSome = true) (hd : (dieSt s m.dst.toNat).result = 0) :
    let q := took s 9 0 m
    Runs .mgtDescriptorRequest s (sendMsg q m.dst.toNat m.src.toNat 9 1 0 0 (msgData (descOf q m.dst.toNat))) := by
  have answers : ¬ ((smGet (took s 9 0 m).B.parts m.dst.toNat).isNone = true ∨ (dieSt (took s 9 0 m) m.dst.toNat).result ≠ 0) := by
    rw [not_or, not_not, Bool.not_eq_true, Option.isNone_eq_false_iff]
    exact ⟨hp, hd⟩
  show execMgtDescriptorRequest s = _
  rw [execMgtDescriptorRequest, onMgt_finds h]
  exact congrArg Host.Outcome.next (if_neg answers)

theorem mgtDescriptor_enters (h : s.F.inbox.find? (fun p => p.cls == 9 && p.op == 1) = some ⟨9, 1, m⟩)
    (hd : m.dst.toNat = s.B.primary) (ha : s.B.asked.contains m.src.toNat = true) :
    let q := took s 9 1 m
    Runs .mgtDescriptor s (answered (if descOk (dataBytes m.data) then putDesc q m.src.toNat (dataBytes m.data) else q) m.src.toNat) := by
  have expected : ¬ (m.dst.toNat ≠ (took s 9 1 m).B.primary ∨ (took s 9 1 m).B.asked.contains m.src.toNat = false) := by
    rw [not_or, not_not, Bool.not_eq_false]
    exact ⟨hd, ha⟩
  show execMgtDescriptor s = _
  rw [execMgtDescriptor, onMgt_finds h]
  exact congrArg Host.Outcome.next (if_neg expected)

theorem mgtTopology_booted (h : s.F.inbox.find? (fun p => p.cls == 9 && p.op == 2) = some ⟨9, 2, m⟩) (hb : s.B.status = 1) :
    let q := took s 9 2 m
    Runs .mgtTopology s (setDie q m.dst.toNat { dieSt q m.dst.toNat with stage := 5 }) := by
  show execMgtTopology s = _
  rw [execMgtTopology, onMgt_finds h]
  exact congrArg Host.Outcome.next (if_pos hb)

section
variable (h : s.F.inbox.find? (fun p => p.cls == 9 && p.op == 3) = some ⟨9, 3, m⟩)
include h

theorem mgtFirmwareReplicaWrite_window {n r : Nat} (hr : regAt (took s 9 3 m) (msgAddr m) = some (.fwin n r)) :
    Runs .mgtFirmwareReplicaWrite s (respond (regWrite (took s 9 3 m) (.fwin n r) (BitVec.ofNat 64 (bits m.data.toNat 0 64))) m 0) := by
  show execMgtFirmwareReplicaWrite s = _
  rw [execMgtFirmwareReplicaWrite, onMgt_finds h]
  simp only [hr]

theorem mgtFirmwareReplicaWrite_other (hr : ∀ n r, regAt (took s 9 3 m) (msgAddr m) ≠ some (.fwin n r)) :
    Runs .mgtFirmwareReplicaWrite s (errorAnswer (took s 9 3 m) m.dst.toNat 9 m 3) := by
  show execMgtFirmwareReplicaWrite s = _
  rw [execMgtFirmwareReplicaWrite, onMgt_finds h]
  refine congrArg Host.Outcome.next ?_
  split
  case h_1 n r hx => exact absurd hx (hr n r)
  case h_2 => rfl

end

/-- A field of a word of the data is a field of the data. -/
theorem bits_msgWord (m : Msg) (i : Nat) {lo len : Nat} (h : lo + len ≤ 64) : bits (msgWord m i) lo len = bits m.data.toNat (64 * i + lo) len := by
  refine Nat.eq_of_testBit_eq fun b => ?_
  simp only [msgWord, bits, Nat.testBit_mod_two_pow, Nat.testBit_div_two_pow, ← Bool.and_assoc, ← Bool.decide_and]
  congr 1
  · rw [decide_eq_decide]
    omega
  · rw [Nat.add_assoc, Nat.add_comm lo]

theorem mgtEvent_records (h : s.F.inbox.find? (fun p => p.cls == 9 && p.op == 4) = some ⟨9, 4, m⟩) (hd : m.dst.toNat = s.B.primary) :
    Runs .mgtEvent s (raiseEvent (took s 9 4 m) (bits m.data.toNat 36 12) (bits m.data.toNat 56 8) (bits m.data.toNat 48 8)
      (bits m.data.toNat 31 5) (bits m.data.toNat 64 64) (bits m.data.toNat 128 64)) := by
  have record : execMgtEvent s = .next (raiseEvent (took s 9 4 m) (bits (msgWord m 0) 36 12) (bits (msgWord m 0) 56 8)
      (bits (msgWord m 0) 48 8) (bits (msgWord m 0) 31 5) (msgWord m 1) (msgWord m 2)) := by
    rw [execMgtEvent, onMgt_finds h]
    exact congrArg Host.Outcome.next (if_neg (not_not.mpr hd))
  rw [bits_msgWord m 0 (by decide), bits_msgWord m 0 (by decide), bits_msgWord m 0 (by decide), bits_msgWord m 0 (by decide)] at record
  exact record

end

/-- Settles O56: each message that waits is taken, and its handler's branches are the statement's cases. -/
theorem fabricAnswers : Obligations.FabricAnswers := by
  intro s m
  refine ⟨rspAck_runs, rspRetry_runs, fun c o a f => rspMoved_runs, fun o a f h ho => ?_,
    fun c o a f h ho hc => (rspError_runs h ho).to_eq (errorClosed_other _ m a f hc), rspDataFollows_runs, rspForcedPublishAck_runs,
    datLine_runs, datPartialLine_runs,
    fun c o a f h ho hp => (datPoisonedLine_runs h ho).to_eq (if_neg (Bool.eq_false_iff.mp hp)),
    fun c o a f h ho hp => (datPoisonedLine_runs h ho).to_eq (if_pos hp),
    fun e => nrw_learns, fun h hd => ⟨_, pos_reachesMdie h hd, learnG_mdie _ _ hd⟩, ?_,
    fun f va h hp => ⟨ingPickRecord_writes hp h, ingPickRecord_held hp⟩, ?_⟩
  · have run := rspError_runs h ho
    exact ⟨fun hl => run.to_eq (errorClosed_read _ m a f hl), fun hl hh => run.to_eq (errorClosed_write _ m a f hl hh),
      fun hh => run.to_eq (errorClosed_rest _ m a f hh)⟩
  · intro key d n put h hk
    exact ⟨fun hn hr => ingTokenRow_incomplete h hk ((nextRow_early hn).trans hr),
      fun hn hr => ingTokenRow_incomplete h hk ((nextRow_due hn).trans hr),
      fun tag buf row hn hr => ⟨ingTokenRow_held hk, ingTokenRow_places h hk hn hr⟩⟩
  · intro op h
    refine ⟨?_, ?_, ?_, ?_, ?_⟩ <;> rintro rfl
    · exact mgtDescriptorRequest_sends h
    · exact mgtDescriptor_enters h
    · exact mgtTopology_booted h
    · exact ⟨fun n r => mgtFirmwareReplicaWrite_window h, mgtFirmwareReplicaWrite_other h⟩
    · exact mgtEvent_records h

end Sys2Proof.Machine
end

section
/-!
PROOFS, part 39. Events of near-memory jobs (R314 to R320, R425, R427): a job starts on a unit, its nest is walked, and it leaves the unit complete or
failed.
-/
namespace Sys2Proof.Machine

/-! ### A unit takes a job -/

theorem nmJobStart_oldest {s : State} {m u : Nat} {j : NmJob} {r : List NmJob} (hq : (mdieSt s m).queue = j :: r)
    (hu : freeUnit (mdieSt s m) = some u) :
    Runs (.nmJobStart m) s (setMdie s m { mdieSt s m with queue := r, running := (mdieSt s m).running ++ [{ j with unit := some u, started := s.time }] }) := by
  show execNmJobStart m s = _
  simp only [execNmJobStart, hq, hu]

/-! ### A job leaves its unit -/

@[simp] theorem mdieSt_updJob (s : State) (uid : Nat) (f : Job → Job) (m : Nat) : mdieSt (updJob s uid f) m = mdieSt s m := rfl

/-- A job that asks for no entry leaves its M-die's tables when it completes: status 2 and code 0 under its handle, and no unit runs it. -/
theorem nmEnd_complete (s : State) (m : Nat) {j : NmJob} (hn : (nestOf (j.words.map BitVec.toNat)).notify = false) (addr : Nat) (fl : Fl) :
    mdieSt (nmEnd s m j 0 addr fl) m =
      { mdieSt s m with running := (mdieSt s m).running.filter (fun x => x.handle != j.handle),
                        queue := (mdieSt s m).queue.filter (fun x => x.handle != j.handle),
                        ended := smSet (mdieSt s m).ended j.handle (2, 0, smSet j.vc (nmKey j.uid j.handle) 1) } := by
  simp only [nmEnd, hn, Bool.false_eq_true, if_false, if_true]
  split <;> simp only [mdieSt_updJob, mdieSt_setMdie_self]

/-! ### The events of a unit that runs a job -/

/-- The walk of a job's whole nest, from now on. -/
def nmWalked (s : State) (j : NmJob) : NmRun :=
  let n := nestOf (j.words.map BitVec.toNat)
  nestWalk n j n.steps n.zero (nmStartRun s j)

/-- What a job leaves that walked its nest to the end. -/
def nmDone (s : State) (m : Nat) (j : NmJob) : State :=
  let n := nestOf (j.words.map BitVec.toNat)
  let r := nmWalked s j
  nmEnd (if n.win then nmSetWindow r.s n j r.win else r.s) m j 0 0 r.fl

/-- What a job leaves that fails in its walk. -/
def nmFailed (s : State) (m : Nat) (j : NmJob) (code addr : Nat) : State :=
  nmFailRun (nmWalked s j) m j (nestOf (j.words.map BitVec.toNat)) code addr

section
variable {s : State} {m u : Nat} {j : NmJob} (h : unitJob s m u = some j)
include h

theorem nmJobComplete_walked (hr : (nmWalked s j).fail = none) : Runs (.nmJobComplete m u) s (nmDone s m j) := by
  show execNmJobComplete m u s = _
  simp only [nmWalked] at hr
  simp only [execNmJobComplete, h, hr, nmDone, nmWalked]

theorem nmJobComplete_failed {f : NmFail} (hr : (nmWalked s j).fail = some f) (hf : f.code ≠ 7) :
    Runs (.nmJobComplete m u) s (nmFailed s m j f.code f.addr) := by
  show execNmJobComplete m u s = _
  simp only [nmWalked] at hr
  simp only [execNmJobComplete, h, hr, nmFailed, nmWalked]
  split
  case h_1 hx => cases hx
  case h_2 hx => exact absurd (congrArg NmFail.code (Option.some.inj hx)) hf
  case h_3 hx => rw [Option.some.inj hx]

section
variable {a : Nat} (hr : (nmWalked s j).fail = some ⟨7, a⟩)
include hr

/-- At a frozen page at which it has not waited yet, a unit begins to wait (R319). -/
theorem nmJobComplete_stalls (hs : ∀ p t, j.stall = some (p, t) → p ≠ a / 4096) : Runs (.nmJobComplete m u) s (nmStall s m j a) := by
  show execNmJobComplete m u s = _
  simp only [nmWalked] at hr
  simp only [execNmJobComplete, h, hr]
  cases hj : j.stall with
  | none => rfl
  | some x => exact if_pos (hs x.1 x.2 hj)

/-- At a frozen page at which it waits, a unit waits on or, 50 µs after the wait began, fails with code 6 (R319). -/
theorem nmJobComplete_frozen {t : Nat} (hs : j.stall = some (a / 4096, t)) :
    Runs (.nmJobComplete m u) s (if t + 50000 ≤ s.time then nmFailed s m j 6 a else s) := by
  show execNmJobComplete m u s = _
  simp only [nmWalked] at hr
  simp only [execNmJobComplete, h, hr, hs, ne_eq, not_true_eq_false, if_false, nmFailed, nmWalked]
  exact (apply_ite Host.Outcome.next _ _ _).symm

theorem nmJobComplete_waits {t : Nat} (hs : j.stall = some (a / 4096, t)) (ht : s.time < t + 50000) :
    Runs (.nmJobComplete m u) s s :=
  (nmJobComplete_frozen h hr hs).to_eq (if_neg (Nat.not_le.mpr ht))

theorem nmJobComplete_frozenOver {t : Nat} (hs : j.stall = some (a / 4096, t)) (ht : t + 50000 ≤ s.time) :
    Runs (.nmJobComplete m u) s (nmFailed s m j 6 a) :=
  (nmJobComplete_frozen h hr hs).to_eq (if_pos ht)

end

/-- A job that completes is entered under its handle with status 2, and no unit of its M-die runs it. -/
theorem nmJobComplete_ends (hr : (nmWalked s j).fail = none) (hn : (nestOf (j.words.map BitVec.toNat)).notify = false) :
    ∃ t, Runs (.nmJobComplete m u) s t ∧ (∃ vc, smGet (mdieSt t m).ended j.handle = some (2, 0, vc)) ∧
      ∀ x ∈ (mdieSt t m).running, x.handle ≠ j.handle := by
  refine ⟨_, nmJobComplete_walked h hr, ?_⟩
  rw [nmDone, nmEnd_complete _ m hn]
  exact ⟨⟨_, smGet_smSet_self _ _ _⟩, fun x hx => bne_iff_ne.mp (List.mem_filter.mp hx).2⟩

theorem nmWatchdogReset_fails (ht : j.started + 100000 ≤ s.time) :
    Runs (.nmWatchdogReset m u) s (nmFailRun (nmStartRun s j) m j (nestOf (j.words.map BitVec.toNat)) 5 0) := by
  show execNmWatchdogReset m u s = _
  simp only [execNmWatchdogReset, h, if_neg (Nat.not_lt.mpr ht)]

/-- The domain of the unit's job is told when the unit made at least half of the row's activations (R427). -/
theorem activationAlert_runs (row share total : Nat) :
    Runs (.activationAlert m u row share total) s (if total ≤ 2 * share then raiseEvent s j.fdom 11 u (8 + m) row j.handle else s) := by
  show execActivationAlert m u row share total s = _
  simp only [execActivationAlert, h]
  exact (apply_ite Host.Outcome.next _ _ _).symm

end

/-- Settles O53: each event's branches; the failures of NM_JOB_COMPLETE are split by whether the walk stopped at a frozen page and, there, by the wait. -/
theorem nearMemoryEvents : Obligations.NearMemoryEvents := by
  intro s m u
  refine ⟨fun j r => nmJobStart_oldest, fun j h => ⟨fun hr => ⟨nmJobComplete_walked h hr, nmJobComplete_ends h hr⟩,
    fun f => nmJobComplete_failed h, fun a hr => ⟨nmJobComplete_stalls h hr, fun t => nmJobComplete_waits h hr, fun t => nmJobComplete_frozenOver h hr⟩,
    nmWatchdogReset_fails h, fun row share total hs => ?_, fun row share total hs => ?_⟩⟩
  · exact (activationAlert_runs h row share total).to_eq (if_pos hs)
  · exact (activationAlert_runs h row share total).to_eq (if_neg (Nat.not_le.mpr hs))

end Sys2Proof.Machine
end

section
/-!
PROOFS, part 40. A node's period boundary on a memory that is not in canonical form (R344, R351). PERIOD_BOUNDARY writes zeros over USED, and a zero is
written by dropping the address's entry (log entry 2); an address that memory lists twice, which no hypothesis of the statement forbids and `MemOk`
would, then reads as its second entry.
-/
namespace Sys2Proof.Machine

/-- The node at 128 whose period boundary has come. -/
def dueNode : Leaf :=
  { w0 := 0, parent := 0, budget := 0, period := 0, next := 0, ended := [], tenant := 0, boundary := 0, stall := 0 }

/-- A package of one C-die whose memory holds a valid record at 128, and lists the lowest byte of the record's USED twice. -/
def usedTwice : State :=
  { State.reset with
    B := { State.reset.B with cdies := 1 }
    M := { State.reset.M with mem := [(135, 0x80), (160, 1), (160, 1)] }
    leaves := [(128, dueNode)] }

/-- A launch, which the clause about a node's period does not speak of. -/
def someLaunch : Launch := ⟨0, 0, [], 0, 0, 0, 0, 0, .waiting, [], 0, 0, [], 0, 0, [], false, 0, 0, 0, 0, 0, [], [], []⟩

/-- Whether a step goes on to a state in which the lowest byte of the record's USED reads 1. -/
def keepsUsed : Out → Bool
  | .next t => cByte t 160 == 1
  | _ => false

theorem cByte_of_keepsUsed {i : Instr} {s t : State} (h : Runs i s t) (hb : keepsUsed (exec i s) = true) : cByte t 160 = 1 := by
  rw [show exec i s = .next t from h] at hb
  exact eq_of_beq hb

/-- Refutes O52: USED of a node whose lowest byte memory lists twice reads 1 after the node's PERIOD_BOUNDARY, not 0. -/
theorem not_dispatchEvents : ¬ Obligations.DispatchEvents := by
  intro h
  obtain ⟨-, -, -, -, hperiod, -⟩ := h usedTwice 0 0 someLaunch
  obtain ⟨t, x, hrun, -, -, -, hzero⟩ := hperiod 128 dueNode rfl (by decide) (by decide) (by decide)
  have hone : cByte t 160 = 1 := cByte_of_keepsUsed hrun (by decide)
  exact absurd ((hzero 0 (by decide)).symm.trans hone) (by decide)

end Sys2Proof.Machine
end

section
/-!
PROOFS, part 41. Flits and the training of links (R409, R410, R412, R413): a refused flit changes the next header alone, a taken one returns its credits
before the messages of its slots arrive.
-/
namespace Sys2Proof.Machine

/-! ### Credits -/

/-- The credits of module `k` once the first `n` fields of a flit's header have been returned. -/
def creditsAfter (c : SMap Nat) (k hdr n : Nat) : SMap Nat :=
  (List.range n).foldl (fun (c : SMap Nat) i => smPut 0 c (k * 16 + (i + 1)) (smGetD c (k * 16 + (i + 1)) 0 + bits hdr (4 * i) 4)) c

theorem creditsAfter_succ (c : SMap Nat) (k hdr n : Nat) : creditsAfter c k hdr (n + 1) =
    smPut 0 (creditsAfter c k hdr n) (k * 16 + (n + 1)) (smGetD (creditsAfter c k hdr n) (k * 16 + (n + 1)) 0 + bits hdr (4 * n) 4) := by
  simp only [creditsAfter, List.range_succ, List.foldl_append, List.foldl_cons, List.foldl_nil]

theorem creditsAfter_sorted {c : SMap Nat} (h : smSorted none c = true) (k hdr n : Nat) : smSorted none (creditsAfter c k hdr n) = true := by
  induction n with
  | zero => exact h
  | succ n ih =>
    rw [creditsAfter_succ]
    exact smPut_sorted _ _ _ ih

/-- Each field adds to the credits of its own class alone. -/
theorem creditsAfter_get {c : SMap Nat} (h : smSorted none c = true) (k hdr n i : Nat) :
    smGetD (creditsAfter c k hdr n) (k * 16 + (i + 1)) 0 = smGetD c (k * 16 + (i + 1)) 0 + if i < n then bits hdr (4 * i) 4 else 0 := by
  induction n with
  | zero => rfl
  | succ n ih =>
    rw [creditsAfter_succ]
    have hs := creditsAfter_sorted h k hdr n
    by_cases hi : i = n
    · subst hi
      rw [smGetD_smPut_self _ _ _ hs, ih, if_neg (Nat.lt_irrefl i), if_pos (Nat.lt_succ_self i), Nat.add_zero]
    · rw [smGetD_smPut_ne _ _ hs (by omega), ih]
      congr 1
      exact if_congr (by omega) rfl rfl

/-! ### Slots -/

/-- A slot lies in the 240 bytes behind the header. -/
theorem slot_eq (l : List Byte) {i : Nat} (hi : i < 3) : (l.drop (8 + 80 * i)).take 80 = (((l.drop 8).take 240).drop (80 * i)).take 80 := by
  rw [List.drop_take, List.drop_drop, List.take_take, Nat.min_eq_left (by omega)]

theorem slotArrives_empty (s : State) {l : List Byte} (h : ∀ b ∈ l, b = 0) : slotArrives s l = s :=
  if_pos (List.all_eq_true.mpr fun b hb => beq_iff_eq.mpr (h b hb))

/-- Empty slots deliver nothing. -/
theorem slots_empty {l : List Byte} (h : (l.drop 8).take 240 = List.replicate 240 0) (s : State) :
    (List.range 3).foldl (fun s i => slotArrives s ((l.drop (8 + 80 * i)).take 80)) s = s := by
  refine List.foldlRecOn (motive := fun t => t = s) _ _ rfl ?_
  rintro _ rfl i hi
  refine slotArrives_empty _ fun b hb => ?_
  rw [slot_eq l (List.mem_range.mp hi), h] at hb
  exact List.eq_of_mem_replicate (List.mem_of_mem_drop (List.mem_of_mem_take hb))

/-! ### Reception -/

/-- A flit with the number that module `k` expects, taken: what its header says, before its slots arrive. -/
def flitTaken (s : State) (k hdr : Nat) : State :=
  takeCredits (countNak
    (setHeader { s with F := { s.F with flit := smSet s.F.flit k ((smGetD s.F.flit k 0 + 1) % 4096) } } k (bits hdr 52 12) false)
    k (bitOf hdr 39)) k hdr

theorem flitTaken_credit (s : State) (k hdr : Nat) {i : Nat} (hi : i < 9) (hs : smSorted none s.F.credit = true) :
    smGetD (flitTaken s k hdr).F.credit (k * 16 + (i + 1)) 0 = smGetD s.F.credit (k * 16 + (i + 1)) 0 + bits hdr (4 * i) 4 :=
  (creditsAfter_get hs k hdr 9 i).trans (by rw [if_pos hi])

/-- The bytes of a flit. -/
def flitBytes (flit : BitVec 2048) : List Byte := natLe 256 flit.toNat

/-- The header of a flit. -/
def flitHdr (flit : BitVec 2048) : Nat := leNat ((flitBytes flit).take 8)

/-- The CRC of a flit is right (R410). -/
def FlitOk (flit : BitVec 2048) : Prop := crc64 ((flitBytes flit).take 248) = leNat ((flitBytes flit).drop 248)

section
variable {s : State} {die module : Nat} {flit : BitVec 2048}

theorem flitReceive_damaged (hc : ¬ FlitOk flit) : Runs (.flitReceive die module flit) s
    (setHeader s (moduleKey die module) (smGetD s.F.flit (moduleKey die module) 0 + 4095) true) := by
  show execFlitReceive die module flit s = _
  exact if_pos hc

theorem flitReceive_misnumbered (hc : FlitOk flit) (hn : bits (flitHdr flit) 52 12 ≠ smGetD s.F.flit (moduleKey die module) 0) :
    Runs (.flitReceive die module flit) s (setHeader s (moduleKey die module) (smGetD s.F.flit (moduleKey die module) 0 + 4095)
      (decide ((bits (flitHdr flit) 52 12 + 4096 - smGetD s.F.flit (moduleKey die module) 0) % 4096 < 2048))) := by
  show execFlitReceive die module flit s = _
  exact (if_neg (not_not_intro hc)).trans (if_pos hn)

theorem flitReceive_taken (hc : FlitOk flit) (hn : bits (flitHdr flit) 52 12 = smGetD s.F.flit (moduleKey die module) 0) :
    Runs (.flitReceive die module flit) s ((List.range 3).foldl (fun s i => slotArrives s (((flitBytes flit).drop (8 + 80 * i)).take 80))
      (flitTaken s (moduleKey die module) (flitHdr flit))) := by
  show execFlitReceive die module flit s = _
  exact (if_neg (not_not_intro hc)).trans (if_neg (not_not_intro hn))

end

/-! ### Links -/

/-- A link whose package has not booted, or one of whose modules was asked for the same flit eight times in a row, trains again (R409, R410). -/
theorem linkRetrain_trains {s : State} {die link repaired r rep : Nat} {rates : BitVec 8} (hl : link < 7)
    (hg : smGet s.B.links (8 * die + link) = some (r, rep))
    (hw : s.B.status ≠ 1 ∨ ∃ i, i < linkModules link ∧ 8 ≤ smGetD s.F.naks (moduleKey die (linkFirst link + i)) 0) :
    ∃ n, Runs (.linkRetrain die link rates repaired) s
      { s with B := { s.B with links := smSet s.B.links (8 * die + link) (cleanRates link rates.toNat, Nat.min 255 (rep + repaired)) }
               F := { s.F with naks := n } } := by
  have hgo : ¬ (7 ≤ link ∨ (s.B.status = 1 ∧ ((List.range (linkModules link)).map (fun j => moduleKey die (linkFirst link + j))).all
      (fun k => decide (smGetD s.F.naks k 0 < 8)) = true)) := by
    rintro (h | ⟨hs, ha⟩)
    · omega
    · obtain ⟨i, hi, h8⟩ := hw.resolve_left (not_not_intro hs)
      have := of_decide_eq_true (List.all_eq_true.mp ha _ (List.mem_map_of_mem (List.mem_range.mpr hi)))
      omega
  refine ⟨((List.range (linkModules link)).map (fun j => moduleKey die (linkFirst link + j))).foldl smErase s.F.naks, ?_⟩
  show execLinkRetrain die link rates repaired s = _
  simp only [execLinkRetrain, if_neg hgo, hg]

/-- Settles O57: a flit is damaged, has another number or is taken, and a link trains again as `linkRetrain_trains` says. -/
theorem flitsAndLinks : Obligations.FlitsAndLinks := by
  intro s die module flit l k e hdr
  refine ⟨flitReceive_damaged, flitReceive_misnumbered, fun hc hn => ?_, fun link rates repaired r rep hl hg hw => ?_⟩
  · have hrun := flitReceive_taken (s := s) (die := die) (module := module) hc hn
    refine ⟨⟨flitTaken s k hdr, hrun, rfl, rfl, congrArg (fun n => smSet s.F.header k (n % 4096)) hn, rfl, rfl, smGetD_smSet_self _ _ _ _,
      fun i hi hs => flitTaken_credit s k hdr hi hs⟩, fun hz => ?_⟩
    exact ⟨_, hrun.to_eq (slots_empty hz _), smGetD_smSet_self _ _ _ _, rfl, rfl, rfl⟩
  · obtain ⟨n, hrun⟩ := linkRetrain_trains (rates := rates) (repaired := repaired) hl hg hw
    exact ⟨_, hrun, smGet_smSet_self _ _ _, rfl⟩

end Sys2Proof.Machine
end

section
/-!
PROOFS, part 42. Boot, clock, heat and resets (R402, R417, R440 to R447). What a domain's reset has dropped, its saved jobs and their areas, stays dropped
while the weight references of its launches are released: a lemma `f_saves` says that `f` saves no job and gives none an area.
-/
namespace Sys2Proof.Machine

/-! ### What writes memory alone -/

/-- `t` is `s` but for the memory system. -/
def MemoryOnly (s t : State) : Prop := ∃ m, t = { s with M := m }

theorem MemoryOnly.refl (s : State) : MemoryOnly s s := ⟨_, rfl⟩

theorem MemoryOnly.trans {a b c : State} (h : MemoryOnly a b) (g : MemoryOnly b c) : MemoryOnly a c := by
  obtain ⟨m, rfl⟩ := h
  obtain ⟨n, rfl⟩ := g
  exact ⟨n, rfl⟩

theorem agentSetBytes_domains (s : State) (pa : Nat) (l : List Byte) : (agentSetBytes s pa l).domains = s.domains := by
  have hl := foldl_unchanged State.domains (f := fun s ln => dropStale (writeBackLine s ln) ln)
    (fun s ln => (dropStale_domains _ ln).trans (writeBackLine_domains s ln)) (linesOf pa l.length) s
  exact ((homeSetBytes_domains l _ pa).trans (noteCode_domains l _ pa)).trans hl

theorem agentSetBytes_memoryOnly (s : State) (pa : Nat) (l : List Byte) : MemoryOnly s (agentSetBytes s pa l) := by
  obtain ⟨m, d, h, -⟩ := agentSetBytes_traceOnly s pa l
  have hd := agentSetBytes_domains s pa l
  rw [h] at hd
  cases (hd : d = s.domains)
  exact ⟨m, h⟩

theorem poisonWrite_memoryOnly (s : State) (pa n : Nat) : MemoryOnly s (poisonWrite s pa n) := by
  refine List.foldlRecOn (motive := MemoryOnly s) _ _ (.refl s) fun t ht ln _ => ht.trans ?_
  split <;> exact ⟨_, rfl⟩

theorem virtWrite_memoryOnly (s : State) (f va : Nat) (l : List Byte) : MemoryOnly s (virtWrite s f va l) := by
  refine List.foldlRecOn (motive := fun a : State × List Byte => MemoryOnly s a.1) _ _ (.refl s) fun a ha p _ => ?_
  split
  · exact ha.trans ((poisonWrite_memoryOnly _ _ _).trans (agentSetBytes_memoryOnly _ _ _))
  · exact ha

theorem writeContext_memoryOnly (s : State) (k : Nat) (j : Job) (c : JobCore) (kind : CutKind) (va : Nat) :
    MemoryOnly s (writeContext s k j c kind va) :=
  List.foldlRecOn (motive := MemoryOnly s) _ _ (virtWrite_memoryOnly s j.fdom va _) fun _ ht _ _ => ht.trans (virtWrite_memoryOnly _ _ _ _)

/-! ### Saved jobs and their areas -/

/-- `t` has the saved jobs of `s` and their areas in the save pools. -/
structure SameSaves (s t : State) : Prop where
  saved : t.saved = s.saved
  areas : SameReserves s t

theorem SameSaves.refl (s : State) : SameSaves s s := ⟨rfl, fun _ => rfl⟩

theorem SameSaves.trans {a b c : State} (h : SameSaves a b) (g : SameSaves b c) : SameSaves a c :=
  ⟨g.saved.trans h.saved, h.areas.trans g.areas⟩

theorem ite_saves {o s t : State} {p : Prop} [Decidable p] (hs : SameSaves o s) (ht : SameSaves o t) : SameSaves o (if p then s else t) := by
  split
  · exact hs
  · exact ht

theorem foldl_saves {α : Type} {f : State → α → State} (hf : ∀ s x, SameSaves s (f s x)) (l : List α) (s : State) : SameSaves s (l.foldl f s) :=
  List.foldlRecOn (motive := SameSaves s) l f (.refl s) fun t ht x _ => ht.trans (hf t x)

theorem MemoryOnly.saves {s t : State} (h : MemoryOnly s t) : SameSaves s t := by
  obtain ⟨m, rfl⟩ := h
  exact ⟨rfl, fun _ => rfl⟩

theorem setDomain_saves (s : State) (f : Nat) {d : Domain} (h : d.reserves = (domainSt s f).reserves) : SameSaves s (setDomain s f d) :=
  ⟨rfl, setDomain_reserves s f d h⟩

theorem evqStore_saves (s : State) (f w0 addr aux : Nat) : SameSaves s (evqStore s f w0 addr aux) := by
  have lose : SameSaves s (evqLose s f) := setDomain_saves s f rfl
  unfold evqStore
  exact ite_saves lose (ite_saves (lose.trans ⟨rfl, fun _ => rfl⟩) ((agentSetBytes_memoryOnly s _ _).saves.trans (setDomain_saves _ f rfl)))

theorem evqIrq_saves (s : State) (f : Nat) : SameSaves s (evqIrq s f) := by
  unfold evqIrq
  split
  · exact ite_saves ⟨rfl, fun _ => rfl⟩ (.refl s)
  · exact .refl s

theorem raiseEvent_saves (s : State) (f type code die addr aux : Nat) : SameSaves s (raiseEvent s f type code die addr aux) :=
  (evqStore_saves s f _ addr aux).trans (evqIrq_saves _ f)

theorem genRelease_saves (s : State) (f entry g : Nat) : SameSaves s (genRelease s f entry g) := by
  have put (s : State) (va n v : Nat) : SameSaves s (wtPut s f va n v) := (virtWrite_memoryOnly s f va _).saves
  have check (s : State) : SameSaves s (freeCheck s f entry g) :=
    ite_saves ((put s _ 1 4).trans (raiseEvent_saves _ _ _ _ _ _ _)) (.refl s)
  exact (put s (genAddr s f entry g + 32) 4 _).trans (check _)

theorem releaseGens_saves (s : State) (l : Nat) : SameSaves s (releaseGens s l) := by
  unfold releaseGens
  split
  · exact .refl s
  · rename_i v _
    have h := foldl_saves (fun t (g : Nat × Nat) => genRelease_saves t v.fdom g.1 g.2) v.wgens s
    exact h.trans ⟨setLaunch_saved _ _ _, fun _ => rfl⟩

theorem dropFramesOf_saves (s : State) (f : Nat) : SameSaves s (dropFramesOf s f) := by
  unfold dropFramesOf
  extract_lets ls s1
  exact .trans (b := s1) ⟨rfl, fun _ => rfl⟩ (foldl_saves releaseGens_saves ls s1)

theorem dropDomain_saves (s : State) (f : Nat) : SameSaves s (dropDomain s f) := by
  unfold dropDomain
  extract_lets m s1
  exact .trans (b := s1) ⟨rfl, fun _ => rfl⟩ (setDomain_saves s1 f rfl)

/-! ### The reset of a fault domain -/

/-- The steps of a domain's reset (R402). -/
def domainDropped (s : State) (f : Nat) : State := dropFramesOf (dropDomain (killJobs (killLaunches s f) f) f) f

theorem killJobs_areas (s : State) (f : Nat) : (domainSt (killJobs s f) f).reserves = [] := congrArg Domain.reserves (domainSt_setDomain_self _ _ _)

theorem killJobs_saved (s : State) (f : Nat) : ∀ e ∈ (killJobs s f).saved, e.2.fdom ≠ f :=
  fun _ he => bne_iff_ne.mp (List.mem_filter.mp he).2

theorem domainDropped_saves (s : State) (f : Nat) : SameSaves (killJobs (killLaunches s f) f) (domainDropped s f) :=
  (dropDomain_saves _ f).trans (dropFramesOf_saves _ f)

theorem domainResetDone_runs {s : State} {f : BitVec 12} (h : (domainSt s f.toNat).domRst = 1) : Runs (.domainResetDone f) s
    (setDomain (domainDropped s f.toNat) f.toNat { domainSt (domainDropped s f.toNat) f.toNat with domRst := 2 }) := by
  show execDomainResetDone f s = _
  exact if_neg (not_not_intro h)

/-! ### Boot, clock and heat -/

theorem powerOn_boots {s : State} (hs : s.B.status = 0) (hp : (dieSt s s.B.primary).stage = 0) : Runs .powerOn s
    (if checkImage s = 0 then startDiscovery ((partDies s).foldl bootStarts s)
      else (partDies s).foldl (fun t d => bootFails t d (if d = t.B.primary then checkImage s else 2)) s) := by
  show execPowerOn s = _
  rw [execPowerOn, if_neg (by simp [hs, hp])]
  exact (apply_ite Host.Outcome.next _ _ _).symm

theorem discoveryTimeout_ends {s : State} (hs : s.B.status = 0) (ha : s.B.asked ≠ []) (ht : 100000000 ≤ s.time) :
    Runs .discoveryTimeout s (finishDiscovery s) := by
  show execDiscoveryTimeout s = _
  exact if_neg (by simp [hs, ha, ht])

theorem clockStep_moves {s : State} {die : Nat} (ht : (dieSt s die).clkStep ≤ s.time) (hc : (dieSt s die).clk ≠ 0) (up : Bool) :
    Runs (.clockStep die up) s (setDie s die { dieSt s die with
      clk := if up then Nat.min 60 ((dieSt s die).clk + 1) else Nat.max 1 ((dieSt s die).clk - 1), clkStep := s.time + 10000 }) := by
  show execClockStep die up s = _
  exact if_neg (by rw [not_or]; exact ⟨Nat.not_lt.mpr ht, hc⟩)

theorem thermalThrottle_caps {s : State} {die : Nat} (hc : (dieSt s die).clk ≠ 0) :
    Runs (.thermalThrottle die) s (setDie s die { dieSt s die with clk := Nat.min (dieSt s die).clk 40 }) := by
  show execThermalThrottle die s = _
  exact congrArg Host.Outcome.next (if_neg hc)

/-- Settles O60: each event's branch; what a domain's reset drops, `killJobs` drops, and the steps behind it keep `SameSaves`. -/
theorem bootAndResets : Obligations.BootAndResets := by
  intro s die f
  refine ⟨powerOn_boots, discoveryTimeout_ends, ⟨_, rfl, rfl, rfl, rfl, rfl, rfl, rfl, rfl, rfl, rfl, rfl, rfl, rfl⟩,
    fun ht hc => ⟨clockStep_moves ht hc true, clockStep_moves ht hc false⟩, thermalThrottle_caps, rfl, fun h => ?_⟩
  have hrun := domainResetDone_runs h
  obtain ⟨hsaved, hareas⟩ := domainDropped_saves s f.toNat
  refine ⟨hrun, _, hrun, ?_, ?_, fun e he => ?_⟩
  · rw [domainSt_setDomain_self]
  · rw [domainSt_setDomain_self]
    exact (hareas f.toNat).trans (killJobs_areas _ _)
  · rw [setDomain_saved, hsaved] at he
    exact killJobs_saved _ _ e he

end Sys2Proof.Machine
end

section
/-!
PROOFS, part 43. What the device's translations do not look at (R290, R294, R305, R377): a table is read as a strong read finds it, which combines partial
lines and publishes scope copies first; of the jobs that looks at the regions alone, of the clusters at the partial lines. A lemma `f_withJC` says that
`f` passes other jobs and clusters by.
-/
namespace Sys2Proof.Machine

/-- The state with other jobs and clusters. -/
def withJC (js : SMap Job) (cs : SMap Cluster) (s : State) : State := { s with jobs := js, clusters := cs }

/-- The slots and the regions of their jobs. -/
def regionsOf (js : SMap Job) : SMap (Option Region) := js.map (fun e => (e.1, e.2.region))

/-- The lines of the footprint of a slot's region, when the slot is one of the core. -/
def regionFoot (core : Nat) (e : Nat × Option Region) : List Nat :=
  if jCoreKey e.1 = core then (match e.2 with | some r => r.reads ++ r.writes | none => []) else []

theorem footLines_eq (s : State) (core : Nat) : footLines s core = ((regionsOf s.jobs).map (regionFoot core)).flatten := by
  unfold footLines regionsOf
  rw [List.map_map]
  rfl

theorem ite_withJC {js : SMap Job} {cs : SMap Cluster} {p : Prop} [Decidable p] {a b c d : State} (ha : a = withJC js cs c)
    (hb : b = withJC js cs d) :
    (if p then a else b) = withJC js cs (if p then c else d) := by
  split
  · exact ha
  · exact hb

theorem foldl_withJC {α : Type} {js : SMap Job} {cs : SMap Cluster} {f : State → α → State}
    (hf : ∀ s x, f (withJC js cs s) x = withJC js cs (f s x))
    (l : List α) : ∀ s, l.foldl f (withJC js cs s) = withJC js cs (l.foldl f s) := by
  induction l with
  | nil => exact fun _ => rfl
  | cons x l ih => exact fun s => (congrArg (l.foldl f) (hf s x)).trans (ih (f s x))

/-- A fold of steps that keep the jobs and look at regions alone. -/
theorem foldl_regions_withJC {α : Type} {js : SMap Job} {cs : SMap Cluster} {f : State → α → State} (hj : ∀ s x, (f s x).jobs = s.jobs)
    (hf : ∀ s x, regionsOf js = regionsOf s.jobs → f (withJC js cs s) x = withJC js cs (f s x)) (l : List α) :
    ∀ s, regionsOf js = regionsOf s.jobs → l.foldl f (withJC js cs s) = withJC js cs (l.foldl f s) := by
  induction l with
  | nil => exact fun _ _ => rfl
  | cons x l ih => exact fun s hr => (congrArg (l.foldl f) (hf s x hr)).trans (ih (f s x) (hr.trans (congrArg regionsOf (hj s x).symm)))

section
variable (js : SMap Job) (cs : SMap Cluster) (s : State)

/-! ### Bytes, events and watchpoints -/

theorem agentNat_withJC (pa n) : agentNat (withJC js cs s) pa n = agentNat s pa n := by
  unfold agentNat
  rw [cBytes_eq_map, cBytes_eq_map]
  rfl

theorem homeSet_withJC (pa b) : homeSet (withJC js cs s) pa b = withJC js cs (homeSet s pa b) := ite_withJC rfl rfl

theorem homeSetBytes_withJC (l : List Byte) : ∀ s pa, homeSetBytes (withJC js cs s) pa l = withJC js cs (homeSetBytes s pa l) := by
  induction l with
  | nil => exact fun _ _ => rfl
  | cons b l ih => exact fun s pa => (congrArg (homeSetBytes · (pa + 1) l) (homeSet_withJC js cs s pa b)).trans (ih _ _)

theorem noteCode_withJC (l : List Byte) : ∀ s pa, noteCode (withJC js cs s) pa l = withJC js cs (noteCode s pa l) := by
  induction l with
  | nil => exact fun _ _ => rfl
  | cons b l ih =>
    intro s pa
    unfold noteCode
    rw [← ih]
    exact congrArg (noteCode · (pa + 1) l) (ite_withJC rfl rfl)

theorem writeBackN_withJC (n : Nat) : ∀ s pa, writeBackN (withJC js cs s) pa n = withJC js cs (writeBackN s pa n) := by
  induction n with
  | zero => exact fun _ _ => rfl
  | succ n ih =>
    intro s pa
    have hd : (withJC js cs s).M.dirty = s.M.dirty := rfl
    unfold writeBackN
    rw [hd]
    cases smGet s.M.dirty pa with
    | none => exact ih s (pa + 1)
    | some b =>
      exact (congrArg (writeBackN · (pa + 1) n)
        (homeSet_withJC js cs { s with M := { s.M with dirty := smErase s.M.dirty pa } } pa b)).trans (ih _ _)

theorem writeBackLine_withJC (line) : writeBackLine (withJC js cs s) line = withJC js cs (writeBackLine s line) := writeBackN_withJC js cs _ _ _

theorem agentSetBytes_withJC (pa l) : agentSetBytes (withJC js cs s) pa l = withJC js cs (agentSetBytes s pa l) := by
  have hw := foldl_withJC (js := js) (cs := cs) (f := fun s ln => dropStale (writeBackLine s ln) ln)
    (fun s ln => congrArg (dropStale · ln) (writeBackLine_withJC js cs s ln)) (linesOf pa l.length) s
  unfold agentSetBytes
  rw [hw]
  dsimp only
  rw [noteCode_withJC, homeSetBytes_withJC]
  rfl

theorem evqLose_withJC (f) : evqLose (withJC js cs s) f = withJC js cs (evqLose s f) := rfl

theorem evqNext_withJC (f) : evqNext (withJC js cs s) f = withJC js cs (evqNext s f) := rfl

theorem logError_withJC (id kind src cls addr ue) :
    logError (withJC js cs s) id kind src cls addr ue = withJC js cs (logError s id kind src cls addr ue) := rfl

theorem evqStore_withJC (f w0 addr aux) : evqStore (withJC js cs s) f w0 addr aux = withJC js cs (evqStore s f w0 addr aux) := by
  have hd : domainSt (withJC js cs s) f = domainSt s f := rfl
  unfold evqStore
  dsimp only
  rw [hd, evqLose_withJC, logError_withJC, agentSetBytes_withJC, evqNext_withJC]
  exact ite_withJC rfl (ite_withJC rfl rfl)

theorem evqIrq_withJC (f) : evqIrq (withJC js cs s) f = withJC js cs (evqIrq s f) := by
  have ht : tenantOf (withJC js cs s) f = tenantOf s f := rfl
  unfold evqIrq
  rw [ht]
  cases tenantOf s f with
  | none => rfl
  | some n => exact ite_withJC rfl rfl

theorem raiseEvent_withJC (f type code die addr aux) :
    raiseEvent (withJC js cs s) f type code die addr aux = withJC js cs (raiseEvent s f type code die addr aux) :=
  (congrArg (evqIrq · f) (evqStore_withJC js cs s f _ addr aux)).trans (evqIrq_withJC js cs _ f)

theorem watchOne_withJC (m line cls ty f src n) : watchOne (withJC js cs s) m line cls ty f src n = withJC js cs (watchOne s m line cls ty f src n) :=
  ite_withJC (raiseEvent_withJC js cs (setMdie s m _) _ _ _ _ _ _) rfl

theorem watchHit_withJC (line cls ty f src) : watchHit (withJC js cs s) line cls ty f src = withJC js cs (watchHit s line cls ty f src) := by
  have hm : homeMdie (withJC js cs s) (64 * line) = homeMdie s (64 * line) := rfl
  unfold watchHit
  rw [hm]
  cases homeMdie s (64 * line) with
  | none => rfl
  | some m => exact foldl_withJC (fun s n => watchOne_withJC js cs s m line cls ty f src n) _ s

theorem recallLine_withJC (line f d) : recallLine (withJC js cs s) line f d = withJC js cs (recallLine s line f d) :=
  ite_withJC ((congrArg (watchHit · line 3 2 f d) (writeBackLine_withJC js cs s line)).trans (watchHit_withJC js cs _ line 3 2 f d)) rfl

theorem cSetBytes_withJC (pa l) : cSetBytes (withJC js cs s) pa l = withJC js cs (cSetBytes s pa l) := by
  unfold cSetBytes
  rw [noteCode_withJC]
  rfl

theorem cSetMasked_withJC (line mask) (l : List Byte) : ∀ s i,
    cSetMasked (withJC js cs s) line mask i l = withJC js cs (cSetMasked s line mask i l) := by
  induction l with
  | nil => exact fun _ _ => rfl
  | cons b l ih => exact fun s i => (congrArg (cSetMasked · line mask (i + 1) l) (ite_withJC (cSetBytes_withJC js cs s _ _) rfl)).trans (ih _ _)

theorem noteTag_withJC (line) : noteTag (withJC js cs s) line = withJC js cs (noteTag s line) := by
  have ht : (withJC js cs s).M.tags = s.M.tags := rfl
  unfold noteTag
  rw [ht]
  cases smGet s.M.tags line <;> rfl

theorem poisonMask_withJC (line mask) : poisonMask (withJC js cs s) line mask = withJC js cs (poisonMask s line mask) := by
  have hp : (withJC js cs s).M.poison = s.M.poison := rfl
  unfold poisonMask
  rw [hp]
  cases smGet s.M.poison line <;> rfl

/-! ### Writes of a die -/

/-- A die gives a line up. -/
def dieRevoked (line f : Nat) (s : State) (d : Nat) : State :=
  tokDrop (dropCopies (if dirOwned (landThrows s d line) d line then recallLine (landThrows s d line) line f d else landThrows s d line) d line 64) d line

theorem dieRevoked_jobs (line f : Nat) (s : State) (d : Nat) : (dieRevoked line f s d).jobs = s.jobs := by
  unfold dieRevoked
  rw [tokDrop_jobs, dropCopies_jobs]
  split <;> simp

variable (hr : regionsOf js = regionsOf s.jobs)
include hr

theorem footLines_withJC (core) : footLines (withJC js cs s) core = footLines s core := by
  rw [footLines_eq, footLines_eq]
  exact congrArg (fun l => (l.map (regionFoot core)).flatten) hr

/-- Beside the lines of the core's regions a delivery looks at no job. -/
theorem deliver_withJC (core line) : deliver (withJC js cs s) core line = withJC js cs (deliver s core line) := by
  unfold deliver
  rw [footLines_withJC js cs s hr]
  extract_lets c foot ways open_ lru s1 s2 hs d ways' open' lru' t1 t2 hs'
  have h1 : s1 = withJC js cs t1 := by
    refine ite_withJC rfl ?_
    show (match open'.getLast? with | some v => tokReturn (withJC js cs s) core v | none => withJC js cs s) = withJC js cs (match open'.getLast? with
      | some v => tokReturn s core v
      | none => s)
    cases open'.getLast? <;> rfl
  have h2 : s2 = withJC js cs t2 := congrArg (setCore · core _) h1
  refine ite_withJC rfl (ite_withJC ?_ rfl)
  show setHolders s2 _ _ (tokFree ((holders s2 (core / 64) line).filter _) ++ _) = _
  rw [h2]
  rfl

theorem landThrows_withJC (die line) : landThrows (withJC js cs s) die line = withJC js cs (landThrows s die line) := by
  have h := foldl_regions_withJC (cs := cs) (f := fun s (e : Nat × Nat × Nat) => deliver s e.1 e.2.1) (fun s e => deliver_jobs s _ _)
    (fun s e hr => deliver_withJC js cs s hr e.1 e.2.1) (s.M.deliveries.filter (fun e => e.2.1 == line && e.1 / 64 == die)) s hr
  exact congrArg (fun t : State => { t with M := { t.M with deliveries := t.M.deliveries.filter (fun e => !(e.2.1 == line && e.1 / 64 == die)) } }) h

theorem dieRevoked_withJC (line f d) : dieRevoked line f (withJC js cs s) d = withJC js cs (dieRevoked line f s d) := by
  have h : (if dirOwned (landThrows (withJC js cs s) d line) d line then recallLine (landThrows (withJC js cs s) d line) line f d
      else landThrows (withJC js cs s) d line) = withJC js cs
        (if dirOwned (landThrows s d line) d line then recallLine (landThrows s d line) line f d else landThrows s d line) := by
    rw [landThrows_withJC js cs s hr]
    exact ite_withJC (recallLine_withJC js cs _ line f d) rfl
  exact congrArg (fun t => tokDrop (dropCopies t d line 64) d line) h

theorem dirRevoke_withJC (line f except) : dirRevoke (withJC js cs s) line f except = withJC js cs (dirRevoke s line f except) :=
  foldl_regions_withJC (dieRevoked_jobs line f) (fun s d hr => dieRevoked_withJC js cs s hr line f d) _ s hr

theorem dirWrite_withJC (d line f ty) : dirWrite (withJC js cs s) d line f ty = withJC js cs (dirWrite s d line f ty) := by
  have h : dirRevoke (watchHit (withJC js cs s) line 0 ty f d) line f (some d) =
      withJC js cs (dirRevoke (watchHit s line 0 ty f d) line f (some d)) := by
    rw [watchHit_withJC]
    exact dirRevoke_withJC js cs _ (hr.trans (congrArg regionsOf (watchHit_jobs ..).symm)) line f (some d)
  exact ite_withJC rfl (congrArg (setDir · line (.owned d)) h)

/-- A coherent write of a die looks at no job beside the regions, and at no cluster. -/
theorem diePut_withJC (d agent line f ty mask bytes) :
    diePut (withJC js cs s) d agent line f ty mask bytes = withJC js cs (diePut s d agent line f ty mask bytes) := by
  have hw : dirWrite (landThrows (withJC js cs s) d line) d line f ty = withJC js cs (dirWrite (landThrows s d line) d line f ty) := by
    rw [landThrows_withJC js cs s hr]
    exact dirWrite_withJC js cs _ (hr.trans (congrArg regionsOf (landThrows_jobs ..).symm)) d line f ty
  unfold diePut
  extract_lets s1 s2 c sc s3 s4 t1 t2 tc t3 t4
  have h2 : s2 = withJC js cs t2 := congrArg (fun t => tokWrite (dropCopies t d line agent) d line agent) hw
  have h3 : s3 = withJC js cs t3 := by
    have h := congrArg (fun t => if agent < 64 then setCore t c { coreSt t c with caught := (coreSt t c).caught.filter (· != line) } else t) h2
    exact h.trans (ite_withJC rfl rfl)
  have h4 : s4 = withJC js cs t4 := by
    show nmForget (noteTag s3 line) line mask = _
    rw [h3, noteTag_withJC]
    rfl
  refine ite_withJC (raiseEvent_withJC js cs s _ _ _ _ _ _) ?_
  rw [h4, cSetMasked_withJC, poisonMask_withJC]

end

/-! ### Clusters with the same partial lines -/

/-- `m'` is `m` but for one cluster, which has the partial lines that it has in `m`. -/
def SameParts (m m' : SMap Cluster) : Prop :=
  ∃ c v, m' = smSet m c v ∧ v.partials = (smGetD m c Cluster.reset).partials ∧ v.partOrder = (smGetD m c Cluster.reset).partOrder

theorem smSet_comm {α : Type} (m : SMap α) {a b : Nat} (h : a ≠ b) (v w : α) : smSet (smSet m a v) b w = smSet (smSet m b w) a v := by
  induction m with
  | nil => simp only [smSet]; grind
  | cons e r ih =>
    obtain ⟨k, x⟩ := e
    simp only [smSet]
    grind [smSet]

/-- A write of an entry of which a filter takes no other account than of what stood there. -/
theorem filterMap_smSet {α β : Type} {g : Nat × α → Option β} {m : SMap α} {k : Nat} {v d : α} (hd : g (k, d) = none)
    (hv : g (k, v) = g (k, smGetD m k d)) : (smSet m k v).filterMap g = m.filterMap g := by
  induction m with
  | nil => simpa [smSet, smGetD, smGet, hd] using hv
  | cons e r ih =>
    obtain ⟨k', x⟩ := e
    simp only [smSet, smGetD, smGet] at hv ⊢
    split
    · rw [if_neg (by omega), if_pos ‹_›] at hv
      simp only [List.filterMap_cons, hv, Option.getD_none, hd]
    · split
      · subst_vars
        simp only [if_true, Option.getD_some] at hv
        simp only [List.filterMap_cons, hv]
      · rw [if_neg (by omega), if_neg ‹_›] at hv
        simp only [List.filterMap_cons, ih hv]

theorem SameParts.partialsOf {s : State} {js : SMap Job} {cs : SMap Cluster} (h : SameParts s.clusters cs) (line : Nat) :
    partialsOf (withJC js cs s) line = partialsOf s line := by
  obtain ⟨c, v, rfl, hp, -⟩ := h
  refine filterMap_smSet (d := Cluster.reset) rfl ?_
  dsimp only
  rw [hp]

/-- A cluster without a partial line. -/
def Cluster.lineDropped (line : Nat) (c : Cluster) : Cluster :=
  { c with partials := smErase c.partials line, partOrder := c.partOrder.filter (· != line) }

theorem SameParts.drop {m m' : SMap Cluster} (h : SameParts m m') (n line : Nat) :
    SameParts (smSet m n ((smGetD m n Cluster.reset).lineDropped line)) (smSet m' n ((smGetD m' n Cluster.reset).lineDropped line)) := by
  obtain ⟨c, v, rfl, hp, ho⟩ := h
  by_cases e : n = c
  · subst e
    refine ⟨n, v.lineDropped line, ?_, ?_, ?_⟩
    · rw [smSet_smSet, smSet_smSet, smGetD_smSet_self]
    · rw [smGetD_smSet_self, Cluster.lineDropped, Cluster.lineDropped, hp]
    · rw [smGetD_smSet_self, Cluster.lineDropped, Cluster.lineDropped, ho]
  · refine ⟨c, v, ?_, ?_, ?_⟩
    · rw [smGetD_smSet_ne _ _ _ e, smSet_comm _ (Ne.symm e)]
    · rw [smGetD_smSet_ne _ _ _ (Ne.symm e), hp]
    · rw [smGetD_smSet_ne _ _ _ (Ne.symm e), ho]

/-! ### States alike to a translation -/

/-- `u` is `t` but for its jobs, whose regions are those of `t`, and for a cluster, whose partial lines are. -/
def Alike (t u : State) : Prop := ∃ js cs, regionsOf js = regionsOf t.jobs ∧ SameParts t.clusters cs ∧ u = withJC js cs t

theorem ite_alike {a b c d : State} {p : Prop} [Decidable p] (hs : Alike a c) (ht : Alike b d) : Alike (if p then a else b) (if p then c else d) := by
  split
  · exact hs
  · exact ht

theorem foldl_alike {α : Type} {f : State → α → State} (hf : ∀ t u x, Alike t u → Alike (f t x) (f u x)) (l : List α) :
    ∀ {t u}, Alike t u → Alike (l.foldl f t) (l.foldl f u) := by
  induction l with
  | nil => exact id
  | cons x l ih => exact fun h => ih (hf _ _ x h)

theorem regionsOf_smSet (m : SMap Job) (k : Nat) (j : Job) : regionsOf (smSet m k j) = smSet (regionsOf m) k j.region := by
  induction m with
  | nil => rfl
  | cons e m ih =>
    obtain ⟨n, q⟩ := e
    simp only [regionsOf, smSet, List.map_cons] at ih ⊢
    split
    · rfl
    · split
      · rfl
      · rw [List.map_cons, ih]

theorem regionAt_eq (s : State) (k : Nat) : (jobAt s k).map Job.region = smGet (regionsOf s.jobs) k := (smGet_map_snd Job.region s.jobs k).symm

section
variable {t u : State} (h : Alike t u)
include h

/-- A step that passes other jobs and clusters by, and keeps those of the state. -/
theorem Alike.map (g : State → State) (hg : ∀ js cs, regionsOf js = regionsOf t.jobs → g (withJC js cs t) = withJC js cs (g t))
    (hj : (g t).jobs = t.jobs) (hc : (g t).clusters = t.clusters) : Alike (g t) (g u) := by
  obtain ⟨js, cs, hr, hp, rfl⟩ := h
  exact ⟨js, cs, hr.trans (congrArg regionsOf hj.symm), hc ▸ hp, hg js cs hr⟩

theorem setJob_alike (k : Nat) {j q : Job} (hq : q.region = j.region) : Alike (setJob t k j) (setJob u k q) := by
  obtain ⟨js, cs, hr, hp, rfl⟩ := h
  refine ⟨smSet js k q, cs, ?_, hp, rfl⟩
  show regionsOf (smSet js k q) = regionsOf (smSet t.jobs k j)
  rw [regionsOf_smSet, regionsOf_smSet, hr, hq]

theorem Alike.regionAt (k : Nat) : (jobAt u k).map Job.region = (jobAt t k).map Job.region := by
  obtain ⟨js, cs, hr, -, rfl⟩ := h
  rw [regionAt_eq, regionAt_eq, ← hr]
  rfl

/-! ### Narrowing -/

theorem Alike.inbox (l : List Pkt) :
    Alike { t with F := { t.F with inbox := t.F.inbox ++ l } } { u with F := { u.F with inbox := u.F.inbox ++ l } } := by
  obtain ⟨js, cs, hr, hp, rfl⟩ := h
  exact ⟨js, cs, hr, hp, rfl⟩

theorem narrowQuiet_alike (k f) : Alike (narrowQuiet t k f) (narrowQuiet u k f) := by
  have hk := h.regionAt k
  unfold narrowQuiet
  cases hj : jobAt t k with
  | none =>
    rw [hj, Option.map_none, Option.map_eq_none_iff] at hk
    rw [hk]
    exact h
  | some j =>
    rw [hj, Option.map_some, Option.map_eq_some_iff] at hk
    obtain ⟨q, hq, hr⟩ := hk
    rw [hq]
    exact setJob_alike h k (by rw [hr])

theorem narrow_alike (k f) : Alike (narrow t k f) (narrow u k f) := by
  have hk : (jobAt u k).bind Job.region = (jobAt t k).bind Job.region := by
    have hj (o : Option Job) : o.bind Job.region = (o.map Job.region).bind id := by cases o <;> rfl
    rw [hj, hj, h.regionAt]
  have hq := narrowQuiet_alike h k f
  unfold narrow
  rw [hk]
  cases (jobAt t k).bind Job.region with
  | none => exact h
  | some r => exact ite_alike hq (Alike.inbox hq _)

end

/-- What a write outside regions at position `w` does to the region of a slot (R305). -/
def regionNarrowed (line w : Nat) (s : State) (e : Nat × Option Region) : State :=
  match e.2 with
  | none => s
  | some g =>
    if g.reads.contains line || g.writes.contains line then
      narrow s e.1 (fun g =>
        let g := if g.reads.contains line then { g with hi := Nat.min g.hi (w - 1) } else g
        if g.writes.contains line then { g with lo := Nat.max g.lo (w + 1) } else g)
    else s

theorem slWrite_eq (s : State) (line die) : ∃ w, slWrite s line die = (regionsOf s.jobs).foldl (regionNarrowed line w)
    (setLineRec s line (w, (lineRec s line).2)) ∧ w = Nat.max (holderG s line die) (Nat.max ((lineRec s line).1 + 1) ((lineRec s line).2 + 1)) :=
  ⟨_, (List.foldl_map (f := fun e : Nat × Job => (e.1, e.2.region)) (g := regionNarrowed line _)).symm, rfl⟩

theorem regionNarrowed_alike {t u : State} (line w) (e) (h : Alike t u) : Alike (regionNarrowed line w t e) (regionNarrowed line w u e) := by
  obtain ⟨n, _ | g⟩ := e
  · exact h
  · exact ite_alike (narrow_alike h n _) h

section
variable {t u : State} (h : Alike t u)
include h

theorem slWrite_alike (line die) : Alike (slWrite t line die) (slWrite u line die) := by
  obtain ⟨w, he, hw⟩ := slWrite_eq t line die
  obtain ⟨w', he', hw'⟩ := slWrite_eq u line die
  have hu : Alike (setLineRec t line (w, (lineRec t line).2)) (setLineRec u line (w', (lineRec u line).2)) ∧
      regionsOf u.jobs = regionsOf t.jobs ∧ w' = w := by
    obtain ⟨js, cs, hr, hp, rfl⟩ := h
    have hww : w' = w := hw'.trans hw.symm
    rw [hww]
    exact ⟨⟨js, cs, hr, hp, rfl⟩, hr, rfl⟩
  obtain ⟨hu, hr, rfl⟩ := hu
  rw [he, he', hr]
  exact foldl_alike (fun _ _ e h => regionNarrowed_alike line w' e h) _ hu

theorem agentSetBytes_alike (pa l) : Alike (agentSetBytes t pa l) (agentSetBytes u pa l) := by
  refine h.map (agentSetBytes · pa l) (fun js cs _ => agentSetBytes_withJC js cs t pa l) (agentSetBytes_jobs t pa l) ?_
  exact (agentSetBytes_published (Published.refl t) pa l).clusters

theorem diePut_alike (d agent line f ty mask bytes) : Alike (diePut t d agent line f ty mask bytes) (diePut u d agent line f ty mask bytes) := by
  refine h.map (diePut · d agent line f ty mask bytes) (fun js cs hr => diePut_withJC js cs t hr d agent line f ty mask bytes) (by simp) ?_
  exact (diePut_published (Published.refl t) d agent line f ty mask bytes).clusters

/-! ### Scope copies -/

theorem pubWrite_alike (core l c) : Alike (pubWrite t core l c) (pubWrite u core l c) := slWrite_alike (diePut_alike h _ _ _ _ _ _ _) _ _

theorem relPut_alike (line mask l cp) : Alike (relPut t line mask l cp) (relPut u line mask l cp) :=
  h.map (relPut · line mask l cp) (fun _ _ _ => rfl) rfl rfl

theorem putCopy_alike (c) : Alike (putCopy t c) (putCopy u c) := h.map (putCopy · c) (fun _ _ _ => rfl) rfl rfl

theorem newCopy_alike (l core line f) : Alike (newCopy t l core line f).1 (newCopy u l core line f).1 ∧
    (newCopy u l core line f).2 = (newCopy t l core line f).2 := by
  have hl (js cs) : ∀ n l, lineFrom (withJC js cs t) core line n l = lineFrom t core line n l := by
    intro n
    induction n with
    | zero => exact fun _ => rfl
    | succ n ih =>
      intro l
      unfold lineFrom
      rw [ih]
      rfl
  have hs (js cs) : ∀ n l, standsAt (withJC js cs t) core line n l = standsAt t core line n l := by
    intro n
    induction n with
    | zero => exact fun _ => rfl
    | succ n ih =>
      intro l
      unfold standsAt
      rw [ih]
      rfl
  obtain ⟨js, cs, hr, hp, rfl⟩ := h
  unfold newCopy
  rw [hl, hs]
  exact ⟨⟨js, cs, hr, hp, rfl⟩, rfl⟩

theorem pubOut_alike (c rs core tag n) : ∀ l, Alike (pubOut t c rs core tag n l) (pubOut u c rs core tag n l) := by
  have hc (l) : copyAt u l core c.line = copyAt t l core c.line := by obtain ⟨_, _, _, _, rfl⟩ := h; rfl
  have ho (l) : coherentAt u l core c.line = coherentAt t l core c.line := by obtain ⟨_, _, _, _, rfl⟩ := h; rfl
  induction n with
  | zero => exact fun _ => h
  | succ n ih =>
    intro l
    unfold pubOut
    rw [hc, ho]
    refine ite_alike (relPut_alike (pubWrite_alike h core 2 c) _ _ _ _) ?_
    cases copyAt t l core c.line with
    | some d => exact relPut_alike (putCopy_alike h _) _ _ _ _
    | none =>
      have hn := newCopy_alike h l core c.line c.fdom
      refine ite_alike (relPut_alike (pubWrite_alike h core l c) _ _ _ _) (ite_alike ?_ (ih _))
      dsimp only
      rw [hn.2]
      exact relPut_alike (putCopy_alike hn.1 _) _ _ _ _

theorem publish1_alike (c tag) : Alike (publish1 t c tag) (publish1 u c tag) := by
  have hr : Alike (relTake (dropCopy t c) c.line (some (c.level, c.inst))).1 (relTake (dropCopy u c) c.line (some (c.level, c.inst))).1 :=
    h.map (fun s => (relTake (dropCopy s c) c.line (some (c.level, c.inst))).1) (fun _ _ _ => rfl) rfl rfl
  have hl : (relTake (dropCopy u c) c.line (some (c.level, c.inst))).2 = (relTake (dropCopy t c) c.line (some (c.level, c.inst))).2 := by
    obtain ⟨_, _, _, _, rfl⟩ := h
    rfl
  unfold publish1
  dsimp only
  rw [hl]
  exact ite_alike hr (pubOut_alike hr _ _ _ _ _ _)

theorem publishLevel_alike (sel tag l) : Alike (publishLevel t sel tag l) (publishLevel u sel tag l) := by
  have hs : u.M.scopes = t.M.scopes := by obtain ⟨_, _, _, _, rfl⟩ := h; rfl
  unfold publishLevel
  rw [hs]
  exact foldl_alike (fun _ _ c h => publish1_alike h c tag) _ h

theorem publishSel_alike (sel tag) : Alike (publishSel t sel tag) (publishSel u sel tag) :=
  foldl_alike (fun _ _ l h => publishLevel_alike h sel tag l) _ h

/-! ### Partial lines -/

theorem combinePart_alike (line p) : Alike (combinePart t line p) (combinePart u line p) := by
  refine slWrite_alike (foldl_alike (fun t u e h => ?_) _ h) _ _
  have ha : agentNat u (64 * line + rangeBits p.fmt / 8 * e.1) (rangeBits p.fmt / 8) =
      agentNat t (64 * line + rangeBits p.fmt / 8 * e.1) (rangeBits p.fmt / 8) := by
    obtain ⟨js, cs, _, _, rfl⟩ := h
    exact agentNat_withJC js cs t _ _
  dsimp only
  rw [ha]
  exact agentSetBytes_alike h _ _

theorem dropPartial_alike (cl line) : Alike (dropPartial t cl line) (dropPartial u cl line) := by
  obtain ⟨js, cs, hr, hp, rfl⟩ := h
  exact ⟨js, _, hr, hp.drop cl line, rfl⟩

theorem combineLine_alike (line) : Alike (combineLine t line) (combineLine u line) := by
  have hp : partialsOf u line = partialsOf t line := by obtain ⟨_, _, _, hp, rfl⟩ := h; exact hp.partialsOf line
  unfold combineLine
  rw [hp]
  exact foldl_alike (fun _ _ e h => dropPartial_alike (combinePart_alike h line e.2) e.1 line) _ h

/-! ### Table entries and the walk -/

theorem strongView_alike (line) : Option.Rel Alike (strongView t line) (strongView u line) := by
  have hc := combineLine_alike h line
  have hp := publishSel_alike hc (fun c => c.line == line) 3
  have he : (combineLine u line).M = (combineLine t line).M ∧ (combineLine u line).B = (combineLine t line).B := by
    obtain ⟨_, _, _, _, e⟩ := hc
    rw [e]
    exact ⟨rfl, rfl⟩
  unfold strongView
  dsimp only
  rw [he.1, he.2]
  split
  · exact .none
  · split
    · split
      · exact .none
      · exact .some hp
    · exact .some hc

theorem readEntry_alike (ea level) : readEntry u ea level = readEntry t ea level := by
  have hf : u.fresh = t.fresh := by obtain ⟨_, _, _, _, rfl⟩ := h; rfl
  have hv := strongView_alike h (lineOf ea)
  unfold readEntry
  rw [hf]
  generalize strongView t (lineOf ea) = a at hv ⊢
  generalize strongView u (lineOf ea) = b at hv ⊢
  cases hv with
  | none => rfl
  | some hab =>
    obtain ⟨_, _, _, _, rfl⟩ := hab
    rfl

theorem walkStep_alike (va table level) {below below' : Nat → Walk} (hb : ∀ x, below' x = below x) :
    walkStep u va table level below' = walkStep t va table level below := by
  have hr := readEntry_alike h
  have he (e ea) : entryWalk u e ea level below' = entryWalk t e ea level below := by
    obtain rfl := funext hb
    obtain ⟨_, _, _, _, rfl⟩ := h
    rfl
  have hm (ea) : (!(rangeOf u ea).isMem || poisoned u (lineOf ea)) = (!(rangeOf t ea).isMem || poisoned t (lineOf ea)) := by
    obtain ⟨_, _, _, _, rfl⟩ := h
    rfl
  unfold walkStep
  dsimp only
  rw [hm, hr]
  simp only [he]

theorem walkFrom_alike (va level) : ∀ table, walkFrom u va table level = walkFrom t va table level := by
  induction level with
  | zero => exact fun table => walkStep_alike h va table 0 (fun _ => rfl)
  | succ level ih => exact fun table => walkStep_alike h va table (level + 1) ih

theorem walk_alike (f va) : walk u f va = walk t f va := by
  have hd : domainSt u f = domainSt t f := by obtain ⟨_, _, _, _, rfl⟩ := h; rfl
  unfold walk
  dsimp only
  rw [hd, walkFrom_alike h]

theorem tlbResult_alike (va) (c : Tlb) : c.result u va = c.result t va := by
  have hb (l x) : walkBelow u va l x = walkBelow t va l x := by
    cases l with
    | zero => rfl
    | succ l => exact walkFrom_alike h va l x
  have hb := funext (hb c.level)
  unfold Tlb.result
  rw [hb]
  obtain ⟨_, _, _, _, rfl⟩ := h
  rfl

theorem usedWalk_alike (f va) : usedWalk u f va = usedWalk t f va := by
  have ht : u.M.tlb = t.M.tlb ∧ u.fresh = t.fresh := by obtain ⟨_, _, _, _, rfl⟩ := h; exact ⟨rfl, rfl⟩
  unfold usedWalk
  simp only [ht.1, ht.2, walk_alike h, tlbResult_alike h]

/-- A translation looks at no job but for the regions, and at no cluster but for its partial lines. -/
theorem translateMem_alike (f hd va k) : translateMem u f hd va k = translateMem t f hd va k := by
  have hm : u.M.moves = t.M.moves := by obtain ⟨_, _, _, _, rfl⟩ := h; rfl
  have hr (pa) : rangeOf u pa = rangeOf t pa := by obtain ⟨_, _, _, _, rfl⟩ := h; rfl
  have ht : translate u f hd va k = translate t f hd va k := by
    unfold translate
    rw [usedWalk_alike h, hm]
  unfold translateMem
  rw [ht]
  simp only [hr]

theorem areaPages_alike (f va n a) : areaPages u f va n a = areaPages t f va n a := by
  unfold areaPages
  simp only [translateMem_alike h]

theorem canWrite_alike (f va n) : canWrite u f va n = canWrite t f va n := congrArg (· == Pages.ok) (areaPages_alike h f va n .write)

theorem areaMoves_alike (f va n a) : areaMoves u f va n a = areaMoves t f va n a := congrArg (· == Pages.moving) (areaPages_alike h f va n a)

end

end Sys2Proof.Machine
end

section
/-!
PROOFS, part 44. Publishing scope copies takes no time (R289): a lemma `f_time` says that `f` takes none.
-/
namespace Sys2Proof.Machine

theorem ite_time {s t o : State} {p : Prop} [Decidable p] (hs : s.time = o.time) (ht : t.time = o.time) : (if p then s else t).time = o.time := by
  split
  · exact hs
  · exact ht

/-! ### Coherent writes -/

theorem watchOne_time (s : State) (m line cls ty f src n : Nat) : (watchOne s m line cls ty f src n).time = s.time :=
  ite_time (raiseEvent_time (setMdie s m _) _ _ _ _ _ _) rfl

theorem watchHit_time (s : State) (line cls ty f src : Nat) : (watchHit s line cls ty f src).time = s.time := by
  unfold watchHit
  split
  · rfl
  · exact foldl_unchanged State.time (fun t n => watchOne_time t _ _ _ _ _ _ n) _ s

theorem deliver_time (s : State) (core line : Nat) : (deliver s core line).time = s.time := by
  unfold deliver
  extract_lets c foot ways open_ lru s1 s2 hs
  have h1 : s1.time = s.time := by
    refine ite_time rfl ?_
    split <;> rfl
  exact ite_time rfl (ite_time h1 rfl)

theorem landThrows_time (s : State) (die line : Nat) : (landThrows s die line).time = s.time :=
  foldl_unchanged State.time (f := fun t (e : Nat × Nat × Nat) => deliver t e.1 e.2.1) (fun t e => deliver_time t e.1 e.2.1) _ s

theorem writeBackLine_time (s : State) (line : Nat) : (writeBackLine s line).time = s.time := (writeBackN_traceOnly 64 s (64 * line)).time

theorem recallLine_time (s : State) (line f d : Nat) : (recallLine s line f d).time = s.time :=
  ite_time ((watchHit_time _ _ _ _ _ _).trans (writeBackLine_time s line)) rfl

theorem dieRevoked_time (line f : Nat) (s : State) (d : Nat) : (dieRevoked line f s d).time = s.time :=
  (ite_time (recallLine_time _ line f d) rfl).trans (landThrows_time s d line)

theorem dirWrite_time (s : State) (d line f ty : Nat) : (dirWrite s d line f ty).time = s.time :=
  ite_time rfl ((foldl_unchanged State.time (dieRevoked_time line f) _ _).trans (watchHit_time s _ _ _ _ _))

theorem cSetMasked_time (line mask : Nat) (l : List Byte) : ∀ s i, (cSetMasked s line mask i l).time = s.time := by
  induction l with
  | nil => exact fun _ _ => rfl
  | cons b r ih => exact fun s i => (ih _ _).trans (ite_time (noteCode_traceOnly _ s _).time rfl)

theorem noteTag_time (s : State) (line : Nat) : (noteTag s line).time = s.time := by
  unfold noteTag
  split <;> rfl

theorem poisonMask_time (s : State) (line mask : Nat) : (poisonMask s line mask).time = s.time := by
  unfold poisonMask
  split <;> rfl

theorem diePut_time (s : State) (d agent line f ty mask : Nat) (bytes : List Byte) : (diePut s d agent line f ty mask bytes).time = s.time := by
  unfold diePut
  refine ite_time (raiseEvent_time _ _ _ _ _ _ _) ?_
  extract_lets s1 s2 c v s3 s4
  have h2 : s2.time = s.time := (dirWrite_time s1 d line f ty).trans (landThrows_time s d line)
  have h3 : s3.time = s2.time := ite_time rfl rfl
  rw [poisonMask_time, cSetMasked_time, show s4.time = s3.time from noteTag_time s3 line, h3, h2]

theorem narrow_time (s : State) (k : Nat) (f : Region → Region) : (narrow s k f).time = s.time := by
  have hq : (narrowQuiet s k f).time = s.time := by
    unfold narrowQuiet
    split <;> rfl
  unfold narrow
  split
  · rfl
  · exact ite_time hq hq

theorem slWrite_time (s : State) (line : Nat) (die : Option Nat) : (slWrite s line die).time = s.time := by
  refine foldl_unchanged State.time (fun t e => ?_) _ _
  split
  · rfl
  · exact ite_time (narrow_time _ _ _) rfl

/-! ### Publishing -/

theorem pubOut_time (s : State) (c : ScopeCopy) (rs : List RelRec) (core t n : Nat) : ∀ l, (pubOut s c rs core t n l).time = s.time := by
  have written (l m cp) : (relPut (pubWrite s core l c) c.line m rs cp).time = s.time := (slWrite_time _ _ _).trans (diePut_time s _ _ _ _ _ _ _)
  induction n with
  | zero => exact fun _ => rfl
  | succ n ih =>
    intro l
    unfold pubOut
    refine ite_time (written 2 _ _) ?_
    split
    · rfl
    · exact ite_time (written l _ _) (ite_time rfl (ih (l + 1)))

theorem publish1_time (s : State) (c : ScopeCopy) (t : Nat) : (publish1 s c t).time = s.time := ite_time rfl (pubOut_time _ c _ _ _ _ _)

theorem publishSel_time (s : State) (sel : ScopeCopy → Bool) (t : Nat) : (publishSel s sel t).time = s.time :=
  foldl_unchanged State.time (fun s _ => foldl_unchanged State.time (fun s c => publish1_time s c t) _ s) _ s

theorem leaveInstances_time (s : State) (old new : Nat) : (leaveInstances s old new).time = s.time := by
  unfold leaveInstances
  extract_lets t
  have h : t.time = s.time := ite_time rfl (publishSel_time s _ 3)
  exact (ite_time rfl (publishSel_time t _ 3)).trans h

end Sys2Proof.Machine
end

section
/-!
PROOFS, part 45. Context saves, handler entry, lite saves and resumes (R358, R364, R370, R372, R374).
-/
namespace Sys2Proof.Machine

/-! ### EJOINs that retire untraced and end no loop -/

theorem ejoinRetire_quiet {s : State} {k : Nat} {j : Job} (hj : jobAt s k = some j) {e : EStream} (he : (j.eng e).ejoin.isSome = true)
    (ht : TraceOff s j.fdom) (hn : NoLoopEnd (j.eng e) (j.eng e).pc) (ends : Bool) :
    ∃ q, ejoinRetire s k e ends = setJob s k q ∧ Ejoined [e] ends j q := by
  obtain ⟨s1, q, hs, -, hq⟩ := ejoinRetire_ejoined hj he ends
  suffices h : ∃ q', ejoinRetire s k e ends = setJob s k q' by
    obtain ⟨q', h⟩ := h
    have hqq : some q' = some q := by rw [← jobAt_setJob_self s k q', ← h, hs, jobAt_setJob_self]
    cases hqq
    exact ⟨q, h, hq⟩
  obtain ⟨t, het⟩ := Option.isSome_iff_exists.mp he
  obtain ⟨a, b, hr⟩ := tokRetire_queues j e t
  have hd : (j.tokRetire e t).eng e = j.eng e := by rw [hr]; cases e <;> rfl
  have hf : (j.tokRetire e t).fdom = j.fdom := by rw [hr]
  have hl {g : Eng} (h : g.loops = (j.eng e).loops) : NoLoopEnd g (j.eng e).pc := fun t r hg => hn t r (h.symm.trans hg)
  simp only [ejoinRetire, hj, het, hd]
  rw [advance_none (by rw [eng_setEng]; exact hl rfl)]
  refine ⟨_, congrArg (setJob · k _) ?_⟩
  rw [traceWord, traceRecord_off]
  rwa [setEng_fdom, hf]

theorem retireEach_quiet {k : Nat} {ends : Bool} (es : List EStream) (hes : es.Nodup) : ∀ {s : State} {j : Job}, jobAt s k = some j →
    TraceOff s j.fdom → (∀ e ∈ es, (j.eng e).ejoin.isSome = true ∧ NoLoopEnd (j.eng e) (j.eng e).pc) →
    ∃ q, es.foldl (fun s e => ejoinRetire s k e ends) s = setJob s k q ∧ Ejoined es ends j q := by
  induction es with
  | nil => exact fun hj _ _ => ⟨_, (setJob_same hj).symm, .nil _ _⟩
  | cons e es ih =>
    intro s j hj ht hn
    obtain ⟨he, hes⟩ := List.nodup_cons.mp hes
    obtain ⟨hej, hne⟩ := hn e List.mem_cons_self
    obtain ⟨q, hs, hq⟩ := ejoinRetire_quiet hj hej ht hne ends
    obtain ⟨c, hc⟩ := hq.core
    have hn' : ∀ f ∈ es, (q.eng f).ejoin.isSome = true ∧ NoLoopEnd (q.eng f) (q.eng f).pc := fun f hf => by
      rw [hq.other f fun hm => he (List.mem_singleton.mp hm ▸ hf)]
      exact hn f (List.mem_cons_of_mem _ hf)
    have ht' : TraceOff (setJob s k q) q.fdom := by rw [hc]; exact ht
    obtain ⟨q', hs', hq'⟩ := ih hes (jobAt_setJob_self s k q) ht' hn'
    refine ⟨q', ?_, hq.cons hq' he⟩
    rw [List.foldl_cons, hs, hs']
    show { s with jobs := smSet (smSet s.jobs k q) k q' } = _
    rw [smSet_smSet]
    rfl

theorem retireJoins_quiet {s : State} {k m : Nat} {j : Job} (hj : jobAt s k = some j) (ht : TraceOff s j.fdom) (hm : j.joined m = true)
    (hn : ∀ e ∈ maskStreams m, NoLoopEnd (j.eng e) (j.eng e).pc) (ends : Bool) :
    ∃ q, retireJoins s k m ends = setJob s k q ∧ Ejoined (maskStreams m) ends j q := by
  refine retireEach_quiet _ (maskStreams_nodup m) hj ht fun e he => ⟨?_, hn e he⟩
  have h := List.all_eq_true.mp hm e he
  rw [Bool.and_eq_true] at h
  exact h.1

/-- Ending a lease changes the cluster alone, and no partial line. -/
theorem leaseEnd_parts (s : State) (k : Nat) : ∃ cs, leaseEnd s k = { s with clusters := cs } ∧ SameParts s.clusters cs := by
  unfold leaseEnd
  extract_lets c c'
  have hp (v : Cluster) (h : v.partials = c.partials ∧ v.partOrder = c.partOrder) : SameParts s.clusters (smSet s.clusters (jCluster k) v) :=
    ⟨_, _, rfl, h.1, h.2⟩
  split
  · refine ⟨_, rfl, hp _ ?_⟩
    split <;> exact ⟨rfl, rfl⟩
  · exact ⟨_, rfl, hp _ ⟨rfl, rfl⟩⟩

/-! ### The lite save -/

theorem foldl_setIfInBounds_getElem {n : Nat} (f : Nat → Word) (i : Nat) (hi : i < n) (l : List Nat) : ∀ v : Vector Word n,
    (l.foldl (fun (v : Vector Word n) i => v.setIfInBounds i (f i)) v)[i] = if i ∈ l then f i else v[i] := by
  induction l with
  | nil => exact fun v => by simp
  | cons x l ih =>
    intro v
    rw [List.foldl_cons, ih, Vector.getElem_setIfInBounds]
    by_cases hx : x = i
    · simp [hx]
    · simp [hx, Ne.symm hx]

/-- The record of a lite save keeps s1 to s15. -/
theorem s_of_liteCore {j q : Job} (hq : q.core = liteCore j) {r : BitVec 6} (h : r.toNat < 16) : q.s r = j.s r := by
  unfold Job.s
  rw [hq]
  split
  · rfl
  · show ((List.range 16).foldl (fun (v : Vector Word 64) i => v.setIfInBounds i (j.core.S.s.toList.getD i 0)) _)[r.toNat] = _
    rw [foldl_setIfInBounds_getElem, if_pos (List.mem_range.mpr h)]
    simp [List.getD_eq_getElem?_getD, getElem?_pos, show r.toNat < 64 by omega]

theorem pc_of_liteCore {j q : Job} (hq : q.core = liteCore j) : q.pc = j.pc := by
  simp only [Job.pc, hq, liteCore, newCore, List.getD_cons_zero]

theorem eng_pc_of_liteCore {j q : Job} (hq : q.core = liteCore j) (e : EStream) : (q.eng e).pc = (j.eng e).pc := by
  cases e <;> (simp only [Job.eng, hq]; rfl)

/-- With tracing off, a lite save whose record can be written saves the job and frees the slot. -/
theorem liteSave_saves {t : State} {k : Nat} {q : Job} (ht : TraceOff t q.fdom) (hc : canWrite t q.fdom q.ctxAddr.toNat 256 = true) :
    ∃ r, smGet (liteSave t k q).saved q.uid = some r ∧ r.phase = .saving .lite ∧ r.home = k ∧ r.preempt = none ∧ r.core = liteCore q ∧
      (SlotsOk t → jobAt (liteSave t k q) k = none) := by
  have htr (st kind lv seq w2 w3) : traceRecord t k q st kind lv seq w2 w3 = t := traceRecord_off ht k st kind lv seq w2 w3
  have hw := virtWrite_keeps (.refl t) q.fdom q.ctxAddr.toNat (liteBytes k q q.core)
  unfold liteSave
  simp only [List.foldl_cons, List.foldl_nil, htr, hc, Bool.not_true, Bool.false_eq_true, if_false]
  refine ⟨_, smGet_smSet_self _ _ _, rfl, rfl, rfl, rfl, fun h => ?_⟩
  exact freeSlot_jobAt (setDomain_keeps hw _ _ |>.slots h) k q

/-- `q` is the job `j` once its YIELD has retired. -/
structure Yielded (j q : Job) : Prop where
  uid : q.uid = j.uid
  fdom : q.fdom = j.fdom
  ctxAddr : q.ctxAddr = j.ctxAddr
  region : q.region = j.region
  pc : q.pc = j.pc + 4
  s : q.core.S.s = j.core.S.s
  eng : ∀ e ∈ maskStreams j.presentMask, (q.eng e).pc = (j.eng e).pc + 12

/-- A job whose S instruction retires as number `n`. -/
def Job.counted (q : Job) (n : Nat) : Job := { q with core := { q.core with S := { q.core.S with seq := n } }, pend := .none }

theorem retired_counted {s : State} {k : Nat} {j j' : Job} (h : TraceOff s j.fdom) : retired s k j j' = setJob s k (j'.counted (j.core.S.seq + 1)) :=
  retired_off h

theorem yielded_of_ejoined {j q0 q1 : Job} {n : Nat} (he : Ejoined (maskStreams j.presentMask) false j q0) (hk : KnowOnly q0 q1)
    (hn : ∀ e ∈ maskStreams j.presentMask, NoLoopEnd (j.eng e) (j.eng e).pc) : Yielded j (q1.next.counted n) := by
  obtain ⟨c, hc⟩ := he.core
  have hS : q1.core.S = j.core.S := hk.S.trans he.S
  have hq : q1.uid = j.uid ∧ q1.fdom = j.fdom ∧ q1.ctxAddr = j.ctxAddr ∧ q1.region = j.region := by
    obtain ⟨_, _, _, rfl⟩ := hk
    rw [hc]
    exact ⟨rfl, rfl, rfl, rfl⟩
  obtain ⟨h1, h2, h3, h4⟩ := hq
  refine ⟨h1, h2, h3, h4, ?_, ?_, fun e he' => ?_⟩
  · show q1.core.S.pc + 4 = _
    rw [hS]
    rfl
  · show q1.core.S.s = _
    rw [hS]
  · have hg : (q1.eng e).pc = (j.eng e).pc + 12 := by
      rw [hk.eng e, he.mem e he']
      exact ((j.eng e).ejoined_facts false).2.2.2 (hn e he')
    cases e <;> exact hg

/-- The slot's job and a cluster replaced, regions and partial lines as before. -/
theorem alike_of_replaced {s : State} {k : Nat} {j q : Job} {cs : SMap Cluster} (hj : jobAt s k = some j) (hq : q.region = j.region)
    (hc : SameParts s.clusters cs) : Alike s { s with jobs := smSet s.jobs k q, clusters := cs } := by
  refine ⟨_, cs, ?_, hc, rfl⟩
  rw [regionsOf_smSet, hq, smSet_same]
  rw [← regionAt_eq, hj]
  rfl

/-- A YIELD with a request pending retires, untraced and at no loop's end, into a lite save; nothing that a translation looks at has changed. -/
theorem yieldDone_saves {s : State} {k : Nat} {j : Job} (hj : jobAt s k = some j) (hc : j.core.S.seq < seqMax) (hm : j.joined j.presentMask = true)
    (ho : j.joinOver j.presentMask = none) (hp : nodePreempt s j = true) (hpr : j.preempt.isSome = true) (ha : hasArea s j = true)
    (hw : windowNm s j.uid = false) (ht : TraceOff s j.fdom) (hn : ∀ e ∈ maskStreams j.presentMask, NoLoopEnd (j.eng e) (j.eng e).pc)
    (hmv : areaMoves s j.fdom j.ctxAddr.toNat 256 .write = false) :
    ∃ t q, yieldDone s k = liteSave t k q ∧ Alike s t ∧ Yielded j q ∧ (SlotsOk s → SlotsOk t) := by
  obtain ⟨q0, hs, he⟩ := retireJoins_quiet hj ht hm hn false
  obtain ⟨cs, hl, hcs⟩ := leaseEnd_parts (setJob s k q0) k
  have hq0 : jobAt (leaseEnd (setJob s k q0) k) k = some q0 := (jobAt_congr (leaseEnd_jobs _ k) k).trans (jobAt_setJob_self s k q0)
  have hk := joinShows_knowOnly q0 ((maskStreams j.presentMask).map pathOf)
  have hoff : TraceOff (leaseEnd (setJob s k q0) k) j.fdom := by rw [hl]; exact ht
  obtain ⟨q, hq⟩ : ∃ q, (q0.joinShows ((maskStreams j.presentMask).map pathOf)).next.counted (j.core.S.seq + 1) = q := ⟨_, rfl⟩
  have hy : Yielded j q := hq ▸ yielded_of_ejoined he hk hn
  refine ⟨setJob (leaseEnd (setJob s k q0) k) k q, q, ?_, ?_, hy, fun h => ?_⟩
  · simp only [yieldDone, hj, ho, hp, hpr, ha, hw, hc, hmv, hs, curJob_of hq0, sFinish_retire hc, retired_counted hoff, hq, jobAt_setJob_self,
      Bool.not_false, Bool.and_self, decide_true, Bool.false_eq_true, if_true, if_false]
  · rw [hl]
    have h := alike_of_replaced hj hy.region hcs
    rw [← smSet_smSet s.jobs k q0] at h
    exact h
  · exact (setJob_keeps (leaseEnd_keeps (setJob_keeps (.refl s) k q0) k) k _).slots h

/-! ### Full saves -/

theorem promoteAll_eq (j : Job) : ∃ a f, j.promoteAll = { j with core := { j.core with accs := a, flags := f } } := by
  unfold Job.promoteAll
  extract_lets r q
  split <;> exact ⟨_, _, rfl⟩

theorem promoteAll_area (k : Nat) (j : Job) : j.promoteAll.ctxAddr = j.ctxAddr ∧ j.promoteAll.fdom = j.fdom ∧ j.promoteAll.ctxLen = j.ctxLen ∧
    jobid k j.promoteAll = jobid k j := by
  obtain ⟨a, f, h⟩ := promoteAll_eq j
  rw [h]
  exact ⟨rfl, rfl, rfl, rfl⟩

theorem areaMoves_of_canWrite {s : State} {f va n : Nat} (h : canWrite s f va n = true) : areaMoves s f va n .write = false := by
  unfold canWrite at h
  unfold areaMoves
  cases hp : areaPages s f va n .write <;> simp_all

theorem bankShare_clustersOnly (s : State) (cl r : Nat) : ∃ cs, bankShare s cl r = { s with clusters := cs } := by
  unfold bankShare
  extract_lets us c m
  split
  · exact ⟨_, rfl⟩
  · exact ⟨_, rfl⟩

/-- The job whose record a full save has written, in `n` ns. -/
def Job.recorded (j : Job) (n : Nat) : Job := { (j.promoteAll : Job) with lastSave := n }

/-- The state in which the record of a full save has been written. -/
def saveWritten (s : State) (k : Nat) (j : Job) (kind : CutKind) : State :=
  bankShare (writeContext s k j.promoteAll j.promoteAll.core kind j.promoteAll.ctxAddr.toNat) (jCluster k) 16

/-- Writing the record of a full save changes memory and clusters alone. -/
theorem saveWritten_eq (s : State) (k : Nat) (j : Job) (kind : CutKind) : ∃ m cs, saveWritten s k j kind = { s with M := m, clusters := cs } := by
  obtain ⟨m, hm⟩ := writeContext_memoryOnly s k j.promoteAll j.promoteAll.core kind j.promoteAll.ctxAddr.toNat
  obtain ⟨cs, hc⟩ := bankShare_clustersOnly (writeContext s k j.promoteAll j.promoteAll.core kind j.promoteAll.ctxAddr.toNat) (jCluster k) 16
  exact ⟨m, cs, by rw [saveWritten, hc, hm]⟩

theorem saveWritten_keeps (s : State) (k : Nat) (j : Job) (kind : CutKind) : Keeps s (saveWritten s k j kind) :=
  bankShare_keeps (writeContext_keeps (.refl s) _ _ _ _ _) _ _

section
variable {s : State} {k : Nat} {j : Job} {kind : CutKind} (hj : jobAt s k = some j) (hk : j.phase = .saving kind) (hr : j.replay = none)
  (hw : windowNm s j.uid = false)
include hj hk hr hw

theorem contextSaveDone_waits (hm : areaMoves s j.fdom j.ctxAddr.toNat j.ctxLen .write = true) : Runs (.contextSaveDone k) s s := by
  show execContextSaveDone k s = _
  simp only [execContextSaveDone, hj, hk, hr, hw, hm, Bool.or_true, if_true]

theorem contextSaveDone_lost (hm : areaMoves s j.fdom j.ctxAddr.toNat j.ctxLen .write = false)
    (hc : canWrite s j.fdom j.ctxAddr.toNat j.ctxLen = false) :
    Runs (.contextSaveDone k) s (abandon (setJob s k j.promoteAll) k j.promoteAll 3 0 j.ctxAddr.toNat (jobid k j)) := by
  obtain ⟨h1, h2, h3, h4⟩ := promoteAll_area k j
  show execContextSaveDone k s = _
  simp only [execContextSaveDone, hj, hk, hr, hw, hm, h1, h2, h3, h4, hc, Bool.or_self, Bool.not_false, Bool.false_eq_true, if_true, if_false]

/-- With its record written a full save parks the job or starts its handler. -/
theorem contextSaveDone_written (hc : canWrite s j.fdom j.ctxAddr.toNat j.ctxLen = true) : ∃ n, exec (.contextSaveDone k) s =
    match kind with
    | .forced | .lite => .next (parkSaved (setJob (saveWritten s k j kind) k (j.recorded n)) k (j.recorded n))
    | .trap | .breakpoint =>
      if (domainSt (saveWritten s k j kind) (j.recorded n).fdom).ctxHnd = 0 then
        .next (abandonTrap (setJob (saveWritten s k j kind) k (j.recorded n)) k (j.recorded n))
      else .next (enterHandler (saveWritten s k j kind) k (j.recorded n)) := by
  have hm := areaMoves_of_canWrite hc
  have hc' : canWrite s j.promoteAll.fdom j.promoteAll.ctxAddr.toNat j.promoteAll.ctxLen = true := by
    obtain ⟨h1, h2, h3, -⟩ := promoteAll_area k j
    rw [h1, h2, h3, hc]
  refine ⟨(saveWritten s k j kind).time - j.promoteAll.saveStart, ?_⟩
  show execContextSaveDone k s = _
  simp only [execContextSaveDone, hj, hk, hr, hw, hm, hc', Bool.or_self, Bool.not_true, Bool.false_eq_true, if_false]
  cases kind <;> rfl

end

/-! ### Handlers, parked jobs, deadlines -/

/-- `q` is at the start of a handler whose record stands at `a`. -/
structure HandlerStart (q : Job) (hnd a : Word) : Prop where
  level : q.level = .handler
  phase : q.phase = .running
  pc : q.pc = hnd
  s1 : q.s 1 = a
  s : ∀ r, r ≠ 1 → q.s r = 0
  p : ∀ p, p ≠ 0 → q.p p = false
  snap : q.snap.isSome = true

theorem enterHandler_starts (s : State) (k : Nat) (j : Job) :
    ∃ q, jobAt (enterHandler s k j) k = some q ∧ HandlerStart q (domainSt s j.fdom).ctxHnd j.ctxAddr := by
  refine ⟨_, (jobAt_congr (wakeSlot_jobs _ k) k).trans (jobAt_setJob_self _ _ _), rfl, rfl, rfl, rfl, fun r hr => ?_, fun p hp => ?_, rfl⟩
  · show (if r = 0 then (0 : Word) else ((Vector.replicate 64 (0 : Word)).set 1 j.ctxAddr)[r.toNat]) = 0
    have h1 : 1 ≠ r.toNat := by bv_omega
    simp [h1]
  · show (p == 0 || (1 : BitVec 8).getLsbD p.toNat) = false
    have h0 : p.toNat ≠ 0 := by bv_omega
    rw [beq_eq_false_iff_ne.mpr hp]
    simp [h0]

/-- `t` has the job `j` of slot `k` parked, with its accumulators promoted. -/
structure Parked (t : State) (k : Nat) (j q : Job) : Prop where
  saved : smGet t.saved j.uid = some q
  home : q.home = k
  preempt : q.preempt = none
  core : q.core = j.promoteAll.core
  phase : q.phase = j.phase

theorem parkSaved_parks (s : State) (k : Nat) (j : Job) (n : Nat) : ∃ q, Parked (parkSaved s k (j.recorded n)) k j q := by
  obtain ⟨a, f, hp⟩ := promoteAll_eq j
  have hr : (j.recorded n).uid = j.uid ∧ (j.recorded n).phase = j.phase := by
    rw [Job.recorded, hp]
    exact ⟨rfl, rfl⟩
  obtain ⟨hu, hph⟩ := hr
  have hs : smGet (parkSaved s k (j.recorded n)).saved (j.recorded n).uid = some _ := smGet_smSet_self _ _ _
  rw [hu] at hs
  exact ⟨_, hs, rfl, rfl, rfl, hph⟩

theorem parkSaved_frees {s : State} (h : SlotsOk s) (k : Nat) (j : Job) : jobAt (parkSaved s k j) k = none :=
  freeSlot_jobAt ((barrierUndo_keeps (.refl s) (jCluster k) j.uid).slots h) k j

section
variable {s : State} {k : Nat} {j : Job} {kind : CutKind} (hj : jobAt s k = some j) (hk : j.phase = .saving kind) (hr : j.replay = none)
  (hw : windowNm s j.uid = false)
include hj hk hr hw

/-- A trapped job whose record has been written is at the start of its handler. -/
theorem contextSaveDone_enters (hc : canWrite s j.fdom j.ctxAddr.toNat j.ctxLen = true) (ht : kind = .trap ∨ kind = .breakpoint)
    (hh : (domainSt s j.fdom).ctxHnd ≠ 0) :
    ∃ t q, Runs (.contextSaveDone k) s t ∧ jobAt t k = some q ∧ HandlerStart q (domainSt s j.fdom).ctxHnd j.ctxAddr := by
  obtain ⟨n, h⟩ := contextSaveDone_written hj hk hr hw hc
  obtain ⟨ha, hf, -, -⟩ := promoteAll_area k j
  obtain ⟨m, cs, hs⟩ := saveWritten_eq s k j kind
  have hd : (domainSt (saveWritten s k j kind) (j.recorded n).fdom).ctxHnd = (domainSt s j.fdom).ctxHnd := by
    rw [show (j.recorded n).fdom = j.fdom from hf, hs]
    rfl
  have hne : (domainSt (saveWritten s k j kind) (j.recorded n).fdom).ctxHnd ≠ 0 := by
    rw [hd]
    exact hh
  have hrun : Runs (.contextSaveDone k) s (enterHandler (saveWritten s k j kind) k (j.recorded n)) := by
    rcases ht with rfl | rfl
    · exact h.trans (if_neg hne)
    · exact h.trans (if_neg hne)
  obtain ⟨q, hq, hq'⟩ := enterHandler_starts (saveWritten s k j kind) k (j.recorded n)
  rw [hd, show (j.recorded n).ctxAddr = j.ctxAddr from ha] at hq'
  exact ⟨_, q, hrun, hq, hq'⟩

theorem contextSaveDone_parks (hc : canWrite s j.fdom j.ctxAddr.toNat j.ctxLen = true) (hf : kind = .forced) :
    ∃ t q, Runs (.contextSaveDone k) s t ∧ Parked t k j q ∧ (SlotsOk s → jobAt t k = none) := by
  obtain ⟨n, h⟩ := contextSaveDone_written hj hk hr hw hc
  obtain ⟨q, hq⟩ := parkSaved_parks (setJob (saveWritten s k j kind) k (j.recorded n)) k j n
  subst hf
  exact ⟨_, q, h, hq, fun hs => parkSaved_frees ((setJob_keeps (saveWritten_keeps s k j .forced) k _).slots hs) k _⟩

end

theorem saveDeadlineExpiry_abandons {s : State} {k : Nat} {j : Job} {kind : CutKind} (hj : jobAt s k = some j) (hk : j.phase = .saving kind)
    (hw : windowNm s j.uid = false) (ht : j.saveStart + saveLimit j ≤ s.time) :
    Runs (.saveDeadlineExpiry k) s (abandon s k j 3 0 j.ctxAddr.toNat (jobid k j)) := by
  show execSaveDeadlineExpiry k s = _
  simp only [execSaveDeadlineExpiry, hj, hk, hw, ht, and_self, if_true]

/-! ### Resumes -/

/-- What a job that leaves the saved jobs for slot `k` finds: the scope copies that it leaves behind are published. -/
def resumeFrom (s : State) (l n : Nat) (j : Job) (k : Nat) : State := leaveInstances { s with saved := smErase s.saved (2 ^ 48 * l + n) } j.home k

/-- The job as its record gives it, in slot `k`. -/
def Job.restored (j : Job) (s : State) (k base : Nat) : Job :=
  { j with core := resumeCore s k j base, epoch := (j.epoch + 1) % 16, home := k, resident := s.time, watch := s.time, lastRestore := freeTime s,
           level := .job, trapIn := false, dispatched := s.order }

section
variable {s : State} {l n k : Nat} {j : Job} {base : Nat} (hs : smGet s.saved (2 ^ 48 * l + n) = some j) (hd : (domainSt s j.fdom).domRst ≠ 1)
  (ht : savedTurn s j = true) (hf : resumeFit s j = some (k, base)) (hm : areaMoves s j.fdom j.ctxAddr.toNat (recordLen j) .read = false)
include hs hd ht hf hm

/-- A saved job whose turn has come and whose slot is free takes the slot, or is abandoned when its record cannot be read. -/
theorem jobResume_goes : exec (.jobResume l n) s = let t := resumeFrom s l n j k
    if canRead t j.fdom j.ctxAddr.toNat (recordLen j) = false then .next (abandon (setJob t k j) k j 3 0 j.ctxAddr.toNat (jobid j.home j))
    else .next (resumeJob (bankShare { t with order := t.order + 1 } (jCluster k) 16) k (j.restored t k base)) := by
  show execJobResume l n s = _
  simp only [execJobResume, hs, hd, ht, hf, hm, Bool.false_eq_true, reduceCtorEq, or_self, if_false, Bool.not_eq_true']
  rfl

theorem jobResume_resumes (hc : canRead (resumeFrom s l n j k) j.fdom j.ctxAddr.toNat (recordLen j) = true) :
    ∃ t q, Runs (.jobResume l n) s t ∧ jobAt t k = some q ∧ q.phase = .running ∧ q.level = .job ∧ q.epoch = (j.epoch + 1) % 16 ∧
      q.home = k ∧ q.resident = s.time ∧ q.uid = j.uid ∧ q.core.S = (resumeCore (resumeFrom s l n j k) k j base).S := by
  have htime : (resumeFrom s l n j k).time = s.time := leaveInstances_time _ _ _
  have hrun := jobResume_goes hs hd ht hf hm
  simp only [hc, Bool.true_eq_false, if_false] at hrun
  obtain ⟨q, ⟨_, _, _, _, _, rfl⟩, hq⟩ := jobAt_resumeJob
    (bankShare { resumeFrom s l n j k with order := (resumeFrom s l n j k).order + 1 } (jCluster k) 16) k (j.restored (resumeFrom s l n j k) k base)
  exact ⟨_, _, hrun, hq, rfl, rfl, rfl, rfl, htime, rfl, rfl⟩

end

/-! ### YIELD with a request pending -/

/-- A lite save of YIELD: a translation looks at no job but for the regions and at no cluster but for its partial lines, so that the record can
be written once YIELD has retired if it could be before. -/
theorem yield_saves {s : State} {k : Nat} {j : Job} (h : SReady s k j sJob []) (hm : j.joined j.presentMask = true)
    (ho : j.joinOver j.presentMask = none) (hp : nodePreempt s j = true) (hpr : j.preempt.isSome = true) (ha : hasArea s j = true)
    (hw : windowNm s j.uid = false) (ht : TraceOff s j.fdom) (hn : ∀ e ∈ maskStreams j.presentMask, NoLoopEnd (j.eng e) (j.eng e).pc)
    (hc : canWrite s j.fdom j.ctxAddr.toNat 256 = true) :
    ∃ t q, Runs .yield s t ∧ smGet t.saved j.uid = some q ∧ q.phase = .saving .lite ∧ q.home = k ∧ q.preempt = none ∧ q.pc = j.pc + 4 ∧
      (∀ r, r.toNat < 16 → q.s r = j.s r) ∧ (∀ e ∈ maskStreams j.presentMask, (q.eng e).pc = (j.eng e).pc + 12) ∧
      (SlotsOk s → jobAt t k = none) := by
  obtain ⟨t, q, hy, hal, hq, hsl⟩ := yieldDone_saves h.here h.count hm ho hp hpr ha hw ht hn (areaMoves_of_canWrite hc)
  have hct : canWrite t q.fdom q.ctxAddr.toNat 256 = true := by rw [hq.fdom, hq.ctxAddr, canWrite_alike hal, hc]
  have hoff : TraceOff t q.fdom := by
    obtain ⟨js, cs, -, -, rfl⟩ := hal
    rw [hq.fdom]
    exact ht
  obtain ⟨r, hr, hphase, hhome, hpre, hcore, hfree⟩ := liteSave_saves hoff hct
  rw [← hy, hq.uid] at hr
  rw [← hy] at hfree
  refine ⟨_, r, (yield_issues h).2 hm, hr, hphase, hhome, hpre, (pc_of_liteCore hcore).trans hq.pc, fun i hi => ?_, fun e he => ?_,
    fun h => hfree (hsl h)⟩
  · rw [s_of_liteCore hcore hi, Job.s, Job.s, hq.s]
  · rw [eng_pc_of_liteCore hcore, hq.eng e he]

/-- Settles O48, by what a save, a lite save and a resume each leave in the slot and among the saved jobs. -/
theorem contextEvents : Obligations.ContextEvents := by
  intro s k j
  refine ⟨fun hj hk hr hw hc hh => ?_, fun hj ⟨kind, hk⟩ hr hw => ⟨contextSaveDone_waits hj hk hr hw, contextSaveDone_lost hj hk hr hw⟩,
    fun hj hk hr hw hc => ?_, fun kind hj hk hw ht => saveDeadlineExpiry_abandons hj hk hw ht, yield_saves, fun l n k' base hs hd ht hf hm =>
      ⟨jobResume_resumes hs hd ht hf hm, fun hc => (jobResume_goes hs hd ht hf hm).trans (if_pos hc)⟩⟩
  · obtain ⟨t, q, hrun, hq, h⟩ : ∃ t q, Runs (.contextSaveDone k) s t ∧ jobAt t k = some q ∧
        HandlerStart q (domainSt s j.fdom).ctxHnd j.ctxAddr := by
      rcases hk with hk | hk
      · exact contextSaveDone_enters hj hk hr hw hc (.inl rfl) hh
      · exact contextSaveDone_enters hj hk hr hw hc (.inr rfl) hh
    exact ⟨t, q, hrun, hq, h.level, h.phase, h.pc, h.s1, h.s, h.p, h.snap⟩
  · obtain ⟨t, q, hrun, h, hfree⟩ := contextSaveDone_parks hj hk hr hw hc rfl
    exact ⟨t, q, hrun, h.saved, h.home, h.preempt, h.core, h.phase.trans hk, hfree⟩

end Sys2Proof.Machine
end
